-- ==== Sys2Proof/Word.lean ====
section
/-! DEFINITION. The word types of the W4 and the plain records that operations and events carry. -/

namespace Sys2Proof

abbrev Byte := BitVec 8
abbrev Half := BitVec 16
/-- A g, s or m register, a lane, a control word or an element word. -/
abbrev Word := BitVec 32
abbrev DWord := BitVec 64
/-- A unit (R20): a queue slot, an output slot, a w register. Lane i is bits [32i+31:32i]. -/
abbrev Slot := BitVec 256

/-- Scope codes 0 to 4 (R85). -/
inductive Scope where
  | elem | patch | part | dev | fab
  deriving DecidableEq, Repr, Inhabited

/-- Order kinds of a frame (R311, R342). -/
inductive FrameKind where
  | so | rc | uo
  deriving DecidableEq, Repr, Inhabited

/-- The agents of the ordering machine (R302). A Front unit has no accesses, only Install steps. -/
inductive AgentId where
  /-- element `el` (8y + x) of physical patch `p` -/
  | elem (p el : Nat)
  /-- the sequencer of patch `p` -/
  | seq (p : Nat)
  /-- stream port `k` of patch `p` -/
  | port (p k : Nat)
  /-- an accepted engine command, by its number -/
  | engine (n : Nat)
  /-- a host virtual function -/
  | host (vf : Nat)
  /-- the command processor, working for a partition -/
  | cmdProc (part : Nat)
  /-- an agent of another module, whose packets this module owns the target of (R411) -/
  | remote (mod : Nat)
  deriving DecidableEq, Repr, Inhabited

/-- The visibility buffers (R304): one per patch, partition, module and fabric domain. -/
inductive VisId where
  | patch (p : Nat) | part (n : Nat) | dev | fab
  deriving DecidableEq, Repr, Inhabited

/-- Atomic kinds 0 to 7 (R82). -/
inductive AtomKind where
  | add | min | max | and | or | xor | swap | cas
  deriving DecidableEq, Repr, Inhabited

/-- The members of PHND with PLACE (R221, R222). -/
inductive PlaceKind where
  | place | pwait | pgive | pswap | paban | prel
  deriving DecidableEq, Repr, Inhabited

/-- Engine command kinds (R225). -/
inductive EngKind where
  | cpy | gath | scat | trig | coll | flagst
  deriving DecidableEq, Repr, Inhabited

/-- The names of the trap cause table (R114). A software cause keeps its code. -/
inductive Cause where
  | ok | illop | align | xlate | perm | frozen | feTimeout | dz | deadlock | witnessStale | placeStale
  | ovfDiff | doubleResolve | watchdog | cfgEcc | cfgNoconv | cfgIllop | migrateAbort | slip | noplace | qfull
  | software (code : Byte)
  deriving DecidableEq, Repr, Inhabited

/-- A fabric packet (R410): the fields of its header and its payload bytes. -/
structure Packet where
  kind : BitVec 4
  vc : BitVec 4
  hop : BitVec 4
  scope : BitVec 3
  dmod : BitVec 9
  smod : BitVec 9
  part : BitVec 5
  len : BitVec 9
  tag : Half
  op : Byte
  addr : BitVec 51
  payload : List Byte
  deriving DecidableEq, Repr, Inhabited

/-- Names an agent that the manager may thaw (R396, R431): the fields of its freeze record. -/
structure ThawName where
  queue : Nat
  lp : Nat
  el : Nat
  /-- 0 element, 1 sequencer, 2 stream port, 3 engine command, 4 host virtual function; 5 the whole load (R152) -/
  agent : Nat
  port : Nat
  blk : DWord
  deriving DecidableEq, Repr, Inhabited

/-- What GRANT gives (R431): patches, link pools and physical frames of 64 KiB, the frame-table root, the tensor
table and the save area. R431 gives no argument layout: log 4. -/
structure GrantArgs where
  part : Nat
  patches : List Nat
  take : List Nat
  frames : List Nat
  root : Option Nat
  tensors : List (Nat × List DWord)
  saveArea : Option Nat
  fqBase : Nat
  fqLog : Nat
  /-- the partition's number in the fabric domain, which packets carry (R430) -/
  ident : Option Nat
  deriving DecidableEq, Repr, Inhabited

/-- A flat address, and the partition in whose flat memory it lies (R340; log 4). -/
structure FlatAt where
  part : Nat
  addr : Nat
  deriving DecidableEq, Repr, Inhabited

/-- What QSET sets (R372, R427, R431): log 4. -/
structure QSetArgs where
  queue : Nat
  part : Nat
  pri : Nat
  weight : Nat
  ringBase : Nat
  ringLog : Nat
  ringHost : Bool
  vf : Nat
  n : Nat
  msix : Bool
  deriving DecidableEq, Repr, Inhabited

/-- What TIMEOUTS sets (R214, R354, R414, R345), in nanoseconds; 0 is no limit: log 4. -/
structure TimeoutArgs where
  part : Nat
  feNs : Nat
  escalationNs : Nat
  custodyNs : Nat
  remoteWalk : Bool
  deriving DecidableEq, Repr, Inhabited

/-- What self-test finds (R442 to R447): the units that failed, and the first failure. -/
structure SelfTest where
  patches : List Nat
  hbm : List Nat
  ports : List Nat
  lanes : List Nat
  io : List Nat
  fclass : Byte
  fcode : Byte
  findex : Half
  deriving DecidableEq, Repr, Inhabited

/-- A unit whose full-rate calibration ends (R442, R443). -/
inductive CalUnit where
  | patch (n : Nat) | hbm (n : Nat) | port (n : Nat) | lane (n : Nat) | all
  deriving DecidableEq, Repr, Inhabited

/-- A firmware image as the boot ROM sees it (R449, R450): the SHA-256 digest of its bytes, its signature and its SVN. -/
structure FwImage where
  digest : List Byte
  signature : List Byte
  svn : Byte
  deriving DecidableEq, Repr, Inhabited

/-- What the boot ROM is given to start (R448 to R450): the firmware public key, and the images of the security processor, the command
processor and the management controller. -/
structure Firmware where
  key : List Byte
  images : List FwImage
  deriving DecidableEq, Repr, Inhabited

end Sys2Proof
end

