-- ==== Sys2Proof/Syntax.lean ====
section
/-! DEFINITION. The instructions of the W4: one constructor per row of the opcode table. A control word, an element word and
a switch word carry their encoding fields (R74, R86, R98); an operation or event of the table carries what names it. -/

namespace Sys2Proof

/-- Every row of the opcode table. `p` is a physical patch, `e` a patch-local element 8y + x, `k` a stream port,
`q` a hardware queue, `n` a number that names an instance, an access, a command or a packet. -/
inductive Instr where
  -- control words (R74 to R84)
  | seqAdd (d a b : BitVec 5)
  | seqSub (d a b : BitVec 5)
  | seqAnd (d a b : BitVec 5)
  | seqOr (d a b : BitVec 5)
  | seqXor (d a b : BitVec 5)
  | seqSll (d a b : BitVec 5)
  | seqSrl (d a b : BitVec 5)
  | seqSra (d a b : BitVec 5)
  | seqSlt (d a b : BitVec 5)
  | seqSltu (d a b : BitVec 5)
  | seqMul (d a b : BitVec 5)
  | seqMulh (d a b : BitVec 5)
  | seqMulhu (d a b : BitVec 5)
  | seqDiv (d a b : BitVec 5)
  | seqDivu (d a b : BitVec 5)
  | seqRem (d a b : BitVec 5)
  | seqRemu (d a b : BitVec 5)
  | seqMin (d a b : BitVec 5)
  | seqMax (d a b : BitVec 5)
  | minu (d a b : BitVec 5)
  | maxu (d a b : BitVec 5)
  | seqAdds (d a b : BitVec 5)
  | seqSubs (d a b : BitVec 5)
  | kcmp (k : BitVec 2) (a b : BitVec 5) (c : BitVec 3)
  | xret
  | wfe
  | seqFence (s : BitVec 3)
  | freeze
  | tscr (d : BitVec 5)
  | rdtag (d : BitVec 5)
  | launch (d a b : BitVec 5)
  | signal (a b : BitVec 5) (s : BitVec 3)
  | seqAddi (d a : BitVec 5) (i : BitVec 16)
  | seqAndi (d a : BitVec 5) (i : BitVec 16)
  | seqOri (d a : BitVec 5) (i : BitVec 16)
  | seqXori (d a : BitVec 5) (i : BitVec 16)
  | seqSlti (d a : BitVec 5) (i : BitVec 16)
  | sltiu (d a : BitVec 5) (i : BitVec 16)
  | seqSlli (d a i : BitVec 5)
  | seqSrli (d a i : BitVec 5)
  | seqSrai (d a i : BitVec 5)
  | lui (d : BitVec 5) (i : BitVec 16)
  | jalr (d a : BitVec 5) (i : BitVec 16)
  | trap (a : BitVec 5) (s c : BitVec 8)
  | csrr (d : BitVec 5) (c : BitVec 12)
  | csrw (a : BitVec 5) (c : BitVec 12)
  | lb (d a : BitVec 5) (i : BitVec 16)
  | lbu (d a : BitVec 5) (i : BitVec 16)
  | lh (d a : BitVec 5) (i : BitVec 16)
  | lhu (d a : BitVec 5) (i : BitVec 16)
  | lw (d a : BitVec 5) (i : BitVec 16)
  | sb (d a : BitVec 5) (i : BitVec 16)
  | sh (d a : BitVec 5) (i : BitVec 16)
  | sw (d a : BitVec 5) (i : BitVec 16)
  | beq (a b : BitVec 5) (o : BitVec 16)
  | bne (a b : BitVec 5) (o : BitVec 16)
  | blt (a b : BitVec 5) (o : BitVec 16)
  | bge (a b : BitVec 5) (o : BitVec 16)
  | bltu (a b : BitVec 5) (o : BitVec 16)
  | bgeu (a b : BitVec 5) (o : BitVec 16)
  | bkt (k : BitVec 2) (o : BitVec 16)
  | bkf (k : BitVec 2) (o : BitVec 16)
  | j (o : BitVec 26)
  | jal (o : BitVec 26)
  | loop (l : BitVec 2) (c : BitVec 11) (n : BitVec 8)
  | loopr (l : BitVec 2) (g : BitVec 5) (n : BitVec 8)
  | lbrk (l : BitVec 2)
  | ldm (d a : BitVec 5) (o z : BitVec 2) (s : BitVec 1) (c : BitVec 3)
  | stm (d a : BitVec 5) (o z : BitVec 2) (c : BitVec 3)
  | seqAadd (d a : BitVec 5) (w : BitVec 1) (o : BitVec 2) (c : BitVec 3)
  | seqAmin (d a : BitVec 5) (w : BitVec 1) (o : BitVec 2) (c : BitVec 3)
  | seqAmax (d a : BitVec 5) (w : BitVec 1) (o : BitVec 2) (c : BitVec 3)
  | seqAand (d a : BitVec 5) (w : BitVec 1) (o : BitVec 2) (c : BitVec 3)
  | seqAor (d a : BitVec 5) (w : BitVec 1) (o : BitVec 2) (c : BitVec 3)
  | seqAxor (d a : BitVec 5) (w : BitVec 1) (o : BitVec 2) (c : BitVec 3)
  | seqAswp (d a : BitVec 5) (w : BitVec 1) (o : BitVec 2) (c : BitVec 3)
  | seqAcas (d a : BitVec 5) (w : BitVec 1) (o : BitVec 2) (c : BitVec 3)
  | sbind (a : BitVec 5) (p : BitVec 4)
  | sgo (p : BitVec 4)
  | swaitp (p : BitVec 4)
  | sbar
  | cfgld (d a : BitVec 5)
  | cfgpat (d a : BitVec 5)
  | cfgrect (d a : BitVec 5)
  | cfgcmt (d : BitVec 5)
  | cfgabt
  -- element operation words (R86 to R97)
  | add (d a b : BitVec 5) (w z : BitVec 1) (k : BitVec 3)
  | sub (d a b : BitVec 5) (w z : BitVec 1) (k : BitVec 3)
  | mul (d a b : BitVec 5) (w z : BitVec 1) (k : BitVec 3)
  | mulh (d a b : BitVec 5) (w z : BitVec 1) (k : BitVec 3)
  | mulhu (d a b : BitVec 5) (w z : BitVec 1) (k : BitVec 3)
  | div (d a b : BitVec 5) (w z : BitVec 1) (k : BitVec 3)
  | divu (d a b : BitVec 5) (w z : BitVec 1) (k : BitVec 3)
  | rem (d a b : BitVec 5) (w z : BitVec 1) (k : BitVec 3)
  | remu (d a b : BitVec 5) (w z : BitVec 1) (k : BitVec 3)
  | and (d a b : BitVec 5) (w z : BitVec 1) (k : BitVec 3)
  | or (d a b : BitVec 5) (w z : BitVec 1) (k : BitVec 3)
  | xor (d a b : BitVec 5) (w z : BitVec 1) (k : BitVec 3)
  | sll (d a b : BitVec 5) (w z : BitVec 1) (k : BitVec 3)
  | srl (d a b : BitVec 5) (w z : BitVec 1) (k : BitVec 3)
  | sra (d a b : BitVec 5) (w z : BitVec 1) (k : BitVec 3)
  | slt (d a b : BitVec 5) (w z : BitVec 1) (k : BitVec 3)
  | sltu (d a b : BitVec 5) (w z : BitVec 1) (k : BitVec 3)
  | min (d a b : BitVec 5) (w z : BitVec 1) (k : BitVec 3)
  | max (d a b : BitVec 5) (w z : BitVec 1) (k : BitVec 3)
  | adds (d a b : BitVec 5) (w z : BitVec 1) (k : BitVec 3)
  | subs (d a b : BitVec 5) (w z : BitVec 1) (k : BitVec 3)
  | fadd (d a b : BitVec 5) (f : BitVec 2) (r : BitVec 3) (w z : BitVec 1) (k : BitVec 3)
  | fsub (d a b : BitVec 5) (f : BitVec 2) (r : BitVec 3) (w z : BitVec 1) (k : BitVec 3)
  | fmul (d a b : BitVec 5) (f : BitVec 2) (r : BitVec 3) (w z : BitVec 1) (k : BitVec 3)
  | fdiv (d a b : BitVec 5) (f : BitVec 2) (r : BitVec 3) (w z : BitVec 1) (k : BitVec 3)
  | fmac (d a b : BitVec 5) (f : BitVec 2) (r : BitVec 3) (w z : BitVec 1) (k : BitVec 3)
  | fmin (d a b : BitVec 5) (f : BitVec 2) (w z : BitVec 1) (k : BitVec 3)
  | fmax (d a b : BitVec 5) (f : BitVec 2) (w z : BitVec 1) (k : BitVec 3)
  | fsqrt (d a : BitVec 5) (f : BitVec 2) (r : BitVec 3) (w z : BitVec 1) (k : BitVec 3)
  | feq (d a b : BitVec 5) (f : BitVec 2) (w z : BitVec 1) (k : BitVec 3)
  | flt (d a b : BitVec 5) (f : BitVec 2) (w z : BitVec 1) (k : BitVec 3)
  | fle (d a b : BitVec 5) (f : BitVec 2) (w z : BitVec 1) (k : BitVec 3)
  | mov (d a : BitVec 5) (w z : BitVec 1) (k : BitVec 3)
  | sel (d a b c : BitVec 5) (w z : BitVec 1) (k : BitVec 3)
  | lbc (a : BitVec 5) (s : BitVec 1) (c : BitVec 4)
  | lext (d a : BitVec 5) (s : BitVec 1) (c : BitVec 4)
  | lins (a b : BitVec 5) (c : BitVec 4)
  | pack (d a b : BitVec 5) (s : BitVec 1) (w : BitVec 2) (z : BitVec 1) (k : BitVec 3)
  | unpk (d a : BitVec 5) (h s : BitVec 1) (w : BitVec 2) (z : BitVec 1) (k : BitVec 3)
  | mlane (a b : BitVec 5) (c : BitVec 2) (n : BitVec 3) (z : BitVec 1) (k : BitVec 3)
  | mset (a : BitVec 5) (n : BitVec 3)
  | mget (d : BitVec 5) (n : BitVec 3)
  | sprd (d c : BitVec 5)
  | spwr (a c : BitVec 5)
  | take (d a : BitVec 5) (l : BitVec 3)
  | peek (d a : BitVec 5) (l : BitVec 3)
  | adv (a n : BitVec 5)
  | emit (d a : BitVec 5)
  | waitf (d a n : BitVec 5)
  | waite (d a n : BitVec 5)
  | rrot (d a b : BitVec 5) (k : BitVec 1)
  | lgen (d a b : BitVec 5) (t : BitVec 2)
  | tcmp (d a b : BitVec 5)
  | tjoin (d a b : BitVec 5)
  | tmeet (d a b : BitVec 5)
  | tadv (d a b : BitVec 5)
  | frd (d a : BitVec 5)
  | frdCnt (d a : BitVec 5)
  | fwait (d a : BitVec 5)
  | caph (d a : BitVec 5)
  | capd (d a : BitVec 5)
  | capx (d a b : BitVec 5)
  | ains (d a b c : BitVec 5)
  | amrg (d a b : BitVec 5)
  | aprb (d a b : BitVec 5) (p : BitVec 2)
  | acmp (d a b : BitVec 5)
  | acon (d a b : BitVec 5)
  | join (d a b : BitVec 5) (v : BitVec 1) (k p : BitVec 2)
  | red (d a b : BitVec 5) (k : BitVec 3) (p : BitVec 2)
  | wrel (d a b : BitVec 5)
  | aadd (d a b : BitVec 5) (r w : BitVec 1) (s : BitVec 3)
  | amin (d a b : BitVec 5) (r w : BitVec 1) (s : BitVec 3)
  | amax (d a b : BitVec 5) (r w : BitVec 1) (s : BitVec 3)
  | aand (d a b : BitVec 5) (r w : BitVec 1) (s : BitVec 3)
  | aor (d a b : BitVec 5) (r w : BitVec 1) (s : BitVec 3)
  | axor (d a b : BitVec 5) (r w : BitVec 1) (s : BitVec 3)
  | aswp (d a b : BitVec 5) (r w : BitVec 1) (s : BitVec 3)
  | acas (d a b : BitVec 5) (r w : BitVec 1) (s : BitVec 3)
  | pwait (d a b : BitVec 5) (s : BitVec 3)
  | pgive (d a b : BitVec 5) (s : BitVec 3)
  | pswap (d a b : BitVec 5) (s : BitVec 3)
  | paban (d a b : BitVec 5) (s : BitVec 3)
  | prel (d a b : BitVec 5) (s : BitVec 3)
  | cpy (d a : BitVec 5) (s : BitVec 3)
  | gath (d a : BitVec 5) (s : BitVec 3)
  | scat (d a : BitVec 5) (s : BitVec 3)
  | trig (d a : BitVec 5) (s : BitVec 3)
  | coll (d a : BitVec 5) (s : BitVec 3)
  | flagst (d a : BitVec 5) (s : BitVec 3)
  | thaw (d a : BitVec 5)
  | bubl (d a b : BitVec 5)
  | addi (d a : BitVec 5) (i : BitVec 15)
  | andi (d a : BitVec 5) (i : BitVec 15)
  | ori (d a : BitVec 5) (i : BitVec 15)
  | xori (d a : BitVec 5) (i : BitVec 15)
  | slti (d a : BitVec 5) (i : BitVec 15)
  | slli (d a i : BitVec 5)
  | srli (d a i : BitVec 5)
  | srai (d a i : BitVec 5)
  | movhi (d : BitVec 5) (i : BitVec 15)
  | drain (p : BitVec 2)
  | ldI8 (d a : BitVec 5) (o : BitVec 12) (s : BitVec 3)
  | ldB8 (d a : BitVec 5) (o : BitVec 12) (s : BitVec 3)
  | ldI16 (d a : BitVec 5) (o : BitVec 12) (s : BitVec 3)
  | ldB16 (d a : BitVec 5) (o : BitVec 12) (s : BitVec 3)
  | ldB32 (d a : BitVec 5) (o : BitVec 12) (s : BitVec 3)
  | ldB64 (d a : BitVec 5) (o : BitVec 12) (s : BitVec 3)
  | ldW (d a : BitVec 5) (o : BitVec 12) (s : BitVec 3)
  | stB8 (d a : BitVec 5) (o : BitVec 12) (s : BitVec 3)
  | stB16 (d a : BitVec 5) (o : BitVec 12) (s : BitVec 3)
  | stB32 (d a : BitVec 5) (o : BitVec 12) (s : BitVec 3)
  | stB64 (d a : BitVec 5) (o : BitVec 12) (s : BitVec 3)
  | stW (d a : BitVec 5) (o : BitVec 12) (s : BitVec 3)
  | ldAcqB32 (d a : BitVec 5) (o : BitVec 12) (s : BitVec 3)
  | ldAcqB64 (d a : BitVec 5) (o : BitVec 12) (s : BitVec 3)
  | stRelB32 (d a : BitVec 5) (o : BitVec 12) (s : BitVec 3)
  | stRelB64 (d a : BitVec 5) (o : BitVec 12) (s : BitVec 3)
  | ldf (d a : BitVec 5) (o : BitVec 12) (s : BitVec 3)
  | ldfe (d a : BitVec 5) (o : BitVec 12) (s : BitVec 3)
  | ste (d a : BitVec 5) (o : BitVec 12) (s : BitVec 3)
  | stf (d a : BitVec 5) (o : BitVec 12) (s : BitVec 3)
  | feclr (d a : BitVec 5) (o : BitVec 12) (s : BitVec 3)
  | place (d a : BitVec 5) (s : BitVec 3)
  | fence (s : BitVec 3)
  | mma (t : BitVec 2) (a b : BitVec 5) (f : BitVec 4) (d c : BitVec 1) (r : BitVec 3)
  | mmag (t : BitVec 2) (a b : BitVec 5) (f : BitVec 4) (d c : BitVec 1) (r : BitVec 3)
  | ldt (a b : BitVec 5) (f : BitVec 4)
  | sortn (a b : BitVec 5) (f : BitVec 4) (u d : BitVec 1)
  | cvt (a b : BitVec 5) (f s : BitVec 4) (r : BitVec 3)
  | scld (t : BitVec 2) (a b : BitVec 5) (f : BitVec 4)
  | scem (t : BitVec 2) (a b : BitVec 5) (f : BitVec 4)
  | accld (t : BitVec 2) (a : BitVec 5) (f : BitVec 4)
  | accst (t : BitVec 2) (a b : BitVec 5) (f : BitVec 4)
  | rmax (t : BitVec 2) (a b : BitVec 5) (f : BitVec 4) (w : BitVec 1)
  | rmin (t : BitVec 2) (a b : BitVec 5) (f : BitVec 4) (w : BitVec 1)
  | rclmp (t : BitVec 2) (a b : BitVec 5) (f : BitVec 4) (w : BitVec 1)
  | rmed (t : BitVec 2) (a b : BitVec 5) (f : BitVec 4) (w : BitVec 1)
  | rsats (t : BitVec 2) (a b : BitVec 5) (f : BitVec 4) (w : BitVec 1)
  | adjb (t : BitVec 2) (a b : BitVec 5) (f : BitVec 4)
  | commit
  | br (k : BitVec 4) (c : BitVec 1) (s : BitVec 4) (m : BitVec 2) (g : BitVec 14)
  | halt
  -- switch words (R98, R99); SLOT carries its extension word
  | nop
  | circ (i o : BitVec 3) (v : BitVec 4)
  | slot (i o : BitVec 3) (v : BitVec 4) (first run : BitVec 8)
  | best (i o : BitVec 3)
  | width (o : BitVec 3) (w : BitVec 2)
  | scale (i o : BitVec 3)
  | endList
  -- operations and events
  | blockFire (p e b : Nat) (tag : BitVec 12)
  | instanceCommit (p e n : Nat)
  | elementFaultDelivery (p : Nat)
  | ereplayDiscard (p : Nat)
  | ereplayRetry (p : Nat)
  | wfeWake (p : Nat)
  | wfeTimeout (p : Nat)
  | configSwap (p : Nat)
  | routerForward (p e i v : Nat)
  | generatorEmit (p e o : Nat)
  | emitterSend (p e o : Nat)
  | rrotRotate (p : Nat)
  | scaleTokenArrive (p e : Nat)
  | bankReplay (p e : Nat)
  | streamStep (p k : Nat)
  | repairStep (p k : Nat)
  | faultRecordWrite (p k : Nat)
  | resume (vf : Nat) (v : DWord)
  | escalation (p k : Nat)
  | feTimeout (p e n : Nat)
  | bufferStep (a : AgentId) (n : Nat)
  | placeStep (a : AgentId) (n : Nat)
  | drainStep (b : VisId) (n : Nat)
  | readStep (a : AgentId) (n : Nat)
  | ownerStep (a : AgentId) (n : Nat)
  | releaseStep (p k : Nat)
  | installStep (p e q : Nat)
  | frontCountExchange (p : Nat)
  | walk (part : Nat) (tensor : Bool) (a : DWord)
  | tableMigrate (part : Nat) (a : DWord)
  | engineComplete (n : Nat)
  | gatherBurst (n k : Nat)
  | triggerEvaluate (p t : Nat)
  | deadlockProbe (p e : Nat)
  | probeForward (q n : Nat)
  | doorbell (vf n : Nat) (v : Word)
  | fqhead (vf : Nat) (v : Word)
  | verrClear (vf : Nat) (v : Word)
  | bar0WriteOther (vf off : Nat)
  | hostWrite (vf : Nat) (fa : BitVec 56) (bytes : List Byte)
  | hostRead (vf : Nat) (fa : BitVec 56) (len : Nat)
  | packetTake (q : Nat)
  | packetTrigger (q : Nat)
  | packetStart (q : Nat)
  | configLoad (q : Nat)
  | stage (q : Nat)
  | loadNaturalEnd (q : Nat)
  | loadCompletionRecord (q : Nat)
  | loadFreeze (q : Nat)
  | evict (q : Nat)
  | restore (q : Nat)
  | preempt (q : Nat)
  | loadMove (q : Nat)
  | watchdogExpiry (q : Nat)
  | patchPowerGate (p : Nat)
  | patchWake (p : Nat)
  | pcreate (part : Nat) (keyAddr : FlatAt) (keyCount : Nat) (sig : Bool)
  | pdestroy (part : Nat)
  | grant (g : GrantArgs)
  | qset (g : QSetArgs)
  | qenable (q : Nat)
  | qdisable (q : Nat)
  | vfbind (vf part : Nat)
  | wdack (q : Nat)
  | thawCommand (t : ThawName)
  | lend (q : Nat)
  | ldiscard (q : Nat)
  | lpreempt (q : Nat)
  | inval (part : Nat) (lo hi : DWord)
  | timeouts (t : TimeoutArgs)
  | route (entries : List (Nat × Half))
  | slotld (port : Nat) (entries : List (Nat × Nat × Half))
  | migrate (part phase target : Nat)
  | readSaveFrame (q lp piece : Nat)
  | readSlipcnt (port k : Nat)
  | readLinkErrors (port k : Nat)
  | readFailureMap (k : Nat)
  | readBootReport (k : Nat) (nonce : List DWord)
  | readDeviceState (k : Nat)
  | readIdentityCert (k : Nat)
  | readThrottle (k : Nat)
  | rd (port : Nat) (k : Packet)
  | rdr (port : Nat) (k : Packet)
  | wr (port : Nat) (k : Packet)
  | wra (port : Nat) (k : Packet)
  | atom (port : Nat) (k : Packet)
  | atomr (port : Nat) (k : Packet)
  | flaginc (port : Nat) (k : Packet)
  | cust (port : Nat) (k : Packet)
  | err (port : Nat) (k : Packet)
  | redir (port : Nat) (k : Packet)
  | sync (port : Nat) (sample : DWord)
  | syncSend (port : Nat)
  | collPacket (port : Nat) (k : Packet)
  | fabricForward (port n : Nat)
  | flitReplay (port n : Nat)
  | custodyResend (n : Nat)
  | custodyTimeout (n : Nat)
  | collectiveStart (n : Nat) (peers : List (List DWord))
  | tileArrival (n t : Nat) (data : List Byte)
  | collectiveComplete (n : Nat)
  | collectiveBudgetExpiry (n : Nat)
  | framePull (part fa : Nat) (data : List Byte) (full : List Bool)
  | stubForward (k : Packet)
  | migrateAbort (n : Nat)
  | deviceReset
  | powerGood (fw : Firmware)
  | selftestDone (r : SelfTest)
  | calibrationDone (u : CalUnit) (ok : Bool)
  | patchJoinFull (p : Nat)
  | throttleRise (die celsius milliPower : Nat)
  | throttleFall (die : Nat)
  | thermalShutdown (celsius : Nat)
  | linkStart (port modNum version : Nat) (master : DWord)
  | reservedControlWord (w : Word)
  | unknownCommand (code : Byte)
  deriving DecidableEq, Repr, Inhabited

end Sys2Proof
end

