-- ==== Sys2Proof/Config.lean ====
section
/-! DEFINITION. What an implementation fixes and the values that the spec leaves open: constants without a body, so that
no proof can use a value of them. -/

namespace Sys2Proof.Config

/-- A free 32-bit value, for each number drawn from the state's counter (log 2). -/
opaque freeWord : Nat → Word

/-- A free 64-bit value (log 2). -/
opaque freeDWord : Nat → DWord

/-- A free byte (log 2). -/
opaque freeByte : Nat → Byte

/-- A free choice between two behaviours that the spec allows (log 2). -/
opaque freeBool : Nat → Bool

/-- The load patch index whose shadow store an uncorrectable ECC error strikes while a configuration is written, if one does (R382;
log 5). -/
opaque strike : Nat → Option Nat

/-- The address field of an effective pointer whose sum lies outside its space: the field cannot hold it, and it does not wrap
(R208; log 53). -/
opaque outside : DWord → Int → Nat

/-- The cycles after a word of an instance has completed before its next word may issue: patch, element, instance, the word's index
and the cycle (R31, R34; log 52). -/
opaque latency : List Nat → Nat

/-- The operation or event that moves when no turn is listed (log 1, log 2). -/
opaque freeEvent : Nat → Instr

/-- The number of fabric cycles that pass before it (log 1, log 2). -/
opaque freeWait : Nat → Nat

/-- How many units of a channel stand at a router input before its back-pressure reaches the sender, less one; the spec gives
no size (R456; log 15). -/
opaque routerRoom : Nat

/-- The module that the partition manager has named as the domain's time master (R417; log 18). -/
opaque timeMaster : Nat

/-- What VER of BAR0 holds: the negotiated interface versions, in a layout that the spec does not give (R426, R433; log 72). -/
opaque bar0Ver : Word

/-- Whether a link of a version below the one that this part offers lacks a packet kind: the spec says of no kind which version has it
(R433; log 77). -/
opaque linkLacks : Nat → Nat → Bool

/-- The signature that the identity key makes of a digest (R451; log 12). -/
opaque sign : List Byte → List Byte

/-- The digest of Vilat's firmware public key, in the boot ROM (R448). -/
opaque firmwareKeyDigest : List Byte

/-- The identity certificate (R448). -/
opaque certificate : List Byte

/-- The device serial number (R451). -/
opaque serial : List Byte

/-- The digest of the fuse and calibration tables (R450). -/
opaque fuseDigest : List Byte

end Sys2Proof.Config
end

