-- ==== Sys2Proof/WellFormed.lean ====
section
/-! DEFINITION. Well-formedness: what the fields of a word must satisfy beyond the bits of its format, from R76, R79, R82,
R84, R85, R88, R91 to R100 and the rules of each instruction. A control word that breaks one raises ILLOP (R102); an element
word or a switch word that breaks one fails the load with CFG_ILLOP (R101, R103). -/

namespace Sys2Proof

/-- A register pair field is even and lies between 2 and 30 (R84). -/
def gPairOk (r : BitVec 5) : Bool := r.toNat % 2 == 0 && decide (2 ≤ r.toNat)

/-- The 64-bit ACAS of a sequencer names four registers: a multiple of 4 from 4 to 28 (R131). -/
def gQuadOk (r : BitVec 5) : Bool := r.toNat % 4 == 0 && decide (4 ≤ r.toNat)

/-- Scope codes 5 to 7 are reserved (R85). -/
def scopeOk (s : BitVec 3) : Bool := decide (s.toNat ≤ 4)

/-- A source field holds 0 to 19 or 24 to 31 (R88). -/
def srcOk (r : BitVec 5) : Bool := decide (r.toNat ≤ 19) || decide (24 ≤ r.toNat)

/-- A destination field holds 0 to 15 or 20 to 31 (R88). -/
def dstOk (r : BitVec 5) : Bool := decide (r.toNat ≤ 15) || decide (20 ≤ r.toNat)

/-- A queue or a circular buffer (R169). -/
def qcbOk (r : BitVec 5) : Bool := (decide (16 ≤ r.toNat) && decide (r.toNat ≤ 19)) || decide (24 ≤ r.toNat)

/-- An output port or a circular buffer as a destination (R195, R198). -/
def ocbOk (r : BitVec 5) : Bool := decide (20 ≤ r.toNat)

/-- An output port o0 to o3. -/
def oPort (r : BitVec 5) : Bool := decide (20 ≤ r.toNat) && decide (r.toNat ≤ 23)

/-- An even pair s(n):s(n+1), 0 to 14 (R94, R237). -/
def sPairOk (r : BitVec 5) : Bool := r.toNat % 2 == 0 && decide (r.toNat ≤ 14)

/-- A tile operand: s0 to s15 or cb0 to cb7 (R182). -/
def tileOk (r : BitVec 5) : Bool := decide (r.toNat ≤ 15) || decide (24 ≤ r.toNat)

/-- With W = 0, m[3:0] must be zero (R91). -/
def laneOk (w z : BitVec 1) (k : BitVec 3) : Bool := w == 1 || (z == 0 && k == 0)

/-- With W = 0, ft must be 0 (R92). -/
def fpOk (f : BitVec 2) (w : BitVec 1) : Bool := w == 1 || f == 0

/-- What a word's fields must satisfy. An operation or event has no field to check. -/
def Instr.wf : Instr → Bool
  | .seqAdd _ _ _ => true
  | .seqSub _ _ _ => true
  | .seqAnd _ _ _ => true
  | .seqOr _ _ _ => true
  | .seqXor _ _ _ => true
  | .seqSll _ _ _ => true
  | .seqSrl _ _ _ => true
  | .seqSra _ _ _ => true
  | .seqSlt _ _ _ => true
  | .seqSltu _ _ _ => true
  | .seqMul _ _ _ => true
  | .seqMulh _ _ _ => true
  | .seqMulhu _ _ _ => true
  | .seqDiv _ _ _ => true
  | .seqDivu _ _ _ => true
  | .seqRem _ _ _ => true
  | .seqRemu _ _ _ => true
  | .seqMin _ _ _ => true
  | .seqMax _ _ _ => true
  | .minu _ _ _ => true
  | .maxu _ _ _ => true
  | .seqAdds _ _ _ => true
  | .seqSubs _ _ _ => true
  | .kcmp _ _ _ c => decide (c.toNat ≤ 5)
  | .xret => true
  | .wfe => true
  | .seqFence s => scopeOk s
  | .freeze => true
  | .tscr d => gPairOk d
  | .rdtag _ => true
  | .launch _ a _ => gPairOk a
  | .signal a _ s => gPairOk a && scopeOk s
  | .seqAddi _ _ _ => true
  | .seqAndi _ _ _ => true
  | .seqOri _ _ _ => true
  | .seqXori _ _ _ => true
  | .seqSlti _ _ _ => true
  | .sltiu _ _ _ => true
  | .seqSlli _ _ _ => true
  | .seqSrli _ _ _ => true
  | .seqSrai _ _ _ => true
  | .lui _ _ => true
  | .jalr _ _ _ => true
  | .trap _ _ _ => true
  | .csrr _ _ => true
  | .csrw _ _ => true
  | .lb _ _ _ => true
  | .lbu _ _ _ => true
  | .lh _ _ _ => true
  | .lhu _ _ _ => true
  | .lw _ _ _ => true
  | .sb _ _ _ => true
  | .sh _ _ _ => true
  | .sw _ _ _ => true
  | .beq _ _ _ => true
  | .bne _ _ _ => true
  | .blt _ _ _ => true
  | .bge _ _ _ => true
  | .bltu _ _ _ => true
  | .bgeu _ _ _ => true
  | .bkt _ _ => true
  | .bkf _ _ => true
  | .j _ => true
  | .jal _ => true
  | .loop l _ _ => decide (l.toNat ≤ 2)
  | .loopr l _ _ => decide (l.toNat ≤ 2)
  | .lbrk l => decide (l.toNat ≤ 2)
  | .ldm d a o z s c => gPairOk a && decide (o.toNat ≤ 1) && scopeOk c && (z.toNat != 3 || gPairOk d) && (s == 0 || decide (z.toNat ≤ 1))
  | .stm d a o z c => gPairOk a && decide (o.toNat ≤ 1) && scopeOk c && (z.toNat != 3 || gPairOk d)
  | .seqAadd d a w _ c => gPairOk a && scopeOk c && (w == 0 || gPairOk d)
  | .seqAmin d a w _ c => gPairOk a && scopeOk c && (w == 0 || gPairOk d)
  | .seqAmax d a w _ c => gPairOk a && scopeOk c && (w == 0 || gPairOk d)
  | .seqAand d a w _ c => gPairOk a && scopeOk c && (w == 0 || gPairOk d)
  | .seqAor d a w _ c => gPairOk a && scopeOk c && (w == 0 || gPairOk d)
  | .seqAxor d a w _ c => gPairOk a && scopeOk c && (w == 0 || gPairOk d)
  | .seqAswp d a w _ c => gPairOk a && scopeOk c && (w == 0 || gPairOk d)
  | .seqAcas d a w _ c => gPairOk a && scopeOk c && (if w == 0 then gPairOk d else gQuadOk d)
  | .sbind a _ => gPairOk a
  | .sgo _ => true
  | .swaitp _ => true
  | .sbar => true
  | .cfgld _ a => gPairOk a
  | .cfgpat _ a => gPairOk a
  | .cfgrect _ a => gPairOk a
  | .cfgcmt _ => true
  | .cfgabt => true
  | .add d a b w z k => dstOk d && srcOk a && srcOk b && laneOk w z k
  | .sub d a b w z k => dstOk d && srcOk a && srcOk b && laneOk w z k
  | .mul d a b w z k => dstOk d && srcOk a && srcOk b && laneOk w z k
  | .mulh d a b w z k => dstOk d && srcOk a && srcOk b && laneOk w z k
  | .mulhu d a b w z k => dstOk d && srcOk a && srcOk b && laneOk w z k
  | .div d a b w z k => dstOk d && srcOk a && srcOk b && laneOk w z k
  | .divu d a b w z k => dstOk d && srcOk a && srcOk b && laneOk w z k
  | .rem d a b w z k => dstOk d && srcOk a && srcOk b && laneOk w z k
  | .remu d a b w z k => dstOk d && srcOk a && srcOk b && laneOk w z k
  | .and d a b w z k => dstOk d && srcOk a && srcOk b && laneOk w z k
  | .or d a b w z k => dstOk d && srcOk a && srcOk b && laneOk w z k
  | .xor d a b w z k => dstOk d && srcOk a && srcOk b && laneOk w z k
  | .sll d a b w z k => dstOk d && srcOk a && srcOk b && laneOk w z k
  | .srl d a b w z k => dstOk d && srcOk a && srcOk b && laneOk w z k
  | .sra d a b w z k => dstOk d && srcOk a && srcOk b && laneOk w z k
  | .slt d a b w z k => dstOk d && srcOk a && srcOk b && laneOk w z k
  | .sltu d a b w z k => dstOk d && srcOk a && srcOk b && laneOk w z k
  | .min d a b w z k => dstOk d && srcOk a && srcOk b && laneOk w z k
  | .max d a b w z k => dstOk d && srcOk a && srcOk b && laneOk w z k
  | .adds d a b w z k => dstOk d && srcOk a && srcOk b && laneOk w z k
  | .subs d a b w z k => dstOk d && srcOk a && srcOk b && laneOk w z k
  | .fadd d a b f r w z k => dstOk d && srcOk a && srcOk b && fpOk f w && decide (r.toNat ≤ 3) && laneOk w z k
  | .fsub d a b f r w z k => dstOk d && srcOk a && srcOk b && fpOk f w && decide (r.toNat ≤ 3) && laneOk w z k
  | .fmul d a b f r w z k => dstOk d && srcOk a && srcOk b && fpOk f w && decide (r.toNat ≤ 3) && laneOk w z k
  | .fdiv d a b f r w z k => dstOk d && srcOk a && srcOk b && fpOk f w && decide (r.toNat ≤ 3) && laneOk w z k
  | .fmac d a b f r w z k => decide (d.toNat ≤ 15) && srcOk a && srcOk b && fpOk f w && decide (r.toNat ≤ 3) && laneOk w z k
  | .fmin d a b f w z k => dstOk d && srcOk a && srcOk b && fpOk f w && laneOk w z k
  | .fmax d a b f w z k => dstOk d && srcOk a && srcOk b && fpOk f w && laneOk w z k
  | .fsqrt d a f r w z k => dstOk d && srcOk a && fpOk f w && decide (r.toNat ≤ 3) && laneOk w z k
  | .feq d a b f w z k => dstOk d && srcOk a && srcOk b && fpOk f w && laneOk w z k
  | .flt d a b f w z k => dstOk d && srcOk a && srcOk b && fpOk f w && laneOk w z k
  | .fle d a b f w z k => dstOk d && srcOk a && srcOk b && fpOk f w && laneOk w z k
  | .mov d a w z k => dstOk d && srcOk a && laneOk w z k
  | .sel d a b c w z k => dstOk d && srcOk a && srcOk b && srcOk c && laneOk w z k
  | .lbc a _ _ => srcOk a
  | .lext d a _ _ => dstOk d && srcOk a
  | .lins a b _ => srcOk a && srcOk b
  | .pack d a b _ w _ _ => dstOk d && srcOk a && srcOk b && w != 0
  | .unpk d a _ _ w _ _ => dstOk d && srcOk a && w != 0
  | .mlane a b c _ _ _ => srcOk a && (if c == 0 then b == 0 else srcOk b)
  | .mset a _ => srcOk a
  | .mget d _ => dstOk d
  | .sprd d c => dstOk d && (decide (c.toNat ≤ 5) || decide (16 ≤ c.toNat))
  | .spwr a c => srcOk a && (decide (c.toNat ≤ 2) || c == 4 || decide (16 ≤ c.toNat))
  | .take d a _ => dstOk d && qcbOk a
  | .peek d a _ => dstOk d && qcbOk a
  | .adv a n => qcbOk a && decide (1 ≤ n.toNat) && decide (n.toNat ≤ 16)
  | .emit d a => decide (20 ≤ d.toNat) && srcOk a
  | .waitf d a n => dstOk d && decide (24 ≤ a.toNat) && decide (1 ≤ n.toNat) && decide (n.toNat ≤ 16)
  | .waite d a n => dstOk d && decide (24 ≤ a.toNat) && decide (1 ≤ n.toNat) && decide (n.toNat ≤ 16)
  | .rrot d a b _ => dstOk d && srcOk a && srcOk b
  | .lgen d a b t => oPort d && srcOk a && srcOk b && decide (t.toNat ≤ 1)
  | .tcmp d a b => decide (d.toNat ≤ 15) && sPairOk a && sPairOk b
  | .tjoin d a b => sPairOk d && sPairOk a && sPairOk b
  | .tmeet d a b => sPairOk d && sPairOk a && sPairOk b
  | .tadv d a b => sPairOk d && sPairOk a && decide (b.toNat ≤ 3)
  | .frd d a => decide (d.toNat ≤ 15) && decide (a.toNat ≤ 3)
  | .frdCnt d a => decide (d.toNat ≤ 15) && decide (a.toNat ≤ 3)
  | .fwait d a => sPairOk d && decide (a.toNat ≤ 3)
  | .caph d a => oPort d && sPairOk a
  | .capd d a => oPort d && sPairOk a
  | .capx d a b => oPort d && sPairOk a && sPairOk b
  | .ains d a b c => decide (d.toNat ≤ 15) && sPairOk a && sPairOk b && decide (c.toNat ≤ 15)
  | .amrg d a b => decide (d.toNat ≤ 15) && sPairOk a && decide (b.toNat ≤ 15)
  | .aprb d a b _ => decide (d.toNat ≤ 15) && sPairOk a && sPairOk b
  | .acmp d a b => decide (d.toNat ≤ 15) && sPairOk a && decide (b.toNat ≤ 3)
  | .acon d a b => decide (d.toNat ≤ 15) && sPairOk a && decide (b.toNat ≤ 15)
  | .join d a b _ k _ => decide (d.toNat ≤ 15) && sPairOk a && qcbOk b && k != 3
  | .red d a b k _ => decide (d.toNat ≤ 15) && sPairOk a && sPairOk b && decide (k.toNat ≤ 4)
  | .wrel d a b => decide (d.toNat ≤ 15) && sPairOk a && decide (b.toNat ≤ 15)
  | .aadd d a b _ w s => sPairOk a && scopeOk s && (if w == 0 then decide (d.toNat ≤ 15) && decide (b.toNat ≤ 15) else sPairOk d && sPairOk b)
  | .amin d a b _ w s => sPairOk a && scopeOk s && (if w == 0 then decide (d.toNat ≤ 15) && decide (b.toNat ≤ 15) else sPairOk d && sPairOk b)
  | .amax d a b _ w s => sPairOk a && scopeOk s && (if w == 0 then decide (d.toNat ≤ 15) && decide (b.toNat ≤ 15) else sPairOk d && sPairOk b)
  | .aand d a b _ w s => sPairOk a && scopeOk s && (if w == 0 then decide (d.toNat ≤ 15) && decide (b.toNat ≤ 15) else sPairOk d && sPairOk b)
  | .aor d a b _ w s => sPairOk a && scopeOk s && (if w == 0 then decide (d.toNat ≤ 15) && decide (b.toNat ≤ 15) else sPairOk d && sPairOk b)
  | .axor d a b _ w s => sPairOk a && scopeOk s && (if w == 0 then decide (d.toNat ≤ 15) && decide (b.toNat ≤ 15) else sPairOk d && sPairOk b)
  | .aswp d a b _ w s => sPairOk a && scopeOk s && (if w == 0 then decide (d.toNat ≤ 15) && decide (b.toNat ≤ 15) else sPairOk d && sPairOk b)
  | .acas d a b _ w s => sPairOk a && scopeOk s && (if w == 0 then decide (d.toNat ≤ 15) && decide (b.toNat ≤ 15) else sPairOk d && sPairOk b)
  | .pwait d a b s => decide (d.toNat ≤ 15) && sPairOk a && decide (b.toNat ≤ 15) && scopeOk s
  | .pgive d a b s => decide (d.toNat ≤ 15) && sPairOk a && decide (b.toNat ≤ 15) && scopeOk s
  | .pswap d a b s => decide (d.toNat ≤ 15) && sPairOk a && decide (b.toNat ≤ 15) && scopeOk s
  | .paban d a b s => d == 0 && sPairOk a && decide (b.toNat ≤ 15) && scopeOk s
  | .prel d a b s => decide (d.toNat ≤ 15) && sPairOk a && decide (b.toNat ≤ 15) && scopeOk s
  | .cpy d a s => decide (d.toNat ≤ 15) && sPairOk a && scopeOk s
  | .gath d a s => decide (d.toNat ≤ 15) && sPairOk a && scopeOk s
  | .scat d a s => decide (d.toNat ≤ 15) && sPairOk a && scopeOk s
  | .trig d a s => decide (d.toNat ≤ 15) && sPairOk a && scopeOk s
  | .coll d a s => decide (d.toNat ≤ 15) && sPairOk a && scopeOk s
  | .flagst d a s => decide (d.toNat ≤ 15) && sPairOk a && scopeOk s
  | .thaw d a => decide (d.toNat ≤ 15) && decide (a.toNat ≤ 15)
  | .bubl d a b => decide (d.toNat ≤ 15) && decide (a.toNat ≤ 15) && decide (b.toNat ≤ 15)
  | .addi d a _ => dstOk d && srcOk a
  | .andi d a _ => dstOk d && srcOk a
  | .ori d a _ => dstOk d && srcOk a
  | .xori d a _ => dstOk d && srcOk a
  | .slti d a _ => dstOk d && srcOk a
  | .slli d a _ => dstOk d && srcOk a
  | .srli d a _ => dstOk d && srcOk a
  | .srai d a _ => dstOk d && srcOk a
  | .movhi d _ => dstOk d
  | .drain _ => true
  | .ldI8 d a _ s => decide (d.toNat ≤ 15) && sPairOk a && scopeOk s
  | .ldB8 d a _ s => decide (d.toNat ≤ 15) && sPairOk a && scopeOk s
  | .ldI16 d a _ s => decide (d.toNat ≤ 15) && sPairOk a && scopeOk s
  | .ldB16 d a _ s => decide (d.toNat ≤ 15) && sPairOk a && scopeOk s
  | .ldB32 d a _ s => decide (d.toNat ≤ 15) && sPairOk a && scopeOk s
  | .ldB64 d a _ s => sPairOk d && sPairOk a && scopeOk s
  | .ldW d a _ s => decide (d.toNat ≤ 15) && sPairOk a && scopeOk s
  | .stB8 d a _ s => decide (d.toNat ≤ 15) && sPairOk a && scopeOk s
  | .stB16 d a _ s => decide (d.toNat ≤ 15) && sPairOk a && scopeOk s
  | .stB32 d a _ s => decide (d.toNat ≤ 15) && sPairOk a && scopeOk s
  | .stB64 d a _ s => sPairOk d && sPairOk a && scopeOk s
  | .stW d a _ s => decide (d.toNat ≤ 15) && sPairOk a && scopeOk s
  | .ldAcqB32 d a _ s => decide (d.toNat ≤ 15) && sPairOk a && scopeOk s
  | .ldAcqB64 d a _ s => sPairOk d && sPairOk a && scopeOk s
  | .stRelB32 d a _ s => decide (d.toNat ≤ 15) && sPairOk a && scopeOk s
  | .stRelB64 d a _ s => sPairOk d && sPairOk a && scopeOk s
  | .ldf d a _ s => sPairOk d && sPairOk a && scopeOk s
  | .ldfe d a _ s => sPairOk d && sPairOk a && scopeOk s
  | .ste d a _ s => sPairOk d && sPairOk a && scopeOk s
  | .stf d a _ s => sPairOk d && sPairOk a && scopeOk s
  | .feclr d a _ s => decide (d.toNat ≤ 15) && sPairOk a && scopeOk s
  | .place d a s => decide (d.toNat ≤ 15) && sPairOk a && scopeOk s
  | .fence s => scopeOk s
  | .mma _ a b f _ _ r => tileOk a && tileOk b && f != 8 && decide (r.toNat ≤ 3) && (r == 0 || !(f == 6 || f == 7))
  | .mmag _ a b f _ _ r => tileOk a && tileOk b && f != 8 && decide (r.toNat ≤ 3) && (r == 0 || !(f == 6 || f == 7))
  | .ldt a b f => tileOk a && decide (b.toNat ≤ 15) && decide (f.toNat ≤ 8)
  | .sortn a b f u _ => qcbOk a && ocbOk b && (f == 1 || f == 8) && (u == 0 || f == 8)
  | .cvt a b f s r => qcbOk a && ocbOk b && f != s && decide (r.toNat ≤ 4) && (r != 4 || f == 4 || f == 5)
  | .scld t a b f => decide (t.toNat ≤ 1) && decide (a.toNat ≤ 15) && decide (b.toNat ≤ 15) && decide (9 ≤ f.toNat)
  | .scem t a b f => decide (t.toNat ≤ 1) && decide (a.toNat ≤ 15) && decide (b.toNat ≤ 15) && decide (9 ≤ f.toNat)
  | .accld _ a f => tileOk a && decide (f.toNat ≤ 1)
  | .accst _ a b f => decide (f.toNat ≤ 1) && decide (b.toNat ≤ 1) && (if b == 1 then decide (a.toNat ≤ 15) else (decide (a.toNat ≤ 15) || decide (24 ≤ a.toNat)))
  | .rmax t a b f w => decide (f.toNat ≤ 8) && sPairOk a && (decide (b.toNat ≤ 15) || decide (24 ≤ b.toNat)) && (if w == 0 then t == 0 else b.toNat != 28 + t.toNat)
  | .rmin t a b f w => decide (f.toNat ≤ 8) && sPairOk a && (decide (b.toNat ≤ 15) || decide (24 ≤ b.toNat)) && (if w == 0 then t == 0 else b.toNat != 28 + t.toNat)
  | .rclmp t a b f w => decide (f.toNat ≤ 8) && sPairOk a && (decide (b.toNat ≤ 15) || decide (24 ≤ b.toNat)) && (if w == 0 then t == 0 else b.toNat != 28 + t.toNat) && decide (a.toNat ≤ 12)
  | .rmed t a b f w => decide (f.toNat ≤ 8) && sPairOk a && (decide (b.toNat ≤ 15) || decide (24 ≤ b.toNat)) && (if w == 0 then t == 0 else b.toNat != 28 + t.toNat)
  | .rsats t a b f w => decide (f.toNat ≤ 8) && sPairOk a && (decide (b.toNat ≤ 15) || decide (24 ≤ b.toNat)) && (if w == 0 then t == 0 else b.toNat != 28 + t.toNat) && (f == 6 || f == 8)
  | .adjb _ a b f => tileOk a && decide (b.toNat ≤ 12) && b.toNat % 2 == 0 && decide (1 ≤ f.toNat) && decide (f.toNat ≤ 3)
  | .commit => true
  | .br _ c s m g => (c == 1 || s == 0) && (if m == 0 then g == 0 else if m == 1 then g == 0 else if m == 2 then decide (g.toNat ≤ 15) else decide (g.toNat ≤ 4095))
  | .halt => true
  | .nop => true
  | .circ i o _ => decide (i.toNat ≤ 6) && decide (o.toNat ≤ 6) && i != o
  | .slot i o _ first run => decide (i.toNat ≤ 6) && decide (o.toNat ≤ 6) && i != o && decide (first.toNat + run.toNat ≤ 255)
  | .best i o => decide (i.toNat ≤ 6) && decide (o.toNat ≤ 6) && i != o
  | .width o _ => decide (o.toNat ≤ 6)
  | .scale i o => (decide (i.toNat ≤ 3) || i == 7) && (decide (o.toNat ≤ 3) || o == 7) && i != o
  | .endList => true
  | .blockFire _ _ _ _ => true
  | .instanceCommit _ _ _ => true
  | .elementFaultDelivery _ => true
  | .ereplayDiscard _ => true
  | .ereplayRetry _ => true
  | .wfeWake _ => true
  | .wfeTimeout _ => true
  | .configSwap _ => true
  | .routerForward _ _ _ _ => true
  | .generatorEmit _ _ _ => true
  | .emitterSend _ _ _ => true
  | .rrotRotate _ => true
  | .scaleTokenArrive _ _ => true
  | .bankReplay _ _ => true
  | .streamStep _ _ => true
  | .repairStep _ _ => true
  | .faultRecordWrite _ _ => true
  | .resume _ _ => true
  | .escalation _ _ => true
  | .feTimeout _ _ _ => true
  | .bufferStep _ _ => true
  | .placeStep _ _ => true
  | .drainStep _ _ => true
  | .readStep _ _ => true
  | .ownerStep _ _ => true
  | .releaseStep _ _ => true
  | .installStep _ _ _ => true
  | .frontCountExchange _ => true
  | .walk _ _ _ => true
  | .tableMigrate _ _ => true
  | .engineComplete _ => true
  | .gatherBurst _ _ => true
  | .triggerEvaluate _ _ => true
  | .deadlockProbe _ _ => true
  | .probeForward _ _ => true
  | .doorbell _ _ _ => true
  | .fqhead _ _ => true
  | .verrClear _ _ => true
  | .bar0WriteOther _ _ => true
  | .hostWrite _ _ _ => true
  | .hostRead _ _ _ => true
  | .packetTake _ => true
  | .packetTrigger _ => true
  | .packetStart _ => true
  | .configLoad _ => true
  | .stage _ => true
  | .loadNaturalEnd _ => true
  | .loadCompletionRecord _ => true
  | .loadFreeze _ => true
  | .evict _ => true
  | .restore _ => true
  | .preempt _ => true
  | .loadMove _ => true
  | .watchdogExpiry _ => true
  | .patchPowerGate _ => true
  | .patchWake _ => true
  | .pcreate _ _ _ _ => true
  | .pdestroy _ => true
  | .grant _ => true
  | .qset _ => true
  | .qenable _ => true
  | .qdisable _ => true
  | .vfbind _ _ => true
  | .wdack _ => true
  | .thawCommand _ => true
  | .lend _ => true
  | .ldiscard _ => true
  | .lpreempt _ => true
  | .inval _ _ _ => true
  | .timeouts _ => true
  | .route _ => true
  | .slotld _ _ => true
  | .migrate _ _ _ => true
  | .readSaveFrame _ _ _ => true
  | .readSlipcnt _ _ => true
  | .readLinkErrors _ _ => true
  | .readFailureMap _ => true
  | .readBootReport _ _ => true
  | .readDeviceState _ => true
  | .readIdentityCert _ => true
  | .readThrottle _ => true
  | .rd _ _ => true
  | .rdr _ _ => true
  | .wr _ _ => true
  | .wra _ _ => true
  | .atom _ _ => true
  | .atomr _ _ => true
  | .flaginc _ _ => true
  | .cust _ _ => true
  | .err _ _ => true
  | .redir _ _ => true
  | .sync _ _ => true
  | .syncSend _ => true
  | .collPacket _ _ => true
  | .fabricForward _ _ => true
  | .flitReplay _ _ => true
  | .custodyResend _ => true
  | .custodyTimeout _ => true
  | .collectiveStart _ _ => true
  | .tileArrival _ _ _ => true
  | .collectiveComplete _ => true
  | .collectiveBudgetExpiry _ => true
  | .framePull _ _ _ _ => true
  | .stubForward _ => true
  | .migrateAbort _ => true
  | .deviceReset => true
  | .powerGood _ => true
  | .selftestDone _ => true
  | .calibrationDone _ _ => true
  | .patchJoinFull _ => true
  | .throttleRise _ _ _ => true
  | .throttleFall _ => true
  | .thermalShutdown _ => true
  | .linkStart _ _ _ _ => true
  | .reservedControlWord _ => true
  | .unknownCommand _ => true

end Sys2Proof
end

