-- ==== Sys2Proof/Decode.lean ====
section
/-! DEFINITION. The decoder: total on any word, refusing by name, for each of the three kinds of word (R73), written from
the opcode maps R77 to R83, R89 to R96 and R98; after it the encoder, from the same fields. -/

namespace Sys2Proof

/-- Why a word is no instruction (R101 to R103). -/
inductive DecodeError where
  | reservedOpcode
  | reservedSub
  /-- a field that must be zero is not zero -/
  | mustBeZero
  /-- a field holds a value that its format or instruction forbids -/
  | badOperand
  /-- a SLOT word without its extension word (R100) -/
  | missingExtension
  deriving DecidableEq, Repr

/-- The three kinds of word (R73), and the operations and events that have no encoding. -/
inductive Kind where
  | control | element | switchWord | event
  deriving DecidableEq, Repr

/-- Field [lo + n - 1 : lo] of a word. -/
def fld (w lo n : Nat) : BitVec n := BitVec.ofNat n (w / 2 ^ lo)

/-- Which kind of word an instruction is (R73). -/
def Instr.kind : Instr → Kind
  | .seqAdd _ _ _ => .control
  | .seqSub _ _ _ => .control
  | .seqAnd _ _ _ => .control
  | .seqOr _ _ _ => .control
  | .seqXor _ _ _ => .control
  | .seqSll _ _ _ => .control
  | .seqSrl _ _ _ => .control
  | .seqSra _ _ _ => .control
  | .seqSlt _ _ _ => .control
  | .seqSltu _ _ _ => .control
  | .seqMul _ _ _ => .control
  | .seqMulh _ _ _ => .control
  | .seqMulhu _ _ _ => .control
  | .seqDiv _ _ _ => .control
  | .seqDivu _ _ _ => .control
  | .seqRem _ _ _ => .control
  | .seqRemu _ _ _ => .control
  | .seqMin _ _ _ => .control
  | .seqMax _ _ _ => .control
  | .minu _ _ _ => .control
  | .maxu _ _ _ => .control
  | .seqAdds _ _ _ => .control
  | .seqSubs _ _ _ => .control
  | .kcmp _ _ _ _ => .control
  | .xret => .control
  | .wfe => .control
  | .seqFence _ => .control
  | .freeze => .control
  | .tscr _ => .control
  | .rdtag _ => .control
  | .launch _ _ _ => .control
  | .signal _ _ _ => .control
  | .seqAddi _ _ _ => .control
  | .seqAndi _ _ _ => .control
  | .seqOri _ _ _ => .control
  | .seqXori _ _ _ => .control
  | .seqSlti _ _ _ => .control
  | .sltiu _ _ _ => .control
  | .seqSlli _ _ _ => .control
  | .seqSrli _ _ _ => .control
  | .seqSrai _ _ _ => .control
  | .lui _ _ => .control
  | .jalr _ _ _ => .control
  | .trap _ _ _ => .control
  | .csrr _ _ => .control
  | .csrw _ _ => .control
  | .lb _ _ _ => .control
  | .lbu _ _ _ => .control
  | .lh _ _ _ => .control
  | .lhu _ _ _ => .control
  | .lw _ _ _ => .control
  | .sb _ _ _ => .control
  | .sh _ _ _ => .control
  | .sw _ _ _ => .control
  | .beq _ _ _ => .control
  | .bne _ _ _ => .control
  | .blt _ _ _ => .control
  | .bge _ _ _ => .control
  | .bltu _ _ _ => .control
  | .bgeu _ _ _ => .control
  | .bkt _ _ => .control
  | .bkf _ _ => .control
  | .j _ => .control
  | .jal _ => .control
  | .loop _ _ _ => .control
  | .loopr _ _ _ => .control
  | .lbrk _ => .control
  | .ldm _ _ _ _ _ _ => .control
  | .stm _ _ _ _ _ => .control
  | .seqAadd _ _ _ _ _ => .control
  | .seqAmin _ _ _ _ _ => .control
  | .seqAmax _ _ _ _ _ => .control
  | .seqAand _ _ _ _ _ => .control
  | .seqAor _ _ _ _ _ => .control
  | .seqAxor _ _ _ _ _ => .control
  | .seqAswp _ _ _ _ _ => .control
  | .seqAcas _ _ _ _ _ => .control
  | .sbind _ _ => .control
  | .sgo _ => .control
  | .swaitp _ => .control
  | .sbar => .control
  | .cfgld _ _ => .control
  | .cfgpat _ _ => .control
  | .cfgrect _ _ => .control
  | .cfgcmt _ => .control
  | .cfgabt => .control
  | .add _ _ _ _ _ _ => .element
  | .sub _ _ _ _ _ _ => .element
  | .mul _ _ _ _ _ _ => .element
  | .mulh _ _ _ _ _ _ => .element
  | .mulhu _ _ _ _ _ _ => .element
  | .div _ _ _ _ _ _ => .element
  | .divu _ _ _ _ _ _ => .element
  | .rem _ _ _ _ _ _ => .element
  | .remu _ _ _ _ _ _ => .element
  | .and _ _ _ _ _ _ => .element
  | .or _ _ _ _ _ _ => .element
  | .xor _ _ _ _ _ _ => .element
  | .sll _ _ _ _ _ _ => .element
  | .srl _ _ _ _ _ _ => .element
  | .sra _ _ _ _ _ _ => .element
  | .slt _ _ _ _ _ _ => .element
  | .sltu _ _ _ _ _ _ => .element
  | .min _ _ _ _ _ _ => .element
  | .max _ _ _ _ _ _ => .element
  | .adds _ _ _ _ _ _ => .element
  | .subs _ _ _ _ _ _ => .element
  | .fadd _ _ _ _ _ _ _ _ => .element
  | .fsub _ _ _ _ _ _ _ _ => .element
  | .fmul _ _ _ _ _ _ _ _ => .element
  | .fdiv _ _ _ _ _ _ _ _ => .element
  | .fmac _ _ _ _ _ _ _ _ => .element
  | .fmin _ _ _ _ _ _ _ => .element
  | .fmax _ _ _ _ _ _ _ => .element
  | .fsqrt _ _ _ _ _ _ _ => .element
  | .feq _ _ _ _ _ _ _ => .element
  | .flt _ _ _ _ _ _ _ => .element
  | .fle _ _ _ _ _ _ _ => .element
  | .mov _ _ _ _ _ => .element
  | .sel _ _ _ _ _ _ _ => .element
  | .lbc _ _ _ => .element
  | .lext _ _ _ _ => .element
  | .lins _ _ _ => .element
  | .pack _ _ _ _ _ _ _ => .element
  | .unpk _ _ _ _ _ _ _ => .element
  | .mlane _ _ _ _ _ _ => .element
  | .mset _ _ => .element
  | .mget _ _ => .element
  | .sprd _ _ => .element
  | .spwr _ _ => .element
  | .take _ _ _ => .element
  | .peek _ _ _ => .element
  | .adv _ _ => .element
  | .emit _ _ => .element
  | .waitf _ _ _ => .element
  | .waite _ _ _ => .element
  | .rrot _ _ _ _ => .element
  | .lgen _ _ _ _ => .element
  | .tcmp _ _ _ => .element
  | .tjoin _ _ _ => .element
  | .tmeet _ _ _ => .element
  | .tadv _ _ _ => .element
  | .frd _ _ => .element
  | .frdCnt _ _ => .element
  | .fwait _ _ => .element
  | .caph _ _ => .element
  | .capd _ _ => .element
  | .capx _ _ _ => .element
  | .ains _ _ _ _ => .element
  | .amrg _ _ _ => .element
  | .aprb _ _ _ _ => .element
  | .acmp _ _ _ => .element
  | .acon _ _ _ => .element
  | .join _ _ _ _ _ _ => .element
  | .red _ _ _ _ _ => .element
  | .wrel _ _ _ => .element
  | .aadd _ _ _ _ _ _ => .element
  | .amin _ _ _ _ _ _ => .element
  | .amax _ _ _ _ _ _ => .element
  | .aand _ _ _ _ _ _ => .element
  | .aor _ _ _ _ _ _ => .element
  | .axor _ _ _ _ _ _ => .element
  | .aswp _ _ _ _ _ _ => .element
  | .acas _ _ _ _ _ _ => .element
  | .pwait _ _ _ _ => .element
  | .pgive _ _ _ _ => .element
  | .pswap _ _ _ _ => .element
  | .paban _ _ _ _ => .element
  | .prel _ _ _ _ => .element
  | .cpy _ _ _ => .element
  | .gath _ _ _ => .element
  | .scat _ _ _ => .element
  | .trig _ _ _ => .element
  | .coll _ _ _ => .element
  | .flagst _ _ _ => .element
  | .thaw _ _ => .element
  | .bubl _ _ _ => .element
  | .addi _ _ _ => .element
  | .andi _ _ _ => .element
  | .ori _ _ _ => .element
  | .xori _ _ _ => .element
  | .slti _ _ _ => .element
  | .slli _ _ _ => .element
  | .srli _ _ _ => .element
  | .srai _ _ _ => .element
  | .movhi _ _ => .element
  | .drain _ => .element
  | .ldI8 _ _ _ _ => .element
  | .ldB8 _ _ _ _ => .element
  | .ldI16 _ _ _ _ => .element
  | .ldB16 _ _ _ _ => .element
  | .ldB32 _ _ _ _ => .element
  | .ldB64 _ _ _ _ => .element
  | .ldW _ _ _ _ => .element
  | .stB8 _ _ _ _ => .element
  | .stB16 _ _ _ _ => .element
  | .stB32 _ _ _ _ => .element
  | .stB64 _ _ _ _ => .element
  | .stW _ _ _ _ => .element
  | .ldAcqB32 _ _ _ _ => .element
  | .ldAcqB64 _ _ _ _ => .element
  | .stRelB32 _ _ _ _ => .element
  | .stRelB64 _ _ _ _ => .element
  | .ldf _ _ _ _ => .element
  | .ldfe _ _ _ _ => .element
  | .ste _ _ _ _ => .element
  | .stf _ _ _ _ => .element
  | .feclr _ _ _ _ => .element
  | .place _ _ _ => .element
  | .fence _ => .element
  | .mma _ _ _ _ _ _ _ => .element
  | .mmag _ _ _ _ _ _ _ => .element
  | .ldt _ _ _ => .element
  | .sortn _ _ _ _ _ => .element
  | .cvt _ _ _ _ _ => .element
  | .scld _ _ _ _ => .element
  | .scem _ _ _ _ => .element
  | .accld _ _ _ => .element
  | .accst _ _ _ _ => .element
  | .rmax _ _ _ _ _ => .element
  | .rmin _ _ _ _ _ => .element
  | .rclmp _ _ _ _ _ => .element
  | .rmed _ _ _ _ _ => .element
  | .rsats _ _ _ _ _ => .element
  | .adjb _ _ _ _ => .element
  | .commit => .element
  | .br _ _ _ _ _ => .element
  | .halt => .element
  | .nop => .switchWord
  | .circ _ _ _ => .switchWord
  | .slot _ _ _ _ _ => .switchWord
  | .best _ _ => .switchWord
  | .width _ _ => .switchWord
  | .scale _ _ => .switchWord
  | .endList => .switchWord
  | .blockFire _ _ _ _ => .event
  | .instanceCommit _ _ _ => .event
  | .elementFaultDelivery _ => .event
  | .ereplayDiscard _ => .event
  | .ereplayRetry _ => .event
  | .wfeWake _ => .event
  | .wfeTimeout _ => .event
  | .configSwap _ => .event
  | .routerForward _ _ _ _ => .event
  | .generatorEmit _ _ _ => .event
  | .emitterSend _ _ _ => .event
  | .rrotRotate _ => .event
  | .scaleTokenArrive _ _ => .event
  | .bankReplay _ _ => .event
  | .streamStep _ _ => .event
  | .repairStep _ _ => .event
  | .faultRecordWrite _ _ => .event
  | .resume _ _ => .event
  | .escalation _ _ => .event
  | .feTimeout _ _ _ => .event
  | .bufferStep _ _ => .event
  | .placeStep _ _ => .event
  | .drainStep _ _ => .event
  | .readStep _ _ => .event
  | .ownerStep _ _ => .event
  | .releaseStep _ _ => .event
  | .installStep _ _ _ => .event
  | .frontCountExchange _ => .event
  | .walk _ _ _ => .event
  | .tableMigrate _ _ => .event
  | .engineComplete _ => .event
  | .gatherBurst _ _ => .event
  | .triggerEvaluate _ _ => .event
  | .deadlockProbe _ _ => .event
  | .probeForward _ _ => .event
  | .doorbell _ _ _ => .event
  | .fqhead _ _ => .event
  | .verrClear _ _ => .event
  | .bar0WriteOther _ _ => .event
  | .hostWrite _ _ _ => .event
  | .hostRead _ _ _ => .event
  | .packetTake _ => .event
  | .packetTrigger _ => .event
  | .packetStart _ => .event
  | .configLoad _ => .event
  | .stage _ => .event
  | .loadNaturalEnd _ => .event
  | .loadCompletionRecord _ => .event
  | .loadFreeze _ => .event
  | .evict _ => .event
  | .restore _ => .event
  | .preempt _ => .event
  | .loadMove _ => .event
  | .watchdogExpiry _ => .event
  | .patchPowerGate _ => .event
  | .patchWake _ => .event
  | .pcreate _ _ _ _ => .event
  | .pdestroy _ => .event
  | .grant _ => .event
  | .qset _ => .event
  | .qenable _ => .event
  | .qdisable _ => .event
  | .vfbind _ _ => .event
  | .wdack _ => .event
  | .thawCommand _ => .event
  | .lend _ => .event
  | .ldiscard _ => .event
  | .lpreempt _ => .event
  | .inval _ _ _ => .event
  | .timeouts _ => .event
  | .route _ => .event
  | .slotld _ _ => .event
  | .migrate _ _ _ => .event
  | .readSaveFrame _ _ _ => .event
  | .readSlipcnt _ _ => .event
  | .readLinkErrors _ _ => .event
  | .readFailureMap _ => .event
  | .readBootReport _ _ => .event
  | .readDeviceState _ => .event
  | .readIdentityCert _ => .event
  | .readThrottle _ => .event
  | .rd _ _ => .event
  | .rdr _ _ => .event
  | .wr _ _ => .event
  | .wra _ _ => .event
  | .atom _ _ => .event
  | .atomr _ _ => .event
  | .flaginc _ _ => .event
  | .cust _ _ => .event
  | .err _ _ => .event
  | .redir _ _ => .event
  | .sync _ _ => .event
  | .syncSend _ => .event
  | .collPacket _ _ => .event
  | .fabricForward _ _ => .event
  | .flitReplay _ _ => .event
  | .custodyResend _ => .event
  | .custodyTimeout _ => .event
  | .collectiveStart _ _ => .event
  | .tileArrival _ _ _ => .event
  | .collectiveComplete _ => .event
  | .collectiveBudgetExpiry _ => .event
  | .framePull _ _ _ _ => .event
  | .stubForward _ => .event
  | .migrateAbort _ => .event
  | .deviceReset => .event
  | .powerGood _ => .event
  | .selftestDone _ => .event
  | .calibrationDone _ _ => .event
  | .patchJoinFull _ => .event
  | .throttleRise _ _ _ => .event
  | .throttleFall _ => .event
  | .thermalShutdown _ => .event
  | .linkStart _ _ _ _ => .event
  | .reservedControlWord _ => .event
  | .unknownCommand _ => .event

/-- The word of an instruction, a number: its fixed fields plus each field at its place (R74 to R83, R86 to R98). A SLOT
word's extension word is `extensionWord`; an operation or event has no word. -/
def encodeWord : Instr → Nat
  | .seqAdd d a b => 0x04000000 + d.toNat * 0x200000 + a.toNat * 0x10000 + b.toNat * 0x800
  | .seqSub d a b => 0x04000001 + d.toNat * 0x200000 + a.toNat * 0x10000 + b.toNat * 0x800
  | .seqAnd d a b => 0x04000002 + d.toNat * 0x200000 + a.toNat * 0x10000 + b.toNat * 0x800
  | .seqOr d a b => 0x04000003 + d.toNat * 0x200000 + a.toNat * 0x10000 + b.toNat * 0x800
  | .seqXor d a b => 0x04000004 + d.toNat * 0x200000 + a.toNat * 0x10000 + b.toNat * 0x800
  | .seqSll d a b => 0x04000005 + d.toNat * 0x200000 + a.toNat * 0x10000 + b.toNat * 0x800
  | .seqSrl d a b => 0x04000006 + d.toNat * 0x200000 + a.toNat * 0x10000 + b.toNat * 0x800
  | .seqSra d a b => 0x04000007 + d.toNat * 0x200000 + a.toNat * 0x10000 + b.toNat * 0x800
  | .seqSlt d a b => 0x04000008 + d.toNat * 0x200000 + a.toNat * 0x10000 + b.toNat * 0x800
  | .seqSltu d a b => 0x04000009 + d.toNat * 0x200000 + a.toNat * 0x10000 + b.toNat * 0x800
  | .seqMul d a b => 0x0400000A + d.toNat * 0x200000 + a.toNat * 0x10000 + b.toNat * 0x800
  | .seqMulh d a b => 0x0400000B + d.toNat * 0x200000 + a.toNat * 0x10000 + b.toNat * 0x800
  | .seqMulhu d a b => 0x0400000C + d.toNat * 0x200000 + a.toNat * 0x10000 + b.toNat * 0x800
  | .seqDiv d a b => 0x0400000D + d.toNat * 0x200000 + a.toNat * 0x10000 + b.toNat * 0x800
  | .seqDivu d a b => 0x0400000E + d.toNat * 0x200000 + a.toNat * 0x10000 + b.toNat * 0x800
  | .seqRem d a b => 0x0400000F + d.toNat * 0x200000 + a.toNat * 0x10000 + b.toNat * 0x800
  | .seqRemu d a b => 0x04000010 + d.toNat * 0x200000 + a.toNat * 0x10000 + b.toNat * 0x800
  | .seqMin d a b => 0x04000011 + d.toNat * 0x200000 + a.toNat * 0x10000 + b.toNat * 0x800
  | .seqMax d a b => 0x04000012 + d.toNat * 0x200000 + a.toNat * 0x10000 + b.toNat * 0x800
  | .minu d a b => 0x04000013 + d.toNat * 0x200000 + a.toNat * 0x10000 + b.toNat * 0x800
  | .maxu d a b => 0x04000014 + d.toNat * 0x200000 + a.toNat * 0x10000 + b.toNat * 0x800
  | .seqAdds d a b => 0x04000015 + d.toNat * 0x200000 + a.toNat * 0x10000 + b.toNat * 0x800
  | .seqSubs d a b => 0x04000016 + d.toNat * 0x200000 + a.toNat * 0x10000 + b.toNat * 0x800
  | .kcmp k a b c => 0x08000000 + k.toNat * 0x200000 + a.toNat * 0x10000 + b.toNat * 0x800 + c.toNat * 0x1
  | .xret => 0x0C000000
  | .wfe => 0x0C000001
  | .seqFence s => 0x0C000002 + s.toNat * 0x100
  | .freeze => 0x0C000003
  | .tscr d => 0x0C000004 + d.toNat * 0x200000
  | .rdtag d => 0x0C000005 + d.toNat * 0x200000
  | .launch d a b => 0x10000000 + d.toNat * 0x200000 + a.toNat * 0x10000 + b.toNat * 0x800
  | .signal a b s => 0x14000000 + a.toNat * 0x10000 + b.toNat * 0x800 + s.toNat * 0x100
  | .seqAddi d a i => 0x20000000 + d.toNat * 0x200000 + a.toNat * 0x10000 + i.toNat * 0x1
  | .seqAndi d a i => 0x24000000 + d.toNat * 0x200000 + a.toNat * 0x10000 + i.toNat * 0x1
  | .seqOri d a i => 0x28000000 + d.toNat * 0x200000 + a.toNat * 0x10000 + i.toNat * 0x1
  | .seqXori d a i => 0x2C000000 + d.toNat * 0x200000 + a.toNat * 0x10000 + i.toNat * 0x1
  | .seqSlti d a i => 0x30000000 + d.toNat * 0x200000 + a.toNat * 0x10000 + i.toNat * 0x1
  | .sltiu d a i => 0x34000000 + d.toNat * 0x200000 + a.toNat * 0x10000 + i.toNat * 0x1
  | .seqSlli d a i => 0x38000000 + d.toNat * 0x200000 + a.toNat * 0x10000 + i.toNat * 0x1
  | .seqSrli d a i => 0x3C000000 + d.toNat * 0x200000 + a.toNat * 0x10000 + i.toNat * 0x1
  | .seqSrai d a i => 0x40000000 + d.toNat * 0x200000 + a.toNat * 0x10000 + i.toNat * 0x1
  | .lui d i => 0x44000000 + d.toNat * 0x200000 + i.toNat * 0x1
  | .jalr d a i => 0x48000000 + d.toNat * 0x200000 + a.toNat * 0x10000 + i.toNat * 0x1
  | .trap a s c => 0x4C000000 + a.toNat * 0x10000 + s.toNat * 0x100 + c.toNat * 0x1
  | .csrr d c => 0x50000000 + d.toNat * 0x200000 + c.toNat * 0x1
  | .csrw a c => 0x54000000 + a.toNat * 0x10000 + c.toNat * 0x1
  | .lb d a i => 0x60000000 + d.toNat * 0x200000 + a.toNat * 0x10000 + i.toNat * 0x1
  | .lbu d a i => 0x64000000 + d.toNat * 0x200000 + a.toNat * 0x10000 + i.toNat * 0x1
  | .lh d a i => 0x68000000 + d.toNat * 0x200000 + a.toNat * 0x10000 + i.toNat * 0x1
  | .lhu d a i => 0x6C000000 + d.toNat * 0x200000 + a.toNat * 0x10000 + i.toNat * 0x1
  | .lw d a i => 0x70000000 + d.toNat * 0x200000 + a.toNat * 0x10000 + i.toNat * 0x1
  | .sb d a i => 0x74000000 + d.toNat * 0x200000 + a.toNat * 0x10000 + i.toNat * 0x1
  | .sh d a i => 0x78000000 + d.toNat * 0x200000 + a.toNat * 0x10000 + i.toNat * 0x1
  | .sw d a i => 0x7C000000 + d.toNat * 0x200000 + a.toNat * 0x10000 + i.toNat * 0x1
  | .beq a b o => 0x80000000 + a.toNat * 0x200000 + b.toNat * 0x10000 + o.toNat * 0x1
  | .bne a b o => 0x84000000 + a.toNat * 0x200000 + b.toNat * 0x10000 + o.toNat * 0x1
  | .blt a b o => 0x88000000 + a.toNat * 0x200000 + b.toNat * 0x10000 + o.toNat * 0x1
  | .bge a b o => 0x8C000000 + a.toNat * 0x200000 + b.toNat * 0x10000 + o.toNat * 0x1
  | .bltu a b o => 0x90000000 + a.toNat * 0x200000 + b.toNat * 0x10000 + o.toNat * 0x1
  | .bgeu a b o => 0x94000000 + a.toNat * 0x200000 + b.toNat * 0x10000 + o.toNat * 0x1
  | .bkt k o => 0x98000000 + k.toNat * 0x200000 + o.toNat * 0x1
  | .bkf k o => 0x9C000000 + k.toNat * 0x200000 + o.toNat * 0x1
  | .j o => 0xA0000000 + o.toNat * 0x1
  | .jal o => 0xA4000000 + o.toNat * 0x1
  | .loop l c n => 0xB0000000 + l.toNat * 0x1000000 + c.toNat * 0x1000 + n.toNat * 0x10
  | .loopr l g n => 0xB0800000 + l.toNat * 0x1000000 + g.toNat * 0x1000 + n.toNat * 0x10
  | .lbrk l => 0xB4000000 + l.toNat * 0x1000000
  | .ldm d a o z s c => 0xC0000000 + d.toNat * 0x200000 + a.toNat * 0x10000 + o.toNat * 0x4000 + z.toNat * 0x1000 + s.toNat * 0x800 + c.toNat * 0x80
  | .stm d a o z c => 0xC4000000 + d.toNat * 0x200000 + a.toNat * 0x10000 + o.toNat * 0x4000 + z.toNat * 0x1000 + c.toNat * 0x80
  | .seqAadd d a w o c => 0xC8000000 + d.toNat * 0x200000 + a.toNat * 0x10000 + w.toNat * 0x1000 + o.toNat * 0x400 + c.toNat * 0x80
  | .seqAmin d a w o c => 0xC8002000 + d.toNat * 0x200000 + a.toNat * 0x10000 + w.toNat * 0x1000 + o.toNat * 0x400 + c.toNat * 0x80
  | .seqAmax d a w o c => 0xC8004000 + d.toNat * 0x200000 + a.toNat * 0x10000 + w.toNat * 0x1000 + o.toNat * 0x400 + c.toNat * 0x80
  | .seqAand d a w o c => 0xC8006000 + d.toNat * 0x200000 + a.toNat * 0x10000 + w.toNat * 0x1000 + o.toNat * 0x400 + c.toNat * 0x80
  | .seqAor d a w o c => 0xC8008000 + d.toNat * 0x200000 + a.toNat * 0x10000 + w.toNat * 0x1000 + o.toNat * 0x400 + c.toNat * 0x80
  | .seqAxor d a w o c => 0xC800A000 + d.toNat * 0x200000 + a.toNat * 0x10000 + w.toNat * 0x1000 + o.toNat * 0x400 + c.toNat * 0x80
  | .seqAswp d a w o c => 0xC800C000 + d.toNat * 0x200000 + a.toNat * 0x10000 + w.toNat * 0x1000 + o.toNat * 0x400 + c.toNat * 0x80
  | .seqAcas d a w o c => 0xC800E000 + d.toNat * 0x200000 + a.toNat * 0x10000 + w.toNat * 0x1000 + o.toNat * 0x400 + c.toNat * 0x80
  | .sbind a p => 0xCC000000 + a.toNat * 0x10000 + p.toNat * 0x1
  | .sgo p => 0xCC000400 + p.toNat * 0x1
  | .swaitp p => 0xCC000800 + p.toNat * 0x1
  | .sbar => 0xCC000C00
  | .cfgld d a => 0xD0000000 + d.toNat * 0x200000 + a.toNat * 0x10000
  | .cfgpat d a => 0xD0000400 + d.toNat * 0x200000 + a.toNat * 0x10000
  | .cfgrect d a => 0xD0000800 + d.toNat * 0x200000 + a.toNat * 0x10000
  | .cfgcmt d => 0xD0000C00 + d.toNat * 0x200000
  | .cfgabt => 0xD0001000
  | .add d a b w z k => 0x02000000 + d.toNat * 0x100000 + a.toNat * 0x8000 + b.toNat * 0x400 + w.toNat * 0x10 + z.toNat * 0x8 + k.toNat * 0x1
  | .sub d a b w z k => 0x04000000 + d.toNat * 0x100000 + a.toNat * 0x8000 + b.toNat * 0x400 + w.toNat * 0x10 + z.toNat * 0x8 + k.toNat * 0x1
  | .mul d a b w z k => 0x06000000 + d.toNat * 0x100000 + a.toNat * 0x8000 + b.toNat * 0x400 + w.toNat * 0x10 + z.toNat * 0x8 + k.toNat * 0x1
  | .mulh d a b w z k => 0x08000000 + d.toNat * 0x100000 + a.toNat * 0x8000 + b.toNat * 0x400 + w.toNat * 0x10 + z.toNat * 0x8 + k.toNat * 0x1
  | .mulhu d a b w z k => 0x0A000000 + d.toNat * 0x100000 + a.toNat * 0x8000 + b.toNat * 0x400 + w.toNat * 0x10 + z.toNat * 0x8 + k.toNat * 0x1
  | .div d a b w z k => 0x0C000000 + d.toNat * 0x100000 + a.toNat * 0x8000 + b.toNat * 0x400 + w.toNat * 0x10 + z.toNat * 0x8 + k.toNat * 0x1
  | .divu d a b w z k => 0x0E000000 + d.toNat * 0x100000 + a.toNat * 0x8000 + b.toNat * 0x400 + w.toNat * 0x10 + z.toNat * 0x8 + k.toNat * 0x1
  | .rem d a b w z k => 0x10000000 + d.toNat * 0x100000 + a.toNat * 0x8000 + b.toNat * 0x400 + w.toNat * 0x10 + z.toNat * 0x8 + k.toNat * 0x1
  | .remu d a b w z k => 0x12000000 + d.toNat * 0x100000 + a.toNat * 0x8000 + b.toNat * 0x400 + w.toNat * 0x10 + z.toNat * 0x8 + k.toNat * 0x1
  | .and d a b w z k => 0x14000000 + d.toNat * 0x100000 + a.toNat * 0x8000 + b.toNat * 0x400 + w.toNat * 0x10 + z.toNat * 0x8 + k.toNat * 0x1
  | .or d a b w z k => 0x16000000 + d.toNat * 0x100000 + a.toNat * 0x8000 + b.toNat * 0x400 + w.toNat * 0x10 + z.toNat * 0x8 + k.toNat * 0x1
  | .xor d a b w z k => 0x18000000 + d.toNat * 0x100000 + a.toNat * 0x8000 + b.toNat * 0x400 + w.toNat * 0x10 + z.toNat * 0x8 + k.toNat * 0x1
  | .sll d a b w z k => 0x1A000000 + d.toNat * 0x100000 + a.toNat * 0x8000 + b.toNat * 0x400 + w.toNat * 0x10 + z.toNat * 0x8 + k.toNat * 0x1
  | .srl d a b w z k => 0x1C000000 + d.toNat * 0x100000 + a.toNat * 0x8000 + b.toNat * 0x400 + w.toNat * 0x10 + z.toNat * 0x8 + k.toNat * 0x1
  | .sra d a b w z k => 0x1E000000 + d.toNat * 0x100000 + a.toNat * 0x8000 + b.toNat * 0x400 + w.toNat * 0x10 + z.toNat * 0x8 + k.toNat * 0x1
  | .slt d a b w z k => 0x20000000 + d.toNat * 0x100000 + a.toNat * 0x8000 + b.toNat * 0x400 + w.toNat * 0x10 + z.toNat * 0x8 + k.toNat * 0x1
  | .sltu d a b w z k => 0x22000000 + d.toNat * 0x100000 + a.toNat * 0x8000 + b.toNat * 0x400 + w.toNat * 0x10 + z.toNat * 0x8 + k.toNat * 0x1
  | .min d a b w z k => 0x24000000 + d.toNat * 0x100000 + a.toNat * 0x8000 + b.toNat * 0x400 + w.toNat * 0x10 + z.toNat * 0x8 + k.toNat * 0x1
  | .max d a b w z k => 0x26000000 + d.toNat * 0x100000 + a.toNat * 0x8000 + b.toNat * 0x400 + w.toNat * 0x10 + z.toNat * 0x8 + k.toNat * 0x1
  | .adds d a b w z k => 0x28000000 + d.toNat * 0x100000 + a.toNat * 0x8000 + b.toNat * 0x400 + w.toNat * 0x10 + z.toNat * 0x8 + k.toNat * 0x1
  | .subs d a b w z k => 0x2A000000 + d.toNat * 0x100000 + a.toNat * 0x8000 + b.toNat * 0x400 + w.toNat * 0x10 + z.toNat * 0x8 + k.toNat * 0x1
  | .fadd d a b f r w z k => 0x2C000000 + d.toNat * 0x100000 + a.toNat * 0x8000 + b.toNat * 0x400 + f.toNat * 0x100 + r.toNat * 0x20 + w.toNat * 0x10 + z.toNat * 0x8 + k.toNat * 0x1
  | .fsub d a b f r w z k => 0x2E000000 + d.toNat * 0x100000 + a.toNat * 0x8000 + b.toNat * 0x400 + f.toNat * 0x100 + r.toNat * 0x20 + w.toNat * 0x10 + z.toNat * 0x8 + k.toNat * 0x1
  | .fmul d a b f r w z k => 0x30000000 + d.toNat * 0x100000 + a.toNat * 0x8000 + b.toNat * 0x400 + f.toNat * 0x100 + r.toNat * 0x20 + w.toNat * 0x10 + z.toNat * 0x8 + k.toNat * 0x1
  | .fdiv d a b f r w z k => 0x32000000 + d.toNat * 0x100000 + a.toNat * 0x8000 + b.toNat * 0x400 + f.toNat * 0x100 + r.toNat * 0x20 + w.toNat * 0x10 + z.toNat * 0x8 + k.toNat * 0x1
  | .fmac d a b f r w z k => 0x34000000 + d.toNat * 0x100000 + a.toNat * 0x8000 + b.toNat * 0x400 + f.toNat * 0x100 + r.toNat * 0x20 + w.toNat * 0x10 + z.toNat * 0x8 + k.toNat * 0x1
  | .fmin d a b f w z k => 0x36000000 + d.toNat * 0x100000 + a.toNat * 0x8000 + b.toNat * 0x400 + f.toNat * 0x100 + w.toNat * 0x10 + z.toNat * 0x8 + k.toNat * 0x1
  | .fmax d a b f w z k => 0x38000000 + d.toNat * 0x100000 + a.toNat * 0x8000 + b.toNat * 0x400 + f.toNat * 0x100 + w.toNat * 0x10 + z.toNat * 0x8 + k.toNat * 0x1
  | .fsqrt d a f r w z k => 0x3A000000 + d.toNat * 0x100000 + a.toNat * 0x8000 + f.toNat * 0x100 + r.toNat * 0x20 + w.toNat * 0x10 + z.toNat * 0x8 + k.toNat * 0x1
  | .feq d a b f w z k => 0x3C000000 + d.toNat * 0x100000 + a.toNat * 0x8000 + b.toNat * 0x400 + f.toNat * 0x100 + w.toNat * 0x10 + z.toNat * 0x8 + k.toNat * 0x1
  | .flt d a b f w z k => 0x3E000000 + d.toNat * 0x100000 + a.toNat * 0x8000 + b.toNat * 0x400 + f.toNat * 0x100 + w.toNat * 0x10 + z.toNat * 0x8 + k.toNat * 0x1
  | .fle d a b f w z k => 0x40000000 + d.toNat * 0x100000 + a.toNat * 0x8000 + b.toNat * 0x400 + f.toNat * 0x100 + w.toNat * 0x10 + z.toNat * 0x8 + k.toNat * 0x1
  | .mov d a w z k => 0x42000000 + d.toNat * 0x100000 + a.toNat * 0x8000 + w.toNat * 0x10 + z.toNat * 0x8 + k.toNat * 0x1
  | .sel d a b c w z k => 0x44000000 + d.toNat * 0x100000 + a.toNat * 0x8000 + b.toNat * 0x400 + c.toNat * 0x20 + w.toNat * 0x10 + z.toNat * 0x8 + k.toNat * 0x1
  | .lbc a s c => 0x46000000 + a.toNat * 0x8000 + s.toNat * 0x200 + c.toNat * 0x20
  | .lext d a s c => 0x48000000 + d.toNat * 0x100000 + a.toNat * 0x8000 + s.toNat * 0x200 + c.toNat * 0x20
  | .lins a b c => 0x4A000000 + a.toNat * 0x8000 + b.toNat * 0x400 + c.toNat * 0x20
  | .pack d a b s w z k => 0x4C000010 + d.toNat * 0x100000 + a.toNat * 0x8000 + b.toNat * 0x400 + s.toNat * 0x100 + w.toNat * 0x20 + z.toNat * 0x8 + k.toNat * 0x1
  | .unpk d a h s w z k => 0x4E000010 + d.toNat * 0x100000 + a.toNat * 0x8000 + h.toNat * 0x200 + s.toNat * 0x100 + w.toNat * 0x20 + z.toNat * 0x8 + k.toNat * 0x1
  | .mlane a b c n z k => 0x50000010 + a.toNat * 0x8000 + b.toNat * 0x400 + c.toNat * 0x100 + n.toNat * 0x20 + z.toNat * 0x8 + k.toNat * 0x1
  | .mset a n => 0x52000000 + a.toNat * 0x8000 + n.toNat * 0x20
  | .mget d n => 0x54000000 + d.toNat * 0x100000 + n.toNat * 0x20
  | .sprd d c => 0x56000000 + d.toNat * 0x100000 + c.toNat * 0x20
  | .spwr a c => 0x58000000 + a.toNat * 0x8000 + c.toNat * 0x20
  | .take d a l => 0x5A000000 + d.toNat * 0x100000 + a.toNat * 0x8000 + l.toNat * 0x20
  | .peek d a l => 0x5C000000 + d.toNat * 0x100000 + a.toNat * 0x8000 + l.toNat * 0x20
  | .adv a n => 0x5E000000 + a.toNat * 0x8000 + n.toNat * 0x20
  | .emit d a => 0x60000000 + d.toNat * 0x100000 + a.toNat * 0x8000
  | .waitf d a n => 0x62000000 + d.toNat * 0x100000 + a.toNat * 0x8000 + n.toNat * 0x20
  | .waite d a n => 0x64000000 + d.toNat * 0x100000 + a.toNat * 0x8000 + n.toNat * 0x20
  | .rrot d a b k => 0x66000000 + d.toNat * 0x100000 + a.toNat * 0x8000 + b.toNat * 0x400 + k.toNat * 0x20
  | .lgen d a b t => 0x68000000 + d.toNat * 0x100000 + a.toNat * 0x8000 + b.toNat * 0x400 + t.toNat * 0x20
  | .tcmp d a b => 0x6A000000 + d.toNat * 0x100000 + a.toNat * 0x8000 + b.toNat * 0x400
  | .tjoin d a b => 0x6A000020 + d.toNat * 0x100000 + a.toNat * 0x8000 + b.toNat * 0x400
  | .tmeet d a b => 0x6A000040 + d.toNat * 0x100000 + a.toNat * 0x8000 + b.toNat * 0x400
  | .tadv d a b => 0x6A000060 + d.toNat * 0x100000 + a.toNat * 0x8000 + b.toNat * 0x400
  | .frd d a => 0x6C000000 + d.toNat * 0x100000 + a.toNat * 0x8000
  | .frdCnt d a => 0x6C000200 + d.toNat * 0x100000 + a.toNat * 0x8000
  | .fwait d a => 0x6E000000 + d.toNat * 0x100000 + a.toNat * 0x8000
  | .caph d a => 0x70000000 + d.toNat * 0x100000 + a.toNat * 0x8000
  | .capd d a => 0x70000020 + d.toNat * 0x100000 + a.toNat * 0x8000
  | .capx d a b => 0x70000040 + d.toNat * 0x100000 + a.toNat * 0x8000 + b.toNat * 0x400
  | .ains d a b c => 0x72000000 + d.toNat * 0x100000 + a.toNat * 0x8000 + b.toNat * 0x400 + c.toNat * 0x20
  | .amrg d a b => 0x74000000 + d.toNat * 0x100000 + a.toNat * 0x8000 + b.toNat * 0x400
  | .aprb d a b p => 0x76000000 + d.toNat * 0x100000 + a.toNat * 0x8000 + b.toNat * 0x400 + p.toNat * 0x20
  | .acmp d a b => 0x78000000 + d.toNat * 0x100000 + a.toNat * 0x8000 + b.toNat * 0x400
  | .acon d a b => 0x7A000000 + d.toNat * 0x100000 + a.toNat * 0x8000 + b.toNat * 0x400
  | .join d a b v k p => 0x7C000000 + d.toNat * 0x100000 + a.toNat * 0x8000 + b.toNat * 0x400 + v.toNat * 0x200 + k.toNat * 0x80 + p.toNat * 0x20
  | .red d a b k p => 0x7E000000 + d.toNat * 0x100000 + a.toNat * 0x8000 + b.toNat * 0x400 + k.toNat * 0x80 + p.toNat * 0x20
  | .wrel d a b => 0x80000000 + d.toNat * 0x100000 + a.toNat * 0x8000 + b.toNat * 0x400
  | .aadd d a b r w s => 0x82000000 + d.toNat * 0x100000 + a.toNat * 0x8000 + b.toNat * 0x400 + r.toNat * 0x200 + w.toNat * 0x100 + s.toNat * 0x1
  | .amin d a b r w s => 0x82000020 + d.toNat * 0x100000 + a.toNat * 0x8000 + b.toNat * 0x400 + r.toNat * 0x200 + w.toNat * 0x100 + s.toNat * 0x1
  | .amax d a b r w s => 0x82000040 + d.toNat * 0x100000 + a.toNat * 0x8000 + b.toNat * 0x400 + r.toNat * 0x200 + w.toNat * 0x100 + s.toNat * 0x1
  | .aand d a b r w s => 0x82000060 + d.toNat * 0x100000 + a.toNat * 0x8000 + b.toNat * 0x400 + r.toNat * 0x200 + w.toNat * 0x100 + s.toNat * 0x1
  | .aor d a b r w s => 0x82000080 + d.toNat * 0x100000 + a.toNat * 0x8000 + b.toNat * 0x400 + r.toNat * 0x200 + w.toNat * 0x100 + s.toNat * 0x1
  | .axor d a b r w s => 0x820000A0 + d.toNat * 0x100000 + a.toNat * 0x8000 + b.toNat * 0x400 + r.toNat * 0x200 + w.toNat * 0x100 + s.toNat * 0x1
  | .aswp d a b r w s => 0x820000C0 + d.toNat * 0x100000 + a.toNat * 0x8000 + b.toNat * 0x400 + r.toNat * 0x200 + w.toNat * 0x100 + s.toNat * 0x1
  | .acas d a b r w s => 0x820000E0 + d.toNat * 0x100000 + a.toNat * 0x8000 + b.toNat * 0x400 + r.toNat * 0x200 + w.toNat * 0x100 + s.toNat * 0x1
  | .pwait d a b s => 0x84000000 + d.toNat * 0x100000 + a.toNat * 0x8000 + b.toNat * 0x400 + s.toNat * 0x1
  | .pgive d a b s => 0x84000020 + d.toNat * 0x100000 + a.toNat * 0x8000 + b.toNat * 0x400 + s.toNat * 0x1
  | .pswap d a b s => 0x84000040 + d.toNat * 0x100000 + a.toNat * 0x8000 + b.toNat * 0x400 + s.toNat * 0x1
  | .paban d a b s => 0x84000060 + d.toNat * 0x100000 + a.toNat * 0x8000 + b.toNat * 0x400 + s.toNat * 0x1
  | .prel d a b s => 0x84000080 + d.toNat * 0x100000 + a.toNat * 0x8000 + b.toNat * 0x400 + s.toNat * 0x1
  | .cpy d a s => 0x86000000 + d.toNat * 0x100000 + a.toNat * 0x8000 + s.toNat * 0x1
  | .gath d a s => 0x86000020 + d.toNat * 0x100000 + a.toNat * 0x8000 + s.toNat * 0x1
  | .scat d a s => 0x86000040 + d.toNat * 0x100000 + a.toNat * 0x8000 + s.toNat * 0x1
  | .trig d a s => 0x86000060 + d.toNat * 0x100000 + a.toNat * 0x8000 + s.toNat * 0x1
  | .coll d a s => 0x86000080 + d.toNat * 0x100000 + a.toNat * 0x8000 + s.toNat * 0x1
  | .flagst d a s => 0x860000A0 + d.toNat * 0x100000 + a.toNat * 0x8000 + s.toNat * 0x1
  | .thaw d a => 0x88000000 + d.toNat * 0x100000 + a.toNat * 0x8000
  | .bubl d a b => 0x8A000000 + d.toNat * 0x100000 + a.toNat * 0x8000 + b.toNat * 0x400
  | .addi d a i => 0x90000000 + d.toNat * 0x100000 + a.toNat * 0x8000 + i.toNat * 0x1
  | .andi d a i => 0x92000000 + d.toNat * 0x100000 + a.toNat * 0x8000 + i.toNat * 0x1
  | .ori d a i => 0x94000000 + d.toNat * 0x100000 + a.toNat * 0x8000 + i.toNat * 0x1
  | .xori d a i => 0x96000000 + d.toNat * 0x100000 + a.toNat * 0x8000 + i.toNat * 0x1
  | .slti d a i => 0x98000000 + d.toNat * 0x100000 + a.toNat * 0x8000 + i.toNat * 0x1
  | .slli d a i => 0x9A000000 + d.toNat * 0x100000 + a.toNat * 0x8000 + i.toNat * 0x1
  | .srli d a i => 0x9C000000 + d.toNat * 0x100000 + a.toNat * 0x8000 + i.toNat * 0x1
  | .srai d a i => 0x9E000000 + d.toNat * 0x100000 + a.toNat * 0x8000 + i.toNat * 0x1
  | .movhi d i => 0xA0000000 + d.toNat * 0x100000 + i.toNat * 0x1
  | .drain p => 0xA2000000 + p.toNat * 0x1
  | .ldI8 d a o s => 0xB0000000 + d.toNat * 0x100000 + a.toNat * 0x8000 + o.toNat * 0x8 + s.toNat * 0x1
  | .ldB8 d a o s => 0xB2000000 + d.toNat * 0x100000 + a.toNat * 0x8000 + o.toNat * 0x8 + s.toNat * 0x1
  | .ldI16 d a o s => 0xB4000000 + d.toNat * 0x100000 + a.toNat * 0x8000 + o.toNat * 0x8 + s.toNat * 0x1
  | .ldB16 d a o s => 0xB6000000 + d.toNat * 0x100000 + a.toNat * 0x8000 + o.toNat * 0x8 + s.toNat * 0x1
  | .ldB32 d a o s => 0xB8000000 + d.toNat * 0x100000 + a.toNat * 0x8000 + o.toNat * 0x8 + s.toNat * 0x1
  | .ldB64 d a o s => 0xBA000000 + d.toNat * 0x100000 + a.toNat * 0x8000 + o.toNat * 0x8 + s.toNat * 0x1
  | .ldW d a o s => 0xBC000000 + d.toNat * 0x100000 + a.toNat * 0x8000 + o.toNat * 0x8 + s.toNat * 0x1
  | .stB8 d a o s => 0xBE000000 + d.toNat * 0x100000 + a.toNat * 0x8000 + o.toNat * 0x8 + s.toNat * 0x1
  | .stB16 d a o s => 0xC0000000 + d.toNat * 0x100000 + a.toNat * 0x8000 + o.toNat * 0x8 + s.toNat * 0x1
  | .stB32 d a o s => 0xC2000000 + d.toNat * 0x100000 + a.toNat * 0x8000 + o.toNat * 0x8 + s.toNat * 0x1
  | .stB64 d a o s => 0xC4000000 + d.toNat * 0x100000 + a.toNat * 0x8000 + o.toNat * 0x8 + s.toNat * 0x1
  | .stW d a o s => 0xC6000000 + d.toNat * 0x100000 + a.toNat * 0x8000 + o.toNat * 0x8 + s.toNat * 0x1
  | .ldAcqB32 d a o s => 0xC8000000 + d.toNat * 0x100000 + a.toNat * 0x8000 + o.toNat * 0x8 + s.toNat * 0x1
  | .ldAcqB64 d a o s => 0xCA000000 + d.toNat * 0x100000 + a.toNat * 0x8000 + o.toNat * 0x8 + s.toNat * 0x1
  | .stRelB32 d a o s => 0xCC000000 + d.toNat * 0x100000 + a.toNat * 0x8000 + o.toNat * 0x8 + s.toNat * 0x1
  | .stRelB64 d a o s => 0xCE000000 + d.toNat * 0x100000 + a.toNat * 0x8000 + o.toNat * 0x8 + s.toNat * 0x1
  | .ldf d a o s => 0xD0000000 + d.toNat * 0x100000 + a.toNat * 0x8000 + o.toNat * 0x8 + s.toNat * 0x1
  | .ldfe d a o s => 0xD2000000 + d.toNat * 0x100000 + a.toNat * 0x8000 + o.toNat * 0x8 + s.toNat * 0x1
  | .ste d a o s => 0xD4000000 + d.toNat * 0x100000 + a.toNat * 0x8000 + o.toNat * 0x8 + s.toNat * 0x1
  | .stf d a o s => 0xD6000000 + d.toNat * 0x100000 + a.toNat * 0x8000 + o.toNat * 0x8 + s.toNat * 0x1
  | .feclr d a o s => 0xD8000000 + d.toNat * 0x100000 + a.toNat * 0x8000 + o.toNat * 0x8 + s.toNat * 0x1
  | .place d a s => 0xDA000000 + d.toNat * 0x100000 + a.toNat * 0x8000 + s.toNat * 0x1
  | .fence s => 0xDC000000 + s.toNat * 0x1
  | .mma t a b f d c r => 0xE0000000 + t.toNat * 0x800000 + a.toNat * 0x40000 + b.toNat * 0x2000 + f.toNat * 0x200 + d.toNat * 0x10 + c.toNat * 0x8 + r.toNat * 0x1
  | .mmag t a b f d c r => 0xE2000000 + t.toNat * 0x800000 + a.toNat * 0x40000 + b.toNat * 0x2000 + f.toNat * 0x200 + d.toNat * 0x10 + c.toNat * 0x8 + r.toNat * 0x1
  | .ldt a b f => 0xE4000000 + a.toNat * 0x40000 + b.toNat * 0x2000 + f.toNat * 0x200
  | .sortn a b f u d => 0xE6000000 + a.toNat * 0x40000 + b.toNat * 0x2000 + f.toNat * 0x200 + u.toNat * 0x10 + d.toNat * 0x8
  | .cvt a b f s r => 0xE8000000 + a.toNat * 0x40000 + b.toNat * 0x2000 + f.toNat * 0x200 + s.toNat * 0x20 + r.toNat * 0x1
  | .scld t a b f => 0xEA000000 + t.toNat * 0x800000 + a.toNat * 0x40000 + b.toNat * 0x2000 + f.toNat * 0x200
  | .scem t a b f => 0xEC000000 + t.toNat * 0x800000 + a.toNat * 0x40000 + b.toNat * 0x2000 + f.toNat * 0x200
  | .accld t a f => 0xEE000000 + t.toNat * 0x800000 + a.toNat * 0x40000 + f.toNat * 0x200
  | .accst t a b f => 0xF0000000 + t.toNat * 0x800000 + a.toNat * 0x40000 + b.toNat * 0x2000 + f.toNat * 0x200
  | .rmax t a b f w => 0xF2000000 + t.toNat * 0x800000 + a.toNat * 0x40000 + b.toNat * 0x2000 + f.toNat * 0x200 + w.toNat * 0x20
  | .rmin t a b f w => 0xF2000040 + t.toNat * 0x800000 + a.toNat * 0x40000 + b.toNat * 0x2000 + f.toNat * 0x200 + w.toNat * 0x20
  | .rclmp t a b f w => 0xF2000080 + t.toNat * 0x800000 + a.toNat * 0x40000 + b.toNat * 0x2000 + f.toNat * 0x200 + w.toNat * 0x20
  | .rmed t a b f w => 0xF20000C0 + t.toNat * 0x800000 + a.toNat * 0x40000 + b.toNat * 0x2000 + f.toNat * 0x200 + w.toNat * 0x20
  | .rsats t a b f w => 0xF2000100 + t.toNat * 0x800000 + a.toNat * 0x40000 + b.toNat * 0x2000 + f.toNat * 0x200 + w.toNat * 0x20
  | .adjb t a b f => 0xF4000000 + t.toNat * 0x800000 + a.toNat * 0x40000 + b.toNat * 0x2000 + f.toNat * 0x200
  | .commit => 0xF8000000
  | .br k c s m g => 0xFA000000 + k.toNat * 0x200000 + c.toNat * 0x100000 + s.toNat * 0x10000 + m.toNat * 0x4000 + g.toNat * 0x1
  | .halt => 0xFC000000
  | .nop => 0x0000
  | .circ i o v => 0x2000 + i.toNat * 0x400 + o.toNat * 0x80 + v.toNat * 0x1
  | .slot i o v _ _ => 0x4000 + i.toNat * 0x400 + o.toNat * 0x80 + v.toNat * 0x1
  | .best i o => 0x6000 + i.toNat * 0x400 + o.toNat * 0x80
  | .width o w => 0x8000 + o.toNat * 0x80 + w.toNat * 0x1
  | .scale i o => 0xA000 + i.toNat * 0x400 + o.toNat * 0x80
  | .endList => 0xE000
  | .blockFire _ _ _ _ => 0
  | .instanceCommit _ _ _ => 0
  | .elementFaultDelivery _ => 0
  | .ereplayDiscard _ => 0
  | .ereplayRetry _ => 0
  | .wfeWake _ => 0
  | .wfeTimeout _ => 0
  | .configSwap _ => 0
  | .routerForward _ _ _ _ => 0
  | .generatorEmit _ _ _ => 0
  | .emitterSend _ _ _ => 0
  | .rrotRotate _ => 0
  | .scaleTokenArrive _ _ => 0
  | .bankReplay _ _ => 0
  | .streamStep _ _ => 0
  | .repairStep _ _ => 0
  | .faultRecordWrite _ _ => 0
  | .resume _ _ => 0
  | .escalation _ _ => 0
  | .feTimeout _ _ _ => 0
  | .bufferStep _ _ => 0
  | .placeStep _ _ => 0
  | .drainStep _ _ => 0
  | .readStep _ _ => 0
  | .ownerStep _ _ => 0
  | .releaseStep _ _ => 0
  | .installStep _ _ _ => 0
  | .frontCountExchange _ => 0
  | .walk _ _ _ => 0
  | .tableMigrate _ _ => 0
  | .engineComplete _ => 0
  | .gatherBurst _ _ => 0
  | .triggerEvaluate _ _ => 0
  | .deadlockProbe _ _ => 0
  | .probeForward _ _ => 0
  | .doorbell _ _ _ => 0
  | .fqhead _ _ => 0
  | .verrClear _ _ => 0
  | .bar0WriteOther _ _ => 0
  | .hostWrite _ _ _ => 0
  | .hostRead _ _ _ => 0
  | .packetTake _ => 0
  | .packetTrigger _ => 0
  | .packetStart _ => 0
  | .configLoad _ => 0
  | .stage _ => 0
  | .loadNaturalEnd _ => 0
  | .loadCompletionRecord _ => 0
  | .loadFreeze _ => 0
  | .evict _ => 0
  | .restore _ => 0
  | .preempt _ => 0
  | .loadMove _ => 0
  | .watchdogExpiry _ => 0
  | .patchPowerGate _ => 0
  | .patchWake _ => 0
  | .pcreate _ _ _ _ => 0
  | .pdestroy _ => 0
  | .grant _ => 0
  | .qset _ => 0
  | .qenable _ => 0
  | .qdisable _ => 0
  | .vfbind _ _ => 0
  | .wdack _ => 0
  | .thawCommand _ => 0
  | .lend _ => 0
  | .ldiscard _ => 0
  | .lpreempt _ => 0
  | .inval _ _ _ => 0
  | .timeouts _ => 0
  | .route _ => 0
  | .slotld _ _ => 0
  | .migrate _ _ _ => 0
  | .readSaveFrame _ _ _ => 0
  | .readSlipcnt _ _ => 0
  | .readLinkErrors _ _ => 0
  | .readFailureMap _ => 0
  | .readBootReport _ _ => 0
  | .readDeviceState _ => 0
  | .readIdentityCert _ => 0
  | .readThrottle _ => 0
  | .rd _ _ => 0
  | .rdr _ _ => 0
  | .wr _ _ => 0
  | .wra _ _ => 0
  | .atom _ _ => 0
  | .atomr _ _ => 0
  | .flaginc _ _ => 0
  | .cust _ _ => 0
  | .err _ _ => 0
  | .redir _ _ => 0
  | .sync _ _ => 0
  | .syncSend _ => 0
  | .collPacket _ _ => 0
  | .fabricForward _ _ => 0
  | .flitReplay _ _ => 0
  | .custodyResend _ => 0
  | .custodyTimeout _ => 0
  | .collectiveStart _ _ => 0
  | .tileArrival _ _ _ => 0
  | .collectiveComplete _ => 0
  | .collectiveBudgetExpiry _ => 0
  | .framePull _ _ _ _ => 0
  | .stubForward _ => 0
  | .migrateAbort _ => 0
  | .deviceReset => 0
  | .powerGood _ => 0
  | .selftestDone _ => 0
  | .calibrationDone _ _ => 0
  | .patchJoinFull _ => 0
  | .throttleRise _ _ _ => 0
  | .throttleFall _ => 0
  | .thermalShutdown _ => 0
  | .linkStart _ _ _ _ => 0
  | .reservedControlWord _ => 0
  | .unknownCommand _ => 0

/-- The members of the ALU family (R78), by their subfunction. -/
def pickAlu (sub w : Nat) : Except DecodeError Instr :=
  match sub with
  | 0 => .ok (.seqAdd (fld w 21 5) (fld w 16 5) (fld w 11 5))
  | 1 => .ok (.seqSub (fld w 21 5) (fld w 16 5) (fld w 11 5))
  | 2 => .ok (.seqAnd (fld w 21 5) (fld w 16 5) (fld w 11 5))
  | 3 => .ok (.seqOr (fld w 21 5) (fld w 16 5) (fld w 11 5))
  | 4 => .ok (.seqXor (fld w 21 5) (fld w 16 5) (fld w 11 5))
  | 5 => .ok (.seqSll (fld w 21 5) (fld w 16 5) (fld w 11 5))
  | 6 => .ok (.seqSrl (fld w 21 5) (fld w 16 5) (fld w 11 5))
  | 7 => .ok (.seqSra (fld w 21 5) (fld w 16 5) (fld w 11 5))
  | 8 => .ok (.seqSlt (fld w 21 5) (fld w 16 5) (fld w 11 5))
  | 9 => .ok (.seqSltu (fld w 21 5) (fld w 16 5) (fld w 11 5))
  | 10 => .ok (.seqMul (fld w 21 5) (fld w 16 5) (fld w 11 5))
  | 11 => .ok (.seqMulh (fld w 21 5) (fld w 16 5) (fld w 11 5))
  | 12 => .ok (.seqMulhu (fld w 21 5) (fld w 16 5) (fld w 11 5))
  | 13 => .ok (.seqDiv (fld w 21 5) (fld w 16 5) (fld w 11 5))
  | 14 => .ok (.seqDivu (fld w 21 5) (fld w 16 5) (fld w 11 5))
  | 15 => .ok (.seqRem (fld w 21 5) (fld w 16 5) (fld w 11 5))
  | 16 => .ok (.seqRemu (fld w 21 5) (fld w 16 5) (fld w 11 5))
  | 17 => .ok (.seqMin (fld w 21 5) (fld w 16 5) (fld w 11 5))
  | 18 => .ok (.seqMax (fld w 21 5) (fld w 16 5) (fld w 11 5))
  | 19 => .ok (.minu (fld w 21 5) (fld w 16 5) (fld w 11 5))
  | 20 => .ok (.maxu (fld w 21 5) (fld w 16 5) (fld w 11 5))
  | 21 => .ok (.seqAdds (fld w 21 5) (fld w 16 5) (fld w 11 5))
  | 22 => .ok (.seqSubs (fld w 21 5) (fld w 16 5) (fld w 11 5))
  | _ => .error .reservedSub

/-- The members of the SYS family (R80), by their subfunction. -/
def pickSys (sub w : Nat) : Except DecodeError Instr :=
  match sub with
  | 0 => .ok (.xret)
  | 1 => .ok (.wfe)
  | 2 => .ok (.seqFence (fld w 8 3))
  | 3 => .ok (.freeze)
  | 4 => .ok (.tscr (fld w 21 5))
  | 5 => .ok (.rdtag (fld w 21 5))
  | _ => .error .reservedSub

/-- The members of the CL format: LOOP and LOOPR (R76), by their subfunction. -/
def pickLoop (sub w : Nat) : Except DecodeError Instr :=
  match sub with
  | 0 => .ok (.loop (fld w 24 2) (fld w 12 11) (fld w 4 8))
  | 1 => .ok (.loopr (fld w 24 2) (fld w 12 5) (fld w 4 8))
  | _ => .error .reservedSub

/-- The members of the AMOM family (R82), by their subfunction. -/
def pickAmom (sub w : Nat) : Except DecodeError Instr :=
  match sub with
  | 0 => .ok (.seqAadd (fld w 21 5) (fld w 16 5) (fld w 12 1) (fld w 10 2) (fld w 7 3))
  | 1 => .ok (.seqAmin (fld w 21 5) (fld w 16 5) (fld w 12 1) (fld w 10 2) (fld w 7 3))
  | 2 => .ok (.seqAmax (fld w 21 5) (fld w 16 5) (fld w 12 1) (fld w 10 2) (fld w 7 3))
  | 3 => .ok (.seqAand (fld w 21 5) (fld w 16 5) (fld w 12 1) (fld w 10 2) (fld w 7 3))
  | 4 => .ok (.seqAor (fld w 21 5) (fld w 16 5) (fld w 12 1) (fld w 10 2) (fld w 7 3))
  | 5 => .ok (.seqAxor (fld w 21 5) (fld w 16 5) (fld w 12 1) (fld w 10 2) (fld w 7 3))
  | 6 => .ok (.seqAswp (fld w 21 5) (fld w 16 5) (fld w 12 1) (fld w 10 2) (fld w 7 3))
  | 7 => .ok (.seqAcas (fld w 21 5) (fld w 16 5) (fld w 12 1) (fld w 10 2) (fld w 7 3))
  | _ => .error .reservedSub

/-- The members of the STRM family (R83), by their subfunction. -/
def pickStrm (sub w : Nat) : Except DecodeError Instr :=
  match sub with
  | 0 => .ok (.sbind (fld w 16 5) (fld w 0 4))
  | 1 => .ok (.sgo (fld w 0 4))
  | 2 => .ok (.swaitp (fld w 0 4))
  | 3 => .ok (.sbar)
  | _ => .error .reservedSub

/-- The members of the CFG family (R83), by their subfunction. -/
def pickCfg (sub w : Nat) : Except DecodeError Instr :=
  match sub with
  | 0 => .ok (.cfgld (fld w 21 5) (fld w 16 5))
  | 1 => .ok (.cfgpat (fld w 21 5) (fld w 16 5))
  | 2 => .ok (.cfgrect (fld w 21 5) (fld w 16 5))
  | 3 => .ok (.cfgcmt (fld w 21 5))
  | 4 => .ok (.cfgabt)
  | _ => .error .reservedSub

/-- The control opcode map (R77). -/
def pickCtl (op w : Nat) : Except DecodeError Instr :=
  match op with
  | 0x01 => pickAlu (w / 2 ^ 0 % 2 ^ 5) w
  | 0x02 => .ok (.kcmp (fld w 21 2) (fld w 16 5) (fld w 11 5) (fld w 0 3))
  | 0x03 => pickSys (w / 2 ^ 0 % 2 ^ 5) w
  | 0x04 => .ok (.launch (fld w 21 5) (fld w 16 5) (fld w 11 5))
  | 0x05 => .ok (.signal (fld w 16 5) (fld w 11 5) (fld w 8 3))
  | 0x08 => .ok (.seqAddi (fld w 21 5) (fld w 16 5) (fld w 0 16))
  | 0x09 => .ok (.seqAndi (fld w 21 5) (fld w 16 5) (fld w 0 16))
  | 0x0A => .ok (.seqOri (fld w 21 5) (fld w 16 5) (fld w 0 16))
  | 0x0B => .ok (.seqXori (fld w 21 5) (fld w 16 5) (fld w 0 16))
  | 0x0C => .ok (.seqSlti (fld w 21 5) (fld w 16 5) (fld w 0 16))
  | 0x0D => .ok (.sltiu (fld w 21 5) (fld w 16 5) (fld w 0 16))
  | 0x0E => .ok (.seqSlli (fld w 21 5) (fld w 16 5) (fld w 0 5))
  | 0x0F => .ok (.seqSrli (fld w 21 5) (fld w 16 5) (fld w 0 5))
  | 0x10 => .ok (.seqSrai (fld w 21 5) (fld w 16 5) (fld w 0 5))
  | 0x11 => .ok (.lui (fld w 21 5) (fld w 0 16))
  | 0x12 => .ok (.jalr (fld w 21 5) (fld w 16 5) (fld w 0 16))
  | 0x13 => .ok (.trap (fld w 16 5) (fld w 8 8) (fld w 0 8))
  | 0x14 => .ok (.csrr (fld w 21 5) (fld w 0 12))
  | 0x15 => .ok (.csrw (fld w 16 5) (fld w 0 12))
  | 0x18 => .ok (.lb (fld w 21 5) (fld w 16 5) (fld w 0 16))
  | 0x19 => .ok (.lbu (fld w 21 5) (fld w 16 5) (fld w 0 16))
  | 0x1A => .ok (.lh (fld w 21 5) (fld w 16 5) (fld w 0 16))
  | 0x1B => .ok (.lhu (fld w 21 5) (fld w 16 5) (fld w 0 16))
  | 0x1C => .ok (.lw (fld w 21 5) (fld w 16 5) (fld w 0 16))
  | 0x1D => .ok (.sb (fld w 21 5) (fld w 16 5) (fld w 0 16))
  | 0x1E => .ok (.sh (fld w 21 5) (fld w 16 5) (fld w 0 16))
  | 0x1F => .ok (.sw (fld w 21 5) (fld w 16 5) (fld w 0 16))
  | 0x20 => .ok (.beq (fld w 21 5) (fld w 16 5) (fld w 0 16))
  | 0x21 => .ok (.bne (fld w 21 5) (fld w 16 5) (fld w 0 16))
  | 0x22 => .ok (.blt (fld w 21 5) (fld w 16 5) (fld w 0 16))
  | 0x23 => .ok (.bge (fld w 21 5) (fld w 16 5) (fld w 0 16))
  | 0x24 => .ok (.bltu (fld w 21 5) (fld w 16 5) (fld w 0 16))
  | 0x25 => .ok (.bgeu (fld w 21 5) (fld w 16 5) (fld w 0 16))
  | 0x26 => .ok (.bkt (fld w 21 2) (fld w 0 16))
  | 0x27 => .ok (.bkf (fld w 21 2) (fld w 0 16))
  | 0x28 => .ok (.j (fld w 0 26))
  | 0x29 => .ok (.jal (fld w 0 26))
  | 0x2C => pickLoop (w / 2 ^ 23 % 2 ^ 1) w
  | 0x2D => .ok (.lbrk (fld w 24 2))
  | 0x30 => .ok (.ldm (fld w 21 5) (fld w 16 5) (fld w 14 2) (fld w 12 2) (fld w 11 1) (fld w 7 3))
  | 0x31 => .ok (.stm (fld w 21 5) (fld w 16 5) (fld w 14 2) (fld w 12 2) (fld w 7 3))
  | 0x32 => pickAmom (w / 2 ^ 13 % 2 ^ 3) w
  | 0x33 => pickStrm (w / 2 ^ 10 % 2 ^ 6) w
  | 0x34 => pickCfg (w / 2 ^ 10 % 2 ^ 6) w
  | _ => .error .reservedOpcode

/-- The members of the TIME family (R93), by their subfunction. -/
def pickTime (sub w : Nat) : Except DecodeError Instr :=
  match sub with
  | 0 => .ok (.tcmp (fld w 20 5) (fld w 15 5) (fld w 10 5))
  | 1 => .ok (.tjoin (fld w 20 5) (fld w 15 5) (fld w 10 5))
  | 2 => .ok (.tmeet (fld w 20 5) (fld w 15 5) (fld w 10 5))
  | 3 => .ok (.tadv (fld w 20 5) (fld w 15 5) (fld w 10 5))
  | _ => .error .reservedSub

/-- The members of FRD, by its form bit (R247), by their subfunction. -/
def pickFrd (sub w : Nat) : Except DecodeError Instr :=
  match sub with
  | 0 => .ok (.frd (fld w 20 5) (fld w 15 5))
  | 1 => .ok (.frdCnt (fld w 20 5) (fld w 15 5))
  | _ => .error .reservedSub

/-- The members of the CAP family (R93), by their subfunction. -/
def pickCap (sub w : Nat) : Except DecodeError Instr :=
  match sub with
  | 0 => .ok (.caph (fld w 20 5) (fld w 15 5))
  | 1 => .ok (.capd (fld w 20 5) (fld w 15 5))
  | 2 => .ok (.capx (fld w 20 5) (fld w 15 5) (fld w 10 5))
  | _ => .error .reservedSub

/-- The members of the ATOM family (R93), by their subfunction. -/
def pickAtom (sub w : Nat) : Except DecodeError Instr :=
  match sub with
  | 0 => .ok (.aadd (fld w 20 5) (fld w 15 5) (fld w 10 5) (fld w 9 1) (fld w 8 1) (fld w 0 3))
  | 1 => .ok (.amin (fld w 20 5) (fld w 15 5) (fld w 10 5) (fld w 9 1) (fld w 8 1) (fld w 0 3))
  | 2 => .ok (.amax (fld w 20 5) (fld w 15 5) (fld w 10 5) (fld w 9 1) (fld w 8 1) (fld w 0 3))
  | 3 => .ok (.aand (fld w 20 5) (fld w 15 5) (fld w 10 5) (fld w 9 1) (fld w 8 1) (fld w 0 3))
  | 4 => .ok (.aor (fld w 20 5) (fld w 15 5) (fld w 10 5) (fld w 9 1) (fld w 8 1) (fld w 0 3))
  | 5 => .ok (.axor (fld w 20 5) (fld w 15 5) (fld w 10 5) (fld w 9 1) (fld w 8 1) (fld w 0 3))
  | 6 => .ok (.aswp (fld w 20 5) (fld w 15 5) (fld w 10 5) (fld w 9 1) (fld w 8 1) (fld w 0 3))
  | 7 => .ok (.acas (fld w 20 5) (fld w 15 5) (fld w 10 5) (fld w 9 1) (fld w 8 1) (fld w 0 3))
  | _ => .error .reservedSub

/-- The members of the PHND family (R93), by their subfunction. -/
def pickPhnd (sub w : Nat) : Except DecodeError Instr :=
  match sub with
  | 0 => .ok (.pwait (fld w 20 5) (fld w 15 5) (fld w 10 5) (fld w 0 3))
  | 1 => .ok (.pgive (fld w 20 5) (fld w 15 5) (fld w 10 5) (fld w 0 3))
  | 2 => .ok (.pswap (fld w 20 5) (fld w 15 5) (fld w 10 5) (fld w 0 3))
  | 3 => .ok (.paban (fld w 20 5) (fld w 15 5) (fld w 10 5) (fld w 0 3))
  | 4 => .ok (.prel (fld w 20 5) (fld w 15 5) (fld w 10 5) (fld w 0 3))
  | _ => .error .reservedSub

/-- The members of the ENG family (R93), by their subfunction. -/
def pickEng (sub w : Nat) : Except DecodeError Instr :=
  match sub with
  | 0 => .ok (.cpy (fld w 20 5) (fld w 15 5) (fld w 0 3))
  | 1 => .ok (.gath (fld w 20 5) (fld w 15 5) (fld w 0 3))
  | 2 => .ok (.scat (fld w 20 5) (fld w 15 5) (fld w 0 3))
  | 3 => .ok (.trig (fld w 20 5) (fld w 15 5) (fld w 0 3))
  | 4 => .ok (.coll (fld w 20 5) (fld w 15 5) (fld w 0 3))
  | 5 => .ok (.flagst (fld w 20 5) (fld w 15 5) (fld w 0 3))
  | _ => .error .reservedSub

/-- The members of the WRED family (R95), by their subfunction. -/
def pickWred (sub w : Nat) : Except DecodeError Instr :=
  match sub with
  | 0 => .ok (.rmax (fld w 23 2) (fld w 18 5) (fld w 13 5) (fld w 9 4) (fld w 5 1))
  | 1 => .ok (.rmin (fld w 23 2) (fld w 18 5) (fld w 13 5) (fld w 9 4) (fld w 5 1))
  | 2 => .ok (.rclmp (fld w 23 2) (fld w 18 5) (fld w 13 5) (fld w 9 4) (fld w 5 1))
  | 3 => .ok (.rmed (fld w 23 2) (fld w 18 5) (fld w 13 5) (fld w 9 4) (fld w 5 1))
  | 4 => .ok (.rsats (fld w 23 2) (fld w 18 5) (fld w 13 5) (fld w 9 4) (fld w 5 1))
  | _ => .error .reservedSub

/-- The element opcode map (R89). -/
def pickElem (op w : Nat) : Except DecodeError Instr :=
  match op with
  | 0x01 => .ok (.add (fld w 20 5) (fld w 15 5) (fld w 10 5) (fld w 4 1) (fld w 3 1) (fld w 0 3))
  | 0x02 => .ok (.sub (fld w 20 5) (fld w 15 5) (fld w 10 5) (fld w 4 1) (fld w 3 1) (fld w 0 3))
  | 0x03 => .ok (.mul (fld w 20 5) (fld w 15 5) (fld w 10 5) (fld w 4 1) (fld w 3 1) (fld w 0 3))
  | 0x04 => .ok (.mulh (fld w 20 5) (fld w 15 5) (fld w 10 5) (fld w 4 1) (fld w 3 1) (fld w 0 3))
  | 0x05 => .ok (.mulhu (fld w 20 5) (fld w 15 5) (fld w 10 5) (fld w 4 1) (fld w 3 1) (fld w 0 3))
  | 0x06 => .ok (.div (fld w 20 5) (fld w 15 5) (fld w 10 5) (fld w 4 1) (fld w 3 1) (fld w 0 3))
  | 0x07 => .ok (.divu (fld w 20 5) (fld w 15 5) (fld w 10 5) (fld w 4 1) (fld w 3 1) (fld w 0 3))
  | 0x08 => .ok (.rem (fld w 20 5) (fld w 15 5) (fld w 10 5) (fld w 4 1) (fld w 3 1) (fld w 0 3))
  | 0x09 => .ok (.remu (fld w 20 5) (fld w 15 5) (fld w 10 5) (fld w 4 1) (fld w 3 1) (fld w 0 3))
  | 0x0A => .ok (.and (fld w 20 5) (fld w 15 5) (fld w 10 5) (fld w 4 1) (fld w 3 1) (fld w 0 3))
  | 0x0B => .ok (.or (fld w 20 5) (fld w 15 5) (fld w 10 5) (fld w 4 1) (fld w 3 1) (fld w 0 3))
  | 0x0C => .ok (.xor (fld w 20 5) (fld w 15 5) (fld w 10 5) (fld w 4 1) (fld w 3 1) (fld w 0 3))
  | 0x0D => .ok (.sll (fld w 20 5) (fld w 15 5) (fld w 10 5) (fld w 4 1) (fld w 3 1) (fld w 0 3))
  | 0x0E => .ok (.srl (fld w 20 5) (fld w 15 5) (fld w 10 5) (fld w 4 1) (fld w 3 1) (fld w 0 3))
  | 0x0F => .ok (.sra (fld w 20 5) (fld w 15 5) (fld w 10 5) (fld w 4 1) (fld w 3 1) (fld w 0 3))
  | 0x10 => .ok (.slt (fld w 20 5) (fld w 15 5) (fld w 10 5) (fld w 4 1) (fld w 3 1) (fld w 0 3))
  | 0x11 => .ok (.sltu (fld w 20 5) (fld w 15 5) (fld w 10 5) (fld w 4 1) (fld w 3 1) (fld w 0 3))
  | 0x12 => .ok (.min (fld w 20 5) (fld w 15 5) (fld w 10 5) (fld w 4 1) (fld w 3 1) (fld w 0 3))
  | 0x13 => .ok (.max (fld w 20 5) (fld w 15 5) (fld w 10 5) (fld w 4 1) (fld w 3 1) (fld w 0 3))
  | 0x14 => .ok (.adds (fld w 20 5) (fld w 15 5) (fld w 10 5) (fld w 4 1) (fld w 3 1) (fld w 0 3))
  | 0x15 => .ok (.subs (fld w 20 5) (fld w 15 5) (fld w 10 5) (fld w 4 1) (fld w 3 1) (fld w 0 3))
  | 0x16 => .ok (.fadd (fld w 20 5) (fld w 15 5) (fld w 10 5) (fld w 8 2) (fld w 5 3) (fld w 4 1) (fld w 3 1) (fld w 0 3))
  | 0x17 => .ok (.fsub (fld w 20 5) (fld w 15 5) (fld w 10 5) (fld w 8 2) (fld w 5 3) (fld w 4 1) (fld w 3 1) (fld w 0 3))
  | 0x18 => .ok (.fmul (fld w 20 5) (fld w 15 5) (fld w 10 5) (fld w 8 2) (fld w 5 3) (fld w 4 1) (fld w 3 1) (fld w 0 3))
  | 0x19 => .ok (.fdiv (fld w 20 5) (fld w 15 5) (fld w 10 5) (fld w 8 2) (fld w 5 3) (fld w 4 1) (fld w 3 1) (fld w 0 3))
  | 0x1A => .ok (.fmac (fld w 20 5) (fld w 15 5) (fld w 10 5) (fld w 8 2) (fld w 5 3) (fld w 4 1) (fld w 3 1) (fld w 0 3))
  | 0x1B => .ok (.fmin (fld w 20 5) (fld w 15 5) (fld w 10 5) (fld w 8 2) (fld w 4 1) (fld w 3 1) (fld w 0 3))
  | 0x1C => .ok (.fmax (fld w 20 5) (fld w 15 5) (fld w 10 5) (fld w 8 2) (fld w 4 1) (fld w 3 1) (fld w 0 3))
  | 0x1D => .ok (.fsqrt (fld w 20 5) (fld w 15 5) (fld w 8 2) (fld w 5 3) (fld w 4 1) (fld w 3 1) (fld w 0 3))
  | 0x1E => .ok (.feq (fld w 20 5) (fld w 15 5) (fld w 10 5) (fld w 8 2) (fld w 4 1) (fld w 3 1) (fld w 0 3))
  | 0x1F => .ok (.flt (fld w 20 5) (fld w 15 5) (fld w 10 5) (fld w 8 2) (fld w 4 1) (fld w 3 1) (fld w 0 3))
  | 0x20 => .ok (.fle (fld w 20 5) (fld w 15 5) (fld w 10 5) (fld w 8 2) (fld w 4 1) (fld w 3 1) (fld w 0 3))
  | 0x21 => .ok (.mov (fld w 20 5) (fld w 15 5) (fld w 4 1) (fld w 3 1) (fld w 0 3))
  | 0x22 => .ok (.sel (fld w 20 5) (fld w 15 5) (fld w 10 5) (fld w 5 5) (fld w 4 1) (fld w 3 1) (fld w 0 3))
  | 0x23 => .ok (.lbc (fld w 15 5) (fld w 9 1) (fld w 5 4))
  | 0x24 => .ok (.lext (fld w 20 5) (fld w 15 5) (fld w 9 1) (fld w 5 4))
  | 0x25 => .ok (.lins (fld w 15 5) (fld w 10 5) (fld w 5 4))
  | 0x26 => .ok (.pack (fld w 20 5) (fld w 15 5) (fld w 10 5) (fld w 8 1) (fld w 5 2) (fld w 3 1) (fld w 0 3))
  | 0x27 => .ok (.unpk (fld w 20 5) (fld w 15 5) (fld w 9 1) (fld w 8 1) (fld w 5 2) (fld w 3 1) (fld w 0 3))
  | 0x28 => .ok (.mlane (fld w 15 5) (fld w 10 5) (fld w 8 2) (fld w 5 3) (fld w 3 1) (fld w 0 3))
  | 0x29 => .ok (.mset (fld w 15 5) (fld w 5 3))
  | 0x2A => .ok (.mget (fld w 20 5) (fld w 5 3))
  | 0x2B => .ok (.sprd (fld w 20 5) (fld w 5 5))
  | 0x2C => .ok (.spwr (fld w 15 5) (fld w 5 5))
  | 0x2D => .ok (.take (fld w 20 5) (fld w 15 5) (fld w 5 3))
  | 0x2E => .ok (.peek (fld w 20 5) (fld w 15 5) (fld w 5 3))
  | 0x2F => .ok (.adv (fld w 15 5) (fld w 5 5))
  | 0x30 => .ok (.emit (fld w 20 5) (fld w 15 5))
  | 0x31 => .ok (.waitf (fld w 20 5) (fld w 15 5) (fld w 5 5))
  | 0x32 => .ok (.waite (fld w 20 5) (fld w 15 5) (fld w 5 5))
  | 0x33 => .ok (.rrot (fld w 20 5) (fld w 15 5) (fld w 10 5) (fld w 5 1))
  | 0x34 => .ok (.lgen (fld w 20 5) (fld w 15 5) (fld w 10 5) (fld w 5 2))
  | 0x35 => pickTime (w / 2 ^ 5 % 2 ^ 2) w
  | 0x36 => pickFrd (w / 2 ^ 9 % 2 ^ 1) w
  | 0x37 => .ok (.fwait (fld w 20 5) (fld w 15 5))
  | 0x38 => pickCap (w / 2 ^ 5 % 2 ^ 5) w
  | 0x39 => .ok (.ains (fld w 20 5) (fld w 15 5) (fld w 10 5) (fld w 5 5))
  | 0x3A => .ok (.amrg (fld w 20 5) (fld w 15 5) (fld w 10 5))
  | 0x3B => .ok (.aprb (fld w 20 5) (fld w 15 5) (fld w 10 5) (fld w 5 2))
  | 0x3C => .ok (.acmp (fld w 20 5) (fld w 15 5) (fld w 10 5))
  | 0x3D => .ok (.acon (fld w 20 5) (fld w 15 5) (fld w 10 5))
  | 0x3E => .ok (.join (fld w 20 5) (fld w 15 5) (fld w 10 5) (fld w 9 1) (fld w 7 2) (fld w 5 2))
  | 0x3F => .ok (.red (fld w 20 5) (fld w 15 5) (fld w 10 5) (fld w 7 3) (fld w 5 2))
  | 0x40 => .ok (.wrel (fld w 20 5) (fld w 15 5) (fld w 10 5))
  | 0x41 => pickAtom (w / 2 ^ 5 % 2 ^ 3) w
  | 0x42 => pickPhnd (w / 2 ^ 5 % 2 ^ 5) w
  | 0x43 => pickEng (w / 2 ^ 5 % 2 ^ 5) w
  | 0x44 => .ok (.thaw (fld w 20 5) (fld w 15 5))
  | 0x45 => .ok (.bubl (fld w 20 5) (fld w 15 5) (fld w 10 5))
  | 0x48 => .ok (.addi (fld w 20 5) (fld w 15 5) (fld w 0 15))
  | 0x49 => .ok (.andi (fld w 20 5) (fld w 15 5) (fld w 0 15))
  | 0x4A => .ok (.ori (fld w 20 5) (fld w 15 5) (fld w 0 15))
  | 0x4B => .ok (.xori (fld w 20 5) (fld w 15 5) (fld w 0 15))
  | 0x4C => .ok (.slti (fld w 20 5) (fld w 15 5) (fld w 0 15))
  | 0x4D => .ok (.slli (fld w 20 5) (fld w 15 5) (fld w 0 5))
  | 0x4E => .ok (.srli (fld w 20 5) (fld w 15 5) (fld w 0 5))
  | 0x4F => .ok (.srai (fld w 20 5) (fld w 15 5) (fld w 0 5))
  | 0x50 => .ok (.movhi (fld w 20 5) (fld w 0 15))
  | 0x51 => .ok (.drain (fld w 0 2))
  | 0x58 => .ok (.ldI8 (fld w 20 5) (fld w 15 5) (fld w 3 12) (fld w 0 3))
  | 0x59 => .ok (.ldB8 (fld w 20 5) (fld w 15 5) (fld w 3 12) (fld w 0 3))
  | 0x5A => .ok (.ldI16 (fld w 20 5) (fld w 15 5) (fld w 3 12) (fld w 0 3))
  | 0x5B => .ok (.ldB16 (fld w 20 5) (fld w 15 5) (fld w 3 12) (fld w 0 3))
  | 0x5C => .ok (.ldB32 (fld w 20 5) (fld w 15 5) (fld w 3 12) (fld w 0 3))
  | 0x5D => .ok (.ldB64 (fld w 20 5) (fld w 15 5) (fld w 3 12) (fld w 0 3))
  | 0x5E => .ok (.ldW (fld w 20 5) (fld w 15 5) (fld w 3 12) (fld w 0 3))
  | 0x5F => .ok (.stB8 (fld w 20 5) (fld w 15 5) (fld w 3 12) (fld w 0 3))
  | 0x60 => .ok (.stB16 (fld w 20 5) (fld w 15 5) (fld w 3 12) (fld w 0 3))
  | 0x61 => .ok (.stB32 (fld w 20 5) (fld w 15 5) (fld w 3 12) (fld w 0 3))
  | 0x62 => .ok (.stB64 (fld w 20 5) (fld w 15 5) (fld w 3 12) (fld w 0 3))
  | 0x63 => .ok (.stW (fld w 20 5) (fld w 15 5) (fld w 3 12) (fld w 0 3))
  | 0x64 => .ok (.ldAcqB32 (fld w 20 5) (fld w 15 5) (fld w 3 12) (fld w 0 3))
  | 0x65 => .ok (.ldAcqB64 (fld w 20 5) (fld w 15 5) (fld w 3 12) (fld w 0 3))
  | 0x66 => .ok (.stRelB32 (fld w 20 5) (fld w 15 5) (fld w 3 12) (fld w 0 3))
  | 0x67 => .ok (.stRelB64 (fld w 20 5) (fld w 15 5) (fld w 3 12) (fld w 0 3))
  | 0x68 => .ok (.ldf (fld w 20 5) (fld w 15 5) (fld w 3 12) (fld w 0 3))
  | 0x69 => .ok (.ldfe (fld w 20 5) (fld w 15 5) (fld w 3 12) (fld w 0 3))
  | 0x6A => .ok (.ste (fld w 20 5) (fld w 15 5) (fld w 3 12) (fld w 0 3))
  | 0x6B => .ok (.stf (fld w 20 5) (fld w 15 5) (fld w 3 12) (fld w 0 3))
  | 0x6C => .ok (.feclr (fld w 20 5) (fld w 15 5) (fld w 3 12) (fld w 0 3))
  | 0x6D => .ok (.place (fld w 20 5) (fld w 15 5) (fld w 0 3))
  | 0x6E => .ok (.fence (fld w 0 3))
  | 0x70 => .ok (.mma (fld w 23 2) (fld w 18 5) (fld w 13 5) (fld w 9 4) (fld w 4 1) (fld w 3 1) (fld w 0 3))
  | 0x71 => .ok (.mmag (fld w 23 2) (fld w 18 5) (fld w 13 5) (fld w 9 4) (fld w 4 1) (fld w 3 1) (fld w 0 3))
  | 0x72 => .ok (.ldt (fld w 18 5) (fld w 13 5) (fld w 9 4))
  | 0x73 => .ok (.sortn (fld w 18 5) (fld w 13 5) (fld w 9 4) (fld w 4 1) (fld w 3 1))
  | 0x74 => .ok (.cvt (fld w 18 5) (fld w 13 5) (fld w 9 4) (fld w 5 4) (fld w 0 3))
  | 0x75 => .ok (.scld (fld w 23 2) (fld w 18 5) (fld w 13 5) (fld w 9 4))
  | 0x76 => .ok (.scem (fld w 23 2) (fld w 18 5) (fld w 13 5) (fld w 9 4))
  | 0x77 => .ok (.accld (fld w 23 2) (fld w 18 5) (fld w 9 4))
  | 0x78 => .ok (.accst (fld w 23 2) (fld w 18 5) (fld w 13 5) (fld w 9 4))
  | 0x79 => pickWred (w / 2 ^ 6 % 2 ^ 3) w
  | 0x7A => .ok (.adjb (fld w 23 2) (fld w 18 5) (fld w 13 5) (fld w 9 4))
  | 0x7C => .ok (.commit)
  | 0x7D => .ok (.br (fld w 21 4) (fld w 20 1) (fld w 16 4) (fld w 14 2) (fld w 0 14))
  | 0x7E => .ok (.halt)
  | _ => .error .reservedOpcode

/-- A word of a kind, checked: every field that must be zero is zero (the word is the one its fields encode), and every
field holds a value its format and instruction allow. -/
def checked (w : Nat) (r : Except DecodeError Instr) : Except DecodeError Instr :=
  match r with
  | .error e => .error e
  | .ok i => if encodeWord i = w then (if i.wf then .ok i else .error .badOperand) else .error .mustBeZero

/-- The control word decoder (R74 to R84, R102). -/
def decodeCtl (w : Nat) : Except DecodeError Instr := checked w (pickCtl (w / 2 ^ 26) w)

/-- The element word decoder (R86 to R97, R101). -/
def decodeElem (w : Nat) : Except DecodeError Instr := checked w (pickElem (w / 2 ^ 25) w)

/-- The switch words (R98). `ext` is the halfword that follows, the extension word of a SLOT word (R99). -/
def pickSwitch (k w : Nat) (ext : Option Nat) : Except DecodeError Instr :=
  match k with
  | 0 => .ok (.nop)
  | 1 => .ok (.circ (fld w 10 3) (fld w 7 3) (fld w 0 4))
  | 2 => match ext with
    | none => .error .missingExtension
    | some x => .ok (.slot (fld w 10 3) (fld w 7 3) (fld w 0 4) (fld x 8 8) (fld x 0 8))
  | 3 => .ok (.best (fld w 10 3) (fld w 7 3))
  | 4 => .ok (.width (fld w 7 3) (fld w 0 2))
  | 5 => .ok (.scale (fld w 10 3) (fld w 7 3))
  | 7 => .ok (.endList)
  | _ => .error .reservedOpcode

/-- The switch word decoder (R98, R99, R103). -/
def decodeSwitch (w : Nat) (ext : Option Nat) : Except DecodeError Instr := checked w (pickSwitch (w / 2 ^ 13) w ext)

/-- The extension word of a SLOT word (R99). -/
def extensionWord : Instr → Option Nat
  | .slot _ _ _ first run => some (first.toNat * 0x100 + run.toNat)
  | _ => none

/-- The bytes of a number, little-endian (R7). -/
def leBytes : Nat → Nat → List Byte
  | 0, _ => []
  | n + 1, v => BitVec.ofNat 8 v :: leBytes n (v / 256)

/-- The number that bytes spell, little-endian (R7). -/
def leNat : List Byte → Nat
  | [] => 0
  | b :: bs => b.toNat + 256 * leNat bs

/-- The bytes of an instruction word as memory holds them (R7, R73). An operation or event has none. -/
def encode (i : Instr) : List Byte :=
  match i.kind with
  | .control => leBytes 4 (encodeWord i)
  | .element => leBytes 4 (encodeWord i)
  | .switchWord => leBytes 2 (encodeWord i) ++ (match extensionWord i with
    | some x => leBytes 2 x
    | none => [])
  | .event => []

/-- The decoder on the bytes at hand, for a reader of words of a kind; it answers the bytes left over as well. A control
or element word takes four bytes, a switch word two, and a SLOT word four. -/
def decodeBytes (k : Kind) (bs : List Byte) : Except DecodeError (Instr × List Byte) :=
  match k with
  | .control => if bs.length < 4 then .error .missingExtension else (decodeCtl (leNat (bs.take 4))).map (·, bs.drop 4)
  | .element => if bs.length < 4 then .error .missingExtension else (decodeElem (leNat (bs.take 4))).map (·, bs.drop 4)
  | .switchWord =>
    if bs.length < 2 then .error .missingExtension
    else
      let w := leNat (bs.take 2)
      let x := if bs.length < 4 then none else some (leNat ((bs.drop 2).take 2))
      (decodeSwitch w x).map (fun i => (i, bs.drop (if w / 2 ^ 13 = 2 then 4 else 2)))
  | .event => .error .reservedOpcode

/-- The instruction the decoder reads from a table word, `nbits` bits long. A 32-bit word may be both a control word and
an element word, since the kind of a word comes from who reads it (R73); this asks the element decoder first (log 11). -/
def decodeTableWord (nbits w : Nat) : Option Instr :=
  if nbits ≤ 16 then (decodeSwitch (w % 2 ^ 16) (some (w / 2 ^ 16))).toOption
  else match decodeElem (w % 2 ^ 32) with
    | .ok i => some i
    | .error _ => (decodeCtl (w % 2 ^ 32)).toOption

end Sys2Proof
end

