-- ==== Sys2Proof/Machine/State.lean ====
section
/-! DEFINITION. The whole state of the machine as plain data, what stops it, and the state right after reset. -/

namespace Sys2Proof.Machine

/-- A table with few entries: what is not listed has the table's own default. -/
abbrev SMap (α : Type) := List (Nat × α)

/-! ### The sequencer (R12 to R15, R115) -/

/-- One patch's sequencer. -/
structure Seq where
  /-- g0 to g31; g0 is read as 0 by the accessor -/
  g : List Word
  /-- the byte address of the next word; 0x1_0000 when execution has run off the store (R122) -/
  pc : BitVec 17
  lc : List Word
  lb : List Half
  le : List Half
  /-- k0 to k3, bit n is kn -/
  k : BitVec 4
  xpc : Half
  xcause : Word
  xval : Word
  xvalh : Word
  xinfo : Word
  /-- SQST.DZ -/
  dz : Bool
  /-- SQST.WF -/
  wf : Bool
  /-- SQST.XT -/
  xt : Bool
  /-- the event latch (R150) -/
  latch : Bool
  /-- the latched half of the TSC (R42) -/
  tsch : Word
  /-- VHASH of the patch (R42) -/
  vhash : BitVec 10
  /-- the sequencer store, bytes that are not zero -/
  store : List Host.Cell
  /-- old words that the loop buffer holds: the level that keeps them, the address, the word (R124) -/
  held : List (Nat × Nat × Word)
  /-- the address of the word that last completed (R122) -/
  last : Half
  /-- the cycle at which a WFE began to wait -/
  wfeAt : Nat
  /-- the tokens of a waiting FENCE (R320): they cover the accesses numbered below the first component, and at each listed port
  the access of the listed step, which was parked -/
  token : Option (Nat × List (Nat × Nat))
  /-- the time, in ns, at which its current word began to wait for a frame or a node under pull (R345, R357) -/
  pullAt : Option Nat
  /-- the word at pc has begun and waits: element faults are delivered between control words (R113) -/
  begun : Bool
  /-- frozen as an offending master (R396) -/
  frozen : Bool
  deriving DecidableEq, Repr, Inhabited

def Seq.reset : Seq where
  g := List.replicate 32 0
  pc := 0
  lc := [0, 0, 0]
  lb := [0, 0, 0]
  le := [0, 0, 0]
  k := 0
  xpc := 0
  xcause := 0
  xval := 0
  xvalh := 0
  xinfo := 0
  dz := false
  wf := false
  xt := false
  latch := false
  tsch := 0
  vhash := 0
  store := []
  held := []
  last := 0
  wfeAt := 0
  token := none
  pullAt := none
  begun := false
  frozen := false

/-! ### Elements (R16 to R18, R26 to R38, R185, R239) -/

/-- A frontier register (R18): its APX bit and its valid times, T0 first. -/
structure Frontier where
  apx : Bool
  times : List DWord
  deriving DecidableEq, Repr, Inhabited

/-- The registers that an instance reads and writes (R16): the element's committed ones, or an instance's own view. -/
structure Regs where
  s : List Word
  w : List Slot
  m : List Word
  /-- acc0 to acc3: FP32 elements 64i + j that are not +0.0 -/
  acc : List (SMap Word)
  cb : List DWord
  fuse : BitVec 2
  /-- EST[0] -/
  dz : Bool
  deriving DecidableEq, Repr, Inhabited

def Regs.reset : Regs where
  s := List.replicate 16 0
  w := List.replicate 16 0
  m := List.replicate 8 0xFFFFFFFF
  acc := List.replicate 4 []
  cb := List.replicate 8 0
  fuse := 2
  dz := false

/-- A unit that stands in a queue, a buffer or a link, with what the Front unit counts for it (R238): a DATA slot has the
time its port gave it. -/
structure QUnit where
  u : Slot
  time : DWord
  /-- the instance that reserved it, in an input queue -/
  owner : Option Nat
  deriving DecidableEq, Repr, Inhabited

/-- A block and its descriptor (R26). -/
structure Block where
  pri : Nat
  tm : Bool
  st : Bool
  /-- QC0 to QC3 -/
  qc : List Nat
  cba : Nat
  cbac : Nat
  cbb : Nat
  cbbc : Nat
  words : List Word
  deriving DecidableEq, Repr, Inhabited

/-- A run that an output port's generator still has to emit (R176, R197, R260 to R262). -/
inductive Run where
  /-- LGEN: next index, bound N, carried value V, tag, and whether the tag follows the index -/
  | gen (i n v : Word) (tag : BitVec 12) (byIndex : Bool)
  /-- units already formed -/
  | units (us : List Slot)
  deriving DecidableEq, Repr, Inhabited

/-- One output port o0 to o3. -/
structure OutPort where
  /-- the 4-slot output buffer -/
  buf : List QUnit
  /-- generator runs, the one that is emitting first -/
  runs : List Run
  /-- the emitter's units -/
  emitter : List Slot
  caps : List (DWord × Nat)
  psum : BitVec 6
  markt : DWord
  deriving DecidableEq, Repr, Inhabited

def OutPort.reset : OutPort where
  buf := []
  runs := []
  emitter := []
  caps := []
  psum := 0
  markt := 0

/-- A mark that a store entry carries for a word (R304): true sets it full, false sets it empty. -/
abbrev Marks := List (Nat × Bool)

/-- Marks in a visibility buffer, each with the age of the entry that brought it: marks of one word take effect in age order (R308). -/
abbrev AgedMarks := List (Nat × Bool × Nat)

/-- Where an effective address lies (R207): a byte of the one backing memory, its frame's kind, whether it is in host
memory, and whether its words have full/empty bits (R215, R338). -/
structure Place where
  addr : Nat
  kind : FrameKind
  host : Bool
  fe : Bool
  deriving DecidableEq, Repr, Inhabited

/-- What a store writes: bytes at global addresses, and the full/empty marks of its words. -/
structure Store where
  place : Place
  bytes : List (Nat × Byte)
  marks : Marks
  scope : Scope
  /-- a release at its scope (R312) -/
  rel : Bool
  /-- the pointer or flat address it was made with, which a failure at another module reports (R228, R414) -/
  ptr : DWord
  /-- its words have been presented to their banks as its word ran (R337) -/
  banked : Bool
  deriving DecidableEq, Repr, Inhabited

/-- The irrevocable operation of an instance, and every other operation that an owner performs (R27, R307). Register
numbers say where a result goes. -/
inductive OwnOp where
  | atomic (k : AtomKind) (wide : Bool) (x y : DWord)
  | ldf
  | ldfe
  | ste (v : DWord)
  | placeNew (ctx : Nat)
  | placeOp (k : PlaceKind) (ctx : Nat) (handle arg : Word) (patches : Nat)
  | witness (gen : Word) (release : Bool)
  | signal (inc : Word)
  deriving DecidableEq, Repr, Inhabited

/-- An effect that takes place at the instance's commit, in block-word order (R32). -/
inductive Eff where
  | store (st : Store)
  /-- lanes written to buffer `c` -/
  | fill (c lanes : Nat)
  | arm (o : Nat) (r : Run)
  | emitter (o : Nat) (us : List Slot)
  | capH (o : Nat) (t : DWord)
  | capD (o : Nat) (t : DWord)
  | capX (o : Nat) (t u : DWord)
  | scaleIn (toks : List Word)
  | scaleOut (toks : List Word)
  /-- the s register that takes the status or count is `d`, 16 for none -/
  | thaw (d : Nat) (port : Nat)
  | bubl (d : Nat) (port mode : Nat)
  /-- ZSKIP or BCONF takes a value, or counts on (R167) -/
  | zset (n : Word)
  | bset (n : Word)
  | zskip (n : Word)
  | bconf (n : Word)
  /-- ACCST with b = 1 -/
  | accst (addr : Nat) (data : List Byte)
  /-- WRED's witness: buffer, its bytes with GEN still to be set (R267) -/
  | witness (c : Nat) (data : List Byte)
  deriving DecidableEq, Repr, Inhabited

/-- An engine or place request that an instance submits (R225, R221). -/
inductive Irr where
  /-- an operation of the owner of `place`; `d` lists the s registers that take the result, low word first, 16 for none -/
  | owner (place : Place) (scope : Scope) (acq rel : Bool) (op : OwnOp) (d : List Nat) (ptr : DWord)
  | engine (k : EngKind) (scope : Scope) (d : List Nat) (ptr : DWord)
  deriving DecidableEq, Repr, Inhabited

/-- How far an instance's irrevocable operation has come. It is performed in the step of its commit, but for a participant of
a rotation, whose commit follows (R174). -/
inductive IrrState where
  | none
  /-- the word, at an index of its block, has run; the operation waits for the commit conditions (R32) -/
  | held (i : Irr) (word : Nat)
  /-- performed; the result -/
  | done (i : Irr) (r : DWord)
  deriving DecidableEq, Repr, Inhabited

inductive InstState where
  /-- armed by a branch, waiting for its trigger -/
  | armed
  /-- a tag-match instance of a standing block that has some of its slots (R30) -/
  | partly
  | fired
  /-- faulted, awaiting disposal (R36, R37) -/
  | faulted
  deriving DecidableEq, Repr, Inhabited

/-- The instance's outstanding RROT (R174). -/
structure Rot where
  addr : Nat
  len : Nat
  dir : Bool
  dst : Nat
  deriving DecidableEq, Repr, Inhabited

/-- A fault that a patch has not yet reported to its sequencer (R36, R38, R228, R400, R414). -/
structure Report where
  /-- element and instance to dispose of -/
  inst : Option (Nat × Nat)
  cause : Word
  info : Word
  val : DWord
  /-- the cycle of a DEADLOCK, by context numbers -/
  ring : List Nat
  /-- the TSC of a DEADLOCK; for a report that waits for room, its place among its element's -/
  tsc : DWord
  deriving DecidableEq, Repr, Inhabited

/-- An entry of the matching station (R30). -/
structure Inst where
  id : Nat
  blk : Nat
  tag : BitVec 12
  st : InstState
  /-- reserved units of q0 to q3, in order -/
  qres : List (List Slot)
  /-- reserved slots: buffer, first slot counter, count, units -/
  cres : List (Nat × Nat × Nat)
  /-- the first word that has not completed -/
  pc : Nat
  /-- words after `pc` that have completed, since their operands were there (R31) -/
  ahead : List Nat
  /-- its current word has started on the matrix unit (R183) -/
  mx : Bool
  /-- the registers as the instance sees them -/
  r : Regs
  /-- FUSE and the buffer handles as they were when it fired (R156, R158) -/
  fuseAt : BitVec 2
  cbAt : List DWord
  /-- which registers it has written: s, w, m, acc, and halves 2n, 2n + 1 of cbn -/
  wS : List Nat
  wW : List Nat
  wM : List Nat
  wA : List Nat
  wC : List Nat
  wFuse : Bool
  /-- a lane divided by zero; a write of EST cleared DZ (R52) -/
  dzSet : Bool
  dzClr : Bool
  /-- read positions, in lanes, of q0 to q3 and cb0 to cb7 (R157) -/
  pos : List Nat
  /-- raw tile bytes taken from cb0 to cb7 (R182) -/
  tpos : List Nat
  /-- lanes written to o0 to o3 and cb0 to cb7 (R158) -/
  outs : List (List Word)
  /-- effects of the commit, with the index of the word that has each -/
  effs : List (Nat × Eff)
  irr : IrrState
  /-- its irrevocable operation has been sent to the owner on another module (R218) -/
  sent : Bool
  branch : Option (Nat × BitVec 12)
  halt : Bool
  /-- latched frontier registers (R246) -/
  ftl : List (Option Frontier)
  /-- loads that have not returned: access number, and the registers they fill, sn as n and wn as 16 + n -/
  loads : List (Nat × List Nat)
  /-- circular buffers whose WAITF and WAITE claims it holds (R171) -/
  clF : List (Nat × Nat)
  clE : List (Nat × Nat)
  /-- words under its DF claims (R184), and words claimed for an ACCST (R193), as global word numbers -/
  dfc : List Nat
  acl : List Nat
  /-- arrangement claims: global addresses (R253); `warr` those it writes -/
  arrc : List Nat
  warr : List Nat
  /-- BTAGs it has reserved in the SCB -/
  scb : List Nat
  /-- blocks counted for CVT (R202): made, consumed -/
  cvtN : Nat
  cvtS : Nat
  rot : Option Rot
  /-- the time, in ns, at which its current wait began; and what it had waited of it before its element last froze (R214) -/
  since : Option Nat
  waited : Nat
  /-- FENCE, DRAIN or another word has begun to wait: accesses it covers -/
  cover : Option (List Nat)
  /-- the time, in ns, at which its current word began to wait for a frame or a node under pull (R345, R357) -/
  pullAt : Option Nat
  /-- the cycle from which its next word may issue: its operands are there (R34; log 52) -/
  readyAt : Nat
  /-- 8-byte words that its current word has read before the rest of its operands: address / 8, and the bytes (R183, R306) -/
  got : List (Nat × List Byte)
  /-- instances of the element that must commit before it, since they read while it waited in a FENCE (R313) -/
  after : List Nat
  /-- its fault, while the patch's queue of reports is full (R36) -/
  pend : Option Report
  deriving DecidableEq, Repr, Inhabited

/-- A binding that a CIRC or SLOT word makes: input, channel, output, first slot, last slot (R98, R99). -/
structure Binding where
  i : Nat
  v : Nat
  o : Nat
  lo : Nat
  hi : Nat
  deriving DecidableEq, Repr, Inhabited

/-- What an element's switch list sets up (R98 to R100). -/
structure Router where
  list : List Half
  binds : List Binding
  best : List (Nat × Nat)
  /-- output, width code -/
  width : List (Nat × Nat)
  scale : List (Nat × Nat)
  deriving DecidableEq, Repr, Inhabited

def Router.reset : Router where
  list := [0xE000]
  binds := []
  best := []
  width := []
  scale := []

/-- An SCB entry: BTAG, exponent (R202, R203), and the token as it came. -/
structure ScbEntry where
  tok : Word
  owner : Option Nat
  deriving DecidableEq, Repr, Inhabited

/-- What a bank has served in a cycle: whether a write, which word, and in which bank (R334). -/
structure BankUse where
  write : Bool
  word : Nat
  bank : Nat
  deriving DecidableEq, Repr, Inhabited

/-- An access in a vault's replay queue: its agent and number, its bank as it was presented first (R335), and the cycle in
which it was presented last (R336). -/
structure Replayed where
  agent : AgentId
  id : Nat
  bank : Nat
  at_ : Nat
  deriving DecidableEq, Repr, Inhabited

/-- One element. -/
structure Elem where
  r : Regs
  /-- q0 to q3 -/
  q : List (List QUnit)
  o : List OutPort
  ft : List Frontier
  zskip : Word
  bconf : Word
  /-- the vault's replay queue, oldest first (R336) -/
  replay : List Replayed
  /-- the cycle in which the vault last served accesses, and what its banks served then -/
  served : Nat × List BankUse
  /-- the schedule slot, counted from reset, in which each router output last sent a unit (R455) -/
  sent : SMap Nat
  /-- the router input that each output last took an unscheduled unit from (R456) -/
  robin : SMap Nat
  wgen : Word
  blocks : SMap Block
  router : Router
  /-- the matching station, in the order the entries were allocated -/
  insts : List Inst
  halted : Bool
  frozen : Bool
  scb : List ScbEntry
  /-- scale tokens that wait to leave, and to enter -/
  scOut : List Word
  scIn : List Word
  /-- units that wait at the router's inputs: (input, channel), oldest first -/
  rin : List ((Nat × Nat) × List QUnit)
  /-- committed RROT words (R174) -/
  rrots : Nat
  /-- engine commands it issued that have not completed: command number, DRAIN path -/
  cmds : List (Nat × Nat)
  /-- blocked since; last probe sent; probes forwarded, by origin and the cycle in which the origin sent them (R399) -/
  blocked : Option Nat
  probed : Option Nat
  fwd : List (Nat × Nat)
  deriving DecidableEq, Repr, Inhabited

def Elem.reset : Elem where
  r := Regs.reset
  q := List.replicate 4 []
  o := List.replicate 4 OutPort.reset
  ft := List.replicate 4 ⟨false, [0]⟩
  zskip := 0
  bconf := 0
  replay := []
  served := (0, [])
  sent := []
  robin := []
  wgen := 0
  blocks := []
  router := Router.reset
  insts := []
  halted := false
  frozen := false
  scb := []
  scOut := []
  scIn := []
  rin := []
  rrots := 0
  cmds := []
  blocked := none
  probed := none
  fwd := []

/-! ### Stream ports (R136 to R141, R319, R350 to R354) -/

/-- A stream descriptor as SBIND has read it (R137). -/
structure Stream where
  /-- DIR: true is an output port to memory -/
  toMem : Bool
  bubble : Bool
  tensor : Bool
  /-- FORM: true moves 28-byte DATA payloads -/
  payload : Bool
  el : Nat
  qp : Nat
  nd : Nat
  tens : Nat
  base : Nat
  org : List Nat
  cnt : List Nat
  str : List Int
  deriving DecidableEq, Repr, Inhabited

/-- A stream command in a port's scoreboard (R39, R139). -/
inductive PortCmd where
  | bind (d : Stream)
  | go
  deriving DecidableEq, Repr, Inhabited

/-- A step of a stream whose access missed translation: parked (R319) or in the bubble list (R352). -/
structure Missed where
  step : Nat
  /-- the fault address (R347, R350) -/
  fa : DWord
  sub : Nat
  tok : Word
  /-- HT at the fault, for a bubbled step -/
  ht : DWord
  /-- the slot a DIR 1 step was to write -/
  unit : Option Slot
  /-- the time at which it began to wait, in ns -/
  since : Nat
  /-- a resume asks for it to be translated again -/
  resume : Bool
  /-- BUBL has asked for it as a BUBBLE slot, and the queue had no room (R234) -/
  out : Bool
  deriving DecidableEq, Repr, Inhabited

/-- A fault record that waits for room in the fault queue (R350, R428). -/
abbrev FaultRec := List DWord

structure Port where
  bound : Option Stream
  /-- commands that have not taken effect: issue number, command -/
  cmds : List (Nat × PortCmd)
  /-- the SGO number of the run in progress -/
  running : Option Nat
  /-- the next step's number -/
  step : Nat
  /-- bubble mode for the current stream (R234, R352) -/
  bubble : Bool
  ht : DWord
  parked : Option Missed
  /-- the steps whose parked writes were released, and for each the number after its accesses, the last one first (R320) -/
  freed : List (Nat × Nat)
  bubbles : List Missed
  /-- a repair pass runs (R353) -/
  repair : Bool
  /-- 8-byte words of the current step that it has read before the rest: address / 8, and the bytes (R138, R306) -/
  got : List (Nat × List Byte)
  /-- the time, in ns, at which its step began to wait for a frame or a node under pull (R345, R357) -/
  pullAt : Option Nat
  tok : Word
  recs : List FaultRec
  frozen : Bool
  deriving DecidableEq, Repr, Inhabited

def Port.reset : Port where
  bound := none
  cmds := []
  running := none
  step := 0
  bubble := false
  ht := 0
  parked := none
  freed := []
  bubbles := []
  repair := false
  got := []
  pullAt := none
  tok := 0
  recs := []
  frozen := false

/-! ### Configuration (R106, R107, R142 to R148) -/

/-- An initial-state record (R294): kind, index, and data words. -/
structure InitRec where
  kind : Nat
  index : Nat
  data : List Byte
  deriving DecidableEq, Repr, Inhabited

/-- The configuration that one pattern gives an element (R106). -/
structure ElemConf where
  blocks : SMap Block
  router : Router
  inits : List InitRec
  deriving DecidableEq, Repr, Inhabited

/-- What a load image gives one patch (R291): the configuration of each element that a pattern covers, the bytes of the
sequencer's text that are not zero, the entry address and the readout mask. -/
structure PatchImage where
  conf : SMap ElemConf
  text : List Host.Cell
  entry : Half
  rmask : DWord
  deriving DecidableEq, Repr, Inhabited

def PatchImage.none : PatchImage where
  conf := []
  text := []
  entry := 0
  rmask := 0

/-- A pattern record cut into its parts (R106). -/
structure RawPattern where
  rects : List DWord
  /-- present blocks: number, descriptor, words -/
  blocks : List (Nat × DWord × List Word)
  switch : List Half
  inits : List (DWord × List Byte)
  deriving DecidableEq, Repr, Inhabited

/-- A patch's configuration phase and shadow store (R143 to R148). -/
structure Phase where
  /-- a phase is open -/
  opened : Bool
  /-- the status that poisons it -/
  poison : Option Word
  /-- a freeze broke it; its words return FROZEN -/
  broken : Bool
  /-- configurations written, by element -/
  shadow : SMap ElemConf
  lastPat : Option RawPattern
  /-- CFGCMT has stopped the patch's sources and waits for quiescence -/
  drain : Bool
  /-- CFGCMT's swap has been made and its status waits to be written -/
  done : Bool
  deriving DecidableEq, Repr, Inhabited

def Phase.reset : Phase where
  opened := false
  poison := none
  broken := false
  shadow := []
  lastPat := none
  drain := false
  done := false

/-! ### Patches -/

/-- An armed trigger (R230): the two halves of its block, and who issued it. -/
structure Trigger where
  el : Nat
  scope : Scope
  half : List DWord
  cmd : List DWord
  ptr : DWord
  /-- its predicate was true at a write of a counter, and the command is still to be issued (R230, R369) -/
  hit : Bool
  /-- the counters that it watches: group, threshold, and the global address at which the counter's pointer has led (R369) -/
  cells : List (Nat × Nat × Nat)
  deriving DecidableEq, Repr, Inhabited

/-- An access that another module has refused for its partition after its word or instance had completed: its agent, frozen for it, makes
it again once it is thawed (R396, R414). -/
structure Undone where
  agent : AgentId
  place : Place
  fa : DWord
  /-- the bytes of a store -/
  bytes : List (Nat × Byte)
  /-- SIGNAL's addend, and its scope -/
  signal : Option (Word × Scope)
  deriving DecidableEq, Repr, Inhabited

structure Patch where
  seq : Seq
  elems : SMap Elem
  ports : SMap Port
  phase : Phase
  reports : List Report
  /-- the element and instance that XINFO names, while XINFO.V is 1 (R37) -/
  named : Option (Nat × Nat)
  triggers : List Trigger
  /-- the queue whose load holds the patch, and the patch index in it -/
  load : Option (Nat × Nat)
  /-- the patch runs: its sequencer and its elements have started -/
  running : Bool
  /-- SQST.FZ: frozen with its load -/
  frozen : Bool
  part : Option Nat
  /-- the partition and image that last ran here, still resident (R381) -/
  resident : Option (Nat × Nat)
  /-- the image that its last load gave it (R381, R383) -/
  image : PatchImage
  /-- an image staged under FOL (R389) -/
  staged : Option PatchImage
  fenced : Bool
  gated : Bool
  /-- free since, in ns (R380) -/
  freeSince : Nat
  /-- runs at 800 MHz with every format (R444, R445) -/
  fullRate : Bool
  /-- its full-rate calibration has failed while a load held it: it is fenced once it is free (R443) -/
  calBad : Bool
  /-- stream commands issued so far -/
  cmdNo : Nat
  /-- SBAR: numbers of the commands that must complete before a command numbered from the first component on starts -/
  bars : List Nat
  /-- the allocator has asked its load for a drain: no source fires, and no stream command from this number on starts (R379, R388) -/
  drainFrom : Option Nat
  /-- what its frozen agents are to make again (R396) -/
  refused : List Undone
  deriving DecidableEq, Repr, Inhabited

def Patch.reset : Patch where
  seq := Seq.reset
  elems := []
  ports := []
  phase := Phase.reset
  reports := []
  named := none
  triggers := []
  load := none
  running := false
  frozen := false
  part := none
  resident := none
  image := PatchImage.none
  staged := none
  fenced := false
  gated := false
  freeSince := 0
  fullRate := false
  calBad := false
  cmdNo := 0
  bars := []
  drainFrom := none
  refused := []

/-! ### The ordering machine (R302 to R322) -/

/-- Whom a completed load or owner step answers. -/
inductive Dest where
  | none
  /-- s registers from d of an instance: element, instance, d, bytes, signed; `wreg` fills quarter d % 4 of w(d / 4) -/
  | inst (p e n : Nat) (d : Nat) (size : Nat) (signed wreg : Bool)
  /-- the result of an irrevocable operation -/
  | irr (p e n : Nat)
  /-- chunk k of an engine command -/
  | engine (n k : Nat)
  /-- the bytes from offset k on of read n of a virtual function -/
  | host (vf n k : Nat)
  deriving DecidableEq, Repr, Inhabited

/-- What an access does. -/
inductive AccOp where
  | load (addr size : Nat) (dst : Dest)
  | store (st : Store)
  | owner (op : OwnOp) (dst : Dest)
  deriving DecidableEq, Repr, Inhabited

/-- An access of an agent, from its entry into the issue queue until it has read, been placed or been performed. -/
structure Access where
  /-- its number; the numbers of one agent's accesses rise in program order -/
  id : Nat
  agent : AgentId
  scope : Scope
  place : Place
  op : AccOp
  acq : Bool
  rel : Bool
  /-- it has left the issue queue for a store buffer -/
  buffered : Bool
  /-- the flat address or pointer it was made with, for fault reports -/
  fa : DWord
  /-- the time at which it began to wait, in ns -/
  since : Nat
  /-- the number of the first access of the operation that it is a word of (R208) -/
  grp : Nat
  /-- the instance and the index of the block word that an element makes it for while the instance runs; none for what enters at a
  commit, and for other agents (R302) -/
  made : Option (Nat × Nat)
  deriving DecidableEq, Repr, Inhabited

/-- An entry of a visibility buffer (R304): its bytes, age, agent, scope, marks, the kind of its frame, and the numbers of the
stores it stands for (R309: its own and those of the entries it has removed); `ptr` is the pointer of the store's first byte,
which lies at `base`. -/
structure VisEntry where
  id : Nat
  agent : AgentId
  scope : Scope
  kind : FrameKind
  age : Nat
  bytes : List (Nat × Byte)
  marks : AgedMarks
  ids : List (AgentId × Nat)
  ptr : DWord
  base : Nat
  deriving DecidableEq, Repr, Inhabited

structure Ordering where
  accs : List Access
  vis : List (VisId × List VisEntry)
  nextId : Nat
  nextAge : Nat
  /-- ages of the bytes that backing memory has been written with -/
  ages : SMap Nat
  /-- the youngest age of each byte that an agent has read or written (R310) -/
  seen : List (AgentId × Nat × Nat)
  deriving DecidableEq, Repr, Inhabited

def Ordering.reset : Ordering where
  accs := []
  vis := []
  nextId := 0
  nextAge := 1
  ages := []
  seen := []

/-- The backing memory (R304): the bytes that are not zero, by rising address, and the words that are full. Every vault,
the HBM, host memory and the memory of other modules have a place in one address space (Ops.lean). -/
structure Memory where
  cells : List Host.Cell
  full : List Nat
  deriving DecidableEq, Repr, Inhabited

/-- The canonical form: addresses strictly rise, and no listed byte is 0, which is what an unlisted address reads as. -/
def cellsWf : List Host.Cell → Bool
  | [] => true
  | [c] => c.2 != 0
  | c :: d :: rest => c.2 != 0 && decide (c.1 < d.1) && cellsWf (d :: rest)

/-- The full words, strictly rising. -/
def risingWf : List Nat → Bool
  | [] => true
  | [_] => true
  | a :: b :: rest => decide (a < b) && risingWf (b :: rest)

def Memory.wf (m : Memory) : Bool := cellsWf m.cells && risingWf m.full

/-! ### Engines (R225 to R232, R339) -/

inductive EngState where
  | moving
  /-- every write is in the issue queue; waits for them, then record and flag follow -/
  | finishing
  | recorded
  deriving DecidableEq, Repr, Inhabited

/-- An accepted engine command. -/
structure Engine where
  n : Nat
  /-- who issued it: patch, element; the queue of its load; its partition -/
  p : Nat
  e : Nat
  q : Option Nat
  part : Nat
  kind : EngKind
  scope : Scope
  block : List DWord
  /-- the block's pointer -/
  ptr : DWord
  /-- DRAIN path (R229) -/
  path : Nat
  st : EngState
  /-- steps that have been read and are still to be written, with what they read -/
  got : SMap (List Byte)
  /-- steps that have been written -/
  wrote : List Nat
  /-- bytes or elements written -/
  done : Nat
  /-- status, sub-cause, failing pointer -/
  status : Nat
  sub : Nat
  faddr : DWord
  frozen : Bool
  since : Nat
  /-- pointers whose frames were under pull when it reached them, and since when, in ns (R354, R357) -/
  pulls : List (DWord × Nat)
  deriving DecidableEq, Repr, Inhabited

/-! ### Partitions, queues, loads, virtual functions (R372 to R401, R425 to R431) -/

/-- A link of a pool (R220). -/
inductive LinkState where
  | free | waiting | granted | abandoned
  deriving DecidableEq, Repr, Inhabited

structure Link where
  obj : Nat
  holder : Nat
  st : LinkState
  next : Nat
  seq : Word
  deriving DecidableEq, Repr, Inhabited

/-- A pool of 4,096 links: those that differ from a free one, and the order in which free links are given out. Links from
`fresh` on have never been used; `freed` were freed, in that order. -/
structure Pool where
  links : SMap Link
  fresh : Nat
  freed : List Nat
  deriving DecidableEq, Repr, Inhabited

inductive QState where
  | idle | wait | run | wdhold | stopped
  deriving DecidableEq, Repr, Inhabited

/-- A load image as the command processor has read it (R291): columns and rows of patches, for each patch its text, entry
address and readout mask, and the pattern records. -/
structure LoadImage where
  pw : Nat
  ph : Nat
  texts : List (List Host.Cell × Half × DWord)
  pats : List (List Byte)
  deriving DecidableEq, Repr, Inhabited

/-- A packet at the head of its queue, as the command processor has copied it. -/
structure Head where
  words : List DWord
  addr : DWord
  /-- the image of a launch packet -/
  img : LoadImage
  /-- the sequencer that appended it (R134): its load, by the order in which loads started, and the patch index in it -/
  launcher : Option (Nat × Nat)
  /-- the counters of each trigger half that it has read: group, threshold, global address (R377) -/
  trigs : List (List (Nat × Nat × Nat))
  ready : Bool
  /-- a completion record that must be written instead of running it: status, sub-cause, FADDR -/
  fail : Option (Nat × Nat × DWord)
  deriving DecidableEq, Repr, Inhabited

structure Queue where
  part : Nat
  pri : Nat
  weight : Nat
  st : QState
  ringBase : Nat
  ringLog : Nat
  ringHost : Bool
  /-- virtual function and its register index n -/
  vf : Option (Nat × Nat)
  msix : Bool
  tail : Word
  headCnt : Word
  charge : Nat
  head : Option Head
  /-- the FOL packet being staged while the load runs -/
  staged : Option Head
  /-- packets that a sequencer appended: position count, and the sequencer by its load's order and its patch index (R134, R150) -/
  launchers : List (Nat × Nat × Nat)
  /-- patch count of its previous load, and the patches it ran on -/
  prev : Option (Nat × List Nat)
  deriving DecidableEq, Repr, Inhabited

def Queue.reset : Queue where
  part := 0
  pri := 0
  weight := 1
  st := .stopped
  ringBase := 0
  ringLog := 6
  ringHost := false
  vf := none
  msix := false
  tail := 0
  headCnt := 0
  charge := 0
  head := none
  staged := none
  launchers := []
  prev := none

/-- What phase 3 of a migration has brought to its target, until phase 4 makes it stay (R355): its queues, as they were here before; its
collectives; its frames; the table entries that name them now, as they were; and the pools that were here. -/
structure Taken where
  queues : SMap Queue
  colls : List Nat
  frames : List Nat
  entries : List (Nat × DWord)
  pools : SMap Pool
  deriving DecidableEq, Repr, Inhabited

structure Part where
  exists_ : Bool
  /-- its number in the fabric domain, which the manager sets and packets carry (R430) -/
  ident : Nat
  patches : List Nat
  frames : List Nat
  root : Option Nat
  tensors : List (Nat × List DWord)
  saveArea : Option Nat
  pools : SMap Pool
  fqBase : Nat
  fqLog : Nat
  /-- fault records written, and consumed (R426, R428) -/
  fqTail : Word
  fqHead : Word
  feNs : Nat
  escNs : Nat
  remoteWalk : Bool
  /-- public keys for image verification, 64 bytes each (R452) -/
  keys : List (List Byte)
  needSig : Bool
  /-- migration: phase reached, target module (R355) -/
  migrate : Option (Nat × Nat)
  /-- when its migration froze it, in ns (R360) -/
  migrateAt : Nat
  taken : Taken
  deriving DecidableEq, Repr, Inhabited

def Part.reset : Part where
  exists_ := false
  ident := 0
  patches := []
  frames := []
  root := none
  tensors := []
  saveArea := none
  pools := []
  fqBase := 0
  fqLog := 4
  fqTail := 0
  fqHead := 0
  feNs := 1000000
  escNs := 50000
  remoteWalk := false
  keys := []
  needSig := false
  migrate := none
  migrateAt := 0
  taken := ⟨[], [], [], [], []⟩

inductive LoadState where
  /-- placed; its configuration is being written -/
  | placed
  | running
  /-- frozen by FREEZE or a nested fault (R112, R152); SUB of its record -/
  | frozen (sub : Nat)
  /-- frozen by the command processor for pre-emption, a move or a migration -/
  | held
  /-- evicted; `was` is the SUB of its record where FREEZE or a nested fault had frozen it -/
  | evicted (was : Option Nat)
  /-- ended; its record waits to be written: status, sub-cause -/
  | ended (status sub : Nat)
  /-- its record is written; the signal follows -/
  | recorded (status sub : Nat)
  deriving DecidableEq, Repr, Inhabited

/-- A patch of an evicted load in its save frame (R391): the patch, its physical number then, its vaults by element (the
bytes that are not zero and the words that are full, from the vault's start), and what its agents have seen (R310). -/
structure Saved where
  at_ : Nat
  patch : Patch
  vaults : List (Nat × List Host.Cell × List Nat)
  seen : List (AgentId × Nat × Nat)
  deriving DecidableEq, Repr, Inhabited

/-- A drain that the allocator has asked of a load, for a waiting packet: its queue and position count, and when, in ns (R379). -/
structure Drain where
  q : Nat
  pos : Word
  since : Nat
  deriving DecidableEq, Repr, Inhabited

structure Load where
  q : Nat
  part : Nat
  pri : Nat
  lid : Word
  image : Nat
  args : DWord
  cr : Nat
  flag : Nat
  finc : Word
  budget : Nat
  /-- physical patch of each load patch index -/
  patches : List Nat
  st : LoadState
  tstart : Option DWord
  fcnt : Nat
  fcause : Word
  faddr : DWord
  /-- the order in which loads started -/
  order : Nat
  /-- the watchdog's count, in ns of TSC, and the TSC at which it was last brought up to date -/
  timer : Nat
  timedAt : Nat
  /-- patches saved at eviction, by load patch index (R391) -/
  saved : List Saved
  /-- the sequencer that launched it, for the event latch (R150): its load's order and its patch index -/
  launcher : Option (Nat × Nat)
  /-- an escalated access's resume has been given (R354) -/
  resumed : Bool
  /-- the stream port, by load patch index, of the escalated access; none for a wait on a pull (R354, R357, R363) -/
  awaits : Option (Nat × Nat)
  /-- the last drain asked of it (R379) -/
  drain : Option Drain
  /-- the save frames of its partition that hold its state, by load patch index (R390, R391) -/
  frames : List Nat
  /-- engine commands of it that were accepted and have not started, while it stands on no patch: `p` is the load patch index of the
  element that issued it (R360) -/
  queued : List Engine
  img : LoadImage
  /-- what the image gives each patch, by load patch index, once it has passed its checks -/
  images : List PatchImage
  deriving DecidableEq, Repr, Inhabited

/-- A host access that broke its partition's boundary (R396): its flat address, what it writes, and the bytes it reads, 0 for
a write. -/
structure HostAccess where
  fa : DWord
  data : List Byte
  len : Nat
  deriving DecidableEq, Repr, Inhabited

structure Vf where
  part : Option Nat
  verr : Word
  /-- frozen as an offending master, with the access that broke the rule -/
  frozen : Option HostAccess
  /-- VER: the negotiated interface versions (R426, R433), which no operation or event of the table sets: it keeps the
  free value that it has at reset (log 72) -/
  ver : Word
  deriving DecidableEq, Repr, Inhabited

/-! ### Fabric and collectives (R408 to R424) -/

/-- A packet that this module holds: in custody, at an output port or waiting for its CUST (R414). -/
structure Held where
  n : Nat
  k : Packet
  /-- input it came by: 0 to 15 a port, 16 this module -/
  inp : Nat
  out : Nat
  sent : Bool
  /-- resent on ALT -/
  alt : Bool
  /-- when it was last sent, and when custody began, in ns -/
  since : Nat
  entered : Nat
  deriving DecidableEq, Repr, Inhabited

/-- How far a request to another module has come. -/
inductive AskState where
  | sent
  /-- answered with data -/
  | data (bs : List Byte)
  /-- refused by an ERR (R414) -/
  | failed (c : Cause) (sub : Nat)
  deriving DecidableEq, Repr, Inhabited

/-- A request of this module that waits for a reply from another module: its tag, the access it is for (the number of an
access in an issue queue, or none for one that its agent makes at once), and where it reads or writes. -/
structure Asked where
  tag : Half
  mod : Nat
  agent : AgentId
  acc : Option Nat
  addr : Nat
  len : Nat
  write : Bool
  fa : DWord
  st : AskState
  /-- the bytes that it writes -/
  bytes : List Byte
  deriving DecidableEq, Repr, Inhabited

structure FabPort where
  up : Bool
  /-- the negotiated link version (R433) -/
  version : Nat
  slip : Word
  slipped : Bool
  goodSyncs : Nat
  crcReplays : Word
  dropped : Word
  resends : Word
  syncDue : Nat
  /-- the input that round-robin service of its output has taken last (R416) -/
  robin : Nat
  /-- the CUST or SYNC packet that it sent last, by its number: a flit of it may be replayed too (R408) -/
  lastLink : Option Nat
  deriving DecidableEq, Repr, Inhabited

def FabPort.reset : FabPort where
  up := false
  version := 0
  slip := 0
  slipped := false
  goodSyncs := 0
  crcReplays := 0
  dropped := 0
  resends := 0
  syncDue := 0
  robin := 16
  lastLink := none

/-- A collective in progress at this member (R420 to R424). -/
structure Collective where
  n : Nat
  /-- its queue, or none for COLL -/
  q : Option Nat
  /-- the patch and the element that issued COLL, and the queue of their load (R231) -/
  by_ : Option (Nat × Nat × Option Nat)
  part : Nat
  /-- the block's address -/
  ptr : DWord
  block : List DWord
  group : List (Nat × Nat)
  /-- the counters of its trigger halves, once its block has been checked: they are read once (R377, R421) -/
  trigs : Option (List (List (Nat × Nat × Nat)))
  /-- its predicates have been true -/
  ready : Bool
  /-- the contributions of its members, by rank, once data moves -/
  data : List (List Byte)
  started : Option DWord
  since : Nat
  /-- tiles that this member has received -/
  tiles : List Nat
  /-- status, sub-cause and FADDR, once it must end with a failure -/
  fail : Option (Nat × Nat × DWord)
  /-- DST is written -/
  written : Bool
  /-- its record is written; the flag follows -/
  recorded : Bool
  deriving DecidableEq, Repr, Inhabited

structure Fabric where
  /-- this module's number -/
  mod : Nat
  routes : SMap Half
  /-- slot tables: port, slot, output -/
  slots : List ((Nat × Nat × Nat) × Half)
  held : List Held
  asked : List Asked
  nextTag : Half
  /-- packets that arrived within 1 ms, with HOP 0, and when, in ns (R413) -/
  dup : List (Packet × Nat)
  /-- FLAGINC packets that wait for their data packets (R412) -/
  incs : List Packet
  /-- data packets performed here, by source module and tag (R412) -/
  wrs : List (Nat × Half × Nat)
  /-- data packets that this module's engine commands have sent, by command -/
  sentWrs : SMap Nat
  /-- commands that are complete but may have packets under way: an ERR to one still reaches their patch (R228, R414) -/
  flags : List Engine
  ports : SMap FabPort
  custodyNs : Nat
  /-- frames given away by a migration: frame, new owner (R357 to R359) -/
  stubs : List (Nat × Nat)
  /-- redirects received: frame, old owner, new owner -/
  redirs : List (Nat × Nat × Nat)
  deriving DecidableEq, Repr, Inhabited

def Fabric.reset : Fabric where
  mod := 0
  routes := []
  slots := []
  held := []
  asked := []
  nextTag := 0
  dup := []
  incs := []
  wrs := []
  sentWrs := []
  flags := []
  ports := []
  custodyNs := 1000000
  stubs := []
  redirs := []

/-! ### The device (R441 to R454) -/

inductive DState where
  | reset | selftest | reduced | full | safe
  deriving DecidableEq, Repr, Inhabited

structure Device where
  dstate : DState
  /-- power is good (R442) -/
  powered : Bool
  /-- what self-test and calibration have fenced (R447) -/
  fenced : SelfTest
  /-- M0 to M3 (R450) -/
  m : List (List Byte)
  fusedSvn : Byte
  report : List Byte
  /-- units whose full-rate calibration has ended -/
  calibrated : List CalUnit
  /-- throttle step of each compute die (R454) -/
  throttle : SMap Nat
  /-- the time at which a die fell below its step's threshold -/
  coolSince : SMap Nat
  /-- the step that the last measurement of each die calls for -/
  level : SMap Nat
  deriving DecidableEq, Repr, Inhabited

def noFailures : SelfTest := ⟨[], [], [], [], [], 0, 0, 0⟩

def Device.reset : Device where
  dstate := .reset
  powered := false
  fenced := noFailures
  m := List.replicate 4 (List.replicate 32 0)
  fusedSvn := 0
  report := []
  calibrated := []
  throttle := []
  coolSince := []
  level := []

/-! ### Time and turns -/

/-- Who moves at a turn: a sequencer, the next word of a fired instance, or an operation or event of the table. -/
inductive Who where
  | seq (p : Nat)
  | word (p e n : Nat)
  /-- word k of an instance, ahead of earlier ones that wait (R31) -/
  | ahead (p e n k : Nat)
  /-- halfword n of an element's switch list -/
  | switch (p e n : Nat)
  /-- one 8-byte word at a global address, which an instance's current word reads before the rest of its operands (R183) -/
  | operand (p e n a : Nat)
  /-- one 8-byte word of a stream port's next step (R138) -/
  | portWord (p k a : Nat)
  | event (i : Instr)
  deriving DecidableEq, Repr, Inhabited

/-- A turn: fabric cycles that pass first, and who then moves. -/
structure Turn where
  wait : Nat
  who : Who
  deriving DecidableEq, Repr, Inhabited

/-- The agent whose turn is being taken: patch, element, instance. -/
structure Cur where
  patch : Nat
  el : Nat
  inst : Nat
  deriving DecidableEq, Repr, Inhabited

/-- The fabric cycle count n (R455); the TSC (R42) in nanoseconds, with the 4,000,000ths of one left over; the TSC's rate, in
parts per million (R417). -/
structure Clock where
  n : Nat
  tsc : DWord
  rem : Nat
  rate : Nat
  deriving DecidableEq, Repr, Inhabited

/-- A place where the module caches translations (R348): a memory port (an element's path to flat memory, or a stream port), or
a compute die's shared cache. -/
inductive CacheSite where
  | elem (p e : Nat)
  | port (p k : Nat)
  | die (d : Nat)
  deriving DecidableEq, Repr, Inhabited

/-- A translation cache entry (R348): where it is held, partition, tensor number or none for a flat region, first and last
address of the region (a flat address or a tile number), the frame entry. -/
structure CacheEntry where
  site : CacheSite
  part : Nat
  tens : Option Nat
  lo : Nat
  hi : Nat
  entry : DWord
  deriving DecidableEq, Repr, Inhabited

/-- A walk in flight that waits (R345, R348): its die, partition, tensor number or none, page or tile number, the time at which it
began, in ns; whether it waits for a node under pull, else for one of another module; and when it gave up, in ns. -/
structure Walk where
  die : Nat
  pull : Bool
  part : Nat
  tens : Option Nat
  page : Nat
  since : Nat
  gaveUp : Option Nat
  deriving DecidableEq, Repr, Inhabited

/-- A deadlock probe under way (R399): origin context, path so far, where it stands. -/
structure Probe where
  n : Nat
  q : Nat
  origin : Nat
  path : List Nat
  at_ : Nat
  /-- the cycle in which it was sent there, and the one in which its origin sent it -/
  since : Nat
  round : Nat
  deriving DecidableEq, Repr, Inhabited

/-- A freeze record sent to the partition manager (R397): its eight words. -/
abbrev FreezeRec := List DWord

/-- A host read on its way: its virtual function, its number, its size, and the pieces that have been read, by offset (R306, R322). -/
structure HostAsk where
  vf : Nat
  n : Nat
  size : Nat
  got : SMap (List Byte)
  deriving DecidableEq, Repr, Inhabited

/-- What a migration carries of a partition (R356, R358): its loads, with their saved patches, timers and engine commands that have not
started; its queues with their packets; its collectives; its link pools; and frames, as those that hold hold records in use or one
that is pulled: frame number, data, full words. -/
structure Moved where
  part : Nat
  loads : List Load
  queues : SMap Queue
  colls : List Collective
  pools : SMap Pool
  frames : List (Nat × List Host.Cell × List Nat)
  deriving DecidableEq, Repr, Inhabited

/-- The machine. -/
structure State where
  agenda : List Turn
  cur : Cur
  clock : Clock
  /-- how many free values have been drawn (log 2) -/
  free : Nat
  patches : SMap Patch
  mem : Memory
  ord : Ordering
  engines : List Engine
  nextEngine : Nat
  parts : SMap Part
  queues : SMap Queue
  loads : List Load
  nextLoad : Nat
  /-- the queue visited last in the round of each priority level (R374) -/
  rounds : SMap Nat
  vfs : SMap Vf
  cache : List CacheEntry
  walks : List Walk
  fabric : Fabric
  colls : List Collective
  probes : List Probe
  device : Device
  /-- the mailbox's last reply (R431), eight words -/
  reply : List DWord
  freezes : List FreezeRec
  /-- MSI-X vectors raised: virtual function, vector (R425) -/
  msix : List (Nat × Nat)
  /-- data answered to the host: virtual function, bytes -/
  hostReads : List (Nat × List Byte)
  /-- host reads that have not been answered -/
  hostAsks : List HostAsk
  /-- what has left this module by migration, with the target (R356, R358) -/
  outbound : List (Nat × Moved)
  deriving DecidableEq, Repr, Inhabited

/-- The machine right after device reset (R11, R442): DSTATE RESET, no partition, every queue STOPPED, memory zero and
empty. -/
def State.reset : State where
  agenda := []
  cur := ⟨0, 0, 0⟩
  clock := ⟨0, 0, 0, 1000000⟩
  free := 0
  patches := []
  mem := ⟨[], []⟩
  ord := Ordering.reset
  engines := []
  nextEngine := 0
  parts := []
  queues := []
  loads := []
  nextLoad := 0
  rounds := []
  vfs := []
  cache := []
  walks := []
  fabric := Fabric.reset
  colls := []
  probes := []
  device := Device.reset
  reply := List.replicate 8 0
  freezes := []
  msix := []
  hostReads := []
  hostAsks := []
  outbound := []

/-- Why the machine stops: never. Every instruction of the table has an effect in every state, and what the spec calls a
fault or a trap is taken by the machine. -/
inductive Fault where
  deriving DecidableEq, Repr

/-- Why an instruction has no meaning here. -/
inductive Refusal where
  /-- an instruction whose meaning is not written yet; raised by its arm of `exec` alone. Safe. -/
  | notModelled (mnemonic : String)
  deriving DecidableEq, Repr

end Sys2Proof.Machine
end

