-- ==== Sys2Proof/Machine/Ops.lean ====
section
/-! DEFINITION. The named operations over the state: tables, registers, memory, the clock, freeze records, freezing a load,
and the taking of a trap and the return from one. -/

namespace Sys2Proof.Machine

/-! ### Tables -/

/-- The entry of a table, `d` where it lists none. -/
def smGet {α : Type} (d : α) : SMap α → Nat → α
  | [], _ => d
  | (k, v) :: r, a => if a = k then v else smGet d r a

/-- The entry of a table, if it lists one. -/
def smFind {α : Type} : SMap α → Nat → Option α
  | [], _ => none
  | (k, v) :: r, a => if a = k then some v else smFind r a

/-- A table with the entry at `a` set, keys rising. -/
def smSet {α : Type} : SMap α → Nat → α → SMap α
  | [], a, x => [(a, x)]
  | (k, v) :: r, a, x =>
    if a = k then (a, x) :: r else if a < k then (a, x) :: (k, v) :: r else (k, v) :: smSet r a x

/-- A table without the entry at `a`. -/
def smDel {α : Type} : SMap α → Nat → SMap α
  | [], _ => []
  | (k, v) :: r, a => if a = k then r else (k, v) :: smDel r a

/-! ### Stable sorts -/

/-- Insert after every element that is not greater: a stable sort. -/
def insertBy {α : Type} (lt : α → α → Bool) (x : α) : List α → List α
  | [] => [x]
  | y :: ys => if lt x y then x :: y :: ys else y :: insertBy lt x ys

/-- A list in rising order; equal elements keep their order. -/
def sortBy {α : Type} (lt : α → α → Bool) (l : List α) : List α := l.foldl (fun r x => insertBy lt x r) []

/-! ### Bytes that are zero where not listed -/

/-- The byte at an address. -/
def cellGet : List Host.Cell → Nat → Byte
  | [], _ => 0
  | c :: r, a => if a = c.1 then c.2 else cellGet r a

/-- Write one byte, keeping the canonical form: writing zero takes the entry out. -/
def cellPut : List Host.Cell → Nat → Byte → List Host.Cell
  | [], a, b => if b = 0 then [] else [(a, b)]
  | c :: r, a, b =>
    if a = c.1 then (if b = 0 then r else (a, b) :: r)
    else if a < c.1 then (if b = 0 then c :: r else (a, b) :: c :: r)
    else c :: cellPut r a b

/-- `n` bytes from an address on. -/
def cellRead (m : List Host.Cell) (a : Nat) : Nat → List Byte
  | 0 => []
  | n + 1 => cellGet m a :: cellRead m (a + 1) n

/-- Write bytes from an address on. -/
def cellWrite (m : List Host.Cell) (a : Nat) : List Byte → List Host.Cell
  | [] => m
  | b :: bs => cellWrite (cellPut m a b) (a + 1) bs

/-- Insert into a strictly rising list. -/
def risingPut : List Nat → Nat → List Nat
  | [], a => [a]
  | k :: r, a => if a = k then k :: r else if a < k then a :: k :: r else k :: risingPut r a

/-- Take out of a strictly rising list. -/
def risingDel : List Nat → Nat → List Nat
  | [], _ => []
  | k :: r, a => if a = k then r else k :: risingDel r a

/-! ### The backing memory -/

/-- The byte of backing memory at a global address (R304). -/
def Memory.get (m : Memory) (a : Nat) : Byte := cellGet m.cells a

/-- `n` bytes of backing memory. -/
def Memory.read (m : Memory) (a n : Nat) : List Byte := cellRead m.cells a n

/-- Write bytes of backing memory. -/
def Memory.write (m : Memory) (a : Nat) (bs : List Byte) : Memory := { m with cells := cellWrite m.cells a bs }

/-- Write bytes at listed addresses. -/
def Memory.puts (m : Memory) : List (Nat × Byte) → Memory
  | [] => m
  | (a, b) :: r => Memory.puts { m with cells := cellPut m.cells a b } r

/-- The full/empty bit of the word that holds an address (R19, R316). -/
def Memory.isFull (m : Memory) (a : Nat) : Bool := m.full.contains (a / 8)

/-! A word's check bits (R19) -/

/-- How many of the low `n` bits of a number are 1. -/
def bitSum (x : Nat) : Nat → Nat
  | 0 => 0
  | n + 1 => bitSum x n + if x.testBit n then 1 else 0

/-- The check bits that each bit of a stored word takes part in: data bits 0 to 63, the full/empty bit, then the 8 check bits, each in
itself alone. All are different and have an odd number of ones, so that one flipped bit is told by its own pattern, and two by an even
one (R19). The spec names no code: this one is a DESIGN CHOICE (log 5). -/
def eccCols : List Nat :=
  ((List.range 256).filter (fun x => bitSum x 8 % 2 == 1 && decide (3 ≤ bitSum x 8))).take 65 ++ (List.range 8).map (fun k => 2 ^ k)

/-- What the check bits of a word of 73 bits differ by from what its data calls for: 0 for a word as it was written. -/
def eccSyndrome (w : Nat) : List Nat → Nat → Nat
  | [], _ => 0
  | c :: cs, k => (if w.testBit k then c else 0) ^^^ eccSyndrome w cs (k + 1)

/-- The check bits of a word's data and full/empty bit (R19). -/
def eccCheck (data : DWord) (full : Bool) : Nat := eccSyndrome (data.toNat + 2 ^ 64 * full.toNat) (eccCols.take 65) 0

/-- The 73 bits that a vault or HBM word stores: data, full/empty bit, check bits (R19, R338). -/
def eccWord (data : DWord) (full : Bool) : Nat := data.toNat + 2 ^ 64 * full.toNat + 2 ^ 65 * eccCheck data full

/-- A stored word as it is read: a single-bit error is corrected; none where the check bits show a double-bit error (R19). -/
def eccRead (w : Nat) : Option (DWord × Bool) :=
  let y := eccSyndrome w eccCols 0
  let out := fun (v : Nat) => (BitVec.ofNat 64 v, v.testBit 64)
  if y = 0 then some (out w)
  else match eccCols.idxOf? y with
    | some k => some (out (w ^^^ 2 ^ k))
    | none => none

/-- What the cells of a word, named by its number address / 8, give where the bits of `err` have flipped in them. The cells of State hold
each word without errors, so that its check bits follow its data and its full/empty bit (R19; log 5). -/
def Memory.cellsRead (m : Memory) (w err : Nat) : Option (DWord × Bool) :=
  eccRead (eccWord (BitVec.ofNat 64 (leNat (m.read (8 * w) 8))) (m.isFull (8 * w)) ^^^ err)

/-- Set or clear the bit of a word, named by its number address / 8. -/
def Memory.mark (m : Memory) (w : Nat) (full : Bool) : Memory :=
  { m with full := if full then risingPut m.full w else risingDel m.full w }

/-- Take marks, in order. -/
def Memory.marks (m : Memory) : Marks → Memory
  | [] => m
  | (w, b) :: r => Memory.marks (m.mark w b) r

/-- The global address space: this module's physical addresses (R338) from 0; host memory from 2^56; other modules'
memory from 2^60, 2^51 bytes each; the vaults from 2^62, 512 KiB each (log 7). -/
def hostBase : Nat := 2 ^ 56
def remoteBase : Nat := 2 ^ 60
def vaultBase : Nat := 2 ^ 62

/-- The global address of byte `va` of the vault of element `e` of patch `p` (R19). -/
def vaultAddr (p e va : Nat) : Nat := vaultBase + (64 * p + e) * 0x80000 + va

/-- The global address of a physical address of another module (R342). -/
def remoteAddr (mod pa : Nat) : Nat := remoteBase + mod * 2 ^ 51 + pa

/-! ### Patches, elements, ports -/

def State.patch (s : State) (p : Nat) : Patch := smGet Patch.reset s.patches p

def State.setPatch (s : State) (p : Nat) (x : Patch) : State := { s with patches := smSet s.patches p x }

def State.seq (s : State) (p : Nat) : Seq := (s.patch p).seq

/-- The fabric cycles that some cycles of a patch take: a patch at 400 MHz takes twice as long (R444, R445). -/
def State.cyclesOf (s : State) (p n : Nat) : Nat := if (s.patch p).fullRate then n else 2 * n

def State.setSeq (s : State) (p : Nat) (q : Seq) : State := s.setPatch p { s.patch p with seq := q }

def Patch.elem (x : Patch) (e : Nat) : Elem := smGet Elem.reset x.elems e

def Patch.setElem (x : Patch) (e : Nat) (v : Elem) : Patch := { x with elems := smSet x.elems e v }

def State.elem (s : State) (p e : Nat) : Elem := (s.patch p).elem e

def State.setElem (s : State) (p e : Nat) (v : Elem) : State := s.setPatch p ((s.patch p).setElem e v)

/-- Change an element. -/
def State.modElem (s : State) (p e : Nat) (f : Elem → Elem) : State := s.setElem p e (f (s.elem p e))

def Patch.port (x : Patch) (k : Nat) : Port := smGet Port.reset x.ports k

def State.port (s : State) (p k : Nat) : Port := (s.patch p).port k

def State.setPort (s : State) (p k : Nat) (v : Port) : State :=
  s.setPatch p { s.patch p with ports := smSet (s.patch p).ports k v }

/-- The queue whose load holds a patch. -/
def State.loadOf (s : State) (p : Nat) : Option Load :=
  match (s.patch p).load with
  | none => none
  | some (q, _) => s.loads.find? (fun l => l.q == q)

/-- The partition a patch works for: 0 where it holds no load. -/
def State.partOf (s : State) (p : Nat) : Nat := (s.patch p).part.getD 0

/-- The patch index within the load (R15). -/
def State.lpOf (s : State) (p : Nat) : Nat :=
  match (s.patch p).load with
  | none => 0
  | some (_, i) => i

def State.part (s : State) (n : Nat) : Part := smGet Part.reset s.parts n

def State.setPart (s : State) (n : Nat) (x : Part) : State := { s with parts := smSet s.parts n x }

def State.queue (s : State) (n : Nat) : Queue := smGet Queue.reset s.queues n

def State.setQueue (s : State) (n : Nat) (x : Queue) : State := { s with queues := smSet s.queues n x }

def State.setLoad (s : State) (l : Load) : State :=
  { s with loads := s.loads.map (fun x => if x.q = l.q then l else x) }

/-- Apply a change to the load of a queue. -/
def State.modLoad (s : State) (q : Nat) (f : Load → Load) : State :=
  { s with loads := s.loads.map (fun x => if x.q = q then f x else x) }

/-- A load counts a fault and keeps its first one (R385). -/
def Load.countFault (l : Load) (cause : Word) (addr : DWord) : Load :=
  { l with fcnt := l.fcnt + 1, fcause := if l.fcnt = 0 then cause else l.fcause,
           faddr := if l.fcnt = 0 then addr else l.faddr }

/-- Replace item `i` of a list. -/
def setAt {α : Type} (l : List α) (i : Nat) (x : α) : List α := l.set i x

/-! ### Time (R42, R455) -/

/-- Let fabric cycles of 1.25 ns pass; the TSC counts nanoseconds at its rate (R417). -/
def Clock.advance (c : Clock) (k : Nat) : Clock :=
  let q := c.rem + 5 * k * c.rate
  { c with n := c.n + k, tsc := c.tsc + BitVec.ofNat 64 (q / 4000000), rem := q % 4000000 }

/-- Nanoseconds since device reset, by the cycle count. -/
def Clock.ns (c : Clock) : Nat := c.n * 5 / 4

/-! ### Registers of the sequencer -/

/-- A g register; g0 reads 0 (R12). -/
def Seq.get (q : Seq) (r : BitVec 5) : Word := if r = 0 then 0 else q.g.getD r.toNat 0

/-- Write a g register; a write to g0 is discarded (R109). -/
def Seq.put (q : Seq) (r : BitVec 5) (v : Word) : Seq := if r = 0 then q else { q with g := q.g.set r.toNat v }

/-- A register pair (R84). -/
def Seq.pair (q : Seq) (r : BitVec 5) : DWord := q.get (r + 1) ++ q.get r

/-- Write a register pair as one 64-bit value (R109). -/
def Seq.putPair (q : Seq) (r : BitVec 5) (v : DWord) : Seq :=
  (q.put r (v.setWidth 32)).put (r + 1) ((v >>> 32).setWidth 32)

/-- The active loop levels, counted (R126). -/
def Seq.ld (q : Seq) : Nat := (q.lc.filter (fun c => c != 0)).length

/-! ### Trap causes (R114) -/

/-- The code of a cause. -/
def causeCode : Cause → Nat
  | .ok => 0 | .illop => 1 | .align => 2 | .xlate => 3 | .perm => 4 | .frozen => 5 | .feTimeout => 6 | .dz => 7
  | .deadlock => 8 | .witnessStale => 9 | .placeStale => 10 | .ovfDiff => 11 | .doubleResolve => 12 | .watchdog => 13
  | .cfgEcc => 14 | .cfgNoconv => 15 | .cfgIllop => 16 | .migrateAbort => 17 | .slip => 18 | .noplace => 19
  | .qfull => 20 | .software c => c.toNat

/-- XCAUSE from a code, a sub-cause and whether it arose from an element instance (R14). -/
def xcause (code sub : Nat) (elem : Bool) : Word :=
  BitVec.ofNat 32 (code % 256 + sub % 256 * 256 + (if elem then 2 ^ 31 else 0))

/-! ### Taking a trap and returning from one (R111, R149) -/

/-- Enter the handler, in one cycle (R111): XPC, XCAUSE, XVAL, XVALH and XINFO are set, XT becomes 1 and pc 0. No g
register, loop register or predicate changes. -/
def takeTrap (q : Seq) (xpc : Half) (cause info : Word) (val : DWord) : Seq :=
  { q with xpc := xpc, xcause := cause, xval := val.setWidth 32, xvalh := (val >>> 32).setWidth 32, xinfo := info,
           xt := true, pc := 0, begun := false }

/-- Return from the handler: pc takes XPC and XT becomes 0 (R149). -/
def leaveTrap (q : Seq) : Seq := { q with pc := q.xpc.setWidth 17, xt := false }

/-! ### Freezing (R38, R148, R152, R390, R396, R397) -/

/-- Bits of a field at a place in a 64-bit word. -/
def at64 (v lo : Nat) : Nat := v * 2 ^ lo

/-- A freeze record (R397). -/
def freezeRec (el lp q part agent sub port lid : Nat) (xinfo xcau : Word) (val tsc blk : DWord) : FreezeRec :=
  [BitVec.ofNat 64 (at64 el 58 + at64 lp 48 + at64 q 32 + at64 part 24 + at64 agent 16 + at64 sub 8 + 5),
   BitVec.ofNat 64 (at64 port 32 + lid % 2 ^ 32), xinfo ++ xcau, val, tsc, blk, 0, 0]

/-- An instance has passed the point of its irrevocable operation (R38). -/
def Inst.passed (i : Inst) : Bool :=
  i.sent || match i.irr with
  | .done _ _ => true
  | _ => false

/-- An armed entry as it stood before it fired: the effects of a discarded instance never happen (R38). -/
def Inst.rearm (i : Inst) : Inst :=
  { i with st := .armed, qres := [], cres := [], pc := 0, r := Regs.reset, fuseAt := 2, cbAt := [], wS := [], wW := [], wM := [], wA := [],
           wC := [], wFuse := false, dzSet := false, dzClr := false, pos := List.replicate 12 0, ahead := [], mx := false, waited := 0,
           tpos := List.replicate 8 0, outs := List.replicate 12 [], effs := [], irr := .none, sent := false, branch := none,
           halt := false, ftl := List.replicate 4 none, loads := [], clF := [], clE := [], dfc := [], acl := [], arrc := [],
           warr := [], scb := [], cvtN := 0, cvtS := 0, rot := none, since := none, cover := none, pullAt := none, readyAt := 0, got := [],
           after := [], pend := none }

/-- Give up what instance `n` of an element has reserved: its queue slots, its scale tokens (R38, R203). -/
def Elem.unreserve (v : Elem) (n : Nat) : Elem :=
  { v with q := v.q.map (fun l => l.map (fun u => if u.owner = some n then { u with owner := none } else u)),
           scb := v.scb.map (fun t => if t.owner = some n then { t with owner := none } else t) }

/-- No instance waits any longer for instance `n` to commit before it: `n` has committed, faulted or gone (R313). -/
def Elem.forget (v : Elem) (n : Nat) : Elem :=
  { v with insts := v.insts.map (fun i => { i with after := i.after.filter (fun m => m != n) }) }

/-- Every word of the instance has completed (R32). -/
def Elem.wordsDone (v : Elem) (i : Inst) : Bool :=
  i.st == .fired && i.loads.isEmpty && (match smFind v.blocks i.blk with
    | some b => i.pc == b.words.length
    | none => false)

/-- The instance is an arrived participant of a rotation: its RROT word has issued and its other words have completed (R174). -/
def Elem.participates (v : Elem) (i : Inst) : Bool := i.rot.isSome && v.wordsDone i

/-- Discard a fired instance as at a freeze: its slots are reserved to nobody, and it fires again from its trigger. An
instance of a standing block leaves the station; one armed by a branch stays armed. -/
def Elem.discard (v : Elem) (n : Nat) : Elem :=
  let standing := fun (i : Inst) => match smFind v.blocks i.blk with
    | some b => b.st
    | none => true
  let v := (v.unreserve n).forget n
  let left := v.insts.filter (fun i => !(i.id == n && standing i))
  { v with insts := left.map (fun i => if i.id = n then i.rearm else i) }

/-- The participant of an element: the one that has begun its irrevocable operation for the rotation, else the arrived instance that
was allocated first (R32, R174). -/
def Elem.participant (v : Elem) : Option Inst :=
  (v.insts.find? (fun i => v.participates i && i.passed)).orElse (fun _ => v.insts.find? v.participates)

/-- Its irrevocable operation waits for a full/empty bit, or for the grant of its place (R214, R223). -/
def Inst.openWait (i : Inst) : Bool :=
  !i.passed && (match i.irr with
    | .held (.owner _ _ _ _ .ldfe _ _) _ | .held (.owner _ _ _ _ (.ste _) _ _) _ => i.since.isSome
    | .held (.owner _ _ _ _ (.placeOp .pwait _ _ _ _) _ _) _ => true
    | _ => false)

/-- Every fired instance that has not passed its irrevocable point is discarded; where a rotation's 64 participants have all
arrived, they are kept, and what they have waited for a full/empty bit so far is noted (R38, R175, R214). -/
def Elem.settle (v : Elem) (rotating : Bool) (now : Nat) : Elem :=
  let me := if rotating then (v.participant).map (fun i => i.id) else none
  let out := v.insts.filter (fun i => i.st == .fired && !i.passed && some i.id != me)
  let v := out.foldl (fun v i => v.discard i.id) v
  { v with insts := v.insts.map (fun i => match i.since with
      | some t => if i.st = .fired then { i with since := none, waited := i.waited + (now - t) } else i
      | none => i) }

/-- All 64 elements of a patch hold an arrived RROT (R174). -/
def Patch.rotating (x : Patch) : Bool :=
  (List.range 64).all (fun e => (x.elem e).participant.isSome)

/-- At a freeze the rotation of a patch goes on to its commits: its 64 participants have arrived. Where the operation of one of them is
still open and none has performed its own, the open one is discarded, and the rotation with it (R38, R175, R214, R223). -/
def Patch.rotates (x : Patch) : Bool :=
  let l := (List.range 64).filterMap (fun e => (x.elem e).participant)
  x.rotating && (l.any (fun i => i.passed) || !l.any (fun i => i.openWait))

/-- Stop a patch and settle it: nothing fires, no word issues, no port steps; an open phase loses its shadow store, unless
CFGCMT has made its swap (R148, R390); the event latch is set (R150). The loads of discarded instances leave the machine with
them (`dropLoads`). -/
def Patch.freeze (x : Patch) (now : Nat) : Patch :=
  let rot := x.rotates
  { x with frozen := true,
           elems := x.elems.map (fun (k, v) => (k, v.settle rot now)),
           phase := if x.phase.opened && !x.phase.done then { x.phase with shadow := [], lastPat := none, broken := true, drain := false }
                    else x.phase,
           seq := { x.seq with latch := true } }

/-- The loads of instances that are no longer in the station leave the ordering machine, and so do the operations at another module of
instances that have given them up (R321). -/
def State.dropLoads (s : State) : State :=
  let live := fun (a : Access) => match a.op with
    | .load _ _ (.inst p e n _ _ _ _) => (s.elem p e).insts.any (fun i => i.id == n && i.st == .fired)
    | .owner _ (.irr p e n) => (s.elem p e).insts.any (fun i => i.id == n && i.st == .fired && i.sent)
    | _ => true
  { s with ord := { s.ord with accs := s.ord.accs.filter live } }

/-- The deadlock probes of a load are dropped: its elements send new ones once they are blocked again (R399). -/
def State.dropProbes (s : State) (q : Nat) : State := { s with probes := s.probes.filter (fun x => x.q != q) }

/-- Freeze every patch of a load (R390). -/
def State.freezePatches (s : State) (l : Load) : State :=
  ((l.patches.foldl (fun s p => s.setPatch p ((s.patch p).freeze s.clock.ns)) s).dropLoads).dropProbes l.q

/-- Freeze the load of patch `p` as FREEZE does (R152), with SUB and the cause its record carries (R112, R397). -/
def State.freezeLoad (s : State) (p sub : Nat) (info cau : Word) (val : DWord) : State :=
  match s.loadOf p with
  | none => s.setPatch p ((s.patch p).freeze s.clock.ns)
  | some l =>
    let s := s.freezePatches l
    let s := s.modLoad l.q (fun x => { x with st := .frozen sub })
    { s with freezes := s.freezes ++
        [freezeRec 0 (s.lpOf p) l.q l.part 1 sub 0 l.lid.toNat info cau val s.clock.tsc 0] }

/-- A control word at address `a` faults (R111, R112): the handler is entered; while a handler runs the load is frozen
instead, and the saved pc is the word's address. -/
def State.seqFault (s : State) (p : Nat) (a : Half) (cause : Cause) (sub : Nat) (val : DWord) : State :=
  let q := s.seq p
  if q.xt then
    (s.freezeLoad p 2 q.xinfo (xcause (causeCode cause) sub false) val).setSeq p
      { (s.freezeLoad p 2 q.xinfo (xcause (causeCode cause) sub false) val).seq p with pc := a.setWidth 17 }
  else s.setPatch p { s.patch p with seq := takeTrap q a (xcause (causeCode cause) sub false) 0 val, named := none }

/-! ### Completing a control word (R125 to R129) -/

/-- The loop-end check for address `a` over the levels listed, innermost first (R127): whether a level took pc back. -/
def loopCheck (a : Half) : List Nat → Seq → Seq × Bool
  | [], q => (q, false)
  | n :: ns, q =>
    let c := q.lc.getD n 0
    if c ≠ 0 ∧ q.le.getD n 0 = a then
      let q' := { q with lc := q.lc.set n (c - 1) }
      if c - 1 ≠ 0 then ({ q' with pc := (q.lb.getD n 0).setWidth 17 }, true) else loopCheck a ns q'
    else loopCheck a ns q

/-- The address after a word, 0x1_0000 past the store's end (R122). -/
def after (a : Half) : BitVec 17 := a.setWidth 17 + 4

/-- Old words stay in the loop buffer only while their level is active (R124). -/
def Seq.prune (q : Seq) : Seq := { q with held := q.held.filter (fun h => q.lc.getD h.1 0 != 0) }

/-- The word at `a` has completed, and its own effects are made (R127). -/
def Seq.finish (q : Seq) (a : Half) : Seq :=
  let (q', back) := loopCheck a [2, 1, 0] q
  { (if back then q' else { q' with pc := after a }).prune with last := a, begun := false }

/-- The check for address `b` over some levels, and pc past `b` where no level takes it back; the word stands at `a`
(R125, R129). -/
def Seq.finishAt (q : Seq) (a b : Half) (lv : List Nat) : Seq :=
  let (q', back) := loopCheck b lv q
  { (if back then q' else { q' with pc := after b }).prune with last := a, begun := false }

/-- A taken branch or jump at `a` ends every active level whose le is `a` (R128). -/
def Seq.branchTo (q : Seq) (a : Half) (t : Half) : Seq :=
  { { q with lc := (List.range 3).map (fun n => if q.le.getD n 0 = a then 0 else q.lc.getD n 0),
             pc := t.setWidth 17 }.prune with last := a, begun := false }

/-- What a control word does that touches its sequencer alone. -/
inductive SeqOut where
  /-- it completes at its address -/
  | done (q : Seq)
  /-- it completes and has set pc itself -/
  | moved (q : Seq)
  /-- a taken branch or jump -/
  | jump (q : Seq) (target : Word)
  | fault (cause : Cause) (sub : Nat) (val : DWord)
  /-- a fault for which no rule gives XVALH:XVAL: a free value (log 8) -/
  | faultOpen (cause : Cause) (sub : Nat)
  deriving DecidableEq, Repr

/-- Make a control word's outcome the machine's (R108, R111, R122, R127, R128). A jump target that is both outside the store and
not a multiple of 4 raises PERM: the spec gives the two checks no order (DESIGN CHOICE, log 58). -/
def State.seqOut (s : State) (p : Nat) (a : Half) : SeqOut → State
  | .done q => s.setSeq p (q.finish a)
  | .moved q => s.setSeq p q
  | .jump q t =>
    if t.toNat ≥ 0x10000 then s.seqFault p a .perm 2 (t.setWidth 64)
    else if t.toNat % 4 ≠ 0 then s.seqFault p a .align 0 (t.setWidth 64)
    else s.setSeq p (q.branchTo a (t.setWidth 16))
  | .fault c sub v => s.seqFault p a c sub v
  | .faultOpen c sub => { s with free := s.free + 1 }.seqFault p a c sub (Config.freeDWord s.free)

/-- The address of the control word whose turn it is. -/
def State.seqAt (s : State) : Half := (s.seq s.cur.patch).pc.setWidth 16

/-- Run a control word that changes its sequencer alone, on the patch whose turn it is. -/
def runSeq (f : Half → Seq → SeqOut) (s : State) : State :=
  s.seqOut s.cur.patch s.seqAt (f s.seqAt (s.seq s.cur.patch))

/-! ### Accesses (R302 to R305) -/

/-- Put an access at the end of its agent's issue queue, as a word of the operation whose first access is `grp`; its number is
`ord.nextId`; `made` names the instance and the word that make it, where its element has not committed it. -/
def State.issueIn (s : State) (grp : Nat) (agent : AgentId) (scope : Scope) (place : Place) (op : AccOp) (acq rel : Bool)
    (fa : DWord) (made : Option (Nat × Nat) := none) : State :=
  let a : Access := ⟨s.ord.nextId, agent, scope, place, op, acq, rel, false, fa, s.clock.ns, grp, made⟩
  { s with ord := { s.ord with accs := s.ord.accs ++ [a], nextId := s.ord.nextId + 1 } }

/-- Put an access of one word at the end of its agent's issue queue. -/
def State.issue (s : State) (agent : AgentId) (scope : Scope) (place : Place) (op : AccOp) (acq rel : Bool) (fa : DWord) :
    State := s.issueIn s.ord.nextId agent scope place op acq rel fa

/-- Bytes grouped by the 8-byte word that they lie in. -/
def wordGroups : List (Nat × Byte) → List (Nat × List (Nat × Byte))
  | [] => []
  | b :: r => match wordGroups r with
    | (w, l) :: g => if b.1 / 8 = w then (w, b :: l) :: g else (b.1 / 8, [b]) :: (w, l) :: g
    | [] => [(b.1 / 8, [b])]

/-- A store as the accesses of one 8-byte word each that it makes (R208): each takes its bytes and its marks. An empty write is one
access (R233). -/
def Store.words (st : Store) : List Store :=
  let gs := wordGroups st.bytes
  if st.bytes.isEmpty && st.marks.isEmpty then [st] else
  gs.map (fun g =>
    { st with bytes := g.2, marks := st.marks.filter (fun m => m.1 == g.1),
              ptr := st.ptr + BitVec.ofNat 64 ((g.2.headD (0, 0)).1 - (st.bytes.headD (0, 0)).1) }) ++
  (st.marks.filter (fun m => !gs.any (fun g => g.1 == m.1))).map (fun m => { st with bytes := [], marks := [m] })

/-- Enter the words of a store. -/
def State.issueWords (s : State) (grp : Nat) (agent : AgentId) : List Store → State
  | [] => s
  | st :: r => (s.issueIn grp agent st.scope st.place (.store st) false st.rel st.ptr).issueWords grp agent r

/-- Enter a store of an agent, word by word (R208). -/
def State.issueStore (s : State) (agent : AgentId) (st : Store) : State := s.issueWords s.ord.nextId agent st.words

/-- Enter stores in order. -/
def State.issueStores (s : State) (agent : AgentId) : List Store → State
  | [] => s
  | st :: r => (s.issueStore agent st).issueStores agent r

/-! ### Circular buffers and disposal of instances (R17, R37, R158) -/

def cbTake (h : DWord) : Nat := (h >>> 49).toNat
def cbFill (h : DWord) : Nat := (h >>> 34).toNat % 2 ^ 15
def cbNslot (h : DWord) : Nat := (h >>> 20).toNat % 2 ^ 14
def cbSsz (h : DWord) : Nat := (h >>> 18).toNat % 4
def cbBase (h : DWord) : Nat := h.toNat % 2 ^ 14

/-- Slot size in bytes. -/
def cbSlotBytes (h : DWord) : Nat := 32 * 2 ^ cbSsz h

/-- The occupancy of a buffer (R17). -/
def cbOcc (h : DWord) : Nat := (cbFill h + 2 ^ 15 - cbTake h) % 2 ^ 15

/-- A handle that a buffer may be used by: NSLOT not 0, reserved bits zero, its region inside the vault (R17). -/
def cbValid (h : DWord) : Bool :=
  cbNslot h != 0 && (h >>> 14).toNat % 16 == 0 && decide (cbBase h * 32 + cbNslot h * cbSlotBytes h ≤ 0x80000)

/-- The vault byte address of slot counter `i` of a buffer; counters wrap modulo 32,768 (R17). -/
def cbSlotAddr (h : DWord) (i : Nat) : Nat := cbBase h * 32 + (i % 2 ^ 15 % cbNslot h) * cbSlotBytes h

/-- TAKEP and FILLP moved on by some slots, modulo 32,768. -/
def cbMove (h : DWord) (take fill : Nat) : DWord :=
  BitVec.ofNat 64 (at64 ((cbTake h + take) % 2 ^ 15) 49 + at64 ((cbFill h + fill) % 2 ^ 15) 34 + h.toNat % 2 ^ 34)

/-- The words of `n` bytes of a vault from byte `va` on, as global word numbers. -/
def vaultWords (p e va n : Nat) : List Nat := (List.range ((n + 7) / 8)).map (fun i => vaultAddr p e va / 8 + i)

/-- The store that sets words empty. -/
def emptyStore (p e : Nat) (words : List Nat) : Store :=
  ⟨⟨vaultAddr p e 0, .rc, false, true⟩, [], words.map (fun w => (w, false)), .elem, false, 0, false⟩

/-- Remove what an instance has reserved, as a commit does: its queue slots leave; TAKEP of each buffer advances and every
word of the slots is set empty by a store at `.elem` (R32, R37, R158). -/
def State.removeSlots (s : State) (p e : Nat) (i : Inst) : State :=
  let v := s.elem p e
  let cb := i.cres.foldl (fun cb c => cb.set c.1 (cbMove (cb.getD c.1 0) c.2.2 0)) v.r.cb
  let sts := i.cres.map (fun c =>
    let h := v.r.cb.getD c.1 0
    emptyStore p e ((List.range c.2.2).flatMap (fun j => vaultWords p e (cbSlotAddr h (c.2.1 + j)) (cbSlotBytes h))))
  let v := { v with q := v.q.map (fun l => l.filter (fun u => u.owner != some i.id)), r := { v.r with cb := cb } }
  (s.setElem p e v).issueStores (.elem p e) sts

/-- An instance as it fires: its registers are the element's committed ones (R31); the slots and the tag are those it has. -/
def Inst.fire (i : Inst) (r : Regs) : Inst :=
  { i.rearm with st := .fired, qres := i.qres, cres := i.cres, r := r, fuseAt := r.fuse, cbAt := r.cb }

/-- The instance that XINFO names is discarded: its slots go, its entry is freed (R37). -/
def State.disposeDiscard (s : State) (p e n : Nat) : State :=
  match (s.elem p e).insts.find? (fun i => i.id == n) with
  | none => s
  | some i =>
    let s := s.removeSlots p e i
    let v := ((s.elem p e).unreserve n).forget n
    s.setElem p e { v with insts := v.insts.filter (fun x => x.id != n) }

/-- XINFO.V is cleared, and no instance is named. -/
def State.clearNamed (s : State) (p : Nat) : State :=
  let x := s.patch p
  s.setPatch p { x with named := none, seq := { x.seq with xinfo := x.seq.xinfo &&& 0x7FFFFFFF } }

end Sys2Proof.Machine
end

