-- ==== Sys2Proof/Machine/Crypto.lean ====
section
/-! DEFINITION. SHA-256 and the verification of ECDSA signatures on P-256, which the spec names (R447 to R452). The spec does not
define them: what stands here is FIPS 180-4 and FIPS 186-5 (PRESUMED, log 12). -/

namespace Sys2Proof.Machine

/-! ### SHA-256 -/

/-- The first 32 bits of the fractional parts of the cube roots of the first 64 primes. -/
def shaK : List Nat :=
  [0x428a2f98, 0x71374491, 0xb5c0fbcf, 0xe9b5dba5, 0x3956c25b, 0x59f111f1, 0x923f82a4, 0xab1c5ed5,
   0xd807aa98, 0x12835b01, 0x243185be, 0x550c7dc3, 0x72be5d74, 0x80deb1fe, 0x9bdc06a7, 0xc19bf174,
   0xe49b69c1, 0xefbe4786, 0x0fc19dc6, 0x240ca1cc, 0x2de92c6f, 0x4a7484aa, 0x5cb0a9dc, 0x76f988da,
   0x983e5152, 0xa831c66d, 0xb00327c8, 0xbf597fc7, 0xc6e00bf3, 0xd5a79147, 0x06ca6351, 0x14292967] ++
  [0x27b70a85, 0x2e1b2138, 0x4d2c6dfc, 0x53380d13, 0x650a7354, 0x766a0abb, 0x81c2c92e, 0x92722c85,
   0xa2bfe8a1, 0xa81a664b, 0xc24b8b70, 0xc76c51a3, 0xd192e819, 0xd6990624, 0xf40e3585, 0x106aa070,
   0x19a4c116, 0x1e376c08, 0x2748774c, 0x34b0bcb5, 0x391c0cb3, 0x4ed8aa4a, 0x5b9cca4f, 0x682e6ff3,
   0x748f82ee, 0x78a5636f, 0x84c87814, 0x8cc70208, 0x90befffa, 0xa4506ceb, 0xbef9a3f7, 0xc67178f2]

/-- A 32-bit word turned right. -/
def rotr (x n : Nat) : Nat := (x >>> n) ||| (x <<< (32 - n) % 2 ^ 32)

/-- The working variables a to h. -/
structure ShaState where
  a : Nat
  b : Nat
  c : Nat
  d : Nat
  e : Nat
  f : Nat
  g : Nat
  h : Nat
  deriving DecidableEq, Repr, Inhabited

/-- The first 32 bits of the fractional parts of the square roots of the first 8 primes. -/
def ShaState.start : ShaState :=
  ⟨0x6a09e667, 0xbb67ae85, 0x3c6ef372, 0xa54ff53a, 0x510e527f, 0x9b05688c, 0x1f83d9ab, 0x5be0cd19⟩

/-- One round, with its constant and message word added. -/
def ShaState.round (x : ShaState) (kw : Nat) : ShaState :=
  let s1 := rotr x.e 6 ^^^ rotr x.e 11 ^^^ rotr x.e 25
  let ch := (x.e &&& x.f) ^^^ ((0xffffffff ^^^ x.e) &&& x.g)
  let t1 := x.h + s1 + ch + kw
  let s0 := rotr x.a 2 ^^^ rotr x.a 13 ^^^ rotr x.a 22
  let maj := (x.a &&& x.b) ^^^ (x.a &&& x.c) ^^^ (x.b &&& x.c)
  ⟨(t1 + s0 + maj) % 2 ^ 32, x.a, x.b, x.c, (x.d + t1) % 2 ^ 32, x.e, x.f, x.g⟩

/-- Two states added word by word. -/
def ShaState.add (x y : ShaState) : ShaState :=
  let p := fun (m n : Nat) => (m + n) % 2 ^ 32
  ⟨p x.a y.a, p x.b y.b, p x.c y.c, p x.d y.d, p x.e y.e, p x.f y.f, p x.g y.g, p x.h y.h⟩

/-- The next message words, last one first, from those that there are. -/
def shaMore : Nat → List Nat → List Nat
  | 0, l => l
  | n + 1, l =>
    let g := fun (i : Nat) => l.getD i 0
    let s0 := rotr (g 14) 7 ^^^ rotr (g 14) 18 ^^^ (g 14 >>> 3)
    let s1 := rotr (g 1) 17 ^^^ rotr (g 1) 19 ^^^ (g 1 >>> 10)
    shaMore n ((g 15 + s0 + g 6 + s1) % 2 ^ 32 :: l)

/-- A number from bytes, the first one highest. -/
def beNat (l : List Byte) : Nat := l.foldl (fun n b => 256 * n + b.toNat) 0

/-- The bytes of a number, highest first. -/
def beBytes (n x : Nat) : List Byte := ((leBytes n x).reverse)

/-- A block of 64 bytes is taken in. -/
def ShaState.block (x : ShaState) (bs : List Byte) : ShaState :=
  let first := (List.range 16).map (fun i => beNat ((bs.drop (4 * i)).take 4))
  let w := (shaMore 48 first.reverse).reverse
  x.add (((shaK.zip w).map (fun p => p.1 + p.2)).foldl ShaState.round x)

/-- A message and its padding: a bit 1, zeros, and its length in bits, to whole blocks. -/
def shaPad (bs : List Byte) : List Byte :=
  bs ++ [0x80] ++ List.replicate ((119 - bs.length % 64) % 64) 0 ++ beBytes 8 (8 * bs.length)

/-- The blocks of a padded message, in turn. -/
def shaBlocks (bs : List Byte) : ShaState :=
  (List.range (bs.length / 64)).foldl (fun x i => x.block ((bs.drop (64 * i)).take 64)) ShaState.start

/-- SHA-256 (R447, R450). -/
def sha256 (bs : List Byte) : List Byte :=
  let x := shaBlocks (shaPad bs)
  [x.a, x.b, x.c, x.d, x.e, x.f, x.g, x.h].flatMap (beBytes 4)

/-! ### P-256 -/

/-- The prime of the field, the order of the group, the coefficient b, and the base point. -/
def p256 : Nat := 0xffffffff00000001000000000000000000000000ffffffffffffffffffffffff
def p256n : Nat := 0xffffffff00000000ffffffffffffffffbce6faada7179e84f3b9cac2fc632551
def p256b : Nat := 0x5ac635d8aa3a93e7b3ebbd55769886bc651d06b0cc53b0f63bce3c3e27d2604b
def p256g : Nat × Nat :=
  (0x6b17d1f2e12c4247f8bce6e563a440f277037d812deb33a0f4a13945d898c296,
   0x4fe342e2fe1a7f9b8ee7eb4a7c0f9e162bce33576b315ececbb6406837bf51f5)

/-- A power modulo `m`: the bits of the exponent from bit `k` − 1 down. -/
def powMod (m a e : Nat) : Nat → Nat
  | 0 => 1 % m
  | k + 1 =>
    let r := powMod m a (e / 2) k
    if e % 2 = 1 then r * r % m * a % m else r * r % m

/-- The inverse of a number modulo a prime of 256 bits, by Fermat's theorem. -/
def invMod (m a : Nat) : Nat := powMod m (a % m) (m - 2) 256

/-- A difference modulo `p256`. -/
def subP (x y : Nat) : Nat := (x + (p256 - y % p256)) % p256

/-- The sum of two points of the curve; none is the point at infinity. -/
def addPoint (a b : Option (Nat × Nat)) : Option (Nat × Nat) :=
  match a, b with
  | none, b => b
  | a, none => a
  | some (x1, y1), some (x2, y2) =>
    if x1 = x2 ∧ (y1 + y2) % p256 = 0 then none
    else
      let l := if x1 = x2 then (3 * x1 * x1 + (p256 - 3)) * invMod p256 (2 * y1) % p256
        else subP y2 y1 * invMod p256 (subP x2 x1) % p256
      let x3 := subP (subP (l * l) x1) x2
      some (x3, subP (l * subP x1 x3) y1)

/-- A multiple of a point: the bits of the factor from bit `k` − 1 down. -/
def mulPoint (q : Option (Nat × Nat)) (e : Nat) : Nat → Option (Nat × Nat)
  | 0 => none
  | k + 1 =>
    let r := mulPoint q (e / 2) k
    let d := addPoint r r
    if e % 2 = 1 then addPoint d q else d

/-- A point lies on the curve, with coordinates in range. -/
def onCurve (q : Nat × Nat) : Bool :=
  decide (q.1 < p256) && decide (q.2 < p256) &&
  q.2 * q.2 % p256 == (q.1 * q.1 * q.1 + (p256 - 3) * q.1 + p256b) % p256

/-- ECDSA verification of signature r, s of 32 big-endian bytes each, over a digest, by a public key of 64 bytes, x then y (R447 to
R449, R452). -/
def verifies (key digest sig : List Byte) : Bool :=
  let q := (beNat (key.take 32), beNat (key.drop 32))
  let r := beNat (sig.take 32)
  let s := beNat (sig.drop 32)
  let w := invMod p256n s
  let u1 := beNat digest * w % p256n
  let u2 := r * w % p256n
  key.length == 64 && sig.length == 64 && onCurve q && decide (0 < r) && decide (r < p256n) && decide (0 < s) && decide (s < p256n) &&
  match addPoint (mulPoint (some p256g) u1 256) (mulPoint (some q) u2 256) with
  | some (x, _) => x % p256n == r
  | none => false

end Sys2Proof.Machine
end

