-- ==== Sys2Proof/Machine/Flags.lean ====
section
/-! DEFINITION. Integer arithmetic at any width and the one flag it has, DZ (R49 to R52, R117, R159), and the comparisons. -/

namespace Sys2Proof.Machine

/-- The integer operations of ALU words and of the element's register integer operations (R78, R159). -/
inductive IntOp where
  | add | sub | and | or | xor | sll | srl | sra | slt | sltu | mul | mulh | mulhu | div | divu | rem | remu
  | min | max | minu | maxu | adds | subs
  deriving DecidableEq, Repr

/-- Clamp an exact result to the signed range of `n` bits (R50). -/
def clampS (n : Nat) (v : Int) : BitVec n :=
  if v < -(2 ^ (n - 1) : Int) then BitVec.ofInt n (-(2 ^ (n - 1) : Int))
  else if v > 2 ^ (n - 1) - 1 then BitVec.ofInt n (2 ^ (n - 1) - 1)
  else BitVec.ofInt n v

/-- The result of an integer operation at width `n` (R49 to R51). A shift amount is taken modulo the width, which is a
power of two. -/
def intOp {n : Nat} (op : IntOp) (a b : BitVec n) : BitVec n :=
  match op with
  | .add => a + b
  | .sub => a - b
  | .and => a &&& b
  | .or => a ||| b
  | .xor => a ^^^ b
  | .sll => a <<< (b.toNat % n)
  | .srl => a >>> (b.toNat % n)
  | .sra => a.sshiftRight (b.toNat % n)
  | .slt => if a.slt b then 1 else 0
  | .sltu => if a.toNat < b.toNat then 1 else 0
  | .mul => a * b
  | .mulh => BitVec.ofInt n (a.toInt * b.toInt / 2 ^ n)
  | .mulhu => BitVec.ofNat n (a.toNat * b.toNat / 2 ^ n)
  | .div => if b = 0 then BitVec.allOnes n else a.sdiv b
  | .divu => if b = 0 then BitVec.allOnes n else a / b
  | .rem => if b = 0 then a else a.srem b
  | .remu => if b = 0 then a else a % b
  | .min => if a.slt b then a else b
  | .max => if a.slt b then b else a
  | .minu => if a.toNat < b.toNat then a else b
  | .maxu => if a.toNat < b.toNat then b else a
  | .adds => clampS n (a.toInt + b.toInt)
  | .subs => clampS n (a.toInt - b.toInt)

/-- The operation divides, so a zero divisor sets DZ (R51, R52). -/
def IntOp.divides : IntOp → Bool
  | .div | .divu | .rem | .remu => true
  | _ => false

/-- The operation divided by zero (R52). -/
def intDz {n : Nat} (op : IntOp) (b : BitVec n) : Bool := op.divides && b == 0

/-- The comparisons of branches and of KCMP (R79, R120). -/
inductive Cond where
  | eq | ne | lt | ge | ltu | geu
  deriving DecidableEq, Repr

def condHolds (c : Cond) (a b : Word) : Bool :=
  match c with
  | .eq => a == b
  | .ne => a != b
  | .lt => a.slt b
  | .ge => !a.slt b
  | .ltu => decide (a.toNat < b.toNat)
  | .geu => decide (b.toNat ≤ a.toNat)

/-- The condition code of KCMP (R79). -/
def kcmpCond (c : BitVec 3) : Cond :=
  match c.toNat with
  | 0 => .eq
  | 1 => .ne
  | 2 => .lt
  | 3 => .ge
  | 4 => .ltu
  | _ => .geu

end Sys2Proof.Machine
end

