-- ==== Sys2Proof/Machine/Float.lean ====
section
/-! DEFINITION. Number formats and floating-point arithmetic (R43 to R47, R53 to R58, R64, R67, R69): values are decoded
exactly, computed exactly, and rounded once. -/

namespace Sys2Proof.Machine

/-- A floating-point layout (R43). -/
structure FFmt where
  width : Nat
  eb : Nat
  fb : Nat
  bias : Nat
  /-- E4M3: no infinities (R45) -/
  noInf : Bool
  /-- BF16: subnormals are flushed (R53) -/
  flush : Bool
  deriving DecidableEq, Repr, Inhabited

def fp64 : FFmt := ⟨64, 11, 52, 1023, false, false⟩
def fp32 : FFmt := ⟨32, 8, 23, 127, false, false⟩
def bf16 : FFmt := ⟨16, 8, 7, 127, false, true⟩
def fp16 : FFmt := ⟨16, 5, 10, 15, false, false⟩
def e4m3 : FFmt := ⟨8, 4, 3, 7, true, false⟩
def e5m2 : FFmt := ⟨8, 5, 2, 15, false, false⟩

/-- The layout of fmt codes 0 to 5 (R95). -/
def fmtOf (f : Nat) : FFmt := [fp64, fp32, bf16, fp16, e4m3, e5m2].getD f fp32

/-- The layout that the ft field names (R92). -/
def ftOf (f : BitVec 2) : FFmt := [fp32, fp16, bf16, fp64].getD f.toNat fp32

/-- A decoded value: NaN, an infinity, or (−1)^s · m · 2^e; m = 0 is a signed zero. -/
inductive FV where
  | nan
  | inf (s : Bool)
  | fin (s : Bool) (m : Nat) (e : Int)
  deriving DecidableEq, Repr, Inhabited

/-- Rounding modes (R54). -/
inductive Rm where
  | rne | rtz | rup | rdn | satf
  deriving DecidableEq, Repr, Inhabited

def rmOf (r : BitVec 3) : Rm :=
  match r.toNat with
  | 0 => .rne
  | 1 => .rtz
  | 2 => .rup
  | 3 => .rdn
  | _ => .satf

/-- Decode a pattern (R44, R45); a BF16 subnormal is zero with its sign (R53). -/
def FFmt.decode (f : FFmt) (x : Nat) : FV :=
  let s := x / 2 ^ (f.width - 1) % 2 == 1
  let e := x / 2 ^ f.fb % 2 ^ f.eb
  let fr := x % 2 ^ f.fb
  if e = 2 ^ f.eb - 1 ∧ f.noInf = false then (if fr = 0 then .inf s else .nan)
  else if e = 2 ^ f.eb - 1 ∧ fr = 2 ^ f.fb - 1 then .nan
  else if e = 0 then .fin s (if f.flush then 0 else fr) (1 - (f.bias : Int) - f.fb)
  else .fin s (2 ^ f.fb + fr) ((e : Int) - f.bias - f.fb)

/-- The canonical NaN (R46). -/
def FFmt.nan (f : FFmt) : Nat :=
  if f.noInf then 2 ^ (f.width - 1) - 1 else (2 ^ f.eb - 1) * 2 ^ f.fb + 2 ^ (f.fb - 1)

def FFmt.signBit (f : FFmt) (s : Bool) : Nat := if s then 2 ^ (f.width - 1) else 0

/-- The largest finite magnitude, as a mantissa and its exponent (R45, R55). -/
def FFmt.maxMant (f : FFmt) : Nat := if f.noInf then 2 ^ (f.fb + 1) - 2 else 2 ^ (f.fb + 1) - 1
def FFmt.maxExp (f : FFmt) : Int := (if f.noInf then (2 ^ f.eb - 1 : Int) else 2 ^ f.eb - 2) - f.bias - f.fb

/-- The pattern of the largest finite magnitude. -/
def FFmt.maxPat (f : FFmt) : Nat :=
  if f.noInf then 2 ^ (f.width - 1) - 2 else (2 ^ f.eb - 2) * 2 ^ f.fb + (2 ^ f.fb - 1)

/-- The pattern of an infinity; in E4M3 the NaN with the result's sign stands in for it (R56). -/
def FFmt.infPat (f : FFmt) (s : Bool) : Nat :=
  f.signBit s + (if f.noInf then 2 ^ (f.width - 1) - 1 else (2 ^ f.eb - 1) * 2 ^ f.fb)

/-- What a mode gives for an overflow (R55 to R57). -/
def FFmt.overflow (f : FFmt) (rm : Rm) (s : Bool) : Nat :=
  let toInf := match rm with
    | .rne => true
    | .rtz => false
    | .rup => !s
    | .rdn => s
    | .satf => false
  if toInf then f.infPat s else f.signBit s + f.maxPat

/-- Whether a magnitude is rounded up, from its kept part, what was cut (`rem` of 2^n) and whether anything infinitesimal
lies above it. -/
def roundUp (rm : Rm) (s odd : Bool) (rem n : Nat) (t : Bool) : Bool :=
  let inexact := rem != 0 || t
  let twice := 2 * rem
  let gt := decide (twice > 2 ^ n) || (twice == 2 ^ n && t)
  let eq := twice == 2 ^ n && !t && n != 0
  match rm with
  | .rne | .satf => (gt && n != 0) || (eq && odd)
  | .rtz => false
  | .rup => inexact && !s
  | .rdn => inexact && s

/-- Round m · 2^e (infinitesimally more when `t`) to a multiple of 2^q: the multiple. -/
def roundAt (rm : Rm) (s : Bool) (m : Nat) (e q : Int) (t : Bool) : Nat :=
  if e < q then
    let n := (q - e).toNat
    let hi := m / 2 ^ n
    hi + (roundUp rm s (hi % 2 == 1) (m % 2 ^ n) n t).toNat
  else
    let hi := m * 2 ^ (e - q).toNat
    hi + (roundUp rm s (hi % 2 == 1) 0 0 t).toNat

/-- r · 2^q exceeds x · 2^y. -/
def exceeds (r : Nat) (q : Int) (x : Nat) (y : Int) : Bool :=
  if y ≤ q then decide (r * 2 ^ (q - y).toNat > x) else decide (r > x * 2 ^ (y - q).toNat)

/-- Round an exact magnitude with a sign into a format (R53 to R57). -/
def FFmt.round (f : FFmt) (rm : Rm) (s : Bool) (m : Nat) (e : Int) (t : Bool) : Nat :=
  if m = 0 then f.signBit s
  else
    let lo : Int := 1 - (f.bias : Int) - f.fb
    let q0 : Int := (Nat.log2 m : Int) + e - f.fb
    let q := if f.flush then q0 else max q0 lo
    let r0 := roundAt rm s m e q t
    let (r, q) := if r0 = 2 ^ (f.fb + 1) then (2 ^ f.fb, q + 1) else (r0, q)
    if exceeds r q f.maxMant f.maxExp then f.overflow rm s
    else if r < 2 ^ f.fb then f.signBit s + r
    else if q < lo then f.signBit s
    else f.signBit s + (q - lo + 1).toNat * 2 ^ f.fb + (r - 2 ^ f.fb)

/-- The pattern of a value, rounded (R46, R56, R57). -/
def FFmt.encode (f : FFmt) (rm : Rm) : FV → Nat
  | .nan => f.nan
  | .inf s => if rm = .satf then f.signBit s + f.maxPat else f.infPat s
  | .fin s m e => f.round rm s m e false

/-- The sign of an exact zero that arises from a sum (R58). -/
def zeroSign (rm : Rm) (same : Option Bool) : Bool :=
  match same with
  | some s => s
  | none => rm == .rdn

/-- A signed multiple of 2^g, for g at or below the value's exponent. -/
def FV.scaled : FV → Int → Int
  | .fin s m e, g => (if s then -1 else 1) * ((m * 2 ^ (e - g).toNat : Nat) : Int)
  | _, _ => 0

/-- The exact sum of two values, with the sign of a zero by R58. -/
def FV.add (rm : Rm) : FV → FV → FV
  | .nan, _ => .nan
  | _, .nan => .nan
  | .inf s, .inf t => if s = t then .inf s else .nan
  | .inf s, .fin _ _ _ => .inf s
  | .fin _ _ _, .inf t => .inf t
  | .fin s m e, .fin t n g =>
    let h := min e g
    let v := (FV.fin s m e).scaled h + (FV.fin t n g).scaled h
    if v = 0 then .fin (zeroSign rm (if m = 0 ∧ n = 0 ∧ s = t then some s else none)) 0 h
    else .fin (decide (v < 0)) v.natAbs h

def FV.neg : FV → FV
  | .nan => .nan
  | .inf s => .inf (!s)
  | .fin s m e => .fin (!s) m e

/-- The exact product (R58). -/
def FV.mul : FV → FV → FV
  | .nan, _ => .nan
  | _, .nan => .nan
  | .inf s, .inf t => .inf (s != t)
  | .inf s, .fin t n _ => if n = 0 then .nan else .inf (s != t)
  | .fin s m _, .inf t => if m = 0 then .nan else .inf (s != t)
  | .fin s m e, .fin t n g => .fin (s != t) (m * n) (e + g)

/-- a / b, rounded once (R47, R67). -/
def FFmt.div (f : FFmt) (rm : Rm) : FV → FV → Nat
  | .nan, _ => f.nan
  | _, .nan => f.nan
  | .inf _, .inf _ => f.nan
  | .inf s, .fin t _ _ => f.infPat (s != t)
  | .fin s _ _, .inf t => f.signBit (s != t)
  | .fin s m e, .fin t n g =>
    if n = 0 then (if m = 0 then f.nan else f.infPat (s != t))
    else if m = 0 then f.signBit (s != t)
    else
      let k := f.fb + 4 + Nat.log2 n
      f.round rm (s != t) (m * 2 ^ k / n) (e - g - k) (m * 2 ^ k % n != 0)

/-- The integer square root, bit by bit from bit `n`. -/
def isqrt (x : Nat) : Nat → Nat → Nat
  | 0, r => if (r + 1) * (r + 1) ≤ x then r + 1 else r
  | n + 1, r => isqrt x n (if (r + 2 ^ (n + 1)) * (r + 2 ^ (n + 1)) ≤ x then r + 2 ^ (n + 1) else r)

/-- The square root, correctly rounded (R162). -/
def FFmt.sqrt (f : FFmt) (rm : Rm) : FV → Nat
  | .nan => f.nan
  | .inf s => if s then f.nan else f.infPat false
  | .fin s m e =>
    if m = 0 then f.signBit s
    else if s then f.nan
    else
      let (m, e) := if e % 2 = 0 then (m, e) else (2 * m, e - 1)
      let k := f.fb + 4
      let x := m * 2 ^ (2 * k)
      let r := isqrt x (Nat.log2 x / 2 + 1) 0
      f.round rm false r (e / 2 - k) (r * r != x)

/-- A key that orders values: −0 below +0, and NaN above +infinity (R196). Negative, zero or positive rank first, then the
signed magnitude over a common scale. -/
def FV.lt : FV → FV → Bool
  | .nan, _ => false
  | _, .nan => true
  | .inf s, .inf t => s && !t
  | .inf s, .fin _ _ _ => s
  | .fin _ _ _, .inf t => !t
  | .fin s m e, .fin t n g =>
    let h := min e g
    let a := (FV.fin s m e).scaled h
    let b := (FV.fin t n g).scaled h
    decide (a < b) || (a == b && s && !t)

/-- Numerically equal: NaN equals nothing, −0 equals +0 (R162). -/
def FV.eq : FV → FV → Bool
  | .inf s, .inf t => s == t
  | .fin s m e, .fin t n g =>
    let h := min e g
    (FV.fin s m e).scaled h == (FV.fin t n g).scaled h
  | _, _ => false

def FV.isNan : FV → Bool
  | .nan => true
  | _ => false

/-- Numerically less: false with a NaN; −0 is not less than +0 (R162). -/
def FV.less (a b : FV) : Bool := !a.isNan && !b.isNan && a.lt b && !a.eq b

/-- The floating operations of opcodes 0x16 to 0x20 (R161). -/
inductive FpOp where
  | add | sub | mul | div | mac | min | max | sqrt | eq | lt | le
  deriving DecidableEq, Repr

/-- The result pattern of a floating operation on patterns (R161, R162); `c` is the third operand of FMAC. -/
def FFmt.op (f : FFmt) (op : FpOp) (rm : Rm) (a b c : Nat) : Nat :=
  let x := f.decode a
  let y := f.decode b
  match op with
  | .add => f.encode rm (x.add rm y)
  | .sub => f.encode rm (x.add rm y.neg)
  | .mul => f.encode rm (x.mul y)
  | .div => f.div rm x y
  | .mac => f.encode rm ((f.decode c).add rm (x.mul y))
  | .min => if x.isNan then f.encode rm y else if y.isNan then f.encode rm x
            else if x.lt y then f.encode rm x else f.encode rm y
  | .max => if x.isNan then f.encode rm y else if y.isNan then f.encode rm x
            else if x.lt y then f.encode rm y else f.encode rm x
  | .sqrt => f.sqrt rm x
  | .eq => (x.eq y).toNat
  | .lt => (x.less y).toNat
  | .le => (x.less y || x.eq y).toNat

/-- Round a value to an integer with a mode (R69). -/
def roundInt (rm : Rm) (s : Bool) (m : Nat) (e : Int) : Int :=
  (if s then -1 else 1) * ((roundAt rm s m e 0 false : Nat) : Int)

end Sys2Proof.Machine
end

