-- ==== Sys2Proof/Machine/Translate.lean ====
section
/-! DEFINITION. What a read finds (R306), frame tables, tile tables and the checks of an access (R133, R207, R208, R340 to
R349). -/

namespace Sys2Proof.Machine

/-! ### Visibility buffers -/

/-- The entries of a visibility buffer, oldest first. -/
def Ordering.buffer (o : Ordering) (v : VisId) : List VisEntry :=
  match o.vis.find? (fun x => x.1 == v) with
  | some x => x.2
  | none => []

/-- The youngest entry of a buffer that holds a byte, with the byte. -/
def youngest (a : Nat) : List VisEntry → Option (VisEntry × Byte)
  | [] => none
  | x :: r =>
    match youngest a r, x.bytes.find? (fun b => b.1 == a) with
    | some y, some b => if y.1.age < x.age then some (x, b.2) else some y
    | some y, none => some y
    | none, some b => some (x, b.2)
    | none, none => none

/-- The first buffer of a list that holds a byte; else backing memory. The byte and its age. -/
def State.readVis (s : State) (a : Nat) : List VisId → Byte × Nat
  | [] => (s.mem.get a, smGet 0 s.ord.ages a)
  | v :: r =>
    match youngest a (s.ord.buffer v) with
    | some (x, b) => (b, x.age)
    | none => s.readVis a r

/-- A table walk's and a host's view: the module's buffer and wider (R306, R344). -/
def State.readDev (s : State) (a : Nat) : Nat → List Byte
  | 0 => []
  | n + 1 => (s.readVis a [.dev, .fab]).1 :: s.readDev (a + 1) n

/-- A 64-bit word as a walk reads it. -/
def State.readWordDev (s : State) (a : Nat) : DWord := BitVec.ofNat 64 (leNat (s.readDev a 8))

/-! ### Walks (R340 to R347) -/

/-- Bits [hi:lo] of a 64-bit entry, as a number. -/
def bits (x : DWord) (hi lo : Nat) : Nat := x.toNat / 2 ^ lo % 2 ^ (hi - lo + 1)

/-- What a translation answers. -/
inductive Tr (α : Type) where
  | ok (x : α)
  | fault (c : Cause) (sub : Nat)
  /-- it waits for a frame or a node that a migration has not pulled (R345, R357) -/
  | wait
  deriving DecidableEq, Repr

def Tr.bind {α β : Type} (t : Tr α) (f : α → Tr β) : Tr β :=
  match t with
  | .ok x => f x
  | .fault c u => .fault c u
  | .wait => .wait

/-- NodeOf (R341, R345): the global address of the node. -/
def nodeOf (pt : Part) (x : DWord) : Tr Nat :=
  if bits x 63 63 ≠ 0 ∨ bits x 12 6 ≠ 0 ∨ bits x 4 3 ≠ 0 ∨ bits x 5 5 = 0 ∨ bits x 52 51 = 1 ∨ bits x 52 51 = 3 then
    .fault .xlate 1
  else if bits x 2 2 = 0 then .fault .xlate 1
  else if bits x 62 62 = 1 then .wait
  else
    let pa := bits x 50 16 * 65536 + bits x 15 13 * 8192
    if bits x 52 51 = 2 then
      (if pt.remoteWalk then .ok (remoteAddr (bits x 61 53) pa) else .fault .xlate 2)
    else .ok pa

/-- A frame entry breaks its table (R342, R343); a tile entry, given with the tile's size in bytes, has TABLE and LARGE 0, and its
PA is aligned to the tile. -/
def badFrame (x : DWord) (tile : Option Nat) : Bool :=
  bits x 63 63 != 0 || bits x 52 51 == 3 || bits x 7 6 == 3 || (bits x 5 5 == 1 && bits x 52 51 == 1) ||
  (match tile with
   | some n => bits x 4 4 == 1 || bits x 3 3 == 1 || bits x 50 8 * 256 % n != 0
   | none =>
   if bits x 3 3 == 1 then bits x 20 8 != 0 else bits x 15 8 != 0)

/-- An entry of a table node, as a walk reads it: on this module at `.dev`; on another module what its RDR has brought, until
which the walk waits (R344, R345, R411). The walker's requests stand under the partition's command processor. -/
def State.readNode (s : State) (n a : Nat) : Tr DWord :=
  if remoteBase ≤ a ∧ a < vaultBase then
    match s.fabric.asked.find? (fun q => q.agent == .cmdProc n && q.acc == none && q.addr == a && q.len == 8 && !q.write) with
    | some q => match q.st with
      | .data bs => .ok (BitVec.ofNat 64 (leNat bs))
      | .failed c sub => .fault c sub
      | .sent => .wait
    | none => .wait
  else .ok (s.readWordDev a)

/-- Level `l` to 3 of the frame table from a node on: the level-3 entry (R344). `fuel` is the number of levels left. -/
def State.walkFrom (s : State) (n : Nat) (fa : Nat) : Nat → Nat → Tr DWord
  | 0, _ => .fault .xlate 1
  | fuel + 1, node =>
    let l := 3 - fuel
    let idx := fa / 2 ^ (46 - 10 * l) % 1024
    (s.readNode n (node + 8 * idx)).bind (fun x =>
      if bits x 0 0 = 0 then .fault .xlate 0
      else if fuel = 0 then
        (if bits x 1 1 = 0 ∨ badFrame x none then .fault .xlate 1
         else if bits x 3 3 = 1 then
           (s.readNode n (node + 8 * (idx / 32 * 32))).bind (fun y => if y ≠ x then .fault .xlate 1 else .ok x)
         else .ok x)
      else if bits x 1 1 = 1 then .fault .xlate 1
      else (nodeOf (s.part n) x).bind (fun m => s.walkFrom n fa fuel m))

/-- A walk of the partition's frame table (R344). -/
def State.walk (s : State) (part : Nat) (fa : DWord) : Tr DWord :=
  let pt := s.part part
  match pt.root with
  | none => .fault .xlate 0
  | some r => s.walkFrom part fa.toNat 4 r

/-- The compute die of a patch (R2). -/
def dieOf (p : Nat) : Nat := p % 40 / 10 + 4 * (p / 40 / 8)

/-- The die whose shared cache and walker serve a memory port (R348). -/
def CacheSite.onDie : CacheSite → Nat
  | .elem p _ => dieOf p
  | .port p _ => dieOf p
  | .die d => d

/-- The cached entry that covers an address: the memory port's own cache first, then its die's shared one (R348). -/
def State.cached (s : State) (site : CacheSite) (part : Nat) (tens : Option Nat) (a : Nat) : Option DWord :=
  let at_ := fun (k : CacheSite) => s.cache.find? (fun c =>
    c.site == k && c.part == part && c.tens == tens && decide (c.lo ≤ a) && decide (a ≤ c.hi))
  match at_ site with
  | some c => some c.entry
  | none => (at_ (.die site.onDie)).map (fun c => c.entry)

/-- The kind of a frame (R342). -/
def frameKind (x : DWord) : FrameKind :=
  match bits x 7 6 with
  | 0 => .so
  | 1 => .rc
  | _ => .uo

/-- A physical address is in no HBM stack that is there and unfenced (R338, R344, R443). -/
def State.noStack (s : State) (pa : Nat) : Bool :=
  decide (pa / 2 ^ 36 > 11) || decide (pa % 2 ^ 36 ≥ 48 * 2 ^ 30) || s.device.fenced.hbm.contains (pa / 2 ^ 36)

/-- Who asks for a translation: a plain access, an owner step, which does not wait for a frame under pull (R357), or a host,
which alone may reach TABLE and protected frames beside walks (R344). -/
inductive Asker where
  | plain | owner | host
  deriving DecidableEq, Repr

/-- The checks of an access to the frame of an entry at physical byte `pa` (R344): the place, or the fault. -/
def State.checkFrame (s : State) (part : Nat) (x : DWord) (pa : Nat) (who : Asker) : Tr Place :=
  let k := frameKind x
  let host := who == .host
  match bits x 52 51 with
  | 1 => if (bits x 2 2 = 1 ∨ bits x 4 4 = 1) ∧ host = false then .fault .perm 1
         else if bits x 62 62 = 1 ∧ who ≠ .owner then .wait
         else .ok ⟨hostBase + pa, k, true, false⟩
  | 2 => if (bits x 2 2 = 1 ∨ bits x 4 4 = 1) ∧ host = false then .fault .perm 1
         else if bits x 62 62 = 1 ∧ who ≠ .owner then .wait
         else .ok ⟨remoteAddr (bits x 61 53) pa, k, false, bits x 5 5 == 1⟩
  | _ =>
    if !(s.part part).frames.contains (pa / 65536) && !s.noStack pa then .fault .perm 0
    else if (bits x 2 2 = 1 ∨ bits x 4 4 = 1) ∧ host = false then .fault .perm 1
    else if s.noStack pa then .fault .xlate 1
    else if bits x 62 62 = 1 ∧ who ≠ .owner then .wait
    else .ok ⟨pa, k, false, bits x 5 5 == 1⟩

/-- The physical byte that a frame entry gives a flat address (R340). -/
def framePa (x : DWord) (fa : Nat) : Nat :=
  bits x 50 8 * 256 + (if bits x 3 3 = 1 then fa % 2 ^ 21 else fa % 2 ^ 16)

/-- A time, where there is one, is not after another. -/
def notAfter (g : Nat) (t : Option Nat) : Bool :=
  match t with
  | some t => decide (t ≤ g)
  | none => false

/-- An access by way of a memory port waited for a pull at time `g` in ns: of an instance of the element or a command that it issued, of the
stream port, or of a sequencer of the die. The command processor's and the host's, which die 0 serves, note no time: theirs waited if it is
that time now (R345; log 41). -/
def State.waitedAt (s : State) (g : Nat) : CacheSite → Bool
  | .elem p e => (s.elem p e).insts.any (fun i => notAfter g i.pullAt) ||
      s.engines.any (fun x => x.p == p && x.e == e && x.pulls.any (fun y => decide (y.2 ≤ g)))
  | .port p k => notAfter g (s.port p k).pullAt
  | .die d => s.patches.any (fun x => dieOf x.1 == d && notAfter g x.2.seq.pullAt) || (d == 0 && s.clock.ns == g)

/-- A walk that met a node under pull gives up, once TABLE_MIGRATE has said so, for the accesses that waited for it on its die; an access that
comes after that waits for a walk of its own (R345). -/
def State.orGiveUp (s : State) (site : CacheSite) (part : Nat) (tens : Option Nat) (page : Nat) (t : Tr DWord) : Tr DWord :=
  let gone := fun (w : Walk) => w.die == site.onDie && w.part == part && w.tens == tens && w.page == page && (match w.gaveUp with
    | some g => s.waitedAt g site
    | none => false)
  match t with
  | .wait => if s.walks.any gone then .fault .xlate 3 else .wait
  | x => x

/-- A walker has room for one more walk: at most 64 are in flight on a die, and misses to the same entry share one (R348). -/
def State.walkRoom (s : State) (die part : Nat) (tens : Option Nat) (page : Nat) : Bool :=
  let fly := s.walks.filter (fun w => w.die == die && w.gaveUp.isNone)
  decide (fly.length < 64) || fly.any (fun w => w.part == part && w.tens == tens && w.page == page)

/-- The frame entry of a flat address, from a cache or by a walk (R344, R348). -/
def State.frameEntry (s : State) (site : CacheSite) (part : Nat) (fa : DWord) : Tr DWord :=
  match s.cached site part none fa.toNat with
  | some x => .ok x
  | none =>
    if s.walkRoom site.onDie part none (fa.toNat / 65536) then s.orGiveUp site part none (fa.toNat / 65536) (s.walk part fa) else .wait

/-- Translation and permission of a flat access by way of a memory port's caches (R133, R344, R348). -/
def State.translateAt (s : State) (site : CacheSite) (part : Nat) (fa : DWord) (who : Asker) : Tr Place :=
  if bits fa 63 56 ≠ 0 then .fault .xlate 0
  else (s.frameEntry site part fa).bind (fun x => s.checkFrame part x (framePa x fa.toNat) who)

/-- Translation of an access of the host, the command processor or a manager's command; the shared cache of die 0 serves them
(DESIGN CHOICE, log 41). -/
def State.translate (s : State) (part : Nat) (fa : DWord) (who : Asker) : Tr Place := s.translateAt (.die 0) part fa who

/-- Translation of an access of a patch's sequencer, by its die's shared cache (R348). -/
def State.seqTranslate (s : State) (p : Nat) (fa : DWord) (who : Asker) : Tr Place :=
  s.translateAt (.die (dieOf p)) (s.partOf p) fa who

/-! ### Tensor space (R346, R347) -/

/-- A tensor descriptor's fields that the layout unit uses (R291, R346). -/
structure Tensor where
  fmt : Nat
  order : Nat
  nd : Nat
  l0 : Nat
  l1 : Nat
  ext : List Nat
  ttab : DWord
  deriving DecidableEq, Repr, Inhabited

/-- Element size of fmt 0 to 8, in bytes (R346). -/
def fmtBytes (f : Nat) : Nat := [8, 4, 2, 2, 1, 1, 1, 1, 4].getD f 1

def ceilDiv (a b : Nat) : Nat := (a + b - 1) / b

/-- The tile and the byte offset of coordinates (R346). -/
def Tensor.locate (t : Tensor) (c : List Nat) : Nat × Nat :=
  let g := fun (l : List Nat) i => l.getD i 0
  let e := fun i => t.ext.getD i 1
  let tt0 := ceilDiv (e 0) (2 ^ t.l0)
  let tt1 := ceilDiv (e 1) (2 ^ t.l1)
  let tile := g c 0 / 2 ^ t.l0 + tt0 * (g c 1 / 2 ^ t.l1 + tt1 * (g c 2 + e 2 * g c 3))
  let u := g c 0 % 2 ^ t.l0
  let v := g c 1 % 2 ^ t.l1
  (tile, fmtBytes t.fmt * (if t.order = 0 then v * 2 ^ t.l0 + u else u * 2 ^ t.l1 + v))

/-- A descriptor that raises ILLOP with sub-cause 1 at its first use (R346). -/
def Tensor.bad (t : Tensor) : Bool :=
  let b := fmtBytes t.fmt * 2 ^ (t.l0 + t.l1)
  let e := fun i => t.ext.getD i 1
  decide (t.fmt > 8) || decide (b < 256) || decide (b > 2 ^ 21) ||
  decide (ceilDiv (e 0) (2 ^ t.l0) * ceilDiv (e 1) (2 ^ t.l1) * e 2 * e 3 > 2 ^ 20)

/-- The size of a tile in bytes. -/
def Tensor.tileBytes (t : Tensor) : Nat := fmtBytes t.fmt * 2 ^ (t.l0 + t.l1)

/-- The place of the tile table's root: its frame has TABLE = 1 and passes the checks of R344 for a walk read; one on another
module is read under the permission of R345 (R347; log 41). -/
def State.tileRoot (s : State) (site : CacheSite) (part : Nat) (t : Tensor) : Tr Nat :=
  if bits t.ttab 63 56 ≠ 0 then .fault .xlate 0
  else (s.frameEntry site part t.ttab).bind (fun x =>
    if bits x 4 4 = 0 then .fault .xlate 1
    else if bits x 52 51 = 2 ∧ (s.part part).remoteWalk = false then .fault .xlate 2
    else (s.checkFrame part x (framePa x t.ttab.toNat) .host).bind (fun pl => .ok pl.addr))

/-- The leaf node that holds a tile's entry (R347). -/
def State.tileLeaf (s : State) (part root tile : Nat) : Tr Nat :=
  (s.readNode part (root + 8 * (tile / 1024))).bind (fun n =>
    if bits n 0 0 = 0 then .fault .xlate 0
    else if bits n 1 1 = 1 then .fault .xlate 1
    else nodeOf (s.part part) n)

/-- The tile entry of a tile (R347). -/
def State.walkTile (s : State) (site : CacheSite) (part : Nat) (t : Tensor) (tile : Nat) : Tr DWord :=
  (s.tileRoot site part t).bind (fun root => (s.tileLeaf part root tile).bind (fun leaf =>
    (s.readNode part (leaf + 8 * (tile % 1024))).bind (fun y =>
      if bits y 0 0 = 0 then .fault .xlate 0
      else if bits y 1 1 = 0 ∨ badFrame y (some t.tileBytes) then .fault .xlate 1
      else .ok y)))

/-- The address of the node entry of another module at which a flat walk stands, if it stands at one (R345). -/
def State.walkStands (s : State) (n : Nat) (fa : Nat) : Nat → Nat → Option Nat
  | 0, _ => none
  | fuel + 1, node =>
    let idx := fa / 2 ^ (46 - 10 * (3 - fuel)) % 1024
    let a := node + 8 * idx
    let far := fun (b : Nat) => if remoteBase ≤ b ∧ b < vaultBase then some b else none
    match s.readNode n a with
    | .wait => far a
    | .fault _ _ => none
    | .ok x =>
      if bits x 0 0 = 0 then none
      else if fuel = 0 then
        (if bits x 3 3 = 1 then match s.readNode n (node + 8 * (idx / 32 * 32)) with
          | .wait => far (node + 8 * (idx / 32 * 32))
          | _ => none
         else none)
      else match nodeOf (s.part n) x with
        | .ok m => s.walkStands n fa fuel m
        | _ => none

/-- The same for a tile's walk. -/
def State.tileStands (s : State) (site : CacheSite) (part : Nat) (t : Tensor) (tile : Nat) : Option Nat :=
  let far := fun (b : Nat) => if remoteBase ≤ b ∧ b < vaultBase then some b else none
  match s.tileRoot site part t with
  | .ok root => match s.tileLeaf part root tile with
    | .ok leaf => far (leaf + 8 * (tile % 1024))
    | .wait => far (root + 8 * (tile / 1024))
    | _ => none
  | _ => none

/-- Translation of a tensor access (R346, R347): the place, and the tile and offset for its fault address. -/
def State.translateTensor (s : State) (site : CacheSite) (part tens : Nat) (t : Tensor) (c : List Nat) : Tr Place × DWord :=
  let lim := (List.range 4).any (fun i => decide (c.getD i 0 ≥ t.ext.getD i 1))
  let (tile, off) := t.locate c
  let fa := BitVec.ofNat 64 (at64 tens 44 + at64 (tile % 2 ^ 20) 24 + off % 2 ^ 24)
  if lim then (.fault .xlate 0, fa)
  else
    let e : Tr DWord := match s.cached site part (some tens) tile with
      | some x => .ok x
      | none =>
        if s.walkRoom site.onDie part (some tens) tile then s.orGiveUp site part (some tens) tile (s.walkTile site part t tile) else .wait
    (e.bind (fun x => s.checkFrame part x (bits x 50 8 * 256 + off) .plain), fa)

/-! ### Pointers (R207, R208) -/

/-- A fault of a pointer check, or where the effective pointer leads. -/
structure Ptr where
  eff : DWord
  res : Tr Place
  deriving DecidableEq, Repr

/-- The effective address of pointer `v` plus `off` bytes, for an access of `n` bytes aligned to `align`, made by element `e`
of patch `p`: the checks of R208 in their order. The sum changes the VA or FA field alone; what the field holds
for a sum that it cannot hold is free (log 53). -/
def State.pointer (s : State) (p e : Nat) (v : DWord) (off : Int) (align n : Nat) (who : Asker) : Ptr :=
  let sp := bits v 63 62
  let flat := sp == 2
  let mbz := if sp = 0 then bits v 61 19 else if sp = 1 then bits v 61 35 else bits v 61 56
  let w := if flat then 56 else 19
  let a : Int := (bits v (w - 1) 0 : Int) + off
  let eff : DWord := BitVec.ofNat 64 (v.toNat / 2 ^ w * 2 ^ w + (if 0 ≤ a ∧ a < 2 ^ w then a.toNat else Config.outside v off % 2 ^ w))
  if sp = 3 ∨ mbz ≠ 0 then ⟨eff, .fault .illop 2⟩
  else if a % align ≠ 0 then ⟨eff, .fault .align 0⟩
  else if a < 0 ∨ a ≥ (if flat then (2 ^ 56 : Int) else 0x80000) ∨ a + n > (if flat then (2 ^ 56 : Int) else 0x80000) then
    ⟨eff, if flat then .fault .xlate 0 else .fault .illop 2⟩
  else if sp = 1 then
    let lp := bits v 34 25
    match s.loadOf p with
    | none => ⟨eff, .fault .xlate 0⟩
    | some l =>
      if l.patches.length ≤ lp then ⟨eff, .fault .xlate 0⟩
      else ⟨eff, .ok ⟨vaultAddr (l.patches.getD lp 0) (bits v 24 19) a.toNat, .rc, false, true⟩⟩
  else if sp = 0 then ⟨eff, .ok ⟨vaultAddr p e a.toNat, .rc, false, true⟩⟩
  else ⟨eff, s.translateAt (.elem p e) (s.partOf p) (BitVec.ofNat 64 a.toNat) who⟩

end Sys2Proof.Machine
end

