-- ==== Sys2Proof/Machine/Order.lean ====
section
/-! DEFINITION. The ordering machine (R302 to R322): chains, what "performed" means, when a step is enabled, and the effects
of the Buffer, Place, Drain, Read and Owner steps. -/

namespace Sys2Proof.Machine

/-! ### Agents and their chains (R303) -/

/-- The patch an agent lies in. -/
def State.agentPatch (s : State) : AgentId → Option Nat
  | .elem p _ => some p
  | .seq p => some p
  | .port p _ => some p
  | .engine n => (s.engines.find? (fun x => x.n == n)).map (fun x => x.p)
  | _ => none

/-- The partition an agent works for. -/
def State.agentPart (s : State) (a : AgentId) : Nat :=
  match a with
  | .host vf => ((smFind s.vfs vf).bind (fun v => v.part)).getD 0
  | .cmdProc n => n
  | .engine n => ((s.engines.find? (fun x => x.n == n)).map (fun x => x.part)).getD 0
  | _ => match s.agentPatch a with
    | some p => s.partOf p
    | none => 0

/-- An agent's chain of visibility buffers, narrowest first (R303). An agent of another module has only the fabric's. -/
def State.chain (s : State) (a : AgentId) : List VisId :=
  match a with
  | .remote _ => [.fab]
  | _ => match s.agentPatch a with
    | some p => [.patch p, .part (s.agentPart a), .dev, .fab]
    | none => [.part (s.agentPart a), .dev, .fab]

/-- How wide a buffer is. -/
def VisId.rank : VisId → Nat
  | .patch _ => 1
  | .part _ => 2
  | .dev => 3
  | .fab => 4

/-- How wide a scope is; `.elem` has no buffer. -/
def Scope.rank : Scope → Nat
  | .elem => 0
  | .patch => 1
  | .part => 2
  | .dev => 3
  | .fab => 4

/-- The scope code as a scope (R85). -/
def scopeOf (s : BitVec 3) : Scope :=
  match s.toNat with
  | 0 => .elem
  | 1 => .patch
  | 2 => .part
  | 3 => .dev
  | _ => .fab

/-- The buffer that a store of an agent at a scope is placed in: its instance of the scope, or the narrowest buffer it has
(R307; R303 treats `.patch` as `.part` for a host and for the command processor). -/
def State.placeIn (s : State) (a : AgentId) (sc : Scope) : VisId :=
  ((s.chain a).find? (fun v => decide (Scope.rank sc ≤ VisId.rank v))).getD .fab

/-! ### Performed (R309) -/

/-- The bytes an access touches. -/
def Access.bytes (x : Access) : List Nat :=
  match x.op with
  | .load a n _ => (List.range n).map (a + ·)
  | .store st => st.bytes.map (fun b => b.1)
  | .owner _ _ => (List.range 8).map (x.place.addr / 8 * 8 + ·)

/-- The words an access touches, by its bytes and its marks. -/
def Access.words (x : Access) : List Nat :=
  match x.op with
  | .load a n _ => [a / 8, (a + n - 1) / 8]
  | .store st => st.bytes.map (fun b => b.1 / 8) ++ st.marks.map (fun m => m.1)
  | .owner _ _ => [x.place.addr / 8]

/-- Two accesses touch one byte or one word's mark. -/
def overlap (x y : Access) : Bool :=
  x.bytes.any (fun b => y.bytes.contains b) ||
  (match x.op, y.op with
   | .store a, .store b => a.marks.any (fun m => b.marks.any (fun k => k.1 == m.1))
   | _, _ => false)

/-- The instance that an element makes an access for while the instance runs (R302). -/
def Access.inst (x : Access) : Option Nat := x.made.map (fun m => m.1)

/-- A store of scope `.elem` that is in its store buffer is performed at `.elem` (R307). -/
def Access.atElem (x : Access) (sc : Scope) : Bool := sc == .elem && x.scope == .elem && x.buffered

/-- Every access of an agent that has entered with a number below `n` is performed at a scope: none stands in its issue queue or
its store buffers, and no buffer of its chain narrower than the scope holds one or the entry that removed it (R309, R312). What an
element's instances make before their commits enters when it reads (R302). -/
def State.allPerformed (s : State) (a : AgentId) (n : Nat) (sc : Scope) : Bool :=
  s.ord.accs.all (fun x => !(x.agent == a && decide (x.id < n) && x.inst.isNone) || x.atElem sc) &&
  (s.chain a).all (fun v => decide (Scope.rank sc ≤ VisId.rank v) ||
    (s.ord.buffer v).all (fun e => e.ids.all (fun i => !(i.1 == a && decide (i.2 < n)))))

/-! ### When a step is enabled (R307, R310 to R313) -/

/-- An acquire or a release orders accesses to UO frames only at `.dev` or `.fab` (R311). -/
def ordersUo (sc : Scope) (k : FrameKind) : Bool := k != .uo || sc == .dev || sc == .fab

/-- The scope at which a release that takes an Owner step needs earlier accesses performed (R312): the narrowest from its own on that
contains both the agent and the word's owner. A word of an element's own vault lies in its own instance of every scope. -/
def State.widen (s : State) (a : AgentId) (sc : Scope) (place : Place) : Scope :=
  let at_ := fun (x y : Scope) => if Scope.rank x ≤ Scope.rank y then y else x
  if remoteBase ≤ place.addr ∧ place.addr < vaultBase then .fab
  else if place.addr < vaultBase then at_ sc .dev
  else
    let p := (place.addr - vaultBase) / 0x80000 / 64
    if a = .elem p ((place.addr - vaultBase) / 0x80000 % 64) then sc
    else if s.agentPatch a = some p then at_ sc .patch
    else if s.partOf p = s.agentPart a then at_ sc .part
    else at_ sc .dev

/-- Access `y` comes before `x` in the program order of their agent (R302): what an element's instance makes before its commit follows
the stores that have entered and comes in block-word order in itself; the data accesses of an engine command have no order, and its
record and flag follow them. -/
def Access.before (y x : Access) : Bool :=
  y.agent == x.agent && (match y.made, x.made, x.agent with
    | some m, some n, _ => m.1 == n.1 && (decide (m.2 < n.2) || (m.2 == n.2 && decide (y.id < x.id)))
    | some _, none, _ => false
    | none, some _, _ => true
    | none, none, .engine _ => x.rel && decide (y.id < x.grp)
    | none, none, _ => decide (y.id < x.grp))

/-- What a release waits for: every earlier access of its agent is performed at a scope, but for those to UO frames where the
release's own scope is narrower than `.dev` (R311, R312). -/
def State.released (s : State) (x : Access) (sc : Scope) : Bool :=
  s.ord.accs.all (fun y => !y.before x || !ordersUo x.scope y.place.kind || y.atElem sc) &&
  (s.chain x.agent).all (fun v => decide (Scope.rank sc ≤ VisId.rank v) ||
    (s.ord.buffer v).all (fun e => !ordersUo x.scope e.kind || e.ids.all (fun i => !(i.1 == x.agent && decide (i.2 < x.grp)))))

/-- No earlier acquire of the agent is outstanding, and an SO access follows every earlier SO access of its agent that is
not yet performed at its own scope (R311, R312); a release waits for every earlier access (R312). -/
def State.inOrder (s : State) (x : Access) : Bool :=
  let early := s.ord.accs.filter (fun y => y.before x && !y.atElem y.scope)
  early.all (fun y => !(y.acq && ordersUo y.scope x.place.kind)) &&
  (x.place.kind != .so || early.all (fun y => y.place.kind != .so)) &&
  (!x.rel || s.released x
    (match x.op with
     | .owner _ _ => s.widen x.agent x.scope x.place
     | _ => x.scope))

/-- No earlier store of the agent that touches the same bytes still waits (R310). -/
def State.noEarlier (s : State) (x : Access) : Bool :=
  s.ord.accs.all (fun y => !(y.agent == x.agent && decide (y.id < x.id) && overlap x y &&
    (match y.op with | .load _ _ _ => false | _ => true)))

/-- An Owner step is enabled: in order, and every earlier store of the agent to the words has reached backing memory (R307). -/
def State.ownerReady (s : State) (x : Access) (words : List Nat) : Bool :=
  s.inOrder x &&
  s.ord.accs.all (fun y => !(y.agent == x.agent && decide (y.id < x.id) &&
    (match y.op with | .store _ => y.words.any (fun w => words.contains w) | _ => false))) &&
  s.ord.vis.all (fun v => v.2.all (fun e => !(e.agent == x.agent && (e.bytes.any (fun b => words.contains (b.1 / 8)) ||
    e.marks.any (fun m => words.contains m.1)))))

/-! ### Entries moving between buffers (R308) -/

/-- Marks as the entry of a store carries them: each has the store's age (R308). -/
def agedMarks (age : Nat) (m : Marks) : AgedMarks := m.map (fun k => (k.1, k.2, age))

/-- A mark joins others: of two for one word the younger one decides the bit (R308). -/
def addMark (l : AgedMarks) (m : Nat × Bool × Nat) : AgedMarks :=
  if l.any (fun k => k.1 == m.1 && decide (m.2.2 < k.2.2)) then l else l.filter (fun k => k.1 != m.1) ++ [m]

/-- Marks of two entries together, each word's youngest. -/
def mergeMarks (a b : AgedMarks) : AgedMarks := b.foldl addMark a

/-- The marks without their ages. -/
def bareMarks (l : AgedMarks) : Marks := l.map (fun k => (k.1, k.2.1))

/-- The older entry `x` meets the younger `y` in one place: it loses the bytes that `y` holds; the marks of words that `y`
covers, and what it stands for, go over to `y`. -/
def meet (x y : VisEntry) : VisEntry × VisEntry :=
  let hit := x.bytes.any (fun b => y.bytes.any (fun c => c.1 == b.1)) || x.marks.any (fun m => y.marks.any (fun k => k.1 == m.1))
  if hit then
    let cov := fun w => y.bytes.any (fun b => b.1 / 8 == w) || y.marks.any (fun k => k.1 == w)
    ({ x with bytes := x.bytes.filter (fun b => !y.bytes.any (fun c => c.1 == b.1)),
              marks := x.marks.filter (fun m => !cov m.1) },
     { y with marks := mergeMarks (x.marks.filter (fun m => cov m.1)) y.marks,
              ids := y.ids ++ x.ids.filter (fun i => !y.ids.contains i) })
  else (x, y)

/-- An entry that holds nothing any more. -/
def VisEntry.spent (x : VisEntry) : Bool := x.bytes.isEmpty && x.marks.isEmpty

/-- Entry `e` meets the entries of a list: the list without what `e` removes, and `e` with what it takes over. In the buffer where
it arrives (`arr`) it is discarded for what a younger entry holds, and that entry takes over from it; a younger entry of a
narrower buffer stays as it is, and so does `e` (R308). -/
def meetAll (arr : Bool) (e : VisEntry) : List VisEntry → List VisEntry × VisEntry
  | [] => ([], e)
  | x :: r =>
    let (e, x) := if x.age < e.age then let m := meet x e; (m.2, m.1) else if arr then meet e x else (e, x)
    let (r, e) := meetAll arr e r
    (if x.spent then r else x :: r, e)

/-- Buffer `v` lies inside buffer `w`, or is `w` (R308). -/
def State.inside (s : State) (v w : VisId) : Bool :=
  match w with
  | .patch _ => v == w
  | .part n => v == w || (match v with | .patch p => s.partOf p == n | _ => false)
  | .dev => v != .fab
  | .fab => true

/-- An entry meets the entries of every buffer inside `w`, where it arrives; `none` is backing memory, inside which all lie
(R308). -/
def State.meetInside (s : State) (w : Option VisId) :
    VisEntry → List (VisId × List VisEntry) → List (VisId × List VisEntry) × VisEntry
  | e, [] => ([], e)
  | e, (v, l) :: r =>
    let (l, e) := if (match w with | some w => s.inside v w | none => true) then meetAll (some v == w) e l else (l, e)
    let (r, e) := s.meetInside w e r
    ((v, l) :: r, e)

/-- Add an entry to a buffer. -/
def addEntry (w : VisId) (e : VisEntry) : List (VisId × List VisEntry) → List (VisId × List VisEntry)
  | [] => [(w, [e])]
  | (v, l) :: r => if v = w then (v, l ++ [e]) :: r else (v, l) :: addEntry w e r

/-- An entry enters a visibility buffer (R308). -/
def State.enter (s : State) (w : VisId) (e : VisEntry) : State :=
  let (vis, e) := s.meetInside (some w) e s.ord.vis
  { s with ord := { s.ord with vis := if e.spent then vis else addEntry w e vis } }

/-- Note the ages of bytes. -/
def noteAges (m : SMap Nat) (age : Nat) : List (Nat × Byte) → SMap Nat
  | [] => m
  | (a, _) :: r => noteAges (smSet m a age) age r

/-- An entry reaches backing memory: every older entry for its bytes leaves every buffer, a byte younger than its own stays,
and its marks take effect whether or not its data does (R308). -/
def State.settleEntry (s : State) (e : VisEntry) : State :=
  let (vis, e) := s.meetInside none e s.ord.vis
  let bs := e.bytes.filter (fun b => decide (smGet 0 s.ord.ages b.1 < e.age))
  { s with mem := (s.mem.puts bs).marks (bareMarks e.marks),
           ord := { s.ord with vis := vis, ages := noteAges s.ord.ages e.age bs } }

/-- The youngest age an agent has seen of some bytes. -/
def noteSeen (l : List (AgentId × Nat × Nat)) (a : AgentId) (age : Nat) : List Nat → List (AgentId × Nat × Nat)
  | [] => l
  | b :: r => noteSeen ((a, b, age) :: l.filter (fun x => !(x.1 == a && x.2.1 == b))) a age r

/-- Take an access out of the machine. -/
def State.dropAccess (s : State) (a : AgentId) (n : Nat) : State :=
  { s with ord := { s.ord with accs := s.ord.accs.filter (fun x => !(x.agent == a && x.id == n)) } }

/-- The access of an agent by its number. -/
def State.access (s : State) (a : AgentId) (n : Nat) : Option Access :=
  s.ord.accs.find? (fun x => x.agent == a && x.id == n)

/-- Place a store of an agent: it receives a new age and enters the buffer of its scope, or backing memory when it lies in
host memory (R305, R307). -/
def State.placeStore (s : State) (x : Access) (st : Store) : State :=
  let age := s.ord.nextAge
  let e : VisEntry := ⟨x.id, x.agent, x.scope, st.place.kind, age, st.bytes, agedMarks age st.marks, [(x.agent, x.id)], st.ptr,
    (st.bytes.headD (0, 0)).1⟩
  let s := s.dropAccess x.agent x.id
  let s := { s with ord := { s.ord with nextAge := age + 1,
                                        seen := noteSeen s.ord.seen x.agent age (st.bytes.map (fun (b : Nat × Byte) => b.1)) } }
  if st.place.host || e.spent then s.settleEntry e else s.enter (s.placeIn x.agent x.scope) e

/-! ### Reads (R306) -/

/-- One byte as an agent reads it at a scope, by a load numbered `n`: its value and its age; a store of its own that is
still waiting has no age yet. -/
def State.readByte (s : State) (ag : AgentId) (n : Nat) (sc : Scope) (a : Nat) : Byte × Option Nat :=
  let own := s.ord.accs.foldl (fun r x => if x.agent == ag && decide (x.id < n) then
      match x.op with
      | .store st => match st.bytes.find? (fun b => b.1 == a) with
        | some b => some b.2
        | none => r
      | _ => r
    else r) (none : Option Byte)
  match own with
  | some b => (b, none)
  | none =>
    let ch := s.chain ag
    let narrow := ch.filter (fun v => decide (VisId.rank v < Scope.rank sc))
    let mine := narrow.findSome? (fun v => youngest a ((s.ord.buffer v).filter (fun e => e.agent == ag)))
    match mine with
    | some (x, b) => (b, some x.age)
    | none =>
      let r := s.readVis a (ch.filter (fun v => decide (Scope.rank sc ≤ VisId.rank v)))
      (r.1, some r.2)

/-- A byte that an operation has read before the rest. -/
def gotByte (got : List (Nat × List Byte)) (a : Nat) : Option Byte :=
  (got.find? (fun g => g.1 == a / 8)).map (fun g => g.2.getD (a % 8) 0)

/-- Bytes as an agent reads them, those it has already got apart, and whether none is older than one that it has already read or
written (R306, R310); the ages of what it reads now. -/
def State.readOver (s : State) (ag : AgentId) (n : Nat) (sc : Scope) (got : List (Nat × List Byte)) (a : Nat) :
    Nat → List Byte × Bool × List (Nat × Nat)
  | 0 => ([], true, [])
  | k + 1 =>
    let (bs, ok, gs) := s.readOver ag n sc got (a + 1) k
    match gotByte got a with
    | some b => (b :: bs, ok, gs)
    | none =>
      let (b, g) := s.readByte ag n sc a
      match g with
      | none => (b :: bs, ok, gs)
      | some g =>
        let old := ((s.ord.seen.find? (fun x => x.1 == ag && x.2.1 == a)).map (fun x => x.2.2)).getD 0
        (b :: bs, ok && decide (old ≤ g), (a, g) :: gs)

/-- Bytes as an agent reads them all at once (R306, R310). -/
def State.readBytes (s : State) (ag : AgentId) (n : Nat) (sc : Scope) (a k : Nat) : List Byte × Bool × List (Nat × Nat) :=
  s.readOver ag n sc [] a k

/-- Note what an agent has read. -/
def State.noteReads (s : State) (ag : AgentId) : List (Nat × Nat) → State
  | [] => s
  | (a, g) :: r => { s with ord := { s.ord with seen := noteSeen s.ord.seen ag g [a] } }.noteReads ag r

/-- The number below which an agent's own stores are seen by a load: an element's load enters when it reads (R302, R306). -/
def State.readId (s : State) (x : Access) : Nat := if x.made.isSome then s.ord.nextId else x.id

/-! ### Reads while another instance waits in a FENCE (R313) -/

/-- The instance waits in a FENCE. -/
def Elem.inFence (v : Elem) (i : Inst) : Bool :=
  i.st == .fired && i.cover.isSome && (match (smFind v.blocks i.blk).bind (fun b => b.words[i.pc]?) with
    | some w => match decodeElem w.toNat with
      | .ok (.fence _) => true
      | _ => false
    | none => false)

/-- Instance `a` commits after instance `b`, by what stands in the station; `fuel` bounds the chain. -/
def Elem.follows (v : Elem) (b : Nat) : Nat → Nat → Bool
  | 0, _ => false
  | fuel + 1, a => v.insts.any (fun i => i.id == a && i.after.any (fun c => c == b || v.follows b fuel c))

/-- A load of instance `n` reads while others wait in a FENCE: each of those commits after it, since no access of a later commit
reads before the FENCE completes; where one must commit before it, the read is not enabled (R313). -/
def Elem.fenceOpen (v : Elem) (n : Nat) : Bool :=
  v.insts.all (fun i => i.id == n || !v.inFence i || !v.follows i.id v.insts.length n)

def Elem.noteFence (v : Elem) (n : Nat) : Elem :=
  { v with insts := v.insts.map (fun i => if i.id ≠ n ∧ v.inFence i ∧ !i.after.contains n then { i with after := n :: i.after } else i) }

/-- The element and the instance that an access is made for. -/
def Access.reader (x : Access) : Option (Nat × Nat × Nat) :=
  match x.agent, x.inst with
  | .elem p e, some n => some (p, e, n)
  | _, _ => none

/-- A Read step, where it is enabled (R306, R307, R310 to R313): the bytes, and the state that has noted them. `got` is what the
operation has read before. -/
def State.readWith (s : State) (x : Access) (got : List (Nat × List Byte)) (a n : Nat) : Option (List Byte × State) :=
  let open_ := match x.reader with
    | some (p, e, m) => (s.elem p e).fenceOpen m
    | none => true
  if s.inOrder x && open_ then
    match s.readOver x.agent (s.readId x) x.scope got a n with
    | (bs, true, gs) =>
      let s := s.noteReads x.agent gs
      some (bs, match x.reader with
        | some (p, e, m) => s.setElem p e ((s.elem p e).noteFence m)
        | none => s)
    | _ => none
  else none

/-- The Owner step by which a word of an instance tests bits before its commit: where it is enabled, in the order of its agent, after
every earlier store to the words, and while no FENCE of another instance stands in its way, the state that has noted it (R307, R312,
R313, R316). -/
def State.ownTest (s : State) (p e : Nat) (i : Inst) (sc : Scope) (place : Place) (words : List Nat) : Option State :=
  let x : Access := ⟨s.ord.nextId, .elem p e, sc, place, .owner .ldf .none, false, false, false, 0, 0, s.ord.nextId, some (i.id, i.pc)⟩
  if s.ownerReady x words && (s.elem p e).fenceOpen i.id then some (s.setElem p e ((s.elem p e).noteFence i.id)) else none

/-- The access that an agent's read at once is. -/
def State.reading (s : State) (ag : AgentId) (sc : Scope) (place : Place) (n : Nat) (made : Option (Nat × Nat)) : Access :=
  ⟨s.ord.nextId, ag, sc, place, .load place.addr n .none, false, false, false, 0, 0, s.ord.nextId, made⟩

/-- What an agent has read of its current step before the rest. -/
def State.gotOf (s : State) : AgentId → List (Nat × List Byte)
  | .port p k => (s.port p k).got
  | _ => []

/-- A read by an agent at once, at a scope: the bytes where the Read step is enabled (R306, R310, R311, R312). -/
def State.readNow (s : State) (ag : AgentId) (sc : Scope) (place : Place) (n : Nat) : Option (List Byte × State) :=
  s.readWith (s.reading ag sc place n .none) (s.gotOf ag) place.addr n

/-- A read of operand bytes by an instance's current word, over its whole chain (R183, R306). -/
def State.readOperand (s : State) (p e : Nat) (i : Inst) (place : Place) (n : Nat) : Option (List Byte × State) :=
  s.readWith (s.reading (.elem p e) .patch place n (some (i.id, i.pc))) i.got place.addr n

/-- The bytes that an agent finds over its whole chain, without a step of its own: the tag of a slot that may fire (R29, R306). -/
def State.peek (s : State) (ag : AgentId) (a n : Nat) : List Byte := (s.readBytes ag s.ord.nextId .patch a n).1

/-! ### Owner steps (R307) -/

/-- The youngest value of a byte among every buffer and backing memory. -/
def State.newest (s : State) (a : Nat) : Byte :=
  match youngest a (s.ord.vis.flatMap (fun v => v.2)) with
  | some (x, b) => if smGet 0 s.ord.ages a < x.age then b else s.mem.get a
  | none => s.mem.get a

/-- The marks that entries of any buffer carry for some words: of each word the youngest, which decides its bit (R308). -/
def State.pendingMarks (s : State) (words : List Nat) : Marks :=
  bareMarks ((s.ord.vis.flatMap (fun v => v.2)).foldl (fun l e =>
    mergeMarks l (e.marks.filter (fun (m : Nat × Bool × Nat) => words.contains m.1))) [])

/-- Bring `n` bytes from `a` on to backing memory, as an Owner step does: their youngest values are written with a new age,
every entry for them leaves every buffer, and the marks those entries carry take effect (R307, R308). -/
def State.ownFlush (s : State) (a n : Nat) : State :=
  let as_ := (List.range n).map (a + ·)
  let bs := as_.map (fun x => (x, s.newest x))
  let words := (List.range ((a + n - 1) / 8 - a / 8 + 1)).map (a / 8 + ·)
  let keep := fun (b : Nat × Byte) => !(decide (a ≤ b.1) && decide (b.1 < a + n))
  let cut := fun (e : VisEntry) => { e with bytes := e.bytes.filter keep,
                                            marks := e.marks.filter (fun (m : Nat × Bool × Nat) => !words.contains m.1) }
  { s with mem := (s.mem.puts bs).marks (s.pendingMarks words),
           ord := { s.ord with vis := s.ord.vis.map (fun v => (v.1, (v.2.map cut).filter (fun e => !e.spent))),
                               ages := noteAges s.ord.ages s.ord.nextAge bs, nextAge := s.ord.nextAge + 1 } }

/-- Write bytes of backing memory as part of an Owner step; their age is the step's. -/
def State.ownWrite (s : State) (a : Nat) (bs : List Byte) : State := { s with mem := s.mem.write a bs }

/-- Set the full/empty bits of some words as part of an Owner step. -/
def State.ownMark (s : State) (words : List Nat) (full : Bool) : State :=
  { s with mem := s.mem.marks (words.map (fun w => (w, full))) }

/-- A 64-bit word of backing memory. -/
def State.ownWord (s : State) (a : Nat) : DWord := BitVec.ofNat 64 (leNat (s.mem.read a 8))

/-- What an atomic of a kind writes, by the old value, the operand and, for compare-and-swap, the new value (R82, R131,
R217). -/
def atomResult {n : Nat} (k : AtomKind) (old x y : BitVec n) : BitVec n :=
  match k with
  | .add => old + x
  | .min => if old.slt x then old else x
  | .max => if old.slt x then x else old
  | .and => old &&& x
  | .or => old ||| x
  | .xor => old ^^^ x
  | .swap => x
  | .cas => if old = x then y else old

/-- An atomic at an address, in one step of the word's owner (R217): the old value, zero-extended, and the state after. For
compare-and-swap `x` is the expected value and `y` the new one. -/
def State.atomic (s : State) (k : AtomKind) (wide : Bool) (a : Nat) (x y : DWord) : DWord × State :=
  let n := if wide then 8 else 4
  let s := s.ownFlush a n
  let old := leNat (s.mem.read a n)
  if wide then
    let r := atomResult k (BitVec.ofNat 64 old) x y
    (BitVec.ofNat 64 old, s.ownWrite a (leBytes 8 r.toNat))
  else
    let r := atomResult k (BitVec.ofNat 32 old) (x.setWidth 32) (y.setWidth 32)
    (BitVec.ofNat 64 old, s.ownWrite a (leBytes 4 r.toNat))

end Sys2Proof.Machine
end

