-- ==== Sys2Proof/Machine/Banks.lean ====
section
/-! DEFINITION. A vault's banks: which bank serves a word, what a bank can serve in a cycle, the replay queue (R334 to R336). -/

namespace Sys2Proof.Machine

/-- The bank of a vault word address (R334). -/
def bankOf (vh : BitVec 10) (wa : Nat) : Nat :=
  let pa := vh.toNat % 32
  let pb := vh.toNat / 32
  let a := wa / 2 ^ pa % 32
  if pa = pb then a else a ^^^ (wa / 2 ^ pb % 32)

/-- The patch and element above a vault word, and the word's number there; none for flat memory. -/
def vaultWord (w : Nat) : Option (Nat × Nat × Nat) :=
  let a := 8 * w
  if a < vaultBase then none
  else some ((a - vaultBase) / 0x80000 / 64, (a - vaultBase) / 0x80000 % 64, (a - vaultBase) % 0x80000 / 8)

/-- Word accesses in a vault's replay queue. -/
def Elem.rplq (v : Elem) : Nat := v.replay.length

/-- What the banks of a vault have served in a cycle. -/
def Elem.servedIn (v : Elem) (cycle : Nat) : List BankUse := if v.served.1 = cycle then v.served.2 else []

/-- A bank cannot serve word `w` on a side in a cycle in which it has served these: another word on that side, or a second write
(R334, R336; two writes of one word: DEDUCED, log 54). -/
def bankBusy (served : List BankUse) (bank w : Nat) (write : Bool) : Bool :=
  served.any (fun x => x.write == write && x.bank == bank && (write || x.word != w))

/-- A word access is presented to its vault, on the sides it needs: whether its bank serves it in this cycle. Its bank is the one
that VHASH gave when it was presented first. One that conflicts goes to the replay queue once, and counts in BCONF; replays come
before new accesses, of one bank the oldest first, and a full queue lets no new access in. A word that has been written in the cycle is not read in it: the
read would have come first (R334 to R336). -/
def State.present (s : State) (ag : AgentId) (n : Nat) (sides : List Bool) (words : List Nat) : State × Bool :=
  match words.headD 0 |> vaultWord with
  | none => (s, true)
  | some (p, e, k) =>
    let v := s.elem p e
    let now := s.clock.n
    let w := words.headD 0
    let served := v.servedIn now
    let mine := v.replay.find? (fun r => r.agent == ag && r.id == n)
    let bank := match mine with
      | some r => r.bank
      | none => bankOf (s.seq p).vhash k
    let busy := sides.any (bankBusy served bank w)
    let older := (v.replay.takeWhile (fun r => !(r.agent == ag && r.id == n))).any (fun r => r.bank == bank && decide (r.at_ < now))
    let late := sides.contains false && served.any (fun x => x.write && x.word == w)
    let use := sides.map (fun b => (⟨b, w, bank⟩ : BankUse))
    match mine with
    | some _ =>
      if older then (s, false)
      else if busy || late then
        (s.setElem p e { v with replay := v.replay.map (fun r => if r.agent = ag ∧ r.id = n then { r with at_ := now } else r) }, false)
      else (s.setElem p e { v with served := (now, served ++ use), replay := v.replay.filter (fun r => !(r.agent == ag && r.id == n)) }, true)
    | none =>
      if late || decide (16 ≤ v.rplq) || v.replay.any (fun r => decide (r.at_ < now)) then (s, false)
      else if busy then (s.setElem p e { v with replay := v.replay ++ [⟨ag, n, bank, now⟩], bconf := v.bconf + 1 }, false)
      else (s.setElem p e { v with served := (now, served ++ use) }, true)

/-- The words of one access are presented to their banks, one by one, word `j` of it under number `id j`: whether all are served in this
cycle (R334, R336). -/
def State.presentWords (s : State) (ag : AgentId) (id : Nat → Nat) (sides : List Bool) (words : List Nat) : State × Bool :=
  words.zipIdx.foldl (fun x w =>
    let y := x.1.present ag (id w.2) sides [w.1]
    (y.1, x.2 && y.2)) (s, true)

/-- The numbers under which the banks know the reads of an engine command: step `k` of a copy by its own number, word `j` of piece `c` of
an index list, and word `j` of element `i` of a packed source. -/
def pieceId (c j : Nat) : Nat := 2 ^ 40 + 2 * c + j
def packedId (i j : Nat) : Nat := 2 ^ 41 + 8 * i + j

/-- The number under which the banks know a read of word `w` that word `pc` of instance `n` makes itself, which is no access of an
issue queue (LDF, and the reads of its operands). -/
def ownId (n pc w : Nat) : Nat := ((2 ^ 20 + n) * 128 + pc) * 2 ^ 64 + w

/-- The number under which the banks know word `k` of the words that an instance's irrevocable operation takes at its owner. -/
def irrId (n k : Nat) : Nat := ((2 ^ 21 + n) * 128 + k) * 2 ^ 64

/-- Such an access may still be made: the instance has not completed that word, or holds its irrevocable operation. -/
def Elem.ownAlive (v : Elem) (id : Nat) : Bool :=
  let w := id / 2 ^ 64 % 128
  v.insts.any (fun i => i.st == .fired && ((id / 2 ^ 71 == 2 ^ 20 + i.id && decide (i.pc ≤ w) && !i.ahead.contains w) ||
    (id / 2 ^ 71 == 2 ^ 21 + i.id && (match i.irr with
      | .held _ _ => true
      | _ => false))))

/-- An access is taken out of a vault's replay queue, since it waits for something else. -/
def State.unpresent (s : State) (ag : AgentId) (n w : Nat) : State :=
  match vaultWord w with
  | none => s
  | some (p, e, _) => s.modElem p e (fun v => { v with replay := v.replay.filter (fun r => !(r.agent == ag && r.id == n)) })

end Sys2Proof.Machine
end

