-- ==== Sys2Proof/Machine/Links.lean ====
section
/-! DEFINITION. The packets that this module's accesses to other modules send, and what their replies give (R218, R345, R409 to
R414). -/

namespace Sys2Proof.Machine

/-- The module that holds a place: none for this one. -/
def Place.module (pl : Place) : Option Nat :=
  if remoteBase ≤ pl.addr ∧ pl.addr < vaultBase then some ((pl.addr - remoteBase) / 2 ^ 51) else none

/-- The physical address of a place at the module that holds it. -/
def Place.pa (pl : Place) : Nat := (pl.addr - remoteBase) % 2 ^ 51

/-- Scope codes (R85). -/
def scopeCode (sc : Scope) : BitVec 3 := BitVec.ofNat 3 (Scope.rank sc)

/-- Atomic kind codes (R82). -/
def atomCode : AtomKind → Nat
  | .add => 0 | .min => 1 | .max => 2 | .and => 3 | .or => 4 | .xor => 5 | .swap => 6 | .cas => 7

/-- The atomic kind of a code. -/
def atomOf : Nat → AtomKind
  | 0 => .add | 1 => .min | 2 => .max | 3 => .and | 4 => .or | 5 => .xor | 6 => .swap | _ => .cas

/-- The primary and alternate ports towards a module, where its entry is valid (R409). -/
def State.route (s : State) (mod : Nat) : Option (Nat × Nat) :=
  let x := smGet 0 s.fabric.routes mod
  if x.getLsbD 8 then some (x.toNat % 16, x.toNat / 16 % 16) else none

/-- A fabric port is fenced (R443). -/
def State.portFenced (s : State) (port : Nat) : Bool := s.device.fenced.ports.contains port

/-- The port by which a packet leaves first: the primary one, or the alternate one where that is fenced (R409, R443). -/
def State.firstPort (s : State) (r : Nat × Nat) : Nat := if s.portFenced r.1 then r.2 else r.1

/-- The number of a partition in the fabric domain, which its packets carry (R430). -/
def State.identOf (s : State) (part : Nat) : Nat := (s.part part).ident

/-- A number that no held packet has. -/
def Fabric.newHeld (f : Fabric) : Nat := (f.held.map (fun h => h.n + 1)).foldl Nat.max 0

/-- A packet enters this module's custody, to leave by the primary port towards its destination (R414). -/
def State.takeCustody (s : State) (k : Packet) (inp out : Nat) : State :=
  let h : Held := ⟨s.fabric.newHeld, k, inp, out, false, false, s.clock.ns, s.clock.ns⟩
  { s with fabric := { s.fabric with held := s.fabric.held ++ [h] } }

/-- The module that owns a frame of another module, by the redirect notices received (R359). -/
def State.redirected (s : State) (m pa : Nat) : Nat :=
  ((s.fabric.redirs.find? (fun r => r.1 == pa / 65536 && r.2.1 == m)).map (fun r => r.2.2)).getD m

/-- An agent's access to a redirected frame is held: one that it sent to the stub has no answer yet (R359). -/
def State.redirHeld (s : State) (ag : AgentId) (m pa : Nat) : Bool :=
  s.redirected m pa != m &&
  s.fabric.asked.any (fun a => a.agent == ag && a.mod == m && a.st == .sent && (a.addr - remoteBase) % 2 ^ 51 / 65536 == pa / 65536)

/-- A packet of this module, its header filled in; a request for a redirected frame goes to the new owner. None where the
destination is not reachable (R359, R409, R410). -/
def State.post (s : State) (k : Packet) : Option State :=
  let request := k.kind == 0 || k.kind == 2 || k.kind == 4 || k.kind == 6
  let d := if request then s.redirected k.dmod.toNat k.addr.toNat else k.dmod.toNat
  (s.route d).map (fun r => s.takeCustody { k with dmod := BitVec.ofNat 9 d, smod := BitVec.ofNat 9 s.fabric.mod, hop := 0 } 16 (s.firstPort r))

/-- A packet with its fields (R410). -/
def packet (kind : Nat) (sc : Scope) (dmod part len : Nat) (tag : Half) (op : Byte) (addr : Nat) (bs : List Byte) : Packet :=
  ⟨BitVec.ofNat 4 kind, 0, 0, scopeCode sc, BitVec.ofNat 9 dmod, 0, BitVec.ofNat 5 part, BitVec.ofNat 9 len, tag, op,
    BitVec.ofNat 51 addr, bs⟩

/-- What a request to another module has come to. -/
inductive Via where
  /-- it waits; `sent` where its packet left in this step -/
  | wait (s : State) (sent : Bool)
  | got (bs : List Byte) (s : State)
  | fault (c : Cause) (sub : Nat) (s : State)

/-- The request of an agent, by the access it is for and its address. -/
def State.ask (s : State) (ag : AgentId) (acc : Option Nat) (addr len : Nat) (write : Bool) : Option Asked :=
  s.fabric.asked.find? (fun a => a.agent == ag && a.acc == acc && a.addr == addr && a.len == len && a.write == write)

/-- Forget a request. -/
def State.dropAsk (s : State) (tag : Half) : State :=
  { s with fabric := { s.fabric with asked := s.fabric.asked.filter (fun a => a.tag != tag) } }

/-- Make a request: its packet is sent under a new tag, and it waits for its reply. -/
def State.request (s : State) (a : Asked) (k : Packet) : Option State :=
  let tag := s.fabric.nextTag &&& 0x7FFF
  (s.post { k with tag := tag }).map (fun s =>
    { s with fabric := { s.fabric with asked := s.fabric.asked ++ [{ a with tag := tag }], nextTag := tag + 1 } })

/-- The answers that an agent has kept are forgotten: the step that they were for is made. -/
def State.dropAnswers (s : State) (ag : AgentId) : State :=
  { s with fabric := { s.fabric with asked := s.fabric.asked.filter (fun a => !(a.agent == ag && (match a.st with
      | .data _ => true
      | _ => false))) } }

/-- A request of an agent: made at once if it has not been made; its answer, when there is one, is taken. An engine command
keeps its answers until a step that needs several has them all. -/
def State.via (s : State) (ag : AgentId) (acc : Option Nat) (pl : Place) (len : Nat) (write : Bool) (fa : DWord) (k : Packet) : Via :=
  match s.ask ag acc pl.addr len write with
  | none =>
    let m := (pl.module).getD 0
    let a : Asked := ⟨0, s.redirected m pl.pa, ag, acc, pl.addr, len, write, fa, .sent, []⟩
    if s.redirHeld ag m pl.pa then .wait s false
    else match s.request a k with
      | none => .fault .xlate 0 s
      | some s => .wait s true
  | some a => match a.st with
    | .sent => .wait s false
    | .data bs => .got bs (match ag with
      | .engine _ => s
      | _ => s.dropAsk a.tag)
    | .failed c sub => .fault c sub (s.dropAsk a.tag)

/-- A read of `n` bytes by an agent at once, at a scope: on this module where the Read step is enabled (R306, R310 to R312);
on another module by RD and RDR, whose data stands as that module's memory from then on (R411). -/
def State.readVia (s : State) (ag : AgentId) (sc : Scope) (pl : Place) (n : Nat) (fa : DWord) : Via :=
  let here := fun (s : State) => match s.readNow ag sc pl n with
    | some (bs, s) => Via.got bs s
    | none => Via.wait s false
  match pl.module with
  | none => here s
  | some m => match s.via ag none pl n false fa (packet 0 sc m (s.identOf (s.agentPart ag)) n 0 0 pl.pa []) with
    | .got bs s => here { s with mem := s.mem.write pl.addr bs }
    | x => x

/-- A wait after part of a step was read: the answers that were there when the step began, and that its reads took, are kept. -/
def State.keepAnswers (u s t : State) : State :=
  let kept := s.fabric.asked.filter (fun a => !t.fabric.asked.contains a)
  { u with fabric := { u.fabric with asked := u.fabric.asked ++ kept } }

/-- The bytes of several pieces, as an agent reads them (R306, R314); a piece on another module is asked for by RD, and the answers
there are are kept while one is awaited. -/
def State.readAll (s : State) (ag : AgentId) (sc : Scope) (fa : DWord) : List (Place × Nat) → Via
  | [] => .got [] s
  | (pl, n) :: r =>
    match s.readVia ag sc pl n fa with
    | .got bs t => match t.readAll ag sc fa r with
      | .got more t => .got (bs ++ more) t
      | .wait u sent => .wait (u.keepAnswers s t) sent
      | x => x
    | x => x

/-- The operands of an ATOM packet (R411): the operand, and the new value for compare-and-swap. -/
def atomBytes (k : AtomKind) (wide : Bool) (x y : DWord) : List Byte :=
  let n := if wide then 8 else 4
  leBytes n x.toNat ++ (if k = .cas then leBytes n y.toNat else [])

/-- OP of an ATOM packet: kind, width and order, as in AMOM sub (R82, R410). -/
def atomOp (k : AtomKind) (wide acq rel : Bool) : Byte :=
  BitVec.ofNat 8 (atomCode k * 8 + wide.toNat * 4 + rel.toNat * 2 + acq.toNat)

/-- An atomic at the owner of a word (R217, R218): on this module in one step, on another by ATOM and ATOMR. The old value is
the answer's bytes. -/
def State.atomVia (s : State) (ag : AgentId) (acc : Option Nat) (k : AtomKind) (wide : Bool) (pl : Place) (x y : DWord)
    (sc : Scope) (acq rel : Bool) (fa : DWord) : Via :=
  match pl.module with
  | none =>
    let (old, s) := s.atomic k wide pl.addr x y
    .got (leBytes 8 old.toNat) s
  | some m =>
    let bs := atomBytes k wide x y
    s.via ag acc pl (if wide then 8 else 4) true fa (packet 4 sc m (s.identOf (s.agentPart ag)) bs.length 0 (atomOp k wide acq rel) pl.pa bs)

/-- The value of an answer. -/
def answer (bs : List Byte) : DWord := BitVec.ofNat 64 (leNat bs)

/-- The runs of consecutive addresses among bytes, each at most 256 long. -/
def byteRuns : List (Nat × Byte) → List (Nat × List Byte)
  | [] => []
  | (a, b) :: r => match byteRuns r with
    | (c, bs) :: rs => if c = a + 1 ∧ bs.length < 256 then (a, b :: bs) :: rs else (a, [b]) :: (c, bs) :: rs
    | [] => [(a, [b])]

/-- The payload of a WR packet: a byte-enable word goes before data of at most 28 bytes (R411; log 16). -/
def wrPayload (bs : List Byte) : List Byte :=
  if bs.length ≤ 28 then leBytes 4 (2 ^ bs.length - 1) ++ bs else bs

end Sys2Proof.Machine
end

