-- ==== Sys2Proof/Machine/SeqAlu.lean ====
section
/-! DEFINITION. Sequencer integer arithmetic, immediates and predicates (R117 to R119). -/

namespace Sys2Proof.Machine

/-- The result type of every meaning. -/
abbrev Res := Host.Outcome State Fault Refusal

/-- gd takes ga op gb; a zero divisor sets SQST.DZ (R117). -/
def aluSeq (op : IntOp) (d : BitVec 5) (x y : Word) (_ : Half) (q : Seq) : SeqOut :=
  .done { q.put d (intOp op x y) with dz := q.dz || intDz op y }

/-- An ALU word (R117). -/
def aluWord (op : IntOp) (d a b : BitVec 5) (s : State) : Res :=
  .next (runSeq (fun at_ q => aluSeq op d (q.get a) (q.get b) at_ q) s)

/-- An immediate word (R118). -/
def immWord (op : IntOp) (d a : BitVec 5) (i : Word) (s : State) : Res :=
  .next (runSeq (fun at_ q => aluSeq op d (q.get a) i at_ q) s)

/-- SEQ_ADD (R117). -/
def execSeqAdd (d a b : BitVec 5) (s : State) : Res := aluWord .add d a b s

/-- SEQ_SUB (R117). -/
def execSeqSub (d a b : BitVec 5) (s : State) : Res := aluWord .sub d a b s

/-- SEQ_AND (R117). -/
def execSeqAnd (d a b : BitVec 5) (s : State) : Res := aluWord .and d a b s

/-- SEQ_OR (R117). -/
def execSeqOr (d a b : BitVec 5) (s : State) : Res := aluWord .or d a b s

/-- SEQ_XOR (R117). -/
def execSeqXor (d a b : BitVec 5) (s : State) : Res := aluWord .xor d a b s

/-- SEQ_SLL (R117). -/
def execSeqSll (d a b : BitVec 5) (s : State) : Res := aluWord .sll d a b s

/-- SEQ_SRL (R117). -/
def execSeqSrl (d a b : BitVec 5) (s : State) : Res := aluWord .srl d a b s

/-- SEQ_SRA (R117). -/
def execSeqSra (d a b : BitVec 5) (s : State) : Res := aluWord .sra d a b s

/-- SEQ_SLT (R117). -/
def execSeqSlt (d a b : BitVec 5) (s : State) : Res := aluWord .slt d a b s

/-- SEQ_SLTU (R117). -/
def execSeqSltu (d a b : BitVec 5) (s : State) : Res := aluWord .sltu d a b s

/-- SEQ_MUL (R117). -/
def execSeqMul (d a b : BitVec 5) (s : State) : Res := aluWord .mul d a b s

/-- SEQ_MULH (R117). -/
def execSeqMulh (d a b : BitVec 5) (s : State) : Res := aluWord .mulh d a b s

/-- SEQ_MULHU (R117). -/
def execSeqMulhu (d a b : BitVec 5) (s : State) : Res := aluWord .mulhu d a b s

/-- SEQ_DIV (R117). -/
def execSeqDiv (d a b : BitVec 5) (s : State) : Res := aluWord .div d a b s

/-- SEQ_DIVU (R117). -/
def execSeqDivu (d a b : BitVec 5) (s : State) : Res := aluWord .divu d a b s

/-- SEQ_REM (R117). -/
def execSeqRem (d a b : BitVec 5) (s : State) : Res := aluWord .rem d a b s

/-- SEQ_REMU (R117). -/
def execSeqRemu (d a b : BitVec 5) (s : State) : Res := aluWord .remu d a b s

/-- SEQ_MIN (R117). -/
def execSeqMin (d a b : BitVec 5) (s : State) : Res := aluWord .min d a b s

/-- SEQ_MAX (R117). -/
def execSeqMax (d a b : BitVec 5) (s : State) : Res := aluWord .max d a b s

/-- MINU (R117). -/
def execMinu (d a b : BitVec 5) (s : State) : Res := aluWord .minu d a b s

/-- MAXU (R117). -/
def execMaxu (d a b : BitVec 5) (s : State) : Res := aluWord .maxu d a b s

/-- SEQ_ADDS (R117). -/
def execSeqAdds (d a b : BitVec 5) (s : State) : Res := aluWord .adds d a b s

/-- SEQ_SUBS (R117). -/
def execSeqSubs (d a b : BitVec 5) (s : State) : Res := aluWord .subs d a b s

/-- SEQ_ADDI: the immediate is sign-extended (R75, R118). -/
def execSeqAddi (d a : BitVec 5) (i : BitVec 16) (s : State) : Res := immWord .add d a (i.signExtend 32) s

/-- SEQ_ANDI: the immediate is zero-extended (R75, R118). -/
def execSeqAndi (d a : BitVec 5) (i : BitVec 16) (s : State) : Res := immWord .and d a (i.setWidth 32) s

/-- SEQ_ORI: the immediate is zero-extended (R75, R118). -/
def execSeqOri (d a : BitVec 5) (i : BitVec 16) (s : State) : Res := immWord .or d a (i.setWidth 32) s

/-- SEQ_XORI: the immediate is zero-extended (R75, R118). -/
def execSeqXori (d a : BitVec 5) (i : BitVec 16) (s : State) : Res := immWord .xor d a (i.setWidth 32) s

/-- SEQ_SLTI: the immediate is sign-extended (R75, R118). -/
def execSeqSlti (d a : BitVec 5) (i : BitVec 16) (s : State) : Res := immWord .slt d a (i.signExtend 32) s

/-- SLTIU: the immediate is sign-extended (R75, R118). -/
def execSltiu (d a : BitVec 5) (i : BitVec 16) (s : State) : Res := immWord .sltu d a (i.signExtend 32) s

/-- SEQ_SLLI (R75, R118). -/
def execSeqSlli (d a i : BitVec 5) (s : State) : Res := immWord .sll d a (i.setWidth 32) s

/-- SEQ_SRLI (R75, R118). -/
def execSeqSrli (d a i : BitVec 5) (s : State) : Res := immWord .srl d a (i.setWidth 32) s

/-- SEQ_SRAI (R75, R118). -/
def execSeqSrai (d a i : BitVec 5) (s : State) : Res := immWord .sra d a (i.setWidth 32) s

/-- LUI: gd takes imm times 65,536 (R75, R118). -/
def execLui (d : BitVec 5) (i : BitVec 16) (s : State) : Res :=
  .next (runSeq (fun _ q => .done (q.put d (i ++ (0 : BitVec 16)))) s)

/-- KCMP: k(n) takes whether the condition holds (R119). -/
def execKcmp (k : BitVec 2) (a b : BitVec 5) (c : BitVec 3) (s : State) : Res :=
  .next (runSeq (fun _ q =>
    let bit : BitVec 4 := 1 <<< k.toNat
    .done { q with k := if condHolds (kcmpCond c) (q.get a) (q.get b) then q.k ||| bit else q.k &&& ~~~bit }) s)

end Sys2Proof.Machine
end

