-- ==== Sys2Proof/Machine/SeqFlow.lean ====
section
/-! DEFINITION. Sequencer branches, jumps, hardware loops, and the loads and stores of its own store (R120 to R130). -/

namespace Sys2Proof.Machine

/-- A branch that is taken when `p` holds: to its address plus 4 times the signed offset (R120). -/
def branchWord (o : BitVec 16) (p : Seq → Bool) (s : State) : Res :=
  .next (runSeq (fun a q => if p q then .jump q (a.setWidth 32 + (o.signExtend 32) * 4) else .done q) s)

/-- BEQ (R120, R122). -/
def execBeq (a b : BitVec 5) (o : BitVec 16) (s : State) : Res :=
  branchWord o (fun q => condHolds .eq (q.get a) (q.get b)) s

/-- BNE (R120, R122). -/
def execBne (a b : BitVec 5) (o : BitVec 16) (s : State) : Res :=
  branchWord o (fun q => condHolds .ne (q.get a) (q.get b)) s

/-- BLT (R120, R122). -/
def execBlt (a b : BitVec 5) (o : BitVec 16) (s : State) : Res :=
  branchWord o (fun q => condHolds .lt (q.get a) (q.get b)) s

/-- BGE (R120, R122). -/
def execBge (a b : BitVec 5) (o : BitVec 16) (s : State) : Res :=
  branchWord o (fun q => condHolds .ge (q.get a) (q.get b)) s

/-- BLTU (R120, R122). -/
def execBltu (a b : BitVec 5) (o : BitVec 16) (s : State) : Res :=
  branchWord o (fun q => condHolds .ltu (q.get a) (q.get b)) s

/-- BGEU (R120, R122). -/
def execBgeu (a b : BitVec 5) (o : BitVec 16) (s : State) : Res :=
  branchWord o (fun q => condHolds .geu (q.get a) (q.get b)) s

/-- BKT: branch when the predicate is 1 (R120). -/
def execBkt (k : BitVec 2) (o : BitVec 16) (s : State) : Res := branchWord o (fun q => q.k.getLsbD k.toNat) s

/-- BKF: branch when the predicate is 0 (R120). -/
def execBkf (k : BitVec 2) (o : BitVec 16) (s : State) : Res := branchWord o (fun q => !q.k.getLsbD k.toNat) s

/-- J (R121). -/
def execJ (o : BitVec 26) (s : State) : Res :=
  .next (runSeq (fun a q => .jump q (a.setWidth 32 + (o.signExtend 32) * 4)) s)

/-- JAL: g31 takes the address of the next word (R121). A jump that faults leaves it (R122). -/
def execJal (o : BitVec 26) (s : State) : Res :=
  .next (runSeq (fun a q => .jump (q.put 31 (a.setWidth 32 + 4)) (a.setWidth 32 + (o.signExtend 32) * 4)) s)

/-- JALR: the target is formed before gd is written (R121). -/
def execJalr (d a : BitVec 5) (i : BitVec 16) (s : State) : Res :=
  .next (runSeq (fun at_ q => .jump (q.put d (at_.setWidth 32 + 4)) (q.get a + i.signExtend 32)) s)

/-- Level `n` is active (R126). -/
def Seq.active (q : Seq) (n : Nat) : Bool := q.lc.getD n 0 != 0

/-- LOOP and LOOPR: open level `l` on the `n + 1` words that follow; a count of 0 skips the body and makes the loop-end
check of its end (R125). Misuse of levels is ILLOP with sub-cause 2 (R126). -/
def loopWord (l : BitVec 2) (count : Word) (n : BitVec 8) (a : Half) (q : Seq) : SeqOut :=
  let lv := l.toNat
  let le := a.toNat + 4 * (n.toNat + 1)
  let below := (List.range lv).any (fun j => q.active j && decide ((q.le.getD j 0).toNat < le))
  let above := (List.range 3).any (fun j => decide (lv ≤ j) && q.active j)
  if above || below || decide (le ≥ 0x10000) then .faultOpen .illop 2
  else
    let e := BitVec.ofNat 16 le
    let q := { q with lb := q.lb.set lv (BitVec.ofNat 16 (a.toNat + 4)), le := q.le.set lv e, lc := q.lc.set lv count }
    if count = 0 then .moved (q.finishAt a e [2, 1, 0]) else .done q

/-- LOOP (R125). -/
def execLoop (l : BitVec 2) (c : BitVec 11) (n : BitVec 8) (s : State) : Res :=
  .next (runSeq (fun a q => loopWord l (c.setWidth 32) n a q) s)

/-- LOOPR: the count is a g register (R125). -/
def execLoopr (l : BitVec 2) (g : BitVec 5) (n : BitVec 8) (s : State) : Res :=
  .next (runSeq (fun a q => loopWord l (q.get g) n a q) s)

/-- LBRK: end level `l` and every higher one, then make the check for the level's end over the levels below it (R129). -/
def execLbrk (l : BitVec 2) (s : State) : Res :=
  .next (runSeq (fun a q =>
    let lv := l.toNat
    if !q.active lv then .faultOpen .illop 2
    else
      let q := { q with lc := (List.range 3).map (fun j => if lv ≤ j then 0 else q.lc.getD j 0) }
      .moved (q.finishAt a (q.le.getD lv 0) ((List.range lv).reverse))) s)

/-- The check of a store access: outside the store is PERM with sub-cause 2, then ALIGN (R123). -/
def storeCheck (ea : Word) (size : Nat) : Option (Cause × Nat) :=
  if ea.toNat ≥ 0x10000 then some (.perm, 2) else if ea.toNat % size ≠ 0 then some (.align, 0) else none

/-- A load from the sequencer store (R123). -/
def storeLoad (d a : BitVec 5) (i : BitVec 16) (size : Nat) (sg : Bool) (s : State) : Res :=
  .next (runSeq (fun _ q =>
    let ea := q.get a + i.signExtend 32
    match storeCheck ea size with
    | some (c, u) => .fault c u (ea.setWidth 64)
    | none =>
      let v := leNat (cellRead q.store ea.toNat size)
      .done (q.put d (if sg then (BitVec.ofNat (8 * size) v).signExtend 32 else BitVec.ofNat 32 v))) s)

/-- A store to the sequencer store (R123). Words that the loop buffer holds keep their old contents (R124). -/
def storeStore (d a : BitVec 5) (i : BitVec 16) (size : Nat) (s : State) : Res :=
  .next (runSeq (fun _ q =>
    let ea := q.get a + i.signExtend 32
    match storeCheck ea size with
    | some (c, u) => .fault c u (ea.setWidth 64)
    | none => .done { q with store := cellWrite q.store ea.toNat (leBytes size (q.get d).toNat) }) s)

/-- LB (R123). -/
def execLb (d a : BitVec 5) (i : BitVec 16) (s : State) : Res := storeLoad d a i 1 true s

/-- LBU (R123). -/
def execLbu (d a : BitVec 5) (i : BitVec 16) (s : State) : Res := storeLoad d a i 1 false s

/-- LH (R123). -/
def execLh (d a : BitVec 5) (i : BitVec 16) (s : State) : Res := storeLoad d a i 2 true s

/-- LHU (R123). -/
def execLhu (d a : BitVec 5) (i : BitVec 16) (s : State) : Res := storeLoad d a i 2 false s

/-- LW (R123). -/
def execLw (d a : BitVec 5) (i : BitVec 16) (s : State) : Res := storeLoad d a i 4 false s

/-- SB (R123, R124). -/
def execSb (d a : BitVec 5) (i : BitVec 16) (s : State) : Res := storeStore d a i 1 s

/-- SH (R123, R124). -/
def execSh (d a : BitVec 5) (i : BitVec 16) (s : State) : Res := storeStore d a i 2 s

/-- SW (R123, R124). -/
def execSw (d a : BitVec 5) (i : BitVec 16) (s : State) : Res := storeStore d a i 4 s

end Sys2Proof.Machine
end

