-- ==== Sys2Proof/Machine/SeqSys.lean ====
section
/-! DEFINITION. CSRs, system words, traps, and the delivery and disposal of element faults (R12 to R14, R36, R37, R111 to
R116, R149 to R155). -/

namespace Sys2Proof.Machine

/-- The faulted element instances whose reports the patch has not delivered (R13, R36): a report that names no instance, of an
engine command or a completed store, is no such one. -/
def Patch.fpend (x : Patch) : Nat := (x.reports.filter (fun r => r.inst.isSome && r.ring.isEmpty)).length

/-- SQST (R13). -/
def Patch.sqst (x : Patch) : Word :=
  BitVec.ofNat 32 (x.fpend % 256 * 256 + x.seq.ld * 32 + x.frozen.toNat * 16 +
    x.seq.wf.toNat * 8 + x.seq.dz.toNat * 4 + x.seq.xt.toNat * 2)

/-- The value of a readable CSR (R115); none for a reserved or write-only number. -/
def State.csr (s : State) (p : Nat) (c : Nat) : Option Word :=
  let x := s.patch p
  let q := x.seq
  match c with
  | 0x010 => some (q.lc.getD 0 0)
  | 0x011 => some (q.lc.getD 1 0)
  | 0x012 => some (q.lc.getD 2 0)
  | 0x014 => some ((q.lb.getD 0 0).setWidth 32)
  | 0x015 => some ((q.lb.getD 1 0).setWidth 32)
  | 0x016 => some ((q.lb.getD 2 0).setWidth 32)
  | 0x018 => some ((q.le.getD 0 0).setWidth 32)
  | 0x019 => some ((q.le.getD 1 0).setWidth 32)
  | 0x01A => some ((q.le.getD 2 0).setWidth 32)
  | 0x01C => some (q.k.setWidth 32)
  | 0x040 => some (q.xpc.setWidth 32)
  | 0x041 => some q.xcause
  | 0x042 => some q.xval
  | 0x043 => some q.xvalh
  | 0x044 => some q.xinfo
  | 0x046 => some x.sqst
  | 0x080 => some (q.vhash.setWidth 32)
  | 0x0C0 => some (s.clock.tsc.setWidth 32)
  | 0x0C1 => some q.tsch
  | 0x0C4 => some (BitVec.ofNat 32 p)
  | 0x0C5 => some (BitVec.ofNat 32 (s.partOf p))
  | _ => none

/-- CSRR: gd takes the CSR, zero-extended; reading TSCL latches the upper half (R42, R116, R154). -/
def execCsrr (d : BitVec 5) (c : BitVec 12) (s : State) : Res :=
  let p := s.cur.patch
  .next (runSeq (fun _ q =>
    match s.csr p c.toNat with
    | none => .faultOpen .illop 2
    | some v =>
      let q := if c = 0x0C0 then { q with tsch := (s.clock.tsc >>> 32).setWidth 32 } else q
      .done (q.put d v)) s)

/-- The sequencer with a writable CSR set; none where R116 or R334 refuses the number or the value. EREPLAY is apart. -/
def Seq.csrSet (q : Seq) (c : Nat) (v : Word) : Option Seq :=
  let half := decide (v.toNat < 2 ^ 16) && v.toNat % 4 == 0
  match c with
  | 0x010 => some { q with lc := q.lc.set 0 v }
  | 0x011 => some { q with lc := q.lc.set 1 v }
  | 0x012 => some { q with lc := q.lc.set 2 v }
  | 0x014 => if half then some { q with lb := q.lb.set 0 (v.setWidth 16) } else none
  | 0x015 => if half then some { q with lb := q.lb.set 1 (v.setWidth 16) } else none
  | 0x016 => if half then some { q with lb := q.lb.set 2 (v.setWidth 16) } else none
  | 0x018 => if half then some { q with le := q.le.set 0 (v.setWidth 16) } else none
  | 0x019 => if half then some { q with le := q.le.set 1 (v.setWidth 16) } else none
  | 0x01A => if half then some { q with le := q.le.set 2 (v.setWidth 16) } else none
  | 0x01C => if v.toNat < 16 then some { q with k := v.setWidth 4 } else none
  | 0x040 => if half then some { q with xpc := v.setWidth 16 } else none
  | 0x046 => if v &&& ~~~4 = 0 then some { q with dz := q.dz && v = 0 } else none
  | 0x080 => if v.toNat < 2 ^ 10 ∧ v.toNat % 32 ≤ 11 ∧ v.toNat / 32 ≤ 11 then some { q with vhash := v.setWidth 10 } else none
  | _ => none

/-- XINFO.V is 1. -/
def Seq.named (q : Seq) : Bool := q.xinfo.getLsbD 31

/-- A WFE that leaves its wait: the latch and WF clear and the word completes (R150). -/
def Seq.wake (q : Seq) : Seq := { q with latch := false, wf := false }.finish (q.pc.setWidth 16)

/-- WFE: completes at once if the event latch is set; else WF is set and the sequencer waits (R150). -/
def execWfe (s : State) : Res :=
  let p := s.cur.patch
  let q := s.seq p
  if q.latch then .next (s.setSeq p q.wake)
  else .next (s.setSeq p { q with wf := true, wfeAt := if q.wf then q.wfeAt else s.clock.n })

/-- WFE_WAKE: the latch of a waiting sequencer is set, and its WFE completes (R150). -/
def execWfeWake (p : Nat) (s : State) : Res :=
  let q := s.seq p
  if q.wf && q.latch && !(s.patch p).frozen && !q.frozen then .next (s.setSeq p q.wake) else .next s

/-- WFE_TIMEOUT: 65,536 cycles of the patch have passed in the wait, and the WFE completes (R150, R444). -/
def execWfeTimeout (p : Nat) (s : State) : Res :=
  let q := s.seq p
  if q.wf && decide (q.wfeAt + s.cyclesOf p 65536 ≤ s.clock.n) && !(s.patch p).frozen && !q.frozen then .next (s.setSeq p q.wake)
  else .next s

/-- SUB of a FREEZE's record: 4 where the handler of a DEADLOCK issues it, else 1 (R397, R400). -/
def Seq.freezeSub (q : Seq) : Nat := if q.xt ∧ q.xcause.toNat % 256 = causeCode .deadlock then 4 else 1

/-- FREEZE: the saved pc is that of the word after it, and every patch of the load freezes; the record carries the
sequencer's XCAUSE, XVALH:XVAL and XINFO (R152). At the le of an active level the loop-end check is made first, and the saved pc is
lb where the level goes on (DESIGN CHOICE, log 43). -/
def execFreeze (s : State) : Res :=
  let p := s.cur.patch
  let q := s.seq p
  .next ((s.setSeq p (q.finish s.seqAt)).freezeLoad p q.freezeSub q.xinfo q.xcause (q.xvalh ++ q.xval))

/-- TSCR: both halves of one TSC reading (R149). -/
def execTscr (d : BitVec 5) (s : State) : Res := .next (runSeq (fun _ q => .done (q.putPair d s.clock.tsc)) s)

/-- RDTAG: the tag field of XINFO, or all ones when XINFO.V is 0 (R149). -/
def execRdtag (d : BitVec 5) (s : State) : Res :=
  .next (runSeq (fun _ q =>
    .done (q.put d (if q.named then ((q.xinfo >>> 10) &&& 0xFFF) else 0xFFFFFFFF))) s)

/-- TRAP: raises cause `c` with sub-cause `sub`, XVAL the value of ga, XPC the word after it (R111, R153). A cause of 0x00
or 0x15 to 0x7F is ILLOP with sub-cause 0. While XT is 1 the load is frozen, with the cause that the word names (R112). At 0xFFFC the address of
the word after is 0x1_0000, which XPC cannot hold: XPC takes 0x0000 (DESIGN CHOICE, log 59). -/
def execTrap (a : BitVec 5) (sub c : BitVec 8) (s : State) : Res :=
  let p := s.cur.patch
  let q := s.seq p
  let at_ := s.seqAt
  let v : DWord := (q.get a).setWidth 64
  let xc := xcause c.toNat sub.toNat false
  if q.xt then
    .next ((s.freezeLoad p 2 q.xinfo xc v).setSeq p
      { (s.freezeLoad p 2 q.xinfo xc v).seq p with pc := at_.setWidth 17 })
  else if c = 0 ∨ (0x15 ≤ c.toNat ∧ c.toNat ≤ 0x7F) then
    .next (s.seqFault p at_ .illop 0 (BitVec.ofNat 64 (encodeWord (.trap a sub c))))
  else .next (s.setPatch p { s.patch p with seq := { takeTrap q (at_ + 4) xc 0 v with last := at_ }, named := none })

/-- RESERVED_CONTROL_WORD: a control word that is no instruction raises ILLOP with sub-cause 0; XVAL holds the word (R102). -/
def execReservedControlWord (w : Word) (s : State) : Res :=
  .next (s.seqFault s.cur.patch s.seqAt .illop 0 (w.setWidth 64))

/-- The record of a DEADLOCK, in the top 256 bytes of the sequencer store (R400). -/
def deadlockStore (st : List Host.Cell) (r : Report) : List Host.Cell :=
  let n := Nat.min 64 r.ring.length
  let st := cellWrite st 0xFF00 (leBytes 4 n)
  let st := cellWrite st 0xFF08 (leBytes 8 r.tsc.toNat)
  cellWrite st 0xFF10 ((r.ring.take 64).flatMap (leBytes 2))

/-- The faulted instances of a patch whose reports wait for room (R36): element, instance, report. -/
def Patch.unqueued (x : Patch) : List (Nat × Inst × Report) :=
  x.elems.flatMap (fun v => v.2.insts.filterMap (fun i => i.pend.map (fun r => (v.1, i, r))))

/-- A report leaves the queue, and the first of those that wait takes its room: every element's in the order they occurred
(R36). -/
def Patch.promote (x : Patch) : Patch :=
  let l := x.unqueued
  match l.find? (fun a => l.all (fun b => decide (a.2.2.tsc.toNat ≤ b.2.2.tsc.toNat))) with
  | some (e, i, r) =>
    if x.fpend < 64 then
      let v := x.elem e
      { x.setElem e { v with insts := v.insts.map (fun j => if j.id = i.id then { j with pend := none } else j) } with
          reports := x.reports ++ [{ r with tsc := 0 }], seq := { x.seq with latch := true } }
    else x
  | none => x

/-- The sequencer stands between two control words, or waits in a WFE (R113). -/
def Seq.between (q : Seq) : Bool := !q.begun || q.wf

/-- ELEMENT_FAULT_DELIVERY: the oldest report of the patch enters the handler, only while XT is 0 and between control words; a WFE
leaves its wait first (R36, R111, R113, R400). Where execution has run off the store, the trap for that comes first (R122). The load counts the
report, and keeps its first fault (R385). -/
def execElementFaultDelivery (p : Nat) (s : State) : Res :=
  let x := s.patch p
  match x.reports with
  | [] => .next s
  | r :: rest =>
    if x.seq.xt || x.frozen || x.seq.frozen || !x.running || !x.seq.between then .next s
    else
      let q := if x.seq.wf then x.seq.wake else x.seq
      if q.pc = 0x10000 then .next (s.setPatch p { x with seq := q }) else
      let q := if r.ring.isEmpty then q else { q with store := deadlockStore q.store r }
      let y := { x with seq := q, reports := rest }.promote
      let s := s.setPatch p { y with seq := takeTrap y.seq (q.pc.setWidth 16) r.cause r.info r.val, named := r.inst }
      .next (match x.load with
        | some (ql, _) => if r.ring.isEmpty then s.modLoad ql (fun l => l.countFault r.cause r.val) else s
        | none => s)

end Sys2Proof.Machine
end

