-- ==== Sys2Proof/Machine/SeqMem.lean ====
section
/-! DEFINITION. The sequencer's flat-memory words, SIGNAL, FENCE and LAUNCH (R131 to R135, R151). -/

namespace Sys2Proof.Machine

/-- A flat access of the sequencer faults (R133): the trap is taken; a PERM fault also freezes the sequencer as an offending
master, with a freeze record (R396). -/
def State.flatFault (s : State) (p : Nat) (a : Half) (c : Cause) (sub : Nat) (val : DWord) : State :=
  let s' := s.seqFault p a c sub val
  if c = .perm then
    let l := s.loadOf p
    let s' := s'.setSeq p { s'.seq p with frozen := true }
    { s' with freezes := s'.freezes ++
        [freezeRec 0 (s.lpOf p) ((l.map (fun l => l.q)).getD 0) (s.partOf p) 1 0 0 ((l.map (fun l => l.lid.toNat)).getD 0)
          (s'.seq p).xinfo (xcause (causeCode c) sub false) val s.clock.tsc 0] }
  else s'

/-- Run a flat-memory word of the sequencer whose turn it is: alignment first, then translation (R133); where the address
waits for a frame under pull, and where `f` answers none, the word waits and is taken up again at its next turn. -/
def flatWord (fa : DWord) (size : Nat) (who : Asker) (f : Place → Option State) (s : State) : State :=
  let p := s.cur.patch
  if fa.toNat % size ≠ 0 then s.flatFault p s.seqAt .align 0 fa
  else match s.seqTranslate p fa who with
    | .fault c sub => s.flatFault p s.seqAt c sub fa
    | .wait => s.setSeq p { s.seq p with pullAt := some ((s.seq p).pullAt.getD s.clock.ns) }
    | .ok pl => (f pl).getD s

/-- What a request of the sequencer whose turn it is has come to: its word goes on with the answer, waits, or faults. -/
def State.onVia (s : State) (v : Via) (fa : DWord) (f : List Byte → State → State) : Option State :=
  match v with
  | .wait s _ => some s
  | .got bs s => some (f bs s)
  | .fault c sub s' => some (s'.flatFault s.cur.patch s.seqAt c sub fa)

/-- The word of the sequencer whose turn it is completes, with its sequencer changed by `g`. -/
def State.complete (s : State) (g : Seq → Seq) : State :=
  s.seqOut s.cur.patch s.seqAt (.done { g (s.seq s.cur.patch) with pullAt := none })

/-- LDM: a sized load at a scope, with acquire order or plain (R131). It completes when its data is in the registers (R108),
so a later access of the sequencer never goes ahead of it. -/
def execLdm (d a : BitVec 5) (_o z : BitVec 2) (sg : BitVec 1) (c : BitVec 3) (s : State) : Res :=
  let p := s.cur.patch
  let size := 2 ^ z.toNat
  let fa := (s.seq p).pair a
  .next (flatWord fa size .plain (fun pl =>
    s.onVia (s.readVia (.seq p) (scopeOf c) pl size fa) fa (fun bs s =>
      let v := leNat bs
      s.complete (fun q =>
        if z = 3 then q.putPair d (BitVec.ofNat 64 v)
        else q.put d (if sg = 1 then (BitVec.ofNat (8 * size) v).signExtend 32 else BitVec.ofNat 32 v)))) s)

/-- The bytes of a value from an address on. -/
def bytesAt (a n v : Nat) : List (Nat × Byte) := ((List.range n).map (a + ·)).zip (leBytes n v)

/-- STM: a sized store at a scope, plain or with release order; it completes when it has entered the issue queue (R108,
R131). -/
def execStm (d a : BitVec 5) (o z : BitVec 2) (c : BitVec 3) (s : State) : Res :=
  let p := s.cur.patch
  let q := s.seq p
  let size := 2 ^ z.toNat
  let v := if z = 3 then (q.pair d).toNat else (q.get d).toNat
  let fa := q.pair a
  .next (flatWord fa size .plain (fun pl =>
    let st : Store := ⟨pl, bytesAt pl.addr size v, [], scopeOf c, o == 1, fa, false⟩
    some ((s.issue (.seq p) (scopeOf c) pl (.store st) false (o == 1) fa).complete id)) s)

/-- An atomic of the sequencer: it takes its Owner step when that is enabled and waits for the returned value (R108, R131);
gd, or the gd pair, supplies the operand and receives the old value; ACAS takes the new value from the registers after. -/
def amomWord (k : AtomKind) (d a : BitVec 5) (w : BitVec 1) (o : BitVec 2) (c : BitVec 3) (s : State) : Res :=
  let p := s.cur.patch
  let q := s.seq p
  let wide := w == 1
  let x : DWord := if wide then q.pair d else (q.get d).setWidth 64
  let y : DWord := if wide then q.pair (d + 2) else (q.get (d + 1)).setWidth 64
  let fa := q.pair a
  .next (flatWord fa (if wide then 8 else 4) .owner (fun pl =>
    let acc : Access := ⟨s.ord.nextId, .seq p, scopeOf c, pl, .owner (.atomic k wide x y) .none, o.getLsbD 0, o.getLsbD 1,
      false, fa, 0, s.ord.nextId, none⟩
    if s.ownerReady acc [pl.addr / 8] then
      s.onVia (s.atomVia (.seq p) none k wide pl x y (scopeOf c) (o.getLsbD 0) (o.getLsbD 1) fa) fa (fun bs s =>
        s.complete (fun q => if wide then q.putPair d (answer bs) else q.put d ((answer bs).setWidth 32)))
    else none) s)

/-- AADD of the sequencer (R131). -/
def execSeqAadd (d a : BitVec 5) (w : BitVec 1) (o : BitVec 2) (c : BitVec 3) (s : State) : Res := amomWord .add d a w o c s

/-- AMIN of the sequencer (R131). -/
def execSeqAmin (d a : BitVec 5) (w : BitVec 1) (o : BitVec 2) (c : BitVec 3) (s : State) : Res := amomWord .min d a w o c s

/-- AMAX of the sequencer (R131). -/
def execSeqAmax (d a : BitVec 5) (w : BitVec 1) (o : BitVec 2) (c : BitVec 3) (s : State) : Res := amomWord .max d a w o c s

/-- AAND of the sequencer (R131). -/
def execSeqAand (d a : BitVec 5) (w : BitVec 1) (o : BitVec 2) (c : BitVec 3) (s : State) : Res := amomWord .and d a w o c s

/-- AOR of the sequencer (R131). -/
def execSeqAor (d a : BitVec 5) (w : BitVec 1) (o : BitVec 2) (c : BitVec 3) (s : State) : Res := amomWord .or d a w o c s

/-- AXOR of the sequencer (R131). -/
def execSeqAxor (d a : BitVec 5) (w : BitVec 1) (o : BitVec 2) (c : BitVec 3) (s : State) : Res := amomWord .xor d a w o c s

/-- ASWP of the sequencer (R131). -/
def execSeqAswp (d a : BitVec 5) (w : BitVec 1) (o : BitVec 2) (c : BitVec 3) (s : State) : Res := amomWord .swap d a w o c s

/-- ACAS of the sequencer (R131). -/
def execSeqAcas (d a : BitVec 5) (w : BitVec 1) (o : BitVec 2) (c : BitVec 3) (s : State) : Res := amomWord .cas d a w o c s

/-- SIGNAL: an atomic add to a 32-bit word, a release at its scope; it completes when it has entered the issue queue (R108,
R135). -/
def execSignal (a b : BitVec 5) (sc : BitVec 3) (s : State) : Res :=
  let p := s.cur.patch
  let q := s.seq p
  let fa := q.pair a
  .next (flatWord fa 4 .owner (fun pl =>
    some ((s.issue (.seq p) (scopeOf sc) pl (.owner (.signal (q.get b)) .none) false true fa).complete id)) s)

/-- The wider of two scopes. -/
def widerScope (a b : Scope) : Scope := if Scope.rank a ≤ Scope.rank b then b else a

/-- The ports of a patch that hold a parked access. -/
def Patch.parkedPorts (x : Patch) : List (Nat × Nat) :=
  (List.range 16).filterMap (fun k => (x.port k).parked.map (fun m => (k, m.step)))

/-- The fence tokens at a patch's ports are satisfied (R320): every access that the ports entered before number `n` is
performed at the scope, and so is each access that was parked then, by port and step, once it has been released; one that faults
and freezes its port delays them no longer, and neither does one that has become a BUBBLE slot. -/
def State.tokensMet (s : State) (p n : Nat) (parked : List (Nat × Nat)) (sc : Scope) : Bool :=
  (List.range 16).all (fun k => s.allPerformed (.port p k) n sc) &&
  parked.all (fun (k, st) =>
    let pt := s.port p k
    (pt.frozen || pt.parked.all (fun m => m.step != st)) &&
    pt.freed.all (fun f => f.1 != st || s.allPerformed (.port p k) f.2 sc))

/-- FENCE of the sequencer: it completes when every earlier flat access and SIGNAL is performed at the scope; at `.part` or
wider it is a token at every stream port as well, which covers what the ports had entered when it issued (R151, R313,
R320). -/
def execSeqFence (sc : BitVec 3) (s : State) : Res :=
  let p := s.cur.patch
  let q := s.seq p
  let scope := scopeOf sc
  let tok := q.token.getD (s.ord.nextId, (s.patch p).parkedPorts)
  let met := s.allPerformed (.seq p) s.ord.nextId scope &&
    (decide (Scope.rank scope < 2) || s.tokensMet p tok.1 tok.2 scope)
  if met then .next (s.complete (fun q => { q with token := none }))
  else .next (s.setSeq p { q with token := some tok })

/-- The address of a queue's ring entry (R427): in host memory, or in the partition's flat space (R376; log 21). -/
def Queue.entry (q : Queue) (n : Nat) : DWord := BitVec.ofNat 64 (q.ringBase + 64 * (n % 2 ^ q.ringLog))

/-- Where a ring entry lies. -/
def State.ringPlace (s : State) (q : Queue) (n : Nat) : Tr Place :=
  if q.ringHost then .ok ⟨hostBase + (q.entry n).toNat, .rc, true, false⟩ else s.translate q.part (q.entry n) .plain

/-- The ring of a queue holds 2^L packets that the command processor has not copied (R427). -/
def Queue.full (q : Queue) : Bool := (q.tail - q.headCnt).toNat == 2 ^ q.ringLog

/-- Packets have been appended: a queue that was IDLE waits (R372). -/
def Queue.appended (q : Queue) (tail : Word) : Queue :=
  { q with tail := tail, st := if q.st = .idle ∧ tail ≠ q.headCnt then .wait else q.st }

/-- The sequencer of a patch as a launcher: its load, by its order, and the patch index in it, which stay the same when the load is
moved or restored (R4, R150; DEDUCED, log 61). -/
def State.launcherOf (s : State) (p : Nat) : List (Nat × Nat) :=
  match (s.patch p).load with
  | some (q, i) => (s.loads.filter (fun l => l.q == q)).map (fun l => (l.order, i))
  | none => []

/-- LAUNCH: once every earlier flat access is performed at `.dev`, the packet is read and appended to queue gb; gd takes 0,
QFULL, or PERM with sub-cause 3 (R110, R134, R427). A ring entry that does not translate faults as the packet's address would
(log 21). -/
def execLaunch (d a b : BitVec 5) (s : State) : Res :=
  let p := s.cur.patch
  let q := s.seq p
  let n := (q.get b).toNat
  .next (flatWord (q.pair a) 64 .plain (fun pl =>
    if !s.allPerformed (.seq p) s.ord.nextId .dev then none
    else match (if n < 4096 then smFind s.queues n else none) with
      | none => some (s.complete (fun q => q.put d 0x0304))
      | some hq =>
        if hq.part ≠ s.partOf p then some (s.complete (fun q => q.put d 0x0304))
        else if hq.full then some (s.complete (fun q => q.put d 0x14))
        else match s.ringPlace hq hq.tail.toNat with
          | .wait => none
          | .fault c sub => some (s.flatFault p s.seqAt c sub (hq.entry hq.tail.toNat))
          | .ok place => s.onVia (s.readVia (.seq p) .dev pl 64 (q.pair a)) (q.pair a) (fun bs s =>
            let s := s.issueStore (.cmdProc hq.part) ⟨place, ((List.range 64).map (place.addr + ·)).zip bs, [], .dev, false,
              hq.entry hq.tail.toNat, false⟩
            let ls := hq.launchers ++ (s.launcherOf p).map (fun x => (hq.tail.toNat, x))
            let hq := { hq.appended (hq.tail + 1) with launchers := ls }
            (s.setQueue n hq).complete (fun q => q.put d 0))) s)

end Sys2Proof.Machine
end

