-- ==== Sys2Proof/Machine/Stream.lean ====
section
/-! DEFINITION. Stream ports: descriptors, the port scoreboard, steps, misses, bubbles, repair (R39, R136 to R141, R319,
R320, R350 to R354). -/

namespace Sys2Proof.Machine

/-! ### Units (R20 to R23) -/

/-- Lane `i` of a unit (R20). -/
def lane (u : Slot) (i : Nat) : Word := (u >>> (32 * i)).setWidth 32

/-- A unit from its lanes, lane 0 first; lanes not given are 0. -/
def ofLanes (ls : List Word) : Slot := BitVec.ofNat 256 (leNat (ls.flatMap (fun w => leBytes 4 w.toNat)))

/-- A unit from its bytes. -/
def ofBytes (bs : List Byte) : Slot := BitVec.ofNat 256 (leNat bs)

/-- The kind field of a unit (R21, R22). -/
def uKind (u : Slot) : Nat := (u >>> 236).toNat % 16

/-- The tag field of a unit (R21). -/
def uTag (u : Slot) : BitVec 12 := (u >>> 224).setWidth 12

/-- The flags field of a unit (R23). -/
def uFlags (u : Slot) : Half := (u >>> 240).setWidth 16

/-- The time field of a change slot (R21). -/
def uTime (u : Slot) : DWord := (u >>> 128).setWidth 64

/-- Lane 7 from its fields (R21). -/
def header (kind : Nat) (tag : BitVec 12) (flags : Nat) : Word := BitVec.ofNat 32 (flags * 65536 + kind * 4096 + tag.toNat)

/-- A header that any operation that takes the slot refuses: a reserved kind or reserved flag bits (R22, R23). -/
def badHeader (h : Word) : Bool := decide ((h >>> 12).toNat % 16 > 3) || decide ((h >>> 18).toNat ≠ 0)

/-- A change slot: CHANGE, BUBBLE or MARK (R21). -/
def isChange (u : Slot) : Bool := decide (1 ≤ uKind u) && decide (uKind u ≤ 3)

/-! ### Descriptors (R137, R139) -/

/-- A signed 32-bit field. -/
def sgn32 (n : Nat) : Int := (BitVec.ofNat 32 n).toInt

/-- The fields of a stream descriptor (R137). -/
def Stream.parse (w : List DWord) : Stream :=
  let g := fun i => w.getD i 0
  { toMem := bits (g 0) 59 59 == 1, bubble := bits (g 0) 58 58 == 1, tensor := bits (g 0) 57 57 == 1,
    payload := bits (g 0) 56 56 == 1, el := bits (g 0) 55 50, qp := bits (g 0) 49 48, nd := bits (g 0) 47 46,
    tens := bits (g 0) 43 24, base := bits (g 1) 55 0,
    org := [bits (g 1) 23 0, bits (g 1) 47 24, bits (g 2) 23 0, bits (g 2) 47 24],
    cnt := [bits (g 3) 31 0, bits (g 3) 63 32, bits (g 4) 31 0, bits (g 4) 63 32],
    str := [sgn32 (bits (g 5) 31 0), sgn32 (bits (g 5) 63 32), sgn32 (bits (g 6) 31 0), sgn32 (bits (g 6) 63 32)] }

/-- Bytes that a step moves (R138). -/
def Stream.size (d : Stream) : Nat := if d.payload then 28 else 32

/-- A descriptor that SBIND refuses (R137, R139). -/
def Stream.bad (w : List DWord) : Bool :=
  let g := fun i => w.getD i 0
  let d := Stream.parse w
  let al : Nat := if d.payload then 4 else 32
  let used := List.range (d.nd + 1)
  let unused := (List.range 4).filter (fun i => decide (d.nd < i))
  bits (g 0) 63 60 != 1 || bits (g 0) 45 44 != 0 || bits (g 0) 23 0 != 0 || g 7 != 0 ||
  used.any (fun i => d.cnt.getD i 0 == 0) ||
  unused.any (fun i => d.cnt.getD i 0 != 0 || d.str.getD i 0 != 0) ||
  (if d.tensor then bits (g 1) 63 48 != 0 || bits (g 2) 63 48 != 0
   else d.tens != 0 || bits (g 1) 63 56 != 0 || g 2 != 0 || d.base % al != 0 ||
     used.any (fun i => decide (d.cnt.getD i 0 > 1) && decide (d.str.getD i 0 % (al : Int) ≠ 0)))

/-- The number of steps (R138). -/
def Stream.steps (d : Stream) : Nat := (d.cnt.take (d.nd + 1)).foldl (· * ·) 1

/-- The index vector of a step, i0 varying fastest (R138). -/
def Stream.index (d : Stream) (n : Nat) : List Nat :=
  let c := fun i => if i ≤ d.nd then Nat.max 1 (d.cnt.getD i 1) else 1
  [n % c 0, n / c 0 % c 1, n / (c 0 * c 1) % c 2, n / (c 0 * c 1 * c 2) % c 3]

/-- The flat address of a step: BASE plus the strides (R138). -/
def Stream.addr (d : Stream) (n : Nat) : Int :=
  let i := d.index n
  (d.base : Int) + ((List.range 4).map (fun k => (i.getD k 0 : Int) * d.str.getD k 0)).foldl (· + ·) 0

/-- The tensor coordinates of a step (R138). -/
def Stream.coords (d : Stream) (n : Nat) : List Int :=
  let i := d.index n
  (List.range 4).map (fun k => (d.org.getD k 0 : Int) + (i.getD k 0 : Int) * d.str.getD k 0)

/-- The lowest and highest value that a start plus a strided index takes. -/
def spread (start : Int) (l : List (Nat × Int)) : Int × Int :=
  l.foldl (fun r (c, st) =>
    let t := ((c : Int) - 1) * st
    if t < 0 then (r.1 + t, r.2) else (r.1, r.2 + t)) (start, start)

/-- The footprints of two streams overlap (R140): ranges of bytes, or boxes of coordinates of one tensor. -/
def Stream.overlaps (x y : Stream) : Bool :=
  let dims := fun (d : Stream) => (List.range (d.nd + 1)).map (fun k => (d.cnt.getD k 1, d.str.getD k 0))
  if x.tensor ≠ y.tensor then false
  else if x.tensor then
    x.tens == y.tens && (List.range 4).all (fun k =>
      let box := fun (d : Stream) => spread (d.org.getD k 0) (if k ≤ d.nd then [(d.cnt.getD k 1, d.str.getD k 0)] else [])
      decide ((box x).1 ≤ (box y).2) && decide ((box y).1 ≤ (box x).2))
  else
    let a := spread x.base (dims x)
    let b := spread y.base (dims y)
    decide (a.1 ≤ b.2 + (y.size : Int) - 1) && decide (b.1 ≤ a.2 + (x.size : Int) - 1)

/-! ### The scoreboard (R39, R139 to R141) -/

/-- The numbers of the patch's stream commands that have not completed. -/
def Patch.openCmds (x : Patch) : List Nat :=
  x.ports.flatMap (fun (_, k) => k.cmds.map (fun c => c.1) ++ k.running.toList)

/-- No SBAR holds command `n` back (R141). -/
def Patch.barsPassed (x : Patch) (n : Nat) : Bool :=
  x.bars.all (fun b => decide (n < b) || x.openCmds.all (fun m => decide (b ≤ m)))

/-- No earlier-started, incomplete DIR 1 stream of the patch overlaps the stream (R140). -/
def Patch.footprintFree (x : Patch) (d : Stream) : Bool :=
  x.ports.all (fun (_, k) => match k.running, k.bound with
    | some _, some b => !(b.toMem && b.overlaps d)
    | _, _ => true)

/-- No drain holds command `n` back: one issued after the allocator asked for it does not start (R379, R388). -/
def Patch.mayStart (x : Patch) (n : Nat) : Bool :=
  match x.drainFrom with
  | none => true
  | some m => decide (n < m)

/-- The first command of port `k` takes effect, where it may: a binding once every earlier command has completed, an SGO
once its stream may start (R139, R140). Completing a command sets the event latch (R150). -/
def Patch.advance1 (x : Patch) (k : Nat) : Patch :=
  let pt := x.port k
  match pt.running, pt.cmds with
  | none, (n, .bind d) :: r =>
    if x.barsPassed n && x.mayStart n then
      { x with ports := smSet x.ports k { pt with bound := some d, cmds := r, bubble := d.bubble && !d.toMem, ht := 0 },
               seq := { x.seq with latch := true } }
    else x
  | none, (n, .go) :: r =>
    match pt.bound with
    | none => { x with ports := smSet x.ports k { pt with cmds := r } }
    | some d =>
      if x.barsPassed n && x.mayStart n && x.footprintFree d then
        { x with ports := smSet x.ports k { pt with running := some n, cmds := r, step := 0, ht := 0, got := [],
                                                    bubble := d.bubble && !d.toMem } }
      else x
  | _, _ => x

/-- The ports that hold a command, the one whose command was issued first in front. -/
def Patch.portOrder (x : Patch) : List Nat :=
  (sortBy (fun a b => decide (a.1 < b.1)) (x.ports.filterMap (fun (k, pt) => pt.cmds.head?.map (fun c => (c.1, k))))).map Prod.snd

/-- Let the commands of every port take effect, as far as they may; barriers that are passed are forgotten. Of two overlapping
streams that may start at one moment the one issued first does (DEDUCED from R39; R140 gives no order; log 73). -/
def Patch.advance (x : Patch) : Patch :=
  let x := (x.portOrder.flatMap (fun k => [k, k])).foldl (fun x k => x.advance1 k) x
  { x with bars := x.bars.filter (fun b => x.openCmds.any (fun m => decide (m < b))) }

/-- Add a stream command to a port's scoreboard. -/
def Patch.addCmd (x : Patch) (k : Nat) (c : PortCmd) : Patch :=
  let pt := x.port k
  { x with ports := smSet x.ports k { pt with cmds := pt.cmds ++ [(x.cmdNo, c)] }, cmdNo := x.cmdNo + 1 }.advance

/-- SBIND: the descriptor is read at `.dev` and checked; the binding takes effect when every earlier command of the port has
completed (R139). -/
def execSbind (a : BitVec 5) (k : BitVec 4) (s : State) : Res :=
  let p := s.cur.patch
  let fa := (s.seq p).pair a
  if fa.toNat % 64 ≠ 0 then .next (s.seqFault p s.seqAt .illop 1 fa)
  else .next (flatWord fa 64 .plain (fun pl =>
    s.onVia (s.readVia (.seq p) .dev pl 64 fa) fa (fun bs s =>
      let w := (List.range 8).map (fun i => (BitVec.ofNat 64 (leNat ((bs.drop (8 * i)).take 8)) : DWord))
      if Stream.bad w then s.seqFault p s.seqAt .illop 1 fa
      else (s.setPatch p ((s.patch p).addCmd k.toNat (.bind (Stream.parse w)))).complete id)) s)

/-- SGO: starts the port's bound stream once every earlier command on the port has completed; on a port that has never been
bound it is ILLOP with sub-cause 2 (R139). -/
def execSgo (k : BitVec 4) (s : State) : Res :=
  let p := s.cur.patch
  let pt := s.port p k.toNat
  let ever := pt.bound.isSome || pt.cmds.any (fun c => match c.2 with | .bind _ => true | .go => false)
  if ever then .next ((s.setPatch p ((s.patch p).addCmd k.toNat .go)).complete id)
  else .next (s.seqOut p s.seqAt (.faultOpen .illop 2))

/-- SWAITP: stalls the sequencer until every command issued earlier to its port has completed, and, behind an SBAR, until every
stream command issued before that has; its completion sets the event latch (R139, R141, R150). -/
def execSwaitp (k : BitVec 4) (s : State) : Res :=
  let x := s.patch s.cur.patch
  let pt := x.port k.toNat
  if pt.running.isNone && pt.cmds.isEmpty && x.barsPassed x.cmdNo then .next (s.complete (fun q => { q with latch := true }))
  else .next s

/-- SBAR: every stream command issued after it waits for every one issued before it; the sequencer does not stall (R141). -/
def execSbar (s : State) : Res :=
  let p := s.cur.patch
  let x := s.patch p
  .next ((s.setPatch p { x with bars := x.bars ++ [x.cmdNo] }.advance).complete id)

/-! ### Steps (R138, R350 to R353) -/

/-- The descriptor of a tensor of a partition (R291, R346). -/
def State.tensor (s : State) (part tens : Nat) : Option Tensor :=
  ((s.part part).tensors.find? (fun t => t.1 == tens)).map (fun t =>
    let g := fun i => t.2.getD i 0
    let nd := bits (g 0) 59 58
    { fmt := bits (g 0) 57 54, order := bits (g 0) 53 53, nd := nd, l0 := bits (g 0) 43 40, l1 := bits (g 0) 47 44,
      ext := [bits (g 1) 23 0, if 1 ≤ nd then bits (g 1) 47 24 else 1, if 2 ≤ nd then bits (g 2) 23 0 else 1,
              if 3 ≤ nd then bits (g 2) 47 24 else 1],
      ttab := g 3 })

/-- Where a step's access lies: its pieces, each in one frame, with their lengths (R314); and its fault address (R138, R346, R347,
R350). A flat step of 28 bytes may straddle two frames; each piece is translated, and the first fault decides. The rules leave
open what follows for a tensor (log 73): a step whose bytes run past the end of its tile goes on to the physical bytes after it
(DESIGN CHOICE), and a negative coordinate gives, as a tensor without a descriptor does, XLATE 0 with TENS and zeros as the
fault address (DESIGN CHOICE). -/
def State.stepPlace (s : State) (p k : Nat) (d : Stream) (n : Nat) : Tr (List (Place × Nat)) × DWord :=
  let part := s.partOf p
  let whole := fun (t : Tr Place × DWord) => (t.1.bind (fun pl => .ok [(pl, d.size)]), t.2)
  if d.tensor then
    let cs := d.coords n
    let tag : DWord := BitVec.ofNat 64 (at64 d.tens 44)
    match s.tensor part d.tens with
    | none => (.fault .xlate 0, tag)
    | some t =>
      if t.bad then (.fault .illop 1, tag)
      else if cs.any (fun c => decide (c < 0)) then (.fault .xlate 0, tag)
      else whole (s.translateTensor (.port p k) part d.tens t (cs.map Int.toNat))
  else
    let a := d.addr n
    let fa := BitVec.ofInt 64 a
    let room := 65536 - (a % 65536).toNat
    let at_ := fun (x : Int) => s.translateAt (.port p k) part (BitVec.ofInt 64 x) .plain
    if a < 0 ∨ a + d.size > 2 ^ 56 then (.fault .xlate 0, fa)
    else if d.size ≤ room then whole (at_ a, fa)
    else match at_ a with
      | .ok x => ((at_ (a + room)).bind (fun y => .ok [(x, room), (y, d.size - room)]), BitVec.ofInt 64 (a + room))
      | .wait => (.wait, fa)
      | .fault c sub => (.fault c sub, fa)

/-- A fault record (R350). -/
def faultRec (lp k : Nat) (bubble : Bool) (c : Cause) (sub : Nat) (fa tsc : DWord) (step : Nat) (tok : Word) : FaultRec :=
  [BitVec.ofNat 64 (at64 lp 32 + at64 bubble.toNat 20 + at64 k 16 + at64 sub 8 + causeCode c), fa, tsc,
   BitVec.ofNat 64 (at64 (step % 2 ^ 32) 32 + tok.toNat)]

/-- The port freezes as an offending master (R350, R396). -/
def State.freezePort (s : State) (p k : Nat) (sub : Nat) (fa : DWord) : State :=
  let l := s.loadOf p
  let s' := s.setPort p k { s.port p k with frozen := true }
  { s' with freezes := s'.freezes ++
      [freezeRec 0 (s.lpOf p) ((l.map (fun l => l.q)).getD 0) (s.partOf p) 2 0 k ((l.map (fun l => l.lid.toNat)).getD 0)
        0 (xcause 4 sub false) fa s.clock.tsc 0] }

/-- Put a unit into input queue `q` of an element; `time` is what the Front unit counts a DATA slot at (R238). -/
def Elem.enqueue (v : Elem) (q : Nat) (u : Slot) (time : DWord) : Elem :=
  { v with q := v.q.set q (v.q.getD q [] ++ [⟨u, if isChange u then uTime u else time, none⟩]) }

/-- The slot that a DIR 0 step makes of the bytes read (R138). -/
def Stream.slot (d : Stream) (n : Nat) (bs : List Byte) : Slot :=
  if d.payload then
    ofBytes (bs ++ leBytes 4 (header 0 (BitVec.ofNat 12 n) (if n + 1 = d.steps then 1 else 0)).toNat)
  else ofBytes bs

/-- A missed step, with the port's next token and its record queued (R350). -/
def State.miss (s : State) (p k n : Nat) (pt : Port) (bubble : Bool) (c : Cause) (sub : Nat) (fa : DWord) (u : Option Slot) :
    Port × Missed :=
  let tok := pt.tok + 1
  let m : Missed := ⟨n, fa, sub, tok, pt.ht, u, s.clock.ns, false, false⟩
  ({ pt with tok := tok, recs := pt.recs ++ [faultRec (s.lpOf p) k bubble c sub fa s.clock.tsc n tok] }, m)

/-- The BUBBLE slot of a missed step (R352). -/
def bubbleSlot (n : Nat) (fa ht : DWord) : Slot :=
  ofLanes [BitVec.ofNat 32 n, 0, fa.setWidth 32, (fa >>> 32).setWidth 32, ht.setWidth 32, (ht >>> 32).setWidth 32, 0,
    header 2 (BitVec.ofNat 12 n) 0]

/-- A slot that a DIR 0 port emits into its queue; HT follows CHANGE and MARK slots (R238, R352). -/
def State.portEmit (s : State) (p k : Nat) (d : Stream) (pt : Port) (u : Slot) : State :=
  let s := s.setElem p d.el ((s.elem p d.el).enqueue d.qp u pt.ht)
  s.setPort p k { pt with ht := if uKind u = 1 ∨ uKind u = 3 then uTime u else pt.ht }

/-- A fault that is neither a miss of translation nor a broken boundary ends the port's stream (R319); its record, with the
cause, is queued as a miss's is (DEDUCED from R346 and R350; log 55). -/
def State.endStream (s : State) (p k n : Nat) (c : Cause) (sub : Nat) (fa : DWord) : State :=
  let x := s.patch p
  let pt := (s.miss p k n (x.port k) false c sub fa none).1
  s.setPatch p { x with ports := smSet x.ports k { pt with running := none, parked := none, bubbles := [], got := [] },
                        seq := { x.seq with latch := true } }

/-- A slot that a DIR 1 step takes leaves the element's output buffer (R138). -/
def State.takeSlot (s : State) (p : Nat) (d : Stream) : State :=
  let v := s.elem p d.el
  let o := v.o.getD d.qp OutPort.reset
  s.setElem p d.el { v with o := v.o.set d.qp { o with buf := o.buf.drop 1 } }

/-- A step misses: it is emitted as a bubble or parked with its slot, a PERM freezes the port before the step is made, and any
other fault ends the stream (R319, R350 to R352, R396). `buf` says that the slot `u` still stands in the output buffer. -/
def State.portMiss (s : State) (p k n : Nat) (d : Stream) (pt : Port) (c : Cause) (sub : Nat) (fa : DWord) (u : Option Slot)
    (buf : Bool) : State :=
  if c = .perm then s.freezePort p k sub fa
  else if c ≠ .xlate then s.endStream p k n c sub fa
  else if pt.bubble && !d.toMem && decide (pt.bubbles.length < 64) then
    let (pt', m) := s.miss p k n pt true c sub fa none
    s.portEmit p k d { pt' with bubbles := pt'.bubbles ++ [m], step := n + 1, got := [], pullAt := none } (bubbleSlot n fa pt.ht)
  else
    let (pt', m) := s.miss p k n pt false c sub fa u
    let s := if buf then s.takeSlot p d else s
    s.setPort p k { pt' with parked := some m, step := n + 1, got := [], pullAt := none }

/-- The stores of a DIR 1 step, at `.part` (R138, R302). -/
def stepStores (fa : DWord) : List (Place × Nat) → List Byte → List Store
  | [], _ => []
  | (pl, n) :: r, bs =>
    ⟨pl, ((List.range n).map (pl.addr + ·)).zip (bs.take n), [], .part, false, fa, false⟩ ::
      stepStores (fa + BitVec.ofNat 64 n) r (bs.drop n)

/-- A step of a running stream, at number `n`, whose place is `t`; `u` is the slot a DIR 1 step writes. The state where the
step is made, missed or asked for at another module; none where it must wait. -/
def State.portAccess (s : State) (p k n : Nat) (d : Stream) (pt : Port) (t : Tr (List (Place × Nat)) × DWord) (u : Option Slot)
    (buf : Bool) : Option State :=
  match t.1 with
  | .wait => some (s.setPort p k { s.port p k with pullAt := some (pt.pullAt.getD s.clock.ns) })
  | .fault c sub => some (s.portMiss p k n d pt c sub t.2 u buf)
  | .ok l =>
    match u with
    | none => match s.readAll (.port p k) .patch t.2 l with
      | .wait s sent => if sent then some s else none
      | .got bs s => some (s.portEmit p k d { pt with step := n + 1, parked := none, got := [], pullAt := none } (d.slot n bs))
      | .fault c sub s => some (s.portMiss p k n d pt c sub t.2 u buf)
    | some u =>
      let bs := ((List.range 32).map (fun i => (u >>> (8 * i)).setWidth 8)).take d.size
      let s := s.issueStores (.port p k) (stepStores (if d.tensor then t.2 else BitVec.ofInt 64 (d.addr n)) l bs)
      let s := if buf then s.takeSlot p d else s
      some (s.setPort p k { pt with step := n + 1, parked := none, pullAt := none,
                                    freed := if buf then pt.freed else (n, s.ord.nextId) ::
                                      pt.freed.filter (fun f => !s.allPerformed (.port p k) f.2 .dev) })

/-- A stream is complete: its last slot is in the queue and its bubble list is empty, or its last write is performed at
`.part` (R141, R353). -/
def State.portDone (s : State) (p k : Nat) (d : Stream) (pt : Port) : Bool :=
  decide (d.steps ≤ pt.step) && pt.parked.isNone && pt.bubbles.isEmpty &&
  (!d.toMem || s.allPerformed (.port p k) s.ord.nextId .part)

/-- The queue that a DIR 0 stream feeds has room. -/
def State.queueRoom (s : State) (p : Nat) (d : Stream) : Bool := decide (((s.elem p d.el).q.getD d.qp []).length < 16)

/-- A parked access becomes a BUBBLE slot (R234, R319). -/
def State.bubbleOut (s : State) (p k : Nat) (d : Stream) (pt : Port) (m : Missed) : State :=
  s.portEmit p k d { pt with bubble := true, parked := none, bubbles := pt.bubbles ++ [{ m with ht := pt.ht, out := false }] }
    (bubbleSlot m.step m.fa pt.ht)

/-- STREAM_STEP: port `k` of patch `p` performs the next step of its running stream, or completes it; an access that BUBL has
asked for leaves as a BUBBLE slot when the queue has room (R138, R141, R234, R319, R350 to R352). With nothing to do it has no
effect. -/
def execStreamStep (p k : Nat) (s : State) : Res :=
  let x := s.patch p
  let pt := x.port k
  if x.frozen || pt.frozen || !x.running then .next s
  else match pt.running, pt.bound with
    | some _, some d =>
      if s.portDone p k d pt then
        .next (s.setPatch p { x with ports := smSet x.ports k { pt with running := none },
                                     seq := { x.seq with latch := true } }.advance)
      else match pt.parked with
        | some m => if m.out && s.queueRoom p d then .next (s.bubbleOut p k d pt m) else .next s
        | none =>
          if d.steps ≤ pt.step then .next s
          else if d.toMem then
            match ((s.elem p d.el).o.getD d.qp OutPort.reset).buf with
            | [] => .next s
            | u :: _ => .next ((s.portAccess p k pt.step d pt (s.stepPlace p k d pt.step) (some u.u) true).getD s)
          else if s.queueRoom p d then
            .next ((s.portAccess p k pt.step d pt (s.stepPlace p k d pt.step) none false).getD s)
          else .next s
    | _, _ => .next (s.setPatch p x.advance)

/-- RELEASE_STEP: a parked access whose resume has been given is translated again; the stream goes on from it, or it parks
again with a new token (R319, R351). -/
def execReleaseStep (p k : Nat) (s : State) : Res :=
  let x := s.patch p
  let pt := x.port k
  match pt.parked, pt.bound with
  | some m, some d =>
    if x.frozen || pt.frozen || !x.running || !m.resume || (!d.toMem && !s.queueRoom p d) then .next s
    else .next ((s.portAccess p k m.step d { pt with parked := none } (s.stepPlace p k d m.step) m.unit false).getD s)
  | _, _ => .next s

/-- A repaired slot: as the step was meant, with REPAIR in its header (R353). -/
def repaired (u : Slot) : Slot := u ||| ((2 : Slot) <<< 240)

/-- REPAIR_STEP: the repair pass of port `k` takes the first bubbled step that asks for it: its slot is emitted and leaves
the list, or it faults again and stays with a new record (R353). -/
def execRepairStep (p k : Nat) (s : State) : Res :=
  let x := s.patch p
  let pt := x.port k
  match pt.bound, pt.bubbles.find? (fun m => m.resume) with
  | some d, some m =>
    if x.frozen || pt.frozen || !x.running || !s.queueRoom p d then .next s
    else
      let again := fun (s : State) (c : Cause) (sub : Nat) (fa : DWord) =>
        if c = .perm then s.freezePort p k sub fa
        else if c ≠ .xlate then s.endStream p k m.step c sub fa
        else
          let (pt', m') := s.miss p k m.step pt true c sub fa none
          s.setPort p k { pt' with bubbles := pt'.bubbles.map (fun b => if b.step = m.step then { m' with ht := m.ht } else b) }
      match s.stepPlace p k d m.step with
      | (.wait, _) => .next s
      | (.fault c sub, fa) => .next (again s c sub fa)
      | (.ok l, fa) => match s.readAll (.port p k) .patch fa l with
        | .wait s _ => .next s
        | .fault c sub s => .next (again s c sub fa)
        | .got bs s =>
          .next (s.portEmit p k d { pt with bubbles := pt.bubbles.filter (fun b => b.step != m.step) } (repaired (d.slot m.step bs)))
  | _, _ => .next s

/-- A resume of a port (R351, R353): its parked access asks to be translated again, or a repair pass starts. -/
def Port.resume (pt : Port) : Port :=
  { pt with parked := pt.parked.map (fun m => { m with resume := true }),
            bubbles := pt.bubbles.map (fun m => { m with resume := true }), repair := true }

/-- THAW's effect at commit: a port that holds a parked access releases it (R234). -/
def State.thawPort (s : State) (p k : Nat) : Bool × State :=
  let pt := s.port p k
  if pt.parked.any (fun m => !m.out) then (true, s.setPort p k pt.resume) else (false, s)

/-- BUBL's effect at commit: the port's fault mode is set for the rest of its stream; set to bubble, a parked access is
emitted as a BUBBLE slot, at once or, where its queue is full, when that has room. A DIR 1 port stays in hold mode (R234, R351,
R352). The number of accesses released. -/
def State.bublPort (s : State) (p k mode : Nat) : Nat × State :=
  let pt := s.port p k
  if mode = 0 then (0, s.setPort p k { pt with bubble := false })
  else match pt.parked, pt.bound with
    | some m, some d =>
      if d.toMem then (0, s)
      else if 64 ≤ pt.bubbles.length then (0, s.setPort p k { pt with bubble := true })
      else if s.queueRoom p d then (1, s.bubbleOut p k d pt m)
      else (1, s.setPort p k { pt with bubble := true, parked := some { m with out := true } })
    | _, some d => (0, s.setPort p k { pt with bubble := !d.toMem })
    | _, none => (0, s.setPort p k { pt with bubble := true })

/-- FAULT_RECORD_WRITE: the oldest record of a port is written into its partition's fault queue, when the ring has room;
vector 4 of every virtual function of the partition is raised, and the load counts the fault (R350, R385, R428). The write of a
port whose patch is frozen waits, so that the completion record tells what stood at the freeze (R404; DEDUCED, log 73). -/
def execFaultRecordWrite (p k : Nat) (s : State) : Res :=
  let pt := s.port p k
  let n := s.partOf p
  let pa := s.part n
  match pt.recs with
  | [] => .next s
  | r :: rest =>
    if (s.patch p).frozen then .next s
    else if (pa.fqTail - pa.fqHead).toNat ≥ 2 ^ pa.fqLog then .next s
    else
      let at_ := pa.fqBase + 32 * (pa.fqTail.toNat % 2 ^ pa.fqLog)
      let bs := r.flatMap (fun w => leBytes 8 w.toNat)
      let s := s.setPort p k { pt with recs := rest }
      let s := s.issueStore (.port p k) ⟨⟨at_, .rc, false, false⟩, ((List.range 32).map (at_ + ·)).zip bs, [], .dev, false, 0, false⟩
      let s := s.setPart n { pa with fqTail := pa.fqTail + 1 }
      let s := { s with msix := s.msix ++ (s.vfs.filter (fun (v : Nat × Vf) => v.2.part == some n)).map (fun (v : Nat × Vf) => (v.1, 4)) }
      .next (match (s.patch p).load with
        | some (ql, _) => s.modLoad ql (fun l => l.countFault (BitVec.ofNat 32 (bits (r.getD 0 0) 15 0)) (r.getD 1 0))
        | none => s)

end Sys2Proof.Machine
end

