-- ==== Sys2Proof/Machine/Operands.lean ====
section
/-! DEFINITION. How an element word runs: its operands (R87, R88, R156 to R158), what its reads and writes do to the
instance, its waits and its faults (R31, R36, R101, R208). -/

namespace Sys2Proof.Machine

/-! ### What a word writes to ports and buffers, read from its bits (R158) -/

/-- How a word writes its destination: one lane, a whole unit, the close of a unit, or units whose number only its run gives. -/
inductive Put where
  | lane | unit | close | units
  deriving DecidableEq, Repr

def putBy (w : BitVec 1) : Put := if w = 1 then .unit else .lane

/-- The destination operand of an element word and how it is written; none where its destination is no operand of R87. -/
def instrDest : Instr → Option (Nat × Put)
  | .add d _ _ w _ _ | .sub d _ _ w _ _ | .mul d _ _ w _ _ | .mulh d _ _ w _ _ | .mulhu d _ _ w _ _
  | .div d _ _ w _ _ | .divu d _ _ w _ _ | .rem d _ _ w _ _ | .remu d _ _ w _ _ | .and d _ _ w _ _
  | .or d _ _ w _ _ | .xor d _ _ w _ _ | .sll d _ _ w _ _ | .srl d _ _ w _ _ | .sra d _ _ w _ _
  | .slt d _ _ w _ _ | .sltu d _ _ w _ _ | .min d _ _ w _ _ | .max d _ _ w _ _ | .adds d _ _ w _ _
  | .subs d _ _ w _ _ => some (d.toNat, putBy w)
  | .fadd d _ _ _ _ w _ _ | .fsub d _ _ _ _ w _ _ | .fmul d _ _ _ _ w _ _ | .fdiv d _ _ _ _ w _ _
  | .fmac d _ _ _ _ w _ _ => some (d.toNat, putBy w)
  | .fmin d _ _ _ w _ _ | .fmax d _ _ _ w _ _ | .feq d _ _ _ w _ _ | .flt d _ _ _ w _ _ | .fle d _ _ _ w _ _
  | .fsqrt d _ _ _ w _ _ => some (d.toNat, putBy w)
  | .mov d _ w _ _ => some (d.toNat, putBy w)
  | .sel d _ _ _ w _ _ => some (d.toNat, putBy w)
  | .pack d _ _ _ _ _ _ => some (d.toNat, .unit)
  | .unpk d _ _ _ _ _ _ => some (d.toNat, .unit)
  | .lext d _ _ _ | .mget d _ | .sprd d _ | .take d _ _ | .peek d _ _ | .waitf d _ _ | .waite d _ _
  | .rrot d _ _ _ => some (d.toNat, .lane)
  | .addi d _ _ | .andi d _ _ | .ori d _ _ | .xori d _ _ | .slti d _ _ | .slli d _ _ | .srli d _ _ | .srai d _ _
  | .movhi d _ => some (d.toNat, .lane)
  | .emit d _ => some (d.toNat, .close)
  | .cvt _ b _ _ _ | .sortn _ b _ _ _ => if 24 ≤ b.toNat then some (b.toNat, .units) else none
  | _ => none

/-- The lanes that words write to destination `r`, from `n` lanes on; none where a wide write is off a unit boundary. -/
def lanesTo (r : Nat) : List Instr → Nat → Option Nat
  | [], n => some n
  | i :: is, n =>
    match instrDest i with
    | none => lanesTo r is n
    | some (d, k) =>
      if d ≠ r then lanesTo r is n
      else match k with
        | .lane => lanesTo r is (n + 1)
        | .unit => if n % 8 = 0 then lanesTo r is (n + 8) else none
        | .close => lanesTo r is ((n / 8 + 1) * 8)
        | .units => if n % 8 = 0 then lanesTo r is n else none

/-- The words of a block, decoded. -/
def Block.instrs (b : Block) : List Instr := b.words.filterMap (fun w => (decodeElem w.toNat).toOption)

/-! ### Words as steps of an instance -/

/-- Why a word does not complete. -/
inductive Stop where
  /-- it waits for an operand -/
  | hold
  /-- it waits on its own account; the accesses that its wait covers -/
  | wait (cover : Option (List Nat))
  /-- it waits for a frame or a node under pull (R345, R357) -/
  | pull
  /-- it waits, and leaves a machine in which it holds more of what it waits for (R203) -/
  | keep (s : State)
  | fault (c : Cause) (sub : Nat) (val : DWord)
  /-- it breaks a boundary: the element freezes as an offending master (R208, R396) -/
  | perm (sub : Nat) (ptr : DWord)
  deriving DecidableEq, Repr

/-- What a word works on: the machine and its instance. -/
structure Wk where
  s : State
  i : Inst

abbrev W := StateT Wk (Except Stop)

def W.cur : W Cur := do pure (← get).s.cur

/-- The element that runs the word. -/
def W.elem : W Elem := do
  let k ← get
  pure (k.s.elem k.s.cur.patch k.s.cur.el)

/-- The element as an agent of the ordering machine. -/
def W.agent : W AgentId := do
  let c ← W.cur
  pure (.elem c.patch c.el)

/-- The word of the instance that is running. -/
def W.word : W DWord := do
  let k ← get
  let v ← W.elem
  pure (match smFind v.blocks k.i.blk with
    | some b => (b.words.getD k.i.pc 0).setWidth 64
    | none => 0)

def W.fault {α : Type} (c : Cause) (sub : Nat) (val : DWord) : W α := throw (.fault c sub val)

/-- ILLOP of an element word: XVAL holds the word (R101). -/
def W.illop {α : Type} (sub : Nat) : W α := do W.fault .illop sub (← W.word)

/-- ILLOP with a sub-cause that the spec leaves open: a free value (log 8). -/
def W.illopOpen {α : Type} : W α := do
  let k ← get
  W.illop (Config.freeByte k.s.free).toNat

/-- Draw a free choice (log 2). -/
def W.freeBool : W Bool := do
  let k ← get
  set { k with s := { k.s with free := k.s.free + 1 } }
  pure (Config.freeBool k.s.free)

/-- A patch in reduced service refuses a word when it executes (R444). -/
def W.fullOnly (wideFormat : Bool) : W Unit := do
  let k ← get
  if wideFormat && !(k.s.patch k.s.cur.patch).fullRate then W.illop 2

def W.upd (f : Inst → Inst) : W Unit := modify (fun k => { k with i := f k.i })

def W.regs (f : Regs → Regs) : W Unit := W.upd (fun i => { i with r := f i.r })

/-- An effect of word `w` takes its place in block-word order (R31, R32). -/
def putEff (w : Nat) (e : Eff) (l : List (Nat × Eff)) : List (Nat × Eff) :=
  l.filter (fun x => decide (x.1 ≤ w)) ++ (w, e) :: l.filter (fun x => decide (w < x.1))

/-- Add an effect of the instance's commit, in block-word order (R32). -/
def W.eff (e : Eff) : W Unit := W.upd (fun i => { i with effs := putEff i.pc e i.effs })

/-- A word of R183: it runs on the matrix unit. -/
def isMatrix : Instr → Bool
  | .mma _ _ _ _ _ _ _ | .mmag _ _ _ _ _ _ _ | .ldt _ _ _ | .sortn _ _ _ _ _ | .accld _ _ _ | .accst _ _ _ _
  | .rmax _ _ _ _ _ | .rmin _ _ _ _ _ | .rclmp _ _ _ _ _ | .rmed _ _ _ _ _ | .rsats _ _ _ _ _ | .adjb _ _ _ _
  | .amrg _ _ _ | .acmp _ _ _ => true
  | _ => false

/-- The element's matrix unit is free for the instance: no word of another instance has started on it (R183). -/
def W.unit : W Unit := do
  let k ← get
  if (← W.elem).insts.any (fun i => i.id != k.i.id && i.mx) then throw .hold

/-- An Owner step that a word makes before its instance commits, to test bits; where it is not enabled the word waits (R307, R316). -/
def W.ownTest (sc : Scope) (place : Place) (words : List Nat) : W Unit := do
  let k ← get
  match k.s.ownTest k.s.cur.patch k.s.cur.el k.i sc place words with
  | some s => set { k with s := s }
  | none => throw (.wait none)

/-- Put a number into a list of registers written. -/
def noted (l : List Nat) (n : Nat) : List Nat := if l.contains n then l else n :: l

/-- A load that is to fill a register has not returned. -/
def Inst.pending (i : Inst) (n : Nat) : Bool := i.loads.any (fun l => l.2.contains n)

/-- The s registers that take the result of an irrevocable operation. -/
def Irr.dests : Irr → List Nat
  | .owner _ _ _ _ _ d _ => d
  | .engine _ _ d _ => d

/-- Take a register out of those that an irrevocable operation fills: a later word of the block has written it. -/
def Irr.disown (n : Nat) : Irr → Irr
  | .owner pl sc a r op d v => .owner pl sc a r op (d.map (fun x => if x = n then 16 else x)) v
  | .engine k sc d v => .engine k sc (d.map (fun x => if x = n then 16 else x)) v

/-- An s register whose value the commit will give: the result of the irrevocable operation, of THAW or of BUBL. -/
def Inst.owed (i : Inst) (n : Nat) : Bool :=
  (match i.irr with
   | .held x _ => x.dests.contains n
   | _ => false) ||
  i.effs.any (fun e => match e.2 with
    | .thaw d _ => d == n
    | .bubl d _ _ => d == n
    | _ => false)

/-- A later word of the block writes the register: the last write counts (R31). -/
def Inst.disown (i : Inst) (n : Nat) : Inst :=
  { i with irr := match i.irr with
             | .held x w => .held (x.disown n) w
             | y => y,
           effs := i.effs.map (fun e => (e.1, match e.2 with
             | .thaw d k => .thaw (if d = n then 16 else d) k
             | .bubl d k m => .bubl (if d = n then 16 else d) k m
             | y => y)) }

/-- s register `n` (R31). A register that the commit fills has no value before it, and its reader waits. -/
def rdS (n : Nat) : W Word := do
  let k ← get
  if k.i.pending n || k.i.owed n then throw .hold else pure (k.i.r.s.getD n 0)

/-- w register `n` (R31). -/
def rdW (n : Nat) : W Slot := do
  let k ← get
  if k.i.pending (16 + n) then throw .hold else pure (k.i.r.w.getD n 0)

def rdM (n : Nat) : W Word := do pure ((← get).i.r.m.getD n 0)

/-- An even pair as one 64-bit value (R94, R237). -/
def rdPair (n : Nat) : W DWord := do
  let lo ← rdS n
  let hi ← rdS (n + 1)
  pure (hi ++ lo)

def wrS (n : Nat) (v : Word) : W Unit := do
  if (← get).i.pending n then throw .hold
  W.upd (fun i => { (i.disown n) with r := { i.r with s := i.r.s.set n v }, wS := noted i.wS n })

def wrW (n : Nat) (v : Slot) : W Unit := do
  if (← get).i.pending (16 + n) then throw .hold
  W.upd (fun i => { i with r := { i.r with w := i.r.w.set n v }, wW := noted i.wW n })

def wrM (n : Nat) (v : Word) : W Unit :=
  W.upd (fun i => { i with r := { i.r with m := i.r.m.set n v }, wM := noted i.wM n })

def wrPair (n : Nat) (v : DWord) : W Unit := do
  wrS n (v.setWidth 32)
  wrS (n + 1) ((v >>> 32).setWidth 32)

/-- Write an accumulator (R183). -/
def wrAcc (t : Nat) (v : SMap Word) : W Unit :=
  W.upd (fun i => { i with r := { i.r with acc := i.r.acc.set t v }, wA := noted i.wA t })

/-! ### Lanes (R91, R156) -/

/-- The lane width of a FUSE value. -/
def fuseBits (f : BitVec 2) : Nat := 8 * 2 ^ f.toNat

/-- The lane width in force: the FUSE value committed when the instance fired (R156). -/
def W.lane : W Nat := do pure (fuseBits (← get).i.fuseAt)

/-- The lanes of a wide value. -/
def lanesOf (l : Nat) (u : Slot) : List Nat := (List.range (256 / l)).map (fun i => u.toNat / 2 ^ (l * i) % 2 ^ l)

/-- A wide value from its lanes. -/
def joinNat (l : Nat) : List Nat → Nat
  | [] => 0
  | x :: xs => x % 2 ^ l + 2 ^ l * joinNat l xs

def joinLanes (l : Nat) (xs : List Nat) : Slot := BitVec.ofNat 256 (joinNat l xs)

/-- Lane `i` of a register destination: its result, zero, or its old value (R91). -/
def maskLane (m : Word) (z : Bool) (i old new : Nat) : Nat := if m.getLsbD i then new else if z then 0 else old

/-- The lanes of a masked result over the old ones. -/
def maskLanes (m : Word) (z : Bool) (old new : List Nat) : List Nat :=
  (List.range new.length).map (fun i => maskLane m z i (old.getD i 0) (new.getD i 0))

/-! ### Reading queues and circular buffers (R31, R157) -/

/-- The index of a queue or buffer operand: q0 to q3 are 0 to 3, cb0 to cb7 are 4 to 11. -/
def qIdx (r : Nat) : Nat := if r < 20 then r - 16 else r - 20

/-- A header check: a reserved kind or reserved flag bits (R22, R23). -/
def checkHeader (u : Slot) : W Unit :=
  if badHeader (lane u 7) then W.fault .illop 1 ((lane u 7).setWidth 64) else pure ()

/-- The handle of a buffer, as the instance sees it. -/
def W.handle (c : Nat) : W DWord := do pure ((← get).i.r.cb.getD c 0)

/-- A word that uses a buffer with an invalid handle raises ILLOP with sub-cause 1 (R17). -/
def useBuffer (r : Nat) : W Unit := do
  if 24 ≤ r then
    if !cbValid (← W.handle (r - 24)) then W.illop 1

/-- The vault addresses of the reserved units of a buffer, in order (R157). The slots stand where the committed handle puts
them. -/
def Inst.cbUnits (i : Inst) (v : Elem) (c : Nat) : List Nat :=
  let h := v.r.cb.getD c 0
  (i.cres.filter (fun x => x.1 == c)).flatMap (fun x => (List.range x.2.2).flatMap (fun j =>
    (List.range (2 ^ cbSsz h)).map (fun u => cbSlotAddr h (x.2.1 + j) + 32 * u)))

/-- The number of reserved units of a queue or buffer. -/
def unitCount (r : Nat) : W Nat := do
  let k ← get
  if r < 20 then pure (k.i.qres.getD (r - 16) []).length
  else pure (k.i.cbUnits (← W.elem) (r - 24)).length

/-- Operand bytes of this module at a place, as a load of the element that the word makes while it runs; it waits where the Read
step is not enabled (R183, R306, R310 to R313). -/
def readHere (pl : Place) (n : Nat) : W (List Byte) := do
  let k ← get
  match k.s.readOperand k.s.cur.patch k.s.cur.el k.i pl n with
  | some (bs, s) =>
    set { k with s := s }
    pure bs
  | none => throw .hold

/-- The 8-byte words of bytes that were read from a word boundary on. -/
def gotWords (a : Nat) (bs : List Byte) : List (Nat × List Byte) :=
  (List.range (bs.length / 8)).map (fun k => (a / 8 + k, (bs.drop (8 * k)).take 8))

/-- Every byte of a span is among those got. -/
def gotAll (got : List (Nat × List Byte)) (a n : Nat) : Bool := (List.range n).all (fun k => (gotByte got (a + k)).isSome)

/-- The instance in the station takes 8-byte words that its current word has read. -/
def State.keepGot (s : State) (p e n : Nat) (g : List (Nat × List Byte)) : State :=
  s.modElem p e (fun v => { v with insts := v.insts.map (fun i => if i.id = n then { i with got := g ++ i.got } else i) })

/-- Operand bytes at a place that a pointer gave. Another module is asked for them by RD, and the instance keeps them as they
come, so that a word with several such operands has each of them once (R411). -/
def readPlace (pl : Place) (n : Nat) (ptr : DWord) : W (List Byte) := do
  let k ← get
  let p := k.s.cur.patch
  let e := k.s.cur.el
  match pl.module with
  | none => readHere pl n
  | some m =>
    if gotAll k.i.got pl.addr n then readHere pl n
    else match k.s.via (.elem p e) none pl n false ptr (packet 0 .patch m (k.s.identOf (k.s.partOf p)) n 0 0 pl.pa []) with
      | .wait s _ => throw (.keep s)
      | .fault .perm sub _ => throw (.perm sub ptr)
      | .fault c sub _ => W.fault c sub ptr
      | .got bs s =>
        set { k with s := { s with mem := s.mem.write pl.addr bs } }
        let bs ← readHere pl n
        let k ← get
        let g := gotWords pl.addr bs
        set { k with s := k.s.keepGot p e k.i.id g, i := { k.i with got := g ++ k.i.got } }
        pure bs

/-- A byte of a vault as a place (R208). -/
def vaultPlace (p e va : Nat) : Place := ⟨vaultAddr p e va, .rc, false, true⟩

/-- Bytes of the element's vault, as its words read it (R183). -/
def readVault (va n : Nat) : W (List Byte) := do
  let c ← W.cur
  readHere (vaultPlace c.patch c.el va) n

/-- Reserved unit `n` of a queue or buffer, its header checked; beyond the reserved slots it is ILLOP (R31, R157). -/
def unitAt (r n : Nat) : W Slot := do
  useBuffer r
  let k ← get
  if r < 20 then
    match (k.i.qres.getD (r - 16) [])[n]? with
    | none => W.illop 2
    | some u =>
      checkHeader u
      pure u
  else
    match (k.i.cbUnits (← W.elem) (r - 24))[n]? with
    | none => W.illop 2
    | some a =>
      let u := ofBytes (← readVault a 32)
      checkHeader u
      pure u

/-- The read position of a queue or buffer, in lanes. -/
def readPos (r : Nat) : W Nat := do pure ((← get).i.pos.getD (qIdx r) 0)

def setPos (r n : Nat) : W Unit := W.upd (fun i => { i with pos := i.pos.set (qIdx r) n })

/-- A scalar source (R31, R87). -/
def rdScalar (r : Nat) : W Word := do
  if r < 16 then rdS r
  else
    let n ← readPos r
    let u ← unitAt r (n / 8)
    setPos r (n + 1)
    pure (lane u (n % 8))

/-- A wide source: a whole unit, at a unit boundary (R31). -/
def rdWide (r : Nat) : W Slot := do
  if r < 16 then rdW r
  else
    let n ← readPos r
    useBuffer r
    if n % 8 ≠ 0 then W.illop 2
    let u ← unitAt r (n / 8)
    setPos r (n + 8)
    pure u

/-- The remaining reserved units from a position at a unit boundary, all taken (R195, R200, R261). -/
def rdRest (r : Nat) : W (List Slot) := do
  let n ← readPos r
  useBuffer r
  if n % 8 ≠ 0 then W.illop 2
  let t ← unitCount r
  let us ← (List.range (t - n / 8)).mapM (fun j => unitAt r (n / 8 + j))
  setPos r (Nat.max n (8 * t))
  pure us

/-! ### Writing ports and circular buffers (R158) -/

/-- The check of a destination buffer at a word that names it: its handle (R17). What its block writes to it has been checked when
the instance fired (R158). -/
def useDest (r : Nat) : W Unit := useBuffer r

/-- Add lanes to a destination; the destination r of R87 has index r − 20. -/
def putLanes (r : Nat) (ls : List Word) : W Unit := do
  W.upd (fun i => { i with outs := i.outs.set (r - 20) (i.outs.getD (r - 20) [] ++ ls) })
  if 24 ≤ r then W.eff (.fill (r - 24) ls.length)

/-- Write a scalar destination (R158). -/
def wrScalar (r : Nat) (v : Word) : W Unit := do
  if r < 16 then wrS r v
  else
    useDest r
    putLanes r [v]

/-- The lanes of a unit. -/
def unitLanes (u : Slot) : List Word := (List.range 8).map (lane u)

/-- Write a whole unit to a port or buffer: only at a unit boundary (R158). -/
def putUnit (r : Nat) (u : Slot) : W Unit := do
  useDest r
  if ((← get).i.outs.getD (r - 20) []).length % 8 ≠ 0 then W.illop 2
  putLanes r (unitLanes u)

/-- Write a masked wide result in lanes of `l` bits (R91). -/
def wrWide (r l : Nat) (m : Word) (z : Bool) (new : List Nat) : W Unit := do
  if r < 16 then
    let old ← rdW r
    wrW r (joinLanes l (maskLanes m z (lanesOf l old) new))
  else putUnit r (joinLanes l (maskLanes m true [] new))

/-! ### Pointers (R94, R207, R208) -/

/-- Where a pointer leads, and the effective pointer; its faults are those of R208. -/
def wPointer (v : DWord) (off : Int) (align n : Nat) (who : Asker) : W (Place × DWord) := do
  let k ← get
  let c ← W.cur
  let t := k.s.pointer c.patch c.el v off align n who
  match t.res with
  | .ok pl => pure (pl, t.eff)
  | .wait => throw .pull
  | .fault .perm sub => throw (.perm sub t.eff)
  | .fault ca sub => W.fault ca sub t.eff

/-! ### Making a word's outcome the machine's -/

/-- XINFO of an instance at its current word (R14). -/
def xinfoOf (e : Nat) (i : Inst) : Word :=
  BitVec.ofNat 32 (2 ^ 31 + i.pc % 128 * 2 ^ 22 + i.tag.toNat * 2 ^ 10 + i.blk % 16 * 64 + e % 64)

/-- The instance of an element with a number. -/
def Elem.inst (v : Elem) (n : Nat) : Option Inst := v.insts.find? (fun i => i.id == n)

/-- Put an instance back into its element's station. -/
def State.putInst (s : State) (p e : Nat) (i : Inst) : State :=
  let v := s.elem p e
  s.setElem p e { v with insts := v.insts.map (fun x => if x.id = i.id then i else x) }

/-- A word of an instance faults (R36): the instance does not commit, and its fault is reported, or kept while 64 reports
wait. Its outstanding loads leave the machine. The free-value count moves on, since its sub-cause may be one (log 8). -/
def State.elemFault (s : State) (p e : Nat) (i : Inst) (c : Cause) (sub : Nat) (val : DWord) : State :=
  let s := { s with free := s.free + 1 }
  let r : Report := ⟨some (e, i.id), xcause (causeCode c) sub true, xinfoOf e i, val, [], 0⟩
  let x := s.patch p
  if x.fpend < 64 then
    let s := s.putInst p e { i with st := .faulted, irr := .none }
    let x := s.patch p
    ((s.setPatch p { x with reports := x.reports ++ [r], seq := { x.seq with latch := true } }).modElem p e
      (fun v => v.forget i.id)).dropLoads
  else
    let n := ((x.elem e).insts.filterMap (fun j => j.pend.map (fun r => r.tsc.toNat))).foldl Nat.max 0
    ((s.putInst p e { i with st := .faulted, irr := .none, pend := some { r with tsc := BitVec.ofNat 64 (n + 1) } }).modElem p e
      (fun v => v.forget i.id)).dropLoads

/-- An element breaks a boundary (R208, R396): it is frozen alone, its instances are discarded as at a freeze, and a freeze
record goes to the manager. -/
def State.elemFreeze (s : State) (p e : Nat) (i : Inst) (sub : Nat) (ptr : DWord) : State :=
  let l := s.loadOf p
  let v := s.elem p e
  let s := (s.setElem p e { (v.discard i.id).settle (s.patch p).rotates s.clock.ns with frozen := true }).dropLoads
  { s with freezes := s.freezes ++
      [freezeRec e (s.lpOf p) ((l.map (fun l => l.q)).getD 0) (s.partOf p) 0 0 0 ((l.map (fun l => l.lid.toNat)).getD 0)
        (xinfoOf e i) (xcause 4 sub true) ptr s.clock.tsc 0] }

/-- Nothing of an element moves: its patch is not running, or it or its patch is frozen. -/
def State.still (s : State) (p e : Nat) : Bool :=
  let x := s.patch p
  !x.running || x.frozen || (x.elem e).frozen

/-- The element has moved: it is not blocked (R398). -/
def State.moved (s : State) (p e : Nat) : State :=
  s.setElem p e { s.elem p e with blocked := none, probed := none, fwd := [] }

/-- The first word from index `n` on that is not listed as completed; `fuel` bounds the search. -/
def skipDone (l : List Nat) (n : Nat) : Nat → Nat
  | 0 => n
  | fuel + 1 => if l.contains n then skipDone l (n + 1) fuel else n

/-- The index of the first word after the current one that has not completed (R31). -/
def Inst.nextPc (i : Inst) : Nat := skipDone i.ahead (i.pc + 1) i.ahead.length

/-- An instance whose word has completed: the next one may issue once its operands are there (R31, R34). -/
def State.wordDone (s : State) (p e : Nat) (i : Inst) : Inst :=
  { i with pc := i.nextPc, since := none, waited := 0, cover := none, pullAt := none, got := [], mx := false,
           readyAt := s.clock.n + Config.latency [p, e, i.id, i.pc, s.clock.n] }

/-- The word at which an instance stands. -/
def Elem.wordOf (v : Elem) (i : Inst) : Option Instr :=
  (smFind v.blocks i.blk).bind (fun b =>
    if i.pc < b.words.length then (decodeElem (b.words.getD i.pc 0).toNat).toOption else none)

/-- An instance's word has started and waits for more: a matrix word holds the matrix unit from then on (R183). -/
def State.startUnit (s : State) (p e n : Nat) : State :=
  s.modElem p e (fun v => { v with insts := v.insts.map (fun i => if i.id = n ∧ (v.wordOf i).any isMatrix then { i with mx := true } else i) })

/-- An instance's wait has ended, or has given way to one without a timeout. -/
def State.clearWait (s : State) (p e n : Nat) : State :=
  s.modElem p e (fun v => { v with insts := v.insts.map (fun i => if i.id = n then { i with since := none, waited := 0, pullAt := none } else i) })

/-- The refusals that an element's words and its irrevocable operations have been told of are forgotten: a retry asks again. -/
def State.dropRefusals (s : State) (p e : Nat) : State :=
  { s with fabric := { s.fabric with asked := s.fabric.asked.filter (fun a => !(a.agent == .elem p e && (a.acc.isNone || a.write) && (match a.st with
      | .failed _ _ => true
      | _ => false))) } }

/-- Run an element word on the instance whose turn it is (R31, R36). With no such instance it has no effect. -/
def runWord (f : W Unit) (s : State) : Host.Outcome State Fault Refusal :=
  let p := s.cur.patch
  let e := s.cur.el
  match (s.elem p e).inst s.cur.inst with
  | none => .next s
  | some i =>
    if i.st ≠ .fired || s.still p e then .next s
    else match f ⟨s, i⟩ with
      | .ok (_, k) => .next ((k.s.putInst p e (s.wordDone p e k.i)).moved p e)
      | .error .hold => .next (if i.since.isSome || i.pullAt.isSome then s.clearWait p e i.id else s)
      | .error (.keep t) => .next ((t.clearWait p e i.id).startUnit p e i.id)
      | .error .pull => .next (s.putInst p e { i with pullAt := some (i.pullAt.getD s.clock.ns) })
      | .error (.wait c) => .next (s.putInst p e { i with since := some (i.since.getD s.clock.ns), cover := c })
      | .error (.fault c sub v) => .next ((s.dropRefusals p e).elemFault p e i c sub v)
      | .error (.perm sub v) => .next ((s.dropRefusals p e).elemFreeze p e i sub v)

end Sys2Proof.Machine
end

