-- ==== Sys2Proof/Machine/EltAlu.lean ====
section
/-! DEFINITION. Element integer and floating-point arithmetic, immediates, moves, lane access, masks, special registers and
packing (R156, R159 to R168). -/

namespace Sys2Proof.Machine

/-! ### Integer operations (R159, R160) -/

/-- Remember that the instance divided by zero (R52). -/
def W.divided (b : Bool) : W Unit := W.upd (fun i => { i with dzSet := i.dzSet || b })

/-- A register integer operation (R159): on 32-bit scalars, or lane by lane. Whether a lane that the mask disables counts as
one that divides by zero is open: a free value (log 2). -/
def intWord (op : IntOp) (d a b : BitVec 5) (w z : BitVec 1) (k : BitVec 3) : W Unit := do
  if w = 0 then
    let x ← rdScalar a.toNat
    let y ← rdScalar b.toNat
    W.divided (intDz op y)
    wrScalar d.toNat (intOp op x y)
  else
    let l ← W.lane
    let x := lanesOf l (← rdWide a.toNat)
    let y := lanesOf l (← rdWide b.toNat)
    let m ← rdM k.toNat
    W.divided ((List.range y.length).any (fun i => m.getLsbD i && intDz op (BitVec.ofNat l (y.getD i 0))))
    if y.any (fun v => intDz op (BitVec.ofNat l v)) then W.divided (← W.freeBool)
    wrWide d.toNat l m (z == 1) ((x.zip y).map (fun (u, v) => (intOp op (BitVec.ofNat l u) (BitVec.ofNat l v)).toNat))

/-- An immediate operation (R160). -/
def intImm (op : IntOp) (d a : BitVec 5) (i : Word) : W Unit := do
  wrScalar d.toNat (intOp op (← rdScalar a.toNat) i)

/-- ADD (R159). -/
def execAdd (d a b : BitVec 5) (w z : BitVec 1) (k : BitVec 3) (s : State) : Res :=
  runWord (intWord .add d a b w z k) s

/-- SUB (R159). -/
def execSub (d a b : BitVec 5) (w z : BitVec 1) (k : BitVec 3) (s : State) : Res :=
  runWord (intWord .sub d a b w z k) s

/-- MUL (R159). -/
def execMul (d a b : BitVec 5) (w z : BitVec 1) (k : BitVec 3) (s : State) : Res :=
  runWord (intWord .mul d a b w z k) s

/-- MULH (R159). -/
def execMulh (d a b : BitVec 5) (w z : BitVec 1) (k : BitVec 3) (s : State) : Res :=
  runWord (intWord .mulh d a b w z k) s

/-- MULHU (R159). -/
def execMulhu (d a b : BitVec 5) (w z : BitVec 1) (k : BitVec 3) (s : State) : Res :=
  runWord (intWord .mulhu d a b w z k) s

/-- DIV (R159). -/
def execDiv (d a b : BitVec 5) (w z : BitVec 1) (k : BitVec 3) (s : State) : Res :=
  runWord (intWord .div d a b w z k) s

/-- DIVU (R159). -/
def execDivu (d a b : BitVec 5) (w z : BitVec 1) (k : BitVec 3) (s : State) : Res :=
  runWord (intWord .divu d a b w z k) s

/-- REM (R159). -/
def execRem (d a b : BitVec 5) (w z : BitVec 1) (k : BitVec 3) (s : State) : Res :=
  runWord (intWord .rem d a b w z k) s

/-- REMU (R159). -/
def execRemu (d a b : BitVec 5) (w z : BitVec 1) (k : BitVec 3) (s : State) : Res :=
  runWord (intWord .remu d a b w z k) s

/-- AND (R159). -/
def execAnd (d a b : BitVec 5) (w z : BitVec 1) (k : BitVec 3) (s : State) : Res :=
  runWord (intWord .and d a b w z k) s

/-- OR (R159). -/
def execOr (d a b : BitVec 5) (w z : BitVec 1) (k : BitVec 3) (s : State) : Res :=
  runWord (intWord .or d a b w z k) s

/-- XOR (R159). -/
def execXor (d a b : BitVec 5) (w z : BitVec 1) (k : BitVec 3) (s : State) : Res :=
  runWord (intWord .xor d a b w z k) s

/-- SLL (R159). -/
def execSll (d a b : BitVec 5) (w z : BitVec 1) (k : BitVec 3) (s : State) : Res :=
  runWord (intWord .sll d a b w z k) s

/-- SRL (R159). -/
def execSrl (d a b : BitVec 5) (w z : BitVec 1) (k : BitVec 3) (s : State) : Res :=
  runWord (intWord .srl d a b w z k) s

/-- SRA (R159). -/
def execSra (d a b : BitVec 5) (w z : BitVec 1) (k : BitVec 3) (s : State) : Res :=
  runWord (intWord .sra d a b w z k) s

/-- SLT (R159). -/
def execSlt (d a b : BitVec 5) (w z : BitVec 1) (k : BitVec 3) (s : State) : Res :=
  runWord (intWord .slt d a b w z k) s

/-- SLTU (R159). -/
def execSltu (d a b : BitVec 5) (w z : BitVec 1) (k : BitVec 3) (s : State) : Res :=
  runWord (intWord .sltu d a b w z k) s

/-- MIN (R159). -/
def execMin (d a b : BitVec 5) (w z : BitVec 1) (k : BitVec 3) (s : State) : Res :=
  runWord (intWord .min d a b w z k) s

/-- MAX (R159). -/
def execMax (d a b : BitVec 5) (w z : BitVec 1) (k : BitVec 3) (s : State) : Res :=
  runWord (intWord .max d a b w z k) s

/-- ADDS (R159). -/
def execAdds (d a b : BitVec 5) (w z : BitVec 1) (k : BitVec 3) (s : State) : Res :=
  runWord (intWord .adds d a b w z k) s

/-- SUBS (R159). -/
def execSubs (d a b : BitVec 5) (w z : BitVec 1) (k : BitVec 3) (s : State) : Res :=
  runWord (intWord .subs d a b w z k) s

/-- ADDI: the immediate is sign-extended (R97, R160). -/
def execAddi (d a : BitVec 5) (i : BitVec 15) (s : State) : Res := runWord (intImm .add d a (i.signExtend 32)) s

/-- ANDI: the immediate is zero-extended (R97, R160). -/
def execAndi (d a : BitVec 5) (i : BitVec 15) (s : State) : Res := runWord (intImm .and d a (i.setWidth 32)) s

/-- ORI (R97, R160). -/
def execOri (d a : BitVec 5) (i : BitVec 15) (s : State) : Res := runWord (intImm .or d a (i.setWidth 32)) s

/-- XORI (R97, R160). -/
def execXori (d a : BitVec 5) (i : BitVec 15) (s : State) : Res := runWord (intImm .xor d a (i.setWidth 32)) s

/-- SLTI: compared signed (R97, R160). -/
def execSlti (d a : BitVec 5) (i : BitVec 15) (s : State) : Res := runWord (intImm .slt d a (i.signExtend 32)) s

/-- SLLI (R97, R160). -/
def execSlli (d a i : BitVec 5) (s : State) : Res := runWord (intImm .sll d a (i.setWidth 32)) s

/-- SRLI (R97, R160). -/
def execSrli (d a i : BitVec 5) (s : State) : Res := runWord (intImm .srl d a (i.setWidth 32)) s

/-- SRAI (R97, R160). -/
def execSrai (d a i : BitVec 5) (s : State) : Res := runWord (intImm .sra d a (i.setWidth 32)) s

/-- MOVHI: d takes the immediate times 2^17 (R97, R160). -/
def execMovhi (d : BitVec 5) (i : BitVec 15) (s : State) : Res :=
  runWord (wrScalar d.toNat (i ++ (0 : BitVec 17))) s

/-! ### Floating point (R92, R161, R162) -/

/-- The FUSE value that a type needs (R92). -/
def ftFuse (f : BitVec 2) : BitVec 2 := [2, 1, 1, 3].getD f.toNat 2

/-- A floating-point operation (R161): FP32 scalars, or lanes in the format that `f` names, which must agree with FUSE. -/
def fpWord (op : FpOp) (d a b : BitVec 5) (f : BitVec 2) (rm : Rm) (w z : BitVec 1) (k : BitVec 3) : W Unit := do
  if w = 0 then
    let x ← rdScalar a.toNat
    let y ← if op = .sqrt then pure 0 else rdScalar b.toNat
    let c ← if op = .mac then rdS d.toNat else pure 0
    wrScalar d.toNat (BitVec.ofNat 32 (fp32.op op rm x.toNat y.toNat c.toNat))
  else
    W.fullOnly (f == 0 || f == 3)
    if (← get).i.fuseAt ≠ ftFuse f then W.illop 2
    let l ← W.lane
    let x := lanesOf l (← rdWide a.toNat)
    let y ← if op = .sqrt then pure [] else do pure (lanesOf l (← rdWide b.toNat))
    let c ← if op = .mac then do pure (lanesOf l (← rdW d.toNat)) else pure []
    let m ← rdM k.toNat
    wrWide d.toNat l m (z == 1)
      ((List.range x.length).map (fun i => (ftOf f).op op rm (x.getD i 0) (y.getD i 0) (c.getD i 0)))

/-- FADD (R161). -/
def execFadd (d a b : BitVec 5) (f : BitVec 2) (r : BitVec 3) (w z : BitVec 1) (k : BitVec 3) (s : State) : Res :=
  runWord (fpWord .add d a b f (rmOf r) w z k) s

/-- FSUB (R161). -/
def execFsub (d a b : BitVec 5) (f : BitVec 2) (r : BitVec 3) (w z : BitVec 1) (k : BitVec 3) (s : State) : Res :=
  runWord (fpWord .sub d a b f (rmOf r) w z k) s

/-- FMUL (R161). -/
def execFmul (d a b : BitVec 5) (f : BitVec 2) (r : BitVec 3) (w z : BitVec 1) (k : BitVec 3) (s : State) : Res :=
  runWord (fpWord .mul d a b f (rmOf r) w z k) s

/-- FDIV (R161). -/
def execFdiv (d a b : BitVec 5) (f : BitVec 2) (r : BitVec 3) (w z : BitVec 1) (k : BitVec 3) (s : State) : Res :=
  runWord (fpWord .div d a b f (rmOf r) w z k) s

/-- FMAC (R161). -/
def execFmac (d a b : BitVec 5) (f : BitVec 2) (r : BitVec 3) (w z : BitVec 1) (k : BitVec 3) (s : State) : Res :=
  runWord (fpWord .mac d a b f (rmOf r) w z k) s

/-- FMIN (R161, R162). -/
def execFmin (d a b : BitVec 5) (f : BitVec 2) (w z : BitVec 1) (k : BitVec 3) (s : State) : Res :=
  runWord (fpWord .min d a b f .rne w z k) s

/-- FMAX (R161, R162). -/
def execFmax (d a b : BitVec 5) (f : BitVec 2) (w z : BitVec 1) (k : BitVec 3) (s : State) : Res :=
  runWord (fpWord .max d a b f .rne w z k) s

/-- FEQ (R161, R162). -/
def execFeq (d a b : BitVec 5) (f : BitVec 2) (w z : BitVec 1) (k : BitVec 3) (s : State) : Res :=
  runWord (fpWord .eq d a b f .rne w z k) s

/-- FLT (R161, R162). -/
def execFlt (d a b : BitVec 5) (f : BitVec 2) (w z : BitVec 1) (k : BitVec 3) (s : State) : Res :=
  runWord (fpWord .lt d a b f .rne w z k) s

/-- FLE (R161, R162). -/
def execFle (d a b : BitVec 5) (f : BitVec 2) (w z : BitVec 1) (k : BitVec 3) (s : State) : Res :=
  runWord (fpWord .le d a b f .rne w z k) s

/-- FSQRT (R161, R162). -/
def execFsqrt (d a : BitVec 5) (f : BitVec 2) (r : BitVec 3) (w z : BitVec 1) (k : BitVec 3) (s : State) : Res :=
  runWord (fpWord .sqrt d a 0 f (rmOf r) w z k) s

/-! ### Moves, selection, lane access (R163, R164) -/

/-- MOV (R163). -/
def execMov (d a : BitVec 5) (w z : BitVec 1) (k : BitVec 3) (s : State) : Res :=
  runWord (if w = 0 then do wrScalar d.toNat (← rdScalar a.toNat)
    else do
      let l ← W.lane
      let x ← rdWide a.toNat
      wrWide d.toNat l (← rdM k.toNat) (z == 1) (lanesOf l x)) s

/-- SEL (R163): sources are read in the order a, b, c (R88). -/
def execSel (d a b c : BitVec 5) (w z : BitVec 1) (k : BitVec 3) (s : State) : Res :=
  runWord (if w = 0 then do
      let x ← rdScalar a.toNat
      let y ← rdScalar b.toNat
      let t ← rdScalar c.toNat
      wrScalar d.toNat (if t ≠ 0 then x else y)
    else do
      let l ← W.lane
      let x := lanesOf l (← rdWide a.toNat)
      let y := lanesOf l (← rdWide b.toNat)
      let t := lanesOf l (← rdWide c.toNat)
      let m ← rdM k.toNat
      wrWide d.toNat l m (z == 1)
        ((List.range x.length).map (fun i => if t.getD i 0 ≠ 0 then x.getD i 0 else y.getD i 0))) s

/-- A value of `e` bits, sign- or zero-extended to 32. -/
def extend32 (e v : Nat) (sg : Bool) : Word := if sg then (BitVec.ofNat e v).signExtend 32 else BitVec.ofNat 32 v

/-- LBC: every lane of wc takes a (R164). -/
def execLbc (a : BitVec 5) (sg : BitVec 1) (c : BitVec 4) (s : State) : Res :=
  runWord (do
    let x ← rdScalar a.toNat
    let l ← W.lane
    let v := if sg = 1 then (x.signExtend 64).toNat else x.toNat
    wrW c.toNat (joinLanes l (List.replicate (256 / l) (v % 2 ^ l)))) s

/-- LEXT: d takes a unit of wc (R164). -/
def execLext (d a : BitVec 5) (sg : BitVec 1) (c : BitVec 4) (s : State) : Res :=
  runWord (do
    let n ← rdScalar a.toNat
    let e := Nat.min (← W.lane) 32
    let u ← rdW c.toNat
    if 256 / e ≤ n.toNat then W.illop 2
    wrScalar d.toNat (extend32 e (u.toNat / 2 ^ (e * n.toNat) % 2 ^ e) (sg == 1))) s

/-- LINS: a unit of wc takes the low bits of b (R164). -/
def execLins (a b : BitVec 5) (c : BitVec 4) (s : State) : Res :=
  runWord (do
    let n ← rdScalar a.toNat
    let x ← rdScalar b.toNat
    let e := Nat.min (← W.lane) 32
    let u ← rdW c.toNat
    if 256 / e ≤ n.toNat then W.illop 2
    wrW c.toNat (joinLanes e ((lanesOf e u).set n.toNat (x.toNat % 2 ^ e)))) s

/-! ### Masks (R165) -/

/-- The condition of MLANE on lanes of `l` bits. -/
def laneCond (c : BitVec 2) (l x y : Nat) : Bool :=
  match c.toNat with
  | 0 => x != 0
  | 1 => x == y
  | 2 => (BitVec.ofNat l x).slt (BitVec.ofNat l y)
  | _ => decide (x < y)

/-- A mask from its bits, bit 0 first. -/
def ofBits (bs : List Bool) : Word := BitVec.ofNat 32 (joinNat 1 (bs.map (fun b => b.toNat)))

/-- MLANE: bit i of a mask takes a condition on lane i; bits at and above the lane count are 0 (R165). -/
def execMlane (a b : BitVec 5) (c : BitVec 2) (n : BitVec 3) (z : BitVec 1) (k : BitVec 3) (s : State) : Res :=
  runWord (do
    let l ← W.lane
    let x := lanesOf l (← rdWide a.toNat)
    let y ← if c = 0 then pure [] else do pure (lanesOf l (← rdWide b.toNat))
    let m ← rdM k.toNat
    let old ← rdM n.toNat
    wrM n.toNat (ofBits ((List.range (256 / l)).map (fun i =>
      if m.getLsbD i then laneCond c l (x.getD i 0) (y.getD i 0) else z != 1 && old.getLsbD i)))) s

/-- MSET (R165). -/
def execMset (a : BitVec 5) (n : BitVec 3) (s : State) : Res := runWord (do wrM n.toNat (← rdScalar a.toNat)) s

/-- MGET (R165). -/
def execMget (d : BitVec 5) (n : BitVec 3) (s : State) : Res := runWord (do wrScalar d.toNat (← rdM n.toNat)) s

/-! ### Special registers (R166, R167) -/

/-- SPRD: FUSE, EST and handles read as registers, the counters live (R166, R167). -/
def execSprd (d c : BitVec 5) (s : State) : Res :=
  runWord (do
    let k ← get
    let v ← W.elem
    let n := c.toNat
    let x : Word :=
      if n = 0 then k.i.r.fuse.setWidth 32
      else if n = 1 then v.zskip
      else if n = 2 then v.bconf
      else if n = 3 then BitVec.ofNat 32 v.replay.length
      else if n = 4 then (if k.i.r.dz then 1 else 0)
      else if n = 5 then k.i.tag.setWidth 32
      else if n % 2 = 0 then (k.i.r.cb.getD ((n - 16) / 2) 0).setWidth 32
      else ((k.i.r.cb.getD ((n - 16) / 2) 0) >>> 32).setWidth 32
    wrScalar d.toNat x) s

/-- A handle with one half replaced; `hi` is the upper half. -/
def setHalf (h : DWord) (hi : Bool) (v : Word) : DWord :=
  if hi then v ++ (h.setWidth 32 : Word) else ((h >>> 32).setWidth 32 : Word) ++ v

/-- SPWR: written at commit (R166, R167). A value that breaks the register's column is ILLOP with sub-cause 2. -/
def execSpwr (a c : BitVec 5) (s : State) : Res :=
  runWord (do
    let x ← rdScalar a.toNat
    let n := c.toNat
    if n = 0 then
      if 4 ≤ x.toNat then W.illop 2
      W.upd (fun i => { i with r := { i.r with fuse := x.setWidth 2 }, wFuse := true })
    else if n = 1 then W.eff (.zset x)
    else if n = 2 then W.eff (.bset x)
    else if n = 4 then
      if 2 ≤ x.toNat then W.illop 2
      if x = 1 then W.upd (fun i => { i with r := { i.r with dz := false }, dzClr := true })
    else
      let j := (n - 16) / 2
      W.upd (fun i => { i with r := { i.r with cb := i.r.cb.set j (setHalf (i.r.cb.getD j 0) (n % 2 == 1) x) },
                               wC := noted i.wC (n - 16) })) s

/-! ### Packing (R168) -/

/-- Bits of a sub-element of a width code, and how many a lane holds (R24). -/
def subBits (w : BitVec 2) : Nat := [32, 8, 6, 4].getD w.toNat 32
def subCount (w : BitVec 2) : Nat := [1, 4, 5, 8].getD w.toNat 1

/-- A byte saturated to a sub-element. -/
def packByte (sg : Bool) (b v : Nat) : Nat :=
  if sg then (clampS b (BitVec.ofNat 8 v).toInt).toNat else Nat.min v (2 ^ b - 1)

/-- PACK (R168). A port or a buffer has no earlier lane 7 to leave unchanged: it is written as 0 (DESIGN CHOICE, log 62). -/
def execPack (d a b : BitVec 5) (sg : BitVec 1) (w : BitVec 2) (z : BitVec 1) (k : BitVec 3) (s : State) : Res :=
  runWord (do
    let x := lanesOf 8 (← rdWide a.toNat)
    let y := lanesOf 8 (← rdWide b.toNat)
    let m ← rdM k.toNat
    let old ← if d.toNat < 16 then do pure (lanesOf 32 (← rdW d.toNat)) else pure []
    let bs := x ++ y
    let p := subCount w
    let l7 := old.getD 7 0
    let lanes := (List.range 7).map (fun i =>
      joinNat (subBits w) ((List.range p).map (fun j => packByte (sg == 1) (subBits w) (bs.getD (i * p + j) 0))))
    if d.toNat < 16 then wrW d.toNat (joinLanes 32 (maskLanes m (z == 1) old lanes ++ [l7]))
    else putUnit d.toNat (joinLanes 32 (maskLanes m true [] lanes ++ [0]))) s

/-- UNPK (R168). A 6-bit lane with bits [31:30] set is ILLOP; the spec gives no sub-cause (R24, log 8). With H = 1 lanes 0 to 5 are
checked too, though this half unpacks none of them (DESIGN CHOICE, log 63). -/
def execUnpk (d a : BitVec 5) (h sg : BitVec 1) (w : BitVec 2) (z : BitVec 1) (k : BitVec 3) (s : State) : Res :=
  runWord (do
    let x := lanesOf 32 (← rdWide a.toNat)
    let m ← rdM k.toNat
    if w = 2 ∧ (x.take 7).any (fun v => decide (2 ^ 30 ≤ v)) then W.illopOpen
    let p := subCount w
    let b := subBits w
    let bs := (List.range 32).map (fun n =>
      let i := 32 * h.toNat + n
      if 7 * p ≤ i then 0
      else
        let v := x.getD (i / p) 0 / 2 ^ (b * (i % p)) % 2 ^ b
        if sg = 1 then ((BitVec.ofNat b v).signExtend 8).toNat else v)
    wrWide d.toNat 32 m (z == 1) (lanesOf 32 (joinLanes 8 bs))) s

end Sys2Proof.Machine
end

