-- ==== Sys2Proof/Machine/EltQueue.lean ====
section
/-! DEFINITION. Element queue and circular-buffer words, ring-rotate, loop generators and block control (R169 to R178). -/

namespace Sys2Proof.Machine

/-- TAKE: a lane of the unit at the read position, which moves to the next unit (R169). -/
def execTake (d a : BitVec 5) (l : BitVec 3) (s : State) : Res :=
  runWord (do
    let n ← readPos a.toNat
    let u ← unitAt a.toNat (n / 8)
    setPos a.toNat ((n / 8 + 1) * 8)
    wrScalar d.toNat (lane u l.toNat)) s

/-- PEEK: the same, and the position does not move (R169). -/
def execPeek (d a : BitVec 5) (l : BitVec 3) (s : State) : Res :=
  runWord (do
    let n ← readPos a.toNat
    let u ← unitAt a.toNat (n / 8)
    wrScalar d.toNat (lane u l.toNat)) s

/-- ADV: the position moves on by n units; past the reserved units it is ILLOP (R31, R169). -/
def execAdv (a n : BitVec 5) (s : State) : Res :=
  runWord (do
    useBuffer a.toNat
    let k ← readPos a.toNat
    if (← unitCount a.toNat) < k / 8 + n.toNat then W.illop 2
    setPos a.toNat ((k / 8 + n.toNat) * 8)) s

/-- EMIT: closes the open unit with a header (R170). -/
def execEmit (d a : BitVec 5) (s : State) : Res :=
  runWord (do
    let h ← rdScalar a.toNat
    if badHeader h then W.illop 2
    useDest d.toNat
    let n := ((← get).i.outs.getD (d.toNat - 20) []).length % 8
    putLanes d.toNat (List.replicate (7 - n) 0 ++ [h])) s

/-! ### WAITF and WAITE (R171) -/

/-- Bring some words to backing memory, as the Owner step that tests their bits does. -/
def State.flushWords (s : State) (words : List Nat) : State := words.foldl (fun s w => s.ownFlush (8 * w) 8) s

/-- Every word of a list is full, or every word empty, as the Owner step that tests them finds (R307, R316). -/
def State.allMarked (s : State) (words : List Nat) (full : Bool) : Bool :=
  words.all (fun w => (match (s.pendingMarks [w]).getLast? with
    | some m => m.2
    | none => s.mem.full.contains w) == full)

/-- The words of `n` slots of a buffer from a slot counter on. -/
def slotWords (p e : Nat) (h : DWord) (from_ n : Nat) : List Nat :=
  (List.range n).flatMap (fun j => vaultWords p e (cbSlotAddr h (from_ + j)) (cbSlotBytes h))

/-- Another instance of the element holds a WAITF or a WAITE claim on a buffer. -/
def claimedBy (v : Elem) (me c : Nat) : Bool :=
  v.insts.any (fun i => i.id != me && i.st != .armed && (i.clF ++ i.clE).any (fun (x : Nat × Nat) => x.1 == c))

/-- A handle with one half replaced. -/
def handleHalf (h : DWord) (high : Bool) (new : DWord) : DWord :=
  if high then BitVec.ofNat 64 (new.toNat / 2 ^ 32 * 2 ^ 32 + h.toNat % 2 ^ 32)
  else BitVec.ofNat 64 (h.toNat / 2 ^ 32 * 2 ^ 32 + new.toNat % 2 ^ 32)

/-- A buffer's handle as a wait tests it: the element's own at that time, with the halves that the instance has written (R31,
R171). -/
def Inst.liveHandle (i : Inst) (v : Elem) (c : Nat) : DWord :=
  let new := i.r.cb.getD c 0
  (i.wC.filter (fun x => x / 2 == c)).foldl (fun h x => handleHalf h (x % 2 == 1) new) (v.r.cb.getD c 0)

/-- The instance's commit takes slots of a buffer: whole units, or a witness tile (R158, R267). -/
def Inst.fills (i : Inst) (c : Nat) : Bool :=
  decide (8 ≤ (i.outs.getD (4 + c) []).length) || i.effs.any (fun e => match e.2 with
    | .witness b _ => b == c
    | _ => false)

/-- Another instance has performed its irrevocable operation, and its commit, which is promised room in a buffer or the buffer's
handle, is still to come (R32). -/
def Elem.promised (v : Elem) (me c : Nat) : Bool :=
  v.insts.any (fun j => j.id != me && j.passed && (j.fills c || j.wC.any (fun x => x / 2 == c)))

/-- Slots that the instance's own claims already cover. -/
def claimed (l : List (Nat × Nat)) (c : Nat) : Nat := ((l.filter (fun x => x.1 == c)).map (fun x => x.2)).sum

/-- WAITF: waits until the n slots from FILLP are full; FILLP advances at commit (R171). -/
def execWaitf (d a n : BitVec 5) (s : State) : Res :=
  runWord (do
    let k ← get
    let cu ← W.cur
    let v ← W.elem
    let c := a.toNat - 24
    let h := k.i.liveHandle v c
    if !cbValid h then W.illop 1
    let mine := claimed k.i.clF c
    let fill := cbFill h + mine
    let ws := slotWords cu.patch cu.el h fill n.toNat
    W.ownTest .elem (vaultPlace cu.patch cu.el 0) ws
    if claimedBy v k.i.id c || v.promised k.i.id c || decide (cbNslot h < cbOcc h + mine + n.toNat) || !k.s.allMarked ws true then
      throw (.wait none)
    modify (fun k => { k with s := k.s.flushWords ws })
    W.upd (fun i => { i with clF := i.clF ++ [(c, n.toNat)] })
    wrScalar d.toNat (BitVec.ofNat 32 (fill % 2 ^ 15))) s

/-- WAITE: waits until the n slots from TAKEP are empty; TAKEP advances at commit (R171). -/
def execWaite (d a n : BitVec 5) (s : State) : Res :=
  runWord (do
    let k ← get
    let cu ← W.cur
    let v ← W.elem
    let c := a.toNat - 24
    let h := k.i.liveHandle v c
    if !cbValid h then W.illop 1
    let mine := claimed k.i.clE c
    let take := cbTake h + mine
    let ws := slotWords cu.patch cu.el h take n.toNat
    W.ownTest .elem (vaultPlace cu.patch cu.el 0) ws
    if claimedBy v k.i.id c || v.promised k.i.id c || decide (cbOcc h < mine + n.toNat) || !k.s.allMarked ws false then
      throw (.wait none)
    modify (fun k => { k with s := k.s.flushWords ws })
    W.upd (fun i => { i with clE := i.clE ++ [(c, n.toNat)] })
    wrScalar d.toNat (BitVec.ofNat 32 (take % 2 ^ 15))) s

/-! ### Ring-rotate (R173 to R175) -/

/-- The ring index of each element, by 8y + x (R173). -/
def ringTable : List Nat :=
  [0, 1, 2, 3, 4, 5, 6, 7] ++ [63, 14, 13, 12, 11, 10, 9, 8] ++ [62, 15, 16, 17, 18, 19, 20, 21] ++
  [61, 28, 27, 26, 25, 24, 23, 22] ++ [60, 29, 30, 31, 32, 33, 34, 35] ++ [59, 42, 41, 40, 39, 38, 37, 36] ++
  [58, 43, 44, 45, 46, 47, 48, 49] ++ [57, 56, 55, 54, 53, 52, 51, 50]

def ringIndex (e : Nat) : Nat := ringTable.getD e 0

/-- The element at a ring index. -/
def ringElem (n : Nat) : Nat := ringTable.findIdx (fun x => x == n % 64)

/-- The element that a rotation takes data from: the predecessor when D = 0, the successor when D = 1 (R174). -/
def ringSource (e : Nat) (bk : Bool) : Nat := ringElem (if bk then ringIndex e + 1 else ringIndex e + 63)

/-- RROT: joins a rotation, which takes place when all 64 participants have arrived (R174); d receives the ring index of the
source. A later word of the block reads d from when this word has issued; that the rotation's commit writes d gives no other word a
view of it (DESIGN CHOICE, log 73). -/
def execRrot (d a b : BitVec 5) (bk : BitVec 1) (s : State) : Res :=
  runWord (do
    let ad := (← rdScalar a.toNat).toNat
    let len := (← rdScalar b.toNat).toNat
    if ad % 256 ≠ 0 ∨ len % 256 ≠ 0 ∨ len < 256 ∨ 65536 < len ∨ 0x80000 < ad + len then W.illop 2
    let c ← W.cur
    let src := ringSource c.el (bk == 1)
    W.upd (fun i => { i with rot := some ⟨ad, len, bk == 1, src⟩ })
    wrScalar d.toNat (BitVec.ofNat 32 (ringIndex src))) s

/-- LGEN: arms the port's generator at commit (R176). -/
def execLgen (d a b : BitVec 5) (t : BitVec 2) (s : State) : Res :=
  runWord (do
    let n ← rdScalar a.toNat
    let v ← rdScalar b.toNat
    W.eff (.arm (d.toNat - 20) (.gen 0 n v (← get).i.tag (t == 1)))) s

/-! ### Block control (R96, R178, R179) -/

/-- COMMIT: its branch is "none". -/
def execCommit (s : State) : Res := runWord (pure ()) s

/-- HALT: as COMMIT, and the element fires no further instance. -/
def execHalt (s : State) : Res := runWord (W.upd (fun i => { i with halt := true })) s

/-- The tag that a branch gives (R96). -/
def branchTag (m : BitVec 2) (g : BitVec 14) : W (BitVec 12) := do
  let i := (← get).i
  match m.toNat with
  | 0 => pure i.tag
  | 1 => pure (i.tag + 1)
  | 2 => do pure ((← rdS (g.toNat % 16)).setWidth 12)
  | _ => pure (g.setWidth 12)

/-- BR: its branch takes effect at commit (R96, R178). A target that is not loaded or is a standing block fails the load; reached
by other means it is ILLOP, with the sub-cause of a word's encoding (R28, R101, R114). -/
def execBr (blk : BitVec 4) (c : BitVec 1) (r : BitVec 4) (m : BitVec 2) (g : BitVec 14) (s : State) : Res :=
  runWord (do
    match smFind (← W.elem).blocks blk.toNat with
    | some b => if b.st then W.illop 0
    | none => W.illop 0
    let taken ← if c = 1 then do pure ((← rdS r.toNat) != 0) else pure true
    let t ← branchTag m g
    if taken then W.upd (fun i => { i with branch := some (blk.toNat, t) })) s

end Sys2Proof.Machine
end

