-- ==== Sys2Proof/Machine/EltMem.lean ====
section
/-! DEFINITION. Element loads, stores, fences, full/empty forms, atomics, place and engine words, DRAIN, THAW and BUBL: what
each does to its instance (R209 to R222, R225, R232, R234). -/

namespace Sys2Proof.Machine

/-! ### Loads and stores (R209 to R212) -/

/-- The registers that a load fills: s registers as themselves, w registers from 16. A load of a w register is four accesses of 8
bytes (R208). -/
def loadRegs (d size : Nat) : List Nat := if size = 32 then [16 + d] else if size = 8 then [d, d + 1] else [d]

/-- A load: it enters the issue queue when its pointer is available, and its register is filled when it has read (R210). -/
def loadWord (d a : BitVec 5) (o : BitVec 12) (sc : BitVec 3) (size : Nat) (sg acq : Bool) : W Unit := do
  let v ← rdPair a.toNat
  let (pl, eff) ← wPointer v (o.toInt * size) size size .plain
  let k ← get
  let regs := loadRegs d.toNat size
  if regs.any (fun r => k.i.pending r) then throw .hold
  let c ← W.cur
  let n := k.s.ord.nextId
  let wide := size == 32
  let parts := if wide then (List.range 4).map (fun (q : Nat) => (4 * d.toNat + q, 8 * q, 8)) else [(d.toNat, 0, size)]
  let put := fun (s : State) (x : Nat × Nat × Nat) =>
    s.issueIn n (.elem c.patch c.el) (scopeOf sc) { pl with addr := pl.addr + x.2.1 }
      (.load (pl.addr + x.2.1) x.2.2 (.inst c.patch c.el k.i.id x.1 x.2.2 sg wide)) acq false (eff + BitVec.ofNat 64 x.2.1)
      (some (k.i.id, k.i.pc))
  let i := regs.foldl (fun i r => i.disown r) k.i
  set { k with s := parts.foldl put k.s,
               i := { i with loads := i.loads ++ (List.range parts.length).map (fun (q : Nat) => (n + q, regs)) } }

/-- A store, made at commit in block-word order (R210, R211). -/
def storeWord (d a : BitVec 5) (o : BitVec 12) (sc : BitVec 3) (size : Nat) (rel : Bool) : W Unit := do
  let v ← rdPair a.toNat
  let x : Nat ← if size = 32 then do pure (← rdW d.toNat).toNat
    else if size = 8 then do pure (← rdPair d.toNat).toNat
    else do pure (← rdS d.toNat).toNat
  let (pl, eff) ← wPointer v (o.toInt * size) size size .plain
  W.eff (.store ⟨pl, bytesAt pl.addr size x, [], scopeOf sc, rel, eff, false⟩)

/-- LD.i8 (R210). -/
def execLdI8 (d a : BitVec 5) (o : BitVec 12) (sc : BitVec 3) (s : State) : Res := runWord (loadWord d a o sc 1 true false) s

/-- LD.b8 (R210). -/
def execLdB8 (d a : BitVec 5) (o : BitVec 12) (sc : BitVec 3) (s : State) : Res := runWord (loadWord d a o sc 1 false false) s

/-- LD.i16 (R210). -/
def execLdI16 (d a : BitVec 5) (o : BitVec 12) (sc : BitVec 3) (s : State) : Res := runWord (loadWord d a o sc 2 true false) s

/-- LD.b16 (R210). -/
def execLdB16 (d a : BitVec 5) (o : BitVec 12) (sc : BitVec 3) (s : State) : Res := runWord (loadWord d a o sc 2 false false) s

/-- LD.b32 (R210). -/
def execLdB32 (d a : BitVec 5) (o : BitVec 12) (sc : BitVec 3) (s : State) : Res := runWord (loadWord d a o sc 4 false false) s

/-- LD.b64 (R210). -/
def execLdB64 (d a : BitVec 5) (o : BitVec 12) (sc : BitVec 3) (s : State) : Res := runWord (loadWord d a o sc 8 false false) s

/-- LD.w (R210). -/
def execLdW (d a : BitVec 5) (o : BitVec 12) (sc : BitVec 3) (s : State) : Res := runWord (loadWord d a o sc 32 false false) s

/-- LD.acq.b32: an acquire (R211). -/
def execLdAcqB32 (d a : BitVec 5) (o : BitVec 12) (sc : BitVec 3) (s : State) : Res := runWord (loadWord d a o sc 4 false true) s

/-- LD.acq.b64: an acquire (R211). -/
def execLdAcqB64 (d a : BitVec 5) (o : BitVec 12) (sc : BitVec 3) (s : State) : Res := runWord (loadWord d a o sc 8 false true) s

/-- ST.b8 (R210). -/
def execStB8 (d a : BitVec 5) (o : BitVec 12) (sc : BitVec 3) (s : State) : Res := runWord (storeWord d a o sc 1 false) s

/-- ST.b16 (R210). -/
def execStB16 (d a : BitVec 5) (o : BitVec 12) (sc : BitVec 3) (s : State) : Res := runWord (storeWord d a o sc 2 false) s

/-- ST.b32 (R210). -/
def execStB32 (d a : BitVec 5) (o : BitVec 12) (sc : BitVec 3) (s : State) : Res := runWord (storeWord d a o sc 4 false) s

/-- ST.b64 (R210). -/
def execStB64 (d a : BitVec 5) (o : BitVec 12) (sc : BitVec 3) (s : State) : Res := runWord (storeWord d a o sc 8 false) s

/-- ST.w (R210). -/
def execStW (d a : BitVec 5) (o : BitVec 12) (sc : BitVec 3) (s : State) : Res := runWord (storeWord d a o sc 32 false) s

/-- ST.rel.b32: a release (R211). -/
def execStRelB32 (d a : BitVec 5) (o : BitVec 12) (sc : BitVec 3) (s : State) : Res := runWord (storeWord d a o sc 4 true) s

/-- ST.rel.b64: a release (R211). -/
def execStRelB64 (d a : BitVec 5) (o : BitVec 12) (sc : BitVec 3) (s : State) : Res := runWord (storeWord d a o sc 8 true) s

/-- FENCE of an element: completes when every access of the element that entered before it is performed at the scope, and the
instance's own loads have read (R212, R313). -/
def execFence (sc : BitVec 3) (s : State) : Res :=
  runWord (do
    let k ← get
    let n := (k.i.cover.getD [k.s.ord.nextId]).headD 0
    if k.i.loads.isEmpty && k.s.allPerformed (← W.agent) n (scopeOf sc) then pure () else throw (.wait (some [n]))) s

/-! ### Full/empty forms (R213 to R215) -/

/-- The place of a full/empty form: memory without full/empty bits is ILLOP with sub-cause 2 (R215). -/
def fePointer (a : BitVec 5) (o : BitVec 12) (n : Nat) (who : Asker) : W (Place × DWord) := do
  let v ← rdPair a.toNat
  let r ← wPointer v (o.toInt * 8) 8 n who
  if !r.1.fe then W.illop 2
  pure r

/-- LDF: waits until the word is full, and reads it in that step of its owner (R213, R316), which its bank serves (R336); a word
of another module may be either, and what it holds is free (log 45). -/
def execLdf (d a : BitVec 5) (o : BitVec 12) (sc : BitVec 3) (s : State) : Res :=
  runWord (do
    let (pl, _) ← fePointer a o 8 .owner
    let w := pl.addr / 8
    W.ownTest (scopeOf sc) pl [w]
    let k ← get
    if pl.module.isSome then
      if ← W.freeBool then throw (.wait none)
      let k ← get
      set { k with s := { k.s with free := k.s.free + 1 } }
      wrPair d.toNat (Config.freeDWord k.s.free)
    else
      let ag ← W.agent
      let id := ownId k.i.id k.i.pc w
      if !k.s.allMarked [w] true then
        if (← W.elem).replay.any (fun r => r.agent == ag && r.id == id) then throw (.keep (k.s.unpresent ag id w))
        throw (.wait none)
      let (t, ok) := k.s.present ag id [false] [w]
      if !ok then throw (.keep t)
      let s' := t.flushWords [w]
      set { k with s := s' }
      wrPair d.toNat (s'.ownWord pl.addr)) s

/-- Note the instance's irrevocable operation; it is performed once every other word has completed (R27, R32). -/
def W.irrevocable (x : Irr) : W Unit :=
  W.upd (fun i => { (x.dests.foldl (fun i r => i.disown r) i) with irr := .held x i.pc })

/-- LDFE: irrevocable; it waits until the word is full, reads it and empties it (R213). -/
def execLdfe (d a : BitVec 5) (o : BitVec 12) (sc : BitVec 3) (s : State) : Res :=
  runWord (do
    let (pl, eff) ← fePointer a o 8 .owner
    W.irrevocable (.owner pl (scopeOf sc) false false .ldfe [d.toNat, d.toNat + 1] eff)) s

/-- STE: irrevocable; it waits until the word is empty, writes it and fills it (R213). -/
def execSte (d a : BitVec 5) (o : BitVec 12) (sc : BitVec 3) (s : State) : Res :=
  runWord (do
    let x ← rdPair d.toNat
    let (pl, eff) ← fePointer a o 8 .owner
    W.irrevocable (.owner pl (scopeOf sc) false false (.ste x) [] eff)) s

/-- STF: a store that sets the word full (R213). -/
def execStf (d a : BitVec 5) (o : BitVec 12) (sc : BitVec 3) (s : State) : Res :=
  runWord (do
    let x ← rdPair d.toNat
    let (pl, eff) ← fePointer a o 8 .plain
    W.eff (.store ⟨pl, bytesAt pl.addr 8 x.toNat, [(pl.addr / 8, true)], scopeOf sc, false, eff, false⟩)) s

/-- The pieces of a span of bytes that lie in one 64 KiB frame each: offsets and lengths. -/
def pieces (a n : Nat) : Nat → List (Nat × Nat)
  | 0 => []
  | fuel + 1 =>
    let room := 65536 - a % 65536
    if n ≤ room then [(0, n)]
    else (0, room) :: (pieces (a + room) (n - room) fuel).map (fun x => (x.1 + room, x.2))

/-- FECLR: n words become empty (R213); an n of 0 is an empty write, which is translated and checked (R233). -/
def execFeclr (d a : BitVec 5) (o : BitVec 12) (sc : BitVec 3) (s : State) : Res :=
  runWord (do
    let n := (← rdS d.toNat).toNat
    if 65536 < n then W.illop 2
    let v ← rdPair a.toNat
    let off := o.toInt * 8
    let _ ← fePointer a o (8 * n) .plain
    let parts := pieces (v + BitVec.ofInt 64 off).toNat (8 * n) 10
    let sts ← parts.mapM (fun (x : Nat × Nat) => do
      let (pl, eff) ← wPointer v (off + x.1) 8 x.2 .plain
      if !pl.fe then W.illop 2
      pure (Eff.store ⟨pl, [], (List.range (x.2 / 8)).map (fun j => (pl.addr / 8 + j, false)), scopeOf sc, false, eff, false⟩))
    for x in sts do W.eff x) s

/-! ### Atomics (R216, R217) -/

/-- An atomic of an element: the instance's irrevocable operation. -/
def atomWord (k : AtomKind) (d a b : BitVec 5) (ar w : BitVec 1) (sc : BitVec 3) : W Unit := do
  let wide := w == 1
  let rd := fun (n : Nat) => if wide then rdPair n else do pure ((← rdS n).setWidth 64)
  let y ← rd b.toNat
  let e ← if k = .cas then rd d.toNat else pure 0
  let v ← rdPair a.toNat
  let size := if wide then 8 else 4
  let (pl, eff) ← wPointer v 0 size size .owner
  let op : OwnOp := if k = .cas then .atomic k wide e y else .atomic k wide y 0
  W.irrevocable (.owner pl (scopeOf sc) (ar == 1) (ar == 1) op (if wide then [d.toNat, d.toNat + 1] else [d.toNat]) eff)

/-- AADD (R217). -/
def execAadd (d a b : BitVec 5) (ar w : BitVec 1) (sc : BitVec 3) (s : State) : Res :=
  runWord (atomWord .add d a b ar w sc) s

/-- AMIN (R217). -/
def execAmin (d a b : BitVec 5) (ar w : BitVec 1) (sc : BitVec 3) (s : State) : Res :=
  runWord (atomWord .min d a b ar w sc) s

/-- AMAX (R217). -/
def execAmax (d a b : BitVec 5) (ar w : BitVec 1) (sc : BitVec 3) (s : State) : Res :=
  runWord (atomWord .max d a b ar w sc) s

/-- AAND (R217). -/
def execAand (d a b : BitVec 5) (ar w : BitVec 1) (sc : BitVec 3) (s : State) : Res :=
  runWord (atomWord .and d a b ar w sc) s

/-- AOR (R217). -/
def execAor (d a b : BitVec 5) (ar w : BitVec 1) (sc : BitVec 3) (s : State) : Res :=
  runWord (atomWord .or d a b ar w sc) s

/-- AXOR (R217). -/
def execAxor (d a b : BitVec 5) (ar w : BitVec 1) (sc : BitVec 3) (s : State) : Res :=
  runWord (atomWord .xor d a b ar w sc) s

/-- ASWP (R217). -/
def execAswp (d a b : BitVec 5) (ar w : BitVec 1) (sc : BitVec 3) (s : State) : Res :=
  runWord (atomWord .swap d a b ar w sc) s

/-- ACAS (R217). -/
def execAcas (d a b : BitVec 5) (ar w : BitVec 1) (sc : BitVec 3) (s : State) : Res :=
  runWord (atomWord .cas d a b ar w sc) s

/-! ### Place handles (R221, R222) -/

/-- The context number of the element (R219). -/
def W.context : W Nat := do
  let k ← get
  let c ← W.cur
  pure (k.s.lpOf c.patch * 64 + c.el)

/-- The place of a hold record: aligned to 64, in memory with full/empty bits (R219). -/
def holdPointer (a : BitVec 5) : W (Place × DWord) := do
  let v ← rdPair a.toNat
  let r ← wPointer v 0 64 64 .owner
  if !r.1.fe then W.illop 2
  pure r

/-- PLACE (R221). -/
def execPlace (d a : BitVec 5) (sc : BitVec 3) (s : State) : Res :=
  runWord (do
    let (pl, eff) ← holdPointer a
    W.irrevocable (.owner pl (scopeOf sc) false false (.placeNew (← W.context)) [d.toNat] eff)) s

/-- The patches of the instance's load: contexts below 64 times their number lie in it (R222). -/
def W.patches : W Nat := do
  let k ← get
  let c ← W.cur
  pure (match k.s.loadOf c.patch with
    | some l => l.patches.length
    | none => 1)

/-- A place instruction on the place that b names (R222). -/
def placeWord (k : PlaceKind) (d a b : BitVec 5) (sc : BitVec 3) (acq rel : Bool) (reads : Bool) (dst : List Nat) : W Unit := do
  let h ← rdS b.toNat
  let arg ← if reads then rdS d.toNat else pure 0
  let (pl, eff) ← holdPointer a
  W.irrevocable (.owner pl (scopeOf sc) acq rel (.placeOp k (← W.context) h arg (← W.patches)) dst eff)

/-- PWAIT: an acquire; waits until its place is granted (R222). -/
def execPwait (d a b : BitVec 5) (sc : BitVec 3) (s : State) : Res :=
  runWord (placeWord .pwait d a b sc true false false [d.toNat]) s

/-- PGIVE: gives the place to another context (R222). -/
def execPgive (d a b : BitVec 5) (sc : BitVec 3) (s : State) : Res :=
  runWord (placeWord .pgive d a b sc false false true []) s

/-- PSWAP: exchanges queue positions (R222). -/
def execPswap (d a b : BitVec 5) (sc : BitVec 3) (s : State) : Res :=
  runWord (placeWord .pswap d a b sc false false true []) s

/-- PABAN: abandons a waiting place (R222). -/
def execPaban (d a b : BitVec 5) (sc : BitVec 3) (s : State) : Res :=
  runWord (placeWord .paban d a b sc false false false []) s

/-- PREL: a release; frees the place and grants the next one (R222). -/
def execPrel (d a b : BitVec 5) (sc : BitVec 3) (s : State) : Res :=
  runWord (placeWord .prel d a b sc false true false [d.toNat]) s

/-! ### Engine commands, DRAIN, THAW, BUBL (R225, R232, R234) -/

/-- An engine command: irrevocable; its block is read, checked and accepted at commit (R225). -/
def engWord (k : EngKind) (d a : BitVec 5) (sc : BitVec 3) : W Unit := do
  let v ← rdPair a.toNat
  let size := match k with
    | .trig | .coll => 128
    | _ => 64
  let (_, eff) ← wPointer v 0 64 size .plain
  W.irrevocable (.engine k (scopeOf sc) [d.toNat] eff)

/-- CPY (R225, R227). -/
def execCpy (d a : BitVec 5) (sc : BitVec 3) (s : State) : Res := runWord (engWord .cpy d a sc) s

/-- GATH (R225, R227). -/
def execGath (d a : BitVec 5) (sc : BitVec 3) (s : State) : Res := runWord (engWord .gath d a sc) s

/-- SCAT (R225, R227). -/
def execScat (d a : BitVec 5) (sc : BitVec 3) (s : State) : Res := runWord (engWord .scat d a sc) s

/-- TRIG (R225, R230). -/
def execTrig (d a : BitVec 5) (sc : BitVec 3) (s : State) : Res := runWord (engWord .trig d a sc) s

/-- COLL (R225, R231). -/
def execColl (d a : BitVec 5) (sc : BitVec 3) (s : State) : Res := runWord (engWord .coll d a sc) s

/-- FLAGST (R225, R227). -/
def execFlagst (d a : BitVec 5) (sc : BitVec 3) (s : State) : Res := runWord (engWord .flagst d a sc) s

/-- DRAIN: completes when the commands that earlier commits issued on the path have completed (R232). -/
def execDrain (path : BitVec 2) (s : State) : Res :=
  runWord (do
    let k ← get
    let v ← W.elem
    let open_ := (v.cmds.filter (fun c => c.2 == path.toNat)).map (fun c => c.1)
    let ns := k.i.cover.getD open_
    if ns.all (fun n => !open_.contains n) then pure () else throw (.wait (some ns))) s

/-- THAW: at commit a parked access of the port is released (R234). -/
def execThaw (d a : BitVec 5) (s : State) : Res :=
  runWord (do
    let k := (← rdS a.toNat).toNat
    if 15 < k then W.illop 2
    W.upd (fun i => i.disown d.toNat)
    W.eff (.thaw d.toNat k)) s

/-- BUBL: at commit the port's fault mode is set (R234). -/
def execBubl (d a b : BitVec 5) (s : State) : Res :=
  runWord (do
    let k := (← rdS a.toNat).toNat
    let m := (← rdS b.toNat).toNat
    if 15 < k ∨ 1 < m then W.illop 2
    W.upd (fun i => i.disown d.toNat)
    W.eff (.bubl d.toNat k m)) s

end Sys2Proof.Machine
end

