-- ==== Sys2Proof/Machine/EltTime.lean ====
section
/-! DEFINITION. Times and antichains, and the element words for times, capabilities and frontier registers (R236, R237, R245
to R248). -/

namespace Sys2Proof.Machine

/-! ### Times (R236) -/

def tOuter (t : DWord) : Word := (t >>> 32).setWidth 32
def tIter (t : DWord) : Half := (t >>> 16).setWidth 16
def tInner (t : DWord) : Half := t.setWidth 16

def mkTime (o : Word) (i n : Half) : DWord := o ++ i ++ n

/-- Every field of s is at most the same field of t. -/
def tLe (s t : DWord) : Bool :=
  decide ((tOuter s).toNat ≤ (tOuter t).toNat) && decide ((tIter s).toNat ≤ (tIter t).toNat) &&
  decide ((tInner s).toNat ≤ (tInner t).toNat)

def maxBv {n : Nat} (a b : BitVec n) : BitVec n := if a.toNat < b.toNat then b else a
def minBv {n : Nat} (a b : BitVec n) : BitVec n := if a.toNat < b.toNat then a else b

/-- TJOIN: the field-wise maximum. -/
def tJoin (s t : DWord) : DWord :=
  mkTime (maxBv (tOuter s) (tOuter t)) (maxBv (tIter s) (tIter t)) (maxBv (tInner s) (tInner t))

/-- TMEET: the field-wise minimum. -/
def tMeet (s t : DWord) : DWord :=
  mkTime (minBv (tOuter s) (tOuter t)) (minBv (tIter s) (tIter t)) (minBv (tInner s) (tInner t))

/-- A time is in advance of an antichain. -/
def inAdvance (t : DWord) (f : List DWord) : Bool := f.any (fun x => tLe x t)

/-- An antichain passes a time. -/
def passes (f : List DWord) (t : DWord) : Bool := !inAdvance t f

/-- adv_F(t). -/
def advance (f : List DWord) (t : DWord) : DWord := f.foldl (fun r x => tMeet r (tJoin t x)) 0xFFFFFFFFFFFFFFFF

/-- TCMP's answer (R237). -/
def tCompare (s t : DWord) : Word := if s = t then 1 else if tLe s t then 0 else if tLe t s then 2 else 3

/-- TCMP (R237). -/
def execTcmp (d a b : BitVec 5) (s : State) : Res :=
  runWord (do
    let x ← rdPair a.toNat
    let y ← rdPair b.toNat
    wrS d.toNat (tCompare x y)) s

/-- TJOIN (R237). -/
def execTjoin (d a b : BitVec 5) (s : State) : Res :=
  runWord (do
    let x ← rdPair a.toNat
    let y ← rdPair b.toNat
    wrPair d.toNat (tJoin x y)) s

/-- TMEET (R237). -/
def execTmeet (d a b : BitVec 5) (s : State) : Res :=
  runWord (do
    let x ← rdPair a.toNat
    let y ← rdPair b.toNat
    wrPair d.toNat (tMeet x y)) s

/-! ### Frontier registers (R246 to R248) -/

/-- ftn as the instance reads it: latched at its first read (R246). -/
def rdFrontier (n : Nat) : W Frontier := do
  match (← get).i.ftl.getD n none with
  | some f => pure f
  | none =>
    let f := (← W.elem).ft.getD n ⟨false, [0]⟩
    W.upd (fun i => { i with ftl := i.ftl.set n (some f) })
    pure f

/-- TADV (R237). -/
def execTadv (d a b : BitVec 5) (s : State) : Res :=
  runWord (do
    let x ← rdPair a.toNat
    let f ← rdFrontier b.toNat
    wrPair d.toNat (advance f.times x)) s

/-- FRD: T3:T0, the invalid times as 0 (R247). -/
def execFrd (d a : BitVec 5) (s : State) : Res :=
  runWord (do
    let f ← rdFrontier a.toNat
    wrW d.toNat (joinLanes 64 ((f.times.take 4).map (fun t => t.toNat)))) s

/-- FRD.cnt: APX and CNT (R247). -/
def execFrdCnt (d a : BitVec 5) (s : State) : Res :=
  runWord (do
    let f ← rdFrontier a.toNat
    wrS d.toNat (BitVec.ofNat 32 (f.apx.toNat * 8 + Nat.min f.times.length 4))) s

/-- FWAIT: waits until the live frontier passes u, and latches the value that ends the wait (R246, R248). -/
def execFwait (d a : BitVec 5) (s : State) : Res :=
  runWord (do
    let u ← rdPair d.toNat
    let f := (← W.elem).ft.getD a.toNat ⟨false, [0]⟩
    if !passes f.times u then throw (.wait none)
    W.upd (fun i => { i with ftl := i.ftl.set a.toNat (some f) })) s

/-! ### Capabilities (R245): made, and checked, at commit -/

/-- CAPH (R245). -/
def execCaph (d a : BitVec 5) (s : State) : Res :=
  runWord (do W.eff (.capH (d.toNat - 20) (← rdPair a.toNat))) s

/-- CAPD (R245). -/
def execCapd (d a : BitVec 5) (s : State) : Res :=
  runWord (do W.eff (.capD (d.toNat - 20) (← rdPair a.toNat))) s

/-- CAPX: as CAPD of t followed by CAPH of t'; t' not at least t is ILLOP with sub-cause 2 (R245). -/
def execCapx (d a b : BitVec 5) (s : State) : Res :=
  runWord (do
    let t ← rdPair a.toNat
    let u ← rdPair b.toNat
    if !tLe t u then W.fault .illop 2 u
    W.eff (.capX (d.toNat - 20) t u)) s

end Sys2Proof.Machine
end

