-- ==== Sys2Proof/Machine/Blocks.lean ====
section
/-! DEFINITION. Tile and block formats as values: matrix sums by the window rule, block floating point, conversion, sorting
(R59, R60, R63 to R66, R69 to R71, R181, R195 to R200). -/

namespace Sys2Proof.Machine

/-! ### Formats (R95, R181) -/

/-- A block floating-point format and its mantissa width (R59). -/
def isBfp (f : Nat) : Bool := decide (9 ≤ f)
def bfpBits (f : Nat) : Nat := f - 7

/-- Container width: the smallest of 4, 6 and 8 that holds the mantissa (R60). -/
def contBits (f : Nat) : Nat := if bfpBits f ≤ 4 then 4 else if bfpBits f ≤ 6 then 6 else 8

/-- Containers in a 32-bit word. -/
def contCount (f : Nat) : Nat := if contBits f = 4 then 8 else if contBits f = 6 then 5 else 4

/-- Bytes from one block to the next in memory (R60). -/
def blockStride (f : Nat) : Nat := if contBits f = 4 then 16 else 32

/-- Rows and columns of a tile (R181). -/
def tileN (f : Nat) : Nat := if f = 0 then 32 else 64

/-- Bytes of an operand tile (R181). -/
def tileBytes (f : Nat) : Nat := if isBfp f then 128 * blockStride f else tileN f * tileN f * fmtBytes f

/-- The number at `n` bytes from byte `a` of a list, little-endian. -/
def numAt (bs : List Byte) (a n : Nat) : Nat := leNat ((bs.drop a).take n)

/-- A mantissa from its container: none where it is not sign-extended (R60). -/
def mantissa (f v : Nat) : Option Int :=
  let m := (BitVec.ofNat (contBits f) v).toInt
  let lim : Int := 2 ^ (bfpBits f - 1)
  if m < -lim ∨ lim ≤ m then none else some m

/-- The 32 mantissas of a block from its words; none where a container or a 6-bit word breaks R60. What a 6-bit block holds beside
its 32 mantissas is not looked at (DESIGN CHOICE, log 65). -/
def blockMants (f : Nat) (ws : List Nat) : Option (List Int) :=
  if contBits f = 6 ∧ ws.any (fun w => decide (2 ^ 30 ≤ w)) then none
  else (List.range 32).mapM (fun i =>
    mantissa f (ws.getD (i / contCount f) 0 / 2 ^ (contBits f * (i % contCount f)) % 2 ^ contBits f))

/-- The words of the block at byte `a`. -/
def blockWords (f : Nat) (bs : List Byte) (a : Nat) : List Nat :=
  (List.range ((32 + contCount f - 1) / contCount f)).map (fun i => numAt bs (a + 4 * i) 4)

/-- A value of fmt 0 to 8 from its pattern; integers are exact. -/
def fmtValue (f v : Nat) : FV :=
  if f ≤ 5 then (fmtOf f).decode v
  else
    let x : Int := if f = 6 then (BitVec.ofNat 8 v).toInt else if f = 7 then v else (BitVec.ofNat 32 v).toInt
    .fin (decide (x < 0)) x.natAbs 0

/-! ### The window rule (R64) -/

/-- The exponent of the leading bit of a non-zero finite value. -/
def FV.top : FV → Option Int
  | .fin _ m e => if m = 0 then none else some ((Nat.log2 m : Int) + e)
  | _ => none

/-- The largest leading exponent of the addends. -/
def topOf (l : List FV) : Option Int :=
  l.foldl (fun r x => match r, x.top with
    | none, t => t
    | some a, some b => some (max a b)
    | r, none => r) none

/-- An addend in sign-magnitude form, cut to a multiple of 2^q: the signed multiple, and whether bits were cut. -/
def FV.cut (q : Int) : FV → Int × Bool
  | .fin s m e =>
    let sg : Int := if s then -1 else 1
    if q ≤ e then (sg * ((m * 2 ^ (e - q).toNat : Nat) : Int), false)
    else
      let d := 2 ^ (q - e).toNat
      (sg * ((m / d : Nat) : Int), m % d != 0)
  | _ => (0, false)

def FV.sign : FV → Bool
  | .nan => false
  | .inf s => s
  | .fin s _ _ => s

def FV.isInf (s : Bool) : FV → Bool
  | .inf t => s == t
  | _ => false

/-- The sum of a group by the window rule, as an FP32 pattern (R64). -/
def windowSum (rm : Rm) (l : List FV) : Nat :=
  if l.any (fun x => x.isNan) then fp32.nan
  else if l.any (fun x => x.isInf false) ∧ l.any (fun x => x.isInf true) then fp32.nan
  else if l.any (fun x => x.isInf false) then fp32.infPat false
  else if l.any (fun x => x.isInf true) then fp32.infPat true
  else match topOf l with
    | none =>
      let s0 := (l.headD .nan).sign
      fp32.signBit (zeroSign rm (if l.all (fun x => x.sign == s0) then some s0 else none))
    | some t =>
      let q := t - 90
      let cs := l.map (fun x => x.cut q)
      let w : Int := cs.foldl (fun (r : Int) (c : Int × Bool) => r + c.1) 0
      let sticky := cs.any (fun c => c.2)
      if w = 0 then fp32.signBit (rm == .rdn)
      else fp32.round rm (decide (w < 0)) w.natAbs q sticky

/-! ### Matrix products (R63, R65, R66, R187) -/

/-- A product that the unit skips: an exact zero of two finite operands (R66). -/
def skipped : FV → FV → Bool
  | .fin _ m _, .fin _ n _ => m == 0 || n == 0
  | _, _ => false

/-- Split a list into groups of `n`. -/
def groups {α : Type} (n : Nat) : Nat → List α → List (List α)
  | 0, _ => []
  | k + 1, l => if l.isEmpty then [] else l.take n :: groups n k (l.drop n)

/-- K values per group of the window rule (R63). -/
def groupSize (f : Nat) : Nat := if f = 2 ∨ f = 3 then 8 else 16

/-- One accumulator element of a floating multiply whose groups are summed by the window rule. -/
def dotWindow (f : Nat) (rm : Rm) (c : Nat) (xs ys : List FV) : Nat :=
  let ps := (xs.zip ys).map (fun (x, y) => x.mul y)
  (groups (groupSize f) 64 ps).foldl (fun c g => windowSum rm (fp32.decode c :: g)) c

/-- One accumulator element of an FP32 or FP64 multiply: a fused multiply-add for each product. -/
def dotFma (f : FFmt) (rm : Rm) (c : Nat) (xs ys : List Nat) : Nat :=
  (xs.zip ys).foldl (fun c (x, y) => f.op .mac rm x y c) c

/-- The addend of one block of a block floating-point multiply (R64): mantissas and exponents of A and B. A sum of products that is
zero is taken as +0 (DESIGN CHOICE, log 64). -/
def blockAddend (f : Nat) (xs ys : List Int) (ea eb : Nat) : FV :=
  if ea = 0xFF ∨ eb = 0xFF then .nan
  else
    let d := ((xs.zip ys).map (fun (x, y) => x * y)).foldl (· + ·) 0
    .fin (decide (d < 0)) d.natAbs ((ea : Int) + eb - 254 - 2 * (bfpBits f - 1))

/-! ### Accumulators (R16, R181) -/

/-- The FP64 view of element (i, j), and the FP32 view. -/
def acc64 (a : SMap Word) (i j : Nat) : Nat :=
  (smGet 0 a (64 * i + 2 * j)).toNat + 2 ^ 32 * (smGet 0 a (64 * i + 2 * j + 1)).toNat

def acc32 (a : SMap Word) (i j : Nat) : Nat := (smGet 0 a (64 * i + j)).toNat

/-- An accumulator from its words in order, from word `n` on; zeros are not listed. -/
def accList (n : Nat) : List Word → SMap Word
  | [] => []
  | w :: ws => if w = 0 then accList (n + 1) ws else (n, w) :: accList (n + 1) ws

/-- The words of rows 0 to 31 replaced; rows 32 to 63 stay (R16). -/
def accTop (a : SMap Word) (ws : List Word) : SMap Word := accList 0 ws ++ a.filter (fun x => decide (2048 ≤ x.1))

/-- The words of a tile of accumulator bytes. -/
def wordsOf (bs : List Byte) : List Word := (List.range (bs.length / 4)).map (fun i => BitVec.ofNat 32 (numAt bs (4 * i) 4))

/-- An accumulator's bytes, the first `n` words. -/
def accBytes (a : SMap Word) (n : Nat) : List Byte := (List.range n).flatMap (fun i => leBytes 4 (smGet 0 a i).toNat)

/-! ### Units of values (R199) -/

/-- Lanes 0 to 6 of a unit as one number. -/
def payload (u : Slot) : Nat := u.toNat % 2 ^ 224

/-- Values of fmt 0 to 8 that a unit holds. -/
def perUnit (f : Nat) : Nat := if f = 0 then 3 else 28 / fmtBytes f

/-- The patterns of a DATA unit. -/
def unitValues (f : Nat) (u : Slot) : List Nat :=
  (List.range (perUnit f)).map (fun p => payload u / 2 ^ (8 * fmtBytes f * p) % 2 ^ (8 * fmtBytes f))

/-- A DATA unit of payload patterns of `b` bits each. -/
def dataUnit (b : Nat) (vs : List Nat) (h : Word) : Slot := BitVec.ofNat 256 (joinNat b vs % 2 ^ 224 + 2 ^ 224 * h.toNat)

/-- Words of 32 bits from `n`-per-word sub-elements of `b` bits. -/
def packWords (b n : Nat) (vs : List Nat) : List Nat := (groups n 64 vs).map (joinNat b)

/-! ### Conversion (R69 to R71) -/

/-- An integer clamped to a range. -/
def clampInt (lo hi v : Int) : Int := if v < lo then lo else if hi < v then hi else v

/-- The range of fmt 6 to 8. -/
def intRange (f : Nat) : Int × Int :=
  if f = 6 then (-128, 127) else if f = 7 then (0, 255) else (-(2 ^ 31 : Int), 2 ^ 31 - 1)

/-- A value converted to fmt 0 to 8, as a pattern (R69). -/
def convertTo (f : Nat) (rm : Rm) (v : FV) : Nat :=
  if f ≤ 5 then (fmtOf f).encode rm v
  else
    let (lo, hi) := intRange f
    let x : Int := match v with
      | .nan => 0
      | .inf s => if s then lo else hi
      | .fin s m e => clampInt lo hi (roundInt rm s m e)
    (BitVec.ofInt (if f = 8 then 32 else 8) x).toNat

/-- 32 values as one block: its exponent, and its mantissas (R70). -/
def toBlock (f : Nat) (rm : Rm) (vs : List FV) : Nat × List Int :=
  let b := bfpBits f
  if vs.any (fun v => v.isNan || v.isInf false || v.isInf true) then (0xFF, List.replicate 32 0)
  else match topOf vs with
    | none => (0, List.replicate 32 0)
    | some t =>
      let e := clampInt 0 254 (t + 128)
      let lim : Int := 2 ^ (b - 1)
      (e.toNat, vs.map (fun v => match v with
        | .fin s m g => clampInt (-lim) (lim - 1) (roundInt rm s m (g + (b - 1 : Nat) - (e - 127)))
        | _ => 0))

/-- The values of a block (R59). -/
def fromBlock (f e : Nat) (ms : List Int) : List FV :=
  if e = 0xFF then List.replicate 32 .nan
  else ms.map (fun m => .fin (decide (m < 0)) m.natAbs ((e : Int) - 127 - (bfpBits f - 1 : Nat)))

/-! ### Sorting (R195, R196) -/

/-- The order of SORTN keys (R196). -/
def keyLt (f : Nat) (u : Bool) (x y : Word) : Bool :=
  if f = 1 then (fp32.decode x.toNat).lt (fp32.decode y.toNat)
  else if u then decide (x.toNat < y.toNat) else x.slt y

end Sys2Proof.Machine
end

