-- ==== Sys2Proof/Machine/EltMatrix.lean ====
section
/-! DEFINITION. Element matrix, sort, convert and scale words (R181 to R204, R337, R444). -/

namespace Sys2Proof.Machine

/-! ### Tiles (R182) -/

/-- A vault address in an s register for a region of `n` bytes: ALIGN, then ILLOP with sub-cause 2 (R182). -/
def tileAddr (r n align : Nat) : W Nat := do
  let a := (← rdS r).toNat
  if a % align ≠ 0 then W.fault .align 0 (BitVec.ofNat 64 a)
  if 0x80000 < a + n then W.illop 2
  pure a

/-- A tile's bytes, and the vault address of each of its bytes (R182). -/
def rdTile (r n align : Nat) : W (List Byte × (Nat → Nat)) := do
  if r < 16 then
    let a ← tileAddr r n align
    pure (← readVault a n, fun o => a + o)
  else
    useBuffer r
    let k ← get
    let us := k.i.cbUnits (← W.elem) (r - 24)
    let t := k.i.tpos.getD (r - 24) 0
    if 32 * us.length < t + n then W.illop 2
    W.upd (fun i => { i with tpos := i.tpos.set (r - 24) (t + n) })
    let bs ← ((us.drop (t / 32)).take ((t + n + 31) / 32 - t / 32)).mapM (fun a => readVault a 32)
    pure ((bs.flatten.drop (t % 32)).take n, fun o => us.getD ((t + o) / 32) 0 + (t + o) % 32)

/-- The dataflow rule for tiles that s registers name: wait until every word is full and no other instance claims it, then
claim the words, which the commit empties (R184). A word that has started holds its claim. -/
def dataflow (tiles : List (Nat × Nat)) : W Unit := do
  let k ← get
  let c ← W.cur
  let v ← W.elem
  let ws := tiles.flatMap (fun t => if t.1 < 16 then vaultWords c.patch c.el (k.i.r.s.getD t.1 0).toNat t.2 else [])
  let taken := v.insts.any (fun i => i.id != k.i.id && i.st != .armed && i.dfc.any (fun w => ws.contains w))
  if !(k.i.mx && ws.all (fun w => k.i.dfc.contains w)) then
    W.ownTest .elem (vaultPlace c.patch c.el 0) ws
    if taken || !k.s.allMarked ws true then throw (.wait none)
    modify (fun k => { k with s := k.s.flushWords ws, i := { k.i with dfc := k.i.dfc ++ ws } })
  if !ws.isEmpty then W.eff (.store (emptyStore c.patch c.el ws))

/-! ### Scale tokens (R202, R203) -/

def ScbEntry.btag (x : ScbEntry) : Nat := (x.tok >>> 8).toNat % 2 ^ 20

def ScbEntry.exp (x : ScbEntry) : Nat := x.tok.toNat % 256

/-- Units per block of a block format (R199). -/
def unitsPerBlock (f : Nat) : Nat := if contBits f = 8 then 2 else 1

/-- The numbers of the blocks whose tokens the word takes at which an instance of an element stands (R202). -/
def State.scaleNeed (s : State) (p e : Nat) (i : Inst) : List Nat :=
  let v := s.elem p e
  match (smFind v.blocks i.blk).bind (fun b => (decodeElem (b.words.getD i.pc 0).toNat).toOption) with
  | some (.mma _ _ _ f _ _ _) => if isBfp f.toNat then List.range 256 else []
  | some (.mmag _ _ _ f _ _ _) => if isBfp f.toNat then List.range 256 else []
  | some (.cvt a _ _ f _) =>
    if isBfp f.toNat then
      let from_ := i.pos.getD (qIdx a.toNat) 0 / 8
      let us := if a.toNat < 20 then (i.qres.getD (a.toNat - 16) []).drop from_
        else ((i.cbUnits v (a.toNat - 24)).drop from_).map (fun x => ofBytes (s.peek (.elem p e) (vaultAddr p e x) 32))
      let n := (us.filter (fun u => uKind u == 0)).length
      (List.range ((n + unitsPerBlock f.toNat - 1) / unitsPerBlock f.toNat)).map (i.cvtS + ·)
    else []
  | _ => []

/-- An instance that was allocated before `me` needs the token of a BTAG and has not reserved it: it goes to that one (R203). -/
def State.scaleAhead (s : State) (p e : Nat) (me : Inst) (btag : Nat) : Bool :=
  let v := s.elem p e
  (v.insts.takeWhile (fun i => i.id != me.id)).any (fun i => i.st == .fired && i.tag.toNat == btag / 256 &&
    !v.scb.any (fun x => x.btag == btag && x.owner == some i.id) && (s.scaleNeed p e i).contains (btag % 256))

/-- The instance in the station takes the DF claims that its word has made as it started (R184). -/
def State.keepDf (s : State) (p e : Nat) (i : Inst) : State :=
  s.modElem p e (fun v => { v with insts := v.insts.map (fun j => if j.id = i.id then { j with dfc := i.dfc } else j) })

/-- The exponents of blocks `ns` of the instance: each entry that matches is reserved, and the word waits for those that are missing
(R202, R203). A token whose reserved bits are not zero is ILLOP with sub-cause 1 (R61). -/
def scaleExps (ns : List Nat) : W (List Nat) := do
  if ns.isEmpty then pure []
  else
    let k ← get
    let c ← W.cur
    let v ← W.elem
    let tags := ns.map (fun n => k.i.tag.toNat * 256 + n)
    let scb := v.scb.map (fun x =>
      if x.owner.isNone && tags.contains x.btag && !k.s.scaleAhead c.patch c.el k.i x.btag then { x with owner := some k.i.id } else x)
    let es := tags.map (fun t => scb.find? (fun x => x.btag == t && x.owner == some k.i.id))
    if (es.filterMap id).any (fun e => decide (2 ^ 28 ≤ e.tok.toNat)) then W.illop 1
    let s := k.s.setElem c.patch c.el { v with scb := scb }
    if es.any (fun e => e.isNone) then throw (.keep (s.keepDf c.patch c.el k.i))
    set { k with s := s }
    pure ((es.filterMap id).map (fun e => e.exp))

/-! ### MMA and MMAG (R186 to R192) -/

/-- The elements of a tile, row by row, as patterns. -/
def tileRows (f : Nat) (bs : List Byte) : List (List Nat) :=
  let n := tileN f
  (List.range n).map (fun r => (List.range n).map (fun c => numAt bs ((n * r + c) * fmtBytes f) (fmtBytes f)))

/-- Columns of a table. -/
def columns (rows : List (List Nat)) : List (List Nat) :=
  (List.range rows.length).map (fun c => rows.map (fun r => r.getD c 0))

/-- The mantissas of the 128 blocks of a tile; an invalid container is ILLOP, whose sub-cause the spec leaves open. -/
def tileBlocks (f : Nat) (bs : List Byte) : W (List (List Int)) := do
  match (List.range 128).mapM (fun m => blockMants f (blockWords f bs (m * blockStride f))) with
  | some l => pure l
  | none => W.illopOpen

/-- The triples that a multiply skips (R66, R189). -/
def skipCount (rows cols : List (List FV)) : Nat :=
  ((rows.map (fun r => (cols.map (fun c => ((r.zip c).filter (fun x => skipped x.1 x.2)).length)).sum)).sum)

/-- The new accumulator of a multiply of fmt 0 to 7 and the triples it skips (R187). -/
def multiply (f : Nat) (rm : Rm) (acc : SMap Word) (a b : List Byte) : SMap Word × Nat :=
  let rows := tileRows f a
  let cols := columns (tileRows f b)
  let ix := fun (l : List (List Nat)) => (List.range l.length).zip l
  let vals := fun (l : List (List Nat)) => l.map (fun r => r.map (fmtValue f))
  let sk := skipCount (vals rows) (vals cols)
  if f = 0 then
    (accTop acc ((ix rows).flatMap (fun (i, r) => (ix cols).flatMap (fun (j, c) =>
      let x := dotFma fp64 rm (acc64 acc i j) r c
      [BitVec.ofNat 32 x, BitVec.ofNat 32 (x / 2 ^ 32)]))), sk)
  else if f = 1 then
    (accList 0 ((ix rows).flatMap (fun (i, r) => (ix cols).map (fun (j, c) =>
      BitVec.ofNat 32 (dotFma fp32 rm (acc32 acc i j) r c)))), sk)
  else if f ≤ 5 then
    (accList 0 (((ix rows).zip (vals rows)).flatMap (fun (ir, rv) => ((ix cols).zip (vals cols)).map (fun (jc, cv) =>
      BitVec.ofNat 32 (dotWindow f rm (acc32 acc ir.1 jc.1) rv cv)))), sk)
  else
    let int := fun (v : Nat) => if f = 6 then (BitVec.ofNat 8 v).toInt else (v : Int)
    (accList 0 ((ix rows).flatMap (fun (i, r) => (ix cols).map (fun (j, c) =>
      BitVec.ofInt 32 ((acc32 acc i j : Int) + ((r.zip c).map (fun (x, y) => int x * int y)).foldl (· + ·) 0)))), sk)

/-- The same for a block format: mantissas of the A and B blocks, and the exponents of blocks 0 to 255 (R62, R187). -/
def multiplyBfp (f : Nat) (rm : Rm) (acc : SMap Word) (a b : List (List Int)) (es : List Nat) : SMap Word × Nat :=
  let at_ := fun (i j : Nat) => (List.range 2).map (fun kb =>
    (a.getD (2 * i + kb) [], b.getD (2 * j + kb) [], es.getD (2 * i + kb) 0, es.getD (128 + 2 * j + kb) 0))
  let ij := (List.range 64).flatMap (fun i => (List.range 64).map (fun j => (i, j)))
  (accList 0 (ij.map (fun (i, j) => BitVec.ofNat 32 ((at_ i j).foldl (fun c (x, y, ea, eb) =>
     windowSum rm [fp32.decode c, blockAddend f x y ea eb]) (acc32 acc i j)))),
   (ij.map (fun (i, j) => ((at_ i j).map (fun (x, y, ea, eb) => if ea = 0xFF ∨ eb = 0xFF then 0
     else ((x.zip y).filter (fun z => z.1 * z.2 == 0)).length)).sum)).sum)

/-- Multiply once both operands are there: the accumulator is written, and ZSKIP counts at commit (R187, R189). -/
def matrixWord (t f : Nat) (clr : Bool) (rm : Rm) (a b : List Byte) : W Unit := do
  let old := (← get).i.r.acc.getD t []
  let acc := if clr then (if f = 0 then old.filter (fun x => decide (2048 ≤ x.1)) else []) else old
  let (acc', sk) ←
    if isBfp f then do
      let es ← scaleExps (List.range 256)
      let ma ← tileBlocks f a
      let mb ← tileBlocks f b
      pure (multiplyBfp f rm acc ma mb es)
    else pure (multiply f rm acc a b)
  wrAcc t acc'
  W.eff (.zskip (BitVec.ofNat 32 sk))

/-- MMA (R186, R187). -/
def execMma (t : BitVec 2) (a b : BitVec 5) (f : BitVec 4) (df clr : BitVec 1) (r : BitVec 3) (s : State) : Res :=
  runWord (do
    let f := f.toNat
    W.unit
    W.fullOnly (decide (f ≤ 1))
    let (ta, _) ← rdTile a.toNat (tileBytes f) 256
    let (tb, _) ← rdTile b.toNat (tileBytes f) 256
    if df = 1 then dataflow [(a.toNat, tileBytes f), (b.toNat, tileBytes f)]
    matrixWord t.toNat f (clr == 1) (rmOf r) ta tb) s

/-- Bytes of a row of the gather's table (R191). -/
def rowBytes (f : Nat) : Nat := if isBfp f then 2 * blockStride f else tileN f * fmtBytes f

/-- The A tile that a gather record names (R191, R192). -/
def gatherTile (f : Nat) (rc : List Byte) : W (List Byte) := do
  let h := numAt rc 0 32
  let nrow := h / 2 ^ 19 % 2 ^ 16
  let base := h % 2 ^ 19
  let n := rowBytes f
  if 2 ^ 35 ≤ h ∨ base % 32 ≠ 0 ∨ 0x80000 < base + nrow * n then W.illop 1
  let rows ← (List.range (tileN f)).mapM (fun i => do
    let x := numAt rc (32 + 2 * i) 2
    if x = 0xFFFF then pure (List.replicate n (0 : Byte))
    else if nrow ≤ x then W.fault .illop 2 (BitVec.ofNat 64 x)
    else readVault (base + x * n) n)
  pure rows.flatten

/-- MMAG: the rows of A are gathered by a record (R192); DF applies to B alone. -/
def execMmag (t : BitVec 2) (a b : BitVec 5) (f : BitVec 4) (df clr : BitVec 1) (r : BitVec 3) (s : State) : Res :=
  runWord (do
    let f := f.toNat
    W.unit
    W.fullOnly (decide (f ≤ 1))
    let (rc, _) ← rdTile a.toNat 160 32
    let (tb, _) ← rdTile b.toNat (tileBytes f) 256
    if df = 1 then dataflow [(b.toNat, tileBytes f)]
    let ta ← gatherTile f rc
    matrixWord t.toNat f (clr == 1) (rmOf r) ta tb) s

/-! ### ACCLD, ACCST, LDT (R193, R194, R337) -/

/-- Words of an accumulator that fmt 0 or 1 moves. -/
def accWords (f : Nat) : Nat := if f = 0 then 2048 else 4096

/-- ACCLD (R193). -/
def execAccld (t : BitVec 2) (a : BitVec 5) (f : BitVec 4) (s : State) : Res :=
  runWord (do
    W.unit
    W.fullOnly (f == 0)
    let (bs, _) ← rdTile a.toNat (4 * accWords f.toNat) 256
    let old := (← get).i.r.acc.getD t.toNat []
    wrAcc t.toNat (if f = 0 then accTop old (wordsOf bs) else accList 0 (wordsOf bs))) s

/-- A store of a tile to the element's own vault, its words set full (R193, R194, R265). -/
def tileStore (p e va : Nat) (bs : List Byte) : Store :=
  ⟨⟨vaultAddr p e va, .rc, false, true⟩, ((List.range bs.length).map (vaultAddr p e va + ·)).zip bs,
   (vaultWords p e va bs.length).map (fun w => (w, true)), .elem, false, BitVec.ofNat 64 va, false⟩

/-- Bytes that go to a circular buffer as whole slots, from FILLP on; more slots than NSLOT is ILLOP with sub-cause 2, which for
ACCST has been found when the instance fired (R158, R193, R264). What fills up the last slot is open: free bytes (log 13). -/
def rawToBuffer (r : Nat) (bs : List Byte) : W Unit := do
  useBuffer r
  let h := (← get).i.cbAt.getD (r - 24) 0
  let sz := cbSlotBytes h
  let n := (bs.length + sz - 1) / sz
  if cbNslot h < n then W.illop 2
  let k ← get
  let m := n * sz - bs.length
  set { k with s := { k.s with free := k.s.free + m } }
  putLanes r (wordsOf (bs ++ (List.range m).map (fun i => Config.freeByte (k.s.free + i))))

/-- ACCST (R193). -/
def execAccst (t : BitVec 2) (a b : BitVec 5) (f : BitVec 4) (s : State) : Res :=
  runWord (do
    W.unit
    W.fullOnly (f == 0)
    let n := accWords f.toNat
    let bs := accBytes ((← get).i.r.acc.getD t.toNat []) n
    if a.toNat < 16 then
      let va ← tileAddr a.toNat (4 * n) 256
      let c ← W.cur
      if b = 1 then W.eff (.accst va bs) else W.eff (.store (tileStore c.patch c.el va bs))
    else rawToBuffer a.toNat bs) s

/-- Conflicts of accesses of one kind in one cycle: all but one of the different words of each bank (R336). -/
def conflicts (vh : BitVec 10) (was : List Nat) : Nat :=
  let ws := was.dedup
  ws.length - (ws.map (bankOf vh)).dedup.length

/-- The conflicts of an LDT: groups of 8 reads and the writes of their elements (R337). -/
def ldtConflicts (vh : BitVec 10) (f : Nat) (src dst : Nat → Nat) : Nat :=
  let n := tileN f
  let z := fmtBytes f
  let r := n * z / 8
  let per := 8 / z
  ((List.range r).map (fun w => ((List.range (n / 8)).map (fun g =>
    conflicts vh ((List.range 8).map (fun i => src ((8 * g + i) * n * z + 8 * w) / 8)) +
    conflicts vh ((List.range per).flatMap (fun j => (List.range z).map (fun q =>
      dst ((n * (w * per + j) + 8 * g) * z + 8 * q) / 8))))).sum)).sum

/-- LDT: a transposed copy. Its groups present their reads and writes while it runs, to a vault whose replay queue is empty, and their
conflicts count in BCONF; its stores are presented no second time (R194, R336, R337). -/
def execLdt (a b : BitVec 5) (f : BitVec 4) (s : State) : Res :=
  runWord (do
    let f := f.toNat
    W.unit
    W.fullOnly (decide (f ≤ 1) || f == 8)
    if (← W.elem).rplq ≠ 0 then throw .hold
    let (bs, src) ← rdTile a.toNat (tileBytes f) 256
    let va ← tileAddr b.toNat (tileBytes f) 256
    let c ← W.cur
    let k ← get
    let v ← W.elem
    let n := ldtConflicts (k.s.seq c.patch).vhash f src (fun o => va + o)
    set { k with s := k.s.setElem c.patch c.el { v with bconf := v.bconf + BitVec.ofNat 32 n } }
    let out := (columns (tileRows f bs)).flatMap (fun r => r.flatMap (leBytes (fmtBytes f)))
    W.eff (.store { tileStore c.patch c.el va out with banked := true })) s

/-! ### SORTN (R195, R196, R201) and streaming results (R197) -/

/-- A DATA header of the instance. -/
def W.header (flags : Nat) : W Word := do pure (Sys2Proof.Machine.header 0 (← get).i.tag flags)

/-- Units that CVT or SORTN makes: at most 512; to a port through its emitter, to a buffer as units, in at most NSLOT slots (R197).
That a block's units fill whole slots of a buffer is found when it commits (R158). -/
def streamOut (r : Nat) (us : List Slot) : W Unit := do
  if 512 < us.length then W.illop 2
  if r < 24 then W.eff (.emitter (r - 20) us)
  else
    useBuffer r
    if ((← get).i.outs.getD (r - 20) []).length % 8 ≠ 0 then W.illop 2
    let h := (← get).i.cbAt.getD (r - 24) 0
    putLanes r (us.flatMap unitLanes)
    let n := ((← get).i.outs.getD (r - 20) []).length / 8
    if cbNslot h * 2 ^ cbSsz h < n then W.illop 2

/-- The pairs of SORTN in units of three. -/
def pairUnits (ps : List (Word × Nat)) (hdr last : Word) : List Slot :=
  let n := (ps.length + 2) / 3
  (List.range n).map (fun u =>
    let pr := (List.range 3).flatMap (fun p => match ps[3 * u + p]? with
      | some (k, i) => [k, BitVec.ofNat 32 i]
      | none => [0, 0xFFFFFFFF])
    ofLanes (pr ++ [0, if u + 1 = n then last else hdr]))

/-- SORTN (R195, R196): BUBBLE and MARK units go first, unchanged (R201). -/
def execSortn (a b : BitVec 5) (f : BitVec 4) (u dn : BitVec 1) (s : State) : Res :=
  runWord (do
    W.unit
    let us ← rdRest a.toNat
    if us.any (fun x => uKind x == 1) then W.illop 2
    let keys := (us.filter (fun x => uKind x == 0)).flatMap (fun x => (List.range 7).map (lane x))
    if 1536 < keys.length then W.illop 2
    let lt := fun (x y : Word × Nat) =>
      if dn = 1 then keyLt f.toNat (u == 1) y.1 x.1 else keyLt f.toNat (u == 1) x.1 y.1
    let ps := sortBy lt (keys.zip (List.range keys.length))
    streamOut b.toNat (us.filter (fun x => uKind x != 0) ++ pairUnits ps (← W.header 0) (← W.header 1))) s

/-! ### CVT (R198 to R202) -/

/-- Runs of consecutive DATA units and the units between them, in order: a run is `.inl`. -/
def dataRuns : List Slot → List (List Slot ⊕ Slot)
  | [] => []
  | u :: us =>
    if uKind u = 0 then
      match dataRuns us with
      | .inl r :: rest => .inl (u :: r) :: rest
      | rest => .inl [u] :: rest
    else .inr u :: dataRuns us

/-- The container words of a block that some units hold. -/
def unitBlockWords (f : Nat) (us : List Slot) : List Nat :=
  let w := fun u => (List.range 7).map (fun i => (lane u i).toNat)
  if contBits f = 8 then w (us.getD 0 0) ++ [(lane (us.getD 1 0) 0).toNat] else w (us.getD 0 0)

/-- The values of a run in a source format; blocks take the exponents of their numbers (R199, R202). -/
def runValues (f : Nat) (us : List Slot) : W (List FV) := do
  if isBfp f then
    let per := unitsPerBlock f
    if us.length % per ≠ 0 then W.illop 2
    let bl := groups per us.length us
    let k0 := (← get).i.cvtS
    if 256 < k0 + bl.length then W.illop 2
    W.upd (fun i => { i with cvtS := i.cvtS + bl.length })
    let es ← scaleExps ((List.range bl.length).map (k0 + ·))
    let vs ← (es.zip bl).mapM (fun (e, b) => match blockMants f (unitBlockWords f b) with
      | some ms => pure (fromBlock f e ms)
      | none => W.illopOpen)
    pure vs.flatten
  else pure ((us.flatMap (unitValues f)).map (fmtValue f))

/-- The units of one block: its mantissas in containers (R60, R199). -/
def blockUnits (f : Nat) (ms : List Int) (h : Word) : List Slot :=
  let cs := ms.map (fun m => (BitVec.ofInt (contBits f) m).toNat)
  let mk := fun l => dataUnit 32 (packWords (contBits f) (contCount f) l) h
  if contBits f = 8 then [mk (cs.take 28), mk (cs.drop 28)] else [mk cs]

/-- A run converted: its units and the scale tokens' exponents (R69, R70, R200). -/
def convertRun (f : Nat) (rm : Rm) (h : Word) (vs : List FV) : W (List Slot × List Nat) := do
  if isBfp f then
    if vs.length % 32 ≠ 0 then W.illop 2
    let bl := (groups 32 vs.length vs).map (toBlock f rm)
    pure (bl.flatMap (fun b => blockUnits f b.2 h), bl.map (fun b => b.1))
  else
    let ps := vs.map (convertTo f rm)
    pure ((groups (perUnit f) ps.length ps).map (fun g => dataUnit (8 * fmtBytes f) g h), [])

/-- Set LAST on the last DATA unit of a list. -/
def markLast : List Slot → List Slot
  | [] => []
  | u :: us => if uKind u = 0 ∧ us.all (fun x => uKind x != 0) then (u ||| ((1 : Slot) <<< 240)) :: us else u :: markLast us

/-- A scale token (R61). -/
def scaleTok (btag e : Nat) : Word := BitVec.ofNat 32 (btag % 2 ^ 20 * 256 + e % 256)

/-- CVT (R198 to R202). -/
def execCvt (a b : BitVec 5) (f sf : BitVec 4) (r : BitVec 3) (s : State) : Res :=
  runWord (do
    W.fullOnly (f == 0 || sf == 0)
    let us ← rdRest a.toNat
    if us.any (fun x => uKind x == 1) then W.illop 2
    let rep := us.any (fun x => (uFlags x).getLsbD 1)
    let h ← W.header (if rep then 2 else 0)
    let parts ← (dataRuns us).mapM (fun x => match x with
      | .inr u => pure ([u], [])
      | .inl run => do convertRun f.toNat (rmOf r) h (← runValues sf.toNat run))
    let lastData := (us.filter (fun x => uKind x == 0)).getLast?
    let out := parts.flatMap (fun p => p.1)
    let out := match lastData with
      | some u => if (uFlags u).getLsbD 0 then markLast out else out
      | none => out
    let es := parts.flatMap (fun p => p.2)
    let n0 := (← get).i.cvtN
    if 256 < n0 + es.length then W.illop 2
    let tag := (← get).i.tag.toNat
    W.upd (fun i => { i with cvtN := n0 + es.length })
    if !es.isEmpty then
      W.eff (.scaleOut ((List.range es.length).map (fun j => scaleTok (tag * 256 + n0 + j) (es.getD j 0))))
    streamOut b.toNat out) s

/-! ### SCLD and SCEM (R204) -/

/-- The 128 tokens of an exponent array. -/
def scaleArray (t a b : Nat) : W (List Word) := do
  let va := (← rdS a).toNat
  let tg := (← rdS b).toNat
  if 0x80000 < va + 128 ∨ 2 ^ 12 ≤ tg then W.illop 2
  let bs ← readVault va 128
  pure ((List.range 128).map (fun n => scaleTok (tg * 256 + 128 * t + n) (bs.getD n 0).toNat))

/-- SCLD: at commit the tokens enter the element's own SCB (R204). -/
def execScld (t : BitVec 2) (a b : BitVec 5) (_f : BitVec 4) (s : State) : Res :=
  runWord (do W.eff (.scaleIn (← scaleArray t.toNat a.toNat b.toNat))) s

/-- SCEM: at commit the tokens leave through the local scale endpoint (R204). -/
def execScem (t : BitVec 2) (a b : BitVec 5) (_f : BitVec 4) (s : State) : Res :=
  runWord (do W.eff (.scaleOut (← scaleArray t.toNat a.toNat b.toNat))) s

end Sys2Proof.Machine
end

