-- ==== Sys2Proof/Machine/EltWit.lean ====
section
/-! DEFINITION. Witness reductions, ADJB and WREL (R264 to R270). -/

namespace Sys2Proof.Machine

/-- The kinds of WRED (R264). -/
inductive WredKind where
  | max | min | clamp | med | sats
  deriving DecidableEq, Repr

/-- The result pattern of a value of fmt 0 to 8: a NaN is canonical, a BF16 subnormal is flushed (R46, R53). -/
def resultOf (f v : Nat) : Nat := if f ≤ 5 then (fmtOf f).encode .rne ((fmtOf f).decode v) else v

/-- The index of the greatest (or least) of some values by the total order of R196; the lowest index wins a tie. -/
def winner (gt : FV → FV → Bool) (vs : List FV) : Nat :=
  ((List.range vs.length).foldl (fun b i => if gt (vs.getD i .nan) (vs.getD b .nan) then i else b) 0)

/-- One window's result and witness entry (R266). `lo` and `hi` are RCLMP's bounds, as patterns. -/
def reduceWindow (k : WredKind) (f lo hi : Nat) (vs : List Nat) : Nat × Nat :=
  let xs := vs.map (fmtValue f)
  match k with
  | .max => let w := winner (fun a b => b.lt a) xs; (resultOf f (vs.getD w 0), w)
  | .min => let w := winner (fun a b => a.lt b) xs; (resultOf f (vs.getD w 0), w)
  | .med =>
    let s := sortBy (fun (a b : FV × Nat) => a.1.lt b.1) (xs.zip (List.range xs.length))
    let w := (s.getD ((vs.length - 1) / 2) (.nan, 0)).2
    (resultOf f (vs.getD w 0), w)
  | .clamp =>
    let x := xs.headD .nan
    if x.isNan then ((fmtOf f).nan, 3)
    else if x.lt (fmtValue f lo) then (lo, 1)
    else if (fmtValue f hi).lt x then (hi, 2)
    else (resultOf f (vs.headD 0), 0)
  | .sats =>
    let b := if f = 6 then 8 else 32
    let t := (vs.map (fun v => (BitVec.ofNat b v).toInt)).foldl (· + ·) 0
    let (l, h) := intRange f
    ((BitVec.ofInt b (clampInt l h t)).toNat, if h < t then 1 else if t < l then 2 else 0)

/-- The encoding of a kind's witness entries (R267). -/
def WredKind.enc : WredKind → Nat
  | .max | .min | .med => 0
  | .clamp => 1
  | .sats => 2

/-- The bytes of witness entries: 16 bits each, or 2 bits each (R267). -/
def entryBytes (enc : Nat) (es : List Nat) : List Byte :=
  if enc = 0 then es.flatMap (leBytes 2)
  else (groups 4 es.length es).map (fun g => BitVec.ofNat 8 (joinNat 2 g))

/-- A WRED word (R264 to R267). -/
def wredWord (k : WredKind) (t a b f : Nat) (wd : Bool) : W Unit := do
  W.unit
  W.fullOnly (decide (f ≤ 1) || f == 8)
  let n := tileN f
  let lg := if f = 0 then 5 else 6
  let geo := (← rdS (a + 1)).toNat
  let tid := geo / 2 ^ 12
  let live := geo / 2 ^ 6 % 64
  let lw := geo / 8 % 8
  let lh := geo % 8
  if lg < lh ∨ lg < lw ∨ (wd ∧ live = 0) then W.illop 2
  let (lo, hi) ← if k = .clamp then do
      let conv := fun (v : Word) => if f ≤ 5 then convertTo f .rne (fp32.decode v.toNat)
        else convertTo f .rne (fmtValue 8 v.toNat)
      let l ← rdS (a + 2)
      let h ← rdS (a + 3)
      let val := fun (v : Word) => if f ≤ 5 then fp32.decode v.toNat else fmtValue 8 v.toNat
      if tid ≠ 0 ∨ lh ≠ 0 ∨ lw ≠ 0 ∨ (val l).isNan ∨ (val h).isNan ∨ (val h).lt (val l) then W.illop 2
      pure (conv l, conv h)
    else pure (0, 0)
  let (bs, _) ← rdTile a (tileBytes f) 256
  let rows := tileRows f bs
  let r := n / 2 ^ lh
  let c := n / 2 ^ lw
  let res := (List.range r).flatMap (fun i => (List.range c).map (fun j =>
    reduceWindow k f lo hi ((List.range (2 ^ lh)).flatMap (fun y => (List.range (2 ^ lw)).map (fun x =>
      (rows.getD (i * 2 ^ lh + y) []).getD (j * 2 ^ lw + x) 0)))))
  let out := res.flatMap (fun x => leBytes (fmtBytes f) x.1)
  let cu ← W.cur
  if b < 16 then
    let va ← tileAddr b out.length 256
    W.eff (.store (tileStore cu.patch cu.el va out))
  else rawToBuffer b out
  if wd then
    useBuffer (28 + t)
    let h := (← get).i.cbAt.getD (4 + t) 0
    let data := leBytes 8 (live * 2 ^ 16 + k.enc) ++ leBytes 8 tid ++
      leBytes 8 (f * 2 ^ 20 + lw * 2 ^ 17 + lh * 2 ^ 14 + c * 2 ^ 7 + r) ++ leBytes 8 0 ++
      entryBytes k.enc (res.map (fun x => x.2))
    let sz := cbSlotBytes h
    if cbNslot h < (data.length + sz - 1) / sz then W.illop 2
    W.eff (.witness (4 + t) data)

/-- RMAX (R266). -/
def execRmax (t : BitVec 2) (a b : BitVec 5) (f : BitVec 4) (w : BitVec 1) (s : State) : Res :=
  runWord (wredWord .max t.toNat a.toNat b.toNat f.toNat (w == 1)) s

/-- RMIN (R266). -/
def execRmin (t : BitVec 2) (a b : BitVec 5) (f : BitVec 4) (w : BitVec 1) (s : State) : Res :=
  runWord (wredWord .min t.toNat a.toNat b.toNat f.toNat (w == 1)) s

/-- RCLMP (R266). -/
def execRclmp (t : BitVec 2) (a b : BitVec 5) (f : BitVec 4) (w : BitVec 1) (s : State) : Res :=
  runWord (wredWord .clamp t.toNat a.toNat b.toNat f.toNat (w == 1)) s

/-- RMED (R266). -/
def execRmed (t : BitVec 2) (a b : BitVec 5) (f : BitVec 4) (w : BitVec 1) (s : State) : Res :=
  runWord (wredWord .med t.toNat a.toNat b.toNat f.toNat (w == 1)) s

/-- RSATS (R266). -/
def execRsats (t : BitVec 2) (a b : BitVec 5) (f : BitVec 4) (w : BitVec 1) (s : State) : Res :=
  runWord (wredWord .sats t.toNat a.toNat b.toNat f.toNat (w == 1)) s

/-! ### Witness headers (R267, R268, R270) -/

/-- A witness header (R267). -/
structure Witness where
  gen : Word
  live : Nat
  enc : Nat
  fmt : Nat
  lw : Nat
  lh : Nat
  c : Nat
  r : Nat
  ssz : Nat
  deriving DecidableEq, Repr

/-- The fields of a header, whatever they hold. -/
def witnessFields (bs : List Byte) : Witness :=
  let w := fun i => numAt bs (8 * i) 8
  ⟨BitVec.ofNat 32 (w 0 / 2 ^ 32), w 0 / 2 ^ 16 % 2 ^ 16, w 0 % 16, w 2 / 2 ^ 20 % 16,
    w 2 / 2 ^ 17 % 8, w 2 / 2 ^ 14 % 8, w 2 / 2 ^ 7 % 128, w 2 % 128, w 3 % 4⟩

/-- A header from its bytes; none where it breaks R267 (R270). -/
def witnessOf (bs : List Byte) : Option Witness :=
  let w := fun i => numAt bs (8 * i) 8
  let x := witnessFields bs
  let lg := if x.fmt = 0 then 5 else 6
  if w 0 / 16 % 2 ^ 12 ≠ 0 ∨ 2 ^ 20 ≤ w 1 ∨ 2 ^ 24 ≤ w 2 ∨ 4 ≤ w 3 ∨ 2 < x.enc ∨ 8 < x.fmt ∨ lg < x.lw ∨ lg < x.lh ∨
     x.c ≠ tileN x.fmt / 2 ^ x.lw ∨ x.r ≠ tileN x.fmt / 2 ^ x.lh then none
  else some x

/-- Bytes of a witness tile before its padding, and the slots it takes (R267, R328). -/
def Witness.bytes (x : Witness) : Nat := 32 + (if x.enc = 0 then 2 * (x.r * x.c) else (x.r * x.c + 3) / 4)
def Witness.extent (x : Witness) : Nat :=
  let sz := 32 * 2 ^ x.ssz
  (x.bytes + sz - 1) / sz * sz

/-- Bytes behind a pointer, as the element's operands read them, 32 at a time. -/
def readPtr (v : DWord) (off n : Nat) : W (List Byte) := do
  let cs ← (List.range ((n + 31) / 32)).mapM (fun (i : Nat) => do
    let (pl, eff) ← wPointer v ((off + 32 * i : Nat) : Int) 32 32 .plain
    readPlace pl 32 eff)
  pure (cs.flatten.take n)

/-- The extent as far as the memory goes in which a header at address `a` lies: a vault, or a frame. -/
def Witness.extentIn (x : Witness) (a : Nat) : Nat :=
  let room := if vaultBase ≤ a then 0x80000 - (a - vaultBase) % 0x80000 else 65536 - a % 65536
  Nat.min x.extent room

/-- The test of a witness header when ADJB or WREL issues (R270), and the check of the header against R267. On
another module the test comes out either way (log 45). -/
def witnessTest (v : DWord) (gen : Word) : W (Place × Witness) := do
  let (pl, eff) ← wPointer v 0 32 32 .owner
  if !pl.fe then W.illop 2
  let w := pl.addr / 8
  W.ownTest .elem pl [w]
  let k ← get
  if pl.module.isSome then
    if ← W.freeBool then throw (.wait none)
    if ← W.freeBool then W.fault .witnessStale 0 eff
  else
    let s' := k.s.flushWords [w]
    let same := ((s'.ownWord pl.addr) >>> 32).setWidth 32 == gen
    let full := s'.mem.full.contains w
    if !full && !same then throw (.wait none)
    if !(full && same) then W.fault .witnessStale 0 eff
    set { k with s := s' }
  match witnessOf (← readPtr v 0 32) with
  | none => W.fault .illop 1 eff
  | some x => pure (pl, x)

/-- The entry of a result. -/
def Witness.entry (x : Witness) (bs : List Byte) (i : Nat) : Nat :=
  if x.enc = 0 then numAt bs (2 * i) 2 else (bs.getD (i / 4) 0).toNat / 4 ^ (i % 4) % 4

/-- The accumulator elements, 64 per row, that result `i` routes its gradient to (R268). -/
def Witness.routes (x : Witness) (i e : Nat) : List Nat :=
  let y0 := i / x.c * 2 ^ x.lh
  let x0 := i % x.c * 2 ^ x.lw
  if x.enc = 0 then [(y0 + e / 2 ^ x.lw) * 64 + x0 + e % 2 ^ x.lw]
  else if e ≠ 0 then []
  else if x.enc = 1 then [y0 * 64 + x0]
  else (List.range (2 ^ x.lh)).flatMap (fun j => (List.range (2 ^ x.lw)).map (fun l => (y0 + j) * 64 + x0 + l))

/-- An accumulator with FP32 additions made, each rounded once with RNE. -/
def accAdd (acc : SMap Word) : List (Nat × FV) → SMap Word
  | [] => acc
  | (k, g) :: r =>
    let v := BitVec.ofNat 32 (fp32.encode .rne ((fp32.decode (smGet 0 acc k).toNat).add .rne g))
    accAdd (if v = 0 then smDel acc k else smSet acc k v) r

/-- ADJB (R268): the header check and its decrement are the irrevocable operation. The gradient tile is read, and can fault on its
address, before a format of FP64 or an index out of its window is ILLOP: the spec gives these faults no order (DESIGN CHOICE, log 73). -/
def execAdjb (t : BitVec 2) (a b : BitVec 5) (f : BitVec 4) (s : State) : Res :=
  runWord (do
    W.unit
    W.fullOnly (f == 0)
    let v ← rdPair b.toNat
    let gen ← rdS (b.toNat + 2)
    let (pl, x) ← witnessTest v gen
    let n := x.r * x.c
    let sz := fmtBytes f.toNat
    let (gs, _) ← rdTile a.toNat (n * sz) 256
    if x.fmt = 0 then W.fault .illop 1 v
    let es := (← readPtr v 0 x.bytes).drop 32
    if x.enc = 0 ∧ (List.range n).any (fun i => decide (2 ^ (x.lh + x.lw) ≤ x.entry es i)) then W.fault .illop 1 v
    let adds := (List.range n).flatMap (fun i =>
      (x.routes i (x.entry es i)).map (fun k => (k, fmtValue f.toNat (numAt gs (sz * i) sz))))
    wrAcc t.toNat (accAdd ((← get).i.r.acc.getD t.toNat []) adds)
    W.irrevocable (.owner pl .elem false false (.witness gen false) [] v)) s

/-- WREL: releases a witness; d receives LIVE before the release (R269). -/
def execWrel (d a b : BitVec 5) (s : State) : Res :=
  runWord (do
    let v ← rdPair a.toNat
    let gen ← rdS b.toNat
    let (pl, _) ← witnessTest v gen
    W.irrevocable (.owner pl .elem false false (.witness gen true) [d.toNat] v)) s

end Sys2Proof.Machine
end

