-- ==== Sys2Proof/Machine/EltArr.lean ====
section
/-! DEFINITION. Arrangements: records, descriptors, consolidation, and the words AINS, AMRG, APRB, ACMP, ACON, JOIN and RED
(R249 to R263). -/

namespace Sys2Proof.Machine

/-! ### Records and consolidation (R249, R252) -/

/-- The key, val, time and diff of a change slot or a stored record (R21, R249). -/
structure ARec where
  key : DWord
  val : DWord
  time : DWord
  diff : Int
  deriving DecidableEq, Repr

/-- The record that a unit carries in its lanes 0 to 6. -/
def recOf (u : Slot) : ARec :=
  ⟨u.setWidth 64, (u >>> 64).setWidth 64, (u >>> 128).setWidth 64, (lane u 6).toInt⟩

/-- A record in lanes 0 to 6 of a unit with a given header. -/
def ARec.slot (x : ARec) (h : Word) : Slot :=
  ofLanes [x.key.setWidth 32, (x.key >>> 32).setWidth 32, x.val.setWidth 32, (x.val >>> 32).setWidth 32,
    x.time.setWidth 32, (x.time >>> 32).setWidth 32, BitVec.ofInt 32 x.diff, h]

/-- A record as a CHANGE unit with a tag and flags; a stored record has tag 0 and no flags (R249). -/
def ARec.unit (x : ARec) (tag : BitVec 12) (flags : Nat) : Slot := x.slot (header 1 tag flags)

/-- Equal in key, val and time. -/
def ARec.same (x y : ARec) : Bool := x.key == y.key && x.val == y.val && x.time == y.time

/-- Before, by key, then val, then time, as unsigned numbers. -/
def ARec.before (x y : ARec) : Bool :=
  if x.key ≠ y.key then decide (x.key.toNat < y.key.toNat)
  else if x.val ≠ y.val then decide (x.val.toNat < y.val.toNat)
  else decide (x.time.toNat < y.time.toNat)

/-- A number fits a diff field. -/
def fits32 (d : Int) : Bool := decide (-(2 ^ 31 : Int) ≤ d) && decide (d < 2 ^ 31)

/-- The consolidated form (R252). -/
def consolidated : List ARec → Bool
  | [] => true
  | [x] => x.diff != 0
  | x :: y :: r => x.diff != 0 && (x.before y || (x.same y && !fits32 (x.diff + y.diff))) && consolidated (y :: r)

/-- Fold the groups of a sorted list from an open sum on; whether a sum had to be closed for its range (R252). -/
def foldGroups (cur : ARec) : List ARec → List ARec × Bool
  | [] => (if cur.diff = 0 then [] else [cur], false)
  | x :: r =>
    if cur.same x && fits32 (cur.diff + x.diff) then foldGroups { cur with diff := cur.diff + x.diff } r
    else
      let (l, o) := foldGroups x r
      (if cur.diff = 0 then l else cur :: l, o || cur.same x)

/-- Consolidate: sort stably and fold (R252). -/
def consolidate (l : List ARec) : List ARec × Bool :=
  match sortBy ARec.before l with
  | [] => ([], false)
  | x :: r => foldGroups x r

/-! ### Descriptors and runs (R250, R251) -/

/-- No two times are ordered. -/
def antichain : List DWord → Bool
  | [] => true
  | t :: r => r.all (fun u => !tLe t u && !tLe u t) && antichain r

/-- An arrangement as read: its descriptor and the records of its runs, oldest first. -/
structure Arr where
  kcap : Nat
  rbase : DWord
  ibase : DWord
  caprec : Nat
  since : List DWord
  runs : List (List ARec)
  deriving DecidableEq, Repr

/-- The key entries of a run: each distinct key with the row of its first record. -/
def keyTable (run : List ARec) : List (DWord × Nat) :=
  ((List.range run.length).zip run).foldl (fun t (i, x) => match t.getLast? with
    | some (k, _) => if k = x.key then t else t ++ [(x.key, i)]
    | none => [(x.key, i)]) []

/-- Keys strictly rise. -/
def keysRise : List (DWord × Nat) → Bool
  | [] => true
  | [_] => true
  | x :: y :: r => decide (x.1.toNat < y.1.toNat) && keysRise (y :: r)

/-- Records in all runs of a list, and key entries. -/
def recCount (runs : List (List ARec)) : Nat := (runs.map List.length).sum
def keyCount (runs : List (List ARec)) : Nat := (runs.map (fun r => (keyTable r).length)).sum

/-- Units of `n` records behind a pointer. -/
def readUnits (v : DWord) (n : Nat) : W (List Slot) := do
  let bs ← readPtr v 0 (32 * n)
  pure ((List.range n).map (fun i => ofBytes ((bs.drop (32 * i)).take 32)))

/-- Split the records and check each run's key entries against them; `ks` is the list of key entries as read. -/
def cutRuns : List (Nat × Nat) → List ARec → List (DWord × Nat × Nat) → Option (List (List ARec))
  | [], _, _ => some []
  | (n, k) :: r, recs, ks =>
    let run := recs.take n
    let t := keyTable run
    if keysRise t && decide (ks.take k = t.map (fun x => (x.1, x.2, 0))) then
      (cutRuns r (recs.drop n) (ks.drop k)).map (fun l => run :: l)
    else none

/-- Directory entries (FIRST, NREC, KOFF, NKEY) that follow one another from `first` and `koff` on. -/
def dirOk : List (Nat × Nat × Nat × Nat) → Nat → Nat → Bool
  | [], _, _ => true
  | (f, n, k, m) :: r, first, koff =>
    f == first && k == koff && decide (1 ≤ n) && decide (n < 2 ^ 24) && decide (m < 2 ^ 24) && dirOk r (first + n) (koff + m)

/-- An arrangement read and checked: one that breaks R250 or R251 is ILLOP with sub-cause 1. -/
def readArr (v : DWord) : W Arr := do
  let (pl, eff) ← wPointer v 0 64 64 .plain
  let bs ← readPlace pl 64 eff
  let w := fun i => (BitVec.ofNat 64 (numAt bs (8 * i) 8) : DWord)
  let nrun := bits (w 0) 52 48
  let scnt := bits (w 0) 34 32
  let rest := (List.range 4).filter (fun i => decide (scnt ≤ i))
  let since := ((List.range 4).map (fun i => w (4 + i))).take scnt
  if bits (w 0) 63 60 ≠ 1 ∨ bits (w 0) 59 53 ≠ 0 ∨ bits (w 0) 47 35 ≠ 0 ∨ 16 < nrun ∨ 4 < scnt ∨
     rest.any (fun i => w (4 + i) != 0) ∨ !antichain since ∨ (w 1).toNat % 32 ≠ 0 ∨ (w 2).toNat % 32 ≠ 0 then W.illop 1
  let used := bits (w 3) 63 32
  let caprec := bits (w 3) 31 0
  let kcap := bits (w 0) 31 0
  let ds ← readPtr (w 2) 0 (16 * nrun)
  let d := (List.range nrun).map (fun i =>
    (numAt ds (16 * i) 4, numAt ds (16 * i + 4) 4, numAt ds (16 * i + 8) 4, numAt ds (16 * i + 12) 4))
  let nk := (d.map (fun x => x.2.2.2)).sum
  if !dirOk d 0 0 || (d.map (fun x => x.2.1)).sum != used || decide (caprec < used) || decide (kcap < nk) then W.illop 1
  let us ← readUnits (w 1) used
  let ks ← readPtr (w 2) 256 (16 * nk)
  let kt := (List.range nk).map (fun i =>
    ((BitVec.ofNat 64 (numAt ks (16 * i) 8) : DWord), numAt ks (16 * i + 8) 4, numAt ks (16 * i + 12) 4))
  match cutRuns (d.map (fun x => (x.2.1, x.2.2.2))) (us.map recOf) kt with
  | none => W.illop 1
  | some runs => pure ⟨kcap, w 1, w 2, caprec, since, runs⟩

/-! ### Claims and writes (R253) -/

/-- Claim what some addresses name, or wait while another instance of the element holds it. -/
def claimArr (as_ : List Nat) : W Unit := do
  let k ← get
  let v ← W.elem
  let taken := v.insts.any (fun i => i.id != k.i.id && i.st != .armed && i.arrc.any (fun a => as_.contains a))
  if taken then throw (.wait none)
  W.upd (fun i => { i with arrc := i.arrc ++ as_.filter (fun a => !i.arrc.contains a) })

/-- The address that a pointer to a descriptor or a region names. -/
def arrPlace (v : DWord) (n : Nat) : W Nat := do pure (← wPointer v 0 n n .plain).1.addr

/-- The word writes what an address names: a second writer in one instance is ILLOP with sub-cause 2. -/
def writerOf (a : Nat) : W Unit := do
  if (← get).i.warr.contains a then W.illop 2
  W.upd (fun i => { i with warr := a :: i.warr })

/-- Bytes stored behind a pointer at commit, at `.elem`, every word set full. -/
def writePtr (v : DWord) (off : Nat) (bs : List Byte) : W Unit := do
  let parts := if bs.isEmpty then [] else pieces (v + BitVec.ofNat 64 off).toNat bs.length (bs.length / 65536 + 2)
  for x in parts do
    let (pl, eff) ← wPointer v (off + x.1 : Nat) 8 x.2 .plain
    let ws := if pl.fe then (List.range (x.2 / 8)).map (fun j => (pl.addr / 8 + j, true)) else []
    W.eff (.store ⟨pl, ((List.range x.2).map (pl.addr + ·)).zip ((bs.drop x.1).take x.2), ws, .elem, false, eff, false⟩)

/-- Directory entries of runs, from record `fr` and key entry `ko` on. -/
def dirBytes : List (List ARec) → Nat → Nat → List Byte
  | [], _, _ => []
  | r :: rs, fr, ko =>
    let n := (keyTable r).length
    leBytes 4 fr ++ leBytes 4 r.length ++ leBytes 4 ko ++ leBytes 4 n ++ dirBytes rs (fr + r.length) (ko + n)

/-- Write the runs of an arrangement from run `first` on, their index, and NRUN and USED in the descriptor. -/
def writeArr (v : DWord) (a : Arr) (first : Nat) : W Unit := do
  let keep := a.runs.take first
  let new := a.runs.drop first
  writePtr a.rbase (32 * recCount keep) (new.flatMap (fun r => r.flatMap (fun x => leBytes 32 (x.unit 0 0).toNat)))
  writePtr a.ibase (16 * first) (dirBytes new (recCount keep) (keyCount keep))
  writePtr a.ibase (256 + 16 * keyCount keep) (new.flatMap (fun r => (keyTable r).flatMap (fun x =>
    leBytes 8 x.1.toNat ++ leBytes 4 x.2 ++ leBytes 4 0)))
  writePtr v 0 (leBytes 8 (at64 1 60 + at64 a.runs.length 48 + at64 a.since.length 32 + a.kcap))
  writePtr v 24 (leBytes 8 (at64 (recCount a.runs) 32 + a.caprec))

/-- Write the SINCE times of an arrangement. -/
def writeSince (v : DWord) (a : Arr) : W Unit :=
  writePtr v 32 ((List.range 4).flatMap (fun i => leBytes 8 (a.since.getD i 0).toNat))

/-- The runs of an arrangement fit its capacities (R256, R262). -/
def Arr.fit (a : Arr) : Bool :=
  decide (a.runs.length ≤ 16) && decide (recCount a.runs ≤ a.caprec) && decide (keyCount a.runs ≤ a.kcap)

/-- The status of an arrangement word: OVF_DIFF where a sum was closed, and its detail (R253). -/
def arrStatus (ovf : Bool) (detail : Nat) : Word := BitVec.ofNat 32 (detail * 256 + if ovf then 0x0B else 0)

/-! ### ACON, AINS, AMRG, ACMP (R255 to R258) -/

/-- ACON: consolidates a region of units in place (R255, R271). -/
def execAcon (d a b : BitVec 5) (s : State) : Res :=
  runWord (do
    let v ← rdPair a.toNat
    let n := (← rdS b.toNat).toNat
    if 16384 < n then W.illop 2
    let at_ ← arrPlace v 32
    claimArr [at_]
    let us ← readUnits v n
    if us.any (fun u => !isChange u) then W.illop 2
    for u in us do checkHeader u
    let (rs, ovf) := consolidate ((us.filter (fun u => uKind u == 1)).map recOf)
    let out := rs.map (fun x => x.unit 0 0) ++ us.filter (fun u => uKind u != 1)
    if !out.isEmpty then writerOf at_
    writePtr v 0 (out.flatMap (fun u => leBytes 32 u.toNat))
    wrS d.toNat (arrStatus ovf out.length)) s

/-- AINS: appends a batch as a new run (R256). The rule gives no order of its faults: a full list of runs comes first, then what the
batch breaks, then the capacities (DESIGN CHOICE, log 73). -/
def execAins (d a b c : BitVec 5) (s : State) : Res :=
  runWord (do
    let v ← rdPair a.toNat
    let bp ← rdPair b.toNat
    let n := (← rdS c.toNat).toNat
    if 16384 < n then W.illop 2
    let at_ ← arrPlace v 64
    let _ ← arrPlace bp 32
    claimArr [at_]
    let x ← readArr v
    if x.runs.length = 16 then W.illop 2
    let us ← readUnits bp n
    for u in us do checkHeader u
    if us.any (fun u => uKind u == 0) then W.illop 1
    let rs := (us.filter (fun u => uKind u == 1)).map recOf
    if !consolidated rs then W.illop 1
    let y := if rs.isEmpty then x else { x with runs := x.runs ++ [rs] }
    if !rs.isEmpty then
      if !y.fit then W.illop 2
      writerOf at_
      writeArr v y x.runs.length
    wrS d.toNat (arrStatus false y.runs.length)) s

/-- AMRG: consolidates the last N runs together (R257); the element's matrix unit sorts (R183). -/
def execAmrg (d a b : BitVec 5) (s : State) : Res :=
  runWord (do
    W.unit
    let v ← rdPair a.toNat
    let n := (← rdS b.toNat).toNat
    let at_ ← arrPlace v 64
    claimArr [at_]
    let x ← readArr v
    if n < 2 ∨ 16 < n ∨ x.runs.length < n then W.illop 2
    let keep := x.runs.take (x.runs.length - n)
    let old := (x.runs.drop (x.runs.length - n)).flatten
    if x.caprec < recCount x.runs + old.length then W.illop 2
    let (rs, ovf) := consolidate old
    let y := { x with runs := keep ++ groups (2 ^ 24 - 1) n rs }
    if x.kcap < keyCount y.runs then W.illop 2
    writerOf at_
    writeArr v y keep.length
    wrS d.toNat (arrStatus ovf rs.length)) s

/-- ACMP: compacts every run through a frontier (R258). -/
def execAcmp (d a b : BitVec 5) (s : State) : Res :=
  runWord (do
    W.unit
    let v ← rdPair a.toNat
    let f := (← rdFrontier b.toNat).times.take 4
    let at_ ← arrPlace v 64
    claimArr [at_]
    let x ← readArr v
    if f.any (fun t => !inAdvance t x.since) then W.illop 2
    let rs := x.runs.map (fun r => consolidate (r.map (fun y => { y with time := advance f y.time })))
    let y := { x with runs := (rs.map (fun r => r.1)).filter (fun r => !r.isEmpty), since := f }
    writerOf at_
    writeArr v y 0
    writeSince v y
    wrS d.toNat (arrStatus (rs.any (fun r => r.2)) y.runs.length)) s

/-! ### APRB, JOIN, RED (R260 to R263) -/

/-- APRB: every record of a key as DATA slots of a generator run (R260). -/
def execAprb (d a b : BitVec 5) (port : BitVec 2) (s : State) : Res :=
  runWord (do
    let v ← rdPair a.toNat
    let key ← rdPair b.toNat
    claimArr [← arrPlace v 64]
    let x ← readArr v
    let rs := x.runs.flatten.filter (fun r => r.key == key)
    let out := if rs.isEmpty then [⟨key, 0, 0, 0⟩] else rs
    let tag := (← get).i.tag
    let us := ((List.range out.length).zip out).map (fun (i, r) => r.slot (header 0 tag (if i + 1 = out.length then 1 else 0)))
    W.eff (.arm port.toNat (.units us))
    wrS d.toNat (BitVec.ofNat 32 rs.length)) s

/-- JOIN: the instance's changes against an arrangement (R261); BUBBLE and MARK units go first, unchanged (R271). -/
def execJoin (d a b : BitVec 5) (vsel : BitVec 1) (ksel port : BitVec 2) (s : State) : Res :=
  runWord (do
    let v ← rdPair a.toNat
    claimArr [← arrPlace v 64]
    let x ← readArr v
    let us ← rdRest b.toNat
    let pus := us.filter (fun u => uKind u == 1)
    if us.any (fun u => uKind u == 0) ∨ 1024 < pus.length then W.illop 2
    let probes := pus.map recOf
    let rows := x.runs.flatten.flatMap (fun r => (probes.filter (fun q => q.key == r.key)).map (fun q =>
      (⟨if ksel = 0 then q.key else if ksel = 1 then q.val else r.val, if vsel = 1 then r.val else q.val,
        tJoin q.time r.time, q.diff * r.diff⟩ : ARec)))
    match rows.find? (fun r => !fits32 r.diff) with
    | some r => W.fault .illop 2 ((BitVec.ofInt 32 r.diff).setWidth 64)
    | none => pure ()
    let rep := if pus.any (fun u => (uFlags u).getLsbD 1) then 2 else 0
    let tag := (← get).i.tag
    let out := ((List.range rows.length).zip rows).map (fun (i, r) =>
      r.unit tag (rep + if i + 1 = rows.length then 1 else 0))
    W.eff (.arm port.toNat (.units (us.filter (fun u => uKind u != 1) ++ out)))
    wrS d.toNat (BitVec.ofNat 32 rows.length)) s

/-- The accumulation of some records of one key at a time: each val with its total, the zero totals left out (R259). -/
def accumulation (rs : List ARec) (t : DWord) : List (DWord × Int) :=
  let at_ := rs.filter (fun r => tLe r.time t)
  let vs := sortBy (fun (x y : DWord) => decide (x.toNat < y.toNat)) (at_.map (fun r => r.val)).dedup
  (vs.map (fun v => (v, ((at_.filter (fun r => r.val == v)).map (fun r => r.diff)).sum))).filter (fun x => x.2 != 0)

/-- The reduction f of a kind: the vals of its result, each with count 1 (R263). -/
def redResult (kind : Nat) (c : List (DWord × Int)) : List DWord :=
  let pos := (c.filter (fun x => decide (0 < x.2))).map (fun x => x.1)
  match kind with
  | 0 =>
    let t := (c.map (fun x => x.2)).sum
    if t = 0 then [] else [BitVec.ofInt 64 t]
  | 1 => pos
  | 2 => if c.isEmpty then [] else [BitVec.ofInt 64 ((c.map (fun x => (x.1.toNat : Int) * x.2)).sum)]
  | 3 => (pos.head?).toList
  | _ => (pos.getLast?).toList

/-- The joins of some times with each of others, without repeats. -/
def joinSets (xs us : List DWord) : List DWord := (xs.flatMap (fun x => us.map (tJoin x))).dedup

/-- The times at which a key is corrected (R262). -/
def redTimes (batch hist : List DWord) : List DWord :=
  let s := (batch.flatMap (fun t =>
    let us := (t :: hist).dedup
    joinSets (joinSets (joinSets [t] us) us) us)).dedup
  sortBy (fun (x y : DWord) => decide (x.toNat < y.toNat)) s

/-- The corrections of a key at one time, given those made so far (R262); more than 1,024 vals is ILLOP. -/
def redAt (kind : Nat) (key : DWord) (ra rb mine : List ARec) (t : DWord) : W (List ARec) := do
  let ca := accumulation ra t
  let have_ := accumulation (rb ++ mine) t
  if 1024 < ca.length ∨ 1024 < have_.length then W.illop 2
  let want := redResult kind ca
  let vs := sortBy (fun (x y : DWord) => decide (x.toNat < y.toNat)) (want ++ have_.map (fun x => x.1)).dedup
  let ds := vs.map (fun v => (⟨key, v, t, (if want.contains v then 1 else 0) -
    ((have_.find? (fun x => x.1 == v)).map (fun x => x.2)).getD 0⟩ : ARec))
  let ds := ds.filter (fun r => r.diff != 0)
  match ds.find? (fun r => !fits32 r.diff) with
  | some r => W.fault .illop 2 (BitVec.ofInt 64 r.diff)
  | none => pure ds

/-- The corrections of one key of the batch (R262). -/
def redKey (kind : Nat) (key : DWord) (batch ra rb : List ARec) : W (List ARec) := do
  let hist := ((ra ++ rb).map (fun r => r.time)).dedup
  let ts := redTimes ((batch.filter (fun r => r.key == key)).map (fun r => r.time)).dedup hist
  if 256 < ts.length then W.illop 2
  ts.foldlM (fun mine t => do pure (mine ++ (← redAt kind key ra rb mine t))) []

/-- RED: corrects a reduction after a batch (R262, R263). -/
def execRed (d a b : BitVec 5) (kind : BitVec 3) (port : BitVec 2) (s : State) : Res :=
  runWord (do
    let va ← rdPair a.toNat
    let vb ← rdPair b.toNat
    let pa ← arrPlace va 64
    let pb ← arrPlace vb 64
    claimArr [pa, pb]
    let x ← readArr va
    let y ← readArr vb
    let batch := x.runs.getLast?.getD []
    let keys := (batch.map (fun r => r.key)).dedup
    let of_ := fun (z : Arr) (k : DWord) => z.runs.flatten.filter (fun r => r.key == k)
    let cs ← (sortBy (fun (x y : DWord) => decide (x.toNat < y.toNat)) keys).foldlM (fun l k => do
      pure (l ++ (← redKey kind.toNat k batch (of_ x k) (of_ y k)))) []
    if !cs.isEmpty then
      let y' := { y with runs := y.runs ++ [(consolidate cs).1] }
      if !y'.fit then W.illop 2
      writerOf pb
      let tag := (← get).i.tag
      let us := ((List.range cs.length).zip cs).map (fun (i, r) => r.unit tag (if i + 1 = cs.length then 1 else 0))
      W.eff (.arm port.toNat (.units us))
      writeArr vb y' y.runs.length
    wrS d.toNat (BitVec.ofNat 32 cs.length)) s

end Sys2Proof.Machine
end

