-- ==== Sys2Proof/Machine/Places.lean ====
section
/-! DEFINITION. What owners perform: atomics, full/empty forms, place instructions, witness releases (R213, R217 to R224,
R268, R269, R307, R328, R329). -/

namespace Sys2Proof.Machine

/-! ### Pools and hold records (R219, R220, R329) -/

def Pool.reset : Pool := ⟨[], 0, []⟩

def Link.free : Link := ⟨0, 0, .free, 0, 0⟩

def Pool.link (x : Pool) (n : Nat) : Link := smGet Link.free x.links n

/-- The head of the list of free links is taken. -/
def Pool.take (x : Pool) : Option (Nat × Pool) :=
  if x.fresh < 4096 then some (x.fresh, { x with fresh := x.fresh + 1 })
  else match x.freed with
    | [] => none
    | n :: r => some (n, { x with freed := r })

/-- A link is freed, to the tail of the list. -/
def Pool.drop (x : Pool) (n : Nat) : Pool := { x with links := smDel x.links n, freed := x.freed ++ [n] }

def Pool.put (x : Pool) (n : Nat) (l : Link) : Pool := { x with links := smSet x.links n l }

/-- A hold record with its queue of waiting links. -/
structure Hold where
  st : Nat
  pool : Nat
  obj : Nat
  seq : Word
  owner : Word
  head : Nat
  tail : Nat
  queue : List Nat
  deriving DecidableEq, Repr

def noneHandle : Word := 0xFFFFF000
def noPlace : Word := 0xFFFFF013

/-- The handle of a link. -/
def handleOf (obj n : Nat) : Word := BitVec.ofNat 32 (obj * 4096 + n)

/-- The links that a queue of some length names, from its head on. -/
def Pool.chain (x : Pool) (n : Nat) : Nat → List Nat
  | 0 => []
  | k + 1 => n :: x.chain (x.link n).next k

/-- A waiting or abandoned link. -/
def LinkState.queued (s : LinkState) : Bool := s == .waiting || s == .abandoned

/-- The owner handle of a record names a granted link of its object (R219, R222). -/
def Pool.owned (x : Pool) (obj : Nat) (owner : Word) : Bool :=
  owner.toNat / 4096 == obj && (x.link (owner.toNat % 4096)).obj == obj && (x.link (owner.toNat % 4096)).st == .granted

/-- A record with its links, from its eight words; none where it breaks R219: a field outside the table, an OWNER that is not
the record's, or a queue that does not agree with the links. -/
def holdOf (x : Pool) (w : List Nat) : Option Hold :=
  let g := fun i => w.getD i 0
  let qlen := g 0 / 2 ^ 32 % 2 ^ 13
  let h : Hold := ⟨g 0 / 2 ^ 30 % 4, g 0 / 2 ^ 20 % 2 ^ 10, g 0 % 2 ^ 20, BitVec.ofNat 32 (g 1 / 2 ^ 32), BitVec.ofNat 32 (g 1),
    g 2 % 2 ^ 12, g 2 / 2 ^ 16 % 2 ^ 12, if qlen ≤ 4096 then x.chain (g 2 % 2 ^ 12) qlen else []⟩
  if 2 ^ 45 ≤ g 0 ∨ 2 ^ 28 ≤ g 2 ∨ g 2 / 2 ^ 12 % 16 ≠ 0 ∨ (w.drop 3).any (fun v => v != 0) ∨ 1 < h.st ∨ 4096 < qlen ∨
     h.obj = 0xFFFFF ∨ (h.st = 0 ∧ (qlen ≠ 0 ∨ h.owner ≠ noneHandle)) ∨ (h.st = 1 ∧ !x.owned h.obj h.owner) ∨
     h.queue.any (fun n => (x.link n).obj != h.obj || !(x.link n).st.queued) ∨ h.queue.dedup.length ≠ h.queue.length ∨
     (qlen ≠ 0 ∧ h.queue.getLast? ≠ some h.tail) then none
  else some h

/-- Waiting links of the object that the record's queue does not hold: HEAD, TAIL and QLEN do not agree with the links (R219). -/
def Hold.missing (h : Hold) (x : Pool) : Bool :=
  x.links.any (fun l => l.2.obj == h.obj && l.2.st.queued && !h.queue.contains l.1)

/-- Links of the object that the record does not account for. -/
def Hold.strays (h : Hold) (x : Pool) : Bool :=
  h.missing x || x.links.any (fun l => l.2.obj == h.obj && l.2.st == .granted && (h.st == 0 || h.owner != handleOf h.obj l.1))

/-- The eight words at an address. -/
def Memory.words8 (m : Memory) (a : Nat) : List Nat := (List.range 8).map (fun i => leNat (m.read (a + 8 * i) 8))

/-- Another hold record with an object number and pool stands in memory: 64 bytes of R219's form elsewhere than at `a` (log 14). -/
def Memory.otherHold (m : Memory) (a obj pool : Nat) : Bool :=
  m.cells.any (fun c =>
    let b := c.1 / 64 * 64
    b != a && (match m.words8 b with
      | w0 :: w1 :: w2 :: r => decide (w0 < 2 ^ 45) && decide (w0 / 2 ^ 30 % 4 < 2) && w0 % 2 ^ 20 == obj && w0 / 2 ^ 20 % 2 ^ 10 == pool &&
          decide (w2 < 2 ^ 28) && w2 / 2 ^ 12 % 16 == 0 && r.all (fun v => v == 0) &&
          (if w0 / 2 ^ 30 % 4 = 0 then w0 / 2 ^ 32 == 0 && w1 % 2 ^ 32 == 0xFFFFF000 else w1 % 2 ^ 32 / 4096 == obj)
      | _ => false))

/-- The words of a record, and the links with their order. HEAD and TAIL have a meaning only while QLEN is not 0 (R219, R222); an
empty queue writes them back as the record held them (DESIGN CHOICE, log 73). -/
def Hold.words (h : Hold) : List Nat :=
  [h.queue.length * 2 ^ 32 + h.st * 2 ^ 30 + h.pool * 2 ^ 20 + h.obj, h.seq.toNat * 2 ^ 32 + h.owner.toNat,
   (h.queue.getLast?.getD h.tail) * 2 ^ 16 + h.queue.headD h.head, 0, 0, 0, 0, 0]

/-- Set the successor of each queued link. -/
def Pool.order (x : Pool) : List Nat → Pool
  | a :: b :: r => (x.put a { x.link a with next := b }).order (b :: r)
  | _ => x

/-- Grant a link (R221, R222). -/
def Hold.grant (h : Hold) (x : Pool) (n : Nat) : Hold × Pool :=
  ({ h with seq := h.seq + 1, owner := handleOf h.obj n, st := 1 },
   x.put n { x.link n with st := .granted, seq := h.seq + 1 })

/-- What a place instruction does to a record and its pool. -/
inductive PlaceOut where
  | wait
  /-- the value of XVAL, where it is not the word -/
  | fault (c : Cause) (sub : Nat) (val : Option DWord)
  | ok (h : Hold) (x : Pool) (d : Word)
  deriving DecidableEq, Repr

/-- PLACE (R221). -/
def Hold.place (h : Hold) (x : Pool) (ctx : Nat) : PlaceOut :=
  match x.take with
  | none => .ok h x noPlace
  | some (n, x) =>
    let x := x.put n ⟨h.obj, ctx, .waiting, 0, 0⟩
    if h.st = 0 then
      let (h, x) := h.grant x n
      .ok h x (handleOf h.obj n)
    else .ok { h with queue := h.queue ++ [n] } x (handleOf h.obj n)

/-- The PREL walk over a queue (R222). -/
def Hold.walk (h : Hold) (x : Pool) : List Nat → Hold × Pool × Word
  | [] => ({ h with st := 0, owner := noneHandle, queue := [] }, x, noneHandle)
  | n :: r =>
    if (x.link n).st = .abandoned then h.walk (x.drop n) r
    else
      let (h, x) := h.grant x n
      ({ h with queue := r }, x, handleOf h.obj n)

/-- Exchange two members of a list. -/
def swapIn (l : List Nat) (a b : Nat) : List Nat := l.map (fun n => if n = a then b else if n = b then a else n)

/-- A member of PHND (R222, R224); `patches` is the number of patches of the load. -/
def Hold.member (h : Hold) (x : Pool) (k : PlaceKind) (ctx : Nat) (hd arg : Word) (patches : Nat) : PlaceOut :=
  let n := hd.toNat % 4096
  let l := x.link n
  let stale := PlaceOut.fault .placeStale 0 (some (hd.setWidth 64))
  if hd.toNat / 4096 = 0xFFFFF ∨ hd.toNat / 4096 ≠ h.obj ∨ l.st = .free ∨ l.st = .abandoned ∨ l.obj ≠ h.obj ∨ l.holder ≠ ctx then
    stale
  else match k with
    | .place => .ok h x 0
    | .pwait => if l.st = .granted then .ok h x l.seq else .wait
    | .pgive =>
      if 64 * patches ≤ arg.toNat then .fault .illop 2 none
      else .ok h (x.put n { l with holder := arg.toNat }) 0
    | .pswap =>
      let m := arg.toNat % 4096
      if l.st ≠ .waiting then stale
      else if arg.toNat / 4096 ≠ h.obj ∨ (x.link m).st ≠ .waiting ∨ (x.link m).obj ≠ h.obj then
        .fault .placeStale 0 (some (arg.setWidth 64))
      else if h.queue.findIdx (· == m) ≤ h.queue.findIdx (· == n) then .fault .illop 2 none
      else .ok { h with queue := swapIn h.queue n m } x 0
    | .paban =>
      if l.st = .granted then .fault .illop 2 none
      else .ok h (x.put n { l with st := .abandoned }) 0
    | .prel =>
      if l.st ≠ .granted then stale
      else if h.st ≠ 1 ∨ h.owner ≠ hd then .fault .illop 1 none
      else
        let (h, x, d) := h.walk (x.drop n) h.queue
        .ok h x d

/-! ### Performing an operation -/

/-- What an owner answers. -/
inductive Perf where
  /-- its condition does not hold, or it is not its turn -/
  | wait
  /-- it fails; the value of XVAL, where it is not the word -/
  | fault (c : Cause) (sub : Nat) (val : Option DWord)
  | ok (s : State) (r : DWord)

/-- The words that an operation tests or writes. -/
def OwnOp.words (place : Place) : OwnOp → List Nat
  | .placeNew _ | .placeOp _ _ _ _ _ => (List.range 8).map (place.addr / 8 + ·)
  | _ => [place.addr / 8]

/-- No instance of another agent claims one of some words for an ACCST (R193). -/
def State.unclaimed (s : State) (a : AgentId) (words : List Nat) : Bool :=
  s.patches.all (fun x => x.2.elems.all (fun v => a == .elem x.1 v.1 ||
    v.2.insts.all (fun i => i.acl.all (fun w => !words.contains w))))

/-- A place instruction at the record of a place. A record whose queue does not agree with the links is ILLOP with sub-cause 1; where
another record carries its OBJ and POOL and the links are not its own, it is open whether it acts (R219; log 14). -/
def State.placeStep (s : State) (part : Nat) (place : Place) (f : Hold → Pool → PlaceOut) : Perf :=
  let s := s.ownFlush place.addr 64
  let w := s.mem.words8 place.addr
  let pt := s.part part
  let pool := w.headD 0 / 2 ^ 20 % 2 ^ 10
  if pt.patches.length ≤ pool then .fault .illop 1 none
  else
    let x := smGet Pool.reset pt.pools pool
    match holdOf x w with
    | none => .fault .illop 1 none
    | some h =>
      let open_ := h.strays x && s.mem.otherHold place.addr h.obj h.pool
      let s' := if open_ then { s with free := s.free + 1 } else s
      if (open_ && Config.freeBool s.free) || (h.missing x && !open_) then .fault .illop 1 none
      else match f h x with
        | .wait => .wait
        | .fault c sub v => .fault c sub v
        | .ok h x d =>
          let s' := s'.setPart part { pt with pools := smSet pt.pools pool (x.order h.queue) }
          .ok (s'.ownWrite place.addr (h.words.flatMap (leBytes 8))) (d.setWidth 64)

/-- The check and the decrement, or the release, of a witness (R268, R269, R328). -/
def State.witnessStep (s : State) (place : Place) (gen : Word) (release : Bool) (ptr : DWord) : Perf :=
  let s := s.ownFlush place.addr 32
  let w := (s.ownWord place.addr).toNat
  let live := w / 2 ^ 16 % 2 ^ 16
  if !s.mem.isFull place.addr ∨ BitVec.ofNat 32 (w / 2 ^ 32) ≠ gen ∨ live = 0 then .fault .witnessStale 0 (some ptr)
  else
    let left := if release then 0 else live - 1
    let s := s.ownWrite (place.addr + 2) (leBytes 2 left)
    if left ≠ 0 then .ok s (BitVec.ofNat 64 live)
    else
      let n := (witnessFields (s.mem.read place.addr 32)).extentIn place.addr
      let words := (List.range (n / 8)).map (place.addr / 8 + ·)
      .ok ((s.ownFlush place.addr n).ownMark words false) (BitVec.ofNat 64 live)

/-- Perform an operation at the owner of its words (R213, R217, R221, R222, R268, R307). `ptr` is the word's pointer. -/
def State.perform (s : State) (part : Nat) (place : Place) (op : OwnOp) (ptr : DWord) : Perf :=
  let w := place.addr / 8
  match op with
  | .atomic k wide x y =>
    let (old, s) := s.atomic k wide place.addr x y
    .ok s old
  | .signal inc =>
    let (_, s) := s.atomic .add false place.addr (inc.setWidth 64) 0
    .ok s 0
  | .ldf =>
    let s := s.ownFlush (8 * w) 8
    if s.mem.isFull place.addr then .ok s (s.ownWord place.addr) else .wait
  | .ldfe =>
    let s := s.ownFlush (8 * w) 8
    if s.mem.isFull place.addr then .ok (s.ownMark [w] false) (s.ownWord place.addr) else .wait
  | .ste v =>
    let s := s.ownFlush (8 * w) 8
    if s.mem.isFull place.addr then .wait
    else .ok ((s.ownWrite place.addr (leBytes 8 v.toNat)).ownMark [w] true) 0
  | .placeNew ctx => s.placeStep part place (fun h x => h.place x ctx)
  | .placeOp k ctx hd arg patches => s.placeStep part place (fun h x => h.member x k ctx hd arg patches)
  | .witness gen release => s.witnessStep place gen release ptr

/-- The faults of an operation that another module performs: the operation's own, and those of R414. -/
def OwnOp.faults (ptr : DWord) : OwnOp → List (Cause × Nat × Option DWord)
  | .placeNew _ => [(.xlate, 0, some ptr), (.perm, 0, some ptr), (.illop, 1, none)]
  | .placeOp _ _ hd arg _ => [(.xlate, 0, some ptr), (.perm, 0, some ptr), (.illop, 1, none), (.illop, 2, none),
      (.placeStale, 0, some (hd.setWidth 64)), (.placeStale, 0, some (arg.setWidth 64))]
  | .witness _ _ => [(.xlate, 0, some ptr), (.perm, 0, some ptr), (.witnessStale, 0, some ptr)]
  | _ => [(.xlate, 0, some ptr), (.perm, 0, some ptr)]

/-- A full/empty form, place instruction or witness operation whose word lies on another module: R414 allows it, R411 gives it
no packet, and what the other module holds is not in this one's state; so it waits, fails or completes, with a free value
(R218, R223; log 45). -/
def State.elsewhere (s : State) (op : OwnOp) (ptr : DWord) : Perf :=
  let fs := op.faults ptr
  match (Config.freeWord s.free).toNat % (fs.length + 2) with
  | 0 => .wait
  | 1 => .ok { s with free := s.free + 2 } (Config.freeDWord (s.free + 1))
  | n + 2 => let f := fs.getD n (.xlate, 0, some ptr)
    .fault f.1 f.2.1 f.2.2

/-- Perform an operation of an agent once its Owner step is enabled: in order, its earlier stores to the words in backing
memory, no word claimed by another (R193, R307, R310 to R312). -/
def State.tryOwner (s : State) (a : AgentId) (part : Nat) (place : Place) (scope : Scope) (acq rel : Bool) (op : OwnOp)
    (ptr : DWord) : Perf :=
  let x : Access := ⟨s.ord.nextId, a, scope, place, .owner op .none, acq, rel, false, ptr, 0, s.ord.nextId, none⟩
  let ws := op.words place
  if !(s.ownerReady x ws && s.unclaimed a ws) then .wait
  else if place.module.isSome then s.elsewhere op ptr else s.perform part place op ptr

end Sys2Proof.Machine
end

