-- ==== Sys2Proof/Machine/Engines.lean ====
section
/-! DEFINITION. Engine commands: their acceptance, their reads and writes, triggers, completion (R225 to R233, R339). -/

namespace Sys2Proof.Machine

/-! ### Spans of memory behind a pointer -/

/-- Where the bytes of a span lie: one place for each piece that lies in one frame, or the first fault with its pointer. -/
inductive Spans where
  | ok (l : List (Place × Nat))
  | wait
  | fault (c : Cause) (sub : Nat) (ptr : DWord)
  deriving DecidableEq, Repr

/-- Check and translate `n` bytes from `v + off` on, made by element `e` of patch `p` (R207, R208, R314); a span of no bytes
is checked at its address (R233). -/
def State.spans (s : State) (p e : Nat) (v : DWord) (off align n : Nat) : Spans :=
  let parts := if n = 0 then [(0, 0)] else pieces (v + BitVec.ofNat 64 off).toNat n (n / 65536 + 2)
  parts.foldl (fun r x => match r with
    | .ok l =>
      let t := s.pointer p e v (off + x.1 : Nat) (if x.1 = 0 then align else 1) x.2 .plain
      match t.res with
      | .ok pl => .ok (l ++ [(pl, x.2)])
      | .wait => .wait
      | .fault c sub => .fault c sub t.eff
    | r => r) (.ok [])

/-- The words that bytes lie in. -/
def wordsAt (a n : Nat) : List Nat := if n = 0 then [] else (List.range ((a + n - 1) / 8 - a / 8 + 1)).map (a / 8 + ·)

/-- Stores of bytes to the pieces of a span from pointer `v` on, every word set full where it has a full/empty bit (R227). -/
def spanStores (sc : Scope) (rel : Bool) (v : DWord) : List (Place × Nat) → List Byte → List Store
  | [], _ => []
  | (pl, n) :: r, bs =>
    ⟨pl, ((List.range n).map (pl.addr + ·)).zip (bs.take n), if pl.fe then (wordsAt pl.addr n).map (fun w => (w, true)) else [],
      sc, rel, v, false⟩ :: spanStores sc rel (v + BitVec.ofNat 64 n) r (bs.drop n)

/-! ### Blocks (R226, R229, R230) -/

/-- The kind code of R225. -/
def kindCode : EngKind → Nat
  | .cpy => 0 | .gath => 1 | .scat => 2 | .trig => 3 | .coll => 4 | .flagst => 5

def engKind : Nat → Option EngKind
  | 0 => some .cpy
  | 1 => some .gath
  | 2 => some .scat
  | 3 => some .trig
  | 4 => some .coll
  | 5 => some .flagst
  | _ => none

def gathers : EngKind → Bool
  | .gath | .scat => true
  | _ => false

/-- Fields of a command block. -/
def blkLen (w : List DWord) : Nat := bits (w.getD 0 0) 31 0
def blkEsz (w : List DWord) : Nat := 8 * 2 ^ bits (w.getD 0 0) 55 54
def blkSrc (w : List DWord) : DWord := w.getD 1 0
def blkDst (w : List DWord) : DWord := w.getD 2 0
def blkIdx (w : List DWord) : DWord := w.getD 3 0
def blkCr (w : List DWord) : DWord := w.getD 4 0
def blkFlag (w : List DWord) : DWord := w.getD 5 0
def blkInc (w : List DWord) : Word := (w.getD 6 0).setWidth 32

/-- Where a pointer of a block leads, if it translates. -/
def State.endpoint (s : State) (p e : Nat) (v : DWord) (align n : Nat) : Option Place :=
  match (s.pointer p e v 0 align n .plain).res with
  | .ok pl => some pl
  | _ => none

/-- A block of CPY, GATH, SCAT or FLAGST breaks R226 or R227. -/
def State.badBlock (s : State) (p e : Nat) (k : EngKind) (w : List DWord) : Bool :=
  let g := fun i => w.getD i 0
  bits (g 0) 63 60 != 1 || bits (g 0) 59 56 != kindCode k || bits (g 0) 53 32 != 0 || bits (g 6) 63 32 != 0 || g 7 != 0 ||
  (g 4).toNat % 32 != 0 || (g 5).toNat % 4 != 0 ||
  (if gathers k then bits (if k == EngKind.gath then g 1 else g 2) 63 62 != 2 || decide (2 ^ 24 < blkLen w)
   else bits (g 0) 55 54 != 0 || g 3 != 0 || (k == EngKind.flagst && (decide (65536 < blkLen w) ||
     (g 5 != 0 && match s.endpoint p e (g 2) 1 0, s.endpoint p e (g 5) 4 4 with
       | some d, some f => d.module != f.module
       | _, _ => false))))

/-- Some of the `n` bytes from `v + off` on lie on another module: one of the frames that they lie in does. -/
def State.awayAt (s : State) (p e : Nat) (v : DWord) (off n : Nat) : Bool :=
  ((0, 0) :: pieces (v + BitVec.ofNat 64 off).toNat n (n / 65536 + 2)).any (fun x =>
    match (s.pointer p e v (off + x.1 : Nat) 1 0 .plain).res with
    | .ok pl => pl.module.isSome
    | _ => false)

/-- Some element on the side that a gather or scatter indexes lies on another module, by its index list as it stands. -/
def State.indexedAway (s : State) (p e : Nat) (w : List DWord) (v : DWord) : Bool :=
  (List.range (blkLen w)).any (fun i => match (s.pointer p e (blkIdx w) (4 * i : Nat) 4 4 .plain).res with
    | .ok pl => pl.module.isNone && s.awayAt p e v (leNat (s.readDev pl.addr 4) * blkEsz w) (blkEsz w)
    | _ => false)

/-- The path of a command (R229): every frame of its endpoints counts, and of its index list, record and flag. -/
def State.enginePath (s : State) (p e : Nat) (k : EngKind) (w : List DWord) : Nat :=
  let n := blkLen w * (if gathers k then blkEsz w else 1)
  let side := fun (kd : EngKind) (v : DWord) => s.awayAt p e v 0 (if k == kd then 0 else n) || (k == kd && s.indexedAway p e w v)
  let away := side .gath (blkSrc w) || side .scat (blkDst w) || (gathers k && s.awayAt p e (blkIdx w) 0 (4 * blkLen w)) ||
    (blkCr w != 0 && s.awayAt p e (blkCr w) 0 32) || (blkFlag w != 0 && s.awayAt p e (blkFlag w) 0 4)
  if k = .coll ∨ away then 3
  else if gathers k then 2
  else if bits (blkSrc w) 63 62 = 2 ∨ bits (blkDst w) 63 62 = 2 then 1
  else 0

/-- The counters that the trigger half of a block uses: group, offset in bytes, threshold (R230). -/
def triggerUses (w : List DWord) : List (Nat × Nat × Nat) :=
  let g := fun i => w.getD i 0
  ((List.range 8).filter (fun i => (bits (g 0) 55 48).testBit i)).map (fun i =>
    (bits (g 0) 47 32 / 4 ^ i % 4, 4 * ((g (2 + i / 4)).toNat / 2 ^ (16 * (i % 4)) % 2 ^ 16),
     (g (4 + i / 2)).toNat / 2 ^ (32 * (i % 2)) % 2 ^ 32))

/-- A trigger half that breaks R230. -/
def badTrigger (w : List DWord) : Bool := bits (w.getD 0 0) 63 56 != 0x13 || bits (w.getD 0 0) 31 0 != 0

/-- The predicate over counters with their values: some group that has a counter has none below its threshold; with no
counter in use it is true (R230). -/
def predicate (l : List (Nat × Nat × Nat)) : Bool :=
  l.isEmpty || (List.range 4).any (fun g =>
    let in_ := l.filter (fun c => c.1 == g)
    !in_.isEmpty && in_.all (fun c => decide (c.2.1 ≤ c.2.2)))

/-- A 32-bit counter as it is visible at `.dev` (R230, R377). -/
def State.counter (s : State) (a : Nat) : Nat := leNat (s.readDev a 4)

/-- Watched counters with their values: `read` gives the value at an address. -/
def watched (read : Nat → Nat) (cells : List (Nat × Nat × Nat)) : List (Nat × Nat × Nat) :=
  cells.map (fun c => (c.1, c.2.1, read c.2.2))

/-- A trigger's predicate holds now (R230). -/
def State.triggerTrue (s : State) (t : Trigger) : Bool := predicate (watched s.counter t.cells)

/-- The counters of a trigger half of an element, by the addresses to which they translate; `old` are those known before, which a
counter keeps whose translation waits. -/
def State.watchCells (s : State) (p e : Nat) (half : List DWord) (old : List (Nat × Nat × Nat)) : List (Nat × Nat × Nat) :=
  (triggerUses half).zipIdx.map (fun c => match (s.pointer p e (half.getD 1 0) (c.1.2.1 : Nat) 4 4 .plain).res with
    | .ok pl => (c.1.1, c.1.2.2, pl.addr)
    | _ => old.getD c.2 (c.1.1, c.1.2.2, 0))

/-- The triggers of a patch watch their counters where the pointers lead now, once its load stands on it again. -/
def State.rewatch (s : State) (p : Nat) : State :=
  let x := s.patch p
  s.setPatch p { x with triggers := x.triggers.map (fun t => { t with cells := s.watchCells p t.el t.half t.cells }) }

/-! ### Acceptance (R225, R230, R231) -/

/-- Issue a command: it runs as an agent of its own, on its path. -/
def State.startEngine (s : State) (p e : Nat) (k : EngKind) (sc : Scope) (w : List DWord) (ptr : DWord) : State :=
  let path := s.enginePath p e k w
  let n := s.nextEngine
  let x : Engine := ⟨n, p, e, (s.patch p).load.map (fun l => l.1), s.partOf p, k, sc, w, ptr, path, .moving, [], [], 0, 0, 0, 0,
    false, s.clock.ns, []⟩
  let v := s.elem p e
  let s := s.setElem p e { v with cmds := v.cmds ++ [(n, path)] }
  { s with engines := s.engines ++ [x], nextEngine := n + 1 }

/-- A collective of COLL: the command processor accepts it (R231). -/
def State.startColl (s : State) (p e : Nat) (w : List DWord) (ptr : DWord) : State :=
  let n := s.nextEngine
  let c : Collective := ⟨n, none, some (p, e, (s.patch p).load.map (fun l => l.1)), s.partOf p, ptr, w, [], none, false, [], none, s.clock.ns, [],
    none, false, false⟩
  let v := s.elem p e
  let s := s.setElem p e { v with cmds := v.cmds ++ [(n, 3)] }
  { s with colls := s.colls ++ [c], nextEngine := n + 1 }

/-- What the engine answers at commit. -/
inductive Accept where
  | wait
  /-- it waits, and has asked another module for its block -/
  | asked (s : State)
  | fault (c : Cause) (sub : Nat) (ptr : DWord)
  | ok (s : State)

/-- The first fault of a counter pointer (R230). -/
def State.counterFault (s : State) (p e : Nat) (half : List DWord) : Option Accept :=
  (triggerUses half).findSome? (fun c =>
    let t := s.pointer p e (half.getD 1 0) (c.2.1 : Nat) 4 4 .plain
    match t.res with
    | .ok pl => if pl.host || pl.module.isSome then some (.fault .illop 1 0) else none
    | .wait => some .wait
    | .fault c sub => some (.fault c sub t.eff))

/-- Check and accept a command whose block is `w` (R225). -/
def State.acceptBlock (s : State) (p e : Nat) (k : EngKind) (sc : Scope) (ptr : DWord) (w : List DWord) : Accept :=
  match k with
  | .coll => .ok (s.startColl p e w ptr)
  | .trig =>
    let cmd := w.drop 8
    match engKind (bits (cmd.getD 0 0) 59 56) with
    | none => .fault .illop 1 ptr
    | some ak =>
      if badTrigger w || ak == .trig || ak == .coll || s.badBlock p e ak cmd then .fault .illop 1 ptr
      else match s.counterFault p e (w.take 8) with
        | some (.fault .illop 1 _) => .fault .illop 1 ptr
        | some x => x
        | none =>
          let x := s.patch p
          let t : Trigger := ⟨e, sc, w.take 8, cmd, ptr, false, s.watchCells p e (w.take 8) []⟩
          if 256 ≤ x.triggers.length then .wait
          else if s.triggerTrue t then .ok (s.startEngine p e ak sc cmd (ptr + 64))
          else .ok (s.setPatch p { x with triggers := x.triggers ++ [t] })
  | _ => if s.badBlock p e k w then .fault .illop 1 ptr else .ok (s.startEngine p e k sc w ptr)

/-- Bytes of a command's block. -/
def blockBytes : EngKind → Nat
  | .trig | .coll => 128
  | _ => 64

/-- Read, check and accept a command; its block is read as a load of the element, on another module by RD (R225, R411). -/
def State.acceptEngine (s : State) (p e : Nat) (k : EngKind) (sc : Scope) (ptr : DWord) : Accept :=
  match s.spans p e ptr 0 64 (blockBytes k) with
  | .wait => .wait
  | .fault c sub v => .fault c sub v
  | .ok l => match s.readAll (.elem p e) .patch ptr l with
    | .wait s' true => .asked s'
    | .wait _ false => .wait
    | .fault c sub _ => .fault c sub ptr
    | .got bs s => s.acceptBlock p e k sc ptr ((List.range (blockBytes k / 8)).map (fun i => BitVec.ofNat 64 (numAt bs (8 * i) 8)))

/-- A patch's trigger units look at their counters; `read` gives a counter's value. -/
def Patch.watch (x : Patch) (read : Nat → Nat) : Patch :=
  { x with triggers := x.triggers.map (fun t => { t with hit := t.hit || predicate (watched read t.cells) }) }

/-- A counter of a trigger whose load has been evicted: one in a vault of the load has the value that was saved, and none writes it. -/
def State.savedCounter (s : State) (l : Load) (a : Nat) : Nat :=
  if a < vaultBase then s.counter a
  else
    let at_ := fun (x : Saved) => ((x.vaults.find? (fun v => decide (vaultAddr x.at_ v.1 0 ≤ a) && decide (a < vaultAddr x.at_ (v.1 + 1) 0))).map
      (fun v => leNat ((List.range 4).map (fun i => cellGet v.2.1 (a - vaultAddr x.at_ v.1 0 + i)))))
    (l.saved.findSome? at_).getD 0

/-- The trigger units look at their counters, as they do at each write of one, those of an evicted load too: a trigger whose predicate is
true from now on issues its command once (R225, R230, R369). -/
def State.watch (s : State) : State :=
  { s with patches := s.patches.map (fun x => (x.1, x.2.watch s.counter)),
           loads := s.loads.map (fun l => { l with saved := l.saved.map (fun v => { v with patch := v.patch.watch (s.savedCounter l) }) }) }

/-- A load has not ended. -/
def LoadState.alive : LoadState → Bool
  | .ended _ _ | .recorded _ _ => false
  | _ => true

/-- What the load of a queue has issued, and has not started, waits while its partition migrates: it travels. What a load that has
ended left goes on here (R360). -/
def State.travels (s : State) (part : Nat) (q : Option Nat) : Bool :=
  (s.part part).migrate.isSome && s.loads.all (fun l => q != some l.q || l.st.alive)

/-- TRIGGER_EVALUATE: armed trigger `t` of patch `p`, whose predicate has become true, issues its command and is freed (R230, R369).
Every read of the command comes after the reading of the counters (R437). One of a partition that migrates travels with it
(R360). -/
def execTriggerEvaluate (p t : Nat) (s : State) : Res :=
  let x := s.patch p
  match x.triggers[t]? with
  | none => .next s
  | some tr =>
    match engKind (bits (tr.cmd.getD 0 0) 59 56) with
    | none => .next s
    | some k =>
      if (tr.hit || s.triggerTrue tr) && !s.travels (s.partOf p) (x.load.map (fun l => l.1)) then
        let s := s.setPatch p { x with triggers := x.triggers.eraseIdx t }
        .next (s.startEngine p tr.el k tr.scope tr.cmd (tr.ptr + 64))
      else .next s

/-! ### Moving data (R227, R339) -/

def State.engine (s : State) (n : Nat) : Option Engine := s.engines.find? (fun x => x.n == n)

def State.setEngine (s : State) (x : Engine) : State := { s with engines := s.engines.map (fun y => if y.n = x.n then x else y) }

/-- Bytes of the first word of a copy's source that lie before it. -/
def Engine.lead (x : Engine) : Nat := (blkSrc x.block).toNat % 8

/-- The steps of a command: a copy reads one word of its source in each, a gather or scatter has one for each element, and an empty
command has one (R227, R233). -/
def Engine.steps (x : Engine) : Nat :=
  Nat.max 1 (if gathers x.kind then blkLen x.block else (blkLen x.block + x.lead + 7) / 8)

/-- Where step `k` of a copy begins, and its bytes. -/
def Engine.off (x : Engine) (k : Nat) : Nat := 8 * k - x.lead
def Engine.count (x : Engine) (k : Nat) : Nat := Nat.min (8 * (k + 1) - x.lead) (blkLen x.block) - x.off k

/-- The source and the destination of a copy have no byte in common, as far as their pointers say. -/
def Engine.apart (x : Engine) : Bool :=
  let a := (blkSrc x.block).toNat
  let b := (blkDst x.block).toNat
  let n := blkLen x.block
  bits (blkSrc x.block) 63 62 == bits (blkDst x.block) 63 62 && (decide (a + n ≤ b) || decide (b + n ≤ a))

/-- The agent of a command breaks a boundary: it is frozen alone, with a freeze record that names its block (R396, R397). -/
def State.freezeEngine (s : State) (x : Engine) (sub : Nat) (ptr : DWord) : State :=
  let l := s.loadOf x.p
  let s := s.setEngine { x with frozen := true, status := 4, sub := sub, faddr := ptr }
  { s with freezes := s.freezes ++
      [freezeRec x.e (s.lpOf x.p) ((l.map (fun l => l.q)).getD 0) x.part 3 0 0 ((l.map (fun l => l.lid.toNat)).getD 0)
        0 (xcause 4 sub false) ptr s.clock.tsc x.ptr] }

/-- A command meets a fault: it stops, and its record tells why (R228). -/
def State.engineStop (s : State) (x : Engine) (c : Cause) (sub : Nat) (ptr : DWord) : State :=
  if c = .perm then s.freezeEngine x sub ptr
  else s.setEngine { x with st := .finishing, status := causeCode c, sub := sub, faddr := ptr }

/-- Bytes of a span from pointer `v` on, as the command reads them (R306), and the pointer of a piece that fails; a piece on another
module is asked for by RD, one piece at a time. -/
def State.engineRead (s : State) (n : Nat) (v : DWord) : List (Place × Nat) → Via × DWord
  | [] => (.got [] s, v)
  | (pl, k) :: r =>
    match s.readVia (.engine n) .patch pl k v with
    | .got bs s => match s.engineRead n (v + BitVec.ofNat 64 k) r with
      | (.got more s, v) => (.got (bs ++ more) s, v)
      | x => x
    | x => (x, v)

/-- What a read of a command leads to: it goes on with the bytes, waits, or stops the command. -/
def State.onRead (s : State) (x : Engine) (r : Via × DWord) (f : List Byte → State → State) : State :=
  match r with
  | (.wait t sent, _) => if sent then t else s
  | (.fault c sub t, v) => t.engineStop x c sub v
  | (.got bs t, _) => f bs t

/-- A command waits for the frame of a pointer, which is under pull, from now on if it did not already (R354, R357). -/
def State.enginePull (s : State) (x : Engine) (v : DWord) : State :=
  s.setEngine (if x.pulls.any (fun y => y.1 == v) then x else { x with pulls := x.pulls ++ [(v, s.clock.ns)] })

/-- What the check of a span of a command leads to. -/
def State.onSpan (s : State) (x : Engine) (v : DWord) (off align n : Nat) (f : List (Place × Nat) → State) : State :=
  match s.spans x.p x.e v off align n with
  | .wait => s.enginePull x (v + BitVec.ofNat 64 off)
  | .fault c sub v => s.engineStop x c sub v
  | .ok l => f l

/-- Write `bs`, which step `k` has read, to `dst + off`; with nothing to write the destination is translated and checked (R233). -/
def State.engineWrite (s : State) (x : Engine) (k : Nat) (off align : Nat) (bs : List Byte) (moved : Nat) : State :=
  s.onSpan x (blkDst x.block) off align bs.length (fun l =>
    (s.issueStores (.engine x.n) (spanStores x.scope false (blkDst x.block + BitVec.ofNat 64 off) l bs)).setEngine
      { x with got := smDel x.got k, wrote := k :: x.wrote, done := x.done + moved })

/-- Every step of a command has been read. -/
def Engine.allRead (x : Engine) : Bool := decide (x.got.length + x.wrote.length = x.steps)

/-- Step `k` of a copy has its word: it is read once its bank serves it (R336). -/
def State.copyRead (s : State) (x : Engine) (k : Nat) (l : List (Place × Nat)) : State :=
  let v := blkSrc x.block + BitVec.ofNat 64 (x.off k)
  s.onRead x (s.engineRead x.n v l) (fun _ _ =>
    let (t, ok) := s.present (.engine x.n) k [false] (l.flatMap (fun y => wordsAt y.1.addr y.2))
    if ok then t.onRead x (t.engineRead x.n v l) (fun bs t =>
      (t.setEngine { x with got := smSet x.got k bs }).dropAnswers (.engine x.n))
    else t)

/-- Step `k` of a copy: a step that has not been read is read; one that has been read is written, once the source is apart
from the destination or has been read as a whole (R227). -/
def State.copyStep (s : State) (x : Engine) (k : Nat) : State :=
  if x.steps ≤ k ∨ x.wrote.contains k then s
  else match smFind x.got k with
    | some bs => if x.apart || x.allRead then s.engineWrite x k (x.off k) 1 bs bs.length else s
    | none =>
      if blkLen x.block = 0 then s.engineWrite x k 0 1 [] 0
      else s.onSpan x (blkSrc x.block) (x.off k) 1 (x.count k) (s.copyRead x k)

/-! ### Gathers and scatters (R227, R339) -/

/-- The key under which a gather or scatter keeps a piece of its index list. -/
def idxKey (c : Nat) : Nat := 2 ^ 32 + c

/-- Index `i` of a gather or scatter, where it has been read. -/
def Engine.index (x : Engine) (i : Nat) : Option Nat := (smFind x.got (idxKey (i / 2))).map (fun bs => numAt bs (4 * (i % 2)) 4)

/-- Piece `c` of the index list, two indices, is read once the banks serve it (R226, R227, R336). -/
def State.indexStep (s : State) (x : Engine) (c : Nat) : State :=
  let n := Nat.min 2 (blkLen x.block - 2 * c)
  if n = 0 ∨ (smFind x.got (idxKey c)).isSome then s
  else s.onSpan x (blkIdx x.block) (8 * c) 1 (4 * n) (fun l =>
    let v := blkIdx x.block + BitVec.ofNat 64 (8 * c)
    s.onRead x (s.engineRead x.n v l) (fun _ _ =>
      let (t, ok) := s.presentWords (.engine x.n) (pieceId c) [false] (l.flatMap (fun y => wordsAt y.1.addr y.2))
      if ok then t.onRead x (t.engineRead x.n v l) (fun bs t =>
        (t.setEngine { x with got := smSet x.got (idxKey c) bs }).dropAnswers (.engine x.n))
      else t))

/-- The base of the side that a command indexes, and of the side that is packed. -/
def Engine.indexed (x : Engine) : DWord := if x.kind = .gath then blkSrc x.block else blkDst x.block
def Engine.packed (x : Engine) : DWord := if x.kind = .gath then blkDst x.block else blkSrc x.block

/-- The gather engine that serves a place: that of its stack, of the host bridge, or of another module (R339). -/
def Place.gatherer (pl : Place) : Nat :=
  match pl.module with
  | some m => 2 ^ 16 + m
  | none => pl.addr / 2 ^ 36

/-- The gather engine of element `i`: none where it is not known yet. -/
def State.gathererOf (s : State) (x : Engine) (i : Nat) : Option Nat :=
  let z := blkEsz x.block
  (x.index i).bind (fun d => match s.spans x.p x.e x.indexed (d * z) z z with
    | .ok ((pl, _) :: _) => some pl.gatherer
    | _ => none)

/-- Elements of a burst (R339). -/
def Engine.burst (x : Engine) : Nat := 64 / blkEsz x.block

/-- Element `i` has been collected, or moved. -/
def Engine.taken (x : Engine) (i : Nat) : Bool := x.wrote.contains i || (smFind x.got i).isSome

/-- Element `i` comes next in the list of its gather engine: every earlier one is known to be another's, or has been taken. -/
def State.nextInStack (s : State) (x : Engine) (g i : Nat) : Bool :=
  (List.range i).all (fun j => x.taken j || (match s.gathererOf x j with
    | some h => h != g
    | none => false))

/-- The elements of the burst of gather engine `g` that begins with element `i`: the next of its list, as far as the indices are
known. -/
def State.burstOf (s : State) (x : Engine) (g i : Nat) : List Nat :=
  let rest := ((List.range (blkLen x.block - i)).map (i + ·)).takeWhile (fun j => (s.gathererOf x j).isSome)
  (rest.filter (fun j => s.gathererOf x j == some g && !x.taken j)).take x.burst

/-- Collect elements in index order into the burst of a gather; it stops at the first that fails. -/
def State.collect (s : State) (x : Engine) : List Nat → State
  | [] => s.setEngine x
  | i :: r =>
    let z := blkEsz x.block
    let at_ := (x.index i).getD 0 * z
    match s.spans x.p x.e x.indexed at_ z z with
    | .wait => s.enginePull x (x.indexed + BitVec.ofNat 64 at_)
    | .fault c sub v => s.engineStop x c sub v
    | .ok l => match s.engineRead x.n (x.indexed + BitVec.ofNat 64 at_) l with
      | (.wait t sent, _) => (if sent then t else s).setEngine x
      | (.fault c sub t, v) => t.engineStop x c sub v
      | (.got bs t, _) => (t.dropAnswers (.engine x.n)).collect { x with got := smSet x.got i bs } r

/-- Write collected elements of a gather to their places in index order, or the elements of a scatter in list order; it stops at the
first that fails. -/
def State.spread (s : State) (x : Engine) (base : DWord) (at_ : Nat → Nat) : List Nat → State
  | [] => s.setEngine x
  | i :: r =>
    let z := blkEsz x.block
    let bs := (smFind x.got i).getD []
    match s.spans x.p x.e base (at_ i) z z with
    | .wait => s.enginePull x (base + BitVec.ofNat 64 (at_ i))
    | .fault c sub v => s.engineStop x c sub v
    | .ok l => (s.issueStores (.engine x.n) (spanStores x.scope false (base + BitVec.ofNat 64 (at_ i)) l bs)).spread
        { x with got := smDel x.got i, wrote := i :: x.wrote, done := x.done + 1 } base at_ r

/-- Bursts of a gather engine in flight, of all commands: collected, and not yet returned (R339). -/
def State.inFlight (s : State) (g : Nat) : Nat :=
  ((s.engines.filter (fun x => gathers x.kind)).map (fun x =>
    ceilDiv (x.got.filter (fun y => decide (y.1 < 2 ^ 32) && s.gathererOf x y.1 == some g)).length x.burst)).sum

/-- Elements of a scatter's packed source are read for their burst, each once the banks serve its words (R336). -/
def State.fetch (s : State) (x : Engine) : List Nat → State
  | [] => s.setEngine x
  | i :: r =>
    let z := blkEsz x.block
    match s.spans x.p x.e x.packed (i * z) z z with
    | .wait => s.enginePull x (x.packed + BitVec.ofNat 64 (i * z))
    | .fault c sub v => s.engineStop x c sub v
    | .ok l =>
      let v := x.packed + BitVec.ofNat 64 (i * z)
      match s.engineRead x.n v l with
      | (.wait t sent, _) => (if sent then t else s).setEngine x
      | (.fault c sub t, v) => t.engineStop x c sub v
      | (.got _ _, _) =>
        let (t, ok) := s.presentWords (.engine x.n) (packedId i) [false] (l.flatMap (fun y => wordsAt y.1.addr y.2))
        if !ok then t.setEngine x
        else match t.engineRead x.n v l with
          | (.got bs t, _) => (t.dropAnswers (.engine x.n)).fetch { x with got := smSet x.got i bs } r
          | _ => t.setEngine x

/-- The burst that begins with element `i`: collected by its gather engine, in index order, with at most 64 bursts in flight; or, once
it is collected, returned to where it goes (R339). -/
def State.burstStep (s : State) (x : Engine) (i : Nat) : State :=
  if x.steps ≤ i ∨ x.wrote.contains i then s
  else if blkLen x.block = 0 then s.engineWrite x i 0 (blkEsz x.block) [] 0
  else
    let z := blkEsz x.block
    match x.index i with
    | none => s
    | some d => s.onSpan x x.indexed (d * z) z z (fun _ =>
      match s.gathererOf x i with
      | none => s
      | some g =>
        let held := ((List.range (blkLen x.block - i)).map (i + ·)).filter (fun j => (smFind x.got j).isSome && s.gathererOf x j == some g)
        if (smFind x.got i).isSome then
          if x.kind = .gath then s.spread x x.packed (fun j => j * z) (held.take x.burst)
          else if (List.range i).any (fun j => !x.wrote.contains j && (s.gathererOf x j == some g || (s.gathererOf x j).isNone)) then s
          else s.spread x x.indexed (fun j => (x.index j).getD 0 * z) (held.take x.burst)
        else if !s.nextInStack x g i || decide (64 ≤ s.inFlight g) then s
        else if x.kind = .gath then s.collect x (s.burstOf x g i)
        else s.fetch x (s.burstOf x g i))

/-- A command has started: it has read or written something, or asked another module for it (R360). -/
def State.hasBegun (s : State) (x : Engine) : Bool :=
  x.st != .moving || !x.got.isEmpty || !x.wrote.isEmpty || s.fabric.asked.any (fun a => a.agent == .engine x.n)

/-- Every command that the element issued before has started, or stands at its first access: the commands of one element start in
commit order (R229). -/
def State.mayBegin (s : State) (x : Engine) : Bool :=
  s.engines.all (fun y => !(y.p == x.p && y.e == x.e && decide (y.n < x.n)) || s.hasBegun y || y.frozen || !y.pulls.isEmpty)

/-- A command may move: it is accepted, not frozen, and still has data to move; one that has not started waits for its turn, and does not
start once its partition migrates (R229, R360). -/
def State.moves (s : State) (x : Engine) : Bool :=
  x.st == .moving && !x.frozen && (s.hasBegun x || (s.mayBegin x && !s.travels x.part x.q))

/-- GATHER_BURST: the burst of command `n` that begins with element `k` is collected, or returned to where it goes (R227, R339). -/
def execGatherBurst (n k : Nat) (s : State) : Res :=
  match s.engine n with
  | some x => if s.moves x && gathers x.kind then .next (s.burstStep x k) else .next s
  | none => .next s

/-! ### Completion (R228) -/

/-- A failure that has no record goes the element-fault path: XCAUSE[31] is 1 and XINFO.V is 0 (R228, R414). -/
def State.report (s : State) (p : Nat) (cause : Word) (val : DWord) : State :=
  let x := s.patch p
  s.setPatch p { x with reports := x.reports ++ [⟨none, cause, 0, val, [], 0⟩], seq := { x.seq with latch := true } }

/-- The elements of a patch have command `n` no longer. -/
def Patch.cmdDone (x : Patch) (n : Nat) : Patch :=
  { x with elems := x.elems.map (fun v => (v.1, { v.2 with cmds := v.2.cmds.filter (fun c => c.1 != n) })) }

/-- A command leaves the machine; its element, which may stand in a save frame, has it no longer. -/
def State.cmdDone (s : State) (n : Nat) : State :=
  { s with engines := s.engines.filter (fun x => x.n != n),
           patches := s.patches.map (fun x => (x.1, x.2.cmdDone n)),
           loads := s.loads.map (fun l => { l with saved := l.saved.map (fun v => { v with patch := v.patch.cmdDone n }) }) }

/-- The completion record (R228). -/
def Engine.record (x : Engine) (tsc : DWord) : List Byte :=
  leBytes 8 (at64 (x.done % 2 ^ 32) 32 + x.sub % 256 * 256 + x.status % 256) ++ leBytes 8 x.faddr.toNat ++
  leBytes 8 tsc.toNat ++ leBytes 8 0

/-- The record or the flag of a command faults: the fault is reported, and PERM freezes the command as well (R228). -/
def State.engineLate (s : State) (x : Engine) (c : Cause) (sub : Nat) (ptr : DWord) : State :=
  let s := s.report x.p (xcause (causeCode c) sub true) ptr
  if c = .perm then s.freezeEngine x sub ptr else s.cmdDone x.n

/-- The record is written as a release, or, with no record, a failure is reported (R228). -/
def State.engineRecord (s : State) (x : Engine) : State :=
  let cr := blkCr x.block
  if cr = 0 then
    if x.status ≠ 0 then (s.report x.p (xcause x.status x.sub true) x.faddr).cmdDone x.n
    else s.setEngine { x with st := .recorded }
  else match s.spans x.p x.e cr 0 32 32 with
    | .wait => s.enginePull x cr
    | .fault c sub v => s.engineLate x c sub v
    | .ok l =>
      let s := s.issueStores (.engine x.n) (spanStores x.scope true cr l (x.record s.clock.tsc))
      s.setEngine { x with st := .recorded }

/-- Every access of a command is performed at its scope (R228, R317). -/
def State.engineSettled (s : State) (x : Engine) : Bool := s.allPerformed (.engine x.n) s.ord.nextId x.scope

/-- The tag of a command's data packets and of its FLAGINC (R412). -/
def engineTag (n : Nat) : Half := BitVec.ofNat 16 (2 ^ 15 + n % 2 ^ 15)

/-- Where the data packets of a command to a module are counted. -/
def wrKey (n m : Nat) : Nat := 512 * n + m

/-- A command is complete and leaves. One on the fabric path is kept in case another module refuses one of its packets (R228, R414). -/
def State.engineLeft (s : State) (x : Engine) : State :=
  let old := s.fabric.flags.filter (fun y => engineTag y.n != engineTag x.n)
  (if x.path = 3 then { s with fabric := { s.fabric with flags := old ++ [x] } } else s).cmdDone x.n

/-- A write of a command to another module has not left this one. -/
def State.undrained (s : State) (n : Nat) : Bool :=
  s.ord.accs.any (fun x => x.agent == .engine n) ||
  s.ord.vis.any (fun v => v.2.any (fun e => e.agent == .engine n && e.bytes.any (fun b => (Place.mk b.1 .rc false false).module.isSome)))

/-- A flag on another module: once every write of the command is performed at `.fab`, wherever it lies, and those to other modules have gone
there, FLAGINC follows with the increment and the number of data packets that went to its module (R312, R317, R359, R412; log 16). -/
def State.flagRemote (s : State) (x : Engine) (m : Nat) (pl : Place) : State :=
  if !s.allPerformed (.engine x.n) s.ord.nextId .fab || s.undrained x.n || s.fabric.asked.any (fun a => a.agent == .engine x.n && a.st == .sent) ||
      s.redirHeld (.engine x.n) m pl.pa then s
  else
    let bs := leBytes 4 (blkInc x.block).toNat ++ leBytes 4 (smGet 0 s.fabric.sentWrs (wrKey x.n (s.redirected m pl.pa)))
    match s.post (packet 6 .fab m (s.identOf x.part) bs.length (engineTag x.n) 0 pl.pa bs) with
    | some s => s.engineLeft x
    | none => s.engineLate x .xlate 0 (blkFlag x.block)

/-- The flag is incremented by its owner, as a release; a failed command leaves it unchanged (R228, R317). -/
def State.engineFlag (s : State) (x : Engine) : State :=
  if !s.engineSettled x then s
  else if blkFlag x.block = 0 ∨ x.status ≠ 0 then s.engineLeft x
  else
    let t := s.pointer x.p x.e (blkFlag x.block) 0 4 4 .owner
    match t.res with
    | .wait => s
    | .fault c sub => s.engineLate x c sub t.eff
    | .ok pl =>
      match pl.module with
      | some m => s.flagRemote x m pl
      | none => match s.tryOwner (.engine x.n) x.part pl x.scope false true (.signal (blkInc x.block)) t.eff with
        | .ok s _ => s.engineLeft x
        | _ => s

/-- A COLL command that the load of a queue has issued (R225, R231). -/
def Collective.ofLoad (c : Collective) (q : Nat) : Bool :=
  match c.by_ with
  | some (_, _, some n) => n == q
  | _ => false

/-- A COLL command is stopped with its load: it writes its record with a status and leaves its flag unchanged (R228, R395). -/
def Collective.stop (c : Collective) (status : Nat) : Collective :=
  { c with by_ := none, fail := if c.recorded then c.fail else some (status, 0, 0) }

/-- An engine command of a queue's load runs: a collective that it issued too (R225). -/
def State.commands (s : State) (q : Nat) : Bool := s.engines.any (fun x => x.q == some q) || s.colls.any (fun c => c.ofLoad q)

/-- ENGINE_COMPLETE: command `n`, all of whose writes have entered the machine or which has failed, writes its record, and
then increments its flag; each waits until what it covers is performed (R228). -/
def execEngineComplete (n : Nat) (s : State) : Res :=
  match s.engine n with
  | none => .next s
  | some x =>
    if x.frozen then .next s
    else match x.st with
      | .moving =>
        if x.wrote.length = x.steps ∧ s.engineSettled x then .next (s.engineRecord x) else .next s
      | .finishing => if s.engineSettled x then .next (s.engineRecord x) else .next s
      | .recorded => .next (s.engineFlag x)

/-- A command is stopped: it writes its record with a status and leaves its flag unchanged; a frozen one keeps the status
of its violation, and without a record it reports nothing more (R228, R395, R396). -/
def State.stopEngine (s : State) (x : Engine) (status : Nat) : State :=
  let x := if x.frozen then x else { x with status := status, sub := 0, faddr := 0 }
  let x := { x with st := .recorded, frozen := false }
  if blkCr x.block = 0 then s.setEngine x
  else match s.spans x.p x.e (blkCr x.block) 0 32 32 with
    | .ok l => (s.issueStores (.engine x.n) (spanStores x.scope true (blkCr x.block) l (x.record s.clock.tsc))).setEngine x
    | _ => s.setEngine x

end Sys2Proof.Machine
end

