-- ==== Sys2Proof/Machine/Touch.lean ====
section
/-! DEFINITION. What an element word reads and writes of its instance, read from its bits: whether a later word may issue before an
earlier one that waits (R31, R157, R302, R312, R313). -/

namespace Sys2Proof.Machine

/-- What a word has to do with memory while its instance runs, as the order of its block sees it. -/
inductive MemUse where
  /-- nothing: what it stores or asks of an owner it does at the commit -/
  | none
  /-- it reads -/
  | read
  /-- it reads through pointers, whose frames may be SO: it passes no word that reads -/
  | through
  /-- an acquire: no later word reads before it -/
  | acquire
  /-- FENCE and DRAIN -/
  | fence
  deriving DecidableEq, Repr

/-- What a word reads and writes, as numbers: sn is n; qn, on and cbn are their operand numbers 16 to 31; wn is 32 + n, mn 64 + n, accn
80 + n; 95 the arrangements that the instance writes, ftn 96 + n, FUSE 100, EST 101, the block counters of CVT 102. -/
structure Touch where
  rd : List Nat
  wr : List Nat
  mem : MemUse
  deriving DecidableEq, Repr

/-- Several uses together. -/
def Touch.all (m : MemUse) (l : List Touch) : Touch :=
  ⟨l.flatMap (fun t => t.rd), l.flatMap (fun t => t.wr),
   if m = .none ∧ l.any (fun t => t.mem == .read) then .read else m⟩

/-- Registers that are read, and registers or other things that are written. -/
def reads (l : List Nat) : Touch := ⟨l, [], .none⟩
def writes (l : List Nat) : Touch := ⟨[], l, .none⟩
def pairOf (n : BitVec 5) : List Nat := [n.toNat, n.toNat + 1]

/-- A source operand: reading a queue or a buffer moves its position on (R157). -/
def srcOf (n : BitVec 5) (w : BitVec 1) : Touch :=
  if n.toNat < 16 then reads [if w = 1 then 32 + n.toNat else n.toNat]
  else ⟨[], [n.toNat], if 24 ≤ n.toNat then .read else .none⟩

/-- A destination operand. -/
def dstOf (n : BitVec 5) (w : BitVec 1) : Touch :=
  writes [if n.toNat < 16 ∧ w = 1 then 32 + n.toNat else n.toNat]

/-- A tile operand: an s register with its address, or a buffer. -/
def tileOf (n : BitVec 5) : Touch := if n.toNat < 16 then reads [n.toNat] else writes [n.toNat]

/-- The mask of a wide word. -/
def maskOf (k : BitVec 3) (w : BitVec 1) : Touch := reads (if w = 1 then [64 + k.toNat] else [])

/-- Two sources and a destination, wide or not. -/
def threeOf (d a b : BitVec 5) (w : BitVec 1) (k : BitVec 3) : Touch :=
  Touch.all .none [srcOf a w, srcOf b w, maskOf k w, dstOf d w]

/-- A destination and a source, or two sources, of one lane. -/
def immOf (d a : BitVec 5) : Touch := Touch.all .none [srcOf a 0, dstOf d 0]

/-- An operation on what a pointer pair names, with other s registers that it reads and writes. -/
def ptrOf (a : BitVec 5) (rd wr : List Nat) (m : MemUse) : Touch := ⟨pairOf a ++ rd, wr, m⟩

/-- Operands of an atomic. -/
def atomOf_ (d a b : BitVec 5) (w : BitVec 1) : Touch :=
  ptrOf a (if w = 1 then pairOf b else [b.toNat]) (if w = 1 then pairOf d else [d.toNat]) .none

/-- Operands of a WRED word. -/
def wredOf (t : BitVec 2) (a b : BitVec 5) (w : BitVec 1) : Touch :=
  Touch.all .read [reads ((List.range 4).map (a.toNat + ·)), tileOf b, writes (if w = 1 then [28 + t.toNat] else [])]

/-- What a word reads and writes. A word of no element touches everything. -/
def touch : Instr → Touch
  | .add d a b w _ k | .sub d a b w _ k | .mul d a b w _ k | .mulh d a b w _ k | .mulhu d a b w _ k | .div d a b w _ k
  | .divu d a b w _ k | .rem d a b w _ k | .remu d a b w _ k | .and d a b w _ k | .or d a b w _ k | .xor d a b w _ k
  | .sll d a b w _ k | .srl d a b w _ k | .sra d a b w _ k | .slt d a b w _ k | .sltu d a b w _ k | .min d a b w _ k
  | .max d a b w _ k | .adds d a b w _ k | .subs d a b w _ k => threeOf d a b w k
  | .fadd d a b _ _ w _ k | .fsub d a b _ _ w _ k | .fmul d a b _ _ w _ k | .fdiv d a b _ _ w _ k | .fmac d a b _ _ w _ k =>
    threeOf d a b w k
  | .fmin d a b _ w _ k | .fmax d a b _ w _ k | .feq d a b _ w _ k | .flt d a b _ w _ k | .fle d a b _ w _ k => threeOf d a b w k
  | .fsqrt d a _ _ w _ k | .mov d a w _ k => Touch.all .none [srcOf a w, maskOf k w, dstOf d w]
  | .sel d a b c w _ k => Touch.all .none [srcOf a w, srcOf b w, srcOf c w, maskOf k w, dstOf d w]
  | .lbc a _ c => Touch.all .none [srcOf a 0, writes [32 + c.toNat]]
  | .lext d a _ c => Touch.all .none [srcOf a 0, reads [32 + c.toNat], dstOf d 0]
  | .lins a b c => Touch.all .none [srcOf a 0, srcOf b 0, writes [32 + c.toNat]]
  | .pack d a b _ _ _ k => threeOf d a b 1 k
  | .unpk d a _ _ _ _ k => Touch.all .none [srcOf a 1, maskOf k 1, dstOf d 1]
  | .mlane a b _ n _ k => Touch.all .none [srcOf a 1, srcOf b 1, maskOf k 1, writes [64 + n.toNat]]
  | .mset a n => Touch.all .none [srcOf a 0, writes [64 + n.toNat]]
  | .mget d n => Touch.all .none [reads [64 + n.toNat], dstOf d 0]
  | .sprd d c => Touch.all .none [dstOf d 0, reads (if c = 0 then [100] else if c = 4 then [101] else
      if 16 ≤ c.toNat then [24 + (c.toNat - 16) / 2] else [])]
  | .spwr a c => Touch.all .none [srcOf a 0, writes (if c = 0 then [100] else if c = 4 then [101] else
      if 16 ≤ c.toNat then [24 + (c.toNat - 16) / 2] else [])]
  | .take d a _ | .peek d a _ => immOf d a
  | .adv a _ => writes [a.toNat]
  | .emit d a => immOf d a
  | .waitf d a _ | .waite d a _ => Touch.all .read [dstOf d 0, writes [a.toNat]]
  | .rrot d a b _ => Touch.all .none [srcOf a 0, srcOf b 0, dstOf d 0]
  | .lgen d a b _ => Touch.all .none [srcOf a 0, srcOf b 0, dstOf d 0]
  | .tcmp d a b => ⟨pairOf a ++ pairOf b, [d.toNat], .none⟩
  | .tjoin d a b | .tmeet d a b => ⟨pairOf a ++ pairOf b, pairOf d, .none⟩
  | .tadv d a b => ⟨pairOf a, (96 + b.toNat) :: pairOf d, .none⟩
  | .frd d a => writes [96 + a.toNat, 32 + d.toNat]
  | .frdCnt d a => writes [96 + a.toNat, d.toNat]
  | .fwait d a => ⟨pairOf d, [96 + a.toNat], .acquire⟩
  | .caph _ a | .capd _ a => reads (pairOf a)
  | .capx _ a b => reads (pairOf a ++ pairOf b)
  | .ains d a b c => ptrOf a (c.toNat :: pairOf b) [d.toNat, 95] .through
  | .amrg d a b | .acon d a b => ptrOf a [b.toNat] [d.toNat, 95] .through
  | .acmp d a b => ptrOf a [] [d.toNat, 95, 96 + b.toNat] .through
  | .aprb d a b p => ptrOf a (pairOf b) [d.toNat, 20 + p.toNat] .through
  | .join d a b _ _ p => ptrOf a [] [d.toNat, b.toNat, 20 + p.toNat] .through
  | .red d a b _ p => ptrOf a (pairOf b) [d.toNat, 95, 20 + p.toNat] .through
  | .wrel d a b => ptrOf a [b.toNat] [d.toNat] .through
  | .aadd d a b _ w _ | .amin d a b _ w _ | .amax d a b _ w _ | .aand d a b _ w _ | .aor d a b _ w _ | .axor d a b _ w _
  | .aswp d a b _ w _ | .acas d a b _ w _ => atomOf_ d a b w
  | .pwait d a b _ | .pgive d a b _ | .pswap d a b _ | .paban d a b _ | .prel d a b _ => ptrOf a [b.toNat] [d.toNat] .none
  | .cpy d a _ | .gath d a _ | .scat d a _ | .trig d a _ | .coll d a _ | .flagst d a _ | .place d a _ => ptrOf a [] [d.toNat] .none
  | .thaw d a => ⟨[a.toNat], [d.toNat], .none⟩
  | .bubl d a b => ⟨[a.toNat, b.toNat], [d.toNat], .none⟩
  | .addi d a _ | .andi d a _ | .ori d a _ | .xori d a _ | .slti d a _ | .slli d a _ | .srli d a _ | .srai d a _ => immOf d a
  | .movhi d _ => dstOf d 0
  | .ldI8 d a _ _ | .ldB8 d a _ _ | .ldI16 d a _ _ | .ldB16 d a _ _ | .ldB32 d a _ _ => ptrOf a [] [d.toNat] .read
  | .ldB64 d a _ _ | .ldf d a _ _ => ptrOf a [] (pairOf d) .read
  | .ldW d a _ _ => ptrOf a [] [32 + d.toNat] .read
  | .ldAcqB32 d a _ _ => ptrOf a [] [d.toNat] .acquire
  | .ldAcqB64 d a _ _ => ptrOf a [] (pairOf d) .acquire
  | .stB8 d a _ _ | .stB16 d a _ _ | .stB32 d a _ _ | .stRelB32 d a _ _ | .feclr d a _ _ => ptrOf a [d.toNat] [] .none
  | .stB64 d a _ _ | .stRelB64 d a _ _ | .ste d a _ _ | .stf d a _ _ => ptrOf a (pairOf d) [] .none
  | .stW d a _ _ => ptrOf a [32 + d.toNat] [] .none
  | .ldfe d a _ _ => ptrOf a [] (pairOf d) .none
  | .fence _ | .drain _ => ⟨[], [], .fence⟩
  | .mma t a b _ _ _ _ | .mmag t a b _ _ _ _ => Touch.all .read [tileOf a, tileOf b, writes [80 + t.toNat]]
  | .ldt a b _ => Touch.all .read [tileOf a, reads [b.toNat]]
  | .sortn a b _ _ _ => Touch.all .read [writes [a.toNat, b.toNat]]
  | .cvt a b _ _ _ => Touch.all .read [writes [a.toNat, b.toNat, 102]]
  | .scld _ a b _ | .scem _ a b _ => ⟨[a.toNat, b.toNat], [], .read⟩
  | .accld t a _ => Touch.all .read [tileOf a, writes [80 + t.toNat]]
  | .accst t a _ _ => Touch.all .none [tileOf a, reads [80 + t.toNat]]
  | .rmax t a b _ w | .rmin t a b _ w | .rclmp t a b _ w | .rmed t a b _ w | .rsats t a b _ w => wredOf t a b w
  | .adjb t a b _ => Touch.all .through [tileOf a, reads ((List.range 3).map (b.toNat + ·)), writes [80 + t.toNat]]
  | .br _ _ r _ g => reads [r.toNat, g.toNat % 16]
  | .commit | .halt => reads []
  | _ => ⟨[], List.range 128, .fence⟩

/-- A word that reads may issue before an earlier one that has not (R302, R311 to R313): not before an acquire, a FENCE or a DRAIN. -/
def MemUse.passes (k j : MemUse) : Bool :=
  match k, j with
  | .none, _ | _, .none => true
  | .read, .read | .read, .through | .acquire, .read | .acquire, .through => true
  | _, _ => false

/-- Word `k` needs nothing of the earlier word `j`, and writes nothing that `j` reads or writes: it may issue first (R31). -/
def Touch.passes (k j : Touch) : Bool :=
  k.mem.passes j.mem && k.wr.all (fun n => !j.rd.contains n && !j.wr.contains n) && k.rd.all (fun n => !j.wr.contains n)

end Sys2Proof.Machine
end

