-- ==== Sys2Proof/Machine/Fire.lean ====
section
/-! DEFINITION. Triggers, the matching station, and the firing of instances (R28 to R31, R35, R36). -/

namespace Sys2Proof.Machine

/-! ### Slots that a trigger counts (R29) -/

/-- A slot may count for a trigger: with a tag, only where it carries that tag. -/
def tagFits (tag : Option (BitVec 12)) (t : BitVec 12) : Bool :=
  match tag with
  | none => true
  | some x => x == t

/-- Reserve `n` unreserved slots of a queue to an instance: the queue after, and the slots. -/
def reserveQ (id : Nat) (tag : Option (BitVec 12)) : Nat → List QUnit → Option (List QUnit × List Slot)
  | 0, l => some (l, [])
  | _ + 1, [] => none
  | n + 1, u :: r =>
    if u.owner.isNone && tagFits tag (uTag u.u) then
      (reserveQ id tag n r).map (fun x => ({ u with owner := some id } :: x.1, u.u :: x.2))
    else (reserveQ id tag (n + 1) r).map (fun x => (u :: x.1, x.2))

/-- The slot counters of a buffer that an instance of the element has reserved. -/
def Elem.taken (v : Elem) (c : Nat) : List Nat :=
  v.insts.flatMap (fun i => (i.cres.filter (fun x => x.1 == c)).flatMap (fun x =>
    (List.range x.2.2).map (fun j => (x.2.1 + j) % 2 ^ 15)))

/-- The tag of the slot at a counter of a buffer: that of its first unit, as the element reads it. -/
def State.cbTag (s : State) (p e : Nat) (h : DWord) (i : Nat) : BitVec 12 :=
  uTag (ofBytes (s.peek (.elem p e) (vaultAddr p e (cbSlotAddr h i)) 32))

/-- An instance that has performed its irrevocable operation is still to write the handle of a buffer: the wait for that is held for it,
and no instance reserves slots (R32, R167). -/
def Elem.rewritten (v : Elem) (c : Nat) : Bool := v.insts.any (fun i => i.passed && i.wC.any (fun x => x / 2 == c))

/-- The occupied, unreserved slots of a buffer that fit a tag, by counter, oldest first; none of a buffer whose handle is
invalid (R17). -/
def State.cbFree (s : State) (p e c : Nat) (tag : Option (BitVec 12)) : List Nat :=
  let v := s.elem p e
  let h := v.r.cb.getD c 0
  if cbValid h && !v.rewritten c then
    ((List.range (cbOcc h)).map (fun i => (cbTake h + i) % 2 ^ 15)).filter (fun i =>
      !(v.taken c).contains i && (tag.isNone || tagFits tag (s.cbTag p e h i)))
  else []

/-- Reserve `n` slots of a buffer: their counters. -/
def State.reserveC (s : State) (p e c n : Nat) (tag : Option (BitVec 12)) : Option (List Nat) :=
  let l := s.cbFree p e c tag
  if n ≤ l.length then some (l.take n) else none

/-- The buffers that a descriptor names, with their counts. -/
def Block.buffers (b : Block) : List (Nat × Nat) := [(b.cba, b.cbac), (b.cbb, b.cbbc)].filter (fun x => x.2 != 0)

/-- A trigger without counts (R29). -/
def Block.empty (b : Block) : Bool := b.qc.all (fun c => c == 0) && b.buffers.isEmpty

/-- What a met trigger reserves: the queues after, the slots of q0 to q3, the buffer slots, and the tag of the first one. -/
structure Match where
  q : List (List QUnit)
  qres : List (List Slot)
  cres : List (Nat × Nat × Nat)
  tag : BitVec 12
  deriving DecidableEq, Repr

/-- The trigger of a block, for an instance with number `id`, over slots that fit a tag (R29). -/
def State.trigger (s : State) (p e : Nat) (b : Block) (id : Nat) (tag : Option (BitVec 12)) : Option Match :=
  let v := s.elem p e
  let qs := (List.range 4).mapM (fun n => reserveQ id tag (b.qc.getD n 0) (v.q.getD n []))
  let cs := b.buffers.mapM (fun x => (s.reserveC p e x.1 x.2 tag).map (fun l => (x.1, l)))
  match qs, cs with
  | some qs, some cs =>
    let slots := qs.flatMap (fun x => x.2)
    let first := match slots, cs with
      | u :: _, _ => uTag u
      | [], (c, i :: _) :: _ => s.cbTag p e (v.r.cb.getD c 0) i
      | _, _ => 0
    some ⟨qs.map (fun x => x.1), qs.map (fun x => x.2), cs.flatMap (fun x => x.2.map (fun i => (x.1, i, 1))), first⟩
  | _, _ => none

/-! ### The station (R28, R30) -/

/-- A number that no entry of the station has. -/
def Elem.newId (v : Elem) : Nat := (v.insts.map (fun i => i.id + 1)).foldl Nat.max 0

/-- A new entry. -/
def Inst.new (id blk : Nat) (tag : BitVec 12) (st : InstState) : Inst :=
  { (default : Inst).rearm with id := id, blk := blk, tag := tag, st := st }

/-- A branch arms one instance of its target (R28). -/
def Elem.arm (v : Elem) (blk : Nat) (tag : BitVec 12) : Elem :=
  { v with insts := v.insts ++ [Inst.new v.newId blk tag .armed] }

/-- Some unreserved slot of the queues and buffers that a block names carries a tag. -/
def State.hasSome (s : State) (p e : Nat) (b : Block) (tag : BitVec 12) : Bool :=
  let v := s.elem p e
  (List.range 4).any (fun n => b.qc.getD n 0 != 0 && (v.q.getD n []).any (fun u => u.owner.isNone && uTag u.u == tag)) ||
  b.buffers.any (fun x => !(s.cbFree p e x.1 (some tag)).isEmpty)

/-- A partially matched entry whose slots have all gone to other instances is no entry any more (R30). -/
def State.prunePartly (s : State) (p e : Nat) : State :=
  let v := s.elem p e
  let keep := fun (i : Inst) => i.st != .partly || (match smFind v.blocks i.blk with
    | some b => s.hasSome p e b i.tag
    | none => false)
  s.setElem p e { v with insts := v.insts.filter keep }

/-- The element may fire an instance: its patch runs, nothing is frozen, it has not halted, and it has no fault that could
not be queued (R36, R179). -/
def State.mayFire (s : State) (p e : Nat) : Bool :=
  let v := s.elem p e
  !s.still p e && !v.halted && v.insts.all (fun i => i.pend.isNone)

/-- Sources have stopped for a swap: no standing block with an empty trigger fires (R146, R388). -/
def State.sourcesStop (s : State) (p : Nat) : Bool := (s.patch p).phase.drain || (s.patch p).drainFrom.isSome

/-! ### What a block writes to its buffers (R158) -/

/-- The bytes of a WRED result, from its format and its geometry word (R264, R265). -/
def wredBytes (f : Nat) (geo : Word) : Nat :=
  (tileN f / 2 ^ (geo.toNat % 8)) * (tileN f / 2 ^ (geo.toNat / 8 % 8)) * fmtBytes f

/-- The buffers to which a word stores bytes as whole slots: ACCST, and a WRED result or witness (R193, R264, R267). -/
def rawDests : Instr → List Nat
  | .accst _ a _ _ => if 24 ≤ a.toNat then [a.toNat] else []
  | .rmax t _ b _ w | .rmin t _ b _ w | .rclmp t _ b _ w | .rmed t _ b _ w | .rsats t _ b _ w =>
    (if 24 ≤ b.toNat then [b.toNat] else []) ++ (if w = 1 then [28 + t.toNat] else [])
  | _ => []

/-- The bytes that a word stores to a buffer as whole slots, where they are known as the instance fires: those of ACCST, and of a WRED
result whose geometry no earlier word of the block writes (R193, R264); `s` is the s registers as they are then. -/
def rawBytes (s : List Word) (before : List Instr) (i : Instr) : Option (Nat × Nat) :=
  match i with
  | .accst _ a _ f => if 24 ≤ a.toNat then some (a.toNat, 4 * accWords f.toNat) else none
  | .rmax _ a b f _ | .rmin _ a b f _ | .rclmp _ a b f _ | .rmed _ a b f _ | .rsats _ a b f _ =>
    if b.toNat < 24 ∨ before.any (fun j => (touch j).wr.contains (a.toNat + 1)) then none
    else some (b.toNat, wredBytes f.toNat (s.getD (a.toNat + 1) 0))
  | _ => none

/-- What the words of a block store to buffers as whole slots, as far as it is known. -/
def rawsOf (s : List Word) (is : List Instr) : List (Nat × Nat) :=
  is.zipIdx.filterMap (fun x => rawBytes s (is.take x.2) x.1)

/-- A word adds to a buffer units whose number only its run gives: CVT and SORTN (R197). -/
def opens (r : Nat) : Instr → Bool
  | .cvt _ b _ _ _ => b.toNat == r
  | .sortn _ b _ _ _ => b.toNat == r
  | _ => false

/-- A block's units for a buffer do not make whole slots, or what is known of its slots is more than NSLOT. A buffer whose handle is
invalid is found by the word that uses it (R17); where CVT or SORTN adds units, how many there are is found when it has run. -/
def unevenTo (s : List Word) (is : List Instr) (h : DWord) (r : Nat) : Bool :=
  let raw := (rawsOf s is).filter (fun x => x.1 == r)
  let units := (lanesTo r is 0).getD 0 / 8
  cbValid h &&
  ((!is.any (opens r) && units % 2 ^ cbSsz h != 0) ||
   decide (cbNslot h < units / 2 ^ cbSsz h + (raw.map (fun x => (x.2 + cbSlotBytes h - 1) / cbSlotBytes h)).sum))

/-- An instance names a buffer as a destination. -/
def namesDest (r : Nat) (i : Instr) : Bool := (instrDest i).any (fun d => d.1 == r) || (rawDests i).contains r

/-- The check of an instance's destination buffers as it fires: the first word that names one which its block's units do not fit faults
with ILLOP, sub-cause 2 (R158). -/
def State.fireCheck (s : State) (p e id : Nat) : State :=
  match (s.elem p e).inst id with
  | none => s
  | some i => match smFind (s.elem p e).blocks i.blk with
    | none => s
    | some b =>
      let is := b.instrs
      let bad := ((List.range 8).filter (fun c => unevenTo i.r.s is (i.cbAt.getD c 0) (24 + c))).map (fun c => is.findIdx (namesDest (24 + c)))
      match bad with
      | [] => s
      | w :: ws =>
        let w := ws.foldl Nat.min w
        s.elemFault p e { i with pc := w } .illop 2 ((b.words.getD w 0).setWidth 64)

/-! ### Firing -/

/-- The instance fires again with the same tag and the same slots, and its destination buffers are checked as at any firing
(R37, R158). -/
def State.disposeRetry (s : State) (p e n : Nat) : State :=
  let v := (s.elem p e).forget n
  let sc := v.scb.map (fun t => if t.owner = some n then { t with owner := none } else t)
  (s.setElem p e { v with insts := v.insts.map (fun i => if i.id = n then i.fire v.r else i), scb := sc }).fireCheck p e n

/-- Fire the entry with a number: its slots are reserved to it, and it takes the element's committed registers (R30, R31). -/
def State.fireEntry (s : State) (p e id : Nat) (m : Match) (tag : BitVec 12) : State :=
  let v := s.elem p e
  let go := fun (i : Inst) => if i.id = id then { { i with tag := tag, qres := m.qres, cres := m.cres }.fire v.r with tag := tag } else i
  ((s.setElem p e { v with q := m.q, insts := v.insts.map go }).moved p e).fireCheck p e id

/-- BLOCK_FIRE: an instance of block `b` whose trigger is met fires. An armed block takes its oldest armed entry with the
tag. A standing block takes a new entry, or its partially matched one, with the tag of the slot it reserves first, or, with
a tag-match trigger, the tag given; a tag-match trigger that some slots meet takes an entry for them (R28 to R30). -/
def execBlockFire (p e b : Nat) (tag : BitVec 12) (s : State) : Res :=
  if !s.mayFire p e then .next s
  else
    let s := s.prunePartly p e
    let v := s.elem p e
    match smFind v.blocks b with
    | none => .next s
    | some blk =>
      let want := if blk.tm then some tag else none
      if !blk.st then
        match v.insts.find? (fun i => i.st == .armed && i.blk == b && i.tag == tag) with
        | none => .next s
        | some i =>
          match s.trigger p e blk i.id want with
          | none => .next s
          | some m => .next (s.fireEntry p e i.id m i.tag)
      else if blk.empty && s.sourcesStop p then .next s
      else
        let old := if blk.tm then v.insts.find? (fun i => i.st == .partly && i.blk == b && i.tag == tag) else none
        let id := match old with
          | some i => i.id
          | none => v.newId
        if old.isNone && decide (256 ≤ v.insts.length) then .next s
        else
          let s' := match old with
            | some _ => s
            | none => s.setElem p e { v with insts := v.insts ++ [Inst.new id b tag .partly] }
          match s.trigger p e blk id want with
          | some m => .next (s'.fireEntry p e id m (if blk.empty then 0 else if blk.tm then tag else m.tag))
          | none => if blk.tm && s.hasSome p e blk tag then .next s' else .next s

end Sys2Proof.Machine
end

