-- ==== Sys2Proof/Machine/SeqDisp.lean ====
section
/-! DEFINITION. CSRW with EREPLAY, the disposal of a faulted instance, and XRET (R37, R116, R149, R154, R155). -/

namespace Sys2Proof.Machine

/-- EREPLAY with a 0: the named instance is discarded (R37). -/
def State.ereplayDiscard (s : State) (p : Nat) : State :=
  match (s.patch p).named with
  | none => s
  | some (e, n) => (s.disposeDiscard p e n).clearNamed p

/-- EREPLAY with a 1: the named instance fires again (R37). -/
def State.ereplayRetry (s : State) (p : Nat) : State :=
  match (s.patch p).named with
  | none => s
  | some (e, n) => (s.disposeRetry p e n).clearNamed p

/-- CSRW: the CSR takes ga (R116, R154). A write of EREPLAY acts on the instance that XINFO names and clears XINFO.V; with
XINFO.V 0, and with any value but 0 and 1, it is ILLOP with sub-cause 2 (R37, R155; log 9). -/
def execCsrw (a : BitVec 5) (c : BitVec 12) (s : State) : Res :=
  let p := s.cur.patch
  let q := s.seq p
  let v := q.get a
  if c = 0x045 then
    if q.named ∧ v = 0 then .next (runSeq (fun _ q => .done q) (s.ereplayDiscard p))
    else if q.named ∧ v = 1 then .next (runSeq (fun _ q => .done q) (s.ereplayRetry p))
    else .next (runSeq (fun _ _ => .faultOpen .illop 2) s)
  else .next (runSeq (fun _ q =>
    match q.csrSet c.toNat v with
    | none => .faultOpen .illop 2
    | some q => .done q) s)

/-- EREPLAY_DISCARD: the handler of patch `p` discards the instance named in XINFO (R37). With no instance named it has no
effect. -/
def execEreplayDiscard (p : Nat) (s : State) : Res := .next (s.ereplayDiscard p)

/-- EREPLAY_RETRY (R37). -/
def execEreplayRetry (p : Nat) (s : State) : Res := .next (s.ereplayRetry p)

/-- XRET's own effect at address `a`, and the loop-end check there: a level that ends at `a` and goes on takes pc back (R127,
R149). -/
def Seq.ret (q : Seq) (a : Half) : Seq := { (loopCheck a [2, 1, 0] (leaveTrap q)).1.prune with last := a, begun := false }

/-- XRET: an instance that is still named is retried, then pc takes XPC and XT clears, and the loop-end check is made as after
any word that is no taken branch or jump; with XT 0 it is ILLOP with sub-cause 2 (R37, R127, R128, R149, R155). -/
def execXret (s : State) : Res :=
  let p := s.cur.patch
  if (s.seq p).xt then .next (runSeq (fun a q => .moved (q.ret a)) (s.ereplayRetry p |>.clearNamed p))
  else .next (runSeq (fun _ _ => .faultOpen .illop 2) s)

end Sys2Proof.Machine
end

