-- ==== Sys2Proof/Machine/Commit.lean ====
section
/-! DEFINITION. The commit of an instance: its waits, the capability rule, its irrevocable operation, and its effects, all at
once (R32, R33, R158, R167, R174, R177, R193, R197, R204, R240, R245, R267); the full/empty timeout (R214). -/

namespace Sys2Proof.Machine

/-! ### What the commit writes -/

/-- The units that an instance has built for destination index `x` (o0 to o3 are 0 to 3, cb0 to cb7 are 4 to 11). -/
def Inst.units (i : Inst) (x : Nat) : List Slot :=
  let ls := i.outs.getD x []
  (List.range (ls.length / 8)).map (fun k => ofLanes ((ls.drop (8 * k)).take 8))

/-- The effects of an instance, in block-word order. -/
def Inst.effects (i : Inst) : List Eff := i.effs.map (fun e => e.2)

/-- A run that emits no slot. -/
def Run.none : Run → Bool
  | .gen _ n _ _ _ => n == 0
  | .units us => us.isEmpty

/-- The port is written by the commit, by units, by an emitter or by a generator (R177, R197). -/
def Inst.writesPort (i : Inst) (o : Nat) : Bool :=
  !(i.units o).isEmpty || i.effects.any (fun e => match e with
    | .arm x _ => x == o
    | .emitter x _ => x == o
    | _ => false)

/-- The commit changes capabilities of a port, or relies on them. -/
def Inst.usesCaps (i : Inst) (o : Nat) : Bool :=
  i.writesPort o || i.effects.any (fun e => match e with
    | .capH x _ => x == o
    | .capD x _ => x == o
    | .capX x _ _ => x == o
    | _ => false)

/-! ### The stores of a commit (R32, R158, R267, R302) -/

/-- The slots that some bytes take. -/
def padSlots (h : DWord) (n : Nat) : Nat := (n + cbSlotBytes h - 1) / cbSlotBytes h

/-- How far a commit has filled a buffer: the lanes that its words have written, the slots that it has taken from FILLP on, and the
one that its units fill. -/
structure Fill where
  lanes : Nat
  slots : Nat
  cur : Nat
  deriving DecidableEq, Repr

def Fill.zero : Fill := ⟨0, 0, 0⟩

/-- The stores of a commit, in block-word order, as its effects make them: the stores, what each buffer takes, WGEN, and the first word
whose witness tile would wrap. -/
structure Plan where
  stores : List Store
  fills : SMap Fill
  wgen : Word
  wrap : Option Nat
  deriving DecidableEq, Repr

/-- A unit goes to its place in a buffer: the first of a slot takes the next slot (R158). -/
def fillUnit (p e : Nat) (h : DWord) (us : List Slot) (x : Fill × List Store) (k : Nat) : Fill × List Store :=
  let per := 2 ^ cbSsz h
  let f := if k % per = 0 then { x.1 with cur := x.1.slots, slots := x.1.slots + 1 } else x.1
  let va := cbSlotAddr h (cbFill h + f.cur) + 32 * (k % per)
  (f, x.2 ++ [tileStore p e va ((List.range 32).map (fun (j : Nat) => (us.getD k 0 >>> (8 * j)).setWidth 8))])

/-- The bytes of a witness tile, with its generation and slot size, in whole slots (R267). -/
def witnessTile (h : DWord) (gen : Word) (d : List Byte) : List Byte :=
  d.take 4 ++ leBytes 4 gen.toNat ++ (d.take 24).drop 8 ++ leBytes 8 (cbSsz h) ++ d.drop 32 ++
    List.replicate (padSlots h d.length * cbSlotBytes h - d.length) 0

/-- One effect of a word, in the plan: units go to a buffer with the word that completes them; a witness tile takes whole slots, and
increments WGEN. -/
def Plan.add (p e : Nat) (v : Elem) (i : Inst) (x : Plan) (we : Nat × Eff) : Plan :=
  match we.2 with
  | .store st => { x with stores := x.stores ++ [st] }
  | .fill c n =>
    let h := v.r.cb.getD c 0
    let f := smGet Fill.zero x.fills c
    let n := f.lanes + n
    let ks := (List.range (n / 8)).drop (f.lanes / 8)
    let (f', sts) := ks.foldl (fillUnit p e h (i.units (4 + c))) (f, [])
    { x with stores := x.stores ++ sts, fills := smSet x.fills c { f' with lanes := n } }
  | .witness c d =>
    let h := v.r.cb.getD c 0
    let f := smGet Fill.zero x.fills c
    let n := padSlots h d.length
    let gen := x.wgen + 1
    let wraps := decide (cbNslot h < (cbFill h + f.slots) % 2 ^ 15 % cbNslot h + n)
    { stores := x.stores ++ [tileStore p e (cbSlotAddr h (cbFill h + f.slots)) (witnessTile h gen d)],
      fills := smSet x.fills c { f with slots := f.slots + n }, wgen := gen,
      wrap := if x.wrap.isNone && wraps then some we.1 else x.wrap }
  | _ => x

/-- The plan of an instance's commit. -/
def Inst.plan (p e : Nat) (v : Elem) (i : Inst) : Plan := i.effs.foldl (Plan.add p e v i) ⟨[], [], v.wgen, none⟩

/-- A buffer whose units do not fill whole slots, or take more than NSLOT: the first word that names it (R158). -/
def Plan.uneven (v : Elem) (i : Inst) (x : Plan) : Option Nat :=
  let bad := fun (c : Nat) =>
    let h := v.r.cb.getD c 0
    let f := smGet Fill.zero x.fills c
    f.lanes / 8 % 2 ^ cbSsz h != 0 || decide (cbNslot h < f.slots)
  (i.effs.find? (fun e => match e.2 with
    | .fill c _ => bad c
    | .witness c _ => bad c
    | _ => false)).map (fun e => e.1)

/-! ### Waits (R32) -/

/-- Another instance holds slots of a buffer, or a WAITF or WAITE claim on it (R167). -/
def Elem.bufferHeld (v : Elem) (me c : Nat) : Bool :=
  v.insts.any (fun i => i.id != me && (i.cres.any (fun x => x.1 == c) || (i.clF ++ i.clE).any (fun (x : Nat × Nat) => x.1 == c)))

/-- The tokens that SCLD words insert (R204). -/
def Inst.scaleIn (i : Inst) : List Word := i.effects.flatMap (fun e => match e with | .scaleIn l => l | _ => [])

/-- The instance's commit needs a buffer: its room, its handle, or, for a claim of WAITF or WAITE, that none else moves it. -/
def Inst.needsBuffer (i : Inst) (c : Nat) : Bool :=
  i.fills c || i.wC.any (fun x => x / 2 == c) || (i.clF ++ i.clE).any (fun (x : Nat × Nat) => x.1 == c)

/-- An instance that has performed its irrevocable operation holds what its commit was promised: the room of its ports and buffers, the
handles that it writes, and its room in the SCB (R32, R174). -/
def Inst.conflicts (i j : Inst) : Bool :=
  j.passed && ((List.range 4).any (fun o => i.usesCaps o && j.usesCaps o) ||
    (List.range 8).any (fun c => i.needsBuffer c && j.needsBuffer c) ||
    (!i.scaleIn.isEmpty && !j.scaleIn.isEmpty))

/-- The BTAG of a token (R61). -/
def tokBtag (t : Word) : Nat := (t >>> 8).toNat % 2 ^ 20

/-- Every wait of the commit is met: the instances that a FENCE of its own puts before it have committed (R313), room in output
buffers, circular buffers and the station, the ends of runs and emitters, the handle-write wait, and room in the SCB. -/
def State.commitReady (s : State) (p e : Nat) (i : Inst) : Bool :=
  let v := s.elem p e
  i.after.isEmpty && v.insts.all (fun j => j.id == i.id || !i.conflicts j) &&
  (i.branch.isNone || decide (v.insts.length < 256)) &&
  (List.range 4).all (fun o =>
    let port := v.o.getD o OutPort.reset
    !i.writesPort o || (port.runs.isEmpty && port.emitter.isEmpty &&
      decide (port.buf.length + (i.units o).length ≤ 4))) &&
  (List.range 8).all (fun c =>
    let h := v.r.cb.getD c 0
    let n := (smGet Fill.zero (i.plan p e v).fills c).slots
    n == 0 || decide (cbOcc h + n ≤ cbNslot h)) &&
  i.wC.all (fun x => !v.bufferHeld i.id (x / 2)) &&
  (i.scaleIn.isEmpty || (decide (v.scb.length + i.scaleIn.length ≤ 512) &&
    i.scaleIn.all (fun t => v.scb.all (fun x => x.btag != tokBtag t)) &&
    decide ((i.scaleIn.map tokBtag).dedup.length = i.scaleIn.length)))

/-! ### The capability rule (R240, R245) -/

/-- A summary applied to a time; none where a field would pass its range (R239, R240). -/
def sigma (sum : Nat) (t : DWord) : Option DWord :=
  match sum with
  | 1 => if (tIter t).toNat = 0xFFFF then none else some (mkTime (tOuter t) (tIter t + 1) (tInner t))
  | 2 => if (tInner t).toNat = 0xFFFF then none else some (mkTime (tOuter t) (tIter t) (tInner t + 1))
  | _ => some t

/-- Input queue n flows to the port (R239). -/
def OutPort.dep (o : OutPort) (n : Nat) : Bool := o.psum.getLsbD n
def OutPort.sum (o : OutPort) : Nat := o.psum.toNat / 16

/-- The rule is met for time `u` on a port with capabilities `caps` (R240). -/
def capRule (i : Inst) (o : OutPort) (caps : List (DWord × Nat)) (u : DWord) : Bool :=
  (List.range 4).any (fun n => o.dep n && (i.qres.getD n []).any (fun x => isChange x &&
    (match sigma o.sum (uTime x) with
     | some t => tLe t u
     | none => false))) ||
  caps.any (fun c => tLe c.1 u)

/-- CAPD: take one from a count (R245). -/
def capDrop (caps : List (DWord × Nat)) (t : DWord) : Option (List (DWord × Nat)) :=
  if caps.any (fun c => c.1 == t) then
    some ((caps.map (fun c => if c.1 = t then (c.1, c.2 - 1) else c)).filter (fun c => c.2 != 0))
  else none

/-- CAPH: add one to a count; none for a ninth time or a count past 65,535 (R245). -/
def capAdd (caps : List (DWord × Nat)) (t : DWord) : Option (List (DWord × Nat)) :=
  match caps.find? (fun c => c.1 == t) with
  | some c => if 65535 ≤ c.2 then none else some (caps.map (fun c => if c.1 = t then (c.1, c.2 + 1) else c))
  | none => if 8 ≤ caps.length then none else some (caps ++ [(t, 1)])

/-- The capabilities of o0 to o3, or the time at fault. -/
abbrev CapState := Except DWord (List (List (DWord × Nat)))

/-- A time is emitted or taken on a port. -/
def capCheck (v : Elem) (i : Inst) (o : Nat) (u : DWord) (cs : List (List (DWord × Nat))) : CapState :=
  if capRule i (v.o.getD o OutPort.reset) (cs.getD o []) u then .ok cs else .error u

/-- One effect of a word in the capability check: CAP words, and the change slots of a run; slots that JOIN forwards are
exempt. A CAPX meets the rule by the capability that it gives up, which no earlier CAP word has taken (R240). -/
def capEff (v : Elem) (i : Inst) (cs : List (List (DWord × Nat))) : Eff → CapState
  | .capD o t => match capDrop (cs.getD o []) t with
    | some c => .ok (cs.set o c)
    | none => .error t
  | .capH o t => match capCheck v i o t cs with
    | .error u => .error u
    | .ok cs => match capAdd (cs.getD o []) t with
      | some c => .ok (cs.set o c)
      | none => .error t
  | .capX o t u => match capDrop (cs.getD o []) t with
    | none => .error t
    | some c => match capAdd c u with
      | some c => .ok (cs.set o c)
      | none => .error u
  | .arm o (.units us) => (us.filter (fun u => uKind u == 1)).foldlM (fun cs u => capCheck v i o (uTime u) cs) cs
  | _ => .ok cs

/-- One word of the block in the capability check: its effects, then the change slots among the units it completes. -/
def capWord (v : Elem) (i : Inst) (is : List Instr) (cs : List (List (DWord × Nat))) (w : Nat) : CapState := do
  let cs ← (i.effs.filter (fun e => e.1 == w)).foldlM (fun cs e => capEff v i cs e.2) cs
  let upTo := fun (o n : Nat) => (lanesTo (20 + o) (is.take n) 0).getD 0 / 8
  (List.range 4).foldlM (fun cs o =>
    let us := ((i.units o).take (upTo o (w + 1))).drop (upTo o w)
    (us.filter isChange).foldlM (fun cs u => capCheck v i o (uTime u) cs) cs) cs

/-- The whole check, word by word: the capabilities after, or the word and the time at fault. -/
def capWords (v : Elem) (i : Inst) (is : List Instr) : List Nat → List (List (DWord × Nat)) →
    Except (Nat × DWord) (List (List (DWord × Nat)))
  | [], cs => .ok cs
  | w :: ws, cs => match capWord v i is cs w with
    | .ok cs => capWords v i is ws cs
    | .error u => .error (w, u)

/-- The capability check of an instance at its commit. -/
def capsAt (v : Elem) (i : Inst) : Except (Nat × DWord) (List (List (DWord × Nat))) :=
  match smFind v.blocks i.blk with
  | none => .ok (v.o.map (fun o => o.caps))
  | some b => capWords v i b.instrs (List.range b.words.length) (v.o.map (fun o => o.caps))

/-! ### The irrevocable operation -/

/-- What a commit meets. -/
inductive Step1 where
  | wait (s : State)
  /-- it waits for a full/empty bit, under the timeout of R214 -/
  | waitFe (s : State)
  /-- it has been sent to another module, and waits for the reply -/
  | sent (s : State)
  /-- it waits, and has asked another module for what it needs first -/
  | asked (s : State)
  /-- the word at an index faults; the value of XVAL where it is not the word -/
  | fault (w : Nat) (c : Cause) (sub : Nat) (val : Option DWord)
  | perm (w sub : Nat) (ptr : DWord)
  | ok (s : State) (r : DWord)

/-- An operation waits for a full/empty bit. -/
def OwnOp.feWait : OwnOp → Bool
  | .ldf | .ldfe | .ste _ => true
  | _ => false

/-- The words that an instance's irrevocable operation takes are presented to their banks (R334, R336). -/
def State.presentAll (s : State) (ag : AgentId) (n : Nat) (sides : List Bool) (words : List Nat) : State × Bool :=
  s.presentWords ag (irrId n) sides words

/-- An atomic of an instance has been sent to another module: until its reply it stands in the element's program order, where an
acquire holds the element's later accesses and a FENCE of another instance waits for it (R312, R313). -/
def State.enterAtomic (s : State) (p e n : Nat) (acc : Access) : State :=
  let op := match acc.op with
    | .owner op _ => AccOp.owner op (.irr p e n)
    | x => x
  { s with ord := { s.ord with accs := s.ord.accs ++ [{ acc with id := s.ord.nextId, grp := s.ord.nextId, op := op }],
                               nextId := s.ord.nextId + 1 } }

/-- Its reply has come. -/
def State.leaveAtomic (s : State) (p e n : Nat) : State :=
  { s with ord := { s.ord with accs := s.ord.accs.filter (fun x => match x.op with
    | .owner _ (.irr q f m) => !(q == p && f == e && m == n)
    | _ => true) } }

/-- Perform the instance's irrevocable operation, if it holds one that has not been performed (R32). An owner step in a vault of this
module is made when its banks serve its words (R336). -/
def State.irrevocable (s : State) (p e : Nat) (i : Inst) : Step1 :=
  match i.irr with
  | .none => .ok s 0
  | .done _ r => .ok s r
  | .held (.owner pl sc acq rel (.atomic k wide x y) _ ptr) w =>
    let acc : Access := ⟨s.ord.nextId, .elem p e, sc, pl, .owner (.atomic k wide x y) .none, acq, rel, false, ptr, 0, s.ord.nextId, none⟩
    if i.sent || (s.ownerReady acc [pl.addr / 8] && s.unclaimed (.elem p e) [pl.addr / 8]) then
      let (s, ok) := if i.sent then (s, true) else s.presentAll (.elem p e) i.id [false, true] [pl.addr / 8]
      if !ok then .asked s
      else match s.atomVia (.elem p e) (some i.id) k wide pl x y sc acq rel ptr with
      | .got bs s => .ok (s.leaveAtomic p e i.id) (answer bs)
      | .wait s out => if i.sent then .sent s else if out then .sent (s.enterAtomic p e i.id acc) else .wait s
      | .fault .perm sub _ => .perm w sub ptr
      | .fault c sub _ => .fault w c sub (some ptr)
    else .wait (s.unpresent (.elem p e) (irrId i.id 0) (pl.addr / 8))
  | .held (.owner pl sc acq rel op _ ptr) w =>
    let ws := op.words pl
    let (t, ok) := match s.tryOwner (.elem p e) (s.partOf p) pl sc acq rel op ptr with
      | .ok _ _ => s.presentAll (.elem p e) i.id [false, true] ws
      | _ => (ws.zipIdx.foldl (fun s w => s.unpresent (.elem p e) (irrId i.id w.2) w.1) s, true)
    if !ok then .asked t
    else match t.tryOwner (.elem p e) (s.partOf p) pl sc acq rel op ptr with
    | .wait => if op.feWait then .waitFe t else .wait t
    | .fault .perm sub _ => .perm w sub ptr
    | .fault c sub v => .fault w c sub v
    | .ok s r => .ok s r
  | .held (.engine k sc _ ptr) w =>
    let ws := match s.spans p e ptr 0 64 (blockBytes k) with
      | .ok l => l.flatMap (fun x => wordsAt x.1.addr x.2)
      | _ => []
    let (t, ok) := match s.acceptEngine p e k sc ptr with
      | .ok _ => s.presentAll (.elem p e) i.id [false] ws
      | _ => (ws.zipIdx.foldl (fun s w => s.unpresent (.elem p e) (irrId i.id w.2) w.1) s, true)
    if !ok then .asked t
    else match t.acceptEngine p e k sc ptr with
    | .wait => .wait t
    | .asked s => .asked s
    | .fault .perm sub v => .perm w sub v
    | .fault c sub v => .fault w c sub (some v)
    | .ok s => .ok s 0

/-- The stores of ACCST words with b = 1, whose words have been found empty: each writes its tile and sets the words full in backing
memory, in the step of the test, or, after an irrevocable operation, in that of the commit (R193; log 74). -/
def State.accsts (s : State) (p e : Nat) : List (Nat × Eff) → State
  | [] => s
  | (_, .accst va data) :: r =>
    let ws := vaultWords p e va data.length
    (((s.flushWords ws).ownWrite (vaultAddr p e va) data).ownMark ws true).accsts p e r
  | _ :: r => s.accsts p e r

/-- The words that the instance's ACCST words with b = 1 write. -/
def Inst.accstWords (p e : Nat) (i : Inst) : List Nat :=
  i.effects.flatMap (fun x => match x with
    | .accst va data => vaultWords p e va data.length
    | _ => [])

/-! ### Effects -/

/-- Put values of some registers from an instance's view into the committed list. -/
def takeRegs {α : Type} (old new : List α) (d : α) (ns : List Nat) : List α := ns.foldl (fun l n => l.set n (new.getD n d)) old

/-- Write a result into the s registers that take it, low word first; 16 takes nothing. -/
def setResult (s : List Word) (ds : List Nat) (r : DWord) : List Word :=
  let s := if ds.getD 0 16 < 16 then s.set (ds.getD 0 16) (r.setWidth 32) else s
  if ds.getD 1 16 < 16 then s.set (ds.getD 1 16) ((r >>> 32).setWidth 32) else s

/-- The registers after the commit of an instance (R32, R33, R52): handles apart. -/
def commitRegs (r : Regs) (i : Inst) (irr : DWord) : Regs :=
  let s := takeRegs r.s i.r.s 0 i.wS
  let ds := match i.irr with
    | .held x _ => x.dests
    | .done x _ => x.dests
    | .none => []
  { r with s := setResult s ds irr, w := takeRegs r.w i.r.w 0 i.wW, m := takeRegs r.m i.r.m 0 i.wM,
           acc := takeRegs r.acc i.r.acc [] i.wA, fuse := if i.wFuse then i.r.fuse else r.fuse,
           dz := (r.dz && !i.dzClr) || i.dzSet }

/-- A unit enters an output buffer: it stands at its own time, or, a DATA slot, at MARKT, which a MARK slot sets (R238, R239,
R271). -/
def OutPort.emit (o : OutPort) (u : Slot) : OutPort :=
  { o with buf := o.buf ++ [⟨u, if isChange u then uTime u else o.markt, none⟩],
           markt := if uKind u = 3 then uTime u else o.markt }

/-- Set 32 bits of a handle. -/
def State.setHandleHalf (s : State) (p e : Nat) (i : Inst) (x : Nat) : State :=
  let v := s.elem p e
  let h := v.r.cb.getD (x / 2) 0
  let new := i.r.cb.getD (x / 2) 0
  s.setElem p e { v with r := { v.r with cb := v.r.cb.set (x / 2) (handleHalf h (x % 2 == 1) new) } }

/-- Change an output port of an element. -/
def Elem.modPort (v : Elem) (o : Nat) (f : OutPort → OutPort) : Elem :=
  { v with o := v.o.set o (f (v.o.getD o OutPort.reset)) }

/-- A value for an s register at commit. -/
def Elem.setS (v : Elem) (d : Nat) (x : Word) : Elem := if d < 16 then { v with r := { v.r with s := v.r.s.set d x } } else v

/-- A scale token as the SCB holds it. -/
def scbNew (t : Word) : ScbEntry := ⟨t, none⟩

/-- One effect of the commit, in block-word order. The stores, the fills and the counters that SPWR sets are the plan's and
`Elem.counters`' work, before these; a counter is set before it counts (R32, R167). R197 limits the units of one word: those of
several words to one port all stand in its emitter, past the 512 that R185 gives it (DESIGN CHOICE, log 73). -/
def State.commitEff (s : State) (p e : Nat) : Eff → State
  | .store _ | .fill _ _ | .accst _ _ | .witness _ _ | .zset _ | .bset _ | .capH _ _ | .capD _ _ | .capX _ _ _ => s
  | .arm o r => if r.none then s else s.modElem p e (fun v => v.modPort o (fun x => { x with runs := x.runs ++ [r] }))
  | .emitter o us => s.modElem p e (fun v => v.modPort o (fun x => { x with emitter := x.emitter ++ us }))
  | .scaleIn l => s.modElem p e (fun v => { v with scb := v.scb ++ l.map scbNew })
  | .scaleOut l => s.modElem p e (fun v => { v with scOut := v.scOut ++ l })
  | .thaw d k =>
    let (ok, s) := s.thawPort p k
    s.modElem p e (fun v => v.setS d (if ok then 0 else 1))
  | .bubl d k m =>
    let (n, s) := s.bublPort p k m
    s.modElem p e (fun v => v.setS d (BitVec.ofNat 32 n))
  | .zskip n => s.modElem p e (fun v => { v with zskip := v.zskip + n })
  | .bconf n => s.modElem p e (fun v => { v with bconf := v.bconf + n })

/-- The counters that SPWR sets (R167). -/
def Elem.counters (v : Elem) : List Eff → Elem
  | [] => v
  | .zset n :: r => { v with zskip := n }.counters r
  | .bset n :: r => { v with bconf := n }.counters r
  | _ :: r => v.counters r

/-- The claims of WAITF and WAITE advance FILLP and TAKEP (R171). -/
def claimAdvance (cb : List DWord) (i : Inst) : List DWord :=
  let cb := i.clF.foldl (fun l x => l.set x.1 (cbMove (l.getD x.1 0) 0 x.2)) cb
  i.clE.foldl (fun l x => l.set x.1 (cbMove (l.getD x.1 0) x.2 0)) cb

/-- FILLP of each buffer advances by the slots that a commit has written (R158, R267). -/
def Plan.advance (x : Plan) (cb : List DWord) : List DWord :=
  x.fills.foldl (fun l f => l.set f.1 (cbMove (l.getD f.1 0) 0 f.2.slots)) cb

/-- Every effect of an instance takes place at once (R32): its irrevocable operation has answered `irr`, and `caps` are the
capabilities after it. The emptyings of its reserved slots enter before the stores of its words, which have block-word order (DESIGN
CHOICE, log 66). Where the instance writes a buffer's handle and also fills, empties or claims the buffer, its stores lie where the old
handle puts them, FILLP and TAKEP move on, and the halves that it writes come last (DESIGN CHOICE, log 73). -/
def State.applyCommit (s : State) (p e : Nat) (i : Inst) (irr : DWord) (caps : List (List (DWord × Nat))) : State :=
  let v := s.elem p e
  let plan := i.plan p e v
  let v := { v with r := commitRegs v.r i irr, insts := v.insts.filter (fun x => x.id != i.id),
                    scb := v.scb.filter (fun x => x.owner != some i.id), wgen := plan.wgen }
  let s := (((s.setElem p e ((v.counters i.effects).forget i.id)).moved p e).removeSlots p e i).issueStores (.elem p e) plan.stores
  let s := s.modElem p e (fun v => { v with r := { v.r with cb := plan.advance (claimAdvance v.r.cb i) } })
  let s := i.wC.foldl (fun s x => s.setHandleHalf p e i x) s
  let s := s.modElem p e (fun v => { v with o := ((List.range 4).zip v.o).map (fun (o, x) =>
    (i.units o).foldl OutPort.emit { x with caps := caps.getD o [] }) })
  let s := i.effects.foldl (fun s x => s.commitEff p e x) s
  let s := match i.branch with
    | some (b, t) => s.modElem p e (fun v => v.arm b t)
    | none => s
  if i.halt then s.modElem p e (fun v => { v with halted := true }) else s

/-! ### The commit -/

/-- The value of XVAL of a fault at commit: the word, where nothing else is named (R101). -/
def Elem.wordAt (v : Elem) (i : Inst) (w : Nat) : DWord :=
  match smFind v.blocks i.blk with
  | some b => (b.words.getD w 0).setWidth 64
  | none => 0

/-- An instance faults at its commit, at the word with an index (R36). -/
def State.commitFault (s : State) (p e : Nat) (i : Inst) (w : Nat) (c : Cause) (sub : Nat) (val : Option DWord) : State :=
  s.elemFault p e { i with pc := w } c sub (val.getD ((s.elem p e).wordAt i w))

/-- An instance waits at its commit; a full/empty wait notes when it began. -/
def State.commitWait (s : State) (p e : Nat) (i : Inst) : State :=
  if s.still p e then s else s.putInst p e { i with since := some (i.since.getD s.clock.ns) }

/-- The checks of a commit that can fault, before the irrevocable operation: the capabilities after it, or the state with
the fault. -/
def State.commitCheck (s : State) (p e : Nat) (i : Inst) : Except State (List (List (DWord × Nat))) :=
  let v := s.elem p e
  match capsAt v i with
  | .error (w, u) => .error (s.commitFault p e i w .illop 2 (some u))
  | .ok caps =>
    let plan := i.plan p e v
    match plan.uneven v i, plan.wrap with
    | some w, _ => .error (s.commitFault p e i w .illop 2 none)
    | none, some w => .error (s.commitFault p e i w .illop 2 none)
    | none, none => .ok caps

/-- What performing the irrevocable operation leads to. An instance that waits keeps the words that it has claimed (R32, R193); what it
has been refused at another module is forgotten with its fault, so that a retry asks again. -/
def State.onStep (s : State) (p e : Nat) (i : Inst) (x : Step1) (f : State → DWord → State) : State :=
  let hold := fun (s : State) => if i.acl.isEmpty then s else s.putInst p e i
  match x with
  | .wait s => hold s
  | .waitFe s => s.commitWait p e i
  | .sent s => s.putInst p e { i with sent := true }
  | .asked s => hold s
  | .fault w c sub v => (s.dropRefusals p e).commitFault p e i w c sub v
  | .perm w sub ptr => (s.dropRefusals p e).elemFreeze p e { i with pc := w } sub ptr
  | .ok s r => f s r

/-- All 64 elements of a patch hold an arrived participant of the rotation: its RROT word has issued and its other words have
completed (R174). -/
def State.arrived (s : State) (p : Nat) : Bool :=
  (s.patch p).rotating

/-- The participant of an element (R174). -/
def State.participant (s : State) (p e : Nat) : Option Inst := (s.elem p e).participant

/-- The participants of a patch's rotation, by element. -/
def State.participants (s : State) (p : Nat) : List (Nat × Inst) :=
  (List.range 64).filterMap (fun e => (s.participant p e).map (fun i => (e, i)))

/-- The participants disagree on the length or the direction. -/
def rotDisagree (l : List (Nat × Inst)) : Bool :=
  l.any (fun x => l.any (fun y => x.2.rot.map (fun r => (r.len, r.dir)) != y.2.rot.map (fun r => (r.len, r.dir))))

/-- Words that ACCST words with b = 1 are to write are not all empty, or another agent claims one (R193). -/
def State.accstHeld (s : State) (p e : Nat) (ws : List Nat) : Bool :=
  let x : Access := ⟨s.ord.nextId, .elem p e, .elem, vaultPlace p e 0, .owner .ldf .none, false, false, false, 0, 0, s.ord.nextId, none⟩
  !ws.isEmpty && (!s.ownerReady x ws || !s.allMarked ws false || !s.unclaimed (.elem p e) ws)

/-- The instance claims the words that its ACCST words with b = 1 will write; its wait for them has ended (R193, R214). -/
def Inst.claim (i : Inst) (ws : List Nat) : Inst :=
  if ws.isEmpty || !i.acl.isEmpty then i else { i with acl := ws, since := none, waited := 0 }

/-- A participant of a rotation performs its irrevocable operation once all 64 have arrived and its waits are met; its
ACCST words claim what they will write (R32, R174, R193). -/
def State.rotationPerform (s : State) (p e : Nat) (i : Inst) : State :=
  match i.irr with
  | .held x w =>
    let ws := i.accstWords p e
    let j := i.claim ws
    let go := fun (s : State) => s.onStep p e j (s.irrevocable p e { j with irr := .held x w }) (fun s r =>
      s.putInst p e { j with irr := .done x r, since := none, waited := 0 })
    if i.sent then go s
    else if !s.arrived p || (s.participant p e).map (fun j => j.id) != some i.id ||
        rotDisagree (s.participants p) || !s.commitReady p e i then s
    else if i.acl.isEmpty && s.accstHeld p e ws then s.commitWait p e i
    else match s.commitCheck p e i with
      | .error s => s
      | .ok _ => go s
  | _ => s

/-- An instance whose irrevocable operation is at another module commits with the reply; its ACCST words are claimed for it, and store
then (R32, R193). -/
def State.afterReply (s : State) (p e : Nat) (i : Inst) : State :=
  s.onStep p e i (s.irrevocable p e i) (fun s r => match capsAt (s.elem p e) i with
    | .ok caps => (s.accsts p e i.effs).applyCommit p e i r caps
    | .error _ => s.putInst p e { i with irr := match i.irr with
        | .held x _ => .done x r
        | y => y })

/-- INSTANCE_COMMIT: instance `n`, whose words have all completed, commits once its waits are met (R32). A participant of
a rotation performs its irrevocable operation here, and commits with the rotation (R174). -/
def execInstanceCommit (p e n : Nat) (s : State) : Res :=
  let v := s.elem p e
  match v.inst n with
  | none => .next s
  | some i =>
    if !v.wordsDone i || (s.still p e && !i.passed && !(i.rot.isSome && s.arrived p)) then .next s
    else if i.rot.isSome then .next (s.rotationPerform p e i)
    else if i.sent then .next (s.afterReply p e i)
    else if !s.commitReady p e i then .next s
    else match s.commitCheck p e i with
      | .error s => .next s
      | .ok caps =>
        let ws := i.accstWords p e
        if i.acl.isEmpty && s.accstHeld p e ws then .next (s.commitWait p e i)
        else
          let i := i.claim ws
          .next (s.onStep p e i (s.irrevocable p e i) (fun s r => (s.accsts p e i.effs).applyCommit p e i r caps))

/-! ### The rotation (R174, R175) -/

/-- The word of an instance that is its RROT. -/
def Elem.rotWord (v : Elem) (i : Inst) : Nat :=
  match smFind v.blocks i.blk with
  | some b => b.instrs.findIdx (fun x => match x with | .rrot _ _ _ _ => true | _ => false)
  | none => 0

/-- Words of a region of a vault are flushed to backing memory, as the rotation finds every earlier store performed. -/
def State.flushRegion (s : State) (p e va n : Nat) : State := s.ownFlush (vaultAddr p e va) n

/-- No store of the participating elements to their regions still waits to be placed. -/
def State.regionsQuiet (s : State) (p : Nat) (l : List (Nat × Inst)) : Bool :=
  l.all (fun x => match x.2.rot with
    | some r => s.ord.accs.all (fun y => !(y.agent == .elem p x.1 && (match y.op with
        | .store _ => y.words.any (fun w => decide (vaultAddr p x.1 r.addr / 8 ≤ w) &&
            decide (w < (vaultAddr p x.1 r.addr + r.len) / 8))
        | _ => false)))
    | none => true)

/-- The data and the full/empty bits of a region. -/
def State.region (s : State) (a n : Nat) : List Byte × List Bool :=
  (s.mem.read a n, (List.range (n / 8)).map (fun k => s.mem.isFull (a + 8 * k)))

/-- The store that a rotation makes to an element's region: an entry of the element at `.patch` with the region's bytes and
full/empty marks. It reaches backing memory within the rotation's step, since every agent then sees the whole rotation (R174,
R304). -/
def State.putRegion (s : State) (p e a : Nat) (x : List Byte × List Bool) : State :=
  let bytes := ((List.range x.1.length).map (a + ·)).zip x.1
  let marks := ((List.range x.2.length).zip x.2).map (fun y => (a / 8 + y.1, y.2))
  let en : VisEntry := ⟨s.ord.nextId, .elem p e, .patch, .rc, s.ord.nextAge, bytes, agedMarks s.ord.nextAge marks, [(.elem p e, s.ord.nextId)], BitVec.ofNat 64 (a % 0x80000), a⟩
  { s with ord := { s.ord with
      nextId := s.ord.nextId + 1, nextAge := s.ord.nextAge + 1,
      seen := noteSeen s.ord.seen (.elem p e) s.ord.nextAge (bytes.map (fun (b : Nat × Byte) => b.1)) } }.settleEntry en

/-- Move the regions, every one taken from its source as it was before (R174). -/
def State.rotateData (s : State) (p : Nat) (l : List (Nat × Inst)) : State :=
  let s := l.foldl (fun s x => match x.2.rot with
    | some r => s.flushRegion p x.1 r.addr r.len
    | none => s) s
  let src := l.map (fun x => match x.2.rot with
    | some r =>
      let a := ((l.find? (fun (y : Nat × Inst) => y.1 == r.dst)).bind (fun (y : Nat × Inst) => y.2.rot)).map (fun (y : Rot) => y.addr)
      (x.1, vaultAddr p x.1 r.addr, s.region (vaultAddr p r.dst (a.getD 0)) r.len)
    | none => (x.1, 0, ([], [])))
  src.foldl (fun s x => s.putRegion p x.1 x.2.1 x.2.2) s

/-- Commit one participant; its ACCST words have stored. -/
def State.commitRot (s : State) (p e : Nat) (i : Inst) : State :=
  match capsAt (s.elem p e) i with
  | .error _ => s
  | .ok caps =>
    let r := match i.irr with
      | .done _ r => r
      | _ => 0
    (s.applyCommit p e i r caps).modElem p e (fun v => { v with rrots := v.rrots + 1 })

/-- An ACCST word of a participant must still wait for its words, which it has not claimed (R193). -/
def State.accstsHeld (s : State) (p : Nat) (l : List (Nat × Inst)) : Bool :=
  l.any (fun x => x.2.acl.isEmpty && s.accstHeld p x.1 (x.2.accstWords p x.1))

/-- The ACCST words of the participants store. -/
def State.accstsAll (s : State) (p : Nat) (l : List (Nat × Inst)) : State := l.foldl (fun s x => s.accsts p x.1 x.2.effs) s

/-- RROT_ROTATE: all 64 participants have arrived and performed their irrevocable operations; the data moves and all commit
in one step. Where they disagree on length or direction, every one faults (R174, R175). -/
def execRrotRotate (p : Nat) (s : State) : Res :=
  if !s.arrived p || (!(s.patch p).running) then .next s
  else
    let l := s.participants p
    if rotDisagree l then
      .next (l.foldl (fun s x => s.commitFault p x.1 x.2 ((s.elem p x.1).rotWord x.2) .illop 2 none) s)
    else
      let ready := l.all (fun x => (match x.2.irr with | .held _ _ => false | _ => true) &&
        (x.2.passed || s.commitReady p x.1 x.2))
      if !ready || !s.regionsQuiet p l || s.accstsHeld p l then .next s
      else match l.findSome? (fun x => match s.commitCheck p x.1 x.2 with | .error s => some s | .ok _ => none) with
        | some s => .next s
        | none => .next (l.foldl (fun s x => s.commitRot p x.1 x.2) ((s.accstsAll p l).rotateData p l))

end Sys2Proof.Machine
end

