-- ==== Sys2Proof/Machine/Router.lean ====
section
/-! DEFINITION. Switch words, the on-die router, generators, emitters and scale tokens (R98 to R100, R176, R177, R197, R203,
R283, R455, R456). -/

namespace Sys2Proof.Machine

/-! ### Switch words (R98, R99): each sets up its router once; the list that a load has read holds them all -/

/-- Change the router of the element whose turn it is. -/
def onRouter (f : Router → Router) (s : State) : Res :=
  .next (s.modElem s.cur.patch s.cur.el (fun v => { v with router := f v.router }))

/-- Put something into a list that does not hold it. -/
def putNew {α : Type} [DecidableEq α] (x : α) (l : List α) : List α := if l.contains x then l else l ++ [x]

/-- A CIRC word binds an output to an input and channel in all 256 slots. -/
def Router.circ (r : Router) (i v o : Nat) : Router := { r with binds := putNew ⟨i, v, o, 0, 255⟩ r.binds }

/-- A SLOT word binds them in a run of slots. -/
def Router.slot (r : Router) (i v o first run : Nat) : Router := { r with binds := putNew ⟨i, v, o, first, first + run⟩ r.binds }

/-- NOP of a switch list: none. -/
def execNop (s : State) : Res := .next s

/-- CIRC (R98). -/
def execCirc (i o : BitVec 3) (v : BitVec 4) (s : State) : Res := onRouter (fun r => r.circ i.toNat v.toNat o.toNat) s

/-- SLOT with its extension word; `run` is the run length minus 1 (R98, R99). -/
def execSlot (i o : BitVec 3) (v : BitVec 4) (first run : BitVec 8) (s : State) : Res :=
  onRouter (fun r => r.slot i.toNat v.toNat o.toNat first.toNat run.toNat) s

/-- BEST: the default output for unscheduled traffic of an input (R98). -/
def execBest (i o : BitVec 3) (s : State) : Res :=
  onRouter (fun r => { r with best := putNew (i.toNat, o.toNat) r.best }) s

/-- WIDTH: the width code of the link that leaves through an output (R98). -/
def execWidth (o : BitVec 3) (w : BitVec 2) (s : State) : Res :=
  onRouter (fun r => { r with width := putNew (o.toNat, w.toNat) r.width }) s

/-- SCALE: routes scale tokens from an input to an output (R98). -/
def execScale (i o : BitVec 3) (s : State) : Res :=
  onRouter (fun r => { r with scale := putNew (i.toNat, o.toNat) r.scale }) s

/-- END: the end of the list. -/
def execEndList (s : State) : Res := .next s

/-! ### The grid of a load (R2, R107, R378) -/

/-- The patch and element of a load at load element coordinates. -/
def Load.at_ (l : Load) (x y : Nat) : Option (Nat × Nat) :=
  if x < 8 * l.img.pw ∧ y < 8 * l.img.ph then some (l.patches.getD (y / 8 * l.img.pw + x / 8) 0, y % 8 * 8 + x % 8) else none

/-- The load element coordinates of an element of a patch. -/
def State.coords (s : State) (l : Load) (p e : Nat) : Nat × Nat :=
  let w := Nat.max 1 l.img.pw
  (s.lpOf p % w * 8 + e % 8, s.lpOf p / w * 8 + e / 8)

/-- Where output `o` of a router leads: a patch, an element, and the input there. -/
def State.beyond (s : State) (p e o : Nat) : Option (Nat × Nat × Nat) :=
  match s.loadOf p with
  | none => none
  | some l =>
    let (x, y) := s.coords l p e
    let go := fun (i : Nat) (c : Option (Nat × Nat)) => c.map (fun (d : Nat × Nat) => (d.1, d.2, i))
    match o with
    | 0 => if y = 0 then none else go 2 (l.at_ x (y - 1))
    | 1 => go 3 (l.at_ (x + 1) y)
    | 2 => go 0 (l.at_ x (y + 1))
    | 3 => if x = 0 then none else go 1 (l.at_ (x - 1) y)
    | _ => none

/-! ### Units on their way (R455, R456) -/

/-- The schedule slot, counted from device reset; the schedule repeats every 256. -/
def Clock.slot (c : Clock) : Nat := c.n / 8

/-- The units that wait at a router input on a channel: those of on, for input Local and channel n. -/
def Elem.waiting (v : Elem) (i c : Nat) : List QUnit :=
  if i = 4 then (if c < 4 then (v.o.getD c OutPort.reset).buf else [])
  else ((v.rin.find? (fun x => x.1 == (i, c))).map (fun x => x.2)).getD []

/-- A list of units by input and channel with one entry changed. -/
def setRin (i c : Nat) (us : List QUnit) : List ((Nat × Nat) × List QUnit) → List ((Nat × Nat) × List QUnit)
  | [] => if us.isEmpty then [] else [((i, c), us)]
  | x :: r => if x.1 = (i, c) then (if us.isEmpty then r else ((i, c), us) :: r) else x :: setRin i c us r

/-- Replace the units that wait at an input and channel. -/
def Elem.setWaiting (v : Elem) (i c : Nat) (us : List QUnit) : Elem :=
  if i = 4 then v.modPort c (fun o => { o with buf := us }) else { v with rin := setRin i c us v.rin }

/-- The bindings of a channel of an input that hold in a schedule slot. -/
def Router.boundTo (r : Router) (slot i c : Nat) : List Nat :=
  ((r.binds.filter (fun b => b.i == i && b.v == c && decide (b.lo ≤ slot) && decide (slot ≤ b.hi))).map (fun b => b.o)).dedup

/-- Units of a channel of an input are unscheduled: it is bound in no slot (R456). -/
def Router.unscheduled (r : Router) (i c : Nat) : Bool := !r.binds.any (fun b => b.i == i && b.v == c)

/-- The BEST output of an input. -/
def Router.bestOf (r : Router) (i : Nat) : Option Nat := (r.best.find? (fun b => b.1 == i)).map (fun b => b.2)

/-- A stream port has captured an output port of an element: a DIR 1 binding of it is in effect, and its slots go to the stream port
(R138). -/
def Patch.captured (x : Patch) (e o : Nat) : Bool :=
  x.ports.any (fun k => match k.2.bound with
    | some d => d.toMem && d.el == e && d.qp == o
    | none => false)

/-- A binding claims an output in a slot, and its input has a unit ready; `cap` says which output ports a stream has captured. -/
def Elem.claimed (v : Elem) (cap : Nat → Bool) (slot o : Nat) : Bool :=
  v.router.binds.any (fun b => b.o == o && decide (b.lo ≤ slot) && decide (slot ≤ b.hi) && !(v.waiting b.i b.v).isEmpty &&
    !(b.i == 4 && cap b.v))

/-- An output can take a unit of a channel: Local into qv while it has fewer than 16 slots; a link at the start of a slot
that it has not used, while the input beyond has room. -/
def State.canLeave (s : State) (p e o c : Nat) : Bool :=
  let v := s.elem p e
  if o = 4 then decide (c < 4) && decide ((v.q.getD c []).length < 16)
  else match s.beyond p e o with
    | none => false
    | some (p', e', i) =>
      s.clock.n % 8 == 0 && smFind v.sent o != some s.clock.slot &&
      decide (((s.elem p' e').waiting i c).length ≤ Config.routerRoom)

/-- A unit leaves by an output. -/
def State.leave (s : State) (p e o c : Nat) (u : QUnit) : State :=
  if o = 4 then s.modElem p e (fun v => v.enqueue c u.u u.time)
  else match s.beyond p e o with
    | none => s
    | some (p', e', i) =>
      let s := s.modElem p e (fun v => { v with sent := smSet v.sent o s.clock.slot })
      s.modElem p' e' (fun v => v.setWaiting i c (v.waiting i c ++ [{ u with owner := none }]))

/-- An input has an unscheduled unit that output `o` can take. -/
def State.asks (s : State) (p e o j : Nat) : Bool :=
  let v := s.elem p e
  v.router.bestOf j == some o && (List.range 16).any (fun c =>
    v.router.unscheduled j c && !(v.waiting j c).isEmpty && !(j == 4 && (s.patch p).captured e c) && s.canLeave p e o c)

/-- Input `i` is the next to be served among those that wait for output `o`: the first after the one served last (R456); before any has
been, input 0 comes first (DESIGN CHOICE, log 68). -/
def State.nextIn (s : State) (p e o i : Nat) : Bool :=
  let last := smGet 4 (s.elem p e).robin o
  let far := fun (j : Nat) => (j + 4 - last) % 5
  (List.range 5).all (fun j => !s.asks p e o j || decide (far i ≤ far j))

/-- ROUTER_FORWARD: the oldest unit at input `i` of an element's router on channel `c` leaves, by every output to which it
is bound in the current slot, or, bound in no slot, by the input's BEST output where no binding claims the slot and it is the input's
turn (R455, R456). Where it must wait, the step has no effect; the slots of a port that a stream has captured go to the stream
(R138). -/
def execRouterForward (p e i c : Nat) (s : State) : Res :=
  let v := s.elem p e
  let x := s.patch p
  match v.waiting i c with
  | [] => .next s
  | u :: rest =>
    if x.frozen || !x.running || (i == 4 && x.captured e c) then .next s
    else
      let slot := s.clock.slot % 256
      let free := v.router.unscheduled i c
      let outs := if free then ((v.router.bestOf i).filter (fun o => !v.claimed (x.captured e) slot o && s.nextIn p e o i)).toList
        else v.router.boundTo slot i c
      if outs.isEmpty || !outs.all (fun o => s.canLeave p e o c) then .next s
      else .next (outs.foldl (fun s o => s.leave p e o c u) (s.modElem p e (fun v =>
        { v.setWaiting i c rest with robin := if free then outs.foldl (fun l o => smSet l o i) v.robin else v.robin })))

/-! ### Generators and emitters (R176, R177, R197) -/

/-- The slot of index `i` of a generator run (R176). -/
def genSlot (i n v : Word) (tag : BitVec 12) (byIndex : Bool) : Slot :=
  ofLanes [i, n, v, 0, 0, 0, 0,
    header 0 (if byIndex then tag + i.setWidth 12 else tag) (if i + 1 = n then 1 else 0)]

/-- The next slot of a run, and what is left of it. -/
def Run.next : Run → Option (Slot × Option Run)
  | .gen i n v tag b =>
    if i.toNat < n.toNat then some (genSlot i n v tag b, if i + 1 = n then Option.none else some (.gen (i + 1) n v tag b)) else Option.none
  | .units (u :: us) => some (u, if us.isEmpty then Option.none else some (.units us))
  | .units [] => Option.none

/-- The port's first run emits its next slot. -/
def OutPort.generate (o : OutPort) : OutPort :=
  match o.runs with
  | [] => o
  | r :: rs => match r.next with
    | none => { o with runs := rs }
    | some (u, left) => { o.emit u with runs := left.toList ++ rs }

/-- GENERATOR_EMIT: the generator of port `o` emits its next slot while the output buffer has room (R176, R260). -/
def execGeneratorEmit (p e o : Nat) (s : State) : Res :=
  let v := s.elem p e
  if s.still p e || 4 ≤ o || decide (4 ≤ (v.o.getD o OutPort.reset).buf.length) then .next s
  else .next (s.modElem p e (fun v => v.modPort o OutPort.generate))

/-- EMITTER_SEND: the emitter of port `o` sends its next unit while the output buffer has room, once the generator runs that were armed
with it have ended (R197). -/
def execEmitterSend (p e o : Nat) (s : State) : Res :=
  let v := s.elem p e
  let x := v.o.getD o OutPort.reset
  if s.still p e || 4 ≤ o || decide (4 ≤ x.buf.length) || !x.runs.isEmpty then .next s
  else match x.emitter with
    | [] => .next s
    | u :: us => .next (s.modElem p e (fun v => v.modPort o (fun x => { x.emit u with emitter := us })))

/-! ### Scale tokens (R61, R203, R204) -/

/-- No chain of bindings of a load is longer: 640 patches of 64 routers with 5 inputs each, and no input is passed twice on a channel
(R100). -/
def maxChain : Nat := 2 ^ 18

/-- The local scale endpoints that tokens reach from a router's input, through SCALE words; `fuel` bounds the chain. -/
def State.scaleEnds (s : State) : Nat → Nat → Nat → Nat → List (Nat × Nat)
  | 0, _, _, _ => []
  | fuel + 1, p, e, i =>
    ((s.elem p e).router.scale.filter (fun x => x.1 == i)).flatMap (fun x =>
      if x.2 = 7 then [(p, e)]
      else match s.beyond p e x.2 with
        | some (p', e', i') => s.scaleEnds fuel p' e' i'
        | none => [])

/-- The endpoints that an element's own tokens reach. -/
def State.scaleFrom (s : State) (p e : Nat) : List (Nat × Nat) := s.scaleEnds maxChain p e 7

/-- The elements of the load that have a token on its way to an endpoint. -/
def State.scaleSources (s : State) (p e : Nat) : List (Nat × Nat) :=
  ((s.loadOf p).map (fun l => l.patches)).getD [] |>.flatMap (fun q =>
    ((s.patch q).elems.filter (fun x => !x.2.scOut.isEmpty && (s.scaleFrom q x.1).contains (p, e))).map (fun x => (q, x.1)))

/-- The port of every endpoint that a source's tokens reach is free; a held one holds the source back (R203). -/
def State.scaleClear (s : State) (q f : Nat) : Bool := (s.scaleFrom q f).all (fun x => (s.elem x.1 x.2).scIn.isEmpty)

/-- The next token for an endpoint, of some source that nothing holds back, stands at the port of every endpoint it reaches. -/
def State.scaleSend (s : State) (p e : Nat) : State :=
  let l := (s.scaleSources p e).filter (fun x => s.scaleClear x.1 x.2)
  match l[(Config.freeWord s.free).toNat % Nat.max 1 l.length]? with
  | none => s
  | some (q, f) =>
    match (s.elem q f).scOut with
    | [] => s
    | t :: rest =>
      let ends := s.scaleFrom q f
      let s := { s with free := s.free + 1 }.modElem q f (fun v => { v with scOut := rest })
      ends.foldl (fun s x => s.modElem x.1 x.2 (fun v => { v with scIn := v.scIn ++ [t] })) s

/-- The token at an element's scale endpoint enters the SCB, if no entry has its BTAG and there is room (R203). -/
def Elem.scaleTake (v : Elem) : Elem :=
  match v.scIn with
  | [] => v
  | t :: rest =>
    if 512 ≤ v.scb.length || v.scb.any (fun x => x.btag == tokBtag t) then v
    else { v with scIn := rest, scb := v.scb ++ [scbNew t] }

/-- SCALE_TOKEN_ARRIVE: a token reaches the local scale endpoint of an element; it enters the SCB, or waits at the port
(R203). -/
def execScaleTokenArrive (p e : Nat) (s : State) : Res :=
  if s.still p e then .next s
  else
    let s := if (s.elem p e).scIn.isEmpty then s.scaleSend p e else s
    .next (s.modElem p e Elem.scaleTake)

end Sys2Proof.Machine
end

