-- ==== Sys2Proof/Machine/Steps.lean ====
section
/-! DEFINITION. The steps of the ordering machine as operations of the table: Buffer, Place, Drain, Read and Owner (R304 to R312,
R316), and the replay of a bank (R336). -/

namespace Sys2Proof.Machine

/-! ### Buffer (R307) -/

/-- BUFFER_STEP: a store of an agent leaves the issue queue for the store buffer of its scope, when no earlier store of the
agent to an overlapping byte is still there (R307). -/
def execBufferStep (a : AgentId) (n : Nat) (s : State) : Res :=
  match s.access a n with
  | some x =>
    let isStore := fun (y : Access) => match y.op with
      | .store _ => true
      | _ => false
    let held := s.ord.accs.any (fun y => y.agent == a && decide (y.id < n) && isStore y && !y.buffered && overlap y x)
    if !isStore x || held then .next s
    else .next { s with ord := { s.ord with accs := s.ord.accs.map (fun y =>
      if y.agent = a ∧ y.id = n then { y with buffered := true } else y) } }
  | none => .next s

/-! ### Accesses that another module refuses (R396, R414) -/

def Vf.reset : Vf := ⟨none, 0, none, Config.bar0Ver⟩

def State.vf (s : State) (n : Nat) : Vf := smGet Vf.reset s.vfs n

def State.setVf (s : State) (n : Nat) (v : Vf) : State := { s with vfs := smSet s.vfs n v }

/-- A virtual function breaks its partition's boundary: it is frozen alone, and the manager is told (R396, R397). QNUM of the
record is its number (log 17); `fa` is the violating address. -/
def State.freezeVf (s : State) (vf part sub : Nat) (fa : DWord) (a : HostAccess) : State :=
  let s := s.setVf vf { s.vf vf with frozen := some a }
  { s with freezes := s.freezes ++ [freezeRec 0 0 vf part 4 0 0 0 0 (xcause (causeCode .perm) sub false) fa s.clock.tsc 0] }

/-- An agent whose access another module has refused for its partition is frozen as an offending master; `again` is what it makes again
when it is thawed (R396, R414). -/
def State.freezeAgent (s : State) (ag : AgentId) (sub : Nat) (fa : DWord) (again : Option Undone) : State :=
  let keep := fun (s : State) (p : Nat) => s.setPatch p { s.patch p with refused := (s.patch p).refused ++ again.toList }
  let rec_ := fun (s : State) (p el agent : Nat) =>
    match s.loadOf p with
    | some l => { s with freezes := s.freezes ++ [freezeRec el (s.lpOf p) l.q l.part agent 0 0 l.lid.toNat 0
        (xcause (causeCode .perm) sub (agent == 0)) fa s.clock.tsc 0] }
    | none => s
  match ag with
  | .elem p e =>
    let s := keep s p
    rec_ (s.setElem p e { (s.elem p e).settle (s.patch p).rotates s.clock.ns with frozen := true }).dropLoads p e 0
  | .seq p => rec_ ((keep s p).setSeq p { s.seq p with frozen := true }) p 0 1
  | .port p k => (keep s p).freezePort p k sub fa
  | .engine n => match s.engine n with
    | some x => s.freezeEngine x sub fa
    | none => s
  | .host vf => s.freezeVf vf (s.agentPart ag) sub fa ⟨fa, (again.map (fun x => x.bytes.map Prod.snd)).getD [], 0⟩
  | _ => s


/-- An access of an agent to another module has failed after its instance or word completed: the issuing patch's sequencer
is told by the element-fault path (R228, R414); a host's or the command processor's goes no further. -/
def State.reportAgent (s : State) (ag : AgentId) (cause : Word) (fa : DWord) : State :=
  match s.agentPatch ag with
  | some p => s.report p cause fa
  | none => s

/-! ### Writes to other modules (R411) -/

/-- The pointer of a byte of an entry. -/
def VisEntry.ptrOf (x : VisEntry) (a : Nat) : DWord := x.ptr + BitVec.ofNat 64 (a - x.base)

/-- A data packet of an engine command: it carries the command's tag, is counted for FLAGINC, and waits for its WRA (R411, R412). -/
def State.postWr (s : State) (n : Nat) (a : Asked) (k : Packet) : Option State :=
  (s.post { k with tag := engineTag n }).map (fun s => { s with fabric := { s.fabric with
    sentWrs := smSet s.fabric.sentWrs (wrKey n a.mod) (smGet 0 s.fabric.sentWrs (wrKey n a.mod) + 1),
    asked := s.fabric.asked ++ [{ a with tag := engineTag n }] } })

/-- Bytes of an entry leave for the module that holds them: a WR packet for each run (R411). A run whose module is not reachable
fails at its pointer (R409, R414). -/
def State.sendWrites (s : State) (x : VisEntry) : List (Nat × List Byte) → State
  | [] => s
  | (a, bs) :: r =>
    let pl : Place := ⟨a, .rc, false, false⟩
    let m := (pl.module).getD 0
    let k := packet 2 .fab m (s.identOf (s.agentPart x.agent)) bs.length 0 0 pl.pa (wrPayload bs)
    let q : Asked := ⟨0, s.redirected m pl.pa, x.agent, none, a, bs.length, true, x.ptrOf a, .sent, bs⟩
    let s := match x.agent with
      | .engine n => match s.postWr n q k with
        | some s => s
        | none => match s.engine n with
          | some y => if y.st == EngState.recorded then s.engineLate y .xlate 0 (x.ptrOf a) else s.engineStop y .xlate 0 (x.ptrOf a)
          | none => s
      | _ => match s.request q k with
        | some s => s
        | none => s.reportAgent x.agent (xcause 3 0 true) (x.ptrOf a)
    s.sendWrites x r

/-! ### Place (R307) -/

/-- An empty write to another module's frame goes there, as a WR packet with LEN 0, to be checked and acknowledged (R233, R411). -/
def State.emptyWrite (s : State) (x : Access) (st : Store) : State :=
  if st.bytes.isEmpty && st.marks.isEmpty && st.place.module.isSome then
    s.sendWrites ⟨x.id, x.agent, x.scope, st.place.kind, 0, [], [], [], st.ptr, st.place.addr⟩ [(st.place.addr, [])]
  else s

/-- Place a store where its Place step is enabled: it is in a store buffer, in order, after every earlier store to its bytes,
and to no word that an ACCST has tested (R193, R307, R310 to R312). Its bank serves it, unless its word was presented as it ran (R336,
R337). An empty write to another module is sent there (R233, R411). -/
def State.tryPlace (s : State) (x : Access) (st : Store) : State :=
  if !x.buffered || !s.inOrder x || !s.noEarlier x || !s.unclaimed x.agent x.words then s
  else
    let (s, ok) := if st.banked then (s, true) else s.present x.agent x.id [true] x.words
    if !ok then s else (s.emptyWrite x st).placeStore x st

/-- PLACE_STEP: a store of an agent's store buffer receives an age and enters the visibility buffer of its scope, or, in
host memory, backing memory (R305, R307). -/
def execPlaceStep (a : AgentId) (n : Nat) (s : State) : Res :=
  match s.access a n with
  | some x => match x.op with
    | .store st => .next (s.tryPlace x st)
    | _ => .next s
  | none => .next s

/-! ### Out of a buffer (R307, R308) -/

/-- The buffer that an entry of a buffer drains to; none is backing memory. -/
def State.wider (s : State) : VisId → Option VisId
  | .patch p => some (.part (s.partOf p))
  | .part _ => some .dev
  | .dev => some .fab
  | .fab => none

/-- An entry leaves a buffer for the next wider one, or for backing memory; what lies on another module is sent there (R307,
R308, R411). -/
def State.drain (s : State) (b : VisId) (x : VisEntry) : State :=
  let s := { s with ord := { s.ord with vis := s.ord.vis.map (fun (v : VisId × List VisEntry) =>
    if v.1 = b then (v.1, v.2.filter (fun e => e.id != x.id)) else v) } }
  match s.wider b with
  | some w => s.enter w x
  | none =>
    let away := x.bytes.filter (fun (c : Nat × Byte) => (Place.mk c.1 .rc false false).module.isSome)
    (s.settleEntry x).sendWrites x (byteRuns away)

/-- DRAIN_STEP: entry `n` of visibility buffer `b` moves to the next wider buffer, or to backing memory (R307). One for a frame
that has been redirected waits until the old owner has answered its agent (R359). -/
def execDrainStep (b : VisId) (n : Nat) (s : State) : Res :=
  match (s.ord.buffer b).find? (fun e => e.id == n) with
  | some x =>
    let held := b == .fab && x.bytes.any (fun c =>
      let pl : Place := ⟨c.1, .rc, false, false⟩
      match pl.module with
      | some m => s.redirHeld x.agent m pl.pa
      | none => false)
    if held then .next s else .next (s.drain b x)
  | none => .next s

/-! ### Read (R306) -/

/-- Fill the registers that a load of an instance names, or one quarter of a w register (R210). -/
def Inst.fill (i : Inst) (n d size : Nat) (signed wreg : Bool) (bs : List Byte) : Inst :=
  let v := leNat bs
  let i := { i with loads := i.loads.filter (fun l => l.1 != n) }
  if wreg then
    let u := i.r.w.getD (d / 4) 0
    let k := 64 * (d % 4)
    let u' : Slot := BitVec.ofNat 256 (u.toNat / 2 ^ (k + 64) * 2 ^ (k + 64) + v * 2 ^ k + u.toNat % 2 ^ k)
    { i with r := { i.r with w := i.r.w.set (d / 4) u' }, wW := noted i.wW (d / 4) }
  else if size = 8 then
    { i with r := { i.r with s := (i.r.s.set d (BitVec.ofNat 32 v)).set (d + 1) (BitVec.ofNat 32 (v / 2 ^ 32)) },
             wS := noted (noted i.wS d) (d + 1) }
  else
    let w : Word := if signed then (BitVec.ofNat (8 * size) v).signExtend 32 else BitVec.ofNat 32 v
    { i with r := { i.r with s := i.r.s.set d w }, wS := noted i.wS d }

/-- A piece of a host read has its bytes; the host has its answer once every piece has (R306, R322). -/
def State.hostPut (s : State) (vf n k : Nat) (bs : List Byte) : State :=
  match s.hostAsks.find? (fun a => a.vf == vf && a.n == n) with
  | none => s
  | some a =>
    let a := { a with got := smSet a.got k bs }
    let all : List Byte := a.got.flatMap (fun (x : Nat × List Byte) => x.2)
    let rest := s.hostAsks.filter (fun b => !(b.vf == vf && b.n == n))
    if all.length < a.size then { s with hostAsks := rest ++ [a] }
    else { s with hostAsks := rest, hostReads := s.hostReads ++ [(vf, all)] }

/-- Free values for the bytes of a host read that cannot be made (log 2). -/
def State.hostFree (s : State) (vf n k size : Nat) : State :=
  { s with free := s.free + size }.hostPut vf n k ((List.range size).map (fun i => Config.freeByte (s.free + i)))

/-- The data of a load goes where the load wants it. -/
def State.deliver (s : State) (x : Access) (dst : Dest) (bs : List Byte) : State :=
  match dst with
  | .inst p e n d size signed wreg => match (s.elem p e).inst n with
    | some i => s.putInst p e (i.fill x.id d size signed wreg bs)
    | none => s
  | .host vf n k => s.hostPut vf n k bs
  | _ => s

/-- A load that another module has refused: its instance faults, or, for a partition mismatch, its element is frozen (R414). -/
def State.loadFail (s : State) (x : Access) (dst : Dest) (c : Cause) (sub : Nat) : State :=
  let s := s.dropAccess x.agent x.id
  match dst with
  | .inst p e n _ _ _ _ => match (s.elem p e).inst n with
    | some i => if c = .perm then s.elemFreeze p e i sub x.fa else s.elemFault p e i c sub x.fa
    | none => s
  | .host vf n k => match x.op with
    | .load _ size _ => s.hostFree vf n k size
    | _ => s
  | _ => s

/-- Read for a load where its Read step is enabled (R306, R307, R310 to R312). A load of another module's memory sends RD
first, and reads with its reply (R411). -/
def State.tryRead (s : State) (x : Access) (a size : Nat) (dst : Dest) : State :=
  if !s.inOrder x then s
  else
    let here := fun (s : State) =>
      if (s.readWith x [] a size).isNone then s
      else
        let (s, ok) := s.present x.agent x.id [false] x.words
        if !ok then s
        else match s.readWith x [] a size with
          | some (bs, s) => (s.dropAccess x.agent x.id).deliver x dst bs
          | none => s
    match x.place.module with
    | none => here s
    | some m =>
      match s.via x.agent (some x.id) x.place size false x.fa (packet 0 x.scope m (s.identOf (s.agentPart x.agent)) size 0 0 x.place.pa []) with
      | .wait s _ => s
      | .got bs s => here { s with mem := s.mem.write a bs }
      | .fault c sub s => s.loadFail x dst c sub

/-- READ_STEP: load `n` of an agent reads by R306 and leaves the issue queue. The reads of an engine command are its steps:
`n` is the step of a copy, or the piece of a gather's or a scatter's index list (R227, R302). -/
def execReadStep (a : AgentId) (n : Nat) (s : State) : Res :=
  match a with
  | .engine m => match s.engine m with
    | some x => if s.moves x then .next (if gathers x.kind then s.indexStep x n else s.copyStep x n) else .next s
    | none => .next s
  | _ => match s.access a n with
    | some x => match x.op with
      | .load ad size dst => .next (s.tryRead x ad size dst)
      | _ => .next s
    | none => .next s

/-! ### Owner (R307, R316) -/

/-- OWNER_STEP: operation `n` of an agent's issue queue is performed by the owner of its word, against backing memory (R307);
on another module by ATOM, and it leaves with the reply (R218). One that the other module refuses for its partition freezes its agent
(R396). What an instance has sent stands here until its commit (R312). -/
def execOwnerStep (a : AgentId) (n : Nat) (s : State) : Res :=
  match s.access a n with
  | some x => match x.op with
    | .owner _ (.irr _ _ _) => .next s
    | .owner op _ =>
      let ws := op.words x.place
      if !s.ownerReady x ws || !s.unclaimed a ws then .next s
      else match op, x.place.module with
        | .signal inc, some _ =>
          match s.atomVia a (some n) .add false x.place (inc.setWidth 64) 0 x.scope x.acq x.rel x.fa with
          | .wait s _ => .next s
          | .got _ s => .next (s.dropAccess a n)
          | .fault .perm sub s => .next ((s.dropAccess a n).freezeAgent a sub x.fa (some ⟨a, x.place, x.fa, [], some (inc, x.scope)⟩))
          | .fault c sub s => .next ((s.dropAccess a n).reportAgent a (xcause (causeCode c) sub true) x.fa)
        | _, _ =>
          let (s, ok) := s.present a n [false, true] x.words
          if !ok then .next s
          else match s.perform (s.agentPart a) x.place op x.fa with
            | .ok s _ => .next (s.dropAccess a n)
            | _ => .next s
    | _ => .next s
  | none => .next s

/-! ### Replay (R336) -/

/-- The step of an engine command whose read the banks know under a number is taken again. -/
def execEngineReplay (n id : Nat) (s : State) : Res :=
  if id < 2 ^ 40 then execReadStep (.engine n) id s
  else if id < 2 ^ 41 then execReadStep (.engine n) ((id - 2 ^ 40) / 2) s
  else execGatherBurst n ((id - 2 ^ 41) / 8) s

/-- BANK_REPLAY: the oldest access of a vault's replay queue that this cycle has not presented is presented again to its bank
(R336). A read that an instance's word makes itself is presented again when the instance moves. -/
def execBankReplay (p e : Nat) (s : State) : Res :=
  let v := s.elem p e
  match v.replay.find? (fun r => decide (r.at_ < s.clock.n)) with
  | none => .next s
  | some r =>
    let t := s.setElem p e { v with replay := v.replay.map (fun x => if x = r then { x with at_ := s.clock.n } else x) }
    match s.access r.agent r.id with
    | none => match r.agent with
      | .engine n => if (s.engine n).any (fun x => s.moves x) then execEngineReplay n r.id t
        else .next (s.setElem p e { v with replay := v.replay.filter (fun x => x != r) })
      | _ => if v.ownAlive r.id then .next s else .next (s.setElem p e { v with replay := v.replay.filter (fun x => x != r) })
    | some x => match x.op with
      | .store st => .next (t.tryPlace x st)
      | .load ad size dst => .next (t.tryRead x ad size dst)
      | .owner _ _ => execOwnerStep r.agent r.id t

end Sys2Proof.Machine
end

