-- ==== Sys2Proof/Machine/Progress.lean ====
section
/-! DEFINITION. Pointstamps and frontiers, Install steps and the exchange of counts (R18, R238, R241 to R243, R318), and the
deadlock probes (R398 to R400). -/

namespace Sys2Proof.Machine

/-! ### Where slots go (R241) -/

/-- The queues that units of a channel at a router input reach, in any schedule slot; `fuel` bounds the chain, which a load
keeps free of cycles (R100). -/
def State.reachFrom (s : State) : Nat → Nat → Nat → Nat → Nat → List (Nat × Nat × Nat)
  | 0, _, _, _, _ => []
  | fuel + 1, p, e, i, c =>
    let r := (s.elem p e).router
    let bound := (r.binds.filter (fun b => b.i == i && b.v == c)).map (fun b => b.o)
    let outs := if bound.isEmpty then ((r.best.filter (fun b => b.1 == i)).map (fun b => b.2)).take 1 else bound.dedup
    outs.flatMap (fun o =>
      if o = 4 then (if c < 4 then [(p, e, c)] else [])
      else match s.beyond p e o with
        | some (p', e', i') => s.reachFrom fuel p' e' i' c
        | none => [])

/-- The queues that port `o` of an element feeds. -/
def State.feeds (s : State) (p e o : Nat) : List (Nat × Nat × Nat) := s.reachFrom maxChain p e 4 o

/-- The elements of a patch's load, by patch and element. -/
def State.loadElems (s : State) (p : Nat) : List (Nat × Nat) :=
  let ps := ((s.loadOf p).map (fun l => l.patches)).getD [p]
  ps.flatMap (fun q => (s.patch q).elems.map (fun x => (q, x.1)))

/-! ### Pointstamps (R238) -/

/-- The times of a port: its buffer, emitter, pending runs and capabilities. -/
def OutPort.times (o : OutPort) : List DWord :=
  let unitTime := fun (u : Slot) => if isChange u then uTime u else o.markt
  o.buf.map (fun u => u.time) ++ o.emitter.map unitTime ++
  o.runs.flatMap (fun r => match r with
    | .gen _ _ _ _ _ => [o.markt]
    | .units us => us.map unitTime) ++
  o.caps.map (fun c => c.1)

/-- A set of minimal times, with one more time. -/
def addTime (f : List DWord) (t : DWord) : List DWord :=
  if f.any (fun x => tLe x t) then f else t :: f.filter (fun x => !tLe t x)

/-- Times that stand at queues. -/
abbrev Stamps := List ((Nat × Nat × Nat) × List DWord)

def Stamps.at_ (m : Stamps) (q : Nat × Nat × Nat) : List DWord := ((m.find? (fun x => x.1 == q)).map (fun x => x.2)).getD []

/-- Times reach a queue. -/
def Stamps.add (q : Nat × Nat × Nat) (ts : List DWord) : Stamps → Stamps
  | [] => if ts.isEmpty then [] else [(q, ts.foldl addTime [])]
  | x :: r => if x.1 = q then (q, ts.foldl addTime x.2) :: r else x :: Stamps.add q ts r

/-- Times reach several queues. -/
def Stamps.adds (m : Stamps) (qs : List (Nat × Nat × Nat)) (ts : List DWord) : Stamps := qs.foldl (fun m q => Stamps.add q ts m) m

/-- The pointstamps of one element, at the queues that its slots reach unchanged. -/
def State.elemStamps (s : State) (m : Stamps) (p e : Nat) : Stamps :=
  let v := s.elem p e
  let m := (List.range 4).foldl (fun m n => Stamps.add (p, e, n) ((v.q.getD n []).map (fun u => u.time)) m) m
  let m := (List.range 4).foldl (fun m o => m.adds (s.feeds p e o) (v.o.getD o OutPort.reset).times) m
  v.rin.foldl (fun m x => m.adds (s.reachFrom maxChain p e x.1.1 x.1.2) (x.2.map (fun (u : QUnit) => u.time))) m

/-- The streams whose SGO waits in a scoreboard: each is that of the last SBIND before it. -/
def waitingStreams : Option Stream → List (Nat × PortCmd) → List Stream
  | _, [] => []
  | _, (_, .bind d) :: r => waitingStreams (some d) r
  | b, (_, .go) :: r => b.toList ++ waitingStreams b r

/-- The pointstamps of a patch's DIR 0 streams: 0 from SGO until the stream completes, and the bubble holds (R238, R352). -/
def State.portStamps (s : State) (m : Stamps) (p : Nat) : Stamps :=
  (s.patch p).ports.foldl (fun m x =>
    let m := match x.2.running, x.2.bound with
      | some _, some d => if d.toMem then m else Stamps.add (p, d.el, d.qp) (0 :: x.2.bubbles.map (fun b => b.ht)) m
      | _, _ => m
    (waitingStreams x.2.bound x.2.cmds).foldl (fun m d => if d.toMem then m else Stamps.add (p, d.el, d.qp) [0] m) m) m

/-- A summary that saturates (R241). -/
def sigmaSat (sum : Nat) (t : DWord) : DWord := (sigma sum t).getD t

/-- One round: what stands at an input reaches, through the summaries of its element's ports, the queues that they feed. -/
def State.stampRound (s : State) (m : Stamps) : Stamps :=
  m.foldl (fun r x =>
    let (p, e, n) := x.1
    (List.range 4).foldl (fun r o =>
      let port := (s.elem p e).o.getD o OutPort.reset
      if port.dep n then r.adds (s.feeds p e o) (x.2.map (sigmaSat port.sum)) else r) r) m

/-- Rounds until nothing changes; a path visits each queue of the load at most once before it only adds later times. -/
def State.stampRounds (s : State) : Nat → Stamps → Stamps
  | 0, m => m
  | k + 1, m =>
    let m' := s.stampRound m
    if m' = m then m else s.stampRounds k m'

/-- What can still reach each queue of a patch's load (R241). -/
def State.stamps (s : State) (p : Nat) : Stamps :=
  let es := s.loadElems p
  let ps := ((s.loadOf p).map (fun l => l.patches)).getD [p]
  let m := es.foldl (fun m x => s.elemStamps m x.1 x.2) []
  let m := ps.foldl (fun m q => s.portStamps m q) m
  s.stampRounds (4 * es.length + 1) m

/-! ### Frontiers (R18, R241 to R243) -/

/-- Times in rising order as unsigned numbers. -/
def sortTimes (f : List DWord) : List DWord := sortBy (fun a b => decide (a.toNat < b.toNat)) f

/-- The stand-in for more than four times (R18): whether it was needed, and the times. -/
def standIn : Nat → List DWord → Bool × List DWord
  | 0, f => (false, f)
  | k + 1, f =>
    match sortTimes f with
    | a :: b :: c :: d :: e :: r => (true, (standIn k ((tMeet a b :: c :: d :: e :: r).foldl addTime [])).2)
    | l => (false, l)

/-- The frontier of a set of minimal times. -/
def frontierOf (ts : List DWord) : Frontier :=
  let (apx, f) := standIn ts.length ts
  ⟨apx, sortTimes f⟩

/-- Every store that the elements of a patch's load have entered is performed at `.part` (R243, R318). -/
def State.loadStored (s : State) (p : Nat) : Bool :=
  (s.loadElems p).all (fun x => s.allPerformed (.elem x.1 x.2) s.ord.nextId .part)

/-- Install the value `f` in ftq: only when it moves on, and what it lets pass is stored (R242, R243). -/
def Elem.install (v : Elem) (q : Nat) (f : Frontier) : Elem :=
  let old := v.ft.getD q ⟨false, [0]⟩
  if f.times.all (fun t => inAdvance t old.times) then { v with ft := v.ft.set q f } else v

/-- INSTALL_STEP: the Front unit of an element puts the frontier of its input `q` into ftq (R241 to R243, R318). -/
def execInstallStep (p e q : Nat) (s : State) : Res :=
  if s.loadStored p then .next (s.modElem p e (fun v => v.install q (frontierOf ((s.stamps p).at_ (p, e, q))))) else .next s

/-- FRONT_COUNT_EXCHANGE: the count changes of the load reach the frontier registers of a patch (R242). -/
def execFrontCountExchange (p : Nat) (s : State) : Res :=
  if s.loadStored p then
    let m := s.stamps p
    let x := s.patch p
    .next (s.setPatch p { x with elems := x.elems.map (fun v =>
      (v.1, (List.range 4).foldl (fun (w : Elem) q => w.install q (frontierOf (m.at_ (p, v.1, q)))) v.2)) })
  else .next s

/-! ### Blocked elements (R398) -/

/-- Did a step of an instance complete: its word, its commit, or its firing. -/
def Res.state (r : Res) (s : State) : State :=
  match r with
  | .next t => t
  | _ => s

/-- A word that may wait, as a step of the instance whose turn it is; none for a word that never waits on another agent. -/
def waitingWord : Instr → Option (State → Res)
  | .waitf d a n => some (execWaitf d a n)
  | .waite d a n => some (execWaite d a n)
  | .ldf d a o sc => some (execLdf d a o sc)
  | .fence sc => some (execFence sc)
  | .drain p => some (execDrain p)
  | .fwait d a => some (execFwait d a)
  | .adjb t a b f => some (execAdjb t a b f)
  | .wrel d a b => some (execWrel d a b)
  | .mma t a b f d c r => some (execMma t a b f d c r)
  | .mmag t a b f d c r => some (execMmag t a b f d c r)
  | .cvt a b f t r => some (execCvt a b f t r)
  | .acon d a b => some (execAcon d a b)
  | .ains d a b c => some (execAins d a b c)
  | .amrg d a b => some (execAmrg d a b)
  | .acmp d a b => some (execAcmp d a b)
  | .aprb d a b o => some (execAprb d a b o)
  | .join d a b v k o => some (execJoin d a b v k o)
  | .red d a b k o => some (execRed d a b k o)
  | _ => none

/-- A fired instance can complete a word or commit. -/
def State.canMove (s : State) (p e : Nat) (i : Inst) : Bool :=
  let v := s.elem p e
  let after := fun (r : Res) => ((Res.state r s).elem p e).inst i.id
  let same := fun (x : Option Inst) => match x with
    | some j => j.st == .fired && j.pc == i.pc && j.passed == i.passed
    | none => false
  if !i.loads.isEmpty then true
  else match v.wordOf i with
    | some w => match waitingWord w with
      | some f => !same (after (f { s with cur := ⟨p, e, i.id⟩ }))
      | none => true
    | none => if i.rot.isSome then s.arrived p else !same (after (execInstanceCommit p e i.id s))

/-- A trigger of the element is met, with a station entry free. -/
def State.canFire (s : State) (p e : Nat) : Bool :=
  let v := s.elem p e
  let fired := fun (x : Elem) => (x.insts.filter (fun i => i.st == .fired)).length
  let tags := (0 : BitVec 12) :: v.q.flatMap (fun l => l.map (fun (u : QUnit) => uTag u.u)) ++ v.insts.map (fun i => i.tag)
  v.blocks.any (fun b => tags.any (fun t => decide (fired v < fired ((Res.state (execBlockFire p e b.1 t s) s).elem p e))))

/-- The element is blocked (R398). -/
def State.isBlocked (s : State) (p e : Nat) : Bool :=
  (s.elem p e).insts.all (fun i => i.st != .fired || !s.canMove p e i) && !s.canFire p e

/-- The elements of the load whose routes feed a queue. -/
def State.feeders (s : State) (p e n : Nat) : List (Nat × Nat) :=
  (s.loadElems p).filter (fun x => (List.range 4).any (fun o => (s.feeds x.1 x.2 o).contains (p, e, n)))

/-- The element above the vault in which a place lies, where that is another element of the load. -/
def State.aboveVault (s : State) (p e : Nat) (pl : Place) : List (Nat × Nat) :=
  match vaultWord (pl.addr / 8) with
  | some (q, f, _) => if (q, f) = (p, e) ∨ !(s.loadElems p).contains (q, f) then [] else [(q, f)]
  | none => []

/-- The element that holds the OWNER link of an object (R219). -/
def State.ownerOf (s : State) (p : Nat) (pl : Place) : List (Nat × Nat) :=
  let w0 := leNat (s.mem.read pl.addr 8)
  let owner := leNat (s.mem.read (pl.addr + 8) 4)
  let ctx := ((smGet Pool.reset (s.part (s.partOf p)).pools (w0 / 2 ^ 20 % 2 ^ 10)).link (owner % 4096)).holder
  match s.loadOf p with
  | some l => if ctx / 64 < l.patches.length then [(l.patches.getD (ctx / 64) 0, ctx % 64)] else []
  | none => []

/-- The elements whose SCALE routes feed an element's endpoint. -/
def State.scaleFeeders (s : State) (p e : Nat) : List (Nat × Nat) :=
  (s.loadElems p).filter (fun x => (s.scaleFrom x.1 x.2).contains (p, e))

/-- The wait-for edges of one fired instance (R398). An arrangement word that waits for a claim waits for another instance of its own
element, whose edges the element has (R253). -/
def State.instEdges (s : State) (p e : Nat) (i : Inst) : List (Nat × Nat) :=
  let v := s.elem p e
  let ptr := fun (n : Nat) (o : Int) =>
    match (s.pointer p e (i.r.s.getD (n + 1) 0 ++ i.r.s.getD n 0) o 8 8 .owner).res with
    | .ok pl => s.aboveVault p e pl
    | _ => []
  match v.wordOf i with
  | some (.ldf _ a o _) => ptr a.toNat (o.toInt * 8)
  | some (.adjb _ _ b _) => ptr b.toNat 0
  | some (.wrel _ a _) => ptr a.toNat 0
  | some (.fwait _ a) => s.feeders p e a.toNat
  | some (.mma _ _ _ f _ _ _) | some (.mmag _ _ _ f _ _ _) => if isBfp f.toNat then s.scaleFeeders p e else []
  | some (.cvt _ _ f t _) => if isBfp f.toNat || isBfp t.toNat then s.scaleFeeders p e else []
  | some _ => []
  | none =>
    let ports := (List.range 4).filter (fun o => i.writesPort o &&
      (let x := v.o.getD o OutPort.reset
       !x.runs.isEmpty || !x.emitter.isEmpty || decide (4 < x.buf.length + (i.units o).length)))
    let down := ports.flatMap (fun o => (s.feeds p e o).map (fun (q : Nat × Nat × Nat) => (q.1, q.2.1)))
    down ++ (match i.irr with
      | .held (.owner pl _ _ _ (.placeOp .pwait _ _ _ _) _ _) _ => s.ownerOf p pl
      | .held (.owner pl _ _ _ op _ _) _ => if op.feWait then s.aboveVault p e pl else []
      | _ => [])

/-- The wait-for edges of an element (R398): those of its instances, and the feeders of queues that its triggers lack. -/
def State.edges (s : State) (p e : Nat) : List (Nat × Nat) :=
  let v := s.elem p e
  let lacks := (List.range 4).filter (fun n => v.blocks.any (fun b =>
    (b.2.st || v.insts.any (fun i => i.blk == b.1 && (i.st == .armed || i.st == .partly))) &&
    decide (((v.q.getD n []).filter (fun u => u.owner.isNone)).length < b.2.qc.getD n 0)))
  (((v.insts.filter (fun i => i.st == .fired)).flatMap (fun i => s.instEdges p e i)) ++
    lacks.flatMap (fun n => s.feeders p e n)).dedup

/-! ### The full/empty timeout (R214) -/

/-- The ACCST word of an instance whose tile must wait for words to be empty, at its commit (R193). -/
def State.accstWaits (s : State) (p e : Nat) (i : Inst) : Option Nat :=
  if i.acl.isEmpty then (i.effs.find? (fun x => match x.2 with
    | .accst va data => s.accstHeld p e (vaultWords p e va data.length)
    | _ => false)).map (fun x => x.1)
  else none

/-- The pointer of the full/empty wait of an instance, and the word that waits: LDF and the header test of ADJB and WREL at
the word; at the commit the ACCST word `acc` that waits, which is tested first, or LDFE and STE; none where the spec gives no
pointer (a DF tile, an ACCST). -/
def Elem.fePtr (v : Elem) (i : Inst) (acc : Option Nat) : Option (Nat × Option DWord) :=
  let pair := fun (n : Nat) => i.r.s.getD (n + 1) 0 ++ i.r.s.getD n 0
  match v.wordOf i with
  | some (.ldf _ a o _) => some (i.pc, some (pair a.toNat + BitVec.ofInt 64 (o.toInt * 8)))
  | some (.adjb _ _ b _) => some (i.pc, some (pair b.toNat))
  | some (.wrel _ a _) => some (i.pc, some (pair a.toNat))
  | some (.mma _ _ _ _ df _ _) => if df = 1 then some (i.pc, none) else none
  | some (.mmag _ _ _ _ df _ _) => if df = 1 then some (i.pc, none) else none
  | some _ => none
  | none => match acc, i.irr with
    | some w, _ => some (w, none)
    | none, .held (.owner _ _ _ _ op _ ptr) w => if op.feWait then some (w, some ptr) else none
    | none, _ => none

/-- An instance whose full/empty wait was begun would still wait if it moved now. -/
def State.stillWaits (s : State) (p e : Nat) (i : Inst) : Bool :=
  let t := match (s.elem p e).wordOf i with
    | some w => match waitingWord w with
      | some f => Res.state (f { s with cur := ⟨p, e, i.id⟩ }) s
      | none => s
    | none => Res.state (execInstanceCommit p e i.id s) s
  ((t.elem p e).inst i.id).any (fun j => j.since.isSome && j.pc == i.pc && j.st == .fired)

/-- FE_TIMEOUT: a full/empty wait of an instance has passed the partition's timeout and goes on, and the instance faults (R184, R193,
R214, R270). Time for which the element was frozen does not count. -/
def execFeTimeout (p e n : Nat) (s : State) : Res :=
  let v := s.elem p e
  let lim := (s.part (s.partOf p)).feNs
  match v.inst n with
  | none => .next s
  | some i =>
    match i.since, v.fePtr i (s.accstWaits p e i) with
    | some t, some (w, ptr) =>
      if i.st ≠ .fired ∨ s.still p e ∨ lim = 0 ∨ s.clock.ns - t + i.waited < lim ∨ !s.stillWaits p e i then .next s
      else match ptr with
        | some x => .next (s.commitFault p e i w .feTimeout 0 (some x))
        | none => .next ({ s with free := s.free + 1 }.commitFault p e i w .feTimeout 0 (some (Config.freeDWord s.free)))
    | _, _ => .next s

/-! ### Probes (R399, R400) -/

/-- The context number of an element (R219). -/
def State.context (s : State) (p e : Nat) : Nat := s.lpOf p * 64 + e

/-- A probe goes along every edge of an element. -/
def State.sendProbes (s : State) (p e origin round : Nat) (path : List Nat) : State :=
  let q := ((s.patch p).load.map (fun l => l.1)).getD 0
  (s.edges p e).foldl (fun s x =>
    let n := (s.probes.map (fun y => y.n + 1)).foldl Nat.max 0
    { s with probes := s.probes ++ [⟨n, q, origin, path, s.context x.1 x.2, s.clock.n, round⟩] }) s

/-- DEADLOCK_PROBE: an element that has been blocked for 16,384 cycles sends a probe with its context number, and again every
2^20 cycles, of its patch (R399, R444). An element that is found blocked for the first time starts to count. -/
def execDeadlockProbe (p e : Nat) (s : State) : Res :=
  let v := s.elem p e
  let now := s.clock.n
  if s.still p e then .next s
  else if !s.isBlocked p e then .next (s.setElem p e { v with blocked := none, probed := none, fwd := [] })
  else match v.blocked with
    | none => .next (s.setElem p e { v with blocked := some now })
    | some t =>
      let due := match v.probed with
        | none => t + s.cyclesOf p 16384
        | some k => k + s.cyclesOf p (2 ^ 20)
      if now < due then .next s
      else
        let c := s.context p e
        .next ((s.setElem p e { v with probed := some now }).sendProbes p e c now [c])

/-- A proven cycle goes to the origin's sequencer (R400). -/
def State.deadlock (s : State) (p : Nat) (path : List Nat) : State :=
  let x := s.patch p
  let n := Nat.min 64 path.length
  let r : Report := ⟨none, xcause (causeCode .deadlock) 0 false, 0, BitVec.ofNat 64 n, path.take 64, s.clock.tsc⟩
  s.setPatch p { x with reports := x.reports ++ [r], seq := { x.seq with latch := true } }

/-- PROBE_FORWARD: probe `n` of the load of queue `q`, 4 cycles after it was sent, stands at an element: it proves a cycle at its
origin, goes on along the element's edges, or is dropped (R399). An element that has forwarded a probe of the origin drops it, but not
one that the origin has sent anew since, so that a cycle that lasts is reported again (R400; log 75). A probe of a load that stands on
no patch is dropped. -/
def execProbeForward (q n : Nat) (s : State) : Res :=
  match s.probes.find? (fun x => x.n == n && x.q == q), s.loads.find? (fun l => l.q == q) with
  | some x, some l =>
    let s' := { s with probes := s.probes.filter (fun y => !(y.n == n && y.q == q)) }
    let p := l.patches.getD (x.at_ / 64) 0
    let e := x.at_ % 64
    let v := s.elem p e
    if s.clock.n < x.since + s.cyclesOf p 4 then .next s
    else if l.patches.length ≤ x.at_ / 64 || s.still p e || !s.isBlocked p e then .next s'
    else if x.at_ = x.origin then .next (s'.deadlock p x.path)
    else if x.at_ < x.origin || v.fwd.contains (x.origin, x.round) then .next s'
    else .next ((s'.setElem p e { v with fwd := (x.origin, x.round) :: v.fwd }).sendProbes p e x.origin x.round (x.path ++ [x.at_]))
  | some _, none => .next { s with probes := s.probes.filter (fun y => !(y.n == n && y.q == q)) }
  | none, _ => .next s

end Sys2Proof.Machine
end

