-- ==== Sys2Proof/Machine/Cfg.lean ====
section
/-! DEFINITION. Configurations: pattern records, rectangles, switch lists, initial-state records, and every check of a load or
of a CFGCMT (R17, R25 to R27, R96, R100, R101, R106, R107, R158, R172, R175, R182, R203, R239, R245, R283, R294, R295, R457). -/

namespace Sys2Proof.Machine

/-! ### CRC-32 (R106) -/

/-- One bit of CRC-32 with the IEEE 802.3 polynomial, least significant bit first. -/
def crcBit (c : Word) : Word := if c.getLsbD 0 then (c >>> 1) ^^^ 0xEDB88320 else c >>> 1

/-- One byte of CRC-32. -/
def crcByte (c : Word) (b : Byte) : Word :=
  crcBit (crcBit (crcBit (crcBit (crcBit (crcBit (crcBit (crcBit (c ^^^ b.setWidth 32))))))))

/-- CRC-32 of bytes. -/
def crc32 (bs : List Byte) : Word := ~~~(bs.foldl crcByte 0xFFFFFFFF)

/-! ### Failures (R145) -/

/-- A failed check: its status, the index of the word, halfword or record, and whether it is a switch halfword. -/
structure CfgFail where
  c : Cause
  idx : Nat
  sw : Bool
  deriving DecidableEq, Repr, Inhabited

/-- A failed check, with the element of the patch that it names. -/
structure CfgFailAt where
  el : Nat
  f : CfgFail
  deriving DecidableEq, Repr, Inhabited

/-- A status with its detail (R110, R145). -/
def CfgFailAt.status (x : CfgFailAt) : Word :=
  BitVec.ofNat 32 (causeCode x.f.c + x.f.sw.toNat * 2 ^ 8 + x.f.idx % 2 ^ 11 * 2 ^ 9 + x.el % 64 * 2 ^ 20)

/-- A failure of an operation word or record. -/
def illopAt (i : Nat) : CfgFail := ⟨.cfgIllop, i, false⟩

/-- A failure of a switch halfword. -/
def switchAt (i : Nat) : CfgFail := ⟨.cfgIllop, i, true⟩

/-! ### Pattern records (R106) -/

/-- Take words by the lengths of descriptors. -/
def cutWords : List (Nat × DWord) → List Word → Option (List (Nat × DWord × List Word))
  | [], ws => if ws.isEmpty then some [] else none
  | (n, d) :: r, ws =>
    let k := bits d 63 57 + 1
    if ws.length < k then none else (cutWords r (ws.drop k)).map (fun l => (n, d, ws.take k) :: l)

/-- Initial-state records from a list of bytes, which they must fill (R294). -/
def cutInits : Nat → List Byte → Option (List (DWord × List Byte))
  | 0, bs => if bs.isEmpty then some [] else none
  | k + 1, bs =>
    let h : DWord := BitVec.ofNat 64 (numAt bs 0 8)
    let n := bits h 51 32
    if bs.length < 8 + n then none else (cutInits k (bs.drop (8 + n))).map (fun l => (h, (bs.drop 8).take n) :: l)

/-- PSZ of a record (R106). -/
def patternSize (header : List Byte) : Nat := numAt header 25 3

/-- A record's CRC does not match: it is computed over the whole record with its own field zero (R106). -/
def badCrc (bs : List Byte) : Bool :=
  decide (bs.length < 32) || (crc32 (bs.take 28 ++ List.replicate 4 0 ++ bs.drop 32)).toNat != numAt bs 28 4

/-- A record, cut into its parts: its CRC first, then its sizes and reserved bits (R106). The spec gives no element and no index for a
record that fails so: the detail names element 0, index 0 (DESIGN CHOICE, log 73). -/
def RawPattern.parse (bs : List Byte) : Except CfgFail RawPattern :=
  let h := numAt bs 0 32
  let f := fun (hi lo : Nat) => h / 2 ^ lo % 2 ^ (hi - lo + 1)
  if badCrc bs then .error ⟨.cfgEcc, 0, false⟩
  else
    let nrect := f 199 184
    let nword := f 167 156
    let nsw := f 155 144
    let mask := f 183 168
    let present := (List.range 16).filter (fun n => mask.testBit n)
    let o1 := 32 + 8 * nrect
    let o2 := o1 + 8 * present.length
    let o3 := o2 + 4 * nword
    let o4 := o3 + 2 * nsw
    let o5 := (o4 + 7) / 8 * 8
    let w64 := fun (a : Nat) => (BitVec.ofNat 64 (numAt bs a 8) : DWord)
    let descs := (List.range present.length).map (fun i => (present.getD i 0, w64 (o1 + 8 * i)))
    let words := (List.range nword).map (fun i => (BitVec.ofNat 32 (numAt bs (o2 + 4 * i) 4) : Word))
    let sw := (List.range nsw).map (fun i => (BitVec.ofNat 16 (numAt bs (o3 + 2 * i) 2) : Half))
    if f 223 200 ≠ bs.length ∨ bs.length % 8 ≠ 0 ∨ f 135 0 ≠ 0 ∨ nrect = 0 ∨ 2048 < nword ∨ nsw = 0 ∨ 1024 < nsw ∨
        bs.length < o5 ∨ numAt bs o4 (o5 - o4) ≠ 0 then .error (illopAt 0)
    else match cutWords descs words, cutInits (f 143 136) (bs.drop o5) with
      | some b, some i => .ok ⟨(List.range nrect).map (fun i => w64 (32 + 8 * i)), b, sw, i⟩
      | _, _ => .error (illopAt 0)

/-- A block from its descriptor and words (R26). -/
def Block.make (d : DWord) (ws : List Word) : Block :=
  { pri := bits d 56 55, tm := bits d 54 54 == 1, st := bits d 53 53 == 1,
    qc := [bits d 52 48, bits d 47 43, bits d 42 38, bits d 37 33],
    cba := bits d 32 30, cbac := bits d 29 22, cbb := bits d 21 19, cbbc := bits d 18 11, words := ws }

/-- A descriptor that fails the load (R26). -/
def badDesc (d : DWord) : Bool :=
  bits d 10 0 != 0 || [bits d 52 48, bits d 47 43, bits d 42 38, bits d 37 33].any (fun c => decide (16 < c)) ||
  (bits d 29 22 != 0 && bits d 18 11 != 0 && bits d 32 30 == bits d 21 19)

/-! ### Switch lists (R98 to R100, R283) -/

/-- A binding may be added: no other input is bound to the output in one of its slots. -/
def Router.free (r : Router) (i o lo hi : Nat) : Bool :=
  r.binds.all (fun b => b.o != o || b.i == i || decide (b.hi < lo) || decide (hi < b.lo))

/-- A Local binding on channel 4 to 15 (R283). -/
def localBad (i o : BitVec 3) (v : BitVec 4) : Bool := (i == 4 || o == 4) && decide (4 ≤ v.toNat)

/-- What one switch word adds to a router; none where it breaks R98, R100 or R283. `conv`: a converter element. -/
def Router.add (r : Router) (conv : Bool) (w : Instr) : Option Router :=
  let port := fun (x : BitVec 3) => conv || x != 6
  match w with
  | .nop | .endList => some r
  | .circ i o v =>
    if port i && port o && !localBad i o v && r.free i.toNat o.toNat 0 255 then some (r.circ i.toNat v.toNat o.toNat) else none
  | .slot i o v f n =>
    if port i && port o && !localBad i o v && r.free i.toNat o.toNat f.toNat (f.toNat + n.toNat) then
      some (r.slot i.toNat v.toNat o.toNat f.toNat n.toNat)
    else none
  | .best i o =>
    if port i && port o && r.best.all (fun b => b.1 != i.toNat) then some { r with best := r.best ++ [(i.toNat, o.toNat)] } else none
  | .width o c =>
    if port o && r.width.all (fun b => b.1 != o.toNat) then some { r with width := r.width ++ [(o.toNat, c.toNat)] } else none
  | .scale i o => some { r with scale := putNew (i.toNat, o.toNat) r.scale }
  | _ => none

/-- A list read in order up to its END: the router, or the index of the halfword that fails. Of a list without an END it is the last one
(R100, R103 name none: DESIGN CHOICE, log 73). -/
def switchRead (conv : Bool) : List Half → Nat → Router → Except Nat Router
  | [], n, _ => .error (n - 1)
  | [h], n, r =>
    match decodeSwitch h.toNat none with
    | .ok .endList => .ok r
    | _ => .error n
  | h :: x :: rest, n, r =>
    match decodeSwitch h.toNat (some x.toNat) with
    | .error _ => .error n
    | .ok .endList => .ok r
    | .ok (.slot i o v f k) =>
      match r.add conv (.slot i o v f k) with
      | some r => switchRead conv rest (n + 2) r
      | none => .error n
    | .ok w =>
      match r.add conv w with
      | some r => switchRead conv (x :: rest) (n + 1) r
      | none => .error n

/-! ### Words of a block -/

/-- The queues and buffers that a word reads as units (R157). -/
def unitReads : Instr → List Nat
  | .add _ a b _ _ _ | .sub _ a b _ _ _ | .mul _ a b _ _ _ | .mulh _ a b _ _ _ | .mulhu _ a b _ _ _ | .div _ a b _ _ _
  | .divu _ a b _ _ _ | .rem _ a b _ _ _ | .remu _ a b _ _ _ | .and _ a b _ _ _ | .or _ a b _ _ _ | .xor _ a b _ _ _
  | .sll _ a b _ _ _ | .srl _ a b _ _ _ | .sra _ a b _ _ _ | .slt _ a b _ _ _ | .sltu _ a b _ _ _ | .min _ a b _ _ _
  | .max _ a b _ _ _ | .adds _ a b _ _ _ | .subs _ a b _ _ _ => [a.toNat, b.toNat]
  | .fadd _ a b _ _ _ _ _ | .fsub _ a b _ _ _ _ _ | .fmul _ a b _ _ _ _ _ | .fdiv _ a b _ _ _ _ _
  | .fmac _ a b _ _ _ _ _ => [a.toNat, b.toNat]
  | .fmin _ a b _ _ _ _ | .fmax _ a b _ _ _ _ | .feq _ a b _ _ _ _ | .flt _ a b _ _ _ _ | .fle _ a b _ _ _ _ =>
    [a.toNat, b.toNat]
  | .fsqrt _ a _ _ _ _ _ => [a.toNat]
  | .mov _ a _ _ _ => [a.toNat]
  | .sel _ a b c _ _ _ => [a.toNat, b.toNat, c.toNat]
  | .lbc a _ _ | .lext _ a _ _ | .mset a _ | .spwr a _ => [a.toNat]
  | .lins a b _ | .pack _ a b _ _ _ _ | .mlane a b _ _ _ _ | .rrot _ a b _ | .lgen _ a b _ => [a.toNat, b.toNat]
  | .unpk _ a _ _ _ _ _ | .take _ a _ | .peek _ a _ | .adv a _ | .emit _ a => [a.toNat]
  | .addi _ a _ | .andi _ a _ | .ori _ a _ | .xori _ a _ | .slti _ a _ | .slli _ a _ | .srli _ a _ | .srai _ a _ => [a.toNat]
  | .join _ _ b _ _ _ | .sortn b _ _ _ _ | .cvt b _ _ _ _ => [b.toNat]
  | _ => []

/-- The tile operands of a matrix word (R182). -/
def tileReads : Instr → List Nat
  | .mma _ a b _ _ _ _ | .mmag _ a b _ _ _ _ => [a.toNat, b.toNat]
  | .ldt a _ _ | .accld _ a _ | .adjb _ a _ _ => [a.toNat]
  | _ => []

/-- The buffers that a word writes (R158, R193, R197, R264, R267), as operands 24 to 31. -/
def bufferWrites (i : Instr) : List Nat :=
  (rawDests i ++ ((instrDest i).map (fun d => d.1)).toList).filter (fun r => decide (24 ≤ r))

/-- A block-control word (R27). -/
def isControl : Instr → Bool
  | .commit | .br _ _ _ _ _ | .halt => true
  | _ => false

/-- An irrevocable operation (R27). -/
def irrevocableWord : Instr → Bool
  | .aadd _ _ _ _ _ _ | .amin _ _ _ _ _ _ | .amax _ _ _ _ _ _ | .aand _ _ _ _ _ _ | .aor _ _ _ _ _ _ | .axor _ _ _ _ _ _
  | .aswp _ _ _ _ _ _ | .acas _ _ _ _ _ _ | .ldfe _ _ _ _ | .ste _ _ _ _ | .place _ _ _ | .pwait _ _ _ _ | .pgive _ _ _ _
  | .pswap _ _ _ _ | .paban _ _ _ _ | .prel _ _ _ _ | .cpy _ _ _ | .gath _ _ _ | .scat _ _ _ | .trig _ _ _ | .coll _ _ _
  | .flagst _ _ _ | .adjb _ _ _ _ | .wrel _ _ _ => true
  | _ => false

def isRrot : Instr → Bool
  | .rrot _ _ _ _ => true
  | _ => false

/-- A word that emits scale tokens (R202 to R204). -/
def emitsScale : Instr → Bool
  | .scem _ _ _ _ => true
  | .cvt _ _ f _ _ => isBfp f.toNat
  | _ => false

/-- A buffer operand among operands. -/
def cbsOf (l : List Nat) : List Nat := (l.filter (fun r => decide (24 ≤ r))).map (· - 24)

/-- A check of a block whose words start at index `k` of the pattern's words. -/
def Block.check (b : Block) (d : DWord) (k : Nat) (conv scale : Bool) : Option CfgFail :=
  let dec := b.words.map (fun w => (decodeElem w.toNat).toOption)
  let is := dec.filterMap id
  let trig := b.buffers.map (fun x => x.1)
  let reads := cbsOf (is.flatMap unitReads)
  let tiles := cbsOf (is.flatMap tileReads)
  let joins := cbsOf (is.flatMap (fun i => match i with | .join _ _ c _ _ _ => [c.toNat] | _ => []))
  let units := (List.range 12).any (fun x => match lanesTo (20 + x) is 0 with
    | some n => n % 8 != 0 || (decide (x < 4) && decide (32 < n))
    | none => true)
  let at_ := fun (f : Instr → Bool) => is.findIdx? f
  if badDesc d then some (illopAt k)
  else match dec.findIdx? (fun x => x.isNone) with
    | some i => some (illopAt (k + i))
    | none =>
      match (if conv then none else at_ (fun i => match i with | .cvt _ _ _ _ _ => true | _ => false)) with
      | some i => some (illopAt (k + i))
      | none => match (if scale then none else at_ emitsScale) with
        | some i => some (illopAt (k + i))
        | none =>
          if (is.filter isControl).length ≠ 1 ∨ 1 < (is.filter irrevocableWord).length ∨ 1 < (is.filter isRrot).length ∨
              units ∨ tiles.any (fun c => reads.contains c || !trig.contains c) ∨ joins.any (fun c => !trig.contains c) then
            some (illopAt k)
          else none

/-- Check every block, `k` words into the pattern. -/
def checkBlocks (conv scale : Bool) : List (Nat × DWord × List Word) → Nat → Option CfgFail
  | [], _ => none
  | (_, d, ws) :: r, k => match (Block.make d ws).check d k conv scale with
    | some f => some f
    | none => checkBlocks conv scale r (k + ws.length)

/-- A buffer named by WAITF is never written, and one named by WAITE never in a trigger (R172): the index of a word that
breaks it. -/
def claimRule (bs : List (Nat × DWord × List Word)) : Option Nat :=
  let is := bs.flatMap (fun b => (Block.make b.2.1 b.2.2).instrs)
  let written := cbsOf (is.flatMap bufferWrites)
  let trig := bs.flatMap (fun b => (Block.make b.2.1 b.2.2).buffers.map (fun x => x.1))
  is.findIdx? (fun i => match i with
    | .waitf _ a _ => written.contains (a.toNat - 24)
    | .waite _ a _ => trig.contains (a.toNat - 24)
    | _ => false)

/-! ### Initial-state records (R294, R295) -/

/-- The record as it is kept: kind, index or vault address with FE, payload. -/
def initRec (h : DWord) (bs : List Byte) : InitRec :=
  let k := bits h 63 60
  { kind := k, index := if k = 5 then bits h 31 0 * 2 + bits h 59 59 else bits h 58 55, data := bs }

/-- A record that breaks R294, R17, R239 or R245 by itself. -/
def badInit (h : DWord) (bs : List Byte) : Bool :=
  let k := bits h 63 60
  let n := bs.length
  let v := numAt bs 0 8
  let idx := bits h 58 55
  let lim := [16, 16, 8, 8, 1, 1, 4].getD k 0
  decide (6 < k) || bits h 54 52 != 0 || n % 8 != 0 || decide (lim ≤ idx) ||
  (if k = 5 then decide (2 ^ 19 ≤ bits h 31 0) || bits h 31 0 % 8 != 0 || n == 0 || decide (0x80000 < bits h 31 0 + n)
   else bits h 59 59 != 0 || bits h 31 0 != 0) ||
  (match k with
   | 0 | 2 => n != 8 || decide (2 ^ 32 ≤ v)
   | 1 => n != 32
   | 3 => n != 8 || !cbValid (BitVec.ofNat 64 v) || decide (cbNslot (BitVec.ofNat 64 v) < cbOcc (BitVec.ofNat 64 v))
   | 4 => n != 8 || decide (3 < v)
   | 6 =>
     let c := v / 2 ^ 8 % 16
     let ts := (List.range c).map (fun i => numAt bs (8 + 16 * i) 8)
     let cs := (List.range c).map (fun i => numAt bs (16 + 16 * i) 8)
     n != 8 + 16 * c || decide (2 ^ 12 ≤ v) || v / 2 ^ 6 % 4 != 0 || v / 2 ^ 4 % 4 == 3 || decide (8 < c) ||
     cs.any (fun x => x == 0 || decide (2 ^ 16 ≤ x)) || ts.dedup.length != ts.length
   | _ => false)

/-- Two records set one item, or their vault data overlap. -/
def initClash (x y : InitRec) : Bool :=
  x.kind == y.kind &&
  (if x.kind = 5 then decide (x.index / 2 < y.index / 2 + y.data.length) && decide (y.index / 2 < x.index / 2 + x.data.length)
   else x.index == y.index)

/-- The number of the first record that fails, from record `n` on; `old` came before. -/
def checkInits (old : List InitRec) : List (DWord × List Byte) → Nat → Option Nat
  | [], _ => none
  | (h, bs) :: r, n =>
    let x := initRec h bs
    if badInit h bs ∨ old.any (fun y => initClash x y) then some n else checkInits (old ++ [x]) r (n + 1)

/-! ### One element's configuration -/

/-- An element has a converter position (R68). -/
def isConv (e : Nat) : Bool := e == 0 || e == 7 || e == 56 || e == 63

/-- The configuration that a record gives an element, or the first check that fails. Where an element breaks several checks the spec does
not say which is reported; the order here (the switch list, the blocks, WAITF and WAITE, the initial-state records) is the model's: a
DESIGN CHOICE (log 56). -/
def RawPattern.conf (x : RawPattern) (e : Nat) : Except CfgFail ElemConf :=
  let conv := isConv e
  match switchRead conv x.switch 0 Router.reset with
  | .error i => .error (switchAt i)
  | .ok r =>
    match checkBlocks conv (r.scale.any (fun s => s.1 == 7)) x.blocks 0 with
    | some f => .error f
    | none => match claimRule x.blocks with
      | some i => .error (illopAt i)
      | none => match checkInits [] x.inits 0 with
        | some i => .error (illopAt i)
        | none => .ok ⟨x.blocks.map (fun b => (b.1, Block.make b.2.1 b.2.2)), { r with list := x.switch },
            x.inits.map (fun y => initRec y.1 y.2)⟩

/-! ### Rectangles (R107) -/

/-- The load element coordinates that a rectangle covers; none where it breaks R107 in a load of some columns and rows. -/
def rectCells (r : DWord) (w h : Nat) : Option (List (Nat × Nat)) :=
  let x0 := bits r 8 0
  let x1 := bits r 24 16
  let y0 := bits r 15 9
  let y1 := bits r 31 25
  let xs := bits r 34 32 + 1
  let ys := bits r 37 35 + 1
  let cols := (x1 - x0) / xs
  let rows := (y1 - y0) / ys
  if bits r 63 38 ≠ 0 ∨ x1 < x0 ∨ y1 < y0 ∨ w ≤ x0 + cols * xs ∨ h ≤ y0 + rows * ys then none
  else some ((List.range (rows + 1)).flatMap (fun j => (List.range (cols + 1)).map (fun i => (x0 + i * xs, y0 + j * ys))))

/-- Write a record into the configurations of the patch with index `lp` of a load laid out with `pw` columns of patches, for
one rectangle. The spec gives no element and no index for what breaks R107: a rectangle that breaks it names element 0 and index 0, an
element that is covered twice itself and index 0 (DESIGN CHOICE, log 73). -/
def coverRect (x : RawPattern) (pw ph lp : Nat) (r : DWord) (m : SMap ElemConf) : Except CfgFailAt (SMap ElemConf) :=
  match rectCells r (8 * pw) (8 * ph) with
  | none => .error ⟨0, illopAt 0⟩
  | some cells =>
    let mine := (cells.filter (fun c => c.2 / 8 * pw + c.1 / 8 == lp)).map (fun c => c.2 % 8 * 8 + c.1 % 8)
    mine.foldlM (fun m e =>
      if (smFind m e).isSome then .error ⟨e, illopAt 0⟩
      else match x.conf e with
        | .ok c => .ok (smSet m e c)
        | .error f => .error ⟨e, f⟩) m

/-- Write a record for all its rectangles. -/
def coverAll (x : RawPattern) (pw ph lp : Nat) (m : SMap ElemConf) : Except CfgFailAt (SMap ElemConf) :=
  x.rects.foldlM (fun m r => coverRect x pw ph lp r m) m

/-! ### Checks of whole patches (R25, R96, R100, R146, R457) -/

/-- The configuration at load element coordinates, if some pattern gives one. -/
abbrev ConfAt := Nat → Nat → Option ElemConf

/-- A neighbour in the load's grid, and the input there; none outside the load. -/
def gridStep (w h x y o : Nat) : Option (Nat × Nat × Nat) :=
  match o with
  | 0 => if y = 0 then none else some (x, y - 1, 2)
  | 1 => if x + 1 < w then some (x + 1, y, 3) else none
  | 2 => if y + 1 < h then some (x, y + 1, 0) else none
  | 3 => if x = 0 then none else some (x - 1, y, 1)
  | _ => none

/-- The router at some coordinates. -/
def ConfAt.router (g : ConfAt) (x y : Nat) : Router := ((g x y).map (fun c => c.router)).getD Router.reset

/-- The outputs to which a router sends a channel of an input, in any slot. -/
def Router.outs (r : Router) (i c : Nat) : List Nat :=
  let b := (r.binds.filter (fun b => b.i == i && b.v == c)).map (fun b => b.o)
  if b.isEmpty then ((r.best.filter (fun b => b.1 == i)).map (fun b => b.2)).take 1 else b.dedup

/-- Some chain of bindings leads from a router input and channel to another; `fuel` steps. A chain that passes none twice is shorter
than `maxChain`: the largest load has 40,960 routers, each entered by four inputs (R100). -/
def ConfAt.leads (g : ConfAt) (w h : Nat) (goal : Nat × Nat × Nat × Nat) :
    Nat → List (Nat × Nat × Nat × Nat) → Nat × Nat × Nat × Nat → Bool
  | 0, _, _ => false
  | fuel + 1, seen, (x, y, i, c) =>
    if (x, y, i, c) = goal then true
    else if seen.contains (x, y, i, c) then false
    else ((g.router x y).outs i c).any (fun o => match gridStep w h x y o with
      | some (x', y', i') => g.leads w h goal fuel ((x, y, i, c) :: seen) (x', y', i', c)
      | none => false)

/-- The queues that a channel of an input reaches. -/
def ConfAt.reach (g : ConfAt) (w h : Nat) : Nat → Nat × Nat × Nat × Nat → List (Nat × Nat × Nat)
  | 0, _ => []
  | fuel + 1, (x, y, i, c) => ((g.router x y).outs i c).flatMap (fun o =>
      if o = 4 then [(x, y, c)]
      else match gridStep w h x y o with
        | some (x', y', i') => g.reach w h fuel (x', y', i', c)
        | none => [])

/-- The words of a configuration with their indices. -/
def ElemConf.indexed (c : ElemConf) : List (Nat × Instr) :=
  let ws := c.blocks.flatMap (fun b => b.2.words)
  ((List.range ws.length).zip ws).filterMap (fun x => ((decodeElem x.2.toNat).toOption).map (fun i => (x.1, i)))

/-- The CVT words that read queue `q`: index and source format (R457). -/
def ElemConf.readers (c : ElemConf) (q : Nat) : List (Nat × Nat) :=
  c.indexed.filterMap (fun x => match x.2 with
    | .cvt a _ _ s _ => if a.toNat = 16 + q then some (x.1, s.toNat) else none
    | _ => none)

/-- The CVT words that write port `o`: index and destination format. -/
def ElemConf.writers (c : ElemConf) (o : Nat) : List (Nat × Nat) :=
  c.indexed.filterMap (fun x => match x.2 with
    | .cvt _ b f _ _ => if b.toNat = 20 + o then some (x.1, f.toNat) else none
    | _ => none)

/-- The width code that a CVT of a source format declares (R98, R198). -/
def cvtWidth (f : Nat) : Nat :=
  if 4 ≤ f ∧ f ≤ 7 then 1 else if 9 ≤ f ∧ f ≤ 11 then 3 else if 12 ≤ f ∧ f ≤ 13 then 2 else if 14 ≤ f then 1 else 0

/-- The words that declare a width for queue `q`: index and width code. CVT does by its source format (R198) and UNPK by its width
field (R168). -/
def ElemConf.declares (c : ElemConf) (q : Nat) : List (Nat × Nat) :=
  c.indexed.filterMap (fun x => match x.2 with
    | .cvt a _ _ s _ => if a.toNat = 16 + q then some (x.1, cvtWidth s.toNat) else none
    | .unpk _ a _ _ wd _ _ => if a.toNat = 16 + q then some (x.1, wd.toNat) else none
    | _ => none)

/-- The width of the link that leaves a router by an output. -/
def Router.widthOf (r : Router) (o : Nat) : Nat := ((r.width.find? (fun b => b.1 == o)).map (fun b => b.2)).getD 0

/-- A BR to a block that is not loaded or is standing (R96). -/
def ElemConf.badBranch (c : ElemConf) : Option Nat :=
  (c.indexed.find? (fun x => match x.2 with
    | .br k _ _ _ _ => (match smFind c.blocks k.toNat with
      | some b => b.st
      | none => true)
    | _ => false)).map (fun x => x.1)

/-- The words of a switch list with their halfword indices; the extension of a SLOT is no word (R99). -/
def switchWords : List Half → Nat → List (Nat × Instr)
  | [], _ => []
  | [h], n => match decodeSwitch h.toNat none with
    | .ok w => [(n, w)]
    | .error _ => []
  | h :: x :: rest, n => match decodeSwitch h.toNat (some x.toNat) with
    | .ok .endList => [(n, .endList)]
    | .ok (.slot i o v f k) => (n, .slot i o v f k) :: switchWords rest (n + 2)
    | .ok w => (n, w) :: switchWords (x :: rest) (n + 1)
    | .error _ => []

/-- The input, output and channel of a routing word; a BEST has no channel. -/
def routing : Instr → Option (Nat × Nat × Option Nat)
  | .circ i o v | .slot i o v _ _ => some (i.toNat, o.toNat, some v.toNat)
  | .best i o => some (i.toNat, o.toNat, none)
  | _ => none

/-- The halfword of the first routing word that has a property. -/
def ElemConf.routeWord (c : ElemConf) (f : Nat × Nat × Option Nat → Bool) : Option Nat :=
  ((switchWords c.router.list 0).find? (fun x => match routing x.2 with
    | some r => f r
    | none => false)).map (fun x => x.1)

/-- A CIRC, SLOT or BEST word whose output leads out of the load (R100). -/
def ElemConf.badEdge (c : ElemConf) (w h x y : Nat) : Option Nat :=
  c.routeWord (fun r => decide (r.2.1 < 4) && (gridStep w h x y r.2.1).isNone)

/-- A CIRC, SLOT or BEST word from whose output a chain leads back to its input and channel (R100): for a BEST, a channel that no other
word binds. -/
def ElemConf.badChain (c : ElemConf) (g : ConfAt) (w h x y : Nat) : Option Nat :=
  c.routeWord (fun r => (match r.2.2 with
    | some v => [v]
    | none => (List.range 16).filter (fun v => c.router.binds.all (fun b => b.i != r.1 || b.v != v))).any (fun v =>
      match gridStep w h x y r.2.1 with
      | some (x', y', i') => g.leads w h (x, y, r.1, v) maxChain [] (x', y', i', v)
      | none => false))

/-- The word of a CVT whose format differs from that of another CVT of the port or queue (R457). -/
def ElemConf.mixed (c : ElemConf) : Option Nat :=
  let odd := fun (l : List (Nat × Nat)) => (l.find? (fun a => l.any (fun b => a.2 != b.2))).map (fun a => a.1)
  (List.range 4).findSome? (fun n => (odd (c.writers n)).orElse (fun _ => odd (c.readers n)))

/-- The routes of a configured element that join a port and a queue whose known formats differ (R457): the writing word, the element
that reads, by its load coordinates, and its word. -/
def ElemConf.clashes (c : ElemConf) (g : ConfAt) (w h x y : Nat) : List (Nat × (Nat × Nat) × Nat) :=
  (List.range 4).flatMap (fun o => match c.writers o with
    | [] => []
    | (i, f) :: _ => (g.reach w h maxChain (x, y, 4, o)).flatMap (fun q => match g q.1 q.2.1 with
      | some d => ((d.readers q.2.2).filter (fun r => r.2 != f)).map (fun r => (i, (q.1, q.2.1), r.1))
      | none => []))

/-- A format that differs along a route, or among the CVT words of one port or queue (R457): the word. The spec does not say whether a
mismatch along a route names the writing or the reading word; the model names the writing one, the first CVT of the port: a DESIGN
CHOICE (log 57). -/
def ElemConf.badFormat (c : ElemConf) (g : ConfAt) (w h x y : Nat) : Option Nat :=
  c.mixed.orElse (fun _ => ((c.clashes g w h x y).head?).map (fun k => k.1))

/-- The width code that governs queue `q` for slots that reach its router on input `i` (R25). -/
def ConfAt.govern (g : ConfAt) (w h x y i : Nat) : Nat :=
  if i < 4 then match gridStep w h x y i with
    | some (x', y', o) => (g.router x' y').widthOf o
    | none => 0
  else (g.router x y).widthOf 4

/-- A width that differs from what a word of the queue declares (R25): the word. -/
def ElemConf.badWidth (c : ElemConf) (g : ConfAt) (w h x y : Nat) : Option Nat :=
  (List.range 4).findSome? (fun q =>
    let rs := c.declares q
    let ins := ((List.range 7).filter (fun i => i != 4 && ((c.router).outs i q).contains 4))
    (rs.find? (fun r => rs.any (fun t => t.2 != r.2) || ins.any (fun i => g.govern w h x y i != r.2))).map (fun r => r.1))

/-- Branch targets and routing of the element at some coordinates (R96, R100). -/
def ElemConf.badShape (c : ElemConf) (g : ConfAt) (w h x y : Nat) : Option CfgFail :=
  match c.badBranch with
  | some i => some (illopAt i)
  | none => ((c.badEdge w h x y).orElse (fun _ => c.badChain g w h x y)).map switchAt

/-- The first element of a patch, in rising order, that a check fails. -/
def firstBad (m : SMap ElemConf) (px py : Nat) (f : ElemConf → Nat → Nat → Option CfgFail) : Option CfgFailAt :=
  m.findSome? (fun x => (f x.2 (8 * px + x.1 % 8) (8 * py + x.1 / 8)).map (fun k => ⟨x.1, k⟩))

/-- The branch targets and routing of a patch's elements. -/
def ConfAt.badShapes (g : ConfAt) (m : SMap ElemConf) (w h px py : Nat) : Option CfgFailAt :=
  firstBad m px py (fun c x y => c.badShape g w h x y)

/-- The formats of a patch's elements. -/
def ConfAt.badFormats (g : ConfAt) (m : SMap ElemConf) (w h px py : Nat) : Option CfgFailAt :=
  firstBad m px py (fun c x y => (c.badFormat g w h x y).map (fun i => ⟨.cfgNoconv, i, false⟩))

/-- The widths of a patch's elements. -/
def ConfAt.badWidths (g : ConfAt) (m : SMap ElemConf) (w h px py : Nat) : Option CfgFailAt :=
  firstBad m px py (fun c x y => (c.badWidth g w h x y).map illopAt)

/-- The load element coordinates outside a patch. -/
def outside (w h px py : Nat) : List (Nat × Nat) :=
  ((List.range h).flatMap (fun y => (List.range w).map (fun x => (x, y)))).filter (fun c => c.1 / 8 != px || c.2 / 8 != py)

/-- A route from a port of another patch whose format differs from that of a queue it reaches, where the queue answers a test (R146,
R457): the reading element and its word, which are those of the patch where the route ends in it (log 57). -/
def ConfAt.badFormatIn (g : ConfAt) (w h px py : Nat) (f : Nat × Nat → Bool) : Option CfgFailAt :=
  (outside w h px py).findSome? (fun c => (g c.1 c.2).bind (fun d =>
    ((d.clashes g w h c.1 c.2).find? (fun k => f k.2.1)).map (fun k =>
      ⟨k.2.1.2 % 8 * 8 + k.2.1.1 % 8, ⟨.cfgNoconv, k.2.2, false⟩⟩)))

/-- Every check that covers a whole patch, with the routes that end in it (R25, R96, R100, R146, R457). Formats come before widths, so that
a route that fails both is CFG_NOCONV (R457); the spec gives the rest no order (log 56). -/
def checkPatch (m : SMap ElemConf) (g : ConfAt) (w h px py : Nat) : Option CfgFailAt :=
  [g.badShapes m w h px py, g.badFormats m w h px py, g.badFormatIn w h px py (fun q => q.1 / 8 == px && q.2 / 8 == py),
    g.badWidths m w h px py].findSome? id

/-- A queue of another patch whose words declare another width than a link of the load governs it with (R25, R146): the consuming element
and its word. -/
def ConfAt.badWidthIn (g : ConfAt) (w h px py : Nat) : Option CfgFailAt :=
  (outside w h px py).findSome? (fun c => (g c.1 c.2).bind (fun d =>
    (d.badWidth g w h c.1 c.2).map (fun i => ⟨c.2 % 8 * 8 + c.1 % 8, illopAt i⟩)))

/-- The checks of CFGCMT: those of the patch, and those of routes and links of the other patches of its load, which run what passed
their own checks, so that what fails now crosses an edge of this patch (R146). -/
def checkCommit (m : SMap ElemConf) (g : ConfAt) (w h px py : Nat) : Option CfgFailAt :=
  [g.badShapes m w h px py, g.badFormats m w h px py, g.badFormatIn w h px py (fun _ => true), g.badWidths m w h px py,
    g.badWidthIn w h px py].findSome? id

/-! ### Taking a configuration (R11, R31, R294) -/

/-- What one initial-state record of kind 0 to 4 and 6 does to an element. -/
def Elem.init (v : Elem) (x : InitRec) : Elem :=
  let n := numAt x.data 0 8
  match x.kind with
  | 0 => { v with r := { v.r with s := v.r.s.set x.index (BitVec.ofNat 32 n) } }
  | 1 => { v with r := { v.r with w := v.r.w.set x.index (ofBytes x.data) } }
  | 2 => { v with r := { v.r with m := v.r.m.set x.index (BitVec.ofNat 32 n) } }
  | 3 => { v with r := { v.r with cb := v.r.cb.set x.index (BitVec.ofNat 64 n) } }
  | 4 => { v with r := { v.r with fuse := BitVec.ofNat 2 n } }
  | 6 =>
    let caps := (List.range (n / 2 ^ 8 % 16)).map (fun i =>
      ((BitVec.ofNat 64 (numAt x.data (8 + 16 * i) 8) : DWord), numAt x.data (16 + 16 * i) 8))
    v.modPort x.index (fun o => { o with psum := BitVec.ofNat 6 n, caps := caps })
  | _ => v

/-- An element as a configuration sets it up: every item that the configuration does not give has its reset value (R11). -/
def ElemConf.elem (c : ElemConf) : Elem :=
  c.inits.foldl Elem.init { Elem.reset with blocks := c.blocks, router := c.router }

/-- The vault data of initial-state records: every word is set full or empty as its record says (R294). -/
def State.initVault (s : State) (p e : Nat) (c : ElemConf) : State :=
  c.inits.foldl (fun s x =>
    if x.kind = 5 then
      let a := vaultAddr p e (x.index / 2)
      let s := s.ownFlush a x.data.length
      { s with mem := (s.mem.write a x.data).marks ((wordsAt a x.data.length).map (fun w => (w, x.index % 2 == 1))) }
    else s) s

/-- All 64 elements of a patch take a configuration, and start (R107, R146). -/
def State.configure (s : State) (p : Nat) (m : SMap ElemConf) : State :=
  let x := s.patch p
  let els := (List.range 64).map (fun e => (e, match smFind m e with
    | some c => c.elem
    | none => Elem.reset))
  m.foldl (fun s c => s.initVault p c.1 c.2) (s.setPatch p { x with elems := els })

end Sys2Proof.Machine
end

