-- ==== Sys2Proof/Machine/SeqCfg.lean ====
section
/-! DEFINITION. The configuration words of the sequencer and the swap of a patch's configuration (R142 to R148, R387, R388). -/

namespace Sys2Proof.Machine

/-! ### Reading an image (R133, R144) -/

/-- What a read of many bytes of flat memory comes to. -/
inductive Bulk where
  | ok (bs : List Byte) (s : State)
  | wait (s : State)
  | fault (c : Cause) (sub : Nat) (fa : DWord) (s : State)

/-- An agent's word or packet waits for a frame or a node under pull, from now on if it did not already (R345, R357). -/
def State.pulling (s : State) : AgentId → State
  | .seq p => s.setSeq p { s.seq p with pullAt := some ((s.seq p).pullAt.getD s.clock.ns) }
  | _ => s

/-- Translation for a sequencer, by its die's cache, or for the command processor, by the tables (R343, R348). -/
def State.bulkTranslate (s : State) (part : Nat) (fa : DWord) : AgentId → Tr Place
  | .seq p => s.seqTranslate p fa .plain
  | _ => s.translate part fa .plain

/-- The reads of a span at a place: at most 256 bytes each where another module holds it (R411). -/
def readCuts (pl : Place) (fa : DWord) (n : Nat) : List (Place × DWord × Nat) :=
  if pl.module.isSome then (List.range ((n + 255) / 256)).map (fun i =>
    ({ pl with addr := pl.addr + 256 * i }, fa + BitVec.ofNat 64 (256 * i), Nat.min 256 (n - 256 * i)))
  else [(pl, fa, n)]

/-- The bytes of several places, as an agent reads them at `.dev`. -/
def State.readCut (s : State) (ag : AgentId) : List (Place × DWord × Nat) → Bulk
  | [] => .ok [] s
  | (pl, fa, n) :: r =>
    match s.readVia ag .dev pl n fa with
    | .fault c sub t => .fault c sub fa t
    | .wait t _ => .wait t
    | .got bs t => match t.readCut ag r with
      | .ok more u => .ok (bs ++ more) u
      | .wait u => .wait (u.keepAnswers s t)
      | x => x

/-- Read pieces of flat memory, each in one frame, by an agent of a partition. -/
def State.readPieces (s : State) (ag : AgentId) (part : Nat) (fa : DWord) : List (Nat × Nat) → Bulk
  | [] => .ok [] s
  | (o, n) :: r =>
    let a := fa + BitVec.ofNat 64 o
    match s.bulkTranslate part a ag with
    | .wait => .wait (s.pulling ag)
    | .fault c sub => .fault c sub a s
    | .ok pl => match s.readCut ag (readCuts pl a n) with
      | .ok bs t => match t.readPieces ag part fa r with
        | .ok more u => .ok (bs ++ more) u
        | .wait u => .wait (u.keepAnswers s t)
        | x => x
      | x => x

/-- Read `n` bytes of flat memory from an address on. -/
def State.readFlat (s : State) (ag : AgentId) (part : Nat) (fa : DWord) (n : Nat) : Bulk :=
  s.readPieces ag part fa (pieces fa.toNat n (n / 65536 + 2))

/-- Read a pattern record: its header, then the whole of it (R106). -/
def State.readRecord (s : State) (ag : AgentId) (part : Nat) (fa : DWord) : Bulk :=
  match s.readFlat ag part fa 32 with
  | .ok h t =>
    if patternSize h ≤ 32 then .ok h t
    else match t.readFlat ag part fa (patternSize h) with
      | .wait u => .wait (u.keepAnswers s t)
      | x => x
  | x => x

/-! ### Phases (R143 to R148) -/

/-- The layout of the load that a patch works for: columns and rows of patches. -/
def State.layout (s : State) (p : Nat) : Nat × Nat := ((s.loadOf p).map (fun l => (l.img.pw, l.img.ph))).getD (1, 1)

/-- The configuration that the elements of a load run, at load element coordinates. -/
def State.running (s : State) (p : Nat) : ConfAt := fun x y =>
  match s.loadOf p with
  | none => none
  | some l => (l.at_ x y).bind (fun c => (smFind (s.patch c.1).elems c.2).map (fun v => ⟨v.blocks, v.router, []⟩))

/-- The running configuration with one patch's replaced. -/
def State.runningWith (s : State) (p : Nat) (m : SMap ElemConf) : ConfAt := fun x y =>
  let (pw, _) := s.layout p
  let lp := s.lpOf p
  if y / 8 * pw + x / 8 = lp then smFind m (y % 8 * 8 + x % 8) else s.running p x y

/-- Set a patch's phase. -/
def State.setPhase (s : State) (p : Nat) (f : Phase) : State := s.setPatch p { s.patch p with phase := f }

/-- A configuration word completes: gd takes its status (R110, R142). -/
def State.cfgDone (s : State) (d : BitVec 5) (st : Word) : State := s.complete (fun q => q.put d st)

/-- A check fails: the shadow store is discarded and the phase poisoned (R145). -/
def State.cfgFail (s : State) (d : BitVec 5) (st : Word) : State :=
  let f := (s.patch s.cur.patch).phase
  (s.setPhase s.cur.patch { f with opened := true, poison := some st, shadow := [], lastPat := none }).cfgDone d st

/-- The status that a broken or poisoned phase returns (R145, R148). -/
def Phase.refuses (f : Phase) : Option Word := if f.broken then some 5 else f.poison

/-- Write a pattern record's bytes into the shadow store of the patch with index `lp` of a load (R144). -/
def Phase.write (f : Phase) (pw ph lp : Nat) (bs : List Byte) : Except CfgFailAt Phase :=
  match RawPattern.parse bs with
  | .error e => .error ⟨0, e⟩
  | .ok x => (coverAll x pw ph lp f.shadow).map (fun m => { f with opened := true, shadow := m, lastPat := some x })

/-- What a configuration word has come to: the phase with its records and their size in bytes, a failed check, a wait or a
fault. -/
inductive CfgRun where
  | ok (f : Phase) (n : Nat) (s : State)
  | bad (st : Word) (s : State)
  | wait (s : State)
  | fault (c : Cause) (sub : Nat) (fa : DWord) (s : State)

/-- Records that follow one another in flat memory, each read and then checked and written, before the next one (R144). -/
def State.cfgRecords (s : State) (p : Nat) (fa : DWord) : Nat → Phase → CfgRun
  | 0, f => .ok f 0 s
  | k + 1, f =>
    match s.readRecord (.seq p) (s.partOf p) fa with
    | .wait t => .wait t
    | .fault c sub v t => .fault c sub v t
    | .ok bs t => match f.write (t.layout p).1 (t.layout p).2 (t.lpOf p) bs with
      | .error e => .bad e.status t
      | .ok f => match t.cfgRecords p (fa + BitVec.ofNat 64 bs.length) k f with
        | .ok f n u => .ok f (bs.length + n) u
        | .wait u => .wait (u.keepAnswers s t)
        | x => x

/-- A configuration word with its records: where a read faults, the word traps and the phase is as it was (R144); a failed check
poisons the phase (R145). -/
def State.cfgRun (s : State) (d : BitVec 5) (good : Phase → Nat → Bool) (x : CfgRun) : State :=
  let p := s.cur.patch
  match x with
  | .wait t => t
  | .fault c sub v t => t.flatFault p t.seqAt c sub v
  | .bad st t => t.cfgFail d st
  | .ok f n t => if good f n then (t.setPhase p f).cfgDone d 0 else t.cfgFail d 0x10

/-- CFGPAT: the record at the address is checked and written into the shadow store for its rectangles (R144). A first CFGPAT or
CFGLD of a phase whose read faults leaves no phase open: the spec's 'the phase stays open' speaks of one that is open already,
and the word is to have no effect on the phase; a DESIGN CHOICE (log 60). -/
def execCfgpat (d a : BitVec 5) (s : State) : Res :=
  let p := s.cur.patch
  let fa := (s.seq p).pair a
  match (s.patch p).phase.refuses with
  | some st => .next (s.cfgDone d st)
  | none =>
    if fa.toNat % 8 ≠ 0 then .next (s.flatFault p s.seqAt .align 0 fa)
    else .next (s.cfgRun d (fun _ _ => true) (s.cfgRecords p fa 1 (s.patch p).phase))

/-- CFGRECT: the phase's last pattern is written to one more rectangle (R144). -/
def execCfgrect (d a : BitVec 5) (s : State) : Res :=
  let p := s.cur.patch
  let f := (s.patch p).phase
  match f.refuses with
  | some st => .next (s.cfgDone d st)
  | none => match f.lastPat with
    | none => .next (s.cfgFail d 0x10)
    | some x =>
      let (pw, ph) := s.layout p
      match coverRect x pw ph (s.lpOf p) ((s.seq p).pair a) f.shadow with
      | .error e => .next (s.cfgFail d e.status)
      | .ok m => .next ((s.setPhase p { f with opened := true, shadow := m }).cfgDone d 0)

/-- CFGLD: the pattern records of a patch image, in order; a version that R296 rejects, or a size that the records do not
have, is CFG_ILLOP (R144, R293, R296). -/
def execCfgld (d a : BitVec 5) (s : State) : Res :=
  let p := s.cur.patch
  let fa := (s.seq p).pair a
  match (s.patch p).phase.refuses with
  | some st => .next (s.cfgDone d st)
  | none =>
    if fa.toNat % 8 ≠ 0 then .next (s.flatFault p s.seqAt .align 0 fa)
    else match s.readFlat (.seq p) (s.partOf p) fa 16 with
      | .wait t => .next t
      | .fault c sub v t => .next (t.flatFault p t.seqAt c sub v)
      | .ok h t =>
        if numAt h 0 4 / 65536 ≠ 1 then .next (t.cfgFail d 0x10)
        else .next (t.cfgRun d (fun _ n => numAt h 8 8 == 16 + n)
          (match t.cfgRecords p (fa + 16) (numAt h 4 4) { (t.patch p).phase with opened := true } with
           | .wait u => .wait (u.keepAnswers s t)
           | x => x))

/-- CFGABT: the shadow store is discarded and the phase ends (R147). -/
def execCfgabt (s : State) : Res := .next ((s.setPhase s.cur.patch Phase.reset).complete id)

/-- CFGCMT: the checks of the whole patch, then its sources stop; when CONFIG_SWAP has swapped the shadow store in, gd takes 0
and the phase ends; a freeze after the swap changes nothing of that (R145, R146, R148). -/
def execCfgcmt (d : BitVec 5) (s : State) : Res :=
  let p := s.cur.patch
  let f := (s.patch p).phase
  let finish := fun (s : State) (st : Word) => (s.setPhase p Phase.reset).cfgDone d st
  if f.done then .next (finish s 0)
  else match f.refuses with
  | some st => .next (finish s st)
  | none =>
    if !f.opened then .next (s.cfgDone d 0x10)
    else if f.drain then .next s
    else
      let (pw, ph) := s.layout p
      let lp := s.lpOf p
      let w := Nat.max 1 pw
      match checkCommit f.shadow (s.runningWith p f.shadow) (8 * pw) (8 * ph) (lp % w) (lp / w) with
      | some e => .next (finish s e.status)
      | none => .next (s.setPhase p { f with drain := true })

/-! ### Quiescence (R146, R387) -/

/-- Nothing of an element is in flight: no slot in its queues, output ports or router inputs, and no instance. -/
def Elem.quiet (v : Elem) : Bool :=
  v.q.all (fun l => l.isEmpty) && v.insts.isEmpty && v.rin.isEmpty &&
  v.o.all (fun o => o.buf.isEmpty && o.runs.isEmpty && o.emitter.isEmpty)

/-- A stream port is idle. -/
def Port.idle (k : Port) : Bool := k.running.isNone && k.cmds.isEmpty && k.parked.isNone

/-- A patch is quiescent. -/
def Patch.quiet (x : Patch) : Bool := x.elems.all (fun v => v.2.quiet) && x.ports.all (fun k => k.2.idle)

/-- CONFIG_SWAP: once a patch whose CFGCMT has stopped its sources is quiescent, the shadow store becomes its configuration and
its elements start; vault words stay but for those that initial-state records name (R146). -/
def execConfigSwap (p : Nat) (s : State) : Res :=
  let x := s.patch p
  if x.frozen || !x.running || !x.phase.drain || !x.quiet then .next s
  else
    let s := s.configure p x.phase.shadow
    let x := s.patch p
    .next (s.setPatch p { x with phase := { x.phase with drain := false, done := true }, resident := none })

end Sys2Proof.Machine
end

