-- ==== Sys2Proof/Machine/Images.lean ====
section
/-! DEFINITION. WLO load images: their reading, their checks, and what they give each patch (R291, R296, R382, R452). -/

namespace Sys2Proof.Machine

/-- A rejected image: the status, and the byte offset of what fails. -/
abbrev ImgFail := Cause × Nat

/-- A section entry (R291). -/
structure Sect where
  typ : Nat
  req : Bool
  count : Nat
  off : Nat
  len : Nat
  /-- where the entry stands in the file -/
  at_ : Nat
  deriving DecidableEq, Repr, Inhabited

/-- The section entry at an offset of the file, or the offset again where a reserved bit is set, the section is no multiple of
8 into the file, or it runs past the end. -/
def Sect.read (bs : List Byte) (a : Nat) : Except ImgFail Sect :=
  let w := numAt bs a 8
  let x : Sect := ⟨w / 2 ^ 56, w / 2 ^ 55 % 2 == 1, w % 2 ^ 32, numAt bs (a + 8) 8, numAt bs (a + 16) 8, a⟩
  if w / 2 ^ 32 % 2 ^ 23 ≠ 0 ∨ numAt bs (a + 24) 8 ≠ 0 ∨ x.off % 8 ≠ 0 ∨ bs.length < x.off + x.len then .error (.cfgIllop, a) else .ok x

/-- The file header of a load image that the command processor reads (R291, R296): none where it passes. -/
def badImage (h : List Byte) : Bool :=
  numAt h 4 4 != 0x4F4C5700 || numAt h 0 4 / 65536 != 1 || numAt h 8 8 / 2 ^ 56 != 1 || numAt h 8 8 / 2 ^ 16 % 2 ^ 40 != 0 ||
  (List.range 5).any (fun i => numAt h (24 + 8 * i) 8 != 0) || decide (numAt h 16 8 < 64 + 32 * (numAt h 8 8 % 2 ^ 16))

/-- The section types of R291. -/
def knownSect (t : Nat) : Bool := decide (1 ≤ t) && decide (t ≤ 12)

/-- The first section entry that a reader rejects: a type it does not know, with REQ set (R296). -/
def badSect (l : List Sect) : Option Nat := (l.find? (fun x => !knownSect x.typ && x.req)).map (fun x => x.at_)

/-- The bytes of a section. -/
def Sect.bytes (x : Sect) (bs : List Byte) : List Byte := (bs.drop x.off).take x.len

/-- The bytes of a text that are not zero, by address. -/
def textCells (bs : List Byte) : List Host.Cell := ((List.range bs.length).zip bs).filter (fun x => x.2 != 0)

/-- Patch entry `i` of `.cfghdr`, its text cut out of `.seq`. -/
def patchEntry (hdr : Sect) (seq : List Byte) (bs : List Byte) (i : Nat) : Except ImgFail (List Host.Cell × Half × DWord) :=
  let a := hdr.off + 32 + 32 * i
  let len := numAt bs a 4
  let off := numAt bs (a + 4) 4
  if numAt bs (a + 10) 6 ≠ 0 ∨ numAt bs (a + 24) 8 ≠ 0 ∨ 65536 < len ∨ (len ≠ 0 ∧ seq.length < off + len) then .error (.cfgIllop, a)
  else .ok (textCells ((seq.drop off).take len), BitVec.ofNat 16 (numAt bs (a + 8) 2), BitVec.ofNat 64 (numAt bs (a + 16) 8))

/-- The structure of a pattern record with a reserved bit that is not zero: its offset in the record. The header comes first, then the
rectangles, the block descriptors, the fill after the switch list, and the initial-state records (R26, R106, R107, R294, R296). -/
def reservedAt (bs : List Byte) : Option Nat :=
  let h := numAt bs 0 32
  let f := fun (hi lo : Nat) => h / 2 ^ lo % 2 ^ (hi - lo + 1)
  let mask := f 183 168
  let o1 := 32 + 8 * f 199 184
  let o2 := o1 + 8 * ((List.range 16).filter (fun n => mask.testBit n)).length
  let o4 := o2 + 4 * f 167 156 + 2 * f 155 144
  let o5 := (o4 + 7) / 8 * 8
  let w := fun (a : Nat) => (BitVec.ofNat 64 (numAt bs a 8) : DWord)
  let word := fun (a b : Nat) (p : DWord → Bool) => ((List.range ((b - a) / 8)).find? (fun i => p (w (a + 8 * i)))).map (fun i => a + 8 * i)
  let inits := ((List.range (f 143 136)).foldl (fun (r : List Nat × Nat) _ => (r.1 ++ [r.2], r.2 + 8 + bits (w r.2) 51 32)) ([], o5)).1
  if f 135 0 ≠ 0 then some 0
  else (word 32 o1 (fun d => bits d 63 38 != 0)).orElse (fun _ => (word o1 o2 (fun d => bits d 10 0 != 0)).orElse (fun _ =>
    if numAt bs o4 (o5 - o4) ≠ 0 then some o4
    else inits.find? (fun a => bits (w a) 54 52 != 0 || (bits (w a) 63 60 != 5 && (bits (w a) 59 59 != 0 || bits (w a) 31 0 != 0)))))

/-- Cut a section into pattern records by their PSZ; `a` is where the bytes stand in the file. The CRC of a record is checked before
anything else of it (R106), and one that fails names the record's offset; a reserved bit that is not zero names its structure's (R296,
R376). -/
def cutPatterns : Nat → List Byte → Nat → Except ImgFail (List (List Byte))
  | 0, bs, a => if bs.isEmpty then .ok [] else .error (.cfgIllop, a)
  | k + 1, bs, a =>
    let n := patternSize bs
    if badCrc (bs.take (Nat.max 32 n)) then .error (.cfgEcc, a)
    else if n < 32 ∨ bs.length < n then .error (.cfgIllop, a)
    else match reservedAt (bs.take n) with
      | some o => .error (.cfgIllop, a + o)
      | none => (cutPatterns k (bs.drop n) (a + n)).map (fun l => bs.take n :: l)

/-- KEYID of a public key: the first 8 bytes of the digest of its uncompressed form (R448). -/
def keyId (key : List Byte) : List Byte := (sha256 (4 :: key)).take 8

/-- A valid signature by one of the partition's keys over the file up to `.sig` (R292, R452). -/
def signed (keys : List (List Byte)) (x : Sect) (bs : List Byte) : Bool :=
  let r := x.bytes bs
  x.len == 80 && numAt r 0 8 == 1 && x.off + x.len == bs.length &&
  keys.any (fun k => keyId k == (r.drop 8).take 8 && verifies k (sha256 (bs.take x.off)) (r.drop 16))

/-- The record of `.sig` has a reserved bit that is not zero (R291, R296). -/
def badSig (x : Sect) (bs : List Byte) : Bool := numAt bs x.off 8 / 256 != 0

/-- The first record of `.slots` with a reserved bit that is not zero, or the section where its length is wrong. -/
def badSlots (x : Sect) (bs : List Byte) : Option Nat :=
  if x.len ≠ 8 * x.count then some x.off
  else ((List.range x.count).find? (fun i => numAt bs (x.off + 8 * i + 4) 4 != 0)).map (fun i => x.off + 8 * i)

/-- A load image, or what it is rejected for (R291, R296, R452). -/
def imageParse (pt : Part) (bs : List Byte) : Except ImgFail LoadImage := do
  if badImage bs then throw (.cfgIllop, 0)
  let sects ← (List.range (numAt bs 8 8 % 2 ^ 16)).mapM (fun i => Sect.read bs (64 + 32 * i))
  match badSect sects with
  | some a => throw (.cfgIllop, a)
  | none => pure ()
  let find := fun (t : Nat) => sects.find? (fun x => x.typ == t)
  match find 12 with
  | none => if pt.needSig then throw (.cfgIllop, bs.length)
  | some x => if badSig x bs || (pt.needSig && !signed pt.keys x bs) then throw (.cfgIllop, x.off)
  match (find 6).bind (fun x => badSlots x bs) with
  | some a => throw (.cfgIllop, a)
  | none => pure ()
  match find 1 with
  | none => throw (.cfgIllop, 0)
  | some h =>
    let pw := numAt bs h.off 2
    let ph := numAt bs (h.off + 2) 2
    let np := numAt bs (h.off + 4) 2
    if numAt bs (h.off + 6) 26 ≠ 0 ∨ np ≠ pw * ph ∨ np = 0 ∨ h.len ≠ 32 + 32 * np then throw (.cfgIllop, h.off)
    let seq := ((find 2).map (fun x => x.bytes bs)).getD []
    let texts ← (List.range np).mapM (fun i => patchEntry h seq bs i)
    let pats ← match find 4 with
      | none => pure []
      | some x => cutPatterns x.count (x.bytes bs) x.off
    pure ⟨pw, ph, texts, pats⟩

/-! ### Phase 1 of a configuration load (R382) -/

/-- The rectangles that a record's bytes list, whatever its CRC. -/
def rawRects (bs : List Byte) : List DWord :=
  (List.range (numAt bs 0 32 / 2 ^ 184 % 65536)).map (fun i => BitVec.ofNat 64 (numAt bs (32 + 8 * i) 8))

/-- A record is written to, or checked for, the patch with an index. -/
def touches (img : LoadImage) (lp : Nat) (bs : List Byte) : Bool :=
  (rawRects bs).isEmpty || (rawRects bs).any (fun r => match rectCells r (8 * img.pw) (8 * img.ph) with
    | none => true
    | some cells => cells.any (fun c => c.2 / 8 * img.pw + c.1 / 8 == lp))

/-- What the records give one patch, in order, or the first check that fails. -/
def LoadImage.conf (img : LoadImage) (lp : Nat) : Except CfgFailAt (SMap ElemConf) :=
  (img.pats.filter (touches img lp)).foldlM (fun m bs => match RawPattern.parse bs with
    | .error e => .error ⟨0, e⟩
    | .ok x => coverAll x img.pw img.ph lp m) []

/-- The configuration of a whole load at load element coordinates. -/
def confGrid (pw : Nat) (l : List (SMap ElemConf)) : ConfAt := fun x y => smFind (l.getD (y / 8 * pw + x / 8) []) (y % 8 * 8 + x % 8)

/-- What an image gives each patch, after every check of phase 1; or the patch with the lowest index that fails (R382). -/
def LoadImage.images (img : LoadImage) : Except (Nat × CfgFailAt) (List PatchImage) :=
  let n := img.pw * img.ph
  let all := (List.range n).map img.conf
  let l := all.map (fun c => (c.toOption).getD [])
  let bad := fun (lp : Nat) => match all.getD lp (.ok []) with
    | .error e => some (lp, e)
    | .ok m => (checkPatch m (confGrid img.pw l) (8 * img.pw) (8 * img.ph) (lp % Nat.max 1 img.pw) (lp / Nat.max 1 img.pw)).map
        (fun e => (lp, e))
  match (List.range n).findSome? bad with
  | some e => .error e
  | none => .ok ((List.range n).map (fun lp =>
      let t := img.texts.getD lp ([], 0, 0)
      ⟨l.getD lp [], t.1, t.2.1, t.2.2⟩))

/-- FADDR of a failed configuration load (R382): the patch index, and the detail of R145. -/
def cfgAddr (lp : Nat) (e : CfgFailAt) : DWord := BitVec.ofNat 64 (at64 lp 32 + e.status.toNat / 256 * 256)

end Sys2Proof.Machine
end

