-- ==== Sys2Proof/Machine/Alloc.lean ====
section
/-! DEFINITION. The allocator's operations: placement, giving patches back, resetting them, saving and restoring them, and the
Lull tree (R378, R383, R387, R390 to R392, R395). -/

namespace Sys2Proof.Machine

/-! ### Placement (R378, R443, R454) -/

/-- A patch holds no load and may be used by its partition; one that has failed its calibration is to be fenced (R443). -/
def State.patchFree (s : State) (p : Nat) : Bool := (s.patch p).load.isNone && !(s.patch p).fenced && !(s.patch p).calBad

/-- The die of a patch is at throttle step 4: no packet starts on it (R454). -/
def State.hot (s : State) (p : Nat) : Bool := decide (4 ≤ smGet 0 s.device.throttle (dieOf p))

/-- The free patches of a partition, rising, on dies where packets may start (R454). -/
def State.freePatches (s : State) (n : Nat) : List Nat :=
  (List.range 640).filter (fun p => (s.part n).patches.contains p && s.patchFree p && !s.hot p)

/-- The rectangle whose north-west patch is `p`, in load patch index order; none where it leaves the grid. -/
def rectAt (pw ph p : Nat) : Option (List Nat) :=
  if p % 40 + pw ≤ 40 ∧ p / 40 + ph ≤ 16 then
    some ((List.range (pw * ph)).map (fun i => p + 40 * (i / pw) + i % pw))
  else none

/-- Where a load of `pw` by `ph` patches goes among free patches: the free rectangle with the lowest north-west patch, else the
lowest-numbered free patches, else nowhere (R378). -/
def placeOn (free : List Nat) (pw ph : Nat) : Option (List Nat) :=
  match free.findSome? (fun p => (rectAt pw ph p).bind (fun l => if l.all free.contains then some l else none)) with
  | some l => some l
  | none => if pw * ph ≤ free.length then some (free.take (pw * ph)) else none

/-! ### Vaults and buffers of a patch -/

/-- The first global address of a patch's vaults, and the first beyond them. -/
def vaultSpan (p : Nat) : Nat × Nat := (vaultAddr p 0 0, vaultAddr (p + 1) 0 0)

/-- A global address lies in a patch's vaults. -/
def inVaults (p a : Nat) : Bool := decide ((vaultSpan p).1 ≤ a) && decide (a < (vaultSpan p).2)

/-- An entry with its age put in place among others, oldest first. -/
def insertEntry (e : VisEntry) : List VisEntry → List VisEntry
  | [] => [e]
  | x :: r => if e.age ≤ x.age then e :: x :: r else x :: insertEntry e r

/-- Drain every entry that answers a test, oldest first, to backing memory: Drain steps, made at once; what lies on another module is sent
there (R307, R308, R411). -/
def State.settleWhere (s : State) (f : VisEntry → Bool) : State :=
  let es := ((s.ord.vis.flatMap (fun v => v.2)).filter f).foldl (fun l e => insertEntry e l) []
  let s := { s with ord := { s.ord with vis := s.ord.vis.map (fun (v : VisId × List VisEntry) => (v.1, v.2.filter (fun e => !f e))) } }
  es.foldl (fun s e => (s.settleEntry e).sendWrites e
    (byteRuns (e.bytes.filter (fun c => (Place.mk c.1 .rc false false).module.isSome)))) s

/-- An agent of a patch: an element, its sequencer or a stream port. -/
def agentOf (p : Nat) : AgentId → Bool
  | .elem q _ | .seq q | .port q _ => p == q
  | _ => false

/-- An entry lies in a patch's vaults. -/
def VisEntry.inVaults (e : VisEntry) (p : Nat) : Bool :=
  e.bytes.any (fun b => Sys2Proof.Machine.inVaults p b.1) || e.marks.any (fun m => Sys2Proof.Machine.inVaults p (8 * m.1))

/-- Drain what lies in a patch's vaults. -/
def State.settleVaults (s : State) (p : Nat) : State := s.settleWhere (fun e => e.inVaults p)

/-- Drain what a patch's buffer holds, and what lies in its vaults. -/
def State.settlePatch (s : State) (p : Nat) : State :=
  let own := (s.ord.buffer (.patch p)).map (fun e => e.id)
  s.settleWhere (fun e => own.contains e.id || e.inVaults p)

/-- Every vault word of a patch becomes zero and empty (R19, R383); a store to one that has not been placed leaves with what it would
write. -/
def State.clearVaults (s : State) (p : Nat) : State :=
  let s := s.settleVaults p
  { s with mem := ⟨s.mem.cells.filter (fun c => !inVaults p c.1), s.mem.full.filter (fun w => !inVaults p (8 * w))⟩,
           ord := { s.ord with accs := s.ord.accs.filter (fun a => !a.words.any (fun w => inVaults p (8 * w))),
                               ages := s.ord.ages.filter (fun a => !inVaults p a.1),
                               seen := s.ord.seen.filter (fun x => !inVaults p x.2.1) } }

/-- What a patch's agents still have in the machine leaves it: accesses, requests to other modules, what they have seen. -/
def State.dropAgents (s : State) (p : Nat) : State :=
  { s with ord := { s.ord with accs := s.ord.accs.filter (fun x => !agentOf p x.agent),
                               seen := s.ord.seen.filter (fun x => !agentOf p x.1) },
           fabric := { s.fabric with asked := s.fabric.asked.filter (fun a => !agentOf p a.agent) } }

/-- A patch that its load gives back: it is free, and keeps its configuration and its vaults, but no staged image (R381, R383). -/
def State.releasePatch (s : State) (p : Nat) : State :=
  let s := (s.settlePatch p).dropAgents p
  s.setPatch p { s.patch p with load := none, running := false, frozen := false, reports := [], named := none, triggers := [],
                                phase := Phase.reset, staged := none, drainFrom := none, refused := [], freeSince := s.clock.ns }

/-- A patch is reset (R383, R395): its elements and sequencer take their reset state, every vault word is zero and empty, and it
holds no configuration. What its load has placed elsewhere stays where the ordering machine put it (R405). -/
def State.resetPatch (s : State) (p : Nat) : State :=
  let s := (s.dropAgents p).clearVaults p
  let x := s.patch p
  s.setPatch p { Patch.reset with part := x.part, fenced := x.fenced, calBad := x.calBad, fullRate := x.fullRate, freeSince := s.clock.ns }

/-! ### Quiescence and settling (R387, R390) -/

/-- Every slot, instance, stream and access of a load is at rest: what the Lull tree reports (R387). -/
def State.lull (s : State) (l : Load) : Bool := l.patches.all (fun p => (s.patch p).quiet)

/-- A frozen load has settled (R390 step 2): no instance has still to commit, every store of its agents is placed, and no
replay queue holds anything. -/
def State.settled (s : State) (l : Load) : Bool :=
  l.patches.all (fun p => (s.patch p).elems.all (fun v => v.2.replay.isEmpty && v.2.insts.all (fun i => i.st != .fired)) &&
    s.ord.accs.all (fun a => !agentOf p a.agent))

/-- An engine command or armed trigger of a load remains (R384). -/
def State.busy (s : State) (l : Load) : Bool :=
  s.commands l.q || l.patches.any (fun p => !(s.patch p).triggers.isEmpty)

/-! ### Save and restore (R11, R390 to R392) -/

/-- The vault of an element, from its start: bytes that are not zero, and full words. -/
def State.vaultOf (s : State) (p e : Nat) : List Host.Cell × List Nat :=
  let a := vaultAddr p e 0
  let b := vaultAddr p (e + 1) 0
  (((s.mem.cells.filter (fun (c : Host.Cell) => decide (a ≤ c.1) && decide (c.1 < b))).map (fun (c : Host.Cell) => (c.1 - a, c.2))),
   (s.mem.full.filter (fun w => decide (a / 8 ≤ w) && decide (w < b / 8))).map (fun w => w - a / 8))

/-- Write a saved vault back above an element. -/
def State.putVault (s : State) (p e : Nat) (x : List Host.Cell × List Nat) : State :=
  let a := vaultAddr p e 0
  { s with mem := (s.mem.puts (x.1.map (fun (c : Host.Cell) => (a + c.1, c.2)))).marks (x.2.map (fun w => (a / 8 + w, true))) }

/-- What a patch's save frame holds (R390, R391): the patch, and the vaults of the elements that its mask names. -/
def State.savePatch (s : State) (p : Nat) (rmask : DWord) : Saved :=
  ⟨p, s.patch p, ((List.range 64).filter (fun e => rmask.getLsbD e)).map (fun e => (e, s.vaultOf p e)),
    s.ord.seen.filter (fun x => agentOf p x.1 && decide (x.2.1 < vaultBase))⟩

/-- An element after restore (R11, R392): from the image, with its saved items; `readout` where the mask names it. -/
def restoreElem (conf : Option ElemConf) (old : Elem) (readout : Bool) : Elem :=
  let v := match conf with
    | some c => c.elem
    | none => Elem.reset
  if readout then { old with blocks := v.blocks, router := v.router, ft := v.ft }
  else { old with r := v.r, zskip := v.zskip, bconf := v.bconf, blocks := v.blocks, router := v.router, ft := v.ft,
                  o := (List.range 4).map (fun n =>
                    { old.o.getD n OutPort.reset with psum := (v.o.getD n OutPort.reset).psum }) }

/-- An agent of patch `a`, moved to patch `b`. -/
def moveAgent (a b : Nat) (x : AgentId) : AgentId :=
  match x with
  | .elem p e => .elem (if p = a then b else p) e
  | .seq p => .seq (if p = a then b else p)
  | .port p k => .port (if p = a then b else p) k
  | x => x

/-! ### Save frames (R390, R391) -/

/-- Bytes of a save frame. -/
def frameBytes : Nat := 48 * 2 ^ 20

/-- The save frames of a partition that no load of it holds: it has one for each patch that it is granted (R391). -/
def State.freeFrames (s : State) (n : Nat) : List Nat :=
  (List.range (s.part n).patches.length).filter (fun f => !s.loads.any (fun l => l.part == n && l.frames.contains f))

/-- Save frame `f` of a partition is written. What it holds is opaque to software: its bytes are free values (R391; log 47). -/
def State.writeFrame (s : State) (n f : Nat) : State :=
  match (s.part n).saveArea with
  | none => s
  | some a =>
    let fa := a + frameBytes * f
    (pieces fa frameBytes (frameBytes / 65536 + 2)).foldl (fun s x =>
      match s.translate n (BitVec.ofNat 64 (fa + x.1)) .host with
      | .ok pl =>
        let t := s.ownFlush pl.addr x.2
        { t with mem := t.mem.write pl.addr ((List.range x.2).map (fun i => Config.freeByte (s.free + i))), free := s.free + x.2 }
      | _ => s) s

/-- A load's state enters its save frames, where its partition has enough of them left (R390 step 3, R391). -/
def State.readOut (s : State) (l : Load) : State :=
  let fs := (s.freeFrames l.part).take l.patches.length
  if (s.part l.part).saveArea.isSome ∧ fs.length = l.patches.length then
    (fs.foldl (fun s f => s.writeFrame l.part f) s).modLoad l.q (fun x => { x with frames := fs })
  else s

/-- A load has been frozen, and its patches hold its state. -/
def State.standsFrozen (s : State) (l : Load) : Bool :=
  !l.patches.isEmpty && l.patches.all (fun p => (s.patch p).frozen)

/-- Every frozen load that has settled is read out (R390 step 3). -/
def State.readOuts (s : State) : State :=
  s.loads.foldl (fun s l => if s.standsFrozen l && l.frames.isEmpty && s.settled l then s.readOut l else s) s

/-- Restore a saved patch of a load onto a physical patch (R392): the elements from the image and the saved items, the vaults,
the sequencer at its saved pc with its event latch set (R150). -/
def State.restorePatch (s : State) (l : Load) (lp p : Nat) (sv : Saved) (img : PatchImage) : State :=
  let s := s.resetPatch p
  let x := s.patch p
  let els := (List.range 64).map (fun e => (e, restoreElem (smFind img.conf e) (sv.patch.elem e) (img.rmask.getLsbD e)))
  let s := img.conf.foldl (fun s c => if img.rmask.getLsbD c.1 then s else s.initVault p c.1 c.2) s
  let s := sv.vaults.foldl (fun s v => s.putVault p v.1 v.2) s
  let s := { s with ord := { s.ord with seen := s.ord.seen ++ sv.seen.map (fun (y : AgentId × Nat × Nat) => (moveAgent sv.at_ p y.1, y.2)) } }
  s.setPatch p { sv.patch with elems := els, image := img, load := some (l.q, lp), running := true, frozen := false,
                               part := some l.part, resident := some (l.part, l.image), staged := none, drainFrom := none,
                               fenced := x.fenced, calBad := x.calBad, gated := false, fullRate := x.fullRate,
                               seq := { sv.patch.seq with latch := true, pullAt := none } }

/-- The frontier registers of a patch, from the pointstamps of its load (R244). -/
def State.refront (s : State) (p : Nat) : State :=
  let m := s.stamps p
  let x := s.patch p
  s.setPatch p { x with elems := x.elems.map (fun v => (v.1, { v.2 with ft := (List.range 4).map (fun q => frontierOf (m.at_ (p, v.1, q))) })) }

/-- Restore every patch of a saved load, by load patch index. -/
def State.restoreAll (s : State) (l : Load) : List (Nat × Nat) → State
  | [] => s
  | (lp, p) :: r =>
    match l.saved[lp]? with
    | some sv => (s.restorePatch l lp p sv (l.images.getD lp PatchImage.none)).restoreAll l r
    | none => s.restoreAll l r

/-! ### The Squall timer (R394) -/

/-- The timer counts in this state of a load. -/
def LoadState.counts : LoadState → Bool
  | .running | .frozen _ => true
  | _ => false

/-- The timer brought up to a TSC value; it starts with the first sequencer word (R394). -/
def Load.tick (l : Load) (tsc : DWord) : Load :=
  if l.tstart.isSome && l.st.counts then { l with timer := l.timer + (tsc.toNat - l.timedAt), timedAt := tsc.toNat }
  else { l with timedAt := tsc.toNat }

/-- A load goes into another state, its timer brought up to date first. -/
def Load.goes (l : Load) (tsc : DWord) (st : LoadState) : Load := { l.tick tsc with st := st }

/-! ### Full service (R445) -/

/-- The full-rate calibration of a patch has ended well (R442, R443). -/
def State.calibrated (s : State) (p : Nat) : Bool := s.device.calibrated.contains (.patch p) && !(s.patch p).fenced

/-- Calibration is over, and every passed patch has joined full service (R445). -/
def State.allJoined (s : State) : Bool :=
  s.device.calibrated.contains .all && (List.range 640).all (fun p => (s.patch p).fenced || (s.patch p).calBad || (s.patch p).fullRate)

/-- The device reports FULL once every passed patch has joined (R441, R445). -/
def State.toFull (s : State) : State :=
  if s.device.dstate = .reduced ∧ s.allJoined = true then { s with device := { s.device with dstate := .full } } else s

/-- A calibrated patch that holds no load joins full service (R445). -/
def State.joinFull (s : State) (p : Nat) : State :=
  if s.calibrated p then (s.setPatch p { s.patch p with fullRate := true }).toFull else s

/-- The engine commands that a load has carried are accepted again, on the patches where it stands now (R360). -/
def State.requeue (s : State) (l : Load) (ps : List Nat) : State :=
  { s with engines := s.engines ++ l.queued.map (fun x => { x with p := ps.getD x.p 0, q := some l.q, part := l.part }) }

/-- A load stands on patches again: they held no load, so each that is calibrated has joined full service (R445); their frontiers
are recomputed, and it runs (R392). -/
def State.standOn (s : State) (l : Load) (ps : List Nat) : State :=
  let l := { l.goes s.clock.tsc .running with patches := ps, frames := [], drain := none }
  let s := (s.setLoad l).restoreAll l ((List.range ps.length).zip ps)
  let s := (s.requeue l ps).setLoad { l with saved := [], queued := [] }
  ps.foldl (fun s p => ((s.refront p).rewatch p).joinFull p) s

/-- A load that has kept its patches runs again: every element is set from the image, with its saved items, and keeps its vault; the
frontiers are recomputed, and each sequencer goes on with its event latch set (R11, R392; log 71). -/
def State.resumeHeld (s : State) (l : Load) : State :=
  let s := ((List.range l.patches.length).zip l.patches).foldl (fun s (x : Nat × Nat) =>
    let y := s.patch x.2
    let img := l.images.getD x.1 PatchImage.none
    let els := (List.range 64).map (fun e => (e, restoreElem (smFind img.conf e) (y.elem e) (img.rmask.getLsbD e)))
    s.setPatch x.2 { y with elems := els, frozen := false, seq := { y.seq with latch := true, pullAt := none } }) s
  let s := l.patches.foldl (fun s p => s.refront p) s
  s.modLoad l.q (fun x => { x.goes s.clock.tsc .running with frames := [], drain := none })

/-- Apply a change to load patch `lp` of a load, on its patch or in its save frame. -/
def State.onLoadPatch (s : State) (l : Load) (lp : Nat) (f : Patch → Patch) : State :=
  match l.patches[lp]?, l.saved[lp]? with
  | some p, _ => s.setPatch p (f (s.patch p))
  | none, some sv => s.modLoad l.q (fun y => { y with saved := setAt y.saved lp { sv with patch := f sv.patch } })
  | none, none => s

/-- Load patch `lp` of a load, on its patch or in its save frame. -/
def State.loadPatch (s : State) (l : Load) (lp : Nat) : Patch :=
  match l.patches[lp]?, l.saved[lp]? with
  | some p, _ => s.patch p
  | none, some sv => sv.patch
  | none, none => Patch.reset

end Sys2Proof.Machine
end

