-- ==== Sys2Proof/Machine/Packets.lean ====
section
/-! DEFINITION. Packets from their queue to a running load: taking and checking, triggers, arbitration, placement, configuration
and staging, and the power gating of patches (R372 to R383, R389, R420, R421). -/

namespace Sys2Proof.Machine

/-! ### Fields of a launch packet (R375) -/

def pkVer (w : List DWord) : Nat := bits (w.getD 0 0) 63 60
def pkKind (w : List DWord) : Nat := bits (w.getD 0 0) 59 56
def pkPri (w : List DWord) : Nat := bits (w.getD 0 0) 55 53
def pkFol (w : List DWord) : Bool := bits (w.getD 0 0) 52 52 == 1
def pkCount (w : List DWord) : Nat := bits (w.getD 0 0) 41 32
def pkLid (w : List DWord) : Word := (w.getD 0 0).setWidth 32
def pkImage (w : List DWord) : DWord := BitVec.ofNat 64 (bits (w.getD 1 0) 55 0)
def pkArgs (w : List DWord) : DWord := BitVec.ofNat 64 (bits (w.getD 2 0) 55 0)

/-- Whether a packet is the first half of a collective packet. -/
def isColl (w : List DWord) : Bool := pkVer w == 1 && pkKind w == 1

/-- The trigger references that a packet uses (R375, R420). -/
def pkTrigs (w : List DWord) : List DWord :=
  if isColl w then ([w.getD 12 0, w.getD 13 0]).take (bits (w.getD 0 0) 39 38)
  else ([w.getD 6 0, w.getD 7 0]).take (bits (w.getD 0 0) 49 48)

/-- A launch packet that the first row of R376 turns away. -/
def badPacket (w : List DWord) : Bool :=
  pkVer w != 1 || pkKind w != 0 || bits (w.getD 0 0) 51 50 != 0 || bits (w.getD 0 0) 47 42 != 0 ||
  bits (w.getD 1 0) 63 56 != 0 || bits (w.getD 2 0) 63 56 != 0 || decide (2 < bits (w.getD 0 0) 49 48) || (pkTrigs w).any (fun t => t == 0)

/-! ### Collective blocks (R420, R421) -/

def ckOp (w : List DWord) : Nat := bits (w.getD 0 0) 55 52
def ckAlg (w : List DWord) : Nat := bits (w.getD 0 0) 51 48
def ckDt (w : List DWord) : Nat := bits (w.getD 0 0) 47 44
def ckRed (w : List DWord) : Nat := bits (w.getD 0 0) 43 40
def ckCount (w : List DWord) : Nat := bits (w.getD 1 0) 63 32
def ckGx (w : List DWord) : Nat := bits (w.getD 1 0) 29 20
def ckSize (w : List DWord) : Nat := bits (w.getD 1 0) 19 10
def ckRank (w : List DWord) : Nat := bits (w.getD 1 0) 9 0
def ckRows (w : List DWord) : Nat := bits (w.getD 11 0) 63 32
def ckCols (w : List DWord) : Nat := bits (w.getD 11 0) 31 0
/-- The flat address of word `i`, a pointer with SP = 0b10 (R436). -/
def ckAddr (w : List DWord) (i : Nat) : DWord := BitVec.ofNat 64 (bits (w.getD i 0) 55 0)
/-- Word `i` is a flat pointer (R436). -/
def isFlat (v : DWord) : Bool := bits v 63 56 == 0x80

/-- A power of two. -/
def isPow2 (n : Nat) : Bool := n != 0 && n &&& (n - 1) == 0

/-- A collective block that R421 turns away, but for its group table: GROUP, SRC and DST must be flat pointers, and so must CR and FLAG
where they are not 0, and TFLAG for ALG 3 (R420, R436). -/
def badColl (w : List DWord) : Bool :=
  let g := fun i => w.getD i 0
  pkVer w != 1 || pkKind w != 1 || bits (g 0) 37 32 != 0 || decide (2 < bits (g 0) 39 38) || (pkTrigs w).any (fun t => t == 0) ||
  bits (g 1) 31 30 != 0 || bits (g 9) 31 0 != 0 || g 14 != 0 || g 15 != 0 ||
  decide (4 < ckOp w) || decide (3 < ckAlg w) || !([0, 1, 2, 3, 8].contains (ckDt w)) || decide (2 < ckRed w) ||
  ((ckOp w == 2 || ckOp w == 3) && ckRed w != 0) || ckCount w == 0 || decide (ckSize w < 2) || decide (512 < ckSize w) ||
  decide (ckSize w ≤ ckRank w) || (g 3).toNat % 64 != 0 || (g 4).toNat % 64 != 0 || (g 6).toNat % 4 != 0 ||
  !isFlat (g 2) || !isFlat (g 3) || !isFlat (g 4) || [5, 6].any (fun i => g i != 0 && !isFlat (g i)) || (ckAlg w == 3 && !isFlat (g 8)) ||
  (if ckAlg w = 2 then decide (ckGx w < 2) || ckSize w % ckGx w != 0 else ckGx w != 0) ||
  (ckAlg w == 1 && !isPow2 (ckSize w)) ||
  (if ckAlg w = 3 then ckOp w != 0 || ckRows w % 64 != 0 || ckCols w % 64 != 0 || ckRows w * ckCols w != ckCount w
   else g 8 != 0 || (g 9) != 0 || g 11 != 0)

/-! ### Flat reads of the command processor -/

/-- A check of a packet: what it gives, a wait, or the failure that ends the packet: status, sub-cause, FADDR (R376). -/
inductive Chk (α : Type) where
  | ok (x : α) (s : State)
  | wait (s : State)
  | fail (c : Cause) (sub : Nat) (fa : DWord) (s : State)

/-- A check that begins in state `s`, and then another; where the second one waits, the answers that the first one took are kept. -/
def Chk.bind {α β : Type} (x : Chk α) (s : State) (f : α → State → Chk β) : Chk β :=
  match x with
  | .ok a t => match f a t with
    | .wait u => .wait (u.keepAnswers s t)
    | y => y
  | .wait t => .wait t
  | .fail c u fa t => .fail c u fa t

/-- Read flat memory of a partition as the command processor; a fault ends the packet (R376 row 5). -/
def State.cpRead (s : State) (part : Nat) (fa : DWord) (n : Nat) : Chk (List Byte) :=
  match s.readFlat (.cmdProc part) part fa n with
  | .ok bs s => .ok bs s
  | .wait s => .wait s
  | .fault c sub a s => .fail c sub a s

/-- The 64-bit words of bytes. -/
def dwords (bs : List Byte) : List DWord := (List.range (bs.length / 8)).map (fun i => BitVec.ofNat 64 (numAt bs (8 * i) 8))

/-! ### Triggers (R377) -/

/-- The counter pointers of a trigger half, each with its group and threshold. -/
def halfCounters (w : List DWord) : List (Nat × DWord × Nat) :=
  (triggerUses w).map (fun c => (c.1, w.getD 1 0 + BitVec.ofNat 64 c.2.1, c.2.2))

/-- The counters of a half, each with the address to which its pointer leads: the first pointer that is misaligned, does not translate, or
lies off this module ends the packet (R377). -/
def State.counterCheck (s : State) (part : Nat) : List (Nat × DWord × Nat) → Chk (List (Nat × Nat × Nat))
  | [] => .ok [] s
  | c :: r =>
    if c.2.1.toNat % 4 ≠ 0 then .fail .align 0 c.2.1 s
    else if !isFlat c.2.1 then .fail .illop 2 c.2.1 s
    else match s.translate part (BitVec.ofNat 64 (bits c.2.1 55 0)) .plain with
      | .wait => .wait s
      | .fault u sub => .fail u sub c.2.1 s
      | .ok pl =>
        if pl.module.isSome || pl.host then .fail .illop 1 c.2.1 s
        else (s.counterCheck part r).bind s (fun l s => .ok ((c.1, c.2.2, pl.addr) :: l) s)

/-- Read the trigger halves that a packet names, once, and check them: the counters of each (R377). -/
def State.readTriggers (s : State) (part : Nat) : List DWord → Chk (List (List (Nat × Nat × Nat)))
  | [] => .ok [] s
  | t :: r =>
    if t.toNat % 64 ≠ 0 then .fail .illop 1 t s
    else (s.cpRead part t 64).bind s (fun bs s =>
      let w := dwords bs
      if badTrigger w ∨ bits (w.getD 1 0) 63 62 ≠ 2 then .fail .illop 1 t s
      else (s.counterCheck part (halfCounters w)).bind s (fun cs s =>
        (s.readTriggers part r).bind s (fun l s => .ok (cs :: l) s)))

/-- Every predicate of a packet's triggers is true, over the counters as they are visible at `.dev` (R230, R377). What the packet
releases reads after this (R437). -/
def State.triggersHold (s : State) (l : List (List (Nat × Nat × Nat))) : Bool := l.all (fun w => predicate (watched s.counter w))

/-! ### Taking a packet (R373, R376) -/

/-- Read an image: its header first, then the whole file (R291, R296). -/
def State.cpImage (s : State) (part : Nat) (fa : DWord) : Chk LoadImage :=
  (s.cpRead part fa 64).bind s (fun h s =>
    if badImage h then .fail .cfgIllop 0 0 s
    else (s.cpRead part fa (numAt h 16 8)).bind s (fun bs s =>
      match imageParse (s.part part) bs with
      | .ok img => .ok img s
      | .error (c, off) => .fail c 0 (BitVec.ofNat 64 off) s))

/-- Check a launch packet by the table of R376, and read its triggers. -/
def State.checkLaunch (s : State) (q : Queue) (w : List DWord) (at_ : DWord) : Chk (LoadImage × List (List (Nat × Nat × Nat))) :=
  if badPacket w then .fail .illop 1 at_ s
  else (s.cpImage q.part (pkImage w)).bind s (fun img s =>
    if pkCount w ≠ img.pw * img.ph ∨ (s.part q.part).patches.length < pkCount w then .fail .illop 1 at_ s
    else if pkFol w && (match q.prev with
        | some p => p.1 != pkCount w
        | none => true) then .fail .illop 2 at_ s
    else (s.readTriggers q.part (pkTrigs w)).bind s (fun l s => .ok (img, l) s))

/-- The group table of a collective (R420). -/
def groupOf (bs : List Byte) : List (Nat × Nat) :=
  (List.range (bs.length / 4)).map (fun i => (numAt bs (4 * i) 4 % 2 ^ 9, numAt bs (4 * i) 4 / 2 ^ 9 % 2 ^ 5))

/-- Check a collective block and read its group table (R421). -/
def State.readGroup (s : State) (part : Nat) (w : List DWord) (at_ : DWord) : Chk (List (Nat × Nat)) :=
  if badColl w then .fail .illop 1 at_ s
  else (s.cpRead part (ckAddr w 2) (4 * ckSize w)).bind s (fun bs s =>
    let g := groupOf bs
    if (List.range (ckSize w)).any (fun i => numAt bs (4 * i) 4 ≥ 2 ^ 14) || g.getD (ckRank w) (0, 0) != (s.fabric.mod, (s.part part).ident) then
      .fail .illop 1 at_ s
    else .ok g s)

/-- Check a collective block and read its triggers (R421). -/
def State.checkColl (s : State) (part : Nat) (w : List DWord) (at_ : DWord) : Chk (List (List (Nat × Nat × Nat))) :=
  (s.readGroup part w at_).bind s (fun _ s => s.readTriggers part (pkTrigs w))

/-- Read a ring entry as the command processor (R427). -/
def State.cpEntry (s : State) (q : Queue) (n : Nat) : Chk (List DWord) :=
  if q.ringHost then .ok (dwords (s.peek (.cmdProc q.part) (hostBase + (q.entry n).toNat) 64)) s
  else (s.cpRead q.part (q.entry n) 64).bind s (fun bs s => .ok (dwords bs) s)

/-- The words of the next packet in a ring, how many entries it takes, and the failure of reading its second one (R420, R427). -/
def State.ringPacket (s : State) (q : Queue) : Chk (List DWord × Nat × Option (Nat × Nat × DWord)) :=
  (s.cpEntry q q.headCnt.toNat).bind s (fun w s =>
    if isColl w ∧ 1 < (q.tail - q.headCnt).toNat then
      match s.cpEntry q (q.headCnt.toNat + 1) with
      | .ok v s => .ok (w ++ v, 2, none) s
      | .wait s => .wait s
      | .fail c sub fa s => .ok (w, 2, some (causeCode c, sub, fa)) s
    else .ok (w, if isColl w then 2 else 1, none) s)

/-- The queue has a packet that it has not copied. -/
def Queue.more (q : Queue) : Bool := q.tail != q.headCnt

/-- A queue's packet runs: its load, or its collective, has not completed (R373). -/
def State.engaged (s : State) (n : Nat) : Bool := s.loads.any (fun l => l.q == n) || s.colls.any (fun c => c.q == some n)

/-- The previous load of a queue, for a packet that follows it: its patch count and its patches; the load that runs, else the last one
(R376, R389). -/
def State.previous (s : State) (n : Nat) : Option (Nat × List Nat) :=
  match s.loads.find? (fun l => l.q == n) with
  | some l => some (l.img.pw * l.img.ph, l.patches)
  | none => (s.queue n).prev

/-- PACKET_TAKE: a waiting queue with no current packet copies its next one and checks it, and reads its triggers; a running
queue copies a following packet with FOL = 1 in the same way (R373, R376, R377, R389, R421). The packet's address is that of its
ring entry. -/
def execPacketTake (n : Nat) (s : State) : Res :=
  let q := s.queue n
  let at_ := q.entry q.headCnt.toNat
  let running := s.loads.any (fun l => l.q == n)
  let first := q.st == .wait && q.head.isNone && !s.engaged n
  let put := fun (s : State) (k : Nat) (h : Head) =>
    let q := { q with headCnt := q.headCnt + BitVec.ofNat 32 k, launchers := q.launchers.filter (fun x => x.1 != q.headCnt.toNat) }
    s.setQueue n (if first then { q with head := some h } else { q with staged := some h })
  let by_ := (q.launchers.find? (fun x => x.1 == q.headCnt.toNat)).map (fun x => x.2)
  if !q.more || !(first || (q.st == .run && q.staged.isNone && running)) then .next s
  else match s.ringPacket q with
    | .wait s => .next s
    | .fail c sub fa s => if first then .next (put s 1 ⟨[], at_, default, by_, [], false, some (causeCode c, sub, fa)⟩) else .next s
    | .ok (w, k, bad) s =>
      let bare : Head := ⟨w, at_, default, by_, [], false, bad⟩
      if !(first || (pkFol w && !isColl w)) || (q.tail - q.headCnt).toNat < k then .next s
      else if bad.isSome then .next (put s k bare)
      else if isColl w then
        match s.checkColl q.part w at_ with
        | .wait s => .next s
        | .fail c sub fa s => .next (put s k { bare with fail := some (causeCode c, sub, fa) })
        | .ok l s => .next (put s k { bare with trigs := l, ready := s.triggersHold l })
      else
        match s.checkLaunch { q with prev := s.previous n } w at_ with
        | .wait s => .next s
        | .fail c sub fa s => .next (put s k { bare with fail := some (causeCode c, sub, fa) })
        | .ok (img, l) s => .next (put s k { bare with img := img, trigs := l, ready := s.triggersHold l })

/-- A packet's predicates are evaluated again: once they are true they are met (R377). -/
def Head.eval (h : Head) (s : State) : Head := { h with ready := h.ready || s.triggersHold h.trigs }

/-- The predicates of a queue's packets are evaluated again: of its head while it waits, and of the packet that it stages while its load
runs (R377, R389, R403). -/
def Queue.eval (q : Queue) (s : State) : Queue :=
  { q with head := if q.st == .wait then q.head.map (fun h => h.eval s) else q.head,
           staged := if q.st == .run then q.staged.map (fun h => h.eval s) else q.staged }

/-- The command processor looks at the counters that packets and collectives watch, as it does at each write of one (R369, R377). -/
def State.watchPackets (s : State) : State :=
  { s with queues := s.queues.map (fun x => (x.1, x.2.eval s)),
           colls := s.colls.map (fun c => { c with ready := c.ready || (match c.trigs with
             | some l => s.triggersHold l
             | none => false) }) }

/-- PACKET_TRIGGER: a counter that a packet's triggers name has been written, and they are evaluated again (R377, R389). -/
def execPacketTrigger (n : Nat) (s : State) : Res := .next (s.setQueue n ((s.queue n).eval s))

/-! ### Starting (R373, R374, R378) -/

/-- The priority of a packet: a launch's own, and its queue's where that is lower; a collective has its queue's (R375, R420). -/
def Head.pri (h : Head) (q : Queue) : Nat := if isColl h.words then q.pri else Nat.min (pkPri h.words) q.pri

/-- The load of a packet. -/
def Head.load (h : Head) (n : Nat) (q : Queue) (order : Nat) (patches : List Nat) (st : LoadState) : Load where
  q := n
  part := q.part
  pri := h.pri q
  lid := pkLid h.words
  image := (pkImage h.words).toNat
  args := pkArgs h.words
  cr := (h.words.getD 3 0).toNat
  flag := (h.words.getD 4 0).toNat
  finc := (h.words.getD 5 0).setWidth 32
  budget := bits (h.words.getD 5 0) 63 32
  patches := patches
  st := st
  tstart := none
  fcnt := 0
  fcause := 0
  faddr := 0
  order := order
  timer := 0
  timedAt := 0
  saved := []
  launcher := h.launcher
  resumed := true
  awaits := none
  drain := none
  frames := []
  queued := []
  img := h.img
  images := []

/-- The load of a packet that has failed before its start: only its record follows (R376, R384). -/
def Head.failed (h : Head) (n : Nat) (q : Queue) (order status sub : Nat) (fa : DWord) : Load :=
  { h.load n q order [] (.ended status sub) with fcause := BitVec.ofNat 32 (status + 256 * sub), faddr := fa }

/-- The partition's migration lets no packet start (R355). -/
def State.mayStart (s : State) (part : Nat) : Bool :=
  (s.part part).migrate.isNone && s.device.dstate != .safe

/-- A queue's head packet is eligible (R374): its queue waits, its checks have passed, and its triggers hold. -/
def State.eligible (s : State) (n : Nat) : Bool :=
  let q := s.queue n
  match q.head with
  | some h => q.st == .wait && s.mayStart q.part && h.ready && h.fail.isNone
  | none => false

/-- Where the head packet of a queue would go; a collective needs no patch. -/
def State.headPlace (s : State) (n : Nat) : Option (List Nat) :=
  let q := s.queue n
  match q.head with
  | none => none
  | some h => if isColl h.words then some [] else placeOn (s.freePatches q.part) h.img.pw h.img.ph

/-- The queues of a priority level whose head packets are eligible and can be placed, and whose charge is below their weight
(R374). -/
def State.candidates (s : State) (pri : Nat) : List Nat :=
  (s.queues.filter (fun x => x.2.pri == pri && s.eligible x.1 && decide (x.2.charge < x.2.weight) && (s.headPlace x.1).isSome)).map
    (fun (x : Nat × Queue) => x.1)

/-- The queues of a priority level with eligible packets. -/
def State.eligibleAt (s : State) (pri : Nat) : List (Nat × Queue) := s.queues.filter (fun x => x.2.pri == pri && s.eligible x.1)

/-- The rounds that are over: where no eligible queue of a level has charge left, every charge of the level returns to 0, and the next
round begins (R374). -/
def State.freshRounds (s : State) : State :=
  let spent := fun (pri : Nat) => !(s.eligibleAt pri).isEmpty && (s.eligibleAt pri).all (fun x => decide (x.2.weight ≤ x.2.charge))
  { s with queues := s.queues.map (fun x => (x.1, if spent x.2.pri then { x.2 with charge := 0 } else x.2)),
           rounds := s.rounds.filter (fun r => !spent r.1) }

/-- The queue that arbitration picks: of the highest level that has one, the next in the level's round (R374). -/
def State.pick (s : State) : Option Nat :=
  (List.range 8).findSome? (fun i =>
    let l := s.candidates (7 - i)
    let last := smFind s.rounds (7 - i)
    (l.find? (fun n => match last with
      | some k => decide (k < n)
      | none => true)).orElse (fun _ => l.head?))

/-- Charge a start to a queue, which its level's round visits (R374). -/
def State.charge (s : State) (n : Nat) : State :=
  let q := s.queue n
  { s.setQueue n { q with charge := q.charge + 1 } with rounds := smSet s.rounds q.pri n }

/-- A load is placed: it holds its patches, whose configuration is still to be written. -/
def State.assign (s : State) (l : Load) : State :=
  let s := { s with loads := s.loads ++ [l], nextLoad := s.nextLoad + 1 }
  ((List.range l.patches.length).zip l.patches).foldl (fun s (x : Nat × Nat) =>
    s.setPatch x.2 { s.patch x.2 with load := some (l.q, x.1), part := some l.part }) s

/-- The collective of a packet. -/
def Head.coll (h : Head) (n : Nat) (s : State) (fail : Option (Nat × Nat × DWord)) : Collective :=
  ⟨s.nextEngine, some n, none, (s.queue n).part, h.addr, h.words, [], some h.trigs, true, [], none, s.clock.ns, [], fail, false, false⟩

/-- A collective of a queue begins, or ends with a failure. -/
def State.beginColl (s : State) (n : Nat) (h : Head) (fail : Option (Nat × Nat × DWord)) : State :=
  { s.setQueue n { s.queue n with head := none, st := .run } with colls := s.colls ++ [h.coll n s fail], nextEngine := s.nextEngine + 1 }

/-- PACKET_START: a head packet that has failed its checks ends, without arbitration; else the packet that arbitration picks starts: a
launch is placed on patches of its partition, a collective waits for its members (R374, R376, R378, R421). -/
def execPacketStart (n : Nat) (s : State) : Res :=
  let q := s.queue n
  match q.head.bind (fun h => h.fail.map (fun f => (h, f))) with
  | some (h, c, sub, fa) =>
    if q.st ≠ .wait then .next s
    else if isColl h.words then .next (s.beginColl n h (some (c, sub, fa)))
    else .next { s.setQueue n { q with head := none } with loads := s.loads ++ [h.failed n q s.nextLoad c sub fa], nextLoad := s.nextLoad + 1 }
  | none =>
    let s := s.freshRounds
    if s.pick ≠ some n then .next s
    else match q.head, s.headPlace n with
      | some h, some ps =>
        let s := s.charge n
        if isColl h.words then .next (s.beginColl n h none)
        else
          let q := s.queue n
          .next ((s.setQueue n { q with head := none, st := .run }).assign (h.load n q s.nextLoad ps .placed))
      | _, _ => .next s

/-! ### Configuration load (R15, R381 to R383) -/

/-- Every patch of a load holds the load's configuration: staged on it, or left by the load of the same image that last ran
there for the partition (R381). -/
def State.resident (s : State) (l : Load) : Option (List PatchImage) :=
  if l.patches.all (fun p => (s.patch p).staged.isSome) then some (l.patches.map (fun p => (s.patch p).staged.getD PatchImage.none))
  else if l.patches.all (fun p => (s.patch p).resident == some (l.part, l.image)) then some (l.patches.map (fun p => (s.patch p).image))
  else none

/-- The registers of a sequencer at the start of a load (R15). -/
def startSeq (img : PatchImage) (args : DWord) (lp count : Nat) : Seq :=
  { Seq.reset with
    store := img.text
    pc := img.entry.setWidth 17
    g := (((Seq.reset.g.set 1 (args.setWidth 32)).set 2 (BitVec.ofNat 32 (bits args 55 32))).set 3 (BitVec.ofNat 32 lp)).set 4
      (BitVec.ofNat 32 count) }

/-- A patch of a load takes its configuration and starts (R11, R15, R41, R383). -/
def State.startPatch (s : State) (l : Load) (lp p : Nat) (img : PatchImage) (keep : Bool) : State :=
  let s := if keep then s else s.clearVaults p
  let x := s.patch p
  let y : Patch := { Patch.reset with
    seq := startSeq img l.args lp l.patches.length
    load := some (l.q, lp)
    running := true
    part := some l.part
    resident := some (l.part, l.image)
    image := img
    fenced := x.fenced
    calBad := x.calBad
    freeSince := x.freeSince
    fullRate := x.fullRate }
  (s.setPatch p y).configure p img.conf

/-- Every patch of a load starts. -/
def State.startAll (s : State) (l : Load) (imgs : List PatchImage) (keep : Bool) : State :=
  let s := s.modLoad l.q (fun l => { l with images := imgs, st := .running })
  ((List.range l.patches.length).zip l.patches).foldl (fun s (x : Nat × Nat) =>
    s.startPatch l x.1 x.2 (imgs.getD x.1 PatchImage.none) keep) s

/-- A load fails before its start: every patch keeps its configuration and is given back (R382). -/
def State.failStart (s : State) (l : Load) (c : Cause) (sub : Nat) (fa : DWord) : State :=
  let s := l.patches.foldl (fun s p => s.setPatch p { s.patch p with load := none, staged := none, freeSince := s.clock.ns }) s
  s.modLoad l.q (fun l => { l with st := .ended (causeCode c) sub, patches := [], fcause := BitVec.ofNat 32 (causeCode c + 256 * sub), faddr := fa })

/-- Phase 1 of a configuration load: what an image gives each patch, or the status and FADDR of what fails. An uncorrectable ECC error
of a shadow store is a failure of its patch; where it strikes one, and in which word, are free values (R382; log 5). -/
def State.phase1 (s : State) (img : LoadImage) : State × Except (Cause × DWord) (List PatchImage) :=
  let hit := (Config.strike s.free).filter (fun k => decide (k < img.pw * img.ph))
  let ecc := fun (k : Nat) => Except.error (Cause.cfgEcc, BitVec.ofNat 64 (at64 k 32 + (Config.freeWord s.free).toNat % 2 ^ 26 / 256 * 256))
  ({ s with free := s.free + 1 }, match hit, img.images with
    | some k, .error (lp, e) => if k ≤ lp then ecc k else .error (e.f.c, cfgAddr lp e)
    | some k, .ok _ => ecc k
    | none, .error (lp, e) => .error (e.f.c, cfgAddr lp e)
    | none, .ok l => .ok l)

/-- The image of a load is read for its configuration, after the counters that released the load, and checked again; it has the patches
that it had when the packet was taken (R296, R376, R437; log 76). -/
def State.freshImage (s : State) (part : Nat) (fa : DWord) (old : LoadImage) : Chk LoadImage :=
  (s.cpImage part fa).bind s (fun img s => if img.pw ≠ old.pw ∨ img.ph ≠ old.ph then .fail .illop 1 fa s else .ok img s)

/-- CONFIG_LOAD: the load placed for a queue takes its configuration. A resident one is swapped in; otherwise every patch's
part of the image is read, written and checked, and only when every check has passed does each patch swap and start (R381 to R383). It
waits for gated patches, and for a die at throttle step 4 (R380, R454). -/
def execConfigLoad (n : Nat) (s : State) : Res :=
  match s.loads.find? (fun l => l.q == n) with
  | none => .next s
  | some l =>
    if l.st ≠ .placed ∨ l.patches.any (fun p => (s.patch p).gated || s.hot p) ∨ !s.mayStart l.part then .next s
    else match s.resident l with
      | some imgs => .next (s.startAll l imgs true)
      | none => match s.freshImage l.part (BitVec.ofNat 64 l.image) l.img with
        | .wait s => .next s
        | .fail c sub fa s => .next (s.failStart l c sub fa)
        | .ok img s => match s.phase1 img with
          | (s, .error (c, fa)) => .next (s.failStart l c 0 fa)
          | (s, .ok imgs) => .next ((s.modLoad n (fun l => { l with img := img })).startAll { l with img := img } imgs false)

/-! ### Staging (R389) -/

/-- STAGE: a FOL packet whose triggers hold is read and written into the shadow stores of the patches of the load that runs; it waits while a
phase is open on one of them. A failure ends the packet when that load completes (R389). -/
def execStage (n : Nat) (s : State) : Res :=
  let q := s.queue n
  match q.staged, s.loads.find? (fun l => l.q == n) with
  | some h, some l =>
    let open_ := l.patches.any (fun p => (s.patch p).phase.opened)
    let done := l.patches.all (fun p => (s.patch p).staged.isSome)
    if !h.ready || h.fail.isSome || open_ || done || l.st != .running then .next s
    else
      let failed := fun (s : State) (c : Cause) (sub : Nat) (fa : DWord) => s.setQueue n { q with staged := some { h with fail := some (causeCode c, sub, fa) } }
      match s.freshImage q.part (pkImage h.words) h.img with
      | .wait s => .next s
      | .fail c sub fa s => .next (failed s c sub fa)
      | .ok img s => match s.phase1 img with
        | (s, .error (c, fa)) => .next (failed s c 0 fa)
        | (s, .ok imgs) => .next (((List.range l.patches.length).zip l.patches).foldl (fun s (x : Nat × Nat) =>
            s.setPatch x.2 { s.patch x.2 with staged := some (imgs.getD x.1 PatchImage.none) })
              (s.setQueue n { q with staged := some { h with img := img } }))
  | _, _ => .next s

/-! ### Power gating (R380) -/

/-- PATCH_POWER_GATE: a patch that has been free for 20 µs is gated; it keeps its contents (R380). -/
def execPatchPowerGate (p : Nat) (s : State) : Res :=
  let x := s.patch p
  if x.load.isNone && !x.gated && decide (p < 640) && decide (x.freeSince + 20000 ≤ s.clock.ns) then .next (s.setPatch p { x with gated := true })
  else .next s

/-- PATCH_WAKE: a gated patch on which a load is placed wakes, with nothing to reload (R380). -/
def execPatchWake (p : Nat) (s : State) : Res :=
  let x := s.patch p
  if x.gated && x.load.isSome then .next (s.setPatch p { x with gated := false }) else .next s

end Sys2Proof.Machine
end

