-- ==== Sys2Proof/Machine/Ends.lean ====
section
/-! DEFINITION. How loads end, and how they are frozen, evicted, restored and moved: completion records and signals, natural end,
the watchdog, escalation, pre-emption (R354, R379, R384 to R395, R401). -/

namespace Sys2Proof.Machine

/-- The load of a queue. -/
def State.loadAt (s : State) (n : Nat) : Option Load := s.loads.find? (fun l => l.q == n)

/-! ### Freezing for the command processor (R390) -/

/-- A load is frozen and held for pre-emption, a move or a migration (R390, R394). -/
def State.holdLoad (s : State) (l : Load) : State :=
  (s.freezePatches l).modLoad l.q (fun x => x.goes s.clock.tsc .held)

/-- A load whose configuration has not been loaded gives its patches back, with what their shadow stores hold: it starts again when
patches are free (R401). -/
def State.unplace (s : State) (l : Load) : State :=
  let s := l.patches.foldl (fun s p => s.setPatch p { s.patch p with load := none, staged := none, freeSince := s.clock.ns }) s
  s.modLoad l.q (fun x => { x with patches := [], st := .evicted none })

/-- The command processor freezes a load that is placed or runs; one that is neither is left alone (R390, R401). -/
def State.cpFreeze (s : State) (l : Load) : State :=
  match l.st with
  | .placed => s.unplace l
  | .running => s.holdLoad l
  | _ => s

/-- LOAD_FREEZE: the command processor freezes the load of a queue (R390, R401). -/
def execLoadFreeze (n : Nat) (s : State) : Res :=
  match s.loadAt n with
  | some l => .next (s.cpFreeze l)
  | none => .next s

/-! ### What a thawed agent makes again (R396) -/

/-- The agent of an access, moved to patch `p`. -/
def agentOn (p : Nat) : AgentId → AgentId
  | .elem _ e => .elem p e
  | .port _ k => .port p k
  | .seq _ => .seq p
  | x => x

/-- An agent of a patch is frozen as an offending master. -/
def agentFrozen (x : Patch) : AgentId → Bool
  | .elem _ e => (x.elem e).frozen
  | .port _ k => (x.port k).frozen
  | .seq _ => x.seq.frozen
  | _ => false

/-- An access that another module refused is made again by its agent, which stands on patch `p` now, at the place that its address has come
to name; a stream port's step, whose place its tensor gave, goes where it went (R396). -/
def State.redo (s : State) (p : Nat) (u : Undone) : State :=
  let ag := agentOn p u.agent
  let again := fun (pl : Place) => match u.signal with
    | some (inc, sc) => s.issue ag sc pl (.owner (.signal inc) .none) false false u.fa
    | none => s.issueStore ag ⟨pl, u.bytes.map (fun (b : Nat × Byte) => (b.1 - u.place.addr + pl.addr, b.2)), [], .fab, false, u.fa, false⟩
  match ag with
  | .port _ _ => again u.place
  | _ => match s.translate (s.partOf p) (BitVec.ofNat 64 (bits u.fa 55 0)) .plain with
    | .ok pl => again pl
    | .wait => again u.place
    | .fault .perm sub => s.freezeAgent ag sub u.fa (some { u with agent := ag })
    | .fault c sub => s.reportAgent ag (xcause (causeCode c) sub true) u.fa

/-- The agents of a patch that are not frozen make again what other modules have refused them; the others keep it (R396). -/
def State.redoPatch (s : State) (p : Nat) : State :=
  (s.patch p).refused.foldl (fun s u =>
    if agentFrozen (s.patch p) (agentOn p u.agent) then s.setPatch p { s.patch p with refused := (s.patch p).refused ++ [u] } else s.redo p u)
    (s.setPatch p { s.patch p with refused := [] })

/-- The agents of a load's patches that are not frozen make again what other modules have refused them (R396). -/
def State.redoLoad (s : State) (q : Nat) : State :=
  match s.loadAt q with
  | some l => if l.st = .running then l.patches.foldl (fun s p => s.redoPatch p) s else s
  | none => s

/-- The SUB of the record of a load that FREEZE or a nested fault has frozen. -/
def LoadState.sub : LoadState → Option Nat
  | .frozen k => some k
  | _ => none

/-- The SUB of the record of a load that was frozen so before it was evicted. -/
def LoadState.was : LoadState → Option Nat
  | .frozen k => some k
  | .evicted w => w
  | _ => none

/-- Save a load's patches and give them back (R391). -/
def State.saveLoad (s : State) (l : Load) : State :=
  let s := l.patches.foldl (fun s p => s.settlePatch p) s
  let sv := ((List.range l.patches.length).zip l.patches).map (fun (x : Nat × Nat) => s.savePatch x.2 (l.images.getD x.1 PatchImage.none).rmask)
  let s := s.modLoad l.q (fun x => { x with saved := sv, patches := [] })
  l.patches.foldl (fun s p => s.releasePatch p) s

/-- EVICT: a frozen load that has been read out is saved: the vaults of the elements that its mask names enter its save frames too, and
its patches are taken. Without save frames it keeps them; it is not evicted while an engine command of it runs (R225, R390, R391). -/
def execEvict (n : Nat) (s : State) : Res :=
  match s.loadAt n with
  | some l =>
    let can := (l.st == .held || l.st.sub.isSome) && s.settled l && !l.patches.isEmpty && l.frames.length == l.patches.length &&
      !s.commands n
    if can then
      let s := l.frames.foldl (fun s f => s.writeFrame l.part f) s
      .next ((s.saveLoad l).modLoad n (fun x => x.goes s.clock.tsc (.evicted l.st.sub)))
    else .next s
  | none => .next s

/-- An eligible packet of higher priority than a load waits in its partition (R393). -/
def State.outranked (s : State) (l : Load) : Bool :=
  s.queues.any (fun x => x.2.part == l.part && s.eligible x.1 && match x.2.head with
    | some h => decide (l.pri < h.pri x.2)
    | none => false)

/-- A load whose configuration had not been loaded is placed again (R401). -/
def State.replace (s : State) (l : Load) (ps : List Nat) : State :=
  let s := s.setLoad { l with patches := ps, st := .placed }
  ((List.range ps.length).zip ps).foldl (fun s (x : Nat × Nat) =>
    s.setPatch x.2 { s.patch x.2 with load := some (l.q, x.1), part := some l.part }) s

/-- RESTORE: a load that was frozen for the command processor runs again, when no packet of higher priority waits in its partition: on
its own patches where it has kept them, else on free patches of its partition (R354, R392, R393). -/
def execRestore (n : Nat) (s : State) : Res :=
  match s.loadAt n with
  | some l =>
    if !l.resumed || (s.part l.part).migrate.isSome || s.outranked l then .next s
    else match l.st with
      | .held => .next ((s.resumeHeld l).redoLoad n)
      | .evicted none => match placeOn (s.freePatches l.part) l.img.pw l.img.ph with
          | some ps => .next (if l.images.isEmpty then s.replace l ps else (s.standOn l ps).redoLoad n)
          | none => .next s
      | _ => .next s
  | none => .next s

/-- The load that a packet which cannot be placed pre-empts: among the running loads of its partition with a strictly lower
priority, the lowest, and of those the one that started last (R393). -/
def State.victim (s : State) (part pri : Nat) : Option Nat :=
  let l := s.loads.filter (fun l => l.part == part && l.st == .running && decide (l.pri < pri))
  (l.find? (fun a => l.all (fun b => decide (a.pri < b.pri) || (a.pri == b.pri && decide (b.order ≤ a.order))))).map (fun a => a.q)

/-- PREEMPT: an eligible packet that cannot be placed pre-empts the running load of a queue, which is frozen; EVICT then takes
its patches (R393). A packet that cannot be placed has too few free patches in its partition (R378), which no compaction changes, so
that none has to be tried first (R379; log 70). -/
def execPreempt (n : Nat) (s : State) : Res :=
  let called := s.queues.any (fun x => s.eligible x.1 && (s.headPlace x.1).isNone && match x.2.head with
    | some h => s.victim x.2.part (h.pri x.2) == some n
    | none => false)
  match s.loadAt n with
  | some l => if called && l.st == .running then .next (s.holdLoad l) else .next s
  | none => .next s

/-! ### Compaction (R379) -/

/-- A free rectangle of some size is there. -/
def rectFree (free : List Nat) (pw ph : Nat) : Bool :=
  free.any (fun p => match rectAt pw ph p with
    | some l => l.all free.contains
    | none => false)

/-- The running loads of a partition. -/
def State.runningLoads (s : State) (n : Nat) : List Load := s.loads.filter (fun l => l.part == n && l.st == .running)

/-- The free patches of a partition once each of its running loads has moved to the lowest patches it can have. -/
def State.compacted (s : State) (n : Nat) : List Nat :=
  let ls := s.runningLoads n
  let all := (List.range 640).filter (fun p => (s.freePatches n).contains p || ls.any (fun l => l.patches.contains p))
  ls.foldl (fun free l => match placeOn free l.img.pw l.img.ph with
    | some ps => free.filter (fun p => !ps.contains p)
    | none => free) all

/-- A waiting packet of a partition, by its queue and position, for which there is no free rectangle, and for which there would be one if
the partition were compacted (R378, R379; log 70). -/
def State.wantsRoom (s : State) (n : Nat) : Option (Nat × Word) :=
  (s.queues.find? (fun x => x.2.part == n && s.eligible x.1 && match x.2.head with
    | some h => !isColl h.words && h.fail.isNone && !rectFree (s.freePatches n) h.img.pw h.img.ph &&
        rectFree (s.compacted n) h.img.pw h.img.ph
    | none => false)).map (fun x => (x.1, x.2.headCnt))

/-- The allocator asks a load for a drain, or lets its sources go on (R379, R388). -/
def State.askDrain (s : State) (l : Load) (on : Bool) : State :=
  l.patches.foldl (fun s p =>
    let x := s.patch p
    s.setPatch p (if on then { x with drainFrom := some x.cmdNo } else { x with drainFrom := none }.advance)) s

/-- A quiescent load is frozen, and restored on other patches (R379). -/
def State.moveLoad (s : State) (l : Load) (ps : List Nat) : State :=
  let held := (s.holdLoad l).readOut l
  match held.loadAt l.q with
  | none => s
  | some h =>
    if held.settled h && h.frames.length == h.patches.length && !s.commands l.q then
      let t := held.saveLoad h
      match t.loadAt l.q with
      | some l => (t.standOn l ps).redoLoad l.q
      | none => s
    else s

/-- LOAD_MOVE: where a waiting packet could have its rectangle if the partition were compacted, a running load is asked for a drain; it is
moved towards the lowest patch numbers once it is quiescent, and not after 100 µs (R379). -/
def execLoadMove (n : Nat) (s : State) : Res :=
  match s.loadAt n with
  | none => .next s
  | some l =>
    if l.st ≠ .running then .next s
    else match s.wantsRoom l.part with
      | none => .next (s.askDrain l false)
      | some (q, pos) =>
        match l.drain with
        | some d =>
          if d.q ≠ q ∨ d.pos ≠ pos then
            .next ((s.askDrain l true).modLoad n (fun x => { x with drain := some ⟨q, pos, s.clock.ns⟩ }))
          else if d.since + 100000 < s.clock.ns then .next (s.askDrain l false)
          else
            let free := (List.range 640).filter (fun p => l.patches.contains p || (s.freePatches l.part).contains p)
            match placeOn free l.img.pw l.img.ph with
            | some ps => if s.lull l ∧ ps ≠ l.patches ∧ ps.sum < l.patches.sum then .next (s.moveLoad l ps) else .next s
            | none => .next s
        | none => .next ((s.askDrain l true).modLoad n (fun x => { x with drain := some ⟨q, pos, s.clock.ns⟩ }))

/-! ### Escalation (R354, R357, R363) -/

/-- Where an access waits: at a stream port of a patch, in the word of its sequencer, in an instance of an element, or in an engine
command that an element of it issued. -/
inductive Waiter where
  | port (k : Nat) | seq | elem (e : Nat) | engine (n : Nat)
  deriving DecidableEq, Repr

/-- The waiter that a number names (log 4). -/
def waiterOf (k : Nat) : Waiter :=
  if k < 16 then .port k else if k = 16 then .seq else if k < 81 then .elem (k - 17) else .engine (k - 81)

/-- The first of some times. -/
def earliest : List Nat → Option Nat
  | [] => none
  | t :: r => some (r.foldl Nat.min t)

/-- Since when an access of a patch waits: parked without a resume, or for a frame or a node under pull (R345, R354, R357). -/
def State.waitsSince (s : State) (p : Nat) : Waiter → Option Nat
  | .port k => match (s.port p k).parked with
    | some m => if m.resume then (s.port p k).pullAt else some m.since
    | none => (s.port p k).pullAt
  | .seq => (s.seq p).pullAt
  | .elem e => earliest ((s.elem p e).insts.filterMap (fun i => i.pullAt))
  | .engine n => match s.engine n with
    | some x =>
      let still := fun (v : DWord) => (s.pointer x.p x.e v 0 1 0 .plain).res == .wait
      if x.p = p then earliest ((x.pulls.filter (fun y => still y.1)).map (fun y => y.2)) else none
    | none => none

/-- ESCALATION: an access that has been parked at a port for its partition's escalation time without a resume, or has waited so long
for a pull, has its load pre-empted; the load is restored once the resume has been given, or the pull is over (R354, R357, R363). -/
def execEscalation (p k : Nat) (s : State) : Res :=
  let lim := (s.part (s.partOf p)).escNs
  match s.waitsSince p (waiterOf k), s.loadOf p with
  | some since, some l =>
    if l.st = .running ∧ lim ≠ 0 ∧ since + lim ≤ s.clock.ns then
      let at_ := match waiterOf k with
        | .port k => if (s.port p k).parked.isSome then some (s.lpOf p, k) else none
        | _ => none
      .next ((s.holdLoad l).modLoad l.q (fun x => { x with resumed := false, awaits := at_ }))
    else .next s
  | _, _ => .next s

/-- A frame of a partition has been pulled or withdrawn: what waited for a pull may go on, and its load may be restored (R354, R363). -/
def State.pullsOver (s : State) (n : Nat) : State :=
  { s with loads := s.loads.map (fun l => if l.part = n ∧ l.awaits = none then { l with resumed := true } else l) }

/-! ### Ends (R384, R394, R395) -/

/-- An element is finished: it has halted, or its block store is empty (R384). -/
def Elem.finished (v : Elem) : Bool := v.halted || v.blocks.isEmpty

/-- The condition of a natural end (R384). -/
def State.naturalEnd (s : State) (l : Load) : Bool :=
  l.st == .running && s.lull l && !s.busy l &&
  l.patches.all (fun p => (s.seq p).wf && (s.patch p).elems.all (fun v => v.2.finished))

/-- LOAD_NATURAL_END (R384). -/
def execLoadNaturalEnd (n : Nat) (s : State) : Res :=
  match s.loadAt n with
  | some l => if s.naturalEnd l then .next (s.modLoad n (fun x => x.goes s.clock.tsc (.ended 0 0))) else .next s
  | none => .next s

/-- A load is stopped by the manager or the watchdog: it is frozen, and its record follows (R384, R395). -/
def State.endLoad (s : State) (l : Load) (status sub : Nat) : State :=
  (s.freezePatches l).modLoad l.q (fun x => x.goes s.clock.tsc (.ended status sub))

/-- WATCHDOG_EXPIRY: the timer of a queue's load has reached its budget: the load is frozen, with a freeze record, and ends with
WATCHDOG; natural end comes first where both hold (R394, R395, R397, R401). -/
def execWatchdogExpiry (n : Nat) (s : State) : Res :=
  match s.loadAt n with
  | some l =>
    if l.st.counts ∧ l.tstart.isSome ∧ l.budget ≠ 0 ∧ l.budget * 1000 ≤ (l.tick s.clock.tsc).timer ∧ !s.naturalEnd l then
      let s := { s with freezes := s.freezes ++
        [freezeRec 0 0 n l.part 5 3 0 l.lid.toNat 0 (xcause (causeCode .watchdog) 0 false) 0 s.clock.tsc 0] }
      .next (s.endLoad l (causeCode .watchdog) 0)
    else .next s
  | none => .next s

/-! ### The completion record (R385, R386) -/

/-- The words of a completion record (R385). -/
def recordWords (status sub fcnt : Nat) (lid fcause : Word) (faddr tstart tend : DWord) (efroz pused q : Nat) : List DWord :=
  [BitVec.ofNat 64 (at64 (fcnt % 2 ^ 32) 32 + sub % 256 * 256 + status % 256), lid ++ fcause, faddr, tstart, tend,
   BitVec.ofNat 64 (at64 (efroz % 2 ^ 16) 32 + at64 (pused % 2 ^ 10) 16 + q % 4096), 0, 0]

/-- Elements of a load that are frozen (R385): every element of a frozen or evicted load. -/
def State.frozenElems (s : State) (l : Load) : Nat :=
  if l.patches.isEmpty then 64 * l.images.length
  else (l.patches.map (fun p => if (s.patch p).frozen then 64 else ((s.patch p).elems.filter (fun v => v.2.frozen)).length)).sum

/-- A load that has ended has settled (R390), every store of it is performed at `.dev`, and its engine commands are done but for those
that its end stops, with those of its triggers whose predicates have been true (R369, R384, R386, R395). -/
def State.loadDone (s : State) (l : Load) (status : Nat) : Bool :=
  s.settled l &&
  l.patches.all (fun p => (List.range 64).all (fun e => s.allPerformed (.elem p e) s.ord.nextId .dev) &&
    s.allPerformed (.seq p) s.ord.nextId .dev && (List.range 16).all (fun k => s.allPerformed (.port p k) s.ord.nextId .dev)) &&
  (status == causeCode .watchdog || (s.engines.all (fun x => x.q != some l.q || x.frozen) && !s.colls.any (fun c => c.ofLoad l.q) &&
    l.patches.all (fun p => !(s.patch p).triggers.any (fun t => t.hit))))

/-- The command processor's write of a record at a flat address, as a release at `.dev`; none where it leaves no record (R376,
R386). -/
inductive Rec where
  | ok (s : State)
  | wait
  | no

def State.writeRecord (s : State) (part : Nat) (cr : DWord) (ws : List DWord) : Rec :=
  if cr.toNat % 64 ≠ 0 then .no
  else match s.translate part cr .plain with
    | .wait => .wait
    | .fault _ _ => .no
    | .ok pl =>
      let bs := ws.flatMap (fun w => leBytes 8 w.toNat)
      .ok (s.issueStore (.cmdProc part) ⟨pl, ((List.range 64).map (pl.addr + ·)).zip bs, [], .dev, true, cr, false⟩)

/-- The signal at a flat address, as a release at `.dev`, by a word's owner, and whether it is made; a flag that faults is left
(R386). -/
def State.signalFlag (s : State) (part : Nat) (flag : DWord) (inc : Word) : State × Bool :=
  if flag.toNat % 4 ≠ 0 then (s, true)
  else match s.translate part flag .owner with
    | .wait => (s, false)
    | .fault _ _ => (s, true)
    | .ok pl =>
      if pl.module.isSome then
        match s.atomVia (.cmdProc part) none .add false pl (inc.setWidth 64) 0 .dev false true flag with
        | .got _ s => (s, true)
        | .wait s _ => (s, false)
        | .fault _ _ s => (s, true)
      else match s.tryOwner (.cmdProc part) part pl .dev false true (.signal inc) flag with
        | .ok s _ => (s, true)
        | .wait => (s, false)
        | .fault _ _ _ => (s, true)

/-- What the command processor has written for a partition is performed at `.dev`. -/
def State.cpDone (s : State) (part : Nat) : Bool := s.allPerformed (.cmdProc part) s.ord.nextId .dev

/-- The state of a queue that runs nothing: WAIT with a packet, IDLE without one (R372). -/
def Queue.rest (q : Queue) : QState := if q.head.isSome || q.staged.isSome || q.more then .wait else .idle

/-- The state of a queue whose packet has completed (R372, R395). -/
def Queue.after (q : Queue) (hold : Bool) : QState :=
  if q.st == .stopped then .stopped else if hold then .wdhold else q.rest

/-- The MSI-X vector of a queue, where one is enabled (R386, R426). -/
def State.raiseQueue (s : State) (n : Nat) : State :=
  match (s.queue n).vf with
  | some v => if (s.queue n).msix then { s with msix := s.msix ++ [v] } else s
  | none => s

/-- A load is over: the engine commands that its end stops are stopped, its patches are given back, or reset after a watchdog
expiry, and its queue goes on (R373, R384, R389, R395, R396). It touches no other load (R402). -/
def State.finishLoad (s : State) (l : Load) (status : Nat) (hold : Bool) : State :=
  let wd := status == causeCode .watchdog
  let shadow := l.patches.map (fun p => (s.patch p).staged)
  let stop := s.engines.filter (fun x => x.q == some l.q && (wd || x.frozen))
  let s := stop.foldl (fun s x => s.stopEngine x status) s
  let s := if wd then { s with colls := s.colls.map (fun c => if c.ofLoad l.q then c.stop status else c) } else s
  let s := l.patches.foldl (fun s p => if wd then s.resetPatch p else s.releasePatch p) s
  let s := { s with loads := s.loads.filter (fun x => x.q != l.q), probes := s.probes.filter (fun x => x.q != l.q) }
  let q := s.queue l.q
  let q := { q with prev := if l.images.isEmpty then q.prev else some (l.images.length, l.patches) }
  let ready := !hold && !wd && q.st == .run && !l.patches.isEmpty && shadow.all (fun x => x.isSome)
  match q.staged with
  | some h =>
    if ready && h.fail.isNone then
      let s := (l.patches.zip shadow).foldl (fun s (x : Nat × Option PatchImage) => s.setPatch x.1 { s.patch x.1 with staged := x.2 }) s
      (s.setQueue l.q { q with staged := none }).assign (h.load l.q q s.nextLoad l.patches .placed)
    else
      let q := { q with head := some { h with ready := h.ready && !hold }, staged := none }
      s.setQueue l.q { q with st := q.after hold }
  | none => s.setQueue l.q { q with st := q.after hold }

/-- The event latch of the sequencer that launched a load is set, wherever its load stands now: on its patches or in its save frames
(R150). -/
def State.wakeLauncher (s : State) (l : Load) : State :=
  match l.launcher with
  | none => s
  | some (order, lp) => match s.loads.find? (fun x => x.order == order) with
    | some k => s.onLoadPatch k lp (fun x => { x with seq := { x.seq with latch := true } })
    | none => s

/-- LOAD_COMPLETION_RECORD: for a load that has ended, once every store of it is performed at `.dev`, the record is written; when
that is performed, the flag is incremented, the launcher's event latch set and the queue's vector raised. Without a record a freeze
record with SUB 5 goes to the manager, and the queue waits in WDHOLD (R150, R376, R385, R386, R404). -/
def execLoadCompletionRecord (n : Nat) (s : State) : Res :=
  match s.loadAt n with
  | none => .next s
  | some l => match l.st with
    | .ended status sub =>
      if !s.loadDone l status then .next s
      else
        let ws := recordWords status sub l.fcnt l.lid l.fcause l.faddr (l.tstart.getD 0) s.clock.tsc (s.frozenElems l) l.images.length n
        match if l.cr = 0 then .no else s.writeRecord l.part (BitVec.ofNat 64 l.cr) ws with
        | .wait => .next s
        | .ok s => .next (s.modLoad n (fun x => { x with st := .recorded status sub }))
        | .no =>
          let s := { s with freezes := s.freezes ++ [freezeRec 0 0 n l.part 5 5 0 l.lid.toNat 0
            (if l.fcause = 0 then BitVec.ofNat 32 (status + 256 * sub) else l.fcause) l.faddr s.clock.tsc 0] }
          .next (s.finishLoad l status true)
    | .recorded status _ =>
      if !s.cpDone l.part then .next s
      else match if l.flag = 0 then (s, true) else s.signalFlag l.part (BitVec.ofNat 64 l.flag) l.finc with
        | (s, false) => .next s
        | (s, true) =>
          let s := s.wakeLauncher l
          .next ((s.finishLoad l status (status == causeCode .watchdog)).raiseQueue n)
    | _ => .next s

end Sys2Proof.Machine
end

