-- ==== Sys2Proof/Machine/Host.lean ====
section
/-! DEFINITION. What the host does: its registers, its memory accesses, resumes (R322, R351, R353, R396, R425 to R428). -/

namespace Sys2Proof.Machine

/-- A virtual function answers: it is bound to a partition, and the device is in service (R425, R441, R446). -/
def State.vfOn (s : State) (n : Nat) : Bool :=
  decide (n < 1024) && (s.vf n).part.isSome && (s.device.dstate == .reduced || s.device.dstate == .full)

/-- A bit of VERR is set, and vector 5 is raised (R426, R427). -/
def State.hostError (s : State) (n bit : Nat) : State :=
  let s := s.setVf n { s.vf n with verr := (s.vf n).verr ||| BitVec.ofNat 32 (2 ^ bit) }
  { s with msix := s.msix ++ [(n, 5)] }

/-- The hardware queue that is queue `n` of a virtual function. -/
def State.queueOf (s : State) (vf n : Nat) : Option Nat := (s.queues.find? (fun x => x.2.vf == some (vf, n))).map (fun x => x.1)

/-- DOORBELL: the new tail count of queue `n` of a virtual function, a release at `.dev`: it is taken once the function's earlier
writes are performed there; more than 2^L entries beyond HEAD are refused (R322, R427). One for a number that the manager has given no
queue is refused in the same way (DESIGN CHOICE, log 72). -/
def execDoorbell (vf n : Nat) (v : Word) (s : State) : Res :=
  if !s.vfOn vf || !s.allPerformed (.host vf) s.ord.nextId .dev then .next s
  else match s.queueOf vf n with
    | none => .next (s.hostError vf 0)
    | some k =>
      let q := s.queue k
      if 2 ^ q.ringLog < (v - q.headCnt).toNat then .next (s.hostError vf 0) else .next (s.setQueue k (q.appended v))

/-- FQHEAD: the fault records that the host has consumed (R426, R428). -/
def execFqhead (vf : Nat) (v : Word) (s : State) : Res :=
  match s.vfOn vf, (s.vf vf).part with
  | true, some n => .next (s.setPart n { s.part n with fqHead := v })
  | _, _ => .next s

/-- VERR_CLEAR: a write of 1 clears a bit of VERR (R426). -/
def execVerrClear (vf : Nat) (v : Word) (s : State) : Res :=
  if s.vfOn vf then .next (s.setVf vf { s.vf vf with verr := (s.vf vf).verr &&& ~~~v }) else .next s

/-- The offsets of the registers of BAR0 (R426). -/
def bar0Regs : List Nat :=
  [0x000, 0x008, 0x010, 0x018, 0x040, 0x048, 0x050, 0x058, 0x080, 0x088, 0x090, 0x098, 0x100, 0x108, 0x110, 0x118, 0x120]

/-- STATE of a queue (R372). -/
def qstateCode : QState → Nat
  | .idle => 0 | .wait => 1 | .run => 2 | .wdhold => 3 | .stopped => 4

/-- What the host reads at an offset of a virtual function's BAR0: write-only registers and offsets that are no register read zero; the
layout of VER is the implementation's (R426; log 72). A queue that the manager has not set reads as after reset. -/
def State.bar0 (s : State) (vf off : Nat) : DWord :=
  let q := fun (base : Nat) => ((s.queueOf vf ((off - base) / 8)).map s.queue).getD Queue.reset
  let pt := ((s.vf vf).part.map s.part).getD Part.reset
  if !s.vfOn vf ∨ !bar0Regs.contains off then 0
  else if 0x040 ≤ off ∧ off < 0x080 then (q 0x040).headCnt.setWidth 64
  else if 0x080 ≤ off ∧ off < 0x100 then BitVec.ofNat 64 (qstateCode (q 0x080).st)
  else if off = 0x100 then pt.fqHead.setWidth 64
  else if off = 0x108 then pt.fqTail.setWidth 64
  else if off = 0x118 then (s.vf vf).verr.setWidth 64
  else if off = 0x120 then (s.vf vf).ver.setWidth 64
  else 0

/-- BAR0_WRITE_OTHER: a write to an offset that is no register is discarded and sets VERR bit 1 (R426). -/
def execBar0WriteOther (vf off : Nat) (s : State) : Res :=
  if s.vfOn vf && !bar0Regs.contains off then .next (s.hostError vf 1) else .next s

/-! ### Memory (R322) -/

/-- The pieces of a host write, each in one frame; an empty write is one piece of no bytes, which is translated, checked and ordered
as a store (R233). A piece that does not translate is dropped. -/
def State.hostStores (s : State) (vf part : Nat) (a : HostAccess) : List (Nat × Nat) → State
  | [] => s
  | (o, n) :: r =>
    let fa := a.fa + BitVec.ofNat 64 o
    match s.translate part fa .host with
    | .ok pl =>
      let st : Store := ⟨pl, ((List.range n).map (pl.addr + ·)).zip ((a.data.drop o).take n), [], .dev, false, fa, false⟩
      (s.issueStore (.host vf) st).hostStores vf part a r
    | .fault c sub => if c = .perm then s.freezeVf vf part sub fa { a with fa := fa, data := a.data.drop o } else s.hostStores vf part a r
    | .wait => s.hostStores vf part a r

/-- The words that some bytes lie in: offsets and lengths. -/
def wordPieces (a n : Nat) : List (Nat × Nat) :=
  (List.range ((a % 8 + n + 7) / 8)).map (fun i => (8 * i - a % 8, Nat.min (8 * (i + 1) - a % 8) n - (8 * i - a % 8)))

/-- The words of read `m` of a host, each a load of its own (R306, R322). One that does not translate is answered with free
values (log 2). -/
def State.hostLoads (s : State) (vf part m : Nat) (a : HostAccess) : List (Nat × Nat) → State
  | [] => s
  | (o, n) :: r =>
    let fa := a.fa + BitVec.ofNat 64 o
    match s.translate part fa .host with
    | .ok pl => (s.issue (.host vf) .dev pl (.load pl.addr n (.host vf m o)) false false fa).hostLoads vf part m a r
    | _ => (s.hostFree vf m o n).hostLoads vf part m a r

/-- A host read: it breaks its partition's boundary, or its words are read. -/
def State.hostRead (s : State) (vf part : Nat) (a : HostAccess) (l : List (Nat × Nat)) : State :=
  match l.findSome? (fun x => match s.translate part (a.fa + BitVec.ofNat 64 x.1) .host with
    | .fault .perm sub => some (a.fa + BitVec.ofNat 64 x.1, sub)
    | _ => none) with
  | some (fa, sub) => s.freezeVf vf part sub fa a
  | none =>
    let m := s.ord.nextId
    let k : HostAsk := ⟨vf, m, a.len, []⟩
    { s with hostAsks := s.hostAsks ++ [k] }.hostLoads vf part m a l

/-- A host access waits for a frame under pull (R344, R357). -/
def State.hostWaits (s : State) (part : Nat) (fa : DWord) (l : List (Nat × Nat)) : Bool :=
  l.any (fun x => match s.translate part (fa + BitVec.ofNat 64 x.1) .host with
    | .wait => true
    | _ => false)

/-- A host access enters the device. -/
def State.hostAccess (s : State) (vf : Nat) (a : HostAccess) : State :=
  match (s.vf vf).part with
  | none => s
  | some n =>
    let len := if a.len = 0 then a.data.length else a.len
    let l := if a.len = 0 then pieces a.fa.toNat len (len / 65536 + 2) else wordPieces a.fa.toNat len
    if s.hostWaits n a.fa l then s
    else if a.len = 0 then s.hostStores vf n a l else s.hostRead vf n a l

/-- HOST_WRITE: a host write is a store of its frame's kind at `.dev` (R322). -/
def execHostWrite (vf : Nat) (fa : BitVec 56) (bytes : List Byte) (s : State) : Res :=
  if s.vfOn vf && (s.vf vf).frozen.isNone then .next (s.hostAccess vf ⟨fa.setWidth 64, bytes, 0⟩) else .next s

/-- HOST_READ: a host read is a load at `.dev` (R322); its Read step answers it. -/
def execHostRead (vf : Nat) (fa : BitVec 56) (len : Nat) (s : State) : Res :=
  if s.vfOn vf && (s.vf vf).frozen.isNone && len != 0 then .next (s.hostAccess vf ⟨fa.setWidth 64, [], len⟩) else .next s

/-! ### Resumes (R351, R353, R354, R428) -/

/-- A port holds a parked or bubbled access and its current token is the one given. -/
def Port.answers (pt : Port) (tok : Word) : Bool := (pt.parked.isSome || !pt.bubbles.isEmpty) && pt.tok == tok

/-- A resume for a port of a load's patch: on its patch, or in its save frame; the load is restored once the port of its escalated access
has been resumed (R354). -/
def State.resumeLoad (s : State) (l : Load) (lp k : Nat) (tok : Word) : State :=
  let escalated := l.awaits == some (lp, k)
  match l.patches[lp]?, l.saved[lp]? with
  | some p, _ =>
    if (s.port p k).answers tok then
      (s.setPort p k (s.port p k).resume).modLoad l.q (fun x => { x with resumed := x.resumed || escalated })
    else s
  | none, some sv =>
    let pt := sv.patch.port k
    if pt.answers tok then
      let x := { sv.patch with ports := smSet sv.patch.ports k pt.resume }
      s.modLoad l.q (fun y => { y with saved := setAt y.saved lp { sv with patch := x }, resumed := y.resumed || escalated })
    else s
  | none, none => s

/-- RESUME: the access that a port of load patch LP holds is resumed, in the loads of the virtual function's queues, where the
token is the port's current one; else the write is discarded (R351, R428). -/
def execResume (vf : Nat) (v : DWord) (s : State) : Res :=
  let mine := s.loads.filter (fun l => match (s.queue l.q).vf with
    | some f => f.1 == vf
    | none => false)
  if !s.vfOn vf || bits v 63 48 != 0 || bits v 33 32 != 0 then .next s
  else .next (mine.foldl (fun s l => s.resumeLoad l (bits v 47 38) (bits v 37 34) (v.setWidth 32)) s)

end Sys2Proof.Machine
end

