-- ==== Sys2Proof/Machine/Walks.lean ====
section
/-! DEFINITION. Walks that fill the translation caches, walks that give up, and invalidation (R343 to R349). -/

namespace Sys2Proof.Machine

/-- What a walk finds for a cache: the entry, and the region of addresses or the tile that it covers (R343, R347). -/
def State.walkResult (s : State) (site : CacheSite) (part : Nat) (tensor : Bool) (a : DWord) : Tr CacheEntry :=
  if tensor then
    let tens := bits a 63 44
    let tile := bits a 43 24
    match s.tensor part tens with
    | none => .fault .xlate 0
    | some t => (s.walkTile site part t tile).bind (fun x => .ok ⟨site, part, some tens, tile, tile, x⟩)
  else (s.walk part a).bind (fun x =>
    let size := if bits x 3 3 = 1 then 2 ^ 21 else 2 ^ 16
    let lo := a.toNat / size * size
    .ok ⟨site, part, none, lo, lo + size - 1, x⟩)

/-- The node entry of another module at which a walk stands (R345). -/
def State.walkFar (s : State) (site : CacheSite) (part : Nat) (tensor : Bool) (a : DWord) : Option Nat :=
  if tensor then (s.tensor part (bits a 63 44)).bind (fun t => s.tileStands site part t (bits a 43 24))
  else ((s.part part).root).bind (fun r => s.walkStands part a.toNat 4 r)

/-- Cached entries that cover no address of a region. -/
def uncover (part : Nat) (tens : Option Nat) (lo hi : Nat) (l : List CacheEntry) : List CacheEntry :=
  l.filter (fun c => !(c.part == part && c.tens == tens && decide (c.lo ≤ hi) && decide (lo ≤ c.hi)))

/-- The page or tile that a walk is for. -/
def walkPage (tensor : Bool) (a : DWord) : Option Nat × Nat :=
  if tensor then (some (bits a 63 44), bits a 43 24) else (none, a.toNat / 65536)

/-- The cache that a walk fills: the table names none, so that it is a free choice among every memory port's and every die's
(R348; log 41). -/
def siteOf (x : DWord) : CacheSite :=
  let n := x.toNat % 2 ^ 32
  match n % 3 with
  | 0 => .elem (n / 3 % 640) (n / 1920 % 64)
  | 1 => .port (n / 3 % 640) (n / 1920 % 16)
  | _ => .die (n / 3 % 8)

/-- The entries that a cache holds at most (R348). -/
def CacheSite.room : CacheSite → Nat
  | .die _ => 16384
  | _ => 256

/-- A cache takes an entry; one that is full gives up another, of a free choice (R348; log 41). -/
def fillCache (x : DWord) (c : CacheEntry) (l : List CacheEntry) : List CacheEntry :=
  let mine := l.filter (fun d => d.site == c.site)
  let out := mine.getD (x.toNat / 2 ^ 32 % mine.length) c
  (if c.site.room ≤ mine.length then l.filter (fun d => d != out) else l) ++ [c]

/-- A walk's reads of another module's nodes are forgotten with it. -/
def State.walkEnds (s : State) (part : Nat) (walks : List Walk) : State :=
  let mine := fun (q : Asked) => q.agent == .cmdProc part && q.acc == none && q.len == 8 && !q.write && q.st != .sent
  { s with walks := walks, fabric := { s.fabric with asked := s.fabric.asked.filter (fun q => !mine q) } }

/-- WALK: the tables of a partition are walked for a flat address, or for a tensor's tile at a fault address; what is found is
cached by a memory port or a die. A walk that needs a node of another module asks for its entry by RD; one that meets a node
under pull waits; with 64 walks in flight on the die a further one does (R344, R345, R348, R411). -/
def execWalk (part : Nat) (tensor : Bool) (a : DWord) (s : State) : Res :=
  let (tens, page) := walkPage tensor a
  let x := Config.freeDWord s.free
  let site := siteOf x
  let mine := fun (w : Walk) => w.die == site.onDie && w.part == part && w.tens == tens && w.page == page
  let rest := s.walks.filter (fun w => !mine w)
  let s := { s with free := s.free + 1 }
  if (!tensor && bits a 63 56 != 0) || !s.walkRoom site.onDie part tens page then .next s
  else match s.walkResult site part tensor a with
    | .ok c =>
      let s := s.walkEnds part rest
      .next { s with cache := fillCache x c (s.cache.filter (fun d => d.site != site || !(uncover part c.tens c.lo c.hi [d]).isEmpty)) }
    | .fault _ _ => .next (s.walkEnds part rest)
    | .wait =>
      let far := s.walkFar site part tensor a
      let s := if s.walks.any (fun w => mine w && w.gaveUp.isNone && w.pull == far.isNone) then s
        else { s with walks := rest ++ [⟨site.onDie, far.isNone, part, tens, page, s.clock.ns, none⟩] }
      match far with
      | none => .next s
      | some b =>
        let pl : Place := ⟨b, .rc, false, false⟩
        match s.via (.cmdProc part) none pl 8 false a (packet 0 .dev ((pl.module).getD 0) (s.identOf part) 8 0 0 pl.pa []) with
        | .wait s _ => .next s
        | .got _ _ => .next s
        | .fault _ _ s => .next s

/-- TABLE_MIGRATE: a walk for a flat address that has waited 200 µs for a node under pull gives up, and its access takes XLATE
with sub-cause TABLE_MIGRATE; so does every access that waits for it on its die (R345). -/
def execTableMigrate (part : Nat) (a : DWord) (s : State) : Res :=
  .next { s with walks := s.walks.map (fun w =>
    if w.pull ∧ w.part = part ∧ (w.tens, w.page) = walkPage w.tens.isSome a ∧ w.since + 200000 ≤ s.clock.ns ∧ w.gaveUp = none then
      { w with gaveUp := some s.clock.ns }
    else w) }

end Sys2Proof.Machine
end

