-- ==== Sys2Proof/Machine/Manager.lean ====
section
/-! DEFINITION. The partition manager's mailbox: its commands and what READ returns (R349, R384, R393, R396, R403, R409, R415,
R418, R429 to R432, R441, R446 to R452, R454). The arguments of the commands have no layout in the spec (log 4). -/

namespace Sys2Proof.Machine

/-! ### Replies (R431) -/

/-- The mailbox's reply: a status, and up to six words. -/
def State.respond (s : State) (status : Nat) (data : List DWord) : State :=
  { s with reply := BitVec.ofNat 64 status :: ((List.range 6).map (fun i => data.getD i 0) ++ [0]) }

/-- A command that is no READ: in RESET and SELFTEST the mailbox does not answer, in SAFE it refuses; an argument outside its
range gives status 2, a command that is refused status 1; else it acts, and status is 0 (R431, R441, R446). -/
def State.command (s : State) (bad refuse : Bool) (t : State) : State :=
  match s.device.dstate with
  | .reset | .selftest => s
  | .safe => s.respond 1 []
  | _ => if bad then s.respond 2 [] else if refuse then s.respond 1 [] else t.respond 0 []

/-- A READ: `safe` where SAFE serves it (R446); none for a piece that the item does not have (R432). -/
def State.readItem (s : State) (safe : Bool) (data : Option (List DWord)) : State :=
  match s.device.dstate with
  | .reset => s
  | .safe => if !safe then s.respond 1 [] else match data with
    | some d => s.respond 0 d
    | none => s.respond 2 []
  | _ => match data with
    | some d => s.respond 0 d
    | none => s.respond 2 []

/-- UNKNOWN_COMMAND: a reserved code gets status 3 and changes nothing; a command of a code that R431 lists stands here for one that sets
a reserved bit, or for a READ of a selector that R432 does not list, and gets status 2 (R431, R432; log 4). -/
def execUnknownCommand (code : Byte) (s : State) : Res :=
  .next (match s.device.dstate with
    | .reset | .selftest => s
    | .safe => s.respond 1 []
    | _ => s.respond (if 1 ≤ code.toNat ∧ code.toNat ≤ 0x12 then 2 else 3) [])

/-! ### Partitions (R429, R431, R450, R452) -/

/-- Extend a measurement register with a digest (R450). -/
def Device.extend (d : Device) (n : Nat) (digest : List Byte) : Device :=
  { d with m := d.m.set n (sha256 (d.m.getD n [] ++ digest)) }

/-- A partition comes to be, with its public keys, each of which M3 is extended with; its number in the domain is its own until GRANT
sets another (R430, R431, R450, R452). -/
def State.newPart (s : State) (n : Nat) (keys : List (List Byte)) (sig : Bool) : State :=
  let t := s.setPart n { Part.reset with exists_ := true, ident := n, keys := keys, needSig := sig }
  { t with device := keys.foldl (fun d k => d.extend 3 (sha256 k)) s.device }

/-- PCREATE: a partition comes to be. Its public keys are read from a list at a flat address, in the flat memory of the partition that
the command names for it (log 4); where that cannot be read the command is refused (R431, R450, R452). -/
def execPcreate (n : Nat) (keyAddr : FlatAt) (keyCount : Nat) (sig : Bool) (s : State) : Res :=
  let bad := decide (20 ≤ n) || decide (20 ≤ keyAddr.part) || decide (4 < keyCount) || (sig && keyCount == 0)
  if bad || keyCount == 0 || (s.part n).exists_ then .next (s.command bad (s.part n).exists_ (s.newPart n [] sig))
  else match s.readFlat (.cmdProc keyAddr.part) keyAddr.part (BitVec.ofNat 64 keyAddr.addr) (64 * keyCount) with
    | .wait s => .next s
    | .fault _ _ _ s => .next (s.command false true s)
    | .ok bs s => .next (s.command false false (s.newPart n ((List.range keyCount).map (fun i => (bs.drop (64 * i)).take 64)) sig))

/-- A patch is taken back: it is reset (R383). -/
def State.takePatch (s : State) (p : Nat) : State :=
  let t := (s.settlePatch p).resetPatch p
  t.setPatch p { t.patch p with part := none }

/-- PDESTROY: a partition that has no load goes: its patches are taken back and reset, its queues stop, its virtual functions are
bound to none (R383, R431). -/
def execPdestroy (n : Nat) (s : State) : Res :=
  let pt := s.part n
  let t := pt.patches.foldl (fun s p => s.takePatch p) s
  let t := { t with parts := smDel t.parts n, cache := t.cache.filter (fun c => c.part != n),
                    queues := t.queues.map (fun (x : Nat × Queue) => (x.1, if x.2.part = n then Queue.reset else x.2)),
                    vfs := t.vfs.map (fun (x : Nat × Vf) => (x.1, if x.2.part = some n then Vf.reset else x.2)) }
  .next (s.command (decide (20 ≤ n)) (!pt.exists_ || s.loads.any (fun l => l.part == n)) t)

/-- A patch goes to a partition: it is reset where another one used it last (R383). -/
def State.givePatch (s : State) (n p : Nat) : State :=
  let t := (s.settlePatch p).resetPatch p
  if (s.patch p).part = some n then s else t.setPatch p { t.patch p with part := some n }

/-- GRANT: patches, frames, tables and areas for a partition, and its number in the fabric domain; each patch brings one pool of links. A
fenced patch, one of another partition or one that holds a load is refused, and so is a frame or the number of another partition (R220,
R383, R391, R429 to R431, R443). -/
def execGrant (g : GrantArgs) (s : State) : Res :=
  let n := g.part
  let pt := s.part n
  let others := s.parts.filter (fun x => x.1 != n)
  let refuse := !pt.exists_ || g.patches.any (fun p => (s.patch p).fenced || others.any (fun x => x.2.patches.contains p)) ||
    g.take.any (fun p => !pt.patches.contains p || (s.patch p).load.isSome) || g.frames.any (fun f => others.any (fun x => x.2.frames.contains f)) ||
    others.any (fun x => g.ident == some x.2.ident)
  let t := g.patches.foldl (fun s p => s.givePatch n p) s
  let t := g.take.foldl (fun s p => s.takePatch p) t
  let pt' := { pt with
    patches := (pt.patches ++ g.patches.filter (fun p => !pt.patches.contains p)).filter (fun p => !g.take.contains p)
    frames := pt.frames ++ g.frames.filter (fun f => !pt.frames.contains f)
    root := if g.root.isSome then g.root else pt.root
    tensors := g.tensors ++ pt.tensors.filter (fun x => !g.tensors.any (fun y => y.1 == x.1))
    saveArea := if g.saveArea.isSome then g.saveArea else pt.saveArea
    fqBase := g.fqBase
    fqLog := g.fqLog
    ident := g.ident.getD pt.ident }
  .next (s.command (decide (20 ≤ n) || decide (20 ≤ g.ident.getD 0) || (g.patches ++ g.take).any (fun p => decide (640 ≤ p)) || decide (g.fqLog < 4) || decide (12 < g.fqLog))
    refuse (t.setPart n pt'))

/-! ### Queues and virtual functions (R372, R403, R427, R431) -/

/-- QSET: partition, priority, weight and ring of a queue, and the virtual function whose queue it is. -/
def execQset (g : QSetArgs) (s : State) : Res :=
  let q := s.queue g.queue
  let bad := decide (4096 ≤ g.queue) || decide (20 ≤ g.part) || decide (7 < g.pri) || g.weight == 0 || decide (255 < g.weight) ||
    decide (g.ringLog < 6) || decide (16 < g.ringLog) || decide (1024 ≤ g.vf) || decide (3 < g.n)
  let q' := { q with part := g.part, pri := g.pri, weight := g.weight, ringBase := g.ringBase, ringLog := g.ringLog,
                     ringHost := g.ringHost, vf := some (g.vf, g.n), msix := g.msix }
  .next (s.command bad (s.queues.any (fun x => x.1 != g.queue && x.2.vf == some (g.vf, g.n))) (s.setQueue g.queue q'))

/-- QENABLE: STOPPED to WAIT, which is IDLE where the queue holds no packet, and RUN where its load or collective still runs (R372, R373, R431). -/
def execQenable (n : Nat) (s : State) : Res :=
  let q := s.queue n
  let st := if s.engaged n then .run else q.rest
  .next (s.command (decide (4096 ≤ n)) (q.st != .stopped) (s.setQueue n { q with st := st }))

/-- QDISABLE: to STOPPED (R431). -/
def execQdisable (n : Nat) (s : State) : Res :=
  .next (s.command (decide (4096 ≤ n)) false (s.setQueue n { s.queue n with st := .stopped }))

/-- VFBIND (R425, R431). -/
def execVfbind (vf n : Nat) (s : State) : Res :=
  .next (s.command (decide (1024 ≤ vf) || decide (20 ≤ n)) (!(s.part n).exists_) (s.setVf vf { s.vf vf with part := some n }))

/-- WDACK: accepted only in WDHOLD; the queue returns to WAIT, which is IDLE where it holds no packet (R372, R395, R403). -/
def execWdack (n : Nat) (s : State) : Res :=
  let q := s.queue n
  .next (s.command (decide (4096 ≤ n)) (q.st != .wdhold) (s.setQueue n { q with st := q.rest }))

/-! ### Loads (R384, R393, R396) -/

/-- A load that FREEZE or a nested fault has frozen resumes (R112, R152). -/
def State.thawLoad (s : State) (l : Load) : Option State :=
  match l.st with
  | .frozen _ =>
    let s := l.patches.foldl (fun s p => s.setPatch p { s.patch p with frozen := false }) s
    some (s.modLoad l.q (fun x => { x.goes s.clock.tsc .running with frames := [] }))
  | .evicted (some _) => some (s.modLoad l.q (fun x => { x with st := .evicted none }))
  | _ => none

/-- The agent of a load that a THAW names goes on from the access that broke the rule; none where it is not frozen (R396). -/
def State.thawAgent (s : State) (l : Load) (t : ThawName) : Option State :=
  let x := s.loadPatch l t.lp
  match t.agent with
  | 0 => if (x.elem t.el).frozen then some (s.onLoadPatch l t.lp (fun x => x.setElem t.el { x.elem t.el with frozen := false })) else none
  | 1 => if x.seq.frozen then some (s.onLoadPatch l t.lp (fun x => { x with seq := { x.seq with frozen := false } })) else s.thawLoad l
  | 2 =>
    if (x.port t.port).frozen then
      some (s.onLoadPatch l t.lp (fun x => { x with ports := smSet x.ports t.port { x.port t.port with frozen := false } }))
    else none
  | 3 => match s.engines.find? (fun e => e.q == some l.q && e.frozen && e.ptr == t.blk) with
    | some e => some (s.setEngine { e with frozen := false, status := 0, sub := 0, faddr := 0 })
    | none => none
  | _ => s.thawLoad l

/-- THAW_COMMAND: the agent or load that a freeze record names goes on; an agent, or a virtual function, makes again the access that was
refused (R396, R397, R431; log 17). -/
def execThawCommand (t : ThawName) (s : State) : Res :=
  let bad := decide (4096 ≤ t.queue) || decide (640 ≤ t.lp) || decide (64 ≤ t.el) || decide (5 < t.agent) || decide (16 ≤ t.port)
  if t.agent = 4 then
    match (s.vf t.queue).frozen with
    | some a => .next (s.command bad false ((s.setVf t.queue { s.vf t.queue with frozen := none }).hostAccess t.queue a))
    | none => .next (s.command bad true s)
  else match (s.loadAt t.queue).bind (fun l => s.thawAgent l t) with
    | some u => .next (s.command bad false (u.redoLoad t.queue))
    | none => .next (s.command bad true s)

/-- LEND: the end command (R384, R401). -/
def execLend (n : Nat) (s : State) : Res :=
  match s.loadAt n with
  | some l => .next (s.command (decide (4096 ≤ n)) (!l.st.alive) (s.endLoad l 0 1))
  | none => .next (s.command (decide (4096 ≤ n)) true s)

/-- The sub-cause of a load's freeze: of FREEZE or a nested fault, or 0 where an agent of it is frozen as an offending master. -/
def State.frozenSub (s : State) (l : Load) : Option Nat :=
  match l.st with
  | .frozen k => some k
  | .evicted (some k) => some k
  | _ =>
    let any_ := (List.range l.images.length).any (fun lp =>
      let x := s.loadPatch l lp
      x.seq.frozen || x.elems.any (fun v => v.2.frozen) || x.ports.any (fun k => k.2.frozen))
    if l.st.alive && (any_ || s.engines.any (fun e => e.q == some l.q && e.frozen)) then some 0 else none

/-- LDISCARD: a load that is frozen, or has a frozen agent, is discarded (R384). -/
def execLdiscard (n : Nat) (s : State) : Res :=
  match (s.loadAt n).bind (fun l => (s.frozenSub l).map (fun k => (l, k))) with
  | some (l, k) => .next (s.command (decide (4096 ≤ n)) false (s.endLoad l (causeCode .frozen) k))
  | none => .next (s.command (decide (4096 ≤ n)) true s)

/-- LPREEMPT: a load is pre-empted: it is frozen, and EVICT takes its patches; one that is not configured yet starts again (R393, R401). -/
def execLpreempt (n : Nat) (s : State) : Res :=
  match s.loadAt n with
  | some l => .next (s.command (decide (4096 ≤ n)) (l.st != .running && l.st != .placed) (s.cpFreeze l))
  | none => .next (s.command (decide (4096 ≤ n)) true s)

/-! ### Translations, timeouts, routes (R349, R354, R409, R414, R415) -/

/-- INVAL: no cache holds a translation of the partition for the region any more, nor any of its tensors' (R349); an access that waited
for a frame which the manager has withdrawn goes on to its fault (R363). -/
def execInval (n : Nat) (lo hi : DWord) (s : State) : Res :=
  let c := (uncover n none lo.toNat hi.toNat s.cache).filter (fun c => !(c.part == n && c.tens.isSome))
  .next (s.command (decide (20 ≤ n)) false ({ s with cache := c }.pullsOver n))

/-- A time from 1 µs to 1 s, or 0 for no limit. -/
def okLimit (t : Nat) : Bool := t == 0 || (decide (1000 ≤ t) && decide (t ≤ 1000000000))

/-- TIMEOUTS (R214, R345, R354, R414, R431). -/
def execTimeouts (t : TimeoutArgs) (s : State) : Res :=
  let x := s.setPart t.part { s.part t.part with feNs := t.feNs, escNs := t.escalationNs, remoteWalk := t.remoteWalk }
  .next (s.command (decide (20 ≤ t.part) || !okLimit t.feNs || !okLimit t.escalationNs || decide (t.custodyNs < 100000) ||
      decide (100000000 < t.custodyNs)) false { x with fabric := { x.fabric with custodyNs := t.custodyNs } })

/-- A route entry whose ports are both fenced is not valid (R443). -/
def State.routeEntry (s : State) (x : Half) : Half :=
  if s.portFenced (x.toNat % 16) && s.portFenced (x.toNat / 16 % 16) then x &&& 0xFEFF else x

/-- ROUTE: route table entries (R409, R443). -/
def execRoute (entries : List (Nat × Half)) (s : State) : Res :=
  let r := entries.foldl (fun m (x : Nat × Half) => smSet m x.1 (s.routeEntry x.2)) s.fabric.routes
  .next (s.command (entries.any (fun x => decide (512 ≤ x.1) || decide (2 ^ 9 ≤ x.2.toNat))) false
    { s with fabric := { s.fabric with routes := r } })

/-- SLOTLD: slot table entries of a port: slot, output, entry (R415). -/
def execSlotld (port : Nat) (entries : List (Nat × Nat × Half)) (s : State) : Res :=
  let bad := decide (16 ≤ port) || entries.any (fun x => decide (256 ≤ x.1) || decide (16 ≤ x.2.1) || decide (2 ^ 13 ≤ x.2.2.toNat) ||
    x.2.2.toNat / 32 % 8 != 0 || decide (16 < x.2.2.toNat % 32))
  let l := entries.foldl (fun (m : List ((Nat × Nat × Nat) × Half)) x =>
    m.filter (fun y => y.1 != (port, x.1, x.2.1)) ++ [((port, x.1, x.2.1), x.2.2)]) s.fabric.slots
  .next (s.command bad false { s with fabric := { s.fabric with slots := l } })

/-! ### READ (R418, R432, R441, R447, R448, R451, R454) -/

/-- Piece `k` of an item: 48 bytes, zero beyond its end; none where the item has no such piece. -/
def piece48 (bs : List Byte) (k : Nat) : Option (List DWord) :=
  if k ≠ 0 ∧ bs.length ≤ 48 * k then none
  else some ((List.range 6).map (fun i => BitVec.ofNat 64 (numAt ((bs.drop (48 * k)).take 48) (8 * i) 8)))

/-- A single piece of some words. -/
def only (k : Nat) (ws : List DWord) : Option (List DWord) := if k = 0 then some ws else none

/-- READ_SAVE_FRAME: a piece of the save frame of a frozen load, whose bytes are opaque: free values; that of a load which its watchdog
has frozen is readable until its patches are reset (R391, R395, R432; log 47). -/
def execReadSaveFrame (n lp k : Nat) (s : State) : Res :=
  let frozen := match s.loadAt n with
    | some l => (s.standsFrozen l || !l.saved.isEmpty) && decide (lp < l.images.length)
    | none => false
  if !frozen && decide (n < 4096) then .next (s.command false true s)
  else if frozen ∧ k < 1048576 then
    .next ({ s with free := s.free + 6 }.readItem false (some ((List.range 6).map (fun i => Config.freeDWord (s.free + i)))))
  else .next (s.readItem false none)

def State.fabPort (s : State) (n : Nat) : FabPort := smGet FabPort.reset s.fabric.ports n

def State.setFabPort (s : State) (n : Nat) (x : FabPort) : State := { s with fabric := { s.fabric with ports := smSet s.fabric.ports n x } }

/-- READ_SLIPCNT (R418, R432). -/
def execReadSlipcnt (port k : Nat) (s : State) : Res :=
  .next (s.readItem false (if port < 16 then only k [(s.fabPort port).slip.setWidth 64] else none))

/-- READ_LINK_ERRORS (R432). -/
def execReadLinkErrors (port k : Nat) (s : State) : Res :=
  let x := s.fabPort port
  .next (s.readItem false (if port < 16 then only k [x.dropped ++ x.crcReplays, x.resends.setWidth 64] else none))

/-- A bit map of some bytes. -/
def bitmap (n : Nat) (l : List Nat) : List Byte :=
  (List.range n).map (fun i => BitVec.ofNat 8 ((List.range 8).foldl (fun x b => x + (l.contains (8 * i + b)).toNat * 2 ^ b) 0))

/-- The failure map (R447). -/
def failureMap (f : SelfTest) : List Byte :=
  bitmap 80 f.patches ++ bitmap 2 f.hbm ++ bitmap 2 f.ports ++ bitmap 2 f.lanes ++ bitmap 1 f.io ++
  [0, f.fclass, f.fcode] ++ leBytes 2 f.findex.toNat ++ List.replicate 100 0

/-- READ_FAILURE_MAP (R447). -/
def execReadFailureMap (k : Nat) (s : State) : Res := .next (s.readItem true (piece48 (failureMap s.device.fenced) k))

/-- The code of a device state (R441). -/
def dstateCode : DState → Nat
  | .reset => 0 | .selftest => 1 | .reduced => 2 | .full => 3 | .safe => 4

/-- Some bytes, cut or padded to a length. -/
def bytesTo (n : Nat) (l : List Byte) : List Byte := (List.range n).map (fun i => l.getD i 0)

/-- A boot report over a nonce (R451). -/
def State.bootReport (s : State) (nonce : List DWord) : List Byte :=
  let d := s.device
  let body := leBytes 4 1 ++ [BitVec.ofNat 8 (dstateCode d.dstate), d.fusedSvn, 0, 0] ++ bytesTo 8 Config.serial ++
    (List.range 4).flatMap (fun i => bytesTo 32 (d.m.getD i [])) ++ (List.range 4).flatMap (fun i => leBytes 8 (nonce.getD i 0).toNat) ++
    leBytes 8 s.clock.tsc.toNat ++ List.replicate 8 0
  body ++ bytesTo 64 (Config.sign (sha256 body))

/-- READ_BOOT_REPORT: piece 0 freezes and signs a report over the nonce; the others return the rest of it (R451). -/
def execReadBootReport (k : Nat) (nonce : List DWord) (s : State) : Res :=
  if k = 0 ∧ s.device.dstate ≠ .reset then
    let r := s.bootReport nonce
    .next ({ s with device := { s.device with report := r } }.readItem true (piece48 r 0))
  else .next (s.readItem true (piece48 (bytesTo 256 s.device.report) k))

/-- READ_DEVICE_STATE (R441). -/
def execReadDeviceState (k : Nat) (s : State) : Res :=
  .next (s.readItem true (only k [BitVec.ofNat 64 (dstateCode s.device.dstate)]))

/-- READ_IDENTITY_CERT (R448). -/
def execReadIdentityCert (k : Nat) (s : State) : Res := .next (s.readItem true (piece48 Config.certificate k))

/-- READ_THROTTLE: a byte for each die (R454). -/
def execReadThrottle (k : Nat) (s : State) : Res :=
  .next (s.readItem false (only k [BitVec.ofNat 64 (((List.range 8).map (fun d => smGet 0 s.device.throttle d * 256 ^ d)).sum)]))

end Sys2Proof.Machine
end

