-- ==== Sys2Proof/Machine/Fabric.lean ====
section
/-! DEFINITION. Fabric packets: their arrival at this module, custody, forwarding and resending, SYNC and SLIP (R343, R357 to R359,
R408 to R419, R430). -/

namespace Sys2Proof.Machine

/-! ### Packets as bytes (R410) -/

/-- The 16-byte header. -/
def packetHeader (k : Packet) : List Byte :=
  leBytes 8 (at64 k.kind.toNat 60 + at64 k.vc.toNat 56 + at64 k.hop.toNat 52 + at64 k.scope.toNat 49 + at64 k.dmod.toNat 39 +
    at64 k.smod.toNat 30 + at64 k.part.toNat 25 + at64 k.len.toNat 16 + k.tag.toNat) ++
  leBytes 8 (at64 k.op.toNat 56 + k.addr.toNat)

/-- The ERR packet for a packet that fails: its header, then the cause and the sub-cause (R411, R414; log 16). -/
def packetError (k : Packet) (c : Cause) (sub : Nat) : Packet :=
  packet 8 .fab k.smod.toNat k.part.toNat 18 k.tag 0 0 (packetHeader k ++ [BitVec.ofNat 8 (causeCode c), BitVec.ofNat 8 sub])

/-- The CUST packet for a packet that has arrived (R414). -/
def packetCust (k : Packet) : Packet := packet 7 .fab k.smod.toNat k.part.toNat 0 k.tag 0 0 []

/-- A reply of this module to a packet's source. -/
def packetReply (k : Packet) (kind : Nat) (bs : List Byte) : Packet :=
  packet kind .fab k.smod.toNat k.part.toNat bs.length k.tag k.op k.addr.toNat bs

/-- Send a packet of this module where its destination is reachable; else it is not sent (R409). -/
def State.send (s : State) (k : Packet) : State := (s.post k).getD s

/-! ### Failed accesses at their source (R396, R414) -/

/-- The address in its packet of what a request is for: of a frame, for a redirect notice. -/
def Asked.pa (a : Asked) : Nat := match a.agent with
  | .remote _ => a.addr
  | _ => (a.addr - remoteBase) % 2 ^ 51

/-- A packet's tag and address are those of a request; the data packets of one engine command share their tag. -/
def Asked.is (a : Asked) (tag : Half) (pa : Nat) : Bool := a.tag == tag && a.pa % 2 ^ 51 == pa

/-- The store that a refused request was for. -/
def Asked.undone (a : Asked) : Undone := ⟨a.agent, ⟨a.addr, .rc, false, false⟩, a.fa, ((List.range a.bytes.length).map (a.addr + ·)).zip a.bytes, none⟩

/-- One request that a packet answers is over. -/
def State.dropOne (s : State) (tag : Half) (pa : Nat) : State :=
  { s with fabric := { s.fabric with asked := s.fabric.asked.eraseP (fun a => a.is tag pa) } }

/-- A packet of a command that has left has failed: the failure is reported; PERM freezes the command as well (R228, R414). -/
def State.leftRefused (s : State) (x : Engine) (c : Cause) (sub : Nat) (fa : DWord) : State :=
  let s := { s with fabric := { s.fabric with flags := s.fabric.flags.filter (fun y => y.n != x.n) } }
  if c = .perm then { s with engines := s.engines ++ [x] }.engineLate x c sub fa
  else s.report x.p (xcause (causeCode c) sub true) fa

/-- A data packet of an engine command has failed: the command stops at its pointer, or, where its record is written already, the
failure is reported (R228, R414). -/
def State.engineRefused (s : State) (n : Nat) (c : Cause) (sub : Nat) (fa : DWord) : State :=
  match s.engine n with
  | some x => if x.st = .recorded then s.engineLate x c sub fa else s.engineStop x c sub fa
  | none => match s.fabric.flags.find? (fun y => y.n == n) with
    | some x => s.leftRefused x c sub fa
    | none => s

/-- A FLAGINC has failed: its command has left, and the failure is reported; PERM freezes the command as well (R228, R414). -/
def State.flagRefused (s : State) (tag : Half) (c : Cause) (sub : Nat) : State :=
  match s.fabric.flags.find? (fun x => engineTag x.n == tag) with
  | none => s
  | some x => s.leftRefused x c sub (blkFlag x.block)

/-- An ERR for a packet that this module sent: a request that waits fails; a store's agent is told or frozen; an engine command
stops; a flag increment is reported (R228, R414). -/
def State.failed (s : State) (kind : Nat) (tag : Half) (pa : Nat) (c : Cause) (sub : Nat) : State :=
  if kind = 6 then s.flagRefused tag c sub
  else match s.fabric.asked.find? (fun a => a.is tag pa) with
  | none => s
  | some a =>
    if kind = 2 then
      let s := s.dropOne tag pa
      match a.agent with
      | .engine n => s.engineRefused n c sub a.fa
      | ag => if c = .perm then s.freezeAgent ag sub a.fa (some (a.undone)) else s.reportAgent ag (xcause (causeCode c) sub true) a.fa
    else { s with fabric := { s.fabric with asked := s.fabric.asked.map (fun x => if x.is tag pa then { x with st := .failed c sub } else x) } }

/-- A packet cannot go on: ERR to its source, which may be this module (R414). Link and error packets fail silently. -/
def State.bounce (s : State) (k : Packet) (c : Cause) (sub : Nat) : State :=
  if k.kind = 7 ∨ k.kind = 8 ∨ k.kind = 10 then s
  else if k.smod.toNat = s.fabric.mod then s.failed k.kind.toNat k.tag k.addr.toNat c sub
  else s.send (packetError k c sub)

/-! ### Arrival (R411, R413, R414, R430) -/

/-- A packet goes on towards its destination, one hop further (R414). -/
def State.passOn (s : State) (k : Packet) (inp : Nat) : State :=
  if k.hop.toNat ≥ 15 then s.bounce k .xlate 0
  else match s.route k.dmod.toNat with
    | some r => s.takeCustody { k with hop := k.hop + 1 } inp (s.firstPort r)
    | none => s.bounce k .xlate 0

/-- The new owner of a frame that has left a forwarding stub here (R358). -/
def State.stub (s : State) (k : Packet) : Option Nat := (s.fabric.stubs.find? (fun x => x.1 == k.addr.toNat / 65536)).map (fun x => x.2)

/-- A frame of this module belongs to the partition that a packet names by its number in the domain (R430). -/
def State.ownsFrame (s : State) (k : Packet) : Bool :=
  s.parts.any (fun x => x.2.ident == k.part.toNat && x.2.frames.contains (k.addr.toNat / 65536))

/-- A packet has arrived at a port: CUST goes back; one for another module is passed on; here a second copy within 1 ms is dropped; a
request for a frame that its partition does not have here is refused, and one for a frame that has left is forwarded; else `f` performs
it (R358, R413, R414, R430). -/
def State.arrive (s : State) (port : Nat) (k : Packet) (request : Bool) (f : State → State) : State :=
  if !(s.fabPort port).up || s.portFenced port || decide (16 ≤ port) then s
  else
    let s := s.takeCustody { packetCust k with smod := BitVec.ofNat 9 s.fabric.mod } 16 port
    let now := s.clock.ns
    let seen := s.fabric.dup.filter (fun x => decide (now < x.2 + 1000000))
    let k0 := { k with hop := 0 }
    if k.dmod.toNat ≠ s.fabric.mod then s.passOn k port
    else if seen.any (fun x => x.1 == k0) then { s with fabric := { s.fabric with dup := seen } }
    else
      let s := { s with fabric := { s.fabric with dup := seen ++ [(k0, now)] } }
      if !request then f s
      else match s.stub k with
        | some m => s.passOn { k with dmod := BitVec.ofNat 9 m } port
        | none => if s.ownsFrame k then f s else s.bounce k .perm 0

/-- Bytes as another module's access finds them: this module's fabric buffer, then backing memory (R306). -/
def State.readFab (s : State) (a : Nat) : Nat → List Byte
  | 0 => []
  | n + 1 => (s.readVis a [.fab]).1 :: s.readFab (a + 1) n

/-- RD: the owner answers with the data (R306, R411). -/
def execRd (port : Nat) (k : Packet) (s : State) : Res :=
  .next (s.arrive port { k with kind := 0 } true (fun s => s.send (packetReply k 1 (s.readFab k.addr.toNat k.len.toNat))))

/-- An answer's data reaches the request that waits for it. -/
def State.answered (s : State) (k : Packet) : State :=
  { s with fabric := { s.fabric with asked := s.fabric.asked.map (fun a =>
    if a.tag = k.tag ∧ a.st = .sent then { a with st := .data k.payload } else a) } }

/-- RDR: the data reaches the request (R411). -/
def execRdr (port : Nat) (k : Packet) (s : State) : Res := .next (s.arrive port { k with kind := 1 } false (fun s => s.answered k))

/-- The bytes that a WR packet writes: those that its byte-enable word names where LEN is at most 28 (R411; log 16). -/
def wrBytes (k : Packet) : List (Nat × Byte) :=
  let n := k.len.toNat
  if n ≤ 28 then
    let en := numAt k.payload 0 4
    ((List.range n).filter (fun i => en.testBit i)).map (fun i => (k.addr.toNat + i, k.payload.getD (4 + i) 0))
  else (List.range n).map (fun i => (k.addr.toNat + i, k.payload.getD i 0))

/-- Data packets of a source and tag that have been performed here. -/
def State.wrCount (s : State) (k : Packet) : Nat :=
  ((s.fabric.wrs.find? (fun x => x.1 == k.smod.toNat && x.2.1 == k.tag)).map (fun x => x.2.2)).getD 0

/-- A FLAGINC is performed once its N data packets have been; until then it is kept (R317, R412). -/
def State.tryInc (s : State) (k : Packet) : State :=
  if s.wrCount k < numAt k.payload 4 4 then { s with fabric := { s.fabric with incs := s.fabric.incs ++ [k] } }
  else
    let (_, s) := s.atomic .add false k.addr.toNat (BitVec.ofNat 64 (numAt k.payload 0 4)) 0
    { s with fabric := { s.fabric with wrs := s.fabric.wrs.filter (fun x => !(x.1 == k.smod.toNat && x.2.1 == k.tag)) } }

/-- The waiting FLAGINC packets are tried again. -/
def State.retryIncs (s : State) : State :=
  s.fabric.incs.foldl (fun s k => s.tryInc k) { s with fabric := { s.fabric with incs := [] } }

/-- The words that a WR of an engine command sets full: those that its bytes lie in (R227; log 45). -/
def wrMarks (k : Packet) : Marks :=
  if 2 ^ 15 ≤ k.tag.toNat then ((wrBytes k).map (fun b => b.1 / 8)).eraseDups.map (fun w => (w, true)) else []

/-- WR: the owner performs the write at its backing memory, answers, and counts it for FLAGINC (R227, R308, R411, R412). -/
def execWr (port : Nat) (k : Packet) (s : State) : Res :=
  .next (s.arrive port { k with kind := 2 } true (fun s =>
    let e : VisEntry := ⟨s.ord.nextId, .remote k.smod.toNat, .fab, .rc, s.ord.nextAge, wrBytes k, agedMarks s.ord.nextAge (wrMarks k), [], 0, k.addr.toNat⟩
    let s := { s with ord := { s.ord with nextId := s.ord.nextId + 1, nextAge := s.ord.nextAge + 1 } }.settleEntry e
    let n := s.wrCount k
    let s := { s with fabric := { s.fabric with wrs :=
      (k.smod.toNat, k.tag, n + 1) :: s.fabric.wrs.filter (fun x => !(x.1 == k.smod.toNat && x.2.1 == k.tag)) } }
    (s.retryIncs).send (packetReply k 3 [])))

/-- WRA: the write is performed; a redirect notice is acknowledged, and its stub is freed with the last (R359, R411). -/
def execWra (port : Nat) (k : Packet) (s : State) : Res :=
  .next (s.arrive port { k with kind := 3 } false (fun s =>
    let s := s.dropOne k.tag k.addr.toNat
    let waits := fun (fr : Nat) => s.fabric.asked.any (fun a => a.agent == .remote s.fabric.mod && a.addr / 65536 == fr)
    { s with fabric := { s.fabric with stubs := s.fabric.stubs.filter (fun x => waits x.1) } }))

/-- ATOM: the owner performs the atomic in one step, and answers with the old value (R217, R218, R411). -/
def execAtom (port : Nat) (k : Packet) (s : State) : Res :=
  .next (s.arrive port { k with kind := 4 } true (fun s =>
    let wide := k.op.getLsbD 2
    let n := if wide then 8 else 4
    let (old, s) := s.atomic (atomOf (k.op.toNat / 8 % 8)) wide k.addr.toNat (BitVec.ofNat 64 (numAt k.payload 0 n))
      (BitVec.ofNat 64 (numAt k.payload n n))
    s.send (packetReply k 5 (leBytes n old.toNat))))

/-- ATOMR: the old value reaches the request (R411). -/
def execAtomr (port : Nat) (k : Packet) (s : State) : Res := .next (s.arrive port { k with kind := 5 } false (fun s => s.answered k))

/-- FLAGINC (R317, R411, R412). -/
def execFlaginc (port : Nat) (k : Packet) (s : State) : Res :=
  .next (s.arrive port { k with kind := 6 } true (fun s => s.tryInc { k with kind := 6 }))

/-- CUST: the next hop has custody; the sender's copy is freed (R414). -/
def execCust (port : Nat) (k : Packet) (s : State) : Res :=
  match s.fabric.held.find? (fun h => h.sent && h.out == port && h.k.tag == k.tag && h.k.smod == k.dmod) with
  | some h => .next { s with fabric := { s.fabric with held := s.fabric.held.filter (fun x => x.n != h.n) } }
  | none => .next s

/-- The cause that an ERR packet carries: a partition mismatch, or an access that no module could serve (R363, R414, R430). -/
def errCause (k : Packet) : Cause := if numAt k.payload 16 1 = causeCode .perm then .perm else .xlate

/-- ERR: the access whose packet failed, which the header in the payload names, fails at its agent (R411, R414). -/
def execErr (port : Nat) (k : Packet) (s : State) : Res :=
  .next (s.arrive port { k with kind := 8 } false (fun s => s.failed (numAt k.payload 7 1 / 16) k.tag (numAt k.payload 8 8 % 2 ^ 51) (errCause k) 0))

/-- REDIR: this module's accesses to a frame go to its new owner from now on; the notice is acknowledged (R359; log 16). -/
def execRedir (port : Nat) (k : Packet) (s : State) : Res :=
  .next (s.arrive port { k with kind := 9 } false (fun s =>
    let fr := numAt k.payload 0 8
    let old := k.smod.toNat
    let l := s.fabric.redirs.filter (fun r => !(r.1 == fr && r.2.1 == old))
    ({ s with fabric := { s.fabric with redirs := l ++ [(fr, old, numAt k.payload 8 2)] } }).send (packetReply k 3 [])))

/-- COLL_PACKET: a collective step reaches this member; its data takes part through the peers' contributions of COLLECTIVE_START and the
tiles of TILE_ARRIVAL (R411, R421; log 19). A packet of a reserved kind is dropped, counted, and refused. -/
def execCollPacket (port : Nat) (k : Packet) (s : State) : Res :=
  if 12 ≤ k.kind.toNat then
    if !(s.fabPort port).up || s.portFenced port || decide (16 ≤ port) then .next s
    else .next ((s.setFabPort port { s.fabPort port with dropped := (s.fabPort port).dropped + 1 }).send (packetError k .xlate 0))
  else .next (s.arrive port { k with kind := 11 } false id)

/-- STUB_FORWARD: an owner step that reaches a forwarding stub goes to the frame's new owner, which answers it (R358). -/
def execStubForward (k : Packet) (s : State) : Res :=
  match s.stub k with
  | some m => .next (s.passOn { k with dmod := BitVec.ofNat 9 m } 16)
  | none => .next s

/-! ### Forwarding and custody (R408, R413 to R416, R418) -/

/-- The claims of an output in the current slot, in the slot table of any port's router; a port in SLIP treats its claimed slots as
unclaimed (R415, R418). -/
def State.claims (s : State) (out : Nat) : List Half :=
  let n := s.clock.tsc.toNat / 40 % 256
  if (s.fabPort out).slipped then []
  else (s.fabric.slots.filter (fun x => x.1.2.1 == n && x.1.2.2 == out && x.2.getLsbD 12 && !(s.fabPort x.1.1).slipped)).map (fun x => x.2)

/-- A packet rides the circuit that a slot entry names. -/
def onCircuit (x : Half) (h : Held) : Bool := h.inp == x.toNat % 32 && h.k.vc.toNat == x.toNat / 256 % 16

/-- A packet between neighbours: CUST and SYNC. -/
def Held.link (h : Held) : Bool := h.k.kind == 7 || h.k.kind == 10

/-- Every earlier packet of its source to its destination has left by the same output, or has been acknowledged: rerouting one keeps
their order (R413, R434). -/
def State.inTurn (s : State) (h : Held) : Bool :=
  h.link || s.fabric.held.all (fun y =>
    !(decide (y.n < h.n) && y.k.smod == h.k.smod && y.k.dmod == h.k.dmod && !y.link) || (y.sent && y.out == h.out))

/-- The packets that could leave by an output. -/
def State.readyFor (s : State) (out : Nat) : List Held := s.fabric.held.filter (fun y => y.out == out && !y.sent && s.inTurn y)

/-- A circuit has the current slot of an output, and a packet to send in it. -/
def State.claimedNow (s : State) (out : Nat) : Bool := (s.claims out).any (fun x => (s.readyFor out).any (onCircuit x))

/-- Input `i` is the next to be served at an output: the first after the one served last, among those with a packet for it (R416); before
any has been, input 0 comes first (DESIGN CHOICE, log 68). -/
def State.servesNext (s : State) (out i : Nat) : Bool :=
  let far := fun (j : Nat) => (j + 16 - (s.fabPort out).robin) % 17
  (s.readyFor out).all (fun y => decide (far i ≤ far y.inp))

/-- A held packet may leave: packets of one source to one destination keep their order; in a claimed slot a circuit's packet goes first,
and other traffic is served round-robin among inputs (R413, R416, R418). -/
def State.mayLeave (s : State) (h : Held) : Bool :=
  s.inTurn h && (if s.claimedNow h.out then (s.claims h.out).any (fun x => onCircuit x h) else s.servesNext h.out h.inp)

/-- The version of a link has a packet's kind; the one that this part offers has every kind (R433; log 77). -/
def FabPort.has (x : FabPort) (k : Packet) : Bool := decide (0x00010001 ≤ x.version) || !Config.linkLacks x.version k.kind.toNat

/-- FABRIC_FORWARD: a held packet leaves by its output, where the link's version has its kind. Its copy is kept until CUST comes; CUST and
SYNC need none, but for their link's replay (R408, R413, R414, R416, R433). -/
def execFabricForward (port n : Nat) (s : State) : Res :=
  match s.fabric.held.find? (fun h => h.n == n && h.out == port) with
  | some h =>
    if h.sent || !(s.fabPort port).up || s.portFenced port || !(s.fabPort port).has h.k || !s.mayLeave h then .next s
    else
      let s := if s.claimedNow port then s else s.setFabPort port { s.fabPort port with robin := h.inp }
      let s := if h.link then s.setFabPort port { s.fabPort port with lastLink := some n } else s
      let l := if h.link then s.fabric.held.filter (fun x => x.n != n)
        else s.fabric.held.map (fun x => if x.n = n then { x with sent := true, since := s.clock.ns } else x)
      .next { s with fabric := { s.fabric with held := l } }
  | none => .next s

/-- FLIT_REPLAY: a flit of a sent packet failed its CRC and is replayed by its link: it arrives once, in order (R408). -/
def execFlitReplay (port n : Nat) (s : State) : Res :=
  if (s.fabPort port).lastLink == some n || s.fabric.held.any (fun h => h.n == n && h.out == port && h.sent) then
    .next (s.setFabPort port { s.fabPort port with crcReplays := (s.fabPort port).crcReplays + 1 })
  else .next s

/-- CUSTODY_RESEND: no CUST within 10 µs, and the packet is sent again on the ALT port; one that waits at a port which has gone down leaves
by it too (R414, R434). -/
def execCustodyResend (n : Nat) (s : State) : Res :=
  match s.fabric.held.find? (fun h => h.n == n) with
  | some h =>
    let down := !h.link && (!(s.fabPort h.out).up || s.portFenced h.out)
    if (if h.sent then decide (s.clock.ns < h.since + 10000) else !down) then .next s
    else
      let out := ((s.route h.k.dmod.toNat).map (fun r => r.2)).getD h.out
      let s := if h.sent then s.setFabPort h.out { s.fabPort h.out with resends := (s.fabPort h.out).resends + 1 } else s
      .next { s with fabric := { s.fabric with held := s.fabric.held.map (fun x =>
        if x.n = n then { x with sent := false, alt := true, out := out, since := s.clock.ns } else x) } }
  | none => .next s

/-- CUSTODY_TIMEOUT: a holder that could not forward a packet within the custody timeout drops it and sends ERR to its source
(R414). -/
def execCustodyTimeout (n : Nat) (s : State) : Res :=
  match s.fabric.held.find? (fun h => h.n == n) with
  | some h =>
    if s.clock.ns < h.entered + s.fabric.custodyNs then .next s
    else
      let s := { s with fabric := { s.fabric with held := s.fabric.held.filter (fun x => x.n != n) } }
      .next (s.bounce h.k .xlate 0)
  | none => .next s

/-! ### Time (R417, R418) -/

/-- How far two clock values are apart. -/
def apart (x y : DWord) : Nat := if x.toNat ≤ y.toNat then y.toNat - x.toNat else x.toNat - y.toNat

/-- SYNC: a neighbour's TSC sample. More than 40 ns apart is SLIP; 16 exchanges within 10 ns end it. The port towards the time
master sets the TSC's rate, by a free amount of at most 100 ppm (R417, R418; log 18). -/
def execSync (port : Nat) (sample : DWord) (s : State) : Res :=
  let x := s.fabPort port
  if !x.up || s.portFenced port then .next s
  else
    let d := apart sample s.clock.tsc
    let good := if d ≤ 10 then Nat.min 16 (x.goodSyncs + 1) else 0
    let x := { x with
      slip := if 40 < d then x.slip + 1 else x.slip
      goodSyncs := good
      slipped := decide (40 < d) || (x.slipped && decide (good < 16)) }
    let s := s.setFabPort port x
    let follow := s.fabric.mod != Config.timeMaster && ((s.route Config.timeMaster).map (fun r => r.1)) == some port
    let by_ := (Config.freeWord s.free).toNat % 101
    let rate := if s.clock.tsc.toNat < sample.toNat then 1000000 + by_ else if sample.toNat < s.clock.tsc.toNat then 1000000 - by_ else 1000000
    .next (if follow then { s with clock := { s.clock with rate := rate }, free := s.free + 1 } else s)

/-- SYNC_SEND: a port sends a TSC sample every µs (R417). -/
def execSyncSend (port : Nat) (s : State) : Res :=
  let x := s.fabPort port
  if !x.up || s.portFenced port || decide (s.clock.ns < x.syncDue) then .next s
  else
    let k := packet 10 .fab 0 0 8 0 0 0 (leBytes 8 s.clock.tsc.toNat)
    .next ((s.setFabPort port { x with syncDue := s.clock.ns + 1000 }).takeCustody { k with smod := BitVec.ofNat 9 s.fabric.mod } 16 port)

/-- LINK_START: a link comes up with the lower of the two versions; the module takes its number, and one that joins a domain before
any load of it runs sets its TSC forward to the master's (R409, R417, R433). -/
def execLinkStart (port modNum version : Nat) (master : DWord) (s : State) : Res :=
  if 16 ≤ port ∨ s.portFenced port ∨ 512 ≤ modNum then .next s
  else
    let s := s.setFabPort port { s.fabPort port with up := true, version := Nat.min version 0x00010001 }
    let c := if s.loads.isEmpty && decide (s.clock.tsc.toNat < master.toNat) then { s.clock with tsc := master } else s.clock
    .next { s with fabric := { s.fabric with mod := modNum }, clock := c }

end Sys2Proof.Machine
end

