-- ==== Sys2Proof/Machine/Colls.lean ====
section
/-! DEFINITION. Collectives at one member (R419 to R424). -/

namespace Sys2Proof.Machine

/-! ### Values and their combination (R422) -/

/-- A contribution's element in the format in which partial results travel: FP32 for .bf16 and .f16. -/
def collIn (dt x : Nat) : Nat := if dt = 2 ∨ dt = 3 then fp32.encode .rne ((fmtOf dt).decode x) else x

/-- A result in DT, rounded once. -/
def collOut (dt x : Nat) : Nat := if dt = 2 ∨ dt = 3 then (fmtOf dt).encode .rne (fp32.decode x) else x

/-- x ⊕ y for a DT and RED (R162, R422). -/
def collOp (dt red x y : Nat) : Nat :=
  if dt = 8 then
    let a := (BitVec.ofNat 32 x : Word)
    let b := (BitVec.ofNat 32 y : Word)
    (match red with
      | 0 => a + b
      | 1 => if a.slt b then a else b
      | _ => if a.slt b then b else a).toNat
  else (if dt = 0 then fp64 else fp32).op (if red = 0 then .add else if red = 1 then .min else .max) .rne x y 0

/-- Combine values from the left. -/
def foldFrom (f : Nat → Nat → Nat) : List Nat → Nat
  | [] => 0
  | x :: r => r.foldl f x

/-- The ring order for a chunk: x of rank c + 1 first, x of rank c last. -/
def ringFold (f : Nat → Nat → Nat) (c : Nat) (xs : List Nat) : Nat :=
  foldFrom f ((List.range xs.length).map (fun i => xs.getD ((c + 1 + i) % xs.length) 0))

/-- Neighbours combined, lower ⊕ upper. -/
def pairUp (f : Nat → Nat → Nat) : List Nat → List Nat
  | a :: b :: r => f a b :: pairUp f r
  | l => l

/-- Recursive halving; the first argument bounds its rounds. -/
def halveFold (f : Nat → Nat → Nat) : Nat → List Nat → Nat
  | 0, l => l.headD 0
  | k + 1, l => halveFold f k (pairUp f l)

/-- Consecutive groups of `n`. -/
def rowsOf (n : Nat) : Nat → List Nat → List (List Nat)
  | 0, _ => []
  | k + 1, l => l.take n :: rowsOf n k (l.drop n)

/-- The chunk of element `j` among `g` chunks of `count` elements (R422). -/
def chunkOf (count g j : Nat) : Nat := j / Nat.max 1 (ceilDiv count g)

/-- The reduction of element `j` of the members' values `xs`, by rank (R422). -/
def reduceAt (w : List DWord) (j : Nat) (xs : List Nat) : Nat :=
  let f := collOp (ckDt w) (ckRed w)
  match ckAlg w with
  | 0 => ringFold f (chunkOf (ckCount w) xs.length j) xs
  | 1 => halveFold f xs.length xs
  | 2 =>
    let gx := ckGx w
    let rows := rowsOf gx (xs.length / Nat.max 1 gx) xs
    ringFold f (chunkOf (ckCount w) rows.length j) (rows.map (ringFold f (chunkOf (ckCount w) gx j)))
  | _ => foldFrom f xs

/-- Element `j` of a contribution. -/
def elemAt (dt j : Nat) (bs : List Byte) : Nat := collIn dt (numAt bs (fmtBytes dt * j) (fmtBytes dt))

/-- The reduced elements `j` of the contributions, as bytes of DT. -/
def reduceBytes (w : List DWord) (data : List (List Byte)) (js : List Nat) : List Byte :=
  let dt := ckDt w
  js.flatMap (fun j => leBytes (fmtBytes dt) (collOut dt (reduceAt w j (data.map (elemAt dt j)))))

/-- The elements of DST that a member's result has where ALG is not per-tile, the first one and how many: DST is COUNT elements in index
order, and a reduce-scatter leaves a rank its own chunk of them (R420, R422, R435). -/
def collSpan (w : List DWord) : Nat × Nat :=
  let n := ckCount w
  let k := ceilDiv n (ckSize w)
  match ckOp w with
  | 1 => (ckRank w * k, Nat.min k (n - ckRank w * k))
  | 2 => (0, ckSize w * n)
  | 4 => (0, if ckRank w = 0 then n else 0)
  | _ => (0, n)

/-- What a member's DST receives for OP 0 to 4 where ALG is not per-tile: the elements of its span (R420, R422). -/
def collResult (w : List DWord) (data : List (List Byte)) : List Byte :=
  let n := ckCount w
  match ckOp w with
  | 0 => reduceBytes w data (List.range n)
  | 1 => reduceBytes w data ((List.range (collSpan w).2).map ((collSpan w).1 + ·))
  | 2 => data.flatMap (fun d => bytesTo (n * fmtBytes (ckDt w)) d)
  | 3 => bytesTo (n * fmtBytes (ckDt w)) (data.headD [])
  | _ => if ckRank w = 0 then reduceBytes w data (List.range n) else []

/-! ### Stores of the command processor -/

/-- What stores to flat memory come to. -/
inductive Puts where
  | ok (s : State)
  | wait
  | fault (c : Cause) (sub : Nat) (fa : DWord)

/-- The command processor stores bytes at flat addresses, at `.fab`: for each run its address and bytes, every word set full;
nothing is stored where one does not translate (R423). -/
def State.flatStores (s : State) (part : Nat) (runs : List (DWord × List Byte)) : Puts :=
  let ps := runs.flatMap (fun r => (pieces r.1.toNat r.2.length (r.2.length / 65536 + 2)).map (fun x => (r.1 + BitVec.ofNat 64 x.1, (r.2.drop x.1).take x.2)))
  ps.foldr (fun r out => match s.translate part r.1 .plain with
    | .wait => .wait
    | .fault c sub => .fault c sub r.1
    | .ok pl => match out with
      | .ok s => .ok (s.issueStore (.cmdProc part) ⟨pl, ((List.range r.2.length).map (pl.addr + ·)).zip r.2,
          if pl.fe then (wordsAt pl.addr r.2.length).map (fun w => (w, true)) else [], .fab, false, r.1, false⟩)
      | x => x) (.ok s)

/-- Where tile `t` of DST lies: 4,096 elements, tile by tile (R435). -/
def tileAt (w : List DWord) (t : Nat) : DWord := ckAddr w 4 + BitVec.ofNat 64 (4096 * fmtBytes (ckDt w) * t)

/-- The elements of tile `t` (R435). -/
def tileElems (t : Nat) : List Nat := (List.range 4096).map (4096 * t + ·)

/-- Tiles of a per-tile collective. -/
def tileCount (w : List DWord) : Nat := ckCount w / 4096

/-! ### Starting (R419, R421, R423) -/

def State.coll (s : State) (n : Nat) : Option Collective := s.colls.find? (fun c => c.n == n)

def State.setColl (s : State) (c : Collective) : State := { s with colls := s.colls.map (fun x => if x.n = c.n then c else x) }

/-- What a member shows the others before data moves: words 0 and 1 without RANK, and a checksum of its group table (R421). -/
def collHead (w : List DWord) (group : List (Nat × Nat)) : List DWord :=
  [w.getD 0 0, BitVec.ofNat 64 ((w.getD 1 0).toNat / 1024 * 1024),
   (crc32 (group.flatMap (fun g => leBytes 4 (g.1 + g.2 * 512)))).setWidth 64]

/-- The payload of a COLL packet: the collective's LID, the sender's position in the group, an offset, and data (R411; log 16, log 19). -/
def collPayload (w : List DWord) (off : Nat) (bs : List Byte) : List Byte :=
  leBytes 4 (w.getD 0 0).toNat ++ leBytes 4 (ckRank w) ++ leBytes 8 off ++ bs

/-- A member's parameters go to the others: they have the offset 2^64 − 1 (R421; log 16, log 19). -/
def State.showHead (s : State) (part : Nat) (w : List DWord) (group : List (Nat × Nat)) : State :=
  let bs := collPayload w (2 ^ 64 - 1) ((collHead w group).flatMap (fun x => leBytes 8 x.toNat))
  ((List.range group.length).filter (fun r => r != ckRank w)).foldl (fun s r =>
    s.send (packet 11 .fab (group.getD r (0, 0)).1 (s.identOf part) bs.length s.fabric.nextTag 0 0 bs)) s

/-- The members of a group but one, or those that a test names. -/
def peersOf (group : List (Nat × Nat)) (f : Nat → Bool) : List (Nat × Nat) :=
  ((List.range group.length).filter f).map (fun r => group.getD r (0, 0))

/-- Data of a collective goes to other members, in COLL packets, with the offset in the matrix or vector, and at most 240 bytes (R411,
R421, R423; log 19). -/
def State.sendData (s : State) (part : Nat) (w : List DWord) (group : List (Nat × Nat)) (off : Nat) (bs : List Byte) : State :=
  group.foldl (fun s g => (List.range (ceilDiv bs.length 240)).foldl (fun (s : State) i =>
    let d := (bs.drop (240 * i)).take 240
    s.send (packet 11 .fab g.1 (s.identOf part) (16 + d.length) s.fabric.nextTag 0 0 (collPayload w (off + 240 * i) d))) s) s

/-- This member's contribution goes to the members whose results need it: for ALG 3 each tile to the one that reduces it (R422). -/
def State.sendMine (s : State) (part : Nat) (w : List DWord) (group : List (Nat × Nat)) (mine : List Byte) : State :=
  let rank := ckRank w
  if ckAlg w = 3 then
    let z := 4096 * fmtBytes (ckDt w)
    (List.range (tileCount w)).foldl (fun s t =>
      s.sendData part w (peersOf group (fun r => r != rank && r == t % ckSize w)) (z * t) ((mine.drop (z * t)).take z)) s
  else if ckOp w = 3 ∧ rank ≠ 0 then s
  else s.sendData part w (peersOf group (fun r => r != rank && (ckOp w != 4 || r == 0))) 0 mine

/-- The tiles that this member reduces go to every other member (R423). -/
def State.sendTiles (s : State) (part : Nat) (w : List DWord) (group : List (Nat × Nat)) (data : List (List Byte)) (ts : List Nat) : State :=
  ts.foldl (fun s t => s.sendData part w (peersOf group (fun r => r != ckRank w)) (4096 * fmtBytes (ckDt w) * t)
    (reduceBytes w data (tileElems t))) s

/-- A reduced tile is written to DST, and its arrival counter is incremented as a release at `.fab` (R423). -/
def State.putTile (s : State) (c : Collective) (t : Nat) (data : List Byte) : Puts :=
  let fa := ckAddr c.block 8 + BitVec.ofNat 64 (4 * t)
  match s.flatStores c.part [(tileAt c.block t, data)] with
  | .ok s =>
    match s.translate c.part fa .owner with
    | .wait => .wait
    | .fault u sub => .fault u sub fa
    | .ok pl => .ok (s.issue (.cmdProc c.part) .fab pl (.owner (.signal (BitVec.ofNat 32 (bits (c.block.getD 9 0) 63 32))) .none) false true fa)
  | x => x

/-- Where a member's result goes in DST (R420, R435). -/
def collStores (w : List DWord) (bs : List Byte) : List (DWord × List Byte) :=
  if (collSpan w).2 = 0 then [] else [(ckAddr w 4 + BitVec.ofNat 64 (fmtBytes (ckDt w) * (collSpan w).1), bs)]

/-- A collective fails. -/
def State.collFail (s : State) (c : Collective) (u : Cause) (sub : Nat) (fa : DWord) : State :=
  s.setColl { c with fail := some (causeCode u, sub, fa) }

/-- Every member has arrived: they show each other their parameters, and where these agree their data moves. It is combined and written, or,
for ALG 3, the tiles that this member reduces go to the others; its own copy of each is written by TILE_ARRIVAL, in any order (R421 to
R423). -/
def State.collRun (s : State) (c : Collective) (group : List (Nat × Nat)) (peers : List (List DWord)) : State :=
  let w := c.block
  let rank := ckRank w
  let head := collHead w group
  let heads := fun (s : State) => s.showHead c.part w group
  if ((List.range peers.length).zip peers).any (fun p => p.1 != rank && p.2.take 3 != head) then (heads s).collFail c .illop 1 c.ptr
  else
    let size := ckCount w * fmtBytes (ckDt w)
    match s.cpRead c.part (ckAddr w 3) size with
    | .wait t => t
    | .fail u sub fa t => (heads t).collFail c u sub fa
    | .ok mine t =>
      let data := ((List.range peers.length).zip peers).map (fun p =>
        if p.1 = rank then mine else bytesTo size ((p.2.drop 3).flatMap (fun x => leBytes 8 x.toNat)))
      let send := fun (s : State) => (heads s).sendMine c.part w group mine
      let c := { c with started := some s.clock.tsc, group := group }
      if ckAlg w = 3 then
        ((send t).sendTiles c.part w group data ((List.range (tileCount w)).filter (fun t => t % ckSize w == rank))).setColl { c with data := data }
      else match t.flatStores c.part (collStores w (collResult w data)) with
        | .ok t => (send t).setColl { c with written := true }
        | .wait => s
        | .fault u sub fa => (send t).collFail c u sub fa

/-- COLLECTIVE_START: the block of a COLL command is checked, and its triggers are read, once. A collective whose triggers hold and whose AT
has passed, and whose members have all arrived, exchanges its parameters and runs; its group table is read after the counters. `peers`
holds what each rank shows and its contribution (R377, R419, R421, R422, R437; log 19, log 76). -/
def execCollectiveStart (n : Nat) (peers : List (List DWord)) (s : State) : Res :=
  match s.coll n with
  | none => .next s
  | some c =>
    let at_ := c.block.getD 10 0
    if c.started.isSome || c.fail.isSome || c.recorded then .next s
    else match c.trigs with
      | none => match s.checkColl c.part c.block c.ptr with
        | .wait s => .next s
        | .fail u sub fa s => .next (s.collFail c u sub fa)
        | .ok l s => .next (s.setColl { c with trigs := some l, ready := s.triggersHold l })
      | some l =>
        if !(c.ready || s.triggersHold l) || decide (s.clock.tsc.toNat < at_.toNat) then .next s
        else match s.readGroup c.part c.block c.ptr with
          | .wait s => .next s
          | .fail u sub fa s => .next (s.collFail c u sub fa)
          | .ok group s => if peers.length ≠ group.length then .next s else .next (s.collRun c group peers)

/-- TILE_ARRIVAL: a tile that a member has reduced is written to DST, and its counter advances, in any order of the tiles: `data` is that of
another member's; one that this member reduces is its own reduction (R422, R423). -/
def execTileArrival (n t : Nat) (data : List Byte) (s : State) : Res :=
  match s.coll n with
  | none => .next s
  | some c =>
    let w := c.block
    if c.started.isNone || c.fail.isSome || ckAlg w != 3 || decide (tileCount w ≤ t) || c.tiles.contains t then .next s
    else match s.putTile c t (if t % ckSize w = ckRank w then reduceBytes w c.data (tileElems t) else bytesTo (4096 * fmtBytes (ckDt w)) data) with
      | .ok s => .next (s.setColl { c with tiles := t :: c.tiles, written := c.tiles.length + 1 == tileCount w })
      | .wait => .next s
      | .fault u sub fa => .next (s.collFail c u sub fa)

/-! ### Ending (R421, R424) -/

/-- A collective is over: the queue goes on, or waits in WDHOLD; for COLL the command is done (R231, R373, R421). -/
def State.finishColl (s : State) (c : Collective) (hold : Bool) : State :=
  let s := { s with colls := s.colls.filter (fun x => x.n != c.n) }
  match c.q with
  | some n => s.setQueue n { s.queue n with st := (s.queue n).after hold }
  | none => s.cmdDone c.n

/-- COLLECTIVE_COMPLETE: every write to DST and every counter increment is performed at `.fab`, or the collective has failed: the
record is written, where CR is not 0, and then the flag is incremented, but for a COLL command that its load's watchdog has stopped (R228,
R395, R421, R424). -/
def execCollectiveComplete (n : Nat) (s : State) : Res :=
  match s.coll n with
  | none => .next s
  | some c =>
    let w := c.block
    let (status, sub, fa) := c.fail.getD (0, 0, 0)
    let wd := status == causeCode .watchdog
    let q := c.q.getD 0xFFF
    if !c.recorded then
      if !(c.fail.isSome || c.written) || !s.allPerformed (.cmdProc c.part) s.ord.nextId .fab then .next s
      else if w.getD 5 0 = 0 then .next (s.setColl { c with recorded := true })
      else
        let cause := BitVec.ofNat 32 (status + 256 * sub)
        match if !isFlat (w.getD 5 0) then .no else s.writeRecord c.part (ckAddr w 5) (recordWords status sub 0 ((w.getD 0 0).setWidth 32) cause fa (c.started.getD 0) s.clock.tsc 0 0 q) with
        | .wait => .next s
        | .ok s => .next (s.setColl { c with recorded := true })
        | .no =>
          let s := { s with freezes := s.freezes ++ [freezeRec 0 0 q c.part 5 5 0 ((w.getD 0 0).toNat % 2 ^ 32) 0 cause fa s.clock.tsc 0] }
          .next (s.finishColl c true)
    else if !s.cpDone c.part then .next s
    else match if !isFlat (w.getD 6 0) || (c.q.isNone && c.by_.isNone) then (s, true) else s.signalFlag c.part (ckAddr w 6) (BitVec.ofNat 32 (bits (w.getD 7 0) 63 32)) with
      | (s, false) => .next s
      | (s, true) =>
        let s := s.finishColl c wd
        .next (match c.q with
          | some n => s.raiseQueue n
          | none => s)

/-- The runs of DST that a collective has not written yet (R421), with their bytes: `bs` gives those at an offset. -/
def Collective.unwritten (c : Collective) (bs : Nat → Nat → List Byte) : List (DWord × List Byte) :=
  let w := c.block
  let z := fmtBytes (ckDt w)
  if c.written then []
  else if ckAlg w = 3 then
    ((List.range (tileCount w)).filter (fun t => !c.tiles.contains t)).map (fun t => (tileAt w t, bs (4096 * z * t) (4096 * z)))
  else collStores w (bs (z * (collSpan w).1) (z * (collSpan w).2))

/-- COLLECTIVE_BUDGET_EXPIRY: the budget runs out, and the collective ends with WATCHDOG; the parts of DST that are not written are
undefined: free values (R421; log 2). -/
def execCollectiveBudgetExpiry (n : Nat) (s : State) : Res :=
  match s.coll n with
  | none => .next s
  | some c =>
    let budget := bits (c.block.getD 7 0) 31 0
    if c.recorded || c.fail.isSome || c.written || budget == 0 || decide (s.clock.ns < c.since + 1000 * budget) then .next s
    else
      let free := fun (at_ k : Nat) => (List.range k).map (fun i => Config.freeByte (s.free + at_ + i))
      let k := { c with fail := some (causeCode .watchdog, 0, 0) }
      match s.flatStores c.part (c.unwritten free) with
      | .ok s => .next ({ s with free := s.free + ckSize c.block * ckCount c.block * fmtBytes (ckDt c.block) }.setColl k)
      | _ => .next (s.setColl k)

end Sys2Proof.Machine
end

