-- ==== Sys2Proof/Machine/Device.lean ====
section
/-! DEFINITION. The device's states, bring-up, calibration, throttling and loss of power (R19, R441 to R446, R449, R450, R453,
R454). -/

namespace Sys2Proof.Machine

/-! ### Reset, SAFE and loss of power (R441, R446, R454) -/

/-- Everything that runs stops and is lost, and so is what the fabric holds; the words of memory stay as the stores that have been
placed leave them, and the device is as given. What the host has been answered, and the turns to come, are not the module's. -/
def State.stopAll (s : State) (d : Device) : State :=
  let s := s.settleWhere (fun _ => true)
  { State.reset with agenda := s.agenda, cur := s.cur, clock := s.clock, free := s.free, mem := s.mem, device := d, reply := s.reply,
                     msix := s.msix, hostReads := s.hostReads, outbound := s.outbound }

/-- Host memory and the memory of other modules: what is no vault and no HBM. -/
def notShared (a : Nat) : Bool := decide (hostBase ≤ a) && decide (a < vaultBase)

/-- Every vault and HBM word is zero and empty (R19, R442). -/
def Memory.cleared (m : Memory) : Memory := ⟨m.cells.filter (fun c => notShared c.1), m.full.filter (fun w => notShared (8 * w))⟩

/-- SAFE: nothing runs, and the mailbox answers (R446). -/
def State.enterSafe (s : State) (d : Device) : State := s.stopAll { d with dstate := .safe }

/-- What a device reset leaves of the device: power stays good, so the measurement registers stay, and so do the fused SVN and what
the dies' sensors have led to (R441, R443, R450, R454). -/
def Device.afterReset (d : Device) : Device :=
  { Device.reset with powered := d.powered, m := d.m, fusedSvn := d.fusedSvn, throttle := d.throttle, coolSince := d.coolSince.map (fun (x : Nat × Nat) => (x.1, 0)),
                      level := d.level }

/-- DEVICE_RESET: RESET from any state; fabric cycles are counted anew (R441, R455). -/
def execDeviceReset (s : State) : Res :=
  let t := s.stopAll s.device.afterReset
  .next { t with clock := State.reset.clock, reply := State.reset.reply }

/-- THERMAL_SHUTDOWN: at 115 °C the module removes power, and its state is lost, but for what is fused (R449, R454). -/
def execThermalShutdown (celsius : Nat) (s : State) : Res :=
  if celsius < 115 then .next s
  else
    let t := s.stopAll { Device.reset with fusedSvn := s.device.fusedSvn }
    .next { t with clock := State.reset.clock, reply := State.reset.reply, mem := t.mem.cleared }

/-! ### Bring-up (R442 to R445, R449, R450) -/

/-- A failed unit is the first to fail: class, code and index go to the failure map (R447). -/
def firstFailure (f : SelfTest) (c k : Byte) (i : Nat) : SelfTest :=
  if f.fclass = 0 then { f with fclass := c, fcode := k, findex := BitVec.ofNat 16 i } else f

/-- The images that the boot ROM verifies: the security processor's, the command processor's and the management controller's (R447). -/
def fwImage (fw : Firmware) (i : Nat) : FwImage := fw.images.getD i default

/-- Why the boot ROM does not accept image `i`, as FCODE: its key is not the one whose digest the ROM holds, or its signature does not
verify under it; or its SVN is below the fused one (R447 to R449). -/
def fwRefused (fw : Firmware) (fused : Byte) (i : Nat) : Option Byte :=
  let m := fwImage fw i
  if sha256 (4 :: fw.key) ≠ Config.firmwareKeyDigest ∨ verifies fw.key m.digest m.signature = false then some 3
  else if m.svn.toNat < fused.toNat then some 4 else none

/-- The fused SVN after firmware that the ROM has accepted: for image `i` the manager may ask that it rise to that image's; whether it
does is bit `i` of `ask` (R449; log 12). -/
def fwFuse (fw : Firmware) (fused : Byte) (ask : Word) : Byte :=
  (List.range 3).foldl (fun (x : Byte) i => if ask.getLsbD i ∧ x.toNat < (fwImage fw i).svn.toNat then (fwImage fw i).svn else x) fused

/-- POWER_GOOD: the boot ROM verifies the three firmware images; what it accepts it measures, and self-test begins; else the device is
SAFE, and the failure map names the first that it refuses (R442, R447 to R450; log 12). The measurement registers are zero when power
comes. -/
def execPowerGood (fw : Firmware) (s : State) : Res :=
  if s.device.dstate ≠ .reset then .next s
  else
    let d := if s.device.powered then s.device else { s.device with powered := true, m := Device.reset.m }
    match (List.range 3).findSome? (fun i => (fwRefused fw d.fusedSvn i).map (fun c => (i, c))) with
    | some (i, c) => .next (s.enterSafe { d with fenced := firstFailure d.fenced 7 c i })
    | none =>
      let d := ((d.extend 0 (fwImage fw 0).digest).extend 1 (fwImage fw 1).digest).extend 1 (fwImage fw 2).digest
      .next { s with device := { d with dstate := .selftest, fusedSvn := fwFuse fw d.fusedSvn (Config.freeWord s.free) }, free := s.free + 1 }

/-- Units of a kind have all failed. -/
def allFailed (n : Nat) (l : List Nat) : Bool := (List.range n).all (fun i => l.contains i)

/-- The failed units of a class of R447; a vault is named by its patch. -/
def testFailed (r : SelfTest) (c : Nat) : List Nat :=
  match c with
  | 1 | 2 => r.patches
  | 3 => r.hbm
  | 4 => r.ports
  | 5 => r.lanes
  | 6 => r.io
  | _ => []

/-- A self-test result is one that the failure map can hold: units in their ranges, and a first failure, by mismatch or timeout, that is
one of them; or nothing has failed (R447; log 12). -/
def testConsistent (r : SelfTest) : Bool :=
  r.patches.all (fun p => decide (p < 640)) && r.hbm.all (fun h => decide (h < 12)) && r.ports.all (fun n => decide (n < 16)) &&
  r.lanes.all (fun n => decide (n < 16)) && r.io.all (fun n => decide (n < 5)) &&
  if r.fclass = 0 then r.fcode == 0 && r.findex == 0 && r.patches.isEmpty && r.hbm.isEmpty && r.ports.isEmpty && r.lanes.isEmpty && r.io.isEmpty
  else decide (r.fcode.toNat < 2) && (testFailed r r.fclass.toNat).contains r.findex.toNat

/-- The route entries with what the failed ports have made invalid (R443). -/
def State.reroute (s : State) : State :=
  { s with fabric := { s.fabric with routes := s.fabric.routes.map (fun (x : Nat × Half) => (x.1, s.routeEntry x.2)) } }

/-- The patches that a list names are fenced (R443). -/
def State.fencePatches (s : State) (l : List Nat) : State :=
  l.foldl (fun s p => s.setPatch p { s.patch p with fenced := true }) s

/-- SELFTEST_DONE: failed units are fenced, every vault and HBM word is zero and empty, and the device gives reduced service or is
SAFE (R19, R442, R443, R446). -/
def execSelftestDone (r : SelfTest) (s : State) : Res :=
  if s.device.dstate ≠ .selftest ∨ testConsistent r = false then .next s
  else
    let d := { s.device with fenced := r }
    let s := s.settleWhere (fun _ => true)
    let s := { s with mem := s.mem.cleared }
    if !r.io.isEmpty || allFailed 640 r.patches || allFailed 12 r.hbm then .next (s.enterSafe d)
    else .next ({ s with device := { d with dstate := .reduced } }.fencePatches r.patches).reroute

/-- Every unit that is not fenced has been calibrated, well or not (R442 step 3). -/
def State.unitsDone (s : State) : Bool :=
  let c := s.device.calibrated
  let f := s.device.fenced
  (List.range 640).all (fun p => f.patches.contains p || c.contains (.patch p) || (s.patch p).calBad) &&
  (List.range 12).all (fun h => f.hbm.contains h || c.contains (.hbm h)) &&
  (List.range 16).all (fun p => (f.ports.contains p || c.contains (.port p)) && (f.lanes.contains p || c.contains (.lane p)))

/-- A patch that has failed its calibration is fenced, once it holds no load; with the last patch the device is SAFE (R443, R446). -/
def State.fenceBad (s : State) (p : Nat) : State :=
  let d := s.device
  if !(s.patch p).calBad || (s.patch p).load.isSome || (s.patch p).fenced then s
  else
    let f := { firstFailure d.fenced 1 2 p with patches := d.fenced.patches ++ [p] }
    if allFailed 640 f.patches then s.enterSafe { d with fenced := f }
    else { s with device := { d with fenced := f } }.fencePatches [p]

/-- Patches that have failed their calibration and hold no load any more are fenced (R443, R445). -/
def State.fenceAll (s : State) : State := ((s.patches.filter (fun x => x.2.calBad)).map (fun x => x.1)).foldl (fun s p => s.fenceBad p) s

/-- A unit fails its calibration and is fenced; with the last patch or stack the device is SAFE. A patch that holds a load keeps it, and is
fenced when it is free (R443, R445, R446). -/
def State.calFailed (s : State) (u : CalUnit) : State :=
  let d := s.device
  match u with
  | .patch p => if 640 ≤ p then s else ((s.setPatch p { s.patch p with calBad := true }).fenceBad p).toFull
  | .hbm h =>
    let f := { firstFailure d.fenced 3 2 h with hbm := d.fenced.hbm ++ [h] }
    if 12 ≤ h then s else if allFailed 12 f.hbm then s.enterSafe { d with fenced := f } else { s with device := { d with fenced := f } }
  | .port p =>
    let f := { firstFailure d.fenced 4 2 p with ports := d.fenced.ports ++ [p] }
    if 16 ≤ p then s
    else ({ s with device := { d with fenced := f } }.setFabPort p { s.fabPort p with up := false }).reroute
  | .lane n =>
    if 16 ≤ n then s else { s with device := { d with fenced := { firstFailure d.fenced 5 2 n with lanes := d.fenced.lanes ++ [n] } } }
  | .all => s

/-- A unit has been fenced or calibrated already. -/
def State.calibratedOrFenced (s : State) (u : CalUnit) : Bool :=
  s.device.calibrated.contains u || match u with
    | .patch p => s.device.fenced.patches.contains p || (s.patch p).calBad
    | .hbm h => s.device.fenced.hbm.contains h
    | .port p => s.device.fenced.ports.contains p
    | .lane n => s.device.fenced.lanes.contains n
    | .all => false

/-- CALIBRATION_DONE: a unit's full-rate calibration ends; `.all` is the end of step 3, once every unit's has ended: the digest of
the fuse and calibration tables goes to M2 (R442, R443, R445, R450). -/
def execCalibrationDone (u : CalUnit) (ok : Bool) (s : State) : Res :=
  let d := s.device
  if d.dstate ≠ .reduced ∨ s.calibratedOrFenced u = true then .next s
  else if u = .all then
    if ok && s.unitsDone then
      .next { s with device := { d.extend 2 Config.fuseDigest with calibrated := d.calibrated ++ [CalUnit.all] } }.toFull
    else .next s
  else if ok then .next { s with device := { d with calibrated := d.calibrated ++ [u] } }
  else .next (s.calFailed u)

/-- PATCH_JOIN_FULL: a calibrated patch that holds no load runs at 800 MHz with every format from now on; with the last, the device
reports FULL (R445). -/
def execPatchJoinFull (p : Nat) (s : State) : Res :=
  if s.device.dstate = .reduced ∧ (s.patch p).load.isNone = true ∧ p < 640 then .next (s.joinFull p) else .next s

/-! ### Throttling (R454) -/

/-- The step that a die's temperature and the module's power, in thousandths of its envelope, call for (R453, R454). -/
def throttleStep (celsius permille : Nat) : Nat :=
  if 110 ≤ celsius then 4 else if 105 ≤ celsius then 3
  else if 100 ≤ celsius ∨ 1000 ≤ permille then 2
  else if 95 ≤ celsius ∨ 950 ≤ permille then 1 else 0

/-- THROTTLE_RISE: a measurement for a die. The step rises at once; the time for which it has been below its step's threshold is
kept (R454). -/
def execThrottleRise (die celsius milliPower : Nat) (s : State) : Res :=
  if 8 ≤ die then .next s
  else
    let d := s.device
    let want := throttleStep celsius milliPower
    let now := smGet 0 d.throttle die
    let step := Nat.max now want
    let cool := if want < step then (match smFind d.coolSince die with
        | some _ => d.coolSince
        | none => smSet d.coolSince die s.clock.ns)
      else smDel d.coolSince die
    .next { s with device := { d with throttle := smSet d.throttle die step, coolSince := cool, level := smSet d.level die want } }

/-- THROTTLE_FALL: after 10 ms below its step's threshold, a die's step falls by one (R454). -/
def execThrottleFall (die : Nat) (s : State) : Res :=
  let d := s.device
  match smFind d.coolSince die with
  | some t =>
    if t + 10000000 ≤ s.clock.ns then
      let step := smGet 0 d.throttle die - 1
      let cool := if smGet 0 d.level die < step then smSet d.coolSince die s.clock.ns else smDel d.coolSince die
      .next { s with device := { d with throttle := smSet d.throttle die step, coolSince := cool } }
    else .next s
  | none => .next s

end Sys2Proof.Machine
end

