-- ==== Sys2Proof/Machine/Migrate.lean ====
section
/-! DEFINITION. Virtual device migration (R355 to R363). -/

namespace Sys2Proof.Machine

/-- Every load of a partition is frozen and held; one that is not configured yet starts again (R355 phase 1, R401). -/
def State.holdPart (s : State) (n : Nat) : State := (s.loads.filter (fun l => l.part == n)).foldl (fun s l => s.cpFreeze l) s

/-- The partition has settled: no load of it is ending, those it has are at rest, and no engine command that has started is left (R355
phase 2, R360). -/
def State.partSettled (s : State) (n : Nat) : Bool :=
  s.loads.all (fun l => l.part != n || (s.settled l && match l.st with
    | .ended _ _ | .recorded _ _ | .running => false
    | _ => true)) &&
  s.engines.all (fun x => x.part != n || !s.hasBegun x)

/-- The execution state of a load is saved, to travel: its patches, and its engine commands that have not started. One that has not
been configured is placed again at its target (R356, R360, R401). -/
def State.packLoad (s : State) (l : Load) : State :=
  let mine := s.engines.filter (fun x => x.q == some l.q)
  let qs := mine.map (fun x => { x with p := s.lpOf x.p })
  let s := { s with engines := s.engines.filter (fun x => x.q != some l.q) }
  if l.st = .placed then s.unplace l
  else if l.patches.isEmpty then s
  else (s.saveLoad l).modLoad l.q (fun x => { x.goes s.clock.tsc (.evicted l.st.sub) with queued := x.queued ++ qs, frames := [] })

/-- The execution state of a partition's loads is saved (R355 phase 3, R356). -/
def State.savePart (s : State) (n : Nat) : State := (s.loads.filter (fun l => l.part == n)).foldl (fun s l => s.packLoad l) s

/-! ### Frames (R342, R343, R357 to R359) -/

/-- The global addresses of the valid entries of a partition's frame table, of every level, below a node; `fuel` is the number of levels
left. A node of another module, or one that has not been pulled, is not entered. -/
def State.entriesBelow (s : State) (pt : Part) : Nat → Nat → List Nat
  | 0, _ => []
  | fuel + 1, node => (List.range 1024).flatMap (fun i =>
      let a := node + 8 * i
      let x := s.readWordDev a
      if bits x 0 0 = 0 then []
      else a :: (if fuel = 0 then [] else match nodeOf pt x with
        | .ok m => if m < remoteBase then s.entriesBelow pt fuel m else []
        | _ => []))

/-- The entries of a tensor's tile table: the node pointers of its root, and the tile entries of its leaves (R347). -/
def State.tileEntries (s : State) (part : Nat) (t : Tensor) : List Nat :=
  match s.tileRoot (.die 0) part t with
  | .ok root => if root < remoteBase then s.entriesBelow (s.part part) 2 root else []
  | _ => []

/-- Every entry of a partition's tables. -/
def State.tableEntries (s : State) (n : Nat) : List Nat :=
  let pt := s.part n
  (match pt.root with
   | some r => s.entriesBelow pt 4 r
   | none => []) ++ pt.tensors.flatMap (fun x => match s.tensor n x.1 with
     | some t => s.tileEntries n t
     | none => [])

/-- The first 64 KiB frame that an entry maps, or in which the node of a node pointer lies: PA is bits [50:8] of the one and [50:16]
of the other (R341, R342). -/
def entryFrame (x : DWord) : Nat := bits x 50 16

/-- An entry names a frame of another module that has not been pulled. -/
def unpulled (x : DWord) : Bool := bits x 0 0 == 1 && bits x 52 51 == 2 && bits x 62 62 == 1

/-- An entry of a pulled frame: MIG 0, on this module (R342, R358). -/
def pulled (x : DWord) : DWord := BitVec.ofNat 64 (x.toNat % 2 ^ 51 + at64 (bits x 63 63) 63)

/-- The entries that map frames of another module which have not been pulled, with what they hold. -/
def State.tableMaps (s : State) (part : Nat) (fs : List Nat) : List (Nat × DWord) :=
  ((s.tableEntries part).map (fun a => (a, s.readWordDev a))).filter (fun x => unpulled x.2 && fs.contains (entryFrame x.2))

/-- Every entry that maps one of some pulled frames names this module from now on: all 32 of a 2 MiB frame, tile entries and node
pointers alike (R343, R358). -/
def State.remap (s : State) (part : Nat) (fs : List Nat) : State :=
  (s.tableEntries part).foldl (fun s a =>
    let x := s.readWordDev a
    if unpulled x ∧ fs.contains (entryFrame x) then
      let t := s.ownFlush a 8
      { t with mem := t.mem.write a (leBytes 8 (pulled x).toNat) }
    else s) s

/-- The target installs frames: their data and full/empty bits, the entries, and no cached translation of the partition. A frame has
the same physical address here (R358; log 20). What waited for it goes on (R354, R363). -/
def State.installFrames (s : State) (part : Nat) (fs : List Nat) (data : List (Nat × Byte)) (marks : Marks) : State :=
  let pt := s.part part
  let s := { s with mem := (s.mem.puts data).marks marks }
  let s := s.setPart part { pt with frames := pt.frames ++ fs.filter (fun f => !pt.frames.contains f) }
  { s.remap part fs with cache := s.cache.filter (fun c => c.part != part) }.pullsOver part

/-- The bytes and full words of a frame. -/
def State.frameData (s : State) (f : Nat) : List Host.Cell × List Nat :=
  (s.mem.cells.filter (fun (c : Host.Cell) => c.1 / 65536 == f), s.mem.full.filter (fun w => w / 8192 == f))

/-- A redirect notice for a frame goes to every other module that is reachable (R359); its acknowledgement is a WRA (log 16). -/
def State.notify (s : State) (part frame owner : Nat) : State :=
  ((List.range 512).filter (fun m => m != s.fabric.mod && m != owner && (s.route m).isSome)).foldl (fun s m =>
    let k := packet 9 .fab m (s.identOf part) 10 0 0 (frame * 65536) (leBytes 8 frame ++ leBytes 2 owner)
    (s.request ⟨0, m, .remote s.fabric.mod, none, frame * 65536, 10, true, 0, .sent, []⟩ k).getD s) s

/-- The source gives frames away: what its buffers hold of them reaches backing memory, their data and full/empty bits go to the new
owner, they leave the partition's frames here, and stubs stand for them (R358, R359). -/
def State.shipFrames (s : State) (part owner : Nat) (fs : List Nat) : State :=
  let inF := fun (a : Nat) => fs.contains (a / 65536)
  let s := s.settleWhere (fun e => e.bytes.any (fun b => inF b.1) || e.marks.any (fun m => inF (8 * m.1)))
  let m : Moved := ⟨part, [], [], [], [], fs.map (fun f => (f, s.frameData f))⟩
  let pt := s.part part
  let s := s.setPart part { pt with frames := pt.frames.filter (fun f => !fs.contains f) }
  let s := { s with outbound := s.outbound ++ [(owner, m)],
                    fabric := { s.fabric with stubs := s.fabric.stubs ++ fs.map (fun f => (f, owner)) } }
  fs.foldl (fun s f => s.notify part f owner) s

/-- A hold record that is OWNED, or has a queue, stands in a frame (R219, R356; log 14). -/
def Memory.holdFrame (m : Memory) (f : Nat) : Bool :=
  m.cells.any (fun c => c.1 / 65536 == f && (match m.words8 (c.1 / 64 * 64) with
    | w0 :: w1 :: w2 :: r => decide (w0 < 2 ^ 45) && decide (w0 / 2 ^ 30 % 4 < 2) && decide (w2 < 2 ^ 28) && w2 / 2 ^ 12 % 16 == 0 &&
        r.all (fun v => v == 0) && (decide (w0 / 2 ^ 32 ≠ 0) || (w0 / 2 ^ 30 % 4 == 1 && w1 % 2 ^ 32 / 4096 == w0 % 2 ^ 20))
    | _ => false))

/-! ### The state that travels (R355, R356) -/

/-- What the migration of a partition brings from its source: a free value, as another module's state is (log 45). -/
opaque Config.arriving : Nat → Moved

/-- The partition runs at its target from now on: its loads, queues, collectives and link pools, and the frames that hold hold records in
use, go there; its other frames stay until they are pulled (R355 phase 4, R356, R357, R361). -/
def State.leavePart (s : State) (n target : Nat) : State :=
  let pt := s.part n
  let mine := fun (x : Nat × Queue) => x.2.part == n
  let m : Moved := ⟨n, s.loads.filter (fun l => l.part == n), s.queues.filter mine, s.colls.filter (fun c => c.part == n), pt.pools, []⟩
  let t := { s with loads := s.loads.filter (fun l => l.part != n), colls := s.colls.filter (fun c => c.part != n),
                    queues := s.queues.map (fun (x : Nat × Queue) => (x.1, if mine x then Queue.reset else x.2)), outbound := s.outbound ++ [(target, m)] }
  (t.setPart n { pt with pools := [] }).shipFrames n target (pt.frames.filter t.mem.holdFrame)

/-- A saved patch, with the numbers of its commands moved up, so that they are new here; ages of another module say nothing here. -/
def Saved.renumber (v : Saved) (n : Nat) : Saved :=
  { v with seen := [], patch := { v.patch with elems := v.patch.elems.map (fun e =>
      (e.1, { e.2 with cmds := e.2.cmds.map (fun c => (n + c.1, c.2)) })) } }

/-- A load that has arrived: of this module's partition, its order and its commands' numbers new here, to be restored. -/
def Load.arrived (l : Load) (part order n : Nat) : Load :=
  { l with part := part, order := order + l.order, launcher := l.launcher.map (fun x => (order + x.1, x.2)), patches := [], frames := [],
           drain := none, st := .evicted l.st.was, saved := l.saved.map (fun v => v.renumber n),
           queued := l.queued.map (fun x => { x with n := n + x.n, part := part }) }

/-- One more than the highest of some numbers. -/
def pastAll (l : List Nat) : Nat := l.foldl (fun m x => Nat.max m (x + 1)) 0

/-- The target takes what has arrived for a partition: its loads, evicted, its queues, its collectives, its link pools, and the frames of
hold records in use (R355 phase 3, R356, R361). A queue whose number is in use here is not taken. -/
def State.takePart (s : State) (n : Nat) : State :=
  let m := Config.arriving s.free
  let b := s.nextEngine
  let o := s.nextLoad
  let fs := m.frames.map (fun f => f.1)
  let qs := m.queues.filter (fun x => !s.engaged x.1)
  let ls := m.loads.filter (fun l => qs.any (fun x => x.1 == l.q))
  let ns := m.colls.map (fun c => c.n) ++ ls.flatMap (fun (l : Load) => l.queued.map (fun (x : Engine) => x.n))
  let taken : Taken := ⟨qs.map (fun x => (x.1, s.queue x.1)), m.colls.map (fun c => b + c.n), fs, s.tableMaps n fs, (s.part n).pools⟩
  let put := fun (q : SMap Queue) (x : Nat × Queue) =>
    smSet q x.1 { x.2 with part := n, launchers := x.2.launchers.map (fun y => (y.1, o + y.2.1, y.2.2)) }
  let s := { s with
    free := s.free + 1
    loads := s.loads ++ ls.map (fun (l : Load) => l.arrived n o b)
    nextLoad := o + pastAll (ls.map (fun (l : Load) => l.order))
    colls := s.colls ++ m.colls.map (fun (c : Collective) => { c with n := b + c.n, part := n })
    nextEngine := b + pastAll ns
    queues := qs.foldl put s.queues }
  m.frames.foldl (fun s f => s.installFrames n [f.1] f.2.1 (f.2.2.map (fun w => (w, true))))
    (s.setPart n { s.part n with pools := m.pools, taken := taken })

/-- What has arrived for a partition goes again, since its migration is abandoned: the partition resumes at its source (R355). -/
def State.dropTaken (s : State) (n : Nat) : State :=
  let pt := s.part n
  let k := pt.taken
  let s := { s with
    loads := s.loads.filter (fun l => l.part != n || !k.queues.any (fun x => x.1 == l.q))
    colls := s.colls.filter (fun c => !k.colls.contains c.n)
    queues := k.queues.foldl (fun q (x : Nat × Queue) => smSet q x.1 x.2) s.queues
    cache := s.cache.filter (fun c => c.part != n) }
  let s := k.entries.foldl (fun s (x : Nat × DWord) =>
    let t := s.ownFlush x.1 8
    { t with mem := t.mem.write x.1 (leBytes 8 x.2.toNat) }) s
  s.setPart n { pt with pools := k.pools, frames := pt.frames.filter (fun f => !k.frames.contains f), taken := Part.reset.taken }

/-- Set how far a partition's migration has come. -/
def State.setMigrate (s : State) (n : Nat) (x : Option (Nat × Nat)) : State := s.setPart n { s.part n with migrate := x }

/-- MIGRATE: the next phase of a partition's migration to a module; phase 0 abandons it, up to the end of phase 3. At the target
itself phase 3 takes what has arrived, which goes again where the migration is abandoned, and phase 4 lets the partition's loads be restored
and its queues run (R355, R356). -/
def execMigrate (n phase target : Nat) (s : State) : Res :=
  let pt := s.part n
  let at_ := (pt.migrate.map (fun m => m.1)).getD 0
  let bad := decide (20 ≤ n) || decide (5 < phase) || decide (512 ≤ target)
  let here := target == s.fabric.mod
  let step := at_ + 1 == phase && (phase == 1 || pt.migrate == some (at_, target))
  match phase with
  | 0 => .next (s.command bad (!decide (1 ≤ at_ ∧ at_ ≤ 3)) ((if pt.migrate = some (3, s.fabric.mod) then s.dropTaken n else s).setMigrate n none))
  | 1 =>
    let t := s.holdPart n
    .next (s.command bad (!pt.exists_ || here || at_ != 0) (t.setPart n { t.part n with migrate := some (1, target), migrateAt := s.clock.ns }))
  | 2 => .next (s.command bad (!step || !s.partSettled n) (s.setMigrate n (some (2, target))))
  | 3 =>
    if here then .next (s.command bad (!pt.exists_ || at_ != 0) ((s.takePart n).setMigrate n (some (3, target))))
    else .next (s.command bad (!step) ((s.savePart n).setMigrate n (some (3, target))))
  | 4 =>
    if here then .next (s.command bad (!pt.exists_ || pt.migrate != some (3, target))
      ((s.setPart n { pt with taken := Part.reset.taken }).setMigrate n none))
    else .next (s.command bad (!step) ((s.leavePart n target).setMigrate n (some (4, target))))
  | _ =>
    if here then .next (s.command bad (!pt.exists_) s)
    else .next (s.command bad (!step) (s.setMigrate n (some (5, target))))

/-- MIGRATE_ABORT: a copy of a migrating partition that still runs 2 ms after the freeze stops; its record follows with
MIGRATE_ABORT and what it has written (R360). -/
def execMigrateAbort (n : Nat) (s : State) : Res :=
  match s.engine n with
  | some x =>
    let pt := s.part x.part
    if pt.migrate.isSome && x.st == .moving && s.hasBegun x && !x.frozen && decide (pt.migrateAt + 2000000 ≤ s.clock.ns) then
      .next (s.setEngine { x with st := .finishing, status := causeCode .migrateAbort, sub := 0, faddr := 0 })
    else .next s
  | none => .next s

/-! ### Pulls (R357 to R359) -/

/-- The entry at which a walk for a flat address ends, and the size of its frame: the first node pointer whose node has not been pulled,
else the level-3 entry; `fuel` is the number of levels left. -/
def State.flatEntry (s : State) (pt : Part) (fa : Nat) : Nat → Nat → Option (Nat × Nat)
  | 0, _ => none
  | fuel + 1, node =>
    let a := node + 8 * (fa / 2 ^ (46 - 10 * (3 - fuel)) % 1024)
    let x := s.readWordDev a
    if fuel = 0 then some (a, if bits x 3 3 = 1 then 2 ^ 21 else 2 ^ 16)
    else if unpulled x then some (a, 2 ^ 16)
    else match nodeOf pt x with
      | .ok n => s.flatEntry pt fa fuel n
      | _ => none

/-- The entry whose frame is to be pulled, and the size of its frame: for a flat address, or, from 2^64 on, for the tile of a tensor fault
address (R347; log 4). -/
def State.pullEntry (s : State) (part fa : Nat) : Option (Nat × Nat) :=
  let pt := s.part part
  let flat := fun (a : Nat) => pt.root.bind (fun r => s.flatEntry pt a 4 r)
  if fa < 2 ^ 64 then flat fa
  else
    let v : DWord := BitVec.ofNat 64 fa
    (s.tensor part (bits v 63 44)).bind (fun t => match s.tileRoot (.die 0) part t with
      | .ok root =>
        let a := root + 8 * (bits v 43 24 / 1024)
        if unpulled (s.readWordDev a) then some (a, 2 ^ 16)
        else match nodeOf pt (s.readWordDev a) with
          | .ok leaf => some (leaf + 8 * (bits v 43 24 % 1024), t.tileBytes)
          | _ => none
      | .wait => flat t.ttab.toNat
      | _ => none)

/-- The frames that the first `size` bytes of an entry lie in. -/
def framesOf (x : DWord) (size : Nat) : List Nat :=
  (List.range ((bits x 50 8 * 256 % 65536 + size + 65535) / 65536)).map (fun i => entryFrame x + i)

/-- FRAME_PULL: the custody of the frame of an address moves. At the target, whose entry has MIG = 1, it is installed; at the
source, once every owner step accepted for it is done, it is shipped and leaves a stub (R358). -/
def execFramePull (part fa : Nat) (data : List Byte) (full : List Bool) (s : State) : Res :=
  let pt := s.part part
  match s.pullEntry part fa with
  | none => .next s
  | some (a, size) =>
    let x := s.readWordDev a
    let fs := framesOf x size
    let lo := entryFrame x * 65536
    let n := 65536 * fs.length
    if bits x 0 0 = 0 then .next s
    else if unpulled x then
      .next (s.installFrames part fs (((List.range n).map (lo + ·)).zip (bytesTo n data))
        ((List.range (n / 8)).map (fun i => (lo / 8 + i, full.getD i false))))
    else match pt.migrate with
      | some (ph, owner) =>
        let busy := s.ord.accs.any (fun y => fs.contains (y.place.addr / 65536)) ||
          s.fabric.incs.any (fun k => fs.contains (k.addr.toNat / 65536))
        if 4 ≤ ph ∧ bits x 52 51 = 0 ∧ !busy ∧ pt.frames.contains (entryFrame x) then .next (s.shipFrames part owner fs) else .next s
      | none => .next s

end Sys2Proof.Machine
end

