-- ==== Sys2Proof/Machine/Dispatch.lean ====
section
/-! DEFINITION. One arm per instruction: each a direct call of its meaning. -/

namespace Sys2Proof.Machine

/-- What an instruction does at a state. -/
def exec (i : Instr) (s : State) : Host.Outcome State Fault Refusal :=
  match i with
  | .seqAdd d a b => Sys2Proof.Machine.execSeqAdd d a b s
  | .seqSub d a b => Sys2Proof.Machine.execSeqSub d a b s
  | .seqAnd d a b => Sys2Proof.Machine.execSeqAnd d a b s
  | .seqOr d a b => Sys2Proof.Machine.execSeqOr d a b s
  | .seqXor d a b => Sys2Proof.Machine.execSeqXor d a b s
  | .seqSll d a b => Sys2Proof.Machine.execSeqSll d a b s
  | .seqSrl d a b => Sys2Proof.Machine.execSeqSrl d a b s
  | .seqSra d a b => Sys2Proof.Machine.execSeqSra d a b s
  | .seqSlt d a b => Sys2Proof.Machine.execSeqSlt d a b s
  | .seqSltu d a b => Sys2Proof.Machine.execSeqSltu d a b s
  | .seqMul d a b => Sys2Proof.Machine.execSeqMul d a b s
  | .seqMulh d a b => Sys2Proof.Machine.execSeqMulh d a b s
  | .seqMulhu d a b => Sys2Proof.Machine.execSeqMulhu d a b s
  | .seqDiv d a b => Sys2Proof.Machine.execSeqDiv d a b s
  | .seqDivu d a b => Sys2Proof.Machine.execSeqDivu d a b s
  | .seqRem d a b => Sys2Proof.Machine.execSeqRem d a b s
  | .seqRemu d a b => Sys2Proof.Machine.execSeqRemu d a b s
  | .seqMin d a b => Sys2Proof.Machine.execSeqMin d a b s
  | .seqMax d a b => Sys2Proof.Machine.execSeqMax d a b s
  | .minu d a b => Sys2Proof.Machine.execMinu d a b s
  | .maxu d a b => Sys2Proof.Machine.execMaxu d a b s
  | .seqAdds d a b => Sys2Proof.Machine.execSeqAdds d a b s
  | .seqSubs d a b => Sys2Proof.Machine.execSeqSubs d a b s
  | .kcmp k a b c => Sys2Proof.Machine.execKcmp k a b c s
  | .xret => Sys2Proof.Machine.execXret s
  | .wfe => Sys2Proof.Machine.execWfe s
  | .seqFence sub => Sys2Proof.Machine.execSeqFence sub s
  | .freeze => Sys2Proof.Machine.execFreeze s
  | .tscr d => Sys2Proof.Machine.execTscr d s
  | .rdtag d => Sys2Proof.Machine.execRdtag d s
  | .launch d a b => Sys2Proof.Machine.execLaunch d a b s
  | .signal a b sub => Sys2Proof.Machine.execSignal a b sub s
  | .seqAddi d a imm => Sys2Proof.Machine.execSeqAddi d a imm s
  | .seqAndi d a imm => Sys2Proof.Machine.execSeqAndi d a imm s
  | .seqOri d a imm => Sys2Proof.Machine.execSeqOri d a imm s
  | .seqXori d a imm => Sys2Proof.Machine.execSeqXori d a imm s
  | .seqSlti d a imm => Sys2Proof.Machine.execSeqSlti d a imm s
  | .sltiu d a imm => Sys2Proof.Machine.execSltiu d a imm s
  | .seqSlli d a imm => Sys2Proof.Machine.execSeqSlli d a imm s
  | .seqSrli d a imm => Sys2Proof.Machine.execSeqSrli d a imm s
  | .seqSrai d a imm => Sys2Proof.Machine.execSeqSrai d a imm s
  | .lui d imm => Sys2Proof.Machine.execLui d imm s
  | .jalr d a imm => Sys2Proof.Machine.execJalr d a imm s
  | .trap a sub c => Sys2Proof.Machine.execTrap a sub c s
  | .csrr d c => Sys2Proof.Machine.execCsrr d c s
  | .csrw a c => Sys2Proof.Machine.execCsrw a c s
  | .lb d a imm => Sys2Proof.Machine.execLb d a imm s
  | .lbu d a imm => Sys2Proof.Machine.execLbu d a imm s
  | .lh d a imm => Sys2Proof.Machine.execLh d a imm s
  | .lhu d a imm => Sys2Proof.Machine.execLhu d a imm s
  | .lw d a imm => Sys2Proof.Machine.execLw d a imm s
  | .sb d a imm => Sys2Proof.Machine.execSb d a imm s
  | .sh d a imm => Sys2Proof.Machine.execSh d a imm s
  | .sw d a imm => Sys2Proof.Machine.execSw d a imm s
  | .beq a b o => Sys2Proof.Machine.execBeq a b o s
  | .bne a b o => Sys2Proof.Machine.execBne a b o s
  | .blt a b o => Sys2Proof.Machine.execBlt a b o s
  | .bge a b o => Sys2Proof.Machine.execBge a b o s
  | .bltu a b o => Sys2Proof.Machine.execBltu a b o s
  | .bgeu a b o => Sys2Proof.Machine.execBgeu a b o s
  | .bkt k o => Sys2Proof.Machine.execBkt k o s
  | .bkf k o => Sys2Proof.Machine.execBkf k o s
  | .j o => Sys2Proof.Machine.execJ o s
  | .jal o => Sys2Proof.Machine.execJal o s
  | .loop l c n => Sys2Proof.Machine.execLoop l c n s
  | .loopr l g n => Sys2Proof.Machine.execLoopr l g n s
  | .lbrk l => Sys2Proof.Machine.execLbrk l s
  | .ldm d a o z sub c => Sys2Proof.Machine.execLdm d a o z sub c s
  | .stm d a o z c => Sys2Proof.Machine.execStm d a o z c s
  | .seqAadd d a w o c => Sys2Proof.Machine.execSeqAadd d a w o c s
  | .seqAmin d a w o c => Sys2Proof.Machine.execSeqAmin d a w o c s
  | .seqAmax d a w o c => Sys2Proof.Machine.execSeqAmax d a w o c s
  | .seqAand d a w o c => Sys2Proof.Machine.execSeqAand d a w o c s
  | .seqAor d a w o c => Sys2Proof.Machine.execSeqAor d a w o c s
  | .seqAxor d a w o c => Sys2Proof.Machine.execSeqAxor d a w o c s
  | .seqAswp d a w o c => Sys2Proof.Machine.execSeqAswp d a w o c s
  | .seqAcas d a w o c => Sys2Proof.Machine.execSeqAcas d a w o c s
  | .sbind a p => Sys2Proof.Machine.execSbind a p s
  | .sgo p => Sys2Proof.Machine.execSgo p s
  | .swaitp p => Sys2Proof.Machine.execSwaitp p s
  | .sbar => Sys2Proof.Machine.execSbar s
  | .cfgld d a => Sys2Proof.Machine.execCfgld d a s
  | .cfgpat d a => Sys2Proof.Machine.execCfgpat d a s
  | .cfgrect d a => Sys2Proof.Machine.execCfgrect d a s
  | .cfgcmt d => Sys2Proof.Machine.execCfgcmt d s
  | .cfgabt => Sys2Proof.Machine.execCfgabt s
  | .add d a b w z k => Sys2Proof.Machine.execAdd d a b w z k s
  | .sub d a b w z k => Sys2Proof.Machine.execSub d a b w z k s
  | .mul d a b w z k => Sys2Proof.Machine.execMul d a b w z k s
  | .mulh d a b w z k => Sys2Proof.Machine.execMulh d a b w z k s
  | .mulhu d a b w z k => Sys2Proof.Machine.execMulhu d a b w z k s
  | .div d a b w z k => Sys2Proof.Machine.execDiv d a b w z k s
  | .divu d a b w z k => Sys2Proof.Machine.execDivu d a b w z k s
  | .rem d a b w z k => Sys2Proof.Machine.execRem d a b w z k s
  | .remu d a b w z k => Sys2Proof.Machine.execRemu d a b w z k s
  | .and d a b w z k => Sys2Proof.Machine.execAnd d a b w z k s
  | .or d a b w z k => Sys2Proof.Machine.execOr d a b w z k s
  | .xor d a b w z k => Sys2Proof.Machine.execXor d a b w z k s
  | .sll d a b w z k => Sys2Proof.Machine.execSll d a b w z k s
  | .srl d a b w z k => Sys2Proof.Machine.execSrl d a b w z k s
  | .sra d a b w z k => Sys2Proof.Machine.execSra d a b w z k s
  | .slt d a b w z k => Sys2Proof.Machine.execSlt d a b w z k s
  | .sltu d a b w z k => Sys2Proof.Machine.execSltu d a b w z k s
  | .min d a b w z k => Sys2Proof.Machine.execMin d a b w z k s
  | .max d a b w z k => Sys2Proof.Machine.execMax d a b w z k s
  | .adds d a b w z k => Sys2Proof.Machine.execAdds d a b w z k s
  | .subs d a b w z k => Sys2Proof.Machine.execSubs d a b w z k s
  | .fadd d a b f r w z k => Sys2Proof.Machine.execFadd d a b f r w z k s
  | .fsub d a b f r w z k => Sys2Proof.Machine.execFsub d a b f r w z k s
  | .fmul d a b f r w z k => Sys2Proof.Machine.execFmul d a b f r w z k s
  | .fdiv d a b f r w z k => Sys2Proof.Machine.execFdiv d a b f r w z k s
  | .fmac d a b f r w z k => Sys2Proof.Machine.execFmac d a b f r w z k s
  | .fmin d a b f w z k => Sys2Proof.Machine.execFmin d a b f w z k s
  | .fmax d a b f w z k => Sys2Proof.Machine.execFmax d a b f w z k s
  | .fsqrt d a f r w z k => Sys2Proof.Machine.execFsqrt d a f r w z k s
  | .feq d a b f w z k => Sys2Proof.Machine.execFeq d a b f w z k s
  | .flt d a b f w z k => Sys2Proof.Machine.execFlt d a b f w z k s
  | .fle d a b f w z k => Sys2Proof.Machine.execFle d a b f w z k s
  | .mov d a w z k => Sys2Proof.Machine.execMov d a w z k s
  | .sel d a b c w z k => Sys2Proof.Machine.execSel d a b c w z k s
  | .lbc a sub c => Sys2Proof.Machine.execLbc a sub c s
  | .lext d a sub c => Sys2Proof.Machine.execLext d a sub c s
  | .lins a b c => Sys2Proof.Machine.execLins a b c s
  | .pack d a b sub w z k => Sys2Proof.Machine.execPack d a b sub w z k s
  | .unpk d a h sub w z k => Sys2Proof.Machine.execUnpk d a h sub w z k s
  | .mlane a b c n z k => Sys2Proof.Machine.execMlane a b c n z k s
  | .mset a n => Sys2Proof.Machine.execMset a n s
  | .mget d n => Sys2Proof.Machine.execMget d n s
  | .sprd d c => Sys2Proof.Machine.execSprd d c s
  | .spwr a c => Sys2Proof.Machine.execSpwr a c s
  | .take d a l => Sys2Proof.Machine.execTake d a l s
  | .peek d a l => Sys2Proof.Machine.execPeek d a l s
  | .adv a n => Sys2Proof.Machine.execAdv a n s
  | .emit d a => Sys2Proof.Machine.execEmit d a s
  | .waitf d a n => Sys2Proof.Machine.execWaitf d a n s
  | .waite d a n => Sys2Proof.Machine.execWaite d a n s
  | .rrot d a b k => Sys2Proof.Machine.execRrot d a b k s
  | .lgen d a b t => Sys2Proof.Machine.execLgen d a b t s
  | .tcmp d a b => Sys2Proof.Machine.execTcmp d a b s
  | .tjoin d a b => Sys2Proof.Machine.execTjoin d a b s
  | .tmeet d a b => Sys2Proof.Machine.execTmeet d a b s
  | .tadv d a b => Sys2Proof.Machine.execTadv d a b s
  | .frd d a => Sys2Proof.Machine.execFrd d a s
  | .frdCnt d a => Sys2Proof.Machine.execFrdCnt d a s
  | .fwait d a => Sys2Proof.Machine.execFwait d a s
  | .caph d a => Sys2Proof.Machine.execCaph d a s
  | .capd d a => Sys2Proof.Machine.execCapd d a s
  | .capx d a b => Sys2Proof.Machine.execCapx d a b s
  | .ains d a b c => Sys2Proof.Machine.execAins d a b c s
  | .amrg d a b => Sys2Proof.Machine.execAmrg d a b s
  | .aprb d a b p => Sys2Proof.Machine.execAprb d a b p s
  | .acmp d a b => Sys2Proof.Machine.execAcmp d a b s
  | .acon d a b => Sys2Proof.Machine.execAcon d a b s
  | .join d a b v k p => Sys2Proof.Machine.execJoin d a b v k p s
  | .red d a b k p => Sys2Proof.Machine.execRed d a b k p s
  | .wrel d a b => Sys2Proof.Machine.execWrel d a b s
  | .aadd d a b r w sub => Sys2Proof.Machine.execAadd d a b r w sub s
  | .amin d a b r w sub => Sys2Proof.Machine.execAmin d a b r w sub s
  | .amax d a b r w sub => Sys2Proof.Machine.execAmax d a b r w sub s
  | .aand d a b r w sub => Sys2Proof.Machine.execAand d a b r w sub s
  | .aor d a b r w sub => Sys2Proof.Machine.execAor d a b r w sub s
  | .axor d a b r w sub => Sys2Proof.Machine.execAxor d a b r w sub s
  | .aswp d a b r w sub => Sys2Proof.Machine.execAswp d a b r w sub s
  | .acas d a b r w sub => Sys2Proof.Machine.execAcas d a b r w sub s
  | .pwait d a b sub => Sys2Proof.Machine.execPwait d a b sub s
  | .pgive d a b sub => Sys2Proof.Machine.execPgive d a b sub s
  | .pswap d a b sub => Sys2Proof.Machine.execPswap d a b sub s
  | .paban d a b sub => Sys2Proof.Machine.execPaban d a b sub s
  | .prel d a b sub => Sys2Proof.Machine.execPrel d a b sub s
  | .cpy d a sub => Sys2Proof.Machine.execCpy d a sub s
  | .gath d a sub => Sys2Proof.Machine.execGath d a sub s
  | .scat d a sub => Sys2Proof.Machine.execScat d a sub s
  | .trig d a sub => Sys2Proof.Machine.execTrig d a sub s
  | .coll d a sub => Sys2Proof.Machine.execColl d a sub s
  | .flagst d a sub => Sys2Proof.Machine.execFlagst d a sub s
  | .thaw d a => Sys2Proof.Machine.execThaw d a s
  | .bubl d a b => Sys2Proof.Machine.execBubl d a b s
  | .addi d a imm => Sys2Proof.Machine.execAddi d a imm s
  | .andi d a imm => Sys2Proof.Machine.execAndi d a imm s
  | .ori d a imm => Sys2Proof.Machine.execOri d a imm s
  | .xori d a imm => Sys2Proof.Machine.execXori d a imm s
  | .slti d a imm => Sys2Proof.Machine.execSlti d a imm s
  | .slli d a imm => Sys2Proof.Machine.execSlli d a imm s
  | .srli d a imm => Sys2Proof.Machine.execSrli d a imm s
  | .srai d a imm => Sys2Proof.Machine.execSrai d a imm s
  | .movhi d imm => Sys2Proof.Machine.execMovhi d imm s
  | .drain p => Sys2Proof.Machine.execDrain p s
  | .ldI8 d a o sub => Sys2Proof.Machine.execLdI8 d a o sub s
  | .ldB8 d a o sub => Sys2Proof.Machine.execLdB8 d a o sub s
  | .ldI16 d a o sub => Sys2Proof.Machine.execLdI16 d a o sub s
  | .ldB16 d a o sub => Sys2Proof.Machine.execLdB16 d a o sub s
  | .ldB32 d a o sub => Sys2Proof.Machine.execLdB32 d a o sub s
  | .ldB64 d a o sub => Sys2Proof.Machine.execLdB64 d a o sub s
  | .ldW d a o sub => Sys2Proof.Machine.execLdW d a o sub s
  | .stB8 d a o sub => Sys2Proof.Machine.execStB8 d a o sub s
  | .stB16 d a o sub => Sys2Proof.Machine.execStB16 d a o sub s
  | .stB32 d a o sub => Sys2Proof.Machine.execStB32 d a o sub s
  | .stB64 d a o sub => Sys2Proof.Machine.execStB64 d a o sub s
  | .stW d a o sub => Sys2Proof.Machine.execStW d a o sub s
  | .ldAcqB32 d a o sub => Sys2Proof.Machine.execLdAcqB32 d a o sub s
  | .ldAcqB64 d a o sub => Sys2Proof.Machine.execLdAcqB64 d a o sub s
  | .stRelB32 d a o sub => Sys2Proof.Machine.execStRelB32 d a o sub s
  | .stRelB64 d a o sub => Sys2Proof.Machine.execStRelB64 d a o sub s
  | .ldf d a o sub => Sys2Proof.Machine.execLdf d a o sub s
  | .ldfe d a o sub => Sys2Proof.Machine.execLdfe d a o sub s
  | .ste d a o sub => Sys2Proof.Machine.execSte d a o sub s
  | .stf d a o sub => Sys2Proof.Machine.execStf d a o sub s
  | .feclr d a o sub => Sys2Proof.Machine.execFeclr d a o sub s
  | .place d a sub => Sys2Proof.Machine.execPlace d a sub s
  | .fence sub => Sys2Proof.Machine.execFence sub s
  | .mma t a b f d c r => Sys2Proof.Machine.execMma t a b f d c r s
  | .mmag t a b f d c r => Sys2Proof.Machine.execMmag t a b f d c r s
  | .ldt a b f => Sys2Proof.Machine.execLdt a b f s
  | .sortn a b f u d => Sys2Proof.Machine.execSortn a b f u d s
  | .cvt a b f sub r => Sys2Proof.Machine.execCvt a b f sub r s
  | .scld t a b f => Sys2Proof.Machine.execScld t a b f s
  | .scem t a b f => Sys2Proof.Machine.execScem t a b f s
  | .accld t a f => Sys2Proof.Machine.execAccld t a f s
  | .accst t a b f => Sys2Proof.Machine.execAccst t a b f s
  | .rmax t a b f w => Sys2Proof.Machine.execRmax t a b f w s
  | .rmin t a b f w => Sys2Proof.Machine.execRmin t a b f w s
  | .rclmp t a b f w => Sys2Proof.Machine.execRclmp t a b f w s
  | .rmed t a b f w => Sys2Proof.Machine.execRmed t a b f w s
  | .rsats t a b f w => Sys2Proof.Machine.execRsats t a b f w s
  | .adjb t a b f => Sys2Proof.Machine.execAdjb t a b f s
  | .commit => Sys2Proof.Machine.execCommit s
  | .br k c sub m g => Sys2Proof.Machine.execBr k c sub m g s
  | .halt => Sys2Proof.Machine.execHalt s
  | .nop => Sys2Proof.Machine.execNop s
  | .circ imm o v => Sys2Proof.Machine.execCirc imm o v s
  | .slot imm o v first run => Sys2Proof.Machine.execSlot imm o v first run s
  | .best imm o => Sys2Proof.Machine.execBest imm o s
  | .width o w => Sys2Proof.Machine.execWidth o w s
  | .scale imm o => Sys2Proof.Machine.execScale imm o s
  | .endList => Sys2Proof.Machine.execEndList s
  | .blockFire p e b tag => Sys2Proof.Machine.execBlockFire p e b tag s
  | .instanceCommit p e n => Sys2Proof.Machine.execInstanceCommit p e n s
  | .elementFaultDelivery p => Sys2Proof.Machine.execElementFaultDelivery p s
  | .ereplayDiscard p => Sys2Proof.Machine.execEreplayDiscard p s
  | .ereplayRetry p => Sys2Proof.Machine.execEreplayRetry p s
  | .wfeWake p => Sys2Proof.Machine.execWfeWake p s
  | .wfeTimeout p => Sys2Proof.Machine.execWfeTimeout p s
  | .configSwap p => Sys2Proof.Machine.execConfigSwap p s
  | .routerForward p e imm v => Sys2Proof.Machine.execRouterForward p e imm v s
  | .generatorEmit p e o => Sys2Proof.Machine.execGeneratorEmit p e o s
  | .emitterSend p e o => Sys2Proof.Machine.execEmitterSend p e o s
  | .rrotRotate p => Sys2Proof.Machine.execRrotRotate p s
  | .scaleTokenArrive p e => Sys2Proof.Machine.execScaleTokenArrive p e s
  | .bankReplay p e => Sys2Proof.Machine.execBankReplay p e s
  | .streamStep p k => Sys2Proof.Machine.execStreamStep p k s
  | .repairStep p k => Sys2Proof.Machine.execRepairStep p k s
  | .faultRecordWrite p k => Sys2Proof.Machine.execFaultRecordWrite p k s
  | .resume vf v => Sys2Proof.Machine.execResume vf v s
  | .escalation p k => Sys2Proof.Machine.execEscalation p k s
  | .feTimeout p e n => Sys2Proof.Machine.execFeTimeout p e n s
  | .bufferStep a n => Sys2Proof.Machine.execBufferStep a n s
  | .placeStep a n => Sys2Proof.Machine.execPlaceStep a n s
  | .drainStep b n => Sys2Proof.Machine.execDrainStep b n s
  | .readStep a n => Sys2Proof.Machine.execReadStep a n s
  | .ownerStep a n => Sys2Proof.Machine.execOwnerStep a n s
  | .releaseStep p k => Sys2Proof.Machine.execReleaseStep p k s
  | .installStep p e q => Sys2Proof.Machine.execInstallStep p e q s
  | .frontCountExchange p => Sys2Proof.Machine.execFrontCountExchange p s
  | .walk part tensor a => Sys2Proof.Machine.execWalk part tensor a s
  | .tableMigrate part a => Sys2Proof.Machine.execTableMigrate part a s
  | .engineComplete n => Sys2Proof.Machine.execEngineComplete n s
  | .gatherBurst n k => Sys2Proof.Machine.execGatherBurst n k s
  | .triggerEvaluate p t => Sys2Proof.Machine.execTriggerEvaluate p t s
  | .deadlockProbe p e => Sys2Proof.Machine.execDeadlockProbe p e s
  | .probeForward q n => Sys2Proof.Machine.execProbeForward q n s
  | .doorbell vf n v => Sys2Proof.Machine.execDoorbell vf n v s
  | .fqhead vf v => Sys2Proof.Machine.execFqhead vf v s
  | .verrClear vf v => Sys2Proof.Machine.execVerrClear vf v s
  | .bar0WriteOther vf off => Sys2Proof.Machine.execBar0WriteOther vf off s
  | .hostWrite vf fa bytes => Sys2Proof.Machine.execHostWrite vf fa bytes s
  | .hostRead vf fa len => Sys2Proof.Machine.execHostRead vf fa len s
  | .packetTake q => Sys2Proof.Machine.execPacketTake q s
  | .packetTrigger q => Sys2Proof.Machine.execPacketTrigger q s
  | .packetStart q => Sys2Proof.Machine.execPacketStart q s
  | .configLoad q => Sys2Proof.Machine.execConfigLoad q s
  | .stage q => Sys2Proof.Machine.execStage q s
  | .loadNaturalEnd q => Sys2Proof.Machine.execLoadNaturalEnd q s
  | .loadCompletionRecord q => Sys2Proof.Machine.execLoadCompletionRecord q s
  | .loadFreeze q => Sys2Proof.Machine.execLoadFreeze q s
  | .evict q => Sys2Proof.Machine.execEvict q s
  | .restore q => Sys2Proof.Machine.execRestore q s
  | .preempt q => Sys2Proof.Machine.execPreempt q s
  | .loadMove q => Sys2Proof.Machine.execLoadMove q s
  | .watchdogExpiry q => Sys2Proof.Machine.execWatchdogExpiry q s
  | .patchPowerGate p => Sys2Proof.Machine.execPatchPowerGate p s
  | .patchWake p => Sys2Proof.Machine.execPatchWake p s
  | .pcreate part keyAddr keyCount sig => Sys2Proof.Machine.execPcreate part keyAddr keyCount sig s
  | .pdestroy part => Sys2Proof.Machine.execPdestroy part s
  | .grant g => Sys2Proof.Machine.execGrant g s
  | .qset g => Sys2Proof.Machine.execQset g s
  | .qenable q => Sys2Proof.Machine.execQenable q s
  | .qdisable q => Sys2Proof.Machine.execQdisable q s
  | .vfbind vf part => Sys2Proof.Machine.execVfbind vf part s
  | .wdack q => Sys2Proof.Machine.execWdack q s
  | .thawCommand t => Sys2Proof.Machine.execThawCommand t s
  | .lend q => Sys2Proof.Machine.execLend q s
  | .ldiscard q => Sys2Proof.Machine.execLdiscard q s
  | .lpreempt q => Sys2Proof.Machine.execLpreempt q s
  | .inval part lo hi => Sys2Proof.Machine.execInval part lo hi s
  | .timeouts t => Sys2Proof.Machine.execTimeouts t s
  | .route entries => Sys2Proof.Machine.execRoute entries s
  | .slotld port entries => Sys2Proof.Machine.execSlotld port entries s
  | .migrate part phase target => Sys2Proof.Machine.execMigrate part phase target s
  | .readSaveFrame q lp piece => Sys2Proof.Machine.execReadSaveFrame q lp piece s
  | .readSlipcnt port k => Sys2Proof.Machine.execReadSlipcnt port k s
  | .readLinkErrors port k => Sys2Proof.Machine.execReadLinkErrors port k s
  | .readFailureMap k => Sys2Proof.Machine.execReadFailureMap k s
  | .readBootReport k nonce => Sys2Proof.Machine.execReadBootReport k nonce s
  | .readDeviceState k => Sys2Proof.Machine.execReadDeviceState k s
  | .readIdentityCert k => Sys2Proof.Machine.execReadIdentityCert k s
  | .readThrottle k => Sys2Proof.Machine.execReadThrottle k s
  | .rd port k => Sys2Proof.Machine.execRd port k s
  | .rdr port k => Sys2Proof.Machine.execRdr port k s
  | .wr port k => Sys2Proof.Machine.execWr port k s
  | .wra port k => Sys2Proof.Machine.execWra port k s
  | .atom port k => Sys2Proof.Machine.execAtom port k s
  | .atomr port k => Sys2Proof.Machine.execAtomr port k s
  | .flaginc port k => Sys2Proof.Machine.execFlaginc port k s
  | .cust port k => Sys2Proof.Machine.execCust port k s
  | .err port k => Sys2Proof.Machine.execErr port k s
  | .redir port k => Sys2Proof.Machine.execRedir port k s
  | .sync port sample => Sys2Proof.Machine.execSync port sample s
  | .syncSend port => Sys2Proof.Machine.execSyncSend port s
  | .collPacket port k => Sys2Proof.Machine.execCollPacket port k s
  | .fabricForward port n => Sys2Proof.Machine.execFabricForward port n s
  | .flitReplay port n => Sys2Proof.Machine.execFlitReplay port n s
  | .custodyResend n => Sys2Proof.Machine.execCustodyResend n s
  | .custodyTimeout n => Sys2Proof.Machine.execCustodyTimeout n s
  | .collectiveStart n peers => Sys2Proof.Machine.execCollectiveStart n peers s
  | .tileArrival n t data => Sys2Proof.Machine.execTileArrival n t data s
  | .collectiveComplete n => Sys2Proof.Machine.execCollectiveComplete n s
  | .collectiveBudgetExpiry n => Sys2Proof.Machine.execCollectiveBudgetExpiry n s
  | .framePull part fa data full => Sys2Proof.Machine.execFramePull part fa data full s
  | .stubForward k => Sys2Proof.Machine.execStubForward k s
  | .migrateAbort n => Sys2Proof.Machine.execMigrateAbort n s
  | .deviceReset => Sys2Proof.Machine.execDeviceReset s
  | .powerGood fw => Sys2Proof.Machine.execPowerGood fw s
  | .selftestDone r => Sys2Proof.Machine.execSelftestDone r s
  | .calibrationDone u ok => Sys2Proof.Machine.execCalibrationDone u ok s
  | .patchJoinFull p => Sys2Proof.Machine.execPatchJoinFull p s
  | .throttleRise die celsius milliPower => Sys2Proof.Machine.execThrottleRise die celsius milliPower s
  | .throttleFall die => Sys2Proof.Machine.execThrottleFall die s
  | .thermalShutdown celsius => Sys2Proof.Machine.execThermalShutdown celsius s
  | .linkStart port modNum version master => Sys2Proof.Machine.execLinkStart port modNum version master s
  | .reservedControlWord w => Sys2Proof.Machine.execReservedControlWord w s
  | .unknownCommand code => Sys2Proof.Machine.execUnknownCommand code s

end Sys2Proof.Machine
end

