-- ==== Sys2Proof/Machine/Fetch.lean ====
section
/-! DEFINITION. Where the next word of a sequencer, an instance or a switch list comes from (R102, R122, R124). -/

namespace Sys2Proof.Machine

/-! ### The sequencer's fetch (R122, R124) -/

/-- The outermost active loop level whose body holds address `a` (R124, R126). -/
def Seq.holder (q : Seq) (a : Nat) : Option Nat :=
  [0, 1, 2].find? (fun n => q.lc.getD n 0 != 0 && decide ((q.lb.getD n 0).toNat ≤ a) && decide (a ≤ (q.le.getD n 0).toNat))

/-- The word in the sequencer store at `a`, little-endian (R7, R73). -/
def Seq.stored (q : Seq) (a : Nat) : Nat := leNat (cellRead q.store a 4)

/-- The word that a fetch from `a` gives: what the loop buffer holds for an active level, or the store's (R124). -/
def Seq.fetch (q : Seq) (a : Nat) : Nat :=
  match q.holder a with
  | some n => match q.held.find? (fun h => h.1 == n && h.2.1 == a) with
    | some h => h.2.2.toNat
    | none => q.stored a
  | none => q.stored a

/-- Whether the 256-word loop buffer holds the whole body of a level. -/
def Seq.fits (q : Seq) (n : Nat) : Bool := decide ((q.le.getD n 0).toNat - (q.lb.getD n 0).toNat < 1024)

/-- What a fetch leaves: the word is held for the active level. Of a body longer than the loop buffer, which words it holds is
open: a free choice (R124; log 2). -/
def State.keepWord (s : State) (p a : Nat) : State :=
  let q := s.seq p
  match q.holder a with
  | some n =>
    if q.held.any (fun h => h.1 == n && h.2.1 == a) then s
    else
      let k := { q with held := (n, a, BitVec.ofNat 32 (q.stored a)) :: q.held }
      if q.fits n then s.setSeq p k
      else { (if Config.freeBool s.free then s.setSeq p k else s) with free := s.free + 1 }
  | none => s

/-- A sequencer may issue: its patch runs, and neither it nor its load is frozen. -/
def State.issues (s : State) (p : Nat) : Bool := (s.patch p).running && !(s.patch p).frozen && !(s.seq p).frozen

/-- The load of a patch has issued a sequencer word: its start time, and its Squall timer's start (R385, R394). -/
def State.started (s : State) (p : Nat) : State :=
  match (s.patch p).load with
  | some (n, _) => s.modLoad n (fun l => if l.tstart.isNone then { l with tstart := some s.clock.tsc, timedAt := s.clock.tsc.toNat } else l)
  | none => s

/-- Execution has run off the store: PERM, sub-cause 2, and XPC names the word that led there (R122). -/
def State.offEnd (s : State) (p : Nat) : State := s.seqFault p (s.seq p).last .perm 2 0x10000

/-! ### Words of an instance, and switch words -/

/-- The next word of a fired instance. -/
def State.nextWord (s : State) (p e n : Nat) : Option Word :=
  match (s.elem p e).inst n with
  | some i => match smFind (s.elem p e).blocks i.blk with
    | some b => if i.st = .fired then b.words[i.pc]? else none
    | none => none
  | none => none

/-- The switch word at halfword `n` of an element's list. -/
def State.switchWord (s : State) (p e n : Nat) : Option Instr :=
  match (s.elem p e).router.list[n]? with
  | some w => (decodeSwitch w.toNat (((s.elem p e).router.list[n + 1]?).map (fun x => x.toNat))).toOption
  | none => none

/-! ### A word placed where the next turn fetches it -/

/-- Patch 0 runs, with nothing that would come before the word. -/
def Patch.ready (x : Patch) : Patch := { x with running := true, frozen := false, reports := [] }

/-- A control word in patch 0's sequencer store, at pc. -/
def State.placeControl (s : State) (w : Nat) : State :=
  let x := (s.patch 0).ready
  let a := x.seq.pc.toNat % 0x10000
  { s.setPatch 0 { x with seq := { x.seq with pc := BitVec.ofNat 17 a, wf := false, begun := false, frozen := false, held := [],
                                              store := cellWrite x.seq.store a (leBytes 4 w) } } with agenda := [⟨0, .seq 0⟩] }

/-- An element word as block 0 of element 0 of patch 0, with a fired instance of it. -/
def State.placeElement (s : State) (w : Nat) : State :=
  let x := (s.patch 0).ready
  let v := x.elem 0
  let b : Block := { (default : Block) with words := [BitVec.ofNat 32 w] }
  let i := { (default : Inst) with id := 0, blk := 0 }.fire v.r
  { s.setPatch 0 (x.setElem 0 { v with frozen := false, blocks := smSet v.blocks 0 b, insts := [i] }) with agenda := [⟨0, .word 0 0 0⟩] }

/-- Switch halfwords as the list of element 0 of patch 0. -/
def State.placeSwitch (s : State) (l : List Half) : State :=
  let x := (s.patch 0).ready
  let v := x.elem 0
  { s.setPatch 0 (x.setElem 0 { v with frozen := false, router := { v.router with list := l } }) with agenda := [⟨0, .switch 0 0 0⟩] }

end Sys2Proof.Machine
end

