-- ==== Sys2Proof/Machine/Turns.lean ====
section
/-! DEFINITION. What each turn runs (R102, R111, R113, R122, R150): the word that a sequencer, an instance or a switch list has
next, or an operation or event of the table (log 1). -/

namespace Sys2Proof.Machine

/-- The word of a patch's sequencer at pc has begun (R113). -/
def State.begin (s : State) (p : Nat) : State := s.setSeq p { s.seq p with begun := true }

/-- The turn of a patch's sequencer. Execution off the store traps; a report of an element enters the handler between control
words, while none runs; a WFE waits; else the word at pc is fetched and executed (R102, R113, R122, R150). -/
def State.seqTurn (s : State) (p : Nat) : Host.Outcome State Fault Refusal :=
  let q := s.seq p
  if !s.issues p then .next s
  else if q.pc = 0x10000 then .next (s.offEnd p)
  else if !(s.patch p).reports.isEmpty && !q.xt && q.between then exec (.elementFaultDelivery p) s
  else if q.wf then exec (if q.latch then .wfeWake p else .wfeTimeout p) s
  else
    let w := q.fetch q.pc.toNat
    let t := ((s.started p).keepWord p q.pc.toNat).begin p
    match decodeCtl w with
    | .ok i => exec i t
    | .error _ => execReservedControlWord (BitVec.ofNat 32 w) t

/-- A word that no element decoder reads: the load that would hold it does not start (R101); reached by other means it is ILLOP
with sub-cause 0, the word's encoding (R114). -/
def badWord : W Unit := W.illop 0

/-- The next word of an instance runs, in block order (R31). -/
def State.runNext (s : State) (p e n : Nat) : Host.Outcome State Fault Refusal :=
  let s := { s with cur := ⟨p, e, n⟩ }
  match s.nextWord p e n with
  | some w => match decodeElem w.toNat with
    | .ok i => exec i s
    | .error _ => runWord badWord s
  | none => .next s

/-- Word `k` of an instance may issue ahead of the earlier ones that have not completed: it needs nothing of them, and the matrix unit is
not held by one of them (R31, R183). -/
def Elem.mayPass (v : Elem) (i : Inst) (k : Nat) : Bool :=
  match smFind v.blocks i.blk with
  | none => false
  | some b =>
    let word := fun (n : Nat) => (decodeElem (b.words.getD n 0).toNat).toOption
    let passes := fun (n : Nat) => match word k, word n with
      | some x, some y => (touch x).passes (touch y)
      | _, _ => false
    i.st == .fired && decide (i.pc < k) && decide (k < b.words.length) && !i.ahead.contains k && !(i.mx && (word k).any isMatrix) &&
    (List.range (k - i.pc)).all (fun d => i.ahead.contains (i.pc + d) || passes (i.pc + d))

/-- Word `k` of an instance, run as if the instance stood at it. -/
def State.runAt (s : State) (p e : Nat) (i : Inst) (k : Nat) : Host.Outcome State Fault Refusal :=
  (s.putInst p e { i with pc := k, since := none, waited := 0, cover := none, pullAt := none, got := [] }).runNext p e i.id

/-- A step of an instance has begun an access to an SO frame. -/
def State.newSo (s t : State) (p e : Nat) : Bool :=
  t.ord.accs.any (fun a => a.agent == .elem p e && a.place.kind == .so && decide (s.ord.nextId ≤ a.id))

/-- Word `k` of an instance has run in state `s` and led to `t`: the state in which it has completed ahead, the instance standing where it
stood, or has faulted; none where it would wait, or would begin an access to an SO frame before an earlier one (R31, R36, R311). -/
def State.aheadTo (s t : State) (p e : Nat) (i : Inst) (k : Nat) : Option State :=
  match (t.elem p e).inst i.id with
  | some j =>
    if j.st ≠ .fired then some t
    else if j.pc = k ∨ s.newSo t p e = true then none
    else some (t.putInst p e { j with pc := i.pc, since := i.since, waited := i.waited, cover := i.cover, pullAt := i.pullAt, got := i.got,
                                      mx := i.mx, readyAt := i.readyAt, ahead := k :: i.ahead })
  | none => some t

/-- Word `k` of an instance would issue now, ahead of earlier ones (R31). -/
def State.canPass (s : State) (p e : Nat) (i : Inst) (k : Nat) : Bool :=
  (s.elem p e).mayPass i k && match s.runAt p e i k with
    | .next t => (s.aheadTo t p e i k).isSome
    | _ => false

/-- The words of an instance's block. -/
def Elem.length (v : Elem) (i : Inst) : Nat := ((smFind v.blocks i.blk).map (fun b => b.words.length)).getD 0

/-- A word of an instance would issue now: its operands are there, and it would not wait (R31, R34). -/
def State.canIssue (s : State) (p e : Nat) (i : Inst) : Bool :=
  i.st == .fired && decide (i.readyAt ≤ s.clock.n) && ((match s.runNext p e i.id with
    | .next t => match (t.elem p e).inst i.id with
      | some j => j.pc != i.pc || j.st != i.st
      | none => true
    | _ => false) || (List.range ((s.elem p e).length i)).any (fun k => s.canPass p e i k))

/-- PRI of an instance: its block's (R26). -/
def Elem.priOf (v : Elem) (i : Inst) : Nat := ((smFind v.blocks i.blk).map (fun b => b.pri)).getD 0

/-- The instances of an element that issue before one of its instances where both can: those of higher PRI, and of its PRI those whose
entries were allocated before its own (R34). -/
def Elem.before (v : Elem) (n : Nat) : List Inst :=
  let k := v.insts.findIdx (fun i => i.id == n)
  let pri := ((v.inst n).map v.priOf).getD 0
  (v.insts.zipIdx.filter (fun x => x.1.id != n && (decide (pri < v.priOf x.1) || (v.priOf x.1 == pri && decide (x.2 < k))))).map
    (fun x => x.1)

/-- The operands of an instance's next word are there, and no instance that issues before it could issue now (R34). -/
def State.itsTurn (s : State) (p e n : Nat) : Bool :=
  let v := s.elem p e
  (v.inst n).any (fun i => decide (i.readyAt ≤ s.clock.n)) && (v.before n).all (fun j => !s.canIssue p e j)

/-- The turn of an instance: its next word issues, where it is this instance's turn (R31, R34). -/
def State.wordTurn (s : State) (p e n : Nat) : Host.Outcome State Fault Refusal :=
  if s.itsTurn p e n then s.runNext p e n else .next s

/-- Word `k` of an instance issues ahead of earlier words that wait, where it is this instance's turn: its operands are there, and it
completes or faults at once (R31, R34). -/
def State.aheadTurn (s : State) (p e n k : Nat) : Host.Outcome State Fault Refusal :=
  match (s.elem p e).inst n with
  | none => .next s
  | some i =>
    if !s.itsTurn p e n || !(s.elem p e).mayPass i k then .next s
    else match s.runAt p e i k with
      | .next t => .next ((s.aheadTo t p e i k).getD s)
      | r => r

/-- An instance whose current word, run now, would read the vault word `a` of its element without taking a claim: the word may read
it before the rest (R183). -/
def State.wouldRead (s : State) (p e : Nat) (i : Inst) (a : Nat) : Bool :=
  match ({ s with ord := { s.ord with seen := [] } } : State).runNext p e i.id with
  | .next t => match (t.elem p e).inst i.id with
    | some j => j.pc == i.pc + 1 && j.dfc == i.dfc && j.arrc == i.arrc &&
        t.ord.seen.any (fun x => x.1 == .elem p e && x.2.1 / 8 == a / 8)
    | none => false
  | _ => false

/-- One 8-byte word of a tile that an instance's current word reads is read before the rest, since a tile is not read atomically; its
bank serves it, but for the reads of LDT, which its groups present (R183, R306, R336, R337). A matrix word that has read so has the
matrix unit. -/
def State.operandTurn (s : State) (p e n a : Nat) : State :=
  let a := a / 8 * 8
  let base := vaultAddr p e 0
  match (s.elem p e).inst n with
  | some i =>
    let pl := vaultPlace p e (a - base)
    if s.itsTurn p e n && decide (base ≤ a ∧ a < base + 0x80000) && (gotByte i.got a).isNone && s.wouldRead p e i a &&
        (s.readOperand p e i pl 8).isSome then
      let grouped := match (s.elem p e).wordOf i with
        | some (.ldt _ _ _) => true
        | _ => false
      let (s, ok) := if grouped then (s, true) else s.present (.elem p e) (ownId n i.pc (a / 8)) [false] [a / 8]
      if !ok then s
      else match s.readOperand p e i pl 8 with
        | some (bs, s) => (s.keepGot p e n [(a / 8, bs)]).startUnit p e n
        | none => s
    else s
  | none => s

/-- The part of the 8-byte word at `a` that lies in one of some pieces of this module's memory. -/
def wordPart (l : List (Place × Nat)) (a : Nat) : Option (Place × Nat) :=
  (l.find? (fun x => x.1.module.isNone && !x.1.host && decide (x.1.addr < a + 8) && decide (a < x.1.addr + x.2))).map (fun x =>
    let lo := Nat.max a x.1.addr
    ({ x.1 with addr := lo }, Nat.min (a + 8) (x.1.addr + x.2) - lo))

/-- One 8-byte word that a DIR 0 port's next step reads is read before the rest (R138, R306). -/
def State.portWordTurn (s : State) (p k a : Nat) : State :=
  let a := a / 8 * 8
  let x := s.patch p
  let pt := x.port k
  match pt.running, pt.bound with
  | some _, some d =>
    if x.frozen || pt.frozen || !x.running || d.toMem || pt.parked.isSome || decide (d.steps ≤ pt.step) || !s.queueRoom p d ||
        (gotByte pt.got a).isSome then s
    else match (s.stepPlace p k d pt.step).1 with
      | .ok l => match wordPart l a with
        | some (pl, n) => match s.readNow (.port p k) .patch pl n with
          | some (bs, s) => s.setPort p k { s.port p k with got := (a / 8, List.replicate (pl.addr - a) 0 ++ bs) :: pt.got }
          | none => s
        | none => s
      | _ => s
  | _, _ => s

/-- The turn of a switch word (R98). -/
def State.switchTurn (s : State) (p e n : Nat) : Host.Outcome State Fault Refusal :=
  match s.switchWord p e n with
  | some i => exec i s
  | none => .next s

/-- The turn of an operation or event. The events that a sequencer's own turn raises are not taken here. -/
def State.eventTurn (s : State) (i : Instr) : Host.Outcome State Fault Refusal :=
  match i with
  | .reservedControlWord _ => .next s
  | _ => if i.kind = .event ∧ i.wf then exec i s else .next s

/-- Whose turn it is, as the agent that words run on. -/
def Who.cur (c : Cur) : Who → Cur
  | .seq p => ⟨p, 0, 0⟩
  | .word p e n | .ahead p e n _ => ⟨p, e, n⟩
  | .switch p e _ => ⟨p, e, 0⟩
  | .operand p e n _ => ⟨p, e, n⟩
  | .portWord p _ _ => ⟨p, 0, 0⟩
  | .event _ => c

/-- Whoever has the turn moves. -/
def State.move (s : State) : Who → Host.Outcome State Fault Refusal
  | .seq p => s.seqTurn p
  | .word p e n => s.wordTurn p e n
  | .ahead p e n k => s.aheadTurn p e n k
  | .switch p e n => s.switchTurn p e n
  | .operand p e n a => .next (s.operandTurn p e n a)
  | .portWord p k a => .next (s.portWordTurn p k a)
  | .event i => s.eventTurn i

/-- What follows every move in its own step: the trigger units and the command processor look at the counters it may have written, a patch
that has failed its calibration and holds no load any more is fenced, and a load that it froze, or that has settled, is read out (R230,
R369, R377, R390, R443). -/
def State.follow (s : State) : State := s.watch.watchPackets.fenceAll.readOuts

/-- A turn runs: its cycles pass, whoever has it moves, and what follows is done. -/
def State.run (s : State) (t : Turn) : Host.Outcome State Fault Refusal :=
  match State.move { s with clock := s.clock.advance t.wait, cur := t.who.cur s.cur } t.who with
  | .next s => .next s.follow
  | r => r

/-- The next turn: the first of the agenda, or, where it lists none, an event and a time that nothing fixes (log 1, log 2). -/
def State.takeTurn (s : State) : Turn × State :=
  match s.agenda with
  | t :: r => (t, { s with agenda := r })
  | [] => (⟨Config.freeWait s.free, .event (Config.freeEvent s.free)⟩, { s with free := s.free + 1 })

/-- The two halfwords of a switch word's bits, low first. -/
def switchHalves (w : Nat) : List Half :=
  if w / 2 ^ 13 % 8 = 2 then [BitVec.ofNat 16 w, BitVec.ofNat 16 (w / 2 ^ 16)] else [BitVec.ofNat 16 w]

/-- A word of the table where the next turn fetches it: what the decoder reads it as says whether an element, a sequencer or a
switch list runs it (log 11). -/
def State.placeWord (s : State) (nbits w : Nat) : State :=
  if nbits ≤ 16 then s.placeSwitch (switchHalves w)
  else match decodeElem (w % 2 ^ 32) with
    | .ok _ => s.placeElement w
    | .error _ => s.placeControl w

end Sys2Proof.Machine
end

