-- ==== Sys2Proof/Machine/Step.lean ====
section
/-! DEFINITION. One step of the machine, and a word placed where the next step fetches it. -/

namespace Sys2Proof.Machine

/-- One step: the next turn runs. -/
def step (s : State) : Host.Outcome State Fault Refusal := s.takeTurn.2.run s.takeTurn.1

/-- The machine with a word of the table where its next step fetches it. -/
def State.withFetchWord (s : State) (nbits w : Nat) : State := s.placeWord nbits w

end Sys2Proof.Machine
end

