-- ==== Sys2Proof/Certificates/Slice0/Obligations.lean ====
section
/-! DEFINITION. The statements for the provers, and before them, under `Terms`, the words in which they are said. -/

namespace Sys2Proof.Terms

open Sys2Proof.Machine

/-- The sequencer of the patch whose turn it is. -/
def here (s : State) : Seq := s.seq s.cur.patch

/-- The machine once the control word whose turn it is has completed at its address and left its sequencer as `q`; what
completing does is `Obligations.LoopEndCheck`. -/
def completed (s : State) (q : Seq) : State := s.setSeq s.cur.patch (q.finish s.seqAt)

/-- The lists of a sequencer have the lengths that R12 gives them. -/
def Shaped (q : Seq) : Prop := q.g.length = 32 ∧ q.lc.length = 3 ∧ q.lb.length = 3 ∧ q.le.length = 3

/-- The result of an integer operation at `n` bits, by R49 to R51 and the tables of R117 and R159. -/
def intValue {n : Nat} (op : IntOp) (x y : BitVec n) : BitVec n :=
  match op with
  | .add => BitVec.ofInt n (x.toInt + y.toInt)
  | .sub => BitVec.ofInt n (x.toInt - y.toInt)
  | .and => x &&& y
  | .or => x ||| y
  | .xor => x ^^^ y
  | .sll => BitVec.ofNat n (x.toNat * 2 ^ (y.toNat % n))
  | .srl => BitVec.ofNat n (x.toNat / 2 ^ (y.toNat % n))
  | .sra => BitVec.ofInt n (x.toInt / 2 ^ (y.toNat % n))
  | .slt => if x.toInt < y.toInt then 1 else 0
  | .sltu => if x.toNat < y.toNat then 1 else 0
  | .mul => BitVec.ofInt n (x.toInt * y.toInt)
  | .mulh => BitVec.ofInt n (x.toInt * y.toInt / 2 ^ n)
  | .mulhu => BitVec.ofNat n (x.toNat * y.toNat / 2 ^ n)
  | .div => if y = 0 then BitVec.ofInt n (-1) else BitVec.ofInt n (x.toInt.tdiv y.toInt)
  | .divu => if y = 0 then BitVec.allOnes n else BitVec.ofNat n (x.toNat / y.toNat)
  | .rem => if y = 0 then x else BitVec.ofInt n (x.toInt.tmod y.toInt)
  | .remu => if y = 0 then x else BitVec.ofNat n (x.toNat % y.toNat)
  | .min => if x.toInt ≤ y.toInt then x else y
  | .max => if x.toInt ≤ y.toInt then y else x
  | .minu => if x.toNat ≤ y.toNat then x else y
  | .maxu => if x.toNat ≤ y.toNat then y else x
  | .adds => BitVec.ofInt n (max (-(2 ^ (n - 1))) (min (2 ^ (n - 1) - 1) (x.toInt + y.toInt)))
  | .subs => BitVec.ofInt n (max (-(2 ^ (n - 1))) (min (2 ^ (n - 1) - 1) (x.toInt - y.toInt)))

/-- The operation divides by zero (R51). -/
def dividesByZero {n : Nat} (op : IntOp) (y : BitVec n) : Bool :=
  decide (op = .div ∨ op = .divu ∨ op = .rem ∨ op = .remu) && decide (y = 0)

/-- Whether a comparison holds (R79, R120). -/
def holds (c : Cond) (x y : Word) : Prop :=
  match c with
  | .eq => x = y
  | .ne => x ≠ y
  | .lt => x.toInt < y.toInt
  | .ge => y.toInt ≤ x.toInt
  | .ltu => x.toNat < y.toNat
  | .geu => y.toNat ≤ x.toNat


/-- A taken branch or jump at `a` has left sequencer `q` as `q'`: pc is the target, the levels that end at `a` are over, and
nothing else differs but the fetch's own records (R120, R128). -/
def JumpedTo (q : Seq) (a : Half) (target : Word) (q' : Seq) : Prop :=
  q'.pc = target.setWidth 17 ∧ q'.lc.length = 3 ∧
  (∀ n < 3, q'.lc.getD n 0 = if q.le.getD n 0 = a then 0 else q.lc.getD n 0) ∧
  q'.last = a ∧ q'.begun = false ∧ { q' with pc := q.pc, lc := q.lc, held := q.held, last := q.last, begun := q.begun } = q

/-- The target of a branch or jump at `a`: the word's address plus 4 times the signed offset (R75, R120, R121). -/
def target (a : Half) (off : Int) : Word := BitVec.ofInt 32 (a.toNat + 4 * off)

/-- The branch words, and when each is taken (R120). -/
def branches : List ((Seq → BitVec 5 → BitVec 5 → BitVec 16 → Instr) × (Seq → BitVec 5 → BitVec 5 → Prop)) :=
  [(fun _ => Instr.beq, fun q a b => holds .eq (q.get a) (q.get b)),
   (fun _ => Instr.bne, fun q a b => holds .ne (q.get a) (q.get b)),
   (fun _ => Instr.blt, fun q a b => holds .lt (q.get a) (q.get b)),
   (fun _ => Instr.bge, fun q a b => holds .ge (q.get a) (q.get b)),
   (fun _ => Instr.bltu, fun q a b => holds .ltu (q.get a) (q.get b)),
   (fun _ => Instr.bgeu, fun q a b => holds .geu (q.get a) (q.get b)),
   (fun _ a _ => Instr.bkt (a.setWidth 2), fun q a _ => q.k.getLsbD (a.toNat % 4) = true),
   (fun _ a _ => Instr.bkf (a.setWidth 2), fun q a _ => q.k.getLsbD (a.toNat % 4) = false)]

/-- The codes of the trap cause table that the machine itself raises (R114). -/
def causeTable : List (Cause × Nat) :=
  [(.illop, 0x01), (.align, 0x02), (.xlate, 0x03), (.perm, 0x04), (.feTimeout, 0x06), (.deadlock, 0x08),
   (.witnessStale, 0x09), (.placeStale, 0x0A), (.doubleResolve, 0x0C)]

/-- A trap has entered the handler (R111, R14). -/
def trapped (q : Seq) (xpc : Half) (code sub : Nat) (val : DWord) : Seq :=
  { q with xpc := xpc, xcause := BitVec.ofNat 32 (code + 256 * sub), xval := BitVec.ofNat 32 (val.toNat % 2 ^ 32),
           xvalh := BitVec.ofNat 32 (val.toNat / 2 ^ 32), xinfo := 0, xt := true, pc := 0, begun := false }

/-- The number that `n` bytes of a sequencer store make from address `a` on, the lowest address least significant (R7). -/
def storeValue (q : Seq) (a : Nat) : Nat → Nat
  | 0 => 0
  | n + 1 => (cellGet q.store a).toNat + 256 * storeValue q (a + 1) n

/-- The sequencer with level `n` of its loops set (R125). -/
def opened (q : Seq) (n : Nat) (begin_ end_ : Half) (count : Word) : Seq :=
  { q with lb := q.lb.set n begin_, le := q.le.set n end_, lc := q.lc.set n count }


/-- SQST, by the fields of R13. -/
def sqst (x : Patch) : Word :=
  BitVec.ofNat 32 ((x.reports.filter (fun r => r.inst.isSome && r.ring.isEmpty)).length % 256 * 256 +
    (x.seq.lc.filter (fun c => c != 0)).length * 32 + (if x.frozen then 16 else 0) + (if x.seq.wf then 8 else 0) +
    (if x.seq.dz then 4 else 0) + (if x.seq.xt then 2 else 0))

/-- The readable CSRs and what each reads as (R115). -/
def csrReads : List (Nat × (State → Nat → Word)) :=
  let half : (Seq → Half) → State → Nat → Word := fun f s p => BitVec.ofNat 32 (f (s.seq p)).toNat
  [(0x010, fun s p => (s.seq p).lc.getD 0 0), (0x011, fun s p => (s.seq p).lc.getD 1 0), (0x012, fun s p => (s.seq p).lc.getD 2 0),
   (0x014, half fun q => q.lb.getD 0 0), (0x015, half fun q => q.lb.getD 1 0), (0x016, half fun q => q.lb.getD 2 0),
   (0x018, half fun q => q.le.getD 0 0), (0x019, half fun q => q.le.getD 1 0), (0x01A, half fun q => q.le.getD 2 0),
   (0x01C, fun s p => BitVec.ofNat 32 (s.seq p).k.toNat), (0x040, half fun q => q.xpc), (0x041, fun s p => (s.seq p).xcause),
   (0x042, fun s p => (s.seq p).xval), (0x043, fun s p => (s.seq p).xvalh), (0x044, fun s p => (s.seq p).xinfo),
   (0x046, fun s p => sqst (s.patch p)), (0x080, fun s p => BitVec.ofNat 32 (s.seq p).vhash.toNat),
   (0x0C0, fun s _ => BitVec.ofNat 32 (s.clock.tsc.toNat % 2 ^ 32)), (0x0C1, fun s p => (s.seq p).tsch),
   (0x0C4, fun _ p => BitVec.ofNat 32 p), (0x0C5, fun s p => BitVec.ofNat 32 (s.partOf p))]

/-- The writable CSRs: number, the values that R116, and R334 for VHASH, allow, and what a write does. EREPLAY is apart. -/
def csrWrites : List (Nat × (Word → Prop) × (Seq → Word → Seq)) :=
  let any : Word → Prop := fun _ => True
  let addr : Word → Prop := fun v => v.toNat < 65536 ∧ v.toNat % 4 = 0
  [(0x010, any, fun q v => { q with lc := q.lc.set 0 v }), (0x011, any, fun q v => { q with lc := q.lc.set 1 v }),
   (0x012, any, fun q v => { q with lc := q.lc.set 2 v }),
   (0x014, addr, fun q v => { q with lb := q.lb.set 0 (v.setWidth 16) }),
   (0x015, addr, fun q v => { q with lb := q.lb.set 1 (v.setWidth 16) }),
   (0x016, addr, fun q v => { q with lb := q.lb.set 2 (v.setWidth 16) }),
   (0x018, addr, fun q v => { q with le := q.le.set 0 (v.setWidth 16) }),
   (0x019, addr, fun q v => { q with le := q.le.set 1 (v.setWidth 16) }),
   (0x01A, addr, fun q v => { q with le := q.le.set 2 (v.setWidth 16) }),
   (0x01C, fun v => v.toNat < 16, fun q v => { q with k := v.setWidth 4 }),
   (0x040, addr, fun q v => { q with xpc := v.setWidth 16 }),
   (0x046, fun v => v.toNat = 0 ∨ v.toNat = 4, fun q v => { q with dz := q.dz && decide (v.toNat = 0) }),
   (0x080, fun v => v.toNat < 1024 ∧ v.toNat % 32 ≤ 11 ∧ v.toNat / 32 ≤ 11, fun q v => { q with vhash := v.setWidth 10 })]

/-- What an atomic writes over `old` (R131, R217): `x` is its operand, `y` the new value of compare-and-swap. -/
def atomicValue {n : Nat} (k : AtomKind) (old x y : BitVec n) : BitVec n :=
  match k with
  | .add => BitVec.ofNat n (old.toNat + x.toNat)
  | .min => if old.toInt ≤ x.toInt then old else x
  | .max => if old.toInt ≤ x.toInt then x else old
  | .and => old &&& x
  | .or => old ||| x
  | .xor => old ^^^ x
  | .swap => x
  | .cas => if old = x then y else old

/-- The bytes that the stores among some accesses write, in order. -/
def stored (l : List Access) : List (Nat × Byte) := l.flatMap (fun x => match x.op with
  | .store st => st.bytes
  | _ => [])

/-- The level of a loop that the check at an address takes pc back for, innermost first (R127). -/
def takesBack (q : Seq) (a : Half) : Option Nat :=
  [2, 1, 0].find? (fun n => q.lc.getD n 0 != 0 && q.le.getD n 0 == a && q.lc.getD n 0 != 1)

/-- An effect of word `w` among those of other words: after the effects of every word up to it, before those of later words, which
may have issued already (R31, R302). -/
def placed (w : Nat) (e : Eff) (l : List (Nat × Eff)) : List (Nat × Eff) :=
  l.filter (fun x => decide (x.1 ≤ w)) ++ [(w, e)] ++ l.filter (fun x => decide (w < x.1))

/-- Lanes added to a destination r of R87, a port or a buffer; a buffer takes them as an effect of the commit, in block-word order
(R158, R302). -/
def putInto (k : Wk) (r : Nat) (ls : List Word) : Wk :=
  { k with i := { k.i with outs := k.i.outs.set (r - 20) (k.i.outs.getD (r - 20) [] ++ ls),
                           effs := if 24 ≤ r then placed k.i.pc (.fill (r - 24) ls.length) k.i.effs else k.i.effs } }

/-- The machine once the control word whose turn it is, one that may have waited for a frame under pull, has completed. -/
def flatDone (s : State) (q : Seq) : State := completed s { q with pullAt := none }

/-- A flat access of the sequencer breaks its partition's boundary: the trap is taken, the sequencer is frozen as an offending
master, and a freeze record names the access (R133, R396, R397). -/
def offended (s : State) (u : Nat) (fa : DWord) : State :=
  let p := s.cur.patch
  let t := s.seqFault p s.seqAt .perm u fa
  let v := t.setSeq p { t.seq p with frozen := true }
  let l := s.loadOf p
  { v with freezes := v.freezes ++ [freezeRec 0 (s.lpOf p) ((l.map (fun l => l.q)).getD 0) (s.partOf p) 1 0 0
      ((l.map (fun l => l.lid.toNat)).getD 0) (v.seq p).xinfo (BitVec.ofNat 32 (0x04 + 256 * (u % 256))) fa s.clock.tsc 0] }

/-- A place lies on this module. -/
def local_ (pl : Place) : Prop := pl.addr < remoteBase ∨ vaultBase ≤ pl.addr

/-- The bytes of a number from an address on, the least significant first (R7). -/
def spelled (a n v : Nat) : List (Nat × Byte) := (List.range n).map (fun i => (a + i, BitVec.ofNat 8 (v / 256 ^ i)))

/-- The machine with an access entered at the end of its agent's issue queue, under the next number (R304, R305). -/
def entered (s : State) (x : Access) : State :=
  { s with ord := { s.ord with accs := s.ord.accs ++ [{ x with id := s.ord.nextId, grp := s.ord.nextId }], nextId := s.ord.nextId + 1 } }


/-- Instance `i` of the element whose turn it is has fired, and nothing of the element is frozen or still to start. -/
def OnTurn (s : State) (i : Inst) : Prop :=
  (s.elem s.cur.patch s.cur.el).inst s.cur.inst = some i ∧ i.st = .fired ∧ s.still s.cur.patch s.cur.el = false

/-- A part of a word's work gives `x` and leaves `k`. -/
def gives {α : Type} (f : W α) (k : Wk) (x : α) (k' : Wk) : Prop := f k = .ok (x, k')

/-- The instance past the word that it has completed, at the next one that has not completed (`Obligations.WordDoneFrame` says which that
is): that one may issue once its operands are there, by the model's free latency (log 52). -/
def passed (s : State) (k : Wk) : Inst :=
  { k.i with pc := k.i.nextPc, since := none, waited := 0, cover := none, pullAt := none, got := [], mx := false,
             readyAt := s.clock.n + Config.latency [s.cur.patch, s.cur.el, k.i.id, k.i.pc, s.clock.n] }

/-- The instance stands at word `n`, which has not begun to wait. -/
def standsAt (i : Inst) (n : Nat) : Inst := { i with pc := n, since := none, waited := 0, cover := none, pullAt := none, got := [] }

/-- The instance stands where `i` stands, and waits as it does, but word `n` has completed ahead of its own (R31). -/
def doneAhead (i j : Inst) (n : Nat) : Inst :=
  { j with pc := i.pc, since := i.since, waited := i.waited, cover := i.cover, pullAt := i.pullAt, got := i.got, mx := i.mx,
           readyAt := i.readyAt, ahead := n :: i.ahead }

/-- What a block's words write to their buffers fits them, as far as it is known when an instance fires with an element's registers
(R158). -/
def fits (v : Elem) (blk : Nat) : Prop :=
  ∀ b, smFind v.blocks blk = some b → ∀ c < 8, unevenTo v.r.s b.instrs (v.r.cb.getD c 0) (24 + c) = false

/-- The element's matrix unit is free for an instance: no word of another one has started on it (R183). -/
def unitFree (s : State) (i : Inst) : Prop := ∀ j ∈ (s.elem s.cur.patch s.cur.el).insts, j.id ≠ i.id → j.mx = false

/-- A word waits, and its element or machine holds more of what it waits for than before: the state is `t`, in which its wait under a
timeout, if any, has ended. -/
def holdsMore (i : Instr) (s t : State) (x : Inst) : Prop :=
  exec i s = .next ((t.clearWait s.cur.patch s.cur.el x.id).startUnit s.cur.patch s.cur.el x.id)

/-- The element word whose turn it is faults: its instance does not commit, and its fault is reported (R36). -/
def faults (i : Instr) (s : State) (x : Inst) (c : Cause) (sub : Nat) (v : DWord) : Prop :=
  exec i s = .next ((s.dropRefusals s.cur.patch s.cur.el).elemFault s.cur.patch s.cur.el x c sub v)

/-- The machine once the element word whose turn it is has completed and left the machine and its instance as in `k`; what that
changes is `Obligations.WordDoneFrame`. -/
def wordDone (s : State) (k : Wk) : State :=
  (k.s.putInst s.cur.patch s.cur.el (passed s k)).moved s.cur.patch s.cur.el

/-- The word completes: it answers the state in which it is done with `k`. -/
def completes (i : Instr) (s : State) (k : Wk) : Prop := exec i s = .next (wordDone s k)

/-- The word that an instance stands at, as a fault reports it (R101). -/
def wordAt (k : Wk) : DWord :=
  match smFind (k.s.elem k.s.cur.patch k.s.cur.el).blocks k.i.blk with
  | some b => BitVec.ofNat 64 (b.words.getD k.i.pc 0).toNat
  | none => 0

/-- Lane `j` of a wide value, in lanes of `l` bits (R91, R156). -/
def laneAt (l : Nat) (u : Slot) (j : Nat) : Nat := u.toNat / 2 ^ (l * j) % 2 ^ l

/-- The instance may read s register `n`: nothing is still to fill it. -/
def readable (i : Inst) (n : Nat) : Prop := i.pending n = false ∧ i.owed n = false

/-- The instance with its registers changed. -/
def withRegs (k : Wk) (f : Regs → Regs) : Wk := { k with i := { k.i with r := f k.i.r } }

/-- The instance once the word has written s register `n` (R31). -/
def wroteS (k : Wk) (n : Nat) (v : Word) : Wk :=
  { k with i := { (k.i.disown n) with r := { k.i.r with s := k.i.r.s.set n v }, wS := noted k.i.wS n } }

/-- The instance once the word has written w register `n`. -/
def wroteW (k : Wk) (n : Nat) (v : Slot) : Wk :=
  { k with i := { k.i with r := { k.i.r with w := k.i.r.w.set n v }, wW := noted k.i.wW n } }

/-- The instance once the word has written mask `n`. -/
def wroteM (k : Wk) (n : Nat) (v : Word) : Wk :=
  { k with i := { k.i with r := { k.i.r with m := k.i.r.m.set n v }, wM := noted k.i.wM n } }

/-- The instance with an effect of its commit added, in block-word order (R32). -/
def withEff (k : Wk) (e : Eff) : Wk := { k with i := { k.i with effs := placed k.i.pc e k.i.effs } }

/-- The same with several effects of one word, in order. -/
def withEffs (k : Wk) (l : List Eff) : Wk := l.foldl withEff k

/-- The instance with its irrevocable operation noted; its result registers belong to it from here on (R27, R32). -/
def withIrr (k : Wk) (x : Irr) : Wk :=
  { k with i := { (x.dests.foldl (fun i r => i.disown r) k.i) with irr := .held x k.i.pc } }

/-- The instance remembers that it divided by zero (R52). -/
def withDz (k : Wk) (b : Bool) : Wk := { k with i := { k.i with dzSet := k.i.dzSet || b } }

/-- The lane width in force: the FUSE value committed when the instance fired (R156). -/
def laneBits (k : Wk) : Nat := 8 * 2 ^ k.i.fuseAt.toNat

/-- The 21 register integer operations of the element (R159). -/
def elementInteger : List ((BitVec 5 → BitVec 5 → BitVec 5 → BitVec 1 → BitVec 1 → BitVec 3 → Instr) × IntOp) :=
  [(Instr.add, .add), (Instr.sub, .sub), (Instr.mul, .mul), (Instr.mulh, .mulh), (Instr.mulhu, .mulhu), (Instr.div, .div),
   (Instr.divu, .divu), (Instr.rem, .rem), (Instr.remu, .remu), (Instr.and, .and), (Instr.or, .or), (Instr.xor, .xor),
   (Instr.sll, .sll), (Instr.srl, .srl), (Instr.sra, .sra), (Instr.slt, .slt), (Instr.sltu, .sltu), (Instr.min, .min),
   (Instr.max, .max), (Instr.adds, .adds), (Instr.subs, .subs)]

/-- The floating-point operations (R161), with the rounding field of those that have one. -/
def elementFloat : List ((BitVec 5 → BitVec 5 → BitVec 5 → BitVec 2 → BitVec 3 → BitVec 1 → BitVec 1 → BitVec 3 → Instr) × FpOp ×
    (BitVec 3 → Rm)) :=
  [(Instr.fadd, .add, rmOf), (Instr.fsub, .sub, rmOf), (Instr.fmul, .mul, rmOf), (Instr.fdiv, .div, rmOf), (Instr.fmac, .mac, rmOf),
   (fun d a b f _ w z k => Instr.fmin d a b f w z k, .min, fun _ => .rne), (fun d a b f _ w z k => Instr.fmax d a b f w z k, .max, fun _ => .rne),
   (fun d a b f _ w z k => Instr.feq d a b f w z k, .eq, fun _ => .rne), (fun d a b f _ w z k => Instr.flt d a b f w z k, .lt, fun _ => .rne),
   (fun d a b f _ w z k => Instr.fle d a b f w z k, .le, fun _ => .rne)]

/-- A value of `e` bits, sign- or zero-extended to 32 (R164). -/
def extended (e v : Nat) (signed : Bool) : Word := if signed then BitVec.ofInt 32 (BitVec.ofNat e v).toInt else BitVec.ofNat 32 v


/-- The fields of a time (R236). -/
def outer (t : DWord) : Nat := t.toNat / 2 ^ 32
def iter (t : DWord) : Nat := t.toNat / 2 ^ 16 % 2 ^ 16
def inner (t : DWord) : Nat := t.toNat % 2 ^ 16

/-- Every field of one time is at most the same field of the other (R236). -/
def before (t u : DWord) : Prop := outer t ≤ outer u ∧ iter t ≤ iter u ∧ inner t ≤ inner u

/-- A time from its fields. -/
def timeOf (o i n : Nat) : DWord := BitVec.ofNat 64 (o * 2 ^ 32 + i * 2 ^ 16 + n)

/-- adv_F(t): field by field, the least over F of the greater of the two; all ones where F is empty (R236). -/
def advanced (f : List DWord) (t : DWord) : DWord :=
  timeOf ((f.map (fun x => max (outer t) (outer x))).foldl min (2 ^ 32 - 1))
    ((f.map (fun x => max (iter t) (iter x))).foldl min (2 ^ 16 - 1))
    ((f.map (fun x => max (inner t) (inner x))).foldl min (2 ^ 16 - 1))

/-- The value of a frontier register that an instance sees: the one it has latched, or the element's, which it latches (R246). -/
def latched (k : Wk) (n : Nat) : Frontier × Wk :=
  match k.i.ftl.getD n none with
  | some f => (f, k)
  | none =>
    let f := (k.s.elem k.s.cur.patch k.s.cur.el).ft.getD n ⟨false, [0]⟩
    (f, { k with i := { k.i with ftl := k.i.ftl.set n (some f) } })

/-- The special registers that SPRD reads (R166): those of the instance's snapshot, and the live counters. -/
def specialReads : List (Nat × (Wk → Word)) :=
  let v : Wk → Elem := fun k => k.s.elem k.s.cur.patch k.s.cur.el
  [(0, fun k => BitVec.ofNat 32 k.i.r.fuse.toNat), (1, fun k => (v k).zskip), (2, fun k => (v k).bconf),
   (3, fun k => BitVec.ofNat 32 (v k).replay.length), (4, fun k => if k.i.r.dz then 1 else 0),
   (5, fun k => BitVec.ofNat 32 k.i.tag.toNat)] ++
  (List.range 8).flatMap (fun n => [(16 + 2 * n, fun k => BitVec.ofNat 32 ((k.i.r.cb.getD n 0).toNat % 2 ^ 32)),
    (17 + 2 * n, fun k => BitVec.ofNat 32 ((k.i.r.cb.getD n 0).toNat / 2 ^ 32))])

/-- Bits of a packed sub-element, and how many a lane holds, by width code (R24, R168). -/
def subWidth (w : BitVec 2) : Nat := [32, 8, 6, 4].getD w.toNat 32
def subsPerLane (w : BitVec 2) : Nat := [1, 4, 5, 8].getD w.toNat 1

/-- A byte saturated to `b` bits (R168). -/
def saturated (signed : Bool) (b v : Nat) : Nat :=
  if signed then (BitVec.ofInt b (max (-(2 ^ (b - 1))) (min (2 ^ (b - 1) - 1) (BitVec.ofNat 8 v).toInt))).toNat
  else min v (2 ^ b - 1)

/-- Byte `n` of two wide values in a row. -/
def byteOf (x y : Slot) (n : Nat) : Nat := if n < 32 then laneAt 8 x n else laneAt 8 y (n - 32)

/-- A word waits, on its own account: its instance notes when it began, and nothing else changes. -/
def waits (i : Instr) (s : State) (x : Inst) (cover : Option (List Nat)) : Prop :=
  exec i s = .next (s.putInst s.cur.patch s.cur.el { x with since := some (x.since.getD s.clock.ns), cover := cover })

/-- The element loads (R210, R211): size, sign extension, acquire. -/
def elementLoads : List ((BitVec 5 → BitVec 5 → BitVec 12 → BitVec 3 → Instr) × Nat × Bool × Bool) :=
  [(Instr.ldI8, 1, true, false), (Instr.ldB8, 1, false, false), (Instr.ldI16, 2, true, false), (Instr.ldB16, 2, false, false),
   (Instr.ldB32, 4, false, false), (Instr.ldB64, 8, false, false), (Instr.ldW, 32, false, false), (Instr.ldAcqB32, 4, false, true),
   (Instr.ldAcqB64, 8, false, true)]

/-- The element stores (R210, R211): size, release. -/
def elementStores : List ((BitVec 5 → BitVec 5 → BitVec 12 → BitVec 3 → Instr) × Nat × Bool) :=
  [(Instr.stB8, 1, false), (Instr.stB16, 2, false), (Instr.stB32, 4, false), (Instr.stB64, 8, false), (Instr.stW, 32, false),
   (Instr.stRelB32, 4, true), (Instr.stRelB64, 8, true)]

/-- The accesses of a load: the register that each fills, where it starts and its size; a w register takes four of 8 bytes, `4 d + q`
being quarter q of w d (R208). -/
def loadParts (size d : Nat) : List (Nat × Nat × Nat) :=
  if size = 32 then [(4 * d, 0, 8), (4 * d + 1, 8, 8), (4 * d + 2, 16, 8), (4 * d + 3, 24, 8)] else [(d, 0, size)]

/-- The registers that an access of a size fills: s registers by number, w registers from 16 (R210). -/
def filled (size d : Nat) : List Nat := if size = 32 then [16 + d] else if size = 8 then [d, d + 1] else [d]

/-- A word of the memory family reads its pointer in s[a + 1]:s[a] and finds it good for `n` bytes at an alignment. -/
def points (k : Wk) (a : Nat) (off : Int) (align n : Nat) (who : Asker) (pl : Place) (eff : DWord) : Prop :=
  ∃ v, gives (rdPair a) k v k ∧ gives (wPointer v off align n who) k (pl, eff) k

/-- A value of 32 or 64 bits in s registers, zero-extended. -/
def holdsIn (k : Wk) (wide : BitVec 1) (n : Nat) (x : DWord) : Prop :=
  if wide = 1 then gives (rdPair n) k x k else ∃ y, gives (rdS n) k y k ∧ x = BitVec.ofNat 64 y.toNat

/-- The eight atomics of an element (R217). -/
def elementAtomics : List ((BitVec 5 → BitVec 5 → BitVec 5 → BitVec 1 → BitVec 1 → BitVec 3 → Instr) × AtomKind) :=
  [(Instr.aadd, .add), (Instr.amin, .min), (Instr.amax, .max), (Instr.aand, .and), (Instr.aor, .or), (Instr.axor, .xor), (Instr.aswp, .swap),
   (Instr.acas, .cas)]

/-- The place words on an existing place (R222): acquire, release, whether d is a source, and whether d takes a result. -/
def placeWords : List ((BitVec 5 → BitVec 5 → BitVec 5 → BitVec 3 → Instr) × PlaceKind × Bool × Bool × Bool × Bool) :=
  [(Instr.pwait, .pwait, true, false, false, true), (Instr.pgive, .pgive, false, false, true, false),
   (Instr.pswap, .pswap, false, false, true, false), (Instr.paban, .paban, false, false, false, false),
   (Instr.prel, .prel, false, true, false, true)]

/-- The engine words (R225) and the bytes of their blocks. -/
def engineWords : List ((BitVec 5 → BitVec 5 → BitVec 3 → Instr) × EngKind × Nat) :=
  [(Instr.cpy, .cpy, 64), (Instr.gath, .gath, 64), (Instr.scat, .scat, 64), (Instr.trig, .trig, 128), (Instr.coll, .coll, 128),
   (Instr.flagst, .flagst, 64)]

/-- The number of an element's context in its load (R219). -/
def contextOf (k : Wk) : Nat := k.s.lpOf k.s.cur.patch * 64 + k.s.cur.el

/-- The status of an arrangement word (R253): 0x0B in bits [7:0] where a sum was closed, its detail above. -/
def statusOf (ovf : Bool) (n : Nat) : Word := BitVec.ofNat 32 (256 * n + (if ovf then 0x0B else 0))

/-- Units as a list whose last one carries LAST (R260, R261, R262). -/
def lastMarked {α : Type} (f : α → Nat → Slot) (l : List α) : List Slot :=
  ((List.range l.length).zip l).map (fun x => f x.2 (if x.1 + 1 = l.length then 1 else 0))

/-- The WRED words (R264). -/
def witnessWords : List ((BitVec 2 → BitVec 5 → BitVec 5 → BitVec 4 → BitVec 1 → Instr) × WredKind) :=
  [(Instr.rmax, .max), (Instr.rmin, .min), (Instr.rclmp, .clamp), (Instr.rmed, .med), (Instr.rsats, .sats)]

/-- The patch gives the full rate, or the word's format is not one that this needs (R444). -/
def admits (k : Wk) (wideFormat : Bool) : Prop := wideFormat = true → (k.s.patch k.s.cur.patch).fullRate = true

/-- The element of a tile at a row and a column: `z` bytes, row by row of `n` (R181). -/
def tileElem (z n : Nat) (bs : List Byte) (r c : Nat) : Nat := numAt bs ((n * r + c) * z) z

/-- The sum of the products of row `r` of one tile of 64 × 64 bytes and column `c` of another, with the value that a byte stands for. -/
def byteDot (val : Nat → Int) (a b : List Byte) (r c : Nat) : Int :=
  ((List.range 64).map (fun m => val (tileElem 1 64 a r m) * val (tileElem 1 64 b m c))).sum

/-- The value of a byte of fmt 6 or 7. -/
def byteValue (f v : Nat) : Int := if f = 6 then (BitVec.ofNat 8 v).toInt else v

/-- The exponent bytes of an array of 128 as scale tokens with BTAG = tag · 256 + 128 t + n (R61, R204). -/
def tokens (t tg : Nat) (bs : List Byte) : List Word :=
  (List.range 128).map (fun n => BitVec.ofNat 32 ((tg * 256 + 128 * t + n) % 2 ^ 20 * 256 + (bs.getD n 0).toNat))

/-- The window of a reduction at row `i` and column `j` of its result, row by row (R265). -/
def window (rows : List (List Nat)) (lh lw i j : Nat) : List Nat :=
  (List.range (2 ^ lh)).flatMap (fun y => (List.range (2 ^ lw)).map (fun x => (rows.getD (i * 2 ^ lh + y) []).getD (j * 2 ^ lw + x) 0))

/-- Slots of a queue that no instance has reserved and that fit a tag, oldest first (R29). -/
def freeSlots (tag : Option (BitVec 12)) (l : List QUnit) : List QUnit :=
  l.filter (fun u => u.owner.isNone && (match tag with | none => true | some x => x == uTag u.u))

/-- The station entry of a block that a standing block with a tag-match trigger has matched in part (R30). -/
def partly (v : Elem) (blk : Block) (b : Nat) (tag : BitVec 12) : Option Inst :=
  if blk.tm then v.insts.find? (fun i => i.st == .partly && i.blk == b && i.tag == tag) else none

/-- A value is the fold of a list from its first element on (R422). -/
def folds (f : Nat → Nat → Nat) (l : List Nat) (v : Nat) : Prop := ∃ x r, l = x :: r ∧ v = r.foldl f x

/-- The members' values in ring order for a chunk: that of the rank after the chunk's number first (R422). -/
def ringOrder (xs : List Nat) (c : Nat) : List Nat := (List.range xs.length).map (fun i => xs.getD ((c + 1 + i) % xs.length) 0)

/-- What the `i`-th group of `2^k` ranks has combined: its lower half with its upper half (R422). -/
def halving (f : Nat → Nat → Nat) (xs : List Nat) : Nat → Nat → Nat
  | 0, i => xs.getD i 0
  | k + 1, i => f (halving f xs k (2 * i)) (halving f xs k (2 * i + 1))

/-- The formats, each with its canonical NaN (R46), its largest finite magnitude and its infinity, in whose place E4M3 has a NaN (R56). -/
def formats : List (FFmt × Nat × Nat × Nat) :=
  [(fp64, 0x7FF8000000000000, 0x7FEFFFFFFFFFFFFF, 0x7FF0000000000000), (fp32, 0x7FC00000, 0x7F7FFFFF, 0x7F800000), (fp16, 0x7E00, 0x7BFF, 0x7C00),
   (bf16, 0x7FC0, 0x7F7F, 0x7F80), (e4m3, 0x7F, 0x7E, 0x7F), (e5m2, 0x7E, 0x7B, 0x7C)]

/-- `k` units of `u` are the magnitude `x` of a value with sign `s` rounded by a mode (R54). -/
def rounds (rm : Rm) (s : Bool) (k x u : Nat) : Prop :=
  k * u < x + u ∧ x < k * u + u ∧ match rm with
    | .rne | .satf => 2 * (k * u) ≤ 2 * x + u ∧ 2 * x ≤ 2 * (k * u) + u ∧
        (2 * (k * u) = 2 * x + u ∨ 2 * x = 2 * (k * u) + u → k % 2 = 0)
    | .rtz => k * u ≤ x
    | .rup => if s then k * u ≤ x else x ≤ k * u
    | .rdn => if s then x ≤ k * u else k * u ≤ x

/-- a · 2^p is greater than b · 2^g. -/
def greater (a : Nat) (p : Int) (b : Nat) (g : Int) : Prop :=
  b * 2 ^ (g - min p g).toNat < a * 2 ^ (p - min p g).toNat

/-- A decoded value is k · 2^q with a sign. -/
def isValue (v : FV) (s : Bool) (k : Nat) (q : Int) : Prop :=
  ∃ m e, v = .fin s m e ∧ m * 2 ^ (e - min e q).toNat = k * 2 ^ (q - min e q).toNat

/-- The sum of two finite values, rounded once; an exact zero has its sign by R58. -/
def summed (f : FFmt) (rm : Rm) (s : Bool) (m : Nat) (e : Int) (t : Bool) (n : Nat) (g : Int) : Nat :=
  let sign := fun (b : Bool) => (if b then -1 else 1 : Int)
  let v := sign s * (m * 2 ^ (e - min e g).toNat : Nat) + sign t * (n * 2 ^ (g - min e g).toNat : Nat)
  if v = 0 then (if (if m = 0 ∧ n = 0 ∧ s = t then s else rm == .rdn) then 2 ^ (f.width - 1) else 0)
  else f.round rm (decide (v < 0)) v.natAbs (min e g) false

/-- A handle with TAKEP, bits [63:49], and FILLP, bits [48:34], moved on by some slots modulo 2^15 (R17). -/
def movedBuffer (h : DWord) (take fill : Nat) : DWord :=
  BitVec.ofNat 64 ((h.toNat / 2 ^ 49 + take) % 2 ^ 15 * 2 ^ 49 + (h.toNat / 2 ^ 34 % 2 ^ 15 + fill) % 2 ^ 15 * 2 ^ 34 + h.toNat % 2 ^ 34)

/-- The patch runs, and neither it nor its element is frozen. -/
def running (s : State) (p e : Nat) : Prop :=
  (s.patch p).running = true ∧ (s.patch p).frozen = false ∧ (s.elem p e).frozen = false

/-- A port of a running patch, itself not frozen. -/
def portRuns (s : State) (p k : Nat) : Prop :=
  (s.patch p).running = true ∧ (s.patch p).frozen = false ∧ (s.port p k).frozen = false

/-- Every byte of memory, and whether each word is full, is as before. -/
def sameMemory (s t : State) : Prop := t.mem = s.mem

/-- Control words, field by field as R74 to R84 lay them out, and what each stands for. -/
def controlWords : List (BitVec 32 × Instr) :=
  [(0b000001#6 ++ 3#5 ++ 1#5 ++ 2#5 ++ (0#6 ++ 13#5), .seqDiv 3 1 2), (0b000010#6 ++ 1#5 ++ 4#5 ++ 5#5 ++ 3#11, .kcmp 1 4 5 3),
   (0b000011#6 ++ 0#15 ++ (4#3 ++ 0#3 ++ 2#5), .seqFence 4), (0b000011#6 ++ 6#5 ++ 0#10 ++ 4#11, .tscr 6),
   (0b000100#6 ++ 7#5 ++ 8#5 ++ 9#5 ++ 0#11, .launch 7 8 9), (0b001000#6 ++ 3#5 ++ 1#5 ++ 0xFFFF#16, .seqAddi 3 1 0xFFFF),
   (0b010011#6 ++ 0#5 ++ 3#5 ++ (2#8 ++ 7#8), .trap 3 2 7), (0b011010#6 ++ 3#5 ++ 4#5 ++ 0x0006#16, .lh 3 4 6),
   (0b100000#6 ++ 1#5 ++ 2#5 ++ 0xFFFE#16, .beq 1 2 0xFFFE), (0b100110#6 ++ 2#5 ++ 0#5 ++ 5#16, .bkt 2 5), (0b101001#6 ++ 0x3FFFFFF#26, .jal 0x3FFFFFF),
   (0b101100#6 ++ 1#2 ++ 0#1 ++ 100#11 ++ 3#8 ++ 0#4, .loop 1 100 3), (0b101100#6 ++ 2#2 ++ 1#1 ++ (0#6 ++ 9#5) ++ 7#8 ++ 0#4, .loopr 2 9 7),
   (0b110000#6 ++ 4#5 ++ 6#5 ++ (1#2 ++ 1#2 ++ 1#1 ++ 0#1) ++ (3#3 ++ 0#7), .ldm 4 6 1 1 1 3),
   (0b110010#6 ++ 4#5 ++ 6#5 ++ (7#3 ++ 1#1 ++ 3#2) ++ (2#3 ++ 0#7), .seqAcas 4 6 1 3 2),
   (0b110011#6 ++ 0#5 ++ 2#5 ++ 0#6 ++ (0#6 ++ 5#4), .sbind 2 5), (0b110100#6 ++ 3#5 ++ 2#5 ++ 1#6 ++ 0#10, .cfgpat 3 2)]

/-- Element words, field by field as R86 to R97 lay them out, and what each stands for. -/
def elementWords : List (BitVec 32 × Instr) :=
  [(0x02#7 ++ 3#5 ++ 1#5 ++ 2#5 ++ 0#5 ++ (0#1 ++ 0#1 ++ 0#3), .sub 3 1 2 0 0 0), (0x16#7 ++ 3#5 ++ 1#5 ++ 2#5 ++ (1#2 ++ 2#3) ++ (1#1 ++ 1#1 ++ 5#3), .fadd 3 1 2 1 2 1 1 5),
   (0x22#7 ++ 20#5 ++ 16#5 ++ 2#5 ++ 4#5 ++ 0#5, .sel 20 16 2 4 0 0 0), (0x36#7 ++ 4#5 ++ 2#5 ++ 0#15, .frd 4 2), (0x39#7 ++ 1#5 ++ 2#5 ++ 4#5 ++ 7#5 ++ 0#5, .ains 1 2 4 7),
   (0x41#7 ++ 2#5 ++ 4#5 ++ 6#5 ++ (1#1 ++ 1#1 ++ 6#3) ++ (0#2 ++ 3#3), .aswp 2 4 6 1 1 3), (0x48#7 ++ 3#5 ++ 1#5 ++ 0x7FFF#15, .addi 3 1 0x7FFF),
   (0x5C#7 ++ 3#5 ++ 4#5 ++ 0xFFF#12 ++ 2#3, .ldB32 3 4 0xFFF 2), (0x69#7 ++ 2#5 ++ 4#5 ++ 8#12 ++ 1#3, .ldfe 2 4 8 1),
   (0x70#7 ++ 1#2 ++ 24#5 ++ 25#5 ++ 2#4 ++ (0#4 ++ 1#1 ++ 0#1 ++ 3#3), .mma 1 24 25 2 1 0 3), (0x79#7 ++ 0#2 ++ 4#5 ++ 25#5 ++ 2#4 ++ (3#3 ++ 0#1 ++ 0#5), .rmed 0 4 25 2 0),
   (0x7C#7 ++ 0#25, .commit), (0x7D#7 ++ 5#4 ++ (1#1 ++ 3#4) ++ (1#2 ++ 0#14), .br 5 1 3 1 0)]

/-- Switch words, field by field as R98 and R99 lay them out, with their extension words, and what each stands for. -/
def switchWords : List (BitVec 16 × Option Nat × Instr) :=
  [(1#3 ++ 3#3 ++ 4#3 ++ 2#7, none, .circ 3 4 2), (2#3 ++ 0#3 ++ 2#3 ++ 0#7, some 0x1007, .slot 0 2 0 16 7), (4#3 ++ 0#3 ++ 1#3 ++ 3#7, none, .width 1 3),
   (5#3 ++ 7#3 ++ 0#3 ++ 0#7, none, .scale 7 0), (7#3 ++ 0#13, none, .endList)]

end Sys2Proof.Terms

open Sys2Proof Sys2Proof.Machine

/-- Words written out from the spec's encodings decode to what they stand for. -/
def Obligations.DecodingIsRight : Prop :=
  (∀ x ∈ Terms.controlWords, (decodeCtl x.1.toNat).toOption = some x.2) ∧ (∀ x ∈ Terms.elementWords, (decodeElem x.1.toNat).toOption = some x.2) ∧
  (∀ x ∈ Terms.switchWords, (decodeSwitch x.1.toNat x.2.1).toOption = some x.2.2) ∧ (decodeCtl 0).toOption = none ∧ (decodeCtl 0xFFFFFFFF).toOption = none

/-- A step takes the next turn of the agenda, lets its cycles pass, and runs what that turn has next: `exec` of the decoded
word. A sequencer's turn notes the word for its loop buffer, the load's start and that the word has begun first. What follows a
move in its own step is `State.follow`: it does nothing where no trigger is armed, no packet or collective waits, no failed patch is
to be fenced and no load is there. An instance's word runs where it is its turn by R34; a later word of its block runs ahead of those
that wait where it needs nothing of them, and only where it completes or faults at once (R31; log 22). -/
def Obligations.StepRunsTheDecodedWord : Prop :=
  ∀ (s : State) (w : Nat) (rest : List Turn),
    let runs := fun (r : Host.Outcome State Fault Refusal) => ∃ t, r = .next t ∧ step s = .next t.follow
    let begun := fun (c : Cur) => ({ s with agenda := rest, clock := s.clock.advance w, cur := c } : State)
    (∀ p, s.agenda = ⟨w, .seq p⟩ :: rest →
      let u := begun ⟨p, 0, 0⟩
      let q := u.seq p
      let t := ((u.started p).keepWord p q.pc.toNat).begin p
      (u.issues p = false → step s = .next u.follow) ∧
      (u.issues p = true → q.pc ≠ 0x10000 → ((u.patch p).reports = [] ∨ q.xt = true ∨ q.begun = true) → q.wf = false →
        (q.holder q.pc.toNat = none → q.fetch q.pc.toNat = Terms.storeValue q q.pc.toNat 4) ∧
        (∀ i, decodeCtl (q.fetch q.pc.toNat) = .ok i → runs (exec i t)) ∧
        (∀ e, decodeCtl (q.fetch q.pc.toNat) = .error e → runs (exec (.reservedControlWord (BitVec.ofNat 32 (q.fetch q.pc.toNat))) t) ∧
          step s = .next (t.seqFault p t.seqAt .illop 0 (BitVec.ofNat 64 (q.fetch q.pc.toNat % 2 ^ 32))).follow)) ∧
      (u.issues p = true → q.pc ≠ 0x10000 → (u.patch p).reports ≠ [] → q.xt = false → (q.begun = false ∨ q.wf = true) →
        runs (exec (.elementFaultDelivery p) u)) ∧
      (∃ h, t.patch p = { u.patch p with seq := { q with held := h, begun := true } }) ∧ (∀ n, n ≠ p → t.patch n = u.patch n) ∧
      { t with patches := u.patches, loads := u.loads, free := u.free } = u) ∧
    (∀ p e n, s.agenda = ⟨w, .word p e n⟩ :: rest →
      ((begun ⟨p, e, n⟩).itsTurn p e n = true → ∀ wd i, (begun ⟨p, e, n⟩).nextWord p e n = some wd → decodeElem wd.toNat = .ok i →
        runs (exec i (begun ⟨p, e, n⟩))) ∧
      ((begun ⟨p, e, n⟩).itsTurn p e n = false → step s = .next (begun ⟨p, e, n⟩).follow)) ∧
    (∀ p e n k, s.agenda = ⟨w, .ahead p e n k⟩ :: rest →
      let u := begun ⟨p, e, n⟩
      ∀ i, (u.elem p e).inst n = some i →
        (u.itsTurn p e n = true → (u.elem p e).mayPass i k = true → ∀ b wd j, smFind (u.elem p e).blocks i.blk = some b →
          b.words[k]? = some wd → decodeElem wd.toNat = .ok j →
          ∃ t, exec j (u.putInst p e (Terms.standsAt i k)) = .next t ∧ step s = .next ((u.aheadTo t p e i k).getD u).follow) ∧
        ((u.itsTurn p e n = false ∨ (u.elem p e).mayPass i k = false) → step s = .next u.follow)) ∧
    (∀ p e n a, s.agenda = ⟨w, .operand p e n a⟩ :: rest → step s = .next ((begun ⟨p, e, n⟩).operandTurn p e n a).follow) ∧
    (∀ p k a, s.agenda = ⟨w, .portWord p k a⟩ :: rest → step s = .next ((begun ⟨p, 0, 0⟩).portWordTurn p k a).follow) ∧
    (∀ p e n, s.agenda = ⟨w, .switch p e n⟩ :: rest → ∀ i, (begun ⟨p, e, 0⟩).switchWord p e n = some i → runs (exec i (begun ⟨p, e, 0⟩))) ∧
    (∀ i, s.agenda = ⟨w, .event i⟩ :: rest → i.kind = .event → i.wf = true → (∀ x, i ≠ .reservedControlWord x) → runs (exec i (begun s.cur))) ∧
    ((∀ x ∈ s.patches, x.2.triggers = [] ∧ x.2.calBad = false) → (∀ x ∈ s.queues, x.2.head = none ∧ x.2.staged = none) → s.colls = [] →
      s.loads = [] → s.follow = s)

/-- What `State.reset` holds, by the reset columns of the state tables (R12, R16, R18, R19). That memory outside the vaults, host memory
included, reads 0 at every address is the model's choice (DESIGN CHOICE, log 7). -/
def Obligations.ResetState : Prop :=
  let s := State.reset
  s.mem.wf = true ∧ (∀ a, s.mem.get a = 0 ∧ s.mem.isFull a = false) ∧ (∀ n, (s.part n).exists_ = false) ∧
  (∀ n, (s.queue n).st = .stopped ∧ (s.queue n).weight = 1 ∧ (s.queue n).pri = 0) ∧ s.device.dstate = .reset ∧ s.loads = [] ∧
  (∀ p, let q := s.seq p
    q.g = List.replicate 32 0 ∧ q.pc = 0 ∧ q.lc = [0, 0, 0] ∧ q.lb = [0, 0, 0] ∧ q.le = [0, 0, 0] ∧ q.k = 0 ∧ q.xpc = 0 ∧ q.xcause = 0 ∧
    q.xval = 0 ∧ q.xvalh = 0 ∧ q.xinfo = 0 ∧ q.dz = false ∧ q.wf = false ∧ q.xt = false ∧ q.vhash = 0 ∧ ∀ a, cellGet q.store a = 0) ∧
  (∀ p e, let v := s.elem p e
    v.r.s = List.replicate 16 0 ∧ v.r.w = List.replicate 16 0 ∧ v.r.m = List.replicate 8 0xFFFFFFFF ∧ v.r.cb = List.replicate 8 0 ∧
    v.r.fuse = 2 ∧ v.r.dz = false ∧ (∀ t < 4, ∀ j, smGet 0 (v.r.acc.getD t []) j = 0) ∧ v.q = List.replicate 4 [] ∧
    v.o.length = 4 ∧ (∀ x ∈ v.o, x.buf = [] ∧ x.runs = [] ∧ x.emitter = [] ∧ x.caps = []) ∧ v.ft = List.replicate 4 ⟨false, [0]⟩ ∧
    v.zskip = 0 ∧ v.bconf = 0 ∧ v.replay = [] ∧ v.scb = [] ∧ v.wgen = 0 ∧ v.insts = [])

/-- Decode and encode agree on every word of the three kinds. -/
def Obligations.DecodeAndEncodeAgree : Prop :=
  ∀ i : Instr, i.wf = true → i.kind ≠ .event → decodeBytes i.kind (encode i) = .ok (i, [])

/-- No step ends in a fault or a refusal of the model, from any state. -/
def Obligations.EveryStepGoesOn : Prop := (∀ (i : Instr) (s : State), ∃ t, exec i s = .next t) ∧ ∀ s : State, ∃ t, step s = .next t

/-- The canonical form of backing memory is kept by every step. -/
def Obligations.MemoryStaysCanonical : Prop := ∀ s t : State, s.mem.wf = true → step s = .next t → t.mem.wf = true

/-- At the four lane widths every integer operation gives the exact result, wrapped (R49), clamped (R50) or as the table of R51
fixes it, and DZ is raised exactly by a division whose divisor is 0. -/
def Obligations.IntegerOperations : Prop :=
  ∀ n ∈ [8, 16, 32, 64], ∀ (op : IntOp) (x y : BitVec n),
    intOp op x y = Terms.intValue op x y ∧ intDz op y = Terms.dividesByZero op y ∧
    (y ≠ 0 → (intOp IntOp.div x y) * y + intOp IntOp.rem x y = x)

/-- Writing a g register changes it alone; a write to g0 is discarded and g0 reads 0 (R12, R109); a pair is its even register,
the low half, and the next one, the high half (R84). -/
def Obligations.SequencerRegisters : Prop :=
  ∀ (q : Seq) (r r' : BitVec 5) (v : Word) (w : DWord), Terms.Shaped q →
    (q.put r v).get r' = (if r' = r ∧ r ≠ 0 then v else q.get r') ∧ q.get 0 = 0 ∧
    Terms.Shaped (q.put r v) ∧ { q.put r v with g := q.g } = q ∧
    (r.toNat % 2 = 0 → q.pair r = BitVec.ofNat 64 ((q.get (r + 1)).toNat * 2 ^ 32 + (q.get r).toNat)) ∧
    (r.toNat % 2 = 0 → r ≠ 0 → (q.putPair r w).pair r = w ∧ ((q.putPair r w).get r).toNat = w.toNat % 2 ^ 32 ∧
      ((q.putPair r w).get (r + 1)).toNat = w.toNat / 2 ^ 32 ∧
      ∀ t, t ≠ r → t ≠ r + 1 → (q.putPair r w).get t = q.get t)

/-- Each ALU word completes with gd ← ga op gb, sets SQST.DZ where it divided by zero, and changes nothing else (R117, R52).
Each immediate word completes with gd ← ga op imm, the immediate sign- or zero-extended as R75 says, and changes nothing else;
LUI gives imm × 65,536 (R118). KCMP gives its predicate the truth of the condition; the other predicates and everything else
stand (R119, R79). -/
def Obligations.SequencerArithmeticWords : Prop :=
  (∀ row ∈ ([(Instr.seqAdd, .add), (Instr.seqSub, .sub), (Instr.seqAnd, .and), (Instr.seqOr, .or), (Instr.seqXor, .xor),
        (Instr.seqSll, .sll), (Instr.seqSrl, .srl), (Instr.seqSra, .sra), (Instr.seqSlt, .slt), (Instr.seqSltu, .sltu),
        (Instr.seqMul, .mul), (Instr.seqMulh, .mulh), (Instr.seqMulhu, .mulhu), (Instr.seqDiv, .div), (Instr.seqDivu, .divu),
        (Instr.seqRem, .rem), (Instr.seqRemu, .remu), (Instr.seqMin, .min), (Instr.seqMax, .max), (Instr.minu, .minu),
        (Instr.maxu, .maxu), (Instr.seqAdds, .adds), (Instr.seqSubs, .subs)] :
        List ((BitVec 5 → BitVec 5 → BitVec 5 → Instr) × IntOp)),
      ∀ (d a b : BitVec 5) (s : State),
        let q := Terms.here s
        exec (row.1 d a b) s = .next (Terms.completed s
          { q.put d (Terms.intValue row.2 (q.get a) (q.get b)) with
            dz := q.dz || Terms.dividesByZero row.2 (q.get b) })) ∧
  ((∀ row ∈ ([(Instr.seqAddi, .add, true), (Instr.seqAndi, .and, false), (Instr.seqOri, .or, false), (Instr.seqXori, .xor, false),
        (Instr.seqSlti, .slt, true), (Instr.sltiu, .sltu, true)] : List ((BitVec 5 → BitVec 5 → BitVec 16 → Instr) × IntOp × Bool)),
      ∀ (d a : BitVec 5) (i : BitVec 16) (s : State),
        let q := Terms.here s
        exec (row.1 d a i) s = .next (Terms.completed s (q.put d (Terms.intValue row.2.1 (q.get a)
          (if row.2.2 then BitVec.ofInt 32 i.toInt else BitVec.ofNat 32 i.toNat))))) ∧
    (∀ row ∈ ([(Instr.seqSlli, .sll), (Instr.seqSrli, .srl), (Instr.seqSrai, .sra)] :
        List ((BitVec 5 → BitVec 5 → BitVec 5 → Instr) × IntOp)),
      ∀ (d a i : BitVec 5) (s : State),
        let q := Terms.here s
        exec (row.1 d a i) s = .next (Terms.completed s (q.put d (Terms.intValue row.2 (q.get a) (BitVec.ofNat 32 i.toNat))))) ∧
    ∀ (d : BitVec 5) (i : BitVec 16) (s : State),
      exec (.lui d i) s = .next (Terms.completed s ((Terms.here s).put d (BitVec.ofNat 32 (i.toNat * 65536))))) ∧
  (∀ row ∈ ([(0, .eq), (1, .ne), (2, .lt), (3, .ge), (4, .ltu), (5, .geu)] : List (BitVec 3 × Cond)),
      ∀ (k : BitVec 2) (a b : BitVec 5) (s : State),
        let q := Terms.here s
        ∃ ks : BitVec 4, exec (.kcmp k a b row.1) s = .next (Terms.completed s { q with k := ks }) ∧
          (ks.getLsbD k.toNat = true ↔ Terms.holds row.2 (q.get a) (q.get b)) ∧
          ∀ n < 4, n ≠ k.toNat → ks.getLsbD n = q.k.getLsbD n)

/-- The frame of every control word whose effect `Terms.completed` or `State.setSeq` states: its own sequencer becomes the one
stated; the other patches, its own patch's elements, ports and reports, every byte of memory, its full/empty bits, the accesses
in flight and all the rest of the machine are unchanged. -/
def Obligations.CompletedFrame : Prop :=
  ∀ (s : State) (p : Nat) (q : Seq),
    let t := s.setSeq p q
    t.seq p = q ∧ (∀ n, n ≠ p → t.patch n = s.patch n) ∧ { t.patch p with seq := s.seq p } = s.patch p ∧
    (∀ e, t.elem p e = s.elem p e) ∧ (∀ k, t.port p k = s.port p k) ∧
    (∀ a, t.mem.get a = s.mem.get a ∧ t.mem.isFull a = s.mem.isFull a) ∧ { t with patches := s.patches } = s

/-- The check for address `b` over some levels, innermost first: those active whose le is `b` count down until one is left with
a count that is not 0, and pc takes its lb; with no such level pc is `b` + 4. Nothing else of the sequencer changes, but the
fetch's own records: the old words that the loop buffer keeps, and which word was last. A word that completes at `a` makes the
check for `a` over all three levels (R127). LOOP and LOOPR set the level's lb, le and lc and complete; with a count of 0 the
body is skipped, and the check of R127 is made for its end (R125). LBRK clears the counts of its level and the higher ones and
makes the check for the level's end over the levels below (R129). R126 lists the misuses, each ILLOP with sub-cause 2; their
XVAL is the model's free value (log 8). -/
def Obligations.LoopEndCheck : Prop :=
  (∀ (q : Seq) (a b : Half), Terms.Shaped q → q.finish a = q.finishAt a a [2, 1, 0] ∧
      ∀ ls ∈ [[2, 1, 0], [1, 0], [0], []],
      let ends : Nat → Bool := fun n => q.lc.getD n 0 != 0 && q.le.getD n 0 == b
      let back := ls.find? (fun n => ends n && q.lc.getD n 0 != 1)
      let t := q.finishAt a b ls
      t.pc = (match back with
        | some n => (q.lb.getD n 0).setWidth 17
        | none => BitVec.ofNat 17 (b.toNat + 4)) ∧
      (∀ n < 3, t.lc.getD n 0 =
        if n ∈ ls ∧ ends n = true ∧ (∀ m, back = some m → m ≤ n) then q.lc.getD n 0 - 1 else q.lc.getD n 0) ∧
      Terms.Shaped t ∧ t.last = a ∧ t.begun = false ∧ { t with pc := q.pc, lc := q.lc, held := q.held, last := q.last, begun := q.begun } = q) ∧
  (∀ (s : State) (l : BitVec 2) (c : BitVec 11) (g : BitVec 5) (n : BitVec 8), l.toNat < 3 → Terms.Shaped (Terms.here s) →
      let q := Terms.here s
      let a := s.seqAt
      let active : Nat → Prop := fun j => q.lc.getD j 0 ≠ 0
      let e := a.toNat + 4 * (n.toNat + 1)
      let illop := { s with free := s.free + 1 }.seqFault s.cur.patch a .illop 2 (Config.freeDWord s.free)
      let misuse := (∃ j < 3, l.toNat ≤ j ∧ active j) ∨ (∃ j < l.toNat, active j ∧ (q.le.getD j 0).toNat < e) ∨ 65536 ≤ e
      (∀ row ∈ [(Instr.loop l c n, BitVec.ofNat 32 c.toNat), (Instr.loopr l g n, q.get g)],
        let o := Terms.opened q l.toNat (BitVec.ofNat 16 (a.toNat + 4)) (BitVec.ofNat 16 e) row.2
        (misuse → exec row.1 s = .next illop) ∧
        (¬ misuse → row.2 ≠ 0 → exec row.1 s = .next (Terms.completed s o)) ∧
        (¬ misuse → row.2 = 0 → exec row.1 s =
          .next (s.setSeq s.cur.patch (o.finishAt a (BitVec.ofNat 16 e) [2, 1, 0])))) ∧
      (¬ active l.toNat → exec (.lbrk l) s = .next illop) ∧
      (active l.toNat → exec (.lbrk l) s = .next (s.setSeq s.cur.patch
        ({ q with lc := (q.lc.take l.toNat) ++ List.replicate (3 - l.toNat) 0 }.finishAt a (q.le.getD l.toNat 0)
          ([2, 1, 0].filter (fun j => decide (j < l.toNat)))))))

/-- A branch that is not taken completes, with no change of its own; one that is taken, to an aligned address inside the store,
takes pc there and ends every level whose le is its address (R120, R128). J, JAL and JALR, to an aligned address inside the
store: pc takes the target, the link register the address of the next word; JALR forms its target from the old ga (R121, R128).
A taken branch or jump whose target lies outside the sequencer store raises PERM, sub-cause 2; one whose target is not a
multiple of 4 raises ALIGN; XVAL is the target (the first paragraph of R122). That a target which is both outside the store and
misaligned raises PERM is the model's choice (DESIGN CHOICE, log 58). What a fault leaves is `TrapEntry`. Where pc has
reached 0x1_0000 the sequencer fetches nothing and takes PERM, sub-cause 2, with XPC the word that led there. -/
def Obligations.BranchAndJumpWords : Prop :=
  (∀ row ∈ Terms.branches, ∀ (a b : BitVec 5) (o : BitVec 16) (s : State),
      let q := Terms.here s
      let t := Terms.target s.seqAt o.toInt
      (¬ row.2 q a b → exec (row.1 q a b o) s = .next (Terms.completed s q)) ∧
      (row.2 q a b → t.toNat < 65536 → t.toNat % 4 = 0 →
        ∃ q', exec (row.1 q a b o) s = .next (s.setSeq s.cur.patch q') ∧ Terms.JumpedTo q s.seqAt t q')) ∧
  (∀ (s : State) (o : BitVec 26) (d a : BitVec 5) (i : BitVec 16),
      let q := Terms.here s
      let link : Word := BitVec.ofNat 32 (s.seqAt.toNat + 4)
      let t := Terms.target s.seqAt o.toInt
      let u := q.get a + BitVec.ofInt 32 i.toInt
      (t.toNat < 65536 → t.toNat % 4 = 0 →
        (∃ q', exec (.j o) s = .next (s.setSeq s.cur.patch q') ∧ Terms.JumpedTo q s.seqAt t q') ∧
        (∃ q', exec (.jal o) s = .next (s.setSeq s.cur.patch q') ∧ Terms.JumpedTo (q.put 31 link) s.seqAt t q')) ∧
      (u.toNat < 65536 → u.toNat % 4 = 0 →
        ∃ q', exec (.jalr d a i) s = .next (s.setSeq s.cur.patch q') ∧ Terms.JumpedTo (q.put d link) s.seqAt u q')) ∧
  (∀ (s : State) (o : BitVec 26) (off i : BitVec 16) (d a b : BitVec 5),
      let q := Terms.here s
      let fault : Word → Host.Outcome State Fault Refusal := fun t =>
        .next (if 65536 ≤ t.toNat then s.seqFault s.cur.patch s.seqAt .perm 2 (BitVec.ofNat 64 t.toNat)
               else s.seqFault s.cur.patch s.seqAt .align 0 (BitVec.ofNat 64 t.toNat))
      let bad : Word → Prop := fun t => 65536 ≤ t.toNat ∨ t.toNat % 4 ≠ 0
      (∀ row ∈ Terms.branches, row.2 q a b → bad (Terms.target s.seqAt off.toInt) →
        exec (row.1 q a b off) s = fault (Terms.target s.seqAt off.toInt)) ∧
      (bad (Terms.target s.seqAt o.toInt) →
        exec (.j o) s = fault (Terms.target s.seqAt o.toInt) ∧ exec (.jal o) s = fault (Terms.target s.seqAt o.toInt)) ∧
      (bad (q.get a + BitVec.ofInt 32 i.toInt) → exec (.jalr d a i) s = fault (q.get a + BitVec.ofInt 32 i.toInt))) ∧
  (∀ (s : State) (p : Nat), (s.patch p).running = true → (s.patch p).frozen = false → (s.seq p).frozen = false → (s.seq p).pc = 0x10000 →
      s.seqTurn p = .next (s.seqFault p (s.seq p).last .perm 2 0x10000))

/-- A control word at `a` that faults while SQST.XT is 0 enters the handler: XPC, XCAUSE (with the codes of R114), XVALH:XVAL
and XINFO are set, XT becomes 1 and pc 0; nothing else changes, and XINFO names no instance (R111, R14). A control word that
faults while SQST.XT is 1 freezes its load as FREEZE does; the trap registers keep their values, the saved pc is the word's
address, and the freeze record carries the nested cause. TRAP counts as such a word whatever cause it names (R112, R397). -/
def Obligations.TrapEntry : Prop :=
  (∀ row ∈ Terms.causeTable, ∀ (s : State) (p : Nat) (a : Half) (sub : Nat) (v : DWord), sub < 256 → (s.seq p).xt = false →
      s.seqFault p a row.1 sub v =
        s.setPatch p { s.patch p with seq := Terms.trapped (s.seq p) a row.2 sub v, named := none }) ∧
  (∀ (s : State) (p : Nat) (l : Load), (s.seq p).xt = true → s.loadOf p = some l → p ∈ l.patches →
      let nested : State → Half → Word → DWord → Prop := fun t a cause v =>
        (∀ n ∈ l.patches, (t.patch n).frozen = true) ∧
        (t.seq p).pc = a.setWidth 17 ∧ (t.seq p).xpc = (s.seq p).xpc ∧ (t.seq p).xcause = (s.seq p).xcause ∧
        (t.seq p).xval = (s.seq p).xval ∧ (t.seq p).xvalh = (s.seq p).xvalh ∧ (t.seq p).xinfo = (s.seq p).xinfo ∧
        (t.seq p).xt = true ∧ (t.seq p).g = (s.seq p).g ∧ t.mem = s.mem ∧
        t.freezes = s.freezes ++ [freezeRec 0 (s.lpOf p) l.q l.part 1 2 0 l.lid.toNat (s.seq p).xinfo cause v s.clock.tsc 0]
      (∀ row ∈ Terms.causeTable, ∀ (a : Half) (sub : Nat) (v : DWord), sub < 256 →
        nested (s.seqFault p a row.1 sub v) a (BitVec.ofNat 32 (row.2 + 256 * sub)) v) ∧
      (s.cur.patch = p → ∀ (a : BitVec 5) (sub c : BitVec 8), ∃ t, exec (.trap a sub c) s = .next t ∧
        nested t s.seqAt (BitVec.ofNat 32 (c.toNat + 256 * sub.toNat)) (BitVec.ofNat 64 ((s.seq p).get a).toNat)))

/-- TRAP while SQST.XT is 0: the handler is entered with the cause and sub-cause that it names, XVAL ga, XPC the word after it;
a cause of 0x00 or of 0x15 to 0x7F raises ILLOP with sub-cause 0 instead (R153). At 0xFFFC, where XPC cannot hold the address of the
word after it, XPC takes 0: the model's choice (DESIGN CHOICE, log 59). While XT is 1: `TrapEntry`. XRET while SQST.XT
is 1: pc takes XPC, XT and XINFO.V clear, and an instance that was still named has been retried (R37, R149); the loop-end check
is made as after any word that is no taken branch or jump (R127, R128), and pc going to the lb of a level that goes on is the model's
choice (DESIGN CHOICE, log 43). The other registers and memory stand; the event latch, too, where no retried instance faults again. While
XT is 0 it is ILLOP with sub-cause 2; its XVAL is the model's free value (log 8). -/
def Obligations.TrapAndXret : Prop :=
  (∀ (a : BitVec 5) (sub c : BitVec 8) (s : State), (Terms.here s).xt = false →
      let q := Terms.here s
      let p := s.cur.patch
      if c.toNat = 0 ∨ (0x15 ≤ c.toNat ∧ c.toNat ≤ 0x7F) then
        ∃ v, exec (.trap a sub c) s = .next (s.seqFault p s.seqAt .illop 0 v)
      else exec (.trap a sub c) s = .next (s.setPatch p { s.patch p with
        seq := { Terms.trapped q (s.seqAt + 4) c.toNat sub.toNat (BitVec.ofNat 64 (q.get a).toNat) with last := s.seqAt },
        named := none })) ∧
  (∀ s : State,
      let q := Terms.here s
      let p := s.cur.patch
      (q.xt = true → ∃ t, exec .xret s = .next t ∧ (t.seq p).xt = false ∧
        (t.seq p).pc = (match Terms.takesBack q s.seqAt with
          | some n => (q.lb.getD n 0).setWidth 17
          | none => q.xpc.setWidth 17) ∧ (t.seq p).lc = (q.finish s.seqAt).lc ∧
        (t.seq p).xinfo = q.xinfo &&& 0x7FFFFFFF ∧ (t.patch p).named = none ∧ t.mem = s.mem ∧
        { t.seq p with pc := q.pc, xt := q.xt, xinfo := q.xinfo, last := q.last, lc := q.lc, held := q.held, begun := q.begun,
                       latch := q.latch } = q ∧
        ((∀ e n i, (s.patch p).named = some (e, n) → (s.elem p e).inst n = some i → Terms.fits (s.elem p e) i.blk) →
          (t.seq p).latch = q.latch ∧ (t.patch p).reports = (s.patch p).reports) ∧
        (∀ n, n ≠ p → t.patch n = s.patch n) ∧
        ((s.patch p).named = none → ∀ e, t.elem p e = s.elem p e) ∧
        (∀ e n, (s.patch p).named = some (e, n) → ∀ e', t.elem p e' = (s.disposeRetry p e n).elem p e')) ∧
      (q.xt = false → exec .xret s =
        .next ({ s with free := s.free + 1 }.seqFault p s.seqAt .illop 2 (Config.freeDWord s.free))))

/-- The loads and stores of the sequencer store (R123): the address, its checks, and what a load gives gd. SB, SH and SW at an
aligned address inside the store: its bytes take the low bytes of gd; every other byte of the store, every register and all the
rest of the machine are unchanged (R123). The words that the loop buffer holds are not touched (R124). -/
def Obligations.SequencerStoreWords : Prop :=
  (∀ (d a : BitVec 5) (i : BitVec 16) (s : State),
      let q := Terms.here s
      let ea := (q.get a + BitVec.ofInt 32 i.toInt).toNat
      (∀ row ∈ ([(Instr.lb, 1, true), (Instr.lbu, 1, false), (Instr.lh, 2, true), (Instr.lhu, 2, false), (Instr.lw, 4, false)] :
          List ((BitVec 5 → BitVec 5 → BitVec 16 → Instr) × Nat × Bool)),
        ea < 65536 → ea % row.2.1 = 0 → exec (row.1 d a i) s = .next (Terms.completed s (q.put d
          (if row.2.2 then BitVec.ofInt 32 (BitVec.ofNat (8 * row.2.1) (Terms.storeValue q ea row.2.1)).toInt
           else BitVec.ofNat 32 (Terms.storeValue q ea row.2.1))))) ∧
      ∀ row ∈ ([(Instr.lb, 1), (Instr.lbu, 1), (Instr.lh, 2), (Instr.lhu, 2), (Instr.lw, 4), (Instr.sb, 1), (Instr.sh, 2),
          (Instr.sw, 4)] : List ((BitVec 5 → BitVec 5 → BitVec 16 → Instr) × Nat)),
        (65536 ≤ ea → exec (row.1 d a i) s = .next (s.seqFault s.cur.patch s.seqAt .perm 2 (BitVec.ofNat 64 ea))) ∧
        (ea < 65536 → ea % row.2 ≠ 0 → exec (row.1 d a i) s = .next (s.seqFault s.cur.patch s.seqAt .align 0 (BitVec.ofNat 64 ea)))) ∧
  (∀ row ∈ ([(Instr.sb, 1), (Instr.sh, 2), (Instr.sw, 4)] : List ((BitVec 5 → BitVec 5 → BitVec 16 → Instr) × Nat)),
      ∀ (d a : BitVec 5) (i : BitVec 16) (s : State),
        let q := Terms.here s
        let ea := (q.get a + BitVec.ofInt 32 i.toInt).toNat
        cellsWf q.store = true → ea < 65536 → ea % row.2 = 0 →
        ∃ st, exec (row.1 d a i) s = .next (Terms.completed s { q with store := st }) ∧ cellsWf st = true ∧
          ∀ x, cellGet st x = if ea ≤ x ∧ x < ea + row.2 then BitVec.ofNat 8 ((q.get d).toNat / 256 ^ (x - ea)) else cellGet q.store x)

/-- CSRR gives gd the CSR; a read of TSCL latches the TSC's upper half into TSCH (R42). CSRW sets the CSR where its value is
admitted, DZ of SQST being cleared by a 1. A number that cannot be read or written, and a value that R116 refuses, is ILLOP
with sub-cause 2; its XVAL is the model's free value (log 8). EREPLAY is `FaultDelivery`. TSCR and RDTAG are R149's. -/
def Obligations.CsrWords : Prop :=
  ∀ (s : State) (d a : BitVec 5) (c : BitVec 12),
    let p := s.cur.patch
    let q := Terms.here s
    let illop := Host.Outcome.next ({ s with free := s.free + 1 }.seqFault p s.seqAt .illop 2 (Config.freeDWord s.free))
    (∀ row ∈ Terms.csrReads, c.toNat = row.1 → exec (.csrr d c) s = .next (Terms.completed s
      ((if c.toNat = 0x0C0 then { q with tsch := BitVec.ofNat 32 (s.clock.tsc.toNat / 2 ^ 32) } else q).put d (row.2 s p)))) ∧
    ((∀ row ∈ Terms.csrReads, c.toNat ≠ row.1) → exec (.csrr d c) s = illop) ∧
    (∀ row ∈ Terms.csrWrites, c.toNat = row.1 →
      (row.2.1 (q.get a) → exec (.csrw a c) s = .next (Terms.completed s (row.2.2 q (q.get a)))) ∧
      (¬ row.2.1 (q.get a) → exec (.csrw a c) s = illop)) ∧
    (c.toNat ≠ 0x045 → (∀ row ∈ Terms.csrWrites, c.toNat ≠ row.1) → exec (.csrw a c) s = illop) ∧
    exec (.tscr d) s = .next (Terms.completed s (q.putPair d s.clock.tsc)) ∧
    exec (.rdtag d) s = .next (Terms.completed s (q.put d
      (if q.xinfo.toNat / 2 ^ 31 = 1 then BitVec.ofNat 32 (q.xinfo.toNat / 2 ^ 10 % 2 ^ 12) else 0xFFFFFFFF)))

/-- WFE completes at once where the latch is set; else SQST.WF is set and pc stays. The wait ends, with latch and WF clear,
once the latch is set or 65,536 cycles of the patch have passed (R150), each of them two fabric cycles where the patch runs at 400 MHz
(R444). A frozen sequencer does not move. -/
def Obligations.WaitForEvent : Prop :=
  ∀ (s : State) (p : Nat),
    let woken := fun (q : Seq) => { q with latch := false, wf := false }.finish (q.pc.setWidth 16)
    let free := (s.patch p).frozen = false ∧ (s.seq p).frozen = false
    let wait := if (s.patch p).fullRate then 65536 else 131072
    ((Terms.here s).latch = true → exec .wfe s = .next (s.setSeq s.cur.patch (woken (Terms.here s)))) ∧
    ((Terms.here s).latch = false → (Terms.here s).wf = false →
      exec .wfe s = .next (s.setSeq s.cur.patch { Terms.here s with wf := true, wfeAt := s.clock.n })) ∧
    (free → (s.seq p).wf = true → (s.seq p).latch = true → exec (.wfeWake p) s = .next (s.setSeq p (woken (s.seq p)))) ∧
    (free → (s.seq p).wf = true → (s.seq p).wfeAt + wait ≤ s.clock.n →
      exec (.wfeTimeout p) s = .next (s.setSeq p (woken (s.seq p)))) ∧
    ((s.seq p).wf = true → s.clock.n < (s.seq p).wfeAt + wait → exec (.wfeTimeout p) s = .next s) ∧
    ((s.seq p).latch = false → exec (.wfeWake p) s = .next s)

/-- FREEZE: the word completes, every patch of the load is frozen, and a freeze record with the sequencer's XCAUSE, XVALH:XVAL
and XINFO goes to the manager (R152, R397, R400). At the le of an active level the saved pc is the one that the loop-end check
leaves, which is the model's choice (log 43). -/
def Obligations.FreezeWord : Prop :=
  ∀ (s : State) (l : Load), s.loadOf s.cur.patch = some l → s.cur.patch ∈ l.patches →
    let p := s.cur.patch
    let q := Terms.here s
    ∃ t, exec .freeze s = .next t ∧ (∀ n ∈ l.patches, (t.patch n).frozen = true) ∧
      (∀ n, n ∉ l.patches → t.patch n = s.patch n) ∧
      (t.seq p).pc = (q.finish s.seqAt).pc ∧ (t.seq p).g = q.g ∧ (t.seq p).xpc = q.xpc ∧ (t.seq p).xcause = q.xcause ∧
      (t.seq p).xval = q.xval ∧ (t.seq p).xvalh = q.xvalh ∧ (t.seq p).xinfo = q.xinfo ∧ (t.seq p).xt = q.xt ∧ t.mem = s.mem ∧
      t.freezes = s.freezes ++ [freezeRec 0 (s.lpOf p) l.q l.part 1 (if q.xt = true ∧ q.xcause.toNat % 256 = 0x08 then 4 else 1) 0 l.lid.toNat q.xinfo q.xcause (q.xvalh ++ q.xval) s.clock.tsc 0]

/-- An element fault is delivered only while SQST.XT is 0 and between control words: the oldest report leaves the queue and
enters the handler, XPC holding the address of the word that would have issued next, that after the WFE where the sequencer
waits in one; no g or loop register changes, but what the completed WFE counts (R36, R111, R113). The load counts the fault, and keeps
its first one (R385); the report of a DEADLOCK is no such fault, and its record stands in the top 256 bytes of the sequencer store
(R400). A CSRW to EREPLAY while XINFO.V is 1: a 0 discards the named instance, a 1 fires it again with its tag and its slots, or, where
what its block writes does not fit its buffers, it faults again with ILLOP (R158); XINFO.V clears. While XINFO.V is
0, and with any other value, it is ILLOP, and the instance is unchanged (R37, R155): XVAL is the model's free value (log 8), and
sub-cause 2 for another value its reading (log 9). The two events of the table are the same disposals. -/
def Obligations.FaultDelivery : Prop :=
  (∀ (s : State) (p : Nat) (r : Report) (rest : List Report), (s.patch p).reports = r :: rest →
      let q := s.seq p
      let q' := if q.wf then { q with latch := false, wf := false }.finish (q.pc.setWidth 16) else q
      ((q.xt = true ∨ (s.patch p).frozen = true ∨ (q.begun = true ∧ q.wf = false)) → exec (.elementFaultDelivery p) s = .next s) ∧
      (q.xt = false → (s.patch p).frozen = false → q.frozen = false → (s.patch p).running = true → (q.begun = false ∨ q.wf = true) →
        q'.pc ≠ 0x10000 → ∃ t, exec (.elementFaultDelivery p) s = .next t ∧
          (t.seq p).pc = 0 ∧ (t.seq p).xt = true ∧ (t.seq p).xpc = q'.pc.setWidth 16 ∧ (t.seq p).xcause = r.cause ∧
          (t.seq p).xinfo = r.info ∧ (t.seq p).xvalh ++ (t.seq p).xval = r.val ∧ (t.patch p).named = r.inst ∧
          (t.seq p).g = q.g ∧ (t.seq p).lc = q'.lc ∧ (t.seq p).k = q.k ∧
          (∃ l, (t.patch p).reports = rest ++ l) ∧ t.mem = s.mem ∧ (∀ n, n ≠ p → t.patch n = s.patch n) ∧
          (r.ring = [] → (t.seq p).store = q.store ∧ t.loads = s.loads.map (fun l =>
            if (s.patch p).load.map (fun x => x.1) = some l.q then
              { l with fcnt := l.fcnt + 1, fcause := if l.fcnt = 0 then r.cause else l.fcause, faddr := if l.fcnt = 0 then r.val else l.faddr }
            else l)) ∧
          (r.ring ≠ [] → cellsWf q.store = true → t.loads = s.loads ∧
            let n := min 64 r.ring.length
            Terms.storeValue (t.seq p) 0xFF00 4 = n ∧ Terms.storeValue (t.seq p) 0xFF08 8 = r.tsc.toNat ∧
            (∀ j < n, Terms.storeValue (t.seq p) (0xFF10 + 2 * j) 2 = r.ring.getD j 0 % 65536) ∧
            ∀ a, a < 0xFF00 ∨ (0xFF04 ≤ a ∧ a < 0xFF08) ∨ 0xFF10 + 2 * n ≤ a → cellGet (t.seq p).store a = cellGet q.store a))) ∧
  (∀ (s : State) (a : BitVec 5) (e n : Nat) (i : Inst),
      let p := s.cur.patch
      let q := Terms.here s
      let named := q.xinfo.toNat / 2 ^ 31 = 1
      (named → (s.patch p).named = some (e, n) → (s.elem p e).inst n = some i →
        (∃ t, exec (.ereplayDiscard p) s = .next t ∧ (t.elem p e).inst n = none ∧ (t.patch p).named = none ∧
          t.seq p = { q with xinfo := q.xinfo &&& 0x7FFFFFFF } ∧ t.mem = s.mem ∧
          (t.elem p e).q = (s.elem p e).q.map (fun l => l.filterMap (fun u => if u.owner = some n then none else some u)) ∧
          (q.get a = 0 → exec (.csrw a 0x045) s = .next (Terms.completed t (t.seq p)))) ∧
        (∃ t, exec (.ereplayRetry p) s = .next t ∧ (t.patch p).named = none ∧
          (∃ j, (t.elem p e).inst n = some j ∧ j.tag = i.tag ∧ j.blk = i.blk ∧ j.qres = i.qres ∧ j.cres = i.cres ∧
            j.r = (s.elem p e).r ∧ j.effs = [] ∧ (Terms.fits (s.elem p e) i.blk → j.st = .fired ∧ j.pc = 0) ∧
            (¬ Terms.fits (s.elem p e) i.blk → j.st = .faulted)) ∧
          (Terms.fits (s.elem p e) i.blk → t.seq p = { q with xinfo := q.xinfo &&& 0x7FFFFFFF } ∧ (t.patch p).reports = (s.patch p).reports) ∧
          (¬ Terms.fits (s.elem p e) i.blk → (s.patch p).fpend < 64 →
            t.seq p = { q with xinfo := q.xinfo &&& 0x7FFFFFFF, latch := true } ∧
            ∃ r, (t.patch p).reports = (s.patch p).reports ++ [r] ∧ r.inst = some (e, n) ∧ r.cause = xcause 1 2 true) ∧
          t.mem = s.mem ∧ (t.elem p e).q = (s.elem p e).q ∧
          (q.get a = 1 → exec (.csrw a 0x045) s = .next (Terms.completed t (t.seq p))))) ∧
      (¬ named ∨ (q.get a ≠ 0 ∧ q.get a ≠ 1) → exec (.csrw a 0x045) s =
        .next ({ s with free := s.free + 1 }.seqFault p s.seqAt .illop 2 (Config.freeDWord s.free))))

/-- The sequencer's flat accesses to memory of this module: what each does where its address is aligned and translates, and its
read or owner step is enabled. A misaligned address raises ALIGN before it is translated; an address that does not translate raises
XLATE, and one of another partition PERM, which freezes the sequencer as well (R133, R396). Where its frame is under pull the word
waits, and notes since when (R357). What a read finds is `ReadsFind`; what an atomic does to memory, `AtomicEffect`. -/
def Obligations.SequencerMemoryWords : Prop :=
  ∀ (s : State) (d a b : BitVec 5) (o z : BitVec 2) (sg w : BitVec 1) (c : BitVec 3) (pl : Place), Terms.local_ pl →
    let p := s.cur.patch
    let q := Terms.here s
    let fa := q.pair a
    let n := 2 ^ z.toNat
    let at_ := s.seqTranslate p fa
    (fa.toNat % n = 0 → at_ .plain = .ok pl → ∀ bs t, s.readNow (.seq p) (scopeOf c) pl n = some (bs, t) →
      exec (.ldm d a o z sg c) s = .next (Terms.flatDone t
        (if z = 3 then q.putPair d (BitVec.ofNat 64 (leNat bs))
         else q.put d (if sg = 1 then BitVec.ofInt 32 (BitVec.ofNat (8 * n) (leNat bs)).toInt else BitVec.ofNat 32 (leNat bs))))) ∧
    (fa.toNat % n = 0 → at_ .plain = .ok pl →
      exec (.stm d a o z c) s = .next (Terms.flatDone (Terms.entered s
        ⟨0, .seq p, scopeOf c, pl, .store ⟨pl, Terms.spelled pl.addr n (if z = 3 then (q.pair d).toNat else (q.get d).toNat), [],
          scopeOf c, o == 1, fa, false⟩, false, o == 1, false, fa, s.clock.ns, 0, none⟩) q)) ∧
    (fa.toNat % 4 = 0 → at_ .owner = .ok pl →
      exec (.signal a b c) s = .next (Terms.flatDone (Terms.entered s
        ⟨0, .seq p, scopeOf c, pl, .owner (.signal (q.get b)) .none, false, true, false, fa, s.clock.ns, 0, none⟩) q)) ∧
    (∀ row ∈ ([(Instr.seqAadd, .add), (Instr.seqAmin, .min), (Instr.seqAmax, .max), (Instr.seqAand, .and), (Instr.seqAor, .or),
        (Instr.seqAxor, .xor), (Instr.seqAswp, .swap), (Instr.seqAcas, .cas)] :
        List ((BitVec 5 → BitVec 5 → BitVec 1 → BitVec 2 → BitVec 3 → Instr) × AtomKind)),
      let wide := w == 1
      let x : DWord := if wide then q.pair d else BitVec.ofNat 64 (q.get d).toNat
      let y : DWord := if wide then q.pair (d + 2) else BitVec.ofNat 64 (q.get (d + 1)).toNat
      fa.toNat % (if wide then 8 else 4) = 0 → at_ .owner = .ok pl →
      s.ownerReady ⟨s.ord.nextId, .seq p, scopeOf c, pl, .owner (.atomic row.2 wide x y) .none, o.getLsbD 0, o.getLsbD 1, false, fa, 0,
        s.ord.nextId, none⟩ [pl.addr / 8] = true →
      exec (row.1 d a w o c) s = .next (Terms.flatDone (s.atomic row.2 wide pl.addr x y).2
        (if wide then q.putPair d (s.atomic row.2 wide pl.addr x y).1
         else q.put d (BitVec.ofNat 32 (s.atomic row.2 wide pl.addr x y).1.toNat)))) ∧
    (let m := if w = 1 then 8 else 4
     ∀ i ∈ [(Instr.ldm d a o z sg c, n, Asker.plain), (Instr.stm d a o z c, n, Asker.plain), (Instr.signal a b c, 4, Asker.owner),
        (Instr.seqAadd d a w o c, m, Asker.owner), (Instr.seqAmin d a w o c, m, Asker.owner), (Instr.seqAmax d a w o c, m, Asker.owner),
        (Instr.seqAand d a w o c, m, Asker.owner), (Instr.seqAor d a w o c, m, Asker.owner), (Instr.seqAxor d a w o c, m, Asker.owner),
        (Instr.seqAswp d a w o c, m, Asker.owner), (Instr.seqAcas d a w o c, m, Asker.owner)],
      (fa.toNat % i.2.1 ≠ 0 → exec i.1 s = .next (s.seqFault p s.seqAt .align 0 fa)) ∧
      (fa.toNat % i.2.1 = 0 → ∀ u, at_ i.2.2 = .fault .xlate u → exec i.1 s = .next (s.seqFault p s.seqAt .xlate u fa)) ∧
      (fa.toNat % i.2.1 = 0 → ∀ u, at_ i.2.2 = .fault .perm u → exec i.1 s = .next (Terms.offended s u fa)) ∧
      (fa.toNat % i.2.1 = 0 → at_ i.2.2 = .wait → exec i.1 s = .next (s.setSeq p { q with pullAt := some (q.pullAt.getD s.clock.ns) })))

/-- An atomic reads the youngest value of its word, writes the result of its kind over it, and changes no other byte; the
buffers hold no byte of the word afterwards (R217, R131). -/
def Obligations.AtomicEffect : Prop :=
  ∀ (s : State) (k : AtomKind) (wide : Bool) (a : Nat) (x y : DWord), s.mem.wf = true →
    let n := if wide then 8 else 4
    let t := (s.atomic k wide a x y).2
    let old := leNat ((List.range n).map (fun i => s.newest (a + i)))
    let new := if wide then (Terms.atomicValue k (BitVec.ofNat 64 old) x y).toNat
      else (Terms.atomicValue k (BitVec.ofNat 32 old) (BitVec.ofNat 32 x.toNat) (BitVec.ofNat 32 y.toNat)).toNat
    (s.atomic k wide a x y).1 = BitVec.ofNat 64 old ∧ t.mem.wf = true ∧
    (∀ b, t.mem.get b = if a ≤ b ∧ b < a + n then BitVec.ofNat 8 (new / 256 ^ (b - a)) else s.mem.get b) ∧
    (∀ v ∈ t.ord.vis, ∀ e ∈ v.2, ∀ c ∈ e.bytes, c.1 < a ∨ a + n ≤ c.1) ∧ t.patches = s.patches ∧ t.ord.accs = s.ord.accs

/-- FENCE at a scope below `.part` completes exactly when the sequencer's earlier accesses are performed there (R151; a wider
one also waits for the stream ports' tokens, R320). LAUNCH with an aligned packet on this module, once the sequencer's earlier
accesses are performed at `.dev` (R134): the three answers that R134 and R110 give gd. SBIND reads its descriptor at `.dev`
and, with one that R139 admits, puts its binding into the port's scoreboard; one that R139 refuses is ILLOP with sub-cause 1
and XVAL the descriptor's address. SGO puts a start there; on a port that was never bound it is ILLOP with sub-cause 2 (XVAL
free, log 8). SWAITP waits for its port, and for what an earlier SBAR waits for, and sets the event latch (R141, R150); SBAR
records which commands are before it and does not stall (R141). -/
def Obligations.FenceLaunchAndStreamWords : Prop :=
  (∀ (s : State) (c : BitVec 3) (d a b : BitVec 5) (pl : Place), Terms.local_ pl →
      let p := s.cur.patch
      let q := Terms.here s
      let n := (q.get b).toNat
      (c.toNat < 2 → s.allPerformed (.seq p) s.ord.nextId (scopeOf c) = true →
        exec (.seqFence c) s = .next (Terms.flatDone s { q with token := none })) ∧
      (s.allPerformed (.seq p) s.ord.nextId (scopeOf c) = false →
        ∃ k, exec (.seqFence c) s = .next (s.setSeq p { q with token := some k })) ∧
      ((q.pair a).toNat % 64 = 0 → s.seqTranslate p (q.pair a) .plain = .ok pl →
        s.allPerformed (.seq p) s.ord.nextId .dev = true →
        ((4096 ≤ n ∨ smFind s.queues n = none ∨ (∃ k, smFind s.queues n = some k ∧ k.part ≠ s.partOf p)) →
          exec (.launch d a b) s = .next (Terms.flatDone s (q.put d (BitVec.ofNat 32 (0x04 + 256 * 3))))) ∧
        (∀ k, n < 4096 → smFind s.queues n = some k → k.part = s.partOf p →
          ((k.tail - k.headCnt).toNat = 2 ^ k.ringLog →
            exec (.launch d a b) s = .next (Terms.flatDone s (q.put d 0x14))) ∧
          ((k.tail - k.headCnt).toNat ≠ 2 ^ k.ringLog → ∀ bs t ring, s.readNow (.seq p) .dev pl 64 = some (bs, t) →
            s.ringPlace k k.tail.toNat = .ok ring →
            ∃ u, exec (.launch d a b) s = .next u ∧ u.seq p = { q.put d 0 with pullAt := none }.finish s.seqAt ∧
              (u.queue n).tail = k.tail + 1 ∧ (k.st = .idle → (u.queue n).st = .wait ∨ k.tail + 1 = k.headCnt) ∧
              (∃ l, u.ord.accs = s.ord.accs ++ l ∧ (∀ x ∈ l, x.agent = .cmdProc k.part ∧ x.scope = .dev) ∧
                Terms.stored l = ((List.range 64).map (fun i => ring.addr + i)).zip bs) ∧ u.mem = s.mem)))) ∧
  (∀ (s : State) (a : BitVec 5) (k : BitVec 4) (pl : Place), Terms.local_ pl →
      let p := s.cur.patch
      let q := Terms.here s
      let fa := q.pair a
      let pt := s.port p k.toNat
      (fa.toNat % 64 ≠ 0 → exec (.sbind a k) s = .next (s.seqFault p s.seqAt .illop 1 fa)) ∧
      (fa.toNat % 64 = 0 → s.seqTranslate p fa .plain = .ok pl → ∀ bs t, s.readNow (.seq p) .dev pl 64 = some (bs, t) →
        let w := (List.range 8).map (fun i => (BitVec.ofNat 64 (leNat ((bs.drop (8 * i)).take 8)) : DWord))
        (Stream.bad w = true → exec (.sbind a k) s = .next (t.seqFault p s.seqAt .illop 1 fa)) ∧
        (Stream.bad w = false → exec (.sbind a k) s =
          .next (Terms.flatDone (t.setPatch p ((t.patch p).addCmd k.toNat (.bind (Stream.parse w))))
            ((t.setPatch p ((t.patch p).addCmd k.toNat (.bind (Stream.parse w)))).seq p)))) ∧
      (pt.bound.isSome = true → exec (.sgo k) s =
        .next (Terms.flatDone (s.setPatch p ((s.patch p).addCmd k.toNat .go)) ((s.setPatch p ((s.patch p).addCmd k.toNat .go)).seq p))) ∧
      (pt.bound = none → pt.cmds = [] → exec (.sgo k) s =
        .next ({ s with free := s.free + 1 }.seqFault p s.seqAt .illop 2 (Config.freeDWord s.free))) ∧
      (let open_ : List Nat := (s.patch p).ports.flatMap (fun k => k.2.cmds.map (fun c => c.1) ++ k.2.running.toList)
       let done := pt.running = none ∧ pt.cmds = [] ∧
         ∀ b ∈ (s.patch p).bars, (s.patch p).cmdNo < b ∨ ∀ m ∈ open_, b ≤ m
       (done → exec (.swaitp k) s = .next (Terms.flatDone s { q with latch := true })) ∧ (¬ done → exec (.swaitp k) s = .next s)) ∧
      (∃ x, exec .sbar s = .next (Terms.flatDone (s.setPatch p x) x.seq) ∧ x.cmdNo = (s.patch p).cmdNo ∧ x.elems = (s.patch p).elems) ∧
      (∀ (x : Patch) (n m : Nat) (c : PortCmd), (x.port n).running = some m → n < 16 →
        ((x.addCmd n c).port n).cmds = (x.port n).cmds ++ [(x.cmdNo, c)] ∧ (x.addCmd n c).cmdNo = x.cmdNo + 1))

/-- The configuration words. A broken phase answers FROZEN, a poisoned one its status (R145, R148), but a CFGCMT whose swap has
been made answers 0; the effect of each word of a sound phase is R144's, R146's and R147's; the swap waits for the patch to be
quiescent (R146). -/
def Obligations.ConfigurationWords : Prop :=
  ∀ (s : State) (d a : BitVec 5),
    let p := s.cur.patch
    let q := Terms.here s
    let f := (s.patch p).phase
    let fa := q.pair a
    let done := fun (t : State) (st : Word) => Host.Outcome.next (φ := Fault) (ρ := Refusal) (Terms.flatDone t ((t.seq p).put d st))
    let sound := f.broken = false ∧ f.poison = none
    (∀ st, (f.broken = true ∧ st = 5) ∨ (f.broken = false ∧ f.poison = some st) →
      (∀ i ∈ [Instr.cfgld d a, Instr.cfgpat d a, Instr.cfgrect d a], exec i s = done s st) ∧
      (f.done = false → exec (.cfgcmt d) s = done (s.setPhase p Phase.reset) st)) ∧
    (sound → fa.toNat % 8 ≠ 0 → ∀ i ∈ [Instr.cfgld d a, Instr.cfgpat d a],
      exec i s = .next (s.seqFault p s.seqAt .align 0 fa)) ∧
    (sound → fa.toNat % 8 = 0 → ∀ bs t x m, s.readRecord (.seq p) (s.partOf p) fa = .ok bs t → RawPattern.parse bs = .ok x →
      coverAll x (t.layout p).1 (t.layout p).2 (t.lpOf p) f.shadow = .ok m → t.cur = s.cur →
      exec (.cfgpat d a) s = done (t.setPhase p { f with opened := true, shadow := m, lastPat := some x }) 0) ∧
    (sound → fa.toNat % 8 = 0 → ∀ h t u n g, s.readFlat (.seq p) (s.partOf p) fa 16 = .ok h t → numAt h 0 4 / 65536 = 1 → t.cur = s.cur →
      t.cfgRecords p (fa + 16) (numAt h 4 4) { (t.patch p).phase with opened := true } = .ok g n u → numAt h 8 8 = 16 + n → u.cur = s.cur →
      exec (.cfgld d a) s = done (u.setPhase p g) 0) ∧
    (sound → f.lastPat = none → exec (.cfgrect d a) s =
      done (s.setPhase p { f with opened := true, poison := some 0x10, shadow := [], lastPat := none }) 0x10) ∧
    (sound → ∀ x m, f.lastPat = some x → coverRect x (s.layout p).1 (s.layout p).2 (s.lpOf p) fa f.shadow = .ok m →
      exec (.cfgrect d a) s = done (s.setPhase p { f with opened := true, shadow := m }) 0) ∧
    exec .cfgabt s = .next (Terms.flatDone (s.setPhase p Phase.reset) q) ∧
    (f.done = true → exec (.cfgcmt d) s = done (s.setPhase p Phase.reset) 0) ∧
    (sound → f.done = false → f.opened = false → exec (.cfgcmt d) s = done s 0x10) ∧
    (sound → f.done = false → f.opened = true → f.drain = false →
      ∀ x, checkCommit f.shadow (s.runningWith p f.shadow) (8 * (s.layout p).1) (8 * (s.layout p).2) (s.lpOf p % Nat.max 1 (s.layout p).1)
        (s.lpOf p / Nat.max 1 (s.layout p).1) = x →
      (x = none → exec (.cfgcmt d) s = .next (s.setPhase p { f with drain := true })) ∧
      (∀ e, x = some e → exec (.cfgcmt d) s = done (s.setPhase p Phase.reset) e.status)) ∧
    (∀ n, (s.patch n).frozen = false → (s.patch n).running = true → (s.patch n).phase.drain = true → (s.patch n).quiet = true →
      ∃ t, exec (.configSwap n) s = .next t ∧ (t.patch n).phase.done = true ∧ (t.patch n).phase.drain = false ∧
        (t.patch n).elems = ((s.configure n (s.patch n).phase.shadow).patch n).elems) ∧
    (∀ n, (s.patch n).quiet = false → exec (.configSwap n) s = .next s)

/-- What `Terms.wordDone` changes: the instance whose word completed stands at its next word; the element's committed
registers, its queues, its ports, its other instances, and every other element and patch are as the word left them, and so is
memory. A word that faults leaves its instance faulted, with its slots and no effect, and its report is the patch's youngest
(R36, R14); memory, and every committed register, is unchanged. The element has moved: it is not blocked (R398). Where a word has
completed ahead of its turn, the instance stands where it stood, and the word is noted (R31; log 22). -/
def Obligations.WordDoneFrame : Prop :=
  (∀ (s : State) (k : Wk),
    let p := s.cur.patch
    let e := s.cur.el
    let t := Terms.wordDone s k
    (∀ i, (k.s.elem p e).inst k.i.id = some i →
      (t.elem p e).inst k.i.id = some (Terms.passed s k)) ∧
    (∀ n, n ≠ k.i.id → (t.elem p e).inst n = (k.s.elem p e).inst n) ∧
    (t.elem p e).r = (k.s.elem p e).r ∧ (t.elem p e).q = (k.s.elem p e).q ∧ (t.elem p e).o = (k.s.elem p e).o ∧
    (t.elem p e).ft = (k.s.elem p e).ft ∧ (t.elem p e).blocks = (k.s.elem p e).blocks ∧
    (t.elem p e).blocked = none ∧ (t.elem p e).probed = none ∧ (t.elem p e).fwd = [] ∧
    (∀ n m, (n ≠ p ∨ m ≠ e) → t.elem n m = k.s.elem n m) ∧ (∀ n, t.seq n = k.s.seq n) ∧
    { t with patches := k.s.patches } = k.s ∧
    k.i.pc < (Terms.passed s k).pc ∧ (Terms.passed s k).pc ∉ k.i.ahead ∧
    (∀ n, k.i.pc < n → n < (Terms.passed s k).pc → n ∈ k.i.ahead)) ∧
  (∀ (s t : State) (p e n : Nat) (i j : Inst), (t.elem p e).inst i.id = some j →
    (j.st ≠ .fired → s.aheadTo t p e i n = some t) ∧
    (j.st = .fired → j.pc = n → s.aheadTo t p e i n = none) ∧
    (j.st = .fired → j.pc ≠ n → (∀ a ∈ t.ord.accs, a.agent = .elem p e → s.ord.nextId ≤ a.id → a.place.kind ≠ .so) →
      s.aheadTo t p e i n = some (t.putInst p e (Terms.doneAhead i j n)))) ∧
  (∀ (s : State) (p e : Nat) (i : Inst) (c : Cause) (sub : Nat) (v : DWord), (s.elem p e).inst i.id = some i →
    (s.patch p).fpend < 64 →
    let t := s.elemFault p e i c sub v
    (∃ j, (t.elem p e).inst i.id = some j ∧ j.st = .faulted ∧ j.irr = .none ∧ j.qres = i.qres ∧ j.cres = i.cres ∧ j.tag = i.tag) ∧
    (t.patch p).reports = (s.patch p).reports ++
      [⟨some (e, i.id), xcause (causeCode c) sub true, xinfoOf e i, v, [], 0⟩] ∧
    (t.elem p e).r = (s.elem p e).r ∧ (t.elem p e).q = (s.elem p e).q ∧ t.mem = s.mem ∧
    (∀ n m, (n ≠ p ∨ m ≠ e) → t.elem n m = s.elem n m) ∧ (t.seq p).latch = true ∧ (t.seq p).g = (s.seq p).g)

/-- The source forms of R87: s and w registers, queues q0 to q3, circular buffers cb0 to cb7; scalar reads take lanes, wide
reads take units (R31, R157). A register that a load or the commit is to fill holds the word. -/
def Obligations.OperandForms : Prop :=
  ∀ (k : Wk) (r : Nat),
    let i := k.i
    let c := k.s.cur
    let n := i.pos.getD (if r < 20 then r - 16 else r - 20) 0
    let at_ := fun (m : Nat) => { k with i := { i with pos := i.pos.set (if r < 20 then r - 16 else r - 20) m } }
    (r < 16 →
      (Terms.readable i r → rdScalar r k = .ok (i.r.s.getD r 0, k)) ∧ (¬ Terms.readable i r → rdScalar r k = .error .hold) ∧
      (i.pending (16 + r) = false → rdWide r k = .ok (i.r.w.getD r 0, k)) ∧
      (i.pending (16 + r) = true → rdWide r k = .error .hold)) ∧
    (16 ≤ r → r < 20 →
      (∀ u, (i.qres.getD (r - 16) [])[n / 8]? = some u → badHeader (lane u 7) = false →
        rdScalar r k = .ok (lane u (n % 8), at_ (n + 1)) ∧ (n % 8 = 0 → rdWide r k = .ok (u, at_ (n + 8)))) ∧
      (∀ u, (i.qres.getD (r - 16) [])[n / 8]? = some u → badHeader (lane u 7) = true →
        rdScalar r k = .error (.fault .illop 1 (BitVec.ofNat 64 (lane u 7).toNat))) ∧
      ((i.qres.getD (r - 16) []).length ≤ n / 8 → rdScalar r k = .error (.fault .illop 2 (Terms.wordAt k)))) ∧
    (24 ≤ r → r < 32 →
      let us := i.cbUnits (k.s.elem c.patch c.el) (r - 24)
      (cbValid (i.r.cb.getD (r - 24) 0) = true → ∀ va, us[n / 8]? = some va →
        let read := k.s.readOperand c.patch c.el i (vaultPlace c.patch c.el va) 32
        (∀ bs t, read = some (bs, t) → let u := ofBytes bs
          badHeader (lane u 7) = false → rdScalar r k = .ok (lane u (n % 8), { at_ (n + 1) with s := t }) ∧
            (n % 8 = 0 → rdWide r k = .ok (u, { at_ (n + 8) with s := t }))) ∧
        (read = none → rdScalar r k = .error .hold)) ∧
      (cbValid (i.r.cb.getD (r - 24) 0) = true → us.length ≤ n / 8 →
        rdScalar r k = .error (.fault .illop 2 (Terms.wordAt k))) ∧
      (cbValid (i.r.cb.getD (r - 24) 0) = false → rdScalar r k = .error (.fault .illop 1 (Terms.wordAt k))))

/-- The destination forms of R87 (R31, R158), and the mask rule of R91: lane j of a w register takes its result where bit j of
the mask is 1, else it is zeroed or kept; a port or buffer has no earlier value, so its disabled lanes are zero. Circular
buffers are checked first (R17, R158). -/
def Obligations.DestinationForms : Prop :=
  ∀ (k : Wk) (r : Nat) (v : Word),
    let i := k.i
    let adds := Terms.putInto k r
    (r < 16 → i.pending r = false → wrScalar r v k = .ok ((), Terms.wroteS k r v)) ∧
    (r < 16 → i.pending r = true → wrScalar r v k = .error .hold) ∧
    (20 ≤ r → r < 24 → wrScalar r v k = .ok ((), adds [v])) ∧
    (24 ≤ r → r < 32 → Terms.gives (useDest r) k () k → wrScalar r v k = .ok ((), adds [v])) ∧
    ∀ l ∈ [8, 16, 32, 64], ∀ (m : Word) (z : Bool) (new : List Nat), new.length = 256 / l →
      (r < 16 → i.pending (16 + r) = false → ∃ u, wrWide r l m z new k = .ok ((), Terms.wroteW k r u) ∧
        ∀ j < 256 / l, Terms.laneAt l u j =
          if m.getLsbD j then new.getD j 0 % 2 ^ l else if z then 0 else Terms.laneAt l (i.r.w.getD r 0) j) ∧
      (20 ≤ r → r < 24 → (i.outs.getD (r - 20) []).length % 8 = 0 →
        ∃ u, wrWide r l m z new k = .ok ((), adds ((List.range 8).map (fun j => BitVec.ofNat 32 (Terms.laneAt 32 u j)))) ∧
          ∀ j < 256 / l, Terms.laneAt l u j = if m.getLsbD j then new.getD j 0 % 2 ^ l else 0)

/-- A register integer word whose sources give x and y completes with its result written to d: on 32-bit scalars where W is 0,
lane by lane at the width of FUSE where W is 1, under the mask (R159, R156). A zero divisor of a scalar or of an enabled lane
is remembered for EST (R52); whether one of a disabled lane is too, is the model's free choice (log 2). The immediate words: d
← a op imm in 32 bits, imm sign- or zero-extended as R97 says; MOVHI d ← imm × 2^17 (R160). -/
def Obligations.ElementIntegerWords : Prop :=
  (∀ row ∈ Terms.elementInteger, ∀ (s : State) (i : Inst) (d a b : BitVec 5) (z : BitVec 1) (n : BitVec 3), Terms.OnTurn s i →
      (∀ x y k₁ k₂ k, Terms.gives (rdScalar a.toNat) ⟨s, i⟩ x k₁ → Terms.gives (rdScalar b.toNat) k₁ y k₂ →
        Terms.gives (wrScalar d.toNat (Terms.intValue row.2 x y)) (Terms.withDz k₂ (Terms.dividesByZero row.2 y)) () k →
        Terms.completes (row.1 d a b 0 z n) s k) ∧
      (∀ x y k₁ k₂, Terms.gives (rdWide a.toNat) ⟨s, i⟩ x k₁ → Terms.gives (rdWide b.toNat) k₁ y k₂ →
        let l := Terms.laneBits ⟨s, i⟩
        let m := k₂.i.r.m.getD n.toNat 0
        let zero : Nat → Prop := fun j => Terms.dividesByZero row.2 (BitVec.ofNat l (Terms.laneAt l y j)) = true
        ∃ dz fr, let k₃ : Wk := ⟨{ k₂.s with free := fr }, { k₂.i with dzSet := dz }⟩
          ((∃ j < 256 / l, m.getLsbD j = true ∧ zero j) → dz = true) ∧ ((∀ j < 256 / l, ¬ zero j) → dz = k₂.i.dzSet ∧ fr = k₂.s.free) ∧
          ∀ k, Terms.gives (wrWide d.toNat l m (z == 1) ((List.range (256 / l)).map (fun j =>
              (Terms.intValue row.2 (BitVec.ofNat l (Terms.laneAt l x j)) (BitVec.ofNat l (Terms.laneAt l y j))).toNat))) k₃ () k →
            Terms.completes (row.1 d a b 1 z n) s k)) ∧
  (∀ (s : State) (i : Inst) (d a sh : BitVec 5) (imm : BitVec 15), Terms.OnTurn s i →
      (∀ row ∈ ([(Instr.addi, .add, true), (Instr.andi, .and, false), (Instr.ori, .or, false), (Instr.xori, .xor, false),
          (Instr.slti, .slt, true)] : List ((BitVec 5 → BitVec 5 → BitVec 15 → Instr) × IntOp × Bool)),
        ∀ x k₁ k, Terms.gives (rdScalar a.toNat) ⟨s, i⟩ x k₁ →
          Terms.gives (wrScalar d.toNat (Terms.intValue row.2.1 x
            (if row.2.2 then BitVec.ofInt 32 imm.toInt else BitVec.ofNat 32 imm.toNat))) k₁ () k →
          Terms.completes (row.1 d a imm) s k) ∧
      (∀ row ∈ ([(Instr.slli, .sll), (Instr.srli, .srl), (Instr.srai, .sra)] :
          List ((BitVec 5 → BitVec 5 → BitVec 5 → Instr) × IntOp)),
        ∀ x k₁ k, Terms.gives (rdScalar a.toNat) ⟨s, i⟩ x k₁ →
          Terms.gives (wrScalar d.toNat (Terms.intValue row.2 x (BitVec.ofNat 32 sh.toNat))) k₁ () k →
          Terms.completes (row.1 d a sh) s k) ∧
      ∀ k, Terms.gives (wrScalar d.toNat (BitVec.ofNat 32 (imm.toNat * 2 ^ 17))) ⟨s, i⟩ () k → Terms.completes (.movhi d imm) s k)

/-- The floating-point words (R161): FP32 scalars where W is 0; where W is 1, lanes in the format of ft, whose FUSE must be the
one of R92 (else ILLOP with sub-cause 2), and which a patch in reduced service has to have (R444). FMAC reads d as a third
source. No flag is set. -/
def Obligations.ElementFloatWords : Prop :=
  ∀ (s : State) (i : Inst) (d a b : BitVec 5) (f : BitVec 2) (r : BitVec 3) (z : BitVec 1) (n : BitVec 3), Terms.OnTurn s i →
    let sum := fun (op : FpOp) (g : FFmt) (rm : Rm) (l : Nat) (x y c : Slot) => (List.range (256 / l)).map (fun j =>
      g.op op rm (Terms.laneAt l x j) (Terms.laneAt l y j) (Terms.laneAt l c j))
    let fits := i.fuseAt = [2, 1, 1, 3].getD f.toNat 0 ∧ ((f = 0 ∨ f = 3) → (s.patch s.cur.patch).fullRate = true)
    (∀ row ∈ Terms.elementFloat, row.2.1 ≠ .mac →
      (∀ x y k₁ k₂ k, Terms.gives (rdScalar a.toNat) ⟨s, i⟩ x k₁ → Terms.gives (rdScalar b.toNat) k₁ y k₂ →
        Terms.gives (wrScalar d.toNat (BitVec.ofNat 32 (fp32.op row.2.1 (row.2.2 r) x.toNat y.toNat 0))) k₂ () k →
        Terms.completes (row.1 d a b f r 0 z n) s k) ∧
      (fits → ∀ x y k₁ k₂ k, Terms.gives (rdWide a.toNat) ⟨s, i⟩ x k₁ → Terms.gives (rdWide b.toNat) k₁ y k₂ →
        let l := Terms.laneBits ⟨s, i⟩
        Terms.gives (wrWide d.toNat l (k₂.i.r.m.getD n.toNat 0) (z == 1)
          (sum row.2.1 (ftOf f) (row.2.2 r) l x y 0)) k₂ () k → Terms.completes (row.1 d a b f r 1 z n) s k)) ∧
    (∀ x y c k₁ k₂ k₃ k, Terms.gives (rdScalar a.toNat) ⟨s, i⟩ x k₁ → Terms.gives (rdScalar b.toNat) k₁ y k₂ →
      Terms.gives (rdS d.toNat) k₂ c k₃ →
      Terms.gives (wrScalar d.toNat (BitVec.ofNat 32 (fp32.op .mac (rmOf r) x.toNat y.toNat c.toNat))) k₃ () k →
      Terms.completes (.fmac d a b f r 0 z n) s k) ∧
    (fits → ∀ x y c k₁ k₂ k₃ k, Terms.gives (rdWide a.toNat) ⟨s, i⟩ x k₁ → Terms.gives (rdWide b.toNat) k₁ y k₂ →
      Terms.gives (rdW d.toNat) k₂ c k₃ →
      let l := Terms.laneBits ⟨s, i⟩
      Terms.gives (wrWide d.toNat l (k₃.i.r.m.getD n.toNat 0) (z == 1) (sum .mac (ftOf f) (rmOf r) l x y c)) k₃ () k →
      Terms.completes (.fmac d a b f r 1 z n) s k) ∧
    (∀ x k₁ k, Terms.gives (rdScalar a.toNat) ⟨s, i⟩ x k₁ →
      Terms.gives (wrScalar d.toNat (BitVec.ofNat 32 (fp32.op .sqrt (rmOf r) x.toNat 0 0))) k₁ () k →
      Terms.completes (.fsqrt d a f r 0 z n) s k) ∧
    (fits → ∀ x k₁ k, Terms.gives (rdWide a.toNat) ⟨s, i⟩ x k₁ →
      let l := Terms.laneBits ⟨s, i⟩
      Terms.gives (wrWide d.toNat l (k₁.i.r.m.getD n.toNat 0) (z == 1) (sum .sqrt (ftOf f) (rmOf r) l x 0 0)) k₁ () k →
      Terms.completes (.fsqrt d a f r 1 z n) s k) ∧
    (i.fuseAt ≠ [2, 1, 1, 3].getD f.toNat 0 → ((f = 0 ∨ f = 3) → (s.patch s.cur.patch).fullRate = true) →
      ∀ row ∈ Terms.elementFloat, exec (row.1 d a b f r 1 z n) s =
        .next ((s.dropRefusals s.cur.patch s.cur.el).elemFault s.cur.patch s.cur.el i .illop 2 (Terms.wordAt ⟨s, i⟩)))

/-- A float operation's result is its exact value rounded once into its format: subnormals (R53), modes (R54), overflow (R55 to R57), the
sign of a zero sum (R58), canonical NaNs (R46) and the cases of R162. A quotient or root that is not exact rounds as any value does that
lies strictly between its two neighbours of enough bits. -/
def Obligations.FloatRounding : Prop :=
  ∀ row ∈ Terms.formats, let f := row.1
    let nan := row.2.1
    let largest := row.2.2.1
    let inf := row.2.2.2
    let signed := fun (s : Bool) (x : Nat) => if s then 2 ^ (f.width - 1) + x else x
    (∀ (rm : Rm) (s : Bool) (m : Nat) (e : Int), m ≠ 0 →
      let y := f.round rm s m e false
      let q₀ : Int := (Nat.log2 m : Int) + e - f.fb
      let q := if f.flush then q₀ else max q₀ (1 - (f.bias : Int) - f.fb)
      let h := min e q
      let big := fun (k : Nat) => Terms.greater k q f.maxMant f.maxExp
      ∃ k, Terms.rounds rm s k (m * 2 ^ (e - h).toNat) (2 ^ (q - h).toNat) ∧
        (big k → y = match rm with
          | .rne => signed s inf
          | .rtz | .satf => signed s largest
          | .rup => if s then signed s largest else inf
          | .rdn => if s then signed s inf else largest) ∧
        (¬ big k → f.flush = true → Terms.greater 1 (-126) k q → y = signed s 0) ∧
        (¬ big k → ¬ (f.flush = true ∧ Terms.greater 1 (-126) k q) → Terms.isValue (f.decode y) s k q)) ∧
    (∀ (rm : Rm) (s : Bool) (m : Nat) (e : Int), f.fb + 1 ≤ Nat.log2 m → f.round rm s m e true = f.round rm s (2 * m + 1) (e - 1) false) ∧
    (f.maxPat = largest ∧ Terms.isValue (f.decode largest) false f.maxMant f.maxExp) ∧
    (∀ (rm : Rm) (a b c : Nat),
      let x := f.decode a
      let y := f.decode b
      let z := f.decode c
      (x = .nan ∨ y = .nan → (∀ o ∈ [FpOp.add, .sub, .mul, .div, .mac], f.op o rm a b c = nan) ∧ ∀ o ∈ [FpOp.eq, .lt, .le], f.op o rm a b c = 0) ∧
      (z = .nan → f.op .mac rm a b c = nan) ∧
      (x = .nan → f.op .sqrt rm a b c = nan ∧ f.op .min rm a b c = f.encode rm y ∧ f.op .max rm a b c = f.encode rm y) ∧
      (x ≠ .nan → y = .nan → f.op .min rm a b c = f.encode rm x ∧ f.op .max rm a b c = f.encode rm x) ∧
      (rm ≠ .satf → x ≠ .nan → a < 2 ^ f.width →
        f.encode rm x = if f.flush = true ∧ a / 2 ^ f.fb % 2 ^ f.eb = 0 then a / 2 ^ (f.width - 1) * 2 ^ (f.width - 1) else a) ∧
      (f.encode rm .nan = nan) ∧ (∀ s, f.encode .satf (.inf s) = signed s largest) ∧
      (∀ s t m n e g, x = .fin s m e → y = .fin t n g →
        f.op .add rm a b c = Terms.summed f rm s m e t n g ∧ f.op .sub rm a b c = Terms.summed f rm s m e (!t) n g ∧
        f.op .mul rm a b c = f.round rm (s != t) (m * n) (e + g) false ∧
        (∀ u o p, z = .fin u o p → f.op .mac rm a b c = Terms.summed f rm u o p (s != t) (m * n) (e + g)) ∧
        (n = 0 → f.op .div rm a b c = if m = 0 then nan else signed (s != t) inf) ∧
        (n ≠ 0 → m = 0 → f.op .div rm a b c = signed (s != t) 0) ∧
        (n ≠ 0 → m ≠ 0 → ∃ k : Nat, f.fb + 1 ≤ Nat.log2 (m * 2 ^ k / n) ∧
          f.op .div rm a b c = f.round rm (s != t) (m * 2 ^ k / n) (e - g - k) (decide (m * 2 ^ k % n ≠ 0))) ∧
        (m = 0 → f.op .sqrt rm a b c = signed s 0) ∧ (m ≠ 0 → s = true → f.op .sqrt rm a b c = nan) ∧
        (m ≠ 0 → s = false → ∃ (r j : Nat) (k : Int), r * r ≤ m * 2 ^ j ∧ m * 2 ^ j < (r + 1) * (r + 1) ∧ e - j = 2 * k ∧ f.fb + 1 ≤ Nat.log2 r ∧
          f.op .sqrt rm a b c = f.round rm false r k (decide (r * r ≠ m * 2 ^ j))) ∧
        (m = 0 → n = 0 → f.op .eq rm a b c = 1 ∧ f.op .lt rm a b c = 0 ∧ f.op .le rm a b c = 1 ∧
          f.op .min rm a b c = signed (s || t) 0 ∧ f.op .max rm a b c = signed (s && t) 0) ∧
        (¬ (m = 0 ∧ n = 0) →
          let less := if s = t then (if s then Terms.greater m e n g else Terms.greater n g m e) else s = true
          (less → f.op .lt rm a b c = 1 ∧ f.op .le rm a b c = 1 ∧ f.op .min rm a b c = f.encode rm x ∧ f.op .max rm a b c = f.encode rm y) ∧
          (¬ less → f.op .lt rm a b c = 0) ∧ (¬ less → ¬ Terms.isValue x t n g → f.op .le rm a b c = 0 ∧ f.op .eq rm a b c = 0 ∧
            f.op .min rm a b c = f.encode rm y ∧ f.op .max rm a b c = f.encode rm x))) ∧
      (∀ s, x = .inf s → rm ≠ .satf →
        (∀ t n g, y = .fin t n g → f.op .add rm a b c = signed s inf ∧ f.op .mul rm a b c = (if n = 0 then nan else signed (s != t) inf)) ∧
        (∀ t, y = .inf t → f.op .add rm a b c = (if s = t then signed s inf else nan) ∧ f.op .div rm a b c = nan) ∧
        f.op .sqrt rm a b c = if s then nan else inf))

/-- The moves (R163), the words between the scalar and wide paths (R164) and the packings of R24 (R168), each once its operands
are there: what it writes, lane by lane. An index out of range, and a bad 6-bit lane, are ILLOP and not among these cases. -/
def Obligations.MoveAndLaneWords : Prop :=
  ∀ (s : State) (i : Inst) (d a b c : BitVec 5) (z sg h : BitVec 1) (wd : BitVec 2) (n : BitVec 3) (wc : BitVec 4),
    Terms.OnTurn s i →
    let l := Terms.laneBits ⟨s, i⟩
    let e := min l 32
    (∀ x k₁ k, Terms.gives (rdScalar a.toNat) ⟨s, i⟩ x k₁ → Terms.gives (wrScalar d.toNat x) k₁ () k →
      Terms.completes (.mov d a 0 z n) s k) ∧
    (∀ x k₁ k, Terms.gives (rdWide a.toNat) ⟨s, i⟩ x k₁ →
      Terms.gives (wrWide d.toNat l (k₁.i.r.m.getD n.toNat 0) (z == 1) ((List.range (256 / l)).map (Terms.laneAt l x))) k₁ () k →
      Terms.completes (.mov d a 1 z n) s k) ∧
    (∀ x y t k₁ k₂ k₃ k, Terms.gives (rdScalar a.toNat) ⟨s, i⟩ x k₁ → Terms.gives (rdScalar b.toNat) k₁ y k₂ →
      Terms.gives (rdScalar c.toNat) k₂ t k₃ → Terms.gives (wrScalar d.toNat (if t ≠ 0 then x else y)) k₃ () k →
      Terms.completes (.sel d a b c 0 z n) s k) ∧
    (∀ x y t k₁ k₂ k₃ k, Terms.gives (rdWide a.toNat) ⟨s, i⟩ x k₁ → Terms.gives (rdWide b.toNat) k₁ y k₂ →
      Terms.gives (rdWide c.toNat) k₂ t k₃ →
      Terms.gives (wrWide d.toNat l (k₃.i.r.m.getD n.toNat 0) (z == 1) ((List.range (256 / l)).map (fun j =>
        if Terms.laneAt l t j ≠ 0 then Terms.laneAt l x j else Terms.laneAt l y j))) k₃ () k →
      Terms.completes (.sel d a b c 1 z n) s k) ∧
    (∀ x k₁, Terms.gives (rdScalar a.toNat) ⟨s, i⟩ x k₁ → k₁.i.pending (16 + wc.toNat) = false →
      ∃ u, Terms.completes (.lbc a sg wc) s (Terms.wroteW k₁ wc.toNat u) ∧ ∀ j < 256 / l, Terms.laneAt l u j =
        (if sg = 1 then (BitVec.ofInt 64 x.toInt).toNat else x.toNat) % 2 ^ l) ∧
    (∀ x k₁ k, Terms.gives (rdScalar a.toNat) ⟨s, i⟩ x k₁ → k₁.i.pending (16 + wc.toNat) = false → x.toNat < 256 / e →
      Terms.gives (wrScalar d.toNat (Terms.extended e (Terms.laneAt e (k₁.i.r.w.getD wc.toNat 0) x.toNat) (sg == 1))) k₁ () k →
      Terms.completes (.lext d a sg wc) s k) ∧
    (∀ x y k₁ k₂, Terms.gives (rdScalar a.toNat) ⟨s, i⟩ x k₁ → Terms.gives (rdScalar b.toNat) k₁ y k₂ →
      k₂.i.pending (16 + wc.toNat) = false → x.toNat < 256 / e →
      ∃ u, Terms.completes (.lins a b wc) s (Terms.wroteW k₂ wc.toNat u) ∧ ∀ j < 256 / e, Terms.laneAt e u j =
        if j = x.toNat then y.toNat % 2 ^ e else Terms.laneAt e (k₂.i.r.w.getD wc.toNat 0) j) ∧
    (∀ x y k₁ k₂, wd ≠ 0 → d.toNat < 16 → Terms.gives (rdWide a.toNat) ⟨s, i⟩ x k₁ → Terms.gives (rdWide b.toNat) k₁ y k₂ →
      k₂.i.pending (16 + d.toNat) = false →
      let old := k₂.i.r.w.getD d.toNat 0
      let p := Terms.subsPerLane wd
      let sb := Terms.subWidth wd
      ∃ u, Terms.completes (.pack d a b sg wd z n) s (Terms.wroteW k₂ d.toNat u) ∧ Terms.laneAt 32 u 7 = Terms.laneAt 32 old 7 ∧
        ∀ j < 7, if (k₂.i.r.m.getD n.toNat 0).getLsbD j then Terms.laneAt 32 u j < 2 ^ (p * sb) ∧
            ∀ q < p, Terms.laneAt 32 u j / 2 ^ (sb * q) % 2 ^ sb = Terms.saturated (sg == 1) sb (Terms.byteOf x y (j * p + q))
          else Terms.laneAt 32 u j = if z = 1 then 0 else Terms.laneAt 32 old j) ∧
    (∀ x k₁, wd ≠ 0 → Terms.gives (rdWide a.toNat) ⟨s, i⟩ x k₁ → (wd = 2 → ∀ j < 7, Terms.laneAt 32 x j < 2 ^ 30) →
      let p := Terms.subsPerLane wd
      let sb := Terms.subWidth wd
      ∃ new, new.length = 8 ∧
        (∀ q < 32, new.getD (q / 4) 0 / 256 ^ (q % 4) % 256 =
          if 7 * p ≤ 32 * h.toNat + q then 0
          else
            let v := Terms.laneAt 32 x ((32 * h.toNat + q) / p) / 2 ^ (sb * ((32 * h.toNat + q) % p)) % 2 ^ sb
            if sg = 1 then (BitVec.ofInt 8 (BitVec.ofNat sb v).toInt).toNat else v) ∧
        ∀ k, Terms.gives (wrWide d.toNat 32 (k₁.i.r.m.getD n.toNat 0) (z == 1) new) k₁ () k →
          Terms.completes (.unpk d a h sg wd z n) s k)

/-- The mask words (R165) and the special registers (R166, R167). A value that breaks a register's SPWR column is ILLOP with
sub-cause 2. -/
def Obligations.MaskAndSpecialWords : Prop :=
  ∀ (s : State) (i : Inst) (d a b sp : BitVec 5) (c : BitVec 2) (n k' : BitVec 3) (z : BitVec 1), Terms.OnTurn s i →
    let l := Terms.laneBits ⟨s, i⟩
    (∀ x y k₁ k₂, Terms.gives (rdWide a.toNat) ⟨s, i⟩ x k₁ → (if c = 0 then k₂ = k₁ else Terms.gives (rdWide b.toNat) k₁ y k₂) →
      ∃ m : Word, Terms.completes (.mlane a b c n z k') s (Terms.wroteM k₂ n.toNat m) ∧
        ∀ j < 32, m.getLsbD j =
          if 256 / l ≤ j then false
          else if (k₂.i.r.m.getD k'.toNat 0).getLsbD j then
            (let u := BitVec.ofNat l (Terms.laneAt l x j)
             let v := BitVec.ofNat l (Terms.laneAt l y j)
             if c = 0 then decide (u ≠ 0) else if c = 1 then decide (u = v)
             else if c = 2 then decide (u.toInt < v.toInt) else decide (u.toNat < v.toNat))
          else if z = 1 then false else (k₂.i.r.m.getD n.toNat 0).getLsbD j) ∧
    (∀ x k₁, Terms.gives (rdScalar a.toNat) ⟨s, i⟩ x k₁ → Terms.completes (.mset a n) s (Terms.wroteM k₁ n.toNat x)) ∧
    (∀ k, Terms.gives (wrScalar d.toNat (i.r.m.getD n.toNat 0)) ⟨s, i⟩ () k → Terms.completes (.mget d n) s k) ∧
    (∀ row ∈ Terms.specialReads, sp.toNat = row.1 → ∀ k, Terms.gives (wrScalar d.toNat (row.2 ⟨s, i⟩)) ⟨s, i⟩ () k →
      Terms.completes (.sprd d sp) s k) ∧
    (∀ x k₁, Terms.gives (rdScalar a.toNat) ⟨s, i⟩ x k₁ →
      let bad := Terms.faults (.spwr a sp) s i .illop 2 (Terms.wordAt k₁)
      (sp = 0 → if x.toNat < 4 then
          Terms.completes (.spwr a sp) s { k₁ with i := { k₁.i with r := { k₁.i.r with fuse := BitVec.ofNat 2 x.toNat }, wFuse := true } }
        else bad) ∧
      (sp = 1 → Terms.completes (.spwr a sp) s (Terms.withEff k₁ (.zset x))) ∧
      (sp = 2 → Terms.completes (.spwr a sp) s (Terms.withEff k₁ (.bset x))) ∧
      (sp = 4 → if x = 0 then Terms.completes (.spwr a sp) s k₁
        else if x = 1 then
          Terms.completes (.spwr a sp) s { k₁ with i := { k₁.i with r := { k₁.i.r with dz := false }, dzClr := true } }
        else bad) ∧
      (16 ≤ sp.toNat →
        let j := (sp.toNat - 16) / 2
        let old := k₁.i.r.cb.getD j 0
        Terms.completes (.spwr a sp) s { k₁ with i := { k₁.i with wC := noted k₁.i.wC (sp.toNat - 16), r := { k₁.i.r with
          cb := k₁.i.r.cb.set j (if sp.toNat % 2 = 0 then BitVec.ofNat 64 (old.toNat / 2 ^ 32 * 2 ^ 32 + x.toNat)
            else BitVec.ofNat 64 (x.toNat * 2 ^ 32 + old.toNat % 2 ^ 32)) } } }))

/-- The queue words (R169, R170), and the words that wait: WAITF and WAITE (R171), FENCE (R212, R313) and DRAIN (R232). A word
that waits notes when it began and changes nothing else. -/
def Obligations.QueueAndWaitWords : Prop :=
  ∀ (s : State) (i : Inst) (d a n : BitVec 5) (ln sc : BitVec 3) (path : BitVec 2), Terms.OnTurn s i →
    let p := s.cur.patch
    let e := s.cur.el
    let v := s.elem p e
    let pos := i.pos.getD (if a.toNat < 20 then a.toNat - 16 else a.toNat - 20) 0
    let moved := fun (k : Wk) (m : Nat) => { k with i := { k.i with pos := k.i.pos.set (if a.toNat < 20 then a.toNat - 16 else a.toNat - 20) m } }
    (∀ u k₁, 16 ≤ a.toNat → Terms.gives (unitAt a.toNat (pos / 8)) ⟨s, i⟩ u k₁ →
      (∀ k, Terms.gives (wrScalar d.toNat (BitVec.ofNat 32 (Terms.laneAt 32 u ln.toNat))) (moved k₁ ((pos / 8 + 1) * 8)) () k →
        Terms.completes (.take d a ln) s k) ∧
      (∀ k, Terms.gives (wrScalar d.toNat (BitVec.ofNat 32 (Terms.laneAt 32 u ln.toNat))) k₁ () k →
        Terms.completes (.peek d a ln) s k)) ∧
    (∀ t k₁, 16 ≤ a.toNat → Terms.gives (useBuffer a.toNat) ⟨s, i⟩ () ⟨s, i⟩ → Terms.gives (unitCount a.toNat) ⟨s, i⟩ t k₁ →
      pos / 8 + n.toNat ≤ t → Terms.completes (.adv a n) s (moved ⟨s, i⟩ ((pos / 8 + n.toNat) * 8))) ∧
    (∀ x k₁, Terms.gives (rdScalar a.toNat) ⟨s, i⟩ x k₁ → badHeader x = false → Terms.gives (useDest d.toNat) k₁ () k₁ →
      let ls := k₁.i.outs.getD (d.toNat - 20) []
      Terms.completes (.emit d a) s (Terms.putInto k₁ d.toNat (List.replicate (7 - ls.length % 8) 0 ++ [x]))) ∧
    (24 ≤ a.toNat → cbValid (i.liveHandle v (a.toNat - 24)) = true →
      let c := a.toNat - 24
      let h := i.liveHandle v c
      let filled := claimed i.clF c
      let taken := claimed i.clE c
      let fill := cbFill h + filled
      let take := cbTake h + taken
      let fs := slotWords p e h fill n.toNat
      let es := slotWords p e h take n.toNat
      let ours := claimedBy v i.id c = false ∧ v.promised i.id c = false
      let mayF := fun (t : State) => s.ownTest p e i .elem (vaultPlace p e 0) fs = some t ∧ ours ∧
        cbOcc h + filled + n.toNat ≤ cbNslot h ∧ s.allMarked fs true = true
      let mayE := fun (t : State) => s.ownTest p e i .elem (vaultPlace p e 0) es = some t ∧ ours ∧
        taken + n.toNat ≤ cbOcc h ∧ s.allMarked es false = true
      (∀ t, mayF t → ∀ k, Terms.gives (wrScalar d.toNat (BitVec.ofNat 32 (fill % 2 ^ 15)))
        ⟨t.flushWords fs, { i with clF := i.clF ++ [(c, n.toNat)] }⟩ () k → Terms.completes (.waitf d a n) s k) ∧
      ((∀ t, ¬ mayF t) → Terms.waits (.waitf d a n) s i none) ∧
      (∀ t, mayE t → ∀ k, Terms.gives (wrScalar d.toNat (BitVec.ofNat 32 (take % 2 ^ 15)))
        ⟨t.flushWords es, { i with clE := i.clE ++ [(c, n.toNat)] }⟩ () k → Terms.completes (.waite d a n) s k) ∧
      ((∀ t, ¬ mayE t) → Terms.waits (.waite d a n) s i none)) ∧
    (let m := (i.cover.getD [s.ord.nextId]).headD 0
     let met := i.loads = [] ∧ s.allPerformed (.elem p e) m (scopeOf sc) = true
     (met → Terms.completes (.fence sc) s ⟨s, i⟩) ∧
     (¬ met → Terms.waits (.fence sc) s i (some [m]))) ∧
    (let open_ := (v.cmds.filter (fun c => c.2 == path.toNat)).map (fun c => c.1)
     let covered := i.cover.getD open_
     ((∀ m ∈ covered, m ∉ open_) → Terms.completes (.drain path) s ⟨s, i⟩) ∧
     (¬ (∀ m ∈ covered, m ∉ open_) → Terms.waits (.drain path) s i (some covered)))

/-- The block-control words (R178, R96), LGEN (R176) and RROT (R174, R175): what each leaves for its instance's commit. -/
def Obligations.BlockControlWords : Prop :=
  ∀ (s : State) (i : Inst) (blk r : BitVec 4) (c bk : BitVec 1) (m t : BitVec 2) (g : BitVec 14) (d a b : BitVec 5), Terms.OnTurn s i →
    Terms.completes .commit s ⟨s, i⟩ ∧
    Terms.completes .halt s ⟨s, { i with halt := true }⟩ ∧
    (∀ b, smFind (s.elem s.cur.patch s.cur.el).blocks blk.toNat = some b → b.st = false →
      (c = 1 → Terms.readable i r.toNat) → (m = 2 → Terms.readable i (g.toNat % 16)) →
      let taken := c = 0 ∨ i.r.s.getD r.toNat 0 ≠ 0
      let tag : BitVec 12 := if m = 0 then i.tag else if m = 1 then i.tag + 1
        else if m = 2 then BitVec.ofNat 12 (i.r.s.getD (g.toNat % 16) 0).toNat else BitVec.ofNat 12 g.toNat
      (taken → Terms.completes (.br blk c r m g) s ⟨s, { i with branch := some (blk.toNat, tag) }⟩) ∧
      (¬ taken → Terms.completes (.br blk c r m g) s ⟨s, i⟩)) ∧
    ((∀ b, smFind (s.elem s.cur.patch s.cur.el).blocks blk.toNat = some b → b.st = true) →
      Terms.faults (.br blk c r m g) s i .illop 0 (Terms.wordAt ⟨s, i⟩)) ∧
    (∀ x y k₁ k₂, Terms.gives (rdScalar a.toNat) ⟨s, i⟩ x k₁ → Terms.gives (rdScalar b.toNat) k₁ y k₂ →
      Terms.completes (.lgen d a b t) s (Terms.withEff k₂ (.arm (d.toNat - 20) (.gen 0 x y i.tag (t == 1))))) ∧
    (∀ x y k₁ k₂, Terms.gives (rdScalar a.toNat) ⟨s, i⟩ x k₁ → Terms.gives (rdScalar b.toNat) k₁ y k₂ →
      let src := ringSource s.cur.el (bk == 1)
      let bad := x.toNat % 256 ≠ 0 ∨ y.toNat % 256 ≠ 0 ∨ y.toNat < 256 ∨ 65536 < y.toNat ∨ 0x80000 < x.toNat + y.toNat
      (¬ bad → ∀ k, Terms.gives (wrScalar d.toNat (BitVec.ofNat 32 (ringIndex src)))
        { k₂ with i := { k₂.i with rot := some ⟨x.toNat, y.toNat, bk == 1, src⟩ } } () k → Terms.completes (.rrot d a b bk) s k) ∧
      (bad → Terms.faults (.rrot d a b bk) s i .illop 2 (Terms.wordAt k₂))) ∧
    (s.cur.el < 64 → ringSource s.cur.el false < 64 ∧ ringSource s.cur.el true < 64 ∧
      (ringIndex (ringSource s.cur.el false) + 1) % 64 = ringIndex s.cur.el ∧
      ringIndex (ringSource s.cur.el true) = (ringIndex s.cur.el + 1) % 64)

/-- The TIME family (R237), the frontier registers (R246 to R248) and the CAP family (R245), each with its operands there. -/
def Obligations.TimeWords : Prop :=
  ∀ (s : State) (i : Inst) (d a b : BitVec 5), Terms.OnTurn s i →
    (∀ x y k₁ k₂, Terms.gives (rdPair a.toNat) ⟨s, i⟩ x k₁ → Terms.gives (rdPair b.toNat) k₁ y k₂ →
      (∀ k (w : Word), ((Terms.before x y ∧ x ≠ y → w = 0) ∧ (x = y → w = 1) ∧ (Terms.before y x ∧ x ≠ y → w = 2) ∧
          (¬ Terms.before x y → ¬ Terms.before y x → w = 3)) → Terms.gives (wrS d.toNat w) k₂ () k → Terms.completes (.tcmp d a b) s k) ∧
      (∀ k, Terms.gives (wrPair d.toNat (Terms.timeOf (max (Terms.outer x) (Terms.outer y)) (max (Terms.iter x) (Terms.iter y))
        (max (Terms.inner x) (Terms.inner y)))) k₂ () k → Terms.completes (.tjoin d a b) s k) ∧
      (∀ k, Terms.gives (wrPair d.toNat (Terms.timeOf (min (Terms.outer x) (Terms.outer y)) (min (Terms.iter x) (Terms.iter y))
        (min (Terms.inner x) (Terms.inner y)))) k₂ () k → Terms.completes (.tmeet d a b) s k) ∧
      (Terms.before x y → Terms.completes (.capx d a b) s (Terms.withEff k₂ (.capX (d.toNat - 20) x y))) ∧
      (¬ Terms.before x y → Terms.faults (.capx d a b) s i .illop 2 y)) ∧
    (∀ x k₁, Terms.gives (rdPair a.toNat) ⟨s, i⟩ x k₁ →
      (∀ k, Terms.gives (wrPair d.toNat (Terms.advanced (Terms.latched k₁ b.toNat).1.times x)) (Terms.latched k₁ b.toNat).2 () k →
        Terms.completes (.tadv d a b) s k) ∧
      Terms.completes (.caph d a) s (Terms.withEff k₁ (.capH (d.toNat - 20) x)) ∧
      Terms.completes (.capd d a) s (Terms.withEff k₁ (.capD (d.toNat - 20) x))) ∧
    (let f := Terms.latched ⟨s, i⟩ a.toNat
     (f.2.i.pending (16 + d.toNat) = false → ∃ u, Terms.completes (.frd d a) s (Terms.wroteW f.2 d.toNat u) ∧
       ∀ j < 4, Terms.laneAt 64 u j = (f.1.times.getD j 0).toNat) ∧
     (∀ k, Terms.gives (wrS d.toNat (BitVec.ofNat 32 ((if f.1.apx then 8 else 0) + min f.1.times.length 4))) f.2 () k →
       Terms.completes (.frdCnt d a) s k)) ∧
    (∀ u k₁, Terms.gives (rdPair d.toNat) ⟨s, i⟩ u k₁ →
      let f := (s.elem s.cur.patch s.cur.el).ft.getD a.toNat ⟨false, [0]⟩
      ((∀ t ∈ f.times, ¬ Terms.before t u) →
        Terms.completes (.fwait d a) s { k₁ with i := { k₁.i with ftl := k₁.i.ftl.set a.toNat (some f) } }) ∧
      ((∃ t ∈ f.times, Terms.before t u) → Terms.waits (.fwait d a) s i none))

/-- The loads and stores of an element (R210, R211): a load is issued under the next number and fills its registers later; a
store waits for the commit with its bytes, least significant first. What the load brings is `Obligations.ReadsFind`. -/
def Obligations.LoadAndStoreWords : Prop :=
  ∀ (s : State) (i : Inst) (d a : BitVec 5) (o : BitVec 12) (sc : BitVec 3) (pl : Place) (eff : DWord), Terms.OnTurn s i →
    let k : Wk := ⟨s, i⟩
    (∀ row ∈ Terms.elementLoads, Terms.points k a.toNat (o.toInt * row.2.1) row.2.1 row.2.1 .plain pl eff →
      (∀ r ∈ Terms.filled row.2.1 d.toNat, i.pending r = false) →
      let parts := Terms.loadParts row.2.1 d.toNat
      let m := s.ord.nextId
      let part := fun (q : Nat) => let x := parts.getD q (0, 0, 0)
        (⟨m + q, .elem s.cur.patch s.cur.el, scopeOf sc, { pl with addr := pl.addr + x.2.1 },
          .load (pl.addr + x.2.1) x.2.2 (.inst s.cur.patch s.cur.el i.id x.1 x.2.2 row.2.2.1 (row.2.1 == 32)), row.2.2.2, false, false,
          eff + BitVec.ofNat 64 x.2.1, s.clock.ns, m, some (i.id, i.pc)⟩ : Access)
      let t : State := { s with ord := { s.ord with
        accs := s.ord.accs ++ (List.range parts.length).map part, nextId := m + parts.length } }
      let i' := (Terms.filled row.2.1 d.toNat).foldl (fun i r => i.disown r) i
      let ls := i.loads ++ (List.range parts.length).map (fun q => (m + q, Terms.filled row.2.1 d.toNat))
      Terms.completes (row.1 d a o sc) s ⟨t, { i' with loads := ls }⟩) ∧
    (∀ row ∈ Terms.elementStores, Terms.points k a.toNat (o.toInt * row.2.1) row.2.1 row.2.1 .plain pl eff →
      ∀ x : Nat, (if row.2.1 = 32 then ∃ u, Terms.gives (rdW d.toNat) k u k ∧ x = u.toNat
          else if row.2.1 = 8 then ∃ u, Terms.gives (rdPair d.toNat) k u k ∧ x = u.toNat
          else ∃ u, Terms.gives (rdS d.toNat) k u k ∧ x = u.toNat) →
        Terms.completes (row.1 d a o sc) s (Terms.withEff k (.store ⟨pl, Terms.spelled pl.addr row.2.1 x, [], scopeOf sc, row.2.2, eff, false⟩)))

/-- The full/empty forms (R213). A place without full/empty bits is ILLOP with sub-cause 2 (R215), and so is a count above
65,536. LDF of another module's word is the model's choice (log 45). -/
def Obligations.FullEmptyWords : Prop :=
  ∀ (s : State) (i : Inst) (d a : BitVec 5) (o : BitVec 12) (sc : BitVec 3) (pl : Place) (eff : DWord), Terms.OnTurn s i →
    let k : Wk := ⟨s, i⟩
    let ag : AgentId := .elem s.cur.patch s.cur.el
    let bad := fun (j : Instr) => Terms.faults j s i .illop 2 (Terms.wordAt k)
    (Terms.points k a.toNat (o.toInt * 8) 8 8 .owner pl eff →
      let w := pl.addr / 8
      let full := s.allMarked [w] true = true
      let n := ownId i.id i.pc w
      let queued := ∃ r ∈ (s.elem s.cur.patch s.cur.el).replay, r.agent = ag ∧ r.id = n
      (pl.fe = false → bad (.ldf d a o sc) ∧ bad (.ldfe d a o sc)) ∧
      (pl.fe = true →
        (s.ownTest s.cur.patch s.cur.el i (scopeOf sc) pl [w] = none → Terms.waits (.ldf d a o sc) s i none) ∧
        (∀ u, s.ownTest s.cur.patch s.cur.el i (scopeOf sc) pl [w] = some u →
          let served := u.present ag n [false] [w]
          (Terms.local_ pl → full → served.2 = true → let t := served.1.flushWords [w]
            ∀ k', Terms.gives (wrPair d.toNat (t.ownWord pl.addr)) ⟨t, i⟩ () k' → Terms.completes (.ldf d a o sc) s k') ∧
          (Terms.local_ pl → full → served.2 = false → Terms.holdsMore (.ldf d a o sc) s served.1 i) ∧
          (Terms.local_ pl → ¬ full → queued → Terms.holdsMore (.ldf d a o sc) s (u.unpresent ag n w) i) ∧
          (Terms.local_ pl → ¬ full → ¬ queued → Terms.waits (.ldf d a o sc) s i none) ∧
          (¬ Terms.local_ pl → ∀ k', Terms.gives (wrPair d.toNat (Config.freeDWord (s.free + 1))) ⟨{ u with free := s.free + 2 }, i⟩ () k' →
            if Config.freeBool s.free then Terms.waits (.ldf d a o sc) s i none else Terms.completes (.ldf d a o sc) s k')) ∧
        Terms.completes (.ldfe d a o sc) s (Terms.withIrr k (.owner pl (scopeOf sc) false false .ldfe [d.toNat, d.toNat + 1] eff)) ∧
        ∀ x, Terms.gives (rdPair d.toNat) k x k →
          Terms.completes (.ste d a o sc) s (Terms.withIrr k (.owner pl (scopeOf sc) false false (.ste x) [] eff)))) ∧
    (∀ x, Terms.gives (rdPair d.toNat) k x k → Terms.points k a.toNat (o.toInt * 8) 8 8 .plain pl eff →
      (pl.fe = false → bad (.stf d a o sc)) ∧
      (pl.fe = true → Terms.completes (.stf d a o sc) s
        (Terms.withEff k (.store ⟨pl, Terms.spelled pl.addr 8 x.toNat, [(pl.addr / 8, true)], scopeOf sc, false, eff, false⟩)))) ∧
    (∀ x v, Terms.gives (rdS d.toNat) k x k → Terms.gives (rdPair a.toNat) k v k →
      let n := x.toNat
      let off := o.toInt * 8
      (65536 < n → bad (.feclr d a o sc)) ∧
      (n ≤ 65536 → Terms.gives (wPointer v off 8 (8 * n) .plain) k (pl, eff) k → pl.fe = true →
        let parts := pieces (v + BitVec.ofInt 64 off).toNat (8 * n) 10
        ∀ ps : List (Place × DWord), ps.length = parts.length →
          (∀ j < parts.length, let x := parts.getD j (0, 0)
            (ps.getD j (pl, 0)).1.fe = true ∧ Terms.gives (wPointer v (off + x.1) 8 x.2 .plain) k (ps.getD j (pl, 0)) k) →
          Terms.completes (.feclr d a o sc) s (Terms.withEffs k ((ps.zip parts).map (fun x =>
            .store ⟨x.1.1, [], (List.range (x.2.2 / 8)).map (fun j => (x.1.1.addr / 8 + j, false)), scopeOf sc, false, x.1.2, false⟩)))))

/-- The words whose operation the commit performs: atomics (R217), place words (R221, R222), engine words (R225); and THAW and
BUBL (R234). What the owner or the engine then does is `Obligations.AtomicEffect`, `Obligations.ReadsFind` and
`Obligations.EngineCommands`. -/
def Obligations.IrrevocableWords : Prop :=
  ∀ (s : State) (i : Inst) (d a b : BitVec 5) (ar w : BitVec 1) (sc : BitVec 3) (pl : Place) (eff : DWord), Terms.OnTurn s i →
    let k : Wk := ⟨s, i⟩
    (∀ row ∈ Terms.elementAtomics, ∀ y e, Terms.holdsIn k w b.toNat y → (row.2 = .cas → Terms.holdsIn k w d.toNat e) →
      Terms.points k a.toNat 0 (if w = 1 then 8 else 4) (if w = 1 then 8 else 4) .owner pl eff →
      Terms.completes (row.1 d a b ar w sc) s (Terms.withIrr k (.owner pl (scopeOf sc) (ar == 1) (ar == 1)
        (if row.2 = .cas then .atomic .cas (w == 1) e y else .atomic row.2 (w == 1) y 0)
        (if w = 1 then [d.toNat, d.toNat + 1] else [d.toNat]) eff))) ∧
    (Terms.points k a.toNat 0 64 64 .owner pl eff → pl.fe = true →
      Terms.completes (.place d a sc) s
        (Terms.withIrr k (.owner pl (scopeOf sc) false false (.placeNew (Terms.contextOf k)) [d.toNat] eff)) ∧
      ∀ row ∈ Terms.placeWords, ∀ h x, Terms.gives (rdS b.toNat) k h k →
        (if row.2.2.2.2.1 then Terms.gives (rdS d.toNat) k x k else x = 0) →
        Terms.completes (row.1 d a b sc) s (Terms.withIrr k (.owner pl (scopeOf sc) row.2.2.1 row.2.2.2.1
          (.placeOp row.2.1 (Terms.contextOf k) h x (((s.loadOf s.cur.patch).map (fun l => l.patches.length)).getD 1))
          (if row.2.2.2.2.2 then [d.toNat] else []) eff))) ∧
    (∀ row ∈ Terms.engineWords, Terms.points k a.toNat 0 64 row.2.2 .plain pl eff →
      Terms.completes (row.1 d a sc) s (Terms.withIrr k (.engine row.2.1 (scopeOf sc) [d.toNat] eff))) ∧
    (∀ x y, Terms.gives (rdS a.toNat) k x k →
      let bad := fun (j : Instr) => Terms.faults j s i .illop 2 (Terms.wordAt k)
      (x.toNat ≤ 15 → Terms.completes (.thaw d a) s (Terms.withEff ⟨s, i.disown d.toNat⟩ (.thaw d.toNat x.toNat))) ∧
      (15 < x.toNat → bad (.thaw d a)) ∧
      (Terms.gives (rdS b.toNat) k y k →
        (x.toNat ≤ 15 → y.toNat ≤ 1 → Terms.completes (.bubl d a b) s (Terms.withEff ⟨s, i.disown d.toNat⟩ (.bubl d.toNat x.toNat y.toNat))) ∧
        (15 < x.toNat ∨ 1 < y.toNat → bad (.bubl d a b))))

/-- The words of arrangements (R255 to R263), each once its reads are admitted and its result fits: what it writes, emits and
answers. AMRG and ACMP run while no word of another instance has started on the matrix unit (R183). RED takes the keys of the batch in
ascending order, which is the model's reading (log 46). -/
def Obligations.ArrangementWords : Prop :=
  ∀ (s : State) (i : Inst) (d a b c : BitVec 5) (vs : BitVec 1) (ks port : BitVec 2) (rk : BitVec 3), Terms.OnTurn s i →
    (∀ v n at_ k₁ us k₂ k₃ k₄ k, Terms.gives (rdPair a.toNat) ⟨s, i⟩ v ⟨s, i⟩ → Terms.gives (rdS b.toNat) ⟨s, i⟩ n ⟨s, i⟩ → n.toNat ≤ 16384 →
      Terms.gives (arrPlace v 32) ⟨s, i⟩ at_ ⟨s, i⟩ → Terms.gives (claimArr [at_]) ⟨s, i⟩ () k₁ → Terms.gives (readUnits v n.toNat) k₁ us k₂ →
      (∀ u ∈ us, isChange u = true ∧ badHeader (lane u 7) = false) →
      let r := consolidate ((us.filter (fun u => uKind u == 1)).map recOf)
      let out := r.1.map (fun x => x.unit 0 0) ++ us.filter (fun u => uKind u != 1)
      (if out = [] then k₃ = k₂ else Terms.gives (writerOf at_) k₂ () k₃) →
      Terms.gives (writePtr v 0 (out.flatMap (fun u => leBytes 32 u.toNat))) k₃ () k₄ →
      Terms.gives (wrS d.toNat (Terms.statusOf r.2 out.length)) k₄ () k → Terms.completes (.acon d a b) s k) ∧
    (∀ v w n at_ bt k₁ x k₂ us k₃ k₄ k₅ k, Terms.gives (rdPair a.toNat) ⟨s, i⟩ v ⟨s, i⟩ → Terms.gives (rdPair b.toNat) ⟨s, i⟩ w ⟨s, i⟩ →
      Terms.gives (rdS c.toNat) ⟨s, i⟩ n ⟨s, i⟩ → n.toNat ≤ 16384 → Terms.gives (arrPlace v 64) ⟨s, i⟩ at_ ⟨s, i⟩ →
      Terms.gives (arrPlace w 32) ⟨s, i⟩ bt ⟨s, i⟩ → Terms.gives (claimArr [at_]) ⟨s, i⟩ () k₁ → Terms.gives (readArr v) k₁ x k₂ → x.runs.length ≠ 16 →
      Terms.gives (readUnits w n.toNat) k₂ us k₃ → (∀ u ∈ us, uKind u ≠ 0 ∧ badHeader (lane u 7) = false) →
      let rs := (us.filter (fun u => uKind u == 1)).map recOf
      consolidated rs = true →
      (if rs = [] then k₅ = k₃
        else ({ x with runs := x.runs ++ [rs] } : Arr).fit = true ∧ Terms.gives (writerOf at_) k₃ () k₄ ∧
          Terms.gives (writeArr v { x with runs := x.runs ++ [rs] } x.runs.length) k₄ () k₅) →
      Terms.gives (wrS d.toNat (Terms.statusOf false (x.runs.length + if rs = [] then 0 else 1))) k₅ () k → Terms.completes (.ains d a b c) s k) ∧
    (Terms.unitFree s i → ∀ v n at_ k₁ x k₂ k₃ k₄ k, Terms.gives (rdPair a.toNat) ⟨s, i⟩ v ⟨s, i⟩ → Terms.gives (rdS b.toNat) ⟨s, i⟩ n ⟨s, i⟩ →
      Terms.gives (arrPlace v 64) ⟨s, i⟩ at_ ⟨s, i⟩ → Terms.gives (claimArr [at_]) ⟨s, i⟩ () k₁ → Terms.gives (readArr v) k₁ x k₂ →
      2 ≤ n.toNat → n.toNat ≤ 16 → n.toNat ≤ x.runs.length →
      let keep := x.runs.take (x.runs.length - n.toNat)
      let old := (x.runs.drop (x.runs.length - n.toNat)).flatten
      let r := consolidate old
      let y : Arr := { x with runs := keep ++ groups (2 ^ 24 - 1) n.toNat r.1 }
      recCount x.runs + old.length ≤ x.caprec → keyCount y.runs ≤ x.kcap → Terms.gives (writerOf at_) k₂ () k₃ →
      Terms.gives (writeArr v y keep.length) k₃ () k₄ →
      Terms.gives (wrS d.toNat (Terms.statusOf r.2 r.1.length)) k₄ () k → Terms.completes (.amrg d a b) s k) ∧
    (Terms.unitFree s i → ∀ v at_ k₁ x k₂ k₃ k₄ k₅ k, Terms.gives (rdPair a.toNat) ⟨s, i⟩ v ⟨s, i⟩ →
      let f := Terms.latched ⟨s, i⟩ b.toNat
      Terms.gives (arrPlace v 64) f.2 at_ f.2 → Terms.gives (claimArr [at_]) f.2 () k₁ → Terms.gives (readArr v) k₁ x k₂ →
      let ts := f.1.times.take 4
      (∀ t ∈ ts, ∃ u ∈ x.since, Terms.before u t) →
      let rs := x.runs.map (fun r => consolidate (r.map (fun y => { y with time := Terms.advanced ts y.time })))
      let y : Arr := { x with runs := (rs.map (fun r => r.1)).filter (fun r => !r.isEmpty), since := ts }
      Terms.gives (writerOf at_) k₂ () k₃ → Terms.gives (writeArr v y 0) k₃ () k₄ → Terms.gives (writeSince v y) k₄ () k₅ →
      Terms.gives (wrS d.toNat (Terms.statusOf (rs.any (fun r => r.2)) y.runs.length)) k₅ () k → Terms.completes (.acmp d a b) s k) ∧
    (∀ v key at_ k₁ x k₂ k, Terms.gives (rdPair a.toNat) ⟨s, i⟩ v ⟨s, i⟩ → Terms.gives (rdPair b.toNat) ⟨s, i⟩ key ⟨s, i⟩ →
      Terms.gives (arrPlace v 64) ⟨s, i⟩ at_ ⟨s, i⟩ → Terms.gives (claimArr [at_]) ⟨s, i⟩ () k₁ → Terms.gives (readArr v) k₁ x k₂ →
      let rs := x.runs.flatten.filter (fun r => r.key == key)
      let us := Terms.lastMarked (fun (r : ARec) f => r.slot (header 0 k₂.i.tag f)) (if rs = [] then [⟨key, 0, 0, 0⟩] else rs)
      Terms.gives (wrS d.toNat (BitVec.ofNat 32 rs.length)) (Terms.withEff k₂ (.arm port.toNat (.units us))) () k →
      Terms.completes (.aprb d a b port) s k) ∧
    (∀ v at_ k₁ x k₂ us k₃ k, Terms.gives (rdPair a.toNat) ⟨s, i⟩ v ⟨s, i⟩ →
      Terms.gives (arrPlace v 64) ⟨s, i⟩ at_ ⟨s, i⟩ → Terms.gives (claimArr [at_]) ⟨s, i⟩ () k₁ → Terms.gives (readArr v) k₁ x k₂ →
      Terms.gives (rdRest b.toNat) k₂ us k₃ → (∀ u ∈ us, uKind u ≠ 0) →
      let ps := us.filter (fun u => uKind u == 1)
      ps.length ≤ 1024 →
      let rows := x.runs.flatten.flatMap (fun r => ((ps.map recOf).filter (fun q => q.key == r.key)).map (fun q =>
        (⟨if ks = 0 then q.key else if ks = 1 then q.val else r.val, if vs = 1 then r.val else q.val,
          Terms.timeOf (max (Terms.outer q.time) (Terms.outer r.time)) (max (Terms.iter q.time) (Terms.iter r.time))
            (max (Terms.inner q.time) (Terms.inner r.time)), q.diff * r.diff⟩ : ARec)))
      (∀ r ∈ rows, -2 ^ 31 ≤ r.diff ∧ r.diff < 2 ^ 31) →
      let rep := if ∃ u ∈ ps, (uFlags u).getLsbD 1 = true then 2 else 0
      let out := us.filter (fun u => uKind u != 1) ++ Terms.lastMarked (fun r f => r.unit k₃.i.tag (rep + f)) rows
      Terms.gives (wrS d.toNat (BitVec.ofNat 32 rows.length)) (Terms.withEff k₃ (.arm port.toNat (.units out))) () k →
      Terms.completes (.join d a b vs ks port) s k) ∧
    (∀ va vb pa pb k₁ x k₂ y k₃ cs k₄ k₅ k₆ k, Terms.gives (rdPair a.toNat) ⟨s, i⟩ va ⟨s, i⟩ → Terms.gives (rdPair b.toNat) ⟨s, i⟩ vb ⟨s, i⟩ →
      Terms.gives (arrPlace va 64) ⟨s, i⟩ pa ⟨s, i⟩ → Terms.gives (arrPlace vb 64) ⟨s, i⟩ pb ⟨s, i⟩ →
      Terms.gives (claimArr [pa, pb]) ⟨s, i⟩ () k₁ → Terms.gives (readArr va) k₁ x k₂ → Terms.gives (readArr vb) k₂ y k₃ →
      let batch := x.runs.getLast?.getD []
      let of_ := fun (z : Arr) (q : DWord) => z.runs.flatten.filter (fun r => r.key == q)
      Terms.gives ((sortBy (fun (x y : DWord) => decide (x.toNat < y.toNat)) (batch.map (fun r => r.key)).dedup).foldlM (fun l q => do
        pure (l ++ (← redKey rk.toNat q batch (of_ x q) (of_ y q)))) ([] : List ARec)) k₃ cs k₄ →
      (if cs = [] then k₆ = k₄
        else ({ y with runs := y.runs ++ [(consolidate cs).1] } : Arr).fit = true ∧ Terms.gives (writerOf pb) k₄ () k₅ ∧
          Terms.gives (writeArr vb { y with runs := y.runs ++ [(consolidate cs).1] } y.runs.length)
            (Terms.withEff k₅ (.arm port.toNat (.units (Terms.lastMarked (fun r f => r.unit k₅.i.tag f) cs)))) () k₆) →
      Terms.gives (wrS d.toNat (BitVec.ofNat 32 cs.length)) k₆ () k → Terms.completes (.red d a b rk port) s k)

/-- Consolidating (R252) keeps every sum of diffs, and gives the consolidated form where no sum had to be closed. -/
def Obligations.ConsolidationKeepsSums : Prop :=
  ∀ l : List ARec, (∀ x ∈ l, -2 ^ 31 ≤ x.diff ∧ x.diff < 2 ^ 31) →
    let r := consolidate l
    let total := fun (m : List ARec) (k v t : DWord) =>
      ((m.filter (fun x => x.key == k && x.val == v && x.time == t)).map (fun x => x.diff)).sum
    (∀ k v t, total r.1 k v t = total l k v t) ∧ (∀ x ∈ r.1, x.diff ≠ 0 ∧ -2 ^ 31 ≤ x.diff ∧ x.diff < 2 ^ 31) ∧
    (r.2 = false → consolidated r.1 = true ∧ r.1.Pairwise (fun x y => ¬ (x.key = y.key ∧ x.val = y.val ∧ x.time = y.time)))

/-- The multiplies (R187), while no word of another instance has started on the matrix unit; they hold while one has (R183). What `matrixWord` does is written out for the byte formats, whose sums are exact; for the other
formats the second clause gives its parts. -/
def Obligations.MatrixWords : Prop :=
  (∀ (s : State) (i : Inst) (t : BitVec 2) (a b : BitVec 5) (f : BitVec 4) (df clr : BitVec 1) (rm : BitVec 3), Terms.OnTurn s i →
    (¬ Terms.unitFree s i → ∀ w ∈ [Instr.mma t a b f df clr rm, Instr.mmag t a b f df clr rm],
      exec w s = .next (if i.since.isSome || i.pullAt.isSome then s.clearWait s.cur.patch s.cur.el i.id else s)) ∧
    (Terms.unitFree s i → Terms.admits ⟨s, i⟩ (decide (f.toNat ≤ 1)) →
    (∀ ta ma k₁ tb mb k₂ k₃ k, Terms.gives (rdTile a.toNat (tileBytes f.toNat) 256) ⟨s, i⟩ (ta, ma) k₁ →
      Terms.gives (rdTile b.toNat (tileBytes f.toNat) 256) k₁ (tb, mb) k₂ →
      (if df = 1 then Terms.gives (dataflow [(a.toNat, tileBytes f.toNat), (b.toNat, tileBytes f.toNat)]) k₂ () k₃ else k₃ = k₂) →
      Terms.gives (matrixWord t.toNat f.toNat (clr == 1) (rmOf rm) ta tb) k₃ () k → Terms.completes (.mma t a b f df clr rm) s k) ∧
    (∀ rc mr k₁ tb mb k₂ k₃ ta k₄ k, Terms.gives (rdTile a.toNat 160 32) ⟨s, i⟩ (rc, mr) k₁ →
      Terms.gives (rdTile b.toNat (tileBytes f.toNat) 256) k₁ (tb, mb) k₂ →
      (if df = 1 then Terms.gives (dataflow [(b.toNat, tileBytes f.toNat)]) k₂ () k₃ else k₃ = k₂) →
      Terms.gives (gatherTile f.toNat rc) k₃ ta k₄ →
      Terms.gives (matrixWord t.toNat f.toNat (clr == 1) (rmOf rm) ta tb) k₄ () k → Terms.completes (.mmag t a b f df clr rm) s k))) ∧
  (∀ (k : Wk) (t f : Nat) (clr : Bool) (rm : Rm) (a b : List Byte),
    let old := k.i.r.acc.getD t []
    let cleared : SMap Word := if clr then (if f = 0 then old.filter (fun x => decide (2048 ≤ x.1)) else []) else old
    let wrote := fun (k : Wk) (acc : SMap Word) (n : Nat) =>
      Terms.withEff { k with i := { k.i with r := { k.i.r with acc := k.i.r.acc.set t acc }, wA := noted k.i.wA t } } (.zskip (BitVec.ofNat 32 n))
    (f = 6 ∨ f = 7 → ∃ acc n, Terms.gives (matrixWord t f clr rm a b) k () (wrote k acc n) ∧ ∀ i < 64, ∀ j < 64,
      (smGet 0 acc (64 * i + j)).toNat = (BitVec.ofInt 32 ((smGet 0 cleared (64 * i + j)).toNat + Terms.byteDot (Terms.byteValue f) a b i j)).toNat) ∧
    (f ≤ 7 → Terms.gives (matrixWord t f clr rm a b) k () (wrote k (multiply f rm cleared a b).1 (multiply f rm cleared a b).2)) ∧
    (9 ≤ f → ∀ es k₁ ma k₂ mb k₃, Terms.gives (scaleExps (List.range 256)) k es k₁ → Terms.gives (tileBlocks f a) k₁ ma k₂ →
      Terms.gives (tileBlocks f b) k₂ mb k₃ →
      Terms.gives (matrixWord t f clr rm a b) k () (wrote k₃ (multiplyBfp f rm cleared ma mb es).1 (multiplyBfp f rm cleared ma mb es).2)))

/-- The words that move tiles (R193, R194) and SORTN (R195, R196), while no word of another instance has started on the matrix unit
(R183). LDT runs once its vault's replay queue is empty (R337). -/
def Obligations.TileWords : Prop :=
  ∀ (s : State) (i : Inst) (t : BitVec 2) (a b : BitVec 5) (f : BitVec 4) (u dn : BitVec 1), Terms.OnTurn s i → Terms.unitFree s i →
    let words := if f = 0 then 2048 else 4096
    let n := if f.toNat = 0 then 32 else 64
    (Terms.admits ⟨s, i⟩ (f == 0) → ∀ bs m k₁, Terms.gives (rdTile a.toNat (4 * words) 256) ⟨s, i⟩ (bs, m) k₁ → bs.length = 4 * words →
      let old := k₁.i.r.acc.getD t.toNat []
      ∃ acc, Terms.completes (.accld t a f) s { k₁ with i := { k₁.i with r := { k₁.i.r with acc := k₁.i.r.acc.set t.toNat acc }, wA := noted k₁.i.wA t.toNat } } ∧
        (∀ j < words, smGet 0 acc j = BitVec.ofNat 32 (numAt bs (4 * j) 4)) ∧
        (f = 0 → ∀ j, 2048 ≤ j → j < 4096 → smGet 0 acc j = smGet 0 old j)) ∧
    (Terms.admits ⟨s, i⟩ (f == 0) →
      let bs := (List.range words).flatMap (fun j => (List.range 4).map (fun q => BitVec.ofNat 8 ((smGet 0 (i.r.acc.getD t.toNat []) j).toNat / 256 ^ q)))
      (a.toNat < 16 → ∀ va k₁, Terms.gives (tileAddr a.toNat (4 * words) 256) ⟨s, i⟩ va k₁ →
        Terms.completes (.accst t a b f) s (Terms.withEff k₁ (if b = 1 then .accst va bs else .store (tileStore k₁.s.cur.patch k₁.s.cur.el va bs)))) ∧
      (16 ≤ a.toNat → ∀ k, Terms.gives (rawToBuffer a.toNat bs) ⟨s, i⟩ () k → Terms.completes (.accst t a b f) s k)) ∧
    (Terms.admits ⟨s, i⟩ (decide (f.toNat ≤ 1) || f == 8) → (s.elem s.cur.patch s.cur.el).rplq ≠ 0 →
      exec (.ldt a b f) s = .next (if i.since.isSome || i.pullAt.isSome then s.clearWait s.cur.patch s.cur.el i.id else s)) ∧
    (Terms.admits ⟨s, i⟩ (decide (f.toNat ≤ 1) || f == 8) → f.toNat ≤ 8 → (s.elem s.cur.patch s.cur.el).rplq = 0 → ∀ bs m k₁ va k₂,
      Terms.gives (rdTile a.toNat (tileBytes f.toNat) 256) ⟨s, i⟩ (bs, m) k₁ → Terms.gives (tileAddr b.toNat (tileBytes f.toNat) 256) k₁ va k₂ →
      ∃ out c, out.length = n * n * fmtBytes f.toNat ∧
        (∀ r < n, ∀ q < n, Terms.tileElem (fmtBytes f.toNat) n out r q = Terms.tileElem (fmtBytes f.toNat) n bs q r) ∧
        (let p := k₂.s.cur.patch
         let e := k₂.s.cur.el
         let v := k₂.s.elem p e
         Terms.completes (.ldt a b f) s (Terms.withEff { k₂ with s := k₂.s.setElem p e { v with bconf := v.bconf + BitVec.ofNat 32 c } }
          (.store { tileStore p e va out with banked := true })))) ∧
    (∀ us k₁, Terms.gives (rdRest a.toNat) ⟨s, i⟩ us k₁ → (∀ x ∈ us, uKind x ≠ 1) →
      let keys := (us.filter (fun x => uKind x == 0)).flatMap (fun x => (List.range 7).map (lane x))
      keys.length ≤ 1536 →
      let lt := fun (x y : Word × Nat) => if dn = 1 then keyLt f.toNat (u == 1) y.1 x.1 else keyLt f.toNat (u == 1) x.1 y.1
      let ps := sortBy lt (keys.zip (List.range keys.length))
      (ps.Perm (keys.zip (List.range keys.length))) ∧
      (f ≠ 1 → ps.Pairwise (fun x y => lt y x = false ∧ (lt x y = true ∨ x.2 < y.2))) ∧
      ∀ k, Terms.gives (streamOut b.toNat (us.filter (fun x => uKind x != 0) ++ pairUnits ps (header 0 k₁.i.tag 0) (header 0 k₁.i.tag 1))) k₁ () k →
        Terms.completes (.sortn a b f u dn) s k)

/-- CVT (R198 to R202), SCLD and SCEM (R204). -/
def Obligations.ConvertAndScaleWords : Prop :=
  ∀ (s : State) (i : Inst) (t : BitVec 2) (a b : BitVec 5) (f sf : BitVec 4) (rm : BitVec 3), Terms.OnTurn s i →
    (Terms.admits ⟨s, i⟩ (f == 0 || sf == 0) → ∀ us k₁ parts k₂, Terms.gives (rdRest a.toNat) ⟨s, i⟩ us k₁ → (∀ x ∈ us, uKind x ≠ 1) →
      let rep := us.any (fun x => (uFlags x).getLsbD 1)
      Terms.gives ((dataRuns us).mapM (fun x => match x with
        | .inr u => pure ([u], [])
        | .inl run => do convertRun f.toNat (rmOf rm) (header 0 k₁.i.tag (if rep then 2 else 0)) (← runValues sf.toNat run))) k₁ parts k₂ →
      let out := match (us.filter (fun x => uKind x == 0)).getLast? with
        | some u => if (uFlags u).getLsbD 0 then markLast (parts.flatMap (fun p => p.1)) else parts.flatMap (fun p => p.1)
        | none => parts.flatMap (fun p => p.1)
      let es := parts.flatMap (fun p => p.2)
      k₂.i.cvtN + es.length ≤ 256 →
      let toks := (List.range es.length).map (fun j =>
        (BitVec.ofNat 32 ((k₂.i.tag.toNat * 256 + k₂.i.cvtN + j) % 2 ^ 20 * 256 + es.getD j 0 % 256) : Word))
      let k₃ : Wk := { k₂ with i := { k₂.i with cvtN := k₂.i.cvtN + es.length } }
      ∀ k, Terms.gives (streamOut b.toNat out) (if es = [] then k₃ else Terms.withEff k₃ (.scaleOut toks)) () k →
        Terms.completes (.cvt a b f sf rm) s k) ∧
    (∀ va tg bs k₁, Terms.gives (rdS a.toNat) ⟨s, i⟩ va ⟨s, i⟩ → Terms.gives (rdS b.toNat) ⟨s, i⟩ tg ⟨s, i⟩ →
      va.toNat + 128 ≤ 0x80000 → tg.toNat < 2 ^ 12 → Terms.gives (readVault va.toNat 128) ⟨s, i⟩ bs k₁ →
      Terms.completes (.scld t a b f) s (Terms.withEff k₁ (.scaleIn (Terms.tokens t.toNat tg.toNat bs))) ∧
      Terms.completes (.scem t a b f) s (Terms.withEff k₁ (.scaleOut (Terms.tokens t.toNat tg.toNat bs))))

/-- The reductions with witnesses (R264 to R267) and ADJB (R268), while no word of another instance has started on the matrix unit (R183), and WREL (R269), whose header test is that of R270. -/
def Obligations.WitnessWords : Prop :=
  ∀ (s : State) (i : Inst) (t : BitVec 2) (a b d : BitVec 5) (f : BitVec 4) (w : BitVec 1), Terms.OnTurn s i →
    (∀ row ∈ Terms.witnessWords, Terms.unitFree s i → Terms.admits ⟨s, i⟩ (decide (f.toNat ≤ 1) || f == 8) → ∀ (geo : Word) (lo hi : Nat) bs m k₁ k₂ k,
      Terms.gives (rdS (a.toNat + 1)) ⟨s, i⟩ geo ⟨s, i⟩ →
      let n := if f.toNat = 0 then 32 else 64
      let lg := if f.toNat = 0 then 5 else 6
      let tid := geo.toNat / 2 ^ 12
      let live := geo.toNat / 2 ^ 6 % 64
      let lw := geo.toNat / 8 % 8
      let lh := geo.toNat % 8
      lh ≤ lg → lw ≤ lg → (w = 1 → live ≠ 0) →
      (if row.2 = .clamp then
        let conv := fun (v : Word) => convertTo f.toNat .rne (if f.toNat ≤ 5 then fp32.decode v.toNat else fmtValue 8 v.toNat)
        let val := fun (v : Word) => if f.toNat ≤ 5 then fp32.decode v.toNat else fmtValue 8 v.toNat
        tid = 0 ∧ lh = 0 ∧ lw = 0 ∧ ∃ x y, Terms.gives (rdS (a.toNat + 2)) ⟨s, i⟩ x ⟨s, i⟩ ∧ Terms.gives (rdS (a.toNat + 3)) ⟨s, i⟩ y ⟨s, i⟩ ∧
          (val x).isNan = false ∧ (val y).isNan = false ∧ (val y).lt (val x) = false ∧ lo = conv x ∧ hi = conv y
       else lo = 0 ∧ hi = 0) →
      Terms.gives (rdTile a.toNat (tileBytes f.toNat) 256) ⟨s, i⟩ (bs, m) k₁ →
      let res := (List.range (n / 2 ^ lh)).flatMap (fun r => (List.range (n / 2 ^ lw)).map (fun c =>
        reduceWindow row.2 f.toNat lo hi (Terms.window (tileRows f.toNat bs) lh lw r c)))
      let out := res.flatMap (fun x => leBytes (fmtBytes f.toNat) x.1)
      (if b.toNat < 16 then ∃ va k', Terms.gives (tileAddr b.toNat out.length 256) k₁ va k' ∧
          k₂ = Terms.withEff k' (.store (tileStore k₁.s.cur.patch k₁.s.cur.el va out))
        else Terms.gives (rawToBuffer b.toNat out) k₁ () k₂) →
      (if w = 1 then
        let h := k₂.i.cbAt.getD (4 + t.toNat) 0
        let data := leBytes 8 (live * 2 ^ 16 + row.2.enc) ++ leBytes 8 tid ++
          leBytes 8 (f.toNat * 2 ^ 20 + lw * 2 ^ 17 + lh * 2 ^ 14 + n / 2 ^ lw * 2 ^ 7 + n / 2 ^ lh) ++ leBytes 8 0 ++
          entryBytes row.2.enc (res.map (fun x => x.2))
        cbValid (k₂.i.r.cb.getD (4 + t.toNat) 0) = true ∧ (data.length + cbSlotBytes h - 1) / cbSlotBytes h ≤ cbNslot h ∧
          k = Terms.withEff k₂ (.witness (4 + t.toNat) data)
        else k = k₂) →
      Terms.completes (row.1 t a b f w) s k) ∧
    (Terms.unitFree s i → Terms.admits ⟨s, i⟩ (f == 0) → ∀ v gen pl x k₁ gs m k₂ es k₃, Terms.gives (rdPair b.toNat) ⟨s, i⟩ v ⟨s, i⟩ →
      Terms.gives (rdS (b.toNat + 2)) ⟨s, i⟩ gen ⟨s, i⟩ → Terms.gives (witnessTest v gen) ⟨s, i⟩ (pl, x) k₁ →
      let z := fmtBytes f.toNat
      Terms.gives (rdTile a.toNat (x.r * x.c * z) 256) k₁ (gs, m) k₂ → x.fmt ≠ 0 → Terms.gives (readPtr v 0 x.bytes) k₂ es k₃ →
      let entry := fun (q : Nat) => if x.enc = 0 then numAt es (32 + 2 * q) 2 else ((es.drop 32).getD (q / 4) 0).toNat / 4 ^ (q % 4) % 4
      (x.enc = 0 → ∀ q < x.r * x.c, entry q < 2 ^ (x.lh + x.lw)) →
      let acc := accAdd (k₃.i.r.acc.getD t.toNat []) ((List.range (x.r * x.c)).flatMap (fun q =>
        (x.routes q (entry q)).map (fun c => (c, fmtValue f.toNat (numAt gs (z * q) z)))))
      Terms.completes (.adjb t a b f) s (Terms.withIrr
        { k₃ with i := { k₃.i with r := { k₃.i.r with acc := k₃.i.r.acc.set t.toNat acc }, wA := noted k₃.i.wA t.toNat } }
        (.owner pl .elem false false (.witness gen false) [] v))) ∧
    (∀ v gen pl x k₁, Terms.gives (rdPair a.toNat) ⟨s, i⟩ v ⟨s, i⟩ → Terms.gives (rdS b.toNat) ⟨s, i⟩ gen ⟨s, i⟩ →
      Terms.gives (witnessTest v gen) ⟨s, i⟩ (pl, x) k₁ →
      Terms.completes (.wrel d a b) s (Terms.withIrr k₁ (.owner pl .elem false false (.witness gen true) [d.toNat] v)))

/-- The switch words (R98): each adds its setting to its element's router, once; no other part of the element and no other
element changes. ROUTER_FORWARD (R455, R456), GENERATOR_EMIT (R176), EMITTER_SEND (R197), SCALE_TOKEN_ARRIVE (R203) and
BANK_REPLAY (R336). -/
def Obligations.SwitchWordsAndRouters : Prop :=
  (∀ (s : State) (i o : BitVec 3) (c : BitVec 4) (first run : BitVec 8) (w : BitVec 2),
      let p := s.cur.patch
      let e := s.cur.el
      let r := (s.elem p e).router
      let becomes := fun (j : Instr) (r' : Router) => ∃ t, exec j s = .next t ∧ t = s.setElem p e { s.elem p e with router := r' }
      let binding := fun (lo hi : Nat) (b : Binding) => b ∈ r.binds ∨ b = ⟨i.toNat, c.toNat, o.toNat, lo, hi⟩
      (∃ l, becomes (.circ i o c) { r with binds := l } ∧ ∀ b, b ∈ l ↔ binding 0 255 b) ∧
      (∃ l, becomes (.slot i o c first run) { r with binds := l } ∧ ∀ b, b ∈ l ↔ binding first.toNat (first.toNat + run.toNat) b) ∧
      (∃ l, becomes (.best i o) { r with best := l } ∧ ∀ b, b ∈ l ↔ b ∈ r.best ∨ b = (i.toNat, o.toNat)) ∧
      (∃ l, becomes (.width o w) { r with width := l } ∧ ∀ b, b ∈ l ↔ b ∈ r.width ∨ b = (o.toNat, w.toNat)) ∧
      (∃ l, becomes (.scale i o) { r with scale := l } ∧ ∀ b, b ∈ l ↔ b ∈ r.scale ∨ b = (i.toNat, o.toNat)) ∧
      exec .nop s = .next s ∧ exec .endList s = .next s ∧
      (∀ l : List Binding, l.Nodup → (putNew ⟨i.toNat, c.toNat, o.toNat, 0, 255⟩ l).Nodup)) ∧
  (∀ (s : State) (p e : Nat),
      let v := s.elem p e
      (∀ i c u rest, v.waiting i c = u :: rest → (s.patch p).running = true → (s.patch p).frozen = false →
        let slot := s.clock.n / 8 % 256
        let here := v.router.binds.filter (fun b => b.i == i && b.v == c)
        (here ≠ [] →
          let outs := ((here.filter (fun b => decide (b.lo ≤ slot) && decide (slot ≤ b.hi))).map (fun b => b.o)).dedup
          (i = 4 → (s.patch p).captured e c = false) → outs ≠ [] → (∀ o ∈ outs, s.canLeave p e o c = true) →
          exec (.routerForward p e i c) s = .next (outs.foldl (fun s o => s.leave p e o c u) (s.setElem p e (v.setWaiting i c rest)))) ∧
        (here = [] → ∀ o, v.router.bestOf i = some o → v.claimed ((s.patch p).captured e) slot o = false → s.nextIn p e o i = true →
          (i = 4 → (s.patch p).captured e c = false) → s.canLeave p e o c = true →
          exec (.routerForward p e i c) s = .next ((s.setElem p e
            { v.setWaiting i c rest with robin := smSet v.robin o i }).leave p e o c u)) ∧
        (i = 4 → (s.patch p).captured e c = true → exec (.routerForward p e i c) s = .next s)) ∧
      (∀ o < 4, s.still p e = false →
        let x := v.o.getD o OutPort.reset
        x.buf.length < 4 →
        (∀ (j n w : Word) (tag : BitVec 12) (by_ : Bool) rs, x.runs = .gen j n w tag by_ :: rs → j.toNat < n.toNat →
          let u := ofLanes [j, n, w, 0, 0, 0, 0, header 0 (if by_ then tag + BitVec.ofNat 12 j.toNat else tag) (if j + 1 = n then 1 else 0)]
          exec (.generatorEmit p e o) s = .next (s.setElem p e
            { v with o := v.o.set o { x.emit u with runs := if j + 1 = n then rs else .gen (j + 1) n w tag by_ :: rs } })) ∧
        (∀ u us rs, x.runs = .units (u :: us) :: rs →
          exec (.generatorEmit p e o) s = .next (s.setElem p e
            { v with o := v.o.set o { x.emit u with runs := if us = [] then rs else .units us :: rs } })) ∧
        (∀ u us, x.runs = [] → x.emitter = u :: us →
          exec (.emitterSend p e o) s = .next (s.setElem p e { v with o := v.o.set o { x.emit u with emitter := us } }))) ∧
      (s.still p e = false → ∀ t rest, v.scIn = t :: rest →
        exec (.scaleTokenArrive p e) s = .next (s.setElem p e
          (if v.scb.length < 512 ∧ (∀ x ∈ v.scb, (x.tok.toNat / 256) % 2 ^ 20 ≠ t.toNat / 256 % 2 ^ 20) then
            { v with scIn := rest, scb := v.scb ++ [⟨t, none⟩] }
          else v))) ∧
      (∀ r, v.replay.find? (fun r => decide (r.at_ < s.clock.n)) = some r →
        let t := s.setElem p e { v with replay := v.replay.map (fun (x : Replayed) => if x = r then { x with at_ := s.clock.n } else x) }
        (∀ x, s.access r.agent r.id = some x → exec (.bankReplay p e) s = (match x.op with
          | .store st => .next (t.tryPlace x st)
          | .load ad size dst => .next (t.tryRead x ad size dst)
          | .owner _ _ => exec (.ownerStep r.agent r.id) t)) ∧
        let gone := s.setElem p e { v with replay := v.replay.filter (fun x => x != r) }
        (s.access r.agent r.id = none → (∀ n, r.agent ≠ .engine n) →
          exec (.bankReplay p e) s = .next (if v.ownAlive r.id = true then s else gone)) ∧
        (∀ n, s.access r.agent r.id = none → r.agent = .engine n →
          ((s.engine n).any (fun x => s.moves x) = false → exec (.bankReplay p e) s = .next gone) ∧
          ((s.engine n).any (fun x => s.moves x) = true → r.id < 2 ^ 40 → exec (.bankReplay p e) s = exec (.readStep (.engine n) r.id) t))))

/-- A trigger reserves the oldest slots that fit (R29), and a met trigger fires its instance (R28, R30, R31). A standing block
with an empty trigger does not fire while its sources have stopped; the check of the destination buffers at the fire follows
(R158). -/
def Obligations.BlocksFire : Prop :=
  (∀ (id n : Nat) (tag : Option (BitVec 12)) (l : List QUnit),
    (n ≤ (Terms.freeSlots tag l).length → ∃ l', reserveQ id tag n l = some (l', ((Terms.freeSlots tag l).take n).map (fun u => u.u)) ∧
      l'.map (fun u => (u.u, u.time)) = l.map (fun u => (u.u, u.time)) ∧
      ∀ j < l.length, ((l'.getD j default).owner = (l.getD j default).owner ∨
        ((l.getD j default).owner = none ∧ (l'.getD j default).owner = some id))) ∧
    ((Terms.freeSlots tag l).length < n → reserveQ id tag n l = none)) ∧
  (∀ (s : State) (p e b : Nat) (tag : BitVec 12) (blk : Block) (m : Match), s.mayFire p e = true →
    let s₁ := s.prunePartly p e
    let v := s₁.elem p e
    let want := if blk.tm then some tag else none
    let fired := fun (i : Inst) (t : BitVec 12) => { { i with tag := t, qres := m.qres, cres := m.cres }.fire v.r with tag := t }
    smFind v.blocks b = some blk →
    (blk.st = false → ∀ i, v.insts.find? (fun i => i.st == .armed && i.blk == b && i.tag == tag) = some i →
      s₁.trigger p e blk i.id want = some m →
      exec (.blockFire p e b tag) s = .next ((s₁.setElem p e
        { v with q := m.q, insts := v.insts.map (fun x => if x.id = i.id then fired x i.tag else x) }).moved p e |>.fireCheck p e i.id)) ∧
    (blk.st = true → (blk.empty = true → s.sourcesStop p = false) →
      let t := if blk.empty then 0 else if blk.tm then tag else m.tag
      (∀ i, Terms.partly v blk b tag = some i → s₁.trigger p e blk i.id want = some m →
        exec (.blockFire p e b tag) s = .next ((s₁.setElem p e
          { v with q := m.q, insts := v.insts.map (fun x => if x.id = i.id then fired x t else x) }).moved p e |>.fireCheck p e i.id)) ∧
      (Terms.partly v blk b tag = none → v.insts.length < 256 → s₁.trigger p e blk v.newId want = some m →
        ∃ u : State, exec (.blockFire p e b tag) s = .next (u.fireCheck p e v.newId) ∧ (u.elem p e).q = m.q ∧ (u.elem p e).r = v.r ∧
          (u.elem p e).insts = v.insts ++ [fired (Inst.new v.newId b tag .partly) t] ∧
          (∀ q f, (q, f) ≠ (p, e) → u.elem q f = s₁.elem q f) ∧ u.mem = s.mem)))

/-- The commit (R32, R33), the rotation (R174) and the full/empty timeout (R214). A commit writes each register that a word has written,
then those that the irrevocable operation answers; THAW and BUBL write theirs last. Which waits a timeout ends is the model's reading, and
the value reported where no word of the instance gives a pointer is free (log 23); a handle's written halves come last (log 73). -/
def Obligations.InstancesCommit : Prop :=
  (∀ (s : State) (p e n : Nat) (i : Inst) caps, (s.elem p e).inst n = some i → (s.elem p e).wordsDone i = true → s.still p e = false →
    i.rot = none → i.sent = false → s.commitReady p e i = true → s.commitCheck p e i = .ok caps →
    let ws := i.accstWords p e
    (i.acl = [] → s.accstHeld p e ws = true →
      exec (.instanceCommit p e n) s = .next (s.putInst p e { i with since := some (i.since.getD s.clock.ns) })) ∧
    (i.acl ≠ [] ∨ s.accstHeld p e ws = false →
      let j := i.claim ws
      (∀ t, s.irrevocable p e j = .sent t → exec (.instanceCommit p e n) s = .next (t.putInst p e { j with sent := true })) ∧
      (∀ t, s.irrevocable p e j = .waitFe t → exec (.instanceCommit p e n) s = .next (t.commitWait p e j)) ∧
      (∀ w c sub v, s.irrevocable p e j = .fault w c sub v →
        exec (.instanceCommit p e n) s = .next ((s.dropRefusals p e).commitFault p e j w c sub v)) ∧
      (∀ t r, s.irrevocable p e j = .ok t r →
        exec (.instanceCommit p e n) s = .next ((t.accsts p e i.effs).applyCommit p e j r caps)))) ∧
  (∀ (s : State) (p e : Nat) (i : Inst) (r : DWord) caps,
    let v := s.elem p e
    let u := (s.applyCommit p e i r caps).elem p e
    let ds := match i.irr with
      | .held x _ => x.dests
      | .done x _ => x.dests
      | .none => []
    let last := fun (n : Nat) => ∃ y ∈ i.effs, (∃ k, y.2 = .thaw n k) ∨ ∃ k m, y.2 = .bubl n k m
    let taken := fun (c : Nat) => ((i.cres.filter (fun x => x.1 == c)).map (fun x => x.2.2)).sum +
      ((i.clE.filter (fun x => x.1 == c)).map (fun x => x.2)).sum
    let filled := fun (c : Nat) => ((i.clF.filter (fun x => x.1 == c)).map (fun x => x.2)).sum +
      (((i.plan p e v).fills.filter (fun x => x.1 == c)).map (fun x => x.2.slots)).sum
    (∀ n < v.r.s.length, n < 16 → ¬ last n →
      (ds.getD 1 16 = n → u.r.s.getD n 0 = BitVec.ofNat 32 (r.toNat / 2 ^ 32)) ∧
      (ds.getD 1 16 ≠ n → ds.getD 0 16 = n → u.r.s.getD n 0 = BitVec.ofNat 32 (r.toNat % 2 ^ 32)) ∧
      (ds.getD 1 16 ≠ n → ds.getD 0 16 ≠ n → u.r.s.getD n 0 = if n ∈ i.wS then i.r.s.getD n 0 else v.r.s.getD n 0)) ∧
    (∀ c < v.r.cb.length, let h := v.r.cb.getD c 0
      let moved := Terms.movedBuffer h (taken c) (filled c)
      let new := (i.r.cb.getD c 0).toNat
      (u.r.cb.getD c 0).toNat % 2 ^ 32 = (if 2 * c ∈ i.wC then new % 2 ^ 32 else moved.toNat % 2 ^ 32) ∧
      (u.r.cb.getD c 0).toNat / 2 ^ 32 = (if 2 * c + 1 ∈ i.wC then new / 2 ^ 32 else moved.toNat / 2 ^ 32)) ∧
    (∀ n < v.r.w.length, u.r.w.getD n 0 = if n ∈ i.wW then i.r.w.getD n 0 else v.r.w.getD n 0) ∧
    (∀ n < v.r.m.length, u.r.m.getD n 0 = if n ∈ i.wM then i.r.m.getD n 0 else v.r.m.getD n 0) ∧
    (∀ n < v.r.acc.length, u.r.acc.getD n [] = if n ∈ i.wA then i.r.acc.getD n [] else v.r.acc.getD n []) ∧
    u.r.fuse = (if i.wFuse then i.r.fuse else v.r.fuse) ∧
    u.r.dz = ((v.r.dz && !i.dzClr) || i.dzSet) ∧
    (∀ q f, q ≠ p → (s.applyCommit p e i r caps).elem q f = s.elem q f)) ∧
  (∀ (s : State) (p : Nat), s.arrived p = true → (s.patch p).running = true →
    let l := s.participants p
    (rotDisagree l = true → exec (.rrotRotate p) s =
      .next (l.foldl (fun s x => s.commitFault p x.1 x.2 ((s.elem p x.1).rotWord x.2) .illop 2 none) s)) ∧
    (rotDisagree l = false → (∀ x ∈ l, (∀ y w, x.2.irr ≠ .held y w) ∧ (x.2.passed = true ∨ s.commitReady p x.1 x.2 = true)) →
      s.regionsQuiet p l = true → s.accstsHeld p l = false → (∀ x ∈ l, ∃ c, s.commitCheck p x.1 x.2 = .ok c) →
      exec (.rrotRotate p) s = .next (l.foldl (fun s x => s.commitRot p x.1 x.2) ((s.accstsAll p l).rotateData p l)))) ∧
  (∀ (s : State) (p e n : Nat) (i : Inst) (t w : Nat) (ptr : Option DWord), (s.elem p e).inst n = some i → i.since = some t →
    (s.elem p e).fePtr i (s.accstWaits p e i) = some (w, ptr) → i.st = .fired → s.still p e = false →
    let lim := (s.part (s.partOf p)).feNs
    lim ≠ 0 → lim ≤ s.clock.ns - t + i.waited → s.stillWaits p e i = true →
    exec (.feTimeout p e n) s = .next (match ptr with
      | some x => s.commitFault p e i w .feTimeout 0 (some x)
      | none => { s with free := s.free + 1 }.commitFault p e i w .feTimeout 0 (some (Config.freeDWord s.free))))

/-- STREAM_STEP, RELEASE_STEP, REPAIR_STEP, FAULT_RECORD_WRITE, RESUME and ESCALATION. That a fault of another cause queues its
record as it ends the stream, and that a record waits while its patch is frozen, is the model's reading (logs 55, 73). -/
def Obligations.StreamEvents : Prop :=
  ∀ (s : State) (p k : Nat) (d : Stream),
    let x := s.patch p
    let pt := s.port p k
    let place := s.stepPlace p k d
    let bytes := fun (u : Slot) => (List.range d.size).map (fun i => (BitVec.ofNat 8 (u.toNat / 256 ^ i) : Byte))
    let record := fun (n : Nat) (bub : Bool) (c : Cause) (sub : Nat) (fa : DWord) =>
      ([BitVec.ofNat 64 (s.lpOf p * 2 ^ 32 + bub.toNat * 2 ^ 20 + k * 2 ^ 16 + sub * 2 ^ 8 + causeCode c), fa, s.clock.tsc,
        BitVec.ofNat 64 (n % 2 ^ 32 * 2 ^ 32 + (pt.tok + 1).toNat)] : FaultRec)
    (Terms.portRuns s p k → pt.bound = some d →
      (∀ r, pt.running = some r → s.portDone p k d pt = false → pt.parked = none → pt.step < d.steps →
        let n := pt.step
        (d.toMem = false → ((s.elem p d.el).q.getD d.qp []).length < 16 →
          (∀ l fa bs s', place n = (.ok l, fa) → s.readAll (.port p k) .patch fa l = .got bs s' →
            exec (.streamStep p k) s = .next (s'.portEmit p k d
              { pt with step := n + 1, parked := none, got := [], pullAt := none } (d.slot n bs))) ∧
          (∀ sub fa, place n = (.fault .xlate sub, fa) → ¬ (pt.bubble = true ∧ pt.bubbles.length < 64) →
            exec (.streamStep p k) s = .next (s.setPort p k { pt with
              tok := pt.tok + 1, recs := pt.recs ++ [record n false .xlate sub fa], step := n + 1, got := [], pullAt := none,
              parked := some ⟨n, fa, sub, pt.tok + 1, pt.ht, none, s.clock.ns, false, false⟩ })) ∧
          (∀ sub fa, place n = (.fault .xlate sub, fa) → pt.bubble = true → pt.bubbles.length < 64 →
            ∃ t, exec (.streamStep p k) s = .next t ∧ t = s.portEmit p k d { pt with
              tok := pt.tok + 1, recs := pt.recs ++ [record n true .xlate sub fa], step := n + 1, got := [], pullAt := none,
              bubbles := pt.bubbles ++ [⟨n, fa, sub, pt.tok + 1, pt.ht, none, s.clock.ns, false, false⟩] } (bubbleSlot n fa pt.ht)) ∧
          (∀ sub fa, place n = (.fault .perm sub, fa) → exec (.streamStep p k) s = .next (s.freezePort p k sub fa)) ∧
          (∀ c sub fa, c ≠ .xlate → c ≠ .perm → place n = (.fault c sub, fa) → ∃ t, exec (.streamStep p k) s = .next t ∧
            t.port p k = { pt with running := none, parked := none, bubbles := [], got := [], tok := pt.tok + 1,
                                   recs := pt.recs ++ [record n false c sub fa] } ∧ (t.seq p).latch = true ∧ t.mem = s.mem)) ∧
        (d.toMem = true → ∀ u rest, ((s.elem p d.el).o.getD d.qp OutPort.reset).buf = u :: rest →
          let v := s.elem p d.el
          let s₁ := s.setElem p d.el { v with o := v.o.set d.qp { v.o.getD d.qp OutPort.reset with buf := rest } }
          (∀ ps fa, place n = (.ok ps, fa) → ∃ t l, exec (.streamStep p k) s = .next t ∧
            t.port p k = { pt with step := n + 1, parked := none, pullAt := none } ∧
            t.ord.accs = s.ord.accs ++ l ∧ (∀ a ∈ l, a.agent = .port p k ∧ a.scope = .part ∧ a.buffered = false) ∧
            Terms.stored l = (ps.flatMap (fun y => (List.range y.2).map (y.1.addr + ·))).zip (bytes u.u) ∧
            (∀ e, t.elem p e = s₁.elem p e) ∧ t.mem = s.mem) ∧
          (∀ sub fa, place n = (.fault .xlate sub, fa) →
            exec (.streamStep p k) s = .next (s₁.setPort p k { pt with
              tok := pt.tok + 1, recs := pt.recs ++ [record n false .xlate sub fa], step := n + 1, got := [], pullAt := none,
              parked := some ⟨n, fa, sub, pt.tok + 1, pt.ht, some u.u, s.clock.ns, false, false⟩ })) ∧
          (∀ sub fa, place n = (.fault .perm sub, fa) → exec (.streamStep p k) s = .next (s.freezePort p k sub fa)))) ∧
      (∀ r, pt.running = some r → s.portDone p k d pt = true →
        exec (.streamStep p k) s = .next (s.setPatch p
          { x with ports := smSet x.ports k { pt with running := none }, seq := { x.seq with latch := true } }.advance)) ∧
      (∀ m, pt.parked = some m → m.resume = true → (d.toMem = true ∨ s.queueRoom p d = true) →
        ∀ t, s.portAccess p k m.step d { pt with parked := none } (place m.step) m.unit false = some t → exec (.releaseStep p k) s = .next t) ∧
      (∀ m, pt.bubbles.find? (fun m => m.resume) = some m → s.queueRoom p d = true →
        ∀ l fa bs s', place m.step = (.ok l, fa) → s.readAll (.port p k) .patch fa l = .got bs s' →
          exec (.repairStep p k) s = .next (s'.portEmit p k d { pt with bubbles := pt.bubbles.filter (fun b => b.step != m.step) }
            (d.slot m.step bs ||| BitVec.ofNat 256 (2 ^ 241))))) ∧
    (d.tensor = false → ∀ n, d.steps ≠ 0 →
      let c := fun i => if i ≤ d.nd then max 1 (d.cnt.getD i 1) else 1
      let a : Int := d.base + (n % c 0 : Nat) * d.str.getD 0 0 + (n / c 0 % c 1 : Nat) * d.str.getD 1 0 +
        (n / (c 0 * c 1) % c 2 : Nat) * d.str.getD 2 0 + (n / (c 0 * c 1 * c 2) % c 3 : Nat) * d.str.getD 3 0
      let at_ := fun (x : Int) => s.translateAt (.port p k) (s.partOf p) (BitVec.ofInt 64 x) .plain
      let room := 65536 - (a % 65536).toNat
      0 ≤ a → a + d.size ≤ 2 ^ 56 →
        (d.size ≤ room → place n = ((at_ a).bind (fun x => .ok [(x, d.size)]), BitVec.ofInt 64 a)) ∧
        (room < d.size → ∀ x y, at_ a = .ok x → at_ (a + room) = .ok y →
          (place n).1 = .ok [(x, room), (y, d.size - room)])) ∧
    (pt.recs ≠ [] → x.frozen = true → exec (.faultRecordWrite p k) s = .next s) ∧
    (∀ r rest, pt.recs = r :: rest → x.frozen = false →
      let pa := s.part (s.partOf p)
      (pa.fqTail - pa.fqHead).toNat < 2 ^ pa.fqLog →
      ∃ t, exec (.faultRecordWrite p k) s = .next t ∧ (t.port p k).recs = rest ∧ (t.part (s.partOf p)).fqTail = pa.fqTail + 1 ∧
        (∃ l, t.ord.accs = s.ord.accs ++ l ∧ (∀ a ∈ l, a.agent = .port p k ∧ a.scope = .dev) ∧
          Terms.stored l = ((List.range 32).map (pa.fqBase + 32 * (pa.fqTail.toNat % 2 ^ pa.fqLog) + ·)).zip (r.flatMap (fun w => leBytes 8 w.toNat))) ∧
        (∀ vf, (vf, 4) ∈ t.msix ↔ (vf, 4) ∈ s.msix ∨ ∃ y, (vf, y) ∈ s.vfs ∧ y.part = some (s.partOf p)) ∧ t.mem = s.mem) ∧
    (∀ (vf lp port : Nat) (tok : Word), lp < 640 → port < 16 → s.vfOn vf = true →
      let mine := s.loads.filter (fun l => match (s.queue l.q).vf with | some f => f.1 == vf | none => false)
      let v : DWord := BitVec.ofNat 64 (lp * 2 ^ 38 + port * 2 ^ 34 + tok.toNat)
      exec (.resume vf v) s = .next (mine.foldl (fun s l => s.resumeLoad l lp port tok) s) ∧
      ∀ l ∈ mine, ∀ q, l.patches[lp]? = some q →
        s.resumeLoad l lp port tok = if ((s.port q port).parked.isSome ∨ (s.port q port).bubbles ≠ []) ∧ (s.port q port).tok = tok then
            (s.setPort q port (s.port q port).resume).modLoad l.q (fun x => { x with resumed := x.resumed || l.awaits == some (lp, port) })
          else s) ∧
    (∀ l, s.loadOf p = some l → l.st = .running →
      let lim := (s.part (s.partOf p)).escNs
      lim ≠ 0 →
      (∀ m, k < 16 → pt.parked = some m → m.resume = false → m.since + lim ≤ s.clock.ns →
        exec (.escalation p k) s = .next ((s.holdLoad l).modLoad l.q (fun x => { x with resumed := false, awaits := some (s.lpOf p, k) }))) ∧
      (∀ m since, k < 16 → pt.parked = some m → m.resume = true → pt.pullAt = some since → since + lim ≤ s.clock.ns →
        exec (.escalation p k) s = .next ((s.holdLoad l).modLoad l.q (fun x => { x with resumed := false, awaits := some (s.lpOf p, k) }))) ∧
      (∀ since, s.waitsSince p (waiterOf k) = some since → (k < 16 → pt.parked = none) → since + lim ≤ s.clock.ns →
        exec (.escalation p k) s = .next ((s.holdLoad l).modLoad l.q (fun x => { x with resumed := false, awaits := none }))))

/-- BUFFER_STEP, PLACE_STEP, DRAIN_STEP, READ_STEP and OWNER_STEP, on accesses to this module. -/
def Obligations.OrderingSteps : Prop :=
  ∀ (s : State) (a : AgentId) (n : Nat) (x : Access), s.access a n = some x →
    (∀ st, x.op = .store st →
      ((∀ y ∈ s.ord.accs, y.agent = a → y.id < n → y.buffered = false → overlap y x = true → ∀ u, y.op ≠ .store u) →
        exec (.bufferStep a n) s = .next { s with ord := { s.ord with accs := s.ord.accs.map (fun y =>
          if y.agent = a ∧ y.id = n then { y with buffered := true } else y) } }) ∧
      (x.buffered = true → s.inOrder x = true → s.noEarlier x = true → s.unclaimed x.agent x.words = true →
        (st.bytes ≠ [] ∨ st.marks ≠ [] ∨ Terms.local_ st.place) →
        ∀ s₁, (st.banked = true ∧ s₁ = s ∨ st.banked = false ∧ s.present x.agent x.id [true] x.words = (s₁, true)) →
        let left : State := { s₁ with ord := { s₁.ord with accs := s₁.ord.accs.filter (fun y => !(y.agent == a && y.id == n)), nextAge := s₁.ord.nextAge + 1, seen := noteSeen s₁.ord.seen a s₁.ord.nextAge (st.bytes.map (fun (b : Nat × Byte) => b.1)) } }
        let e : VisEntry := ⟨n, a, x.scope, st.place.kind, s₁.ord.nextAge, st.bytes, st.marks.map (fun m => (m.1, m.2, s₁.ord.nextAge)), [(a, n)], st.ptr, (st.bytes.headD (0, 0)).1⟩
        exec (.placeStep a n) s = .next (if st.place.host = true ∨ (st.bytes = [] ∧ st.marks = []) then left.settleEntry e
          else left.enter (left.placeIn a x.scope) e))) ∧
    (∀ ad size dst bs gs s₁, x.op = .load ad size dst → (∀ m, a ≠ .engine m) → Terms.local_ x.place → (s.readWith x [] ad size).isSome = true →
      s.present a n [false] x.words = (s₁, true) → x.reader = none → s₁.inOrder x = true → s₁.readBytes a n x.scope ad size = (bs, true, gs) →
      x.inst = none → exec (.readStep a n) s = .next (((s₁.noteReads a gs).dropAccess a n).deliver x dst bs)) ∧
    (∀ ad size dst bs gs s₁ p e m d sz sg wr i, x.op = .load ad size dst → a = .elem p e → dst = .inst p e m d sz sg wr → Terms.local_ x.place →
      (s.readWith x [] ad size).isSome = true → s.present a n [false] x.words = (s₁, true) → s₁.inOrder x = true →
      (s₁.elem p e).fenceOpen m = true → s₁.readBytes a s₁.ord.nextId x.scope ad size = (bs, true, gs) →
      let s₂ := (s₁.noteReads a gs).setElem p e ((s₁.elem p e).noteFence m)
      (s₂.elem p e).inst m = some i →
      exec (.readStep a n) s = .next ((s₂.dropAccess a n).putInst p e (i.fill n d sz sg wr bs))) ∧
    (∀ op sl r s₁ s₂, x.op = .owner op sl → (∀ q e m, sl ≠ .irr q e m) → Terms.local_ x.place → s.ownerReady x (op.words x.place) = true →
      s.unclaimed a (op.words x.place) = true → s.present a n [false, true] x.words = (s₁, true) →
      s₁.perform (s₁.agentPart a) x.place op x.fa = .ok s₂ r →
      exec (.ownerStep a n) s = .next (s₂.dropAccess a n)) ∧
    (∀ b e, (s.ord.buffer b).find? (fun y => y.id == n) = some e → (b = .fab → ∀ c ∈ e.bytes, c.1 < remoteBase ∨ vaultBase ≤ c.1) →
      let left : State := { s with ord := { s.ord with vis := s.ord.vis.map (fun (v : VisId × List VisEntry) => if v.1 = b then (v.1, v.2.filter (fun y => y.id != e.id)) else v) } }
      exec (.drainStep b n) s = .next (match b with
        | .patch p => left.enter (.part (s.partOf p)) e
        | .part _ => left.enter .dev e
        | .dev => left.enter .fab e
        | .fab => left.settleEntry e))

/-- The value of a read (R306), the registers that a load fills (R210), and the owner steps of LDFE and STE (R213). -/
def Obligations.ReadsFind : Prop :=
  (∀ (s : State) (a : AgentId) (n ad : Nat) (sc : Scope),
    (∀ b, (∃ pre x post st, s.ord.accs = pre ++ x :: post ∧ x.agent = a ∧ x.id < n ∧ x.op = .store st ∧
        st.bytes.find? (fun c => c.1 == ad) = some (ad, b) ∧
        ∀ y ∈ post, y.agent = a → y.id < n → ∀ u, y.op = .store u → ∀ c ∈ u.bytes, c.1 ≠ ad) →
      s.readByte a n sc ad = (b, none)) ∧
    ((∀ y ∈ s.ord.accs, y.agent = a → y.id < n → ∀ u, y.op = .store u → ∀ c ∈ u.bytes, c.1 ≠ ad) →
      (∀ v ∈ s.chain a, ∀ e ∈ s.ord.buffer v, ∀ c ∈ e.bytes, c.1 ≠ ad) → s.readByte a n sc ad = (s.mem.get ad, some (smGet 0 s.ord.ages ad))) ∧
    ((∀ y ∈ s.ord.accs, y.agent = a → y.id < n → ∀ u, y.op = .store u → ∀ c ∈ u.bytes, c.1 ≠ ad) → sc = .patch →
      ∀ v pre post e b, s.chain a = pre ++ v :: post → (∀ w ∈ pre, youngest ad (s.ord.buffer w) = none) →
        youngest ad (s.ord.buffer v) = some (e, b) → s.readByte a n sc ad = (b, some e.age))) ∧
  (∀ (i : Inst) (n d size : Nat) (sg wr : Bool) (bs : List Byte), bs.length = size → i.r.s.length = 16 → i.r.w.length = 16 →
    let j := i.fill n d size sg wr bs
    let v := (bs.zip (List.range size)).foldl (fun t x => t + x.1.toNat * 256 ^ x.2) 0
    (∀ m, j.pending m = (i.loads.filter (fun l => l.1 != n)).any (fun l => l.2.contains m)) ∧
    (wr = false → (size = 1 ∨ size = 2 ∨ size = 4) → d < 16 →
      j.r.s.getD d 0 = (if sg then BitVec.ofInt 32 (BitVec.ofNat (8 * size) v).toInt else BitVec.ofNat 32 v) ∧ d ∈ j.wS ∧
      (∀ m, m ≠ d → j.r.s.getD m 0 = i.r.s.getD m 0) ∧ j.r.w = i.r.w) ∧
    (wr = false → size = 8 → d < 15 → j.r.s.getD d 0 = BitVec.ofNat 32 v ∧ j.r.s.getD (d + 1) 0 = BitVec.ofNat 32 (v / 2 ^ 32) ∧ d ∈ j.wS ∧ d + 1 ∈ j.wS ∧
      (∀ m, m ≠ d → m ≠ d + 1 → j.r.s.getD m 0 = i.r.s.getD m 0) ∧ j.r.w = i.r.w) ∧
    (wr = true → size = 8 → d < 64 →
      (∀ q < 4, (j.r.w.getD (d / 4) 0).toNat / 2 ^ (64 * q) % 2 ^ 64 =
        if q = d % 4 then v else (i.r.w.getD (d / 4) 0).toNat / 2 ^ (64 * q) % 2 ^ 64) ∧
      d / 4 ∈ j.wW ∧ (∀ m, m ≠ d / 4 → j.r.w.getD m 0 = i.r.w.getD m 0) ∧ j.r.s = i.r.s)) ∧
  (∀ (s : State) (part : Nat) (pl : Place) (ptr : DWord) (v : DWord), s.mem.wf = true → pl.addr % 8 = 0 →
    let s₁ := s.ownFlush pl.addr 8
    (s₁.mem.isFull pl.addr = true →
      ∃ t, s.perform part pl .ldfe ptr = .ok t (s₁.ownWord pl.addr) ∧ t.mem.isFull pl.addr = false ∧ (∀ b, t.mem.get b = s₁.mem.get b) ∧
        t.mem.wf = true) ∧
    (s₁.mem.isFull pl.addr = false → s.perform part pl .ldfe ptr = .wait) ∧
    (s₁.mem.isFull pl.addr = false →
      ∃ t, s.perform part pl (.ste v) ptr = .ok t 0 ∧ t.mem.isFull pl.addr = true ∧
        (∀ j < 8, t.mem.get (pl.addr + j) = BitVec.ofNat 8 (v.toNat / 256 ^ j)) ∧
        (∀ b, (b < pl.addr ∨ pl.addr + 8 ≤ b) → t.mem.get b = s₁.mem.get b) ∧ t.mem.wf = true) ∧
    (s₁.mem.isFull pl.addr = true → s.perform part pl (.ste v) ptr = .wait))

/-- WALK, TABLE_MIGRATE, INSTALL_STEP, FRONT_COUNT_EXCHANGE, DEADLOCK_PROBE and PROBE_FORWARD. That a WALK fills one cache, which a free
value draws, and what a full one gives up, is the model's choice (log 41); that an element forwards a probe that its origin has sent anew
is its reading (log 75). -/
def Obligations.WalksAndFrontiers : Prop :=
  ∀ (s : State) (p e : Nat),
    (∀ (part : Nat) (tensor : Bool) (a : DWord), (tensor = false → a.toNat < 2 ^ 56) →
      let page := walkPage tensor a
      let site := siteOf (Config.freeDWord s.free)
      let s₀ : State := { s with free := s.free + 1 }
      let same := fun (w : Walk) => w.die = site.onDie ∧ w.part = part ∧ w.tens = page.1 ∧ w.page = page.2
      let others := s.walks.filter (fun w => !decide (same w))
      (s.walkRoom site.onDie part page.1 page.2 = true →
        (∀ c, s₀.walkResult site part tensor a = .ok c → ∃ t, exec (.walk part tensor a) s = .next t ∧ c.site = site ∧ c ∈ t.cache ∧
          t.walks = others ∧
          (∀ x, x ∈ t.cache → x ≠ c → x ∈ s.cache ∧ (x.site = site → x.part = part → x.tens = c.tens → x.hi < c.lo ∨ c.hi < x.lo)) ∧
          (∀ x ∈ s.cache, x.site ≠ site → x ∈ t.cache) ∧
          ((s.cache.filter (fun x => x.site == site)).length < site.room → ∀ x ∈ s.cache,
            (x.part ≠ part ∨ x.tens ≠ c.tens ∨ x.hi < c.lo ∨ c.hi < x.lo) → x ∈ t.cache) ∧
          ((s.cache.filter (fun x => x.site == site)).length ≤ site.room → (t.cache.filter (fun x => x.site == site)).length ≤ site.room) ∧
          t.mem = s.mem) ∧
        (∀ u sub, s₀.walkResult site part tensor a = .fault u sub → ∃ t, exec (.walk part tensor a) s = .next t ∧ t.walks = others ∧
          t.cache = s.cache ∧ t.mem = s.mem) ∧
        (s₀.walkResult site part tensor a = .wait →
          let far := s₀.walkFar site part tensor a
          (∀ w ∈ s.walks, same w → w.gaveUp ≠ none ∨ w.pull ≠ far.isNone) →
          ∃ t, exec (.walk part tensor a) s = .next t ∧
            t.walks = others ++ [⟨site.onDie, far.isNone, part, page.1, page.2, s.clock.ns, none⟩] ∧ t.cache = s.cache ∧ t.mem = s.mem ∧
            (far = none → t.fabric = s.fabric))) ∧
      (s.walkRoom site.onDie part page.1 page.2 = false → exec (.walk part tensor a) s = .next s₀) ∧
      (∃ t, exec (.tableMigrate part a) s = .next t ∧ t = { s with walks := t.walks } ∧ t.walks.length = s.walks.length ∧
        ∀ j < s.walks.length, let w := s.walks.getD j default
          t.walks.getD j default = if w.pull = true ∧ w.part = part ∧ (w.tens, w.page) = walkPage w.tens.isSome a ∧ w.since + 200000 ≤ s.clock.ns ∧ w.gaveUp = none then
            { w with gaveUp := some s.clock.ns } else w)) ∧
    (s.loadStored p = true →
      (∀ q, exec (.installStep p e q) s = .next (s.setElem p e ((s.elem p e).install q (frontierOf ((s.stamps p).at_ (p, e, q)))))) ∧
      (∃ t, exec (.frontCountExchange p) s = .next t ∧
        (∀ v, (e, v) ∈ (s.patch p).elems → (e, (List.range 4).foldl (fun (w : Elem) q => w.install q (frontierOf ((s.stamps p).at_ (p, e, q)))) v) ∈
          (t.patch p).elems) ∧ ∀ q, q ≠ p → t.patch q = s.patch q)) ∧
    (∀ (v : Elem) (q : Nat) (f : Frontier), q < v.ft.length →
      let old := v.ft.getD q ⟨false, [0]⟩
      ((∀ t ∈ f.times, ∃ u ∈ old.times, Terms.before u t) → v.install q f = { v with ft := v.ft.set q f }) ∧
      (¬ (∀ t ∈ f.times, ∃ u ∈ old.times, Terms.before u t) → v.install q f = v)) ∧
    (s.still p e = false → ∀ t, (s.elem p e).blocked = some t → s.isBlocked p e = true →
      (match (s.elem p e).probed with | none => t + s.cyclesOf p 16384 | some k => k + s.cyclesOf p (2 ^ 20)) ≤ s.clock.n →
      exec (.deadlockProbe p e) s = .next ((s.setElem p e { s.elem p e with probed := some s.clock.n }).sendProbes p e (s.context p e)
        s.clock.n [s.context p e])) ∧
    (∀ c, s.cyclesOf p c = if (s.patch p).fullRate = true then c else 2 * c) ∧
    (∀ q n x l, s.probes.find? (fun y => y.n == n && y.q == q) = some x → s.loads.find? (fun l => l.q == q) = some l →
      let r := l.patches.getD (x.at_ / 64) 0
      let f := x.at_ % 64
      let t : State := { s with probes := s.probes.filter (fun y => !(y.n == n && y.q == q)) }
      exec (.probeForward q n) s = .next (
        if s.clock.n < x.since + s.cyclesOf r 4 then s
        else if l.patches.length ≤ x.at_ / 64 then t
        else if s.still r f = true ∨ s.isBlocked r f = false then t
        else if x.at_ = x.origin then t.deadlock r x.path
        else if x.at_ < x.origin ∨ (x.origin, x.round) ∈ (s.elem r f).fwd then t
        else (t.setElem r f { s.elem r f with fwd := (x.origin, x.round) :: (s.elem r f).fwd }).sendProbes r f x.origin x.round
          (x.path ++ [x.at_])))

/-- TRIGGER_EVALUATE (R230), the copy and index steps of READ_STEP and GATHER_BURST (R227), ENGINE_COMPLETE (R228) and
MIGRATE_ABORT (R360). -/
def Obligations.EngineCommands : Prop :=
  ∀ (s : State),
    (∀ (l : List (Nat × Nat × Nat)), predicate l = true ↔ l = [] ∨ ∃ g < 4, (∃ c ∈ l, c.1 = g) ∧ ∀ c ∈ l, c.1 = g → c.2.1 ≤ c.2.2) ∧
    (∀ p j tr k, (s.patch p).triggers[j]? = some tr → engKind (bits (tr.cmd.getD 0 0) 59 56) = some k →
      let goes := s.travels (s.partOf p) ((s.patch p).load.map (fun l => l.1)) = false
      let now := predicate (tr.cells.map (fun c => (c.1, c.2.1, s.counter c.2.2)))
      ((tr.hit = true ∨ now = true) → goes → exec (.triggerEvaluate p j) s =
        .next ((s.setPatch p { s.patch p with triggers := (s.patch p).triggers.eraseIdx j }).startEngine p tr.el k tr.scope tr.cmd (tr.ptr + 64))) ∧
      ((tr.hit = false ∧ now = false ∨ ¬ goes) → exec (.triggerEvaluate p j) s = .next s)) ∧
    (∀ p tr, (p, tr) ∈ s.patches.flatMap (fun x => x.2.triggers.map (fun t => (x.1, t))) →
      (p, { tr with hit := tr.hit || predicate (tr.cells.map (fun c => (c.1, c.2.1, s.counter c.2.2))) }) ∈ s.watch.patches.flatMap (fun x => x.2.triggers.map (fun t => (x.1, t)))) ∧
    (∀ n x, s.engine n = some x → x.frozen = false →
      (s.moves x = true → ∀ k, k < x.steps → k ∉ x.wrote →
        ((x.kind = .cpy ∨ x.kind = .flagst) → ∀ bs, smFind x.got k = some bs → (x.apart = true ∨ x.allRead = true) →
          ∀ l, s.spans x.p x.e (blkDst x.block) (x.off k) 1 bs.length = .ok l →
          exec (.readStep (.engine n) k) s = .next ((s.issueStores (.engine x.n)
            (spanStores x.scope false (blkDst x.block + BitVec.ofNat 64 (x.off k)) l bs)).setEngine
            { x with got := smDel x.got k, wrote := k :: x.wrote, done := x.done + bs.length })) ∧
        ((x.kind = .cpy ∨ x.kind = .flagst) → smFind x.got k = none → blkLen x.block ≠ 0 →
          let v := blkSrc x.block + BitVec.ofNat 64 (x.off k)
          ∀ l bs bs' s' t t' v' v'', s.spans x.p x.e (blkSrc x.block) (x.off k) 1 (x.count k) = .ok l →
            s.engineRead x.n v l = (.got bs s', v') →
            s.present (.engine x.n) k [false] (l.flatMap (fun y => wordsAt y.1.addr y.2)) = (t, true) →
            t.engineRead x.n v l = (.got bs' t', v'') →
          exec (.readStep (.engine n) k) s = .next ((t'.setEngine { x with got := smSet x.got k bs' }).dropAnswers (.engine x.n))) ∧
        ((x.kind = .gath ∨ x.kind = .scat) → exec (.gatherBurst n k) s = .next (s.burstStep x k)) ∧
        ((x.kind = .gath ∨ x.kind = .scat) → blkLen x.block ≠ 0 → smFind x.got k = none → ∀ d l g, x.index k = some d →
          s.spans x.p x.e x.indexed (d * blkEsz x.block) (blkEsz x.block) (blkEsz x.block) = .ok l → s.gathererOf x k = some g →
          exec (.gatherBurst n k) s = .next (if s.nextInStack x g k = true ∧ s.inFlight g < 64 then
            (if x.kind = .gath then s.collect x (s.burstOf x g k) else s.fetch x (s.burstOf x g k)) else s))) ∧
      (s.moves x = true → (x.kind = .gath ∨ x.kind = .scat) → ∀ c, 2 * c < blkLen x.block → smFind x.got (2 ^ 32 + c) = none →
        let v := blkIdx x.block + BitVec.ofNat 64 (8 * c)
        ∀ l bs bs' s' t t' v' v'', s.spans x.p x.e (blkIdx x.block) (8 * c) 1 (4 * min 2 (blkLen x.block - 2 * c)) = .ok l →
          s.engineRead x.n v l = (.got bs s', v') →
          s.presentWords (.engine x.n) (pieceId c) [false] (l.flatMap (fun y => wordsAt y.1.addr y.2)) = (t, true) →
          t.engineRead x.n v l = (.got bs' t', v'') →
          exec (.readStep (.engine n) c) s = .next ((t'.setEngine { x with got := smSet x.got (2 ^ 32 + c) bs' }).dropAnswers (.engine x.n))) ∧
      (x.st = .moving → x.wrote.length = x.steps → s.engineSettled x = true → exec (.engineComplete n) s = .next (s.engineRecord x)) ∧
      (x.st = .finishing → s.engineSettled x = true → exec (.engineComplete n) s = .next (s.engineRecord x)) ∧
      (blkCr x.block = 0 → (x.status = 0 → s.engineRecord x = s.setEngine { x with st := .recorded }) ∧
        (x.status ≠ 0 → s.engineRecord x = (s.report x.p (xcause x.status x.sub true) x.faddr).cmdDone x.n)) ∧
      (blkCr x.block ≠ 0 → ∀ l, s.spans x.p x.e (blkCr x.block) 0 32 32 = .ok l → x.done < 2 ^ 32 → x.sub < 256 → x.status < 256 →
        s.engineRecord x = (s.issueStores (.engine x.n) (spanStores x.scope true (blkCr x.block) l
          ((Terms.spelled 0 8 (x.done * 2 ^ 32 + x.sub * 256 + x.status) ++ Terms.spelled 0 8 x.faddr.toNat ++ Terms.spelled 0 8 s.clock.tsc.toNat ++
            Terms.spelled 0 8 0).map (fun c => c.2)))).setEngine { x with st := .recorded }) ∧
      (x.st = .recorded → s.engineSettled x = true →
        ((blkFlag x.block = 0 ∨ x.status ≠ 0) → exec (.engineComplete n) s = .next (s.engineLeft x)) ∧
        (blkFlag x.block ≠ 0 → x.status = 0 → ∀ pl s' r, (s.pointer x.p x.e (blkFlag x.block) 0 4 4 .owner).res = .ok pl → Terms.local_ pl →
          s.tryOwner (.engine x.n) x.part pl x.scope false true (.signal (blkInc x.block)) (s.pointer x.p x.e (blkFlag x.block) 0 4 4 .owner).eff = .ok s' r →
          exec (.engineComplete n) s = .next (s'.engineLeft x))) ∧
      (∀ j, (s.engineLeft x).engine j = if j = x.n then none else s.engine j) ∧
      (x.st = .moving → s.hasBegun x = true → (s.part x.part).migrate.isSome = true → (s.part x.part).migrateAt + 2000000 ≤ s.clock.ns →
        exec (.migrateAbort n) s = .next (s.setEngine { x with st := .finishing, status := causeCode .migrateAbort, sub := 0, faddr := 0 })))

/-- DOORBELL, FQHEAD, VERR_CLEAR, BAR0_WRITE_OTHER, HOST_WRITE and HOST_READ. That VERR bit 1 raises vector 5 as bit 0 does, and that a
doorbell for a number with no queue is refused, is the model's reading (logs 31, 72). -/
def Obligations.HostRegisters : Prop :=
  ∀ (s : State) (vf n off : Nat) (v : Word) (fa : BitVec 56) (bs : List Byte) (len : Nat), s.vfOn vf = true →
    let f := s.vf vf
    let error := fun (bit : Nat) => { s.setVf vf { f with verr := f.verr ||| BitVec.ofNat 32 (2 ^ bit) } with msix := s.msix ++ [(vf, 5)] }
    (s.allPerformed (.host vf) s.ord.nextId .dev = true →
      (s.queueOf vf n = none → exec (.doorbell vf n v) s = .next (error 0)) ∧
      (∀ k, s.queueOf vf n = some k →
        (2 ^ (s.queue k).ringLog < (v - (s.queue k).headCnt).toNat → exec (.doorbell vf n v) s = .next (error 0)) ∧
        ((v - (s.queue k).headCnt).toNat ≤ 2 ^ (s.queue k).ringLog → exec (.doorbell vf n v) s = .next (s.setQueue k ((s.queue k).appended v)) ∧
          ((s.queue k).appended v).tail = v))) ∧
    (∀ part, f.part = some part → exec (.fqhead vf v) s = .next (s.setPart part { s.part part with fqHead := v })) ∧
    (∃ x, exec (.verrClear vf v) s = .next (s.setVf vf { f with verr := x }) ∧
      ∀ j < 32, x.getLsbD j = (f.verr.getLsbD j && !v.getLsbD j)) ∧
    (off ∉ bar0Regs → exec (.bar0WriteOther vf off) s = .next (error 1)) ∧
    (f.frozen = none → ∀ part pl, f.part = some part →
      (fa.toNat % 65536 + bs.length ≤ 65536 → s.translate part (BitVec.ofNat 64 fa.toNat) .host = .ok pl →
        ∃ t l, exec (.hostWrite vf fa bs) s = .next t ∧ t.ord.accs = s.ord.accs ++ l ∧ l ≠ [] ∧
          (∀ a ∈ l, a.agent = .host vf ∧ a.scope = .dev ∧ a.place = pl ∧ ∃ st, a.op = .store st ∧ st.marks = []) ∧
          Terms.stored l = ((List.range bs.length).map (pl.addr + ·)).zip bs ∧ t.mem = s.mem) ∧
      (len ≠ 0 → (∀ i < len, s.translate part (BitVec.ofNat 64 fa.toNat + BitVec.ofNat 64 i) .host = .ok { pl with addr := pl.addr + i }) →
        ∃ t l, exec (.hostRead vf fa len) s = .next t ∧ t.ord.accs = s.ord.accs ++ l ∧
          (∀ a ∈ l, a.agent = .host vf ∧ a.scope = .dev ∧ ∃ ad o n, a.op = .load ad n (.host vf s.ord.nextId o) ∧ ad = pl.addr + o) ∧
          l.flatMap Access.bytes = (List.range len).map (pl.addr + ·) ∧
          t.hostAsks = s.hostAsks ++ [⟨vf, s.ord.nextId, len, []⟩] ∧ t.mem = s.mem))

/-- The manager's commands (R431): the answer and the effect of each, where its arguments are in range. These are the model's choices or
readings: the address space of PCREATE's key list and the tensor entries that INVAL drops (log 4), THAW of a virtual function (log 17), the
state of a queue after QENABLE and WDACK (log 31), the phases of MIGRATE (logs 36, 45) and PDESTROY of a partition with loads (log 51). -/
def Obligations.ManagerCommands : Prop :=
  ∀ (s : State), (s.device.dstate = .reduced ∨ s.device.dstate = .full) →
    let replies := fun (st : Nat) (t : State) => ({ t with reply := BitVec.ofNat 64 st :: List.replicate 7 0 } : State)
    (∀ n kp a k sg, n < 20 → kp < 20 → k ≤ 4 → (sg = true → k ≠ 0) →
      let made := fun (u : State) (keys : List (List Byte)) => ∃ t, exec (.pcreate n ⟨kp, a⟩ k sg) s = .next t ∧
        t.reply = BitVec.ofNat 64 0 :: List.replicate 7 0 ∧
        t.part n = { Part.reset with exists_ := true, ident := n, keys := keys, needSig := sg } ∧
        (∀ m, m ≠ n → t.part m = u.part m) ∧ t.mem = u.mem ∧
        (4 ≤ u.device.m.length → t.device.m.getD 3 [] = keys.foldl (fun d x => sha256 (d ++ sha256 x)) (u.device.m.getD 3 []))
      ((s.part n).exists_ = true → exec (.pcreate n ⟨kp, a⟩ k sg) s = .next (replies 1 s)) ∧
      ((s.part n).exists_ = false → k = 0 → made s []) ∧
      ((s.part n).exists_ = false → k ≠ 0 →
        (∀ bs u, s.readFlat (.cmdProc kp) kp (BitVec.ofNat 64 a) (64 * k) = .ok bs u →
          made u ((List.range k).map (fun i => (bs.drop (64 * i)).take 64))) ∧
        (∀ c sub v u, s.readFlat (.cmdProc kp) kp (BitVec.ofNat 64 a) (64 * k) = .fault c sub v u →
          exec (.pcreate n ⟨kp, a⟩ k sg) s = .next (replies 1 u)))) ∧
    (∀ n, n < 20 →
      (((s.part n).exists_ = false ∨ ∃ l ∈ s.loads, l.part = n) → exec (.pdestroy n) s = .next (replies 1 s)) ∧
      ((s.part n).exists_ = true → (∀ l ∈ s.loads, l.part ≠ n) → ∃ t, exec (.pdestroy n) s = .next t ∧
        t.reply = BitVec.ofNat 64 0 :: List.replicate 7 0 ∧ ((s.parts.map (fun x => x.1)).Nodup → smFind t.parts n = none) ∧ (∀ c ∈ t.cache, c.part ≠ n) ∧
        (∀ m, m ≠ n → t.part m = s.part m))) ∧
    (∀ g : GrantArgs, g.part < 20 → (∀ p ∈ g.patches ++ g.take, p < 640) → 4 ≤ g.fqLog → g.fqLog ≤ 12 → (∀ i, g.ident = some i → i < 20) →
      ((s.part g.part).exists_ = false → exec (.grant g) s = .next (replies 1 s)) ∧
      ((s.part g.part).exists_ = true → (∀ p ∈ g.patches, (s.patch p).fenced = false ∧ ∀ x ∈ s.parts, x.1 ≠ g.part → p ∉ x.2.patches) →
        (∀ p ∈ g.take, p ∈ (s.part g.part).patches ∧ (s.patch p).load = none) →
        (∀ f ∈ g.frames, ∀ x ∈ s.parts, x.1 ≠ g.part → f ∉ x.2.frames) →
        (∀ x ∈ s.parts, x.1 ≠ g.part → g.ident ≠ some x.2.ident) →
        ∃ t, exec (.grant g) s = .next t ∧ t.reply = BitVec.ofNat 64 0 :: List.replicate 7 0 ∧
          (∀ p, p ∈ (t.part g.part).patches ↔ (p ∈ (s.part g.part).patches ∨ p ∈ g.patches) ∧ p ∉ g.take) ∧
          (∀ f, f ∈ (t.part g.part).frames ↔ f ∈ (s.part g.part).frames ∨ f ∈ g.frames) ∧
          (t.part g.part).ident = g.ident.getD (s.part g.part).ident ∧ (t.part g.part).fqBase = g.fqBase ∧ (t.part g.part).fqLog = g.fqLog ∧
          (∀ m, m ≠ g.part → t.part m = s.part m))) ∧
    (∀ g : QSetArgs, g.queue < 4096 → g.part < 20 → g.pri ≤ 7 → g.weight ≠ 0 → g.weight ≤ 255 → 6 ≤ g.ringLog → g.ringLog ≤ 16 → g.vf < 1024 →
      g.n ≤ 3 → (∀ x ∈ s.queues, x.1 ≠ g.queue → x.2.vf ≠ some (g.vf, g.n)) →
      ∃ q, exec (.qset g) s = .next (replies 0 (s.setQueue g.queue q)) ∧ q = { s.queue g.queue with part := g.part, pri := g.pri, weight := g.weight, ringBase := g.ringBase, ringLog := g.ringLog, ringHost := g.ringHost, vf := some (g.vf, g.n), msix := g.msix }) ∧
    (∀ n, n < 4096 →
      let q := s.queue n
      let rest : QState := if q.head.isSome = true ∨ q.staged.isSome = true ∨ q.tail ≠ q.headCnt then .wait else .idle
      (q.st ≠ .stopped → exec (.qenable n) s = .next (replies 1 s)) ∧
      (q.st = .stopped → exec (.qenable n) s = .next (replies 0 (s.setQueue n { q with st := if ∃ l ∈ s.loads, l.q = n then .run else if ∃ c ∈ s.colls, c.q = some n then .run else rest }))) ∧
      exec (.qdisable n) s = .next (replies 0 (s.setQueue n { q with st := .stopped })) ∧
      (q.st ≠ .wdhold → exec (.wdack n) s = .next (replies 1 s)) ∧
      (q.st = .wdhold → exec (.wdack n) s = .next (replies 0 (s.setQueue n { q with st := rest }))) ∧
      (∀ l, s.loadAt n = some l →
        (l.st.alive = true → exec (.lend n) s = .next (replies 0 (s.endLoad l 0 1))) ∧
        (∀ k, s.frozenSub l = some k → exec (.ldiscard n) s = .next (replies 0 (s.endLoad l (causeCode .frozen) k))) ∧
        (s.frozenSub l = none → exec (.ldiscard n) s = .next (replies 1 s)) ∧
        (l.st = .running → exec (.lpreempt n) s = .next (replies 0 (s.holdLoad l))) ∧
        (l.st = .placed → exec (.lpreempt n) s = .next (replies 0 (s.unplace l))) ∧
        (l.st ≠ .running → l.st ≠ .placed → exec (.lpreempt n) s = .next (replies 1 s)))) ∧
    (∀ vf n, vf < 1024 → n < 20 → (s.part n).exists_ = true → exec (.vfbind vf n) s = .next (replies 0 (s.setVf vf { s.vf vf with part := some n }))) ∧
    (∀ t : ThawName, t.queue < 4096 → t.lp < 640 → t.el < 64 → t.agent ≤ 5 → t.port < 16 →
      (t.agent = 4 → ∀ a, (s.vf t.queue).frozen = some a →
        exec (.thawCommand t) s = .next (replies 0 ((s.setVf t.queue { s.vf t.queue with frozen := none }).hostAccess t.queue a))) ∧
      (t.agent ≠ 4 → ∀ l u, s.loadAt t.queue = some l → s.thawAgent l t = some u →
        exec (.thawCommand t) s = .next (replies 0 (u.redoLoad t.queue))) ∧
      (t.agent ≠ 4 → ∀ l, s.loadAt t.queue = some l → s.thawAgent l t = none → exec (.thawCommand t) s = .next (replies 1 s))) ∧
    (∀ n lo hi, n < 20 → ∃ c, exec (.inval n lo hi) s = .next (replies 0 (({ s with cache := c } : State).pullsOver n)) ∧
      (∀ x ∈ c, x ∈ s.cache ∧ (x.part = n → x.tens = none ∧ (hi.toNat < x.lo ∨ x.hi < lo.toNat))) ∧ ∀ x ∈ s.cache, x.part ≠ n → x ∈ c) ∧
    (∀ t : TimeoutArgs, t.part < 20 → okLimit t.feNs = true → okLimit t.escalationNs = true → 100000 ≤ t.custodyNs → t.custodyNs ≤ 100000000 →
      ∃ u, exec (.timeouts t) s = .next u ∧ (u.part t.part).feNs = t.feNs ∧ (u.part t.part).escNs = t.escalationNs ∧ (u.part t.part).remoteWalk = t.remoteWalk ∧
        u.fabric.custodyNs = t.custodyNs ∧ u.mem = s.mem ∧ u.reply = BitVec.ofNat 64 0 :: List.replicate 7 0) ∧
    (∀ es : List (Nat × Half), (∀ x ∈ es, x.1 < 512 ∧ x.2.toNat < 512) → ∃ r, exec (.route es) s = .next (replies 0 { s with fabric := { s.fabric with routes := r } }) ∧
      (∀ m, (∀ x ∈ es, x.1 ≠ m) → smFind r m = smFind s.fabric.routes m) ∧
      ∀ pre x rest, es = pre ++ x :: rest → (∀ y ∈ rest, y.1 ≠ x.1) → ∃ w : Half, smFind r x.1 = some w ∧
        let dead := s.portFenced (x.2.toNat % 16) = true ∧ s.portFenced (x.2.toNat / 16 % 16) = true
        w.toNat % 256 = x.2.toNat % 256 ∧ (¬ dead → w = x.2) ∧ (dead → w.toNat / 256 = 0)) ∧
    (∀ port (es : List (Nat × Nat × Half)), port < 16 →
      (∀ x ∈ es, x.1 < 256 ∧ x.2.1 < 16 ∧ x.2.2.toNat < 2 ^ 13 ∧ x.2.2.toNat / 32 % 8 = 0 ∧ x.2.2.toNat % 32 ≤ 16) →
      ∃ l, exec (.slotld port es) s = .next (replies 0 { s with fabric := { s.fabric with slots := l } }) ∧
        (∀ y ∈ l, y ∈ s.fabric.slots ∨ ∃ x ∈ es, y = ((port, x.1, x.2.1), x.2.2)) ∧
        ∀ x rest, es = x :: rest → (∀ y ∈ rest, (y.1, y.2.1) ≠ (x.1, x.2.1)) → ((port, x.1, x.2.1), x.2.2) ∈ l) ∧
    (∀ n t, n < 20 → t < 512 → (s.part n).exists_ = true →
      (t ≠ s.fabric.mod →
        ((∃ m, (s.part n).migrate = some m ∧ 1 ≤ m.1 ∧ m.1 ≤ 3 ∧ m ≠ (3, s.fabric.mod)) →
          exec (.migrate n 0 t) s = .next (replies 0 (s.setMigrate n none))) ∧
        ((s.part n).migrate = some (3, s.fabric.mod) → exec (.migrate n 0 t) s = .next (replies 0 ((s.dropTaken n).setMigrate n none))) ∧
        ((s.part n).migrate = none → ∃ u, exec (.migrate n 1 t) s = .next (replies 0 u) ∧
          u = (s.holdPart n).setPart n { (s.holdPart n).part n with migrate := some (1, t), migrateAt := s.clock.ns }) ∧
        ((s.part n).migrate = some (1, t) → s.partSettled n = true → exec (.migrate n 2 t) s = .next (replies 0 (s.setMigrate n (some (2, t))))) ∧
        ((s.part n).migrate = some (1, t) → s.partSettled n = false → exec (.migrate n 2 t) s = .next (replies 1 s)) ∧
        ((s.part n).migrate = some (2, t) → exec (.migrate n 3 t) s = .next (replies 0 ((s.savePart n).setMigrate n (some (3, t))))) ∧
        ((s.part n).migrate = some (3, t) → exec (.migrate n 4 t) s = .next (replies 0 ((s.leavePart n t).setMigrate n (some (4, t))))) ∧
        ((s.part n).migrate = some (4, t) → exec (.migrate n 5 t) s = .next (replies 0 (s.setMigrate n (some (5, t)))))) ∧
      (t = s.fabric.mod →
        ((s.part n).migrate = none → exec (.migrate n 3 t) s = .next (replies 0 ((s.takePart n).setMigrate n (some (3, t))))) ∧
        ((s.part n).migrate = some (3, t) → exec (.migrate n 4 t) s =
          .next (replies 0 (s.setPart n { s.part n with taken := Part.reset.taken, migrate := none }))) ∧
        ((s.part n).migrate ≠ some (3, t) → exec (.migrate n 4 t) s = .next (replies 1 s)))) ∧
    (∀ c, exec (.unknownCommand c) s = .next (replies (if 1 ≤ c.toNat ∧ c.toNat ≤ 0x12 then 2 else 3) s))

/-- The READ commands (R432), each with the words that it returns. That the bytes of a save frame are free values, new ones at each read, is
the model's choice (log 47). -/
def Obligations.MailboxReads : Prop :=
  ∀ (s : State), (s.device.dstate = .reduced ∨ s.device.dstate = .full) →
    let answers := fun (t : State) (d : Option (List DWord)) => (match d with
      | some l => { t with reply := BitVec.ofNat 64 0 :: ((List.range 6).map (fun i => l.getD i 0) ++ [0]) }
      | none => { t with reply := BitVec.ofNat 64 2 :: List.replicate 7 0 } : State)
    let piece := fun (bs : List Byte) (k : Nat) => (if k ≠ 0 ∧ bs.length ≤ 48 * k then none
      else some ((List.range 6).map (fun i => (BitVec.ofNat 64 (numAt bs (48 * k + 8 * i) 8) : DWord))) : Option (List DWord))
    let only := fun (k : Nat) (l : List DWord) => if k = 0 then some l else none
    (∀ port k, port < 16 →
      exec (.readSlipcnt port k) s = .next (answers s (only k [BitVec.ofNat 64 (s.fabPort port).slip.toNat])) ∧
      exec (.readLinkErrors port k) s = .next (answers s (only k [(s.fabPort port).dropped ++ (s.fabPort port).crcReplays,
        BitVec.ofNat 64 (s.fabPort port).resends.toNat]))) ∧
    (∀ k, exec (.readFailureMap k) s = .next (answers s (piece (failureMap s.device.fenced) k))) ∧
    (∀ k, exec (.readDeviceState k) s = .next (answers s (only k [if s.device.dstate = .full then 3 else 2]))) ∧
    (∀ k, exec (.readIdentityCert k) s = .next (answers s (piece Config.certificate k))) ∧
    (∀ k, exec (.readThrottle k) s = .next (answers s (only k [BitVec.ofNat 64 (((List.range 8).map (fun d => smGet 0 s.device.throttle d * 256 ^ d)).sum)]))) ∧
    (∀ n lp k l, s.loadAt n = some l → (s.standsFrozen l = true ∨ l.saved ≠ []) → lp < l.images.length → k < 1048576 →
      exec (.readSaveFrame n lp k) s = .next (answers { s with free := s.free + 6 }
        (some ((List.range 6).map (fun i => Config.freeDWord (s.free + i)))))) ∧
    (∀ n lp k, n < 4096 → s.loadAt n = none → exec (.readSaveFrame n lp k) s = .next { s with reply := BitVec.ofNat 64 1 :: List.replicate 7 0 }) ∧
    (∀ nonce, let r := s.bootReport nonce
      exec (.readBootReport 0 nonce) s = .next (answers { s with device := { s.device with report := r } } (piece48 r 0)) ∧ r.length = 256) ∧
    (∀ k nonce, k ≠ 0 → exec (.readBootReport k nonce) s = .next (answers s (piece48 (bytesTo 256 s.device.report) k)))

/-- PACKET_TAKE, PACKET_TRIGGER, PACKET_START, CONFIG_LOAD, STAGE, PATCH_POWER_GATE and PATCH_WAKE. That a load's image is read again once
its counters have released it, on the patches that it had when it was taken, is the model's reading of R376 and R437 (log 76). -/
def Obligations.PacketsStart : Prop :=
  ∀ (s : State) (n : Nat),
    let q := s.queue n
    let at_ := q.entry q.headCnt.toNat
    let from_ := (q.launchers.find? (fun x => x.1 == q.headCnt.toNat)).map (fun x => x.2)
    let took := fun (k : Nat) => ({ q with headCnt := q.headCnt + BitVec.ofNat 32 k, launchers := q.launchers.filter (fun x => x.1 != q.headCnt.toNat) } : Queue)
    let hold := fun (t : State) (w : List (Nat × Nat × Nat)) => predicate (w.map (fun c => (c.1, c.2.1, t.counter c.2.2)))
    (q.st = .wait → q.head = none → (∀ l ∈ s.loads, l.q ≠ n) → (∀ c ∈ s.colls, c.q ≠ some n) → q.tail ≠ q.headCnt →
      (∀ w k bad s₁, s.ringPacket q = .ok (w, k, some bad) s₁ → k ≤ (q.tail - q.headCnt).toNat →
        exec (.packetTake n) s = .next (s₁.setQueue n { took k with head := some ⟨w, at_, default, from_, [], false, some bad⟩ })) ∧
      (∀ w k s₁, s.ringPacket q = .ok (w, k, none) s₁ → k ≤ (q.tail - q.headCnt).toNat →
        let head := fun (img : LoadImage) (l : List (List (Nat × Nat × Nat))) (ready : Bool) (f : Option (Nat × Nat × DWord)) =>
          (⟨w, at_, img, from_, l, ready, f⟩ : Head)
        (isColl w = false → (∀ img l s₂, s₁.checkLaunch { q with prev := s₁.previous n } w at_ = .ok (img, l) s₂ →
            exec (.packetTake n) s = .next (s₂.setQueue n { took k with head := some (head img l (l.all (hold s₂)) none) })) ∧
          (∀ c sub fa s₂, s₁.checkLaunch { q with prev := s₁.previous n } w at_ = .fail c sub fa s₂ →
            exec (.packetTake n) s = .next (s₂.setQueue n { took k with head := some (head default [] false (some (causeCode c, sub, fa))) }))) ∧
        (isColl w = true → (∀ l s₂, s₁.checkColl q.part w at_ = .ok l s₂ →
            exec (.packetTake n) s = .next (s₂.setQueue n { took k with head := some (head default l (l.all (hold s₂)) none) })) ∧
          (∀ c sub fa s₂, s₁.checkColl q.part w at_ = .fail c sub fa s₂ →
            exec (.packetTake n) s = .next (s₂.setQueue n { took k with head := some (head default [] false (some (causeCode c, sub, fa))) })))) ∧
      (∀ c sub fa s₁, s.ringPacket q = .fail c sub fa s₁ →
        exec (.packetTake n) s = .next (s₁.setQueue n { took 1 with head := some ⟨[], at_, default, from_, [], false, some (causeCode c, sub, fa)⟩ }))) ∧
    (let again := fun (h : Head) => { h with ready := h.ready || h.trigs.all (hold s) }
     exec (.packetTrigger n) s = .next (s.setQueue n (match q.st with
        | .wait => { q with head := q.head.map again }
        | .run => { q with staged := q.staged.map again }
        | _ => q))) ∧
    (∀ h f, q.head = some h → h.fail = some f → q.st = .wait →
      (isColl h.words = true → ∃ k, exec (.packetStart n) s =
          .next { s.setQueue n { q with head := none, st := .run } with colls := s.colls ++ [k], nextEngine := s.nextEngine + 1 } ∧
        k.n = s.nextEngine ∧ k.q = some n ∧ k.part = q.part ∧ k.block = h.words ∧ k.fail = some f) ∧
      (isColl h.words = false → ∃ l, exec (.packetStart n) s =
          .next { s.setQueue n { q with head := none } with loads := s.loads ++ [l], nextLoad := s.nextLoad + 1 } ∧
        l.st = .ended f.1 f.2.1 ∧ l.faddr = f.2.2 ∧ l.patches = [] ∧ l.q = n)) ∧
    (s.freshRounds.pick = some n → ∀ h ps, q.head = some h → h.fail = none → s.freshRounds.headPlace n = some ps →
      let c := s.freshRounds.charge n
      let run := fun (st : QState) => c.setQueue n { c.queue n with head := none, st := st }
      (isColl h.words = false → exec (.packetStart n) s = .next ((run .run).assign (h.load n (c.queue n) c.nextLoad ps .placed))) ∧
      (isColl h.words = true → ∃ k, exec (.packetStart n) s = .next { run .run with colls := c.colls ++ [k], nextEngine := c.nextEngine + 1 } ∧
        k.n = c.nextEngine ∧ k.q = some n ∧ k.part = (c.queue n).part ∧ k.block = h.words ∧ k.fail = none)) ∧
    (s.freshRounds.pick ≠ some n → (∀ h, q.head = some h → h.fail = none) → exec (.packetStart n) s = .next s.freshRounds) ∧
    (∀ x ∈ s.queues, let level := s.queues.filter (fun y => y.2.pri == x.2.pri && s.eligible y.1)
      (level ≠ [] → (∀ y ∈ level, y.2.weight ≤ y.2.charge) → (x.1, { x.2 with charge := 0 }) ∈ s.freshRounds.queues) ∧
      ((∃ y ∈ level, y.2.charge < y.2.weight) ∨ level = [] → x ∈ s.freshRounds.queues)) ∧
    ((s.queues.map (fun x => x.1)).Nodup → s.pick = some n →
      n ∈ s.candidates q.pri ∧ ∀ j, j ≤ 7 → s.candidates j ≠ [] → j ≤ q.pri) ∧
    (∀ free pw ph ps, placeOn free pw ph = some ps → ps.length = pw * ph ∧ ∀ p ∈ ps, p ∈ free) ∧
    (∀ l, s.loads.find? (fun l => l.q == n) = some l → l.st = .placed → (∀ p ∈ l.patches, (s.patch p).gated = false ∧ s.hot p = false) →
      s.mayStart l.part = true →
      (∀ imgs, s.resident l = some imgs → exec (.configLoad n) s = .next (s.startAll l imgs true)) ∧
      (s.resident l = none →
        (∀ img s₀, s.freshImage l.part (BitVec.ofNat 64 l.image) l.img = .ok img s₀ →
          (∀ s₁ imgs, s₀.phase1 img = (s₁, .ok imgs) →
            exec (.configLoad n) s = .next ((s₁.modLoad n (fun y => { y with img := img })).startAll { l with img := img } imgs false)) ∧
          (∀ s₁ c fa, s₀.phase1 img = (s₁, .error (c, fa)) → exec (.configLoad n) s = .next (s₁.failStart l c 0 fa))) ∧
        (∀ c sub fa s₀, s.freshImage l.part (BitVec.ofNat 64 l.image) l.img = .fail c sub fa s₀ →
          exec (.configLoad n) s = .next (s₀.failStart l c sub fa)))) ∧
    (∀ img : LoadImage, (∀ k, Config.strike s.free = some k → img.pw * img.ph ≤ k ∨ ∃ lp e, img.images = .error (lp, e) ∧ lp < k) →
      (∀ imgs, img.images = .ok imgs → s.phase1 img = ({ s with free := s.free + 1 }, .ok imgs)) ∧
      (∀ lp e, img.images = .error (lp, e) → s.phase1 img = ({ s with free := s.free + 1 }, .error (e.f.c, cfgAddr lp e)))) ∧
    (∀ h l, q.staged = some h → s.loads.find? (fun l => l.q == n) = some l → h.ready = true → h.fail = none → l.st = .running →
      (∀ p ∈ l.patches, (s.patch p).phase.opened = false) → (∃ p ∈ l.patches, (s.patch p).staged = none) →
      (∀ c sub fa s₀, s.freshImage q.part (pkImage h.words) h.img = .fail c sub fa s₀ → exec (.stage n) s =
        .next (s₀.setQueue n { q with staged := some { h with fail := some (causeCode c, sub, fa) } })) ∧
      ∀ img s₀, s.freshImage q.part (pkImage h.words) h.img = .ok img s₀ →
      (∀ s₁ c fa, s₀.phase1 img = (s₁, .error (c, fa)) → exec (.stage n) s =
        .next (s₁.setQueue n { q with staged := some { h with fail := some (causeCode c, 0, fa) } })) ∧
      (∀ s₁ imgs, s₀.phase1 img = (s₁, .ok imgs) → ∃ t, exec (.stage n) s = .next t ∧ t.loads = s₁.loads ∧ t.mem = s₁.mem ∧
        t.queue n = { q with staged := some { h with img := img } } ∧
        (l.patches.Nodup → ∀ j p, l.patches[j]? = some p → t.patch p = { s₁.patch p with staged := some (imgs.getD j PatchImage.none) }) ∧
        ∀ p, p ∉ l.patches → t.patch p = s₁.patch p)) ∧
    (∀ p, (s.patch p).load = none → (s.patch p).gated = false → p < 640 → (s.patch p).freeSince + 20000 ≤ s.clock.ns →
      exec (.patchPowerGate p) s = .next (s.setPatch p { s.patch p with gated := true })) ∧
    (∀ p x, (s.patch p).load = some x → (s.patch p).gated = true → exec (.patchWake p) s = .next (s.setPatch p { s.patch p with gated := false }))

/-- LOAD_FREEZE, PREEMPT, EVICT, RESTORE, LOAD_MOVE, WATCHDOG_EXPIRY, LOAD_NATURAL_END and LOAD_COMPLETION_RECORD. These are the
model's readings: that the latch of a launcher is found by its load and patch index (log 61), when LOAD_MOVE moves a load (log 70), and what a
restored load that kept its patches is set to (log 71). -/
def Obligations.LoadsEnd : Prop :=
  ∀ (s : State) (n : Nat) (l : Load), s.loadAt n = some l →
    let q := some n
    (l.st = .running → exec (.loadFreeze n) s = .next (s.holdLoad l) ∧ (∀ p ∈ l.patches, ((s.holdLoad l).patch p).frozen = true) ∧
      (∀ p, p ∉ l.patches → (s.holdLoad l).patch p = s.patch p)) ∧
    (l.st = .placed → exec (.loadFreeze n) s = .next (s.unplace l) ∧ ∀ p ∈ l.patches, ((s.unplace l).patch p).load = none ∧
      ((s.unplace l).patch p).staged = none) ∧
    (l.st = .running → (∃ x ∈ s.queues, ∃ h, x.2.head = some h ∧ s.eligible x.1 = true ∧ s.headPlace x.1 = none ∧
        s.victim x.2.part (min (pkPri h.words) x.2.pri) = q) → exec (.preempt n) s = .next (s.holdLoad l)) ∧
    (∀ part pri, s.victim part pri = q → (∃ a ∈ s.loads, a.q = n ∧ a.part = part ∧ a.st = .running ∧ a.pri < pri ∧
      ∀ b ∈ s.loads, b.part = part → b.st = .running → b.pri < pri → a.pri < b.pri ∨ (a.pri = b.pri ∧ b.order ≤ a.order))) ∧
    ((l.st = .held ∨ ∃ k, l.st = .frozen k) → s.settled l = true → l.patches ≠ [] → l.frames.length = l.patches.length → s.commands n = false →
      let t := l.frames.foldl (fun s f => s.writeFrame l.part f) s
      exec (.evict n) s = .next ((t.saveLoad l).modLoad n (fun x => x.goes t.clock.tsc (.evicted l.st.sub)))) ∧
    (l.frames.length ≠ l.patches.length → exec (.evict n) s = .next s) ∧
    (l.resumed = true → (s.part l.part).migrate = none → s.outranked l = false →
      (l.st = .held → exec (.restore n) s = .next ((s.resumeHeld l).redoLoad n)) ∧
      (l.st = .evicted none → ∀ ps, placeOn (s.freePatches l.part) l.img.pw l.img.ph = some ps →
        exec (.restore n) s = .next (if l.images = [] then s.replace l ps else (s.standOn l ps).redoLoad n))) ∧
    ((l.resumed = false ∨ s.outranked l = true) → exec (.restore n) s = .next s) ∧
    (l.patches.Nodup → ∀ p ∈ l.patches, ((s.resumeHeld l).patch p).frozen = false ∧ ((s.resumeHeld l).seq p).latch = true) ∧
    (l.st = .running →
      (s.wantsRoom l.part = none → exec (.loadMove n) s = .next (s.askDrain l false)) ∧
      (∀ k pos, s.wantsRoom l.part = some (k, pos) →
        (l.drain = none → exec (.loadMove n) s =
          .next ((s.askDrain l true).modLoad n (fun x => { x with drain := some ⟨k, pos, s.clock.ns⟩ }))) ∧
        (∀ t, l.drain = some ⟨k, pos, t⟩ →
          (t + 100000 < s.clock.ns → exec (.loadMove n) s = .next (s.askDrain l false)) ∧
          (s.clock.ns ≤ t + 100000 → s.lull l = true →
            ∀ ps, placeOn ((List.range 640).filter (fun p => l.patches.contains p || (s.freePatches l.part).contains p)) l.img.pw l.img.ph = some ps →
              ps ≠ l.patches → ps.sum < l.patches.sum → exec (.loadMove n) s = .next (s.moveLoad l ps))))) ∧
    (∀ ps h l', ((s.holdLoad l).readOut l).loadAt n = some h → ((s.holdLoad l).readOut l).settled h = true → h.frames.length = h.patches.length →
      s.commands n = false → (((s.holdLoad l).readOut l).saveLoad h).loadAt n = some l' →
      s.moveLoad l ps = ((((s.holdLoad l).readOut l).saveLoad h).standOn l' ps).redoLoad n) ∧
    (l.st.counts = true → l.tstart.isSome = true → l.budget ≠ 0 → l.budget * 1000 ≤ (l.tick s.clock.tsc).timer → s.naturalEnd l = false →
      ∃ r, exec (.watchdogExpiry n) s = .next (({ s with freezes := s.freezes ++ [r] } : State).endLoad l (causeCode .watchdog) 0) ∧
        r = freezeRec 0 0 n l.part 5 3 0 l.lid.toNat 0 (xcause (causeCode .watchdog) 0 false) 0 s.clock.tsc 0) ∧
    (s.naturalEnd l = true → exec (.loadNaturalEnd n) s = .next (s.modLoad n (fun x => x.goes s.clock.tsc (.ended 0 0)))) ∧
    (s.naturalEnd l = true ↔ l.st = .running ∧ s.lull l = true ∧ s.busy l = false ∧ ∀ p ∈ l.patches, (s.seq p).wf = true ∧
      ∀ v ∈ (s.patch p).elems, v.2.halted = true ∨ v.2.blocks = []) ∧
    (∀ status sub, l.st = .ended status sub → s.loadDone l status = true →
      (l.cr ≠ 0 → ∀ s₁, s.writeRecord l.part (BitVec.ofNat 64 l.cr) (recordWords status sub l.fcnt l.lid l.fcause l.faddr (l.tstart.getD 0)
          s.clock.tsc (s.frozenElems l) l.images.length n) = .ok s₁ →
        exec (.loadCompletionRecord n) s = .next (s₁.modLoad n (fun x => { x with st := .recorded status sub }))) ∧
      (l.cr = 0 → ∃ r, exec (.loadCompletionRecord n) s = .next (({ s with freezes := s.freezes ++ [r] } : State).finishLoad l status true))) ∧
    (∀ status sub, l.st = .recorded status sub → s.cpDone l.part = true → l.launcher = none →
      (l.flag = 0 → exec (.loadCompletionRecord n) s = .next ((s.finishLoad l status (status == causeCode .watchdog)).raiseQueue n)) ∧
      (l.flag ≠ 0 → ∀ s₁, s.signalFlag l.part (BitVec.ofNat 64 l.flag) l.finc = (s₁, true) →
        exec (.loadCompletionRecord n) s = .next ((s₁.finishLoad l status (status == causeCode .watchdog)).raiseQueue n))) ∧
    (∀ status sub o lp k, l.st = .recorded status sub → s.cpDone l.part = true → l.launcher = some (o, lp) → l.flag = 0 →
      s.loads.find? (fun x => x.order == o) = some k →
      exec (.loadCompletionRecord n) s = .next (((s.onLoadPatch k lp (fun x => { x with seq := { x.seq with latch := true } })).finishLoad l status
        (status == causeCode .watchdog)).raiseQueue n))

/-- The packet kinds (R411) at this module, each as `State.arrive` lets it through. The layouts of the payloads of WR, ERR and REDIR are the
model's choice (log 16), and so is that a second copy is known by its equality but for HOP, where R413 names SMOD and TAG (log 34). -/
def Obligations.FabricPackets : Prop :=
  ∀ (s : State) (port : Nat) (k : Packet), s.mem.wf = true → port < 16 → (s.fabPort port).up = true → s.portFenced port = false →
    let s₀ := s.takeCustody { packetCust k with smod := BitVec.ofNat 9 s.fabric.mod } 16 port
    let seen := s.fabric.dup.filter (fun x => decide (s.clock.ns < x.2 + 1000000))
    let noted_ := fun (kind : BitVec 4) => ({ s₀ with fabric := { s₀.fabric with dup := seen ++ [({ k with kind := kind, hop := 0 }, s.clock.ns)] } } : State)
    let new := fun (kind : BitVec 4) => ∀ x ∈ seen, x.1 ≠ { k with kind := kind, hop := 0 }
    let mine := k.dmod.toNat = s.fabric.mod
    let owned := ∃ x ∈ s.parts, x.2.ident = k.part.toNat ∧ k.addr.toNat / 65536 ∈ x.2.frames
    let held := s.stub k = none ∧ owned
    let reply := fun (kind : Nat) (bs : List Byte) => packet kind .fab k.smod.toNat k.part.toNat bs.length k.tag k.op k.addr.toNat bs
    (mine → held →
      (new 0 → exec (.rd port k) s = .next ((noted_ 0).send (reply 1 ((noted_ 0).readFab k.addr.toNat k.len.toNat)))) ∧
      (new 2 → (∀ v ∈ s.ord.vis, ∀ y ∈ v.2, y.age < s.ord.nextAge) → ∃ t : State, exec (.wr port k) s = .next (t.send (reply 3 [])) ∧
        ∃ u : State, t = u.retryIncs ∧ (∀ b ∈ wrBytes k, smGet 0 s.ord.ages b.1 < s.ord.nextAge → u.mem.get b.1 = b.2) ∧
        (∀ a, (∀ b ∈ wrBytes k, b.1 ≠ a) → u.mem.get a = s.mem.get a) ∧ u.wrCount k = s.wrCount k + 1) ∧
      (new 4 → let wide := k.op.getLsbD 2
        let n := if wide then 8 else 4
        let r := (noted_ 4).atomic (atomOf (k.op.toNat / 8 % 8)) wide k.addr.toNat (BitVec.ofNat 64 (numAt k.payload 0 n)) (BitVec.ofNat 64 (numAt k.payload n n))
        exec (.atom port k) s = .next (r.2.send (reply 5 (leBytes n r.1.toNat)))) ∧
      (new 6 → exec (.flaginc port k) s = .next ((noted_ 6).tryInc { k with kind := 6 }) ∧
        (s.wrCount k < numAt k.payload 4 4 → ((noted_ 6).tryInc { k with kind := 6 }).fabric.incs = s.fabric.incs ++ [{ k with kind := 6 }]))) ∧
    (mine → s.stub k = none → ¬ owned → new 0 →
      exec (.rd port k) s = .next ((noted_ 0).bounce { k with kind := 0 } .perm 0)) ∧
    (¬ mine → exec (.rd port k) s = .next (s₀.passOn { k with kind := 0 } port)) ∧
    (mine → (∃ x ∈ seen, x.1 = { k with kind := 0, hop := 0 }) → exec (.rd port k) s = .next { s₀ with fabric := { s₀.fabric with dup := seen } }) ∧
    (mine →
      (new 1 → ∃ l : List Asked, exec (.rdr port k) s = .next { noted_ 1 with fabric := { (noted_ 1).fabric with asked := l } } ∧ l.length = s.fabric.asked.length ∧
        ∀ (j : Nat) (a : Asked), s.fabric.asked[j]? = some a → l[j]? = some (if a.tag = k.tag ∧ a.st = .sent then { a with st := .data k.payload } else a)) ∧
      (new 5 → ∃ l : List Asked, exec (.atomr port k) s = .next { noted_ 5 with fabric := { (noted_ 5).fabric with asked := l } } ∧ l.length = s.fabric.asked.length ∧
        ∀ (j : Nat) (a : Asked), s.fabric.asked[j]? = some a → l[j]? = some (if a.tag = k.tag ∧ a.st = .sent then { a with st := .data k.payload } else a)) ∧
      (new 3 → ∃ t : State, exec (.wra port k) s = .next t ∧ t.fabric.asked = s.fabric.asked.eraseP (fun a => a.is k.tag k.addr.toNat) ∧
        (∀ x, x ∈ t.fabric.stubs ↔ x ∈ s.fabric.stubs ∧ ∃ a ∈ t.fabric.asked, a.agent = .remote s.fabric.mod ∧ a.addr / 65536 = x.1) ∧ t.mem = s.mem) ∧
      (new 8 → exec (.err port k) s = .next ((noted_ 8).failed (numAt k.payload 7 1 / 16) k.tag (numAt k.payload 8 8 % 2 ^ 51)
        (if numAt k.payload 16 1 = causeCode .perm then .perm else .xlate) 0)) ∧
      (new 9 → let fr := numAt k.payload 0 8
        ∃ t : State, exec (.redir port k) s = .next (t.send (reply 3 [])) ∧ t.redirected k.smod.toNat (fr * 65536) = numAt k.payload 8 2 ∧
          (∀ m pa, (m ≠ k.smod.toNat ∨ pa / 65536 ≠ fr) → t.redirected m pa = s.redirected m pa)) ∧
      (k.kind.toNat < 12 → new 11 → exec (.collPacket port k) s = .next (noted_ 11))) ∧
    (12 ≤ k.kind.toNat → exec (.collPacket port k) s =
      .next ((s.setFabPort port { s.fabPort port with dropped := (s.fabPort port).dropped + 1 }).send (packetError k .xlate 0))) ∧
    (∀ h, s.fabric.held.find? (fun h => h.sent && h.out == port && h.k.tag == k.tag && h.k.smod == k.dmod) = some h →
      exec (.cust port k) s = .next { s with fabric := { s.fabric with held := s.fabric.held.filter (fun x => x.n != h.n) } }) ∧
    (∀ m, s.stub k = some m → exec (.stubForward k) s = .next (s.passOn { k with dmod := BitVec.ofNat 9 m } 16))

/-- FABRIC_FORWARD, FLIT_REPLAY, CUSTODY_RESEND, CUSTODY_TIMEOUT, SYNC, SYNC_SEND and LINK_START. -/
def Obligations.FabricCustody : Prop :=
  ∀ (s : State) (port n : Nat) (h : Held),
    let x := s.fabPort port
    let others := s.fabric.held.filter (fun y => y.n != n)
    (s.fabric.held.find? (fun h => h.n == n && h.out == port) = some h → h.sent = false → x.up = true → s.portFenced port = false →
      x.has h.k = true → s.mayLeave h = true →
      let link := h.k.kind = 7 ∨ h.k.kind = 10
      let l := if link then others
        else s.fabric.held.map (fun y => if y.n = n then { y with sent := true, since := s.clock.ns } else y)
      let u := if s.claimedNow port then s else s.setFabPort port { x with robin := h.inp }
      let t := if link then u.setFabPort port { u.fabPort port with lastLink := some n } else u
      exec (.fabricForward port n) s = .next { t with fabric := { t.fabric with held := l } }) ∧
    (x.lastLink = some n ∨ (∃ y ∈ s.fabric.held, y.n = n ∧ y.out = port ∧ y.sent = true) →
      exec (.flitReplay port n) s = .next (s.setFabPort port { x with crcReplays := x.crcReplays + 1 })) ∧
    (s.fabric.held.find? (fun h => h.n == n) = some h → h.sent = true → h.since + 10000 ≤ s.clock.ns →
      ∃ t : State, exec (.custodyResend n) s = .next t ∧ (t.fabPort h.out).resends = (s.fabPort h.out).resends + 1 ∧
        t.fabric.held = s.fabric.held.map (fun y => if y.n = n then { y with sent := false, alt := true, out := ((s.route h.k.dmod.toNat).map (fun r => r.2)).getD h.out, since := s.clock.ns } else y)) ∧
    (s.fabric.held.find? (fun h => h.n == n) = some h → h.sent = false → h.k.kind ≠ 7 → h.k.kind ≠ 10 →
      ((s.fabPort h.out).up = false ∨ s.portFenced h.out = true) →
      let out := ((s.route h.k.dmod.toNat).map (fun r => r.2)).getD h.out
      let l := s.fabric.held.map (fun y => if y.n = n then { y with sent := false, alt := true, out := out, since := s.clock.ns } else y)
      exec (.custodyResend n) s = .next { s with fabric := { s.fabric with held := l } }) ∧
    (s.fabric.held.find? (fun h => h.n == n) = some h → h.entered + s.fabric.custodyNs ≤ s.clock.ns →
      exec (.custodyTimeout n) s = .next (({ s with fabric := { s.fabric with held := others } } : State).bounce h.k .xlate 0)) ∧
    (x.up = true → s.portFenced port = false → ∀ sample : DWord,
      let d := max (sample.toNat - s.clock.tsc.toNat) (s.clock.tsc.toNat - sample.toNat)
      ∃ t : State, exec (.sync port sample) s = .next t ∧ t.clock.tsc = s.clock.tsc ∧ t.mem = s.mem ∧
        (t.fabPort port).slip = x.slip + (if 40 < d then 1 else 0) ∧
        (t.fabPort port).goodSyncs = (if d ≤ 10 then min 16 (x.goodSyncs + 1) else 0) ∧
        ((t.fabPort port).slipped = true ↔ 40 < d ∨ (x.slipped = true ∧ ¬ (d ≤ 10 ∧ 16 ≤ x.goodSyncs + 1))) ∧
        (s.fabric.mod = Config.timeMaster → t.clock = s.clock) ∧
        (t.clock.rate = s.clock.rate ∨ (999900 ≤ t.clock.rate ∧ t.clock.rate ≤ 1000100))) ∧
    (x.up = true → s.portFenced port = false → x.syncDue ≤ s.clock.ns →
      ∃ k : Packet, exec (.syncSend port) s = .next ((s.setFabPort port { x with syncDue := s.clock.ns + 1000 }).takeCustody k 16 port) ∧
        k.kind = 10 ∧ k.payload = leBytes 8 s.clock.tsc.toNat ∧ k.smod = BitVec.ofNat 9 s.fabric.mod) ∧
    (port < 16 → s.portFenced port = false → ∀ modNum version master, modNum < 512 →
      ∃ t : State, exec (.linkStart port modNum version master) s = .next t ∧ (t.fabPort port).up = true ∧
        (t.fabPort port).version = min version 0x00010001 ∧ t.fabric.mod = modNum ∧ t.mem = s.mem ∧
        t.clock.tsc = (if s.loads = [] ∧ s.clock.tsc.toNat < master.toNat then master else s.clock.tsc))

/-- COLLECTIVE_START, TILE_ARRIVAL, COLLECTIVE_COMPLETE, COLLECTIVE_BUDGET_EXPIRY and FRAME_PULL; and the order in which a reduction
combines the members' values, and what it leaves in DST (R422). -/
def Obligations.CollectivesAndPulls : Prop :=
  (∀ (s : State) (n : Nat) (c : Collective), s.coll n = some c →
    let w := c.block
    let hold := fun (t : State) (l : List (List (Nat × Nat × Nat))) =>
      l.all (fun h => predicate (h.map (fun c => (c.1, c.2.1, t.counter c.2.2))))
    (∀ peers, c.started = none → c.fail = none → c.recorded = false →
      let fails := fun (u : Cause) (sub : Nat) (fa : DWord) (s₁ : State) =>
        exec (.collectiveStart n peers) s = .next (s₁.setColl { c with fail := some (causeCode u, sub, fa) })
      (c.trigs = none → (∀ l s₁, s.checkColl c.part w c.ptr = .ok l s₁ →
          exec (.collectiveStart n peers) s = .next (s₁.setColl { c with trigs := some l, ready := hold s₁ l })) ∧
        (∀ u sub fa s₁, s.checkColl c.part w c.ptr = .fail u sub fa s₁ → fails u sub fa s₁)) ∧
      (∀ l, c.trigs = some l →
        (c.ready = false → hold s l = false → exec (.collectiveStart n peers) s = .next s) ∧
        (c.ready = true ∨ hold s l = true → (w.getD 10 0).toNat ≤ s.clock.tsc.toNat →
          (∀ g s₁, s.readGroup c.part w c.ptr = .ok g s₁ → peers.length = g.length →
            exec (.collectiveStart n peers) s = .next (s₁.collRun c g peers)) ∧
          (∀ u sub fa s₁, s.readGroup c.part w c.ptr = .fail u sub fa s₁ → fails u sub fa s₁)))) ∧
    (∀ t data s₁, c.started.isSome = true → c.fail = none → ckAlg w = 3 → t < tileCount w → t ∉ c.tiles →
      s.putTile c t (if t % ckSize w = ckRank w then reduceBytes w c.data ((List.range 4096).map (4096 * t + ·))
        else bytesTo (4096 * fmtBytes (ckDt w)) data) = .ok s₁ →
      exec (.tileArrival n t data) s = .next (s₁.setColl { c with tiles := t :: c.tiles, written := c.tiles.length + 1 == tileCount w })) ∧
    (c.recorded = false → (c.fail.isSome = true ∨ c.written = true) → s.allPerformed (.cmdProc c.part) s.ord.nextId .fab = true →
      let f := c.fail.getD (0, 0, 0)
      (w.getD 5 0 = 0 → exec (.collectiveComplete n) s = .next (s.setColl { c with recorded := true })) ∧
      (w.getD 5 0 ≠ 0 → isFlat (w.getD 5 0) = true → ∀ s₁, s.writeRecord c.part (ckAddr w 5) (recordWords f.1 f.2.1 0 (BitVec.ofNat 32 (w.getD 0 0).toNat)
          (BitVec.ofNat 32 (f.1 + 256 * f.2.1)) f.2.2 (c.started.getD 0) s.clock.tsc 0 0 (c.q.getD 0xFFF)) = .ok s₁ →
        exec (.collectiveComplete n) s = .next (s₁.setColl { c with recorded := true }))) ∧
    (c.recorded = true → s.cpDone c.part = true →
      let wd := (c.fail.getD (0, 0, 0)).1 == causeCode .watchdog
      let flagged := fun (s₁ : State) => if isFlat (w.getD 6 0) ∧ ¬ (c.q = none ∧ c.by_ = none) then
          s.signalFlag c.part (ckAddr w 6) (BitVec.ofNat 32 ((w.getD 7 0).toNat / 2 ^ 32)) = (s₁, true) else s₁ = s
      ∀ s₁, flagged s₁ → exec (.collectiveComplete n) s = .next (match c.q with
        | some m => (s₁.finishColl c wd).raiseQueue m
        | none => s₁.finishColl c wd)) ∧
    (c.recorded = false → c.fail = none → c.written = false →
      let budget := (w.getD 7 0).toNat % 2 ^ 32
      budget ≠ 0 → c.since + 1000 * budget ≤ s.clock.ns → ∃ t : State, exec (.collectiveBudgetExpiry n) s = .next t ∧
        ∀ d ∈ t.colls, d.n = n → d.fail = some (causeCode .watchdog, 0, 0))) ∧
  (∀ (s : State) (part fa a size : Nat) (data : List Byte) (full : List Bool), s.pullEntry part fa = some (a, size) →
    let x := s.readWordDev a
    let fs := framesOf x size
    let lo := x.toNat / 2 ^ 16 % 2 ^ 35 * 65536
    let n := 65536 * fs.length
    x.getLsbD 0 = true →
    (x.toNat / 2 ^ 51 % 4 = 2 → x.getLsbD 62 = true → exec (.framePull part fa data full) s = .next (s.installFrames part fs
      ((List.range n).map (fun i => (lo + i, data.getD i 0))) ((List.range (n / 8)).map (fun i => (lo / 8 + i, full.getD i false))))) ∧
    (x.toNat / 2 ^ 51 % 4 = 0 → ∀ ph owner, (s.part part).migrate = some (ph, owner) → 4 ≤ ph →
      (∀ y ∈ s.ord.accs, y.place.addr / 65536 ∉ fs) → (∀ k ∈ s.fabric.incs, k.addr.toNat / 65536 ∉ fs) → (s.part part).frames.contains (lo / 65536) = true →
      exec (.framePull part fa data full) s = .next (s.shipFrames part owner fs))) ∧
  (∀ (s : State) (part : Nat) (fs : List Nat) (data : List (Nat × Byte)) (marks : Marks), let t := s.installFrames part fs data marks
    (∀ c ∈ t.cache, c.part ≠ part) ∧ (∀ f, f ∈ (t.part part).frames ↔ f ∈ (s.part part).frames ∨ f ∈ fs)) ∧
  (∀ (s : State) (part owner : Nat) (fs : List Nat), let t := s.shipFrames part owner fs
    (∀ f, f ∈ (t.part part).frames ↔ f ∈ (s.part part).frames ∧ f ∉ fs) ∧ (∀ f ∈ fs, (f, owner) ∈ t.fabric.stubs) ∧
    ∃ m : Moved, t.outbound = s.outbound ++ [(owner, m)] ∧ m.part = part ∧ m.frames.map (fun f => f.1) = fs) ∧
  (∀ (w : List DWord) (j : Nat) (xs : List Nat), xs ≠ [] →
    let f := collOp (ckDt w) (ckRed w)
    let chunk := fun (g : Nat) => j / max 1 ((ckCount w + g - 1) / g)
    (ckAlg w = 0 → Terms.folds f (Terms.ringOrder xs (chunk xs.length)) (reduceAt w j xs)) ∧
    (ckAlg w = 1 → ∀ k, xs.length = 2 ^ k → reduceAt w j xs = Terms.halving f xs k 0) ∧
    (ckAlg w = 2 → ∀ ny, xs.length = ny * ckGx w → ∃ rows : List Nat, rows.length = ny ∧
      (∀ y < ny, Terms.folds f (Terms.ringOrder ((xs.drop (y * ckGx w)).take (ckGx w)) (chunk (ckGx w))) (rows.getD y 0)) ∧
      Terms.folds f (Terms.ringOrder rows (chunk ny)) (reduceAt w j xs)) ∧
    (ckAlg w = 3 → Terms.folds f xs (reduceAt w j xs))) ∧
  (∀ x y : Nat, collOp 8 0 x y = (x + y) % 2 ^ 32) ∧
  (∀ (w : List DWord) (data : List (List Byte)) (js : List Nat), ∀ i < js.length,
    let z := fmtBytes (ckDt w)
    let j := js.getD i 0
    numAt (reduceBytes w data js) (z * i) z = collOut (ckDt w) (reduceAt w j (data.map (elemAt (ckDt w) j))) % 2 ^ (8 * z))

/-- DEVICE_RESET, POWER_GOOD, SELFTEST_DONE, CALIBRATION_DONE, PATCH_JOIN_FULL, THROTTLE_RISE, THROTTLE_FALL and
THERMAL_SHUTDOWN. How the firmware reaches the boot ROM, and which image's SVN is fused, is the model's choice (log 12). -/
def Obligations.DeviceEvents : Prop :=
  let nothing := fun (t : State) => t.loads = [] ∧ t.queues = [] ∧ t.parts = [] ∧ t.patches = [] ∧ t.engines = [] ∧ t.ord = Ordering.reset
  let empty := fun (t : State) => ∀ a, (a < hostBase ∨ vaultBase ≤ a) → t.mem.get a = 0 ∧ t.mem.isFull a = false
  ∀ (s : State), s.mem.wf = true →
    let d := s.device
    (∃ t, exec .deviceReset s = .next t ∧ nothing t ∧ t.device.dstate = .reset ∧ t.device.m = d.m ∧ t.device.fusedSvn = d.fusedSvn ∧
      t.device.fenced = noFailures ∧ t.device.throttle = d.throttle ∧ t.clock = State.reset.clock) ∧
    (∀ c, 115 ≤ c → ∃ t, exec (.thermalShutdown c) s = .next t ∧ nothing t ∧ empty t ∧ t.device = { Device.reset with fusedSvn := d.fusedSvn }) ∧
    (∀ c, c < 115 → exec (.thermalShutdown c) s = .next s) ∧
    (∀ fw : Firmware, d.dstate = .reset →
      let img := fun (i : Nat) => fw.images.getD i default
      let signed := fun (i : Nat) => sha256 (4 :: fw.key) = Config.firmwareKeyDigest ∧ verifies fw.key (img i).digest (img i).signature = true
      let good := fun (i : Nat) => signed i ∧ d.fusedSvn.toNat ≤ (img i).svn.toNat
      let refused := fun (i : Nat) (code : Byte) => ∃ t, exec (.powerGood fw) s = .next t ∧ nothing t ∧ t.device.dstate = .safe ∧
        (d.fenced.fclass = 0 → t.device.fenced = { d.fenced with fclass := 7, fcode := code, findex := BitVec.ofNat 16 i })
      (∀ i < 3, (∀ j < i, good j) → (¬ signed i → refused i 3) ∧ (signed i → ¬ good i → refused i 4)) ∧
      ((∀ i < 3, good i) → ∃ t, exec (.powerGood fw) s = .next t ∧ t.device.dstate = .selftest ∧ { t with device := d, free := s.free } = s ∧
        d.fusedSvn.toNat ≤ t.device.fusedSvn.toNat ∧ (t.device.fusedSvn = d.fusedSvn ∨ ∃ i < 3, t.device.fusedSvn = (img i).svn) ∧
        ∀ m, m = (if d.powered then d.m else List.replicate 4 (List.replicate 32 0)) → m.length = 4 →
          t.device.m = [sha256 (m.getD 0 [] ++ (img 0).digest), sha256 (sha256 (m.getD 1 [] ++ (img 1).digest) ++ (img 2).digest),
            m.getD 2 [], m.getD 3 []])) ∧
    (∀ r : SelfTest, d.dstate = .selftest →
      let ranges := (∀ p ∈ r.patches, p < 640) ∧ (∀ h ∈ r.hbm, h < 12) ∧ (∀ n ∈ r.ports ++ r.lanes, n < 16) ∧ ∀ n ∈ r.io, n < 5
      let none_ := r.fclass = 0 ∧ r.fcode = 0 ∧ r.findex = 0 ∧ r.patches = [] ∧ r.hbm = [] ∧ r.ports = [] ∧ r.lanes = [] ∧ r.io = []
      let some_ := r.fcode.toNat < 2 ∧ r.findex.toNat ∈ [[], r.patches, r.patches, r.hbm, r.ports, r.lanes, r.io].getD r.fclass.toNat []
      let bad := r.io ≠ [] ∨ (∀ p < 640, p ∈ r.patches) ∨ (∀ h < 12, h ∈ r.hbm)
      (¬ (ranges ∧ (none_ ∨ some_)) → exec (.selftestDone r) s = .next s) ∧
      (ranges → none_ ∨ some_ →
        (bad → ∃ t, exec (.selftestDone r) s = .next t ∧ nothing t ∧ empty t ∧ t.device = { d with fenced := r, dstate := .safe }) ∧
        (¬ bad → ∃ t, exec (.selftestDone r) s = .next t ∧ empty t ∧ t.device = { d with fenced := r, dstate := .reduced } ∧
          ∀ p < 640, (t.patch p).fenced = ((s.patch p).fenced || r.patches.contains p)))) ∧
    (∀ u ok, d.dstate = .reduced → s.calibratedOrFenced u = false →
      (∀ p, u = .patch p → p < 640 → (s.patch p).fenced = false →
        (ok = true → exec (.calibrationDone u ok) s = .next { s with device := { d with calibrated := d.calibrated ++ [u] } }) ∧
        (ok = false → (s.patch p).load = none → (∃ q < 640, q ≠ p ∧ q ∉ d.fenced.patches) → ∃ t, exec (.calibrationDone u ok) s = .next t ∧
          t.device.fenced.patches = d.fenced.patches ++ [p] ∧ (t.patch p).fenced = true ∧ (t.device.dstate = .reduced ∨ t.device.dstate = .full)) ∧
        (ok = false → (s.patch p).load ≠ none → ∃ t, exec (.calibrationDone u ok) s = .next t ∧ t.device.fenced = d.fenced ∧
          t.patch p = { s.patch p with calBad := true })) ∧
      (∀ n < 16, u = .lane n → ok = false → exec (.calibrationDone u ok) s = .next { s with device := { d with
        fenced := { firstFailure d.fenced 5 2 n with lanes := d.fenced.lanes ++ [n] } } }) ∧
      (u = .all → ok = true → s.unitsDone = true → ∃ t, exec (.calibrationDone u ok) s = .next t ∧ u ∈ t.device.calibrated ∧
        t.device.m = d.m.set 2 (sha256 (d.m.getD 2 [] ++ Config.fuseDigest)))) ∧
    (∀ p < 640, d.dstate = .reduced → (s.patch p).load = none → s.calibrated p = true →
      ∃ t, exec (.patchJoinFull p) s = .next t ∧ t.patch p = { s.patch p with fullRate := true } ∧
        t.device.dstate = (if (s.setPatch p { s.patch p with fullRate := true }).allJoined then .full else .reduced)) ∧
    (∀ die c w, die < 8 →
      let want := if 110 ≤ c then 4 else if 105 ≤ c then 3 else if 100 ≤ c ∨ 1000 ≤ w then 2 else if 95 ≤ c ∨ 950 ≤ w then 1 else 0
      ∃ t, exec (.throttleRise die c w) s = .next t ∧ smGet 0 t.device.throttle die = max (smGet 0 d.throttle die) want ∧
        (∀ e, e ≠ die → smGet 0 t.device.throttle e = smGet 0 d.throttle e) ∧ { t with device := d } = s) ∧
    (∀ die since, smFind d.coolSince die = some since →
      (since + 10000000 ≤ s.clock.ns → ∃ t, exec (.throttleFall die) s = .next t ∧ smGet 0 t.device.throttle die = smGet 0 d.throttle die - 1 ∧
        { t with device := d } = s) ∧
      (s.clock.ns < since + 10000000 → exec (.throttleFall die) s = .next s))
end

