-- ==== Sys2Proof/Laws/Ecc.lean ====
section
/-! SUPPORT. What the check bits of a memory word do: one flipped bit of the 73 is corrected, and two are detected (R19). And the length
of what SHA-256 gives (R450). -/

namespace Sys2Proof.Machine

/-- Flipped bits change the syndrome by their own patterns. -/
theorem eccSyndrome_xor (x y : Nat) : ∀ (cs : List Nat) (k : Nat),
    eccSyndrome (x ^^^ y) cs k = eccSyndrome x cs k ^^^ eccSyndrome y cs k := by
  intro cs
  induction cs with
  | nil => intro k; simp [eccSyndrome]
  | cons c cs ih =>
    intro k
    have e : ∀ a b : Bool, (if (a ^^ b) = true then c else 0) = (if a = true then c else 0) ^^^ (if b = true then c else 0) := by
      intro a b; cases a <;> cases b <;> simp
    simp only [eccSyndrome, ih, Nat.testBit_xor, e]
    generalize (if x.testBit k = true then c else 0) = a
    generalize (if y.testBit k = true then c else 0) = b
    ac_rfl

/-- The syndrome looks at the bits alone. -/
theorem eccSyndrome_congr {x y : Nat} {i : Nat} : ∀ (cs : List Nat) (k : Nat),
    (∀ j, j < cs.length → x.testBit (k + j) = y.testBit (i + j)) → eccSyndrome x cs k = eccSyndrome y cs i := by
  intro cs
  induction cs generalizing i with
  | nil => intro k _; rfl
  | cons c cs ih =>
    intro k h
    have h0 := h 0 (by simp)
    simp only [Nat.add_zero] at h0
    simp only [eccSyndrome, h0]
    rw [ih (i := i + 1) (k + 1) (fun j hj => by
      have := h (j + 1) (by simp only [List.length_cons]; omega)
      rwa [show k + (j + 1) = k + 1 + j by omega, show i + (j + 1) = i + 1 + j by omega] at this)]

theorem eccSyndrome_append (w : Nat) : ∀ (a b : List Nat) (k : Nat),
    eccSyndrome w (a ++ b) k = eccSyndrome w a k ^^^ eccSyndrome w b (k + a.length) := by
  intro a
  induction a with
  | nil => intro b k; simp [eccSyndrome]
  | cons c a ih =>
    intro b k
    simp only [List.cons_append, eccSyndrome, ih, List.length_cons, Nat.xor_assoc]
    rw [show k + 1 + a.length = k + (a.length + 1) by omega]

/-- One flipped bit shows its own pattern. -/
theorem eccSyndrome_bit : ∀ (cs : List Nat) (k j : Nat), j < cs.length → eccSyndrome (2 ^ (k + j)) cs k = cs.getD j 0 := by
  intro cs
  induction cs with
  | nil => intro k j h; simp at h
  | cons c cs ih =>
    intro k j h
    cases j with
    | zero =>
      have z : eccSyndrome (2 ^ k) cs (k + 1) = 0 := by
        have : ∀ (l : List Nat) (i : Nat), k < i → eccSyndrome (2 ^ k) l i = 0 := by
          intro l
          induction l with
          | nil => intro i _; rfl
          | cons d l ihl =>
            intro i hi
            simp only [eccSyndrome, ihl (i + 1) (by omega), Nat.testBit_two_pow]
            rw [if_neg (by simp; omega)]; simp
        exact this cs (k + 1) (by omega)
      simp [eccSyndrome, z]
    | succ j =>
      have h' := ih (k + 1) j (by simp only [List.length_cons] at h; omega)
      rw [show k + 1 + j = k + (j + 1) by omega] at h'
      simp only [eccSyndrome, Nat.testBit_two_pow, h']
      rw [if_neg (by simp)]; simp

theorem eccCols_length : eccCols.length = 73 := by decide
theorem eccCols_lt : ∀ c ∈ eccCols, c < 2 ^ 8 := by decide
theorem eccCols_odd : ∀ c ∈ eccCols, bitSum c 8 % 2 = 1 := by decide
theorem eccCols_first : ∀ k < 73, eccCols.idxOf? (eccCols.getD k 0) = some k := by decide
theorem eccCols_last : eccCols = eccCols.take 65 ++ (List.range 8).map (fun k => 2 ^ k) := by decide

theorem eccSyndrome_lt {n : Nat} (w : Nat) : ∀ (cs : List Nat) (k : Nat), (∀ c ∈ cs, c < 2 ^ n) → eccSyndrome w cs k < 2 ^ n := by
  intro cs
  induction cs with
  | nil => intro k _; exact Nat.two_pow_pos n
  | cons c cs ih =>
    intro k h
    refine Nat.xor_lt_two_pow ?_ (ih _ fun d hd => h d (List.mem_cons_of_mem _ hd))
    split
    · exact h c (List.mem_cons_self ..)
    · exact Nat.two_pow_pos n

set_option maxRecDepth 4000 in
/-- Eight bits that stand for themselves. -/
theorem eccSyndrome_self : ∀ c < 256, eccSyndrome c ((List.range 8).map (fun k => 2 ^ k)) 0 = c := by decide

/-- A word as it was written shows nothing. -/
theorem eccSyndrome_word (d : DWord) (f : Bool) : eccSyndrome (eccWord d f) eccCols 0 = 0 := by
  have hd := d.isLt
  have hx : d.toNat + 2 ^ 64 * f.toNat < 2 ^ 65 := by cases f <;> simp <;> omega
  have hc : eccCheck d f < 2 ^ 8 := eccSyndrome_lt _ _ _ fun c h => eccCols_lt c (List.mem_of_mem_take h)
  have hw : eccWord d f = 2 ^ 65 * eccCheck d f + (d.toNat + 2 ^ 64 * f.toNat) := by unfold eccWord; omega
  have lt : (eccCols.take 65).length = 65 := by simp [eccCols_length]
  have a : eccSyndrome (eccWord d f) (eccCols.take 65) 0 = eccCheck d f :=
    eccSyndrome_congr (i := 0) _ _ fun j hj => by
      rw [hw, Nat.testBit_two_pow_mul_add _ hx, if_pos (by omega)]
  have b : eccSyndrome (eccWord d f) ((List.range 8).map (fun k => 2 ^ k)) 65 = eccCheck d f :=
    (eccSyndrome_congr (i := 0) _ _ fun j _ => by
      rw [hw, Nat.testBit_two_pow_mul_add _ hx, if_neg (by omega)]; congr 1; omega).trans (eccSyndrome_self _ hc)
  rw [eccCols_last, eccSyndrome_append, lt, a, Nat.zero_add, b, Nat.xor_self]

/-- The data and the bit of a word, out of the 73 bits that it stores. -/
theorem eccWord_out (d : DWord) (f : Bool) : (BitVec.ofNat 64 (eccWord d f), (eccWord d f).testBit 64) = (d, f) := by
  have hd := d.isLt
  have hx : d.toNat + 2 ^ 64 * f.toNat < 2 ^ 65 := by cases f <;> simp <;> omega
  have hw : eccWord d f = 2 ^ 65 * eccCheck d f + (d.toNat + 2 ^ 64 * f.toNat) := by unfold eccWord; omega
  refine Prod.ext ?_ ?_
  · apply BitVec.eq_of_toNat_eq
    simp only [BitVec.toNat_ofNat]; rw [hw]; omega
  · simp only; rw [hw, Nat.testBit_two_pow_mul_add _ hx, if_pos (by omega), Nat.add_comm, Nat.testBit_two_pow_mul_add _ hd, if_neg (by omega)]
    cases f <;> rfl

/-- Ones add up modulo 2. -/
theorem bitSum_xor (x y : Nat) : ∀ n, bitSum (x ^^^ y) n % 2 = (bitSum x n + bitSum y n) % 2 := by
  intro n
  induction n with
  | zero => rfl
  | succ n ih =>
    simp only [bitSum, Nat.testBit_xor]
    cases x.testBit n <;> cases y.testBit n <;> simp <;> omega

theorem eccRead_word (d : DWord) (f : Bool) : eccRead (eccWord d f) = some (d, f) := by
  simp only [eccRead, eccSyndrome_word, if_true, eccWord_out]

/-- A single-bit error is corrected (R19). -/
theorem eccRead_single (d : DWord) (f : Bool) {k : Nat} (hk : k < 73) : eccRead (eccWord d f ^^^ 2 ^ k) = some (d, f) := by
  have s : eccSyndrome (eccWord d f ^^^ 2 ^ k) eccCols 0 = eccCols.getD k 0 := by
    have := eccSyndrome_bit eccCols 0 k (by rw [eccCols_length]; exact hk)
    rw [Nat.zero_add] at this
    rw [eccSyndrome_xor, eccSyndrome_word, this, Nat.zero_xor]
  have m : eccCols.getD k 0 ∈ eccCols := by
    rw [List.getD_eq_getElem (hn := by rw [eccCols_length]; exact hk)]; exact List.getElem_mem ..
  have z : eccCols.getD k 0 ≠ 0 := fun h => absurd (eccCols_odd _ m) (by rw [h]; decide)
  simp only [eccRead, s, if_neg z, eccCols_first k hk]
  rw [Nat.xor_assoc, Nat.xor_self, Nat.xor_zero, eccWord_out]

/-- A double-bit error is detected (R19). -/
theorem eccRead_double (d : DWord) (f : Bool) {j k : Nat} (hj : j < 73) (hk : k < 73) (h : j ≠ k) :
    eccRead (eccWord d f ^^^ 2 ^ j ^^^ 2 ^ k) = none := by
  have sj := eccSyndrome_bit eccCols 0 j (by rw [eccCols_length]; exact hj)
  have sk := eccSyndrome_bit eccCols 0 k (by rw [eccCols_length]; exact hk)
  rw [Nat.zero_add] at sj sk
  have m : ∀ i < 73, eccCols.getD i 0 ∈ eccCols := fun i hi => by
    rw [List.getD_eq_getElem (hn := by rw [eccCols_length]; exact hi)]; exact List.getElem_mem ..
  have s : eccSyndrome (eccWord d f ^^^ 2 ^ j ^^^ 2 ^ k) eccCols 0 = eccCols.getD j 0 ^^^ eccCols.getD k 0 := by
    rw [eccSyndrome_xor, eccSyndrome_xor, eccSyndrome_word, sj, sk, Nat.zero_xor]
  have ne : eccCols.getD j 0 ≠ eccCols.getD k 0 := fun e => h (by
    have a := eccCols_first j hj
    rw [e, eccCols_first k hk] at a
    exact (Option.some.inj a).symm)
  have z : eccCols.getD j 0 ^^^ eccCols.getD k 0 ≠ 0 := fun e => ne (Nat.xor_eq_zero_iff.mp e)
  have out : eccCols.idxOf? (eccCols.getD j 0 ^^^ eccCols.getD k 0) = none := by
    rw [List.idxOf?_eq_none_iff]
    intro mem
    have p := eccCols_odd _ mem
    rw [bitSum_xor, Nat.add_mod, eccCols_odd _ (m j hj), eccCols_odd _ (m k hk)] at p
    exact absurd p (by decide)
  simp only [eccRead, s, if_neg z, out]

/-- What is read of a word in whose cells at most one bit has flipped is what was written (R19). -/
theorem Memory.cellsRead_single (m : Memory) (w : Nat) {k : Nat} (hk : k < 73) :
    m.cellsRead w (2 ^ k) = some (BitVec.ofNat 64 (leNat (m.read (8 * w) 8)), m.isFull (8 * w)) := eccRead_single _ _ hk

/-- Two flipped bits of a word are told (R19). -/
theorem Memory.cellsRead_double (m : Memory) (w : Nat) {j k : Nat} (hj : j < 73) (hk : k < 73) (h : j ≠ k) :
    m.cellsRead w (2 ^ j ^^^ 2 ^ k) = none := by
  unfold Memory.cellsRead; rw [← Nat.xor_assoc]; exact eccRead_double _ _ hj hk h

/-- A digest has 32 bytes (R450). -/
@[simp] theorem sha256_length (bs : List Byte) : (sha256 bs).length = 32 := by
  have h : ∀ n x, (leBytes n x).length = n := by
    intro n; induction n with
    | zero => intro x; rfl
    | succ n ih => intro x; simp [leBytes, ih]
  simp [sha256, beBytes, h]

end Sys2Proof.Machine
end

