-- ==== Sys2Proof/Laws/Memory.lean ====
section
/-! SUPPORT. The laws of the backing memory: each operation keeps its canonical form, a byte reads as it was written last, and a
write leaves every other byte alone. -/

namespace Sys2Proof.Machine

/-! ### Bytes -/

/-- Every listed address is above `a`. -/
theorem cellsWf_cons_iff (c : Host.Cell) (l : List Host.Cell) :
    cellsWf (c :: l) = true ↔ c.2 ≠ 0 ∧ (∀ d ∈ l, c.1 < d.1) ∧ cellsWf l = true := by
  induction l generalizing c with
  | nil => simp [cellsWf]
  | cons d r ih =>
    simp only [cellsWf, Bool.and_eq_true, decide_eq_true_eq, bne_iff_ne, ne_eq]
    constructor
    · rintro ⟨⟨h1, h2⟩, h3⟩
      refine ⟨h1, ?_, h3⟩
      intro x hx
      rcases List.mem_cons.1 hx with rfl | hx
      · exact h2
      · exact Nat.lt_trans h2 (((ih d).1 h3).2.1 x hx)
    · rintro ⟨h1, h2, h3⟩
      exact ⟨⟨h1, h2 d (by simp)⟩, h3⟩

/-- An address below all listed ones reads zero. -/
theorem cellGet_of_lt (l : List Host.Cell) (a : Nat) (h : ∀ d ∈ l, a < d.1) : cellGet l a = 0 := by
  induction l with
  | nil => rfl
  | cons c r ih =>
    have : a ≠ c.1 := Nat.ne_of_lt (h c (by simp))
    simp only [cellGet, this, if_false]
    exact ih (fun d hd => h d (by simp [hd]))

theorem mem_cellPut (l : List Host.Cell) (a : Nat) (b : Byte) (d : Host.Cell) (h : d ∈ cellPut l a b) :
    d = (a, b) ∨ d ∈ l := by
  induction l with
  | nil => simp only [cellPut] at h; split at h <;> simp_all
  | cons c r ih =>
    simp only [cellPut] at h
    split at h
    · split at h
      · exact .inr (by simp [h])
      · rcases List.mem_cons.1 h with h | h
        · exact .inl h
        · exact .inr (by simp [h])
    · split at h
      · split at h
        · exact .inr h
        · rcases List.mem_cons.1 h with h | h
          · exact .inl h
          · exact .inr h
      · rcases List.mem_cons.1 h with h | h
        · exact .inr (by simp [h])
        · exact (ih h).imp id (fun h => by simp [h])

/-- A write keeps the canonical form. -/
theorem cellsWf_cellPut (l : List Host.Cell) (a : Nat) (b : Byte) (h : cellsWf l = true) :
    cellsWf (cellPut l a b) = true := by
  induction l with
  | nil => simp only [cellPut]; split <;> simp_all [cellsWf]
  | cons c r ih =>
    have ⟨h1, h2, h3⟩ := (cellsWf_cons_iff c r).1 h
    simp only [cellPut]
    split
    · rename_i e
      split
      · exact h3
      · rename_i hb; exact (cellsWf_cons_iff _ _).2 ⟨hb, fun d hd => e ▸ h2 d hd, h3⟩
    · split
      · rename_i hlt
        split
        · exact h
        · rename_i hb
          refine (cellsWf_cons_iff _ _).2 ⟨hb, ?_, h⟩
          intro d hd
          rcases List.mem_cons.1 hd with rfl | hd
          · exact hlt
          · exact Nat.lt_trans hlt (h2 d hd)
      · rename_i hne hnl
        refine (cellsWf_cons_iff _ _).2 ⟨h1, ?_, ih h3⟩
        intro d hd
        rcases mem_cellPut r a b d hd with rfl | hd
        · show c.1 < a; omega
        · exact h2 d hd

/-- A byte reads as it was written last, and a write changes no other byte. -/
theorem cellGet_cellPut (l : List Host.Cell) (a x : Nat) (b : Byte) (h : cellsWf l = true) :
    cellGet (cellPut l a b) x = if x = a then b else cellGet l x := by
  induction l with
  | nil => by_cases hb : b = 0#8 <;> by_cases hx : x = a <;> simp [cellPut, cellGet, hb, hx]
  | cons c r ih =>
    have ⟨_, h2, h3⟩ := (cellsWf_cons_iff c r).1 h
    have low : a < c.1 → cellGet (c :: r) a = 0 := fun hlt => cellGet_of_lt (c :: r) a (fun d hd => by
      rcases List.mem_cons.1 hd with rfl | hd
      · exact hlt
      · exact Nat.lt_trans hlt (h2 d hd))
    by_cases e : a = c.1
    · have gone : cellGet r a = 0 := cellGet_of_lt r a (fun d hd => e ▸ h2 d hd)
      by_cases hx : x = a
      · by_cases hb : b = 0#8 <;> simp_all [cellPut, cellGet]
      · have : x ≠ c.1 := e ▸ hx
        by_cases hb : b = 0#8 <;> simp_all [cellPut, cellGet]
    · by_cases hlt : a < c.1
      · by_cases hx : x = a
        · subst hx; by_cases hb : b = 0#8 <;> simp_all [cellPut, cellGet]
        · by_cases hb : b = 0#8 <;> simp [cellPut, cellGet, e, hlt, hb, hx]
      · simp only [cellPut, e, hlt, if_false, cellGet]
        split
        · rw [if_neg]; omega
        · exact ih h3

theorem cellRead_length (l : List Host.Cell) (a n : Nat) : (cellRead l a n).length = n := by
  induction n generalizing a with
  | zero => rfl
  | succ n ih => simp [cellRead, ih]

theorem cellRead_getElem? (l : List Host.Cell) (a n i : Nat) (h : i < n) :
    (cellRead l a n)[i]? = some (cellGet l (a + i)) := by
  induction n generalizing a i with
  | zero => omega
  | succ n ih =>
    cases i with
    | zero => simp [cellRead]
    | succ i => simp only [cellRead, List.getElem?_cons_succ]; rw [ih (a + 1) i (by omega)]; congr 2; omega

theorem cellsWf_cellWrite (l : List Host.Cell) (a : Nat) (bs : List Byte) (h : cellsWf l = true) :
    cellsWf (cellWrite l a bs) = true := by
  induction bs generalizing l a with
  | nil => exact h
  | cons b bs ih => exact ih _ _ (cellsWf_cellPut _ _ _ h)

/-- The bytes written read back; every other byte stands. -/
theorem cellGet_cellWrite (l : List Host.Cell) (a x : Nat) (bs : List Byte) (h : cellsWf l = true) :
    cellGet (cellWrite l a bs) x = if a ≤ x ∧ x < a + bs.length then bs.getD (x - a) 0 else cellGet l x := by
  induction bs generalizing l a with
  | nil =>
    have : ¬ (a ≤ x ∧ x < a + ([] : List Byte).length) := by simp only [List.length_nil]; omega
    rw [if_neg this]; rfl
  | cons b bs ih =>
    simp only [cellWrite, List.length_cons]
    rw [ih _ _ (cellsWf_cellPut _ _ _ h), cellGet_cellPut _ _ _ _ h]
    by_cases hx : x = a
    · subst hx
      have h1 : ¬ (x + 1 ≤ x ∧ x < x + 1 + bs.length) := by omega
      have h2 : x ≤ x ∧ x < x + (bs.length + 1) := by omega
      simp [h2]
    · by_cases h1 : a + 1 ≤ x ∧ x < a + 1 + bs.length
      · have h2 : a ≤ x ∧ x < a + (bs.length + 1) := by omega
        have h3 : x - a = (x - (a + 1)) + 1 := by omega
        simp only [h1, h2, and_self, if_true, h3, List.getD_cons_succ]
      · have h2 : ¬ (a ≤ x ∧ x < a + (bs.length + 1)) := by omega
        rw [if_neg h1, if_neg h2, if_neg hx]

/-! ### Full words -/

theorem risingWf_cons_iff (c : Nat) (l : List Nat) :
    risingWf (c :: l) = true ↔ (∀ d ∈ l, c < d) ∧ risingWf l = true := by
  induction l generalizing c with
  | nil => simp [risingWf]
  | cons d r ih =>
    simp only [risingWf, Bool.and_eq_true, decide_eq_true_eq]
    constructor
    · rintro ⟨h2, h3⟩
      refine ⟨?_, h3⟩
      intro x hx
      rcases List.mem_cons.1 hx with rfl | hx
      · exact h2
      · exact Nat.lt_trans h2 (((ih d).1 h3).1 x hx)
    · rintro ⟨h2, h3⟩
      exact ⟨h2 d (by simp), h3⟩

theorem mem_risingPut (l : List Nat) (a d : Nat) : d ∈ risingPut l a ↔ d = a ∨ d ∈ l := by
  induction l with
  | nil => simp [risingPut]
  | cons c r ih =>
    simp only [risingPut]
    split
    · rename_i e; simp [e]
    · split
      · simp
      · simp [ih]; tauto

theorem risingWf_risingPut (l : List Nat) (a : Nat) (h : risingWf l = true) : risingWf (risingPut l a) = true := by
  induction l with
  | nil => rfl
  | cons c r ih =>
    have ⟨h2, h3⟩ := (risingWf_cons_iff c r).1 h
    simp only [risingPut]
    split
    · exact h
    · split
      · rename_i hlt
        refine (risingWf_cons_iff _ _).2 ⟨?_, h⟩
        intro d hd
        rcases List.mem_cons.1 hd with rfl | hd
        · exact hlt
        · exact Nat.lt_trans hlt (h2 d hd)
      · refine (risingWf_cons_iff _ _).2 ⟨?_, ih h3⟩
        intro d hd
        rcases (mem_risingPut r a d).1 hd with rfl | hd
        · omega
        · exact h2 d hd

theorem risingDel_sublist (l : List Nat) (a : Nat) : (risingDel l a).Sublist l := by
  induction l with
  | nil => simp [risingDel]
  | cons c r ih =>
    simp only [risingDel]
    split
    · exact List.sublist_cons_self c r
    · exact ih.cons_cons c

theorem risingWf_risingDel (l : List Nat) (a : Nat) (h : risingWf l = true) : risingWf (risingDel l a) = true := by
  induction l with
  | nil => rfl
  | cons c r ih =>
    have ⟨h2, h3⟩ := (risingWf_cons_iff c r).1 h
    simp only [risingDel]
    split
    · exact h3
    · exact (risingWf_cons_iff _ _).2 ⟨fun d hd => h2 d ((risingDel_sublist r a).subset hd), ih h3⟩

theorem mem_risingDel (l : List Nat) (a d : Nat) (h : risingWf l = true) : d ∈ risingDel l a ↔ d ≠ a ∧ d ∈ l := by
  induction l with
  | nil => simp [risingDel]
  | cons c r ih =>
    have ⟨h2, h3⟩ := (risingWf_cons_iff c r).1 h
    simp only [risingDel]
    split
    · rename_i e
      subst e
      constructor
      · intro hd; exact ⟨Nat.ne_of_gt (h2 d hd), by simp [hd]⟩
      · rintro ⟨h4, h5⟩; simpa [h4] using h5
    · rename_i hne
      simp only [List.mem_cons, ih h3]
      constructor
      · rintro (rfl | ⟨h4, h5⟩)
        · exact ⟨fun e => hne e.symm, .inl rfl⟩
        · exact ⟨h4, .inr h5⟩
      · rintro ⟨h4, rfl | h5⟩
        · exact .inl rfl
        · exact .inr ⟨h4, h5⟩

/-! ### The memory -/

theorem Memory.wf_iff (m : Memory) : m.wf = true ↔ cellsWf m.cells = true ∧ risingWf m.full = true := by
  simp [Memory.wf]

/-- A write of bytes keeps the canonical form. -/
theorem Memory.wf_write (m : Memory) (a : Nat) (bs : List Byte) (h : m.wf = true) : (m.write a bs).wf = true := by
  rw [Memory.wf_iff] at *; exact ⟨cellsWf_cellWrite _ _ _ h.1, h.2⟩

theorem Memory.wf_puts (bs : List (Nat × Byte)) (m : Memory) (h : m.wf = true) : (m.puts bs).wf = true := by
  induction bs generalizing m with
  | nil => exact h
  | cons c r ih => exact ih _ ((Memory.wf_iff _).2 ⟨cellsWf_cellPut _ _ _ ((Memory.wf_iff _).1 h).1, ((Memory.wf_iff _).1 h).2⟩)

theorem Memory.wf_mark (m : Memory) (w : Nat) (b : Bool) (h : m.wf = true) : (m.mark w b).wf = true := by
  rw [Memory.wf_iff] at *
  refine ⟨h.1, ?_⟩
  cases b
  · exact risingWf_risingDel _ _ h.2
  · exact risingWf_risingPut _ _ h.2

theorem Memory.wf_marks (ms : Marks) (m : Memory) (h : m.wf = true) : (m.marks ms).wf = true := by
  induction ms generalizing m with
  | nil => exact h
  | cons c r ih => exact ih _ (Memory.wf_mark m c.1 c.2 h)

/-- A byte of a write reads as written; every other byte reads as before. -/
theorem Memory.get_write (m : Memory) (a x : Nat) (bs : List Byte) (h : m.wf = true) :
    (m.write a bs).get x = if a ≤ x ∧ x < a + bs.length then bs.getD (x - a) 0 else m.get x :=
  cellGet_cellWrite _ _ _ _ ((Memory.wf_iff _).1 h).1

@[simp] theorem Memory.full_write (m : Memory) (a : Nat) (bs : List Byte) : (m.write a bs).full = m.full := rfl
@[simp] theorem Memory.cells_mark (m : Memory) (w : Nat) (b : Bool) : (m.mark w b).cells = m.cells := rfl
@[simp] theorem Memory.get_mark (m : Memory) (w a : Nat) (b : Bool) : (m.mark w b).get a = m.get a := rfl

@[simp] theorem Memory.cells_marks (ms : Marks) (m : Memory) : (m.marks ms).cells = m.cells := by
  induction ms generalizing m with
  | nil => rfl
  | cons c r ih => exact (ih _).trans rfl

@[simp] theorem Memory.get_marks (ms : Marks) (m : Memory) (a : Nat) : (m.marks ms).get a = m.get a := by
  simp [Memory.get]

@[simp] theorem Memory.full_puts (bs : List (Nat × Byte)) (m : Memory) : (m.puts bs).full = m.full := by
  induction bs generalizing m with
  | nil => rfl
  | cons c r ih => exact (ih _).trans rfl

/-- An address that no listed byte names reads as before. -/
theorem Memory.get_puts_of_not_mem (bs : List (Nat × Byte)) (m : Memory) (x : Nat) (h : m.wf = true)
    (hx : ∀ c ∈ bs, c.1 ≠ x) : (m.puts bs).get x = m.get x := by
  induction bs generalizing m with
  | nil => rfl
  | cons c r ih =>
    have hm := (Memory.wf_iff _).1 h
    have := ih { m with cells := cellPut m.cells c.1 c.2 } ((Memory.wf_iff _).2 ⟨cellsWf_cellPut _ _ _ hm.1, hm.2⟩)
      (fun d hd => hx d (by simp [hd]))
    refine Eq.trans this ?_
    show cellGet (cellPut m.cells c.1 c.2) x = cellGet m.cells x
    rw [cellGet_cellPut _ _ _ _ hm.1, if_neg (fun e => hx c (by simp) e.symm)]

/-- The bit of a word reads as it was set last, and no other word's bit changes (R19). -/
theorem Memory.isFull_mark (m : Memory) (w a : Nat) (b : Bool) (h : m.wf = true) :
    (m.mark w b).isFull a = if a / 8 = w then b else m.isFull a := by
  have hm := (Memory.wf_iff _).1 h
  cases b
  · have : ∀ x, (risingDel m.full w).contains x = (decide (x ≠ w) && m.full.contains x) := by
      intro x; rw [Bool.eq_iff_iff]; simp [mem_risingDel _ _ _ hm.2]
    simp only [Memory.isFull, Memory.mark, Bool.false_eq_true, if_false, this]
    split <;> simp_all
  · have : ∀ x, (risingPut m.full w).contains x = (decide (x = w) || m.full.contains x) := by
      intro x; rw [Bool.eq_iff_iff]; simp [mem_risingPut]
    simp only [Memory.isFull, Memory.mark, if_true, this]
    split <;> simp_all

theorem reset_memory_wf : State.reset.mem.wf = true := rfl

end Sys2Proof.Machine
end

