-- ==== Sys2Proof/Laws/PerInstr.lean ====
section
/-! SUPPORT. The round trip of each instruction of the table: the bytes of a well-formed word decode to it, every field at every
value its encoding admits; the operations and events have no word. -/

namespace Sys2Proof.Laws.RoundTrip

/-- The decoder of an instruction's kind reads its bytes back as the instruction and leaves nothing over. -/
def Statement (i : Instr) : Prop := i.wf = true → i.kind ≠ .event → decodeBytes i.kind (encode i) = .ok (i, [])

theorem leNat_two (w : Nat) (h : w < 2 ^ 16) : leNat (leBytes 2 w) = w := by
  simp only [leBytes, leNat, BitVec.toNat_ofNat]
  omega

theorem leNat_four (w : Nat) (h : w < 2 ^ 32) : leNat (leBytes 4 w) = w := by
  simp only [leBytes, leNat, BitVec.toNat_ofNat]
  omega

theorem fld_eq {w lo n : Nat} {x : BitVec n} (h : w / 2 ^ lo % 2 ^ n = x.toNat) : fld w lo n = x := by
  apply BitVec.eq_of_toNat_eq
  simpa [fld] using h

theorem checked_ok {w : Nat} {i : Instr} {r : Except DecodeError Instr} (hr : r = .ok i) (hw : encodeWord i = w)
    (hi : i.wf = true) : checked w r = .ok i := by
  subst hr
  simp [checked, hw, hi]

theorem event_ok {i : Instr} (h : i.kind = .event) : Statement i := fun _ hk => absurd h hk

theorem ctl_ok {i : Instr} {w k : Nat} (hk : i.kind = .control) (hw : encodeWord i = w) (hlt : w < 2 ^ 32)
    (ho : w / 2 ^ 26 = k) (hp : pickCtl k w = .ok i) : Statement i := by
  intro hi _
  have hd : decodeCtl w = .ok i := checked_ok (by rw [ho, hp]) hw hi
  have he : encode i = leBytes 4 w := by rw [encode, hk, hw]
  rw [he, hk]
  have hl : leNat ((leBytes 4 w).take 4) = w := leNat_four w hlt
  simp only [decodeBytes, hl, hd]
  rfl

theorem elem_ok {i : Instr} {w k : Nat} (hk : i.kind = .element) (hw : encodeWord i = w) (hlt : w < 2 ^ 32)
    (ho : w / 2 ^ 25 = k) (hp : pickElem k w = .ok i) : Statement i := by
  intro hi _
  have hd : decodeElem w = .ok i := checked_ok (by rw [ho, hp]) hw hi
  have he : encode i = leBytes 4 w := by rw [encode, hk, hw]
  rw [he, hk]
  have hl : leNat ((leBytes 4 w).take 4) = w := leNat_four w hlt
  simp only [decodeBytes, hl, hd]
  rfl

theorem sw_ok {i : Instr} {w k : Nat} (hk : i.kind = .switchWord) (hw : encodeWord i = w) (hlt : w < 2 ^ 16)
    (ho : w / 2 ^ 13 = k) (hp : pickSwitch k w none = .ok i) (hx : extensionWord i = none) (hn : k ≠ 2) :
    Statement i := by
  intro hi _
  have hd : decodeSwitch w none = .ok i := checked_ok (by rw [ho, hp]) hw hi
  have he : encode i = leBytes 2 w := by rw [encode, hk, hw, hx]; rfl
  rw [he, hk]
  have hl : leNat ((leBytes 2 w).take 2) = w := leNat_two w hlt
  have h2 : ¬ (leBytes 2 w).length < 2 := by simp [leBytes]
  have h4 : (leBytes 2 w).length < 4 := by simp [leBytes]
  simp only [decodeBytes, hl, h2, h4, hd, if_true, if_false, ho, hn]
  rfl

/-- A control word: what its number decides. -/
theorem ctl_word {i : Instr} {k : Nat} (e : Nat) (hk : i.kind = .control) (he : encodeWord i = e)
    (h : ∀ w, w = e → w < 2 ^ 32 ∧ w / 2 ^ 26 = k ∧ pickCtl k w = .ok i) : Statement i :=
  ctl_ok hk he (h e rfl).1 (h e rfl).2.1 (h e rfl).2.2

/-- An element word: what its number decides. -/
theorem elem_word {i : Instr} {k : Nat} (e : Nat) (hk : i.kind = .element) (he : encodeWord i = e)
    (h : ∀ w, w = e → w < 2 ^ 32 ∧ w / 2 ^ 25 = k ∧ pickElem k w = .ok i) : Statement i :=
  elem_ok hk he (h e rfl).1 (h e rfl).2.1 (h e rfl).2.2

/-- A switch word without an extension word: what its number decides. -/
theorem switch_word {i : Instr} {k : Nat} (e : Nat) (hk : i.kind = .switchWord) (he : encodeWord i = e)
    (hx : extensionWord i = none) (hn : k ≠ 2) (h : ∀ w, w = e → w < 2 ^ 16 ∧ w / 2 ^ 13 = k ∧ pickSwitch k w none = .ok i) :
    Statement i :=
  sw_ok hk he (h e rfl).1 (h e rfl).2.1 (h e rfl).2.2 hx hn

theorem slot_ok (imm o : BitVec 3) (v : BitVec 4) (first run : Byte)
    (h : ∀ w x, w = 0x4000 + imm.toNat * 0x400 + o.toNat * 0x80 + v.toNat * 0x1 → x = first.toNat * 0x100 + run.toNat →
      w < 2 ^ 16 ∧ x < 2 ^ 16 ∧ w / 2 ^ 13 = 2 ∧ pickSwitch 2 w (some x) = .ok (.slot imm o v first run)) :
    Statement (.slot imm o v first run) := by
  intro hi _
  have he : encode (.slot imm o v first run) =
      leBytes 2 (encodeWord (.slot imm o v first run)) ++ leBytes 2 (first.toNat * 0x100 + run.toNat) := rfl
  show decodeBytes .switchWord _ = _
  rw [he]
  obtain ⟨hlt, hlx, ho, hp⟩ := h (encodeWord (.slot imm o v first run)) _ rfl rfl
  generalize hw : encodeWord (.slot imm o v first run) = w at *
  generalize hx : first.toNat * 0x100 + run.toNat = x at *
  have hd : decodeSwitch w (some x) = .ok (.slot imm o v first run) := checked_ok (by rw [ho, hp]) hw hi
  have ha : leNat ((leBytes 2 w ++ leBytes 2 x).take 2) = w := leNat_two w hlt
  have hb : leNat (((leBytes 2 w ++ leBytes 2 x).drop 2).take 2) = x := leNat_two x hlx
  have h2 : ¬ (leBytes 2 w ++ leBytes 2 x).length < 2 := by simp [leBytes]
  have h4 : ¬ (leBytes 2 w ++ leBytes 2 x).length < 4 := by simp [leBytes]
  simp only [decodeBytes, ha, hb, ho, h2, h4, hd, if_true, if_false]
  rfl

theorem slot (imm o : BitVec 3) (v : BitVec 4) (first run : Byte) : Statement (.slot imm o v first run) := by
  refine slot_ok _ _ _ _ _ (fun w x hw hx => ?_)
  have := imm.isLt
  have := o.isLt
  have := v.isLt
  have := first.isLt
  have := run.isLt
  refine ⟨by omega, by omega, by omega, ?_⟩
  show Except.ok (Instr.slot (fld w 10 3) (fld w 7 3) (fld w 0 4) (fld x 8 8) (fld x 0 8)) = _
  rw [fld_eq (x := imm) (by omega), fld_eq (x := o) (by omega), fld_eq (x := v) (by omega), fld_eq (x := first) (by omega),
    fld_eq (x := run) (by omega)]

theorem seqAdd (d a b : BitVec 5) : Statement (.seqAdd d a b) := by
  refine ctl_word (k := 0x01) (0x04000000 + d.toNat * 0x200000 + a.toNat * 0x10000 + b.toNat * 0x800) rfl rfl (fun x hx => ?_)
  have := d.isLt; have := a.isLt; have := b.isLt
  refine ⟨by omega, by omega, ?_⟩
  show pickAlu (x / 2 ^ 0 % 2 ^ 5) x = _
  rw [show x / 2 ^ 0 % 2 ^ 5 = 0 by omega]
  show Except.ok (Instr.seqAdd (fld x 21 5) (fld x 16 5) (fld x 11 5)) = _
  rw [fld_eq (x := d) (by omega), fld_eq (x := a) (by omega), fld_eq (x := b) (by omega)]

theorem seqSub (d a b : BitVec 5) : Statement (.seqSub d a b) := by
  refine ctl_word (k := 0x01) (0x04000001 + d.toNat * 0x200000 + a.toNat * 0x10000 + b.toNat * 0x800) rfl rfl (fun x hx => ?_)
  have := d.isLt; have := a.isLt; have := b.isLt
  refine ⟨by omega, by omega, ?_⟩
  show pickAlu (x / 2 ^ 0 % 2 ^ 5) x = _
  rw [show x / 2 ^ 0 % 2 ^ 5 = 1 by omega]
  show Except.ok (Instr.seqSub (fld x 21 5) (fld x 16 5) (fld x 11 5)) = _
  rw [fld_eq (x := d) (by omega), fld_eq (x := a) (by omega), fld_eq (x := b) (by omega)]

theorem seqAnd (d a b : BitVec 5) : Statement (.seqAnd d a b) := by
  refine ctl_word (k := 0x01) (0x04000002 + d.toNat * 0x200000 + a.toNat * 0x10000 + b.toNat * 0x800) rfl rfl (fun x hx => ?_)
  have := d.isLt; have := a.isLt; have := b.isLt
  refine ⟨by omega, by omega, ?_⟩
  show pickAlu (x / 2 ^ 0 % 2 ^ 5) x = _
  rw [show x / 2 ^ 0 % 2 ^ 5 = 2 by omega]
  show Except.ok (Instr.seqAnd (fld x 21 5) (fld x 16 5) (fld x 11 5)) = _
  rw [fld_eq (x := d) (by omega), fld_eq (x := a) (by omega), fld_eq (x := b) (by omega)]

theorem seqOr (d a b : BitVec 5) : Statement (.seqOr d a b) := by
  refine ctl_word (k := 0x01) (0x04000003 + d.toNat * 0x200000 + a.toNat * 0x10000 + b.toNat * 0x800) rfl rfl (fun x hx => ?_)
  have := d.isLt; have := a.isLt; have := b.isLt
  refine ⟨by omega, by omega, ?_⟩
  show pickAlu (x / 2 ^ 0 % 2 ^ 5) x = _
  rw [show x / 2 ^ 0 % 2 ^ 5 = 3 by omega]
  show Except.ok (Instr.seqOr (fld x 21 5) (fld x 16 5) (fld x 11 5)) = _
  rw [fld_eq (x := d) (by omega), fld_eq (x := a) (by omega), fld_eq (x := b) (by omega)]

theorem seqXor (d a b : BitVec 5) : Statement (.seqXor d a b) := by
  refine ctl_word (k := 0x01) (0x04000004 + d.toNat * 0x200000 + a.toNat * 0x10000 + b.toNat * 0x800) rfl rfl (fun x hx => ?_)
  have := d.isLt; have := a.isLt; have := b.isLt
  refine ⟨by omega, by omega, ?_⟩
  show pickAlu (x / 2 ^ 0 % 2 ^ 5) x = _
  rw [show x / 2 ^ 0 % 2 ^ 5 = 4 by omega]
  show Except.ok (Instr.seqXor (fld x 21 5) (fld x 16 5) (fld x 11 5)) = _
  rw [fld_eq (x := d) (by omega), fld_eq (x := a) (by omega), fld_eq (x := b) (by omega)]

theorem seqSll (d a b : BitVec 5) : Statement (.seqSll d a b) := by
  refine ctl_word (k := 0x01) (0x04000005 + d.toNat * 0x200000 + a.toNat * 0x10000 + b.toNat * 0x800) rfl rfl (fun x hx => ?_)
  have := d.isLt; have := a.isLt; have := b.isLt
  refine ⟨by omega, by omega, ?_⟩
  show pickAlu (x / 2 ^ 0 % 2 ^ 5) x = _
  rw [show x / 2 ^ 0 % 2 ^ 5 = 5 by omega]
  show Except.ok (Instr.seqSll (fld x 21 5) (fld x 16 5) (fld x 11 5)) = _
  rw [fld_eq (x := d) (by omega), fld_eq (x := a) (by omega), fld_eq (x := b) (by omega)]

theorem seqSrl (d a b : BitVec 5) : Statement (.seqSrl d a b) := by
  refine ctl_word (k := 0x01) (0x04000006 + d.toNat * 0x200000 + a.toNat * 0x10000 + b.toNat * 0x800) rfl rfl (fun x hx => ?_)
  have := d.isLt; have := a.isLt; have := b.isLt
  refine ⟨by omega, by omega, ?_⟩
  show pickAlu (x / 2 ^ 0 % 2 ^ 5) x = _
  rw [show x / 2 ^ 0 % 2 ^ 5 = 6 by omega]
  show Except.ok (Instr.seqSrl (fld x 21 5) (fld x 16 5) (fld x 11 5)) = _
  rw [fld_eq (x := d) (by omega), fld_eq (x := a) (by omega), fld_eq (x := b) (by omega)]

theorem seqSra (d a b : BitVec 5) : Statement (.seqSra d a b) := by
  refine ctl_word (k := 0x01) (0x04000007 + d.toNat * 0x200000 + a.toNat * 0x10000 + b.toNat * 0x800) rfl rfl (fun x hx => ?_)
  have := d.isLt; have := a.isLt; have := b.isLt
  refine ⟨by omega, by omega, ?_⟩
  show pickAlu (x / 2 ^ 0 % 2 ^ 5) x = _
  rw [show x / 2 ^ 0 % 2 ^ 5 = 7 by omega]
  show Except.ok (Instr.seqSra (fld x 21 5) (fld x 16 5) (fld x 11 5)) = _
  rw [fld_eq (x := d) (by omega), fld_eq (x := a) (by omega), fld_eq (x := b) (by omega)]

theorem seqSlt (d a b : BitVec 5) : Statement (.seqSlt d a b) := by
  refine ctl_word (k := 0x01) (0x04000008 + d.toNat * 0x200000 + a.toNat * 0x10000 + b.toNat * 0x800) rfl rfl (fun x hx => ?_)
  have := d.isLt; have := a.isLt; have := b.isLt
  refine ⟨by omega, by omega, ?_⟩
  show pickAlu (x / 2 ^ 0 % 2 ^ 5) x = _
  rw [show x / 2 ^ 0 % 2 ^ 5 = 8 by omega]
  show Except.ok (Instr.seqSlt (fld x 21 5) (fld x 16 5) (fld x 11 5)) = _
  rw [fld_eq (x := d) (by omega), fld_eq (x := a) (by omega), fld_eq (x := b) (by omega)]

theorem seqSltu (d a b : BitVec 5) : Statement (.seqSltu d a b) := by
  refine ctl_word (k := 0x01) (0x04000009 + d.toNat * 0x200000 + a.toNat * 0x10000 + b.toNat * 0x800) rfl rfl (fun x hx => ?_)
  have := d.isLt; have := a.isLt; have := b.isLt
  refine ⟨by omega, by omega, ?_⟩
  show pickAlu (x / 2 ^ 0 % 2 ^ 5) x = _
  rw [show x / 2 ^ 0 % 2 ^ 5 = 9 by omega]
  show Except.ok (Instr.seqSltu (fld x 21 5) (fld x 16 5) (fld x 11 5)) = _
  rw [fld_eq (x := d) (by omega), fld_eq (x := a) (by omega), fld_eq (x := b) (by omega)]

theorem seqMul (d a b : BitVec 5) : Statement (.seqMul d a b) := by
  refine ctl_word (k := 0x01) (0x0400000A + d.toNat * 0x200000 + a.toNat * 0x10000 + b.toNat * 0x800) rfl rfl (fun x hx => ?_)
  have := d.isLt; have := a.isLt; have := b.isLt
  refine ⟨by omega, by omega, ?_⟩
  show pickAlu (x / 2 ^ 0 % 2 ^ 5) x = _
  rw [show x / 2 ^ 0 % 2 ^ 5 = 10 by omega]
  show Except.ok (Instr.seqMul (fld x 21 5) (fld x 16 5) (fld x 11 5)) = _
  rw [fld_eq (x := d) (by omega), fld_eq (x := a) (by omega), fld_eq (x := b) (by omega)]

theorem seqMulh (d a b : BitVec 5) : Statement (.seqMulh d a b) := by
  refine ctl_word (k := 0x01) (0x0400000B + d.toNat * 0x200000 + a.toNat * 0x10000 + b.toNat * 0x800) rfl rfl (fun x hx => ?_)
  have := d.isLt; have := a.isLt; have := b.isLt
  refine ⟨by omega, by omega, ?_⟩
  show pickAlu (x / 2 ^ 0 % 2 ^ 5) x = _
  rw [show x / 2 ^ 0 % 2 ^ 5 = 11 by omega]
  show Except.ok (Instr.seqMulh (fld x 21 5) (fld x 16 5) (fld x 11 5)) = _
  rw [fld_eq (x := d) (by omega), fld_eq (x := a) (by omega), fld_eq (x := b) (by omega)]

theorem seqMulhu (d a b : BitVec 5) : Statement (.seqMulhu d a b) := by
  refine ctl_word (k := 0x01) (0x0400000C + d.toNat * 0x200000 + a.toNat * 0x10000 + b.toNat * 0x800) rfl rfl (fun x hx => ?_)
  have := d.isLt; have := a.isLt; have := b.isLt
  refine ⟨by omega, by omega, ?_⟩
  show pickAlu (x / 2 ^ 0 % 2 ^ 5) x = _
  rw [show x / 2 ^ 0 % 2 ^ 5 = 12 by omega]
  show Except.ok (Instr.seqMulhu (fld x 21 5) (fld x 16 5) (fld x 11 5)) = _
  rw [fld_eq (x := d) (by omega), fld_eq (x := a) (by omega), fld_eq (x := b) (by omega)]

theorem seqDiv (d a b : BitVec 5) : Statement (.seqDiv d a b) := by
  refine ctl_word (k := 0x01) (0x0400000D + d.toNat * 0x200000 + a.toNat * 0x10000 + b.toNat * 0x800) rfl rfl (fun x hx => ?_)
  have := d.isLt; have := a.isLt; have := b.isLt
  refine ⟨by omega, by omega, ?_⟩
  show pickAlu (x / 2 ^ 0 % 2 ^ 5) x = _
  rw [show x / 2 ^ 0 % 2 ^ 5 = 13 by omega]
  show Except.ok (Instr.seqDiv (fld x 21 5) (fld x 16 5) (fld x 11 5)) = _
  rw [fld_eq (x := d) (by omega), fld_eq (x := a) (by omega), fld_eq (x := b) (by omega)]

theorem seqDivu (d a b : BitVec 5) : Statement (.seqDivu d a b) := by
  refine ctl_word (k := 0x01) (0x0400000E + d.toNat * 0x200000 + a.toNat * 0x10000 + b.toNat * 0x800) rfl rfl (fun x hx => ?_)
  have := d.isLt; have := a.isLt; have := b.isLt
  refine ⟨by omega, by omega, ?_⟩
  show pickAlu (x / 2 ^ 0 % 2 ^ 5) x = _
  rw [show x / 2 ^ 0 % 2 ^ 5 = 14 by omega]
  show Except.ok (Instr.seqDivu (fld x 21 5) (fld x 16 5) (fld x 11 5)) = _
  rw [fld_eq (x := d) (by omega), fld_eq (x := a) (by omega), fld_eq (x := b) (by omega)]

theorem seqRem (d a b : BitVec 5) : Statement (.seqRem d a b) := by
  refine ctl_word (k := 0x01) (0x0400000F + d.toNat * 0x200000 + a.toNat * 0x10000 + b.toNat * 0x800) rfl rfl (fun x hx => ?_)
  have := d.isLt; have := a.isLt; have := b.isLt
  refine ⟨by omega, by omega, ?_⟩
  show pickAlu (x / 2 ^ 0 % 2 ^ 5) x = _
  rw [show x / 2 ^ 0 % 2 ^ 5 = 15 by omega]
  show Except.ok (Instr.seqRem (fld x 21 5) (fld x 16 5) (fld x 11 5)) = _
  rw [fld_eq (x := d) (by omega), fld_eq (x := a) (by omega), fld_eq (x := b) (by omega)]

theorem seqRemu (d a b : BitVec 5) : Statement (.seqRemu d a b) := by
  refine ctl_word (k := 0x01) (0x04000010 + d.toNat * 0x200000 + a.toNat * 0x10000 + b.toNat * 0x800) rfl rfl (fun x hx => ?_)
  have := d.isLt; have := a.isLt; have := b.isLt
  refine ⟨by omega, by omega, ?_⟩
  show pickAlu (x / 2 ^ 0 % 2 ^ 5) x = _
  rw [show x / 2 ^ 0 % 2 ^ 5 = 16 by omega]
  show Except.ok (Instr.seqRemu (fld x 21 5) (fld x 16 5) (fld x 11 5)) = _
  rw [fld_eq (x := d) (by omega), fld_eq (x := a) (by omega), fld_eq (x := b) (by omega)]

theorem seqMin (d a b : BitVec 5) : Statement (.seqMin d a b) := by
  refine ctl_word (k := 0x01) (0x04000011 + d.toNat * 0x200000 + a.toNat * 0x10000 + b.toNat * 0x800) rfl rfl (fun x hx => ?_)
  have := d.isLt; have := a.isLt; have := b.isLt
  refine ⟨by omega, by omega, ?_⟩
  show pickAlu (x / 2 ^ 0 % 2 ^ 5) x = _
  rw [show x / 2 ^ 0 % 2 ^ 5 = 17 by omega]
  show Except.ok (Instr.seqMin (fld x 21 5) (fld x 16 5) (fld x 11 5)) = _
  rw [fld_eq (x := d) (by omega), fld_eq (x := a) (by omega), fld_eq (x := b) (by omega)]

theorem seqMax (d a b : BitVec 5) : Statement (.seqMax d a b) := by
  refine ctl_word (k := 0x01) (0x04000012 + d.toNat * 0x200000 + a.toNat * 0x10000 + b.toNat * 0x800) rfl rfl (fun x hx => ?_)
  have := d.isLt; have := a.isLt; have := b.isLt
  refine ⟨by omega, by omega, ?_⟩
  show pickAlu (x / 2 ^ 0 % 2 ^ 5) x = _
  rw [show x / 2 ^ 0 % 2 ^ 5 = 18 by omega]
  show Except.ok (Instr.seqMax (fld x 21 5) (fld x 16 5) (fld x 11 5)) = _
  rw [fld_eq (x := d) (by omega), fld_eq (x := a) (by omega), fld_eq (x := b) (by omega)]

theorem minu (d a b : BitVec 5) : Statement (.minu d a b) := by
  refine ctl_word (k := 0x01) (0x04000013 + d.toNat * 0x200000 + a.toNat * 0x10000 + b.toNat * 0x800) rfl rfl (fun x hx => ?_)
  have := d.isLt; have := a.isLt; have := b.isLt
  refine ⟨by omega, by omega, ?_⟩
  show pickAlu (x / 2 ^ 0 % 2 ^ 5) x = _
  rw [show x / 2 ^ 0 % 2 ^ 5 = 19 by omega]
  show Except.ok (Instr.minu (fld x 21 5) (fld x 16 5) (fld x 11 5)) = _
  rw [fld_eq (x := d) (by omega), fld_eq (x := a) (by omega), fld_eq (x := b) (by omega)]

theorem maxu (d a b : BitVec 5) : Statement (.maxu d a b) := by
  refine ctl_word (k := 0x01) (0x04000014 + d.toNat * 0x200000 + a.toNat * 0x10000 + b.toNat * 0x800) rfl rfl (fun x hx => ?_)
  have := d.isLt; have := a.isLt; have := b.isLt
  refine ⟨by omega, by omega, ?_⟩
  show pickAlu (x / 2 ^ 0 % 2 ^ 5) x = _
  rw [show x / 2 ^ 0 % 2 ^ 5 = 20 by omega]
  show Except.ok (Instr.maxu (fld x 21 5) (fld x 16 5) (fld x 11 5)) = _
  rw [fld_eq (x := d) (by omega), fld_eq (x := a) (by omega), fld_eq (x := b) (by omega)]

theorem seqAdds (d a b : BitVec 5) : Statement (.seqAdds d a b) := by
  refine ctl_word (k := 0x01) (0x04000015 + d.toNat * 0x200000 + a.toNat * 0x10000 + b.toNat * 0x800) rfl rfl (fun x hx => ?_)
  have := d.isLt; have := a.isLt; have := b.isLt
  refine ⟨by omega, by omega, ?_⟩
  show pickAlu (x / 2 ^ 0 % 2 ^ 5) x = _
  rw [show x / 2 ^ 0 % 2 ^ 5 = 21 by omega]
  show Except.ok (Instr.seqAdds (fld x 21 5) (fld x 16 5) (fld x 11 5)) = _
  rw [fld_eq (x := d) (by omega), fld_eq (x := a) (by omega), fld_eq (x := b) (by omega)]

theorem seqSubs (d a b : BitVec 5) : Statement (.seqSubs d a b) := by
  refine ctl_word (k := 0x01) (0x04000016 + d.toNat * 0x200000 + a.toNat * 0x10000 + b.toNat * 0x800) rfl rfl (fun x hx => ?_)
  have := d.isLt; have := a.isLt; have := b.isLt
  refine ⟨by omega, by omega, ?_⟩
  show pickAlu (x / 2 ^ 0 % 2 ^ 5) x = _
  rw [show x / 2 ^ 0 % 2 ^ 5 = 22 by omega]
  show Except.ok (Instr.seqSubs (fld x 21 5) (fld x 16 5) (fld x 11 5)) = _
  rw [fld_eq (x := d) (by omega), fld_eq (x := a) (by omega), fld_eq (x := b) (by omega)]

theorem kcmp (k : BitVec 2) (a b : BitVec 5) (c : BitVec 3) : Statement (.kcmp k a b c) := by
  refine ctl_word (k := 0x02) (0x08000000 + k.toNat * 0x200000 + a.toNat * 0x10000 + b.toNat * 0x800 + c.toNat * 0x1) rfl rfl (fun x hx => ?_)
  have := k.isLt; have := a.isLt; have := b.isLt; have := c.isLt
  refine ⟨by omega, by omega, ?_⟩
  show Except.ok (Instr.kcmp (fld x 21 2) (fld x 16 5) (fld x 11 5) (fld x 0 3)) = _
  rw [fld_eq (x := k) (by omega), fld_eq (x := a) (by omega), fld_eq (x := b) (by omega), fld_eq (x := c) (by omega)]

theorem xret : Statement (.xret) := by
  refine ctl_word (k := 0x03) (0x0C000000) rfl rfl (fun x hx => ?_)
  refine ⟨by omega, by omega, ?_⟩
  show pickSys (x / 2 ^ 0 % 2 ^ 5) x = _
  rw [show x / 2 ^ 0 % 2 ^ 5 = 0 by omega]
  show Except.ok (Instr.xret) = _
  rfl

theorem wfe : Statement (.wfe) := by
  refine ctl_word (k := 0x03) (0x0C000001) rfl rfl (fun x hx => ?_)
  refine ⟨by omega, by omega, ?_⟩
  show pickSys (x / 2 ^ 0 % 2 ^ 5) x = _
  rw [show x / 2 ^ 0 % 2 ^ 5 = 1 by omega]
  show Except.ok (Instr.wfe) = _
  rfl

theorem seqFence (s : BitVec 3) : Statement (.seqFence s) := by
  refine ctl_word (k := 0x03) (0x0C000002 + s.toNat * 0x100) rfl rfl (fun x hx => ?_)
  have := s.isLt
  refine ⟨by omega, by omega, ?_⟩
  show pickSys (x / 2 ^ 0 % 2 ^ 5) x = _
  rw [show x / 2 ^ 0 % 2 ^ 5 = 2 by omega]
  show Except.ok (Instr.seqFence (fld x 8 3)) = _
  rw [fld_eq (x := s) (by omega)]

theorem freeze : Statement (.freeze) := by
  refine ctl_word (k := 0x03) (0x0C000003) rfl rfl (fun x hx => ?_)
  refine ⟨by omega, by omega, ?_⟩
  show pickSys (x / 2 ^ 0 % 2 ^ 5) x = _
  rw [show x / 2 ^ 0 % 2 ^ 5 = 3 by omega]
  show Except.ok (Instr.freeze) = _
  rfl

theorem tscr (d : BitVec 5) : Statement (.tscr d) := by
  refine ctl_word (k := 0x03) (0x0C000004 + d.toNat * 0x200000) rfl rfl (fun x hx => ?_)
  have := d.isLt
  refine ⟨by omega, by omega, ?_⟩
  show pickSys (x / 2 ^ 0 % 2 ^ 5) x = _
  rw [show x / 2 ^ 0 % 2 ^ 5 = 4 by omega]
  show Except.ok (Instr.tscr (fld x 21 5)) = _
  rw [fld_eq (x := d) (by omega)]

theorem rdtag (d : BitVec 5) : Statement (.rdtag d) := by
  refine ctl_word (k := 0x03) (0x0C000005 + d.toNat * 0x200000) rfl rfl (fun x hx => ?_)
  have := d.isLt
  refine ⟨by omega, by omega, ?_⟩
  show pickSys (x / 2 ^ 0 % 2 ^ 5) x = _
  rw [show x / 2 ^ 0 % 2 ^ 5 = 5 by omega]
  show Except.ok (Instr.rdtag (fld x 21 5)) = _
  rw [fld_eq (x := d) (by omega)]

theorem launch (d a b : BitVec 5) : Statement (.launch d a b) := by
  refine ctl_word (k := 0x04) (0x10000000 + d.toNat * 0x200000 + a.toNat * 0x10000 + b.toNat * 0x800) rfl rfl (fun x hx => ?_)
  have := d.isLt; have := a.isLt; have := b.isLt
  refine ⟨by omega, by omega, ?_⟩
  show Except.ok (Instr.launch (fld x 21 5) (fld x 16 5) (fld x 11 5)) = _
  rw [fld_eq (x := d) (by omega), fld_eq (x := a) (by omega), fld_eq (x := b) (by omega)]

theorem signal (a b : BitVec 5) (s : BitVec 3) : Statement (.signal a b s) := by
  refine ctl_word (k := 0x05) (0x14000000 + a.toNat * 0x10000 + b.toNat * 0x800 + s.toNat * 0x100) rfl rfl (fun x hx => ?_)
  have := a.isLt; have := b.isLt; have := s.isLt
  refine ⟨by omega, by omega, ?_⟩
  show Except.ok (Instr.signal (fld x 16 5) (fld x 11 5) (fld x 8 3)) = _
  rw [fld_eq (x := a) (by omega), fld_eq (x := b) (by omega), fld_eq (x := s) (by omega)]

theorem seqAddi (d a : BitVec 5) (i : BitVec 16) : Statement (.seqAddi d a i) := by
  refine ctl_word (k := 0x08) (0x20000000 + d.toNat * 0x200000 + a.toNat * 0x10000 + i.toNat * 0x1) rfl rfl (fun x hx => ?_)
  have := d.isLt; have := a.isLt; have := i.isLt
  refine ⟨by omega, by omega, ?_⟩
  show Except.ok (Instr.seqAddi (fld x 21 5) (fld x 16 5) (fld x 0 16)) = _
  rw [fld_eq (x := d) (by omega), fld_eq (x := a) (by omega), fld_eq (x := i) (by omega)]

theorem seqAndi (d a : BitVec 5) (i : BitVec 16) : Statement (.seqAndi d a i) := by
  refine ctl_word (k := 0x09) (0x24000000 + d.toNat * 0x200000 + a.toNat * 0x10000 + i.toNat * 0x1) rfl rfl (fun x hx => ?_)
  have := d.isLt; have := a.isLt; have := i.isLt
  refine ⟨by omega, by omega, ?_⟩
  show Except.ok (Instr.seqAndi (fld x 21 5) (fld x 16 5) (fld x 0 16)) = _
  rw [fld_eq (x := d) (by omega), fld_eq (x := a) (by omega), fld_eq (x := i) (by omega)]

theorem seqOri (d a : BitVec 5) (i : BitVec 16) : Statement (.seqOri d a i) := by
  refine ctl_word (k := 0x0A) (0x28000000 + d.toNat * 0x200000 + a.toNat * 0x10000 + i.toNat * 0x1) rfl rfl (fun x hx => ?_)
  have := d.isLt; have := a.isLt; have := i.isLt
  refine ⟨by omega, by omega, ?_⟩
  show Except.ok (Instr.seqOri (fld x 21 5) (fld x 16 5) (fld x 0 16)) = _
  rw [fld_eq (x := d) (by omega), fld_eq (x := a) (by omega), fld_eq (x := i) (by omega)]

theorem seqXori (d a : BitVec 5) (i : BitVec 16) : Statement (.seqXori d a i) := by
  refine ctl_word (k := 0x0B) (0x2C000000 + d.toNat * 0x200000 + a.toNat * 0x10000 + i.toNat * 0x1) rfl rfl (fun x hx => ?_)
  have := d.isLt; have := a.isLt; have := i.isLt
  refine ⟨by omega, by omega, ?_⟩
  show Except.ok (Instr.seqXori (fld x 21 5) (fld x 16 5) (fld x 0 16)) = _
  rw [fld_eq (x := d) (by omega), fld_eq (x := a) (by omega), fld_eq (x := i) (by omega)]

theorem seqSlti (d a : BitVec 5) (i : BitVec 16) : Statement (.seqSlti d a i) := by
  refine ctl_word (k := 0x0C) (0x30000000 + d.toNat * 0x200000 + a.toNat * 0x10000 + i.toNat * 0x1) rfl rfl (fun x hx => ?_)
  have := d.isLt; have := a.isLt; have := i.isLt
  refine ⟨by omega, by omega, ?_⟩
  show Except.ok (Instr.seqSlti (fld x 21 5) (fld x 16 5) (fld x 0 16)) = _
  rw [fld_eq (x := d) (by omega), fld_eq (x := a) (by omega), fld_eq (x := i) (by omega)]

theorem sltiu (d a : BitVec 5) (i : BitVec 16) : Statement (.sltiu d a i) := by
  refine ctl_word (k := 0x0D) (0x34000000 + d.toNat * 0x200000 + a.toNat * 0x10000 + i.toNat * 0x1) rfl rfl (fun x hx => ?_)
  have := d.isLt; have := a.isLt; have := i.isLt
  refine ⟨by omega, by omega, ?_⟩
  show Except.ok (Instr.sltiu (fld x 21 5) (fld x 16 5) (fld x 0 16)) = _
  rw [fld_eq (x := d) (by omega), fld_eq (x := a) (by omega), fld_eq (x := i) (by omega)]

theorem seqSlli (d a i : BitVec 5) : Statement (.seqSlli d a i) := by
  refine ctl_word (k := 0x0E) (0x38000000 + d.toNat * 0x200000 + a.toNat * 0x10000 + i.toNat * 0x1) rfl rfl (fun x hx => ?_)
  have := d.isLt; have := a.isLt; have := i.isLt
  refine ⟨by omega, by omega, ?_⟩
  show Except.ok (Instr.seqSlli (fld x 21 5) (fld x 16 5) (fld x 0 5)) = _
  rw [fld_eq (x := d) (by omega), fld_eq (x := a) (by omega), fld_eq (x := i) (by omega)]

theorem seqSrli (d a i : BitVec 5) : Statement (.seqSrli d a i) := by
  refine ctl_word (k := 0x0F) (0x3C000000 + d.toNat * 0x200000 + a.toNat * 0x10000 + i.toNat * 0x1) rfl rfl (fun x hx => ?_)
  have := d.isLt; have := a.isLt; have := i.isLt
  refine ⟨by omega, by omega, ?_⟩
  show Except.ok (Instr.seqSrli (fld x 21 5) (fld x 16 5) (fld x 0 5)) = _
  rw [fld_eq (x := d) (by omega), fld_eq (x := a) (by omega), fld_eq (x := i) (by omega)]

theorem seqSrai (d a i : BitVec 5) : Statement (.seqSrai d a i) := by
  refine ctl_word (k := 0x10) (0x40000000 + d.toNat * 0x200000 + a.toNat * 0x10000 + i.toNat * 0x1) rfl rfl (fun x hx => ?_)
  have := d.isLt; have := a.isLt; have := i.isLt
  refine ⟨by omega, by omega, ?_⟩
  show Except.ok (Instr.seqSrai (fld x 21 5) (fld x 16 5) (fld x 0 5)) = _
  rw [fld_eq (x := d) (by omega), fld_eq (x := a) (by omega), fld_eq (x := i) (by omega)]

theorem lui (d : BitVec 5) (i : BitVec 16) : Statement (.lui d i) := by
  refine ctl_word (k := 0x11) (0x44000000 + d.toNat * 0x200000 + i.toNat * 0x1) rfl rfl (fun x hx => ?_)
  have := d.isLt; have := i.isLt
  refine ⟨by omega, by omega, ?_⟩
  show Except.ok (Instr.lui (fld x 21 5) (fld x 0 16)) = _
  rw [fld_eq (x := d) (by omega), fld_eq (x := i) (by omega)]

theorem jalr (d a : BitVec 5) (i : BitVec 16) : Statement (.jalr d a i) := by
  refine ctl_word (k := 0x12) (0x48000000 + d.toNat * 0x200000 + a.toNat * 0x10000 + i.toNat * 0x1) rfl rfl (fun x hx => ?_)
  have := d.isLt; have := a.isLt; have := i.isLt
  refine ⟨by omega, by omega, ?_⟩
  show Except.ok (Instr.jalr (fld x 21 5) (fld x 16 5) (fld x 0 16)) = _
  rw [fld_eq (x := d) (by omega), fld_eq (x := a) (by omega), fld_eq (x := i) (by omega)]

theorem trap (a : BitVec 5) (s c : BitVec 8) : Statement (.trap a s c) := by
  refine ctl_word (k := 0x13) (0x4C000000 + a.toNat * 0x10000 + s.toNat * 0x100 + c.toNat * 0x1) rfl rfl (fun x hx => ?_)
  have := a.isLt; have := s.isLt; have := c.isLt
  refine ⟨by omega, by omega, ?_⟩
  show Except.ok (Instr.trap (fld x 16 5) (fld x 8 8) (fld x 0 8)) = _
  rw [fld_eq (x := a) (by omega), fld_eq (x := s) (by omega), fld_eq (x := c) (by omega)]

theorem csrr (d : BitVec 5) (c : BitVec 12) : Statement (.csrr d c) := by
  refine ctl_word (k := 0x14) (0x50000000 + d.toNat * 0x200000 + c.toNat * 0x1) rfl rfl (fun x hx => ?_)
  have := d.isLt; have := c.isLt
  refine ⟨by omega, by omega, ?_⟩
  show Except.ok (Instr.csrr (fld x 21 5) (fld x 0 12)) = _
  rw [fld_eq (x := d) (by omega), fld_eq (x := c) (by omega)]

theorem csrw (a : BitVec 5) (c : BitVec 12) : Statement (.csrw a c) := by
  refine ctl_word (k := 0x15) (0x54000000 + a.toNat * 0x10000 + c.toNat * 0x1) rfl rfl (fun x hx => ?_)
  have := a.isLt; have := c.isLt
  refine ⟨by omega, by omega, ?_⟩
  show Except.ok (Instr.csrw (fld x 16 5) (fld x 0 12)) = _
  rw [fld_eq (x := a) (by omega), fld_eq (x := c) (by omega)]

theorem lb (d a : BitVec 5) (i : BitVec 16) : Statement (.lb d a i) := by
  refine ctl_word (k := 0x18) (0x60000000 + d.toNat * 0x200000 + a.toNat * 0x10000 + i.toNat * 0x1) rfl rfl (fun x hx => ?_)
  have := d.isLt; have := a.isLt; have := i.isLt
  refine ⟨by omega, by omega, ?_⟩
  show Except.ok (Instr.lb (fld x 21 5) (fld x 16 5) (fld x 0 16)) = _
  rw [fld_eq (x := d) (by omega), fld_eq (x := a) (by omega), fld_eq (x := i) (by omega)]

theorem lbu (d a : BitVec 5) (i : BitVec 16) : Statement (.lbu d a i) := by
  refine ctl_word (k := 0x19) (0x64000000 + d.toNat * 0x200000 + a.toNat * 0x10000 + i.toNat * 0x1) rfl rfl (fun x hx => ?_)
  have := d.isLt; have := a.isLt; have := i.isLt
  refine ⟨by omega, by omega, ?_⟩
  show Except.ok (Instr.lbu (fld x 21 5) (fld x 16 5) (fld x 0 16)) = _
  rw [fld_eq (x := d) (by omega), fld_eq (x := a) (by omega), fld_eq (x := i) (by omega)]

theorem lh (d a : BitVec 5) (i : BitVec 16) : Statement (.lh d a i) := by
  refine ctl_word (k := 0x1A) (0x68000000 + d.toNat * 0x200000 + a.toNat * 0x10000 + i.toNat * 0x1) rfl rfl (fun x hx => ?_)
  have := d.isLt; have := a.isLt; have := i.isLt
  refine ⟨by omega, by omega, ?_⟩
  show Except.ok (Instr.lh (fld x 21 5) (fld x 16 5) (fld x 0 16)) = _
  rw [fld_eq (x := d) (by omega), fld_eq (x := a) (by omega), fld_eq (x := i) (by omega)]

theorem lhu (d a : BitVec 5) (i : BitVec 16) : Statement (.lhu d a i) := by
  refine ctl_word (k := 0x1B) (0x6C000000 + d.toNat * 0x200000 + a.toNat * 0x10000 + i.toNat * 0x1) rfl rfl (fun x hx => ?_)
  have := d.isLt; have := a.isLt; have := i.isLt
  refine ⟨by omega, by omega, ?_⟩
  show Except.ok (Instr.lhu (fld x 21 5) (fld x 16 5) (fld x 0 16)) = _
  rw [fld_eq (x := d) (by omega), fld_eq (x := a) (by omega), fld_eq (x := i) (by omega)]

theorem lw (d a : BitVec 5) (i : BitVec 16) : Statement (.lw d a i) := by
  refine ctl_word (k := 0x1C) (0x70000000 + d.toNat * 0x200000 + a.toNat * 0x10000 + i.toNat * 0x1) rfl rfl (fun x hx => ?_)
  have := d.isLt; have := a.isLt; have := i.isLt
  refine ⟨by omega, by omega, ?_⟩
  show Except.ok (Instr.lw (fld x 21 5) (fld x 16 5) (fld x 0 16)) = _
  rw [fld_eq (x := d) (by omega), fld_eq (x := a) (by omega), fld_eq (x := i) (by omega)]

theorem sb (d a : BitVec 5) (i : BitVec 16) : Statement (.sb d a i) := by
  refine ctl_word (k := 0x1D) (0x74000000 + d.toNat * 0x200000 + a.toNat * 0x10000 + i.toNat * 0x1) rfl rfl (fun x hx => ?_)
  have := d.isLt; have := a.isLt; have := i.isLt
  refine ⟨by omega, by omega, ?_⟩
  show Except.ok (Instr.sb (fld x 21 5) (fld x 16 5) (fld x 0 16)) = _
  rw [fld_eq (x := d) (by omega), fld_eq (x := a) (by omega), fld_eq (x := i) (by omega)]

theorem sh (d a : BitVec 5) (i : BitVec 16) : Statement (.sh d a i) := by
  refine ctl_word (k := 0x1E) (0x78000000 + d.toNat * 0x200000 + a.toNat * 0x10000 + i.toNat * 0x1) rfl rfl (fun x hx => ?_)
  have := d.isLt; have := a.isLt; have := i.isLt
  refine ⟨by omega, by omega, ?_⟩
  show Except.ok (Instr.sh (fld x 21 5) (fld x 16 5) (fld x 0 16)) = _
  rw [fld_eq (x := d) (by omega), fld_eq (x := a) (by omega), fld_eq (x := i) (by omega)]

theorem sw (d a : BitVec 5) (i : BitVec 16) : Statement (.sw d a i) := by
  refine ctl_word (k := 0x1F) (0x7C000000 + d.toNat * 0x200000 + a.toNat * 0x10000 + i.toNat * 0x1) rfl rfl (fun x hx => ?_)
  have := d.isLt; have := a.isLt; have := i.isLt
  refine ⟨by omega, by omega, ?_⟩
  show Except.ok (Instr.sw (fld x 21 5) (fld x 16 5) (fld x 0 16)) = _
  rw [fld_eq (x := d) (by omega), fld_eq (x := a) (by omega), fld_eq (x := i) (by omega)]

theorem beq (a b : BitVec 5) (o : BitVec 16) : Statement (.beq a b o) := by
  refine ctl_word (k := 0x20) (0x80000000 + a.toNat * 0x200000 + b.toNat * 0x10000 + o.toNat * 0x1) rfl rfl (fun x hx => ?_)
  have := a.isLt; have := b.isLt; have := o.isLt
  refine ⟨by omega, by omega, ?_⟩
  show Except.ok (Instr.beq (fld x 21 5) (fld x 16 5) (fld x 0 16)) = _
  rw [fld_eq (x := a) (by omega), fld_eq (x := b) (by omega), fld_eq (x := o) (by omega)]

theorem bne (a b : BitVec 5) (o : BitVec 16) : Statement (.bne a b o) := by
  refine ctl_word (k := 0x21) (0x84000000 + a.toNat * 0x200000 + b.toNat * 0x10000 + o.toNat * 0x1) rfl rfl (fun x hx => ?_)
  have := a.isLt; have := b.isLt; have := o.isLt
  refine ⟨by omega, by omega, ?_⟩
  show Except.ok (Instr.bne (fld x 21 5) (fld x 16 5) (fld x 0 16)) = _
  rw [fld_eq (x := a) (by omega), fld_eq (x := b) (by omega), fld_eq (x := o) (by omega)]

theorem blt (a b : BitVec 5) (o : BitVec 16) : Statement (.blt a b o) := by
  refine ctl_word (k := 0x22) (0x88000000 + a.toNat * 0x200000 + b.toNat * 0x10000 + o.toNat * 0x1) rfl rfl (fun x hx => ?_)
  have := a.isLt; have := b.isLt; have := o.isLt
  refine ⟨by omega, by omega, ?_⟩
  show Except.ok (Instr.blt (fld x 21 5) (fld x 16 5) (fld x 0 16)) = _
  rw [fld_eq (x := a) (by omega), fld_eq (x := b) (by omega), fld_eq (x := o) (by omega)]

theorem bge (a b : BitVec 5) (o : BitVec 16) : Statement (.bge a b o) := by
  refine ctl_word (k := 0x23) (0x8C000000 + a.toNat * 0x200000 + b.toNat * 0x10000 + o.toNat * 0x1) rfl rfl (fun x hx => ?_)
  have := a.isLt; have := b.isLt; have := o.isLt
  refine ⟨by omega, by omega, ?_⟩
  show Except.ok (Instr.bge (fld x 21 5) (fld x 16 5) (fld x 0 16)) = _
  rw [fld_eq (x := a) (by omega), fld_eq (x := b) (by omega), fld_eq (x := o) (by omega)]

theorem bltu (a b : BitVec 5) (o : BitVec 16) : Statement (.bltu a b o) := by
  refine ctl_word (k := 0x24) (0x90000000 + a.toNat * 0x200000 + b.toNat * 0x10000 + o.toNat * 0x1) rfl rfl (fun x hx => ?_)
  have := a.isLt; have := b.isLt; have := o.isLt
  refine ⟨by omega, by omega, ?_⟩
  show Except.ok (Instr.bltu (fld x 21 5) (fld x 16 5) (fld x 0 16)) = _
  rw [fld_eq (x := a) (by omega), fld_eq (x := b) (by omega), fld_eq (x := o) (by omega)]

theorem bgeu (a b : BitVec 5) (o : BitVec 16) : Statement (.bgeu a b o) := by
  refine ctl_word (k := 0x25) (0x94000000 + a.toNat * 0x200000 + b.toNat * 0x10000 + o.toNat * 0x1) rfl rfl (fun x hx => ?_)
  have := a.isLt; have := b.isLt; have := o.isLt
  refine ⟨by omega, by omega, ?_⟩
  show Except.ok (Instr.bgeu (fld x 21 5) (fld x 16 5) (fld x 0 16)) = _
  rw [fld_eq (x := a) (by omega), fld_eq (x := b) (by omega), fld_eq (x := o) (by omega)]

theorem bkt (k : BitVec 2) (o : BitVec 16) : Statement (.bkt k o) := by
  refine ctl_word (k := 0x26) (0x98000000 + k.toNat * 0x200000 + o.toNat * 0x1) rfl rfl (fun x hx => ?_)
  have := k.isLt; have := o.isLt
  refine ⟨by omega, by omega, ?_⟩
  show Except.ok (Instr.bkt (fld x 21 2) (fld x 0 16)) = _
  rw [fld_eq (x := k) (by omega), fld_eq (x := o) (by omega)]

theorem bkf (k : BitVec 2) (o : BitVec 16) : Statement (.bkf k o) := by
  refine ctl_word (k := 0x27) (0x9C000000 + k.toNat * 0x200000 + o.toNat * 0x1) rfl rfl (fun x hx => ?_)
  have := k.isLt; have := o.isLt
  refine ⟨by omega, by omega, ?_⟩
  show Except.ok (Instr.bkf (fld x 21 2) (fld x 0 16)) = _
  rw [fld_eq (x := k) (by omega), fld_eq (x := o) (by omega)]

theorem j (o : BitVec 26) : Statement (.j o) := by
  refine ctl_word (k := 0x28) (0xA0000000 + o.toNat * 0x1) rfl rfl (fun x hx => ?_)
  have := o.isLt
  refine ⟨by omega, by omega, ?_⟩
  show Except.ok (Instr.j (fld x 0 26)) = _
  rw [fld_eq (x := o) (by omega)]

theorem jal (o : BitVec 26) : Statement (.jal o) := by
  refine ctl_word (k := 0x29) (0xA4000000 + o.toNat * 0x1) rfl rfl (fun x hx => ?_)
  have := o.isLt
  refine ⟨by omega, by omega, ?_⟩
  show Except.ok (Instr.jal (fld x 0 26)) = _
  rw [fld_eq (x := o) (by omega)]

theorem loop (l : BitVec 2) (c : BitVec 11) (n : BitVec 8) : Statement (.loop l c n) := by
  refine ctl_word (k := 0x2C) (0xB0000000 + l.toNat * 0x1000000 + c.toNat * 0x1000 + n.toNat * 0x10) rfl rfl (fun x hx => ?_)
  have := l.isLt; have := c.isLt; have := n.isLt
  refine ⟨by omega, by omega, ?_⟩
  show pickLoop (x / 2 ^ 23 % 2 ^ 1) x = _
  rw [show x / 2 ^ 23 % 2 ^ 1 = 0 by omega]
  show Except.ok (Instr.loop (fld x 24 2) (fld x 12 11) (fld x 4 8)) = _
  rw [fld_eq (x := l) (by omega), fld_eq (x := c) (by omega), fld_eq (x := n) (by omega)]

theorem loopr (l : BitVec 2) (g : BitVec 5) (n : BitVec 8) : Statement (.loopr l g n) := by
  refine ctl_word (k := 0x2C) (0xB0800000 + l.toNat * 0x1000000 + g.toNat * 0x1000 + n.toNat * 0x10) rfl rfl (fun x hx => ?_)
  have := l.isLt; have := g.isLt; have := n.isLt
  refine ⟨by omega, by omega, ?_⟩
  show pickLoop (x / 2 ^ 23 % 2 ^ 1) x = _
  rw [show x / 2 ^ 23 % 2 ^ 1 = 1 by omega]
  show Except.ok (Instr.loopr (fld x 24 2) (fld x 12 5) (fld x 4 8)) = _
  rw [fld_eq (x := l) (by omega), fld_eq (x := g) (by omega), fld_eq (x := n) (by omega)]

theorem lbrk (l : BitVec 2) : Statement (.lbrk l) := by
  refine ctl_word (k := 0x2D) (0xB4000000 + l.toNat * 0x1000000) rfl rfl (fun x hx => ?_)
  have := l.isLt
  refine ⟨by omega, by omega, ?_⟩
  show Except.ok (Instr.lbrk (fld x 24 2)) = _
  rw [fld_eq (x := l) (by omega)]

theorem ldm (d a : BitVec 5) (o z : BitVec 2) (s : BitVec 1) (c : BitVec 3) : Statement (.ldm d a o z s c) := by
  refine ctl_word (k := 0x30) (0xC0000000 + d.toNat * 0x200000 + a.toNat * 0x10000 + o.toNat * 0x4000 + z.toNat * 0x1000 + s.toNat * 0x800 + c.toNat * 0x80) rfl rfl (fun x hx => ?_)
  have := d.isLt; have := a.isLt; have := o.isLt; have := z.isLt; have := s.isLt; have := c.isLt
  refine ⟨by omega, by omega, ?_⟩
  show Except.ok (Instr.ldm (fld x 21 5) (fld x 16 5) (fld x 14 2) (fld x 12 2) (fld x 11 1) (fld x 7 3)) = _
  rw [fld_eq (x := d) (by omega), fld_eq (x := a) (by omega), fld_eq (x := o) (by omega), fld_eq (x := z) (by omega), fld_eq (x := s) (by omega), fld_eq (x := c) (by omega)]

theorem stm (d a : BitVec 5) (o z : BitVec 2) (c : BitVec 3) : Statement (.stm d a o z c) := by
  refine ctl_word (k := 0x31) (0xC4000000 + d.toNat * 0x200000 + a.toNat * 0x10000 + o.toNat * 0x4000 + z.toNat * 0x1000 + c.toNat * 0x80) rfl rfl (fun x hx => ?_)
  have := d.isLt; have := a.isLt; have := o.isLt; have := z.isLt; have := c.isLt
  refine ⟨by omega, by omega, ?_⟩
  show Except.ok (Instr.stm (fld x 21 5) (fld x 16 5) (fld x 14 2) (fld x 12 2) (fld x 7 3)) = _
  rw [fld_eq (x := d) (by omega), fld_eq (x := a) (by omega), fld_eq (x := o) (by omega), fld_eq (x := z) (by omega), fld_eq (x := c) (by omega)]

theorem seqAadd (d a : BitVec 5) (w : BitVec 1) (o : BitVec 2) (c : BitVec 3) : Statement (.seqAadd d a w o c) := by
  refine ctl_word (k := 0x32) (0xC8000000 + d.toNat * 0x200000 + a.toNat * 0x10000 + w.toNat * 0x1000 + o.toNat * 0x400 + c.toNat * 0x80) rfl rfl (fun x hx => ?_)
  have := d.isLt; have := a.isLt; have := w.isLt; have := o.isLt; have := c.isLt
  refine ⟨by omega, by omega, ?_⟩
  show pickAmom (x / 2 ^ 13 % 2 ^ 3) x = _
  rw [show x / 2 ^ 13 % 2 ^ 3 = 0 by omega]
  show Except.ok (Instr.seqAadd (fld x 21 5) (fld x 16 5) (fld x 12 1) (fld x 10 2) (fld x 7 3)) = _
  rw [fld_eq (x := d) (by omega), fld_eq (x := a) (by omega), fld_eq (x := w) (by omega), fld_eq (x := o) (by omega), fld_eq (x := c) (by omega)]

theorem seqAmin (d a : BitVec 5) (w : BitVec 1) (o : BitVec 2) (c : BitVec 3) : Statement (.seqAmin d a w o c) := by
  refine ctl_word (k := 0x32) (0xC8002000 + d.toNat * 0x200000 + a.toNat * 0x10000 + w.toNat * 0x1000 + o.toNat * 0x400 + c.toNat * 0x80) rfl rfl (fun x hx => ?_)
  have := d.isLt; have := a.isLt; have := w.isLt; have := o.isLt; have := c.isLt
  refine ⟨by omega, by omega, ?_⟩
  show pickAmom (x / 2 ^ 13 % 2 ^ 3) x = _
  rw [show x / 2 ^ 13 % 2 ^ 3 = 1 by omega]
  show Except.ok (Instr.seqAmin (fld x 21 5) (fld x 16 5) (fld x 12 1) (fld x 10 2) (fld x 7 3)) = _
  rw [fld_eq (x := d) (by omega), fld_eq (x := a) (by omega), fld_eq (x := w) (by omega), fld_eq (x := o) (by omega), fld_eq (x := c) (by omega)]

theorem seqAmax (d a : BitVec 5) (w : BitVec 1) (o : BitVec 2) (c : BitVec 3) : Statement (.seqAmax d a w o c) := by
  refine ctl_word (k := 0x32) (0xC8004000 + d.toNat * 0x200000 + a.toNat * 0x10000 + w.toNat * 0x1000 + o.toNat * 0x400 + c.toNat * 0x80) rfl rfl (fun x hx => ?_)
  have := d.isLt; have := a.isLt; have := w.isLt; have := o.isLt; have := c.isLt
  refine ⟨by omega, by omega, ?_⟩
  show pickAmom (x / 2 ^ 13 % 2 ^ 3) x = _
  rw [show x / 2 ^ 13 % 2 ^ 3 = 2 by omega]
  show Except.ok (Instr.seqAmax (fld x 21 5) (fld x 16 5) (fld x 12 1) (fld x 10 2) (fld x 7 3)) = _
  rw [fld_eq (x := d) (by omega), fld_eq (x := a) (by omega), fld_eq (x := w) (by omega), fld_eq (x := o) (by omega), fld_eq (x := c) (by omega)]

theorem seqAand (d a : BitVec 5) (w : BitVec 1) (o : BitVec 2) (c : BitVec 3) : Statement (.seqAand d a w o c) := by
  refine ctl_word (k := 0x32) (0xC8006000 + d.toNat * 0x200000 + a.toNat * 0x10000 + w.toNat * 0x1000 + o.toNat * 0x400 + c.toNat * 0x80) rfl rfl (fun x hx => ?_)
  have := d.isLt; have := a.isLt; have := w.isLt; have := o.isLt; have := c.isLt
  refine ⟨by omega, by omega, ?_⟩
  show pickAmom (x / 2 ^ 13 % 2 ^ 3) x = _
  rw [show x / 2 ^ 13 % 2 ^ 3 = 3 by omega]
  show Except.ok (Instr.seqAand (fld x 21 5) (fld x 16 5) (fld x 12 1) (fld x 10 2) (fld x 7 3)) = _
  rw [fld_eq (x := d) (by omega), fld_eq (x := a) (by omega), fld_eq (x := w) (by omega), fld_eq (x := o) (by omega), fld_eq (x := c) (by omega)]

theorem seqAor (d a : BitVec 5) (w : BitVec 1) (o : BitVec 2) (c : BitVec 3) : Statement (.seqAor d a w o c) := by
  refine ctl_word (k := 0x32) (0xC8008000 + d.toNat * 0x200000 + a.toNat * 0x10000 + w.toNat * 0x1000 + o.toNat * 0x400 + c.toNat * 0x80) rfl rfl (fun x hx => ?_)
  have := d.isLt; have := a.isLt; have := w.isLt; have := o.isLt; have := c.isLt
  refine ⟨by omega, by omega, ?_⟩
  show pickAmom (x / 2 ^ 13 % 2 ^ 3) x = _
  rw [show x / 2 ^ 13 % 2 ^ 3 = 4 by omega]
  show Except.ok (Instr.seqAor (fld x 21 5) (fld x 16 5) (fld x 12 1) (fld x 10 2) (fld x 7 3)) = _
  rw [fld_eq (x := d) (by omega), fld_eq (x := a) (by omega), fld_eq (x := w) (by omega), fld_eq (x := o) (by omega), fld_eq (x := c) (by omega)]

theorem seqAxor (d a : BitVec 5) (w : BitVec 1) (o : BitVec 2) (c : BitVec 3) : Statement (.seqAxor d a w o c) := by
  refine ctl_word (k := 0x32) (0xC800A000 + d.toNat * 0x200000 + a.toNat * 0x10000 + w.toNat * 0x1000 + o.toNat * 0x400 + c.toNat * 0x80) rfl rfl (fun x hx => ?_)
  have := d.isLt; have := a.isLt; have := w.isLt; have := o.isLt; have := c.isLt
  refine ⟨by omega, by omega, ?_⟩
  show pickAmom (x / 2 ^ 13 % 2 ^ 3) x = _
  rw [show x / 2 ^ 13 % 2 ^ 3 = 5 by omega]
  show Except.ok (Instr.seqAxor (fld x 21 5) (fld x 16 5) (fld x 12 1) (fld x 10 2) (fld x 7 3)) = _
  rw [fld_eq (x := d) (by omega), fld_eq (x := a) (by omega), fld_eq (x := w) (by omega), fld_eq (x := o) (by omega), fld_eq (x := c) (by omega)]

theorem seqAswp (d a : BitVec 5) (w : BitVec 1) (o : BitVec 2) (c : BitVec 3) : Statement (.seqAswp d a w o c) := by
  refine ctl_word (k := 0x32) (0xC800C000 + d.toNat * 0x200000 + a.toNat * 0x10000 + w.toNat * 0x1000 + o.toNat * 0x400 + c.toNat * 0x80) rfl rfl (fun x hx => ?_)
  have := d.isLt; have := a.isLt; have := w.isLt; have := o.isLt; have := c.isLt
  refine ⟨by omega, by omega, ?_⟩
  show pickAmom (x / 2 ^ 13 % 2 ^ 3) x = _
  rw [show x / 2 ^ 13 % 2 ^ 3 = 6 by omega]
  show Except.ok (Instr.seqAswp (fld x 21 5) (fld x 16 5) (fld x 12 1) (fld x 10 2) (fld x 7 3)) = _
  rw [fld_eq (x := d) (by omega), fld_eq (x := a) (by omega), fld_eq (x := w) (by omega), fld_eq (x := o) (by omega), fld_eq (x := c) (by omega)]

theorem seqAcas (d a : BitVec 5) (w : BitVec 1) (o : BitVec 2) (c : BitVec 3) : Statement (.seqAcas d a w o c) := by
  refine ctl_word (k := 0x32) (0xC800E000 + d.toNat * 0x200000 + a.toNat * 0x10000 + w.toNat * 0x1000 + o.toNat * 0x400 + c.toNat * 0x80) rfl rfl (fun x hx => ?_)
  have := d.isLt; have := a.isLt; have := w.isLt; have := o.isLt; have := c.isLt
  refine ⟨by omega, by omega, ?_⟩
  show pickAmom (x / 2 ^ 13 % 2 ^ 3) x = _
  rw [show x / 2 ^ 13 % 2 ^ 3 = 7 by omega]
  show Except.ok (Instr.seqAcas (fld x 21 5) (fld x 16 5) (fld x 12 1) (fld x 10 2) (fld x 7 3)) = _
  rw [fld_eq (x := d) (by omega), fld_eq (x := a) (by omega), fld_eq (x := w) (by omega), fld_eq (x := o) (by omega), fld_eq (x := c) (by omega)]

theorem sbind (a : BitVec 5) (p : BitVec 4) : Statement (.sbind a p) := by
  refine ctl_word (k := 0x33) (0xCC000000 + a.toNat * 0x10000 + p.toNat * 0x1) rfl rfl (fun x hx => ?_)
  have := a.isLt; have := p.isLt
  refine ⟨by omega, by omega, ?_⟩
  show pickStrm (x / 2 ^ 10 % 2 ^ 6) x = _
  rw [show x / 2 ^ 10 % 2 ^ 6 = 0 by omega]
  show Except.ok (Instr.sbind (fld x 16 5) (fld x 0 4)) = _
  rw [fld_eq (x := a) (by omega), fld_eq (x := p) (by omega)]

theorem sgo (p : BitVec 4) : Statement (.sgo p) := by
  refine ctl_word (k := 0x33) (0xCC000400 + p.toNat * 0x1) rfl rfl (fun x hx => ?_)
  have := p.isLt
  refine ⟨by omega, by omega, ?_⟩
  show pickStrm (x / 2 ^ 10 % 2 ^ 6) x = _
  rw [show x / 2 ^ 10 % 2 ^ 6 = 1 by omega]
  show Except.ok (Instr.sgo (fld x 0 4)) = _
  rw [fld_eq (x := p) (by omega)]

theorem swaitp (p : BitVec 4) : Statement (.swaitp p) := by
  refine ctl_word (k := 0x33) (0xCC000800 + p.toNat * 0x1) rfl rfl (fun x hx => ?_)
  have := p.isLt
  refine ⟨by omega, by omega, ?_⟩
  show pickStrm (x / 2 ^ 10 % 2 ^ 6) x = _
  rw [show x / 2 ^ 10 % 2 ^ 6 = 2 by omega]
  show Except.ok (Instr.swaitp (fld x 0 4)) = _
  rw [fld_eq (x := p) (by omega)]

theorem sbar : Statement (.sbar) := by
  refine ctl_word (k := 0x33) (0xCC000C00) rfl rfl (fun x hx => ?_)
  refine ⟨by omega, by omega, ?_⟩
  show pickStrm (x / 2 ^ 10 % 2 ^ 6) x = _
  rw [show x / 2 ^ 10 % 2 ^ 6 = 3 by omega]
  show Except.ok (Instr.sbar) = _
  rfl

theorem cfgld (d a : BitVec 5) : Statement (.cfgld d a) := by
  refine ctl_word (k := 0x34) (0xD0000000 + d.toNat * 0x200000 + a.toNat * 0x10000) rfl rfl (fun x hx => ?_)
  have := d.isLt; have := a.isLt
  refine ⟨by omega, by omega, ?_⟩
  show pickCfg (x / 2 ^ 10 % 2 ^ 6) x = _
  rw [show x / 2 ^ 10 % 2 ^ 6 = 0 by omega]
  show Except.ok (Instr.cfgld (fld x 21 5) (fld x 16 5)) = _
  rw [fld_eq (x := d) (by omega), fld_eq (x := a) (by omega)]

theorem cfgpat (d a : BitVec 5) : Statement (.cfgpat d a) := by
  refine ctl_word (k := 0x34) (0xD0000400 + d.toNat * 0x200000 + a.toNat * 0x10000) rfl rfl (fun x hx => ?_)
  have := d.isLt; have := a.isLt
  refine ⟨by omega, by omega, ?_⟩
  show pickCfg (x / 2 ^ 10 % 2 ^ 6) x = _
  rw [show x / 2 ^ 10 % 2 ^ 6 = 1 by omega]
  show Except.ok (Instr.cfgpat (fld x 21 5) (fld x 16 5)) = _
  rw [fld_eq (x := d) (by omega), fld_eq (x := a) (by omega)]

theorem cfgrect (d a : BitVec 5) : Statement (.cfgrect d a) := by
  refine ctl_word (k := 0x34) (0xD0000800 + d.toNat * 0x200000 + a.toNat * 0x10000) rfl rfl (fun x hx => ?_)
  have := d.isLt; have := a.isLt
  refine ⟨by omega, by omega, ?_⟩
  show pickCfg (x / 2 ^ 10 % 2 ^ 6) x = _
  rw [show x / 2 ^ 10 % 2 ^ 6 = 2 by omega]
  show Except.ok (Instr.cfgrect (fld x 21 5) (fld x 16 5)) = _
  rw [fld_eq (x := d) (by omega), fld_eq (x := a) (by omega)]

theorem cfgcmt (d : BitVec 5) : Statement (.cfgcmt d) := by
  refine ctl_word (k := 0x34) (0xD0000C00 + d.toNat * 0x200000) rfl rfl (fun x hx => ?_)
  have := d.isLt
  refine ⟨by omega, by omega, ?_⟩
  show pickCfg (x / 2 ^ 10 % 2 ^ 6) x = _
  rw [show x / 2 ^ 10 % 2 ^ 6 = 3 by omega]
  show Except.ok (Instr.cfgcmt (fld x 21 5)) = _
  rw [fld_eq (x := d) (by omega)]

theorem cfgabt : Statement (.cfgabt) := by
  refine ctl_word (k := 0x34) (0xD0001000) rfl rfl (fun x hx => ?_)
  refine ⟨by omega, by omega, ?_⟩
  show pickCfg (x / 2 ^ 10 % 2 ^ 6) x = _
  rw [show x / 2 ^ 10 % 2 ^ 6 = 4 by omega]
  show Except.ok (Instr.cfgabt) = _
  rfl

theorem add (d a b : BitVec 5) (w z : BitVec 1) (k : BitVec 3) : Statement (.add d a b w z k) := by
  refine elem_word (k := 0x01) (0x02000000 + d.toNat * 0x100000 + a.toNat * 0x8000 + b.toNat * 0x400 + w.toNat * 0x10 + z.toNat * 0x8 + k.toNat * 0x1) rfl rfl (fun x hx => ?_)
  have := d.isLt; have := a.isLt; have := b.isLt; have := w.isLt; have := z.isLt; have := k.isLt
  refine ⟨by omega, by omega, ?_⟩
  show Except.ok (Instr.add (fld x 20 5) (fld x 15 5) (fld x 10 5) (fld x 4 1) (fld x 3 1) (fld x 0 3)) = _
  rw [fld_eq (x := d) (by omega), fld_eq (x := a) (by omega), fld_eq (x := b) (by omega), fld_eq (x := w) (by omega), fld_eq (x := z) (by omega), fld_eq (x := k) (by omega)]

theorem sub (d a b : BitVec 5) (w z : BitVec 1) (k : BitVec 3) : Statement (.sub d a b w z k) := by
  refine elem_word (k := 0x02) (0x04000000 + d.toNat * 0x100000 + a.toNat * 0x8000 + b.toNat * 0x400 + w.toNat * 0x10 + z.toNat * 0x8 + k.toNat * 0x1) rfl rfl (fun x hx => ?_)
  have := d.isLt; have := a.isLt; have := b.isLt; have := w.isLt; have := z.isLt; have := k.isLt
  refine ⟨by omega, by omega, ?_⟩
  show Except.ok (Instr.sub (fld x 20 5) (fld x 15 5) (fld x 10 5) (fld x 4 1) (fld x 3 1) (fld x 0 3)) = _
  rw [fld_eq (x := d) (by omega), fld_eq (x := a) (by omega), fld_eq (x := b) (by omega), fld_eq (x := w) (by omega), fld_eq (x := z) (by omega), fld_eq (x := k) (by omega)]

theorem mul (d a b : BitVec 5) (w z : BitVec 1) (k : BitVec 3) : Statement (.mul d a b w z k) := by
  refine elem_word (k := 0x03) (0x06000000 + d.toNat * 0x100000 + a.toNat * 0x8000 + b.toNat * 0x400 + w.toNat * 0x10 + z.toNat * 0x8 + k.toNat * 0x1) rfl rfl (fun x hx => ?_)
  have := d.isLt; have := a.isLt; have := b.isLt; have := w.isLt; have := z.isLt; have := k.isLt
  refine ⟨by omega, by omega, ?_⟩
  show Except.ok (Instr.mul (fld x 20 5) (fld x 15 5) (fld x 10 5) (fld x 4 1) (fld x 3 1) (fld x 0 3)) = _
  rw [fld_eq (x := d) (by omega), fld_eq (x := a) (by omega), fld_eq (x := b) (by omega), fld_eq (x := w) (by omega), fld_eq (x := z) (by omega), fld_eq (x := k) (by omega)]

theorem mulh (d a b : BitVec 5) (w z : BitVec 1) (k : BitVec 3) : Statement (.mulh d a b w z k) := by
  refine elem_word (k := 0x04) (0x08000000 + d.toNat * 0x100000 + a.toNat * 0x8000 + b.toNat * 0x400 + w.toNat * 0x10 + z.toNat * 0x8 + k.toNat * 0x1) rfl rfl (fun x hx => ?_)
  have := d.isLt; have := a.isLt; have := b.isLt; have := w.isLt; have := z.isLt; have := k.isLt
  refine ⟨by omega, by omega, ?_⟩
  show Except.ok (Instr.mulh (fld x 20 5) (fld x 15 5) (fld x 10 5) (fld x 4 1) (fld x 3 1) (fld x 0 3)) = _
  rw [fld_eq (x := d) (by omega), fld_eq (x := a) (by omega), fld_eq (x := b) (by omega), fld_eq (x := w) (by omega), fld_eq (x := z) (by omega), fld_eq (x := k) (by omega)]

theorem mulhu (d a b : BitVec 5) (w z : BitVec 1) (k : BitVec 3) : Statement (.mulhu d a b w z k) := by
  refine elem_word (k := 0x05) (0x0A000000 + d.toNat * 0x100000 + a.toNat * 0x8000 + b.toNat * 0x400 + w.toNat * 0x10 + z.toNat * 0x8 + k.toNat * 0x1) rfl rfl (fun x hx => ?_)
  have := d.isLt; have := a.isLt; have := b.isLt; have := w.isLt; have := z.isLt; have := k.isLt
  refine ⟨by omega, by omega, ?_⟩
  show Except.ok (Instr.mulhu (fld x 20 5) (fld x 15 5) (fld x 10 5) (fld x 4 1) (fld x 3 1) (fld x 0 3)) = _
  rw [fld_eq (x := d) (by omega), fld_eq (x := a) (by omega), fld_eq (x := b) (by omega), fld_eq (x := w) (by omega), fld_eq (x := z) (by omega), fld_eq (x := k) (by omega)]

theorem div (d a b : BitVec 5) (w z : BitVec 1) (k : BitVec 3) : Statement (.div d a b w z k) := by
  refine elem_word (k := 0x06) (0x0C000000 + d.toNat * 0x100000 + a.toNat * 0x8000 + b.toNat * 0x400 + w.toNat * 0x10 + z.toNat * 0x8 + k.toNat * 0x1) rfl rfl (fun x hx => ?_)
  have := d.isLt; have := a.isLt; have := b.isLt; have := w.isLt; have := z.isLt; have := k.isLt
  refine ⟨by omega, by omega, ?_⟩
  show Except.ok (Instr.div (fld x 20 5) (fld x 15 5) (fld x 10 5) (fld x 4 1) (fld x 3 1) (fld x 0 3)) = _
  rw [fld_eq (x := d) (by omega), fld_eq (x := a) (by omega), fld_eq (x := b) (by omega), fld_eq (x := w) (by omega), fld_eq (x := z) (by omega), fld_eq (x := k) (by omega)]

theorem divu (d a b : BitVec 5) (w z : BitVec 1) (k : BitVec 3) : Statement (.divu d a b w z k) := by
  refine elem_word (k := 0x07) (0x0E000000 + d.toNat * 0x100000 + a.toNat * 0x8000 + b.toNat * 0x400 + w.toNat * 0x10 + z.toNat * 0x8 + k.toNat * 0x1) rfl rfl (fun x hx => ?_)
  have := d.isLt; have := a.isLt; have := b.isLt; have := w.isLt; have := z.isLt; have := k.isLt
  refine ⟨by omega, by omega, ?_⟩
  show Except.ok (Instr.divu (fld x 20 5) (fld x 15 5) (fld x 10 5) (fld x 4 1) (fld x 3 1) (fld x 0 3)) = _
  rw [fld_eq (x := d) (by omega), fld_eq (x := a) (by omega), fld_eq (x := b) (by omega), fld_eq (x := w) (by omega), fld_eq (x := z) (by omega), fld_eq (x := k) (by omega)]

theorem rem (d a b : BitVec 5) (w z : BitVec 1) (k : BitVec 3) : Statement (.rem d a b w z k) := by
  refine elem_word (k := 0x08) (0x10000000 + d.toNat * 0x100000 + a.toNat * 0x8000 + b.toNat * 0x400 + w.toNat * 0x10 + z.toNat * 0x8 + k.toNat * 0x1) rfl rfl (fun x hx => ?_)
  have := d.isLt; have := a.isLt; have := b.isLt; have := w.isLt; have := z.isLt; have := k.isLt
  refine ⟨by omega, by omega, ?_⟩
  show Except.ok (Instr.rem (fld x 20 5) (fld x 15 5) (fld x 10 5) (fld x 4 1) (fld x 3 1) (fld x 0 3)) = _
  rw [fld_eq (x := d) (by omega), fld_eq (x := a) (by omega), fld_eq (x := b) (by omega), fld_eq (x := w) (by omega), fld_eq (x := z) (by omega), fld_eq (x := k) (by omega)]

theorem remu (d a b : BitVec 5) (w z : BitVec 1) (k : BitVec 3) : Statement (.remu d a b w z k) := by
  refine elem_word (k := 0x09) (0x12000000 + d.toNat * 0x100000 + a.toNat * 0x8000 + b.toNat * 0x400 + w.toNat * 0x10 + z.toNat * 0x8 + k.toNat * 0x1) rfl rfl (fun x hx => ?_)
  have := d.isLt; have := a.isLt; have := b.isLt; have := w.isLt; have := z.isLt; have := k.isLt
  refine ⟨by omega, by omega, ?_⟩
  show Except.ok (Instr.remu (fld x 20 5) (fld x 15 5) (fld x 10 5) (fld x 4 1) (fld x 3 1) (fld x 0 3)) = _
  rw [fld_eq (x := d) (by omega), fld_eq (x := a) (by omega), fld_eq (x := b) (by omega), fld_eq (x := w) (by omega), fld_eq (x := z) (by omega), fld_eq (x := k) (by omega)]

theorem and (d a b : BitVec 5) (w z : BitVec 1) (k : BitVec 3) : Statement (.and d a b w z k) := by
  refine elem_word (k := 0x0A) (0x14000000 + d.toNat * 0x100000 + a.toNat * 0x8000 + b.toNat * 0x400 + w.toNat * 0x10 + z.toNat * 0x8 + k.toNat * 0x1) rfl rfl (fun x hx => ?_)
  have := d.isLt; have := a.isLt; have := b.isLt; have := w.isLt; have := z.isLt; have := k.isLt
  refine ⟨by omega, by omega, ?_⟩
  show Except.ok (Instr.and (fld x 20 5) (fld x 15 5) (fld x 10 5) (fld x 4 1) (fld x 3 1) (fld x 0 3)) = _
  rw [fld_eq (x := d) (by omega), fld_eq (x := a) (by omega), fld_eq (x := b) (by omega), fld_eq (x := w) (by omega), fld_eq (x := z) (by omega), fld_eq (x := k) (by omega)]

theorem or (d a b : BitVec 5) (w z : BitVec 1) (k : BitVec 3) : Statement (.or d a b w z k) := by
  refine elem_word (k := 0x0B) (0x16000000 + d.toNat * 0x100000 + a.toNat * 0x8000 + b.toNat * 0x400 + w.toNat * 0x10 + z.toNat * 0x8 + k.toNat * 0x1) rfl rfl (fun x hx => ?_)
  have := d.isLt; have := a.isLt; have := b.isLt; have := w.isLt; have := z.isLt; have := k.isLt
  refine ⟨by omega, by omega, ?_⟩
  show Except.ok (Instr.or (fld x 20 5) (fld x 15 5) (fld x 10 5) (fld x 4 1) (fld x 3 1) (fld x 0 3)) = _
  rw [fld_eq (x := d) (by omega), fld_eq (x := a) (by omega), fld_eq (x := b) (by omega), fld_eq (x := w) (by omega), fld_eq (x := z) (by omega), fld_eq (x := k) (by omega)]

theorem xor (d a b : BitVec 5) (w z : BitVec 1) (k : BitVec 3) : Statement (.xor d a b w z k) := by
  refine elem_word (k := 0x0C) (0x18000000 + d.toNat * 0x100000 + a.toNat * 0x8000 + b.toNat * 0x400 + w.toNat * 0x10 + z.toNat * 0x8 + k.toNat * 0x1) rfl rfl (fun x hx => ?_)
  have := d.isLt; have := a.isLt; have := b.isLt; have := w.isLt; have := z.isLt; have := k.isLt
  refine ⟨by omega, by omega, ?_⟩
  show Except.ok (Instr.xor (fld x 20 5) (fld x 15 5) (fld x 10 5) (fld x 4 1) (fld x 3 1) (fld x 0 3)) = _
  rw [fld_eq (x := d) (by omega), fld_eq (x := a) (by omega), fld_eq (x := b) (by omega), fld_eq (x := w) (by omega), fld_eq (x := z) (by omega), fld_eq (x := k) (by omega)]

theorem sll (d a b : BitVec 5) (w z : BitVec 1) (k : BitVec 3) : Statement (.sll d a b w z k) := by
  refine elem_word (k := 0x0D) (0x1A000000 + d.toNat * 0x100000 + a.toNat * 0x8000 + b.toNat * 0x400 + w.toNat * 0x10 + z.toNat * 0x8 + k.toNat * 0x1) rfl rfl (fun x hx => ?_)
  have := d.isLt; have := a.isLt; have := b.isLt; have := w.isLt; have := z.isLt; have := k.isLt
  refine ⟨by omega, by omega, ?_⟩
  show Except.ok (Instr.sll (fld x 20 5) (fld x 15 5) (fld x 10 5) (fld x 4 1) (fld x 3 1) (fld x 0 3)) = _
  rw [fld_eq (x := d) (by omega), fld_eq (x := a) (by omega), fld_eq (x := b) (by omega), fld_eq (x := w) (by omega), fld_eq (x := z) (by omega), fld_eq (x := k) (by omega)]

theorem srl (d a b : BitVec 5) (w z : BitVec 1) (k : BitVec 3) : Statement (.srl d a b w z k) := by
  refine elem_word (k := 0x0E) (0x1C000000 + d.toNat * 0x100000 + a.toNat * 0x8000 + b.toNat * 0x400 + w.toNat * 0x10 + z.toNat * 0x8 + k.toNat * 0x1) rfl rfl (fun x hx => ?_)
  have := d.isLt; have := a.isLt; have := b.isLt; have := w.isLt; have := z.isLt; have := k.isLt
  refine ⟨by omega, by omega, ?_⟩
  show Except.ok (Instr.srl (fld x 20 5) (fld x 15 5) (fld x 10 5) (fld x 4 1) (fld x 3 1) (fld x 0 3)) = _
  rw [fld_eq (x := d) (by omega), fld_eq (x := a) (by omega), fld_eq (x := b) (by omega), fld_eq (x := w) (by omega), fld_eq (x := z) (by omega), fld_eq (x := k) (by omega)]

theorem sra (d a b : BitVec 5) (w z : BitVec 1) (k : BitVec 3) : Statement (.sra d a b w z k) := by
  refine elem_word (k := 0x0F) (0x1E000000 + d.toNat * 0x100000 + a.toNat * 0x8000 + b.toNat * 0x400 + w.toNat * 0x10 + z.toNat * 0x8 + k.toNat * 0x1) rfl rfl (fun x hx => ?_)
  have := d.isLt; have := a.isLt; have := b.isLt; have := w.isLt; have := z.isLt; have := k.isLt
  refine ⟨by omega, by omega, ?_⟩
  show Except.ok (Instr.sra (fld x 20 5) (fld x 15 5) (fld x 10 5) (fld x 4 1) (fld x 3 1) (fld x 0 3)) = _
  rw [fld_eq (x := d) (by omega), fld_eq (x := a) (by omega), fld_eq (x := b) (by omega), fld_eq (x := w) (by omega), fld_eq (x := z) (by omega), fld_eq (x := k) (by omega)]

theorem slt (d a b : BitVec 5) (w z : BitVec 1) (k : BitVec 3) : Statement (.slt d a b w z k) := by
  refine elem_word (k := 0x10) (0x20000000 + d.toNat * 0x100000 + a.toNat * 0x8000 + b.toNat * 0x400 + w.toNat * 0x10 + z.toNat * 0x8 + k.toNat * 0x1) rfl rfl (fun x hx => ?_)
  have := d.isLt; have := a.isLt; have := b.isLt; have := w.isLt; have := z.isLt; have := k.isLt
  refine ⟨by omega, by omega, ?_⟩
  show Except.ok (Instr.slt (fld x 20 5) (fld x 15 5) (fld x 10 5) (fld x 4 1) (fld x 3 1) (fld x 0 3)) = _
  rw [fld_eq (x := d) (by omega), fld_eq (x := a) (by omega), fld_eq (x := b) (by omega), fld_eq (x := w) (by omega), fld_eq (x := z) (by omega), fld_eq (x := k) (by omega)]

theorem sltu (d a b : BitVec 5) (w z : BitVec 1) (k : BitVec 3) : Statement (.sltu d a b w z k) := by
  refine elem_word (k := 0x11) (0x22000000 + d.toNat * 0x100000 + a.toNat * 0x8000 + b.toNat * 0x400 + w.toNat * 0x10 + z.toNat * 0x8 + k.toNat * 0x1) rfl rfl (fun x hx => ?_)
  have := d.isLt; have := a.isLt; have := b.isLt; have := w.isLt; have := z.isLt; have := k.isLt
  refine ⟨by omega, by omega, ?_⟩
  show Except.ok (Instr.sltu (fld x 20 5) (fld x 15 5) (fld x 10 5) (fld x 4 1) (fld x 3 1) (fld x 0 3)) = _
  rw [fld_eq (x := d) (by omega), fld_eq (x := a) (by omega), fld_eq (x := b) (by omega), fld_eq (x := w) (by omega), fld_eq (x := z) (by omega), fld_eq (x := k) (by omega)]

theorem min (d a b : BitVec 5) (w z : BitVec 1) (k : BitVec 3) : Statement (.min d a b w z k) := by
  refine elem_word (k := 0x12) (0x24000000 + d.toNat * 0x100000 + a.toNat * 0x8000 + b.toNat * 0x400 + w.toNat * 0x10 + z.toNat * 0x8 + k.toNat * 0x1) rfl rfl (fun x hx => ?_)
  have := d.isLt; have := a.isLt; have := b.isLt; have := w.isLt; have := z.isLt; have := k.isLt
  refine ⟨by omega, by omega, ?_⟩
  show Except.ok (Instr.min (fld x 20 5) (fld x 15 5) (fld x 10 5) (fld x 4 1) (fld x 3 1) (fld x 0 3)) = _
  rw [fld_eq (x := d) (by omega), fld_eq (x := a) (by omega), fld_eq (x := b) (by omega), fld_eq (x := w) (by omega), fld_eq (x := z) (by omega), fld_eq (x := k) (by omega)]

theorem max (d a b : BitVec 5) (w z : BitVec 1) (k : BitVec 3) : Statement (.max d a b w z k) := by
  refine elem_word (k := 0x13) (0x26000000 + d.toNat * 0x100000 + a.toNat * 0x8000 + b.toNat * 0x400 + w.toNat * 0x10 + z.toNat * 0x8 + k.toNat * 0x1) rfl rfl (fun x hx => ?_)
  have := d.isLt; have := a.isLt; have := b.isLt; have := w.isLt; have := z.isLt; have := k.isLt
  refine ⟨by omega, by omega, ?_⟩
  show Except.ok (Instr.max (fld x 20 5) (fld x 15 5) (fld x 10 5) (fld x 4 1) (fld x 3 1) (fld x 0 3)) = _
  rw [fld_eq (x := d) (by omega), fld_eq (x := a) (by omega), fld_eq (x := b) (by omega), fld_eq (x := w) (by omega), fld_eq (x := z) (by omega), fld_eq (x := k) (by omega)]

theorem adds (d a b : BitVec 5) (w z : BitVec 1) (k : BitVec 3) : Statement (.adds d a b w z k) := by
  refine elem_word (k := 0x14) (0x28000000 + d.toNat * 0x100000 + a.toNat * 0x8000 + b.toNat * 0x400 + w.toNat * 0x10 + z.toNat * 0x8 + k.toNat * 0x1) rfl rfl (fun x hx => ?_)
  have := d.isLt; have := a.isLt; have := b.isLt; have := w.isLt; have := z.isLt; have := k.isLt
  refine ⟨by omega, by omega, ?_⟩
  show Except.ok (Instr.adds (fld x 20 5) (fld x 15 5) (fld x 10 5) (fld x 4 1) (fld x 3 1) (fld x 0 3)) = _
  rw [fld_eq (x := d) (by omega), fld_eq (x := a) (by omega), fld_eq (x := b) (by omega), fld_eq (x := w) (by omega), fld_eq (x := z) (by omega), fld_eq (x := k) (by omega)]

theorem subs (d a b : BitVec 5) (w z : BitVec 1) (k : BitVec 3) : Statement (.subs d a b w z k) := by
  refine elem_word (k := 0x15) (0x2A000000 + d.toNat * 0x100000 + a.toNat * 0x8000 + b.toNat * 0x400 + w.toNat * 0x10 + z.toNat * 0x8 + k.toNat * 0x1) rfl rfl (fun x hx => ?_)
  have := d.isLt; have := a.isLt; have := b.isLt; have := w.isLt; have := z.isLt; have := k.isLt
  refine ⟨by omega, by omega, ?_⟩
  show Except.ok (Instr.subs (fld x 20 5) (fld x 15 5) (fld x 10 5) (fld x 4 1) (fld x 3 1) (fld x 0 3)) = _
  rw [fld_eq (x := d) (by omega), fld_eq (x := a) (by omega), fld_eq (x := b) (by omega), fld_eq (x := w) (by omega), fld_eq (x := z) (by omega), fld_eq (x := k) (by omega)]

theorem fadd (d a b : BitVec 5) (f : BitVec 2) (r : BitVec 3) (w z : BitVec 1) (k : BitVec 3) : Statement (.fadd d a b f r w z k) := by
  refine elem_word (k := 0x16) (0x2C000000 + d.toNat * 0x100000 + a.toNat * 0x8000 + b.toNat * 0x400 + f.toNat * 0x100 + r.toNat * 0x20 + w.toNat * 0x10 + z.toNat * 0x8 + k.toNat * 0x1) rfl rfl (fun x hx => ?_)
  have := d.isLt; have := a.isLt; have := b.isLt; have := f.isLt; have := r.isLt; have := w.isLt; have := z.isLt; have := k.isLt
  refine ⟨by omega, by omega, ?_⟩
  show Except.ok (Instr.fadd (fld x 20 5) (fld x 15 5) (fld x 10 5) (fld x 8 2) (fld x 5 3) (fld x 4 1) (fld x 3 1) (fld x 0 3)) = _
  rw [fld_eq (x := d) (by omega), fld_eq (x := a) (by omega), fld_eq (x := b) (by omega), fld_eq (x := f) (by omega), fld_eq (x := r) (by omega), fld_eq (x := w) (by omega), fld_eq (x := z) (by omega), fld_eq (x := k) (by omega)]

theorem fsub (d a b : BitVec 5) (f : BitVec 2) (r : BitVec 3) (w z : BitVec 1) (k : BitVec 3) : Statement (.fsub d a b f r w z k) := by
  refine elem_word (k := 0x17) (0x2E000000 + d.toNat * 0x100000 + a.toNat * 0x8000 + b.toNat * 0x400 + f.toNat * 0x100 + r.toNat * 0x20 + w.toNat * 0x10 + z.toNat * 0x8 + k.toNat * 0x1) rfl rfl (fun x hx => ?_)
  have := d.isLt; have := a.isLt; have := b.isLt; have := f.isLt; have := r.isLt; have := w.isLt; have := z.isLt; have := k.isLt
  refine ⟨by omega, by omega, ?_⟩
  show Except.ok (Instr.fsub (fld x 20 5) (fld x 15 5) (fld x 10 5) (fld x 8 2) (fld x 5 3) (fld x 4 1) (fld x 3 1) (fld x 0 3)) = _
  rw [fld_eq (x := d) (by omega), fld_eq (x := a) (by omega), fld_eq (x := b) (by omega), fld_eq (x := f) (by omega), fld_eq (x := r) (by omega), fld_eq (x := w) (by omega), fld_eq (x := z) (by omega), fld_eq (x := k) (by omega)]

theorem fmul (d a b : BitVec 5) (f : BitVec 2) (r : BitVec 3) (w z : BitVec 1) (k : BitVec 3) : Statement (.fmul d a b f r w z k) := by
  refine elem_word (k := 0x18) (0x30000000 + d.toNat * 0x100000 + a.toNat * 0x8000 + b.toNat * 0x400 + f.toNat * 0x100 + r.toNat * 0x20 + w.toNat * 0x10 + z.toNat * 0x8 + k.toNat * 0x1) rfl rfl (fun x hx => ?_)
  have := d.isLt; have := a.isLt; have := b.isLt; have := f.isLt; have := r.isLt; have := w.isLt; have := z.isLt; have := k.isLt
  refine ⟨by omega, by omega, ?_⟩
  show Except.ok (Instr.fmul (fld x 20 5) (fld x 15 5) (fld x 10 5) (fld x 8 2) (fld x 5 3) (fld x 4 1) (fld x 3 1) (fld x 0 3)) = _
  rw [fld_eq (x := d) (by omega), fld_eq (x := a) (by omega), fld_eq (x := b) (by omega), fld_eq (x := f) (by omega), fld_eq (x := r) (by omega), fld_eq (x := w) (by omega), fld_eq (x := z) (by omega), fld_eq (x := k) (by omega)]

theorem fdiv (d a b : BitVec 5) (f : BitVec 2) (r : BitVec 3) (w z : BitVec 1) (k : BitVec 3) : Statement (.fdiv d a b f r w z k) := by
  refine elem_word (k := 0x19) (0x32000000 + d.toNat * 0x100000 + a.toNat * 0x8000 + b.toNat * 0x400 + f.toNat * 0x100 + r.toNat * 0x20 + w.toNat * 0x10 + z.toNat * 0x8 + k.toNat * 0x1) rfl rfl (fun x hx => ?_)
  have := d.isLt; have := a.isLt; have := b.isLt; have := f.isLt; have := r.isLt; have := w.isLt; have := z.isLt; have := k.isLt
  refine ⟨by omega, by omega, ?_⟩
  show Except.ok (Instr.fdiv (fld x 20 5) (fld x 15 5) (fld x 10 5) (fld x 8 2) (fld x 5 3) (fld x 4 1) (fld x 3 1) (fld x 0 3)) = _
  rw [fld_eq (x := d) (by omega), fld_eq (x := a) (by omega), fld_eq (x := b) (by omega), fld_eq (x := f) (by omega), fld_eq (x := r) (by omega), fld_eq (x := w) (by omega), fld_eq (x := z) (by omega), fld_eq (x := k) (by omega)]

theorem fmac (d a b : BitVec 5) (f : BitVec 2) (r : BitVec 3) (w z : BitVec 1) (k : BitVec 3) : Statement (.fmac d a b f r w z k) := by
  refine elem_word (k := 0x1A) (0x34000000 + d.toNat * 0x100000 + a.toNat * 0x8000 + b.toNat * 0x400 + f.toNat * 0x100 + r.toNat * 0x20 + w.toNat * 0x10 + z.toNat * 0x8 + k.toNat * 0x1) rfl rfl (fun x hx => ?_)
  have := d.isLt; have := a.isLt; have := b.isLt; have := f.isLt; have := r.isLt; have := w.isLt; have := z.isLt; have := k.isLt
  refine ⟨by omega, by omega, ?_⟩
  show Except.ok (Instr.fmac (fld x 20 5) (fld x 15 5) (fld x 10 5) (fld x 8 2) (fld x 5 3) (fld x 4 1) (fld x 3 1) (fld x 0 3)) = _
  rw [fld_eq (x := d) (by omega), fld_eq (x := a) (by omega), fld_eq (x := b) (by omega), fld_eq (x := f) (by omega), fld_eq (x := r) (by omega), fld_eq (x := w) (by omega), fld_eq (x := z) (by omega), fld_eq (x := k) (by omega)]

theorem fmin (d a b : BitVec 5) (f : BitVec 2) (w z : BitVec 1) (k : BitVec 3) : Statement (.fmin d a b f w z k) := by
  refine elem_word (k := 0x1B) (0x36000000 + d.toNat * 0x100000 + a.toNat * 0x8000 + b.toNat * 0x400 + f.toNat * 0x100 + w.toNat * 0x10 + z.toNat * 0x8 + k.toNat * 0x1) rfl rfl (fun x hx => ?_)
  have := d.isLt; have := a.isLt; have := b.isLt; have := f.isLt; have := w.isLt; have := z.isLt; have := k.isLt
  refine ⟨by omega, by omega, ?_⟩
  show Except.ok (Instr.fmin (fld x 20 5) (fld x 15 5) (fld x 10 5) (fld x 8 2) (fld x 4 1) (fld x 3 1) (fld x 0 3)) = _
  rw [fld_eq (x := d) (by omega), fld_eq (x := a) (by omega), fld_eq (x := b) (by omega), fld_eq (x := f) (by omega), fld_eq (x := w) (by omega), fld_eq (x := z) (by omega), fld_eq (x := k) (by omega)]

theorem fmax (d a b : BitVec 5) (f : BitVec 2) (w z : BitVec 1) (k : BitVec 3) : Statement (.fmax d a b f w z k) := by
  refine elem_word (k := 0x1C) (0x38000000 + d.toNat * 0x100000 + a.toNat * 0x8000 + b.toNat * 0x400 + f.toNat * 0x100 + w.toNat * 0x10 + z.toNat * 0x8 + k.toNat * 0x1) rfl rfl (fun x hx => ?_)
  have := d.isLt; have := a.isLt; have := b.isLt; have := f.isLt; have := w.isLt; have := z.isLt; have := k.isLt
  refine ⟨by omega, by omega, ?_⟩
  show Except.ok (Instr.fmax (fld x 20 5) (fld x 15 5) (fld x 10 5) (fld x 8 2) (fld x 4 1) (fld x 3 1) (fld x 0 3)) = _
  rw [fld_eq (x := d) (by omega), fld_eq (x := a) (by omega), fld_eq (x := b) (by omega), fld_eq (x := f) (by omega), fld_eq (x := w) (by omega), fld_eq (x := z) (by omega), fld_eq (x := k) (by omega)]

theorem fsqrt (d a : BitVec 5) (f : BitVec 2) (r : BitVec 3) (w z : BitVec 1) (k : BitVec 3) : Statement (.fsqrt d a f r w z k) := by
  refine elem_word (k := 0x1D) (0x3A000000 + d.toNat * 0x100000 + a.toNat * 0x8000 + f.toNat * 0x100 + r.toNat * 0x20 + w.toNat * 0x10 + z.toNat * 0x8 + k.toNat * 0x1) rfl rfl (fun x hx => ?_)
  have := d.isLt; have := a.isLt; have := f.isLt; have := r.isLt; have := w.isLt; have := z.isLt; have := k.isLt
  refine ⟨by omega, by omega, ?_⟩
  show Except.ok (Instr.fsqrt (fld x 20 5) (fld x 15 5) (fld x 8 2) (fld x 5 3) (fld x 4 1) (fld x 3 1) (fld x 0 3)) = _
  rw [fld_eq (x := d) (by omega), fld_eq (x := a) (by omega), fld_eq (x := f) (by omega), fld_eq (x := r) (by omega), fld_eq (x := w) (by omega), fld_eq (x := z) (by omega), fld_eq (x := k) (by omega)]

theorem feq (d a b : BitVec 5) (f : BitVec 2) (w z : BitVec 1) (k : BitVec 3) : Statement (.feq d a b f w z k) := by
  refine elem_word (k := 0x1E) (0x3C000000 + d.toNat * 0x100000 + a.toNat * 0x8000 + b.toNat * 0x400 + f.toNat * 0x100 + w.toNat * 0x10 + z.toNat * 0x8 + k.toNat * 0x1) rfl rfl (fun x hx => ?_)
  have := d.isLt; have := a.isLt; have := b.isLt; have := f.isLt; have := w.isLt; have := z.isLt; have := k.isLt
  refine ⟨by omega, by omega, ?_⟩
  show Except.ok (Instr.feq (fld x 20 5) (fld x 15 5) (fld x 10 5) (fld x 8 2) (fld x 4 1) (fld x 3 1) (fld x 0 3)) = _
  rw [fld_eq (x := d) (by omega), fld_eq (x := a) (by omega), fld_eq (x := b) (by omega), fld_eq (x := f) (by omega), fld_eq (x := w) (by omega), fld_eq (x := z) (by omega), fld_eq (x := k) (by omega)]

theorem flt (d a b : BitVec 5) (f : BitVec 2) (w z : BitVec 1) (k : BitVec 3) : Statement (.flt d a b f w z k) := by
  refine elem_word (k := 0x1F) (0x3E000000 + d.toNat * 0x100000 + a.toNat * 0x8000 + b.toNat * 0x400 + f.toNat * 0x100 + w.toNat * 0x10 + z.toNat * 0x8 + k.toNat * 0x1) rfl rfl (fun x hx => ?_)
  have := d.isLt; have := a.isLt; have := b.isLt; have := f.isLt; have := w.isLt; have := z.isLt; have := k.isLt
  refine ⟨by omega, by omega, ?_⟩
  show Except.ok (Instr.flt (fld x 20 5) (fld x 15 5) (fld x 10 5) (fld x 8 2) (fld x 4 1) (fld x 3 1) (fld x 0 3)) = _
  rw [fld_eq (x := d) (by omega), fld_eq (x := a) (by omega), fld_eq (x := b) (by omega), fld_eq (x := f) (by omega), fld_eq (x := w) (by omega), fld_eq (x := z) (by omega), fld_eq (x := k) (by omega)]

theorem fle (d a b : BitVec 5) (f : BitVec 2) (w z : BitVec 1) (k : BitVec 3) : Statement (.fle d a b f w z k) := by
  refine elem_word (k := 0x20) (0x40000000 + d.toNat * 0x100000 + a.toNat * 0x8000 + b.toNat * 0x400 + f.toNat * 0x100 + w.toNat * 0x10 + z.toNat * 0x8 + k.toNat * 0x1) rfl rfl (fun x hx => ?_)
  have := d.isLt; have := a.isLt; have := b.isLt; have := f.isLt; have := w.isLt; have := z.isLt; have := k.isLt
  refine ⟨by omega, by omega, ?_⟩
  show Except.ok (Instr.fle (fld x 20 5) (fld x 15 5) (fld x 10 5) (fld x 8 2) (fld x 4 1) (fld x 3 1) (fld x 0 3)) = _
  rw [fld_eq (x := d) (by omega), fld_eq (x := a) (by omega), fld_eq (x := b) (by omega), fld_eq (x := f) (by omega), fld_eq (x := w) (by omega), fld_eq (x := z) (by omega), fld_eq (x := k) (by omega)]

theorem mov (d a : BitVec 5) (w z : BitVec 1) (k : BitVec 3) : Statement (.mov d a w z k) := by
  refine elem_word (k := 0x21) (0x42000000 + d.toNat * 0x100000 + a.toNat * 0x8000 + w.toNat * 0x10 + z.toNat * 0x8 + k.toNat * 0x1) rfl rfl (fun x hx => ?_)
  have := d.isLt; have := a.isLt; have := w.isLt; have := z.isLt; have := k.isLt
  refine ⟨by omega, by omega, ?_⟩
  show Except.ok (Instr.mov (fld x 20 5) (fld x 15 5) (fld x 4 1) (fld x 3 1) (fld x 0 3)) = _
  rw [fld_eq (x := d) (by omega), fld_eq (x := a) (by omega), fld_eq (x := w) (by omega), fld_eq (x := z) (by omega), fld_eq (x := k) (by omega)]

theorem sel (d a b c : BitVec 5) (w z : BitVec 1) (k : BitVec 3) : Statement (.sel d a b c w z k) := by
  refine elem_word (k := 0x22) (0x44000000 + d.toNat * 0x100000 + a.toNat * 0x8000 + b.toNat * 0x400 + c.toNat * 0x20 + w.toNat * 0x10 + z.toNat * 0x8 + k.toNat * 0x1) rfl rfl (fun x hx => ?_)
  have := d.isLt; have := a.isLt; have := b.isLt; have := c.isLt; have := w.isLt; have := z.isLt; have := k.isLt
  refine ⟨by omega, by omega, ?_⟩
  show Except.ok (Instr.sel (fld x 20 5) (fld x 15 5) (fld x 10 5) (fld x 5 5) (fld x 4 1) (fld x 3 1) (fld x 0 3)) = _
  rw [fld_eq (x := d) (by omega), fld_eq (x := a) (by omega), fld_eq (x := b) (by omega), fld_eq (x := c) (by omega), fld_eq (x := w) (by omega), fld_eq (x := z) (by omega), fld_eq (x := k) (by omega)]

theorem lbc (a : BitVec 5) (s : BitVec 1) (c : BitVec 4) : Statement (.lbc a s c) := by
  refine elem_word (k := 0x23) (0x46000000 + a.toNat * 0x8000 + s.toNat * 0x200 + c.toNat * 0x20) rfl rfl (fun x hx => ?_)
  have := a.isLt; have := s.isLt; have := c.isLt
  refine ⟨by omega, by omega, ?_⟩
  show Except.ok (Instr.lbc (fld x 15 5) (fld x 9 1) (fld x 5 4)) = _
  rw [fld_eq (x := a) (by omega), fld_eq (x := s) (by omega), fld_eq (x := c) (by omega)]

theorem lext (d a : BitVec 5) (s : BitVec 1) (c : BitVec 4) : Statement (.lext d a s c) := by
  refine elem_word (k := 0x24) (0x48000000 + d.toNat * 0x100000 + a.toNat * 0x8000 + s.toNat * 0x200 + c.toNat * 0x20) rfl rfl (fun x hx => ?_)
  have := d.isLt; have := a.isLt; have := s.isLt; have := c.isLt
  refine ⟨by omega, by omega, ?_⟩
  show Except.ok (Instr.lext (fld x 20 5) (fld x 15 5) (fld x 9 1) (fld x 5 4)) = _
  rw [fld_eq (x := d) (by omega), fld_eq (x := a) (by omega), fld_eq (x := s) (by omega), fld_eq (x := c) (by omega)]

theorem lins (a b : BitVec 5) (c : BitVec 4) : Statement (.lins a b c) := by
  refine elem_word (k := 0x25) (0x4A000000 + a.toNat * 0x8000 + b.toNat * 0x400 + c.toNat * 0x20) rfl rfl (fun x hx => ?_)
  have := a.isLt; have := b.isLt; have := c.isLt
  refine ⟨by omega, by omega, ?_⟩
  show Except.ok (Instr.lins (fld x 15 5) (fld x 10 5) (fld x 5 4)) = _
  rw [fld_eq (x := a) (by omega), fld_eq (x := b) (by omega), fld_eq (x := c) (by omega)]

theorem pack (d a b : BitVec 5) (s : BitVec 1) (w : BitVec 2) (z : BitVec 1) (k : BitVec 3) : Statement (.pack d a b s w z k) := by
  refine elem_word (k := 0x26) (0x4C000010 + d.toNat * 0x100000 + a.toNat * 0x8000 + b.toNat * 0x400 + s.toNat * 0x100 + w.toNat * 0x20 + z.toNat * 0x8 + k.toNat * 0x1) rfl rfl (fun x hx => ?_)
  have := d.isLt; have := a.isLt; have := b.isLt; have := s.isLt; have := w.isLt; have := z.isLt; have := k.isLt
  refine ⟨by omega, by omega, ?_⟩
  show Except.ok (Instr.pack (fld x 20 5) (fld x 15 5) (fld x 10 5) (fld x 8 1) (fld x 5 2) (fld x 3 1) (fld x 0 3)) = _
  rw [fld_eq (x := d) (by omega), fld_eq (x := a) (by omega), fld_eq (x := b) (by omega), fld_eq (x := s) (by omega), fld_eq (x := w) (by omega), fld_eq (x := z) (by omega), fld_eq (x := k) (by omega)]

theorem unpk (d a : BitVec 5) (h s : BitVec 1) (w : BitVec 2) (z : BitVec 1) (k : BitVec 3) : Statement (.unpk d a h s w z k) := by
  refine elem_word (k := 0x27) (0x4E000010 + d.toNat * 0x100000 + a.toNat * 0x8000 + h.toNat * 0x200 + s.toNat * 0x100 + w.toNat * 0x20 + z.toNat * 0x8 + k.toNat * 0x1) rfl rfl (fun x hx => ?_)
  have := d.isLt; have := a.isLt; have := h.isLt; have := s.isLt; have := w.isLt; have := z.isLt; have := k.isLt
  refine ⟨by omega, by omega, ?_⟩
  show Except.ok (Instr.unpk (fld x 20 5) (fld x 15 5) (fld x 9 1) (fld x 8 1) (fld x 5 2) (fld x 3 1) (fld x 0 3)) = _
  rw [fld_eq (x := d) (by omega), fld_eq (x := a) (by omega), fld_eq (x := h) (by omega), fld_eq (x := s) (by omega), fld_eq (x := w) (by omega), fld_eq (x := z) (by omega), fld_eq (x := k) (by omega)]

theorem mlane (a b : BitVec 5) (c : BitVec 2) (n : BitVec 3) (z : BitVec 1) (k : BitVec 3) : Statement (.mlane a b c n z k) := by
  refine elem_word (k := 0x28) (0x50000010 + a.toNat * 0x8000 + b.toNat * 0x400 + c.toNat * 0x100 + n.toNat * 0x20 + z.toNat * 0x8 + k.toNat * 0x1) rfl rfl (fun x hx => ?_)
  have := a.isLt; have := b.isLt; have := c.isLt; have := n.isLt; have := z.isLt; have := k.isLt
  refine ⟨by omega, by omega, ?_⟩
  show Except.ok (Instr.mlane (fld x 15 5) (fld x 10 5) (fld x 8 2) (fld x 5 3) (fld x 3 1) (fld x 0 3)) = _
  rw [fld_eq (x := a) (by omega), fld_eq (x := b) (by omega), fld_eq (x := c) (by omega), fld_eq (x := n) (by omega), fld_eq (x := z) (by omega), fld_eq (x := k) (by omega)]

theorem mset (a : BitVec 5) (n : BitVec 3) : Statement (.mset a n) := by
  refine elem_word (k := 0x29) (0x52000000 + a.toNat * 0x8000 + n.toNat * 0x20) rfl rfl (fun x hx => ?_)
  have := a.isLt; have := n.isLt
  refine ⟨by omega, by omega, ?_⟩
  show Except.ok (Instr.mset (fld x 15 5) (fld x 5 3)) = _
  rw [fld_eq (x := a) (by omega), fld_eq (x := n) (by omega)]

theorem mget (d : BitVec 5) (n : BitVec 3) : Statement (.mget d n) := by
  refine elem_word (k := 0x2A) (0x54000000 + d.toNat * 0x100000 + n.toNat * 0x20) rfl rfl (fun x hx => ?_)
  have := d.isLt; have := n.isLt
  refine ⟨by omega, by omega, ?_⟩
  show Except.ok (Instr.mget (fld x 20 5) (fld x 5 3)) = _
  rw [fld_eq (x := d) (by omega), fld_eq (x := n) (by omega)]

theorem sprd (d c : BitVec 5) : Statement (.sprd d c) := by
  refine elem_word (k := 0x2B) (0x56000000 + d.toNat * 0x100000 + c.toNat * 0x20) rfl rfl (fun x hx => ?_)
  have := d.isLt; have := c.isLt
  refine ⟨by omega, by omega, ?_⟩
  show Except.ok (Instr.sprd (fld x 20 5) (fld x 5 5)) = _
  rw [fld_eq (x := d) (by omega), fld_eq (x := c) (by omega)]

theorem spwr (a c : BitVec 5) : Statement (.spwr a c) := by
  refine elem_word (k := 0x2C) (0x58000000 + a.toNat * 0x8000 + c.toNat * 0x20) rfl rfl (fun x hx => ?_)
  have := a.isLt; have := c.isLt
  refine ⟨by omega, by omega, ?_⟩
  show Except.ok (Instr.spwr (fld x 15 5) (fld x 5 5)) = _
  rw [fld_eq (x := a) (by omega), fld_eq (x := c) (by omega)]

theorem take (d a : BitVec 5) (l : BitVec 3) : Statement (.take d a l) := by
  refine elem_word (k := 0x2D) (0x5A000000 + d.toNat * 0x100000 + a.toNat * 0x8000 + l.toNat * 0x20) rfl rfl (fun x hx => ?_)
  have := d.isLt; have := a.isLt; have := l.isLt
  refine ⟨by omega, by omega, ?_⟩
  show Except.ok (Instr.take (fld x 20 5) (fld x 15 5) (fld x 5 3)) = _
  rw [fld_eq (x := d) (by omega), fld_eq (x := a) (by omega), fld_eq (x := l) (by omega)]

theorem peek (d a : BitVec 5) (l : BitVec 3) : Statement (.peek d a l) := by
  refine elem_word (k := 0x2E) (0x5C000000 + d.toNat * 0x100000 + a.toNat * 0x8000 + l.toNat * 0x20) rfl rfl (fun x hx => ?_)
  have := d.isLt; have := a.isLt; have := l.isLt
  refine ⟨by omega, by omega, ?_⟩
  show Except.ok (Instr.peek (fld x 20 5) (fld x 15 5) (fld x 5 3)) = _
  rw [fld_eq (x := d) (by omega), fld_eq (x := a) (by omega), fld_eq (x := l) (by omega)]

theorem adv (a n : BitVec 5) : Statement (.adv a n) := by
  refine elem_word (k := 0x2F) (0x5E000000 + a.toNat * 0x8000 + n.toNat * 0x20) rfl rfl (fun x hx => ?_)
  have := a.isLt; have := n.isLt
  refine ⟨by omega, by omega, ?_⟩
  show Except.ok (Instr.adv (fld x 15 5) (fld x 5 5)) = _
  rw [fld_eq (x := a) (by omega), fld_eq (x := n) (by omega)]

theorem emit (d a : BitVec 5) : Statement (.emit d a) := by
  refine elem_word (k := 0x30) (0x60000000 + d.toNat * 0x100000 + a.toNat * 0x8000) rfl rfl (fun x hx => ?_)
  have := d.isLt; have := a.isLt
  refine ⟨by omega, by omega, ?_⟩
  show Except.ok (Instr.emit (fld x 20 5) (fld x 15 5)) = _
  rw [fld_eq (x := d) (by omega), fld_eq (x := a) (by omega)]

theorem waitf (d a n : BitVec 5) : Statement (.waitf d a n) := by
  refine elem_word (k := 0x31) (0x62000000 + d.toNat * 0x100000 + a.toNat * 0x8000 + n.toNat * 0x20) rfl rfl (fun x hx => ?_)
  have := d.isLt; have := a.isLt; have := n.isLt
  refine ⟨by omega, by omega, ?_⟩
  show Except.ok (Instr.waitf (fld x 20 5) (fld x 15 5) (fld x 5 5)) = _
  rw [fld_eq (x := d) (by omega), fld_eq (x := a) (by omega), fld_eq (x := n) (by omega)]

theorem waite (d a n : BitVec 5) : Statement (.waite d a n) := by
  refine elem_word (k := 0x32) (0x64000000 + d.toNat * 0x100000 + a.toNat * 0x8000 + n.toNat * 0x20) rfl rfl (fun x hx => ?_)
  have := d.isLt; have := a.isLt; have := n.isLt
  refine ⟨by omega, by omega, ?_⟩
  show Except.ok (Instr.waite (fld x 20 5) (fld x 15 5) (fld x 5 5)) = _
  rw [fld_eq (x := d) (by omega), fld_eq (x := a) (by omega), fld_eq (x := n) (by omega)]

theorem rrot (d a b : BitVec 5) (k : BitVec 1) : Statement (.rrot d a b k) := by
  refine elem_word (k := 0x33) (0x66000000 + d.toNat * 0x100000 + a.toNat * 0x8000 + b.toNat * 0x400 + k.toNat * 0x20) rfl rfl (fun x hx => ?_)
  have := d.isLt; have := a.isLt; have := b.isLt; have := k.isLt
  refine ⟨by omega, by omega, ?_⟩
  show Except.ok (Instr.rrot (fld x 20 5) (fld x 15 5) (fld x 10 5) (fld x 5 1)) = _
  rw [fld_eq (x := d) (by omega), fld_eq (x := a) (by omega), fld_eq (x := b) (by omega), fld_eq (x := k) (by omega)]

theorem lgen (d a b : BitVec 5) (t : BitVec 2) : Statement (.lgen d a b t) := by
  refine elem_word (k := 0x34) (0x68000000 + d.toNat * 0x100000 + a.toNat * 0x8000 + b.toNat * 0x400 + t.toNat * 0x20) rfl rfl (fun x hx => ?_)
  have := d.isLt; have := a.isLt; have := b.isLt; have := t.isLt
  refine ⟨by omega, by omega, ?_⟩
  show Except.ok (Instr.lgen (fld x 20 5) (fld x 15 5) (fld x 10 5) (fld x 5 2)) = _
  rw [fld_eq (x := d) (by omega), fld_eq (x := a) (by omega), fld_eq (x := b) (by omega), fld_eq (x := t) (by omega)]

theorem tcmp (d a b : BitVec 5) : Statement (.tcmp d a b) := by
  refine elem_word (k := 0x35) (0x6A000000 + d.toNat * 0x100000 + a.toNat * 0x8000 + b.toNat * 0x400) rfl rfl (fun x hx => ?_)
  have := d.isLt; have := a.isLt; have := b.isLt
  refine ⟨by omega, by omega, ?_⟩
  show pickTime (x / 2 ^ 5 % 2 ^ 2) x = _
  rw [show x / 2 ^ 5 % 2 ^ 2 = 0 by omega]
  show Except.ok (Instr.tcmp (fld x 20 5) (fld x 15 5) (fld x 10 5)) = _
  rw [fld_eq (x := d) (by omega), fld_eq (x := a) (by omega), fld_eq (x := b) (by omega)]

theorem tjoin (d a b : BitVec 5) : Statement (.tjoin d a b) := by
  refine elem_word (k := 0x35) (0x6A000020 + d.toNat * 0x100000 + a.toNat * 0x8000 + b.toNat * 0x400) rfl rfl (fun x hx => ?_)
  have := d.isLt; have := a.isLt; have := b.isLt
  refine ⟨by omega, by omega, ?_⟩
  show pickTime (x / 2 ^ 5 % 2 ^ 2) x = _
  rw [show x / 2 ^ 5 % 2 ^ 2 = 1 by omega]
  show Except.ok (Instr.tjoin (fld x 20 5) (fld x 15 5) (fld x 10 5)) = _
  rw [fld_eq (x := d) (by omega), fld_eq (x := a) (by omega), fld_eq (x := b) (by omega)]

theorem tmeet (d a b : BitVec 5) : Statement (.tmeet d a b) := by
  refine elem_word (k := 0x35) (0x6A000040 + d.toNat * 0x100000 + a.toNat * 0x8000 + b.toNat * 0x400) rfl rfl (fun x hx => ?_)
  have := d.isLt; have := a.isLt; have := b.isLt
  refine ⟨by omega, by omega, ?_⟩
  show pickTime (x / 2 ^ 5 % 2 ^ 2) x = _
  rw [show x / 2 ^ 5 % 2 ^ 2 = 2 by omega]
  show Except.ok (Instr.tmeet (fld x 20 5) (fld x 15 5) (fld x 10 5)) = _
  rw [fld_eq (x := d) (by omega), fld_eq (x := a) (by omega), fld_eq (x := b) (by omega)]

theorem tadv (d a b : BitVec 5) : Statement (.tadv d a b) := by
  refine elem_word (k := 0x35) (0x6A000060 + d.toNat * 0x100000 + a.toNat * 0x8000 + b.toNat * 0x400) rfl rfl (fun x hx => ?_)
  have := d.isLt; have := a.isLt; have := b.isLt
  refine ⟨by omega, by omega, ?_⟩
  show pickTime (x / 2 ^ 5 % 2 ^ 2) x = _
  rw [show x / 2 ^ 5 % 2 ^ 2 = 3 by omega]
  show Except.ok (Instr.tadv (fld x 20 5) (fld x 15 5) (fld x 10 5)) = _
  rw [fld_eq (x := d) (by omega), fld_eq (x := a) (by omega), fld_eq (x := b) (by omega)]

theorem frd (d a : BitVec 5) : Statement (.frd d a) := by
  refine elem_word (k := 0x36) (0x6C000000 + d.toNat * 0x100000 + a.toNat * 0x8000) rfl rfl (fun x hx => ?_)
  have := d.isLt; have := a.isLt
  refine ⟨by omega, by omega, ?_⟩
  show pickFrd (x / 2 ^ 9 % 2 ^ 1) x = _
  rw [show x / 2 ^ 9 % 2 ^ 1 = 0 by omega]
  show Except.ok (Instr.frd (fld x 20 5) (fld x 15 5)) = _
  rw [fld_eq (x := d) (by omega), fld_eq (x := a) (by omega)]

theorem frdCnt (d a : BitVec 5) : Statement (.frdCnt d a) := by
  refine elem_word (k := 0x36) (0x6C000200 + d.toNat * 0x100000 + a.toNat * 0x8000) rfl rfl (fun x hx => ?_)
  have := d.isLt; have := a.isLt
  refine ⟨by omega, by omega, ?_⟩
  show pickFrd (x / 2 ^ 9 % 2 ^ 1) x = _
  rw [show x / 2 ^ 9 % 2 ^ 1 = 1 by omega]
  show Except.ok (Instr.frdCnt (fld x 20 5) (fld x 15 5)) = _
  rw [fld_eq (x := d) (by omega), fld_eq (x := a) (by omega)]

theorem fwait (d a : BitVec 5) : Statement (.fwait d a) := by
  refine elem_word (k := 0x37) (0x6E000000 + d.toNat * 0x100000 + a.toNat * 0x8000) rfl rfl (fun x hx => ?_)
  have := d.isLt; have := a.isLt
  refine ⟨by omega, by omega, ?_⟩
  show Except.ok (Instr.fwait (fld x 20 5) (fld x 15 5)) = _
  rw [fld_eq (x := d) (by omega), fld_eq (x := a) (by omega)]

theorem caph (d a : BitVec 5) : Statement (.caph d a) := by
  refine elem_word (k := 0x38) (0x70000000 + d.toNat * 0x100000 + a.toNat * 0x8000) rfl rfl (fun x hx => ?_)
  have := d.isLt; have := a.isLt
  refine ⟨by omega, by omega, ?_⟩
  show pickCap (x / 2 ^ 5 % 2 ^ 5) x = _
  rw [show x / 2 ^ 5 % 2 ^ 5 = 0 by omega]
  show Except.ok (Instr.caph (fld x 20 5) (fld x 15 5)) = _
  rw [fld_eq (x := d) (by omega), fld_eq (x := a) (by omega)]

theorem capd (d a : BitVec 5) : Statement (.capd d a) := by
  refine elem_word (k := 0x38) (0x70000020 + d.toNat * 0x100000 + a.toNat * 0x8000) rfl rfl (fun x hx => ?_)
  have := d.isLt; have := a.isLt
  refine ⟨by omega, by omega, ?_⟩
  show pickCap (x / 2 ^ 5 % 2 ^ 5) x = _
  rw [show x / 2 ^ 5 % 2 ^ 5 = 1 by omega]
  show Except.ok (Instr.capd (fld x 20 5) (fld x 15 5)) = _
  rw [fld_eq (x := d) (by omega), fld_eq (x := a) (by omega)]

theorem capx (d a b : BitVec 5) : Statement (.capx d a b) := by
  refine elem_word (k := 0x38) (0x70000040 + d.toNat * 0x100000 + a.toNat * 0x8000 + b.toNat * 0x400) rfl rfl (fun x hx => ?_)
  have := d.isLt; have := a.isLt; have := b.isLt
  refine ⟨by omega, by omega, ?_⟩
  show pickCap (x / 2 ^ 5 % 2 ^ 5) x = _
  rw [show x / 2 ^ 5 % 2 ^ 5 = 2 by omega]
  show Except.ok (Instr.capx (fld x 20 5) (fld x 15 5) (fld x 10 5)) = _
  rw [fld_eq (x := d) (by omega), fld_eq (x := a) (by omega), fld_eq (x := b) (by omega)]

theorem ains (d a b c : BitVec 5) : Statement (.ains d a b c) := by
  refine elem_word (k := 0x39) (0x72000000 + d.toNat * 0x100000 + a.toNat * 0x8000 + b.toNat * 0x400 + c.toNat * 0x20) rfl rfl (fun x hx => ?_)
  have := d.isLt; have := a.isLt; have := b.isLt; have := c.isLt
  refine ⟨by omega, by omega, ?_⟩
  show Except.ok (Instr.ains (fld x 20 5) (fld x 15 5) (fld x 10 5) (fld x 5 5)) = _
  rw [fld_eq (x := d) (by omega), fld_eq (x := a) (by omega), fld_eq (x := b) (by omega), fld_eq (x := c) (by omega)]

theorem amrg (d a b : BitVec 5) : Statement (.amrg d a b) := by
  refine elem_word (k := 0x3A) (0x74000000 + d.toNat * 0x100000 + a.toNat * 0x8000 + b.toNat * 0x400) rfl rfl (fun x hx => ?_)
  have := d.isLt; have := a.isLt; have := b.isLt
  refine ⟨by omega, by omega, ?_⟩
  show Except.ok (Instr.amrg (fld x 20 5) (fld x 15 5) (fld x 10 5)) = _
  rw [fld_eq (x := d) (by omega), fld_eq (x := a) (by omega), fld_eq (x := b) (by omega)]

theorem aprb (d a b : BitVec 5) (p : BitVec 2) : Statement (.aprb d a b p) := by
  refine elem_word (k := 0x3B) (0x76000000 + d.toNat * 0x100000 + a.toNat * 0x8000 + b.toNat * 0x400 + p.toNat * 0x20) rfl rfl (fun x hx => ?_)
  have := d.isLt; have := a.isLt; have := b.isLt; have := p.isLt
  refine ⟨by omega, by omega, ?_⟩
  show Except.ok (Instr.aprb (fld x 20 5) (fld x 15 5) (fld x 10 5) (fld x 5 2)) = _
  rw [fld_eq (x := d) (by omega), fld_eq (x := a) (by omega), fld_eq (x := b) (by omega), fld_eq (x := p) (by omega)]

theorem acmp (d a b : BitVec 5) : Statement (.acmp d a b) := by
  refine elem_word (k := 0x3C) (0x78000000 + d.toNat * 0x100000 + a.toNat * 0x8000 + b.toNat * 0x400) rfl rfl (fun x hx => ?_)
  have := d.isLt; have := a.isLt; have := b.isLt
  refine ⟨by omega, by omega, ?_⟩
  show Except.ok (Instr.acmp (fld x 20 5) (fld x 15 5) (fld x 10 5)) = _
  rw [fld_eq (x := d) (by omega), fld_eq (x := a) (by omega), fld_eq (x := b) (by omega)]

theorem acon (d a b : BitVec 5) : Statement (.acon d a b) := by
  refine elem_word (k := 0x3D) (0x7A000000 + d.toNat * 0x100000 + a.toNat * 0x8000 + b.toNat * 0x400) rfl rfl (fun x hx => ?_)
  have := d.isLt; have := a.isLt; have := b.isLt
  refine ⟨by omega, by omega, ?_⟩
  show Except.ok (Instr.acon (fld x 20 5) (fld x 15 5) (fld x 10 5)) = _
  rw [fld_eq (x := d) (by omega), fld_eq (x := a) (by omega), fld_eq (x := b) (by omega)]

theorem join (d a b : BitVec 5) (v : BitVec 1) (k p : BitVec 2) : Statement (.join d a b v k p) := by
  refine elem_word (k := 0x3E) (0x7C000000 + d.toNat * 0x100000 + a.toNat * 0x8000 + b.toNat * 0x400 + v.toNat * 0x200 + k.toNat * 0x80 + p.toNat * 0x20) rfl rfl (fun x hx => ?_)
  have := d.isLt; have := a.isLt; have := b.isLt; have := v.isLt; have := k.isLt; have := p.isLt
  refine ⟨by omega, by omega, ?_⟩
  show Except.ok (Instr.join (fld x 20 5) (fld x 15 5) (fld x 10 5) (fld x 9 1) (fld x 7 2) (fld x 5 2)) = _
  rw [fld_eq (x := d) (by omega), fld_eq (x := a) (by omega), fld_eq (x := b) (by omega), fld_eq (x := v) (by omega), fld_eq (x := k) (by omega), fld_eq (x := p) (by omega)]

theorem red (d a b : BitVec 5) (k : BitVec 3) (p : BitVec 2) : Statement (.red d a b k p) := by
  refine elem_word (k := 0x3F) (0x7E000000 + d.toNat * 0x100000 + a.toNat * 0x8000 + b.toNat * 0x400 + k.toNat * 0x80 + p.toNat * 0x20) rfl rfl (fun x hx => ?_)
  have := d.isLt; have := a.isLt; have := b.isLt; have := k.isLt; have := p.isLt
  refine ⟨by omega, by omega, ?_⟩
  show Except.ok (Instr.red (fld x 20 5) (fld x 15 5) (fld x 10 5) (fld x 7 3) (fld x 5 2)) = _
  rw [fld_eq (x := d) (by omega), fld_eq (x := a) (by omega), fld_eq (x := b) (by omega), fld_eq (x := k) (by omega), fld_eq (x := p) (by omega)]

theorem wrel (d a b : BitVec 5) : Statement (.wrel d a b) := by
  refine elem_word (k := 0x40) (0x80000000 + d.toNat * 0x100000 + a.toNat * 0x8000 + b.toNat * 0x400) rfl rfl (fun x hx => ?_)
  have := d.isLt; have := a.isLt; have := b.isLt
  refine ⟨by omega, by omega, ?_⟩
  show Except.ok (Instr.wrel (fld x 20 5) (fld x 15 5) (fld x 10 5)) = _
  rw [fld_eq (x := d) (by omega), fld_eq (x := a) (by omega), fld_eq (x := b) (by omega)]

theorem aadd (d a b : BitVec 5) (r w : BitVec 1) (s : BitVec 3) : Statement (.aadd d a b r w s) := by
  refine elem_word (k := 0x41) (0x82000000 + d.toNat * 0x100000 + a.toNat * 0x8000 + b.toNat * 0x400 + r.toNat * 0x200 + w.toNat * 0x100 + s.toNat * 0x1) rfl rfl (fun x hx => ?_)
  have := d.isLt; have := a.isLt; have := b.isLt; have := r.isLt; have := w.isLt; have := s.isLt
  refine ⟨by omega, by omega, ?_⟩
  show pickAtom (x / 2 ^ 5 % 2 ^ 3) x = _
  rw [show x / 2 ^ 5 % 2 ^ 3 = 0 by omega]
  show Except.ok (Instr.aadd (fld x 20 5) (fld x 15 5) (fld x 10 5) (fld x 9 1) (fld x 8 1) (fld x 0 3)) = _
  rw [fld_eq (x := d) (by omega), fld_eq (x := a) (by omega), fld_eq (x := b) (by omega), fld_eq (x := r) (by omega), fld_eq (x := w) (by omega), fld_eq (x := s) (by omega)]

theorem amin (d a b : BitVec 5) (r w : BitVec 1) (s : BitVec 3) : Statement (.amin d a b r w s) := by
  refine elem_word (k := 0x41) (0x82000020 + d.toNat * 0x100000 + a.toNat * 0x8000 + b.toNat * 0x400 + r.toNat * 0x200 + w.toNat * 0x100 + s.toNat * 0x1) rfl rfl (fun x hx => ?_)
  have := d.isLt; have := a.isLt; have := b.isLt; have := r.isLt; have := w.isLt; have := s.isLt
  refine ⟨by omega, by omega, ?_⟩
  show pickAtom (x / 2 ^ 5 % 2 ^ 3) x = _
  rw [show x / 2 ^ 5 % 2 ^ 3 = 1 by omega]
  show Except.ok (Instr.amin (fld x 20 5) (fld x 15 5) (fld x 10 5) (fld x 9 1) (fld x 8 1) (fld x 0 3)) = _
  rw [fld_eq (x := d) (by omega), fld_eq (x := a) (by omega), fld_eq (x := b) (by omega), fld_eq (x := r) (by omega), fld_eq (x := w) (by omega), fld_eq (x := s) (by omega)]

theorem amax (d a b : BitVec 5) (r w : BitVec 1) (s : BitVec 3) : Statement (.amax d a b r w s) := by
  refine elem_word (k := 0x41) (0x82000040 + d.toNat * 0x100000 + a.toNat * 0x8000 + b.toNat * 0x400 + r.toNat * 0x200 + w.toNat * 0x100 + s.toNat * 0x1) rfl rfl (fun x hx => ?_)
  have := d.isLt; have := a.isLt; have := b.isLt; have := r.isLt; have := w.isLt; have := s.isLt
  refine ⟨by omega, by omega, ?_⟩
  show pickAtom (x / 2 ^ 5 % 2 ^ 3) x = _
  rw [show x / 2 ^ 5 % 2 ^ 3 = 2 by omega]
  show Except.ok (Instr.amax (fld x 20 5) (fld x 15 5) (fld x 10 5) (fld x 9 1) (fld x 8 1) (fld x 0 3)) = _
  rw [fld_eq (x := d) (by omega), fld_eq (x := a) (by omega), fld_eq (x := b) (by omega), fld_eq (x := r) (by omega), fld_eq (x := w) (by omega), fld_eq (x := s) (by omega)]

theorem aand (d a b : BitVec 5) (r w : BitVec 1) (s : BitVec 3) : Statement (.aand d a b r w s) := by
  refine elem_word (k := 0x41) (0x82000060 + d.toNat * 0x100000 + a.toNat * 0x8000 + b.toNat * 0x400 + r.toNat * 0x200 + w.toNat * 0x100 + s.toNat * 0x1) rfl rfl (fun x hx => ?_)
  have := d.isLt; have := a.isLt; have := b.isLt; have := r.isLt; have := w.isLt; have := s.isLt
  refine ⟨by omega, by omega, ?_⟩
  show pickAtom (x / 2 ^ 5 % 2 ^ 3) x = _
  rw [show x / 2 ^ 5 % 2 ^ 3 = 3 by omega]
  show Except.ok (Instr.aand (fld x 20 5) (fld x 15 5) (fld x 10 5) (fld x 9 1) (fld x 8 1) (fld x 0 3)) = _
  rw [fld_eq (x := d) (by omega), fld_eq (x := a) (by omega), fld_eq (x := b) (by omega), fld_eq (x := r) (by omega), fld_eq (x := w) (by omega), fld_eq (x := s) (by omega)]

theorem aor (d a b : BitVec 5) (r w : BitVec 1) (s : BitVec 3) : Statement (.aor d a b r w s) := by
  refine elem_word (k := 0x41) (0x82000080 + d.toNat * 0x100000 + a.toNat * 0x8000 + b.toNat * 0x400 + r.toNat * 0x200 + w.toNat * 0x100 + s.toNat * 0x1) rfl rfl (fun x hx => ?_)
  have := d.isLt; have := a.isLt; have := b.isLt; have := r.isLt; have := w.isLt; have := s.isLt
  refine ⟨by omega, by omega, ?_⟩
  show pickAtom (x / 2 ^ 5 % 2 ^ 3) x = _
  rw [show x / 2 ^ 5 % 2 ^ 3 = 4 by omega]
  show Except.ok (Instr.aor (fld x 20 5) (fld x 15 5) (fld x 10 5) (fld x 9 1) (fld x 8 1) (fld x 0 3)) = _
  rw [fld_eq (x := d) (by omega), fld_eq (x := a) (by omega), fld_eq (x := b) (by omega), fld_eq (x := r) (by omega), fld_eq (x := w) (by omega), fld_eq (x := s) (by omega)]

theorem axor (d a b : BitVec 5) (r w : BitVec 1) (s : BitVec 3) : Statement (.axor d a b r w s) := by
  refine elem_word (k := 0x41) (0x820000A0 + d.toNat * 0x100000 + a.toNat * 0x8000 + b.toNat * 0x400 + r.toNat * 0x200 + w.toNat * 0x100 + s.toNat * 0x1) rfl rfl (fun x hx => ?_)
  have := d.isLt; have := a.isLt; have := b.isLt; have := r.isLt; have := w.isLt; have := s.isLt
  refine ⟨by omega, by omega, ?_⟩
  show pickAtom (x / 2 ^ 5 % 2 ^ 3) x = _
  rw [show x / 2 ^ 5 % 2 ^ 3 = 5 by omega]
  show Except.ok (Instr.axor (fld x 20 5) (fld x 15 5) (fld x 10 5) (fld x 9 1) (fld x 8 1) (fld x 0 3)) = _
  rw [fld_eq (x := d) (by omega), fld_eq (x := a) (by omega), fld_eq (x := b) (by omega), fld_eq (x := r) (by omega), fld_eq (x := w) (by omega), fld_eq (x := s) (by omega)]

theorem aswp (d a b : BitVec 5) (r w : BitVec 1) (s : BitVec 3) : Statement (.aswp d a b r w s) := by
  refine elem_word (k := 0x41) (0x820000C0 + d.toNat * 0x100000 + a.toNat * 0x8000 + b.toNat * 0x400 + r.toNat * 0x200 + w.toNat * 0x100 + s.toNat * 0x1) rfl rfl (fun x hx => ?_)
  have := d.isLt; have := a.isLt; have := b.isLt; have := r.isLt; have := w.isLt; have := s.isLt
  refine ⟨by omega, by omega, ?_⟩
  show pickAtom (x / 2 ^ 5 % 2 ^ 3) x = _
  rw [show x / 2 ^ 5 % 2 ^ 3 = 6 by omega]
  show Except.ok (Instr.aswp (fld x 20 5) (fld x 15 5) (fld x 10 5) (fld x 9 1) (fld x 8 1) (fld x 0 3)) = _
  rw [fld_eq (x := d) (by omega), fld_eq (x := a) (by omega), fld_eq (x := b) (by omega), fld_eq (x := r) (by omega), fld_eq (x := w) (by omega), fld_eq (x := s) (by omega)]

theorem acas (d a b : BitVec 5) (r w : BitVec 1) (s : BitVec 3) : Statement (.acas d a b r w s) := by
  refine elem_word (k := 0x41) (0x820000E0 + d.toNat * 0x100000 + a.toNat * 0x8000 + b.toNat * 0x400 + r.toNat * 0x200 + w.toNat * 0x100 + s.toNat * 0x1) rfl rfl (fun x hx => ?_)
  have := d.isLt; have := a.isLt; have := b.isLt; have := r.isLt; have := w.isLt; have := s.isLt
  refine ⟨by omega, by omega, ?_⟩
  show pickAtom (x / 2 ^ 5 % 2 ^ 3) x = _
  rw [show x / 2 ^ 5 % 2 ^ 3 = 7 by omega]
  show Except.ok (Instr.acas (fld x 20 5) (fld x 15 5) (fld x 10 5) (fld x 9 1) (fld x 8 1) (fld x 0 3)) = _
  rw [fld_eq (x := d) (by omega), fld_eq (x := a) (by omega), fld_eq (x := b) (by omega), fld_eq (x := r) (by omega), fld_eq (x := w) (by omega), fld_eq (x := s) (by omega)]

theorem pwait (d a b : BitVec 5) (s : BitVec 3) : Statement (.pwait d a b s) := by
  refine elem_word (k := 0x42) (0x84000000 + d.toNat * 0x100000 + a.toNat * 0x8000 + b.toNat * 0x400 + s.toNat * 0x1) rfl rfl (fun x hx => ?_)
  have := d.isLt; have := a.isLt; have := b.isLt; have := s.isLt
  refine ⟨by omega, by omega, ?_⟩
  show pickPhnd (x / 2 ^ 5 % 2 ^ 5) x = _
  rw [show x / 2 ^ 5 % 2 ^ 5 = 0 by omega]
  show Except.ok (Instr.pwait (fld x 20 5) (fld x 15 5) (fld x 10 5) (fld x 0 3)) = _
  rw [fld_eq (x := d) (by omega), fld_eq (x := a) (by omega), fld_eq (x := b) (by omega), fld_eq (x := s) (by omega)]

theorem pgive (d a b : BitVec 5) (s : BitVec 3) : Statement (.pgive d a b s) := by
  refine elem_word (k := 0x42) (0x84000020 + d.toNat * 0x100000 + a.toNat * 0x8000 + b.toNat * 0x400 + s.toNat * 0x1) rfl rfl (fun x hx => ?_)
  have := d.isLt; have := a.isLt; have := b.isLt; have := s.isLt
  refine ⟨by omega, by omega, ?_⟩
  show pickPhnd (x / 2 ^ 5 % 2 ^ 5) x = _
  rw [show x / 2 ^ 5 % 2 ^ 5 = 1 by omega]
  show Except.ok (Instr.pgive (fld x 20 5) (fld x 15 5) (fld x 10 5) (fld x 0 3)) = _
  rw [fld_eq (x := d) (by omega), fld_eq (x := a) (by omega), fld_eq (x := b) (by omega), fld_eq (x := s) (by omega)]

theorem pswap (d a b : BitVec 5) (s : BitVec 3) : Statement (.pswap d a b s) := by
  refine elem_word (k := 0x42) (0x84000040 + d.toNat * 0x100000 + a.toNat * 0x8000 + b.toNat * 0x400 + s.toNat * 0x1) rfl rfl (fun x hx => ?_)
  have := d.isLt; have := a.isLt; have := b.isLt; have := s.isLt
  refine ⟨by omega, by omega, ?_⟩
  show pickPhnd (x / 2 ^ 5 % 2 ^ 5) x = _
  rw [show x / 2 ^ 5 % 2 ^ 5 = 2 by omega]
  show Except.ok (Instr.pswap (fld x 20 5) (fld x 15 5) (fld x 10 5) (fld x 0 3)) = _
  rw [fld_eq (x := d) (by omega), fld_eq (x := a) (by omega), fld_eq (x := b) (by omega), fld_eq (x := s) (by omega)]

theorem paban (d a b : BitVec 5) (s : BitVec 3) : Statement (.paban d a b s) := by
  refine elem_word (k := 0x42) (0x84000060 + d.toNat * 0x100000 + a.toNat * 0x8000 + b.toNat * 0x400 + s.toNat * 0x1) rfl rfl (fun x hx => ?_)
  have := d.isLt; have := a.isLt; have := b.isLt; have := s.isLt
  refine ⟨by omega, by omega, ?_⟩
  show pickPhnd (x / 2 ^ 5 % 2 ^ 5) x = _
  rw [show x / 2 ^ 5 % 2 ^ 5 = 3 by omega]
  show Except.ok (Instr.paban (fld x 20 5) (fld x 15 5) (fld x 10 5) (fld x 0 3)) = _
  rw [fld_eq (x := d) (by omega), fld_eq (x := a) (by omega), fld_eq (x := b) (by omega), fld_eq (x := s) (by omega)]

theorem prel (d a b : BitVec 5) (s : BitVec 3) : Statement (.prel d a b s) := by
  refine elem_word (k := 0x42) (0x84000080 + d.toNat * 0x100000 + a.toNat * 0x8000 + b.toNat * 0x400 + s.toNat * 0x1) rfl rfl (fun x hx => ?_)
  have := d.isLt; have := a.isLt; have := b.isLt; have := s.isLt
  refine ⟨by omega, by omega, ?_⟩
  show pickPhnd (x / 2 ^ 5 % 2 ^ 5) x = _
  rw [show x / 2 ^ 5 % 2 ^ 5 = 4 by omega]
  show Except.ok (Instr.prel (fld x 20 5) (fld x 15 5) (fld x 10 5) (fld x 0 3)) = _
  rw [fld_eq (x := d) (by omega), fld_eq (x := a) (by omega), fld_eq (x := b) (by omega), fld_eq (x := s) (by omega)]

theorem cpy (d a : BitVec 5) (s : BitVec 3) : Statement (.cpy d a s) := by
  refine elem_word (k := 0x43) (0x86000000 + d.toNat * 0x100000 + a.toNat * 0x8000 + s.toNat * 0x1) rfl rfl (fun x hx => ?_)
  have := d.isLt; have := a.isLt; have := s.isLt
  refine ⟨by omega, by omega, ?_⟩
  show pickEng (x / 2 ^ 5 % 2 ^ 5) x = _
  rw [show x / 2 ^ 5 % 2 ^ 5 = 0 by omega]
  show Except.ok (Instr.cpy (fld x 20 5) (fld x 15 5) (fld x 0 3)) = _
  rw [fld_eq (x := d) (by omega), fld_eq (x := a) (by omega), fld_eq (x := s) (by omega)]

theorem gath (d a : BitVec 5) (s : BitVec 3) : Statement (.gath d a s) := by
  refine elem_word (k := 0x43) (0x86000020 + d.toNat * 0x100000 + a.toNat * 0x8000 + s.toNat * 0x1) rfl rfl (fun x hx => ?_)
  have := d.isLt; have := a.isLt; have := s.isLt
  refine ⟨by omega, by omega, ?_⟩
  show pickEng (x / 2 ^ 5 % 2 ^ 5) x = _
  rw [show x / 2 ^ 5 % 2 ^ 5 = 1 by omega]
  show Except.ok (Instr.gath (fld x 20 5) (fld x 15 5) (fld x 0 3)) = _
  rw [fld_eq (x := d) (by omega), fld_eq (x := a) (by omega), fld_eq (x := s) (by omega)]

theorem scat (d a : BitVec 5) (s : BitVec 3) : Statement (.scat d a s) := by
  refine elem_word (k := 0x43) (0x86000040 + d.toNat * 0x100000 + a.toNat * 0x8000 + s.toNat * 0x1) rfl rfl (fun x hx => ?_)
  have := d.isLt; have := a.isLt; have := s.isLt
  refine ⟨by omega, by omega, ?_⟩
  show pickEng (x / 2 ^ 5 % 2 ^ 5) x = _
  rw [show x / 2 ^ 5 % 2 ^ 5 = 2 by omega]
  show Except.ok (Instr.scat (fld x 20 5) (fld x 15 5) (fld x 0 3)) = _
  rw [fld_eq (x := d) (by omega), fld_eq (x := a) (by omega), fld_eq (x := s) (by omega)]

theorem trig (d a : BitVec 5) (s : BitVec 3) : Statement (.trig d a s) := by
  refine elem_word (k := 0x43) (0x86000060 + d.toNat * 0x100000 + a.toNat * 0x8000 + s.toNat * 0x1) rfl rfl (fun x hx => ?_)
  have := d.isLt; have := a.isLt; have := s.isLt
  refine ⟨by omega, by omega, ?_⟩
  show pickEng (x / 2 ^ 5 % 2 ^ 5) x = _
  rw [show x / 2 ^ 5 % 2 ^ 5 = 3 by omega]
  show Except.ok (Instr.trig (fld x 20 5) (fld x 15 5) (fld x 0 3)) = _
  rw [fld_eq (x := d) (by omega), fld_eq (x := a) (by omega), fld_eq (x := s) (by omega)]

theorem coll (d a : BitVec 5) (s : BitVec 3) : Statement (.coll d a s) := by
  refine elem_word (k := 0x43) (0x86000080 + d.toNat * 0x100000 + a.toNat * 0x8000 + s.toNat * 0x1) rfl rfl (fun x hx => ?_)
  have := d.isLt; have := a.isLt; have := s.isLt
  refine ⟨by omega, by omega, ?_⟩
  show pickEng (x / 2 ^ 5 % 2 ^ 5) x = _
  rw [show x / 2 ^ 5 % 2 ^ 5 = 4 by omega]
  show Except.ok (Instr.coll (fld x 20 5) (fld x 15 5) (fld x 0 3)) = _
  rw [fld_eq (x := d) (by omega), fld_eq (x := a) (by omega), fld_eq (x := s) (by omega)]

theorem flagst (d a : BitVec 5) (s : BitVec 3) : Statement (.flagst d a s) := by
  refine elem_word (k := 0x43) (0x860000A0 + d.toNat * 0x100000 + a.toNat * 0x8000 + s.toNat * 0x1) rfl rfl (fun x hx => ?_)
  have := d.isLt; have := a.isLt; have := s.isLt
  refine ⟨by omega, by omega, ?_⟩
  show pickEng (x / 2 ^ 5 % 2 ^ 5) x = _
  rw [show x / 2 ^ 5 % 2 ^ 5 = 5 by omega]
  show Except.ok (Instr.flagst (fld x 20 5) (fld x 15 5) (fld x 0 3)) = _
  rw [fld_eq (x := d) (by omega), fld_eq (x := a) (by omega), fld_eq (x := s) (by omega)]

theorem thaw (d a : BitVec 5) : Statement (.thaw d a) := by
  refine elem_word (k := 0x44) (0x88000000 + d.toNat * 0x100000 + a.toNat * 0x8000) rfl rfl (fun x hx => ?_)
  have := d.isLt; have := a.isLt
  refine ⟨by omega, by omega, ?_⟩
  show Except.ok (Instr.thaw (fld x 20 5) (fld x 15 5)) = _
  rw [fld_eq (x := d) (by omega), fld_eq (x := a) (by omega)]

theorem bubl (d a b : BitVec 5) : Statement (.bubl d a b) := by
  refine elem_word (k := 0x45) (0x8A000000 + d.toNat * 0x100000 + a.toNat * 0x8000 + b.toNat * 0x400) rfl rfl (fun x hx => ?_)
  have := d.isLt; have := a.isLt; have := b.isLt
  refine ⟨by omega, by omega, ?_⟩
  show Except.ok (Instr.bubl (fld x 20 5) (fld x 15 5) (fld x 10 5)) = _
  rw [fld_eq (x := d) (by omega), fld_eq (x := a) (by omega), fld_eq (x := b) (by omega)]

theorem addi (d a : BitVec 5) (i : BitVec 15) : Statement (.addi d a i) := by
  refine elem_word (k := 0x48) (0x90000000 + d.toNat * 0x100000 + a.toNat * 0x8000 + i.toNat * 0x1) rfl rfl (fun x hx => ?_)
  have := d.isLt; have := a.isLt; have := i.isLt
  refine ⟨by omega, by omega, ?_⟩
  show Except.ok (Instr.addi (fld x 20 5) (fld x 15 5) (fld x 0 15)) = _
  rw [fld_eq (x := d) (by omega), fld_eq (x := a) (by omega), fld_eq (x := i) (by omega)]

theorem andi (d a : BitVec 5) (i : BitVec 15) : Statement (.andi d a i) := by
  refine elem_word (k := 0x49) (0x92000000 + d.toNat * 0x100000 + a.toNat * 0x8000 + i.toNat * 0x1) rfl rfl (fun x hx => ?_)
  have := d.isLt; have := a.isLt; have := i.isLt
  refine ⟨by omega, by omega, ?_⟩
  show Except.ok (Instr.andi (fld x 20 5) (fld x 15 5) (fld x 0 15)) = _
  rw [fld_eq (x := d) (by omega), fld_eq (x := a) (by omega), fld_eq (x := i) (by omega)]

theorem ori (d a : BitVec 5) (i : BitVec 15) : Statement (.ori d a i) := by
  refine elem_word (k := 0x4A) (0x94000000 + d.toNat * 0x100000 + a.toNat * 0x8000 + i.toNat * 0x1) rfl rfl (fun x hx => ?_)
  have := d.isLt; have := a.isLt; have := i.isLt
  refine ⟨by omega, by omega, ?_⟩
  show Except.ok (Instr.ori (fld x 20 5) (fld x 15 5) (fld x 0 15)) = _
  rw [fld_eq (x := d) (by omega), fld_eq (x := a) (by omega), fld_eq (x := i) (by omega)]

theorem xori (d a : BitVec 5) (i : BitVec 15) : Statement (.xori d a i) := by
  refine elem_word (k := 0x4B) (0x96000000 + d.toNat * 0x100000 + a.toNat * 0x8000 + i.toNat * 0x1) rfl rfl (fun x hx => ?_)
  have := d.isLt; have := a.isLt; have := i.isLt
  refine ⟨by omega, by omega, ?_⟩
  show Except.ok (Instr.xori (fld x 20 5) (fld x 15 5) (fld x 0 15)) = _
  rw [fld_eq (x := d) (by omega), fld_eq (x := a) (by omega), fld_eq (x := i) (by omega)]

theorem slti (d a : BitVec 5) (i : BitVec 15) : Statement (.slti d a i) := by
  refine elem_word (k := 0x4C) (0x98000000 + d.toNat * 0x100000 + a.toNat * 0x8000 + i.toNat * 0x1) rfl rfl (fun x hx => ?_)
  have := d.isLt; have := a.isLt; have := i.isLt
  refine ⟨by omega, by omega, ?_⟩
  show Except.ok (Instr.slti (fld x 20 5) (fld x 15 5) (fld x 0 15)) = _
  rw [fld_eq (x := d) (by omega), fld_eq (x := a) (by omega), fld_eq (x := i) (by omega)]

theorem slli (d a i : BitVec 5) : Statement (.slli d a i) := by
  refine elem_word (k := 0x4D) (0x9A000000 + d.toNat * 0x100000 + a.toNat * 0x8000 + i.toNat * 0x1) rfl rfl (fun x hx => ?_)
  have := d.isLt; have := a.isLt; have := i.isLt
  refine ⟨by omega, by omega, ?_⟩
  show Except.ok (Instr.slli (fld x 20 5) (fld x 15 5) (fld x 0 5)) = _
  rw [fld_eq (x := d) (by omega), fld_eq (x := a) (by omega), fld_eq (x := i) (by omega)]

theorem srli (d a i : BitVec 5) : Statement (.srli d a i) := by
  refine elem_word (k := 0x4E) (0x9C000000 + d.toNat * 0x100000 + a.toNat * 0x8000 + i.toNat * 0x1) rfl rfl (fun x hx => ?_)
  have := d.isLt; have := a.isLt; have := i.isLt
  refine ⟨by omega, by omega, ?_⟩
  show Except.ok (Instr.srli (fld x 20 5) (fld x 15 5) (fld x 0 5)) = _
  rw [fld_eq (x := d) (by omega), fld_eq (x := a) (by omega), fld_eq (x := i) (by omega)]

theorem srai (d a i : BitVec 5) : Statement (.srai d a i) := by
  refine elem_word (k := 0x4F) (0x9E000000 + d.toNat * 0x100000 + a.toNat * 0x8000 + i.toNat * 0x1) rfl rfl (fun x hx => ?_)
  have := d.isLt; have := a.isLt; have := i.isLt
  refine ⟨by omega, by omega, ?_⟩
  show Except.ok (Instr.srai (fld x 20 5) (fld x 15 5) (fld x 0 5)) = _
  rw [fld_eq (x := d) (by omega), fld_eq (x := a) (by omega), fld_eq (x := i) (by omega)]

theorem movhi (d : BitVec 5) (i : BitVec 15) : Statement (.movhi d i) := by
  refine elem_word (k := 0x50) (0xA0000000 + d.toNat * 0x100000 + i.toNat * 0x1) rfl rfl (fun x hx => ?_)
  have := d.isLt; have := i.isLt
  refine ⟨by omega, by omega, ?_⟩
  show Except.ok (Instr.movhi (fld x 20 5) (fld x 0 15)) = _
  rw [fld_eq (x := d) (by omega), fld_eq (x := i) (by omega)]

theorem drain (p : BitVec 2) : Statement (.drain p) := by
  refine elem_word (k := 0x51) (0xA2000000 + p.toNat * 0x1) rfl rfl (fun x hx => ?_)
  have := p.isLt
  refine ⟨by omega, by omega, ?_⟩
  show Except.ok (Instr.drain (fld x 0 2)) = _
  rw [fld_eq (x := p) (by omega)]

theorem ldI8 (d a : BitVec 5) (o : BitVec 12) (s : BitVec 3) : Statement (.ldI8 d a o s) := by
  refine elem_word (k := 0x58) (0xB0000000 + d.toNat * 0x100000 + a.toNat * 0x8000 + o.toNat * 0x8 + s.toNat * 0x1) rfl rfl (fun x hx => ?_)
  have := d.isLt; have := a.isLt; have := o.isLt; have := s.isLt
  refine ⟨by omega, by omega, ?_⟩
  show Except.ok (Instr.ldI8 (fld x 20 5) (fld x 15 5) (fld x 3 12) (fld x 0 3)) = _
  rw [fld_eq (x := d) (by omega), fld_eq (x := a) (by omega), fld_eq (x := o) (by omega), fld_eq (x := s) (by omega)]

theorem ldB8 (d a : BitVec 5) (o : BitVec 12) (s : BitVec 3) : Statement (.ldB8 d a o s) := by
  refine elem_word (k := 0x59) (0xB2000000 + d.toNat * 0x100000 + a.toNat * 0x8000 + o.toNat * 0x8 + s.toNat * 0x1) rfl rfl (fun x hx => ?_)
  have := d.isLt; have := a.isLt; have := o.isLt; have := s.isLt
  refine ⟨by omega, by omega, ?_⟩
  show Except.ok (Instr.ldB8 (fld x 20 5) (fld x 15 5) (fld x 3 12) (fld x 0 3)) = _
  rw [fld_eq (x := d) (by omega), fld_eq (x := a) (by omega), fld_eq (x := o) (by omega), fld_eq (x := s) (by omega)]

theorem ldI16 (d a : BitVec 5) (o : BitVec 12) (s : BitVec 3) : Statement (.ldI16 d a o s) := by
  refine elem_word (k := 0x5A) (0xB4000000 + d.toNat * 0x100000 + a.toNat * 0x8000 + o.toNat * 0x8 + s.toNat * 0x1) rfl rfl (fun x hx => ?_)
  have := d.isLt; have := a.isLt; have := o.isLt; have := s.isLt
  refine ⟨by omega, by omega, ?_⟩
  show Except.ok (Instr.ldI16 (fld x 20 5) (fld x 15 5) (fld x 3 12) (fld x 0 3)) = _
  rw [fld_eq (x := d) (by omega), fld_eq (x := a) (by omega), fld_eq (x := o) (by omega), fld_eq (x := s) (by omega)]

theorem ldB16 (d a : BitVec 5) (o : BitVec 12) (s : BitVec 3) : Statement (.ldB16 d a o s) := by
  refine elem_word (k := 0x5B) (0xB6000000 + d.toNat * 0x100000 + a.toNat * 0x8000 + o.toNat * 0x8 + s.toNat * 0x1) rfl rfl (fun x hx => ?_)
  have := d.isLt; have := a.isLt; have := o.isLt; have := s.isLt
  refine ⟨by omega, by omega, ?_⟩
  show Except.ok (Instr.ldB16 (fld x 20 5) (fld x 15 5) (fld x 3 12) (fld x 0 3)) = _
  rw [fld_eq (x := d) (by omega), fld_eq (x := a) (by omega), fld_eq (x := o) (by omega), fld_eq (x := s) (by omega)]

theorem ldB32 (d a : BitVec 5) (o : BitVec 12) (s : BitVec 3) : Statement (.ldB32 d a o s) := by
  refine elem_word (k := 0x5C) (0xB8000000 + d.toNat * 0x100000 + a.toNat * 0x8000 + o.toNat * 0x8 + s.toNat * 0x1) rfl rfl (fun x hx => ?_)
  have := d.isLt; have := a.isLt; have := o.isLt; have := s.isLt
  refine ⟨by omega, by omega, ?_⟩
  show Except.ok (Instr.ldB32 (fld x 20 5) (fld x 15 5) (fld x 3 12) (fld x 0 3)) = _
  rw [fld_eq (x := d) (by omega), fld_eq (x := a) (by omega), fld_eq (x := o) (by omega), fld_eq (x := s) (by omega)]

theorem ldB64 (d a : BitVec 5) (o : BitVec 12) (s : BitVec 3) : Statement (.ldB64 d a o s) := by
  refine elem_word (k := 0x5D) (0xBA000000 + d.toNat * 0x100000 + a.toNat * 0x8000 + o.toNat * 0x8 + s.toNat * 0x1) rfl rfl (fun x hx => ?_)
  have := d.isLt; have := a.isLt; have := o.isLt; have := s.isLt
  refine ⟨by omega, by omega, ?_⟩
  show Except.ok (Instr.ldB64 (fld x 20 5) (fld x 15 5) (fld x 3 12) (fld x 0 3)) = _
  rw [fld_eq (x := d) (by omega), fld_eq (x := a) (by omega), fld_eq (x := o) (by omega), fld_eq (x := s) (by omega)]

theorem ldW (d a : BitVec 5) (o : BitVec 12) (s : BitVec 3) : Statement (.ldW d a o s) := by
  refine elem_word (k := 0x5E) (0xBC000000 + d.toNat * 0x100000 + a.toNat * 0x8000 + o.toNat * 0x8 + s.toNat * 0x1) rfl rfl (fun x hx => ?_)
  have := d.isLt; have := a.isLt; have := o.isLt; have := s.isLt
  refine ⟨by omega, by omega, ?_⟩
  show Except.ok (Instr.ldW (fld x 20 5) (fld x 15 5) (fld x 3 12) (fld x 0 3)) = _
  rw [fld_eq (x := d) (by omega), fld_eq (x := a) (by omega), fld_eq (x := o) (by omega), fld_eq (x := s) (by omega)]

theorem stB8 (d a : BitVec 5) (o : BitVec 12) (s : BitVec 3) : Statement (.stB8 d a o s) := by
  refine elem_word (k := 0x5F) (0xBE000000 + d.toNat * 0x100000 + a.toNat * 0x8000 + o.toNat * 0x8 + s.toNat * 0x1) rfl rfl (fun x hx => ?_)
  have := d.isLt; have := a.isLt; have := o.isLt; have := s.isLt
  refine ⟨by omega, by omega, ?_⟩
  show Except.ok (Instr.stB8 (fld x 20 5) (fld x 15 5) (fld x 3 12) (fld x 0 3)) = _
  rw [fld_eq (x := d) (by omega), fld_eq (x := a) (by omega), fld_eq (x := o) (by omega), fld_eq (x := s) (by omega)]

theorem stB16 (d a : BitVec 5) (o : BitVec 12) (s : BitVec 3) : Statement (.stB16 d a o s) := by
  refine elem_word (k := 0x60) (0xC0000000 + d.toNat * 0x100000 + a.toNat * 0x8000 + o.toNat * 0x8 + s.toNat * 0x1) rfl rfl (fun x hx => ?_)
  have := d.isLt; have := a.isLt; have := o.isLt; have := s.isLt
  refine ⟨by omega, by omega, ?_⟩
  show Except.ok (Instr.stB16 (fld x 20 5) (fld x 15 5) (fld x 3 12) (fld x 0 3)) = _
  rw [fld_eq (x := d) (by omega), fld_eq (x := a) (by omega), fld_eq (x := o) (by omega), fld_eq (x := s) (by omega)]

theorem stB32 (d a : BitVec 5) (o : BitVec 12) (s : BitVec 3) : Statement (.stB32 d a o s) := by
  refine elem_word (k := 0x61) (0xC2000000 + d.toNat * 0x100000 + a.toNat * 0x8000 + o.toNat * 0x8 + s.toNat * 0x1) rfl rfl (fun x hx => ?_)
  have := d.isLt; have := a.isLt; have := o.isLt; have := s.isLt
  refine ⟨by omega, by omega, ?_⟩
  show Except.ok (Instr.stB32 (fld x 20 5) (fld x 15 5) (fld x 3 12) (fld x 0 3)) = _
  rw [fld_eq (x := d) (by omega), fld_eq (x := a) (by omega), fld_eq (x := o) (by omega), fld_eq (x := s) (by omega)]

theorem stB64 (d a : BitVec 5) (o : BitVec 12) (s : BitVec 3) : Statement (.stB64 d a o s) := by
  refine elem_word (k := 0x62) (0xC4000000 + d.toNat * 0x100000 + a.toNat * 0x8000 + o.toNat * 0x8 + s.toNat * 0x1) rfl rfl (fun x hx => ?_)
  have := d.isLt; have := a.isLt; have := o.isLt; have := s.isLt
  refine ⟨by omega, by omega, ?_⟩
  show Except.ok (Instr.stB64 (fld x 20 5) (fld x 15 5) (fld x 3 12) (fld x 0 3)) = _
  rw [fld_eq (x := d) (by omega), fld_eq (x := a) (by omega), fld_eq (x := o) (by omega), fld_eq (x := s) (by omega)]

theorem stW (d a : BitVec 5) (o : BitVec 12) (s : BitVec 3) : Statement (.stW d a o s) := by
  refine elem_word (k := 0x63) (0xC6000000 + d.toNat * 0x100000 + a.toNat * 0x8000 + o.toNat * 0x8 + s.toNat * 0x1) rfl rfl (fun x hx => ?_)
  have := d.isLt; have := a.isLt; have := o.isLt; have := s.isLt
  refine ⟨by omega, by omega, ?_⟩
  show Except.ok (Instr.stW (fld x 20 5) (fld x 15 5) (fld x 3 12) (fld x 0 3)) = _
  rw [fld_eq (x := d) (by omega), fld_eq (x := a) (by omega), fld_eq (x := o) (by omega), fld_eq (x := s) (by omega)]

theorem ldAcqB32 (d a : BitVec 5) (o : BitVec 12) (s : BitVec 3) : Statement (.ldAcqB32 d a o s) := by
  refine elem_word (k := 0x64) (0xC8000000 + d.toNat * 0x100000 + a.toNat * 0x8000 + o.toNat * 0x8 + s.toNat * 0x1) rfl rfl (fun x hx => ?_)
  have := d.isLt; have := a.isLt; have := o.isLt; have := s.isLt
  refine ⟨by omega, by omega, ?_⟩
  show Except.ok (Instr.ldAcqB32 (fld x 20 5) (fld x 15 5) (fld x 3 12) (fld x 0 3)) = _
  rw [fld_eq (x := d) (by omega), fld_eq (x := a) (by omega), fld_eq (x := o) (by omega), fld_eq (x := s) (by omega)]

theorem ldAcqB64 (d a : BitVec 5) (o : BitVec 12) (s : BitVec 3) : Statement (.ldAcqB64 d a o s) := by
  refine elem_word (k := 0x65) (0xCA000000 + d.toNat * 0x100000 + a.toNat * 0x8000 + o.toNat * 0x8 + s.toNat * 0x1) rfl rfl (fun x hx => ?_)
  have := d.isLt; have := a.isLt; have := o.isLt; have := s.isLt
  refine ⟨by omega, by omega, ?_⟩
  show Except.ok (Instr.ldAcqB64 (fld x 20 5) (fld x 15 5) (fld x 3 12) (fld x 0 3)) = _
  rw [fld_eq (x := d) (by omega), fld_eq (x := a) (by omega), fld_eq (x := o) (by omega), fld_eq (x := s) (by omega)]

theorem stRelB32 (d a : BitVec 5) (o : BitVec 12) (s : BitVec 3) : Statement (.stRelB32 d a o s) := by
  refine elem_word (k := 0x66) (0xCC000000 + d.toNat * 0x100000 + a.toNat * 0x8000 + o.toNat * 0x8 + s.toNat * 0x1) rfl rfl (fun x hx => ?_)
  have := d.isLt; have := a.isLt; have := o.isLt; have := s.isLt
  refine ⟨by omega, by omega, ?_⟩
  show Except.ok (Instr.stRelB32 (fld x 20 5) (fld x 15 5) (fld x 3 12) (fld x 0 3)) = _
  rw [fld_eq (x := d) (by omega), fld_eq (x := a) (by omega), fld_eq (x := o) (by omega), fld_eq (x := s) (by omega)]

theorem stRelB64 (d a : BitVec 5) (o : BitVec 12) (s : BitVec 3) : Statement (.stRelB64 d a o s) := by
  refine elem_word (k := 0x67) (0xCE000000 + d.toNat * 0x100000 + a.toNat * 0x8000 + o.toNat * 0x8 + s.toNat * 0x1) rfl rfl (fun x hx => ?_)
  have := d.isLt; have := a.isLt; have := o.isLt; have := s.isLt
  refine ⟨by omega, by omega, ?_⟩
  show Except.ok (Instr.stRelB64 (fld x 20 5) (fld x 15 5) (fld x 3 12) (fld x 0 3)) = _
  rw [fld_eq (x := d) (by omega), fld_eq (x := a) (by omega), fld_eq (x := o) (by omega), fld_eq (x := s) (by omega)]

theorem ldf (d a : BitVec 5) (o : BitVec 12) (s : BitVec 3) : Statement (.ldf d a o s) := by
  refine elem_word (k := 0x68) (0xD0000000 + d.toNat * 0x100000 + a.toNat * 0x8000 + o.toNat * 0x8 + s.toNat * 0x1) rfl rfl (fun x hx => ?_)
  have := d.isLt; have := a.isLt; have := o.isLt; have := s.isLt
  refine ⟨by omega, by omega, ?_⟩
  show Except.ok (Instr.ldf (fld x 20 5) (fld x 15 5) (fld x 3 12) (fld x 0 3)) = _
  rw [fld_eq (x := d) (by omega), fld_eq (x := a) (by omega), fld_eq (x := o) (by omega), fld_eq (x := s) (by omega)]

theorem ldfe (d a : BitVec 5) (o : BitVec 12) (s : BitVec 3) : Statement (.ldfe d a o s) := by
  refine elem_word (k := 0x69) (0xD2000000 + d.toNat * 0x100000 + a.toNat * 0x8000 + o.toNat * 0x8 + s.toNat * 0x1) rfl rfl (fun x hx => ?_)
  have := d.isLt; have := a.isLt; have := o.isLt; have := s.isLt
  refine ⟨by omega, by omega, ?_⟩
  show Except.ok (Instr.ldfe (fld x 20 5) (fld x 15 5) (fld x 3 12) (fld x 0 3)) = _
  rw [fld_eq (x := d) (by omega), fld_eq (x := a) (by omega), fld_eq (x := o) (by omega), fld_eq (x := s) (by omega)]

theorem ste (d a : BitVec 5) (o : BitVec 12) (s : BitVec 3) : Statement (.ste d a o s) := by
  refine elem_word (k := 0x6A) (0xD4000000 + d.toNat * 0x100000 + a.toNat * 0x8000 + o.toNat * 0x8 + s.toNat * 0x1) rfl rfl (fun x hx => ?_)
  have := d.isLt; have := a.isLt; have := o.isLt; have := s.isLt
  refine ⟨by omega, by omega, ?_⟩
  show Except.ok (Instr.ste (fld x 20 5) (fld x 15 5) (fld x 3 12) (fld x 0 3)) = _
  rw [fld_eq (x := d) (by omega), fld_eq (x := a) (by omega), fld_eq (x := o) (by omega), fld_eq (x := s) (by omega)]

theorem stf (d a : BitVec 5) (o : BitVec 12) (s : BitVec 3) : Statement (.stf d a o s) := by
  refine elem_word (k := 0x6B) (0xD6000000 + d.toNat * 0x100000 + a.toNat * 0x8000 + o.toNat * 0x8 + s.toNat * 0x1) rfl rfl (fun x hx => ?_)
  have := d.isLt; have := a.isLt; have := o.isLt; have := s.isLt
  refine ⟨by omega, by omega, ?_⟩
  show Except.ok (Instr.stf (fld x 20 5) (fld x 15 5) (fld x 3 12) (fld x 0 3)) = _
  rw [fld_eq (x := d) (by omega), fld_eq (x := a) (by omega), fld_eq (x := o) (by omega), fld_eq (x := s) (by omega)]

theorem feclr (d a : BitVec 5) (o : BitVec 12) (s : BitVec 3) : Statement (.feclr d a o s) := by
  refine elem_word (k := 0x6C) (0xD8000000 + d.toNat * 0x100000 + a.toNat * 0x8000 + o.toNat * 0x8 + s.toNat * 0x1) rfl rfl (fun x hx => ?_)
  have := d.isLt; have := a.isLt; have := o.isLt; have := s.isLt
  refine ⟨by omega, by omega, ?_⟩
  show Except.ok (Instr.feclr (fld x 20 5) (fld x 15 5) (fld x 3 12) (fld x 0 3)) = _
  rw [fld_eq (x := d) (by omega), fld_eq (x := a) (by omega), fld_eq (x := o) (by omega), fld_eq (x := s) (by omega)]

theorem place (d a : BitVec 5) (s : BitVec 3) : Statement (.place d a s) := by
  refine elem_word (k := 0x6D) (0xDA000000 + d.toNat * 0x100000 + a.toNat * 0x8000 + s.toNat * 0x1) rfl rfl (fun x hx => ?_)
  have := d.isLt; have := a.isLt; have := s.isLt
  refine ⟨by omega, by omega, ?_⟩
  show Except.ok (Instr.place (fld x 20 5) (fld x 15 5) (fld x 0 3)) = _
  rw [fld_eq (x := d) (by omega), fld_eq (x := a) (by omega), fld_eq (x := s) (by omega)]

theorem fence (s : BitVec 3) : Statement (.fence s) := by
  refine elem_word (k := 0x6E) (0xDC000000 + s.toNat * 0x1) rfl rfl (fun x hx => ?_)
  have := s.isLt
  refine ⟨by omega, by omega, ?_⟩
  show Except.ok (Instr.fence (fld x 0 3)) = _
  rw [fld_eq (x := s) (by omega)]

theorem mma (t : BitVec 2) (a b : BitVec 5) (f : BitVec 4) (d c : BitVec 1) (r : BitVec 3) : Statement (.mma t a b f d c r) := by
  refine elem_word (k := 0x70) (0xE0000000 + t.toNat * 0x800000 + a.toNat * 0x40000 + b.toNat * 0x2000 + f.toNat * 0x200 + d.toNat * 0x10 + c.toNat * 0x8 + r.toNat * 0x1) rfl rfl (fun x hx => ?_)
  have := t.isLt; have := a.isLt; have := b.isLt; have := f.isLt; have := d.isLt; have := c.isLt; have := r.isLt
  refine ⟨by omega, by omega, ?_⟩
  show Except.ok (Instr.mma (fld x 23 2) (fld x 18 5) (fld x 13 5) (fld x 9 4) (fld x 4 1) (fld x 3 1) (fld x 0 3)) = _
  rw [fld_eq (x := t) (by omega), fld_eq (x := a) (by omega), fld_eq (x := b) (by omega), fld_eq (x := f) (by omega), fld_eq (x := d) (by omega), fld_eq (x := c) (by omega), fld_eq (x := r) (by omega)]

theorem mmag (t : BitVec 2) (a b : BitVec 5) (f : BitVec 4) (d c : BitVec 1) (r : BitVec 3) : Statement (.mmag t a b f d c r) := by
  refine elem_word (k := 0x71) (0xE2000000 + t.toNat * 0x800000 + a.toNat * 0x40000 + b.toNat * 0x2000 + f.toNat * 0x200 + d.toNat * 0x10 + c.toNat * 0x8 + r.toNat * 0x1) rfl rfl (fun x hx => ?_)
  have := t.isLt; have := a.isLt; have := b.isLt; have := f.isLt; have := d.isLt; have := c.isLt; have := r.isLt
  refine ⟨by omega, by omega, ?_⟩
  show Except.ok (Instr.mmag (fld x 23 2) (fld x 18 5) (fld x 13 5) (fld x 9 4) (fld x 4 1) (fld x 3 1) (fld x 0 3)) = _
  rw [fld_eq (x := t) (by omega), fld_eq (x := a) (by omega), fld_eq (x := b) (by omega), fld_eq (x := f) (by omega), fld_eq (x := d) (by omega), fld_eq (x := c) (by omega), fld_eq (x := r) (by omega)]

theorem ldt (a b : BitVec 5) (f : BitVec 4) : Statement (.ldt a b f) := by
  refine elem_word (k := 0x72) (0xE4000000 + a.toNat * 0x40000 + b.toNat * 0x2000 + f.toNat * 0x200) rfl rfl (fun x hx => ?_)
  have := a.isLt; have := b.isLt; have := f.isLt
  refine ⟨by omega, by omega, ?_⟩
  show Except.ok (Instr.ldt (fld x 18 5) (fld x 13 5) (fld x 9 4)) = _
  rw [fld_eq (x := a) (by omega), fld_eq (x := b) (by omega), fld_eq (x := f) (by omega)]

theorem sortn (a b : BitVec 5) (f : BitVec 4) (u d : BitVec 1) : Statement (.sortn a b f u d) := by
  refine elem_word (k := 0x73) (0xE6000000 + a.toNat * 0x40000 + b.toNat * 0x2000 + f.toNat * 0x200 + u.toNat * 0x10 + d.toNat * 0x8) rfl rfl (fun x hx => ?_)
  have := a.isLt; have := b.isLt; have := f.isLt; have := u.isLt; have := d.isLt
  refine ⟨by omega, by omega, ?_⟩
  show Except.ok (Instr.sortn (fld x 18 5) (fld x 13 5) (fld x 9 4) (fld x 4 1) (fld x 3 1)) = _
  rw [fld_eq (x := a) (by omega), fld_eq (x := b) (by omega), fld_eq (x := f) (by omega), fld_eq (x := u) (by omega), fld_eq (x := d) (by omega)]

theorem cvt (a b : BitVec 5) (f s : BitVec 4) (r : BitVec 3) : Statement (.cvt a b f s r) := by
  refine elem_word (k := 0x74) (0xE8000000 + a.toNat * 0x40000 + b.toNat * 0x2000 + f.toNat * 0x200 + s.toNat * 0x20 + r.toNat * 0x1) rfl rfl (fun x hx => ?_)
  have := a.isLt; have := b.isLt; have := f.isLt; have := s.isLt; have := r.isLt
  refine ⟨by omega, by omega, ?_⟩
  show Except.ok (Instr.cvt (fld x 18 5) (fld x 13 5) (fld x 9 4) (fld x 5 4) (fld x 0 3)) = _
  rw [fld_eq (x := a) (by omega), fld_eq (x := b) (by omega), fld_eq (x := f) (by omega), fld_eq (x := s) (by omega), fld_eq (x := r) (by omega)]

theorem scld (t : BitVec 2) (a b : BitVec 5) (f : BitVec 4) : Statement (.scld t a b f) := by
  refine elem_word (k := 0x75) (0xEA000000 + t.toNat * 0x800000 + a.toNat * 0x40000 + b.toNat * 0x2000 + f.toNat * 0x200) rfl rfl (fun x hx => ?_)
  have := t.isLt; have := a.isLt; have := b.isLt; have := f.isLt
  refine ⟨by omega, by omega, ?_⟩
  show Except.ok (Instr.scld (fld x 23 2) (fld x 18 5) (fld x 13 5) (fld x 9 4)) = _
  rw [fld_eq (x := t) (by omega), fld_eq (x := a) (by omega), fld_eq (x := b) (by omega), fld_eq (x := f) (by omega)]

theorem scem (t : BitVec 2) (a b : BitVec 5) (f : BitVec 4) : Statement (.scem t a b f) := by
  refine elem_word (k := 0x76) (0xEC000000 + t.toNat * 0x800000 + a.toNat * 0x40000 + b.toNat * 0x2000 + f.toNat * 0x200) rfl rfl (fun x hx => ?_)
  have := t.isLt; have := a.isLt; have := b.isLt; have := f.isLt
  refine ⟨by omega, by omega, ?_⟩
  show Except.ok (Instr.scem (fld x 23 2) (fld x 18 5) (fld x 13 5) (fld x 9 4)) = _
  rw [fld_eq (x := t) (by omega), fld_eq (x := a) (by omega), fld_eq (x := b) (by omega), fld_eq (x := f) (by omega)]

theorem accld (t : BitVec 2) (a : BitVec 5) (f : BitVec 4) : Statement (.accld t a f) := by
  refine elem_word (k := 0x77) (0xEE000000 + t.toNat * 0x800000 + a.toNat * 0x40000 + f.toNat * 0x200) rfl rfl (fun x hx => ?_)
  have := t.isLt; have := a.isLt; have := f.isLt
  refine ⟨by omega, by omega, ?_⟩
  show Except.ok (Instr.accld (fld x 23 2) (fld x 18 5) (fld x 9 4)) = _
  rw [fld_eq (x := t) (by omega), fld_eq (x := a) (by omega), fld_eq (x := f) (by omega)]

theorem accst (t : BitVec 2) (a b : BitVec 5) (f : BitVec 4) : Statement (.accst t a b f) := by
  refine elem_word (k := 0x78) (0xF0000000 + t.toNat * 0x800000 + a.toNat * 0x40000 + b.toNat * 0x2000 + f.toNat * 0x200) rfl rfl (fun x hx => ?_)
  have := t.isLt; have := a.isLt; have := b.isLt; have := f.isLt
  refine ⟨by omega, by omega, ?_⟩
  show Except.ok (Instr.accst (fld x 23 2) (fld x 18 5) (fld x 13 5) (fld x 9 4)) = _
  rw [fld_eq (x := t) (by omega), fld_eq (x := a) (by omega), fld_eq (x := b) (by omega), fld_eq (x := f) (by omega)]

theorem rmax (t : BitVec 2) (a b : BitVec 5) (f : BitVec 4) (w : BitVec 1) : Statement (.rmax t a b f w) := by
  refine elem_word (k := 0x79) (0xF2000000 + t.toNat * 0x800000 + a.toNat * 0x40000 + b.toNat * 0x2000 + f.toNat * 0x200 + w.toNat * 0x20) rfl rfl (fun x hx => ?_)
  have := t.isLt; have := a.isLt; have := b.isLt; have := f.isLt; have := w.isLt
  refine ⟨by omega, by omega, ?_⟩
  show pickWred (x / 2 ^ 6 % 2 ^ 3) x = _
  rw [show x / 2 ^ 6 % 2 ^ 3 = 0 by omega]
  show Except.ok (Instr.rmax (fld x 23 2) (fld x 18 5) (fld x 13 5) (fld x 9 4) (fld x 5 1)) = _
  rw [fld_eq (x := t) (by omega), fld_eq (x := a) (by omega), fld_eq (x := b) (by omega), fld_eq (x := f) (by omega), fld_eq (x := w) (by omega)]

theorem rmin (t : BitVec 2) (a b : BitVec 5) (f : BitVec 4) (w : BitVec 1) : Statement (.rmin t a b f w) := by
  refine elem_word (k := 0x79) (0xF2000040 + t.toNat * 0x800000 + a.toNat * 0x40000 + b.toNat * 0x2000 + f.toNat * 0x200 + w.toNat * 0x20) rfl rfl (fun x hx => ?_)
  have := t.isLt; have := a.isLt; have := b.isLt; have := f.isLt; have := w.isLt
  refine ⟨by omega, by omega, ?_⟩
  show pickWred (x / 2 ^ 6 % 2 ^ 3) x = _
  rw [show x / 2 ^ 6 % 2 ^ 3 = 1 by omega]
  show Except.ok (Instr.rmin (fld x 23 2) (fld x 18 5) (fld x 13 5) (fld x 9 4) (fld x 5 1)) = _
  rw [fld_eq (x := t) (by omega), fld_eq (x := a) (by omega), fld_eq (x := b) (by omega), fld_eq (x := f) (by omega), fld_eq (x := w) (by omega)]

theorem rclmp (t : BitVec 2) (a b : BitVec 5) (f : BitVec 4) (w : BitVec 1) : Statement (.rclmp t a b f w) := by
  refine elem_word (k := 0x79) (0xF2000080 + t.toNat * 0x800000 + a.toNat * 0x40000 + b.toNat * 0x2000 + f.toNat * 0x200 + w.toNat * 0x20) rfl rfl (fun x hx => ?_)
  have := t.isLt; have := a.isLt; have := b.isLt; have := f.isLt; have := w.isLt
  refine ⟨by omega, by omega, ?_⟩
  show pickWred (x / 2 ^ 6 % 2 ^ 3) x = _
  rw [show x / 2 ^ 6 % 2 ^ 3 = 2 by omega]
  show Except.ok (Instr.rclmp (fld x 23 2) (fld x 18 5) (fld x 13 5) (fld x 9 4) (fld x 5 1)) = _
  rw [fld_eq (x := t) (by omega), fld_eq (x := a) (by omega), fld_eq (x := b) (by omega), fld_eq (x := f) (by omega), fld_eq (x := w) (by omega)]

theorem rmed (t : BitVec 2) (a b : BitVec 5) (f : BitVec 4) (w : BitVec 1) : Statement (.rmed t a b f w) := by
  refine elem_word (k := 0x79) (0xF20000C0 + t.toNat * 0x800000 + a.toNat * 0x40000 + b.toNat * 0x2000 + f.toNat * 0x200 + w.toNat * 0x20) rfl rfl (fun x hx => ?_)
  have := t.isLt; have := a.isLt; have := b.isLt; have := f.isLt; have := w.isLt
  refine ⟨by omega, by omega, ?_⟩
  show pickWred (x / 2 ^ 6 % 2 ^ 3) x = _
  rw [show x / 2 ^ 6 % 2 ^ 3 = 3 by omega]
  show Except.ok (Instr.rmed (fld x 23 2) (fld x 18 5) (fld x 13 5) (fld x 9 4) (fld x 5 1)) = _
  rw [fld_eq (x := t) (by omega), fld_eq (x := a) (by omega), fld_eq (x := b) (by omega), fld_eq (x := f) (by omega), fld_eq (x := w) (by omega)]

theorem rsats (t : BitVec 2) (a b : BitVec 5) (f : BitVec 4) (w : BitVec 1) : Statement (.rsats t a b f w) := by
  refine elem_word (k := 0x79) (0xF2000100 + t.toNat * 0x800000 + a.toNat * 0x40000 + b.toNat * 0x2000 + f.toNat * 0x200 + w.toNat * 0x20) rfl rfl (fun x hx => ?_)
  have := t.isLt; have := a.isLt; have := b.isLt; have := f.isLt; have := w.isLt
  refine ⟨by omega, by omega, ?_⟩
  show pickWred (x / 2 ^ 6 % 2 ^ 3) x = _
  rw [show x / 2 ^ 6 % 2 ^ 3 = 4 by omega]
  show Except.ok (Instr.rsats (fld x 23 2) (fld x 18 5) (fld x 13 5) (fld x 9 4) (fld x 5 1)) = _
  rw [fld_eq (x := t) (by omega), fld_eq (x := a) (by omega), fld_eq (x := b) (by omega), fld_eq (x := f) (by omega), fld_eq (x := w) (by omega)]

theorem adjb (t : BitVec 2) (a b : BitVec 5) (f : BitVec 4) : Statement (.adjb t a b f) := by
  refine elem_word (k := 0x7A) (0xF4000000 + t.toNat * 0x800000 + a.toNat * 0x40000 + b.toNat * 0x2000 + f.toNat * 0x200) rfl rfl (fun x hx => ?_)
  have := t.isLt; have := a.isLt; have := b.isLt; have := f.isLt
  refine ⟨by omega, by omega, ?_⟩
  show Except.ok (Instr.adjb (fld x 23 2) (fld x 18 5) (fld x 13 5) (fld x 9 4)) = _
  rw [fld_eq (x := t) (by omega), fld_eq (x := a) (by omega), fld_eq (x := b) (by omega), fld_eq (x := f) (by omega)]

theorem commit : Statement (.commit) := by
  refine elem_word (k := 0x7C) (0xF8000000) rfl rfl (fun x hx => ?_)
  refine ⟨by omega, by omega, ?_⟩
  show Except.ok (Instr.commit) = _
  rfl

theorem br (k : BitVec 4) (c : BitVec 1) (s : BitVec 4) (m : BitVec 2) (g : BitVec 14) : Statement (.br k c s m g) := by
  refine elem_word (k := 0x7D) (0xFA000000 + k.toNat * 0x200000 + c.toNat * 0x100000 + s.toNat * 0x10000 + m.toNat * 0x4000 + g.toNat * 0x1) rfl rfl (fun x hx => ?_)
  have := k.isLt; have := c.isLt; have := s.isLt; have := m.isLt; have := g.isLt
  refine ⟨by omega, by omega, ?_⟩
  show Except.ok (Instr.br (fld x 21 4) (fld x 20 1) (fld x 16 4) (fld x 14 2) (fld x 0 14)) = _
  rw [fld_eq (x := k) (by omega), fld_eq (x := c) (by omega), fld_eq (x := s) (by omega), fld_eq (x := m) (by omega), fld_eq (x := g) (by omega)]

theorem halt : Statement (.halt) := by
  refine elem_word (k := 0x7E) (0xFC000000) rfl rfl (fun x hx => ?_)
  refine ⟨by omega, by omega, ?_⟩
  show Except.ok (Instr.halt) = _
  rfl

theorem nop : Statement (.nop) := by
  refine switch_word (k := 0) (0x0000) rfl rfl rfl (by decide) (fun x hx => ?_)
  refine ⟨by omega, by omega, ?_⟩
  show Except.ok (Instr.nop) = _
  rfl

theorem circ (i o : BitVec 3) (v : BitVec 4) : Statement (.circ i o v) := by
  refine switch_word (k := 1) (0x2000 + i.toNat * 0x400 + o.toNat * 0x80 + v.toNat * 0x1) rfl rfl rfl (by decide) (fun x hx => ?_)
  have := i.isLt; have := o.isLt; have := v.isLt
  refine ⟨by omega, by omega, ?_⟩
  show Except.ok (Instr.circ (fld x 10 3) (fld x 7 3) (fld x 0 4)) = _
  rw [fld_eq (x := i) (by omega), fld_eq (x := o) (by omega), fld_eq (x := v) (by omega)]

theorem best (i o : BitVec 3) : Statement (.best i o) := by
  refine switch_word (k := 3) (0x6000 + i.toNat * 0x400 + o.toNat * 0x80) rfl rfl rfl (by decide) (fun x hx => ?_)
  have := i.isLt; have := o.isLt
  refine ⟨by omega, by omega, ?_⟩
  show Except.ok (Instr.best (fld x 10 3) (fld x 7 3)) = _
  rw [fld_eq (x := i) (by omega), fld_eq (x := o) (by omega)]

theorem width (o : BitVec 3) (w : BitVec 2) : Statement (.width o w) := by
  refine switch_word (k := 4) (0x8000 + o.toNat * 0x80 + w.toNat * 0x1) rfl rfl rfl (by decide) (fun x hx => ?_)
  have := o.isLt; have := w.isLt
  refine ⟨by omega, by omega, ?_⟩
  show Except.ok (Instr.width (fld x 7 3) (fld x 0 2)) = _
  rw [fld_eq (x := o) (by omega), fld_eq (x := w) (by omega)]

theorem scale (i o : BitVec 3) : Statement (.scale i o) := by
  refine switch_word (k := 5) (0xA000 + i.toNat * 0x400 + o.toNat * 0x80) rfl rfl rfl (by decide) (fun x hx => ?_)
  have := i.isLt; have := o.isLt
  refine ⟨by omega, by omega, ?_⟩
  show Except.ok (Instr.scale (fld x 10 3) (fld x 7 3)) = _
  rw [fld_eq (x := i) (by omega), fld_eq (x := o) (by omega)]

theorem endList : Statement (.endList) := by
  refine switch_word (k := 7) (0xE000) rfl rfl rfl (by decide) (fun x hx => ?_)
  refine ⟨by omega, by omega, ?_⟩
  show Except.ok (Instr.endList) = _
  rfl

theorem blockFire (p e b : Nat) (tag : BitVec 12) : Statement (.blockFire p e b tag) := event_ok rfl

theorem instanceCommit (p e n : Nat) : Statement (.instanceCommit p e n) := event_ok rfl

theorem elementFaultDelivery (p : Nat) : Statement (.elementFaultDelivery p) := event_ok rfl

theorem ereplayDiscard (p : Nat) : Statement (.ereplayDiscard p) := event_ok rfl

theorem ereplayRetry (p : Nat) : Statement (.ereplayRetry p) := event_ok rfl

theorem wfeWake (p : Nat) : Statement (.wfeWake p) := event_ok rfl

theorem wfeTimeout (p : Nat) : Statement (.wfeTimeout p) := event_ok rfl

theorem configSwap (p : Nat) : Statement (.configSwap p) := event_ok rfl

theorem routerForward (p e i v : Nat) : Statement (.routerForward p e i v) := event_ok rfl

theorem generatorEmit (p e o : Nat) : Statement (.generatorEmit p e o) := event_ok rfl

theorem emitterSend (p e o : Nat) : Statement (.emitterSend p e o) := event_ok rfl

theorem rrotRotate (p : Nat) : Statement (.rrotRotate p) := event_ok rfl

theorem scaleTokenArrive (p e : Nat) : Statement (.scaleTokenArrive p e) := event_ok rfl

theorem bankReplay (p e : Nat) : Statement (.bankReplay p e) := event_ok rfl

theorem streamStep (p k : Nat) : Statement (.streamStep p k) := event_ok rfl

theorem repairStep (p k : Nat) : Statement (.repairStep p k) := event_ok rfl

theorem faultRecordWrite (p k : Nat) : Statement (.faultRecordWrite p k) := event_ok rfl

theorem resume (vf : Nat) (v : DWord) : Statement (.resume vf v) := event_ok rfl

theorem escalation (p k : Nat) : Statement (.escalation p k) := event_ok rfl

theorem feTimeout (p e n : Nat) : Statement (.feTimeout p e n) := event_ok rfl

theorem bufferStep (a : AgentId) (n : Nat) : Statement (.bufferStep a n) := event_ok rfl

theorem placeStep (a : AgentId) (n : Nat) : Statement (.placeStep a n) := event_ok rfl

theorem drainStep (b : VisId) (n : Nat) : Statement (.drainStep b n) := event_ok rfl

theorem readStep (a : AgentId) (n : Nat) : Statement (.readStep a n) := event_ok rfl

theorem ownerStep (a : AgentId) (n : Nat) : Statement (.ownerStep a n) := event_ok rfl

theorem releaseStep (p k : Nat) : Statement (.releaseStep p k) := event_ok rfl

theorem installStep (p e q : Nat) : Statement (.installStep p e q) := event_ok rfl

theorem frontCountExchange (p : Nat) : Statement (.frontCountExchange p) := event_ok rfl

theorem walk (part : Nat) (tensor : Bool) (a : DWord) : Statement (.walk part tensor a) := event_ok rfl

theorem tableMigrate (part : Nat) (a : DWord) : Statement (.tableMigrate part a) := event_ok rfl

theorem engineComplete (n : Nat) : Statement (.engineComplete n) := event_ok rfl

theorem gatherBurst (n k : Nat) : Statement (.gatherBurst n k) := event_ok rfl

theorem triggerEvaluate (p t : Nat) : Statement (.triggerEvaluate p t) := event_ok rfl

theorem deadlockProbe (p e : Nat) : Statement (.deadlockProbe p e) := event_ok rfl

theorem probeForward (q n : Nat) : Statement (.probeForward q n) := event_ok rfl

theorem doorbell (vf n : Nat) (v : Word) : Statement (.doorbell vf n v) := event_ok rfl

theorem fqhead (vf : Nat) (v : Word) : Statement (.fqhead vf v) := event_ok rfl

theorem verrClear (vf : Nat) (v : Word) : Statement (.verrClear vf v) := event_ok rfl

theorem bar0WriteOther (vf off : Nat) : Statement (.bar0WriteOther vf off) := event_ok rfl

theorem hostWrite (vf : Nat) (fa : BitVec 56) (bytes : List Byte) : Statement (.hostWrite vf fa bytes) := event_ok rfl

theorem hostRead (vf : Nat) (fa : BitVec 56) (len : Nat) : Statement (.hostRead vf fa len) := event_ok rfl

theorem packetTake (q : Nat) : Statement (.packetTake q) := event_ok rfl

theorem packetTrigger (q : Nat) : Statement (.packetTrigger q) := event_ok rfl

theorem packetStart (q : Nat) : Statement (.packetStart q) := event_ok rfl

theorem configLoad (q : Nat) : Statement (.configLoad q) := event_ok rfl

theorem stage (q : Nat) : Statement (.stage q) := event_ok rfl

theorem loadNaturalEnd (q : Nat) : Statement (.loadNaturalEnd q) := event_ok rfl

theorem loadCompletionRecord (q : Nat) : Statement (.loadCompletionRecord q) := event_ok rfl

theorem loadFreeze (q : Nat) : Statement (.loadFreeze q) := event_ok rfl

theorem evict (q : Nat) : Statement (.evict q) := event_ok rfl

theorem restore (q : Nat) : Statement (.restore q) := event_ok rfl

theorem preempt (q : Nat) : Statement (.preempt q) := event_ok rfl

theorem loadMove (q : Nat) : Statement (.loadMove q) := event_ok rfl

theorem watchdogExpiry (q : Nat) : Statement (.watchdogExpiry q) := event_ok rfl

theorem patchPowerGate (p : Nat) : Statement (.patchPowerGate p) := event_ok rfl

theorem patchWake (p : Nat) : Statement (.patchWake p) := event_ok rfl

theorem pcreate (part : Nat) (keyAddr : FlatAt) (keyCount : Nat) (sig : Bool) : Statement (.pcreate part keyAddr keyCount sig) := event_ok rfl

theorem pdestroy (part : Nat) : Statement (.pdestroy part) := event_ok rfl

theorem grant (g : GrantArgs) : Statement (.grant g) := event_ok rfl

theorem qset (g : QSetArgs) : Statement (.qset g) := event_ok rfl

theorem qenable (q : Nat) : Statement (.qenable q) := event_ok rfl

theorem qdisable (q : Nat) : Statement (.qdisable q) := event_ok rfl

theorem vfbind (vf part : Nat) : Statement (.vfbind vf part) := event_ok rfl

theorem wdack (q : Nat) : Statement (.wdack q) := event_ok rfl

theorem thawCommand (t : ThawName) : Statement (.thawCommand t) := event_ok rfl

theorem lend (q : Nat) : Statement (.lend q) := event_ok rfl

theorem ldiscard (q : Nat) : Statement (.ldiscard q) := event_ok rfl

theorem lpreempt (q : Nat) : Statement (.lpreempt q) := event_ok rfl

theorem inval (part : Nat) (lo hi : DWord) : Statement (.inval part lo hi) := event_ok rfl

theorem timeouts (t : TimeoutArgs) : Statement (.timeouts t) := event_ok rfl

theorem route (entries : List (Nat × Half)) : Statement (.route entries) := event_ok rfl

theorem slotld (port : Nat) (entries : List (Nat × Nat × Half)) : Statement (.slotld port entries) := event_ok rfl

theorem migrate (part phase target : Nat) : Statement (.migrate part phase target) := event_ok rfl

theorem readSaveFrame (q lp piece : Nat) : Statement (.readSaveFrame q lp piece) := event_ok rfl

theorem readSlipcnt (port k : Nat) : Statement (.readSlipcnt port k) := event_ok rfl

theorem readLinkErrors (port k : Nat) : Statement (.readLinkErrors port k) := event_ok rfl

theorem readFailureMap (k : Nat) : Statement (.readFailureMap k) := event_ok rfl

theorem readBootReport (k : Nat) (nonce : List DWord) : Statement (.readBootReport k nonce) := event_ok rfl

theorem readDeviceState (k : Nat) : Statement (.readDeviceState k) := event_ok rfl

theorem readIdentityCert (k : Nat) : Statement (.readIdentityCert k) := event_ok rfl

theorem readThrottle (k : Nat) : Statement (.readThrottle k) := event_ok rfl

theorem rd (port : Nat) (k : Packet) : Statement (.rd port k) := event_ok rfl

theorem rdr (port : Nat) (k : Packet) : Statement (.rdr port k) := event_ok rfl

theorem wr (port : Nat) (k : Packet) : Statement (.wr port k) := event_ok rfl

theorem wra (port : Nat) (k : Packet) : Statement (.wra port k) := event_ok rfl

theorem atom (port : Nat) (k : Packet) : Statement (.atom port k) := event_ok rfl

theorem atomr (port : Nat) (k : Packet) : Statement (.atomr port k) := event_ok rfl

theorem flaginc (port : Nat) (k : Packet) : Statement (.flaginc port k) := event_ok rfl

theorem cust (port : Nat) (k : Packet) : Statement (.cust port k) := event_ok rfl

theorem err (port : Nat) (k : Packet) : Statement (.err port k) := event_ok rfl

theorem redir (port : Nat) (k : Packet) : Statement (.redir port k) := event_ok rfl

theorem sync (port : Nat) (sample : DWord) : Statement (.sync port sample) := event_ok rfl

theorem syncSend (port : Nat) : Statement (.syncSend port) := event_ok rfl

theorem collPacket (port : Nat) (k : Packet) : Statement (.collPacket port k) := event_ok rfl

theorem fabricForward (port n : Nat) : Statement (.fabricForward port n) := event_ok rfl

theorem flitReplay (port n : Nat) : Statement (.flitReplay port n) := event_ok rfl

theorem custodyResend (n : Nat) : Statement (.custodyResend n) := event_ok rfl

theorem custodyTimeout (n : Nat) : Statement (.custodyTimeout n) := event_ok rfl

theorem collectiveStart (n : Nat) (peers : List (List DWord)) : Statement (.collectiveStart n peers) := event_ok rfl

theorem tileArrival (n t : Nat) (data : List Byte) : Statement (.tileArrival n t data) := event_ok rfl

theorem collectiveComplete (n : Nat) : Statement (.collectiveComplete n) := event_ok rfl

theorem collectiveBudgetExpiry (n : Nat) : Statement (.collectiveBudgetExpiry n) := event_ok rfl

theorem framePull (part fa : Nat) (data : List Byte) (full : List Bool) : Statement (.framePull part fa data full) := event_ok rfl

theorem stubForward (k : Packet) : Statement (.stubForward k) := event_ok rfl

theorem migrateAbort (n : Nat) : Statement (.migrateAbort n) := event_ok rfl

theorem deviceReset : Statement (.deviceReset) := event_ok rfl

theorem powerGood (fw : Firmware) : Statement (.powerGood fw) := event_ok rfl

theorem selftestDone (r : SelfTest) : Statement (.selftestDone r) := event_ok rfl

theorem calibrationDone (u : CalUnit) (ok : Bool) : Statement (.calibrationDone u ok) := event_ok rfl

theorem patchJoinFull (p : Nat) : Statement (.patchJoinFull p) := event_ok rfl

theorem throttleRise (die celsius milliPower : Nat) : Statement (.throttleRise die celsius milliPower) := event_ok rfl

theorem throttleFall (die : Nat) : Statement (.throttleFall die) := event_ok rfl

theorem thermalShutdown (celsius : Nat) : Statement (.thermalShutdown celsius) := event_ok rfl

theorem linkStart (port modNum version : Nat) (master : DWord) : Statement (.linkStart port modNum version master) := event_ok rfl

theorem reservedControlWord (w : Word) : Statement (.reservedControlWord w) := event_ok rfl

theorem unknownCommand (code : Byte) : Statement (.unknownCommand code) := event_ok rfl

end Sys2Proof.Laws.RoundTrip
end

