-- ==== Sys2Proof/Laws/State.lean ====
section
/-! SUPPORT. What each update of a table, of the state and of a sequencer leaves, one lemma per field. -/

namespace Sys2Proof.Machine

/-! ### Tables -/

@[simp] theorem smGet_smSet_same {α : Type} (d : α) (m : SMap α) (a : Nat) (x : α) : smGet d (smSet m a x) a = x := by
  induction m with
  | nil => simp [smSet, smGet]
  | cons h t ih =>
    obtain ⟨k, v⟩ := h
    simp only [smSet]
    split
    · simp [smGet]
    · split <;> simp_all [smGet]

theorem smGet_smSet_ne {α : Type} (d : α) (m : SMap α) {a b : Nat} (x : α) (h : b ≠ a) :
    smGet d (smSet m a x) b = smGet d m b := by
  induction m with
  | nil => simp [smSet, smGet, h]
  | cons c t ih =>
    obtain ⟨k, v⟩ := c
    simp only [smSet]
    split
    · rename_i e; subst e; simp [smGet, h]
    · split
      · simp [smGet, h]
      · simp [smGet, ih]

theorem smGet_smSet {α : Type} (d : α) (m : SMap α) (a b : Nat) (x : α) :
    smGet d (smSet m a x) b = if b = a then x else smGet d m b := by
  split
  · rename_i e; subst e; simp
  · rename_i e; exact smGet_smSet_ne d m x e

@[simp] theorem smFind_smSet_same {α : Type} (m : SMap α) (a : Nat) (x : α) : smFind (smSet m a x) a = some x := by
  induction m with
  | nil => simp [smSet, smFind]
  | cons h t ih =>
    obtain ⟨k, v⟩ := h
    simp only [smSet]
    split
    · simp [smFind]
    · split <;> simp_all [smFind]

theorem smFind_smSet_ne {α : Type} (m : SMap α) {a b : Nat} (x : α) (h : b ≠ a) :
    smFind (smSet m a x) b = smFind m b := by
  induction m with
  | nil => simp [smSet, smFind, h]
  | cons c t ih =>
    obtain ⟨k, v⟩ := c
    simp only [smSet]
    split
    · rename_i e; subst e; simp [smFind, h]
    · split
      · simp [smFind, h]
      · simp [smFind, ih]

/-! ### Patches -/

@[simp] theorem patch_setPatch_same (s : State) (p : Nat) (x : Patch) : (s.setPatch p x).patch p = x := by
  simp [State.patch, State.setPatch]

theorem patch_setPatch_ne (s : State) {p n : Nat} (x : Patch) (h : n ≠ p) : (s.setPatch p x).patch n = s.patch n :=
  smGet_smSet_ne _ _ _ h

theorem patch_setPatch (s : State) (p n : Nat) (x : Patch) :
    (s.setPatch p x).patch n = if n = p then x else s.patch n := smGet_smSet _ _ _ _ _

@[simp] theorem setPatch_cur (s : State) (p : Nat) (x : Patch) : (s.setPatch p x).cur = s.cur := rfl
@[simp] theorem setPatch_clock (s : State) (p : Nat) (x : Patch) : (s.setPatch p x).clock = s.clock := rfl
@[simp] theorem setPatch_agenda (s : State) (p : Nat) (x : Patch) : (s.setPatch p x).agenda = s.agenda := rfl
@[simp] theorem setPatch_free (s : State) (p : Nat) (x : Patch) : (s.setPatch p x).free = s.free := rfl
@[simp] theorem setPatch_mem (s : State) (p : Nat) (x : Patch) : (s.setPatch p x).mem = s.mem := rfl
@[simp] theorem setPatch_ord (s : State) (p : Nat) (x : Patch) : (s.setPatch p x).ord = s.ord := rfl
@[simp] theorem setPatch_engines (s : State) (p : Nat) (x : Patch) : (s.setPatch p x).engines = s.engines := rfl
@[simp] theorem setPatch_nextEngine (s : State) (p : Nat) (x : Patch) : (s.setPatch p x).nextEngine = s.nextEngine := rfl
@[simp] theorem setPatch_parts (s : State) (p : Nat) (x : Patch) : (s.setPatch p x).parts = s.parts := rfl
@[simp] theorem setPatch_queues (s : State) (p : Nat) (x : Patch) : (s.setPatch p x).queues = s.queues := rfl
@[simp] theorem setPatch_loads (s : State) (p : Nat) (x : Patch) : (s.setPatch p x).loads = s.loads := rfl
@[simp] theorem setPatch_vfs (s : State) (p : Nat) (x : Patch) : (s.setPatch p x).vfs = s.vfs := rfl
@[simp] theorem setPatch_cache (s : State) (p : Nat) (x : Patch) : (s.setPatch p x).cache = s.cache := rfl
@[simp] theorem setPatch_walks (s : State) (p : Nat) (x : Patch) : (s.setPatch p x).walks = s.walks := rfl
@[simp] theorem setPatch_fabric (s : State) (p : Nat) (x : Patch) : (s.setPatch p x).fabric = s.fabric := rfl
@[simp] theorem setPatch_colls (s : State) (p : Nat) (x : Patch) : (s.setPatch p x).colls = s.colls := rfl
@[simp] theorem setPatch_device (s : State) (p : Nat) (x : Patch) : (s.setPatch p x).device = s.device := rfl
@[simp] theorem setPatch_reply (s : State) (p : Nat) (x : Patch) : (s.setPatch p x).reply = s.reply := rfl
@[simp] theorem setPatch_freezes (s : State) (p : Nat) (x : Patch) : (s.setPatch p x).freezes = s.freezes := rfl
@[simp] theorem setPatch_part (s : State) (p n : Nat) (x : Patch) : (s.setPatch p x).part n = s.part n := rfl
@[simp] theorem setPatch_queue (s : State) (p n : Nat) (x : Patch) : (s.setPatch p x).queue n = s.queue n := rfl
@[simp] theorem setPatch_nextLoad (s : State) (p : Nat) (x : Patch) : (s.setPatch p x).nextLoad = s.nextLoad := rfl
@[simp] theorem setPatch_rounds (s : State) (p : Nat) (x : Patch) : (s.setPatch p x).rounds = s.rounds := rfl
@[simp] theorem setPatch_probes (s : State) (p : Nat) (x : Patch) : (s.setPatch p x).probes = s.probes := rfl
@[simp] theorem setPatch_msix (s : State) (p : Nat) (x : Patch) : (s.setPatch p x).msix = s.msix := rfl
@[simp] theorem setPatch_hostReads (s : State) (p : Nat) (x : Patch) : (s.setPatch p x).hostReads = s.hostReads := rfl
@[simp] theorem setPatch_hostAsks (s : State) (p : Nat) (x : Patch) : (s.setPatch p x).hostAsks = s.hostAsks := rfl
@[simp] theorem setPatch_outbound (s : State) (p : Nat) (x : Patch) : (s.setPatch p x).outbound = s.outbound := rfl

/-! ### Sequencers -/

@[simp] theorem seq_setSeq_same (s : State) (p : Nat) (q : Seq) : (s.setSeq p q).seq p = q := by
  simp [State.seq, State.setSeq]

theorem seq_setSeq_ne (s : State) {p n : Nat} (q : Seq) (h : n ≠ p) : (s.setSeq p q).seq n = s.seq n := by
  simp [State.seq, State.setSeq, patch_setPatch_ne _ _ h]

theorem patch_setSeq_same (s : State) (p : Nat) (q : Seq) : (s.setSeq p q).patch p = { s.patch p with seq := q } := by
  simp [State.setSeq]

theorem patch_setSeq_ne (s : State) {p n : Nat} (q : Seq) (h : n ≠ p) : (s.setSeq p q).patch n = s.patch n :=
  patch_setPatch_ne _ _ h

@[simp] theorem setSeq_cur (s : State) (p : Nat) (q : Seq) : (s.setSeq p q).cur = s.cur := rfl
@[simp] theorem setSeq_clock (s : State) (p : Nat) (q : Seq) : (s.setSeq p q).clock = s.clock := rfl
@[simp] theorem setSeq_mem (s : State) (p : Nat) (q : Seq) : (s.setSeq p q).mem = s.mem := rfl
@[simp] theorem setSeq_ord (s : State) (p : Nat) (q : Seq) : (s.setSeq p q).ord = s.ord := rfl
@[simp] theorem setSeq_loads (s : State) (p : Nat) (q : Seq) : (s.setSeq p q).loads = s.loads := rfl
@[simp] theorem setSeq_freezes (s : State) (p : Nat) (q : Seq) : (s.setSeq p q).freezes = s.freezes := rfl
@[simp] theorem setSeq_agenda (s : State) (p : Nat) (q : Seq) : (s.setSeq p q).agenda = s.agenda := rfl
@[simp] theorem setSeq_free (s : State) (p : Nat) (q : Seq) : (s.setSeq p q).free = s.free := rfl
@[simp] theorem setSeq_engines (s : State) (p : Nat) (q : Seq) : (s.setSeq p q).engines = s.engines := rfl
@[simp] theorem setSeq_nextEngine (s : State) (p : Nat) (q : Seq) : (s.setSeq p q).nextEngine = s.nextEngine := rfl
@[simp] theorem setSeq_parts (s : State) (p : Nat) (q : Seq) : (s.setSeq p q).parts = s.parts := rfl
@[simp] theorem setSeq_queues (s : State) (p : Nat) (q : Seq) : (s.setSeq p q).queues = s.queues := rfl
@[simp] theorem setSeq_nextLoad (s : State) (p : Nat) (q : Seq) : (s.setSeq p q).nextLoad = s.nextLoad := rfl
@[simp] theorem setSeq_rounds (s : State) (p : Nat) (q : Seq) : (s.setSeq p q).rounds = s.rounds := rfl
@[simp] theorem setSeq_vfs (s : State) (p : Nat) (q : Seq) : (s.setSeq p q).vfs = s.vfs := rfl
@[simp] theorem setSeq_cache (s : State) (p : Nat) (q : Seq) : (s.setSeq p q).cache = s.cache := rfl
@[simp] theorem setSeq_walks (s : State) (p : Nat) (q : Seq) : (s.setSeq p q).walks = s.walks := rfl
@[simp] theorem setSeq_fabric (s : State) (p : Nat) (q : Seq) : (s.setSeq p q).fabric = s.fabric := rfl
@[simp] theorem setSeq_colls (s : State) (p : Nat) (q : Seq) : (s.setSeq p q).colls = s.colls := rfl
@[simp] theorem setSeq_probes (s : State) (p : Nat) (q : Seq) : (s.setSeq p q).probes = s.probes := rfl
@[simp] theorem setSeq_device (s : State) (p : Nat) (q : Seq) : (s.setSeq p q).device = s.device := rfl
@[simp] theorem setSeq_reply (s : State) (p : Nat) (q : Seq) : (s.setSeq p q).reply = s.reply := rfl
@[simp] theorem setSeq_msix (s : State) (p : Nat) (q : Seq) : (s.setSeq p q).msix = s.msix := rfl
@[simp] theorem setSeq_hostReads (s : State) (p : Nat) (q : Seq) : (s.setSeq p q).hostReads = s.hostReads := rfl
@[simp] theorem setSeq_hostAsks (s : State) (p : Nat) (q : Seq) : (s.setSeq p q).hostAsks = s.hostAsks := rfl
@[simp] theorem setSeq_outbound (s : State) (p : Nat) (q : Seq) : (s.setSeq p q).outbound = s.outbound := rfl

theorem elem_setSeq (s : State) (p n e : Nat) (q : Seq) : (s.setSeq p q).elem n e = s.elem n e := by
  by_cases h : n = p
  · subst h; simp [State.elem, patch_setSeq_same, Patch.elem]
  · simp [State.elem, patch_setSeq_ne _ _ h]

theorem port_setSeq (s : State) (p n k : Nat) (q : Seq) : (s.setSeq p q).port n k = s.port n k := by
  by_cases h : n = p
  · subst h; simp [State.port, patch_setSeq_same, Patch.port]
  · simp [State.port, patch_setSeq_ne _ _ h]

/-- A g register reads what was written to it last; g0 reads 0 (R12, R109). -/
theorem get_put (q : Seq) (r t : BitVec 5) (v : Word) (h : q.g.length = 32) :
    (q.put r v).get t = if t = r ∧ r ≠ 0 then v else q.get t := by
  have hlt := r.isLt
  by_cases hr : r = 0#5
  · subst hr; simp [Seq.put]
  · by_cases e : t = r
    · subst e
      have hb : t.toNat < q.g.length := by omega
      simp [Seq.put, Seq.get, hr, List.getD_eq_getElem?_getD, List.getElem?_set_self hb]
    · have hne : r.toNat ≠ t.toNat := fun x => e (BitVec.eq_of_toNat_eq x.symm)
      simp [Seq.put, Seq.get, hr, e, List.getD_eq_getElem?_getD, hne]

@[simp] theorem get_zero (q : Seq) : q.get 0 = 0 := rfl

@[simp] theorem put_g_length (q : Seq) (r : BitVec 5) (v : Word) : (q.put r v).g.length = q.g.length := by
  unfold Seq.put; split <;> simp

@[simp] theorem put_pc (q : Seq) (r : BitVec 5) (v : Word) : (q.put r v).pc = q.pc := by unfold Seq.put; split <;> rfl
@[simp] theorem put_lc (q : Seq) (r : BitVec 5) (v : Word) : (q.put r v).lc = q.lc := by unfold Seq.put; split <;> rfl
@[simp] theorem put_lb (q : Seq) (r : BitVec 5) (v : Word) : (q.put r v).lb = q.lb := by unfold Seq.put; split <;> rfl
@[simp] theorem put_le (q : Seq) (r : BitVec 5) (v : Word) : (q.put r v).le = q.le := by unfold Seq.put; split <;> rfl
@[simp] theorem put_k (q : Seq) (r : BitVec 5) (v : Word) : (q.put r v).k = q.k := by unfold Seq.put; split <;> rfl
@[simp] theorem put_xt (q : Seq) (r : BitVec 5) (v : Word) : (q.put r v).xt = q.xt := by unfold Seq.put; split <;> rfl
@[simp] theorem put_store (q : Seq) (r : BitVec 5) (v : Word) : (q.put r v).store = q.store := by unfold Seq.put; split <;> rfl
@[simp] theorem put_held (q : Seq) (r : BitVec 5) (v : Word) : (q.put r v).held = q.held := by unfold Seq.put; split <;> rfl

@[simp] theorem put_xpc (q : Seq) (r : BitVec 5) (v : Word) : (q.put r v).xpc = q.xpc := by unfold Seq.put; split <;> rfl
@[simp] theorem put_xcause (q : Seq) (r : BitVec 5) (v : Word) : (q.put r v).xcause = q.xcause := by unfold Seq.put; split <;> rfl
@[simp] theorem put_xval (q : Seq) (r : BitVec 5) (v : Word) : (q.put r v).xval = q.xval := by unfold Seq.put; split <;> rfl
@[simp] theorem put_xvalh (q : Seq) (r : BitVec 5) (v : Word) : (q.put r v).xvalh = q.xvalh := by unfold Seq.put; split <;> rfl
@[simp] theorem put_xinfo (q : Seq) (r : BitVec 5) (v : Word) : (q.put r v).xinfo = q.xinfo := by unfold Seq.put; split <;> rfl
@[simp] theorem put_dz (q : Seq) (r : BitVec 5) (v : Word) : (q.put r v).dz = q.dz := by unfold Seq.put; split <;> rfl
@[simp] theorem put_wf (q : Seq) (r : BitVec 5) (v : Word) : (q.put r v).wf = q.wf := by unfold Seq.put; split <;> rfl
@[simp] theorem put_latch (q : Seq) (r : BitVec 5) (v : Word) : (q.put r v).latch = q.latch := by unfold Seq.put; split <;> rfl
@[simp] theorem put_tsch (q : Seq) (r : BitVec 5) (v : Word) : (q.put r v).tsch = q.tsch := by unfold Seq.put; split <;> rfl
@[simp] theorem put_vhash (q : Seq) (r : BitVec 5) (v : Word) : (q.put r v).vhash = q.vhash := by unfold Seq.put; split <;> rfl
@[simp] theorem put_last (q : Seq) (r : BitVec 5) (v : Word) : (q.put r v).last = q.last := by unfold Seq.put; split <;> rfl
@[simp] theorem put_wfeAt (q : Seq) (r : BitVec 5) (v : Word) : (q.put r v).wfeAt = q.wfeAt := by unfold Seq.put; split <;> rfl
@[simp] theorem put_token (q : Seq) (r : BitVec 5) (v : Word) : (q.put r v).token = q.token := by unfold Seq.put; split <;> rfl
@[simp] theorem put_begun (q : Seq) (r : BitVec 5) (v : Word) : (q.put r v).begun = q.begun := by unfold Seq.put; split <;> rfl
@[simp] theorem put_frozen (q : Seq) (r : BitVec 5) (v : Word) : (q.put r v).frozen = q.frozen := by unfold Seq.put; split <;> rfl

/-- Writing a g register changes the list of g registers alone. -/
theorem put_others (q : Seq) (r : BitVec 5) (v : Word) : { q.put r v with g := q.g } = q := by unfold Seq.put; split <;> rfl

/-! ### Elements -/

@[simp] theorem elem_setElem_same (s : State) (p e : Nat) (v : Elem) : (s.setElem p e v).elem p e = v := by
  simp [State.elem, State.setElem, Patch.elem, Patch.setElem]

theorem elem_setElem_ne (s : State) {p e n m : Nat} (v : Elem) (h : n ≠ p ∨ m ≠ e) :
    (s.setElem p e v).elem n m = s.elem n m := by
  by_cases hn : n = p
  · subst hn
    have hm : m ≠ e := by simpa using h
    simp [State.elem, State.setElem, Patch.elem, Patch.setElem, smGet_smSet_ne _ _ _ hm]
  · simp [State.elem, State.setElem, patch_setPatch_ne _ _ hn]

theorem seq_setElem (s : State) (p e n : Nat) (v : Elem) : (s.setElem p e v).seq n = s.seq n := by
  by_cases h : n = p
  · subst h; simp [State.seq, State.setElem, Patch.setElem]
  · simp [State.seq, State.setElem, patch_setPatch_ne _ _ h]

@[simp] theorem setElem_cur (s : State) (p e : Nat) (v : Elem) : (s.setElem p e v).cur = s.cur := rfl
@[simp] theorem setElem_clock (s : State) (p e : Nat) (v : Elem) : (s.setElem p e v).clock = s.clock := rfl
@[simp] theorem setElem_mem (s : State) (p e : Nat) (v : Elem) : (s.setElem p e v).mem = s.mem := rfl
@[simp] theorem setElem_ord (s : State) (p e : Nat) (v : Elem) : (s.setElem p e v).ord = s.ord := rfl
@[simp] theorem setElem_loads (s : State) (p e : Nat) (v : Elem) : (s.setElem p e v).loads = s.loads := rfl
@[simp] theorem setElem_freezes (s : State) (p e : Nat) (v : Elem) : (s.setElem p e v).freezes = s.freezes := rfl
@[simp] theorem setElem_agenda (s : State) (p e : Nat) (v : Elem) : (s.setElem p e v).agenda = s.agenda := rfl
@[simp] theorem setElem_free (s : State) (p e : Nat) (v : Elem) : (s.setElem p e v).free = s.free := rfl
@[simp] theorem setElem_engines (s : State) (p e : Nat) (v : Elem) : (s.setElem p e v).engines = s.engines := rfl
@[simp] theorem setElem_nextEngine (s : State) (p e : Nat) (v : Elem) : (s.setElem p e v).nextEngine = s.nextEngine := rfl
@[simp] theorem setElem_parts (s : State) (p e : Nat) (v : Elem) : (s.setElem p e v).parts = s.parts := rfl
@[simp] theorem setElem_queues (s : State) (p e : Nat) (v : Elem) : (s.setElem p e v).queues = s.queues := rfl
@[simp] theorem setElem_nextLoad (s : State) (p e : Nat) (v : Elem) : (s.setElem p e v).nextLoad = s.nextLoad := rfl
@[simp] theorem setElem_rounds (s : State) (p e : Nat) (v : Elem) : (s.setElem p e v).rounds = s.rounds := rfl
@[simp] theorem setElem_vfs (s : State) (p e : Nat) (v : Elem) : (s.setElem p e v).vfs = s.vfs := rfl
@[simp] theorem setElem_cache (s : State) (p e : Nat) (v : Elem) : (s.setElem p e v).cache = s.cache := rfl
@[simp] theorem setElem_walks (s : State) (p e : Nat) (v : Elem) : (s.setElem p e v).walks = s.walks := rfl
@[simp] theorem setElem_fabric (s : State) (p e : Nat) (v : Elem) : (s.setElem p e v).fabric = s.fabric := rfl
@[simp] theorem setElem_colls (s : State) (p e : Nat) (v : Elem) : (s.setElem p e v).colls = s.colls := rfl
@[simp] theorem setElem_probes (s : State) (p e : Nat) (v : Elem) : (s.setElem p e v).probes = s.probes := rfl
@[simp] theorem setElem_device (s : State) (p e : Nat) (v : Elem) : (s.setElem p e v).device = s.device := rfl
@[simp] theorem setElem_reply (s : State) (p e : Nat) (v : Elem) : (s.setElem p e v).reply = s.reply := rfl
@[simp] theorem setElem_msix (s : State) (p e : Nat) (v : Elem) : (s.setElem p e v).msix = s.msix := rfl
@[simp] theorem setElem_hostReads (s : State) (p e : Nat) (v : Elem) : (s.setElem p e v).hostReads = s.hostReads := rfl
@[simp] theorem setElem_hostAsks (s : State) (p e : Nat) (v : Elem) : (s.setElem p e v).hostAsks = s.hostAsks := rfl
@[simp] theorem setElem_outbound (s : State) (p e : Nat) (v : Elem) : (s.setElem p e v).outbound = s.outbound := rfl

/-! ### Ports, partitions, queues -/

@[simp] theorem port_setPort_same (s : State) (p k : Nat) (v : Port) : (s.setPort p k v).port p k = v := by
  simp [State.port, State.setPort, Patch.port]

theorem port_setPort_ne (s : State) {p k n m : Nat} (v : Port) (h : n ≠ p ∨ m ≠ k) :
    (s.setPort p k v).port n m = s.port n m := by
  by_cases hn : n = p
  · subst hn
    have hm : m ≠ k := by simpa using h
    simp [State.port, State.setPort, Patch.port, smGet_smSet_ne _ _ _ hm]
  · simp [State.port, State.setPort, patch_setPatch_ne _ _ hn]

@[simp] theorem setPort_mem (s : State) (p k : Nat) (v : Port) : (s.setPort p k v).mem = s.mem := rfl
@[simp] theorem setPort_ord (s : State) (p k : Nat) (v : Port) : (s.setPort p k v).ord = s.ord := rfl
@[simp] theorem setPort_agenda (s : State) (p k : Nat) (v : Port) : (s.setPort p k v).agenda = s.agenda := rfl
@[simp] theorem setPort_cur (s : State) (p k : Nat) (v : Port) : (s.setPort p k v).cur = s.cur := rfl
@[simp] theorem setPort_clock (s : State) (p k : Nat) (v : Port) : (s.setPort p k v).clock = s.clock := rfl
@[simp] theorem setPort_free (s : State) (p k : Nat) (v : Port) : (s.setPort p k v).free = s.free := rfl
@[simp] theorem setPort_engines (s : State) (p k : Nat) (v : Port) : (s.setPort p k v).engines = s.engines := rfl
@[simp] theorem setPort_nextEngine (s : State) (p k : Nat) (v : Port) : (s.setPort p k v).nextEngine = s.nextEngine := rfl
@[simp] theorem setPort_parts (s : State) (p k : Nat) (v : Port) : (s.setPort p k v).parts = s.parts := rfl
@[simp] theorem setPort_queues (s : State) (p k : Nat) (v : Port) : (s.setPort p k v).queues = s.queues := rfl
@[simp] theorem setPort_loads (s : State) (p k : Nat) (v : Port) : (s.setPort p k v).loads = s.loads := rfl
@[simp] theorem setPort_nextLoad (s : State) (p k : Nat) (v : Port) : (s.setPort p k v).nextLoad = s.nextLoad := rfl
@[simp] theorem setPort_rounds (s : State) (p k : Nat) (v : Port) : (s.setPort p k v).rounds = s.rounds := rfl
@[simp] theorem setPort_vfs (s : State) (p k : Nat) (v : Port) : (s.setPort p k v).vfs = s.vfs := rfl
@[simp] theorem setPort_cache (s : State) (p k : Nat) (v : Port) : (s.setPort p k v).cache = s.cache := rfl
@[simp] theorem setPort_walks (s : State) (p k : Nat) (v : Port) : (s.setPort p k v).walks = s.walks := rfl
@[simp] theorem setPort_fabric (s : State) (p k : Nat) (v : Port) : (s.setPort p k v).fabric = s.fabric := rfl
@[simp] theorem setPort_colls (s : State) (p k : Nat) (v : Port) : (s.setPort p k v).colls = s.colls := rfl
@[simp] theorem setPort_probes (s : State) (p k : Nat) (v : Port) : (s.setPort p k v).probes = s.probes := rfl
@[simp] theorem setPort_device (s : State) (p k : Nat) (v : Port) : (s.setPort p k v).device = s.device := rfl
@[simp] theorem setPort_reply (s : State) (p k : Nat) (v : Port) : (s.setPort p k v).reply = s.reply := rfl
@[simp] theorem setPort_freezes (s : State) (p k : Nat) (v : Port) : (s.setPort p k v).freezes = s.freezes := rfl
@[simp] theorem setPort_msix (s : State) (p k : Nat) (v : Port) : (s.setPort p k v).msix = s.msix := rfl
@[simp] theorem setPort_hostReads (s : State) (p k : Nat) (v : Port) : (s.setPort p k v).hostReads = s.hostReads := rfl
@[simp] theorem setPort_hostAsks (s : State) (p k : Nat) (v : Port) : (s.setPort p k v).hostAsks = s.hostAsks := rfl
@[simp] theorem setPort_outbound (s : State) (p k : Nat) (v : Port) : (s.setPort p k v).outbound = s.outbound := rfl

@[simp] theorem part_setPart_same (s : State) (n : Nat) (x : Part) : (s.setPart n x).part n = x := by
  simp [State.part, State.setPart]

theorem part_setPart_ne (s : State) {n m : Nat} (x : Part) (h : m ≠ n) : (s.setPart n x).part m = s.part m :=
  smGet_smSet_ne _ _ _ h

@[simp] theorem setPart_mem (s : State) (n : Nat) (x : Part) : (s.setPart n x).mem = s.mem := rfl
@[simp] theorem setPart_ord (s : State) (n : Nat) (x : Part) : (s.setPart n x).ord = s.ord := rfl
@[simp] theorem setPart_patch (s : State) (n p : Nat) (x : Part) : (s.setPart n x).patch p = s.patch p := rfl
@[simp] theorem setPart_queues (s : State) (n : Nat) (x : Part) : (s.setPart n x).queues = s.queues := rfl
@[simp] theorem setPart_agenda (s : State) (n : Nat) (x : Part) : (s.setPart n x).agenda = s.agenda := rfl
@[simp] theorem setPart_cur (s : State) (n : Nat) (x : Part) : (s.setPart n x).cur = s.cur := rfl
@[simp] theorem setPart_clock (s : State) (n : Nat) (x : Part) : (s.setPart n x).clock = s.clock := rfl
@[simp] theorem setPart_free (s : State) (n : Nat) (x : Part) : (s.setPart n x).free = s.free := rfl
@[simp] theorem setPart_engines (s : State) (n : Nat) (x : Part) : (s.setPart n x).engines = s.engines := rfl
@[simp] theorem setPart_nextEngine (s : State) (n : Nat) (x : Part) : (s.setPart n x).nextEngine = s.nextEngine := rfl
@[simp] theorem setPart_loads (s : State) (n : Nat) (x : Part) : (s.setPart n x).loads = s.loads := rfl
@[simp] theorem setPart_nextLoad (s : State) (n : Nat) (x : Part) : (s.setPart n x).nextLoad = s.nextLoad := rfl
@[simp] theorem setPart_rounds (s : State) (n : Nat) (x : Part) : (s.setPart n x).rounds = s.rounds := rfl
@[simp] theorem setPart_vfs (s : State) (n : Nat) (x : Part) : (s.setPart n x).vfs = s.vfs := rfl
@[simp] theorem setPart_cache (s : State) (n : Nat) (x : Part) : (s.setPart n x).cache = s.cache := rfl
@[simp] theorem setPart_walks (s : State) (n : Nat) (x : Part) : (s.setPart n x).walks = s.walks := rfl
@[simp] theorem setPart_fabric (s : State) (n : Nat) (x : Part) : (s.setPart n x).fabric = s.fabric := rfl
@[simp] theorem setPart_colls (s : State) (n : Nat) (x : Part) : (s.setPart n x).colls = s.colls := rfl
@[simp] theorem setPart_probes (s : State) (n : Nat) (x : Part) : (s.setPart n x).probes = s.probes := rfl
@[simp] theorem setPart_device (s : State) (n : Nat) (x : Part) : (s.setPart n x).device = s.device := rfl
@[simp] theorem setPart_reply (s : State) (n : Nat) (x : Part) : (s.setPart n x).reply = s.reply := rfl
@[simp] theorem setPart_freezes (s : State) (n : Nat) (x : Part) : (s.setPart n x).freezes = s.freezes := rfl
@[simp] theorem setPart_msix (s : State) (n : Nat) (x : Part) : (s.setPart n x).msix = s.msix := rfl
@[simp] theorem setPart_hostReads (s : State) (n : Nat) (x : Part) : (s.setPart n x).hostReads = s.hostReads := rfl
@[simp] theorem setPart_hostAsks (s : State) (n : Nat) (x : Part) : (s.setPart n x).hostAsks = s.hostAsks := rfl
@[simp] theorem setPart_outbound (s : State) (n : Nat) (x : Part) : (s.setPart n x).outbound = s.outbound := rfl
@[simp] theorem setPart_patches (s : State) (n : Nat) (x : Part) : (s.setPart n x).patches = s.patches := rfl

@[simp] theorem queue_setQueue_same (s : State) (n : Nat) (x : Queue) : (s.setQueue n x).queue n = x := by
  simp [State.queue, State.setQueue]

theorem queue_setQueue_ne (s : State) {n m : Nat} (x : Queue) (h : m ≠ n) : (s.setQueue n x).queue m = s.queue m :=
  smGet_smSet_ne _ _ _ h

@[simp] theorem setQueue_mem (s : State) (n : Nat) (x : Queue) : (s.setQueue n x).mem = s.mem := rfl
@[simp] theorem setQueue_ord (s : State) (n : Nat) (x : Queue) : (s.setQueue n x).ord = s.ord := rfl
@[simp] theorem setQueue_patch (s : State) (n p : Nat) (x : Queue) : (s.setQueue n x).patch p = s.patch p := rfl
@[simp] theorem setQueue_parts (s : State) (n : Nat) (x : Queue) : (s.setQueue n x).parts = s.parts := rfl
@[simp] theorem setQueue_agenda (s : State) (n : Nat) (x : Queue) : (s.setQueue n x).agenda = s.agenda := rfl
@[simp] theorem setQueue_cur (s : State) (n : Nat) (x : Queue) : (s.setQueue n x).cur = s.cur := rfl
@[simp] theorem setQueue_clock (s : State) (n : Nat) (x : Queue) : (s.setQueue n x).clock = s.clock := rfl
@[simp] theorem setQueue_free (s : State) (n : Nat) (x : Queue) : (s.setQueue n x).free = s.free := rfl
@[simp] theorem setQueue_engines (s : State) (n : Nat) (x : Queue) : (s.setQueue n x).engines = s.engines := rfl
@[simp] theorem setQueue_nextEngine (s : State) (n : Nat) (x : Queue) : (s.setQueue n x).nextEngine = s.nextEngine := rfl
@[simp] theorem setQueue_loads (s : State) (n : Nat) (x : Queue) : (s.setQueue n x).loads = s.loads := rfl
@[simp] theorem setQueue_nextLoad (s : State) (n : Nat) (x : Queue) : (s.setQueue n x).nextLoad = s.nextLoad := rfl
@[simp] theorem setQueue_rounds (s : State) (n : Nat) (x : Queue) : (s.setQueue n x).rounds = s.rounds := rfl
@[simp] theorem setQueue_vfs (s : State) (n : Nat) (x : Queue) : (s.setQueue n x).vfs = s.vfs := rfl
@[simp] theorem setQueue_cache (s : State) (n : Nat) (x : Queue) : (s.setQueue n x).cache = s.cache := rfl
@[simp] theorem setQueue_walks (s : State) (n : Nat) (x : Queue) : (s.setQueue n x).walks = s.walks := rfl
@[simp] theorem setQueue_fabric (s : State) (n : Nat) (x : Queue) : (s.setQueue n x).fabric = s.fabric := rfl
@[simp] theorem setQueue_colls (s : State) (n : Nat) (x : Queue) : (s.setQueue n x).colls = s.colls := rfl
@[simp] theorem setQueue_probes (s : State) (n : Nat) (x : Queue) : (s.setQueue n x).probes = s.probes := rfl
@[simp] theorem setQueue_device (s : State) (n : Nat) (x : Queue) : (s.setQueue n x).device = s.device := rfl
@[simp] theorem setQueue_reply (s : State) (n : Nat) (x : Queue) : (s.setQueue n x).reply = s.reply := rfl
@[simp] theorem setQueue_freezes (s : State) (n : Nat) (x : Queue) : (s.setQueue n x).freezes = s.freezes := rfl
@[simp] theorem setQueue_msix (s : State) (n : Nat) (x : Queue) : (s.setQueue n x).msix = s.msix := rfl
@[simp] theorem setQueue_hostReads (s : State) (n : Nat) (x : Queue) : (s.setQueue n x).hostReads = s.hostReads := rfl
@[simp] theorem setQueue_hostAsks (s : State) (n : Nat) (x : Queue) : (s.setQueue n x).hostAsks = s.hostAsks := rfl
@[simp] theorem setQueue_outbound (s : State) (n : Nat) (x : Queue) : (s.setQueue n x).outbound = s.outbound := rfl
@[simp] theorem setQueue_patches (s : State) (n : Nat) (x : Queue) : (s.setQueue n x).patches = s.patches := rfl

/-! ### Accesses -/

@[simp] theorem issue_mem (s : State) (g : AgentId) (sc : Scope) (pl : Place) (op : AccOp) (a r : Bool) (fa : DWord) :
    (s.issue g sc pl op a r fa).mem = s.mem := rfl
@[simp] theorem issue_patch (s : State) (g : AgentId) (sc : Scope) (pl : Place) (op : AccOp) (a r : Bool) (fa : DWord)
    (p : Nat) : (s.issue g sc pl op a r fa).patch p = s.patch p := rfl
@[simp] theorem issue_vis (s : State) (g : AgentId) (sc : Scope) (pl : Place) (op : AccOp) (a r : Bool) (fa : DWord) :
    (s.issue g sc pl op a r fa).ord.vis = s.ord.vis := rfl

/-- Entering a store's words touches nothing but the accesses under way. -/
theorem State.issueWords_only_ord (l : List Store) (s : State) (grp : Nat) (a : AgentId) : ∃ o, s.issueWords grp a l = { s with ord := o } := by
  induction l generalizing s with
  | nil => exact ⟨s.ord, rfl⟩
  | cons st r ih => exact ih _

theorem State.issueStore_only_ord (s : State) (a : AgentId) (st : Store) : ∃ o, s.issueStore a st = { s with ord := o } :=
  State.issueWords_only_ord ..

end Sys2Proof.Machine
end

