-- ==== Sys2Proof/Laws/Words.lean ====
section
/-! SUPPORT. How the parts of an element word chain, and what running one comes to in each case; a proof about a word cites these and
unfolds neither `runWord` nor the monad. -/

namespace Sys2Proof.Machine

/-- A part that has succeeded, followed by the rest. -/
theorem W.bind_of_ok {α β : Type} {f : W α} {g : α → W β} {k k' : Wk} {x : α} (h : f k = .ok (x, k')) : (f >>= g) k = g x k' := by
  show (do let (a, t) ← f k; g a t : Except Stop (β × Wk)) = _
  rw [h]
  rfl

/-- A part that has stopped ends the word. -/
theorem W.bind_of_error {α β : Type} {f : W α} {g : α → W β} {k : Wk} {e : Stop} (h : f k = .error e) : (f >>= g) k = .error e := by
  show (do let (a, t) ← f k; g a t : Except Stop (β × Wk)) = _
  rw [h]
  rfl

/-- A chain that succeeds has a first part that does, and a rest that does after it. -/
theorem W.ok_of_bind {α β : Type} {f : W α} {g : α → W β} {k k' : Wk} {y : β} (h : (f >>= g) k = .ok (y, k')) :
    ∃ x k₁, f k = .ok (x, k₁) ∧ g x k₁ = .ok (y, k') := by
  match hf : f k with
  | .ok (x, k₁) =>
    rw [W.bind_of_ok hf] at h
    exact ⟨x, k₁, rfl, h⟩
  | .error e =>
    rw [W.bind_of_error hf] at h
    cases h

@[simp] theorem W.pure_apply {α : Type} (x : α) (k : Wk) : (pure x : W α) k = .ok (x, k) := rfl

@[simp] theorem W.get_apply (k : Wk) : (get : W Wk) k = .ok (k, k) := rfl

@[simp] theorem W.throw_apply {α : Type} (e : Stop) (k : Wk) : (throw e : W α) k = .error e := rfl

@[simp] theorem W.modify_apply (f : Wk → Wk) (k : Wk) : (modify f : W PUnit) k = .ok ((), f k) := rfl

/-- A word whose work is done: its instance stands at the next word, and its element has moved. -/
theorem runWord_of_ok {f : W Unit} {s : State} {i : Inst} {k : Wk} (hi : (s.elem s.cur.patch s.cur.el).inst s.cur.inst = some i)
    (hf : i.st = .fired) (hs : s.still s.cur.patch s.cur.el = false) (h : f ⟨s, i⟩ = .ok ((), k)) :
    runWord f s = .next ((k.s.putInst s.cur.patch s.cur.el (s.wordDone s.cur.patch s.cur.el k.i)).moved s.cur.patch s.cur.el) := by
  simp only [runWord, hi, hf, hs, h]
  rfl

/-- A word that waits on its own account: its instance notes since when, and what its wait covers. -/
theorem runWord_of_wait {f : W Unit} {s : State} {i : Inst} {c : Option (List Nat)}
    (hi : (s.elem s.cur.patch s.cur.el).inst s.cur.inst = some i) (hf : i.st = .fired) (hs : s.still s.cur.patch s.cur.el = false)
    (h : f ⟨s, i⟩ = .error (.wait c)) :
    runWord f s = .next (s.putInst s.cur.patch s.cur.el { i with since := some (i.since.getD s.clock.ns), cover := c }) := by
  simp only [runWord, hi, hf, hs, h]
  rfl

/-- A word that waits for an operand changes nothing, where no wait of another kind had begun. -/
theorem runWord_of_hold {f : W Unit} {s : State} {i : Inst} (hi : (s.elem s.cur.patch s.cur.el).inst s.cur.inst = some i)
    (hf : i.st = .fired) (hs : s.still s.cur.patch s.cur.el = false) (hn : i.since = none) (hp : i.pullAt = none)
    (h : f ⟨s, i⟩ = .error .hold) : runWord f s = .next s := by
  simp only [runWord, hi, hf, hs, h, hn, hp]
  rfl

/-- A word that waits, and leaves a machine in which it holds more of what it waits for. -/
theorem runWord_of_keep {f : W Unit} {s t : State} {i : Inst} (hi : (s.elem s.cur.patch s.cur.el).inst s.cur.inst = some i)
    (hf : i.st = .fired) (hs : s.still s.cur.patch s.cur.el = false) (h : f ⟨s, i⟩ = .error (.keep t)) :
    runWord f s = .next ((t.clearWait s.cur.patch s.cur.el i.id).startUnit s.cur.patch s.cur.el i.id) := by
  simp only [runWord, hi, hf, hs, h]
  rfl

/-- A word that faults. -/
theorem runWord_of_fault {f : W Unit} {s : State} {i : Inst} {c : Cause} {sub : Nat} {v : DWord}
    (hi : (s.elem s.cur.patch s.cur.el).inst s.cur.inst = some i) (hf : i.st = .fired) (hs : s.still s.cur.patch s.cur.el = false)
    (h : f ⟨s, i⟩ = .error (.fault c sub v)) :
    runWord f s = .next ((s.dropRefusals s.cur.patch s.cur.el).elemFault s.cur.patch s.cur.el i c sub v) := by
  simp only [runWord, hi, hf, hs, h]
  rfl

/-- A word never stops the machine. -/
theorem runWord_goes_on (f : W Unit) (s : State) : ∃ t, runWord f s = .next t := by
  simp only [runWord]
  split
  · exact ⟨_, rfl⟩
  · split
    · exact ⟨_, rfl⟩
    · split <;> exact ⟨_, rfl⟩

/-- A read gives as many bytes as it asks for. -/
theorem State.readOver_length (s : State) (ag : AgentId) (n : Nat) (sc : Scope) (got : List (Nat × List Byte)) (k : Nat) :
    ∀ a, (s.readOver ag n sc got a k).1.length = k := by
  induction k with
  | zero => exact fun _ => rfl
  | succ k ih =>
    intro a
    simp only [State.readOver]
    split
    · simp [ih]
    · split <;> simp [ih]

theorem State.readBytes_length (s : State) (ag : AgentId) (n : Nat) (sc : Scope) (a k : Nat) : (s.readBytes ag n sc a k).1.length = k :=
  s.readOver_length ag n sc [] k a

theorem State.peek_length (s : State) (ag : AgentId) (a n : Nat) : (s.peek ag a n).length = n := s.readBytes_length ag _ _ a n

/-- A Read step that is enabled gives as many bytes as it asks for. -/
theorem State.readWith_length {s t : State} {x : Access} {got : List (Nat × List Byte)} {a n : Nat} {bs : List Byte}
    (h : s.readWith x got a n = some (bs, t)) : bs.length = n := by
  have hl := s.readOver_length x.agent (s.readId x) x.scope got n a
  simp only [State.readWith] at h
  generalize s.readOver x.agent (s.readId x) x.scope got a n = r at h hl
  obtain ⟨b, ok, gs⟩ := r
  cases ok <;> (repeat' split at h) <;> simp_all

/-- Nothing is outstanding: no access waits, no buffer holds a store, and no byte has been seen younger than it is in backing
memory. -/
def State.atRest (s : State) : Prop := s.ord.accs = [] ∧ s.ord.vis = [] ∧ ∀ x ∈ s.ord.seen, x.2.2 ≤ smGet 0 s.ord.ages x.2.1

/-- With nothing outstanding a byte is read from backing memory. -/
theorem State.readByte_atRest {s : State} (h : s.atRest) (ag : AgentId) (n : Nat) (sc : Scope) (a : Nat) :
    s.readByte ag n sc a = (s.mem.get a, some (smGet 0 s.ord.ages a)) := by
  have hb : ∀ v, s.ord.buffer v = [] := fun v => by simp [Ordering.buffer, h.2.1]
  have hr : ∀ l : List VisId, s.readVis a l = (s.mem.get a, smGet 0 s.ord.ages a) := by
    intro l
    induction l with
    | nil => rfl
    | cons v r ih => simp [State.readVis, hb, youngest, ih]
  have hm : ∀ l : List VisId, l.findSome? (fun v => youngest a ((s.ord.buffer v).filter (fun e => e.agent == ag))) = none := by
    intro l
    simp [hb, youngest]
  simp only [State.readByte, h.1, List.foldl_nil, hm, hr]

/-- With nothing outstanding a read finds no byte that is too old, and what it notes is as old as backing memory. -/
theorem State.readOver_atRest {s : State} (h : s.atRest) (ag : AgentId) (n : Nat) (sc : Scope) (got : List (Nat × List Byte)) (k : Nat) :
    ∀ a, (s.readOver ag n sc got a k).2.1 = true ∧ ∀ g ∈ (s.readOver ag n sc got a k).2.2, g.2 = smGet 0 s.ord.ages g.1 := by
  induction k with
  | zero => exact fun _ => ⟨rfl, fun g hg => by simp [State.readOver] at hg⟩
  | succ k ih =>
    intro a
    have hi := ih (a + 1)
    simp only [State.readOver]
    split
    · exact hi
    · have hold : ((s.ord.seen.find? (fun x => x.1 == ag && x.2.1 == a)).map (fun x => x.2.2)).getD 0 ≤ smGet 0 s.ord.ages a := by
        cases hf : s.ord.seen.find? (fun x => x.1 == ag && x.2.1 == a) with
        | none => simp
        | some x =>
          have hx := h.2.2 x (List.mem_of_find?_eq_some hf)
          have ha := List.find?_some hf
          simp only [Bool.and_eq_true, beq_iff_eq] at ha
          simpa [ha.2] using hx
      simp only [State.readByte_atRest h, hi.1, hold, decide_true, Bool.and_self, true_and]
      intro g hg
      rcases List.mem_cons.mp hg with rfl | hg
      · rfl
      · exact hi.2 g hg

theorem mem_noteSeen (bs : List Nat) : ∀ {l : List (AgentId × Nat × Nat)} {a : AgentId} {age : Nat} {x : AgentId × Nat × Nat},
    x ∈ noteSeen l a age bs → x ∈ l ∨ (x.2.1 ∈ bs ∧ x.2.2 = age) := by
  induction bs with
  | nil => exact fun h => .inl h
  | cons b r ih =>
    intro l a age x h
    rcases ih h with h | ⟨h, ha⟩
    · rcases List.mem_cons.mp h with rfl | h
      · exact .inr ⟨List.mem_cons_self, rfl⟩
      · exact .inl (List.mem_of_mem_filter h)
    · exact .inr ⟨List.mem_cons_of_mem _ h, ha⟩

/-- Noting what an agent has read changes no more than what it has seen. -/
theorem State.noteReads_eq (gs : List (Nat × Nat)) : ∀ (s : State) (ag : AgentId),
    ∃ l, s.noteReads ag gs = { s with ord := { s.ord with seen := l } } := by
  induction gs with
  | nil => exact fun s _ => ⟨s.ord.seen, rfl⟩
  | cons g r ih =>
    intro s ag
    obtain ⟨l, h⟩ := ih { s with ord := { s.ord with seen := noteSeen s.ord.seen ag g.2 [g.1] } } ag
    exact ⟨l, h⟩

theorem State.noteReads_atRest (gs : List (Nat × Nat)) : ∀ {s : State} (ag : AgentId), s.atRest → (∀ g ∈ gs, g.2 = smGet 0 s.ord.ages g.1) →
    (s.noteReads ag gs).atRest := by
  induction gs with
  | nil => exact fun _ h _ => h
  | cons g r ih =>
    intro s ag h hg
    refine ih ag ⟨h.1, h.2.1, fun x hx => ?_⟩ (fun x hx => hg x (List.mem_cons_of_mem _ hx))
    rcases mem_noteSeen _ hx with hx | ⟨hx, ha⟩
    · exact h.2.2 x hx
    · rw [ha, List.mem_singleton.mp hx, hg g List.mem_cons_self]

/-- Where nothing is outstanding and no other instance stands in the element's station, an operand may be read at once: the bytes
are there, nothing is outstanding afterwards, and no more than what has been seen has changed. -/
theorem State.readOperand_atRest {s : State} {p e : Nat} {i : Inst} (h : s.atRest) (hi : ∀ j ∈ (s.elem p e).insts, j.id = i.id) (pl : Place) (n : Nat) :
    ∃ bs t l, s.readOperand p e i pl n = some (bs, t) ∧ t.atRest ∧
      t = ({ s with ord := { s.ord with seen := l } } : State).setElem p e (s.elem p e) := by
  simp only [State.readOperand, State.readWith]
  generalize hx : s.reading (.elem p e) .patch pl n (some (i.id, i.pc)) = x
  have hr : x.reader = some (p, e, i.id) := by rw [← hx]; rfl
  have ho : s.inOrder x = true := by
    rw [← hx]
    simp [State.inOrder, State.reading, h.1]
  have hf : (s.elem p e).fenceOpen i.id = true := by
    simp only [Elem.fenceOpen, List.all_eq_true, Bool.or_eq_true, beq_iff_eq]
    exact fun j hj => .inl (.inl (hi j hj))
  have hn : (s.elem p e).noteFence i.id = s.elem p e := by
    have : (s.elem p e).insts.map (fun j => if j.id ≠ i.id ∧ (s.elem p e).inFence j ∧ !j.after.contains i.id then
        { j with after := i.id :: j.after } else j) = (s.elem p e).insts := by
      conv => rhs; rw [← List.map_id (s.elem p e).insts]
      exact List.map_congr_left (fun j hj => by simp [hi j hj])
    simp only [Elem.noteFence, this]
  obtain ⟨hok, hg⟩ := State.readOver_atRest h x.agent (s.readId x) x.scope i.got n pl.addr
  simp only [hr, ho, hf, Bool.and_self, if_true]
  generalize s.readOver x.agent (s.readId x) x.scope i.got pl.addr n = r at hok hg
  obtain ⟨bs, ok, gs⟩ := r
  cases hok
  obtain ⟨l, hl⟩ := State.noteReads_eq gs s x.agent
  have hrest := State.noteReads_atRest gs x.agent h hg
  refine ⟨bs, _, l, rfl, ?_, ?_⟩
  · exact hrest
  · rw [hl]
    show State.setElem _ p e ((s.elem p e).noteFence i.id) = _
    rw [hn]

/-- Operand bytes that an instance may read now. -/
theorem readHere_of_some {k : Wk} {pl : Place} {n : Nat} {bs : List Byte} {t : State}
    (h : k.s.readOperand k.s.cur.patch k.s.cur.el k.i pl n = some (bs, t)) : readHere pl n k = .ok (bs, { k with s := t }) := by
  simp only [readHere]
  rw [W.bind_of_ok (W.get_apply k)]
  simp only [h]
  rfl

/-- A tile behind an s register that is there, aligned and inside the vault is read whole, where its Read step is enabled. -/
theorem rdTile_of_vault {k : Wk} {r n al : Nat} {a : Word} {bs : List Byte} {t : State} (hr : r < 16) (h : rdS r k = .ok (a, k))
    (ha : a.toNat % al = 0) (hb : a.toNat + n ≤ 0x80000)
    (hv : k.s.readOperand k.s.cur.patch k.s.cur.el k.i (vaultPlace k.s.cur.patch k.s.cur.el a.toNat) n = some (bs, t)) :
    ∃ m, rdTile r n al k = .ok ((bs, m), { k with s := t }) ∧ bs.length = n := by
  have ht : tileAddr r n al k = .ok (a.toNat, k) := by
    rw [tileAddr, W.bind_of_ok h]
    simp only [ha, ne_eq, not_true, if_false, Nat.not_lt.mpr hb]
    rfl
  have hl : bs.length = n := State.readWith_length hv
  refine ⟨fun o => a.toNat + o, ?_, hl⟩
  rw [rdTile, if_pos hr, W.bind_of_ok ht]
  have hr : readVault a.toNat n k = .ok (bs, { k with s := t }) := readHere_of_some hv
  rw [W.bind_of_ok hr]
  rfl

/-- Where nothing is outstanding and no other instance stands in the element's station, such a tile is read at once. -/
theorem rdTile_atRest {k : Wk} {r n al : Nat} (a : Word) (hk : k.s.atRest)
    (hi : ∀ j ∈ (k.s.elem k.s.cur.patch k.s.cur.el).insts, j.id = k.i.id) (hr : r < 16) (h : rdS r k = .ok (a, k)) (ha : a.toNat % al = 0)
    (hb : a.toNat + n ≤ 0x80000) :
    ∃ bs m l, let p := k.s.cur.patch
      let e := k.s.cur.el
      let t := ({ k.s with ord := { k.s.ord with seen := l } } : State).setElem p e (k.s.elem p e)
      rdTile r n al k = .ok ((bs, m), { k with s := t }) ∧ bs.length = n ∧ t.atRest := by
  obtain ⟨bs, t, l, hv, ht, rfl⟩ := State.readOperand_atRest hk hi (vaultPlace k.s.cur.patch k.s.cur.el a.toNat) n
  obtain ⟨m, hm, hl⟩ := rdTile_of_vault hr h ha hb hv
  exact ⟨bs, m, l, hm, hl, ht⟩

end Sys2Proof.Machine
end

