-- ==== Sys2Proof/Safety.lean ====
section
/-! DEFINITION. What counts as a safe run, in the terms that claims use. -/

namespace Sys2Proof

open Sys2Proof.Machine

/-- The backing memory is in its canonical form. -/
def Machine.State.good (s : State) : Prop := s.mem.wf = true

/-- A run of `n` steps ends in a state: no step has stopped. -/
def Runs (n : Nat) (s t : State) : Prop := core.run n s = .next t

/-- A run is safe when each of its steps answers a next state. -/
def Safe (s : State) : Prop := ∀ n, ∃ t, Runs n s t

end Sys2Proof
end

