-- ==== Sys2Proof/Tests/Slice0.lean ====
section
/-! SUPPORT. Tests: ill-formed terms that WellFormed refuses, the words that the spec writes out, and for each statement that has
hypotheses a concrete state that meets them. -/

namespace Sys2Proof.Tests

set_option Elab.async false

open Sys2Proof.Machine
/-! ### Words that the spec writes out. Each list gives a word and the instruction that the spec writes beside it. -/

/-- Control words that the spec writes out, with the line it writes them for (R117 to R154, the examples of the encoding chapter). -/
def specControl : List (Nat × Instr) :=
  [(0x04611000, .seqAdd 3 1 2), (0x20C60001, .seqAddi 6 6 1), (0x08232002, .kcmp 1 3 4 2), (0xC0A22180, .ldm 5 2 0 2 0 3),
   (0xB0003020, .loop 0 3 2), (0xB1004000, .loop 1 4 0), (0xB1064050, .loop 1 100 5), (0xCC080003, .sbind 8 3), (0xD1400C00, .cfgcmt 10),
   (0x0C000000, .xret), (0x0C000001, .wfe), (0x0C000302, .seqFence 3), (0x0C000003, .freeze), (0x0CC00004, .tscr 6), (0x4C07000C, .trap 7 0 12),
   (0x50A00046, .csrr 5 0x046)]

/-- Element words that the spec writes out (R159 to R179, R183 to R205, R210 to R234, R245 to R270). -/
def specElement : List (Nat × Instr) :=
  [(0x02308800, .add 3 1 2 0 0 0), (0x02110C1A, .add 1 2 3 1 1 2), (0x90217FFF, .addi 2 2 0x7FFF), (0x34429800, .fmac 4 5 6 0 0 0 0 0),
   (0x2C219210, .fadd 2 3 4 2 0 1 0 0), (0x61518000, .emit 21 3), (0x66008800, .rrot 0 1 2 0), (0xF8000000, .commit), (0xFA404000, .br 2 0 0 1 0),
   (0xFA330000, .br 1 1 3 0 0), (0xFC000000, .halt), (0xB8510021, .ldB32 5 2 4 1), (0xDC000003, .fence 3), (0xD4430003, .ste 4 6 0 3),
   (0x82301003, .aadd 3 0 4 0 0 3), (0x822323E2, .acas 2 6 8 1 1 2), (0xDA720002, .place 7 4 2), (0x84921C02, .pwait 9 4 7 2),
   (0x84921C82, .prel 9 4 7 2), (0x861100A3, .flagst 1 2 3), (0xA2000001, .drain 1), (0x88110000, .thaw 1 2)]

/-- Element words of the matrix, change and witness chapters that the spec writes out. -/
def specOther : List (Nat × Instr) :=
  [(0xE0E32400, .mma 1 24 25 2 0 0 0), (0xE0086410, .mma 0 2 3 2 1 0 0), (0xE2086400, .mmag 0 2 3 2 0 0 0), (0xEF100200, .accld 2 4 1),
   (0xE4086400, .ldt 2 3 2), (0xE642B000, .sortn 16 21 8 0 0), (0xE842A420, .cvt 16 21 2 1 0), (0xEA18F600, .scld 0 6 7 11),
   (0x71510000, .caph 21 2), (0x71510020, .capd 21 2), (0x71511040, .capx 21 2 4), (0x6C310000, .frd 3 2), (0x6C500200, .frdCnt 5 0),
   (0x6E218000, .fwait 2 3), (0x6A810460, .tadv 8 2 1), (0x7A110C00, .acon 1 2 3), (0x721110C0, .ains 1 2 4 6), (0x74110C00, .amrg 1 2 3),
   (0x78110400, .acmp 1 2 1), (0x76111040, .aprb 1 2 4 2), (0x7C114120, .join 1 2 16 0 2 1), (0x7E1110A0, .red 1 2 4 1 1),
   (0xF208C420, .rmax 0 2 6 2 1), (0xF208C4E0, .rmed 0 2 6 2 1), (0xF5288400, .adjb 2 10 4 2), (0x80111000, .wrel 1 2 4), (0xF1142200, .accst 2 5 1 1), (0x4C508950, .pack 5 1 2 1 2 0 0)]

/-- Switch words that the spec writes out (R98). -/
def specSwitch : List (Nat × Instr) := [(0x2E02, .circ 3 4 2), (0xE000, .endList)]

theorem test_control_words : ∀ x ∈ specControl, (decodeCtl x.1).toOption = some x.2 := by decide +kernel

theorem test_element_words : ∀ x ∈ specElement ++ specOther, (decodeElem x.1).toOption = some x.2 := by decide +kernel

theorem test_switch_words : ∀ x ∈ specSwitch, decodeBytes .switchWord (encode x.2) = .ok (x.2, []) ∧ encode x.2 = leBytes 2 x.1 := by decide +kernel

/-! ### An ill-formed term for each check of WellFormed -/

/-- Control words: a condition, a scope, a pair, a quad, a loop level, an offset unit, a sign where there is none. -/
def illControl : List Instr :=
  [.kcmp 1 2 3 6, .seqFence 5, .tscr 3, .tscr 0, .signal 2 3 7, .loop 3 1 1, .loopr 3 1 1, .lbrk 3, .ldm 5 2 2 2 0 3, .ldm 5 2 0 2 0 5, .ldm 5 3 0 3 0 0,
   .ldm 5 2 0 2 1 0, .stm 5 2 0 3 0, .seqAadd 5 2 1 0 0, .seqAcas 6 2 1 0 0, .seqAcas 3 2 0 0 0, .sbind 7 0, .cfgld 1 3, .launch 1 3 4]

/-- Element words: a destination, a source, a lane field of a scalar, a format of a scalar, a rounding, a queue or buffer, a port, a pair, a count, a
special register, a scope, a status register, a tile, a format of a matrix word, a branch. -/
def illElement : List Instr :=
  [.add 16 1 2 0 0 0, .add 1 20 2 0 0 0, .add 1 2 3 0 1 0, .fadd 1 2 3 1 0 0 0 0, .fadd 1 2 3 0 4 0 0 0, .fmac 20 1 2 0 0 0 0 0, .take 1 5 0, .emit 5 1,
   .lgen 24 1 2 0, .lgen 20 1 2 2, .tcmp 1 3 2, .tjoin 3 2 4, .frd 1 4, .adv 16 0, .adv 16 17, .waitf 1 16 1, .sprd 1 6, .spwr 1 3, .pack 1 2 3 0 0 0 0,
   .mlane 1 2 0 0 0 0, .fence 5, .aadd 3 0 4 0 1 0, .paban 1 2 4 0, .cpy 16 2 0, .bubl 1 2 16, .ldB64 5 2 0 0, .stW 16 2 0 0, .mma 0 2 3 8 0 0 0,
   .mma 0 2 3 6 0 0 1, .ldt 2 24 1, .sortn 16 20 2 0 0, .sortn 16 20 1 1 0, .cvt 16 20 2 2 0, .cvt 16 20 2 1 4, .scld 2 1 2 9, .accst 0 24 1 0, .accld 0 20 0,
   .rmax 0 2 28 1 1, .rmax 1 2 3 1 0, .rclmp 0 14 3 1 0, .rsats 0 2 3 1 0, .adjb 0 2 14 1, .br 1 0 1 0 0, .br 1 0 0 0 1, .br 1 0 0 2 16, .br 1 0 0 3 4096,
   .join 1 2 16 0 3 0, .red 1 2 4 5 0, .acmp 1 2 4, .ains 1 2 4 16]

/-- Switch words: an input or output beyond 6, one that goes back where it came from, a run beyond the last slot. -/
def illSwitch : List Instr := [.circ 7 1 0, .circ 1 1 0, .slot 1 2 0 255 1, .best 2 7, .width 7 0, .scale 4 0, .scale 7 7]

theorem test_ill_formed : ∀ i ∈ illControl ++ illElement ++ illSwitch, i.wf = false := by decide +kernel

theorem test_well_formed : ∀ x ∈ specControl ++ specElement ++ specOther ++ specSwitch, x.2.wf = true := by decide +kernel

/-! ### A small machine: patch 0 runs the one load, of queue 0 and partition 1, whose frame 1 the flat addresses below 65,536 reach -/

/-- An instance of block 0 that has fired, with pointers to 0x100 and 0x200 of its vault in s2 and s4, and to flat
address 0x10 in s8. -/
def inst1 : Inst := { ({ (default : Inst) with id := 0, blk := 0 }).fire { Regs.reset with s := [1, 2, 0x100, 0, 0x200, 0, 0, 0, 0x10, 0x80000000] ++ List.replicate 6 0 } with
  pos := List.replicate 12 0, tpos := List.replicate 8 0, outs := List.replicate 12 [], ftl := List.replicate 4 none }

def elem1 : Elem := { Elem.reset with insts := [inst1], blocks := [(0, { (default : Block) with words := [0x02308800] })] }

def patch1 : Patch := { Patch.reset with running := true, fullRate := true, load := some (0, 0), part := some 1, elems := [(0, elem1)] }

def load1 : Load :=
  { (default : Load) with q := 0, part := 1, patches := [0], st := .running, img := { (default : LoadImage) with pw := 1, ph := 1 }, images := [PatchImage.none] }

def small : State :=
  { State.reset with
    patches := [(0, patch1)], loads := [load1], nextLoad := 1
    parts := [(1, { Part.reset with exists_ := true, patches := [0], frames := [1] })]
    queues := [(0, { Queue.reset with part := 1, st := .run })]
    cache := [⟨.die 0, 1, none, 0, 0xFFFF, 0x10063⟩] }

/-- The machine with a sequencer in patch 0. -/
def withSeq (q : Seq) : State := { small with patches := [(0, { patch1 with seq := q })] }

/-- A sequencer whose g registers begin with the given ones. -/
def seqOf (l : List Word) : Seq := { Seq.reset with g := l ++ List.replicate (32 - l.length) 0 }

/-- Whether a result is there. -/
def isOk {ε α : Type} : Except ε α → Bool
  | .ok _ => true
  | .error _ => false

/-- The place that flat address 0x10 leads to. -/
def flat10 : Place := ⟨0x10010, .rc, false, true⟩

theorem witness_translate : small.translate 1 0x10 .plain = .ok flat10 ∧ small.translate 1 0x10 .owner = .ok flat10 ∧ Terms.local_ flat10 := by
  refine ⟨by decide, by decide, Or.inl (by decide)⟩

/-! ### Witnesses: the sequencer -/

/-- The machine as a step that takes one turn has it when that turn runs. -/
def begun (s : State) (w : Nat) (c : Cur) : State := { s with agenda := [], clock := s.clock.advance w, cur := c }

theorem witness_StepRunsTheDecodedWord_seq :
    let s : State := { withSeq { seqOf [] with store := [(0, 0x00), (1, 0x10), (2, 0x61), (3, 0x04)] } with agenda := [⟨1, .seq 0⟩] }
    let u := begun s 1 ⟨0, 0, 0⟩
    s.agenda = ⟨1, .seq 0⟩ :: [] ∧ u.issues 0 = true ∧ (u.seq 0).pc ≠ 0x10000 ∧ (u.patch 0).reports = [] ∧ (u.seq 0).wf = false ∧
      (u.seq 0).holder 0 = none ∧ (decodeCtl ((u.seq 0).fetch 0)).toOption = some (.seqAdd 3 1 2) := by decide

theorem witness_StepRunsTheDecodedWord_other :
    (decodeCtl (((begun small 1 ⟨0, 0, 0⟩).seq 0).fetch 0)).toOption = none ∧ (begun small 1 ⟨0, 0, 0⟩).issues 0 = true ∧
      (begun State.reset 1 ⟨0, 0, 0⟩).issues 0 = false ∧
      (let u := begun { small with patches := [(0, { patch1 with reports := [⟨some (0, 0), 0x80000001, 0x80000000, 0, [], 0⟩] })] } 1 ⟨0, 0, 0⟩
       u.issues 0 = true ∧ (u.seq 0).pc ≠ 0x10000 ∧ (u.patch 0).reports ≠ [] ∧ (u.seq 0).xt = false ∧ (u.seq 0).begun = false) ∧
      (begun small 1 ⟨0, 0, 0⟩).itsTurn 0 0 0 = true ∧ (begun small 1 ⟨0, 0, 7⟩).itsTurn 0 0 7 = false ∧
      (begun small 1 ⟨0, 0, 0⟩).nextWord 0 0 0 = some 0x02308800 ∧ (decodeElem 0x02308800).toOption = some (.add 3 1 2 0 0 0) ∧
      (begun small 1 ⟨0, 0, 0⟩).switchWord 0 0 0 = some .endList ∧ (Instr.powerGood ⟨[], []⟩).kind = .event ∧
      (Instr.powerGood ⟨[], []⟩).wf = true ∧ (∀ x ∈ State.reset.patches, x.2.triggers = [] ∧ x.2.calBad = false) ∧
      (∀ x ∈ State.reset.queues, x.2.head = none ∧ x.2.staged = none) ∧ State.reset.colls = [] ∧ State.reset.loads = [] := by decide +kernel

/-- LDF s14, [s2], whose word is empty, before ADD s5, s1, s2. -/
def passing : State :=
  { small with patches := [(0, { patch1 with elems := [(0, { elem1 with blocks := [(0, { (default : Block) with words := [0xD0E10000, 0x02508800] })] })] })] }

theorem witness_StepRunsTheDecodedWord_ahead :
    let u := begun passing 1 ⟨0, 0, 0⟩
    (u.elem 0 0).inst 0 = some inst1 ∧ u.itsTurn 0 0 0 = true ∧ (u.elem 0 0).mayPass inst1 1 = true ∧ (u.elem 0 0).mayPass inst1 2 = false ∧
      (u.itsTurn 0 0 1 = false) ∧ (smFind (u.elem 0 0).blocks 0).bind (fun b => b.words[1]?) = some 0x02508800 ∧
      (decodeElem 0x02508800).toOption = some (.add 5 1 2 0 0 0) := by decide +kernel

theorem witness_DecodeAndEncodeAgree : (Instr.seqAdd 31 1 2).wf = true ∧ (Instr.seqAdd 31 1 2).kind ≠ .event := by decide

theorem witness_MemoryStaysCanonical : small.mem.wf = true ∧ ∃ t, step { small with agenda := [⟨1, .event (.patchWake 0)⟩] } = .next t :=
  ⟨rfl, _, rfl⟩

theorem witness_SequencerRegisters : Terms.Shaped (seqOf [0, 7]) ∧ (30#5).toNat % 2 = 0 ∧ 30#5 ≠ 0 := by
  refine ⟨⟨?_, ?_, ?_, ?_⟩, ?_, ?_⟩ <;> decide

theorem witness_IntegerOperations : (0xFF : BitVec 8) ≠ 0 := by decide

/-- The last word of the store, in a loop at level 0 that ends there. -/
def looping : Seq := { seqOf [0, 5, 5] with lc := [2, 0, 0], lb := [0xFFF0, 0, 0], le := [0xFFFC, 0, 0], pc := 0xFFFC }

theorem witness_LoopEndCheck : Terms.Shaped looping ∧ Terms.Shaped (seqOf [0, 5, 5]) ∧ (2#2).toNat < 3 ∧ (seqOf [0, 5]).get 1 ≠ 0 ∧
    (withSeq looping).seqAt = 0xFFFC ∧ looping.lc.getD 0 0 ≠ 0 ∧ looping.lc.getD 2 0 = 0 := by
  refine ⟨⟨?_, ?_, ?_, ?_⟩, ⟨?_, ?_, ?_, ?_⟩, ?_, ?_, ?_, ?_, ?_⟩ <;> decide

theorem witness_BranchAndJumpWords :
    Terms.holds .eq ((seqOf [0, 5, 5]).get 1) ((seqOf [0, 5, 5]).get 2) ∧ ¬ Terms.holds .ne ((seqOf [0, 5, 5]).get 1) ((seqOf [0, 5, 5]).get 2) ∧
    (Terms.target 0xFFF8 1).toNat = 0xFFFC ∧ (Terms.target 0xFFF8 1).toNat % 4 = 0 ∧ 65536 ≤ (Terms.target 0xFFF8 2).toNat ∧
    65536 ≤ (Terms.target 0 (-1)).toNat ∧ ((seqOf [0, 2]).get 1 + BitVec.ofInt 32 0).toNat % 4 ≠ 0 ∧
    ((withSeq { seqOf [] with pc := 0x10000 }).patch 0).running = true ∧ ((withSeq { seqOf [] with pc := 0x10000 }).seq 0).pc = 0x10000 := by
  refine ⟨?_, ?_, ?_, ?_, ?_, ?_, ?_, ?_, ?_⟩ <;> first | decide | (simp only [Terms.holds]; decide)

theorem witness_TrapEntry : (Cause.illop, 0x01) ∈ Terms.causeTable ∧ (small.seq 0).xt = false ∧
    ((withSeq { seqOf [] with xt := true }).seq 0).xt = true ∧ (withSeq { seqOf [] with xt := true }).loadOf 0 = some load1 ∧ 0 ∈ load1.patches := by decide

theorem witness_TrapAndXret : (Terms.here small).xt = false ∧ (Terms.here (withSeq { seqOf [] with xt := true })).xt = true ∧
    ((withSeq { seqOf [] with xt := true }).patch 0).named = none ∧
    (({ small with patches := [(0, { patch1 with seq := { seqOf [] with xt := true }, named := some (0, 0) })] } : State).patch 0).named = some (0, 0) := by
  decide

theorem witness_SequencerStoreWords : ((seqOf [0, 0xFFFC]).get 1 + BitVec.ofInt 32 0).toNat = 0xFFFC ∧ 0xFFFC % 4 = 0 ∧
    65536 ≤ ((seqOf [0, 0xFFFC]).get 1 + BitVec.ofInt 32 4).toNat ∧ ((seqOf [0, 0xFFFC]).get 1 + BitVec.ofInt 32 3).toNat % 2 ≠ 0 ∧
    cellsWf (seqOf []).store = true := by decide

theorem witness_CsrWords : (0x0C5, fun (s : State) (p : Nat) => (BitVec.ofNat 32 (s.partOf p) : Word)) ∈ Terms.csrReads ∧
    (∀ row ∈ Terms.csrReads, (0x013#12).toNat ≠ row.1) ∧ (∀ row ∈ Terms.csrWrites, (0x041#12).toNat ≠ row.1) ∧ (0x041#12).toNat ≠ 0x045 ∧
    (∃ row ∈ Terms.csrWrites, row.1 = 0x014 ∧ row.2.1 0xFFFC ∧ ¬ row.2.1 0xFFFE ∧ ¬ row.2.1 0x10000) := by
  refine ⟨by simp [Terms.csrReads], by decide, by simp [Terms.csrWrites], by decide, ?_⟩
  exact ⟨_, List.Mem.tail _ (List.Mem.tail _ (List.Mem.tail _ (List.Mem.head _))), rfl, by decide, by decide, by decide⟩

theorem witness_WaitForEvent :
    let a := withSeq { seqOf [] with latch := true }
    let b : State := { withSeq { seqOf [] with wf := true, latch := true } with clock := ⟨65536, 0, 0, 1000000⟩ }
    (Terms.here a).latch = true ∧ (Terms.here small).latch = false ∧ (Terms.here small).wf = false ∧ (b.patch 0).frozen = false ∧
      (b.seq 0).frozen = false ∧ (b.seq 0).wf = true ∧ (b.seq 0).latch = true ∧ (b.seq 0).wfeAt + 65536 ≤ b.clock.n ∧
      (withSeq { seqOf [] with wf := true }).clock.n < ((withSeq { seqOf [] with wf := true }).seq 0).wfeAt + 65536 ∧
      (b.patch 0).fullRate = true ∧ (b.patch 1).fullRate = false := by decide

theorem witness_FreezeWord : small.loadOf small.cur.patch = some load1 ∧ small.cur.patch ∈ load1.patches := by decide

/-- A report of an element, and a patch that has it. -/
def report1 : Report := ⟨some (0, 0), 0x80000001, 0x80000000, 0, [], 0⟩

def reporting : State := { small with patches := [(0, { patch1 with reports := [report1] })] }

theorem witness_FaultDelivery :
    (reporting.patch 0).reports = [report1] ∧ report1.ring = [] ∧ (reporting.seq 0).xt = false ∧ (reporting.patch 0).frozen = false ∧
    (reporting.seq 0).frozen = false ∧ (reporting.seq 0).begun = false ∧ (reporting.patch 0).running = true ∧ (reporting.seq 0).pc ≠ 0x10000 ∧
    (let t : State := { small with patches := [(0, { patch1 with named := some (0, 0), seq := { seqOf [0, 1, 2] with xinfo := 0x80000000, xt := true } })] }
     (Terms.here t).xinfo.toNat / 2 ^ 31 = 1 ∧ (t.patch 0).named = some (0, 0) ∧ (t.elem 0 0).inst 0 = some inst1 ∧ (Terms.here t).get 0 = 0 ∧
       (Terms.here t).get 1 = 1 ∧ (Terms.here t).get 2 ≠ 0 ∧ (Terms.here t).get 2 ≠ 1) := by decide

/-- A block of words that each write one unit to cb0, which has one slot (R158). -/
def filler (n : Nat) : Elem :=
  { elem1 with r := { elem1.r with cb := [0x100000] ++ List.replicate 7 0 }, blocks := [(0, { (default : Block) with words := List.replicate n 0x03808410 })] }

theorem witness_FaultDelivery_more :
    ({ report1 with ring := [3, 4] } : Report).ring ≠ [] ∧ cellsWf (reporting.seq 0).store = true ∧ (reporting.patch 0).fpend < 64 ∧
    (decodeElem 0x03808410).toOption = some (.add 24 1 1 1 0 0) ∧ Terms.fits (filler 1) 0 := by
  refine ⟨by decide, by decide, by decide, by decide +kernel, fun b h c hc => ?_⟩
  cases h
  have : c = 0 ∨ c = 1 ∨ c = 2 ∨ c = 3 ∨ c = 4 ∨ c = 5 ∨ c = 6 ∨ c = 7 := by omega
  rcases this with rfl | rfl | rfl | rfl | rfl | rfl | rfl | rfl <;> decide +kernel

theorem witness_FaultDelivery_unfit : ¬ Terms.fits (filler 2) 0 := fun h => by
  have := h _ rfl 0 (by decide)
  exact absurd this (by decide +kernel)

/-- g2 and g3 hold a flat address of the one frame. -/
def flatSeq : State := withSeq (seqOf [0, 0, 0x10, 0, 5])

/-- A partition whose frame table has a root and two nodes below it at 0x20000, 0x22000 and 0x24000, and a leaf node at 0x26000, each with
its first entry. -/
def tabled (root leaf : Nat) : State :=
  let m := (((small.mem.write 0x20000 (leBytes 8 root)).write 0x22000 (leBytes 8 0x24025)).write 0x24000 (leBytes 8 0x26025)).write 0x26000 (leBytes 8 leaf)
  { small with mem := m, cache := [], parts := [(1, { Part.reset with exists_ := true, patches := [0], frames := [1], root := some 0x20000 })] }

theorem witness_SequencerMemoryWords :
    ((Terms.here flatSeq).pair 2).toNat = 0x10 ∧ flatSeq.seqTranslate 0 0x10 .plain = .ok flat10 ∧
    flatSeq.seqTranslate 0 0x10 .owner = .ok flat10 ∧ (flatSeq.readNow (.seq 0) .patch flat10 8).isSome = true ∧
    flatSeq.ownerReady ⟨0, .seq 0, .patch, flat10, .owner (.atomic .add true 0 0) .none, false, false, false, 0x10, 0, 0, none⟩ [flat10.addr / 8] = true ∧
    flatSeq.seqTranslate 0 0x10000 .plain = .fault .xlate 0 ∧ flatSeq.seqTranslate 0 0x10000 .owner = .fault .xlate 0 ∧ 0x12 % 8 ≠ 0 ∧
    (let s : State := { flatSeq with cache := [⟨.die 0, 1, none, 0, 0xFFFF, 0x20063⟩] }
     s.seqTranslate 0 0x10 .plain = .fault .perm 0 ∧ s.seqTranslate 0 0x10 .owner = .fault .perm 0) ∧
    (let s := { tabled 0x22025 0x4000000000010063 with patches := flatSeq.patches }
     s.seqTranslate 0 0x10 .plain = .wait) := by decide +kernel

theorem witness_AtomicEffect : small.mem.wf = true := by decide
/-! ### Witnesses: the sequencer's fence, launches, streams and configuration -/

/-- Flat address 0x40, where a packet or a descriptor stands. -/
def flat40 : Place := ⟨0x10040, .rc, false, true⟩

/-- A sequencer with the pair g2 = 0x40 and queue number 0 in g4. -/
def launching : State := withSeq (seqOf [0, 0, 0x40, 0, 0])

theorem witness_FenceLaunchAndStreamWords_launch :
    Terms.local_ flat40 ∧ launching.allPerformed (.seq 0) launching.ord.nextId .dev = true ∧
    launching.seqTranslate 0 ((Terms.here launching).pair 2) .plain = .ok flat40 ∧ ((Terms.here launching).pair 2).toNat % 64 = 0 ∧
    smFind launching.queues 0 = some { Queue.reset with part := 1, st := .run } ∧ smFind launching.queues 4095 = none ∧
    ({ Queue.reset with part := 1 } : Queue).part = launching.partOf 0 ∧
    ((⟨1, 2, 3⟩ : Nat × Nat × Nat).1 = 1) ∧ (launching.readNow (.seq 0) .dev flat40 64).isSome = true ∧
    (launching.ringPlace { Queue.reset with part := 1 } 0 = .ok ⟨0x10000, .rc, false, true⟩) ∧
    (({ Queue.reset with tail := 64 } : Queue).tail - 0).toNat = 2 ^ 6 := by
  refine ⟨Or.inl (by decide), by decide, by decide, by decide, by decide, by decide, by decide, rfl, by decide, by decide, by decide⟩

theorem witness_FenceLaunchAndStreamWords_fence :
    (Terms.entered small ⟨0, .seq 0, .dev, flat40, .load flat40.addr 4 .none, false, false, false, 0, 0, 0, none⟩).allPerformed (.seq 0) 1 .dev = false ∧
    (0#3).toNat < 2 := by decide

/-- A descriptor that R139 admits: one step from flat memory to q0 of element 0; and one whose KIND is wrong. -/
def stream1 : List DWord := [0x1000000000000000, 0, 0, 1, 0, 0, 0, 0]

/-- Port 0 is bound to it and runs. -/
def port1 : Port := { Port.reset with bound := some (Stream.parse stream1), running := some 0 }

def streaming (k : Port) : State := { small with patches := [(0, { patch1 with ports := [(0, k)] })] }

theorem witness_FenceLaunchAndStreamWords_streams :
    Stream.bad stream1 = false ∧ Stream.bad (0 :: stream1.tail) = true ∧ ((streaming port1).port 0 0).bound.isSome = true ∧
    (small.port 0 0).bound = none ∧ (small.port 0 0).cmds = [] ∧ (small.port 0 0).running = none ∧ ((streaming port1).port 0 0).running ≠ none ∧
    (((streaming port1).patch 0).port 0).running = some 0 ∧ (small.patch 0).bars = [] ∧
    (let x : Patch := { patch1 with ports := [(0, port1)], bars := [1], cmdNo := 1 }
     x.cmdNo ≥ 1 ∧ ¬ ∀ m ∈ x.ports.flatMap (fun k => k.2.cmds.map (fun c => c.1) ++ k.2.running.toList), 1 ≤ m) := by decide

/-- A pattern record with its checksum set. -/
def sealed (bs : List Byte) : List Byte :=
  bs.take 28 ++ leBytes 4 (crc32 (bs.take 28 ++ List.replicate 4 0 ++ bs.drop 32)).toNat ++ bs.drop 32

/-- The machine with bytes at flat address 0x10, where the pair g2 points, and a configuration phase. -/
def configuring (bs : List Byte) (f : Phase) : State :=
  { small with mem := small.mem.write 0x10010 bs, patches := [(0, { patch1 with seq := seqOf [0, 0, 0x10, 0, 5], phase := f })] }

theorem witness_ConfigurationWords :
    ((configuring [] { Phase.reset with broken := true }).patch 0).phase.broken = true ∧
    ((configuring [] { Phase.reset with poison := some 0x10 }).patch 0).phase.poison = some 0x10 ∧
    ((configuring [] Phase.reset).patch 0).phase.poison = none ∧ ((Terms.here (configuring [] Phase.reset)).pair 2).toNat % 8 = 0 ∧
    ((Terms.here (configuring [] Phase.reset)).pair 4).toNat % 8 ≠ 0 ∧
    ((configuring [] { Phase.reset with done := true }).patch 0).phase.done = true ∧
    (configuring [] { Phase.reset with opened := true }).patch 0 ≠ Patch.reset ∧
    checkCommit [] ((configuring [] { Phase.reset with opened := true }).runningWith 0 []) 8 8 0 0 = none ∧
    ((configuring [] { Phase.reset with drain := true }).patch 0).quiet = false ∧
    (let x : Patch := ({ small with patches := [(0, { patch1 with elems := [], phase := { Phase.reset with drain := true } })] } : State).patch 0
     x.quiet = true ∧ x.frozen = false ∧ x.running = true ∧ x.phase.drain = true) := by
  decide
/-- A pattern record with one rectangle, that of element (0, 0), no block, and the switch list END. -/
def pattern1 : List Byte :=
  sealed (leBytes 18 0 ++ leBytes 5 1 ++ leBytes 2 1 ++ leBytes 3 48 ++ leBytes 4 0 ++ leBytes 8 0 ++ [0, 0xE0] ++ leBytes 6 0)

def raw1 : RawPattern := ⟨[0], [], [0xE000], []⟩

/-- What a bulk read has read. -/
def bytesOf : Bulk → List Byte
  | .ok bs _ => bs
  | _ => []

theorem witness_ConfigurationWords_pattern :
    bytesOf ((configuring pattern1 Phase.reset).readRecord (.seq 0) 1 0x10) = pattern1 ∧
    (match (configuring pattern1 Phase.reset).readRecord (.seq 0) 1 0x10 with
      | .ok _ t => t.cur == small.cur
      | _ => false) = true ∧
    ((RawPattern.parse pattern1).toOption = some raw1) ∧ isOk (coverAll raw1 1 1 0 []) = true ∧ isOk (coverRect raw1 1 1 0 0 []) = true := by
  decide +kernel

theorem witness_ConfigurationWords_image :
    let s := configuring (leBytes 4 0x10000 ++ leBytes 4 1 ++ leBytes 8 64 ++ pattern1) Phase.reset
    let h := bytesOf (s.readFlat (.seq 0) 1 0x10 16)
    numAt h 0 4 / 65536 = 1 ∧ numAt h 4 4 = 1 ∧ numAt h 8 8 = 16 + 48 ∧
    (match s.cfgRecords 0 0x20 1 { Phase.reset with opened := true } with
      | .ok _ n u => if u.cur = s.cur then n else 0
      | _ => 0) = 48 := by decide +kernel
/-! ### Witnesses: element words -/

def k0 : Wk := ⟨small, inst1⟩

theorem witness_OnTurn : Terms.OnTurn small inst1 := ⟨by decide, by decide, by decide⟩

theorem witness_WordDoneFrame : (k0.s.elem 0 0).inst k0.i.id = some inst1 ∧ (small.patch 0).fpend < 64 := by decide

/-- A DATA unit whose header is good, and one whose header is not. -/
def unitGood : Slot := ofLanes [1, 2, 3, 4, 5, 6, 7, 0]
def unitBad : Slot := ofLanes [1, 2, 3, 4, 5, 6, 7, 0xFFFFF000]

/-- An instance with a reserved unit in q0 and a bad one in q1, and cb0 with one slot of one unit, taken at 0. -/
def inst2 : Inst :=
  { inst1 with wC := [0, 1], qres := [[unitGood], [unitBad], [], []], cres := [(0, 0, 1)], loads := [(7, [5, 21])],
               r := { inst1.r with cb := [0x100000, 0, 0, 0, 0, 0, 0, 0] }, cbAt := [0x100000, 0, 0, 0, 0, 0, 0, 0] }

theorem witness_OperandForms :
    Terms.readable inst2 15 ∧ ¬ Terms.readable inst2 5 ∧ inst2.pending 16 = false ∧ inst2.pending 21 = true ∧
    (inst2.qres.getD 0 [])[0 / 8]? = some unitGood ∧ badHeader (lane unitGood 7) = false ∧ (inst2.qres.getD 1 [])[0 / 8]? = some unitBad ∧
    badHeader (lane unitBad 7) = true ∧ (inst2.qres.getD 3 []).length ≤ 0 / 8 ∧ cbValid (inst2.r.cb.getD 0 0) = true ∧
    (inst2.cbUnits (small.elem 0 0) 0)[0 / 8]? = some 0 ∧
    ((small.readOperand 0 0 inst2 (vaultPlace 0 0 0) 32).map (fun r => badHeader (lane (ofBytes r.1) 7))) = some false ∧ (inst2.cbUnits (small.elem 0 0) 0).length ≤ 8 / 8 ∧
    cbValid (inst2.r.cb.getD 7 0) = false := by
  simp only [Terms.readable]
  decide +kernel

theorem witness_DestinationForms : inst2.pending 15 = false ∧ inst2.pending 5 = true ∧ Terms.gives (useDest 24) ⟨small, inst2⟩ () ⟨small, inst2⟩ ∧
    inst2.pending (16 + 15) = false ∧ (inst2.outs.getD 0 []).length % 8 = 0 := by
  refine ⟨by decide, by decide, rfl, by decide, by decide⟩

theorem witness_ElementIntegerWords :
    (∃ x y k₁ k₂ k, Terms.gives (rdScalar 0) k0 x k₁ ∧ Terms.gives (rdScalar 15) k₁ y k₂ ∧
      Terms.gives (wrScalar 15 (Terms.intValue .divu x y)) (Terms.withDz k₂ (Terms.dividesByZero .divu y)) () k) ∧
    (∃ x y k₁ k₂ k, Terms.gives (rdWide 0) k0 x k₁ ∧ Terms.gives (rdWide 15) k₁ y k₂ ∧
      Terms.gives (wrWide 20 32 0 true ((List.range (256 / 32)).map (fun _ => 0))) k₂ () k) ∧
    ∃ x k₁ k, Terms.gives (rdScalar 1) k0 x k₁ ∧ Terms.gives (wrScalar 20 x) k₁ () k :=
  ⟨⟨_, _, _, _, _, rfl, rfl, rfl⟩, ⟨_, _, _, _, _, rfl, rfl, rfl⟩, _, _, _, rfl, rfl⟩

theorem witness_ElementFloatWords :
    inst1.fuseAt = [2, 1, 1, 3].getD (0#2).toNat 0 ∧ (small.patch 0).fullRate = true ∧ inst1.fuseAt ≠ [2, 1, 1, 3].getD (3#2).toNat 0 ∧
    (∃ x y c k₁ k₂ k₃ k, Terms.gives (rdScalar 0) k0 x k₁ ∧ Terms.gives (rdScalar 1) k₁ y k₂ ∧ Terms.gives (rdS 3) k₂ c k₃ ∧
      Terms.gives (wrScalar 3 x) k₃ () k) ∧
    ∃ x y c k₁ k₂ k₃ k, Terms.gives (rdWide 0) k0 x k₁ ∧ Terms.gives (rdWide 1) k₁ y k₂ ∧ Terms.gives (rdW 3) k₂ c k₃ ∧
      Terms.gives (wrWide 3 32 0 true ((List.range 8).map (fun _ => 0))) k₃ () k :=
  ⟨by decide, by decide, by decide, ⟨_, _, _, _, _, _, _, rfl, rfl, rfl, rfl⟩, _, _, _, _, _, _, _, rfl, rfl, rfl, rfl⟩

theorem witness_MoveAndLaneWords :
    (∃ x y t k₁ k₂ k₃ k, Terms.gives (rdScalar 0) k0 x k₁ ∧ Terms.gives (rdScalar 1) k₁ y k₂ ∧ Terms.gives (rdScalar 2) k₂ t k₃ ∧
      Terms.gives (wrScalar 23 x) k₃ () k ∧ k₃.i.pending (16 + 15) = false ∧ x.toNat < 256 / 32) ∧
    (∃ x y t k₁ k₂ k₃ k, Terms.gives (rdWide 0) k0 x k₁ ∧ Terms.gives (rdWide 1) k₁ y k₂ ∧ Terms.gives (rdWide 2) k₂ t k₃ ∧
      Terms.gives (wrWide 15 32 0 false ((List.range 8).map (fun _ => 0))) k₃ () k ∧ (∀ j < 7, Terms.laneAt 32 x j < 2 ^ 30)) :=
  ⟨⟨_, _, _, _, _, _, _, rfl, rfl, rfl, rfl, by decide, by decide⟩, 0, _, _, _, _, _, _, rfl, rfl, rfl, rfl, by decide +kernel⟩

theorem witness_MaskAndSpecialWords :
    (∃ x k₁, Terms.gives (rdScalar 1) k0 x k₁ ∧ x.toNat < 4 ∧ x ≠ 0 ∧ x ≠ 1) ∧ (∃ x k₁, Terms.gives (rdScalar 2) k0 x k₁ ∧ 4 ≤ x.toNat) ∧
    (∃ x k₁, Terms.gives (rdScalar 0) k0 x k₁ ∧ x = 1) ∧ (∃ x k₁, Terms.gives (rdScalar 15) k0 x k₁ ∧ x = 0) ∧
    (∃ x y k₁ k₂, Terms.gives (rdWide 0) k0 x k₁ ∧ Terms.gives (rdWide 1) k₁ y k₂) ∧ (∃ k, Terms.gives (wrScalar 15 7) k0 () k) ∧
    16 ≤ (31#5).toNat :=
  ⟨⟨_, _, rfl, by decide, by decide, by decide⟩, ⟨_, _, rfl, by decide⟩, ⟨_, _, rfl, by decide⟩, ⟨_, _, rfl, by decide⟩, ⟨_, _, _, _, rfl, rfl⟩, ⟨_, rfl⟩, by decide⟩

/-- A state whose element 0 runs the given instance, with that instance's turn. -/
def turnOf (s : State) (i : Inst) : Wk := ⟨{ s with patches := [(0, { patch1 with elems := [(0, { elem1 with insts := [i] })] })] }, i⟩

def k2 : Wk := turnOf small inst2

theorem witness_OnTurn_k2 : Terms.OnTurn k2.s k2.i := ⟨by decide, by decide, by decide⟩

theorem witness_QueueAndWaitWords :
    (∃ u k₁ k, Terms.gives (unitAt 16 0) k2 u k₁ ∧ Terms.gives (wrScalar 15 (BitVec.ofNat 32 (Terms.laneAt 32 u 7))) k₁ () k) ∧
    (∃ t k₁, Terms.gives (useBuffer 16) k2 () k2 ∧ Terms.gives (unitCount 16) k2 t k₁ ∧ 0 / 8 + 1 ≤ t) ∧
    (∃ x k₁, Terms.gives (rdScalar 15) k2 x k₁ ∧ badHeader x = false ∧ Terms.gives (useDest 23) k₁ () k₁) ∧ cbValid (inst2.r.cb.getD 0 0) = true ∧
    (let h := inst2.liveHandle (k2.s.elem 0 0) 0
     cbValid h = true ∧ claimedBy (k2.s.elem 0 0) 0 0 = false ∧ (k2.s.elem 0 0).promised 0 0 = false ∧ claimed inst2.clF 0 = 0 ∧
       cbOcc h + 0 + 1 ≤ cbNslot h ∧ 0 + 0 ≤ cbOcc h ∧
       (k2.s.ownTest 0 0 inst2 .elem (vaultPlace 0 0 0) (slotWords 0 0 h (cbFill h + 0) 0)).isSome = true ∧ k2.s.allMarked (slotWords 0 0 h (cbFill h + 0) 0) true = true ∧
       ¬ (cbOcc h + 0 + 2 ≤ cbNslot h) ∧ ¬ (0 + 1 ≤ cbOcc h)) ∧
    (∃ k, Terms.gives (wrScalar 15 0) ⟨k2.s.flushWords [], { k2.i with clF := k2.i.clF ++ [(0, 0)] }⟩ () k) ∧
    k2.s.allPerformed (.elem 0 0) 0 .dev = true ∧ (∀ m ∈ ([] : List Nat), m ∉ ((k2.s.elem 0 0).cmds.map (fun c => c.1))) :=
  ⟨⟨_, _, _, rfl, rfl⟩, ⟨_, _, rfl, rfl, by decide⟩, ⟨_, _, rfl, by decide, rfl⟩, by decide, by decide +kernel, ⟨_, rfl⟩, by decide, by decide⟩

theorem witness_BlockControlWords : Terms.readable inst1 15 ∧ (smFind (small.elem 0 0).blocks 0).map (fun b => b.st) = some false ∧
    smFind (small.elem 0 0).blocks 15 = none ∧
    (∃ x y k₁ k₂, Terms.gives (rdScalar 2) k0 x k₁ ∧ Terms.gives (rdScalar 2) k₁ y k₂ ∧ x.toNat % 256 = 0 ∧ 256 ≤ y.toNat ∧ x.toNat + y.toNat ≤ 0x80000) ∧
    (∃ x k₁, Terms.gives (rdScalar 0) k0 x k₁ ∧ x.toNat % 256 ≠ 0) ∧ small.cur.el < 64 := by
  refine ⟨⟨by decide, by decide⟩, by decide, by decide, ⟨_, _, _, _, rfl, rfl, by decide, by decide, by decide⟩, ⟨_, _, rfl, by decide⟩, by decide⟩

theorem witness_TimeWords :
    (∃ x y k₁ k₂ k, Terms.gives (rdPair 6) k0 x k₁ ∧ Terms.gives (rdPair 2) k₁ y k₂ ∧ Terms.before x y ∧ x ≠ y ∧ Terms.gives (wrPair 14 x) k₂ () k) ∧
    (∃ x y k₁ k₂, Terms.gives (rdPair 2) k0 x k₁ ∧ Terms.gives (rdPair 6) k₁ y k₂ ∧ ¬ Terms.before x y) ∧
    (Terms.latched k0 3).2.i.pending (16 + 15) = false ∧
    (let f := (small.elem 0 0).ft.getD 3 ⟨false, [0]⟩
     ∃ u k₁, Terms.gives (rdPair 6) k0 u k₁ ∧ ∃ t ∈ f.times, Terms.before t u) ∧ (∀ t ∈ ([] : List DWord), ¬ Terms.before t 0) := by
  refine ⟨⟨0, 0x100, _, _, _, rfl, rfl, ⟨?_, ?_, ?_⟩, by simp, rfl⟩, ⟨0x100, 0, _, _, rfl, rfl, ?_⟩, rfl, ⟨0, _, rfl, 0, ?_, ⟨?_, ?_, ?_⟩⟩, by simp⟩
  · decide
  · decide
  · decide
  · intro h
    exact absurd h.2.2 (by decide)
  · decide
  · decide
  · decide
  · decide

/-- s2 and s3 point into the element's own vault. -/
def place100 : Place := ⟨vaultAddr 0 0 0x100, .rc, false, true⟩

theorem witness_LoadAndStoreWords :
    Terms.points k0 2 (0 * 32) 32 32 .plain place100 0x100 ∧ (∀ r ∈ Terms.filled 8 14, inst1.pending r = false) ∧
    (∃ u, Terms.gives (rdPair 14) k0 u k0) ∧ ∃ u, Terms.gives (rdW 15) k0 u k0 :=
  ⟨⟨0x100, rfl, rfl⟩, by decide, ⟨_, rfl⟩, ⟨_, rfl⟩⟩

theorem witness_FullEmptyWords :
    Terms.points k0 2 (0 * 8) 8 8 .owner place100 0x100 ∧ place100.fe = true ∧
    (small.ownTest 0 0 inst1 .patch place100 [place100.addr / 8]).isSome = true ∧ small.allMarked [place100.addr / 8] true = false ∧
    (let s : State := { small with mem := ⟨[], [place100.addr / 8]⟩ }
     (s.ownTest 0 0 inst1 .patch place100 [place100.addr / 8]).isSome = true ∧ s.allMarked [place100.addr / 8] true = true) ∧
    ({ small with ord := { Ordering.reset with nextId := 1, accs := [⟨0, .elem 0 0, .patch, place100, .store ⟨place100, [(place100.addr, 7)], [], .patch, false, 0x100, false⟩,
        false, false, false, 0x100, 0, 0, none⟩] } } : State).ownTest 0 0 inst1 .patch place100 [place100.addr / 8] = none ∧
    (∃ x, Terms.gives (rdPair 14) k0 x k0) ∧ (∃ k', Terms.gives (wrPair 14 7) k0 () k') ∧
    (∃ x v, Terms.gives (rdS 0) k0 x k0 ∧ Terms.gives (rdPair 2) k0 v k0 ∧ x.toNat ≤ 65536 ∧
      Terms.gives (wPointer v (0 * 8) 8 (8 * x.toNat) .plain) k0 (place100, 0x100) k0) ∧
    Terms.points ⟨{ small with cache := [⟨.die 0, 1, none, 0, 0xFFFF, 0x10043⟩] }, inst1⟩ 8 (0 * 8) 8 8 .owner ⟨0x10010, .rc, false, false⟩ 0x8000000000000010 ∧
    Terms.local_ place100 ∧
    (let s : State := { small with cache := [⟨.die 0, 1, none, 0, 0xFFFF, 0x70000000010063⟩] }
     let pl : Place := ⟨remoteAddr 3 0x10010, .rc, false, true⟩
     Terms.points ⟨s, inst1⟩ 8 (0 * 8) 8 8 .owner pl 0x8000000000000010 ∧ ¬ Terms.local_ pl ∧
     (s.ownTest 0 0 inst1 .patch pl [pl.addr / 8]).isSome = true ∧
     ∃ k', Terms.gives (wrPair 14 (Config.freeDWord 1)) ⟨{ s with free := 2 }, inst1⟩ () k') :=
  ⟨⟨0x100, rfl, rfl⟩, rfl, by decide, by decide, by decide, by decide, ⟨_, rfl⟩, ⟨_, rfl⟩, ⟨_, _, rfl, rfl, by decide, rfl⟩, ⟨0x8000000000000010, rfl, rfl⟩,
    .inr (by decide), ⟨0x8000000000000010, rfl, rfl⟩, fun h => absurd h (by unfold Terms.local_; decide), by decide, ⟨_, rfl⟩⟩

theorem witness_FullEmptyWords_served :
    (let s : State := { small with mem := ⟨[], [place100.addr / 8]⟩ }
     (s.present (.elem 0 0) (ownId 0 0 (place100.addr / 8)) [false] [place100.addr / 8]).2 = true ∧
       let t : State := s.setElem 0 0 { s.elem 0 0 with served := (s.clock.n, [⟨false, place100.addr / 8 + 32, 0⟩]) }
       (t.present (.elem 0 0) (ownId 0 0 (place100.addr / 8)) [false] [place100.addr / 8]).2 = false) ∧
    (∃ r ∈ (small.setElem 0 0 { small.elem 0 0 with replay := [⟨.elem 0 0, ownId 0 0 (place100.addr / 8), 0, 0⟩] }).elem 0 0 |>.replay,
      r.agent = .elem 0 0 ∧ r.id = ownId 0 0 (place100.addr / 8)) ∧
    (pieces ((0x100 : DWord) + BitVec.ofInt 64 0).toNat 8 10 = [(0, 8)] ∧ Terms.gives (wPointer 0x100 0 8 8 .plain) k0 (place100, 0x100) k0) :=
  ⟨by decide +kernel, by decide +kernel, by decide +kernel, rfl⟩

theorem witness_IrrevocableWords :
    Terms.holdsIn k0 1 14 0 ∧ Terms.holdsIn k0 0 1 2 ∧ Terms.points k0 2 0 8 8 .owner place100 0x100 ∧ Terms.points k0 2 0 64 64 .owner place100 0x100 ∧
    Terms.points k0 2 0 64 128 .plain place100 0x100 ∧ (∃ x, Terms.gives (rdS 15) k0 x k0 ∧ x.toNat ≤ 15 ∧ x.toNat ≤ 1) ∧
    (∃ x, Terms.gives (rdS 2) k0 x k0 ∧ 15 < x.toNat) := by
  refine ⟨?_, ?_, ⟨0x100, rfl, rfl⟩, ⟨0x100, rfl, rfl⟩, ⟨0x100, rfl, rfl⟩, ⟨_, rfl, by decide, by decide⟩, ⟨_, rfl, by decide⟩⟩
  · show Terms.gives _ _ _ _
    rfl
  · exact ⟨2, rfl, rfl⟩
/-! ### Witnesses: arrangements, matrices, witnesses. A chain of reads and writes that succeeds meets the hypotheses it is made of
(`W.ok_of_bind`). -/

/-- A part that has to hold. -/
def need (b : Bool) : W Unit := if b then pure () else throw .hold

/-- Values of the formats, a NaN and an infinity among them; and a number of bits that leaves a tail to be rounded. -/
theorem witness_FloatRounding :
    (fp32, 0x7FC00000, 0x7F7FFFFF, 0x7F800000) ∈ Terms.formats ∧ fp32.decode 0x3F800000 = .fin false (2 ^ 23) (-23) ∧ fp32.decode 0x7FC00000 = .nan ∧
    fp32.decode 0xFF800000 = .inf true ∧ fp32.decode 0 = .fin false 0 (-149) ∧ fp32.fb + 1 ≤ Nat.log2 (2 ^ 24) ∧ (0x3F800000 : Nat) < 2 ^ fp32.width ∧
    Rm.rne ≠ .satf ∧ Terms.greater 1 0 1 (-1) ∧ ¬ Terms.greater 1 0 1 0 ∧ ¬ Terms.isValue (fp32.decode 0x3F800000) true 1 0 := by
  refine ⟨by simp [Terms.formats], by decide +kernel, by decide +kernel, by decide +kernel, by decide +kernel, by decide +kernel, by decide +kernel,
    by decide, by simp only [Terms.greater]; decide, by simp only [Terms.greater]; decide, ?_⟩
  rintro ⟨m, e, h, -⟩
  have h₂ : fp32.decode 0x3F800000 = .fin false (2 ^ 23) (-23) := by decide +kernel
  rw [h₂] at h
  cases h

/-- Two records, at keys 0 and 7. -/
def recs1 : List ARec := [⟨0, 1, 0, 2⟩, ⟨7, 1, 0, 3⟩]

/-- A descriptor: room for 4 keys, regions at two addresses, `n` runs with `n` records, since time 0, room for 8 records. -/
def descriptor (rbase ibase n : Nat) : List Byte :=
  leBytes 8 (2 ^ 60 + n * 2 ^ 48 + 2 ^ 32 + 4) ++ leBytes 8 rbase ++ leBytes 8 ibase ++ leBytes 8 (n * 2 ^ 32 + 8) ++ leBytes 32 0

/-- The vault of element 0: an arrangement with two runs at 0x100, an empty one at 0x200, records at 0x1000. -/
def arranged : Wk :=
  let at_ := fun (m : Memory) (a : Nat) (bs : List Byte) => m.write (vaultAddr 0 0 a) bs
  let m := at_ (at_ (at_ (at_ (at_ small.mem 0x100 (descriptor 0x1000 0x2000 2)) 0x200 (descriptor 0x3000 0x4000 0))
    0x1000 (recs1.flatMap (fun r => leBytes 32 (r.unit 0 0).toNat)))
    0x2000 (leBytes 4 0 ++ leBytes 4 1 ++ leBytes 4 0 ++ leBytes 4 1 ++ leBytes 4 1 ++ leBytes 4 1 ++ leBytes 4 1 ++ leBytes 4 1))
    0x2100 (leBytes 16 0 ++ leBytes 16 7)
  let i := { inst1 with qres := [[(⟨7, 5, 0, 1⟩ : ARec).unit 0 1], [], [], []],
                        r := { inst1.r with s := [2, 1, 0x100, 0, 0x200, 0, 0, 0, 0x1000, 0, 7, 0] ++ List.replicate 4 0 } }
  turnOf { small with mem := m } i

theorem witness_OnTurn_arranged : Terms.OnTurn arranged.s arranged.i := ⟨by decide +kernel, by decide +kernel, by decide +kernel⟩

theorem witness_ArrangementWords_acon : isOk ((do
    let v ← rdPair 8; let n ← rdS 0; need (decide (n.toNat ≤ 16384)); let at_ ← arrPlace v 32; claimArr [at_]; let us ← readUnits v n.toNat
    need (us.all (fun u => isChange u && !badHeader (lane u 7)))
    let out := (consolidate ((us.filter (fun u => uKind u == 1)).map recOf)).1.map (fun x => x.unit 0 0)
    need (out != []); writerOf at_; writePtr v 0 (out.flatMap (fun u => leBytes 32 u.toNat)); wrS 15 0 : W Unit) arranged) = true := by
  decide +kernel

theorem witness_ArrangementWords_ains : isOk ((do
    let v ← rdPair 4; let w ← rdPair 8; let n ← rdS 0; let at_ ← arrPlace v 64; let _ ← arrPlace w 32; claimArr [at_]; let x ← readArr v
    let us ← readUnits w n.toNat; need (us.all (fun u => uKind u != 0 && !badHeader (lane u 7))); let rs := us.map recOf; need (consolidated rs)
    let y : Arr := { x with runs := x.runs ++ [rs] }
    need y.fit; writerOf at_; writeArr v y x.runs.length; wrS 15 0 : W Unit) arranged) = true := by decide +kernel

theorem witness_ArrangementWords_amrg : isOk ((do
    let v ← rdPair 2; let n ← rdS 0; let at_ ← arrPlace v 64; claimArr [at_]; let x ← readArr v; need (n.toNat == 2 && decide (n.toNat ≤ x.runs.length))
    let r := consolidate x.runs.flatten
    let y : Arr := { x with runs := groups (2 ^ 24 - 1) 2 r.1 }
    need (decide (recCount x.runs + x.runs.flatten.length ≤ x.caprec) && decide (keyCount y.runs ≤ x.kcap))
    writerOf at_; writeArr v y 0; wrS 15 0 : W Unit) arranged) = true := by decide +kernel

theorem witness_ArrangementWords_acmp : isOk ((do
    let v ← rdPair 2; let at_ ← arrPlace v 64; claimArr [at_]; let x ← readArr v; need (x.since == [0])
    writerOf at_; writeArr v { x with since := [0] } 0; wrS 15 0 : W Unit) arranged) = true := by decide +kernel

theorem witness_ArrangementWords_aprb_join : isOk ((do
    let v ← rdPair 2; let key ← rdPair 10; let at_ ← arrPlace v 64; claimArr [at_]; let x ← readArr v
    need ((x.runs.flatten.filter (fun r => r.key == key)).length == 1); let us ← rdRest 16
    need (us.all (fun u => uKind u == 1) && us.length == 1); wrS 15 0 : W Unit) arranged) = true := by decide +kernel

theorem witness_ArrangementWords_red : isOk ((do
    let va ← rdPair 2; let vb ← rdPair 4; let pa ← arrPlace va 64; let pb ← arrPlace vb 64; claimArr [pa, pb]; let x ← readArr va; let y ← readArr vb
    let batch := x.runs.getLast?.getD []
    let cs ← (sortBy (fun (x y : DWord) => decide (x.toNat < y.toNat)) (batch.map (fun r => r.key)).dedup).foldlM (fun l q => do
      pure (l ++ (← redKey 0 q batch (x.runs.flatten.filter (fun r => r.key == q)) (y.runs.flatten.filter (fun r => r.key == q))))) ([] : List ARec)
    let z : Arr := { y with runs := y.runs ++ [(consolidate cs).1] }
    need (cs != [] && z.fit); writerOf pb; writeArr vb z y.runs.length; wrS 15 0 : W Unit) arranged) = true := by decide +kernel

theorem witness_ConsolidationKeepsSums : ∀ x ∈ recs1 ++ recs1, -2 ^ 31 ≤ x.diff ∧ x.diff < 2 ^ 31 := by decide

/-- A gather record at 0x100 whose 64 rows are all zero. -/
def gathering : Wk := turnOf { small with mem := small.mem.write (vaultAddr 0 0 0x120) (List.replicate 128 255) } inst1

theorem small_atRest : small.atRest := ⟨rfl, rfl, by simp [small, State.reset, Ordering.reset]⟩

/-- Whether the matrix unit of an element is free for an instance, and where another one has started on it (R183). -/
theorem witness_unitFree : Terms.unitFree k0.s k0.i ∧ Terms.unitFree arranged.s arranged.i ∧
    (let s : State := { small with patches := [(0, { patch1 with elems := [(0, { elem1 with insts := [{ inst1 with id := 3, mx := true }, inst1] })] })] }
     ¬ Terms.unitFree s inst1) ∧ (small.elem 0 0).rplq = 0 ∧
    ({ small.elem 0 0 with replay := [⟨.elem 0 0, 0, 0, 0⟩] } : Elem).rplq ≠ 0 := by
  refine ⟨by unfold Terms.unitFree; decide, by unfold Terms.unitFree; decide +kernel, fun h => ?_, by decide, by decide⟩
  exact absurd (h { inst1 with id := 3, mx := true } (by decide) (by decide)) (by decide)

theorem witness_MatrixWords : Terms.admits k0 (decide ((6#4).toNat ≤ 1)) ∧
    ∃ ta ma k₁ tb mb k₂ k, Terms.gives (rdTile 2 (tileBytes 6) 256) k0 (ta, ma) k₁ ∧ Terms.gives (rdTile 4 (tileBytes 6) 256) k₁ (tb, mb) k₂ ∧
      Terms.gives (matrixWord 0 6 true .rne ta tb) k₂ () k := by
  refine ⟨fun h => absurd h (by decide), ?_⟩
  obtain ⟨ta, ma, l, h₁, -, hr⟩ := rdTile_atRest (k := k0) (r := 2) (n := tileBytes 6) (al := 256) 0x100 small_atRest (by decide) (by decide) rfl (by decide) (by decide)
  obtain ⟨tb, mb, _, h₂, -⟩ := rdTile_atRest (k := ⟨{ small with ord := { small.ord with seen := l } }, inst1⟩) (r := 4) (n := tileBytes 6)
    (al := 256) 0x200 hr (show ∀ j ∈ [inst1], j.id = inst1.id from by decide) (by decide) rfl (by decide) (by decide)
  exact ⟨ta, ma, _, tb, mb, _, _, h₁, h₂, rfl⟩

theorem witness_MatrixWords_gather :
    isOk ((do
      let (rc, _) ← rdTile 2 160 32; let ta ← gatherTile 6 rc; matrixWord 0 6 true .rne ta [] : W Unit) gathering) = true ∧
    ∃ tb mb k, Terms.gives (rdTile 4 (tileBytes 6) 256) gathering (tb, mb) k := by
  refine ⟨by decide +kernel, ?_⟩
  obtain ⟨tb, mb, _, h, -⟩ := rdTile_atRest (k := gathering) (r := 4) (n := tileBytes 6) (al := 256) 0x200
    ⟨rfl, rfl, by simp [gathering, turnOf, small, State.reset, Ordering.reset]⟩ (by decide) (by decide) rfl (by decide) (by decide)
  exact ⟨tb, mb, _, h⟩

theorem witness_MatrixWords_dataflow :
    isOk ((dataflow [(2, 64)] : W Unit) (turnOf { small with mem := ⟨[], (List.range 8).map (fun j => vaultAddr 0 0 0x100 / 8 + j)⟩ } inst1)) = true := by
  decide +kernel

theorem witness_TileWords : Terms.admits k0 true ∧
    (∃ bs m k, Terms.gives (rdTile 2 (4 * 4096) 256) k0 (bs, m) k ∧ bs.length = 4 * 4096) ∧
    isOk ((do let _ ← tileAddr 4 (4 * 4096) 256 : W Unit) k0) = true ∧
    isOk ((do let us ← rdRest 16; need (us.all (fun x => uKind x != 1))
              streamOut 15 (us.filter (fun x => uKind x != 0)) : W Unit) k2) = true := by
  refine ⟨fun _ => by decide, ?_, by decide +kernel, by decide +kernel⟩
  obtain ⟨bs, m, _, h, hl, -⟩ := rdTile_atRest (k := k0) (r := 2) (n := 4 * 4096) (al := 256) 0x100 small_atRest (by decide) (by decide) rfl (by decide) (by decide)
  exact ⟨bs, m, _, h, hl⟩

theorem witness_ConvertAndScaleWords : Terms.admits k0 false ∧
    isOk ((do let us ← rdRest 16; need (us.all (fun x => uKind x != 1) && us != []); let v ← runValues 1 us; let _ ← convertRun 2 .rne 0 v : W Unit) k2) = true ∧
    isOk ((do let va ← rdS 2; let tg ← rdS 0; need (decide (va.toNat + 128 ≤ 0x80000) && decide (tg.toNat < 2 ^ 12))
              let _ ← readVault va.toNat 128 : W Unit) k0) = true :=
  ⟨fun h => absurd h (by decide), by decide +kernel, by decide +kernel⟩

/-- The header of a witness of 64 by 64 results at 0x400, generation 1, one live reader, encoding 0, whose entries are all 0;
its first word is full. -/
def witnessed : Wk :=
  turnOf { small with mem := { small.mem.write (vaultAddr 0 0 0x400) (leBytes 8 (2 ^ 32 + 2 ^ 16) ++ leBytes 8 0 ++
       leBytes 8 (1 * 2 ^ 20 + 6 * 2 ^ 17 + 6 * 2 ^ 14 + 2 ^ 7 + 1) ++ leBytes 8 0) with full := [vaultAddr 0 0 0x400 / 8] } }
   { inst1 with r := { inst1.r with s := [0, 0, 0x100, 0, 0x400, 0, 1, 0, 0x100, 0, 0, 0, 0, 0, 0, 0x40000042] }, cbAt := List.replicate 8 0x102020 }

theorem witness_OnTurn_witnessed : Terms.OnTurn witnessed.s witnessed.i := ⟨by decide +kernel, by decide +kernel, by decide +kernel⟩

theorem witness_WitnessWords :
    Terms.admits witnessed false ∧
    (∃ bs m k, Terms.gives (rdTile 2 (tileBytes 6) 256) witnessed (bs, m) k) ∧
    isOk ((do let geo ← rdS 3; need (geo == 0); let va ← tileAddr 8 4096 256; need (va == 0x100) : W Unit) witnessed) = true ∧
    isOk ((do let v ← rdPair 4; let gen ← rdS 6; let (_, x) ← witnessTest v gen; let (gs, _) ← rdTile 2 (x.r * x.c * fmtBytes 1) 256
              need (x.fmt != 0 && x.enc == 0 && gs.length == 4); let es ← readPtr v 0 x.bytes; need (numAt es 32 2 < 2 ^ (x.lh + x.lw)) : W Unit)
        witnessed) = true := by
  refine ⟨fun h => absurd h (by decide), ?_, by decide +kernel, by decide +kernel⟩
  obtain ⟨bs, m, _, h, -⟩ := rdTile_atRest (k := witnessed) (r := 2) (n := tileBytes 6) (al := 256) 0x100
    ⟨rfl, rfl, by simp [witnessed, turnOf, small, State.reset, Ordering.reset]⟩ (by decide +kernel) (by decide) rfl (by decide) (by decide)
  exact ⟨bs, m, _, h⟩
/-! ### Witnesses: routers, blocks, commits, ports, ordering -/

/-- The machine whose element 0 is the given one. -/
def elemAt (v : Elem) : State := { small with patches := [(0, { patch1 with elems := [(0, v)] })] }

/-- A router with channel 2 from West to Local, and an output port in each of three states. -/
def routing : State := elemAt { elem1 with
  router := { Router.reset with binds := [⟨3, 2, 4, 0, 255⟩], best := [(1, 4)] }
  rin := [((3, 2), [⟨unitGood, 0, none⟩]), ((1, 1), [⟨unitGood, 0, none⟩])]
  o := [{ OutPort.reset with runs := [.gen 0 1 7 0 false] }, { OutPort.reset with runs := [.units [unitGood]] }, { OutPort.reset with emitter := [unitGood] },
    OutPort.reset]
  scIn := [0x100], replay := [⟨.elem 0 0, 0, 0, 0⟩] }

theorem witness_SwitchWordsAndRouters :
    (routing.elem 0 0).waiting 3 2 = [⟨unitGood, 0, none⟩] ∧ (routing.patch 0).running = true ∧ (routing.patch 0).frozen = false ∧
    (routing.elem 0 0).router.binds.filter (fun b => b.i == 3 && b.v == 2) = [⟨3, 2, 4, 0, 255⟩] ∧ routing.canLeave 0 0 4 2 = true ∧
    (let s := elemAt { elem1 with router := routing.elem 0 0 |>.router, rin := [((1, 1), [⟨unitGood, 0, none⟩])] }
     (s.elem 0 0).waiting 1 1 = [⟨unitGood, 0, none⟩] ∧ (s.elem 0 0).router.bestOf 1 = some 4 ∧ (s.elem 0 0).claimed ((s.patch 0).captured 0) 0 4 = false ∧ s.nextIn 0 0 4 1 = true ∧ s.canLeave 0 0 4 1 = true) ∧ routing.still 0 0 = false ∧
    ((routing.elem 0 0).o.getD 0 OutPort.reset).runs = [.gen 0 1 7 0 false] ∧ ((routing.elem 0 0).o.getD 1 OutPort.reset).runs = [.units [unitGood]] ∧
    ((routing.elem 0 0).o.getD 2 OutPort.reset).emitter = [unitGood] ∧ (routing.elem 0 0).scIn = [0x100] ∧
    (let s : State := { routing with clock := ⟨1, 1, 0, 1000000⟩ }
     (s.elem 0 0).replay.find? (fun r => decide (r.at_ < s.clock.n)) = some ⟨.elem 0 0, 0, 0, 0⟩ ∧ s.access (.elem 0 0) 0 = none ∧
       (s.elem 0 0).ownAlive 0 = false) ∧ ([] : List Binding).Nodup ∧ (routing.engine 7).any (fun x => routing.moves x) = false ∧
    (let k : Port := { Port.reset with bound := some { Stream.parse stream1 with toMem := true, qp := 0 }, running := some 0 }
     let s : State := { small with patches := [(0, { patch1 with ports := [(0, k)], elems := [(0, { elem1 with o := { OutPort.reset with buf := [⟨unitGood, 0, none⟩] } :: List.replicate 3 OutPort.reset })] })] }
     (s.patch 0).captured 0 0 = true ∧ (s.elem 0 0).waiting 4 0 = [⟨unitGood, 0, none⟩]) := by decide +kernel

/-- Block 0 fires on one unit of q0; block 1 is standing, with the same trigger; block 2 is standing and takes none. -/
def firing : State := elemAt { elem1 with
  insts := [Inst.new 0 0 5 .armed]
  q := [[⟨unitGood, 0, none⟩], [], [], []]
  blocks := [(0, { (default : Block) with qc := [1, 0, 0, 0], cbac := 0, cbbc := 0 }),
             (1, { (default : Block) with st := true, qc := [1, 0, 0, 0] }),
             (2, { (default : Block) with st := true, tm := true, qc := [0, 1, 0, 0] })] }

theorem witness_BlocksFire :
    1 ≤ (Terms.freeSlots none [⟨unitGood, 0, none⟩]).length ∧ (Terms.freeSlots (some 9) []).length < 1 ∧ firing.mayFire 0 0 = true ∧
    (let s₁ := firing.prunePartly 0 0
     let v := s₁.elem 0 0
     let blk := fun n => (smFind v.blocks n).getD default
     (blk 0).st = false ∧ (blk 1).st = true ∧ (blk 1).empty = false ∧ firing.sourcesStop 0 = false ∧
     (v.insts.find? (fun i => i.st == .armed && i.blk == 0 && i.tag == 5)).isSome = true ∧ (s₁.trigger 0 0 (blk 0) 0 none).isSome = true ∧
     Terms.partly v (blk 1) 1 0 = none ∧ (s₁.trigger 0 0 (blk 1) v.newId none).isSome = true ∧ v.insts.length < 256) ∧
    (let s₂ := elemAt { elem1 with insts := [Inst.new 0 2 5 .partly], q := [[], [⟨ofLanes [0, 0, 0, 0, 0, 0, 0, header 0 5 0], 0, none⟩], [], []], blocks := (firing.elem 0 0).blocks }
     let s₁ := s₂.prunePartly 0 0
     let v := s₁.elem 0 0
     let blk := (smFind v.blocks 2).getD default
     s₂.mayFire 0 0 = true ∧ (Terms.partly v blk 2 5).isSome = true ∧ (s₁.trigger 0 0 blk 0 (some 5)).isSome = true) := by decide +kernel

/-- Whether a step of a commit is made. -/
def made : Step1 → Bool
  | .ok _ _ => true
  | _ => false

/-- An instance that has run its block to the end, and one that rotates. -/
def doneInst : Inst := { inst1 with pc := 1 }
def rotInst : Inst := { inst1 with pc := 1, rot := some ⟨0x1000, 64, false, 16⟩ }

/-- One that has waited for a full word since time 0. -/
def waiting1 : Inst := { inst1 with since := some 0 }

theorem witness_InstancesCommit :
    (let s := elemAt { elem1 with insts := [doneInst] }
     (s.elem 0 0).inst 0 = some doneInst ∧ (s.elem 0 0).wordsDone doneInst = true ∧ s.still 0 0 = false ∧ doneInst.rot = none ∧
       doneInst.sent = false ∧ s.commitReady 0 0 doneInst = true ∧ isOk (s.commitCheck 0 0 doneInst) = true ∧
       s.accstHeld 0 0 (doneInst.accstWords 0 0) = false ∧ made (s.irrevocable 0 0 (doneInst.claim (doneInst.accstWords 0 0))) = true) ∧
    (let v := { elem1 with insts := [doneInst] }
     3 < v.r.s.length ∧ 3 < v.r.cb.length ∧ doneInst.effs = []) := by
  refine ⟨⟨by decide +kernel, by decide +kernel, by decide +kernel, rfl, rfl, by decide +kernel, by decide +kernel, by decide +kernel, by decide +kernel⟩,
    by decide, by decide, rfl⟩

/-- One whose ACCST word waits for a full word of its vault, one whose atomic goes to module 3, and one at an LDFE. -/
def heldInst : Inst := { doneInst with effs := [(0, .accst 0x100 (List.replicate 8 0))] }
def sentInst : Inst :=
  { doneInst with irr := .held (.owner ⟨remoteAddr 3 0x10010, .rc, false, true⟩ .patch false false (.atomic .add false 1 0) [0] 0x10) 0 }
def takingInst : Inst := { doneInst with irr := .held (.owner place100 .patch false false .ldfe [14, 15] 0x100) 0 }

theorem witness_InstancesCommit_waits :
    (let s : State := { elemAt { elem1 with insts := [heldInst] } with mem := ⟨[], [vaultAddr 0 0 0x100 / 8]⟩ }
     (s.elem 0 0).wordsDone heldInst = true ∧ s.commitReady 0 0 heldInst = true ∧ isOk (s.commitCheck 0 0 heldInst) = true ∧
       heldInst.acl = [] ∧ s.accstHeld 0 0 (heldInst.accstWords 0 0) = true) ∧
    (let s := elemAt { elem1 with insts := [takingInst] }
     (s.elem 0 0).wordsDone takingInst = true ∧ s.commitReady 0 0 takingInst = true ∧ isOk (s.commitCheck 0 0 takingInst) = true ∧
       (match s.irrevocable 0 0 (takingInst.claim []) with
         | .waitFe _ => true
         | _ => false) = true) ∧
    (let s : State := { elemAt { elem1 with insts := [sentInst] } with fabric := { Fabric.reset with
       asked := [⟨1, 3, .elem 0 0, some 0, remoteAddr 3 0x10010, 4, true, 0x10, .failed .xlate 0, []⟩] } }
     (s.elem 0 0).wordsDone sentInst = true ∧ s.commitReady 0 0 sentInst = true ∧ isOk (s.commitCheck 0 0 sentInst) = true ∧
       (match s.irrevocable 0 0 (sentInst.claim []) with
         | .fault _ _ _ _ => true
         | _ => false) = true) ∧
    (let s : State := { elemAt { elem1 with insts := [sentInst] } with fabric := { Fabric.reset with routes := [(3, 0x100)] } }
     (s.elem 0 0).wordsDone sentInst = true ∧ s.commitReady 0 0 sentInst = true ∧ isOk (s.commitCheck 0 0 sentInst) = true ∧
       s.accstHeld 0 0 (sentInst.accstWords 0 0) = false ∧ (match s.irrevocable 0 0 (sentInst.claim []) with
         | .sent _ => true
         | _ => false) = true) := by decide +kernel

/-- The machine at 1 ms whose element 0 has one instance, at LDF s14, [s2] or past it, and whose words of vault are full as given. -/
def stuck (i : Inst) (full : List Nat) : State :=
  let v : Elem := { elem1 with insts := [i], blocks := [(0, { (default : Block) with words := [0xD0E10000] })] }
  { small with clock := ⟨800000, 1000000, 0, 1000000⟩, mem := ⟨[], full⟩, patches := [(0, { patch1 with elems := [(0, v)] })] }

/-- All 64 elements rotate; with `b`, element 5 the other way. -/
def rotating (b : Bool) : State :=
  let other : Inst := { rotInst with rot := some ⟨0x1000, 64, b, 16⟩ }
  let els := (List.range 64).map (fun e => (e, { elem1 with insts := [if e = 5 then other else rotInst] }))
  { small with patches := [(0, { patch1 with elems := els })] }

theorem witness_InstancesCommit_rotation :
    (rotating true).arrived 0 = true ∧ rotDisagree ((rotating true).participants 0) = true ∧ (rotating false).arrived 0 = true ∧
      ((rotating false).patch 0).running = true ∧ rotDisagree ((rotating false).participants 0) = false ∧
      ((rotating false).participants 0).all (fun x => x.2.irr == .none && (x.2.passed || (rotating false).commitReady 0 x.1 x.2) && isOk ((rotating false).commitCheck 0 x.1 x.2)) = true ∧
      (rotating false).regionsQuiet 0 ((rotating false).participants 0) = true ∧
      (rotating false).accstsHeld 0 ((rotating false).participants 0) = false := by
  refine ⟨?_, ?_, ?_, ?_, ?_, ?_, ?_, ?_⟩ <;> decide +kernel

/-- What FE_TIMEOUT asks of a state whose instance waits, and whether its wait has a pointer. -/
def timesOut (i : Inst) (full : List Nat) (one : Bool) : Prop :=
  let s := stuck i full
  (s.elem 0 0).inst 0 = some i ∧ i.since = some 0 ∧ i.st = .fired ∧ s.still 0 0 = false ∧ (s.part (s.partOf 0)).feNs ≠ 0 ∧
    (s.part (s.partOf 0)).feNs ≤ s.clock.ns - 0 + i.waited ∧ s.stillWaits 0 0 i = true ∧
    ((s.elem 0 0).fePtr i (s.accstWaits 0 0 i)).map (fun x => x.2.isSome) = some one

theorem witness_InstancesCommit_feTimeout :
    timesOut waiting1 [] true ∧ timesOut { heldInst with since := some 0 } [vaultAddr 0 0 0x100 / 8] false := by
  refine ⟨⟨?_, rfl, rfl, ?_, ?_, ?_, ?_, ?_⟩, ?_, rfl, rfl, ?_, ?_, ?_, ?_, ?_⟩ <;> decide +kernel
/-! ### Witnesses: streams, ordering, reads, walks -/

/-- A stream of one step from a flat address to q0, and to it from o0. -/
def from_ (base : Nat) : Stream := { Stream.parse stream1 with base := base }
def to_ (base : Nat) : Stream := { Stream.parse stream1 with base := base, toMem := true }

/-- A port that runs a stream, at a step. -/
def runs (d : Stream) (n : Nat) : Port := { Port.reset with bound := some d, running := some 0, step := n }

/-- A miss that has a resume, or not, since time 0. -/
def missed (r : Bool) : Missed := ⟨0, 0, 0, 1, 0, none, 0, r, false⟩

theorem witness_StreamEvents :
    (let s := streaming (runs (from_ 0) 0)
     Terms.portRuns s 0 0 ∧ (s.port 0 0).bound = some (from_ 0) ∧ s.portDone 0 0 (from_ 0) (s.port 0 0) = false ∧ 0 < (from_ 0).steps ∧
       (from_ 0).toMem = false ∧ ((s.elem 0 (from_ 0).el).q.getD (from_ 0).qp []).length < 16 ∧
       s.stepPlace 0 0 (from_ 0) 0 = (.ok [(⟨0x10000, .rc, false, true⟩, (from_ 0).size)], 0) ∧
       s.stepPlace 0 0 (from_ 0x10000) 0 = (.fault .xlate 0, 0x10000) ∧
       (∃ bs s', s.readAll (.port 0 0) .patch 0 [(⟨0x10000, .rc, false, true⟩, (from_ 0).size)] = .got bs s') ∧
       (from_ 0).tensor = false ∧ (from_ 0).steps ≠ 0) ∧
    (({ small with cache := [⟨.die 0, 1, none, 0, 0xFFFF, 0x20063⟩] } : State).stepPlace 0 0 (from_ 0) 0 = (.fault .perm 0, 0)) ∧
    (let s := streaming (runs (from_ 0) 1)
     s.portDone 0 0 (from_ 0) (s.port 0 0) = true) ∧
    (let s₁ : State := { small with patches := [(0, { patch1 with ports := [(0, runs (to_ 0) 0)] })] }
     s₁.stepPlace 0 0 (to_ 0) 0 = (.ok [(⟨0x10000, .rc, false, true⟩, (to_ 0).size)], 0) ∧ (to_ 0).toMem = true) ∧
    (let s := streaming { runs (from_ 0) 1 with parked := some (missed true), bubbles := [missed true], tok := 1, recs := [[1, 2, 3, 4]] }
     (s.port 0 0).parked = some (missed true) ∧ s.queueRoom 0 (from_ 0) = true ∧
       (s.portAccess 0 0 0 (from_ 0) { s.port 0 0 with parked := none } (s.stepPlace 0 0 (from_ 0) 0) none false).isSome = true ∧
       (s.port 0 0).bubbles.find? (fun m => m.resume) = some (missed true) ∧ (s.port 0 0).recs = [[1, 2, 3, 4]] ∧
       ((s.part (s.partOf 0)).fqTail - (s.part (s.partOf 0)).fqHead).toNat < 2 ^ (s.part (s.partOf 0)).fqLog) ∧
    (let s₀ := streaming { runs (from_ 0) 1 with parked := some (missed false) }
     let s : State := { s₀ with clock := ⟨40000, 50000, 0, 1000000⟩, vfs := [(3, ⟨some 1, 0, none, 0⟩)], device := { Device.reset with dstate := .reduced } }
     (s.port 0 0).parked = some (missed false) ∧ s.loadOf 0 = some load1 ∧ load1.st = .running ∧ (s.part (s.partOf 0)).escNs ≠ 0 ∧
       0 + (s.part (s.partOf 0)).escNs ≤ s.clock.ns ∧ s.vfOn 3 = true) := by
  refine ⟨⟨?_, ?_, ?_, ?_, ?_, ?_, ?_, ?_, ⟨_, _, rfl⟩, ?_, ?_⟩, ?_, ?_, ⟨?_, ?_⟩, ⟨?_, ?_, ?_, ?_, ?_, ?_⟩, ?_, ?_, ?_, ?_, ?_, ?_⟩ <;>
    first | decide +kernel | exact ⟨by decide +kernel, by decide +kernel⟩

/-- A step that crosses a frame's end, a bubble's miss, and an access that waits for a pull. -/
theorem witness_StreamEvents_more :
    (let s : State := { small with cache := [⟨.die 0, 1, none, 0, 0xFFFF, 0x10063⟩, ⟨.die 0, 1, none, 0x10000, 0x1FFFF, 0x10063⟩] }
     let d : Stream := { from_ 0xFFE8 with payload := true }
     let at_ := fun (x : Int) => s.translateAt (.port 0 0) (s.partOf 0) (BitVec.ofInt 64 x) .plain
     d.tensor = false ∧ d.steps ≠ 0 ∧ 65536 - (0xFFE8 % 65536 : Int).toNat < d.size ∧ at_ 0xFFE8 = .ok ⟨0x1FFE8, .rc, false, true⟩ ∧
       at_ 0x10000 = .ok ⟨0x10000, .rc, false, true⟩) ∧
    (let s := streaming { runs (from_ 0x10000) 0 with bubble := true }
     ({ s.patch 0 with frozen := true } : Patch).frozen = true ∧ (s.port 0 0).bubble = true ∧ (s.port 0 0).bubbles.length < 64 ∧ s.stepPlace 0 0 (from_ 0x10000) 0 = (.fault .xlate 0, 0x10000)) ∧
    (let v : Elem := { elem1 with insts := [{ inst1 with pullAt := some 0 }] }
     let s : State := { small with clock := ⟨40000, 50000, 0, 1000000⟩, patches := [(0, { patch1 with elems := [(0, v)], seq := { Seq.reset with pullAt := some 0 } })] }
     s.waitsSince 0 (waiterOf 16) = some 0 ∧ ({ runs (from_ 0) 1 with parked := some (missed true), pullAt := some 0 } : Port).pullAt = some 0 ∧ s.waitsSince 0 (waiterOf 17) = some 0 ∧ ¬ (16 < 16) ∧ 0 + (s.part (s.partOf 0)).escNs ≤ s.clock.ns) := by
  decide +kernel

/-- One store, one load and one owner step of element 0, numbered 0 to 2; the store stands in its buffer. -/
def store1 : Store := ⟨flat40, [(0x10040, 7)], [], .patch, false, 0x40, false⟩
def storeAcc (b : Bool) : Access := ⟨0, .elem 0 0, .patch, flat40, .store store1, false, false, b, 0x40, 0, 0, none⟩
def loadAcc : Access := ⟨1, .elem 0 0, .patch, flat10, .load 0x10010 4 .none, false, false, false, 0x10, 0, 1, none⟩
def ownerAcc : Access := ⟨2, .elem 0 0, .patch, flat10, .owner (.signal 1) .none, false, false, false, 0x10, 0, 2, none⟩
def ordered (b : Bool) : State := { small with ord := { Ordering.reset with accs := [storeAcc b, loadAcc, ownerAcc], nextId := 3 } }

/-- The store in the visibility buffer of patch 0. -/
def visible : State := { small with ord := { Ordering.reset with vis := [(.patch 0, [⟨0, .elem 0 0, .patch, .rc, 1, [(0x10040, 7)], [], [(.elem 0 0, 0)], 0x40, 0x10040⟩])], nextId := 1, nextAge := 2 } }

/-- A step into a tensor whose descriptor is bad (R346). -/
theorem witness_StreamEvents_tensor :
    let d : Stream := { from_ 0 with tensor := true, tens := 9 }
    let s : State := { streaming (runs d 0) with parts := [(1, { Part.reset with exists_ := true, tensors := [(9, [9 * 2 ^ 54, 0, 0, 0])] })] }
    (s.port 0 0).bound = some d ∧ s.stepPlace 0 0 d 0 = (.fault .illop 1, BitVec.ofNat 64 (at64 9 44)) ∧ Cause.illop ≠ .xlate ∧ Cause.illop ≠ .perm := by
  decide +kernel

theorem witness_OrderingSteps :
    (ordered false).access (.elem 0 0) 0 = some (storeAcc false) ∧ (ordered true).access (.elem 0 0) 0 = some (storeAcc true) ∧
    (ordered true).inOrder (storeAcc true) = true ∧ (ordered true).noEarlier (storeAcc true) = true ∧
    (ordered true).unclaimed (.elem 0 0) (storeAcc true).words = true ∧
    ((ordered true).present (.elem 0 0) 0 [true] (storeAcc true).words).2 = true ∧ (store1.bytes ≠ [] ∧ store1.banked = false) ∧
    (ordered true).access (.elem 0 0) 1 = some loadAcc ∧ Terms.local_ flat10 ∧ (ordered true).inOrder loadAcc = true ∧
    (∀ m, loadAcc.agent ≠ .engine m) ∧ ((ordered true).readWith loadAcc [] 0x10010 4).isSome = true ∧ loadAcc.reader = none ∧ loadAcc.inst = none ∧
    ((ordered true).readBytes (.elem 0 0) 1 .patch 0x10010 4).2.1 = true ∧ ((ordered true).present (.elem 0 0) 1 [false] loadAcc.words).2 = true ∧
    (ordered true).access (.elem 0 0) 2 = some ownerAcc ∧ (ordered true).ownerReady ownerAcc ((OwnOp.signal 1).words flat10) = true ∧
    (ordered true).unclaimed (.elem 0 0) ((OwnOp.signal 1).words flat10) = true ∧
    ((ordered true).present (.elem 0 0) 2 [false, true] ((OwnOp.signal 1).words flat10)).2 = true ∧
    (∃ s₁ r, (ordered true).perform ((ordered true).agentPart (.elem 0 0)) flat10 (.signal 1) 0x10 = .ok s₁ r) ∧
    ((visible.ord.buffer (.patch 0)).find? (fun y => y.id == 0)).isSome = true := by
  refine ⟨?_, ?_, ?_, ?_, ?_, ?_, ?_, ?_, Or.inl (by decide), ?_, (fun m h => by cases h), ?_, ?_,  ?_, ?_, ?_, ?_, ?_, ?_, ?_, ⟨_, _, rfl⟩, ?_⟩ <;> decide +kernel

/-- A load of instance 0, for s8. -/
def fillAcc : Access := ⟨1, .elem 0 0, .patch, flat10, .load 0x10010 4 (.inst 0 0 0 8 4 false false), false, false, false, 0x10, 0, 1, some (0, 0)⟩
def filling : State := { small with ord := { Ordering.reset with accs := [fillAcc], nextId := 2 } }

theorem witness_OrderingSteps_fill :
    filling.access (.elem 0 0) 1 = some fillAcc ∧ (filling.readWith fillAcc [] 0x10010 4).isSome = true ∧
    (filling.present (.elem 0 0) 1 [false] fillAcc.words).2 = true ∧ filling.inOrder fillAcc = true ∧ (filling.elem 0 0).fenceOpen 0 = true ∧
    (filling.readBytes (.elem 0 0) 2 .patch 0x10010 4).2.1 = true ∧ ((filling.elem 0 0).inst 0).isSome = true := by decide +kernel

theorem witness_ReadsFind :
    (∃ pre x post st, (ordered true).ord.accs = pre ++ x :: post ∧ x.agent = .elem 0 0 ∧ x.id < 1 ∧ x.op = .store st ∧
      st.bytes.find? (fun c => c.1 == 0x10040) = some (0x10040, 7)) ∧ small.ord.accs = [] ∧
    (∃ pre post, visible.chain (.elem 0 0) = pre ++ .patch 0 :: post ∧ pre = []) ∧ (youngest 0x10040 (visible.ord.buffer (.patch 0))).isSome = true ∧
    ([1, 2, 3, 4] : List Byte).length = 4 ∧ inst1.r.s.length = 16 ∧ inst1.r.w.length = 16 ∧
    small.mem.wf = true ∧ place100.addr % 8 = 0 ∧ (small.ownFlush place100.addr 8).mem.isFull place100.addr = false ∧
    (let s : State := { small with mem := ⟨[], [place100.addr / 8]⟩ }
     s.mem.wf = true ∧ (s.ownFlush place100.addr 8).mem.isFull place100.addr = true) := by
  refine ⟨⟨[], storeAcc true, [loadAcc, ownerAcc], store1, rfl, rfl, by decide, rfl, rfl⟩, rfl, ⟨[], _, rfl, rfl⟩, ?_, rfl, rfl, rfl, rfl, ?_, ?_, ?_, ?_⟩ <;>
    decide +kernel

theorem siteOf_onDie_lt (x : DWord) : (siteOf x).onDie < 8 := by
  simp only [siteOf]
  split <;> simp only [CacheSite.onDie, dieOf] <;> omega

theorem witness_WalksAndFrontiers :
    (0x10 : DWord).toNat < 2 ^ 56 ∧
    (∀ site, (tabled 0x22025 0x10063).walkResult site 1 false 0x10 = .ok ⟨site, 1, none, 0, 0xFFFF, 0x10063⟩ ∧
      (tabled 0 0x10063).walkResult site 1 false 0x10 = .fault .xlate 0 ∧ (tabled 0x4000000000022025 0x10063).walkResult site 1 false 0x10 = .wait) ∧
    (∀ x, (siteOf x).onDie < 8) ∧
    (∀ d < 8, small.walkRoom d 1 none 0 = true ∧
      ({ small with walks := (List.range 8).flatMap (fun d => (List.range 64).map (fun n => ⟨d, true, 1, none, n + 1, 0, none⟩)) } : State).walkRoom d 1 none 0 = false) ∧
    small.loadStored 0 = true ∧ 0 < (small.elem 0 0).ft.length ∧
    (let s₀ := elemAt { elem1 with blocked := some 0, insts := [] }
     let s : State := { s₀ with clock := ⟨16384, 20480, 0, 1000000⟩ }
     s.still 0 0 = false ∧ (s.elem 0 0).blocked = some 0 ∧ s.isBlocked 0 0 = true ∧ 0 + 16384 ≤ s.clock.n) ∧
    (({ small with probes := [⟨4, 0, 0, [0], 0, 0, 0⟩] } : State).probes.find? (fun y => y.n == 4 && y.q == 0)).isSome = true := by
  refine ⟨?_, ?_, siteOf_onDie_lt, ?_, ?_, ?_, ⟨?_, ?_, ?_, ?_⟩, ?_⟩
  · decide +kernel
  · intro site
    have h₁ : (tabled 0x22025 0x10063).walk 1 0x10 = .ok 0x10063 := by decide +kernel
    have h₂ : (tabled 0 0x10063).walk 1 0x10 = .fault .xlate 0 := by decide +kernel
    have h₃ : (tabled 0x4000000000022025 0x10063).walk 1 0x10 = .wait := by decide +kernel
    simp only [State.walkResult, h₁, h₂, h₃]
    exact ⟨rfl, rfl, rfl⟩
  all_goals decide +kernel

theorem witness_FrontierInstalls : Terms.before 0 1 ∧ ¬ Terms.before 1 0 := by
  refine ⟨⟨?_, ?_, ?_⟩, fun h => absurd h.2.2 ?_⟩ <;> decide
/-! ### Witnesses: engines, the host, the manager, packets and loads -/

/-- A CPY of 64 bytes from 0x100 to 0x200 of the vault of element 0, with a record at 0x300 and a flag at flat address 0x80, in a state. -/
def copying (st : EngState) : Engine :=
  let w : List DWord := [0x1000000000000040, 0x100, 0x200, 0, 0x300, 0x8000000000000080, 1, 0]
  ⟨9, 0, 0, some 0, 1, .cpy, .patch, w, 0x100, 0, st, [], [], 0, 0, 0, 0, false, 0, []⟩

/-- The machine with the given engine command. -/
def withEngine (x : Engine) : State := { small with engines := [x], nextEngine := 10 }

/-- A trigger with one counter, at flat address 0x40, and its threshold. -/
def trigger1 (t : Nat) : Trigger :=
  ⟨0, .patch, [0x1301000000000000, 0x8000000000000040, 0, 0, BitVec.ofNat 64 t, 0, 0, 0], [0x1000000000000040, 0x100, 0x200, 0, 0, 0, 0, 0], 0x100, false,
    [(0, t, 0x10040)]⟩

/-- The machine with the given trigger armed. -/
def withTrigger (t : Trigger) : State := { small with patches := [(0, { patch1 with triggers := [t] })] }

/-- Whether a span is there. -/
def spans1 : Spans → Bool
  | .ok l => l != []
  | _ => false

theorem witness_EngineCommands :
    (let s := withEngine (copying .moving)
     let x := copying .moving
     s.engine 9 = some x ∧ x.frozen = false ∧ s.moves x = true ∧ 0 < x.steps ∧ 0 ∉ x.wrote ∧ smFind x.got 0 = none ∧ blkLen x.block ≠ 0 ∧
       (∃ l bs s' v', s.spans 0 0 (blkSrc x.block) (x.off 0) 1 (x.count 0) = .ok l ∧ s.engineRead x.n (blkSrc x.block) l = (.got bs s', v')) ∧
       spans1 (s.spans 0 0 (blkDst x.block) (x.off 0) 1 8) = true ∧
       spans1 (s.spans 0 0 (blkCr x.block) 0 32 32) = true ∧ x.done < 2 ^ 32 ∧ x.sub < 256 ∧ x.status < 256 ∧ s.engineSettled x = true ∧
       x.apart = true ∧ smFind ({ x with got := [(0, List.replicate 8 1)] } : Engine).got 0 = some (List.replicate 8 1) ∧ blkFlag x.block ≠ 0 ∧
       ((s.pointer 0 0 (blkFlag x.block) 0 4 4 .owner).res = .ok ⟨0x10080, .rc, false, true⟩)) ∧
    (let x : Engine := { copying .moving with wrote := List.range 8 }
     (withEngine x).engine 9 = some x ∧ x.wrote.length = x.steps ∧ (withEngine x).engineSettled x = true) ∧
    (∀ t ∈ [0, 1], predicate ((trigger1 t).cells.map (fun c => (c.1, c.2.1, (withTrigger (trigger1 t)).counter c.2.2))) = (t == 0)) ∧
    ((withTrigger (trigger1 0)).patch 0).triggers[0]? = some (trigger1 0) ∧ (trigger1 0).hit = false ∧
    (withTrigger (trigger1 0)).travels ((withTrigger (trigger1 0)).partOf 0) (((withTrigger (trigger1 0)).patch 0).load.map (fun l => l.1)) = false ∧
    ({ withTrigger (trigger1 0) with parts := [(1, { Part.reset with exists_ := true, migrate := some (1, 7) })] } : State).travels 1 (some 0) = true ∧
    engKind (bits ((trigger1 0).cmd.getD 0 0) 59 56) = some .cpy ∧
    (∃ l, l = [(0, 1, 0), (2, 3, 3)] ∧ predicate l = true) ∧ predicate [(0, 1, 0)] = false ∧
    (let s : State := { small with clock := ⟨2000000, 2500000, 0, 1000000⟩, parts := [(1, { Part.reset with exists_ := true, migrate := some (1, 7) })] }
     (s.part 1).migrate.isSome = true ∧ (s.part 1).migrateAt + 2000000 ≤ s.clock.ns ∧
       s.hasBegun { copying .moving with got := [(0, [1])] } = true) ∧
    (withEngine (copying .moving)).engine 9 = some (copying .moving) ∧ (9 : Nat) ≠ 8 := by
  refine ⟨⟨?_, ?_, ?_, ?_, ?_, ?_, ?_, ⟨_, _, _, _, rfl, rfl⟩, ?_, ?_, ?_, ?_, ?_, ?_, ?_, ?_, ?_, ?_⟩, ⟨?_, ?_, ?_⟩, ?_, ?_, ?_, ?_, ?_, ?_, ⟨_, rfl, ?_⟩, ?_, ?_, ?_, ?_⟩ <;>
    decide +kernel

/-- A GATH of two elements of 8 bytes, whose two indices have been read. -/
def gathers1 (got : SMap (List Byte)) : Engine :=
  { copying .moving with kind := .gath, block := [0x1100000000000002, 0x100, 0x200, 0x400, 0, 0, 0, 0], got := got }

theorem witness_EngineCommands_gather :
    (let x := gathers1 [(2 ^ 32, leBytes 4 1 ++ leBytes 4 3)]
     let s := withEngine x
     s.engine 9 = some x ∧ s.moves x = true ∧ 0 < x.steps ∧ x.index 0 = some 1 ∧ spans1 (s.spans 0 0 x.indexed (1 * blkEsz x.block) (blkEsz x.block) (blkEsz x.block)) = true ∧
       (s.gathererOf x 0).isSome = true) ∧
    (let x := gathers1 []
     let s := withEngine x
     smFind x.got (2 ^ 32 + 0) = none ∧ 2 * 0 < blkLen x.block ∧ spans1 (s.spans 0 0 (blkIdx x.block) (8 * 0) 1 (4 * min 2 (blkLen x.block - 2 * 0))) = true) ∧
    (∃ bs t v, (withEngine (gathers1 [])).engineRead 9 0x400 [(⟨vaultAddr 0 0 0x400, .rc, false, true⟩, 8)] = (.got bs t, v)) ∧
    ((withEngine (gathers1 [])).presentWords (.engine 9) (pieceId 0) [false] [vaultAddr 0 0 0x400 / 8]).2 = true := by
  refine ⟨by decide +kernel, by decide +kernel, ⟨_, _, _, rfl⟩, by decide +kernel⟩

/-- The machine REDUCED, with virtual function 3 on partition 1 and queue 0 its queue 2. -/
def live : State :=
  { small with device := { Device.reset with dstate := .reduced }, vfs := [(3, ⟨some 1, 0, none, 0⟩)]
               queues := [(0, { Queue.reset with part := 1, st := .run, vf := some (3, 2) })] }

theorem witness_HostRegisters :
    live.vfOn 3 = true ∧ live.allPerformed (.host 3) live.ord.nextId .dev = true ∧ live.queueOf 3 1 = none ∧ live.queueOf 3 2 = some 0 ∧
    ¬ ((64 : Word) - (live.queue 0).headCnt).toNat > 2 ^ (live.queue 0).ringLog ∧ 2 ^ (live.queue 0).ringLog < ((65 : Word) - (live.queue 0).headCnt).toNat ∧
    (live.vf 3).part = some 1 ∧ 0x7FF ∉ bar0Regs ∧ (live.vf 3).frozen = none ∧ (0x10 : BitVec 56).toNat % 65536 + [1, 2].length ≤ 65536 ∧ (0x10 : BitVec 56).toNat % 65536 + ([] : List Byte).length ≤ 65536 ∧
    live.translate 1 0x10 .host = .ok flat10 ∧
    (∀ i < 4, live.translate 1 (BitVec.ofNat 64 0x10 + BitVec.ofNat 64 i) .host = .ok { flat10 with addr := flat10.addr + i }) := by decide +kernel

/-- It with partition 1 in a migration's phase, towards a module. -/
def migrating (k m : Nat) : State := { live with parts := [(1, { Part.reset with exists_ := true, patches := [0], migrate := some (k, m) })] }

theorem witness_ManagerCommands :
    live.device.dstate = .reduced ∧ (live.part 1).exists_ = true ∧ (live.part 2).exists_ = false ∧ (∃ l ∈ live.loads, l.part = 1) ∧
    (live.queue 0).st ≠ .stopped ∧ (live.queue 7).st = .stopped ∧ (live.queue 7).st ≠ .wdhold ∧
    (({ live with queues := [(7, { Queue.reset with st := .wdhold })] } : State).queue 7).st = .wdhold ∧ live.loadAt 0 = some load1 ∧ load1.st.alive = true ∧
    live.frozenSub load1 = none ∧ live.frozenSub { load1 with st := .frozen 3 } = some 3 ∧
    (let g : GrantArgs := ⟨1, [5], [], [9], none, [], none, 0, 12, some 3⟩
     g.part < 20 ∧ (∀ x ∈ live.parts, x.1 ≠ 1 → g.ident ≠ some x.2.ident) ∧ (∀ i, g.ident = some i → i < 20) ∧ (∀ p ∈ g.patches ++ g.take, p < 640) ∧ 4 ≤ g.fqLog ∧ g.fqLog ≤ 12 ∧ (∀ p ∈ g.patches, (live.patch p).fenced = false ∧ ∀ x ∈ live.parts, x.1 ≠ 1 → p ∉ x.2.patches)) ∧
    (let g : QSetArgs := ⟨4095, 19, 7, 255, 0, 16, false, 1023, 3, true⟩
     g.queue < 4096 ∧ g.part < 20 ∧ g.pri ≤ 7 ∧ g.weight ≠ 0 ∧ g.weight ≤ 255 ∧ 6 ≤ g.ringLog ∧ g.ringLog ≤ 16 ∧ g.vf < 1024 ∧ g.n ≤ 3 ∧
       ∀ x ∈ live.queues, x.1 ≠ g.queue → x.2.vf ≠ some (g.vf, g.n)) ∧
    okLimit 1000000 = true ∧ (∀ x ∈ [((511 : Nat), (511 : Half))], x.1 < 512 ∧ x.2.toNat < 512) ∧
    (∀ x ∈ [((255 : Nat), (15 : Nat), (0x1110 : Half))], x.1 < 256 ∧ x.2.1 < 16 ∧ x.2.2.toNat < 2 ^ 13 ∧ x.2.2.toNat / 32 % 8 = 0 ∧ x.2.2.toNat % 32 ≤ 16) ∧
    ({ live with loads := [] } : State).partSettled 1 = true ∧ (live.part 1).migrate = none ∧
    (∃ bs u, live.readFlat (.cmdProc 1) 1 (BitVec.ofNat 64 0x40) 64 = .ok bs u) ∧
    (∃ c sub v u, live.readFlat (.cmdProc 1) 1 (BitVec.ofNat 64 0x10000) 64 = .fault c sub v u) ∧
    ({ live with loads := [{ load1 with st := .placed }] } : State).loadAt 0 = some { load1 with st := .placed } ∧
    ¬ (live.portFenced 15 = true ∧ live.portFenced 15 = true) := by
  refine ⟨?_, ?_, ?_, ?_, ?_, ?_, ?_, ?_, ?_, ?_, ?_, ?_, ?_, ?_, ?_, ?_, ?_, ?_, ?_, ⟨_, _, rfl⟩, ⟨_, _, _, _, rfl⟩, ?_, ?_⟩ <;> decide +kernel

theorem witness_ManagerCommands_migrate :
    (∀ k ∈ [1, 2, 3, 4], ((migrating k 7).part 1).exists_ = true ∧ ((migrating k 7).part 1).migrate = some (k, 7) ∧ 7 ≠ (migrating k 7).fabric.mod ∧
      (migrating k 7).partSettled 1 = false ∧ ({ migrating k 7 with loads := [] } : State).partSettled 1 = true) ∧
    0 = (migrating 3 0).fabric.mod ∧ ((migrating 3 0).part 1).migrate = some (3, 0) ∧ (live.part 1).migrate ≠ some (3, 0) := by decide +kernel

theorem witness_ManagerThaw :
    (let t : ThawName := ⟨3, 0, 0, 4, 0, 0⟩
     t.queue < 4096 ∧ t.lp < 640 ∧ t.el < 64 ∧ t.agent ≤ 5 ∧ t.port < 16 ∧ t.agent = 4 ∧
       (({ live with vfs := [(3, ⟨some 1, 0, some ⟨0x10, [], 4⟩, 0⟩)] } : State).vf 3).frozen = some ⟨0x10, [], 4⟩) ∧
    (live.thawAgent load1 ⟨0, 0, 0, 0, 0, 0⟩) = none ∧
    (let s : State := { live with patches := [(0, { patch1 with elems := [(0, { elem1 with frozen := true })] })] }
     (s.thawAgent load1 ⟨0, 0, 0, 0, 0, 0⟩).isSome = true) := by decide +kernel

theorem witness_MailboxReads : live.device.dstate = .reduced ∧
    (let s : State := { live with loads := [{ load1 with st := .held, images := [PatchImage.none] }], patches := [(0, { patch1 with frozen := true })] }
     s.loadAt 0 = some { load1 with st := .held, images := [PatchImage.none] } ∧ s.standsFrozen { load1 with st := .held, images := [PatchImage.none] } = true ∧ 0 < [PatchImage.none].length) ∧
    live.loadAt 4095 = none := by decide +kernel

/-- An image of one patch, with nothing in it, and a launch packet for it at flat address 0. -/
def image1 : List Byte :=
  leBytes 4 0x10000 ++ leBytes 4 0x4F4C5700 ++ leBytes 8 (2 ^ 56 + 1) ++ leBytes 8 160 ++ leBytes 40 0 ++
    leBytes 8 (2 ^ 56 + 1) ++ leBytes 8 96 ++ leBytes 8 64 ++ leBytes 8 0 ++ leBytes 2 1 ++ leBytes 2 1 ++ leBytes 2 1 ++ leBytes 26 0 ++ leBytes 32 0

def packet1 : List DWord := [0x1000000100000007, 0x100, 0, 0, 0, 0, 0, 0]

/-- Queue 0 waits with one packet in its ring, which stands at flat address 0; the image is at flat address 0x100. -/
def packeted (w : List DWord) : State :=
  { small with loads := [], patches := [], mem := (small.mem.write 0x10000 (w.flatMap (fun x => leBytes 8 x.toNat))).write 0x10100 image1,
               queues := [(0, { Queue.reset with part := 1, st := .wait, tail := 1 })] }

/-- Whether a check passes. -/
def passes {α : Type} : Chk α → Bool
  | .ok _ _ => true
  | _ => false

/-- A collective packet of two members of which this is the first, whose group table is at flat address 0x400. -/
def packet2 : List DWord :=
  [0x1100000000000000 + 1 * 0x0000100000000000, 0x0000000100000800, 0x8000000000000400, 0x8000000000000800, 0x8000000000000C00, 0, 0, 0,
   0, 0, 0, 0, 0, 0, 0, 0]

theorem witness_PacketsStart_take :
    (let s := packeted packet1
     let q := s.queue 0
     q.st = .wait ∧ q.head = none ∧ (∀ l ∈ s.loads, l.q ≠ 0) ∧ q.tail ≠ q.headCnt ∧ passes (s.ringPacket q) = true ∧
       (∀ c ∈ s.colls, c.q ≠ some 0) ∧
       passes ((s.ringPacket q).bind s (fun w s => if isColl w.1 then .wait s else s.checkLaunch { q with prev := s.previous 0 } w.1 (q.entry 0))) = true ∧
       passes ((s.ringPacket q).bind s (fun w s => if w.2.1 ≤ (q.tail - q.headCnt).toNat ∧ w.2.2 = none then (s.checkLaunch q w.1 (q.entry 0)).bind s (fun x s =>
         match x.1.images with
         | .ok _ => .ok () s
         | .error _ => .wait s) else .wait s)) = true) ∧
    (let s := packeted (0 :: packet1.tail)
     let q := s.queue 0
     passes ((s.ringPacket q).bind s (fun w s => match s.checkLaunch { q with prev := s.previous 0 } w.1 (q.entry 0) with
       | .fail .illop 1 _ s => .ok () s
       | _ => .wait s)) = true) ∧
    (let s₀ := packeted packet2
     let s : State := { s₀ with mem := s₀.mem.write 0x10400 (leBytes 4 0 ++ leBytes 4 512), queues := [(0, { Queue.reset with part := 1, st := .wait, tail := 2 })] }
     let q := s.queue 0
     passes ((s.ringPacket q).bind s (fun w s => if isColl w.1 ∧ w.2.1 ≤ (q.tail - q.headCnt).toNat ∧ w.2.2 = none then (s.checkColl 1 w.1 (q.entry 0)).bind s (fun _ s => .ok () s) else .wait s)) = true) ∧
    (let s₀ := packeted (packet2.set 14 1)
     let s : State := { s₀ with queues := [(0, { Queue.reset with part := 1, st := .wait, tail := 2 })] }
     let q := s.queue 0
     passes ((s.ringPacket q).bind s (fun w s => match s.checkColl q.part w.1 (q.entry 0) with
       | .fail _ _ _ s => if isColl w.1 then .ok () s else .wait s
       | _ => .wait s)) = true) ∧
    (let s₀ := packeted packet1
     let q := { (s₀.queue 0) with ringBase := 0x10000 }
     ((match s₀.ringPacket q with
       | .fail _ _ _ _ => true
       | _ => false) = true)) ∧
    (let s₀ := packeted packet2
     let q := { (s₀.queue 0) with ringBase := 0xFFC0, tail := 2 }
     let s : State := { s₀ with mem := s₀.mem.write 0x1FFC0 (leBytes 8 0x1100100000000000), queues := [(0, q)] }
     ((match s.ringPacket q with
       | .ok (w, k, some _) _ => isColl w && decide (k ≤ (q.tail - q.headCnt).toNat)
       | _ => false) = true)) := by decide +kernel
/-! ### Witnesses: packets that start, loads that end, the fabric and the device -/

/-- A packet for one patch that is ready, and one that has failed, at the head of queue 0; partition 1 has patches 0 and 1, free. -/
def imageOne : LoadImage := { (default : LoadImage) with pw := 1, ph := 1 }
def head1 (f : Option (Nat × Nat × DWord)) (w : List DWord) : Head := ⟨w, 0, imageOne, none, [], true, f⟩
def offering (h : Head) : State :=
  { small with
    loads := [], patches := [], parts := [(1, { Part.reset with exists_ := true, patches := [0, 1], frames := [1] })]
    queues := [(0, { Queue.reset with part := 1, st := .wait, head := some h })] }

/-- An image of no patch, which always passes phase 1, and one whose record fails its checks, which never does. -/
def imageNone : LoadImage := { (default : LoadImage) with ph := 1 }
def imageBad : LoadImage := { imageOne with pats := [List.replicate 48 0] }

/-- The load placed on patch 0, with an image. -/
def placed1 (r : Bool) (img : LoadImage) : State :=
  let l : Load := { load1 with st := .placed, img := img }
  { small with loads := [l], patches := [(0, { Patch.reset with load := some (0, 0), part := some 1, resident := if r then some (1, l.image) else none })] }

theorem phase1_imageNone (s : State) : ∃ t, s.phase1 imageNone = (t, .ok []) := by
  have h : ∀ x : Option Nat, x.filter (fun k => decide (k < imageNone.pw * imageNone.ph)) = none := by
    intro x
    cases x <;> rfl
  exact ⟨_, by simp only [State.phase1, h]; rfl⟩

theorem phase1_imageBad (s : State) : ∃ t c fa, s.phase1 imageBad = (t, .error (c, fa)) := by
  have hi : imageBad.images.toOption = none := by decide +kernel
  simp only [State.phase1]
  match hm : imageBad.images with
  | .ok l => rw [hm] at hi; cases hi
  | .error (lp, e) =>
    cases Option.filter _ _ with
    | none => exact ⟨_, _, _, rfl⟩
    | some k =>
      dsimp only
      split
      · exact ⟨_, _, _, rfl⟩
      · exact ⟨_, _, _, rfl⟩

theorem witness_PacketsStart :
    (let s := (offering (head1 none [0x1000000100000007, 0x100])).freshRounds
     (s.queue 0).head = some (head1 none [0x1000000100000007, 0x100]) ∧ (s.queue 0).staged = none ∧ s.pick = some 0 ∧ s.headPlace 0 = some [0] ∧
       isColl [0x1000000100000007, 0x100] = false ∧ (s.queues.map (fun x => x.1)).Nodup) ∧
    (let s := (offering (head1 none [0x1100000100000007, 0x100])).freshRounds
     s.pick = some 0 ∧ s.headPlace 0 = some [] ∧ isColl [0x1100000100000007, 0x100] = true) ∧
    (∀ w ∈ [[], [0x1100000100000007, 0x100]], let s := offering (head1 (some (1, 2, 3)) w)
     (s.queue 0).head = some (head1 (some (1, 2, 3)) w) ∧ (s.queue 0).st = .wait ∧ isColl w = (w != []) ∧ s.freshRounds.pick ≠ some 0) ∧
    (let s := offering (head1 none [0x1000000100000007, 0x100])
     let level := s.queues.filter (fun y => y.2.pri == (s.queue 0).pri && s.eligible y.1)
     level ≠ [] ∧ (∃ y ∈ level, y.2.charge < y.2.weight) ∧ s.pick ≠ some 7) ∧
    placeOn [3, 7, 47] 1 2 = some [7, 47] ∧ placeOn [3, 8, 47] 1 2 = some [3, 8] ∧
    (∀ r ∈ [true, false], ∃ l, (placed1 r imageNone).loads.find? (fun l => l.q == 0) = some l ∧ l.st = .placed ∧
      (∀ p ∈ l.patches, ((placed1 r imageNone).patch p).gated = false ∧ (placed1 r imageNone).hot p = false) ∧ (placed1 r imageNone).mayStart l.part = true ∧ ((placed1 r imageNone).resident l).isSome = r ∧
      l.img = imageNone) ∧
    (let s : State := { small with queues := [(0, { Queue.reset with part := 1, st := .run, staged := some (head1 none []) })] }
     (s.queue 0).staged = some (head1 none []) ∧ s.loads.find? (fun l => l.q == 0) = some load1 ∧ load1.st = .running ∧
       (∀ p ∈ load1.patches, (s.patch p).phase.opened = false) ∧ (∃ p ∈ load1.patches, (s.patch p).staged = none) ∧ load1.patches.Nodup) ∧
    (let s : State := { small with clock := ⟨16000, 20000, 0, 1000000⟩ }
     (s.patch 5).load = none ∧ (s.patch 5).gated = false ∧ (s.patch 5).freeSince + 20000 ≤ s.clock.ns) ∧
    (let s : State := { small with patches := [(0, { Patch.reset with load := some (0, 0), gated := true })] }
     (s.patch 0).load = some (0, 0) ∧ (s.patch 0).gated = true) := by
  refine ⟨?_, ?_, ?_, ?_, ?_, ?_, ?_, ?_, ?_, ?_⟩
  · decide +kernel
  · decide +kernel
  · decide +kernel
  · decide +kernel
  · decide +kernel
  · decide +kernel
  · intro r hr
    exact ⟨{ load1 with st := .placed, img := imageNone }, by cases r <;> rfl, rfl, by cases r <;> decide +kernel, by cases r <;> decide +kernel,
      by cases r <;> decide +kernel, rfl⟩
  · decide +kernel
  · decide +kernel
  · decide +kernel

/-- The image of a load is read again and is as it was, or cannot be read. -/
theorem witness_PacketsStart_image :
    (∃ img t, (packeted packet1).freshImage 1 0x100 imageOne = .ok img t) ∧ (∃ c sub fa t, (packeted packet1).freshImage 1 0x10000 imageOne = .fail c sub fa t) := by
  have h₁ : passes ((packeted packet1).freshImage 1 0x100 imageOne) = true := by decide +kernel
  have h₂ : (match (packeted packet1).freshImage 1 0x10000 imageOne with
    | .fail _ _ _ _ => true
    | _ => false) = true := by decide +kernel
  refine ⟨?_, ?_⟩
  · revert h₁
    cases (packeted packet1).freshImage 1 0x100 imageOne with
    | ok img t => exact fun _ => ⟨_, _, rfl⟩
    | wait t => exact fun h => nomatch h
    | fail c sub fa t => exact fun h => nomatch h
  · revert h₂
    cases (packeted packet1).freshImage 1 0x10000 imageOne with
    | ok img t => exact fun h => nomatch h
    | wait t => exact fun h => nomatch h
    | fail c sub fa t => exact fun _ => ⟨_, _, _, _, rfl⟩

/-- The load's patches with nothing running. -/
def resting (l : Load) : State :=
  { small with
    loads := [l], patches := [(0, { patch1 with elems := [], seq := { Seq.reset with wf := true } })]
    clock := ⟨2000000, 2500000, 0, 1000000⟩
    parts := [(1, { Part.reset with exists_ := true, patches := [0], frames := [1], saveArea := some 0x10000 })] }

theorem witness_LoadsEnd :
    small.loadAt 0 = some load1 ∧ load1.st = .running ∧
    (let s := resting load1
     s.loadAt 0 = some load1 ∧ s.naturalEnd load1 = true ∧ load1.patches.Nodup) ∧
    (let l := { load1 with st := .held, resumed := true, frames := [3] }
     let s := resting l
     s.loadAt 0 = some l ∧ s.settled l = true ∧ l.patches ≠ [] ∧ l.frames.length = l.patches.length ∧ s.commands 0 = false ∧
       (s.part l.part).migrate = none ∧ s.outranked l = false) ∧
    (let l := { load1 with st := .held, resumed := false }
     let s := resting l
     s.loadAt 0 = some l ∧ l.frames.length ≠ l.patches.length ∧ l.resumed = false) ∧
    (let l := { load1 with st := .evicted none, resumed := true, patches := [] }
     let s : State := { resting l with patches := [] }
     s.loadAt 0 = some l ∧ s.outranked l = false ∧ (∀ m ∈ [[], [PatchImage.none]], ({ s with loads := [{ l with images := m }] } : State).loadAt 0 = some { l with images := m }) ∧ placeOn (s.freePatches 1) l.img.pw l.img.ph = some [0]) ∧
    (let l := { load1 with budget := 1000, tstart := some 0 }
     let s : State := { small with loads := [l], clock := ⟨800000, 1000000, 0, 1000000⟩ }
     l.st.counts = true ∧ l.tstart.isSome = true ∧ l.budget ≠ 0 ∧ l.budget * 1000 ≤ (l.tick s.clock.tsc).timer ∧ s.naturalEnd l = false) ∧
    (let l := { load1 with st := .ended 0 0, cr := 0x40 }
     let s := resting l
     s.loadAt 0 = some l ∧ s.loadDone l 0 = true) := by
  decide +kernel

/-- A completion record that can be written, and a recorded load with a flag, or with the launcher's load beside it. -/
theorem witness_LoadsEnd_record :
    (let l := { load1 with st := .ended 0 0, cr := 0x40 }
     let s := resting l
     ∃ s₁, s.writeRecord l.part (BitVec.ofNat 64 l.cr) (recordWords 0 0 l.fcnt l.lid l.fcause l.faddr (l.tstart.getD 0) s.clock.tsc (s.frozenElems l)
       l.images.length 0) = .ok s₁) ∧
    (let l := { load1 with st := .recorded 0 0, flag := 0x80 }
     let s := resting l
     s.loadAt 0 = some l ∧ s.cpDone l.part = true ∧ l.launcher = none ∧ (s.signalFlag l.part (BitVec.ofNat 64 l.flag) l.finc).2 = true) ∧
    (let l := { load1 with st := .recorded 0 0, launcher := some (7, 0), flag := 0 }
     let k : Load := { load1 with q := 3, order := 7 }
     let s : State := { resting l with loads := [l, k] }
     s.loadAt 0 = some l ∧ s.cpDone l.part = true ∧ s.loads.find? (fun x => x.order == 7) = some k) :=
  ⟨⟨_, rfl⟩, by decide +kernel, by decide +kernel⟩

/-- A packet for two patches waits in queue 1, which has no free rectangle: the load stands on the middle one of three patches. -/
def wanting (l : Load) (now : Nat) : State :=
  { small with
    loads := [l], patches := [(1, { patch1 with elems := [], seq := { Seq.reset with wf := true } })], clock := ⟨now, now, 0, 1000000⟩
    parts := [(1, { Part.reset with exists_ := true, patches := [0, 1, 2] })]
    queues := [(0, { Queue.reset with part := 1, st := .run }),
      (1, { Queue.reset with part := 1, st := .wait, head := some ⟨[0x1000000200000007, 0x100], 0, { imageOne with pw := 2 }, none, [], true, none⟩ })] }

theorem witness_LoadsEnd_move :
    (let l := { load1 with patches := [1] }
     let s := wanting l 0
     s.loadAt 0 = some l ∧ l.st = .running ∧ s.wantsRoom 1 = some (1, 0) ∧ l.drain = none) ∧
    (let l := { load1 with patches := [1], drain := some ⟨1, 0, 0⟩ }
     let s := wanting l 80000
     s.wantsRoom 1 = some (1, 0) ∧ s.clock.ns ≤ 0 + 100000 ∧ 0 + 100000 < (wanting l 80001).clock.ns ∧ s.lull l = true ∧
       ({ s with loads := [{ l with st := .placed }] } : State).loadAt 0 = some { l with st := .placed } ∧ s.commands 0 = false ∧
       placeOn ((List.range 640).filter (fun p => l.patches.contains p || (s.freePatches l.part).contains p)) l.img.pw l.img.ph = some [0] ∧
       [0] ≠ l.patches ∧ ([0] : List Nat).sum < l.patches.sum) ∧
    (small.wantsRoom load1.part = none) ∧
    (let l := { load1 with patches := [1], frames := [3] }
     let s := wanting l 0
     (((s.holdLoad l).readOut l).loadAt 0).any (fun h => ((s.holdLoad l).readOut l).settled h && h.frames.length == h.patches.length &&
       ((((s.holdLoad l).readOut l).saveLoad h).loadAt 0).isSome) = true) := by decide +kernel

theorem witness_LoadsEnd_preempt :
    (let l := { load1 with pri := 1 }
     let q := { Queue.reset with part := 1, pri := 5, st := .wait, head := some (head1 none [0x10A0000100000007, 0x100]) }
     let s : State := { small with loads := [l], queues := [(0, { Queue.reset with part := 1, st := .run }), (1, q)] }
     s.loadAt 0 = some l ∧ l.st = .running ∧ (1, q) ∈ s.queues ∧ q.head = some (head1 none [0x10A0000100000007, 0x100]) ∧ s.eligible 1 = true ∧ s.headPlace 1 = none ∧
       s.victim q.part (min (pkPri (head1 none [0x10A0000100000007, 0x100]).words) q.pri) = some 0) := by decide +kernel

/-- Port 0 up, on module 5, and a packet for it from module 6 about frame 1 of partition 1. -/
def linked : State := { small with
  parts := [(1, { Part.reset with exists_ := true, ident := 1, patches := [0], frames := [1] })]
  fabric := { Fabric.reset with mod := 5, ports := [(0, { FabPort.reset with up := true, version := 0x00010001 })] } }
def packet0 (kind : BitVec 4) : Packet := { packet kind.toNat .fab 5 1 8 7 0 0x10010 (leBytes 8 0x1FF) with smod := 6 }

theorem witness_FabricPackets :
    linked.mem.wf = true ∧ (linked.fabPort 0).up = true ∧ linked.portFenced 0 = false ∧ (packet0 0).dmod.toNat = linked.fabric.mod ∧
    linked.stub (packet0 0) = none ∧ (∃ x ∈ linked.parts, x.2.ident = (packet0 0).part.toNat ∧ (packet0 0).addr.toNat / 65536 ∈ x.2.frames) ∧
    linked.fabric.dup = [] ∧ (∀ v ∈ linked.ord.vis, ∀ y ∈ v.2, y.age < linked.ord.nextAge) ∧
    ({ linked with parts := [] } : State).part 1 = Part.reset ∧ ({ packet0 0 with dmod := 9 } : Packet).dmod.toNat ≠ linked.fabric.mod ∧
    (packet0 11).kind.toNat < 12 ∧ 12 ≤ (packet0 12).kind.toNat ∧ linked.wrCount (packet0 6) < numAt (packet0 6).payload 4 4 + 1 ∧
    (({ linked with fabric := { linked.fabric with held := [⟨0, { packet0 2 with smod := 5, dmod := 6 }, 16, 0, true, false, 0, 0⟩] } } : State).fabric.held.find?
      (fun h => h.sent && h.out == 0 && h.k.tag == (packet0 7).tag && h.k.smod == (packet0 7).dmod)).isSome = true ∧
    (({ linked with fabric := { linked.fabric with stubs := [(1, 9)] } } : State).stub (packet0 0)) = some 9 := by decide +kernel

theorem witness_FabricCustody :
    (let s (b : Bool) : State := { linked with fabric := { linked.fabric with held := [⟨4, packet0 2, 16, 0, b, false, 0, 0⟩] }, clock := ⟨80000, 100000, 0, 1000000⟩ }
     ((s false).fabric.held.find? (fun h => h.n == 4 && h.out == 0)).isSome = true ∧ (s false).mayLeave ⟨4, packet0 2, 16, 0, false, false, 0, 0⟩ = true ∧
       (∃ y ∈ (s true).fabric.held, y.n = 4 ∧ y.out = 0 ∧ y.sent = true) ∧ 0 + 10000 ≤ (s true).clock.ns ∧ ((s true).fabPort 0).syncDue ≤ (s true).clock.ns) ∧
    ({ linked with clock := ⟨800000, 1000000, 0, 1000000⟩ } : State).clock.ns ≥ linked.fabric.custodyNs ∧ 511 < 512 ∧
    (linked.fabPort 0).has (packet0 2) = true ∧ (linked.fabPort 9).up = false ∧ (packet0 2).kind ≠ 7 ∧ (packet0 2).kind ≠ 10 ∧
    ({ linked.fabPort 0 with lastLink := some 4 } : FabPort).lastLink = some 4 := by decide +kernel

/-- A collective of two members at module 5, whose group table is at flat address 0x400, as COLL has accepted it; and one in progress. -/
def coll1 : Collective := { (default : Collective) with
  n := 4, part := 1, block := [0x1100100000000000, 0x0000000100000800, 0x8000000000000400, 0x8000000000000800, 0x8000000000000C00] ++ List.replicate 11 0 }

def gathered : State :=
  { linked with colls := [coll1], mem := linked.mem.write 0x10400 (leBytes 4 (5 + 1 * 512) ++ leBytes 4 (6 + 1 * 512)) }

theorem witness_CollectivesAndPulls :
    gathered.coll 4 = some coll1 ∧ coll1.trigs = none ∧ coll1.started = none ∧ coll1.fail = none ∧ coll1.recorded = false ∧ passes (gathered.checkColl 1 coll1.block coll1.ptr) = true ∧
    coll1.q = none ∧ (coll1.block.getD 10 0).toNat ≤ gathered.clock.tsc.toNat ∧
    (match linked.checkColl 1 coll1.block coll1.ptr with
      | .fail _ _ _ _ => true
      | _ => false) = true ∧
    gathered.allPerformed (.cmdProc 1) gathered.ord.nextId .fab = true ∧ gathered.cpDone 1 = true ∧
    (let c : Collective := { coll1 with started := some 0, block := [0x1103000000000000, 4096 * 2 ^ 32, 0, 0, 0x8000000000000C00, 0, 0, 0, 0, 0, 0, 64 * 2 ^ 32 + 64] ++ List.replicate 4 0 }
     c.started.isSome = true ∧ ckAlg c.block = 3 ∧ 0 < tileCount c.block ∧ 0 ∉ c.tiles) ∧
    (let x : DWord := 0x50B0000000010063
     let s := tabled 0x22025 x.toNat
     (s.pullEntry 1 0x10).map (fun x => x.1) = some 0x26000 ∧ s.readWordDev 0x26000 = x ∧ x.getLsbD 0 = true ∧
       x.toNat / 2 ^ 51 % 4 = 2 ∧ x.getLsbD 62 = true) ∧
    (let s₀ := tabled 0x22025 0x10063
     let s : State := { s₀ with parts := [(1, { s₀.part 1 with migrate := some (4, 7) })] }
     (s.pullEntry 1 0x10).map (fun x => x.1) = some 0x26000 ∧ (s.part 1).migrate = some (4, 7) ∧ (0x10063 : DWord).toNat / 2 ^ 51 % 4 = 0 ∧
       s.readWordDev 0x26000 = 0x10063 ∧ (s.part 1).frames.contains ((0x10063 : DWord).toNat / 2 ^ 16 % 2 ^ 35 * 65536 / 65536) = true ∧ s.ord.accs = []) := by
  decide +kernel

/-- A cached frame's translation has nothing to do with the accesses under way. -/
theorem translate_cached {s : State} {o : Machine.Ordering} {part : Nat} {fa x : DWord} {who : Asker} (h : s.cached (.die 0) part none fa.toNat = some x) :
    ({ s with ord := o } : State).translate part fa who = s.translate part fa who := by
  have h' : ({ s with ord := o } : State).cached (.die 0) part none fa.toNat = some x := h
  simp only [State.translate, State.translateAt, State.frameEntry, h, h']
  rfl

/-- A collective of ALG 3 in progress, whose tile 0 another member reduces. -/
def collTile : Collective :=
  { coll1 with started := some 0, block := [0x1103200000000000, 4096 * 2 ^ 32 + 2 * 2 ^ 10 + 1, 0, 0, 0x8000000000008000, 0, 0, 0, 0, 0, 0, 64 * 2 ^ 32 + 64] ++ List.replicate 4 0 }

theorem tile_length (data : List Byte) : (bytesTo (4096 * fmtBytes (ckDt collTile.block)) data).length = 8192 := by
  have h : 4096 * fmtBytes (ckDt collTile.block) = 8192 := by decide +kernel
  simp only [bytesTo, List.length_map, List.length_range, h]
theorem tile_pieces : pieces (tileAt collTile.block 0).toNat 8192 (8192 / 65536 + 2) = [(0, 8192)] := by decide +kernel
theorem tile_place : gathered.translate 1 (tileAt collTile.block 0 + BitVec.ofNat 64 0) .plain = .ok ⟨0x18000, .rc, false, true⟩ := by decide +kernel
theorem tile_counter (st : Store) : (gathered.issueStore (.cmdProc 1) st).translate 1 (ckAddr collTile.block 8 + BitVec.ofNat 64 (4 * 0)) .owner =
      .ok ⟨0x10000, .rc, false, true⟩ := by
  obtain ⟨o, ho⟩ := State.issueStore_only_ord gathered (.cmdProc 1) st
  have hx : gathered.cached (.die 0) 1 none (ckAddr collTile.block 8 + BitVec.ofNat 64 (4 * 0)).toNat = some 0x10063 := by decide +kernel
  rw [ho, translate_cached hx]
  decide +kernel

theorem flatStores_one {s : State} {part : Nat} {fa : DWord} {bs : List Byte} {n : Nat} {pl : Place} (hn : bs.length = n)
    (hp : pieces fa.toNat n (n / 65536 + 2) = [(0, n)]) (ht : s.translate part (fa + BitVec.ofNat 64 0) .plain = .ok pl) :
    ∃ st, s.flatStores part [(fa, bs)] = .ok (s.issueStore (.cmdProc part) st) := by
  subst hn
  simp only [State.flatStores, List.flatMap_cons, List.flatMap_nil, hp, List.map_cons, List.map_nil, List.append_nil, List.foldr_cons, List.foldr_nil, ht]
  exact ⟨_, rfl⟩

theorem putTile_one {bs : List Byte} (h : ∃ st, gathered.flatStores 1 [(tileAt collTile.block 0, bs)] = .ok (gathered.issueStore (.cmdProc 1) st)) :
    ∃ t, gathered.putTile collTile 0 bs = .ok t := by
  obtain ⟨st, h⟩ := h
  have hc := tile_counter st
  unfold State.putTile
  rw [show collTile.part = 1 from rfl, h]
  dsimp only
  rw [hc]
  exact ⟨_, rfl⟩

/-- A tile of another member, which has arrived, can be put into DST. -/
theorem witness_CollectivesAndPulls_tile (data : List Byte) : ¬ (0 % ckSize collTile.block = ckRank collTile.block) ∧
    ∃ t, gathered.putTile collTile 0 (bytesTo (4096 * fmtBytes (ckDt collTile.block)) data) = .ok t :=
  ⟨by decide +kernel, putTile_one (flatStores_one (tile_length data) tile_pieces tile_place)⟩

/-- A group table that can be read or not, a record that can be written, and a budget that is over. -/
theorem witness_CollectivesAndPulls_more :
    (match gathered.readGroup 1 coll1.block coll1.ptr with
      | .ok g _ => g.length == 2
      | _ => false) = true ∧
    (match linked.readGroup 1 coll1.block coll1.ptr with
      | .fail _ _ _ _ => true
      | _ => false) = true ∧
    (∀ r ∈ [true, false], let c : Collective := { coll1 with trigs := some [[(0, 1, 0x10040)]], ready := r }
      ({ gathered with colls := [c] } : State).coll 4 = some c ∧ predicate [(0, 1, gathered.counter 0x10040)] = false) ∧
    (∀ a ∈ [0, 1, 2, 3], ckAlg ([BitVec.ofNat 64 (a * 2 ^ 48)] ++ List.replicate 11 0 ++ [1]) = a) ∧ ([3, 5] : List Nat).length = 2 ^ 1 ∧
    (let c : Collective := { coll1 with written := true, block := coll1.block.set 5 0x8000000000001000 }
     let w := c.block
     w.getD 5 0 ≠ 0 ∧ isFlat (w.getD 5 0) = true ∧ c.recorded = false ∧
       (match gathered.writeRecord c.part (ckAddr w 5) (recordWords 0 0 0 (BitVec.ofNat 32 (w.getD 0 0).toNat) 0 0 0 gathered.clock.tsc 0 0 0xFFF) with
         | .ok _ => true
         | _ => false) = true) ∧
    (let c : Collective := { coll1 with recorded := true, block := coll1.block.set 6 0x8000000000001080 }
     isFlat (c.block.getD 6 0) = true ∧ (gathered.signalFlag c.part (ckAddr c.block 6) 0).2 = true) ∧
    (let c : Collective := { coll1 with block := coll1.block.set 7 5 }
     (c.block.getD 7 0).toNat % 2 ^ 32 ≠ 0 ∧ c.since + 1000 * 5 ≤ ({ gathered with clock := ⟨8000, 10000, 0, 1000000⟩ } : State).clock.ns) := by
  decide +kernel

theorem witness_DeviceEvents :
    State.reset.mem.wf = true ∧ State.reset.device.dstate = .reset ∧ 115 ≤ 115 ∧
    live.device.dstate = .reduced ∧ CalUnit.patch 5 ∉ live.device.calibrated ∧ 5 ∉ live.device.fenced.patches ∧ (live.patch 5).load = none ∧
    (6 < 640 ∧ 6 ≠ 5 ∧ 6 ∉ live.device.fenced.patches) ∧ (live.patch 0).load ≠ none ∧ live.calibratedOrFenced (.patch 5) = false ∧
    live.calibratedOrFenced (.patch 0) = false ∧ live.calibratedOrFenced (.lane 3) = false ∧ (live.patch 5).fenced = false ∧
    ({ live with device := { live.device with calibrated := [.patch 5] } } : State).calibrated 5 = true ∧
    smFind ({ live.device with coolSince := [(7, 0)] } : Device).coolSince 7 = some 0 := by decide +kernel

theorem witness_DeviceEvents_selfTest :
    let r : SelfTest := ⟨[5], [], [], [], [], 2, 1, 5⟩
    (∀ p ∈ r.patches, p < 640) ∧ (∀ h ∈ r.hbm, h < 12) ∧ (∀ n ∈ r.ports ++ r.lanes, n < 16) ∧ (∀ n ∈ r.io, n < 5) ∧
      (r.fcode.toNat < 2 ∧ r.findex.toNat ∈ [[], r.patches, r.patches, r.hbm, r.ports, r.lanes, r.io].getD r.fclass.toNat []) ∧
      ¬ (r.io ≠ [] ∨ (∀ p < 640, p ∈ r.patches) ∨ (∀ h < 12, h ∈ r.hbm)) := by
  refine ⟨by decide, by decide, by decide, by decide, by decide, ?_⟩
  rintro (h | h | h)
  · exact h rfl
  · exact absurd (h 6 (by decide)) (by decide)
  · exact absurd (h 0 (by decide)) (by decide)

theorem witness_DeviceEvents_units :
    let d := (List.range 640).map CalUnit.patch ++ (List.range 12).map CalUnit.hbm ++ (List.range 16).map CalUnit.port ++
      (List.range 16).map CalUnit.lane
    ({ small with device := { small.device with calibrated := d } } : State).unitsDone = true := by
  simp only [State.unitsDone, Bool.and_eq_true, List.all_eq_true, List.mem_range, Bool.or_eq_true, List.contains_iff_mem, List.mem_append,
    List.mem_map]
  exact ⟨⟨fun p h => Or.inl (Or.inr (Or.inl (Or.inl (Or.inl ⟨p, h, rfl⟩)))), fun p h => Or.inr (Or.inl (Or.inl (Or.inr ⟨p, h, rfl⟩)))⟩,
    fun p h => ⟨Or.inr (Or.inl (Or.inr ⟨p, h, rfl⟩)), Or.inr (Or.inr ⟨p, h, rfl⟩)⟩⟩
/-! ### The spec's worked examples. The expected values are the spec's own. -/

/-- (1, 2, 0) and (2, 1, 0): their relation, join and meet (the example of R237). -/
theorem test_times : tCompare 0x0000000100020000 0x0000000200010000 = 3 ∧ tJoin 0x0000000100020000 0x0000000200010000 = 0x0000000200020000 ∧
    tMeet 0x0000000100020000 0x0000000200010000 = 0x0000000100010000 := by decide

/-- 460.0 to E4M3 is 448 under RNE and overflows to 0x7F under RUP; 500.0 overflows to 0x7F under RNE and to 0x7E under SATF. -/
theorem test_convert_e4m3 : convertTo 4 .rne (fp32.decode 0x43E60000) = 0x7E ∧ convertTo 4 .rup (fp32.decode 0x43E60000) = 0x7F ∧
    convertTo 4 .rne (fp32.decode 0x43FA0000) = 0x7F ∧ convertTo 4 .satf (fp32.decode 0x43FA0000) = 0x7E := by decide +kernel

/-- Tensor 0x31: coordinates (130, 70) are in tile 7 at offset 772 (the example of R346). -/
theorem test_tensor_locate : (⟨2, 0, 2, 6, 6, [300, 200, 1, 1], 0⟩ : Tensor).locate [130, 70, 0, 0] = (7, 772) := by decide

/-- The record with key 5, val 7, time (2, 1, 0) and diff 2 (the example of R249). -/
theorem test_record : (List.range 8).map (lane ((⟨5, 7, 0x0000000200010000, 2⟩ : ARec).unit 0 0)) = [5, 0, 7, 0, 0x10000, 2, 2, 0x1000] := by decide +kernel

/-- Keys 5, -1, 5, 0, 7, 3 and -1 in ascending and in descending order (the example of R196). -/
theorem test_sort :
    let ks := ([5, -1, 5, 0, 7, 3, -1] : List Int).map (BitVec.ofInt 32)
    (sortBy (fun x y => keyLt 8 false x.1 y.1) (ks.zip (List.range 7))).map (fun x => x.2) = [1, 6, 3, 5, 0, 2, 4] ∧
    (sortBy (fun x y => keyLt 8 false y.1 x.1) (ks.zip (List.range 7))).map (fun x => x.2) = [4, 0, 2, 5, 3, 1, 6] := by decide +kernel

/-- MOVHI s4, 3 sets s4 to 0x60000 (R160). -/
theorem test_movhi : (match execMovhi 4 3 small with
    | .next t => ((t.elem 0 0).inst 0).map (fun i => i.r.s.getD 4 0)
    | _ => none) = some 0x60000 := by decide +kernel

/-- PACK.i6 of 1, 2, 3, 4, 5, -1, 40, -40, 0 and 31 (the example of R168). -/
theorem test_pack :
    let w1 : Slot := BitVec.ofNat 256 (0x1F00D828FF0504030201)
    let s := (turnOf small { inst1 with r := { inst1.r with w := [0, w1] ++ List.replicate 14 0 } }).s
    (match execPack 5 1 2 1 2 0 0 s with
      | .next t => ((t.elem 0 0).inst 0).map (fun i => (lane (i.r.w.getD 5 0) 0, lane (i.r.w.getD 5 0) 1))
      | _ => none) = some (0x05103081, 0x1F0207FF) := by decide +kernel

/-- Queues 12 and 40 at one level, with weights 3 and 1, start in the order 12, 40, 12, 12, 12, 40 (the example of R374). -/
def rounds : State :=
  { offering (head1 none [0x1000000100000007, 0x100]) with queues := [(12, 3), (40, 1)].map (fun (x : Nat × Nat) =>
      (x.1, { Queue.reset with part := 1, pri := 5, weight := x.2, st := .wait, head := some (head1 none [0x1000000100000007, 0x100]) })) }

def starts : Nat → State → List Nat
  | 0, _ => []
  | n + 1, s => match s.freshRounds.pick with
    | some q => q :: starts n (s.freshRounds.charge q)
    | none => []

theorem test_round : starts 6 rounds = [12, 40, 12, 12, 12, 40] := by decide +kernel


/-- The block of 3.0, -0.75, 0.3, 1.25, -3.9 and zeros, in 4 bits (the example of R62). -/
theorem test_block : (let b := toBlock 11 .rne (([0x40400000, 0xBF400000, 0x3E99999A, 0x3FA00000, 0xC079999A] : List Nat).map fp32.decode ++ List.replicate 27 (fp32.decode 0))
    (b.1, b.2.take 5)) = (0x81, [6, -2, 1, 2, -8]) := by decide +kernel

/-- SHA-256 of "abc" (FIPS 180-4). -/
theorem test_sha256 : sha256 [0x61, 0x62, 0x63] = beBytes 32 0xBA7816BF8F01CFEA414140DE5DAE2223B00361A396177A9CB410FF61F20015AD := by decide +kernel

/-- Twice the base point of P-256, and three times it (the published multiples of the base point). -/
theorem test_points :
    addPoint (some p256g) (some p256g) = some (0x7CF27B188D034F7E8A52380304B51AC3C08969E277F21B35A60B48FC47669978,
      0x07775510DB8ED040293D9AC69F7430DBBA7DADE63CE982299E04B79D227873D1) ∧
    mulPoint (some p256g) 3 2 = some (0x5ECBE4D1A6330A44C8F7EF951D4BF165E6C6B721EFADA985FB41661BC6E7FD6C,
      0x8734640C4998FF7E374B06CE1A64A2ECD82AB036384FB83D9A79B127A27D5032) := by decide +kernel

/-- TRAP of g2 with cause 0x0C at 0x0064: the values that R371 gives the trap registers. -/
theorem test_trap : (match execTrap 2 0 0x0C (withSeq { seqOf [0, 0, 0x00300040] with pc := 0x0064 }) with
    | .next t => let q := t.seq 0
      (q.xcause, q.xval, q.xvalh, q.xinfo, q.xpc, q.pc, q.xt)
    | _ => (0, 0, 0, 0, 0, 0, false)) = (0x0000000C, 0x00300040, 0, 0, 0x0068, 0, true) := by decide

/-- The record of a command that moved 8,192 bytes (R371). -/
theorem test_record_done : (({ (default : Engine) with done := 8192 } : Engine).record 1850).take 16 = leBytes 8 0x0000200000000000 ++ leBytes 8 0 := by
  decide +kernel

/-- Two 64 by 64 tiles that are 2.0 at (i, i) for i < 32 and zero elsewhere: a row of the first 32 skips 4,095 of its triples, a later one all,
262,112 in all (R371). -/
theorem test_zskip :
    let row := fun (i : Nat) => (List.range 64).map (fun j => if i = j ∧ i < 32 then fp32.decode 0x40000000 else fp32.decode 0)
    let cols := (List.range 64).map row
    skipCount [row 5] cols = 4095 ∧ skipCount [row 40] cols = 4096 ∧ 32 * 4095 + 32 * 4096 = 262112 := by decide +kernel

/-- 4.0 and 1.5 give 5.5 (R371). -/
theorem test_fadd : fp32.op .add .rne 0x40800000 0x3FC00000 0 = 0x40B00000 := by decide +kernel

/-- A word whose operands are there issues while an earlier one waits (R31): s5 takes s1 + s2, and the instance still stands at the LDF. -/
theorem test_ahead : (match step { passing with agenda := [⟨1, .ahead 0 0 0 1⟩] } with
    | .next t => ((t.elem 0 0).inst 0).map (fun i => (i.pc, i.ahead, i.r.s.getD 5 0))
    | _ => none) = some (0, [1], 0x102) := by decide +kernel

end Sys2Proof.Tests
end

section
/-! SUPPORT. The canonical form of backing memory (R19, R307): the forms in which each function of the model says that it keeps it.
`f_mem` says that `f` leaves memory alone, `f_wf` that it keeps the canonical form, `f_sound` and `f_keeps` that what it comes to and the
part of a word that it is do so, and `f_goes` that the step that it is goes on and keeps it. -/

namespace Sys2Proof.Machine

/-- What a word in the middle of its work leaves: a machine whose memory is canonical, where it leaves one. -/
def W.After {α : Type} : Except Stop (α × Wk) → Prop
  | .ok (_, k) => k.s.mem.wf = true
  | .error (.keep t) => t.mem.wf = true
  | .error _ => True

/-- A part of a word that keeps the canonical form of memory. -/
structure W.Keeps {α : Type} (f : W α) : Prop where
  after : ∀ k : Wk, k.s.mem.wf = true → W.After (f k)

/-- A step that goes on, and keeps the canonical form of memory. -/
def Goes (s : State) : Res → Prop
  | .next t => s.mem.wf = true → t.mem.wf = true
  | _ => False

/-! What an attempt of some kind comes to: where it leaves a machine, memory is canonical there. -/

def Via.Sound : Via → Prop
  | .wait t _ | .got _ t | .fault _ _ t => t.mem.wf = true

def Perf.Sound : Perf → Prop
  | .ok t _ => t.mem.wf = true
  | .wait | .fault _ _ _ => True

def Accept.Sound : Accept → Prop
  | .asked t | .ok t => t.mem.wf = true
  | .wait | .fault _ _ _ => True

def Step1.Sound : Step1 → Prop
  | .wait t | .waitFe t | .sent t | .asked t | .ok t _ => t.mem.wf = true
  | .fault _ _ _ _ | .perm _ _ _ => True

def Bulk.Sound : Bulk → Prop
  | .ok _ t | .wait t | .fault _ _ _ t => t.mem.wf = true

def CfgRun.Sound : CfgRun → Prop
  | .ok _ _ t | .bad _ t | .wait t | .fault _ _ _ t => t.mem.wf = true

def Chk.Sound {α : Type} : Chk α → Prop
  | .ok _ t | .wait t | .fail _ _ _ t => t.mem.wf = true

def Rec.Sound : Rec → Prop
  | .ok t => t.mem.wf = true
  | .wait | .no => True

def Puts.Sound : Puts → Prop
  | .ok t => t.mem.wf = true
  | .wait | .fault _ _ _ => True

/-! ### One effect after another -/

theorem foldl_mem {β : Type} {f : State → β → State} (h : ∀ s x, (f s x).mem = s.mem) (l : List β) :
    ∀ s : State, (l.foldl f s).mem = s.mem := by
  induction l with
  | nil => exact fun _ => rfl
  | cons x r ih => exact fun s => (ih _).trans (h s x)

theorem foldl_wf {β : Type} {f : State → β → State} (h : ∀ s x, s.mem.wf = true → (f s x).mem.wf = true) (l : List β) :
    ∀ s : State, s.mem.wf = true → (l.foldl f s).mem.wf = true := by
  induction l with
  | nil => exact fun _ => id
  | cons x r ih => exact fun s hs => ih _ (h s x hs)

/-- What an attempt that may come to nothing leaves: its own state, or the one before it. -/
theorem getD_wf {o : Option State} {s : State} (h : s.mem.wf = true) (ho : ∀ t, o = some t → t.mem.wf = true) :
    (o.getD s).mem.wf = true := by
  cases o with
  | none => exact h
  | some t => exact ho t rfl

/-! ### Parts of a word -/

section
variable {α β : Type}

theorem W.Keeps.bind {f : W α} {g : α → W β} (hf : f.Keeps) (hg : ∀ a, (g a).Keeps) : (f >>= g).Keeps := by
  refine ⟨fun k hk => ?_⟩
  have h := hf.after k hk
  match hfk : f k with
  | .ok (a, k') =>
    rw [W.bind_of_ok hfk]
    rw [hfk] at h
    exact (hg a).after k' h
  | .error e =>
    rw [W.bind_of_error hfk]
    rw [hfk] at h
    cases e <;> exact h

/-- A check that may stop the word, and what follows where it does not. -/
theorem W.Keeps.check {c : Prop} [Decidable c] {f : W α} {g : W β} (hf : f.Keeps) (hg : g.Keeps) :
    (if c then f >>= fun _ => g else g).Keeps := by
  split
  · exact hf.bind fun _ => hg
  · exact hg

theorem W.Keeps.ite {c : Prop} [Decidable c] {f g : W α} (hf : f.Keeps) (hg : g.Keeps) : (if c then f else g).Keeps := by
  split
  · exact hf
  · exact hg

theorem W.Keeps.pure (x : α) : (Pure.pure x : W α).Keeps := ⟨fun _ h => h⟩
theorem W.Keeps.get : (MonadState.get : W Wk).Keeps := ⟨fun _ h => h⟩
theorem W.Keeps.upd (f : Inst → Inst) : (W.upd f).Keeps := ⟨fun _ h => h⟩
theorem W.Keeps.hold : (throw .hold : W α).Keeps := ⟨fun _ _ => trivial⟩
theorem W.Keeps.wait (c : Option (List Nat)) : (throw (.wait c) : W α).Keeps := ⟨fun _ _ => trivial⟩
theorem W.Keeps.pull : (throw .pull : W α).Keeps := ⟨fun _ _ => trivial⟩
theorem W.Keeps.perm (sub : Nat) (p : DWord) : (throw (.perm sub p) : W α).Keeps := ⟨fun _ _ => trivial⟩

theorem W.Keeps.modified {f : Wk → Wk} (h : ∀ k, k.s.mem.wf = true → (f k).s.mem.wf = true) : (modify f : W PUnit).Keeps :=
  ⟨h⟩

theorem W.Keeps.mapM {γ : Type} {f : γ → W α} (h : ∀ x, (f x).Keeps) (l : List γ) : (l.mapM f).Keeps := by
  induction l with
  | nil => exact W.Keeps.pure []
  | cons x r ih =>
    rw [List.mapM_cons]
    exact (h x).bind fun _ => ih.bind fun _ => W.Keeps.pure _

theorem W.Keeps.foldlM {γ : Type} {f : α → γ → W α} (h : ∀ x y, (f x y).Keeps) (l : List γ) :
    ∀ x : α, (l.foldlM f x).Keeps := by
  induction l with
  | nil => exact fun x => W.Keeps.pure x
  | cons y r ih =>
    intro x
    rw [List.foldlM_cons]
    exact (h x y).bind ih

/-- A part that is run for each of a list, for its effects alone. -/
theorem W.Keeps.forIn {γ : Type} {f : γ → PUnit → W (ForInStep PUnit)} (h : ∀ x u, (f x u).Keeps) (l : List γ) (u : PUnit) :
    (ForIn.forIn l u f : W PUnit).Keeps := by
  induction l generalizing u with
  | nil => exact W.Keeps.pure u
  | cons x r ih =>
    rw [List.forIn_cons]
    refine (h x u).bind fun y => ?_
    cases y with
    | done b => exact W.Keeps.pure b
    | yield b => exact ih b

/-- Reading the machine and going on with it, which may rest on what it holds. -/
theorem W.Keeps.getWith {g : Wk → W α} (h : ∀ k, k.s.mem.wf = true → (g k).Keeps) : (MonadState.get >>= g : W α).Keeps :=
  ⟨fun k hk => (h k hk).after k hk⟩

/-- Writing a machine whose memory is canonical. -/
theorem W.Keeps.put {k : Wk} (h : k.s.mem.wf = true) : (set k : W PUnit).Keeps := ⟨fun _ _ => h⟩

theorem W.Keeps.keep {t : State} (h : t.mem.wf = true) : (throw (.keep t) : W α).Keeps := ⟨fun _ _ => h⟩

end
end Sys2Proof.Machine
end

section
/-! SUPPORT. Base operations, ordering, banks, links and page walks leave backing memory alone or keep its canonical form. -/

namespace Sys2Proof.Machine

@[simp] theorem State.modElem_mem (s : State) (p e : Nat) (f : Elem → Elem) : (s.modElem p e f).mem = s.mem := by
  grind [State.modElem, setElem_mem]

@[simp] theorem State.setLoad_mem (s : State) (l : Load) : (s.setLoad l).mem = s.mem := by
  grind [State.setLoad]

@[simp] theorem State.modLoad_mem (s : State) (q : Nat) (f : Load → Load) : (s.modLoad q f).mem = s.mem := by
  grind [State.modLoad]

@[simp] theorem State.dropLoads_mem (s : State) : s.dropLoads.mem = s.mem := by
  grind [State.dropLoads]

@[simp] theorem State.freezePatches_mem (s : State) (l : Load) : (s.freezePatches l).mem = s.mem :=
  foldl_mem (fun s p => setPatch_mem s p _) l.patches s

@[simp] theorem State.freezeLoad_mem (s : State) (p sub : Nat) (info cau : Word) (val : DWord) :
    (s.freezeLoad p sub info cau val).mem = s.mem := by
  grind [State.freezeLoad, setPatch_mem, State.modLoad_mem, State.freezePatches_mem]

@[simp] theorem State.seqFault_mem (s : State) (p : Nat) (a : Half) (cause : Cause) (sub : Nat) (val : DWord) :
    (s.seqFault p a cause sub val).mem = s.mem := by
  grind [State.seqFault, setPatch_mem, setSeq_mem, State.freezeLoad_mem]

@[simp] theorem State.seqOut_mem (s : State) (p : Nat) (a : Half) (x : SeqOut) : (s.seqOut p a x).mem = s.mem := by
  cases x with
  | jump q t => simp only [State.seqOut]; split <;> [skip; split] <;> simp
  | _ => simp [State.seqOut]

@[simp] theorem runSeq_mem (f : Half → Seq → SeqOut) (s : State) : (runSeq f s).mem = s.mem := by
  grind [runSeq, State.seqOut_mem]

@[simp] theorem State.issueWords_mem (grp : Nat) (agent : AgentId) (l : List Store) :
    ∀ s : State, (s.issueWords grp agent l).mem = s.mem := by
  induction l with
  | nil => exact fun _ => rfl
  | cons st r ih => exact fun s => ih _

@[simp] theorem State.issueStore_mem (s : State) (agent : AgentId) (st : Store) : (s.issueStore agent st).mem = s.mem := by
  grind [State.issueStore, State.issueWords_mem]

@[simp] theorem State.issueStores_mem (agent : AgentId) (l : List Store) :
    ∀ s : State, (s.issueStores agent l).mem = s.mem := by
  induction l with
  | nil => exact fun _ => rfl
  | cons st r ih => exact fun s => (ih _).trans (s.issueStore_mem agent st)

@[simp] theorem State.removeSlots_mem (s : State) (p e : Nat) (i : Inst) : (s.removeSlots p e i).mem = s.mem := by
  grind [State.removeSlots, setElem_mem, State.issueStores_mem]

@[simp] theorem State.disposeDiscard_mem (s : State) (p e n : Nat) : (s.disposeDiscard p e n).mem = s.mem := by
  grind [State.disposeDiscard, setElem_mem, State.removeSlots_mem]

@[simp] theorem State.clearNamed_mem (s : State) (p : Nat) : (s.clearNamed p).mem = s.mem := by
  grind [State.clearNamed, setPatch_mem]

@[simp] theorem State.enter_mem (s : State) (w : VisId) (e : VisEntry) : (s.enter w e).mem = s.mem := by
  grind [State.enter]

theorem State.settleEntry_wf {s : State} (h : s.mem.wf = true) (e : VisEntry) : (s.settleEntry e).mem.wf = true :=
  Memory.wf_marks _ _ (Memory.wf_puts _ _ h)

@[simp] theorem State.dropAccess_mem (s : State) (a : AgentId) (n : Nat) : (s.dropAccess a n).mem = s.mem := by
  grind [State.dropAccess]

theorem State.placeStore_wf {s : State} (h : s.mem.wf = true) (x : Access) (st : Store) :
    (s.placeStore x st).mem.wf = true := by
  grind [State.placeStore, State.enter_mem, State.settleEntry_wf, State.dropAccess_mem]

@[simp] theorem State.noteReads_mem (ag : AgentId) (l : List (Nat × Nat)) : ∀ s : State, (s.noteReads ag l).mem = s.mem := by
  induction l with
  | nil => exact fun _ => rfl
  | cons x r ih => exact fun s => ih _

theorem State.readWith_mem {s : State} {x : Access} {got : List (Nat × List Byte)} {a n : Nat} {y : List Byte} {t' : State}
    (e : s.readWith x got a n = some (y, t')) :
    t'.mem = s.mem := by
  grind [State.readWith, setElem_mem, State.noteReads_mem]

theorem State.ownTest_mem {s : State} {p e : Nat} {i : Inst} {sc : Scope} {place : Place} {words : List Nat} {t' : State}
    (e : s.ownTest p e i sc place words = some t') :
    t'.mem = s.mem := by
  grind [State.ownTest, setElem_mem]

theorem State.readNow_mem {s : State} {ag : AgentId} {sc : Scope} {place : Place} {n : Nat} {y : List Byte} {t' : State}
    (e : s.readNow ag sc place n = some (y, t')) :
    t'.mem = s.mem := by
  grind [State.readNow, → State.readWith_mem]

theorem State.readOperand_mem {s : State} {p e : Nat} {i : Inst} {place : Place} {n : Nat} {y : List Byte} {t' : State}
    (e : s.readOperand p e i place n = some (y, t')) :
    t'.mem = s.mem := by
  grind [State.readOperand, → State.readWith_mem]

theorem State.ownFlush_wf {s : State} (h : s.mem.wf = true) (a n : Nat) : (s.ownFlush a n).mem.wf = true :=
  Memory.wf_marks _ _ (Memory.wf_puts _ _ h)

theorem State.ownWrite_wf {s : State} (h : s.mem.wf = true) (a : Nat) (bs : List Byte) : (s.ownWrite a bs).mem.wf = true :=
  Memory.wf_write _ _ _ h

theorem State.ownMark_wf {s : State} (h : s.mem.wf = true) (words : List Nat) (full : Bool) :
    (s.ownMark words full).mem.wf = true :=
  Memory.wf_marks _ _ h

theorem State.atomic_wf {s : State} (h : s.mem.wf = true) (k : AtomKind) (wide : Bool) (a : Nat) (x y : DWord) :
    (s.atomic k wide a x y).2.mem.wf = true := by
  grind [State.atomic, State.ownFlush_wf, State.ownWrite_wf]

@[simp] theorem State.present_mem (s : State) (ag : AgentId) (n : Nat) (sides : List Bool) (words : List Nat) :
    (s.present ag n sides words).1.mem = s.mem := by
  grind [State.present, setElem_mem]

@[simp] theorem State.presentWords_mem (s : State) (ag : AgentId) (id : Nat → Nat) (sides : List Bool) (words : List Nat) :
    (s.presentWords ag id sides words).1.mem = s.mem := by
  have go (l : List (Nat × Nat)) : ∀ x : State × Bool, (l.foldl (fun x w =>
      let y := x.1.present ag (id w.2) sides [w.1]
      (y.1, x.2 && y.2)) x).1.mem = x.1.mem := by
    induction l with
    | nil => exact fun _ => rfl
    | cons w r ih => exact fun x => (ih _).trans (x.1.present_mem ..)
  exact go _ (s, true)

@[simp] theorem State.unpresent_mem (s : State) (ag : AgentId) (n w : Nat) : (s.unpresent ag n w).mem = s.mem := by
  grind [State.unpresent, State.modElem_mem]

@[simp] theorem State.takeCustody_mem (s : State) (k : Packet) (inp out : Nat) : (s.takeCustody k inp out).mem = s.mem := by
  grind [State.takeCustody]

theorem State.post_mem {s : State} {k : Packet} {t' : State} (e : s.post k = some t') : t'.mem = s.mem := by
  obtain ⟨r, -, rfl⟩ := Option.map_eq_some_iff.mp e
  rfl

@[simp] theorem State.dropAsk_mem (s : State) (tag : Half) : (s.dropAsk tag).mem = s.mem := by
  grind [State.dropAsk]

theorem State.request_mem {s : State} {a : Asked} {k : Packet} {t' : State} (e : s.request a k = some t') : t'.mem = s.mem := by
  obtain ⟨u, hu, rfl⟩ := Option.map_eq_some_iff.mp e
  exact (State.post_mem hu :)

@[simp] theorem State.dropAnswers_mem (s : State) (ag : AgentId) : (s.dropAnswers ag).mem = s.mem := by
  grind [State.dropAnswers]

theorem State.via_sound {s : State} (h : s.mem.wf = true) (ag : AgentId) (acc : Option Nat) (pl : Place) (len : Nat)
    (write : Bool) (fa : DWord) (k : Packet) :
    (s.via ag acc pl len write fa k).Sound := by
  grind [State.via, Via.Sound, State.dropAsk_mem, → State.request_mem]

theorem State.readVia_sound {s : State} (h : s.mem.wf = true) (ag : AgentId) (sc : Scope) (pl : Place) (n : Nat) (fa : DWord) :
    (s.readVia ag sc pl n fa).Sound := by
  grind [State.readVia, Via.Sound, → State.readNow_mem, State.via_sound, Memory.wf_write]

@[simp] theorem State.keepAnswers_mem (u s t : State) : (u.keepAnswers s t).mem = u.mem := by
  grind [State.keepAnswers]

theorem State.readAll_sound (ag : AgentId) (sc : Scope) (fa : DWord) (l : List (Place × Nat)) :
    ∀ {s : State}, s.mem.wf = true → (s.readAll ag sc fa l).Sound := by
  induction l with
  | nil => exact id
  | cons x r ih =>
    intro s h
    unfold State.readAll
    grind [Via.Sound, State.keepAnswers_mem, State.readVia_sound]

theorem State.atomVia_sound {s : State} (h : s.mem.wf = true) (ag : AgentId) (acc : Option Nat) (k : AtomKind) (wide : Bool)
    (pl : Place) (x y : DWord) (sc : Scope) (acq rel : Bool) (fa : DWord) :
    (s.atomVia ag acc k wide pl x y sc acq rel fa).Sound := by
  grind [State.atomVia, Via.Sound, State.atomic_wf, State.via_sound]

@[simp] theorem State.walkEnds_mem (s : State) (part : Nat) (walks : List Walk) : (s.walkEnds part walks).mem = s.mem := by
  grind [State.walkEnds]

theorem execWalk_goes (part : Nat) (tensor : Bool) (a : DWord) (s : State) : Goes s (execWalk part tensor a s) := by
  grind [execWalk, Goes, Via.Sound, State.via_sound, State.walkEnds_mem]

theorem execTableMigrate_goes (part : Nat) (a : DWord) (s : State) : Goes s (execTableMigrate part a s) := by
  grind [execTableMigrate, Goes]

end Sys2Proof.Machine
end

section
/-! SUPPORT. Sequencer words and streams keep the canonical form of memory. -/

namespace Sys2Proof.Machine

theorem aluWord_goes (op : IntOp) (d a b : BitVec 5) (s : State) : Goes s (aluWord op d a b s) := by
  grind [aluWord, Goes, runSeq_mem]

theorem immWord_goes (op : IntOp) (d a : BitVec 5) (i : Word) (s : State) : Goes s (immWord op d a i s) := by
  grind [immWord, Goes, runSeq_mem]

theorem execLui_goes (d : BitVec 5) (i : BitVec 16) (s : State) : Goes s (execLui d i s) := by
  grind [execLui, Goes, runSeq_mem]

theorem execKcmp_goes (k : BitVec 2) (a b : BitVec 5) (c : BitVec 3) (s : State) : Goes s (execKcmp k a b c s) := by
  grind [execKcmp, Goes, runSeq_mem]

theorem branchWord_goes (o : BitVec 16) (p : Seq → Bool) (s : State) : Goes s (branchWord o p s) := by
  grind [branchWord, Goes, runSeq_mem]

theorem execJ_goes (o : BitVec 26) (s : State) : Goes s (execJ o s) := by
  grind [execJ, Goes, runSeq_mem]

theorem execJal_goes (o : BitVec 26) (s : State) : Goes s (execJal o s) := by
  grind [execJal, Goes, runSeq_mem]

theorem execJalr_goes (d a : BitVec 5) (i : BitVec 16) (s : State) : Goes s (execJalr d a i s) := by
  grind [execJalr, Goes, runSeq_mem]

theorem execLoop_goes (l : BitVec 2) (c : BitVec 11) (n : BitVec 8) (s : State) : Goes s (execLoop l c n s) := by
  grind [execLoop, Goes, runSeq_mem]

theorem execLoopr_goes (l : BitVec 2) (g : BitVec 5) (n : BitVec 8) (s : State) : Goes s (execLoopr l g n s) := by
  grind [execLoopr, Goes, runSeq_mem]

theorem execLbrk_goes (l : BitVec 2) (s : State) : Goes s (execLbrk l s) := by
  grind [execLbrk, Goes, runSeq_mem]

theorem storeLoad_goes (d a : BitVec 5) (i : BitVec 16) (size : Nat) (sg : Bool) (s : State) :
    Goes s (storeLoad d a i size sg s) := by
  grind [storeLoad, Goes, runSeq_mem]

theorem storeStore_goes (d a : BitVec 5) (i : BitVec 16) (size : Nat) (s : State) : Goes s (storeStore d a i size s) := by
  grind [storeStore, Goes, runSeq_mem]

theorem execCsrr_goes (d : BitVec 5) (c : BitVec 12) (s : State) : Goes s (execCsrr d c s) := by
  grind [execCsrr, Goes, runSeq_mem]

theorem execWfe_goes (s : State) : Goes s (execWfe s) := by
  grind [execWfe, Goes, setSeq_mem]

theorem execWfeWake_goes (p : Nat) (s : State) : Goes s (execWfeWake p s) := by
  grind [execWfeWake, Goes, setSeq_mem]

theorem execWfeTimeout_goes (p : Nat) (s : State) : Goes s (execWfeTimeout p s) := by
  grind [execWfeTimeout, Goes, setSeq_mem]

theorem execFreeze_goes (s : State) : Goes s (execFreeze s) := by
  grind [execFreeze, Goes, setSeq_mem, State.freezeLoad_mem]

theorem execTscr_goes (d : BitVec 5) (s : State) : Goes s (execTscr d s) := by
  grind [execTscr, Goes, runSeq_mem]

theorem execRdtag_goes (d : BitVec 5) (s : State) : Goes s (execRdtag d s) := by
  grind [execRdtag, Goes, runSeq_mem]

theorem execTrap_goes (a : BitVec 5) (sub c : BitVec 8) (s : State) : Goes s (execTrap a sub c s) := by
  grind [execTrap, Goes, setPatch_mem, setSeq_mem, State.freezeLoad_mem, State.seqFault_mem]

theorem execReservedControlWord_goes (w : Word) (s : State) : Goes s (execReservedControlWord w s) := by
  grind [execReservedControlWord, Goes, State.seqFault_mem]

theorem execElementFaultDelivery_goes (p : Nat) (s : State) : Goes s (execElementFaultDelivery p s) := by
  grind [execElementFaultDelivery, Goes, setPatch_mem, State.modLoad_mem]

@[simp] theorem State.flatFault_mem (s : State) (p : Nat) (a : Half) (c : Cause) (sub : Nat) (val : DWord) :
    (s.flatFault p a c sub val).mem = s.mem := by
  grind [State.flatFault, setSeq_mem, State.seqFault_mem]

theorem flatWord_wf {fa : DWord} {size : Nat} {who : Asker} {f : Place → Option State} {s : State} (h : s.mem.wf = true)
    (hf : ∀ pl t, f pl = some t → t.mem.wf = true) : (flatWord fa size who f s).mem.wf = true := by
  simp only [flatWord]
  split
  · simp [h]
  · split
    · simp [h]
    · simp [h]
    · next pl _ =>
      cases hp : f pl with
      | none => exact h
      | some t => exact hf pl t hp

theorem State.onVia_wf {s t : State} {v : Via} {fa : DWord} {f : List Byte → State → State} (hv : v.Sound)
    (hf : ∀ bs u, u.mem.wf = true → (f bs u).mem.wf = true) (e : s.onVia v fa f = some t) : t.mem.wf = true := by
  cases v with
  | wait u b => cases e; exact hv
  | got bs u => cases e; exact hf bs u hv
  | fault c sub u => cases e; rw [State.flatFault_mem]; exact hv

@[simp] theorem State.complete_mem (s : State) (g : Seq → Seq) : (s.complete g).mem = s.mem := by
  grind [State.complete, State.seqOut_mem]

theorem execLdm_goes (d a : BitVec 5) (_o z : BitVec 2) (sg : BitVec 1) (c : BitVec 3) (s : State) :
    Goes s (execLdm d a _o z sg c s) := by
  grind [execLdm, Goes, State.readVia_sound, flatWord_wf, → State.onVia_wf, State.complete_mem]

theorem execStm_goes (d a : BitVec 5) (o z : BitVec 2) (c : BitVec 3) (s : State) : Goes s (execStm d a o z c s) := by
  grind [execStm, Goes, issue_mem, flatWord_wf, State.complete_mem]

theorem amomWord_goes (k : AtomKind) (d a : BitVec 5) (w : BitVec 1) (o : BitVec 2) (c : BitVec 3) (s : State) :
    Goes s (amomWord k d a w o c s) := by
  grind [amomWord, Goes, State.atomVia_sound, flatWord_wf, → State.onVia_wf, State.complete_mem]

theorem execSignal_goes (a b : BitVec 5) (sc : BitVec 3) (s : State) : Goes s (execSignal a b sc s) := by
  grind [execSignal, Goes, issue_mem, flatWord_wf, State.complete_mem]

theorem execSeqFence_goes (sc : BitVec 3) (s : State) : Goes s (execSeqFence sc s) := by
  grind [execSeqFence, Goes, setSeq_mem, State.complete_mem]

theorem execLaunch_goes (d a b : BitVec 5) (s : State) : Goes s (execLaunch d a b s) := by
  intro h
  refine flatWord_wf h fun pl t e => ?_
  grind [setQueue_mem, State.issueStore_mem, State.readVia_sound, State.flatFault_mem, → State.onVia_wf, State.complete_mem]

theorem execSbind_goes (a : BitVec 5) (k : BitVec 4) (s : State) : Goes s (execSbind a k s) := by
  grind [execSbind, Goes, setPatch_mem, State.seqFault_mem, State.readVia_sound, flatWord_wf, → State.onVia_wf,
      State.complete_mem]

theorem execSgo_goes (k : BitVec 4) (s : State) : Goes s (execSgo k s) := by
  grind [execSgo, Goes, setPatch_mem, State.seqOut_mem, State.complete_mem]

theorem execSwaitp_goes (k : BitVec 4) (s : State) : Goes s (execSwaitp k s) := by
  grind [execSwaitp, Goes, State.complete_mem]

theorem execSbar_goes (s : State) : Goes s (execSbar s) := by
  grind [execSbar, Goes, setPatch_mem, State.complete_mem]

@[simp] theorem State.freezePort_mem (s : State) (p k : Nat) (sub : Nat) (fa : DWord) :
    (s.freezePort p k sub fa).mem = s.mem := by
  grind [State.freezePort, setPort_mem]

@[simp] theorem State.portEmit_mem (s : State) (p k : Nat) (d : Stream) (pt : Port) (u : Slot) :
    (s.portEmit p k d pt u).mem = s.mem := by
  grind [State.portEmit, setElem_mem, setPort_mem]

@[simp] theorem State.endStream_mem (s : State) (p k n : Nat) (c : Cause) (sub : Nat) (fa : DWord) :
    (s.endStream p k n c sub fa).mem = s.mem := by
  grind [State.endStream, setPatch_mem]

@[simp] theorem State.takeSlot_mem (s : State) (p : Nat) (d : Stream) : (s.takeSlot p d).mem = s.mem := by
  grind [State.takeSlot, setElem_mem]

theorem State.portMiss_wf {s : State} (h : s.mem.wf = true) (p k n : Nat) (d : Stream) (pt : Port) (c : Cause) (sub : Nat)
    (fa : DWord) (u : Option Slot) (buf : Bool) :
    (s.portMiss p k n d pt c sub fa u buf).mem.wf = true := by
  grind [State.portMiss, setPort_mem, State.freezePort_mem, State.portEmit_mem, State.endStream_mem, State.takeSlot_mem]

theorem State.portAccess_wf {s : State} (h : s.mem.wf = true) {t' : State} {p k n : Nat} {d : Stream} {pt : Port}
    {t : Tr (List (Place × Nat)) × DWord} {u : Option Slot} {buf : Bool} (e : s.portAccess p k n d pt t u buf = some t') :
    t'.mem.wf = true := by
  grind [State.portAccess, Via.Sound, setPort_mem, State.issueStores_mem, State.readAll_sound, State.portEmit_mem,
      State.takeSlot_mem, State.portMiss_wf]

theorem State.bubbleOut_wf {s : State} (h : s.mem.wf = true) (p k : Nat) (d : Stream) (pt : Port) (m : Missed) :
    (s.bubbleOut p k d pt m).mem.wf = true := by
  grind [State.bubbleOut, State.portEmit_mem]

theorem execStreamStep_goes (p k : Nat) (s : State) : Goes s (execStreamStep p k s) := by
  grind [execStreamStep, Goes, setPatch_mem, getD_wf, → State.portAccess_wf, State.bubbleOut_wf]

theorem execReleaseStep_goes (p k : Nat) (s : State) : Goes s (execReleaseStep p k s) := by
  grind [execReleaseStep, Goes, getD_wf, → State.portAccess_wf]

theorem execRepairStep_goes (p k : Nat) (s : State) : Goes s (execRepairStep p k s) := by
  grind [execRepairStep, Goes, Via.Sound, setPort_mem, State.readAll_sound, State.freezePort_mem, State.portEmit_mem,
      State.endStream_mem]

@[simp] theorem State.thawPort_mem (s : State) (p k : Nat) : (s.thawPort p k).2.mem = s.mem := by
  grind [State.thawPort, setPort_mem]

theorem State.bublPort_wf {s : State} (h : s.mem.wf = true) (p k mode : Nat) : (s.bublPort p k mode).2.mem.wf = true := by
  grind [State.bublPort, setPort_mem, State.bubbleOut_wf]

theorem execFaultRecordWrite_goes (p k : Nat) (s : State) : Goes s (execFaultRecordWrite p k s) := by
  grind [execFaultRecordWrite, Goes, setPort_mem, setPart_mem, State.modLoad_mem, State.issueStore_mem]

end Sys2Proof.Machine
end

section
/-! SUPPORT. Operands and results of element words keep the canonical form of memory. -/

namespace Sys2Proof.Machine

theorem W.cur_keeps : W.cur.Keeps := by
  grind [W.cur, W.Keeps.bind, W.Keeps.pure, W.Keeps.get]

theorem W.elem_keeps : W.elem.Keeps := by
  grind [W.elem, W.Keeps.bind, W.Keeps.pure, W.Keeps.get]

theorem W.agent_keeps : W.agent.Keeps := by
  grind [W.agent, W.Keeps.bind, W.Keeps.pure, W.cur_keeps]

theorem W.word_keeps : W.word.Keeps := by
  grind [W.word, W.Keeps.bind, W.Keeps.pure, W.Keeps.get, W.elem_keeps]

theorem W.fault_keeps {α : Type} (c : Cause) (sub : Nat) (val : DWord) : (W.fault c sub val : W α).Keeps := ⟨fun _ _ => trivial⟩

theorem W.illop_keeps {α : Type} (sub : Nat) : (W.illop sub : W α).Keeps := W.word_keeps.bind fun _ => W.fault_keeps ..

theorem W.illopOpen_keeps {α : Type} : (W.illopOpen : W α).Keeps := W.Keeps.get.bind fun _ => W.illop_keeps _

theorem W.freeBool_keeps : W.freeBool.Keeps := ⟨fun _ h => h⟩

theorem W.fullOnly_keeps (wideFormat : Bool) : (W.fullOnly wideFormat).Keeps := by
  grind [W.fullOnly, W.Keeps.bind, W.Keeps.pure, W.Keeps.get, W.illop_keeps]

theorem W.eff_keeps (e : Eff) : (W.eff e).Keeps := by
  grind [W.eff, W.Keeps.upd]

theorem W.unit_keeps : W.unit.Keeps := by
  grind [W.unit, W.Keeps.bind, W.Keeps.pure, W.Keeps.get, W.Keeps.hold, W.elem_keeps]

theorem W.ownTest_keeps (sc : Scope) (place : Place) (words : List Nat) : (W.ownTest sc place words).Keeps := by
  refine W.Keeps.getWith fun k hk => ?_
  split
  · next e => exact W.Keeps.put ((congrArg Memory.wf (State.ownTest_mem e)).trans hk)
  · exact W.Keeps.wait none

theorem rdS_keeps (n : Nat) : (rdS n).Keeps := by
  grind [rdS, W.Keeps.bind, W.Keeps.pure, W.Keeps.get, W.Keeps.hold]

theorem rdW_keeps (n : Nat) : (rdW n).Keeps := by
  grind [rdW, W.Keeps.bind, W.Keeps.pure, W.Keeps.get, W.Keeps.hold]

theorem rdM_keeps (n : Nat) : (rdM n).Keeps := by
  grind [rdM, W.Keeps.bind, W.Keeps.pure, W.Keeps.get]

theorem rdPair_keeps (n : Nat) : (rdPair n).Keeps := by
  grind [rdPair, W.Keeps.bind, W.Keeps.pure, rdS_keeps]

theorem wrS_keeps (n : Nat) (v : Word) : (wrS n v).Keeps := by
  grind [wrS, W.Keeps.bind, W.Keeps.get, W.Keeps.upd, W.Keeps.hold]

theorem wrW_keeps (n : Nat) (v : Slot) : (wrW n v).Keeps := by
  grind [wrW, W.Keeps.bind, W.Keeps.get, W.Keeps.upd, W.Keeps.hold]

theorem wrM_keeps (n : Nat) (v : Word) : (wrM n v).Keeps := by
  grind [wrM, W.Keeps.upd]

theorem wrPair_keeps (n : Nat) (v : DWord) : (wrPair n v).Keeps := by
  grind [wrPair, W.Keeps.bind, wrS_keeps]

theorem wrAcc_keeps (t : Nat) (v : SMap Word) : (wrAcc t v).Keeps := by
  grind [wrAcc, W.Keeps.upd]

theorem W.lane_keeps : W.lane.Keeps := by
  grind [W.lane, W.Keeps.bind, W.Keeps.pure, W.Keeps.get]

theorem checkHeader_keeps (u : Slot) : (checkHeader u).Keeps := by
  grind [checkHeader, W.Keeps.pure, W.fault_keeps]

theorem W.handle_keeps (c : Nat) : (W.handle c).Keeps := by
  grind [W.handle, W.Keeps.bind, W.Keeps.pure, W.Keeps.get]

theorem useBuffer_keeps (r : Nat) : (useBuffer r).Keeps := by
  grind [useBuffer, W.Keeps.bind, W.Keeps.pure, W.illop_keeps, W.handle_keeps]

theorem unitCount_keeps (r : Nat) : (unitCount r).Keeps := by
  grind [unitCount, W.Keeps.bind, W.Keeps.pure, W.Keeps.get, W.elem_keeps]

theorem readHere_keeps (pl : Place) (n : Nat) : (readHere pl n).Keeps := by
  refine W.Keeps.getWith fun k hk => ?_
  split
  · next e => exact (W.Keeps.put ((congrArg Memory.wf (State.readOperand_mem e)).trans hk)).bind fun _ => W.Keeps.pure _
  · exact W.Keeps.hold

@[simp] theorem State.keepGot_mem (s : State) (p e n : Nat) (g : List (Nat × List Byte)) : (s.keepGot p e n g).mem = s.mem := by
  grind [State.keepGot, State.modElem_mem]

theorem readPlace_keeps (pl : Place) (n : Nat) (ptr : DWord) : (readPlace pl n ptr).Keeps := by
  refine W.Keeps.getWith fun k hk => ?_
  dsimp only
  split
  · exact readHere_keeps pl n
  · next m _ =>
    refine W.Keeps.ite (readHere_keeps pl n) ?_
    have hv := State.via_sound hk (.elem k.s.cur.patch k.s.cur.el) none pl n false ptr
      (packet 0 .patch m (k.s.identOf (k.s.partOf k.s.cur.patch)) n 0 0 pl.pa [])
    split <;> rename_i e <;> rw [e] at hv
    · exact W.Keeps.keep hv
    · exact W.Keeps.perm ..
    · exact W.fault_keeps ..
    · exact (W.Keeps.put (by exact Memory.wf_write _ _ _ hv)).bind fun _ => (readHere_keeps pl n).bind fun bs =>
        W.Keeps.getWith fun k hk => (W.Keeps.put (by simpa using hk)).bind fun _ => W.Keeps.pure bs

theorem readVault_keeps (va n : Nat) : (readVault va n).Keeps := by
  grind [readVault, W.Keeps.bind, W.cur_keeps, readHere_keeps]

theorem unitAt_keeps (r n : Nat) : (unitAt r n).Keeps := by
  refine (useBuffer_keeps r).bind fun _ => W.Keeps.get.bind fun k => ?_
  have done (u : Slot) : (do checkHeader u; pure u : W Slot).Keeps := (checkHeader_keeps u).bind fun _ => W.Keeps.pure u
  split
  · split
    · exact W.illop_keeps 2
    · exact done _
  · refine W.elem_keeps.bind fun v => ?_
    split
    · exact W.illop_keeps 2
    · exact (readVault_keeps _ 32).bind fun _ => done _

theorem readPos_keeps (r : Nat) : (readPos r).Keeps := by
  grind [readPos, W.Keeps.bind, W.Keeps.pure, W.Keeps.get]

theorem setPos_keeps (r n : Nat) : (setPos r n).Keeps := by
  grind [setPos, W.Keeps.upd]

theorem rdScalar_keeps (r : Nat) : (rdScalar r).Keeps := by
  grind [rdScalar, W.Keeps.bind, W.Keeps.pure, rdS_keeps, unitAt_keeps, readPos_keeps, setPos_keeps]

theorem rdWide_keeps (r : Nat) : (rdWide r).Keeps := by
  grind [rdWide, W.Keeps.bind, W.Keeps.pure, W.illop_keeps, rdW_keeps, useBuffer_keeps, unitAt_keeps, readPos_keeps,
      setPos_keeps]

theorem rdRest_keeps (r : Nat) : (rdRest r).Keeps := by
  grind [rdRest, W.Keeps.bind, W.Keeps.pure, W.Keeps.mapM, W.illop_keeps, useBuffer_keeps, unitCount_keeps, unitAt_keeps,
      readPos_keeps, setPos_keeps]

theorem useDest_keeps (r : Nat) : (useDest r).Keeps := by
  grind [useDest, useBuffer_keeps]

theorem putLanes_keeps (r : Nat) (ls : List Word) : (putLanes r ls).Keeps := by
  grind [putLanes, W.Keeps.bind, W.Keeps.pure, W.Keeps.upd, W.eff_keeps]

theorem wrScalar_keeps (r : Nat) (v : Word) : (wrScalar r v).Keeps := by
  grind [wrScalar, W.Keeps.bind, wrS_keeps, useDest_keeps, putLanes_keeps]

theorem putUnit_keeps (r : Nat) (u : Slot) : (putUnit r u).Keeps := by
  grind [putUnit, W.Keeps.bind, W.Keeps.get, W.illop_keeps, useDest_keeps, putLanes_keeps]

theorem wrWide_keeps (r l : Nat) (m : Word) (z : Bool) (new : List Nat) : (wrWide r l m z new).Keeps := by
  grind [wrWide, W.Keeps.bind, rdW_keeps, wrW_keeps, putUnit_keeps]

theorem wPointer_keeps (v : DWord) (off : Int) (align n : Nat) (who : Asker) : (wPointer v off align n who).Keeps := by
  grind [wPointer, W.Keeps.bind, W.Keeps.pure, W.Keeps.get, W.Keeps.pull, W.Keeps.perm, W.cur_keeps, W.fault_keeps]

@[simp] theorem State.putInst_mem (s : State) (p e : Nat) (i : Inst) : (s.putInst p e i).mem = s.mem := by
  grind [State.putInst, setElem_mem]

@[simp] theorem State.elemFault_mem (s : State) (p e : Nat) (i : Inst) (c : Cause) (sub : Nat) (val : DWord) :
    (s.elemFault p e i c sub val).mem = s.mem := by
  grind [State.elemFault, setPatch_mem, State.modElem_mem, State.dropLoads_mem, State.putInst_mem]

@[simp] theorem State.elemFreeze_mem (s : State) (p e : Nat) (i : Inst) (sub : Nat) (ptr : DWord) :
    (s.elemFreeze p e i sub ptr).mem = s.mem := by
  grind [State.elemFreeze, setElem_mem, State.dropLoads_mem]

@[simp] theorem State.moved_mem (s : State) (p e : Nat) : (s.moved p e).mem = s.mem := by
  grind [State.moved, setElem_mem]

@[simp] theorem State.startUnit_mem (s : State) (p e n : Nat) : (s.startUnit p e n).mem = s.mem := by
  grind [State.startUnit, State.modElem_mem]

@[simp] theorem State.clearWait_mem (s : State) (p e n : Nat) : (s.clearWait p e n).mem = s.mem := by
  grind [State.clearWait, State.modElem_mem]

@[simp] theorem State.dropRefusals_mem (s : State) (p e : Nat) : (s.dropRefusals p e).mem = s.mem := by
  grind [State.dropRefusals]

/-- An element word that keeps the canonical form goes on, and its step keeps it too. -/
theorem runWord_goes {f : W Unit} (hf : f.Keeps) (s : State) : Goes s (runWord f s) := by
  unfold runWord
  dsimp only
  split
  · exact id
  · next i _ =>
    split
    · exact id
    · have hk := hf.after ⟨s, i⟩
      split <;> simp_all [Goes, W.After, apply_ite State.mem]

end Sys2Proof.Machine
end

section
/-! SUPPORT. Element words of the ALU, the queues, memory and time keep the canonical form of memory. -/

namespace Sys2Proof.Machine

theorem W.divided_keeps (b : Bool) : (W.divided b).Keeps := by
  grind [W.divided, W.Keeps.upd]

theorem intWord_keeps (op : IntOp) (d a b : BitVec 5) (w z : BitVec 1) (k : BitVec 3) : (intWord op d a b w z k).Keeps := by
  unfold intWord
  split
  · grind [W.Keeps.bind, rdScalar_keeps, W.divided_keeps, wrScalar_keeps]
  · refine W.lane_keeps.bind fun l => (rdWide_keeps _).bind fun x => (rdWide_keeps _).bind fun y => (rdM_keeps _).bind fun m =>
      (W.divided_keeps _).bind fun _ => ?_
    split
    · exact W.freeBool_keeps.bind fun b => (W.divided_keeps b).bind fun _ => wrWide_keeps ..
    · exact wrWide_keeps ..

theorem intImm_keeps (op : IntOp) (d a : BitVec 5) (i : Word) : (intImm op d a i).Keeps := by
  grind [intImm, W.Keeps.bind, rdScalar_keeps, wrScalar_keeps]

theorem fpWord_keeps (op : FpOp) (d a b : BitVec 5) (f : BitVec 2) (rm : Rm) (w z : BitVec 1) (k : BitVec 3) :
    (fpWord op d a b f rm w z k).Keeps := by
  unfold fpWord
  split
  · grind [W.Keeps.bind, rdScalar_keeps, rdS_keeps, wrScalar_keeps]
  · refine (W.fullOnly_keeps _).bind fun _ => W.Keeps.get.bind fun _ => (W.illop_keeps 2).check <| W.lane_keeps.bind fun l =>
      (rdWide_keeps _).bind fun x => ?_
    grind [W.Keeps.bind, rdWide_keeps, rdW_keeps, rdM_keeps, wrWide_keeps]

theorem execMov_goes (d a : BitVec 5) (w z : BitVec 1) (k : BitVec 3) (s : State) : Goes s (execMov d a w z k s) :=
  runWord_goes (by grind [W.Keeps.bind, rdM_keeps, W.lane_keeps, rdScalar_keeps, rdWide_keeps, wrScalar_keeps, wrWide_keeps]) s

theorem execSel_goes (d a b c : BitVec 5) (w z : BitVec 1) (k : BitVec 3) (s : State) : Goes s (execSel d a b c w z k s) :=
  runWord_goes (by grind [W.Keeps.bind, rdM_keeps, W.lane_keeps, rdScalar_keeps, rdWide_keeps, wrScalar_keeps, wrWide_keeps]) s

theorem execLbc_goes (a : BitVec 5) (sg : BitVec 1) (c : BitVec 4) (s : State) : Goes s (execLbc a sg c s) :=
  runWord_goes (by grind [W.Keeps.bind, wrW_keeps, W.lane_keeps, rdScalar_keeps]) s

theorem execLext_goes (d a : BitVec 5) (sg : BitVec 1) (c : BitVec 4) (s : State) : Goes s (execLext d a sg c s) :=
  runWord_goes (by grind [W.Keeps.bind, W.illop_keeps, rdW_keeps, W.lane_keeps, rdScalar_keeps, wrScalar_keeps]) s

theorem execLins_goes (a b : BitVec 5) (c : BitVec 4) (s : State) : Goes s (execLins a b c s) :=
  runWord_goes (by grind [W.Keeps.bind, W.illop_keeps, rdW_keeps, wrW_keeps, W.lane_keeps, rdScalar_keeps]) s

theorem execMlane_goes (a b : BitVec 5) (c : BitVec 2) (n : BitVec 3) (z : BitVec 1) (k : BitVec 3) (s : State) :
    Goes s (execMlane a b c n z k s) :=
  runWord_goes (by grind [W.Keeps.bind, rdM_keeps, wrM_keeps, W.lane_keeps, rdWide_keeps]) s

theorem execMset_goes (a : BitVec 5) (n : BitVec 3) (s : State) : Goes s (execMset a n s) :=
  runWord_goes (by grind [W.Keeps.bind, wrM_keeps, rdScalar_keeps]) s

theorem execMget_goes (d : BitVec 5) (n : BitVec 3) (s : State) : Goes s (execMget d n s) :=
  runWord_goes (by grind [W.Keeps.bind, rdM_keeps, wrScalar_keeps]) s

theorem execSprd_goes (d c : BitVec 5) (s : State) : Goes s (execSprd d c s) :=
  runWord_goes (by grind [W.Keeps.bind, W.Keeps.get, W.elem_keeps, wrScalar_keeps]) s

theorem execSpwr_goes (a c : BitVec 5) (s : State) : Goes s (execSpwr a c s) :=
  runWord_goes (by grind [W.Keeps.bind, W.Keeps.pure, W.Keeps.upd, W.illop_keeps, W.eff_keeps, rdScalar_keeps]) s

theorem execPack_goes (d a b : BitVec 5) (sg : BitVec 1) (w : BitVec 2) (z : BitVec 1) (k : BitVec 3) (s : State) :
    Goes s (execPack d a b sg w z k s) :=
  runWord_goes (by grind [W.Keeps.bind, rdW_keeps, rdM_keeps, wrW_keeps, rdWide_keeps, putUnit_keeps]) s

theorem execUnpk_goes (d a : BitVec 5) (h sg : BitVec 1) (w : BitVec 2) (z : BitVec 1) (k : BitVec 3) (s : State) :
    Goes s (execUnpk d a h sg w z k s) :=
  runWord_goes (by grind [W.Keeps.bind, W.illopOpen_keeps, rdM_keeps, rdWide_keeps, wrWide_keeps]) s

theorem execTake_goes (d a : BitVec 5) (l : BitVec 3) (s : State) : Goes s (execTake d a l s) :=
  runWord_goes (by grind [W.Keeps.bind, unitAt_keeps, readPos_keeps, setPos_keeps, wrScalar_keeps]) s

theorem execPeek_goes (d a : BitVec 5) (l : BitVec 3) (s : State) : Goes s (execPeek d a l s) :=
  runWord_goes (by grind [W.Keeps.bind, unitAt_keeps, readPos_keeps, wrScalar_keeps]) s

theorem execAdv_goes (a n : BitVec 5) (s : State) : Goes s (execAdv a n s) :=
  runWord_goes (by grind [W.Keeps.bind, W.illop_keeps, useBuffer_keeps, unitCount_keeps, readPos_keeps, setPos_keeps]) s

theorem execEmit_goes (d a : BitVec 5) (s : State) : Goes s (execEmit d a s) :=
  runWord_goes (by grind [W.Keeps.bind, W.Keeps.get, W.illop_keeps, rdScalar_keeps, useDest_keeps, putLanes_keeps]) s

theorem State.flushWords_wf {s : State} (h : s.mem.wf = true) (words : List Nat) : (s.flushWords words).mem.wf = true :=
  foldl_wf (fun _ _ h => State.ownFlush_wf h _ _) words s h

theorem execWaitf_goes (d a n : BitVec 5) (s : State) : Goes s (execWaitf d a n s) :=
  runWord_goes (W.Keeps.get.bind fun _ => W.cur_keeps.bind fun _ => W.elem_keeps.bind fun _ => (W.illop_keeps 1).check <|
    (W.ownTest_keeps ..).bind fun _ => (W.Keeps.wait none).check <|
    (W.Keeps.modified fun _ hk => State.flushWords_wf hk _).bind fun _ => (W.Keeps.upd _).bind fun _ => wrScalar_keeps ..) s

theorem execWaite_goes (d a n : BitVec 5) (s : State) : Goes s (execWaite d a n s) :=
  runWord_goes (W.Keeps.get.bind fun _ => W.cur_keeps.bind fun _ => W.elem_keeps.bind fun _ => (W.illop_keeps 1).check <|
    (W.ownTest_keeps ..).bind fun _ => (W.Keeps.wait none).check <|
    (W.Keeps.modified fun _ hk => State.flushWords_wf hk _).bind fun _ => (W.Keeps.upd _).bind fun _ => wrScalar_keeps ..) s

theorem execRrot_goes (d a b : BitVec 5) (bk : BitVec 1) (s : State) : Goes s (execRrot d a b bk s) :=
  runWord_goes (by grind [W.Keeps.bind, W.Keeps.upd, W.cur_keeps, W.illop_keeps, rdScalar_keeps, wrScalar_keeps]) s

theorem execLgen_goes (d a b : BitVec 5) (t : BitVec 2) (s : State) : Goes s (execLgen d a b t s) :=
  runWord_goes (by grind [W.Keeps.bind, W.Keeps.get, W.eff_keeps, rdScalar_keeps]) s

theorem execCommit_goes (s : State) : Goes s (execCommit s) :=
  runWord_goes (by grind [W.Keeps.pure]) s

theorem execHalt_goes (s : State) : Goes s (execHalt s) :=
  runWord_goes (by grind [W.Keeps.upd]) s

theorem branchTag_keeps (m : BitVec 2) (g : BitVec 14) : (branchTag m g).Keeps := by
  grind [branchTag, W.Keeps.bind, W.Keeps.pure, W.Keeps.get, rdS_keeps]

theorem execBr_goes (blk : BitVec 4) (c : BitVec 1) (r : BitVec 4) (m : BitVec 2) (g : BitVec 14) (s : State) :
    Goes s (execBr blk c r m g s) :=
  runWord_goes (by grind [W.Keeps.bind, W.Keeps.pure, W.Keeps.upd, W.elem_keeps, W.illop_keeps, rdS_keeps, branchTag_keeps]) s

theorem loadWord_keeps (d a : BitVec 5) (o : BitVec 12) (sc : BitVec 3) (size : Nat) (sg acq : Bool) :
    (loadWord d a o sc size sg acq).Keeps := by
  refine (rdPair_keeps _).bind fun _ => (wPointer_keeps ..).bind fun _ => W.Keeps.getWith fun k hk => W.Keeps.hold.check <|
    W.cur_keeps.bind fun _ => W.Keeps.put ?_
  refine foldl_wf ?_ _ k.s hk
  exact fun _ _ h => h

theorem storeWord_keeps (d a : BitVec 5) (o : BitVec 12) (sc : BitVec 3) (size : Nat) (rel : Bool) :
    (storeWord d a o sc size rel).Keeps := by
  grind [storeWord, W.Keeps.bind, W.eff_keeps, rdS_keeps, rdW_keeps, rdPair_keeps, wPointer_keeps]

theorem execFence_goes (sc : BitVec 3) (s : State) : Goes s (execFence sc s) :=
  runWord_goes (by grind [W.Keeps.bind, W.Keeps.pure, W.Keeps.get, W.Keeps.wait, W.agent_keeps]) s

theorem fePointer_keeps (a : BitVec 5) (o : BitVec 12) (n : Nat) (who : Asker) : (fePointer a o n who).Keeps := by
  grind [fePointer, W.Keeps.bind, W.Keeps.pure, W.illop_keeps, rdPair_keeps, wPointer_keeps]

theorem execLdf_goes (d a : BitVec 5) (o : BitVec 12) (sc : BitVec 3) (s : State) : Goes s (execLdf d a o sc s) :=
  runWord_goes (by
    refine (fePointer_keeps ..).bind fun x => (W.ownTest_keeps ..).bind fun _ => W.Keeps.getWith fun k hk => W.Keeps.ite ?_ ?_
    · exact W.freeBool_keeps.bind fun _ => (W.Keeps.wait none).check <| W.Keeps.getWith fun _ h =>
        (W.Keeps.put (by exact h)).bind fun _ => wrPair_keeps ..
    · refine W.agent_keeps.bind fun ag => ?_
      extract_lets id served
      have hs : ∀ u, (served u).Keeps := fun _ => by
        have hp := (congrArg Memory.wf (k.s.present_mem ag id [false] [x.1.addr / 8])).trans hk
        dsimp only [served]
        generalize k.s.present ag id [false] [x.1.addr / 8] = y at hp
        exact (W.Keeps.keep hp).check <| (W.Keeps.put (by exact State.flushWords_wf hp _)).bind fun _ => wrPair_keeps ..
      exact W.Keeps.ite (W.elem_keeps.bind fun _ => W.Keeps.ite
        ((W.Keeps.keep (by simpa using hk)).bind fun _ => (W.Keeps.wait none).bind hs) ((W.Keeps.wait none).bind hs)) (hs ())) s

theorem W.irrevocable_keeps (x : Irr) : (W.irrevocable x).Keeps := by
  grind [W.irrevocable, W.Keeps.upd]

theorem execLdfe_goes (d a : BitVec 5) (o : BitVec 12) (sc : BitVec 3) (s : State) : Goes s (execLdfe d a o sc s) :=
  runWord_goes (by grind [W.Keeps.bind, fePointer_keeps, W.irrevocable_keeps]) s

theorem execSte_goes (d a : BitVec 5) (o : BitVec 12) (sc : BitVec 3) (s : State) : Goes s (execSte d a o sc s) :=
  runWord_goes (by grind [W.Keeps.bind, rdPair_keeps, fePointer_keeps, W.irrevocable_keeps]) s

theorem execStf_goes (d a : BitVec 5) (o : BitVec 12) (sc : BitVec 3) (s : State) : Goes s (execStf d a o sc s) :=
  runWord_goes (by grind [W.Keeps.bind, W.eff_keeps, rdPair_keeps, fePointer_keeps]) s

theorem execFeclr_goes (d a : BitVec 5) (o : BitVec 12) (sc : BitVec 3) (s : State) : Goes s (execFeclr d a o sc s) :=
  runWord_goes ((rdS_keeps _).bind fun _ => (W.illop_keeps 2).check <| (rdPair_keeps _).bind fun _ =>
    (fePointer_keeps ..).bind fun _ => (W.Keeps.mapM (fun _ => (wPointer_keeps ..).bind fun _ =>
      (W.illop_keeps 2).check (W.Keeps.pure _)) _).bind fun _ =>
    (W.Keeps.forIn (fun _ _ => (W.eff_keeps _).bind fun _ => W.Keeps.pure _) _ _).bind fun _ => W.Keeps.pure _) s

theorem atomWord_keeps (k : AtomKind) (d a b : BitVec 5) (ar w : BitVec 1) (sc : BitVec 3) :
    (atomWord k d a b ar w sc).Keeps := by
  grind [atomWord, W.Keeps.bind, W.Keeps.pure, rdS_keeps, rdPair_keeps, wPointer_keeps, W.irrevocable_keeps]

theorem W.context_keeps : W.context.Keeps := by
  grind [W.context, W.Keeps.bind, W.Keeps.pure, W.Keeps.get, W.cur_keeps]

theorem holdPointer_keeps (a : BitVec 5) : (holdPointer a).Keeps := by
  grind [holdPointer, W.Keeps.bind, W.Keeps.pure, W.illop_keeps, rdPair_keeps, wPointer_keeps]

theorem execPlace_goes (d a : BitVec 5) (sc : BitVec 3) (s : State) : Goes s (execPlace d a sc s) :=
  runWord_goes (by grind [W.Keeps.bind, W.irrevocable_keeps, W.context_keeps, holdPointer_keeps]) s

theorem W.patches_keeps : W.patches.Keeps := by
  grind [W.patches, W.Keeps.bind, W.Keeps.pure, W.Keeps.get, W.cur_keeps]

theorem placeWord_keeps (k : PlaceKind) (d a b : BitVec 5) (sc : BitVec 3) (acq rel : Bool) (reads : Bool) (dst : List Nat) :
    (placeWord k d a b sc acq rel reads dst).Keeps := by
  grind [placeWord, W.Keeps.bind, rdS_keeps, W.irrevocable_keeps, W.context_keeps, holdPointer_keeps, W.patches_keeps]

theorem engWord_keeps (k : EngKind) (d a : BitVec 5) (sc : BitVec 3) : (engWord k d a sc).Keeps := by
  refine (rdPair_keeps _).bind fun v => (wPointer_keeps ..).bind fun x => W.irrevocable_keeps _

theorem execDrain_goes (path : BitVec 2) (s : State) : Goes s (execDrain path s) :=
  runWord_goes (by grind [W.Keeps.bind, W.Keeps.pure, W.Keeps.get, W.Keeps.wait, W.elem_keeps]) s

theorem execThaw_goes (d a : BitVec 5) (s : State) : Goes s (execThaw d a s) :=
  runWord_goes (by grind [W.Keeps.bind, W.Keeps.upd, W.illop_keeps, W.eff_keeps, rdS_keeps]) s

theorem execBubl_goes (d a b : BitVec 5) (s : State) : Goes s (execBubl d a b s) :=
  runWord_goes (by grind [W.Keeps.bind, W.Keeps.upd, W.illop_keeps, W.eff_keeps, rdS_keeps]) s

theorem execTcmp_goes (d a b : BitVec 5) (s : State) : Goes s (execTcmp d a b s) :=
  runWord_goes (by grind [W.Keeps.bind, rdPair_keeps, wrS_keeps]) s

theorem execTjoin_goes (d a b : BitVec 5) (s : State) : Goes s (execTjoin d a b s) :=
  runWord_goes (by grind [W.Keeps.bind, rdPair_keeps, wrPair_keeps]) s

theorem execTmeet_goes (d a b : BitVec 5) (s : State) : Goes s (execTmeet d a b s) :=
  runWord_goes (by grind [W.Keeps.bind, rdPair_keeps, wrPair_keeps]) s

theorem rdFrontier_keeps (n : Nat) : (rdFrontier n).Keeps := by
  grind [rdFrontier, W.Keeps.bind, W.Keeps.pure, W.Keeps.get, W.Keeps.upd, W.elem_keeps]

theorem execTadv_goes (d a b : BitVec 5) (s : State) : Goes s (execTadv d a b s) :=
  runWord_goes (by grind [W.Keeps.bind, rdPair_keeps, wrPair_keeps, rdFrontier_keeps]) s

theorem execFrd_goes (d a : BitVec 5) (s : State) : Goes s (execFrd d a s) :=
  runWord_goes (by grind [W.Keeps.bind, wrW_keeps, rdFrontier_keeps]) s

theorem execFrdCnt_goes (d a : BitVec 5) (s : State) : Goes s (execFrdCnt d a s) :=
  runWord_goes (by grind [W.Keeps.bind, wrS_keeps, rdFrontier_keeps]) s

theorem execFwait_goes (d a : BitVec 5) (s : State) : Goes s (execFwait d a s) :=
  runWord_goes (by grind [W.Keeps.bind, W.Keeps.upd, W.Keeps.wait, W.elem_keeps, rdPair_keeps]) s

theorem execCaph_goes (d a : BitVec 5) (s : State) : Goes s (execCaph d a s) :=
  runWord_goes (by grind [W.Keeps.bind, W.eff_keeps, rdPair_keeps]) s

theorem execCapd_goes (d a : BitVec 5) (s : State) : Goes s (execCapd d a s) :=
  runWord_goes (by grind [W.Keeps.bind, W.eff_keeps, rdPair_keeps]) s

theorem execCapx_goes (d a b : BitVec 5) (s : State) : Goes s (execCapx d a b s) :=
  runWord_goes (by grind [W.Keeps.bind, W.fault_keeps, W.eff_keeps, rdPair_keeps]) s

end Sys2Proof.Machine
end

section
/-! SUPPORT. Matrix words, witnesses and arrangement words keep the canonical form of memory. -/

namespace Sys2Proof.Machine

theorem tileAddr_keeps (r n align : Nat) : (tileAddr r n align).Keeps := by
  grind [tileAddr, W.Keeps.bind, W.Keeps.pure, W.fault_keeps, W.illop_keeps, rdS_keeps]

theorem rdTile_keeps (r n align : Nat) : (rdTile r n align).Keeps := by
  refine W.Keeps.ite ((tileAddr_keeps ..).bind fun _ => (readVault_keeps ..).bind fun _ => W.Keeps.pure _) ?_
  refine (useBuffer_keeps r).bind fun _ => W.Keeps.get.bind fun _ => W.elem_keeps.bind fun _ => (W.illop_keeps 2).check <|
    (W.Keeps.upd _).bind fun _ => (W.Keeps.mapM (fun _ => readVault_keeps ..) _).bind fun _ => W.Keeps.pure _

theorem dataflow_keeps (tiles : List (Nat × Nat)) : (dataflow tiles).Keeps := by
  refine W.Keeps.get.bind fun k => W.cur_keeps.bind fun c => W.elem_keeps.bind fun v => ?_
  extract_lets ws taken store
  have hs : ∀ u, (store u).Keeps := fun _ => W.Keeps.ite (W.eff_keeps _) (W.Keeps.pure _)
  exact W.Keeps.ite ((W.ownTest_keeps ..).bind fun _ => (W.Keeps.wait none).check <|
    (W.Keeps.modified fun _ h => State.flushWords_wf h _).bind hs) (hs ())

@[simp] theorem State.keepDf_mem (s : State) (p e : Nat) (i : Inst) : (s.keepDf p e i).mem = s.mem := by
  grind [State.keepDf, State.modElem_mem]

theorem scaleExps_keeps (ns : List Nat) : (scaleExps ns).Keeps := by
  refine W.Keeps.ite (W.Keeps.pure _) <| W.Keeps.getWith fun k hk => W.cur_keeps.bind fun c => W.elem_keeps.bind fun v =>
    (W.illop_keeps 1).check <| (W.Keeps.keep ?_).check <| (W.Keeps.put ?_).bind fun _ => W.Keeps.pure _
  · simpa using hk
  · simpa using hk

theorem tileBlocks_keeps (f : Nat) (bs : List Byte) : (tileBlocks f bs).Keeps := by
  grind [tileBlocks, W.Keeps.pure, W.illopOpen_keeps]

theorem matrixWord_keeps (t f : Nat) (clr : Bool) (rm : Rm) (a b : List Byte) : (matrixWord t f clr rm a b).Keeps := by
  grind [matrixWord, W.Keeps.bind, W.Keeps.get, W.eff_keeps, wrAcc_keeps, scaleExps_keeps, tileBlocks_keeps]

theorem execMma_goes (t : BitVec 2) (a b : BitVec 5) (f : BitVec 4) (df clr : BitVec 1) (r : BitVec 3) (s : State) :
    Goes s (execMma t a b f df clr r s) :=
  runWord_goes (W.unit_keeps.bind fun _ => (W.fullOnly_keeps _).bind fun _ => (rdTile_keeps ..).bind fun _ =>
    (rdTile_keeps ..).bind fun _ => (dataflow_keeps _).check <| matrixWord_keeps ..) s

theorem gatherTile_keeps (f : Nat) (rc : List Byte) : (gatherTile f rc).Keeps := by
  grind [gatherTile, W.Keeps.bind, W.Keeps.pure, W.Keeps.mapM, W.fault_keeps, W.illop_keeps, readVault_keeps]

theorem execMmag_goes (t : BitVec 2) (a b : BitVec 5) (f : BitVec 4) (df clr : BitVec 1) (r : BitVec 3) (s : State) :
    Goes s (execMmag t a b f df clr r s) :=
  runWord_goes (W.unit_keeps.bind fun _ => (W.fullOnly_keeps _).bind fun _ => (rdTile_keeps ..).bind fun _ =>
    (rdTile_keeps ..).bind fun _ => (dataflow_keeps _).check <| (gatherTile_keeps ..).bind fun _ => matrixWord_keeps ..) s

theorem execAccld_goes (t : BitVec 2) (a : BitVec 5) (f : BitVec 4) (s : State) : Goes s (execAccld t a f s) :=
  runWord_goes (W.unit_keeps.bind fun _ => (W.fullOnly_keeps _).bind fun _ => (rdTile_keeps ..).bind fun _ =>
    W.Keeps.get.bind fun _ => wrAcc_keeps ..) s

theorem rawToBuffer_keeps (r : Nat) (bs : List Byte) : (rawToBuffer r bs).Keeps :=
  (useBuffer_keeps r).bind fun _ => W.Keeps.get.bind fun _ => (W.illop_keeps 2).check <| W.Keeps.getWith fun _ hk =>
    (W.Keeps.put (by exact hk)).bind fun _ => putLanes_keeps ..

theorem execAccst_goes (t : BitVec 2) (a b : BitVec 5) (f : BitVec 4) (s : State) : Goes s (execAccst t a b f s) :=
  runWord_goes (by grind [W.Keeps.bind, W.Keeps.get, W.cur_keeps, W.fullOnly_keeps, W.eff_keeps, W.unit_keeps, tileAddr_keeps,
      rawToBuffer_keeps]) s

theorem execLdt_goes (a b : BitVec 5) (f : BitVec 4) (s : State) : Goes s (execLdt a b f s) :=
  runWord_goes (W.unit_keeps.bind fun _ => (W.fullOnly_keeps _).bind fun _ => W.elem_keeps.bind fun _ => W.Keeps.hold.check <|
    (rdTile_keeps ..).bind fun _ => (tileAddr_keeps ..).bind fun _ => W.cur_keeps.bind fun _ => W.Keeps.getWith fun k hk =>
    W.elem_keeps.bind fun _ => (W.Keeps.put (by simpa using hk)).bind fun _ => W.eff_keeps _) s

theorem W.header_keeps (flags : Nat) : (W.header flags).Keeps := by
  grind [W.header, W.Keeps.bind, W.Keeps.pure, W.Keeps.get]

theorem streamOut_keeps (r : Nat) (us : List Slot) : (streamOut r us).Keeps :=
  (W.illop_keeps 2).check <| W.Keeps.ite (W.eff_keeps _) <| (useBuffer_keeps r).bind fun _ => W.Keeps.get.bind fun _ =>
    (W.illop_keeps 2).check <| W.Keeps.get.bind fun _ => (putLanes_keeps ..).bind fun _ => W.Keeps.get.bind fun _ =>
    W.Keeps.ite (W.illop_keeps 2) (W.Keeps.pure _)

theorem execSortn_goes (a b : BitVec 5) (f : BitVec 4) (u dn : BitVec 1) (s : State) : Goes s (execSortn a b f u dn s) :=
  runWord_goes (by grind [W.Keeps.bind, W.illop_keeps, W.unit_keeps, rdRest_keeps, W.header_keeps, streamOut_keeps]) s

theorem runValues_keeps (f : Nat) (us : List Slot) : (runValues f us).Keeps := by
  refine W.Keeps.ite ?_ (W.Keeps.pure _)
  refine (W.illop_keeps 2).check <| W.Keeps.get.bind fun _ => (W.illop_keeps 2).check <| (W.Keeps.upd _).bind fun _ =>
    (scaleExps_keeps _).bind fun es => (W.Keeps.mapM (fun x => ?_) _).bind fun _ => W.Keeps.pure _
  dsimp only
  split
  · exact W.Keeps.pure _
  · exact W.illopOpen_keeps

theorem convertRun_keeps (f : Nat) (rm : Rm) (h : Word) (vs : List FV) : (convertRun f rm h vs).Keeps := by
  grind [convertRun, W.Keeps.bind, W.Keeps.pure, W.illop_keeps]

theorem execCvt_goes (a b : BitVec 5) (f sf : BitVec 4) (r : BitVec 3) (s : State) : Goes s (execCvt a b f sf r s) :=
  runWord_goes (by
    refine (W.fullOnly_keeps _).bind fun _ => (rdRest_keeps _).bind fun us => (W.illop_keeps 2).check <|
      (W.header_keeps _).bind fun h => (W.Keeps.mapM (fun x => ?_) _).bind fun _ => W.Keeps.get.bind fun _ =>
      (W.illop_keeps 2).check <| W.Keeps.get.bind fun _ => (W.Keeps.upd _).bind fun _ => (W.eff_keeps _).check <| streamOut_keeps ..
    cases x with
    | inl run => exact (runValues_keeps ..).bind fun _ => convertRun_keeps ..
    | inr u => exact W.Keeps.pure _) s

theorem scaleArray_keeps (t a b : Nat) : (scaleArray t a b).Keeps := by
  grind [scaleArray, W.Keeps.bind, W.Keeps.pure, W.illop_keeps, rdS_keeps, readVault_keeps]

theorem execScld_goes (t : BitVec 2) (a b : BitVec 5) (_f : BitVec 4) (s : State) : Goes s (execScld t a b _f s) :=
  runWord_goes (by grind [W.Keeps.bind, W.eff_keeps, scaleArray_keeps]) s

theorem execScem_goes (t : BitVec 2) (a b : BitVec 5) (_f : BitVec 4) (s : State) : Goes s (execScem t a b _f s) :=
  runWord_goes (by grind [W.Keeps.bind, W.eff_keeps, scaleArray_keeps]) s

theorem wredWord_keeps (k : WredKind) (t a b f : Nat) (wd : Bool) : (wredWord k t a b f wd).Keeps := by
  refine W.unit_keeps.bind fun _ => (W.fullOnly_keeps _).bind fun _ => (rdS_keeps _).bind fun _ => (W.illop_keeps 2).check ?_
  extract_lets r c reduce conv val
  have hr : ∀ x, (reduce x).Keeps := fun _ => by
    refine (rdTile_keeps ..).bind fun _ => W.cur_keeps.bind fun _ => ?_
    extract_lets out size log
    have hl : ∀ u, (log u).Keeps := fun _ => W.Keeps.ite ((useBuffer_keeps _).bind fun _ => W.Keeps.get.bind fun _ =>
      (W.illop_keeps 2).check (W.eff_keeps _)) (W.Keeps.pure _)
    exact W.Keeps.ite ((tileAddr_keeps ..).bind fun _ => (W.eff_keeps _).bind hl) ((rawToBuffer_keeps ..).bind hl)
  exact W.Keeps.ite ((rdS_keeps _).bind fun _ => (rdS_keeps _).bind fun _ => (W.illop_keeps 2).check ((W.Keeps.pure _).bind hr))
    ((W.Keeps.pure _).bind hr)

theorem readPtr_keeps (v : DWord) (off n : Nat) : (readPtr v off n).Keeps := by
  grind [readPtr, W.Keeps.bind, W.Keeps.pure, W.Keeps.mapM, readPlace_keeps, wPointer_keeps]

theorem witnessTest_keeps (v : DWord) (gen : Word) : (witnessTest v gen).Keeps := by
  refine (wPointer_keeps ..).bind fun x => (W.illop_keeps 2).check <| (W.ownTest_keeps ..).bind fun _ => W.Keeps.getWith fun k hk => ?_
  extract_lets answer stale t same full write test
  have ha : ∀ u, (answer u).Keeps := fun _ => (readPtr_keeps ..).bind fun bs => by
    split
    · exact W.fault_keeps ..
    · exact W.Keeps.pure _
  have hs : ∀ u, (stale u).Keeps := fun _ => W.freeBool_keeps.bind fun _ => W.Keeps.ite ((W.fault_keeps ..).bind ha) (ha ())
  have hf : t.mem.wf = true := State.flushWords_wf hk _
  have hw : ∀ u, (write u).Keeps := fun _ => W.Keeps.bind (W.Keeps.put (k := ⟨t, k.i⟩) hf) ha
  have ht : ∀ u, (test u).Keeps := fun _ => W.Keeps.ite ((W.fault_keeps ..).bind hw) (hw ())
  exact W.Keeps.ite (W.freeBool_keeps.bind fun _ => W.Keeps.ite ((W.Keeps.wait none).bind hs) (hs ()))
    (W.Keeps.ite ((W.Keeps.wait none).bind ht) (ht ()))

theorem execAdjb_goes (t : BitVec 2) (a b : BitVec 5) (f : BitVec 4) (s : State) : Goes s (execAdjb t a b f s) :=
  runWord_goes (W.unit_keeps.bind fun _ => (W.fullOnly_keeps _).bind fun _ => (rdPair_keeps _).bind fun _ => (rdS_keeps _).bind fun _ =>
    (witnessTest_keeps ..).bind fun _ => (rdTile_keeps ..).bind fun _ => (W.fault_keeps ..).check <| (readPtr_keeps ..).bind fun _ =>
    (W.fault_keeps ..).check <| W.Keeps.get.bind fun _ => (wrAcc_keeps ..).bind fun _ => W.irrevocable_keeps _) s

theorem execWrel_goes (d a b : BitVec 5) (s : State) : Goes s (execWrel d a b s) :=
  runWord_goes (by grind [W.Keeps.bind, rdS_keeps, rdPair_keeps, W.irrevocable_keeps, witnessTest_keeps]) s

theorem readUnits_keeps (v : DWord) (n : Nat) : (readUnits v n).Keeps := by
  grind [readUnits, W.Keeps.bind, W.Keeps.pure, readPtr_keeps]

theorem readArr_keeps (v : DWord) : (readArr v).Keeps := by
  refine (wPointer_keeps ..).bind fun _ => (readPlace_keeps ..).bind fun _ => (W.illop_keeps 1).check <| (readPtr_keeps ..).bind fun _ =>
    (W.illop_keeps 1).check <| (readUnits_keeps ..).bind fun _ => (readPtr_keeps ..).bind fun _ => ?_
  dsimp only
  split
  · exact W.illop_keeps 1
  · exact W.Keeps.pure _

theorem claimArr_keeps (as_ : List Nat) : (claimArr as_).Keeps := by
  grind [claimArr, W.Keeps.bind, W.Keeps.get, W.Keeps.upd, W.Keeps.wait, W.elem_keeps]

theorem arrPlace_keeps (v : DWord) (n : Nat) : (arrPlace v n).Keeps := by
  grind [arrPlace, W.Keeps.bind, W.Keeps.pure, wPointer_keeps]

theorem writerOf_keeps (a : Nat) : (writerOf a).Keeps := by
  grind [writerOf, W.Keeps.bind, W.Keeps.get, W.Keeps.upd, W.illop_keeps]

theorem writePtr_keeps (v : DWord) (off : Nat) (bs : List Byte) : (writePtr v off bs).Keeps :=
  (W.Keeps.forIn (fun _ _ => (wPointer_keeps ..).bind fun _ => (W.eff_keeps _).bind fun _ => W.Keeps.pure _) _ _).bind fun _ =>
    W.Keeps.pure _

theorem writeArr_keeps (v : DWord) (a : Arr) (first : Nat) : (writeArr v a first).Keeps := by
  grind [writeArr, W.Keeps.bind, writePtr_keeps]

theorem writeSince_keeps (v : DWord) (a : Arr) : (writeSince v a).Keeps := by
  grind [writeSince, writePtr_keeps]

theorem execAcon_goes (d a b : BitVec 5) (s : State) : Goes s (execAcon d a b s) :=
  runWord_goes ((rdPair_keeps _).bind fun _ => (rdS_keeps _).bind fun _ => (W.illop_keeps 2).check <| (arrPlace_keeps ..).bind fun _ =>
    (claimArr_keeps _).bind fun _ => (readUnits_keeps ..).bind fun _ => (W.illop_keeps 2).check <|
    (W.Keeps.forIn (fun _ _ => (checkHeader_keeps _).bind fun _ => W.Keeps.pure _) _ _).bind fun _ =>
    (writerOf_keeps _).check <| (writePtr_keeps ..).bind fun _ => wrS_keeps ..) s

theorem execAins_goes (d a b c : BitVec 5) (s : State) : Goes s (execAins d a b c s) :=
  runWord_goes (by
    refine (rdPair_keeps _).bind fun _ => (rdPair_keeps _).bind fun _ => (rdS_keeps _).bind fun _ => (W.illop_keeps 2).check <|
      (arrPlace_keeps ..).bind fun _ => (arrPlace_keeps ..).bind fun _ => (claimArr_keeps _).bind fun _ => (readArr_keeps _).bind fun _ =>
      (W.illop_keeps 2).check <| (readUnits_keeps ..).bind fun _ =>
      (W.Keeps.forIn (fun _ _ => (checkHeader_keeps _).bind fun _ => W.Keeps.pure _) _ _).bind fun _ =>
      (W.illop_keeps 1).check <| (W.illop_keeps 1).check ?_
    extract_lets y done
    have hd : ∀ u, (done u).Keeps := fun _ => wrS_keeps ..
    exact W.Keeps.ite ((W.illop_keeps 2).check <| (writerOf_keeps _).bind fun _ => (writeArr_keeps ..).bind hd) (hd ())) s

theorem execAmrg_goes (d a b : BitVec 5) (s : State) : Goes s (execAmrg d a b s) :=
  runWord_goes (W.unit_keeps.bind fun _ => (rdPair_keeps _).bind fun _ => (rdS_keeps _).bind fun _ => (arrPlace_keeps ..).bind fun _ =>
    (claimArr_keeps _).bind fun _ => (readArr_keeps _).bind fun _ => (W.illop_keeps 2).check <| (W.illop_keeps 2).check <|
    (W.illop_keeps 2).check <| (writerOf_keeps _).bind fun _ => (writeArr_keeps ..).bind fun _ => wrS_keeps ..) s

theorem execAcmp_goes (d a b : BitVec 5) (s : State) : Goes s (execAcmp d a b s) :=
  runWord_goes (W.unit_keeps.bind fun _ => (rdPair_keeps _).bind fun _ => (rdFrontier_keeps _).bind fun _ => (arrPlace_keeps ..).bind fun _ =>
    (claimArr_keeps _).bind fun _ => (readArr_keeps _).bind fun _ => (W.illop_keeps 2).check <|
    (writerOf_keeps _).bind fun _ => (writeArr_keeps ..).bind fun _ => (writeSince_keeps ..).bind fun _ => wrS_keeps ..) s

theorem execAprb_goes (d a b : BitVec 5) (port : BitVec 2) (s : State) : Goes s (execAprb d a b port s) :=
  runWord_goes (by grind [W.Keeps.bind, W.Keeps.get, W.eff_keeps, rdPair_keeps, wrS_keeps, readArr_keeps, claimArr_keeps,
      arrPlace_keeps]) s

theorem execJoin_goes (d a b : BitVec 5) (vsel : BitVec 1) (ksel port : BitVec 2) (s : State) :
    Goes s (execJoin d a b vsel ksel port s) :=
  runWord_goes (by
    refine (rdPair_keeps _).bind fun _ => (arrPlace_keeps ..).bind fun _ => (claimArr_keeps _).bind fun _ => (readArr_keeps _).bind fun _ =>
      (rdRest_keeps _).bind fun _ => (W.illop_keeps 2).check ?_
    extract_lets pus probes rows out
    have ho : ∀ u, (out u).Keeps := fun _ => W.Keeps.get.bind fun _ => (W.eff_keeps _).bind fun _ => wrS_keeps ..
    split
    · exact (W.fault_keeps ..).bind ho
    · exact (W.Keeps.pure ()).bind ho) s

theorem redAt_keeps (kind : Nat) (key : DWord) (ra rb mine : List ARec) (t : DWord) : (redAt kind key ra rb mine t).Keeps := by
  grind [redAt, W.Keeps.bind, W.Keeps.pure, W.fault_keeps, W.illop_keeps]

theorem redKey_keeps (kind : Nat) (key : DWord) (batch ra rb : List ARec) : (redKey kind key batch ra rb).Keeps :=
  (W.illop_keeps 2).check <| W.Keeps.foldlM (fun _ _ => (redAt_keeps ..).bind fun _ => W.Keeps.pure _) _ _

theorem execRed_goes (d a b : BitVec 5) (kind : BitVec 3) (port : BitVec 2) (s : State) : Goes s (execRed d a b kind port s) :=
  runWord_goes (by
    refine (rdPair_keeps _).bind fun _ => (rdPair_keeps _).bind fun _ => (arrPlace_keeps ..).bind fun _ => (arrPlace_keeps ..).bind fun _ =>
      (claimArr_keeps _).bind fun _ => (readArr_keeps _).bind fun _ => (readArr_keeps _).bind fun _ =>
      (W.Keeps.foldlM (fun _ _ => (redKey_keeps ..).bind fun _ => W.Keeps.pure _) _ _).bind fun _ => ?_
    extract_lets done y write
    have hd : ∀ u, (done u).Keeps := fun _ => wrS_keeps ..
    have hw : ∀ u, (write u).Keeps := fun _ => (writerOf_keeps _).bind fun _ => W.Keeps.get.bind fun _ =>
      (W.eff_keeps _).bind fun _ => (writeArr_keeps ..).bind hd
    exact W.Keeps.ite (W.Keeps.ite ((W.illop_keeps 2).bind hw) (hw ())) (hd ())) s

end Sys2Proof.Machine
end

section
/-! SUPPORT. Places, engines, firing and dispositions keep the canonical form of memory. -/

namespace Sys2Proof.Machine

theorem State.placeStep_sound {s : State} (h : s.mem.wf = true) (part : Nat) (place : Place) (f : Hold → Pool → PlaceOut) :
    (s.placeStep part place f).Sound := by
  grind [State.placeStep, Perf.Sound, setPart_mem, State.ownFlush_wf, State.ownWrite_wf]

theorem State.witnessStep_sound {s : State} (h : s.mem.wf = true) (place : Place) (gen : Word) (release : Bool) (ptr : DWord) :
    (s.witnessStep place gen release ptr).Sound := by
  grind [State.witnessStep, Perf.Sound, State.ownFlush_wf, State.ownWrite_wf, State.ownMark_wf]

theorem State.perform_sound {s : State} (h : s.mem.wf = true) (part : Nat) (place : Place) (op : OwnOp) (ptr : DWord) :
    (s.perform part place op ptr).Sound := by
  cases op <;> grind [State.perform, Perf.Sound, State.ownFlush_wf, State.ownWrite_wf, State.ownMark_wf, State.atomic_wf,
      State.placeStep_sound, State.witnessStep_sound]

theorem State.elsewhere_sound {s : State} (h : s.mem.wf = true) (op : OwnOp) (ptr : DWord) : (s.elsewhere op ptr).Sound := by
  grind [State.elsewhere, Perf.Sound]

theorem State.tryOwner_sound {s : State} (h : s.mem.wf = true) (a : AgentId) (part : Nat) (place : Place) (scope : Scope)
    (acq rel : Bool) (op : OwnOp) (ptr : DWord) :
    (s.tryOwner a part place scope acq rel op ptr).Sound := by
  grind [State.tryOwner, Perf.Sound, State.perform_sound, State.elsewhere_sound]

@[simp] theorem State.rewatch_mem (s : State) (p : Nat) : (s.rewatch p).mem = s.mem := by
  grind [State.rewatch, setPatch_mem]

@[simp] theorem State.startEngine_mem (s : State) (p e : Nat) (k : EngKind) (sc : Scope) (w : List DWord) (ptr : DWord) :
    (s.startEngine p e k sc w ptr).mem = s.mem := by
  grind [State.startEngine, setElem_mem]

@[simp] theorem State.startColl_mem (s : State) (p e : Nat) (w : List DWord) (ptr : DWord) :
    (s.startColl p e w ptr).mem = s.mem := by
  grind [State.startColl, setElem_mem]

theorem State.counterFault_sound {s : State} {p e : Nat} {half : List DWord} {a : Accept}
    (h : s.counterFault p e half = some a) :
    a.Sound := by
  obtain ⟨c, -, hc⟩ := List.exists_of_findSome?_eq_some h
  dsimp only at hc
  split at hc
  · split at hc <;> cases hc
    trivial
  · cases hc
    trivial
  · cases hc
    trivial

theorem State.acceptBlock_sound {s : State} (h : s.mem.wf = true) (p e : Nat) (k : EngKind) (sc : Scope) (ptr : DWord)
    (w : List DWord) :
    (s.acceptBlock p e k sc ptr w).Sound := by
  cases k <;> grind [State.acceptBlock, Accept.Sound, setPatch_mem, State.startEngine_mem, State.startColl_mem,
      → State.counterFault_sound]

theorem State.acceptEngine_sound {s : State} (h : s.mem.wf = true) (p e : Nat) (k : EngKind) (sc : Scope) (ptr : DWord) :
    (s.acceptEngine p e k sc ptr).Sound := by
  grind [State.acceptEngine, Accept.Sound, Via.Sound, State.readAll_sound, State.acceptBlock_sound]

@[simp] theorem State.watch_mem (s : State) : s.watch.mem = s.mem := by
  grind [State.watch]

theorem execTriggerEvaluate_goes (p t : Nat) (s : State) : Goes s (execTriggerEvaluate p t s) := by
  grind [execTriggerEvaluate, Goes, setPatch_mem, State.startEngine_mem]

@[simp] theorem State.setEngine_mem (s : State) (x : Engine) : (s.setEngine x).mem = s.mem := by
  grind [State.setEngine]

@[simp] theorem State.freezeEngine_mem (s : State) (x : Engine) (sub : Nat) (ptr : DWord) :
    (s.freezeEngine x sub ptr).mem = s.mem := by
  grind [State.freezeEngine, State.setEngine_mem]

@[simp] theorem State.engineStop_mem (s : State) (x : Engine) (c : Cause) (sub : Nat) (ptr : DWord) :
    (s.engineStop x c sub ptr).mem = s.mem := by
  grind [State.engineStop, State.setEngine_mem, State.freezeEngine_mem]

theorem State.engineRead_sound (n : Nat) (l : List (Place × Nat)) :
    ∀ {s : State} (v : DWord), s.mem.wf = true → (s.engineRead n v l).1.Sound := by
  induction l with
  | nil => exact fun _ h => h
  | cons x r ih =>
    intro s v h
    have hv := State.readVia_sound h (.engine n) .patch x.1 x.2 v
    unfold State.engineRead
    split
    · next bs t e =>
      rw [e] at hv
      have hr := ih (v + BitVec.ofNat 64 x.2) hv
      split
      · next e => rw [e] at hr; exact hr
      · exact hr
    · exact hv

/-- What an engine does with what it has read keeps the canonical form where its use of the bytes does. -/
theorem State.onRead_wf {s : State} (h : s.mem.wf = true) (x : Engine) {r : Via × DWord} (hr : r.1.Sound) {f : List Byte → State → State}
    (hf : ∀ bs t, t.mem.wf = true → (f bs t).mem.wf = true) : (s.onRead x r f).mem.wf = true := by
  obtain ⟨v, d⟩ := r
  cases v with
  | wait t sent => cases sent <;> assumption
  | got bs t => exact hf bs t hr
  | fault c sub t => exact (congrArg Memory.wf (State.engineStop_mem ..)).trans hr

@[simp] theorem State.enginePull_mem (s : State) (x : Engine) (v : DWord) : (s.enginePull x v).mem = s.mem := by
  grind [State.enginePull, State.setEngine_mem]

theorem State.onSpan_wf {s : State} (h : s.mem.wf = true) (x : Engine) (v : DWord) (off align n : Nat) {f : List (Place × Nat) → State}
    (hf : ∀ l, (f l).mem.wf = true) : (s.onSpan x v off align n f).mem.wf = true := by
  unfold State.onSpan
  split
  · simpa using h
  · simpa using h
  · exact hf _

@[simp] theorem State.engineWrite_mem (s : State) (x : Engine) (k : Nat) (off align : Nat) (bs : List Byte) (moved : Nat) :
    (s.engineWrite x k off align bs moved).mem = s.mem := by
  simp only [State.engineWrite, State.onSpan]
  split <;> simp

theorem State.copyRead_wf {s : State} (h : s.mem.wf = true) (x : Engine) (k : Nat) (l : List (Place × Nat)) :
    (s.copyRead x k l).mem.wf = true := by
  refine State.onRead_wf h x (State.engineRead_sound _ _ _ h) fun _ _ _ => ?_
  have hp := (congrArg Memory.wf (s.present_mem (.engine x.n) k [false] (l.flatMap (fun y => wordsAt y.1.addr y.2)))).trans h
  dsimp only
  split
  · exact State.onRead_wf hp x (State.engineRead_sound _ _ _ hp) fun _ _ ht => ht
  · exact hp

theorem State.copyStep_wf {s : State} (h : s.mem.wf = true) (x : Engine) (k : Nat) : (s.copyStep x k).mem.wf = true := by
  grind [State.copyStep, State.onSpan_wf, State.engineWrite_mem, State.copyRead_wf]

theorem State.indexStep_wf {s : State} (h : s.mem.wf = true) (x : Engine) (c : Nat) : (s.indexStep x c).mem.wf = true := by
  unfold State.indexStep
  extract_lets n
  split
  · exact h
  · refine State.onSpan_wf h x _ _ _ _ fun l => State.onRead_wf h x (State.engineRead_sound _ _ _ h) fun _ _ _ => ?_
    have hp := (congrArg Memory.wf (s.presentWords_mem (.engine x.n) (pieceId c) [false] (l.flatMap (fun y => wordsAt y.1.addr y.2)))).trans h
    dsimp only
    split
    · exact State.onRead_wf hp x (State.engineRead_sound _ _ _ hp) fun _ _ ht => ht
    · exact hp

theorem State.collect_wf (l : List Nat) : ∀ {s : State} (x : Engine), s.mem.wf = true → (s.collect x l).mem.wf = true := by
  induction l with
  | nil => exact fun _ h => h
  | cons i r ih =>
    intro s x h
    unfold State.collect
    grind [Via.Sound, State.dropAnswers_mem, State.setEngine_mem, State.engineStop_mem, State.engineRead_sound,
        State.enginePull_mem]

@[simp] theorem State.spread_mem (base : DWord) (at_ : Nat → Nat) (l : List Nat) :
    ∀ (s : State) (x : Engine), (s.spread x base at_ l).mem = s.mem := by
  induction l with
  | nil => exact fun _ _ => rfl
  | cons i r ih =>
    intro s x
    simp only [State.spread]
    split <;> simp [ih]

theorem State.fetch_wf (l : List Nat) : ∀ {s : State} (x : Engine), s.mem.wf = true → (s.fetch x l).mem.wf = true := by
  induction l with
  | nil => exact fun _ h => h
  | cons i r ih =>
    intro s x h
    unfold State.fetch
    grind [Via.Sound, State.presentWords_mem, State.dropAnswers_mem, State.setEngine_mem, State.engineStop_mem,
        State.engineRead_sound, State.enginePull_mem]

theorem State.burstStep_wf {s : State} (h : s.mem.wf = true) (x : Engine) (i : Nat) : (s.burstStep x i).mem.wf = true := by
  grind [State.burstStep, State.onSpan_wf, State.engineWrite_mem, State.collect_wf, State.spread_mem, State.fetch_wf]

theorem execGatherBurst_goes (n k : Nat) (s : State) : Goes s (execGatherBurst n k s) := by
  grind [execGatherBurst, Goes, State.burstStep_wf]

@[simp] theorem State.report_mem (s : State) (p : Nat) (cause : Word) (val : DWord) : (s.report p cause val).mem = s.mem := by
  grind [State.report, setPatch_mem]

@[simp] theorem State.cmdDone_mem (s : State) (n : Nat) : (s.cmdDone n).mem = s.mem := by
  grind [State.cmdDone]

@[simp] theorem State.engineLate_mem (s : State) (x : Engine) (c : Cause) (sub : Nat) (ptr : DWord) :
    (s.engineLate x c sub ptr).mem = s.mem := by
  grind [State.engineLate, State.freezeEngine_mem, State.report_mem, State.cmdDone_mem]

@[simp] theorem State.engineRecord_mem (s : State) (x : Engine) : (s.engineRecord x).mem = s.mem := by
  grind [State.engineRecord, State.issueStores_mem, State.setEngine_mem, State.enginePull_mem, State.report_mem,
      State.cmdDone_mem, State.engineLate_mem]

@[simp] theorem State.engineLeft_mem (s : State) (x : Engine) : (s.engineLeft x).mem = s.mem := by
  grind [State.engineLeft, State.cmdDone_mem]

@[simp] theorem State.flagRemote_mem (s : State) (x : Engine) (m : Nat) (pl : Place) : (s.flagRemote x m pl).mem = s.mem := by
  grind [State.flagRemote, → State.post_mem, State.engineLate_mem, State.engineLeft_mem]

theorem State.engineFlag_wf {s : State} (h : s.mem.wf = true) (x : Engine) : (s.engineFlag x).mem.wf = true := by
  grind [State.engineFlag, Perf.Sound, State.tryOwner_sound, State.engineLate_mem, State.engineLeft_mem, State.flagRemote_mem]

theorem execEngineComplete_goes (n : Nat) (s : State) : Goes s (execEngineComplete n s) := by
  grind [execEngineComplete, Goes, State.engineRecord_mem, State.engineFlag_wf]

@[simp] theorem State.stopEngine_mem (s : State) (x : Engine) (status : Nat) : (s.stopEngine x status).mem = s.mem := by
  grind [State.stopEngine, State.issueStores_mem, State.setEngine_mem]

@[simp] theorem State.prunePartly_mem (s : State) (p e : Nat) : (s.prunePartly p e).mem = s.mem := by
  grind [State.prunePartly, setElem_mem]

@[simp] theorem State.fireCheck_mem (s : State) (p e id : Nat) : (s.fireCheck p e id).mem = s.mem := by
  grind [State.fireCheck, State.elemFault_mem]

@[simp] theorem State.disposeRetry_mem (s : State) (p e n : Nat) : (s.disposeRetry p e n).mem = s.mem := by
  grind [State.disposeRetry, setElem_mem, State.fireCheck_mem]

@[simp] theorem State.fireEntry_mem (s : State) (p e id : Nat) (m : Match) (tag : BitVec 12) :
    (s.fireEntry p e id m tag).mem = s.mem := by
  grind [State.fireEntry, setElem_mem, State.moved_mem, State.fireCheck_mem]

theorem execBlockFire_goes (p e b : Nat) (tag : BitVec 12) (s : State) : Goes s (execBlockFire p e b tag s) := by
  grind [execBlockFire, Goes, setElem_mem, State.prunePartly_mem, State.fireEntry_mem]

@[simp] theorem State.ereplayDiscard_mem (s : State) (p : Nat) : (s.ereplayDiscard p).mem = s.mem := by
  grind [State.ereplayDiscard, State.disposeDiscard_mem, State.clearNamed_mem]

@[simp] theorem State.ereplayRetry_mem (s : State) (p : Nat) : (s.ereplayRetry p).mem = s.mem := by
  grind [State.ereplayRetry, State.clearNamed_mem, State.disposeRetry_mem]

theorem execCsrw_goes (a : BitVec 5) (c : BitVec 12) (s : State) : Goes s (execCsrw a c s) := by
  grind [execCsrw, Goes, runSeq_mem, State.ereplayDiscard_mem, State.ereplayRetry_mem]

theorem execEreplayDiscard_goes (p : Nat) (s : State) : Goes s (execEreplayDiscard p s) := by
  grind [execEreplayDiscard, Goes, State.ereplayDiscard_mem]

theorem execEreplayRetry_goes (p : Nat) (s : State) : Goes s (execEreplayRetry p s) := by
  grind [execEreplayRetry, Goes, State.ereplayRetry_mem]

theorem execXret_goes (s : State) : Goes s (execXret s) := by
  grind [execXret, Goes, runSeq_mem, State.clearNamed_mem, State.ereplayRetry_mem]

end Sys2Proof.Machine
end

section
/-! SUPPORT. Commits, routers, ordering steps and progress keep the canonical form of memory. -/

namespace Sys2Proof.Machine

@[simp] theorem State.presentAll_mem (s : State) (ag : AgentId) (n : Nat) (sides : List Bool) (words : List Nat) :
    (s.presentAll ag n sides words).1.mem = s.mem := by
  grind [State.presentAll, State.presentWords_mem]

@[simp] theorem State.enterAtomic_mem (s : State) (p e n : Nat) (acc : Access) : (s.enterAtomic p e n acc).mem = s.mem := by
  grind [State.enterAtomic]

@[simp] theorem State.leaveAtomic_mem (s : State) (p e n : Nat) : (s.leaveAtomic p e n).mem = s.mem := by
  grind [State.leaveAtomic]

theorem State.irrevocable_sound {s : State} (h : s.mem.wf = true) (p e : Nat) (i : Inst) : (s.irrevocable p e i).Sound := by
  have hu (ws : List Nat) : (ws.zipIdx.foldl (fun s w => s.unpresent (.elem p e) (irrId i.id w.2) w.1) s).mem.wf = true :=
    (congrArg Memory.wf (foldl_mem (fun _ _ => State.unpresent_mem ..) _ s)).trans h
  have hp (n : Nat) (l : List Bool) (ws : List Nat) := (congrArg Memory.wf (s.presentAll_mem (.elem p e) n l ws)).trans h
  have ha {t : State} (ht : t.mem.wf = true) (pl : Place) (sc : Scope) (acq rel : Bool) (op : OwnOp) (ptr : DWord) :=
    State.tryOwner_sound ht (.elem p e) (t.partOf p) pl sc acq rel op ptr
  unfold State.irrevocable
  split
  · exact h
  · exact h
  · grind [Step1.Sound, Via.Sound, State.unpresent_mem, State.atomVia_sound, State.enterAtomic_mem, State.leaveAtomic_mem]
  · grind [Step1.Sound, Perf.Sound, State.tryOwner_sound]
  · grind [Step1.Sound, Accept.Sound, State.acceptEngine_sound]

theorem State.accsts_wf (p e : Nat) (l : List (Nat × Eff)) :
    ∀ {s : State}, s.mem.wf = true → (s.accsts p e l).mem.wf = true := by
  induction l with
  | nil => exact id
  | cons x r ih =>
    intro s h
    unfold State.accsts
    split
    · exact h
    · next e => cases e; exact ih (State.ownMark_wf (State.ownWrite_wf (State.flushWords_wf h _) _ _) _ _)
    · next e => cases e; exact ih h

@[simp] theorem State.setHandleHalf_mem (s : State) (p e : Nat) (i : Inst) (x : Nat) :
    (s.setHandleHalf p e i x).mem = s.mem := by
  grind [State.setHandleHalf, setElem_mem]

theorem State.commitEff_wf {s : State} (h : s.mem.wf = true) (p e : Nat) (x : Eff) : (s.commitEff p e x).mem.wf = true := by
  cases x with
  | thaw d k => simpa [State.commitEff] using h
  | bubl d k m => simpa [State.commitEff] using State.bublPort_wf h p k m
  | arm o r => grind [State.commitEff, State.modElem_mem]
  | _ => simpa [State.commitEff] using h

theorem State.applyCommit_wf {s : State} (h : s.mem.wf = true) (p e : Nat) (i : Inst) (irr : DWord)
    (caps : List (List (DWord × Nat))) :
    (s.applyCommit p e i irr caps).mem.wf = true := by
  have hv (x : Elem) (l : List Store) : ((((s.setElem p e x).moved p e).removeSlots p e i).issueStores (.elem p e) l).mem.wf = true := by
    simpa using h
  have hh (l : List Nat) {t : State} (ht : t.mem.wf = true) : (l.foldl (fun s x => s.setHandleHalf p e i x) t).mem.wf = true :=
    foldl_wf (fun _ _ h => by simpa using h) l t ht
  have he (l : List Eff) {t : State} (ht : t.mem.wf = true) : (l.foldl (fun s x => s.commitEff p e x) t).mem.wf = true :=
    foldl_wf (fun _ _ h => State.commitEff_wf h ..) l t ht
  grind [State.applyCommit, State.modElem_mem]

@[simp] theorem State.commitFault_mem (s : State) (p e : Nat) (i : Inst) (w : Nat) (c : Cause) (sub : Nat)
    (val : Option DWord) :
    (s.commitFault p e i w c sub val).mem = s.mem := by
  grind [State.commitFault, State.elemFault_mem]

@[simp] theorem State.commitWait_mem (s : State) (p e : Nat) (i : Inst) : (s.commitWait p e i).mem = s.mem := by
  grind [State.commitWait, State.putInst_mem]

theorem State.commitCheck_mem {s t : State} {p e : Nat} {i : Inst} (h : s.commitCheck p e i = .error t) : t.mem = s.mem := by
  grind [State.commitCheck, State.commitFault_mem]

theorem State.onStep_wf {s : State} (h : s.mem.wf = true) (p e : Nat) (i : Inst) {x : Step1} (hx : x.Sound) {f : State → DWord → State}
    (hf : ∀ t r, t.mem.wf = true → (f t r).mem.wf = true) : (s.onStep p e i x f).mem.wf = true := by
  cases x <;> grind [State.onStep, Step1.Sound, State.putInst_mem, State.elemFreeze_mem, State.dropRefusals_mem,
      State.commitFault_mem, State.commitWait_mem]

theorem State.rotationPerform_wf {s : State} (h : s.mem.wf = true) (p e : Nat) (i : Inst) :
    (s.rotationPerform p e i).mem.wf = true := by
  have hgo (j k : Inst) (x : Irr) : (s.onStep p e j (s.irrevocable p e k) (fun s r =>
      s.putInst p e { j with irr := .done x r, since := none, waited := 0 })).mem.wf = true :=
    State.onStep_wf h p e j (State.irrevocable_sound h p e k) fun _ _ ht => by simpa using ht
  unfold State.rotationPerform
  split
  · extract_lets ws j go
    split
    · exact hgo _ _ _
    · split
      · exact h
      · split
        · exact (congrArg Memory.wf (State.commitWait_mem ..)).trans h
        · split
          · next e => exact (congrArg Memory.wf (State.commitCheck_mem e)).trans h
          · exact hgo _ _ _
  · exact h

theorem State.afterReply_wf {s : State} (h : s.mem.wf = true) (p e : Nat) (i : Inst) : (s.afterReply p e i).mem.wf = true := by
  refine State.onStep_wf h p e i (State.irrevocable_sound h p e i) fun _ _ ht => ?_
  split
  · exact State.applyCommit_wf (State.accsts_wf _ _ _ ht) ..
  · simpa using ht

theorem execInstanceCommit_goes (p e n : Nat) (s : State) : Goes s (execInstanceCommit p e n s) := by
  have hs (j : Inst) (caps : List (List (DWord × Nat))) (h : s.mem.wf = true) : (s.onStep p e j (s.irrevocable p e j) (fun s r =>
      (s.accsts p e j.effs).applyCommit p e j r caps)).mem.wf = true :=
    State.onStep_wf h p e j (State.irrevocable_sound h p e j) fun _ _ ht => State.applyCommit_wf (State.accsts_wf _ _ _ ht) ..
  unfold execInstanceCommit
  extract_lets v
  split
  · exact id
  · split
    · exact id
    · split
      · exact fun h => State.rotationPerform_wf h ..
      · split
        · exact fun h => State.afterReply_wf h ..
        · split
          · exact id
          · split
            · next e => exact fun h => (congrArg Memory.wf (State.commitCheck_mem e)).trans h
            · extract_lets ws j
              split
              · exact fun h => (congrArg Memory.wf (State.commitWait_mem ..)).trans h
              · exact hs _ _

theorem State.flushRegion_wf {s : State} (h : s.mem.wf = true) (p e va n : Nat) : (s.flushRegion p e va n).mem.wf = true := by
  grind [State.flushRegion, State.ownFlush_wf]

theorem State.putRegion_wf {s : State} (h : s.mem.wf = true) (p e a : Nat) (x : List Byte × List Bool) :
    (s.putRegion p e a x).mem.wf = true := by
  grind [State.putRegion, State.settleEntry_wf]

theorem State.rotateData_wf {s : State} (h : s.mem.wf = true) (p : Nat) (l : List (Nat × Inst)) :
    (s.rotateData p l).mem.wf = true := by
  refine foldl_wf (fun _ _ ht => State.putRegion_wf ht ..) _ _ (foldl_wf (fun t x ht => ?_) _ _ h)
  split
  · exact State.flushRegion_wf ht ..
  · exact ht

theorem State.commitRot_wf {s : State} (h : s.mem.wf = true) (p e : Nat) (i : Inst) : (s.commitRot p e i).mem.wf = true := by
  grind [State.commitRot, State.modElem_mem, State.applyCommit_wf]

theorem State.accstsAll_wf {s : State} (h : s.mem.wf = true) (p : Nat) (l : List (Nat × Inst)) :
    (s.accstsAll p l).mem.wf = true :=
  foldl_wf (fun _ _ ht => State.accsts_wf _ _ _ ht) _ _ h

theorem execRrotRotate_goes (p : Nat) (s : State) : Goes s (execRrotRotate p s) := by
  have hf (l : List (Nat × Inst)) : (l.foldl (fun s x => s.commitFault p x.1 x.2 ((s.elem p x.1).rotWord x.2) .illop 2 none) s).mem = s.mem :=
    foldl_mem (fun _ _ => State.commitFault_mem ..) l s
  have hr (l : List (Nat × Inst)) (h : s.mem.wf = true) :
      (l.foldl (fun s x => s.commitRot p x.1 x.2) ((s.accstsAll p l).rotateData p l)).mem.wf = true :=
    foldl_wf (fun _ _ ht => State.commitRot_wf ht ..) l _ (State.rotateData_wf (State.accstsAll_wf h p l) p l)
  unfold execRrotRotate
  split
  · exact id
  · extract_lets l ready
    split
    · exact fun h => (congrArg Memory.wf (hf l)).trans h
    · split
      · exact id
      · split
        · next t e =>
          obtain ⟨x, -, hx⟩ := List.exists_of_findSome?_eq_some e
          intro h
          grind [→ State.commitCheck_mem]
        · exact hr l

theorem execNop_goes (s : State) : Goes s (execNop s) := by
  grind [execNop, Goes]

theorem execEndList_goes (s : State) : Goes s (execEndList s) := by
  grind [execEndList, Goes]

@[simp] theorem State.leave_mem (s : State) (p e o c : Nat) (u : QUnit) : (s.leave p e o c u).mem = s.mem := by
  grind [State.leave, State.modElem_mem]

theorem execRouterForward_goes (p e i c : Nat) (s : State) : Goes s (execRouterForward p e i c s) := by
  have hl (outs : List Nat) (u : QUnit) (t : State) : (outs.foldl (fun s o => s.leave p e o c u) t).mem = t.mem :=
    foldl_mem (fun _ _ => State.leave_mem ..) outs t
  unfold execRouterForward
  extract_lets v x slot free outs
  split
  · exact id
  · split
    · exact id
    · split
      · exact id
      · exact fun h => by simpa [hl] using h

theorem execGeneratorEmit_goes (p e o : Nat) (s : State) : Goes s (execGeneratorEmit p e o s) := by
  grind [execGeneratorEmit, Goes, State.modElem_mem]

theorem execEmitterSend_goes (p e o : Nat) (s : State) : Goes s (execEmitterSend p e o s) := by
  grind [execEmitterSend, Goes, State.modElem_mem]

@[simp] theorem State.scaleSend_mem (s : State) (p e : Nat) : (s.scaleSend p e).mem = s.mem := by
  unfold State.scaleSend
  extract_lets l
  split
  · rfl
  · split
    · rfl
    · exact (foldl_mem (fun _ _ => State.modElem_mem ..) _ _).trans (State.modElem_mem ..)

theorem execScaleTokenArrive_goes (p e : Nat) (s : State) : Goes s (execScaleTokenArrive p e s) := by
  grind [execScaleTokenArrive, Goes, State.modElem_mem, State.scaleSend_mem]

theorem execBufferStep_goes (a : AgentId) (n : Nat) (s : State) : Goes s (execBufferStep a n s) := by
  grind [execBufferStep, Goes]

@[simp] theorem State.setVf_mem (s : State) (n : Nat) (v : Vf) : (s.setVf n v).mem = s.mem := by
  grind [State.setVf]

@[simp] theorem State.freezeVf_mem (s : State) (vf part sub : Nat) (fa : DWord) (a : HostAccess) :
    (s.freezeVf vf part sub fa a).mem = s.mem := by
  grind [State.freezeVf, State.setVf_mem]

@[simp] theorem State.freezeAgent_mem (s : State) (ag : AgentId) (sub : Nat) (fa : DWord) (again : Option Undone) :
    (s.freezeAgent ag sub fa again).mem = s.mem := by
  cases ag with
  | elem p e => simp only [State.freezeAgent]; split <;> simp
  | seq p => simp only [State.freezeAgent]; split <;> simp
  | engine n => simp only [State.freezeAgent]; split <;> simp
  | _ => simp [State.freezeAgent]

@[simp] theorem State.reportAgent_mem (s : State) (ag : AgentId) (cause : Word) (fa : DWord) :
    (s.reportAgent ag cause fa).mem = s.mem := by
  grind [State.reportAgent, State.report_mem]

theorem State.postWr_mem {s : State} {n : Nat} {a : Asked} {k : Packet} {t' : State} (e : s.postWr n a k = some t') :
    t'.mem = s.mem := by
  obtain ⟨u, hu, rfl⟩ := Option.map_eq_some_iff.mp e
  exact (State.post_mem hu :)

@[simp] theorem State.sendWrites_mem (x : VisEntry) (l : List (Nat × List Byte)) :
    ∀ s : State, (s.sendWrites x l).mem = s.mem := by
  induction l with
  | nil => exact fun _ => rfl
  | cons y r ih =>
    intro s
    unfold State.sendWrites
    grind [→ State.request_mem, State.engineStop_mem, State.engineLate_mem, State.reportAgent_mem, → State.postWr_mem]

@[simp] theorem State.emptyWrite_mem (s : State) (x : Access) (st : Store) : (s.emptyWrite x st).mem = s.mem := by
  grind [State.emptyWrite, State.sendWrites_mem]

theorem State.tryPlace_wf {s : State} (h : s.mem.wf = true) (x : Access) (st : Store) : (s.tryPlace x st).mem.wf = true := by
  grind [State.tryPlace, State.placeStore_wf, State.present_mem, State.emptyWrite_mem]

theorem execPlaceStep_goes (a : AgentId) (n : Nat) (s : State) : Goes s (execPlaceStep a n s) := by
  grind [execPlaceStep, Goes, State.tryPlace_wf]

theorem State.drain_wf {s : State} (h : s.mem.wf = true) (b : VisId) (x : VisEntry) : (s.drain b x).mem.wf = true := by
  grind [State.drain, State.enter_mem, State.settleEntry_wf, State.sendWrites_mem]

theorem execDrainStep_goes (b : VisId) (n : Nat) (s : State) : Goes s (execDrainStep b n s) := by
  grind [execDrainStep, Goes, State.drain_wf]

@[simp] theorem State.hostPut_mem (s : State) (vf n k : Nat) (bs : List Byte) : (s.hostPut vf n k bs).mem = s.mem := by
  grind [State.hostPut]

@[simp] theorem State.hostFree_mem (s : State) (vf n k size : Nat) : (s.hostFree vf n k size).mem = s.mem := by
  grind [State.hostFree, State.hostPut_mem]

@[simp] theorem State.deliver_mem (s : State) (x : Access) (dst : Dest) (bs : List Byte) :
    (s.deliver x dst bs).mem = s.mem := by
  cases dst with
  | inst p e n d size signed wreg => simp only [State.deliver]; split <;> simp
  | _ => simp [State.deliver]

@[simp] theorem State.loadFail_mem (s : State) (x : Access) (dst : Dest) (c : Cause) (sub : Nat) :
    (s.loadFail x dst c sub).mem = s.mem := by
  cases dst with
  | inst p e n d size signed wreg => simp only [State.loadFail]; split <;> [split; skip] <;> simp
  | host vf n k => simp only [State.loadFail]; split <;> simp
  | _ => simp [State.loadFail]

theorem State.tryRead_wf {s : State} (h : s.mem.wf = true) (x : Access) (a size : Nat) (dst : Dest) :
    (s.tryRead x a size dst).mem.wf = true := by
  have hhere {t : State} (ht : t.mem.wf = true) : (if (t.readWith x [] a size).isNone then t
      else
        let (s, ok) := t.present x.agent x.id [false] x.words
        if !ok then s
        else match s.readWith x [] a size with
          | some (bs, s) => (s.dropAccess x.agent x.id).deliver x dst bs
          | none => s).mem.wf = true := by
    have hp := (congrArg Memory.wf (t.present_mem x.agent x.id [false] x.words)).trans ht
    grind [State.dropAccess_mem, → State.readWith_mem, State.deliver_mem]
  unfold State.tryRead
  extract_lets here
  split
  · exact h
  · split
    · exact hhere h
    · next m hm =>
      have hv := State.via_sound h x.agent (some x.id) x.place size false x.fa
        (packet 0 x.scope m (s.identOf (s.agentPart x.agent)) size 0 0 x.place.pa [])
      split
      · next e => rw [e] at hv; exact hv
      · next e => rw [e] at hv; exact hhere (Memory.wf_write _ _ _ hv)
      · next e => rw [e] at hv; exact (congrArg Memory.wf (State.loadFail_mem ..)).trans hv

theorem execReadStep_goes (a : AgentId) (n : Nat) (s : State) : Goes s (execReadStep a n s) := by
  unfold execReadStep
  split
  · split
    · split
      · split
        · exact fun h => State.indexStep_wf h ..
        · exact fun h => State.copyStep_wf h ..
      · exact id
    · exact id
  · split
    · split
      · exact fun h => State.tryRead_wf h ..
      · exact id
    · exact id

theorem execOwnerStep_goes (a : AgentId) (n : Nat) (s : State) : Goes s (execOwnerStep a n s) := by
  unfold execOwnerStep
  split
  · next x _ =>
    split
    · exact id
    · next op _ _ =>
      extract_lets ws
      split
      · exact id
      · have hv (pl : Place) (inc : DWord) (sc : Scope) (acq rel : Bool) (fa : DWord) (h : s.mem.wf = true) :=
          State.atomVia_sound h a (some n) .add false pl inc 0 sc acq rel fa
        have hp (h : s.mem.wf = true) := (congrArg Memory.wf (s.present_mem a n [false, true] x.words)).trans h
        split
        · split <;> grind [Goes, Via.Sound, State.dropAccess_mem, State.freezeAgent_mem, State.reportAgent_mem]
        · split
          split
          · grind [Goes]
          · split <;> grind [Goes, Perf.Sound, State.dropAccess_mem, State.perform_sound]
    · exact id
  · exact id

theorem execEngineReplay_goes (n id : Nat) (s : State) : Goes s (execEngineReplay n id s) := by
  grind [execEngineReplay, execGatherBurst_goes, execReadStep_goes]

/-- A step from a machine whose memory is as canonical as the one before. -/
theorem Goes.of_wf {s t : State} {r : Res} (hs : s.mem.wf = true → t.mem.wf = true) (h : Goes t r) : Goes s r := by
  cases r with
  | next u => exact fun w => h (hs w)
  | fault f => exact h
  | refused q => exact h

theorem execBankReplay_goes (p e : Nat) (s : State) : Goes s (execBankReplay p e s) := by
  unfold execBankReplay
  extract_lets v
  split
  · exact id
  · next r _ =>
    extract_lets t
    have hs (h : s.mem.wf = true) : t.mem.wf = true := (congrArg Memory.wf (setElem_mem ..)).trans h
    split
    · split
      · split
        · exact (execEngineReplay_goes ..).of_wf hs
        · exact fun h => (congrArg Memory.wf (setElem_mem ..)).trans h
      · split
        · exact id
        · exact fun h => (congrArg Memory.wf (setElem_mem ..)).trans h
    · split
      · exact fun h => State.tryPlace_wf (hs h) ..
      · exact fun h => State.tryRead_wf (hs h) ..
      · exact (execOwnerStep_goes ..).of_wf hs

theorem execInstallStep_goes (p e q : Nat) (s : State) : Goes s (execInstallStep p e q s) := by
  grind [execInstallStep, Goes, State.modElem_mem]

theorem execFrontCountExchange_goes (p : Nat) (s : State) : Goes s (execFrontCountExchange p s) := by
  grind [execFrontCountExchange, Goes, setPatch_mem]

theorem execFeTimeout_goes (p e n : Nat) (s : State) : Goes s (execFeTimeout p e n s) := by
  grind [execFeTimeout, Goes, State.commitFault_mem]

@[simp] theorem State.sendProbes_mem (s : State) (p e origin round : Nat) (path : List Nat) :
    (s.sendProbes p e origin round path).mem = s.mem := by
  unfold State.sendProbes
  exact foldl_mem (fun _ _ => by rfl) _ s

theorem execDeadlockProbe_goes (p e : Nat) (s : State) : Goes s (execDeadlockProbe p e s) := by
  grind [execDeadlockProbe, Goes, setElem_mem, State.sendProbes_mem]

@[simp] theorem State.deadlock_mem (s : State) (p : Nat) (path : List Nat) : (s.deadlock p path).mem = s.mem := by
  grind [State.deadlock, setPatch_mem]

theorem execProbeForward_goes (q n : Nat) (s : State) : Goes s (execProbeForward q n s) := by
  grind [execProbeForward, Goes, setElem_mem, State.sendProbes_mem, State.deadlock_mem]

end Sys2Proof.Machine
end

section
/-! SUPPORT. Configuration keeps the canonical form of memory. -/

namespace Sys2Proof.Machine

theorem State.initVault_wf {s : State} (h : s.mem.wf = true) (p e : Nat) (c : ElemConf) :
    (s.initVault p e c).mem.wf = true := by
  refine foldl_wf (fun t x ht => ?_) _ _ h
  split
  · exact Memory.wf_marks _ _ (Memory.wf_write _ _ _ (State.ownFlush_wf ht ..))
  · exact ht

theorem State.configure_wf {s : State} (h : s.mem.wf = true) (p : Nat) (m : SMap ElemConf) : (s.configure p m).mem.wf = true :=
  foldl_wf (fun _ _ ht => State.initVault_wf ht ..) _ _ ((congrArg Memory.wf (setPatch_mem ..)).trans h)

@[simp] theorem State.pulling_mem (s : State) (x : AgentId) : (s.pulling x).mem = s.mem := by
  cases x <;> simp [State.pulling]

theorem State.readCut_sound (ag : AgentId) (l : List (Place × DWord × Nat)) :
    ∀ {s : State}, s.mem.wf = true → (s.readCut ag l).Sound := by
  induction l with
  | nil => exact id
  | cons x r ih =>
    intro s h
    have hv := State.readVia_sound h ag .dev x.1 x.2.2 x.2.1
    unfold State.readCut
    grind [Via.Sound, Bulk.Sound, State.keepAnswers_mem]

theorem State.readPieces_sound (ag : AgentId) (part : Nat) (fa : DWord) (l : List (Nat × Nat)) :
    ∀ {s : State}, s.mem.wf = true → (s.readPieces ag part fa l).Sound := by
  induction l with
  | nil => exact id
  | cons x r ih =>
    intro s h
    unfold State.readPieces
    grind [Bulk.Sound, State.keepAnswers_mem, State.pulling_mem, State.readCut_sound]

theorem State.readFlat_sound {s : State} (h : s.mem.wf = true) (ag : AgentId) (part : Nat) (fa : DWord) (n : Nat) :
    (s.readFlat ag part fa n).Sound := by
  grind [State.readFlat, State.readPieces_sound]

theorem State.readRecord_sound {s : State} (h : s.mem.wf = true) (ag : AgentId) (part : Nat) (fa : DWord) :
    (s.readRecord ag part fa).Sound := by
  grind [State.readRecord, Bulk.Sound, State.keepAnswers_mem, State.readFlat_sound]

@[simp] theorem State.setPhase_mem (s : State) (p : Nat) (f : Phase) : (s.setPhase p f).mem = s.mem := by
  grind [State.setPhase, setPatch_mem]

@[simp] theorem State.cfgDone_mem (s : State) (d : BitVec 5) (st : Word) : (s.cfgDone d st).mem = s.mem := by
  grind [State.cfgDone, State.complete_mem]

@[simp] theorem State.cfgFail_mem (s : State) (d : BitVec 5) (st : Word) : (s.cfgFail d st).mem = s.mem := by
  grind [State.cfgFail, State.setPhase_mem, State.cfgDone_mem]

theorem State.cfgRecords_sound (p n : Nat) :
    ∀ {s : State} (_ : s.mem.wf = true) (fa : DWord) (f : Phase), (s.cfgRecords p fa n f).Sound := by
  induction n with
  | zero => exact fun h _ _ => h
  | succ k ih =>
    intro s h fa f
    have hr := State.readRecord_sound h (.seq p) (s.partOf p) fa
    unfold State.cfgRecords
    grind [CfgRun.Sound, Bulk.Sound, State.keepAnswers_mem]

theorem State.cfgRun_wf {s : State} {x : CfgRun} (h : x.Sound) (d : BitVec 5) (good : Phase → Nat → Bool) :
    (s.cfgRun d good x).mem.wf = true := by
  cases x <;> grind [State.cfgRun, CfgRun.Sound, State.flatFault_mem, State.setPhase_mem, State.cfgDone_mem, State.cfgFail_mem]

theorem execCfgpat_goes (d a : BitVec 5) (s : State) : Goes s (execCfgpat d a s) := by
  grind [execCfgpat, Goes, State.flatFault_mem, State.cfgDone_mem, State.cfgRecords_sound, State.cfgRun_wf]

theorem execCfgrect_goes (d a : BitVec 5) (s : State) : Goes s (execCfgrect d a s) := by
  grind [execCfgrect, Goes, State.setPhase_mem, State.cfgDone_mem, State.cfgFail_mem]

theorem execCfgld_goes (d a : BitVec 5) (s : State) : Goes s (execCfgld d a s) := by
  grind [execCfgld, Goes, CfgRun.Sound, Bulk.Sound, State.keepAnswers_mem, State.flatFault_mem, State.readFlat_sound,
      State.cfgDone_mem, State.cfgFail_mem, State.cfgRecords_sound, State.cfgRun_wf]

theorem execCfgabt_goes (s : State) : Goes s (execCfgabt s) := by
  grind [execCfgabt, Goes, State.complete_mem, State.setPhase_mem]

theorem execCfgcmt_goes (d : BitVec 5) (s : State) : Goes s (execCfgcmt d s) := by
  grind [execCfgcmt, Goes, State.setPhase_mem, State.cfgDone_mem]

theorem execConfigSwap_goes (p : Nat) (s : State) : Goes s (execConfigSwap p s) := by
  grind [execConfigSwap, Goes, setPatch_mem, State.configure_wf]

end Sys2Proof.Machine
end

section
/-! SUPPORT. Allocation, packets, loads' ends and the host keep the canonical form of memory. -/

namespace Sys2Proof.Machine

/-- Bytes and full words that are left out leave the rest in its canonical form. -/
theorem cellsWf_filter (f : Host.Cell → Bool) {l : List Host.Cell} (h : cellsWf l = true) : cellsWf (l.filter f) = true := by
  induction l with
  | nil => rfl
  | cons c r ih =>
    obtain ⟨hc, hr, hw⟩ := (cellsWf_cons_iff c r).1 h
    rw [List.filter_cons]
    split
    · exact (cellsWf_cons_iff c _).2 ⟨hc, fun d hd => hr d (List.mem_of_mem_filter hd), ih hw⟩
    · exact ih hw

theorem risingWf_filter (f : Nat → Bool) {l : List Nat} (h : risingWf l = true) : risingWf (l.filter f) = true := by
  induction l with
  | nil => rfl
  | cons c r ih =>
    obtain ⟨hr, hw⟩ := (risingWf_cons_iff c r).1 h
    rw [List.filter_cons]
    split
    · exact (risingWf_cons_iff c _).2 ⟨fun d hd => hr d (List.mem_of_mem_filter hd), ih hw⟩
    · exact ih hw

theorem Memory.wf_filter {m : Memory} (h : m.wf = true) (f : Host.Cell → Bool) (g : Nat → Bool) :
    Memory.wf ⟨m.cells.filter f, m.full.filter g⟩ = true := by
  obtain ⟨hc, hf⟩ := (Memory.wf_iff m).1 h
  exact (Memory.wf_iff _).2 ⟨cellsWf_filter f hc, risingWf_filter g hf⟩

theorem State.settleWhere_wf {s : State} (h : s.mem.wf = true) (f : VisEntry → Bool) : (s.settleWhere f).mem.wf = true := by
  refine foldl_wf (fun t e ht => ?_) _ _ h
  exact (congrArg Memory.wf (State.sendWrites_mem ..)).trans (State.settleEntry_wf ht e)

theorem State.settleVaults_wf {s : State} (h : s.mem.wf = true) (p : Nat) : (s.settleVaults p).mem.wf = true := by
  grind [State.settleVaults, State.settleWhere_wf]

theorem State.settlePatch_wf {s : State} (h : s.mem.wf = true) (p : Nat) : (s.settlePatch p).mem.wf = true := by
  grind [State.settlePatch, State.settleWhere_wf]

theorem State.clearVaults_wf {s : State} (h : s.mem.wf = true) (p : Nat) : (s.clearVaults p).mem.wf = true :=
  Memory.wf_filter (State.settleVaults_wf h p) _ _

@[simp] theorem State.dropAgents_mem (s : State) (p : Nat) : (s.dropAgents p).mem = s.mem := by
  grind [State.dropAgents]

theorem State.releasePatch_wf {s : State} (h : s.mem.wf = true) (p : Nat) : (s.releasePatch p).mem.wf = true := by
  grind [State.releasePatch, setPatch_mem, State.settlePatch_wf, State.dropAgents_mem]

theorem State.resetPatch_wf {s : State} (h : s.mem.wf = true) (p : Nat) : (s.resetPatch p).mem.wf = true := by
  grind [State.resetPatch, setPatch_mem, State.clearVaults_wf, State.dropAgents_mem]

theorem State.putVault_wf {s : State} (h : s.mem.wf = true) (p e : Nat) (x : List Host.Cell × List Nat) :
    (s.putVault p e x).mem.wf = true :=
  Memory.wf_marks _ _ (Memory.wf_puts _ _ h)

theorem State.writeFrame_wf {s : State} (h : s.mem.wf = true) (n f : Nat) : (s.writeFrame n f).mem.wf = true := by
  unfold State.writeFrame
  split
  · exact h
  · refine foldl_wf (fun t x ht => ?_) _ _ h
    split
    · exact Memory.wf_write _ _ _ (State.ownFlush_wf ht ..)
    · exact ht

theorem State.readOut_wf {s : State} (h : s.mem.wf = true) (l : Load) : (s.readOut l).mem.wf = true := by
  unfold State.readOut
  extract_lets fs
  split
  · exact (congrArg Memory.wf (State.modLoad_mem ..)).trans (foldl_wf (fun _ _ ht => State.writeFrame_wf ht ..) _ _ h)
  · exact h

theorem State.readOuts_wf {s : State} (h : s.mem.wf = true) : s.readOuts.mem.wf = true := by
  refine foldl_wf (fun t l ht => ?_) _ _ h
  split
  · exact State.readOut_wf ht l
  · exact ht

theorem State.restorePatch_wf {s : State} (h : s.mem.wf = true) (l : Load) (lp p : Nat) (sv : Saved) (img : PatchImage) :
    (s.restorePatch l lp p sv img).mem.wf = true := by
  refine (congrArg Memory.wf (setPatch_mem ..)).trans (foldl_wf (fun _ _ ht => State.putVault_wf ht ..) _ _ ?_)
  refine foldl_wf (fun t c ht => ?_) _ _ (State.resetPatch_wf h p)
  split
  · exact ht
  · exact State.initVault_wf ht ..

@[simp] theorem State.refront_mem (s : State) (p : Nat) : (s.refront p).mem = s.mem := by
  grind [State.refront, setPatch_mem]

theorem State.restoreAll_wf (l : Load) (x : List (Nat × Nat)) :
    ∀ {s : State}, s.mem.wf = true → (s.restoreAll l x).mem.wf = true := by
  induction x with
  | nil => exact id
  | cons y r ih =>
    intro s h
    unfold State.restoreAll
    split
    · exact ih (State.restorePatch_wf h ..)
    · exact ih h

@[simp] theorem State.toFull_mem (s : State) : s.toFull.mem = s.mem := by
  grind [State.toFull]

@[simp] theorem State.joinFull_mem (s : State) (p : Nat) : (s.joinFull p).mem = s.mem := by
  grind [State.joinFull, setPatch_mem, State.toFull_mem]

@[simp] theorem State.requeue_mem (s : State) (l : Load) (ps : List Nat) : (s.requeue l ps).mem = s.mem := by
  grind [State.requeue]

theorem State.standOn_wf {s : State} (h : s.mem.wf = true) (l : Load) (ps : List Nat) : (s.standOn l ps).mem.wf = true := by
  refine (congrArg Memory.wf (foldl_mem (fun _ _ => by simp) _ _)).trans ((congrArg Memory.wf (State.setLoad_mem ..)).trans ?_)
  refine (congrArg Memory.wf (State.requeue_mem ..)).trans (State.restoreAll_wf _ _ ?_)
  exact (congrArg Memory.wf (State.setLoad_mem ..)).trans h

@[simp] theorem State.resumeHeld_mem (s : State) (l : Load) : (s.resumeHeld l).mem = s.mem :=
  (State.modLoad_mem ..).trans ((foldl_mem (fun _ _ => State.refront_mem ..) _ _).trans (foldl_mem (fun _ _ => setPatch_mem ..) _ _))

@[simp] theorem State.onLoadPatch_mem (s : State) (l : Load) (lp : Nat) (f : Patch → Patch) :
    (s.onLoadPatch l lp f).mem = s.mem := by
  grind [State.onLoadPatch, setPatch_mem, State.modLoad_mem]

theorem Chk.bind_sound {α β : Type} {x : Chk α} (hx : x.Sound) (s : State) {f : α → State → Chk β}
    (hf : ∀ a t, t.mem.wf = true → (f a t).Sound) : (Chk.bind x s f).Sound := by
  cases x with
  | ok a t =>
    have h := hf a t hx
    unfold Chk.bind
    grind [Chk.Sound, State.keepAnswers_mem]
  | wait t => exact hx
  | fail c u fa t => exact hx

theorem State.cpRead_sound {s : State} (h : s.mem.wf = true) (part : Nat) (fa : DWord) (n : Nat) :
    (s.cpRead part fa n).Sound := by
  grind [State.cpRead, Chk.Sound, Bulk.Sound, State.readFlat_sound]

theorem State.counterCheck_sound (part : Nat) (l : List (Nat × DWord × Nat)) :
    ∀ {s : State}, s.mem.wf = true → (s.counterCheck part l).Sound := by
  induction l with
  | nil => exact id
  | cons c r ih =>
    intro s h
    unfold State.counterCheck
    split
    · exact h
    · split
      · exact h
      · split
        · exact h
        · exact h
        · split
          · exact h
          · exact Chk.bind_sound (ih h) s fun _ _ ht => ht

theorem State.readTriggers_sound (part : Nat) (l : List DWord) :
    ∀ {s : State}, s.mem.wf = true → (s.readTriggers part l).Sound := by
  induction l with
  | nil => exact id
  | cons c r ih =>
    intro s h
    unfold State.readTriggers
    split
    · exact h
    · refine Chk.bind_sound (State.cpRead_sound h ..) s fun bs t ht => ?_
      extract_lets w
      split
      · exact ht
      · refine Chk.bind_sound (State.counterCheck_sound _ _ ht) t fun _ u hu => ?_
        exact Chk.bind_sound (ih hu) u fun _ _ ht => ht

theorem State.cpImage_sound {s : State} (h : s.mem.wf = true) (part : Nat) (fa : DWord) : (s.cpImage part fa).Sound := by
  refine Chk.bind_sound (State.cpRead_sound h ..) s fun _ t ht => ?_
  split
  · exact ht
  · refine Chk.bind_sound (State.cpRead_sound ht ..) t fun _ u hu => ?_
    split <;> exact hu

theorem State.checkLaunch_sound {s : State} (h : s.mem.wf = true) (q : Queue) (w : List DWord) (at_ : DWord) :
    (s.checkLaunch q w at_).Sound := by
  have hr {t : State} (ht : t.mem.wf = true) (img : LoadImage) :
      ((t.readTriggers q.part (pkTrigs w)).bind t (fun l s => .ok (img, l) s)).Sound :=
    Chk.bind_sound (State.readTriggers_sound _ _ ht) t fun _ _ hu => hu
  unfold State.checkLaunch
  split
  · exact h
  · refine Chk.bind_sound (State.cpImage_sound h ..) s fun _ t ht => ?_
    split
    · exact ht
    · split
      · split
        · exact ht
        · exact hr ht _
      · split
        · exact ht
        · exact hr ht _

theorem State.readGroup_sound {s : State} (h : s.mem.wf = true) (part : Nat) (w : List DWord) (at_ : DWord) :
    (s.readGroup part w at_).Sound := by
  grind [State.readGroup, Chk.Sound, Chk.bind_sound, State.cpRead_sound]

theorem State.checkColl_sound {s : State} (h : s.mem.wf = true) (part : Nat) (w : List DWord) (at_ : DWord) :
    (s.checkColl part w at_).Sound := by
  grind [State.checkColl, Chk.bind_sound, State.readTriggers_sound, State.readGroup_sound]

theorem State.cpEntry_sound {s : State} (h : s.mem.wf = true) (q : Queue) (n : Nat) : (s.cpEntry q n).Sound := by
  grind [State.cpEntry, Chk.Sound, Chk.bind_sound, State.cpRead_sound]

theorem State.ringPacket_sound {s : State} (h : s.mem.wf = true) (q : Queue) : (s.ringPacket q).Sound := by
  grind [State.ringPacket, Chk.Sound, Chk.bind_sound, State.cpEntry_sound]

theorem execPacketTake_goes (n : Nat) (s : State) : Goes s (execPacketTake n s) := by
  grind [execPacketTake, Goes, Chk.Sound, setQueue_mem, State.checkLaunch_sound, State.checkColl_sound, State.ringPacket_sound]

@[simp] theorem State.watchPackets_mem (s : State) : s.watchPackets.mem = s.mem := by
  grind [State.watchPackets]

theorem execPacketTrigger_goes (n : Nat) (s : State) : Goes s (execPacketTrigger n s) := by
  grind [execPacketTrigger, Goes, setQueue_mem]

@[simp] theorem State.freshRounds_mem (s : State) : s.freshRounds.mem = s.mem := by
  grind [State.freshRounds]

@[simp] theorem State.charge_mem (s : State) (n : Nat) : (s.charge n).mem = s.mem := by
  grind [State.charge, setQueue_mem]

@[simp] theorem State.assign_mem (s : State) (l : Load) : (s.assign l).mem = s.mem := foldl_mem (fun _ _ => setPatch_mem ..) _ _

@[simp] theorem State.beginColl_mem (s : State) (n : Nat) (x : Head) (fail : Option (Nat × Nat × DWord)) :
    (s.beginColl n x fail).mem = s.mem :=
  by simp [State.beginColl]

theorem execPacketStart_goes (n : Nat) (s : State) : Goes s (execPacketStart n s) := by
  grind [execPacketStart, Goes, setQueue_mem, State.freshRounds_mem, State.charge_mem, State.assign_mem, State.beginColl_mem]

theorem State.startPatch_wf {s : State} (h : s.mem.wf = true) (l : Load) (lp p : Nat) (img : PatchImage) (keep : Bool) :
    (s.startPatch l lp p img keep).mem.wf = true := by
  grind [State.startPatch, setPatch_mem, State.configure_wf, State.clearVaults_wf]

theorem State.startAll_wf {s : State} (h : s.mem.wf = true) (l : Load) (imgs : List PatchImage) (keep : Bool) :
    (s.startAll l imgs keep).mem.wf = true :=
  foldl_wf (fun _ _ ht => State.startPatch_wf ht ..) _ _ ((congrArg Memory.wf (State.modLoad_mem ..)).trans h)

@[simp] theorem State.failStart_mem (s : State) (l : Load) (c : Cause) (sub : Nat) (fa : DWord) :
    (s.failStart l c sub fa).mem = s.mem :=
  (State.modLoad_mem ..).trans (foldl_mem (fun _ _ => setPatch_mem ..) _ _)

theorem State.freshImage_sound {s : State} (h : s.mem.wf = true) (part : Nat) (fa : DWord) (old : LoadImage) :
    (s.freshImage part fa old).Sound := by
  grind [State.freshImage, Chk.Sound, Chk.bind_sound, State.cpImage_sound]

theorem execConfigLoad_goes (n : Nat) (s : State) : Goes s (execConfigLoad n s) := by
  unfold execConfigLoad
  split
  · exact id
  · next l _ =>
    split
    · exact id
    · split
      · exact fun h => State.startAll_wf h ..
      · have hf (h : s.mem.wf = true) := State.freshImage_sound h l.part (BitVec.ofNat 64 l.image) l.img
        split
        · next e => rw [e] at hf; exact hf
        · next e => rw [e] at hf; exact fun h => (congrArg Memory.wf (State.failStart_mem ..)).trans (hf h)
        · next img t e =>
          rw [e] at hf
          have hp (h : s.mem.wf = true) : (t.phase1 img).1.mem.wf = true := hf h
          split
          · next e => rw [e] at hp; exact fun h => (congrArg Memory.wf (State.failStart_mem ..)).trans (hp h)
          · next e =>
            rw [e] at hp
            exact fun h => State.startAll_wf ((congrArg Memory.wf (State.modLoad_mem ..)).trans (hp h)) ..

theorem execStage_goes (n : Nat) (s : State) : Goes s (execStage n s) := by
  unfold execStage
  extract_lets q
  split
  · next x l _ _ =>
    extract_lets open_ done failed
    split
    · exact id
    · have hf (h : s.mem.wf = true) := State.freshImage_sound h q.part (pkImage x.words) x.img
      split
      · next e => rw [e] at hf; exact hf
      · next e => rw [e] at hf; exact fun h => (congrArg Memory.wf (setQueue_mem ..)).trans (hf h)
      · next img t e =>
        rw [e] at hf
        have hp (h : s.mem.wf = true) : (t.phase1 img).1.mem.wf = true := hf h
        split
        · next e => rw [e] at hp; exact fun h => (congrArg Memory.wf (setQueue_mem ..)).trans (hp h)
        · next e =>
          rw [e] at hp
          exact fun h => (congrArg Memory.wf ((foldl_mem (fun _ _ => setPatch_mem ..) _ _).trans (setQueue_mem ..))).trans (hp h)
  · exact id

theorem execPatchPowerGate_goes (p : Nat) (s : State) : Goes s (execPatchPowerGate p s) := by
  grind [execPatchPowerGate, Goes, setPatch_mem]

theorem execPatchWake_goes (p : Nat) (s : State) : Goes s (execPatchWake p s) := by
  grind [execPatchWake, Goes, setPatch_mem]

@[simp] theorem State.holdLoad_mem (s : State) (l : Load) : (s.holdLoad l).mem = s.mem := by
  grind [State.holdLoad, State.modLoad_mem, State.freezePatches_mem]

@[simp] theorem State.unplace_mem (s : State) (l : Load) : (s.unplace l).mem = s.mem :=
  (State.modLoad_mem ..).trans (foldl_mem (fun _ _ => setPatch_mem ..) _ _)

@[simp] theorem State.cpFreeze_mem (s : State) (l : Load) : (s.cpFreeze l).mem = s.mem := by
  grind [State.cpFreeze, State.holdLoad_mem, State.unplace_mem]

theorem execLoadFreeze_goes (n : Nat) (s : State) : Goes s (execLoadFreeze n s) := by
  grind [execLoadFreeze, Goes, State.cpFreeze_mem]

@[simp] theorem State.redo_mem (s : State) (p : Nat) (u : Undone) : (s.redo p u).mem = s.mem := by
  grind [State.redo, issue_mem, State.issueStore_mem, State.freezeAgent_mem, State.reportAgent_mem]

@[simp] theorem State.redoPatch_mem (s : State) (p : Nat) : (s.redoPatch p).mem = s.mem := by
  refine (foldl_mem (fun t u => ?_) _ _).trans (setPatch_mem ..)
  split <;> simp

@[simp] theorem State.redoLoad_mem (s : State) (q : Nat) : (s.redoLoad q).mem = s.mem := by
  unfold State.redoLoad
  split
  · split
    · exact foldl_mem (fun _ _ => State.redoPatch_mem ..) _ _
    · rfl
  · rfl

theorem State.saveLoad_wf {s : State} (h : s.mem.wf = true) (l : Load) : (s.saveLoad l).mem.wf = true :=
  foldl_wf (fun _ _ ht => State.releasePatch_wf ht _) _ _ <| (congrArg Memory.wf (State.modLoad_mem ..)).trans <|
    foldl_wf (fun _ _ ht => State.settlePatch_wf ht _) _ _ h

theorem execEvict_goes (n : Nat) (s : State) : Goes s (execEvict n s) := by
  unfold execEvict
  split
  · extract_lets can t
    split
    · exact fun h => (congrArg Memory.wf (State.modLoad_mem ..)).trans <|
        State.saveLoad_wf (foldl_wf (fun _ _ ht => State.writeFrame_wf ht ..) _ _ h) _
    · exact id
  · exact id

@[simp] theorem State.replace_mem (s : State) (l : Load) (ps : List Nat) : (s.replace l ps).mem = s.mem :=
  (foldl_mem (fun _ _ => setPatch_mem ..) _ _).trans (State.setLoad_mem ..)

theorem execRestore_goes (n : Nat) (s : State) : Goes s (execRestore n s) := by
  grind [execRestore, Goes, State.standOn_wf, State.resumeHeld_mem, State.redoLoad_mem, State.replace_mem]

theorem execPreempt_goes (n : Nat) (s : State) : Goes s (execPreempt n s) := by
  grind [execPreempt, Goes, State.holdLoad_mem]

@[simp] theorem State.askDrain_mem (s : State) (l : Load) (on : Bool) : (s.askDrain l on).mem = s.mem :=
  foldl_mem (fun _ _ => setPatch_mem ..) _ _

theorem State.moveLoad_wf {s : State} (h : s.mem.wf = true) (l : Load) (ps : List Nat) : (s.moveLoad l ps).mem.wf = true := by
  grind [State.moveLoad, State.readOut_wf, State.standOn_wf, State.holdLoad_mem, State.redoLoad_mem, State.saveLoad_wf]

theorem execLoadMove_goes (n : Nat) (s : State) : Goes s (execLoadMove n s) := by
  have ha (l : Load) (b : Bool) (f : Load → Load) (h : s.mem.wf = true) : ((s.askDrain l b).modLoad n f).mem.wf = true := by simpa using h
  unfold execLoadMove
  split
  · exact id
  · split
    · exact id
    · split
      · simp [Goes]
      · split
        · split
          · exact ha _ _ _
          · split
            · simp [Goes]
            · extract_lets free
              split
              · split
                · exact fun h => State.moveLoad_wf h ..
                · exact id
              · exact id
        · exact ha _ _ _

theorem execEscalation_goes (p k : Nat) (s : State) : Goes s (execEscalation p k s) := by
  grind [execEscalation, Goes, State.modLoad_mem, State.holdLoad_mem]

@[simp] theorem State.pullsOver_mem (s : State) (n : Nat) : (s.pullsOver n).mem = s.mem := by
  grind [State.pullsOver]

theorem execLoadNaturalEnd_goes (n : Nat) (s : State) : Goes s (execLoadNaturalEnd n s) := by
  grind [execLoadNaturalEnd, Goes, State.modLoad_mem]

@[simp] theorem State.endLoad_mem (s : State) (l : Load) (status sub : Nat) : (s.endLoad l status sub).mem = s.mem := by
  grind [State.endLoad, State.modLoad_mem, State.freezePatches_mem]

theorem execWatchdogExpiry_goes (n : Nat) (s : State) : Goes s (execWatchdogExpiry n s) := by
  grind [execWatchdogExpiry, Goes, State.endLoad_mem]

theorem State.writeRecord_sound {s : State} (h : s.mem.wf = true) (part : Nat) (cr : DWord) (ws : List DWord) :
    (s.writeRecord part cr ws).Sound := by
  grind [State.writeRecord, Rec.Sound, State.issueStore_mem]

theorem State.signalFlag_wf {s : State} (h : s.mem.wf = true) (part : Nat) (flag : DWord) (inc : Word) :
    (s.signalFlag part flag inc).1.mem.wf = true := by
  grind [State.signalFlag, Perf.Sound, Via.Sound, State.atomVia_sound, State.tryOwner_sound]

@[simp] theorem State.raiseQueue_mem (s : State) (n : Nat) : (s.raiseQueue n).mem = s.mem := by
  grind [State.raiseQueue]

theorem State.finishLoad_wf {s : State} (h : s.mem.wf = true) (l : Load) (status : Nat) (hold : Bool) :
    (s.finishLoad l status hold).mem.wf = true := by
  have hc {t : State} (ht : t.mem.wf = true) (l : List (Nat × Option PatchImage)) :
      (l.foldl (fun s x => s.setPatch x.1 { s.patch x.1 with staged := x.2 }) t).mem.wf = true :=
    (congrArg Memory.wf (foldl_mem (fun _ _ => setPatch_mem ..) l t)).trans ht
  unfold State.finishLoad
  extract_lets wd shadow stop s₁ s₂ s₃ s₄ q₀ q ready
  have h₁ : s₁.mem.wf = true := (congrArg Memory.wf (foldl_mem (fun _ _ => State.stopEngine_mem ..) _ _)).trans h
  have h₂ : s₂.mem.wf = true := by
    dsimp only [s₂]
    split <;> exact h₁
  have h₃ : s₃.mem.wf = true := by
    refine foldl_wf (fun t p ht => ?_) _ _ h₂
    split
    · exact State.resetPatch_wf ht p
    · exact State.releasePatch_wf ht p
  split
  · split
    · exact (congrArg Memory.wf (State.assign_mem ..)).trans ((congrArg Memory.wf (setQueue_mem ..)).trans (hc (t := s₄) h₃ _))
    · exact (congrArg Memory.wf (setQueue_mem ..)).trans h₃
  · exact (congrArg Memory.wf (setQueue_mem ..)).trans h₃

@[simp] theorem State.wakeLauncher_mem (s : State) (l : Load) : (s.wakeLauncher l).mem = s.mem := by
  grind [State.wakeLauncher, State.onLoadPatch_mem]

theorem execLoadCompletionRecord_goes (n : Nat) (s : State) : Goes s (execLoadCompletionRecord n s) := by
  grind [execLoadCompletionRecord, Goes, Rec.Sound, State.modLoad_mem, State.writeRecord_sound, State.signalFlag_wf,
      State.raiseQueue_mem, State.finishLoad_wf, State.wakeLauncher_mem]

@[simp] theorem State.hostError_mem (s : State) (n bit : Nat) : (s.hostError n bit).mem = s.mem := by
  grind [State.hostError, State.setVf_mem]

theorem execDoorbell_goes (vf n : Nat) (v : Word) (s : State) : Goes s (execDoorbell vf n v s) := by
  grind [execDoorbell, Goes, setQueue_mem, State.hostError_mem]

theorem execFqhead_goes (vf : Nat) (v : Word) (s : State) : Goes s (execFqhead vf v s) := by
  grind [execFqhead, Goes, setPart_mem]

theorem execVerrClear_goes (vf : Nat) (v : Word) (s : State) : Goes s (execVerrClear vf v s) := by
  grind [execVerrClear, Goes, State.setVf_mem]

theorem execBar0WriteOther_goes (vf off : Nat) (s : State) : Goes s (execBar0WriteOther vf off s) := by
  grind [execBar0WriteOther, Goes, State.hostError_mem]

@[simp] theorem State.hostStores_mem (vf part : Nat) (a : HostAccess) (l : List (Nat × Nat)) :
    ∀ s : State, (s.hostStores vf part a l).mem = s.mem := by
  induction l with
  | nil => exact fun _ => rfl
  | cons x r ih =>
    intro s
    unfold State.hostStores
    grind [State.issueStore_mem, State.freezeVf_mem]

@[simp] theorem State.hostLoads_mem (vf part m : Nat) (a : HostAccess) (l : List (Nat × Nat)) :
    ∀ s : State, (s.hostLoads vf part m a l).mem = s.mem := by
  induction l with
  | nil => exact fun _ => rfl
  | cons x r ih =>
    intro s
    unfold State.hostLoads
    grind [issue_mem, State.hostFree_mem]

@[simp] theorem State.hostRead_mem (s : State) (vf part : Nat) (a : HostAccess) (l : List (Nat × Nat)) :
    (s.hostRead vf part a l).mem = s.mem := by
  grind [State.hostRead, State.freezeVf_mem, State.hostLoads_mem]

@[simp] theorem State.hostAccess_mem (s : State) (vf : Nat) (a : HostAccess) : (s.hostAccess vf a).mem = s.mem := by
  grind [State.hostAccess, State.hostStores_mem, State.hostRead_mem]

theorem execHostWrite_goes (vf : Nat) (fa : BitVec 56) (bytes : List Byte) (s : State) :
    Goes s (execHostWrite vf fa bytes s) := by
  grind [execHostWrite, Goes, State.hostAccess_mem]

theorem execHostRead_goes (vf : Nat) (fa : BitVec 56) (len : Nat) (s : State) : Goes s (execHostRead vf fa len s) := by
  grind [execHostRead, Goes, State.hostAccess_mem]

@[simp] theorem State.resumeLoad_mem (s : State) (l : Load) (lp k : Nat) (tok : Word) :
    (s.resumeLoad l lp k tok).mem = s.mem := by
  grind [State.resumeLoad, setPort_mem, State.modLoad_mem]

theorem execResume_goes (vf : Nat) (v : DWord) (s : State) : Goes s (execResume vf v s) := by
  unfold execResume
  extract_lets mine
  split
  · exact id
  · exact fun h => (congrArg Memory.wf (foldl_mem (fun _ _ => State.resumeLoad_mem ..) _ _)).trans h

end Sys2Proof.Machine
end

section
/-! SUPPORT. The manager, the fabric, collectives, the device and migration keep the canonical form of memory. -/

namespace Sys2Proof.Machine

@[simp] theorem State.respond_mem (s : State) (status : Nat) (data : List DWord) : (s.respond status data).mem = s.mem := by
  grind [State.respond]

theorem State.command_wf {s t : State} (h : s.mem.wf = true) (ht : t.mem.wf = true) (bad refuse : Bool) :
    (s.command bad refuse t).mem.wf = true := by
  unfold State.command
  split <;> grind [State.respond_mem]

@[simp] theorem State.readItem_mem (s : State) (safe : Bool) (data : Option (List DWord)) :
    (s.readItem safe data).mem = s.mem := by
  cases data <;> simp only [State.readItem] <;> split <;> grind [State.respond_mem]

theorem execUnknownCommand_goes (code : Byte) (s : State) : Goes s (execUnknownCommand code s) := by
  grind [execUnknownCommand, Goes, State.respond_mem]

@[simp] theorem State.newPart_mem (s : State) (n : Nat) (keys : List (List Byte)) (sig : Bool) :
    (s.newPart n keys sig).mem = s.mem := by
  grind [State.newPart, setPart_mem]

theorem execPcreate_goes (n : Nat) (keyAddr : FlatAt) (keyCount : Nat) (sig : Bool) (s : State) :
    Goes s (execPcreate n keyAddr keyCount sig s) := by
  grind [execPcreate, Goes, Bulk.Sound, State.readFlat_sound, State.command_wf, State.newPart_mem]

theorem State.takePatch_wf {s : State} (h : s.mem.wf = true) (p : Nat) : (s.takePatch p).mem.wf = true := by
  grind [State.takePatch, setPatch_mem, State.settlePatch_wf, State.resetPatch_wf]

theorem execPdestroy_goes (n : Nat) (s : State) : Goes s (execPdestroy n s) := by
  refine fun h => State.command_wf h ?_ _ _
  exact foldl_wf (fun _ _ ht => State.takePatch_wf ht _) _ _ h

theorem State.givePatch_wf {s : State} (h : s.mem.wf = true) (n p : Nat) : (s.givePatch n p).mem.wf = true := by
  grind [State.givePatch, setPatch_mem, State.settlePatch_wf, State.resetPatch_wf]

theorem execGrant_goes (g : GrantArgs) (s : State) : Goes s (execGrant g s) :=
  fun h => State.command_wf h ((congrArg Memory.wf (setPart_mem ..)).trans
    (foldl_wf (fun _ _ ht => State.takePatch_wf ht _) _ _ (foldl_wf (fun _ _ ht => State.givePatch_wf ht ..) _ _ h))) _ _

theorem execQset_goes (g : QSetArgs) (s : State) : Goes s (execQset g s) := by
  grind [execQset, Goes, setQueue_mem, State.command_wf]

theorem execQenable_goes (n : Nat) (s : State) : Goes s (execQenable n s) := by
  grind [execQenable, Goes, setQueue_mem, State.command_wf]

theorem execQdisable_goes (n : Nat) (s : State) : Goes s (execQdisable n s) := by
  grind [execQdisable, Goes, setQueue_mem, State.command_wf]

theorem execVfbind_goes (vf n : Nat) (s : State) : Goes s (execVfbind vf n s) := by
  grind [execVfbind, Goes, State.setVf_mem, State.command_wf]

theorem execWdack_goes (n : Nat) (s : State) : Goes s (execWdack n s) := by
  grind [execWdack, Goes, setQueue_mem, State.command_wf]

theorem State.thawLoad_mem {s : State} {l : Load} {t' : State} (e : s.thawLoad l = some t') : t'.mem = s.mem := by
  unfold State.thawLoad at e
  split at e
  · cases e
    exact (State.modLoad_mem ..).trans (foldl_mem (fun _ _ => setPatch_mem ..) _ _)
  · cases e
    exact State.modLoad_mem ..
  · cases e

theorem State.thawAgent_mem {s : State} {l : Load} {t : ThawName} {t' : State} (e : s.thawAgent l t = some t') :
    t'.mem = s.mem := by
  grind [State.thawAgent, State.setEngine_mem, State.onLoadPatch_mem, → State.thawLoad_mem]

theorem execThawCommand_goes (t : ThawName) (s : State) : Goes s (execThawCommand t s) := by
  unfold execThawCommand
  extract_lets bad
  split
  · split
    · exact fun h => State.command_wf h (by simpa using h) _ _
    · exact fun h => State.command_wf h h _ _
  · split
    · next u e =>
      obtain ⟨l, -, hl⟩ := Option.bind_eq_some_iff.1 e
      exact fun h => State.command_wf h ((congrArg Memory.wf ((State.redoLoad_mem ..).trans (State.thawAgent_mem hl))).trans h) _ _
    · exact fun h => State.command_wf h h _ _

theorem execLend_goes (n : Nat) (s : State) : Goes s (execLend n s) := by
  grind [execLend, Goes, State.endLoad_mem, State.command_wf]

theorem execLdiscard_goes (n : Nat) (s : State) : Goes s (execLdiscard n s) := by
  grind [execLdiscard, Goes, State.endLoad_mem, State.command_wf]

theorem execLpreempt_goes (n : Nat) (s : State) : Goes s (execLpreempt n s) := by
  grind [execLpreempt, Goes, State.cpFreeze_mem, State.command_wf]

theorem execInval_goes (n : Nat) (lo hi : DWord) (s : State) : Goes s (execInval n lo hi s) := by
  grind [execInval, Goes, State.pullsOver_mem, State.command_wf]

theorem execTimeouts_goes (t : TimeoutArgs) (s : State) : Goes s (execTimeouts t s) := by
  grind [execTimeouts, Goes, setPart_mem, State.command_wf]

theorem execRoute_goes (entries : List (Nat × Half)) (s : State) : Goes s (execRoute entries s) := by
  grind [execRoute, Goes, State.command_wf]

theorem execSlotld_goes (port : Nat) (entries : List (Nat × Nat × Half)) (s : State) : Goes s (execSlotld port entries s) := by
  grind [execSlotld, Goes, State.command_wf]

theorem execReadSaveFrame_goes (n lp k : Nat) (s : State) : Goes s (execReadSaveFrame n lp k s) := by
  grind [execReadSaveFrame, Goes, State.command_wf, State.readItem_mem]

@[simp] theorem State.setFabPort_mem (s : State) (n : Nat) (x : FabPort) : (s.setFabPort n x).mem = s.mem := by
  grind [State.setFabPort]

theorem execReadSlipcnt_goes (port k : Nat) (s : State) : Goes s (execReadSlipcnt port k s) := by
  grind [execReadSlipcnt, Goes, State.readItem_mem]

theorem execReadLinkErrors_goes (port k : Nat) (s : State) : Goes s (execReadLinkErrors port k s) := by
  grind [execReadLinkErrors, Goes, State.readItem_mem]

theorem execReadFailureMap_goes (k : Nat) (s : State) : Goes s (execReadFailureMap k s) := by
  grind [execReadFailureMap, Goes, State.readItem_mem]

theorem execReadBootReport_goes (k : Nat) (nonce : List DWord) (s : State) : Goes s (execReadBootReport k nonce s) := by
  grind [execReadBootReport, Goes, State.readItem_mem]

theorem execReadDeviceState_goes (k : Nat) (s : State) : Goes s (execReadDeviceState k s) := by
  grind [execReadDeviceState, Goes, State.readItem_mem]

theorem execReadIdentityCert_goes (k : Nat) (s : State) : Goes s (execReadIdentityCert k s) := by
  grind [execReadIdentityCert, Goes, State.readItem_mem]

theorem execReadThrottle_goes (k : Nat) (s : State) : Goes s (execReadThrottle k s) := by
  grind [execReadThrottle, Goes, State.readItem_mem]

@[simp] theorem State.send_mem (s : State) (k : Packet) : (s.send k).mem = s.mem := by
  unfold State.send
  cases e : s.post k with
  | none => rfl
  | some t => exact State.post_mem e

@[simp] theorem State.dropOne_mem (s : State) (tag : Half) (pa : Nat) : (s.dropOne tag pa).mem = s.mem := by
  grind [State.dropOne]

@[simp] theorem State.leftRefused_mem (s : State) (x : Engine) (c : Cause) (sub : Nat) (fa : DWord) :
    (s.leftRefused x c sub fa).mem = s.mem := by
  grind [State.leftRefused, State.report_mem, State.engineLate_mem]

@[simp] theorem State.engineRefused_mem (s : State) (n : Nat) (c : Cause) (sub : Nat) (fa : DWord) :
    (s.engineRefused n c sub fa).mem = s.mem := by
  grind [State.engineRefused, State.engineStop_mem, State.engineLate_mem, State.leftRefused_mem]

@[simp] theorem State.flagRefused_mem (s : State) (tag : Half) (c : Cause) (sub : Nat) :
    (s.flagRefused tag c sub).mem = s.mem := by
  grind [State.flagRefused, State.leftRefused_mem]

@[simp] theorem State.failed_mem (s : State) (kind : Nat) (tag : Half) (pa : Nat) (c : Cause) (sub : Nat) :
    (s.failed kind tag pa c sub).mem = s.mem := by
  grind [State.failed, State.freezeAgent_mem, State.reportAgent_mem, State.dropOne_mem, State.engineRefused_mem,
      State.flagRefused_mem]

@[simp] theorem State.bounce_mem (s : State) (k : Packet) (c : Cause) (sub : Nat) : (s.bounce k c sub).mem = s.mem := by
  grind [State.bounce, State.send_mem, State.failed_mem]

@[simp] theorem State.passOn_mem (s : State) (k : Packet) (inp : Nat) : (s.passOn k inp).mem = s.mem := by
  grind [State.passOn, State.takeCustody_mem, State.bounce_mem]

theorem State.arrive_wf {s : State} (h : s.mem.wf = true) (port : Nat) (k : Packet) (request : Bool) {f : State → State}
    (hf : ∀ t, t.mem.wf = true → (f t).mem.wf = true) : (s.arrive port k request f).mem.wf = true := by
  unfold State.arrive
  grind [State.takeCustody_mem, State.bounce_mem, State.passOn_mem]

theorem execRd_goes (port : Nat) (k : Packet) (s : State) : Goes s (execRd port k s) :=
  fun h => State.arrive_wf h _ _ _ fun _ ht => (congrArg Memory.wf (State.send_mem ..)).trans ht

@[simp] theorem State.answered_mem (s : State) (k : Packet) : (s.answered k).mem = s.mem := by
  grind [State.answered]

theorem execRdr_goes (port : Nat) (k : Packet) (s : State) : Goes s (execRdr port k s) :=
  fun h => State.arrive_wf h _ _ _ fun _ ht => (congrArg Memory.wf (State.answered_mem ..)).trans ht

theorem State.tryInc_wf {s : State} (h : s.mem.wf = true) (k : Packet) : (s.tryInc k).mem.wf = true := by
  grind [State.tryInc, State.atomic_wf]

theorem State.retryIncs_wf {s : State} (h : s.mem.wf = true) : s.retryIncs.mem.wf = true :=
  foldl_wf (fun _ _ ht => State.tryInc_wf ht _) _ _ h

theorem execWr_goes (port : Nat) (k : Packet) (s : State) : Goes s (execWr port k s) := by
  refine fun h => State.arrive_wf h _ _ _ fun t ht => ?_
  refine (congrArg Memory.wf (State.send_mem ..)).trans (State.retryIncs_wf ?_)
  dsimp only
  exact State.settleEntry_wf (by exact ht) _

theorem execWra_goes (port : Nat) (k : Packet) (s : State) : Goes s (execWra port k s) := by
  grind [execWra, Goes, State.dropOne_mem, State.arrive_wf]

theorem execAtom_goes (port : Nat) (k : Packet) (s : State) : Goes s (execAtom port k s) :=
  fun h => State.arrive_wf h _ _ _ fun _ ht => (congrArg Memory.wf (State.send_mem ..)).trans (State.atomic_wf ht ..)

theorem execAtomr_goes (port : Nat) (k : Packet) (s : State) : Goes s (execAtomr port k s) :=
  fun h => State.arrive_wf h _ _ _ fun _ ht => (congrArg Memory.wf (State.answered_mem ..)).trans ht

theorem execFlaginc_goes (port : Nat) (k : Packet) (s : State) : Goes s (execFlaginc port k s) :=
  fun h => State.arrive_wf h _ _ _ fun _ ht => State.tryInc_wf ht _

theorem execCust_goes (port : Nat) (k : Packet) (s : State) : Goes s (execCust port k s) := by
  grind [execCust, Goes]

theorem execErr_goes (port : Nat) (k : Packet) (s : State) : Goes s (execErr port k s) := by
  grind [execErr, Goes, State.failed_mem, State.arrive_wf]

theorem execRedir_goes (port : Nat) (k : Packet) (s : State) : Goes s (execRedir port k s) := by
  grind [execRedir, Goes, State.send_mem, State.arrive_wf]

theorem execCollPacket_goes (port : Nat) (k : Packet) (s : State) : Goes s (execCollPacket port k s) := by
  grind [execCollPacket, Goes, State.setFabPort_mem, State.send_mem, State.arrive_wf]

theorem execStubForward_goes (k : Packet) (s : State) : Goes s (execStubForward k s) := by
  grind [execStubForward, Goes, State.passOn_mem]

theorem execFabricForward_goes (port n : Nat) (s : State) : Goes s (execFabricForward port n s) := by
  grind [execFabricForward, Goes, State.setFabPort_mem]

theorem execFlitReplay_goes (port n : Nat) (s : State) : Goes s (execFlitReplay port n s) := by
  grind [execFlitReplay, Goes, State.setFabPort_mem]

theorem execCustodyResend_goes (n : Nat) (s : State) : Goes s (execCustodyResend n s) := by
  grind [execCustodyResend, Goes, State.setFabPort_mem]

theorem execCustodyTimeout_goes (n : Nat) (s : State) : Goes s (execCustodyTimeout n s) := by
  grind [execCustodyTimeout, Goes, State.bounce_mem]

theorem execSync_goes (port : Nat) (sample : DWord) (s : State) : Goes s (execSync port sample s) := by
  grind [execSync, Goes, State.setFabPort_mem]

theorem execSyncSend_goes (port : Nat) (s : State) : Goes s (execSyncSend port s) := by
  grind [execSyncSend, Goes, State.takeCustody_mem, State.setFabPort_mem]

theorem execLinkStart_goes (port modNum version : Nat) (master : DWord) (s : State) :
    Goes s (execLinkStart port modNum version master s) := by
  grind [execLinkStart, Goes, State.setFabPort_mem]

theorem State.flatStores_sound {s : State} (h : s.mem.wf = true) (part : Nat) (runs : List (DWord × List Byte)) :
    (s.flatStores part runs).Sound := by
  have hr (l : List (DWord × List Byte)) : Puts.Sound (l.foldr (fun r out => match s.translate part r.1 .plain with
      | .wait => .wait
      | .fault c sub => .fault c sub r.1
      | .ok pl => match out with
        | .ok s => .ok (s.issueStore (.cmdProc part) ⟨pl, ((List.range r.2.length).map (pl.addr + ·)).zip r.2,
            if pl.fe then (wordsAt pl.addr r.2.length).map (fun w => (w, true)) else [], .fab, false, r.1, false⟩)
        | x => x) (.ok s)) := by
    induction l with
    | nil => exact h
    | cons x r ih =>
      rw [List.foldr_cons]
      split
      · trivial
      · trivial
      · split
        · next e => rw [e] at ih; exact (congrArg Memory.wf (State.issueStore_mem ..)).trans ih
        · exact ih
  exact hr _

@[simp] theorem State.setColl_mem (s : State) (c : Collective) : (s.setColl c).mem = s.mem := by
  grind [State.setColl]

@[simp] theorem State.showHead_mem (s : State) (part : Nat) (w : List DWord) (group : List (Nat × Nat)) :
    (s.showHead part w group).mem = s.mem :=
  foldl_mem (fun _ _ => State.send_mem ..) _ _

@[simp] theorem State.sendData_mem (s : State) (part : Nat) (w : List DWord) (group : List (Nat × Nat)) (off : Nat)
    (bs : List Byte) :
    (s.sendData part w group off bs).mem = s.mem :=
  foldl_mem (fun _ _ => foldl_mem (fun _ _ => State.send_mem ..) _ _) _ _

@[simp] theorem State.sendMine_mem (s : State) (part : Nat) (w : List DWord) (group : List (Nat × Nat)) (mine : List Byte) :
    (s.sendMine part w group mine).mem = s.mem := by
  unfold State.sendMine
  extract_lets rank z
  split
  · exact foldl_mem (fun _ _ => State.sendData_mem ..) _ _
  · split
    · rfl
    · exact State.sendData_mem ..

@[simp] theorem State.sendTiles_mem (s : State) (part : Nat) (w : List DWord) (group : List (Nat × Nat))
    (data : List (List Byte)) (ts : List Nat) :
    (s.sendTiles part w group data ts).mem = s.mem :=
  foldl_mem (fun _ _ => State.sendData_mem ..) _ _

theorem State.putTile_sound {s : State} (h : s.mem.wf = true) (c : Collective) (t : Nat) (data : List Byte) :
    (s.putTile c t data).Sound := by
  grind [State.putTile, Puts.Sound, issue_mem, State.flatStores_sound]

@[simp] theorem State.collFail_mem (s : State) (c : Collective) (u : Cause) (sub : Nat) (fa : DWord) :
    (s.collFail c u sub fa).mem = s.mem := by
  grind [State.collFail, State.setColl_mem]

theorem State.collRun_wf {s : State} (h : s.mem.wf = true) (c : Collective) (group : List (Nat × Nat))
    (peers : List (List DWord)) :
    (s.collRun c group peers).mem.wf = true := by
  grind [State.collRun, Chk.Sound, Puts.Sound, State.cpRead_sound, State.flatStores_sound, State.setColl_mem,
      State.showHead_mem, State.sendMine_mem, State.sendTiles_mem, State.collFail_mem]

theorem execCollectiveStart_goes (n : Nat) (peers : List (List DWord)) (s : State) :
    Goes s (execCollectiveStart n peers s) := by
  grind [execCollectiveStart, Goes, Chk.Sound, State.readGroup_sound, State.checkColl_sound, State.setColl_mem,
      State.collFail_mem, State.collRun_wf]

theorem execTileArrival_goes (n t : Nat) (data : List Byte) (s : State) : Goes s (execTileArrival n t data s) := by
  grind [execTileArrival, Goes, Puts.Sound, State.setColl_mem, State.putTile_sound, State.collFail_mem]

@[simp] theorem State.finishColl_mem (s : State) (c : Collective) (hold : Bool) : (s.finishColl c hold).mem = s.mem := by
  grind [State.finishColl, setQueue_mem, State.cmdDone_mem]

theorem execCollectiveComplete_goes (n : Nat) (s : State) : Goes s (execCollectiveComplete n s) := by
  grind [execCollectiveComplete, Goes, Rec.Sound, State.writeRecord_sound, State.signalFlag_wf, State.raiseQueue_mem,
      State.setColl_mem, State.finishColl_mem]

theorem execCollectiveBudgetExpiry_goes (n : Nat) (s : State) : Goes s (execCollectiveBudgetExpiry n s) := by
  grind [execCollectiveBudgetExpiry, Goes, Puts.Sound, State.flatStores_sound, State.setColl_mem]

theorem State.stopAll_wf {s : State} (h : s.mem.wf = true) (d : Device) : (s.stopAll d).mem.wf = true := by
  grind [State.stopAll, State.settleWhere_wf]

theorem State.enterSafe_wf {s : State} (h : s.mem.wf = true) (d : Device) : (s.enterSafe d).mem.wf = true := by
  grind [State.enterSafe, State.stopAll_wf]

theorem execDeviceReset_goes (s : State) : Goes s (execDeviceReset s) := by
  grind [execDeviceReset, Goes, State.stopAll_wf]

theorem execThermalShutdown_goes (celsius : Nat) (s : State) : Goes s (execThermalShutdown celsius s) := by
  unfold execThermalShutdown
  split
  · exact id
  · exact fun h => Memory.wf_filter (State.stopAll_wf h _) _ _

theorem execPowerGood_goes (fw : Firmware) (s : State) : Goes s (execPowerGood fw s) := by
  grind [execPowerGood, Goes, State.enterSafe_wf]

@[simp] theorem State.reroute_mem (s : State) : s.reroute.mem = s.mem := by
  grind [State.reroute]

@[simp] theorem State.fencePatches_mem (s : State) (l : List Nat) : (s.fencePatches l).mem = s.mem :=
  foldl_mem (fun _ _ => setPatch_mem ..) _ _

theorem execSelftestDone_goes (r : SelfTest) (s : State) : Goes s (execSelftestDone r s) := by
  have ht (h : s.mem.wf = true) : (s.settleWhere (fun _ => true)).mem.cleared.wf = true := Memory.wf_filter (State.settleWhere_wf h _) _ _
  unfold execSelftestDone
  generalize s.settleWhere (fun _ => true) = t at ht ⊢
  split
  · exact id
  · split
    · exact fun h => State.enterSafe_wf (s := { t with mem := t.mem.cleared }) (ht h) _
    · exact fun h => (congrArg Memory.wf ((State.reroute_mem _).trans (State.fencePatches_mem ..))).trans (ht h)

theorem State.fenceBad_wf {s : State} (h : s.mem.wf = true) (p : Nat) : (s.fenceBad p).mem.wf = true := by
  grind [State.fenceBad, State.enterSafe_wf, State.fencePatches_mem]

theorem State.fenceAll_wf {s : State} (h : s.mem.wf = true) : s.fenceAll.mem.wf = true :=
  foldl_wf (fun _ _ ht => State.fenceBad_wf ht _) _ _ h

theorem State.calFailed_wf {s : State} (h : s.mem.wf = true) (u : CalUnit) : (s.calFailed u).mem.wf = true := by
  cases u <;> grind [State.calFailed, setPatch_mem, State.toFull_mem, State.setFabPort_mem, State.enterSafe_wf,
      State.reroute_mem, State.fenceBad_wf]

theorem execCalibrationDone_goes (u : CalUnit) (ok : Bool) (s : State) : Goes s (execCalibrationDone u ok s) := by
  grind [execCalibrationDone, Goes, State.toFull_mem, State.calFailed_wf]

theorem execPatchJoinFull_goes (p : Nat) (s : State) : Goes s (execPatchJoinFull p s) := by
  grind [execPatchJoinFull, Goes, State.joinFull_mem]

theorem execThrottleRise_goes (die celsius milliPower : Nat) (s : State) :
    Goes s (execThrottleRise die celsius milliPower s) := by
  grind [execThrottleRise, Goes]

theorem execThrottleFall_goes (die : Nat) (s : State) : Goes s (execThrottleFall die s) := by
  unfold execThrottleFall
  extract_lets d
  split
  · split
    · exact id
    · exact id
  · exact id

@[simp] theorem State.holdPart_mem (s : State) (n : Nat) : (s.holdPart n).mem = s.mem :=
  foldl_mem (fun _ _ => State.cpFreeze_mem ..) _ _

theorem State.packLoad_wf {s : State} (h : s.mem.wf = true) (l : Load) : (s.packLoad l).mem.wf = true := by
  grind [State.packLoad, State.modLoad_mem, State.unplace_mem, State.saveLoad_wf]

theorem State.savePart_wf {s : State} (h : s.mem.wf = true) (n : Nat) : (s.savePart n).mem.wf = true :=
  foldl_wf (fun _ _ ht => State.packLoad_wf ht _) _ _ h

theorem State.remap_wf {s : State} (h : s.mem.wf = true) (part : Nat) (fs : List Nat) : (s.remap part fs).mem.wf = true := by
  refine foldl_wf (fun t a ht => ?_) _ _ h
  dsimp only
  split
  · exact Memory.wf_write _ _ _ (State.ownFlush_wf ht ..)
  · exact ht

theorem State.installFrames_wf {s : State} (h : s.mem.wf = true) (part : Nat) (fs : List Nat) (data : List (Nat × Byte))
    (marks : Marks) :
    (s.installFrames part fs data marks).mem.wf = true := by
  refine (congrArg Memory.wf (State.pullsOver_mem ..)).trans (State.remap_wf ?_ part fs)
  exact (congrArg Memory.wf (setPart_mem ..)).trans (Memory.wf_marks _ _ (Memory.wf_puts _ _ h))

@[simp] theorem State.notify_mem (s : State) (part frame owner : Nat) : (s.notify part frame owner).mem = s.mem := by
  refine foldl_mem (fun t m => ?_) _ _
  dsimp only
  cases e : t.request _ _ with
  | none => rfl
  | some u => exact State.request_mem e

theorem State.shipFrames_wf {s : State} (h : s.mem.wf = true) (part owner : Nat) (fs : List Nat) :
    (s.shipFrames part owner fs).mem.wf = true := by
  refine (congrArg Memory.wf (foldl_mem (fun _ _ => State.notify_mem ..) _ _)).trans ?_
  exact State.settleWhere_wf h _

theorem State.leavePart_wf {s : State} (h : s.mem.wf = true) (n target : Nat) : (s.leavePart n target).mem.wf = true := by
  grind [State.leavePart, setPart_mem, State.shipFrames_wf]

theorem State.takePart_wf {s : State} (h : s.mem.wf = true) (n : Nat) : (s.takePart n).mem.wf = true :=
  foldl_wf (fun _ _ ht => State.installFrames_wf ht ..) _ _ ((congrArg Memory.wf (setPart_mem ..)).trans h)

theorem State.dropTaken_wf {s : State} (h : s.mem.wf = true) (n : Nat) : (s.dropTaken n).mem.wf = true := by
  refine (congrArg Memory.wf (setPart_mem ..)).trans (foldl_wf (fun t x ht => ?_) _ _ ?_)
  · exact Memory.wf_write _ _ _ (State.ownFlush_wf ht ..)
  · exact h

@[simp] theorem State.setMigrate_mem (s : State) (n : Nat) (x : Option (Nat × Nat)) : (s.setMigrate n x).mem = s.mem := by
  grind [State.setMigrate, setPart_mem]

theorem execMigrate_goes (n phase target : Nat) (s : State) : Goes s (execMigrate n phase target s) := by
  unfold execMigrate
  extract_lets pt at_ bad here step
  split
  · refine fun h => State.command_wf h ((congrArg Memory.wf (State.setMigrate_mem ..)).trans ?_) _ _
    split
    · exact State.dropTaken_wf h n
    · exact h
  · exact fun h => State.command_wf h ((congrArg Memory.wf ((setPart_mem ..).trans (State.holdPart_mem ..))).trans h) _ _
  · exact fun h => State.command_wf h (by simpa using h) _ _
  · split
    · exact fun h => State.command_wf h ((congrArg Memory.wf (State.setMigrate_mem ..)).trans (State.takePart_wf h n)) _ _
    · exact fun h => State.command_wf h ((congrArg Memory.wf (State.setMigrate_mem ..)).trans (State.savePart_wf h n)) _ _
  · split
    · exact fun h => State.command_wf h (by simpa using h) _ _
    · exact fun h => State.command_wf h ((congrArg Memory.wf (State.setMigrate_mem ..)).trans (State.leavePart_wf h n target)) _ _
  · split
    · exact fun h => State.command_wf h h _ _
    · exact fun h => State.command_wf h (by simpa using h) _ _

theorem execMigrateAbort_goes (n : Nat) (s : State) : Goes s (execMigrateAbort n s) := by
  grind [execMigrateAbort, Goes, State.setEngine_mem]

theorem execFramePull_goes (part fa : Nat) (data : List Byte) (full : List Bool) (s : State) :
    Goes s (execFramePull part fa data full s) := by
  grind [execFramePull, Goes, State.installFrames_wf, State.shipFrames_wf]

end Sys2Proof.Machine
end

section
/-! SUPPORT. Every instruction, event and turn goes on and keeps the canonical form of memory. -/

namespace Sys2Proof.Machine

theorem exec_goes (i : Instr) (s : State) : Goes s (exec i s) := by
  cases i with
  | seqAdd | seqSub | seqAnd | seqOr | seqXor | seqSll | seqSrl | seqSra | seqSlt | seqSltu | seqMul | seqMulh |
    seqMulhu | seqDiv | seqDivu | seqRem | seqRemu | seqMin | seqMax | minu | maxu | seqAdds | seqSubs =>
    exact aluWord_goes _ _ _ _ _
  | kcmp => exact execKcmp_goes _ _ _ _ _
  | xret => exact execXret_goes _
  | wfe => exact execWfe_goes _
  | seqFence => exact execSeqFence_goes _ _
  | freeze => exact execFreeze_goes _
  | tscr => exact execTscr_goes _ _
  | rdtag => exact execRdtag_goes _ _
  | launch => exact execLaunch_goes _ _ _ _
  | signal => exact execSignal_goes _ _ _ _
  | seqAddi | seqAndi | seqOri | seqXori | seqSlti | sltiu | seqSlli | seqSrli | seqSrai =>
    exact immWord_goes _ _ _ _ _
  | lui => exact execLui_goes _ _ _
  | jalr => exact execJalr_goes _ _ _ _
  | trap => exact execTrap_goes _ _ _ _
  | csrr => exact execCsrr_goes _ _ _
  | csrw => exact execCsrw_goes _ _ _
  | lb | lbu | lh | lhu | lw =>
    exact storeLoad_goes _ _ _ _ _ _
  | sb | sh | sw =>
    exact storeStore_goes _ _ _ _ _
  | beq | bne | blt | bge | bltu | bgeu | bkt | bkf =>
    exact branchWord_goes _ _ _
  | j => exact execJ_goes _ _
  | jal => exact execJal_goes _ _
  | loop => exact execLoop_goes _ _ _ _
  | loopr => exact execLoopr_goes _ _ _ _
  | lbrk => exact execLbrk_goes _ _
  | ldm d a o z g c => exact execLdm_goes d a o z g c s
  | stm => exact execStm_goes _ _ _ _ _ _
  | seqAadd | seqAmin | seqAmax | seqAand | seqAor | seqAxor | seqAswp | seqAcas =>
    exact amomWord_goes _ _ _ _ _ _ _
  | sbind => exact execSbind_goes _ _ _
  | sgo => exact execSgo_goes _ _
  | swaitp => exact execSwaitp_goes _ _
  | sbar => exact execSbar_goes _
  | cfgld => exact execCfgld_goes _ _ _
  | cfgpat => exact execCfgpat_goes _ _ _
  | cfgrect => exact execCfgrect_goes _ _ _
  | cfgcmt => exact execCfgcmt_goes _ _
  | cfgabt => exact execCfgabt_goes _
  | add | sub | mul | mulh | mulhu | div | divu | rem | remu | and | or | xor | sll | srl | sra | slt | sltu | min | max
    | adds | subs =>
    exact runWord_goes (intWord_keeps ..) s
  | fadd | fsub | fmul | fdiv | fmac | fmin | fmax | fsqrt | feq | flt | fle =>
    exact runWord_goes (fpWord_keeps ..) s
  | mov => exact execMov_goes _ _ _ _ _ _
  | sel => exact execSel_goes _ _ _ _ _ _ _ _
  | lbc => exact execLbc_goes _ _ _ _
  | lext => exact execLext_goes _ _ _ _ _
  | lins => exact execLins_goes _ _ _ _
  | pack => exact execPack_goes _ _ _ _ _ _ _ _
  | unpk => exact execUnpk_goes _ _ _ _ _ _ _ _
  | mlane => exact execMlane_goes _ _ _ _ _ _ _
  | mset => exact execMset_goes _ _ _
  | mget => exact execMget_goes _ _ _
  | sprd => exact execSprd_goes _ _ _
  | spwr => exact execSpwr_goes _ _ _
  | take => exact execTake_goes _ _ _ _
  | peek => exact execPeek_goes _ _ _ _
  | adv => exact execAdv_goes _ _ _
  | emit => exact execEmit_goes _ _ _
  | waitf => exact execWaitf_goes _ _ _ _
  | waite => exact execWaite_goes _ _ _ _
  | rrot => exact execRrot_goes _ _ _ _ _
  | lgen => exact execLgen_goes _ _ _ _ _
  | tcmp => exact execTcmp_goes _ _ _ _
  | tjoin => exact execTjoin_goes _ _ _ _
  | tmeet => exact execTmeet_goes _ _ _ _
  | tadv => exact execTadv_goes _ _ _ _
  | frd => exact execFrd_goes _ _ _
  | frdCnt => exact execFrdCnt_goes _ _ _
  | fwait => exact execFwait_goes _ _ _
  | caph => exact execCaph_goes _ _ _
  | capd => exact execCapd_goes _ _ _
  | capx => exact execCapx_goes _ _ _ _
  | ains => exact execAins_goes _ _ _ _ _
  | amrg => exact execAmrg_goes _ _ _ _
  | aprb => exact execAprb_goes _ _ _ _ _
  | acmp => exact execAcmp_goes _ _ _ _
  | acon => exact execAcon_goes _ _ _ _
  | join => exact execJoin_goes _ _ _ _ _ _ _
  | red => exact execRed_goes _ _ _ _ _ _
  | wrel => exact execWrel_goes _ _ _ _
  | aadd | amin | amax | aand | aor | axor | aswp | acas =>
    exact runWord_goes (atomWord_keeps ..) s
  | pwait | pgive | pswap | paban | prel =>
    exact runWord_goes (placeWord_keeps ..) s
  | cpy | gath | scat | trig | coll | flagst =>
    exact runWord_goes (engWord_keeps ..) s
  | thaw => exact execThaw_goes _ _ _
  | bubl => exact execBubl_goes _ _ _ _
  | addi | andi | ori | xori | slti | slli | srli | srai =>
    exact runWord_goes (intImm_keeps ..) s
  | movhi => exact runWord_goes (wrScalar_keeps ..) s
  | drain => exact execDrain_goes _ _
  | ldI8 | ldB8 | ldI16 | ldB16 | ldB32 | ldB64 | ldW | ldAcqB32 | ldAcqB64 =>
    exact runWord_goes (loadWord_keeps ..) s
  | stB8 | stB16 | stB32 | stB64 | stW | stRelB32 | stRelB64 =>
    exact runWord_goes (storeWord_keeps ..) s
  | ldf => exact execLdf_goes _ _ _ _ _
  | ldfe => exact execLdfe_goes _ _ _ _ _
  | ste => exact execSte_goes _ _ _ _ _
  | stf => exact execStf_goes _ _ _ _ _
  | feclr => exact execFeclr_goes _ _ _ _ _
  | place => exact execPlace_goes _ _ _ _
  | fence => exact execFence_goes _ _
  | mma => exact execMma_goes _ _ _ _ _ _ _ _
  | mmag => exact execMmag_goes _ _ _ _ _ _ _ _
  | ldt => exact execLdt_goes _ _ _ _
  | sortn => exact execSortn_goes _ _ _ _ _ _
  | cvt => exact execCvt_goes _ _ _ _ _ _
  | scld d a t f => exact execScld_goes _ _ _ f s
  | scem d a t f => exact execScem_goes _ _ _ f s
  | accld => exact execAccld_goes _ _ _ _
  | accst => exact execAccst_goes _ _ _ _ _
  | rmax | rmin | rclmp | rmed | rsats =>
    exact runWord_goes (wredWord_keeps ..) s
  | adjb => exact execAdjb_goes _ _ _ _ _
  | commit => exact execCommit_goes _
  | br => exact execBr_goes _ _ _ _ _ _
  | halt => exact execHalt_goes _
  | nop => exact execNop_goes _
  | circ | slot | best | width | scale =>
    exact id
  | endList => exact execEndList_goes _
  | blockFire => exact execBlockFire_goes _ _ _ _ _
  | instanceCommit => exact execInstanceCommit_goes _ _ _ _
  | elementFaultDelivery => exact execElementFaultDelivery_goes _ _
  | ereplayDiscard => exact execEreplayDiscard_goes _ _
  | ereplayRetry => exact execEreplayRetry_goes _ _
  | wfeWake => exact execWfeWake_goes _ _
  | wfeTimeout => exact execWfeTimeout_goes _ _
  | configSwap => exact execConfigSwap_goes _ _
  | routerForward => exact execRouterForward_goes _ _ _ _ _
  | generatorEmit => exact execGeneratorEmit_goes _ _ _ _
  | emitterSend => exact execEmitterSend_goes _ _ _ _
  | rrotRotate => exact execRrotRotate_goes _ _
  | scaleTokenArrive => exact execScaleTokenArrive_goes _ _ _
  | bankReplay => exact execBankReplay_goes _ _ _
  | streamStep => exact execStreamStep_goes _ _ _
  | repairStep => exact execRepairStep_goes _ _ _
  | faultRecordWrite => exact execFaultRecordWrite_goes _ _ _
  | resume => exact execResume_goes _ _ _
  | escalation => exact execEscalation_goes _ _ _
  | feTimeout => exact execFeTimeout_goes _ _ _ _
  | bufferStep => exact execBufferStep_goes _ _ _
  | placeStep => exact execPlaceStep_goes _ _ _
  | drainStep => exact execDrainStep_goes _ _ _
  | readStep => exact execReadStep_goes _ _ _
  | ownerStep => exact execOwnerStep_goes _ _ _
  | releaseStep => exact execReleaseStep_goes _ _ _
  | installStep => exact execInstallStep_goes _ _ _ _
  | frontCountExchange => exact execFrontCountExchange_goes _ _
  | walk => exact execWalk_goes _ _ _ _
  | tableMigrate => exact execTableMigrate_goes _ _ _
  | engineComplete => exact execEngineComplete_goes _ _
  | gatherBurst => exact execGatherBurst_goes _ _ _
  | triggerEvaluate => exact execTriggerEvaluate_goes _ _ _
  | deadlockProbe => exact execDeadlockProbe_goes _ _ _
  | probeForward => exact execProbeForward_goes _ _ _
  | doorbell => exact execDoorbell_goes _ _ _ _
  | fqhead => exact execFqhead_goes _ _ _
  | verrClear => exact execVerrClear_goes _ _ _
  | bar0WriteOther => exact execBar0WriteOther_goes _ _ _
  | hostWrite => exact execHostWrite_goes _ _ _ _
  | hostRead => exact execHostRead_goes _ _ _ _
  | packetTake => exact execPacketTake_goes _ _
  | packetTrigger => exact execPacketTrigger_goes _ _
  | packetStart => exact execPacketStart_goes _ _
  | configLoad => exact execConfigLoad_goes _ _
  | stage => exact execStage_goes _ _
  | loadNaturalEnd => exact execLoadNaturalEnd_goes _ _
  | loadCompletionRecord => exact execLoadCompletionRecord_goes _ _
  | loadFreeze => exact execLoadFreeze_goes _ _
  | evict => exact execEvict_goes _ _
  | restore => exact execRestore_goes _ _
  | preempt => exact execPreempt_goes _ _
  | loadMove => exact execLoadMove_goes _ _
  | watchdogExpiry => exact execWatchdogExpiry_goes _ _
  | patchPowerGate => exact execPatchPowerGate_goes _ _
  | patchWake => exact execPatchWake_goes _ _
  | pcreate => exact execPcreate_goes _ _ _ _ _
  | pdestroy => exact execPdestroy_goes _ _
  | grant => exact execGrant_goes _ _
  | qset => exact execQset_goes _ _
  | qenable => exact execQenable_goes _ _
  | qdisable => exact execQdisable_goes _ _
  | vfbind => exact execVfbind_goes _ _ _
  | wdack => exact execWdack_goes _ _
  | thawCommand => exact execThawCommand_goes _ _
  | lend => exact execLend_goes _ _
  | ldiscard => exact execLdiscard_goes _ _
  | lpreempt => exact execLpreempt_goes _ _
  | inval => exact execInval_goes _ _ _ _
  | timeouts => exact execTimeouts_goes _ _
  | route => exact execRoute_goes _ _
  | slotld => exact execSlotld_goes _ _ _
  | migrate => exact execMigrate_goes _ _ _ _
  | readSaveFrame => exact execReadSaveFrame_goes _ _ _ _
  | readSlipcnt => exact execReadSlipcnt_goes _ _ _
  | readLinkErrors => exact execReadLinkErrors_goes _ _ _
  | readFailureMap => exact execReadFailureMap_goes _ _
  | readBootReport => exact execReadBootReport_goes _ _ _
  | readDeviceState => exact execReadDeviceState_goes _ _
  | readIdentityCert => exact execReadIdentityCert_goes _ _
  | readThrottle => exact execReadThrottle_goes _ _
  | rd => exact execRd_goes _ _ _
  | rdr => exact execRdr_goes _ _ _
  | wr => exact execWr_goes _ _ _
  | wra => exact execWra_goes _ _ _
  | atom => exact execAtom_goes _ _ _
  | atomr => exact execAtomr_goes _ _ _
  | flaginc => exact execFlaginc_goes _ _ _
  | cust => exact execCust_goes _ _ _
  | err => exact execErr_goes _ _ _
  | redir => exact execRedir_goes _ _ _
  | sync => exact execSync_goes _ _ _
  | syncSend => exact execSyncSend_goes _ _
  | collPacket => exact execCollPacket_goes _ _ _
  | fabricForward => exact execFabricForward_goes _ _ _
  | flitReplay => exact execFlitReplay_goes _ _ _
  | custodyResend => exact execCustodyResend_goes _ _
  | custodyTimeout => exact execCustodyTimeout_goes _ _
  | collectiveStart => exact execCollectiveStart_goes _ _ _
  | tileArrival => exact execTileArrival_goes _ _ _ _
  | collectiveComplete => exact execCollectiveComplete_goes _ _
  | collectiveBudgetExpiry => exact execCollectiveBudgetExpiry_goes _ _
  | framePull => exact execFramePull_goes _ _ _ _ _
  | stubForward => exact execStubForward_goes _ _
  | migrateAbort => exact execMigrateAbort_goes _ _
  | deviceReset => exact execDeviceReset_goes _
  | powerGood => exact execPowerGood_goes _ _
  | selftestDone => exact execSelftestDone_goes _ _
  | calibrationDone => exact execCalibrationDone_goes _ _ _
  | patchJoinFull => exact execPatchJoinFull_goes _ _
  | throttleRise => exact execThrottleRise_goes _ _ _ _
  | throttleFall => exact execThrottleFall_goes _ _
  | thermalShutdown => exact execThermalShutdown_goes _ _
  | linkStart => exact execLinkStart_goes _ _ _ _ _
  | reservedControlWord => exact execReservedControlWord_goes _ _
  | unknownCommand => exact execUnknownCommand_goes _ _

@[simp] theorem State.keepWord_mem (s : State) (p a : Nat) : (s.keepWord p a).mem = s.mem := by
  grind [State.keepWord, setSeq_mem]

@[simp] theorem State.started_mem (s : State) (p : Nat) : (s.started p).mem = s.mem := by
  grind [State.started, State.modLoad_mem]

@[simp] theorem State.offEnd_mem (s : State) (p : Nat) : (s.offEnd p).mem = s.mem := by
  grind [State.offEnd, State.seqFault_mem]

@[simp] theorem State.begin_mem (s : State) (p : Nat) : (s.begin p).mem = s.mem := by
  grind [State.begin, setSeq_mem]

theorem State.seqTurn_goes (s : State) (p : Nat) : Goes s (s.seqTurn p) := by
  have ht : s.mem.wf = true → (((s.started p).keepWord p (s.seq p).pc.toNat).begin p).mem.wf = true := fun h => by simpa using h
  unfold State.seqTurn
  extract_lets q w t
  split
  · exact id
  · split
    · exact fun h => (congrArg Memory.wf (State.offEnd_mem ..)).trans h
    · split
      · exact exec_goes _ s
      · split
        · exact exec_goes _ s
        · split
          · exact (exec_goes _ t).of_wf ht
          · exact (execReservedControlWord_goes _ t).of_wf ht

theorem badWord_keeps : badWord.Keeps := by
  grind [badWord, W.illop_keeps]

theorem State.runNext_goes (s : State) (p e n : Nat) : Goes s (s.runNext p e n) := by
  unfold State.runNext
  extract_lets t
  have ht : s.mem.wf = true → t.mem.wf = true := id
  split
  · split
    · exact (exec_goes _ t).of_wf ht
    · exact (runWord_goes badWord_keeps t).of_wf ht
  · exact ht

theorem State.runAt_goes (s : State) (p e : Nat) (i : Inst) (k : Nat) : Goes s (s.runAt p e i k) := by
  refine (State.runNext_goes _ p e i.id).of_wf fun h => ?_
  exact (congrArg Memory.wf (State.putInst_mem ..)).trans h

theorem State.aheadTo_mem {s t : State} {p e : Nat} {i : Inst} {k : Nat} {t' : State} (h : s.aheadTo t p e i k = some t') :
    t'.mem = t.mem := by
  grind [State.aheadTo, State.putInst_mem]

theorem State.wordTurn_goes (s : State) (p e n : Nat) : Goes s (s.wordTurn p e n) := by
  grind [State.wordTurn, Goes, State.runNext_goes]

theorem State.aheadTurn_goes (s : State) (p e n k : Nat) : Goes s (s.aheadTurn p e n k) := by
  unfold State.aheadTurn
  split
  · exact id
  · next i _ =>
    have hr := s.runAt_goes p e i k
    split
    · exact id
    · split
      · next t e =>
        rw [e] at hr
        exact fun h => getD_wf h fun u hu => (congrArg Memory.wf (State.aheadTo_mem hu)).trans (hr h)
      · exact hr

@[simp] theorem State.operandTurn_mem (s : State) (p e n a : Nat) : (s.operandTurn p e n a).mem = s.mem := by
  grind [State.operandTurn, → State.readOperand_mem, State.present_mem, State.keepGot_mem, State.startUnit_mem]

@[simp] theorem State.portWordTurn_mem (s : State) (p k a : Nat) : (s.portWordTurn p k a).mem = s.mem := by
  unfold State.portWordTurn
  extract_lets b x pt
  split
  · split
    · rfl
    · split
      · split
        · split
          · next e => exact (setPort_mem ..).trans (State.readNow_mem e)
          · rfl
        · rfl
      · rfl
  · rfl

theorem State.switchTurn_goes (s : State) (p e n : Nat) : Goes s (s.switchTurn p e n) := by
  grind [State.switchTurn, Goes, exec_goes]

theorem State.eventTurn_goes (s : State) (i : Instr) : Goes s (s.eventTurn i) := by
  unfold State.eventTurn
  split
  · exact id
  · split
    · exact exec_goes _ s
    · exact id

theorem State.move_goes (s : State) (x : Who) : Goes s (s.move x) := by
  cases x with
  | seq p => exact s.seqTurn_goes p
  | word p e n => exact s.wordTurn_goes p e n
  | ahead p e n k => exact s.aheadTurn_goes p e n k
  | switch p e n => exact s.switchTurn_goes p e n
  | operand p e n a => exact fun h => (congrArg Memory.wf (State.operandTurn_mem ..)).trans h
  | portWord p k a => exact fun h => (congrArg Memory.wf (State.portWordTurn_mem ..)).trans h
  | event i => exact s.eventTurn_goes i

theorem State.follow_wf {s : State} (h : s.mem.wf = true) : s.follow.mem.wf = true := by
  grind [State.follow, State.watch_mem, State.readOuts_wf, State.watchPackets_mem, State.fenceAll_wf]

theorem State.run_goes (s : State) (t : Turn) : Goes s (s.run t) := by
  have h := State.move_goes { s with clock := s.clock.advance t.wait, cur := t.who.cur s.cur } t.who
  unfold State.run
  split
  · next u e =>
    rw [e] at h
    exact fun hs => State.follow_wf (h hs)
  · exact h.of_wf id

@[simp] theorem State.takeTurn_mem (s : State) : s.takeTurn.2.mem = s.mem := by
  unfold State.takeTurn
  split <;> rfl

theorem step_goes (s : State) : Goes s (step s) :=
  (State.run_goes s.takeTurn.2 s.takeTurn.1).of_wf fun h => (congrArg Memory.wf s.takeTurn_mem).trans h

/-- Settles O6: `step_goes`, the canonical form being kept by what each instruction and event does to the machine. -/
theorem memoryStaysCanonical : Obligations.MemoryStaysCanonical := by
  intro s t hs ht
  have h := step_goes s
  rw [ht] at h
  exact h hs

end Sys2Proof.Machine
end

section
/-! SUPPORT. What a step does with the turn that it takes, whoever has it, and the settling of O2. -/

namespace Sys2Proof.Machine

/-- The machine as its turn finds it: the turn is off the agenda, its cycles have passed, and `c` has it. -/
def State.turned (s : State) (w : Nat) (rest : List Turn) (c : Cur) : State :=
  { s with agenda := rest, clock := s.clock.advance w, cur := c }

/-- The machine as the word at pc of a sequencer finds it: the load has started, the loop buffer has what the fetch leaves, and the word has
begun. -/
def State.wordBegun (s : State) (p : Nat) : State := ((s.started p).keepWord p (s.seq p).pc.toNat).begin p

theorem Goes.next_exists {s : State} {r : Res} (h : Goes s r) : ∃ t, r = .next t := by
  cases r with
  | next t => exact ⟨t, rfl⟩
  | fault f => exact h.elim
  | refused q => exact h.elim

section
variable {s : State} {w : Nat} {x : Who} {rest : List Turn}

theorem step_of_move (h : s.agenda = ⟨w, x⟩ :: rest) {t : State} (hm : (s.turned w rest (x.cur s.cur)).move x = .next t) :
    step s = .next t.follow := by
  simp only [State.turned] at hm
  simp [step, State.takeTurn, h, State.run, hm]

/-- Where the turn comes to an instruction, the step is what that instruction does. -/
theorem step_of_move_exec (h : s.agenda = ⟨w, x⟩ :: rest) {i : Instr} {u : State}
    (hm : (s.turned w rest (x.cur s.cur)).move x = exec i u) : ∃ t, exec i u = .next t ∧ step s = .next t.follow := by
  obtain ⟨t, ht⟩ := (exec_goes i u).next_exists
  exact ⟨t, ht, step_of_move h (hm.trans ht)⟩

end

/-! ### The turn of a sequencer -/

theorem exec_reservedControlWord {s : State} {p : Nat} (hc : s.cur.patch = p) (x : Nat) :
    exec (.reservedControlWord (BitVec.ofNat 32 x)) s = .next (s.seqFault p s.seqAt .illop 0 (BitVec.ofNat 64 (x % 2 ^ 32))) := by
  have hx : (BitVec.ofNat 32 x).setWidth 64 = BitVec.ofNat 64 (x % 2 ^ 32) := by
    apply BitVec.eq_of_toNat_eq
    simp
  rw [← hx, ← hc]
  rfl

theorem Seq.fetch_of_no_holder {q : Seq} {a : Nat} (h : q.holder a = none) : q.fetch a = Terms.storeValue q a 4 := by
  simp [Seq.fetch, h, Seq.stored, Terms.storeValue, cellRead, leNat]

section
variable {s : State} {p : Nat}

theorem State.seqTurn_of_not_issues (h : s.issues p = false) : s.seqTurn p = .next s := by
  simp [State.seqTurn, h]

theorem State.seqTurn_of_report (hi : s.issues p = true) (hpc : (s.seq p).pc ≠ 0x10000) (hr : (s.patch p).reports ≠ [])
    (hx : (s.seq p).xt = false) (hb : (s.seq p).begun = false ∨ (s.seq p).wf = true) :
    s.seqTurn p = exec (.elementFaultDelivery p) s := by
  unfold State.seqTurn
  dsimp only
  rw [if_neg (by simp [hi]), if_neg hpc, if_pos (by simp [hr, hx, Seq.between, hb])]

/-- A sequencer whose word at pc comes next: no trap, no report and no wait comes before it. -/
theorem State.seqTurn_of_word (hi : s.issues p = true) (hpc : (s.seq p).pc ≠ 0x10000)
    (hr : (s.patch p).reports = [] ∨ (s.seq p).xt = true ∨ (s.seq p).begun = true) (hw : (s.seq p).wf = false) :
    (∀ i, decodeCtl ((s.seq p).fetch (s.seq p).pc.toNat) = .ok i → s.seqTurn p = exec i (s.wordBegun p)) ∧
    (∀ e, decodeCtl ((s.seq p).fetch (s.seq p).pc.toNat) = .error e → s.seqTurn p =
      exec (.reservedControlWord (BitVec.ofNat 32 ((s.seq p).fetch (s.seq p).pc.toNat))) (s.wordBegun p)) := by
  have hn : ¬((!(s.patch p).reports.isEmpty && !(s.seq p).xt && (s.seq p).between) = true) := by
    rcases hr with h | h | h <;> simp [h, Seq.between, hw]
  have hs : s.seqTurn p = match decodeCtl ((s.seq p).fetch (s.seq p).pc.toNat) with
      | .ok i => exec i (s.wordBegun p)
      | .error _ => execReservedControlWord (BitVec.ofNat 32 ((s.seq p).fetch (s.seq p).pc.toNat)) (s.wordBegun p) := by
    unfold State.seqTurn
    dsimp only
    rw [if_neg (by simp [hi]), if_neg hpc, if_neg hn, if_neg (by simp [hw])]
    rfl
  exact ⟨fun i hd => by rw [hs, hd], fun e hd => by rw [hs, hd]; rfl⟩

/-! What stands before the word at pc runs (R124, R385): the load's start, what the loop buffer holds, and a free choice at most. -/

@[simp] theorem State.started_patches (s : State) (p : Nat) : (s.started p).patches = s.patches := by
  unfold State.started
  split <;> rfl

theorem State.keepWord_patch (s : State) (p a : Nat) :
    ∃ h, (s.keepWord p a).patch p = { s.patch p with seq := { (s.patch p).seq with held := h } } := by
  unfold State.keepWord
  dsimp only
  split
  · split
    · exact ⟨_, rfl⟩
    · split
      · exact ⟨_, patch_setPatch_same ..⟩
      · split
        · exact ⟨_, patch_setPatch_same ..⟩
        · exact ⟨_, rfl⟩
  · exact ⟨_, rfl⟩

theorem State.keepWord_patch_ne (s : State) {p n : Nat} (a : Nat) (h : n ≠ p) : (s.keepWord p a).patch n = s.patch n := by
  unfold State.keepWord
  dsimp only
  split
  · split
    · rfl
    · split
      · exact patch_setPatch_ne _ _ h
      · split
        · exact patch_setPatch_ne _ _ h
        · rfl
  · rfl

theorem State.keepWord_else (s : State) (p a : Nat) : { s.keepWord p a with patches := s.patches, free := s.free } = s := by
  unfold State.keepWord
  dsimp only
  split
  · split
    · rfl
    · split
      · rfl
      · split <;> rfl
  · rfl

theorem State.started_else (s : State) (p : Nat) : { s.started p with loads := s.loads } = s := by
  unfold State.started
  split <;> rfl

theorem State.wordBegun_patch (s : State) (p : Nat) :
    ∃ h, (s.wordBegun p).patch p = { s.patch p with seq := { s.seq p with held := h, begun := true } } := by
  obtain ⟨h, hk⟩ := (s.started p).keepWord_patch p (s.seq p).pc.toNat
  have hs : (s.started p).patch p = s.patch p := by simp [State.patch]
  rw [hs] at hk
  exact ⟨h, (patch_setPatch_same ..).trans (congrArg (fun x : Patch => { x with seq := { x.seq with begun := true } }) hk)⟩

theorem State.wordBegun_patch_ne (s : State) {p n : Nat} (h : n ≠ p) : (s.wordBegun p).patch n = s.patch n := by
  refine (patch_setPatch_ne _ _ h).trans ((State.keepWord_patch_ne _ _ h).trans ?_)
  simp [State.patch]

theorem State.wordBegun_else (s : State) (p : Nat) :
    { s.wordBegun p with patches := s.patches, loads := s.loads, free := s.free } = s := by
  have hk := congrArg (fun x : State => { x with patches := s.patches, loads := s.loads, free := s.free })
    ((s.started p).keepWord_else p (s.seq p).pc.toNat)
  have hs := congrArg (fun x : State => { x with patches := s.patches, free := s.free }) (s.started_else p)
  exact hk.trans hs

theorem State.wordBegun_cur (s : State) (p : Nat) : (s.wordBegun p).cur = s.cur := by
  have h := congrArg State.cur (s.wordBegun_else p)
  exact h

end

/-! ### The turns of element words, switch words and events -/

theorem inst_putInst {s : State} {p e n : Nat} {i j : Inst} (h : (s.elem p e).inst n = some i) (hj : j.id = n) :
    ((s.putInst p e j).elem p e).inst n = some j := by
  have hi : i.id = n := by simpa using List.find?_some h
  have hf : (fun x : Inst => x.id == n) ∘ (fun x : Inst => if x.id = j.id then j else x) = fun x => x.id == n := by
    subst hj
    funext x
    by_cases hx : x.id = j.id <;> simp [hx]
  simp only [State.putInst, elem_setElem_same, Elem.inst, List.find?_map, hf]
  rw [show (s.elem p e).insts.find? (fun x => x.id == n) = some i from h]
  simp [hi, hj]

theorem blocks_putInst (s : State) (p e : Nat) (j : Inst) : ((s.putInst p e j).elem p e).blocks = (s.elem p e).blocks := by
  simp [State.putInst]

theorem State.nextWord_of_inst {s : State} {p e n : Nat} {i : Inst} {b : Block} (hi : (s.elem p e).inst n = some i)
    (hb : smFind (s.elem p e).blocks i.blk = some b) (hf : i.st = .fired) : s.nextWord p e n = b.words[i.pc]? := by
  simp [State.nextWord, hi, hb, hf]

theorem State.runNext_of_word {s : State} {p e n : Nat} (hc : s.cur = ⟨p, e, n⟩) {wd : Word} {i : Instr}
    (hw : s.nextWord p e n = some wd) (hd : decodeElem wd.toNat = .ok i) : s.runNext p e n = exec i s := by
  have hs : { s with cur := ⟨p, e, n⟩ } = s := hc ▸ rfl
  unfold State.runNext
  rw [hs]
  dsimp only
  rw [hw]
  dsimp only
  rw [hd]

theorem Elem.fired_of_mayPass {v : Elem} {i : Inst} {k : Nat} (h : v.mayPass i k = true) : i.st = .fired := by
  unfold Elem.mayPass at h
  split at h
  · cases h
  · simp only [Bool.and_eq_true, beq_iff_eq] at h
    exact h.1.1.1.1.1

/-- A word that may issue ahead, run as if the words before it had completed. -/
theorem State.runAt_of_word {s : State} {p e n k : Nat} (hc : s.cur = ⟨p, e, n⟩) {i : Inst} (hi : (s.elem p e).inst n = some i)
    (hm : (s.elem p e).mayPass i k = true) {b : Block} {wd : Word} {j : Instr} (hb : smFind (s.elem p e).blocks i.blk = some b)
    (hw : b.words[k]? = some wd) (hd : decodeElem wd.toNat = .ok j) :
    s.runAt p e i k = exec j (s.putInst p e (Terms.standsAt i k)) := by
  have hn : i.id = n := by simpa using List.find?_some hi
  have hp : ((s.putInst p e (Terms.standsAt i k)).elem p e).inst n = some (Terms.standsAt i k) := inst_putInst hi hn
  have hb' : smFind ((s.putInst p e (Terms.standsAt i k)).elem p e).blocks (Terms.standsAt i k).blk = some b := by
    rw [blocks_putInst]
    exact hb
  have hx : (s.putInst p e (Terms.standsAt i k)).nextWord p e n = some wd :=
    (State.nextWord_of_inst hp hb' (Elem.fired_of_mayPass (i := i) hm)).trans hw
  refine Eq.trans ?_ (State.runNext_of_word (s := s.putInst p e (Terms.standsAt i k)) hc hx hd)
  rw [← hn]
  rfl

theorem State.aheadTurn_of_passes {s : State} {p e n k : Nat} {i : Inst} (hi : (s.elem p e).inst n = some i)
    (ht : s.itsTurn p e n = true) (hm : (s.elem p e).mayPass i k = true) {t : State} (hr : s.runAt p e i k = .next t) :
    s.aheadTurn p e n k = .next ((s.aheadTo t p e i k).getD s) := by
  simp [State.aheadTurn, hi, ht, hm, hr]

theorem State.aheadTurn_of_not_passes {s : State} {p e n k : Nat} {i : Inst} (hi : (s.elem p e).inst n = some i)
    (h : s.itsTurn p e n = false ∨ (s.elem p e).mayPass i k = false) : s.aheadTurn p e n k = .next s := by
  rcases h with h | h <;> simp [State.aheadTurn, hi, h]

theorem State.switchTurn_of_word {s : State} {p e n : Nat} {i : Instr} (h : s.switchWord p e n = some i) :
    s.switchTurn p e n = exec i s := by
  simp [State.switchTurn, h]

theorem State.eventTurn_of_event (s : State) {i : Instr} (hk : i.kind = .event) (hw : i.wf = true)
    (hx : ∀ x, i ≠ .reservedControlWord x) : s.eventTurn i = exec i s := by
  unfold State.eventTurn
  split
  · next r => exact absurd rfl (hx r)
  · exact if_pos ⟨hk, hw⟩

/-! ### What follows a move -/

theorem Patch.watch_of_no_triggers {x : Patch} (h : x.triggers = []) (read : Nat → Nat) : x.watch read = x := by
  obtain ⟨⟩ := x
  simp only at h
  subst h
  rfl

theorem Queue.eval_of_empty {q : Queue} (hh : q.head = none) (hs : q.staged = none) (s : State) : q.eval s = q := by
  obtain ⟨⟩ := q
  simp only at hh hs
  subst hh hs
  simp [Queue.eval]

/-- Nothing is armed that what follows a move would look at. -/
theorem State.follow_of_idle {s : State} (hp : ∀ x ∈ s.patches, x.2.triggers = [] ∧ x.2.calBad = false)
    (hq : ∀ x ∈ s.queues, x.2.head = none ∧ x.2.staged = none) (hc : s.colls = []) (hl : s.loads = []) : s.follow = s := by
  have hw : s.watch = s := by
    have h : s.patches.map (fun x => (x.1, x.2.watch s.counter)) = s.patches :=
      (List.map_congr_left fun x hx => by rw [Patch.watch_of_no_triggers (hp x hx).1, id]).trans (List.map_id _)
    unfold State.watch
    rw [h, hl]
    rw [List.map_nil, ← hl]
  have hk : s.watchPackets = s := by
    have h : s.queues.map (fun x => (x.1, x.2.eval s)) = s.queues :=
      (List.map_congr_left fun x hx => by rw [Queue.eval_of_empty (hq x hx).1 (hq x hx).2, id]).trans (List.map_id _)
    unfold State.watchPackets
    rw [h, hc]
    rw [List.map_nil, ← hc]
  have hf : s.fenceAll = s := by
    have h : s.patches.filter (fun x => x.2.calBad) = [] := List.filter_eq_nil_iff.2 fun x hx => by simp [(hp x hx).2]
    simp [State.fenceAll, h]
  have hr : s.readOuts = s := by simp [State.readOuts, hl]
  rw [State.follow, hw, hk, hf, hr]

/-- Settles O2: each kind of turn by the lemma that says what it comes to. -/
theorem stepRunsTheDecodedWord : Obligations.StepRunsTheDecodedWord := by
  unfold Obligations.StepRunsTheDecodedWord
  intro s w rest runs begun
  refine ⟨fun p h => ?_, fun p e n h => ?_, fun p e n k h => ?_, fun p e n a h => ?_, fun p k a h => ?_, fun p e n h i hi => ?_,
    fun i h hk hw hx => ?_, State.follow_of_idle⟩
  · intro u q t
    refine ⟨fun hi => step_of_move h (State.seqTurn_of_not_issues hi), fun hi hpc hr hw => ?_, fun hi hpc hr hx hb => ?_,
      u.wordBegun_patch p, fun n hn => u.wordBegun_patch_ne hn, u.wordBegun_else p⟩
    · obtain ⟨hok, herr⟩ := State.seqTurn_of_word hi hpc hr hw
      refine ⟨Seq.fetch_of_no_holder, fun i hd => step_of_move_exec h (hok i hd), fun e hd => ?_⟩
      refine ⟨step_of_move_exec h (herr e hd), step_of_move h ((herr e hd).trans ?_)⟩
      exact exec_reservedControlWord (congrArg Cur.patch (u.wordBegun_cur p)) _
    · exact step_of_move_exec h (State.seqTurn_of_report hi hpc hr hx hb)
  · refine ⟨fun ht wd i hw hd => ?_, fun ht => ?_⟩
    · refine step_of_move_exec h ((if_pos ht).trans ?_)
      exact State.runNext_of_word rfl hw hd
    · exact step_of_move h (if_neg (Bool.eq_false_iff.1 ht))
  · intro u i hi
    refine ⟨fun ht hm b wd j hb hw hd => ?_, fun hn => step_of_move h (State.aheadTurn_of_not_passes hi hn)⟩
    obtain ⟨t, he⟩ := (exec_goes j (u.putInst p e (Terms.standsAt i k))).next_exists
    have hr : u.runAt p e i k = .next t := (State.runAt_of_word rfl hi hm hb hw hd).trans he
    exact ⟨t, he, step_of_move h (State.aheadTurn_of_passes hi ht hm hr)⟩
  · exact step_of_move h rfl
  · exact step_of_move h rfl
  · exact step_of_move_exec h (State.switchTurn_of_word hi)
  · exact step_of_move_exec h (State.eventTurn_of_event _ hk hw hx)

end Sys2Proof.Machine
end

section
/-! SUPPORT. What a read finds (R306), what a load fills (R210), the owner steps of LDFE and STE (R213), and the settling of O48. -/

namespace Sys2Proof.Machine

/-! ### What a read finds -/

/-- What an agent's own waiting stores say of a byte, the ones below `n` of a list of accesses, the later over the earlier. -/
def ownStored (ag : AgentId) (n a : Nat) (l : List Access) (r : Option Byte) : Option Byte :=
  l.foldl (fun r x => if x.agent == ag && decide (x.id < n) then
      match x.op with
      | .store st => match st.bytes.find? (fun b => b.1 == a) with
        | some b => some b.2
        | none => r
      | _ => r
    else r) r

/-- None of an agent's waiting stores below `n` names a byte. -/
def NotStored (ag : AgentId) (n a : Nat) (l : List Access) : Prop :=
  ∀ y ∈ l, y.agent = ag → y.id < n → ∀ u, y.op = .store u → ∀ c ∈ u.bytes, c.1 ≠ a

theorem ownStored_of_not_stored {ag : AgentId} {n a : Nat} {l : List Access} (h : NotStored ag n a l) (r : Option Byte) :
    ownStored ag n a l r = r := by
  induction l with
  | nil => rfl
  | cons x l ih =>
    have hl : NotStored ag n a l := fun y hy => h y (List.mem_cons_of_mem x hy)
    refine (congrArg (fun r => ownStored ag n a l r) ?_).trans (ih hl)
    dsimp only
    split
    · next hx =>
      simp only [Bool.and_eq_true, beq_iff_eq, decide_eq_true_eq] at hx
      split
      · next st hst =>
        have hn : st.bytes.find? (fun b => b.1 == a) = none :=
          List.find?_eq_none.2 fun c hc => by simpa using h x (List.mem_cons_self ..) hx.1 hx.2 st hst c hc
        rw [hn]
      · rfl
    · rfl

/-- The last store of the agent that names the byte has its value. -/
theorem ownStored_of_last {ag : AgentId} {n a : Nat} {b : Byte} {pre post : List Access} {x : Access} {st : Store} (ha : x.agent = ag)
    (hn : x.id < n) (hst : x.op = .store st) (hb : st.bytes.find? (fun c => c.1 == a) = some (a, b)) (hp : NotStored ag n a post)
    (r : Option Byte) : ownStored ag n a (pre ++ x :: post) r = some b := by
  unfold ownStored
  rw [List.foldl_append, List.foldl_cons]
  refine (ownStored_of_not_stored hp _).trans ?_
  simp [ha, hn, hst, hb]

theorem youngest_eq_none {a : Nat} {l : List VisEntry} (h : ∀ e ∈ l, ∀ c ∈ e.bytes, c.1 ≠ a) : youngest a l = none := by
  induction l with
  | nil => rfl
  | cons e r ih =>
    have he : e.bytes.find? (fun b => b.1 == a) = none :=
      List.find?_eq_none.2 fun c hc => by simpa using h e (List.mem_cons_self ..) c hc
    simp [youngest, ih fun x hx => h x (List.mem_cons_of_mem e hx), he]

section
variable {s : State} {a : Nat}

theorem State.readVis_of_none {l : List VisId} (h : ∀ v ∈ l, youngest a (s.ord.buffer v) = none) :
    s.readVis a l = (s.mem.get a, smGet 0 s.ord.ages a) := by
  induction l with
  | nil => rfl
  | cons v r ih =>
    rw [State.readVis, h v (List.mem_cons_self ..)]
    exact ih fun w hw => h w (List.mem_cons_of_mem v hw)

theorem State.readVis_of_first {pre post : List VisId} {v : VisId} {e : VisEntry} {b : Byte}
    (hp : ∀ w ∈ pre, youngest a (s.ord.buffer w) = none) (hv : youngest a (s.ord.buffer v) = some (e, b)) :
    s.readVis a (pre ++ v :: post) = (b, e.age) := by
  induction pre with
  | nil => rw [List.nil_append, State.readVis, hv]
  | cons w r ih =>
    rw [List.cons_append, State.readVis, hp w (List.mem_cons_self ..)]
    exact ih fun x hx => hp x (List.mem_cons_of_mem w hx)

variable {ag : AgentId} {n : Nat} {sc : Scope}

theorem State.readByte_eq (s : State) (ag : AgentId) (n : Nat) (sc : Scope) (a : Nat) : s.readByte ag n sc a =
    match ownStored ag n a s.ord.accs none with
    | some b => (b, none)
    | none => match ((s.chain ag).filter (fun v => decide (VisId.rank v < Scope.rank sc))).findSome?
        (fun v => youngest a ((s.ord.buffer v).filter (fun e => e.agent == ag))) with
      | some (x, b) => (b, some x.age)
      | none => ((s.readVis a ((s.chain ag).filter (fun v => decide (Scope.rank sc ≤ VisId.rank v)))).1,
        some (s.readVis a ((s.chain ag).filter (fun v => decide (Scope.rank sc ≤ VisId.rank v)))).2) := rfl

theorem State.readByte_of_stored {b : Byte} (h : ownStored ag n a s.ord.accs none = some b) : s.readByte ag n sc a = (b, none) := by
  rw [State.readByte_eq, h]

/-- Neither a waiting store of the agent nor an entry of its own in a narrower buffer has the byte: the chain from the scope on says. -/
theorem State.readByte_of_chain (h : NotStored ag n a s.ord.accs)
    (hn : ∀ v ∈ (s.chain ag).filter (fun v => decide (VisId.rank v < Scope.rank sc)),
      youngest a ((s.ord.buffer v).filter (fun e => e.agent == ag)) = none) :
    s.readByte ag n sc a = ((s.readVis a ((s.chain ag).filter (fun v => decide (Scope.rank sc ≤ VisId.rank v)))).1,
      some (s.readVis a ((s.chain ag).filter (fun v => decide (Scope.rank sc ≤ VisId.rank v)))).2) := by
  rw [State.readByte_eq, ownStored_of_not_stored h, List.findSome?_eq_none_iff.2 hn]

end

theorem one_le_rank (v : VisId) : 1 ≤ VisId.rank v := by
  cases v <;> simp [VisId.rank]

/-- Of the buffers of a chain none is narrower than scope patch. -/
theorem filter_patch_le (l : List VisId) : l.filter (fun v => decide (Scope.rank .patch ≤ VisId.rank v)) = l :=
  List.filter_eq_self.2 fun v _ => decide_eq_true (one_le_rank v)

theorem filter_lt_patch (l : List VisId) : l.filter (fun v => decide (VisId.rank v < Scope.rank .patch)) = [] :=
  List.filter_eq_nil_iff.2 fun v _ => by simpa [Scope.rank] using Nat.one_le_iff_ne_zero.1 (one_le_rank v)

theorem readByte_finds (s : State) (a : AgentId) (n ad : Nat) (sc : Scope) :
    (∀ b, (∃ pre x post st, s.ord.accs = pre ++ x :: post ∧ x.agent = a ∧ x.id < n ∧ x.op = .store st ∧
        st.bytes.find? (fun c => c.1 == ad) = some (ad, b) ∧ NotStored a n ad post) → s.readByte a n sc ad = (b, none)) ∧
    (NotStored a n ad s.ord.accs → (∀ v ∈ s.chain a, ∀ e ∈ s.ord.buffer v, ∀ c ∈ e.bytes, c.1 ≠ ad) →
      s.readByte a n sc ad = (s.mem.get ad, some (smGet 0 s.ord.ages ad))) ∧
    (NotStored a n ad s.ord.accs → sc = .patch → ∀ v pre post e b, s.chain a = pre ++ v :: post →
      (∀ w ∈ pre, youngest ad (s.ord.buffer w) = none) → youngest ad (s.ord.buffer v) = some (e, b) →
      s.readByte a n sc ad = (b, some e.age)) := by
  refine ⟨fun b h => ?_, fun h hc => ?_, fun h hs v pre post e b hc hp hv => ?_⟩
  · obtain ⟨pre, x, post, st, hl, ha, hn, hst, hb, hp⟩ := h
    exact State.readByte_of_stored (hl ▸ ownStored_of_last ha hn hst hb hp none)
  · rw [State.readByte_of_chain h fun v hv => youngest_eq_none fun e he => hc v (List.mem_of_mem_filter hv) e (List.mem_of_mem_filter he),
      State.readVis_of_none fun v hv => youngest_eq_none (hc v (List.mem_of_mem_filter hv))]
  · subst hs
    rw [State.readByte_of_chain h (by simp [filter_lt_patch]), filter_patch_le, hc, State.readVis_of_first hp hv]

/-! ### What a load fills -/

theorem mem_noted_self (l : List Nat) (n : Nat) : n ∈ noted l n := by
  unfold noted
  split
  · simpa using ‹l.contains n = true›
  · exact List.mem_cons_self ..

theorem mem_noted_of_mem {l : List Nat} {m : Nat} (h : m ∈ l) (n : Nat) : m ∈ noted l n := by
  unfold noted
  split
  · exact h
  · exact List.mem_cons_of_mem n h

/-- The number that bytes spell, as the sum of its bytes. -/
theorem foldl_bytes_eq (bs : List Byte) : ∀ k t : Nat,
    (bs.zip (List.range' k bs.length)).foldl (fun t x => t + x.1.toNat * 256 ^ x.2) t = t + 256 ^ k * leNat bs := by
  induction bs with
  | nil => simp [leNat]
  | cons b r ih =>
    intro k t
    simp only [List.length_cons, List.range'_succ, List.zip_cons_cons, List.foldl_cons, ih, leNat]
    ring

theorem foldl_bytes (bs : List Byte) : (bs.zip (List.range bs.length)).foldl (fun t x => t + x.1.toNat * 256 ^ x.2) 0 = leNat bs := by
  simpa [List.range_eq_range'] using foldl_bytes_eq bs 0 0

theorem leNat_lt (bs : List Byte) : leNat bs < 256 ^ bs.length := by
  induction bs with
  | nil => simp [leNat]
  | cons b r ih =>
    have hb := b.isLt
    simp only [leNat, List.length_cons, pow_succ]
    omega

/-- One quarter of a 256-bit word replaced: that quarter is the new one, every other as before. -/
theorem quarter_of_replaced {u v c q : Nat} (hu : u < 2 ^ 256) (hv : v < 2 ^ 64) (hc : c < 4) (hq : q < 4) :
    (BitVec.ofNat 256 (u / 2 ^ (64 * c + 64) * 2 ^ (64 * c + 64) + v * 2 ^ (64 * c) + u % 2 ^ (64 * c))).toNat / 2 ^ (64 * q) % 2 ^ 64 =
      if q = c then v else u / 2 ^ (64 * q) % 2 ^ 64 := by
  rw [BitVec.toNat_ofNat]
  interval_cases c <;> interval_cases q <;> norm_num at hu hv ⊢ <;> omega

section
variable {i : Inst} {n d size : Nat} {sg : Bool} {bs : List Byte}

theorem pending_fill (i : Inst) (n d size : Nat) (sg wr : Bool) (bs : List Byte) (m : Nat) :
    (i.fill n d size sg wr bs).pending m = (i.loads.filter (fun l => l.1 != n)).any (fun l => l.2.contains m) := by
  unfold Inst.fill
  dsimp only
  split
  · rfl
  · split <;> rfl

theorem fill_scalar (hz : size ≠ 8) (hd : d < i.r.s.length) :
    (i.fill n d size sg false bs).r.s.getD d 0 =
      (if sg then BitVec.ofInt 32 (BitVec.ofNat (8 * size) (leNat bs)).toInt else BitVec.ofNat 32 (leNat bs)) ∧
    d ∈ (i.fill n d size sg false bs).wS ∧ (∀ m, m ≠ d → (i.fill n d size sg false bs).r.s.getD m 0 = i.r.s.getD m 0) ∧
    (i.fill n d size sg false bs).r.w = i.r.w := by
  refine ⟨?_, ?_, fun m hm => ?_, ?_⟩
  · simp [Inst.fill, hz, hd]
    rfl
  · simp [Inst.fill, hz, mem_noted_self]
  · simp [Inst.fill, hz, List.getD_eq_getElem?_getD, List.getElem?_set_ne hm.symm]
  · simp [Inst.fill, hz]

theorem fill_pair (hd : d + 1 < i.r.s.length) :
    (i.fill n d 8 sg false bs).r.s.getD d 0 = BitVec.ofNat 32 (leNat bs) ∧
    (i.fill n d 8 sg false bs).r.s.getD (d + 1) 0 = BitVec.ofNat 32 (leNat bs / 2 ^ 32) ∧
    d ∈ (i.fill n d 8 sg false bs).wS ∧ d + 1 ∈ (i.fill n d 8 sg false bs).wS ∧
    (∀ m, m ≠ d → m ≠ d + 1 → (i.fill n d 8 sg false bs).r.s.getD m 0 = i.r.s.getD m 0) ∧ (i.fill n d 8 sg false bs).r.w = i.r.w := by
  refine ⟨?_, ?_, ?_, ?_, fun m hm hm' => ?_, ?_⟩
  · simp [Inst.fill, List.getD_eq_getElem?_getD, Nat.lt_of_succ_lt hd]
  · simp [Inst.fill, hd]
  · simp [Inst.fill, mem_noted_of_mem, mem_noted_self]
  · simp [Inst.fill, mem_noted_self]
  · simp [Inst.fill, List.getD_eq_getElem?_getD, List.getElem?_set_ne hm.symm, List.getElem?_set_ne hm'.symm]
  · simp [Inst.fill]

theorem fill_quarter (hb : bs.length = 8) (hd : d / 4 < i.r.w.length) :
    (∀ q < 4, ((i.fill n d 8 sg true bs).r.w.getD (d / 4) 0).toNat / 2 ^ (64 * q) % 2 ^ 64 =
      if q = d % 4 then leNat bs else (i.r.w.getD (d / 4) 0).toNat / 2 ^ (64 * q) % 2 ^ 64) ∧
    d / 4 ∈ (i.fill n d 8 sg true bs).wW ∧ (∀ m, m ≠ d / 4 → (i.fill n d 8 sg true bs).r.w.getD m 0 = i.r.w.getD m 0) ∧
    (i.fill n d 8 sg true bs).r.s = i.r.s := by
  refine ⟨fun q hq => ?_, ?_, fun m hm => ?_, ?_⟩
  · have hv : leNat bs < 2 ^ 64 := by
      have h := leNat_lt bs
      rw [hb] at h
      exact h.trans_eq (by norm_num)
    have hr : (i.fill n d 8 sg true bs).r.w.getD (d / 4) 0 = BitVec.ofNat 256 ((i.r.w.getD (d / 4) 0).toNat / 2 ^ (64 * (d % 4) + 64) *
        2 ^ (64 * (d % 4) + 64) + leNat bs * 2 ^ (64 * (d % 4)) + (i.r.w.getD (d / 4) 0).toNat % 2 ^ (64 * (d % 4))) := by
      simp [Inst.fill, hd]
    rw [hr]
    exact quarter_of_replaced (i.r.w.getD (d / 4) 0).isLt hv (Nat.mod_lt d (by norm_num)) hq
  · simp [Inst.fill, mem_noted_self]
  · simp [Inst.fill, List.getD_eq_getElem?_getD, List.getElem?_set_ne hm.symm]
  · simp [Inst.fill]

end

/-! ### The owner steps of LDFE and STE -/

theorem leBytes_length (n v : Nat) : (leBytes n v).length = n := by
  induction n generalizing v with
  | zero => rfl
  | succ n ih => simp [leBytes, ih]

theorem leBytes_getD {n j : Nat} (v : Nat) (h : j < n) : (leBytes n v).getD j 0 = BitVec.ofNat 8 (v / 256 ^ j) := by
  induction n generalizing v j with
  | zero => omega
  | succ n ih =>
    cases j with
    | zero => simp [leBytes]
    | succ j => simpa [leBytes, Nat.pow_succ', Nat.div_div_eq_div_mul] using ih (v / 256) (Nat.lt_of_succ_lt_succ h)

section
variable {s : State} {pl : Place}

theorem State.isFull_ownMark (h : s.mem.wf = true) (a : Nat) (b : Bool) : (s.ownMark [a / 8] b).mem.isFull a = b := by
  exact (Memory.isFull_mark s.mem (a / 8) a b h).trans (if_pos rfl)

theorem State.perform_ldfe (part : Nat) (ptr : DWord) (ha : pl.addr % 8 = 0) : s.perform part pl .ldfe ptr =
    if (s.ownFlush pl.addr 8).mem.isFull pl.addr then
      .ok ((s.ownFlush pl.addr 8).ownMark [pl.addr / 8] false) ((s.ownFlush pl.addr 8).ownWord pl.addr) else .wait := by
  have hw : 8 * (pl.addr / 8) = pl.addr := by omega
  simp only [State.perform, hw]

theorem State.perform_ste (part : Nat) (v ptr : DWord) (ha : pl.addr % 8 = 0) : s.perform part pl (.ste v) ptr =
    if (s.ownFlush pl.addr 8).mem.isFull pl.addr then .wait
    else .ok (((s.ownFlush pl.addr 8).ownWrite pl.addr (leBytes 8 v.toNat)).ownMark [pl.addr / 8] true) 0 := by
  have hw : 8 * (pl.addr / 8) = pl.addr := by omega
  simp only [State.perform, hw]

end

/-- A full word is answered and emptied, and its bytes stay; an empty one waits (R213). -/
theorem perform_ldfe_spec {s : State} (hs : s.mem.wf = true) (part : Nat) {pl : Place} (ptr : DWord) (ha : pl.addr % 8 = 0) :
    ((s.ownFlush pl.addr 8).mem.isFull pl.addr = true →
      ∃ t, s.perform part pl .ldfe ptr = .ok t ((s.ownFlush pl.addr 8).ownWord pl.addr) ∧ t.mem.isFull pl.addr = false ∧
        (∀ b, t.mem.get b = (s.ownFlush pl.addr 8).mem.get b) ∧ t.mem.wf = true) ∧
    ((s.ownFlush pl.addr 8).mem.isFull pl.addr = false → s.perform part pl .ldfe ptr = .wait) := by
  rw [State.perform_ldfe part ptr ha]
  have hw := State.ownFlush_wf hs pl.addr 8
  refine ⟨fun hf => ⟨_, if_pos hf, State.isFull_ownMark hw _ _, fun b => Memory.get_marks _ _ _, State.ownMark_wf hw _ _⟩, fun hf => ?_⟩
  exact if_neg (by simp [hf])

/-- An empty word takes the value and is full, and every other byte stays; a full one waits (R213). -/
theorem perform_ste_spec {s : State} (hs : s.mem.wf = true) (part : Nat) {pl : Place} (v ptr : DWord) (ha : pl.addr % 8 = 0) :
    ((s.ownFlush pl.addr 8).mem.isFull pl.addr = false →
      ∃ t, s.perform part pl (.ste v) ptr = .ok t 0 ∧ t.mem.isFull pl.addr = true ∧
        (∀ j < 8, t.mem.get (pl.addr + j) = BitVec.ofNat 8 (v.toNat / 256 ^ j)) ∧
        (∀ b, (b < pl.addr ∨ pl.addr + 8 ≤ b) → t.mem.get b = (s.ownFlush pl.addr 8).mem.get b) ∧ t.mem.wf = true) ∧
    ((s.ownFlush pl.addr 8).mem.isFull pl.addr = true → s.perform part pl (.ste v) ptr = .wait) := by
  rw [State.perform_ste part v ptr ha]
  have hw := State.ownFlush_wf hs pl.addr 8
  have hg (b : Nat) : (((s.ownFlush pl.addr 8).ownWrite pl.addr (leBytes 8 v.toNat)).ownMark [pl.addr / 8] true).mem.get b =
      if pl.addr ≤ b ∧ b < pl.addr + 8 then (leBytes 8 v.toNat).getD (b - pl.addr) 0 else (s.ownFlush pl.addr 8).mem.get b := by
    refine (Memory.get_marks _ _ _).trans ((Memory.get_write _ _ _ _ hw).trans ?_)
    rw [leBytes_length]
  have hwt := State.ownWrite_wf hw pl.addr (leBytes 8 v.toNat)
  refine ⟨fun hf => ⟨_, if_neg (by simp [hf]), State.isFull_ownMark hwt _ _, fun j hj => ?_, fun b hb => ?_, State.ownMark_wf hwt _ _⟩,
    fun hf => if_pos hf⟩
  · rw [hg, if_pos (by omega), Nat.add_sub_cancel_left, leBytes_getD _ hj]
  · rw [hg, if_neg (by omega)]

/-- Settles O48: a read by what the agent's waiting stores and its chain hold, a fill by the size of the load, and the two owner steps. -/
theorem readsFind : Obligations.ReadsFind := by
  unfold Obligations.ReadsFind
  refine ⟨readByte_finds, fun i n d size sg wr bs hb hs hw => ?_, fun s part pl ptr v hs ha => ?_⟩
  · dsimp only
    rw [← hb, foldl_bytes, hb]
    refine ⟨pending_fill i n d size sg wr bs, fun hr hz hd => ?_, fun hr hz hd => ?_, fun hr hz hd => ?_⟩
    · subst hr
      exact fill_scalar (by omega) (hs ▸ hd)
    · subst hr hz
      exact fill_pair (by omega)
    · subst hr hz
      exact fill_quarter hb (by omega)
  · obtain ⟨hl, hl'⟩ := perform_ldfe_spec hs part ptr ha
    obtain ⟨ht, ht'⟩ := perform_ste_spec hs part v ptr ha
    exact ⟨hl, hl', ht, ht'⟩

end Sys2Proof.Machine
end

section
/-! PROOFS of the family of the machine's state: what reset leaves, and the registers and the frame of a sequencer (R12, R84, R109). -/

namespace Sys2Proof.Machine

/-! ### Reset -/

/-- Settles O3: after reset no table lists anything, so that every entry is its table's own reset value. -/
theorem resetState : Obligations.ResetState := by
  have hseq : ∀ p, State.reset.seq p = Seq.reset := fun _ => rfl
  have helem : ∀ p e, State.reset.elem p e = Elem.reset := fun _ _ => rfl
  refine ⟨rfl, fun _ => ⟨rfl, rfl⟩, fun _ => rfl, fun _ => ⟨rfl, rfl, rfl⟩, rfl, rfl, fun p => ?_, fun p e => ?_⟩
  · rw [hseq]
    exact ⟨rfl, rfl, rfl, rfl, rfl, rfl, rfl, rfl, rfl, rfl, rfl, rfl, rfl, rfl, rfl, fun _ => rfl⟩
  · have hacc : ∀ t < 4, ∀ j, smGet 0 (Elem.reset.r.acc.getD t []) j = 0 := by
      intro t ht j
      interval_cases t <;> rfl
    have ho : ∀ x ∈ Elem.reset.o, x.buf = [] ∧ x.runs = [] ∧ x.emitter = [] ∧ x.caps = [] := by
      intro x hx
      rw [List.eq_of_mem_replicate hx]
      exact ⟨rfl, rfl, rfl, rfl⟩
    rw [helem]
    exact ⟨rfl, rfl, rfl, rfl, rfl, rfl, hacc, rfl, rfl, ho, rfl, rfl, rfl, rfl, rfl, rfl, rfl⟩

/-! ### The registers of a sequencer -/

theorem put_shaped {q : Seq} (h : Terms.Shaped q) (r : BitVec 5) (v : Word) : Terms.Shaped (q.put r v) := by
  obtain ⟨hg, hlc, hlb, hle⟩ := h
  exact ⟨by simpa using hg, by simpa using hlc, by simpa using hlb, by simpa using hle⟩

/-- Two halves in a row make the number that has them as its digits. -/
theorem append_eq_ofNat (hi lo : Word) : (hi ++ lo : DWord) = BitVec.ofNat 64 (hi.toNat * 2 ^ 32 + lo.toNat) := by
  apply BitVec.eq_of_toNat_eq
  rw [BitVec.toNat_append, BitVec.toNat_ofNat, ← Nat.shiftLeft_add_eq_or_of_lt lo.isLt, Nat.shiftLeft_eq]
  omega

/-- The register after an even one is another, and it is not g0. -/
theorem succ_ne_of_even {r : BitVec 5} (h : r.toNat % 2 = 0) : r + 1 ≠ r ∧ r + 1 ≠ 0 := by
  constructor <;> (intro e; have := congrArg BitVec.toNat e; simp at this; omega)

/-- What the registers hold once an even pair other than g0's has been written (R84, R109). -/
theorem get_putPair {q : Seq} (hq : q.g.length = 32) {r : BitVec 5} (he : r.toNat % 2 = 0) (h0 : r ≠ 0) (w : DWord) (t : BitVec 5) :
    (q.putPair r w).get t = if t = r + 1 then (w >>> 32).setWidth 32 else if t = r then w.setWidth 32 else q.get t := by
  obtain ⟨_, hs0⟩ := succ_ne_of_even he
  rw [Seq.putPair, get_put _ _ _ _ (by simpa using hq), get_put _ _ _ _ hq]
  simp only [hs0, h0, ne_eq, not_false_eq_true, and_true]

/-- Settles O8: a write by `get_put`, a pair as two writes. -/
theorem sequencerRegisters : Obligations.SequencerRegisters := by
  intro q r r' v w hq
  have hg : q.g.length = 32 := hq.1
  refine ⟨get_put q r r' v hg, get_zero q, put_shaped hq r v, put_others q r v, fun _ => append_eq_ofNat .., fun he h0 => ?_⟩
  obtain ⟨hsr, _⟩ := succ_ne_of_even he
  have hhi : (q.putPair r w).get (r + 1) = (w >>> 32).setWidth 32 := by rw [get_putPair hg he h0, if_pos rfl]
  have hlo : (q.putPair r w).get r = w.setWidth 32 := by rw [get_putPair hg he h0, if_neg hsr.symm, if_pos rfl]
  have hhn : ((w >>> 32).setWidth 32 : Word).toNat = w.toNat / 2 ^ 32 := by
    have := w.isLt
    simp only [BitVec.toNat_setWidth, BitVec.toNat_ushiftRight, Nat.shiftRight_eq_div_pow]
    omega
  have hln : (w.setWidth 32 : Word).toNat = w.toNat % 2 ^ 32 := BitVec.toNat_setWidth ..
  refine ⟨?_, by rw [hlo, hln], by rw [hhi, hhn], fun t h1 h2 => by rw [get_putPair hg he h0, if_neg h2, if_neg h1]⟩
  rw [Seq.pair, hhi, hlo, append_eq_ofNat, hhn, hln, Nat.div_add_mod', BitVec.ofNat_toNat, BitVec.setWidth_eq]

/-- Settles O10: a write of a sequencer touches one field of one patch. -/
theorem completedFrame : Obligations.CompletedFrame := by
  intro s p q
  refine ⟨seq_setSeq_same s p q, fun n hn => patch_setSeq_ne s q hn, ?_, fun e => elem_setSeq s p p e q, fun k => port_setSeq s p p k q,
    fun _ => ⟨rfl, rfl⟩, rfl⟩
  rw [patch_setSeq_same]
  rfl

end Sys2Proof.Machine
end

section
/-! SUPPORT. What each part of an element word comes to: its registers, its units, its results, its stops. A proof about a word chains
these, and unfolds none of the parts (R31, R87, R91, R157, R158). -/

namespace Sys2Proof.Machine

/-! ### The parts that stop and that read the machine -/

@[simp] theorem W.cur_apply (k : Wk) : W.cur k = .ok (k.s.cur, k) := rfl
@[simp] theorem W.elem_apply (k : Wk) : W.elem k = .ok (k.s.elem k.s.cur.patch k.s.cur.el, k) := rfl
@[simp] theorem W.agent_apply (k : Wk) : W.agent k = .ok (.elem k.s.cur.patch k.s.cur.el, k) := rfl
@[simp] theorem W.upd_apply (f : Inst → Inst) (k : Wk) : W.upd f k = .ok ((), { k with i := f k.i }) := rfl
@[simp] theorem W.fault_apply {α : Type} (c : Cause) (sub : Nat) (v : DWord) (k : Wk) : (W.fault c sub v : W α) k = .error (.fault c sub v) := rfl

theorem W.word_apply (k : Wk) : W.word k = .ok (Terms.wordAt k, k) := by
  rw [W.word, W.bind_of_ok (W.get_apply k), W.bind_of_ok (W.elem_apply k), W.pure_apply, Terms.wordAt]
  cases smFind (k.s.elem k.s.cur.patch k.s.cur.el).blocks k.i.blk with
  | none => rfl
  | some b => simp only [BitVec.ofNat_toNat]

/-- ILLOP of a word names the word (R101). -/
@[simp] theorem W.illop_apply {α : Type} (sub : Nat) (k : Wk) : (W.illop sub : W α) k = .error (.fault .illop sub (Terms.wordAt k)) := by
  rw [W.illop, W.bind_of_ok (W.word_apply k)]
  rfl

/-- A chain depends on its first part only through what that comes to. -/
theorem W.bind_congr {α β : Type} {f f' : W α} (g : α → W β) {k : Wk} (h : f k = f' k) : (f >>= g) k = (f' >>= g) k := by
  show (f k >>= fun x => g x.1 x.2) = _
  rw [h]
  rfl

theorem placed_eq_putEff (w : Nat) (e : Eff) (l : List (Nat × Eff)) : Terms.placed w e l = putEff w e l := by
  simp [Terms.placed, putEff]

@[simp] theorem W.eff_apply (e : Eff) (k : Wk) : W.eff e k = .ok ((), Terms.withEff k e) := by
  simp only [W.eff, W.upd_apply, Terms.withEff, placed_eq_putEff]

/-! ### Registers -/

theorem rdS_of_readable {k : Wk} {n : Nat} (h : Terms.readable k.i n) : rdS n k = .ok (k.i.r.s.getD n 0, k) := by
  rw [rdS, W.bind_of_ok (W.get_apply k), h.1, h.2]
  rfl

theorem rdS_of_not_readable {k : Wk} {n : Nat} (h : ¬ Terms.readable k.i n) : rdS n k = .error .hold := by
  have hb : (k.i.pending n || k.i.owed n) = true := by
    cases hp : k.i.pending n <;> cases ho : k.i.owed n <;> simp_all [Terms.readable]
  rw [rdS, W.bind_of_ok (W.get_apply k), if_pos hb]
  rfl

theorem rdW_of_free {k : Wk} {n : Nat} (h : k.i.pending (16 + n) = false) : rdW n k = .ok (k.i.r.w.getD n 0, k) := by
  rw [rdW, W.bind_of_ok (W.get_apply k), h]
  rfl

theorem rdW_of_pending {k : Wk} {n : Nat} (h : k.i.pending (16 + n) = true) : rdW n k = .error .hold := by
  rw [rdW, W.bind_of_ok (W.get_apply k), if_pos h]
  rfl

theorem wrS_of_free {k : Wk} {n : Nat} (h : k.i.pending n = false) (v : Word) : wrS n v k = .ok ((), Terms.wroteS k n v) := by
  simp only [wrS, W.bind_of_ok (W.get_apply k), h]
  rfl

theorem wrS_of_pending {k : Wk} {n : Nat} (h : k.i.pending n = true) (v : Word) : wrS n v k = .error .hold := by
  simp only [wrS, W.bind_of_ok (W.get_apply k), h]
  rfl

theorem wrW_of_free {k : Wk} {n : Nat} (h : k.i.pending (16 + n) = false) (v : Slot) : wrW n v k = .ok ((), Terms.wroteW k n v) := by
  simp only [wrW, W.bind_of_ok (W.get_apply k), h]
  rfl

/-! ### Queues and circular buffers as sources -/

@[simp] theorem readPos_apply (r : Nat) (k : Wk) : readPos r k = .ok (k.i.pos.getD (qIdx r) 0, k) := rfl

/-- What a word works on, with the read position of a queue or buffer moved on. -/
def Wk.atPos (k : Wk) (r n : Nat) : Wk := { k with i := { k.i with pos := k.i.pos.set (qIdx r) n } }

@[simp] theorem setPos_apply (r n : Nat) (k : Wk) : setPos r n k = .ok ((), k.atPos r n) := rfl

theorem useBuffer_of_queue {r : Nat} (h : r < 24) (k : Wk) : useBuffer r k = .ok ((), k) := by
  rw [useBuffer, if_neg (Nat.not_le.mpr h)]
  rfl

theorem useBuffer_of_valid {r : Nat} {k : Wk} (h : cbValid (k.i.r.cb.getD (r - 24) 0) = true) : useBuffer r k = .ok ((), k) := by
  have hh : W.handle (r - 24) k = .ok (k.i.r.cb.getD (r - 24) 0, k) := rfl
  rw [useBuffer]
  split
  · rw [W.bind_of_ok hh, h]
    rfl
  · rfl

theorem useBuffer_of_invalid {r : Nat} {k : Wk} (hr : 24 ≤ r) (h : cbValid (k.i.r.cb.getD (r - 24) 0) = false) :
    useBuffer r k = .error (.fault .illop 1 (Terms.wordAt k)) := by
  have hh : W.handle (r - 24) k = .ok (k.i.r.cb.getD (r - 24) 0, k) := rfl
  rw [useBuffer, if_pos hr, W.bind_of_ok hh, h]
  exact W.illop_apply 1 k

theorem checkHeader_of_good {u : Slot} (h : badHeader (lane u 7) = false) (k : Wk) : checkHeader u k = .ok ((), k) := by
  rw [checkHeader, h]
  rfl

theorem checkHeader_of_bad {u : Slot} (h : badHeader (lane u 7) = true) (k : Wk) :
    checkHeader u k = .error (.fault .illop 1 (BitVec.ofNat 64 (lane u 7).toNat)) := by
  rw [checkHeader, if_pos h, BitVec.ofNat_toNat]
  rfl

section
variable {r n : Nat} {k k' : Wk} {u : Slot}

theorem unitAt_of_queue (hr : r < 20) (hu : (k.i.qres.getD (r - 16) [])[n]? = some u) :
    unitAt r n k = (checkHeader u >>= fun _ => pure u : W Slot) k := by
  rw [unitAt, W.bind_of_ok (useBuffer_of_queue (by omega) k), W.bind_of_ok (W.get_apply k), if_pos hr, hu]

theorem unitAt_past_queue (hr : r < 20) (hn : (k.i.qres.getD (r - 16) []).length ≤ n) :
    unitAt r n k = .error (.fault .illop 2 (Terms.wordAt k)) := by
  rw [unitAt, W.bind_of_ok (useBuffer_of_queue (by omega) k), W.bind_of_ok (W.get_apply k), if_pos hr, List.getElem?_eq_none hn]
  exact W.illop_apply 2 k

theorem unitAt_of_invalid (hr : 24 ≤ r) (h : cbValid (k.i.r.cb.getD (r - 24) 0) = false) :
    unitAt r n k = .error (.fault .illop 1 (Terms.wordAt k)) := by
  rw [unitAt, W.bind_of_error (useBuffer_of_invalid hr h)]

theorem unitAt_of_buffer (hr : 24 ≤ r) (hv : cbValid (k.i.r.cb.getD (r - 24) 0) = true) {va : Nat}
    (hu : (k.i.cbUnits (k.s.elem k.s.cur.patch k.s.cur.el) (r - 24))[n]? = some va) :
    unitAt r n k = (readHere (vaultPlace k.s.cur.patch k.s.cur.el va) 32 >>= fun bs => checkHeader (ofBytes bs) >>= fun _ =>
      pure (ofBytes bs) : W Slot) k := by
  have hr : readVault va 32 k = readHere (vaultPlace k.s.cur.patch k.s.cur.el va) 32 k := by rw [readVault, W.bind_of_ok (W.cur_apply k)]
  rw [unitAt, W.bind_of_ok (useBuffer_of_valid hv), W.bind_of_ok (W.get_apply k), if_neg (by omega), W.bind_of_ok (W.elem_apply k), hu]
  exact W.bind_congr _ hr

theorem unitAt_past_buffer (hr : 24 ≤ r) (hv : cbValid (k.i.r.cb.getD (r - 24) 0) = true)
    (hn : (k.i.cbUnits (k.s.elem k.s.cur.patch k.s.cur.el) (r - 24)).length ≤ n) :
    unitAt r n k = .error (.fault .illop 2 (Terms.wordAt k)) := by
  rw [unitAt, W.bind_of_ok (useBuffer_of_valid hv), W.bind_of_ok (W.get_apply k), if_neg (by omega), W.bind_of_ok (W.elem_apply k),
    List.getElem?_eq_none hn]
  exact W.illop_apply 2 k

theorem readHere_of_none {pl : Place} (h : k.s.readOperand k.s.cur.patch k.s.cur.el k.i pl n = none) :
    readHere pl n k = .error .hold := by
  rw [readHere, W.bind_of_ok (W.get_apply k)]
  simp only [h]
  rfl

/-- A scalar source is the next lane of the unit at the read position. -/
theorem rdScalar_of_unit (hr : 16 ≤ r) (h : unitAt r (k.i.pos.getD (qIdx r) 0 / 8) k = .ok (u, k')) :
    rdScalar r k = .ok (lane u (k.i.pos.getD (qIdx r) 0 % 8), k'.atPos r (k.i.pos.getD (qIdx r) 0 + 1)) := by
  rw [rdScalar, if_neg (by omega), W.bind_of_ok (readPos_apply r k), W.bind_of_ok h, W.bind_of_ok (setPos_apply ..)]
  rfl

theorem rdScalar_of_stop {e : Stop} (hr : 16 ≤ r) (h : unitAt r (k.i.pos.getD (qIdx r) 0 / 8) k = .error e) : rdScalar r k = .error e := by
  rw [rdScalar, if_neg (by omega), W.bind_of_ok (readPos_apply r k), W.bind_of_error h]

/-- A wide source is the whole unit at the read position, at a unit boundary. -/
theorem rdWide_of_unit (hr : 16 ≤ r) (hb : useBuffer r k = .ok ((), k)) (h8 : k.i.pos.getD (qIdx r) 0 % 8 = 0)
    (h : unitAt r (k.i.pos.getD (qIdx r) 0 / 8) k = .ok (u, k')) :
    rdWide r k = .ok (u, k'.atPos r (k.i.pos.getD (qIdx r) 0 + 8)) := by
  rw [rdWide, if_neg (by omega), W.bind_of_ok (readPos_apply r k), W.bind_of_ok hb]
  simp only [h8, ne_eq, not_true, if_false]
  rw [W.bind_of_ok h, W.bind_of_ok (setPos_apply ..)]
  rfl

end

/-- Settles O25: each form by the lemma that says what its source comes to. -/
theorem operandForms : Obligations.OperandForms := by
  intro k r
  refine ⟨fun hr => ⟨fun h => ?_, fun h => ?_, fun h => ?_, fun h => ?_⟩, fun h16 h20 => ⟨fun u hu hg => ?_, fun u hu hb => ?_, fun hn => ?_⟩,
    fun h24 h32 => ⟨fun hv va hva => ⟨fun bs t hread hg => ?_, fun hread => ?_⟩, fun hv hn => ?_, fun hv => ?_⟩⟩
  · rw [rdScalar, if_pos hr, rdS_of_readable h]
  · rw [rdScalar, if_pos hr, rdS_of_not_readable h]
  · rw [rdWide, if_pos hr, rdW_of_free h]
  · rw [rdWide, if_pos hr, rdW_of_pending h]
  · have hat : unitAt r (k.i.pos.getD (qIdx r) 0 / 8) k = .ok (u, k) := by
      exact (unitAt_of_queue h20 hu).trans (W.bind_of_ok (checkHeader_of_good hg k))
    exact ⟨rdScalar_of_unit h16 hat, fun h8 => rdWide_of_unit h16 (useBuffer_of_queue (by omega) k) h8 hat⟩
  · refine rdScalar_of_stop h16 ?_
    exact (unitAt_of_queue h20 hu).trans (W.bind_of_error (checkHeader_of_bad hb k))
  · exact rdScalar_of_stop h16 (unitAt_past_queue h20 hn)
  · have hat : unitAt r (k.i.pos.getD (qIdx r) 0 / 8) k = .ok (ofBytes bs, { k with s := t }) := by
      refine (unitAt_of_buffer h24 hv hva).trans ?_
      rw [W.bind_of_ok (readHere_of_some hread), W.bind_of_ok (checkHeader_of_good hg _)]
      rfl
    exact ⟨rdScalar_of_unit (by omega) hat, fun h8 => rdWide_of_unit (by omega) (useBuffer_of_valid hv) h8 hat⟩
  · refine rdScalar_of_stop (by omega) ?_
    exact (unitAt_of_buffer h24 hv hva).trans (W.bind_of_error (readHere_of_none hread))
  · exact rdScalar_of_stop (by omega) (unitAt_past_buffer h24 hv hn)
  · exact rdScalar_of_stop (by omega) (unitAt_of_invalid h24 hv)

end Sys2Proof.Machine
end

section
/-! SUPPORT. The lanes of wide values, and what the results of an element word leave (R31, R87, R91, R156, R158). -/

namespace Sys2Proof.Machine

/-! ### Lanes of wide values -/

theorem joinNat_lt (l : Nat) (xs : List Nat) : joinNat l xs < 2 ^ (l * xs.length) := by
  induction xs with
  | nil => simp [joinNat]
  | cons x xs ih =>
    have hx : x % 2 ^ l < 2 ^ l := Nat.mod_lt _ (Nat.two_pow_pos l)
    calc joinNat l (x :: xs) < 2 ^ l + 2 ^ l * joinNat l xs := Nat.add_lt_add_right hx _
      _ = 2 ^ l * (joinNat l xs + 1) := by ring
      _ ≤ 2 ^ l * 2 ^ (l * xs.length) := Nat.mul_le_mul_left _ ih
      _ = 2 ^ (l * (x :: xs).length) := by rw [← pow_add, List.length_cons, Nat.mul_succ, Nat.add_comm]

/-- The digits of a joined number are its lanes. -/
theorem joinNat_digit (l : Nat) (xs : List Nat) : ∀ j, joinNat l xs / 2 ^ (l * j) % 2 ^ l = xs.getD j 0 % 2 ^ l := by
  induction xs with
  | nil => simp [joinNat]
  | cons x xs ih =>
    intro j
    have hx : x % 2 ^ l < 2 ^ l := Nat.mod_lt _ (Nat.two_pow_pos l)
    cases j with
    | zero => simp [joinNat]
    | succ j =>
      have hd : joinNat l (x :: xs) / 2 ^ l = joinNat l xs := by
        rw [joinNat, Nat.add_mul_div_left _ _ (Nat.two_pow_pos l), Nat.div_eq_of_lt hx, Nat.zero_add]
      rw [Nat.mul_succ, Nat.add_comm, pow_add, ← Nat.div_div_eq_div_mul, hd, ih, List.getD_cons_succ]

theorem laneAt_joinLanes {l : Nat} {xs : List Nat} (h : l * xs.length ≤ 256) (j : Nat) :
    Terms.laneAt l (joinLanes l xs) j = xs.getD j 0 % 2 ^ l := by
  have hlt : joinNat l xs < 2 ^ 256 := (joinNat_lt l xs).trans_le (Nat.pow_le_pow_right (by omega) h)
  rw [Terms.laneAt, joinLanes, BitVec.toNat_ofNat, Nat.mod_eq_of_lt hlt, joinNat_digit]

theorem lanesOf_getD {l j : Nat} (u : Slot) (h : j < 256 / l) : (lanesOf l u).getD j 0 = Terms.laneAt l u j := by
  simp [lanesOf, List.getD_eq_getElem?_getD, h, Terms.laneAt]

theorem laneAt_mod (l : Nat) (u : Slot) (j : Nat) : Terms.laneAt l u j % 2 ^ l = Terms.laneAt l u j := Nat.mod_mod _ _

@[simp] theorem maskLanes_length (m : Word) (z : Bool) (old new : List Nat) : (maskLanes m z old new).length = new.length := by
  simp [maskLanes]

theorem maskLanes_getD {new : List Nat} {j : Nat} (m : Word) (z : Bool) (old : List Nat) (h : j < new.length) :
    (maskLanes m z old new).getD j 0 = maskLane m z j (old.getD j 0) (new.getD j 0) := by
  simp [maskLanes, List.getD_eq_getElem?_getD, h]

/-- Lane `i` of a unit is its `i`-th lane of 32 bits. -/
theorem lane_eq_laneAt (u : Slot) (i : Nat) : lane u i = BitVec.ofNat 32 (Terms.laneAt 32 u i) := by
  apply BitVec.eq_of_toNat_eq
  simp [lane, Terms.laneAt, Nat.shiftRight_eq_div_pow]

/-! ### Ports and circular buffers as destinations -/

@[simp] theorem putLanes_apply (r : Nat) (ls : List Word) (k : Wk) : putLanes r ls k = .ok ((), Terms.putInto k r ls) := by
  rw [putLanes, W.bind_of_ok (W.upd_apply ..)]
  unfold Terms.putInto
  split
  · exact W.eff_apply ..
  · rfl

section
variable {k : Wk} {r : Nat}

theorem wrScalar_of_s (hr : r < 16) (h : k.i.pending r = false) (v : Word) : wrScalar r v k = .ok ((), Terms.wroteS k r v) := by
  rw [wrScalar, if_pos hr, wrS_of_free h]

theorem wrScalar_of_pending (hr : r < 16) (h : k.i.pending r = true) (v : Word) : wrScalar r v k = .error .hold := by
  rw [wrScalar, if_pos hr, wrS_of_pending h]

theorem wrScalar_of_dest (hr : 16 ≤ r) (h : useDest r k = .ok ((), k)) (v : Word) :
    wrScalar r v k = .ok ((), Terms.putInto k r [v]) := by
  rw [wrScalar, if_neg (by omega), W.bind_of_ok h, putLanes_apply]

theorem wrWide_of_w (hr : r < 16) (h : k.i.pending (16 + r) = false) (l : Nat) (m : Word) (z : Bool) (new : List Nat) :
    wrWide r l m z new k = .ok ((), Terms.wroteW k r (joinLanes l (maskLanes m z (lanesOf l (k.i.r.w.getD r 0)) new))) := by
  rw [wrWide, if_pos hr, W.bind_of_ok (rdW_of_free h), wrW_of_free h]

/-- A whole unit goes to a port or buffer at a unit boundary. -/
theorem putUnit_of_boundary (h : useDest r k = .ok ((), k)) (h8 : (k.i.outs.getD (r - 20) []).length % 8 = 0) (u : Slot) :
    putUnit r u k = .ok ((), Terms.putInto k r ((List.range 8).map (fun j => BitVec.ofNat 32 (Terms.laneAt 32 u j)))) := by
  have hl : unitLanes u = (List.range 8).map (fun j => BitVec.ofNat 32 (Terms.laneAt 32 u j)) :=
    List.map_congr_left fun j _ => lane_eq_laneAt u j
  rw [putUnit, W.bind_of_ok h, W.bind_of_ok (W.get_apply k), if_neg (by simpa using h8), hl]
  exact putLanes_apply ..

theorem wrWide_of_dest (hr : 16 ≤ r) (h : useDest r k = .ok ((), k)) (h8 : (k.i.outs.getD (r - 20) []).length % 8 = 0) (l : Nat) (m : Word)
    (z : Bool) (new : List Nat) : wrWide r l m z new k = .ok ((), Terms.putInto k r
      ((List.range 8).map (fun j => BitVec.ofNat 32 (Terms.laneAt 32 (joinLanes l (maskLanes m true [] new)) j)))) := by
  rw [wrWide, if_neg (by omega), putUnit_of_boundary h h8]

/-- Lane by lane, a masked result is the new one, zero, or the old one (R91). -/
theorem laneAt_masked {l j : Nat} {new : List Nat} (m : Word) (z : Bool) (old : List Nat) (hl : l * new.length ≤ 256) (hj : j < new.length) :
    Terms.laneAt l (joinLanes l (maskLanes m z old new)) j =
      if m.getLsbD j then new.getD j 0 % 2 ^ l else if z then 0 else old.getD j 0 % 2 ^ l := by
  rw [laneAt_joinLanes (by rwa [maskLanes_length]), maskLanes_getD m z old hj, maskLane]
  split
  · rfl
  · split
    · exact Nat.zero_mod _
    · rfl

end

/-- Settles O26: each form by the lemma that says what its write leaves, and the lanes by `laneAt_masked`. -/
theorem destinationForms : Obligations.DestinationForms := by
  intro k r v
  refine ⟨fun hr h => wrScalar_of_s hr h v, fun hr h => wrScalar_of_pending hr h v,
    fun h20 h24 => wrScalar_of_dest (by omega) (useBuffer_of_queue h24 k) v, fun h24 h32 h => wrScalar_of_dest (by omega) h v, ?_⟩
  intro l hl m z new hn
  have hfull : l * new.length ≤ 256 := by rw [hn]; exact Nat.mul_div_le 256 l
  refine ⟨fun hr h => ⟨_, wrWide_of_w hr h l m z new, fun j hj => ?_⟩,
    fun h20 h24 h8 => ⟨_, wrWide_of_dest (by omega) (useBuffer_of_queue h24 k) h8 l m z new, fun j hj => ?_⟩⟩
  · rw [laneAt_masked m z _ hfull (hn ▸ hj), lanesOf_getD _ hj, laneAt_mod]
  · rw [laneAt_masked m true [] hfull (hn ▸ hj), if_pos rfl]

end Sys2Proof.Machine
end

section
/-! PROOFS of the family of the machine's state: the queue words and the words that wait, and the words whose operation the commit
performs (R169 to R171, R212, R217, R221, R222, R225, R232, R234). -/

namespace Sys2Proof.Machine

/-! ### What running a word comes to -/

section
variable {s : State} {i : Inst} {f : W Unit}

/-- A word whose work is done completes, where it is the word that an instruction runs. -/
theorem completes_of_ok {ins : Instr} {k : Wk} (he : exec ins s = runWord f s) (ht : Terms.OnTurn s i) (h : f ⟨s, i⟩ = .ok ((), k)) :
    Terms.completes ins s k := by
  obtain ⟨hi, hf, hs⟩ := ht
  exact he.trans (runWord_of_ok hi hf hs h)

theorem faults_of_error {ins : Instr} {c : Cause} {sub : Nat} {v : DWord} (he : exec ins s = runWord f s) (ht : Terms.OnTurn s i)
    (h : f ⟨s, i⟩ = .error (.fault c sub v)) : Terms.faults ins s i c sub v := by
  obtain ⟨hi, hf, hs⟩ := ht
  exact he.trans (runWord_of_fault hi hf hs h)

theorem waits_of_error {ins : Instr} {c : Option (List Nat)} (he : exec ins s = runWord f s) (ht : Terms.OnTurn s i)
    (h : f ⟨s, i⟩ = .error (.wait c)) : Terms.waits ins s i c := by
  obtain ⟨hi, hf, hs⟩ := ht
  exact he.trans (runWord_of_wait hi hf hs h)

end

/-! ### TAKE, PEEK, ADV and EMIT (R169, R170) -/

/-- Counting the units of a source changes nothing. -/
theorem eq_of_unitCount {r t : Nat} {k k₁ : Wk} (h : Terms.gives (unitCount r) k t k₁) : k₁ = k := by
  rw [Terms.gives, unitCount, W.bind_of_ok (W.get_apply k)] at h
  split at h
  · cases h; rfl
  · rw [W.bind_of_ok (W.elem_apply k)] at h
    cases h; rfl

section
variable {s : State} {i : Inst} (ht : Terms.OnTurn s i)
include ht

theorem take_completes {d a : BitVec 5} {ln : BitVec 3} {u : Slot} {k₁ k : Wk}
    (hu : Terms.gives (unitAt a.toNat (i.pos.getD (qIdx a.toNat) 0 / 8)) ⟨s, i⟩ u k₁)
    (hw : Terms.gives (wrScalar d.toNat (BitVec.ofNat 32 (Terms.laneAt 32 u ln.toNat)))
      (k₁.atPos a.toNat ((i.pos.getD (qIdx a.toNat) 0 / 8 + 1) * 8)) () k) :
    Terms.completes (.take d a ln) s k := by
  refine completes_of_ok rfl ht ?_
  rw [W.bind_of_ok (readPos_apply ..), W.bind_of_ok hu, W.bind_of_ok (setPos_apply ..), lane_eq_laneAt]
  exact hw

theorem peek_completes {d a : BitVec 5} {ln : BitVec 3} {u : Slot} {k₁ k : Wk}
    (hu : Terms.gives (unitAt a.toNat (i.pos.getD (qIdx a.toNat) 0 / 8)) ⟨s, i⟩ u k₁)
    (hw : Terms.gives (wrScalar d.toNat (BitVec.ofNat 32 (Terms.laneAt 32 u ln.toNat))) k₁ () k) :
    Terms.completes (.peek d a ln) s k := by
  refine completes_of_ok rfl ht ?_
  rw [W.bind_of_ok (readPos_apply ..), W.bind_of_ok hu, lane_eq_laneAt]
  exact hw

theorem adv_completes {a n : BitVec 5} {t : Nat} {k₁ : Wk} (hb : Terms.gives (useBuffer a.toNat) ⟨s, i⟩ () ⟨s, i⟩)
    (hc : Terms.gives (unitCount a.toNat) ⟨s, i⟩ t k₁) (hn : i.pos.getD (qIdx a.toNat) 0 / 8 + n.toNat ≤ t) :
    Terms.completes (.adv a n) s ((⟨s, i⟩ : Wk).atPos a.toNat ((i.pos.getD (qIdx a.toNat) 0 / 8 + n.toNat) * 8)) := by
  obtain rfl := eq_of_unitCount hc
  refine completes_of_ok rfl ht ?_
  rw [W.bind_of_ok hb, W.bind_of_ok (readPos_apply ..), W.bind_of_ok hc]
  simp only [Nat.not_lt.mpr hn, if_false]
  rfl

theorem emit_completes {d a : BitVec 5} {x : Word} {k₁ : Wk} (hx : Terms.gives (rdScalar a.toNat) ⟨s, i⟩ x k₁) (hh : badHeader x = false)
    (hd : Terms.gives (useDest d.toNat) k₁ () k₁) :
    Terms.completes (.emit d a) s (Terms.putInto k₁ d.toNat
      (List.replicate (7 - (k₁.i.outs.getD (d.toNat - 20) []).length % 8) 0 ++ [x])) := by
  refine completes_of_ok rfl ht ?_
  rw [W.bind_of_ok hx, hh]
  simp only [Bool.false_eq_true, if_false]
  rw [W.bind_of_ok hd, W.bind_of_ok (W.get_apply k₁)]
  exact putLanes_apply ..

end

/-! ### WAITF and WAITE (R171) -/

theorem ownTest_of_some {k : Wk} {sc : Scope} {pl : Place} {ws : List Nat} {t : State}
    (h : k.s.ownTest k.s.cur.patch k.s.cur.el k.i sc pl ws = some t) : W.ownTest sc pl ws k = .ok ((), { k with s := t }) := by
  rw [W.ownTest, W.bind_of_ok (W.get_apply k)]
  simp only [h]
  rfl

theorem ownTest_of_none {k : Wk} {sc : Scope} {pl : Place} {ws : List Nat}
    (h : k.s.ownTest k.s.cur.patch k.s.cur.el k.i sc pl ws = none) : W.ownTest sc pl ws k = .error (.wait none) := by
  rw [W.ownTest, W.bind_of_ok (W.get_apply k)]
  simp only [h]
  rfl

section
variable {β : Type} {k : Wk} {sc : Scope} {pl : Place} {ws : List Nat} {c : Bool} {g : W β}

/-- The test of some words has been made, and nothing else holds the word back. -/
theorem ownTest_then_of_open {t : State} (h : k.s.ownTest k.s.cur.patch k.s.cur.el k.i sc pl ws = some t) (hc : c = false) :
    (W.ownTest sc pl ws >>= fun _ => if c = true then throw (.wait none) >>= fun (_ : PUnit) => g else g : W β) k = g { k with s := t } := by
  rw [W.bind_of_ok (ownTest_of_some h), hc]
  rfl

/-- The test of some words cannot be made, or something else holds the word back. -/
theorem ownTest_then_of_closed (h : ∀ t, k.s.ownTest k.s.cur.patch k.s.cur.el k.i sc pl ws = some t → c = true) :
    (W.ownTest sc pl ws >>= fun _ => if c = true then throw (.wait none) >>= fun (_ : PUnit) => g else g : W β) k = .error (.wait none) := by
  cases ho : k.s.ownTest k.s.cur.patch k.s.cur.el k.i sc pl ws with
  | none => exact W.bind_of_error (ownTest_of_none ho)
  | some t =>
    rw [W.bind_of_ok (ownTest_of_some ho), h t ho]
    rfl

end

section
variable {s : State} {i : Inst} (ht : Terms.OnTurn s i) {d a n : BitVec 5}
  (hv : cbValid (i.liveHandle (s.elem s.cur.patch s.cur.el) (a.toNat - 24)) = true)
include ht hv

/-- WAITF completes where its owner step is enabled, none else claims or is promised the buffer, its slots would stay within NSLOT, and
every word of them is full; else it waits. -/
theorem waitf_runs :
    let p := s.cur.patch
    let e := s.cur.el
    let v := s.elem p e
    let c := a.toNat - 24
    let h := i.liveHandle v c
    let fill := cbFill h + claimed i.clF c
    let ws := slotWords p e h fill n.toNat
    let may := fun (t : State) => s.ownTest p e i .elem (vaultPlace p e 0) ws = some t ∧
      (claimedBy v i.id c = false ∧ v.promised i.id c = false) ∧ cbOcc h + claimed i.clF c + n.toNat ≤ cbNslot h ∧ s.allMarked ws true = true
    (∀ t, may t → ∀ k, Terms.gives (wrScalar d.toNat (BitVec.ofNat 32 (fill % 2 ^ 15)))
      ⟨t.flushWords ws, { i with clF := i.clF ++ [(c, n.toNat)] }⟩ () k → Terms.completes (.waitf d a n) s k) ∧
    ((∀ t, ¬ may t) → Terms.waits (.waitf d a n) s i none) := by
  refine ⟨fun t ⟨hown, ⟨hcl, hpr⟩, hroom, hmark⟩ k hw => completes_of_ok rfl ht ?_, fun hno => waits_of_error rfl ht ?_⟩ <;>
    rw [W.bind_of_ok (W.get_apply _), W.bind_of_ok (W.cur_apply _), W.bind_of_ok (W.elem_apply _)] <;>
    simp only [hv, Bool.not_true, Bool.false_eq_true, if_false]
  · refine (ownTest_then_of_open (k := ⟨s, i⟩) hown (by simp [hcl, hpr, hroom, hmark])).trans ?_
    rw [W.bind_of_ok (W.modify_apply ..), W.bind_of_ok (W.upd_apply ..)]
    exact hw
  · refine ownTest_then_of_closed (k := ⟨s, i⟩) fun t hown => ?_
    by_contra hc
    simp only [Bool.not_eq_true, Bool.or_eq_false_iff, decide_eq_false_iff_not, not_lt, Bool.not_eq_false'] at hc
    obtain ⟨⟨⟨hcl, hpr⟩, hroom⟩, hmark⟩ := hc
    exact hno t ⟨hown, ⟨hcl, hpr⟩, hroom, hmark⟩

/-- WAITE completes where its owner step is enabled, none else claims or is promised the buffer, its slots are occupied, and every word
of them is empty; else it waits. -/
theorem waite_runs :
    let p := s.cur.patch
    let e := s.cur.el
    let v := s.elem p e
    let c := a.toNat - 24
    let h := i.liveHandle v c
    let take := cbTake h + claimed i.clE c
    let ws := slotWords p e h take n.toNat
    let may := fun (t : State) => s.ownTest p e i .elem (vaultPlace p e 0) ws = some t ∧
      (claimedBy v i.id c = false ∧ v.promised i.id c = false) ∧ claimed i.clE c + n.toNat ≤ cbOcc h ∧ s.allMarked ws false = true
    (∀ t, may t → ∀ k, Terms.gives (wrScalar d.toNat (BitVec.ofNat 32 (take % 2 ^ 15)))
      ⟨t.flushWords ws, { i with clE := i.clE ++ [(c, n.toNat)] }⟩ () k → Terms.completes (.waite d a n) s k) ∧
    ((∀ t, ¬ may t) → Terms.waits (.waite d a n) s i none) := by
  refine ⟨fun t ⟨hown, ⟨hcl, hpr⟩, hroom, hmark⟩ k hw => completes_of_ok rfl ht ?_, fun hno => waits_of_error rfl ht ?_⟩ <;>
    rw [W.bind_of_ok (W.get_apply _), W.bind_of_ok (W.cur_apply _), W.bind_of_ok (W.elem_apply _)] <;>
    simp only [hv, Bool.not_true, Bool.false_eq_true, if_false]
  · refine (ownTest_then_of_open (k := ⟨s, i⟩) hown (by simp [hcl, hpr, hroom, hmark])).trans ?_
    rw [W.bind_of_ok (W.modify_apply ..), W.bind_of_ok (W.upd_apply ..)]
    exact hw
  · refine ownTest_then_of_closed (k := ⟨s, i⟩) fun t hown => ?_
    by_contra hc
    simp only [Bool.not_eq_true, Bool.or_eq_false_iff, decide_eq_false_iff_not, not_lt, Bool.not_eq_false'] at hc
    obtain ⟨⟨⟨hcl, hpr⟩, hroom⟩, hmark⟩ := hc
    exact hno t ⟨hown, ⟨hcl, hpr⟩, hroom, hmark⟩

end

/-! ### FENCE and DRAIN (R212, R232, R313) -/

section
variable {s : State} {i : Inst} (ht : Terms.OnTurn s i)
include ht

theorem fence_runs (sc : BitVec 3) :
    let m := (i.cover.getD [s.ord.nextId]).headD 0
    let met := i.loads = [] ∧ s.allPerformed (.elem s.cur.patch s.cur.el) m (scopeOf sc) = true
    (met → Terms.completes (.fence sc) s ⟨s, i⟩) ∧ (¬ met → Terms.waits (.fence sc) s i (some [m])) := by
  refine ⟨fun ⟨hl, hp⟩ => completes_of_ok rfl ht ?_, fun hno => waits_of_error rfl ht ?_⟩ <;>
    rw [W.bind_of_ok (W.get_apply _), W.bind_of_ok (W.agent_apply _)]
  · simp only [hl, hp]
    rfl
  · rw [if_neg (by simpa [List.isEmpty_iff] using hno)]
    rfl

theorem drain_runs (path : BitVec 2) :
    let open_ := ((s.elem s.cur.patch s.cur.el).cmds.filter (fun c => c.2 == path.toNat)).map (fun c => c.1)
    let covered := i.cover.getD open_
    ((∀ m ∈ covered, m ∉ open_) → Terms.completes (.drain path) s ⟨s, i⟩) ∧
    (¬ (∀ m ∈ covered, m ∉ open_) → Terms.waits (.drain path) s i (some covered)) := by
  intro open_ covered
  have hall : (covered.all fun n => !open_.contains n) = true ↔ ∀ m ∈ covered, m ∉ open_ := by
    simp only [List.all_eq_true, Bool.not_eq_true', List.contains_eq_mem, decide_eq_false_iff_not]
  refine ⟨fun h => completes_of_ok rfl ht ?_, fun hno => waits_of_error rfl ht ?_⟩ <;>
    rw [W.bind_of_ok (W.get_apply _), W.bind_of_ok (W.elem_apply _)]
  · exact congrFun (if_pos (hall.mpr h)) _
  · exact congrFun (if_neg (mt hall.mp hno)) _

end

/-- Settles O31: each word by what it runs to. -/
theorem queueAndWaitWords : Obligations.QueueAndWaitWords := by
  intro s i d a n ln sc path ht
  refine ⟨fun u k₁ _ hu => ⟨fun k hw => take_completes ht hu hw, fun k hw => peek_completes ht hu hw⟩,
    fun t k₁ _ hb hc hn => adv_completes ht hb hc hn, fun x k₁ hx hh hd => emit_completes ht hx hh hd, fun _ hv => ?_, fence_runs ht sc,
    drain_runs ht path⟩
  obtain ⟨hf, hfw⟩ := waitf_runs (d := d) (n := n) ht hv
  obtain ⟨he, hew⟩ := waite_runs (d := d) (n := n) ht hv
  exact ⟨hf, hfw, he, hew⟩

end Sys2Proof.Machine
end

section
/-! PROOFS of the family of the machine's state: the words whose operation the commit performs (R217, R221, R222, R225, R234). -/

namespace Sys2Proof.Machine

@[simp] theorem W.irrevocable_apply (x : Irr) (k : Wk) : W.irrevocable x k = .ok ((), Terms.withIrr k x) := rfl

/-- An operand of 32 or 64 bits, as the words that take either read it. -/
theorem operand_of_holdsIn {k : Wk} {w : BitVec 1} {n : Nat} {x : DWord} (h : Terms.holdsIn k w n x) :
    ((if (w == 1) = true then rdPair n else do pure ((← rdS n).setWidth 64)) : W DWord) k = .ok (x, k) := by
  unfold Terms.holdsIn at h
  by_cases hw : w = 1
  · rw [if_pos hw] at h
    rw [if_pos (by simpa using hw)]
    exact h
  · rw [if_neg hw] at h
    obtain ⟨y, hy, rfl⟩ := h
    rw [if_neg (by simpa using hw), W.bind_of_ok hy, BitVec.ofNat_toNat]
    rfl

/-! ### Atomics (R217) -/

theorem exec_of_elementAtomics {row} (h : row ∈ Terms.elementAtomics) (d a b : BitVec 5) (ar w : BitVec 1) (sc : BitVec 3) (s : State) :
    exec (row.1 d a b ar w sc) s = runWord (atomWord row.2 d a b ar w sc) s := by
  revert row
  simp only [Terms.elementAtomics, List.forall_mem_cons]
  exact ⟨rfl, rfl, rfl, rfl, rfl, rfl, rfl, rfl, fun _ h => nomatch h⟩

theorem atomWord_notes {k : Wk} {kd : AtomKind} {d a b : BitVec 5} (ar : BitVec 1) {w : BitVec 1} (sc : BitVec 3) {pl : Place} {y e eff : DWord}
    (hy : Terms.holdsIn k w b.toNat y) (he : kd = .cas → Terms.holdsIn k w d.toNat e)
    (hp : Terms.points k a.toNat 0 (if w = 1 then 8 else 4) (if w = 1 then 8 else 4) .owner pl eff) :
    atomWord kd d a b ar w sc k = .ok ((), Terms.withIrr k (.owner pl (scopeOf sc) (ar == 1) (ar == 1)
      (if kd = .cas then .atomic .cas (w == 1) e y else .atomic kd (w == 1) y 0)
      (if w = 1 then [d.toNat, d.toNat + 1] else [d.toNat]) eff)) := by
  obtain ⟨v, hv, hpl⟩ := hp
  simp only [← beq_iff_eq (a := w)] at hpl
  unfold atomWord
  dsimp only
  rw [W.bind_of_ok (operand_of_holdsIn hy)]
  by_cases hk : kd = .cas
  · subst hk
    rw [if_pos rfl, W.bind_of_ok (operand_of_holdsIn (he rfl)), W.bind_of_ok hv, W.bind_of_ok hpl]
    simp only [if_true, beq_iff_eq, W.irrevocable_apply]
  · rw [if_neg hk, W.bind_of_ok (W.pure_apply 0 k), W.bind_of_ok hv, W.bind_of_ok hpl]
    simp only [hk, if_false, beq_iff_eq, W.irrevocable_apply]

/-! ### Place words (R221, R222) -/

theorem holdPointer_of_points {k : Wk} {a : BitVec 5} {pl : Place} {eff : DWord} (hp : Terms.points k a.toNat 0 64 64 .owner pl eff)
    (hf : pl.fe = true) : holdPointer a k = .ok ((pl, eff), k) := by
  obtain ⟨v, hv, hpl⟩ := hp
  rw [holdPointer, W.bind_of_ok hv, W.bind_of_ok hpl, hf]
  rfl

theorem context_apply (k : Wk) : W.context k = .ok (Terms.contextOf k, k) := rfl

theorem patches_apply (k : Wk) :
    W.patches k = .ok (((k.s.loadOf k.s.cur.patch).map (fun l => l.patches.length)).getD 1, k) := by
  rw [W.patches, W.bind_of_ok (W.get_apply k), W.bind_of_ok (W.cur_apply k)]
  cases k.s.loadOf k.s.cur.patch <;> rfl

theorem exec_of_placeWords {row} (h : row ∈ Terms.placeWords) (d a b : BitVec 5) (sc : BitVec 3) (s : State) :
    exec (row.1 d a b sc) s = runWord (placeWord row.2.1 d a b sc row.2.2.1 row.2.2.2.1 row.2.2.2.2.1
      (if row.2.2.2.2.2 then [d.toNat] else [])) s := by
  revert row
  simp only [Terms.placeWords, List.forall_mem_cons]
  exact ⟨rfl, rfl, rfl, rfl, rfl, fun _ h => nomatch h⟩

theorem placeWord_notes {k : Wk} (kd : PlaceKind) {d a b : BitVec 5} (sc : BitVec 3) (acq rel : Bool) {reads : Bool} (dst : List Nat)
    {pl : Place} {eff : DWord} {h x : Word} (hp : holdPointer a k = .ok ((pl, eff), k)) (hh : Terms.gives (rdS b.toNat) k h k)
    (hx : if reads then Terms.gives (rdS d.toNat) k x k else x = 0) :
    placeWord kd d a b sc acq rel reads dst k = .ok ((), Terms.withIrr k (.owner pl (scopeOf sc) acq rel
      (.placeOp kd (Terms.contextOf k) h x (((k.s.loadOf k.s.cur.patch).map (fun l => l.patches.length)).getD 1)) dst eff)) := by
  have hrest : ∀ y : Word, y = x → (holdPointer a >>= fun r => W.context >>= fun c => W.patches >>= fun n =>
      W.irrevocable (.owner r.1 (scopeOf sc) acq rel (.placeOp kd c h y n) dst r.2) : W Unit) k = .ok ((), Terms.withIrr k (.owner pl
        (scopeOf sc) acq rel (.placeOp kd (Terms.contextOf k) h x (((k.s.loadOf k.s.cur.patch).map (fun l => l.patches.length)).getD 1)) dst eff)) := by
    rintro y rfl
    rw [W.bind_of_ok hp, W.bind_of_ok (context_apply k), W.bind_of_ok (patches_apply k)]
    exact W.irrevocable_apply ..
  rw [placeWord, W.bind_of_ok hh]
  cases reads with
  | true =>
    rw [if_pos rfl] at hx
    rw [if_pos rfl, W.bind_of_ok hx]
    exact hrest x rfl
  | false =>
    rw [if_neg Bool.false_ne_true] at hx
    rw [if_neg Bool.false_ne_true, W.bind_of_ok (W.pure_apply 0 k)]
    exact hrest 0 hx.symm

theorem place_completes {s : State} {i : Inst} (ht : Terms.OnTurn s i) {d a : BitVec 5} (sc : BitVec 3) {pl : Place} {eff : DWord}
    (hp : holdPointer a ⟨s, i⟩ = .ok ((pl, eff), ⟨s, i⟩)) : Terms.completes (.place d a sc) s
      (Terms.withIrr ⟨s, i⟩ (.owner pl (scopeOf sc) false false (.placeNew (Terms.contextOf ⟨s, i⟩)) [d.toNat] eff)) := by
  refine completes_of_ok rfl ht ?_
  exact (W.bind_of_ok hp).trans (W.bind_of_ok (context_apply _))

/-! ### Engine words (R225) -/

theorem exec_of_engineWords {row} (h : row ∈ Terms.engineWords) (d a : BitVec 5) (sc : BitVec 3) (s : State) :
    exec (row.1 d a sc) s = runWord (engWord row.2.1 d a sc) s ∧ row.2.2 = blockBytes row.2.1 := by
  revert row
  simp only [Terms.engineWords, List.forall_mem_cons]
  exact ⟨⟨rfl, rfl⟩, ⟨rfl, rfl⟩, ⟨rfl, rfl⟩, ⟨rfl, rfl⟩, ⟨rfl, rfl⟩, ⟨rfl, rfl⟩, fun _ h => nomatch h⟩

theorem engWord_notes {k : Wk} (kd : EngKind) (d : BitVec 5) {a : BitVec 5} (sc : BitVec 3) {pl : Place} {eff : DWord}
    (hp : Terms.points k a.toNat 0 64 (blockBytes kd) .plain pl eff) :
    engWord kd d a sc k = .ok ((), Terms.withIrr k (.engine kd (scopeOf sc) [d.toNat] eff)) := by
  obtain ⟨v, hv, hpl⟩ := hp
  have hw : engWord kd d a sc = (rdPair a.toNat >>= fun v => wPointer v 0 64 (blockBytes kd) .plain >>= fun r =>
      W.irrevocable (.engine kd (scopeOf sc) [d.toNat] r.2)) := by
    cases kd <;> rfl
  rw [hw, W.bind_of_ok hv, W.bind_of_ok hpl, W.irrevocable_apply]

/-! ### THAW and BUBL (R234) -/

section
variable {s : State} {i : Inst} (ht : Terms.OnTurn s i) {d a b : BitVec 5} {x y : Word} (hx : Terms.gives (rdS a.toNat) ⟨s, i⟩ x ⟨s, i⟩)
include ht hx

theorem thaw_completes (h : x.toNat ≤ 15) :
    Terms.completes (.thaw d a) s (Terms.withEff ⟨s, i.disown d.toNat⟩ (.thaw d.toNat x.toNat)) := by
  refine completes_of_ok rfl ht ?_
  rw [W.bind_of_ok hx]
  simp only [Nat.not_lt.mpr h, if_false]
  rw [W.bind_of_ok (W.upd_apply ..)]
  exact W.eff_apply ..

theorem thaw_faults (h : 15 < x.toNat) : Terms.faults (.thaw d a) s i .illop 2 (Terms.wordAt ⟨s, i⟩) := by
  refine faults_of_error rfl ht ?_
  rw [W.bind_of_ok hx]
  simp only [h, if_true]
  exact W.bind_of_error (W.illop_apply ..)

variable (hy : Terms.gives (rdS b.toNat) ⟨s, i⟩ y ⟨s, i⟩)
include hy

theorem bubl_completes (h : x.toNat ≤ 15) (h' : y.toNat ≤ 1) :
    Terms.completes (.bubl d a b) s (Terms.withEff ⟨s, i.disown d.toNat⟩ (.bubl d.toNat x.toNat y.toNat)) := by
  refine completes_of_ok rfl ht ?_
  rw [W.bind_of_ok hx, W.bind_of_ok hy]
  simp only [Nat.not_lt.mpr h, Nat.not_lt.mpr h', or_self, if_false]
  rw [W.bind_of_ok (W.upd_apply ..)]
  exact W.eff_apply ..

theorem bubl_faults (h : 15 < x.toNat ∨ 1 < y.toNat) : Terms.faults (.bubl d a b) s i .illop 2 (Terms.wordAt ⟨s, i⟩) := by
  refine faults_of_error rfl ht ?_
  rw [W.bind_of_ok hx, W.bind_of_ok hy]
  simp only [h, if_true]
  exact W.bind_of_error (W.illop_apply ..)

end

/-- Settles O36: each word by what it notes for the commit. -/
theorem irrevocableWords : Obligations.IrrevocableWords := by
  intro s i d a b ar w sc pl eff ht
  refine ⟨fun row hrow y e hy he hp => completes_of_ok (exec_of_elementAtomics hrow d a b ar w sc s) ht (atomWord_notes ar sc hy he hp),
    fun hp hf => ?_, fun row hrow hp => ?_,
    fun x y hx => ⟨thaw_completes ht hx, thaw_faults ht hx, fun hy => ⟨bubl_completes ht hx hy, bubl_faults ht hx hy⟩⟩⟩
  · have hh := holdPointer_of_points hp hf
    exact ⟨place_completes ht sc hh, fun row hrow h x hb hx =>
      completes_of_ok (exec_of_placeWords hrow d a b sc s) ht (placeWord_notes _ sc _ _ _ hh hb hx)⟩
  · obtain ⟨he, hsize⟩ := exec_of_engineWords hrow d a sc s
    rw [hsize] at hp
    exact completes_of_ok he ht (engWord_notes _ d sc hp)

end Sys2Proof.Machine
end

section
/-! SUPPORT. What the steps of an instance leave of its element: its station, its fault, the element's move (R36, R37, R313, R398). -/

namespace Sys2Proof.Machine

/-! ### One element and its station -/

@[simp] theorem smSet_smSet_same {α : Type} (m : SMap α) (a : Nat) (x y : α) : smSet (smSet m a x) a y = smSet m a y := by
  induction m with
  | nil => simp [smSet]
  | cons h t ih =>
    obtain ⟨k, v⟩ := h
    simp only [smSet]
    split
    · simp [smSet]
    · split
      · simp [smSet]
      · simp_all [smSet]

section
variable (s : State) (p e n m : Nat) (i j : Inst) (v : Elem)

@[simp] theorem patch_setElem_same : (s.setElem p e v).patch p = (s.patch p).setElem e v := patch_setPatch_same ..

@[simp] theorem patchElem_setElem_same (x : Patch) : (x.setElem e v).elem e = v := smGet_smSet_same ..

@[simp] theorem elem_putInst_same :
    (s.putInst p e j).elem p e = { s.elem p e with insts := (s.elem p e).insts.map (fun x => if x.id = j.id then j else x) } :=
  elem_setElem_same ..

@[simp] theorem elem_moved_same : (s.moved p e).elem p e = { s.elem p e with blocked := none, probed := none, fwd := [] } :=
  elem_setElem_same ..

@[simp] theorem elem_modElem_same (f : Elem → Elem) : (s.modElem p e f).elem p e = f (s.elem p e) := elem_setElem_same ..

@[simp] theorem elem_dropLoads : s.dropLoads.elem n m = s.elem n m := rfl
@[simp] theorem patch_dropLoads : s.dropLoads.patch n = s.patch n := rfl

@[simp] theorem seq_putInst : (s.putInst p e j).seq n = s.seq n := seq_setElem ..
@[simp] theorem seq_moved : (s.moved p e).seq n = s.seq n := seq_setElem ..

end

section
variable {s : State} {p e n m : Nat} {i j : Inst} {v : Elem}

theorem elem_putInst_ne (h : n ≠ p ∨ m ≠ e) : (s.putInst p e j).elem n m = s.elem n m := elem_setElem_ne _ _ h
theorem elem_moved_ne (h : n ≠ p ∨ m ≠ e) : (s.moved p e).elem n m = s.elem n m := elem_setElem_ne _ _ h

theorem id_of_inst (h : v.inst n = some i) : i.id = n := by simpa using List.find?_some h

/-- Putting an instance back leaves the others. -/
theorem inst_putInst_ne (h : n ≠ j.id) : ((s.putInst p e j).elem p e).inst n = (s.elem p e).inst n := by
  have hf : ((fun x : Inst => x.id == n) ∘ fun x => if x.id = j.id then j else x) = fun x => x.id == n := by
    funext x
    by_cases hx : x.id = j.id
    · simp [hx]
    · simp [hx]
  rw [elem_putInst_same, Elem.inst, List.find?_map, hf, Elem.inst]
  cases hi : (s.elem p e).insts.find? (fun x => x.id == n) with
  | none => rfl
  | some i => simp [id_of_inst hi, h]

/-- An instance that another one's end lets go on (R313). -/
def Inst.letGo (i : Inst) (n : Nat) : Inst := { i with after := i.after.filter (fun m => m != n) }

theorem inst_forget : (v.forget n).inst m = (v.inst m).map (fun i => i.letGo n) := by
  rw [Elem.inst, Elem.forget, List.find?_map]
  rfl

end

/-! ### The fault of an instance (R36) -/

/-- The report of an instance's fault. -/
def faultReport (e : Nat) (i : Inst) (c : Cause) (sub : Nat) (val : DWord) : Report :=
  ⟨some (e, i.id), xcause (causeCode c) sub true, xinfoOf e i, val, [], 0⟩

/-- A report that waits with its instance, numbered after the element's other waiting ones. -/
def Elem.lateReport (v : Elem) (r : Report) : Report :=
  { r with tsc := BitVec.ofNat 64 ((v.insts.filterMap (fun j => j.pend.map (fun r => r.tsc.toNat))).foldl Nat.max 0 + 1) }

/-- An instance that has faulted; `r` is its report, where that waits for room. -/
def Inst.faulted (i : Inst) (r : Option Report) : Inst := { i with st := .faulted, irr := .none, pend := r }

/-- The element whose instance has faulted. -/
def Elem.faulted (v : Elem) (i : Inst) (r : Option Report) : Elem :=
  { v with insts := v.insts.map (fun x : Inst => if x.id = i.id then i.faulted r else x) }.forget i.id

theorem inst_faulted {v : Elem} {i j : Inst} (r : Option Report) (h : v.inst i.id = some j) :
    (v.faulted i r).inst i.id = some ((i.faulted r).letGo i.id) := by
  have hf : ((fun x : Inst => x.id == i.id) ∘ fun x : Inst => if x.id = i.id then i.faulted r else x) =
      fun x : Inst => x.id == i.id := by
    funext x
    by_cases hx : x.id = i.id
    · simp [hx, Inst.faulted]
    · simp [hx]
  rw [Elem.faulted, inst_forget, Elem.inst, List.find?_map, hf, show v.insts.find? (fun x => x.id == i.id) = some j from h]
  simp [id_of_inst h]

section
variable {s : State} {p e n m : Nat} {i j : Inst} {c : Cause} {sub : Nat} {val : DWord}

/-- Where reports have room, a fault adds its own, sets the event latch, and leaves the instance faulted in its station. -/
theorem patch_elemFault (hr : (s.patch p).fpend < 64) : (s.elemFault p e i c sub val).patch p =
    { (s.patch p).setElem e ((s.elem p e).faulted i i.pend) with
      reports := (s.patch p).reports ++ [faultReport e i c sub val], seq := { (s.patch p).seq with latch := true } } := by
  have hp : ({ s with free := s.free + 1 } : State).patch p = s.patch p := rfl
  simp [State.elemFault, hp, hr, State.putInst, State.modElem, State.setElem, State.elem, Patch.setElem, Patch.elem, faultReport,
    Elem.faulted, Inst.faulted]

/-- Where they have none, the report waits with its instance. -/
theorem patch_elemFault_full (hr : ¬ (s.patch p).fpend < 64) :
    ∃ r, (s.elemFault p e i c sub val).patch p = (s.patch p).setElem e ((s.elem p e).faulted i r) := by
  have hp : ({ s with free := s.free + 1 } : State).patch p = s.patch p := rfl
  refine ⟨some ((s.elem p e).lateReport (faultReport e i c sub val)), ?_⟩
  simp [State.elemFault, hp, hr, State.putInst, State.modElem, State.setElem, State.elem, Patch.setElem, Patch.elem, faultReport,
    Elem.lateReport, Elem.faulted, Inst.faulted]

/-- In both cases the element is the one whose instance has faulted. -/
theorem elem_elemFault : ∃ r, (s.elemFault p e i c sub val).elem p e = (s.elem p e).faulted i r := by
  by_cases hr : (s.patch p).fpend < 64
  · exact ⟨i.pend, by simp [State.elem, patch_elemFault hr, Patch.elem, Patch.setElem]⟩
  · obtain ⟨r, h⟩ := patch_elemFault_full (e := e) (i := i) (c := c) (sub := sub) (val := val) hr
    exact ⟨r, by rw [State.elem, h, patchElem_setElem_same]⟩

theorem patch_elemFault_ne (h : n ≠ p) : (s.elemFault p e i c sub val).patch n = s.patch n := by
  have hf : ({ s with free := s.free + 1 } : State).patch n = s.patch n := rfl
  have hp : ({ s with free := s.free + 1 } : State).patch p = s.patch p := rfl
  by_cases hr : (s.patch p).fpend < 64
  · simp [State.elemFault, hp, hr, State.putInst, State.modElem, State.setElem, patch_setPatch_ne _ _ h, hf]
  · simp [State.elemFault, hp, hr, State.putInst, State.modElem, State.setElem, patch_setPatch_ne _ _ h, hf]

theorem elem_elemFault_ne (h : n ≠ p ∨ m ≠ e) : (s.elemFault p e i c sub val).elem n m = s.elem n m := by
  by_cases hn : n = p
  · subst hn
    have hm : m ≠ e := by simpa using h
    have hset : ∀ v, ((s.patch n).setElem e v).elem m = (s.patch n).elem m := fun v => smGet_smSet_ne _ _ _ hm
    by_cases hr : (s.patch n).fpend < 64
    · rw [State.elem, patch_elemFault hr]
      exact hset _
    · obtain ⟨r, h⟩ := patch_elemFault_full (e := e) (i := i) (c := c) (sub := sub) (val := val) hr
      rw [State.elem, h]
      exact hset _
  · simp only [State.elem, patch_elemFault_ne hn]

end

/-! ### The word that comes next (R31) -/

/-- A list no longer than a run of distinct members of it holds nothing else. -/
theorem not_mem_of_run {l : List Nat} {n d : Nat} (h : ∀ k, k < d → n + k ∈ l) (hd : l.length ≤ d) : n + d ∉ l := by
  intro hm
  have hsub : (List.range' n (d + 1)) ⊆ l := by
    intro x hx
    obtain ⟨hlo, hhi⟩ := List.mem_range'_1.mp hx
    obtain ⟨k, rfl⟩ := Nat.exists_eq_add_of_le hlo
    rcases Nat.lt_or_ge k d with hk | hk
    · exact h k hk
    · rwa [show k = d by omega]
  have := (List.nodup_range' (s := n) (n := d + 1)).length_le_of_subset hsub
  simp at this
  omega

/-- The search finds the first index that is not listed, where its fuel covers the list. -/
theorem skipDone_spec (l : List Nat) (fuel : Nat) : ∀ n d, l.length ≤ d + fuel → (∀ k, k < d → n + k ∈ l) →
    n + d ≤ skipDone l (n + d) fuel ∧ skipDone l (n + d) fuel ∉ l ∧ ∀ m, n + d ≤ m → m < skipDone l (n + d) fuel → m ∈ l := by
  induction fuel with
  | zero =>
    intro n d hd h
    exact ⟨le_rfl, not_mem_of_run h hd, fun m h1 h2 => absurd h2 (Nat.not_lt.mpr h1)⟩
  | succ fuel ih =>
    intro n d hd h
    simp only [skipDone, List.contains_eq_mem, decide_eq_true_eq]
    split
    · next hm =>
      obtain ⟨hle, hnot, hbetween⟩ := ih n (d + 1) (by omega) fun k hk => by
        rcases Nat.lt_or_ge k d with hk' | hk'
        · exact h k hk'
        · rwa [show k = d by omega]
      rw [← Nat.add_assoc] at hle hnot hbetween
      refine ⟨by omega, hnot, fun m h1 h2 => ?_⟩
      rcases Nat.eq_or_lt_of_le h1 with rfl | h1
      · exact hm
      · exact hbetween m h1 h2
    · next hm => exact ⟨le_rfl, hm, fun m h1 h2 => absurd h2 (Nat.not_lt.mpr h1)⟩

theorem nextPc_spec (i : Inst) : i.pc < i.nextPc ∧ i.nextPc ∉ i.ahead ∧ ∀ n, i.pc < n → n < i.nextPc → n ∈ i.ahead :=
  skipDone_spec i.ahead i.ahead.length (i.pc + 1) 0 (by omega) fun _ hk => absurd hk (Nat.not_lt_zero _)

/-! ### A word that completes, ahead of its turn or in it, and one that faults -/

theorem wordDone_frame (s : State) (k : Wk) :
    let p := s.cur.patch
    let e := s.cur.el
    let t := Terms.wordDone s k
    (∀ i, (k.s.elem p e).inst k.i.id = some i → (t.elem p e).inst k.i.id = some (Terms.passed s k)) ∧
    (∀ n, n ≠ k.i.id → (t.elem p e).inst n = (k.s.elem p e).inst n) ∧
    (∀ n m, (n ≠ p ∨ m ≠ e) → t.elem n m = k.s.elem n m) ∧ (∀ n, t.seq n = k.s.seq n) := by
  intro p e t
  have hinst : ∀ n, (t.elem p e).inst n = ((k.s.putInst p e (Terms.passed s k)).elem p e).inst n := fun n => by
    rw [show t.elem p e = _ from elem_moved_same ..]
    rfl
  refine ⟨fun i hi => ?_, fun n hn => ?_, fun n m h => ?_, fun n => ?_⟩
  · rw [hinst]
    exact inst_putInst hi rfl
  · rw [hinst]
    exact inst_putInst_ne hn
  · exact (elem_moved_ne h).trans (elem_putInst_ne h)
  · exact (seq_moved ..).trans (seq_putInst ..)

section
variable {s t : State} {p e n : Nat} {i j : Inst} (hj : (t.elem p e).inst i.id = some j)
include hj

theorem aheadTo_of_ended (h : j.st ≠ .fired) : s.aheadTo t p e i n = some t := by
  simp only [State.aheadTo, hj, h, ne_eq, not_false_eq_true, if_true]

theorem aheadTo_of_waits (hf : j.st = .fired) (h : j.pc = n) : s.aheadTo t p e i n = none := by
  simp only [State.aheadTo, hj, hf, h, ne_eq, not_true, if_false, true_or, if_true]

theorem aheadTo_of_done (hf : j.st = .fired) (h : j.pc ≠ n)
    (hso : ∀ a ∈ t.ord.accs, a.agent = .elem p e → s.ord.nextId ≤ a.id → a.place.kind ≠ .so) :
    s.aheadTo t p e i n = some (t.putInst p e (Terms.doneAhead i j n)) := by
  have hn : s.newSo t p e = false := by
    simp only [State.newSo, List.any_eq_false, Bool.and_eq_true, beq_iff_eq, decide_eq_true_eq]
    exact fun a ha ⟨⟨h, h'⟩, hid⟩ => hso a ha h hid h'
  rw [State.aheadTo, hj]
  dsimp only
  rw [if_neg (not_not.mpr hf), if_neg (by simp [h, hn])]
  rfl

end

/-- Settles O24: a completed word by `wordDone_frame` and `nextPc_spec`, one ahead of its turn by what `State.aheadTo` comes to in each
case, and a fault by `patch_elemFault`. -/
theorem wordDoneFrame : Obligations.WordDoneFrame := by
  refine ⟨fun s k => ?_, fun s t p e n i j hj => ⟨aheadTo_of_ended hj, aheadTo_of_waits hj, aheadTo_of_done hj⟩,
    fun s p e i c sub v hi hr => ?_⟩
  · obtain ⟨hsame, hother, helem, hseq⟩ := wordDone_frame s k
    have h : (Terms.wordDone s k).elem s.cur.patch s.cur.el = _ := elem_moved_same ..
    have hput : (k.s.putInst s.cur.patch s.cur.el (Terms.passed s k)).elem s.cur.patch s.cur.el = _ := elem_putInst_same ..
    obtain ⟨hlt, hnot, hbetween⟩ := nextPc_spec k.i
    refine ⟨hsame, hother, ?_, ?_, ?_, ?_, ?_, ?_, ?_, ?_, helem, hseq, rfl, hlt, hnot, hbetween⟩ <;> rw [h] <;> rw [hput]
  · have helem : (s.elemFault p e i c sub v).elem p e = (s.elem p e).faulted i i.pend := by
      simp [State.elem, patch_elemFault hr, Patch.elem, Patch.setElem]
    have hp := patch_elemFault (s := s) (e := e) (i := i) (c := c) (sub := sub) (val := v) hr
    refine ⟨⟨(i.faulted i.pend).letGo i.id, by rw [helem]; exact inst_faulted _ hi, rfl, rfl, rfl, rfl, rfl⟩,
      by rw [hp]; rfl, by rw [helem]; rfl, by rw [helem]; rfl,
      State.elemFault_mem .., fun n m h => elem_elemFault_ne h, by rw [State.seq, hp], by rw [State.seq, hp]; rfl⟩

end Sys2Proof.Machine
end

section
/-! PROOFS. The delivery of an element fault, and the disposal of the instance that it names (R36, R37, R113, R155, R385, R400). -/

namespace Sys2Proof.Machine

/-! ### Delivery -/

/-- Either no report waits for room, or one takes it: its element lets it go, and the event latch is set (R36). -/
theorem promote_cases (x : Patch) : x.promote = x ∨
    ∃ e v r, x.promote = { x.setElem e v with reports := x.reports ++ [r], seq := { x.seq with latch := true } } := by
  unfold Patch.promote
  by_cases h : x.fpend < 64
  · simp only [h, if_true]
    split
    · exact .inr ⟨_, _, _, rfl⟩
    · exact .inl rfl
  · simp only [h, if_false]
    split <;> exact .inl rfl

theorem seq_promote (x : Patch) : ∃ b, x.promote.seq = { x.seq with latch := b } := by
  obtain h | ⟨e, v, r, h⟩ := promote_cases x
  · exact ⟨x.seq.latch, by rw [h]⟩
  · exact ⟨true, by rw [h]⟩

theorem reports_promote (x : Patch) : ∃ l, x.promote.reports = x.reports ++ l := by
  obtain h | ⟨e, v, r, h⟩ := promote_cases x
  · exact ⟨[], by rw [h, List.append_nil]⟩
  · exact ⟨[r], by rw [h]⟩

/-- The sequencer that a report finds: one that waits in a WFE leaves it (R113). -/
def Seq.roused (q : Seq) : Seq := if q.wf then q.wake else q

/-- What the report of a DEADLOCK leaves in the store; another leaves nothing (R400). -/
def Seq.recording (q : Seq) (r : Report) : Seq := if r.ring.isEmpty then q else { q with store := deadlockStore q.store r }

/-- The patch whose oldest report is gone. -/
def Patch.unreported (x : Patch) (r : Report) (rest : List Report) : Patch :=
  { x with seq := x.seq.roused.recording r, reports := rest }.promote

/-- The patch whose handler has taken its oldest report. -/
def Patch.delivered (x : Patch) (r : Report) (rest : List Report) : Patch :=
  { x.unreported r rest with
    seq := takeTrap (x.unreported r rest).seq ((x.seq.roused.recording r).pc.setWidth 16) r.cause r.info r.val, named := r.inst }

/-- The loads, once a report has been counted (R385). -/
def State.counting (s : State) (p : Nat) (r : Report) : List Load :=
  match (s.patch p).load with
  | some (ql, _) => if r.ring.isEmpty then (s.modLoad ql (fun l => l.countFault r.cause r.val)).loads else s.loads
  | none => s.loads

section
variable {s : State} {p : Nat} {r : Report} {rest : List Report} (hr : (s.patch p).reports = r :: rest)
include hr

theorem delivery_of_shut (h : (s.seq p).xt = true ∨ (s.patch p).frozen = true ∨ ((s.seq p).begun = true ∧ (s.seq p).wf = false)) :
    exec (.elementFaultDelivery p) s = .next s := by
  have hc : ((s.patch p).seq.xt || (s.patch p).frozen || (s.patch p).seq.frozen || !(s.patch p).running || !(s.patch p).seq.between) = true := by
    rcases h with h | h | ⟨hb, hw⟩
    · simp [show (s.patch p).seq.xt = true from h]
    · simp [h]
    · simp [Seq.between, show (s.patch p).seq.begun = true from hb, show (s.patch p).seq.wf = false from hw]
  simp only [exec, execElementFaultDelivery, hr]
  rw [if_pos hc]

theorem delivery_of_open (hx : (s.seq p).xt = false) (hf : (s.patch p).frozen = false) (hq : (s.seq p).frozen = false)
    (hrun : (s.patch p).running = true) (hb : (s.seq p).begun = false ∨ (s.seq p).wf = true) (hpc : (s.seq p).roused.pc ≠ 0x10000) :
    exec (.elementFaultDelivery p) s = .next { s.setPatch p ((s.patch p).delivered r rest) with loads := s.counting p r } := by
  have hc : ((s.patch p).seq.xt || (s.patch p).frozen || (s.patch p).seq.frozen || !(s.patch p).running || !(s.patch p).seq.between) = false := by
    simp only [State.seq] at hx hq hb
    rcases hb with hb | hb <;> simp [Seq.between, hx, hf, hq, hrun, hb]
  simp only [exec, execElementFaultDelivery, hr]
  rw [if_neg (by simp [hc]),
    if_neg (show ¬ (if (s.patch p).seq.wf then (s.patch p).seq.wake else (s.patch p).seq).pc = 0x10000 from hpc)]
  split
  · next ql n hl =>
    by_cases he : r.ring.isEmpty
    · rw [if_pos he, show s.counting p r = (s.modLoad ql (fun l => l.countFault r.cause r.val)).loads by simp [State.counting, hl, he]]
      rfl
    · rw [if_neg he, show s.counting p r = s.loads by simp [State.counting, hl, he]]
      rfl
  · next hl =>
    rw [show s.counting p r = s.loads by simp [State.counting, hl]]
    rfl

end

/-! ### What a WFE that is left keeps, and the record of a DEADLOCK -/

/-- The loop-end check changes pc and the loops' counts alone (R127). -/
theorem loopCheck_only (a : Half) (l : List Nat) (q : Seq) : ∃ x y, (loopCheck a l q).1 = { q with pc := x, lc := y } := by
  induction l generalizing q with
  | nil => exact ⟨_, _, rfl⟩
  | cons n l ih =>
    simp only [loopCheck]
    split
    · split
      · exact ⟨_, _, rfl⟩
      · obtain ⟨x, y, h⟩ := ih { q with lc := q.lc.set n (q.lc.getD n 0 - 1) }
        exact ⟨x, y, h⟩
    · exact ih q

theorem finish_keeps (q : Seq) (a : Half) : (q.finish a).g = q.g ∧ (q.finish a).k = q.k ∧ (q.finish a).store = q.store := by
  obtain ⟨x, y, h⟩ := loopCheck_only a [2, 1, 0] q
  simp only [Seq.finish, h]
  split <;> exact ⟨rfl, rfl, rfl⟩

theorem roused_keeps (q : Seq) : q.roused.g = q.g ∧ q.roused.k = q.k ∧ q.roused.store = q.store := by
  unfold Seq.roused
  split
  · exact finish_keeps _ _
  · exact ⟨rfl, rfl, rfl⟩

theorem recording_of_ring {q : Seq} {r : Report} (h : r.ring ≠ []) : q.recording r = { q with store := deadlockStore q.store r } :=
  if_neg (by simpa using h)

theorem recording_of_noRing {q : Seq} {r : Report} (h : r.ring = []) : q.recording r = q := if_pos (by simpa using h)

/-- Of its sequencer a delivery records, traps, and may set the event latch. -/
theorem seq_delivered (x : Patch) (r : Report) (rest : List Report) : ∃ b, (x.delivered r rest).seq =
    takeTrap { x.seq.roused.recording r with latch := b } ((x.seq.roused.recording r).pc.setWidth 16) r.cause r.info r.val := by
  obtain ⟨b, h⟩ := seq_promote { x with seq := x.seq.roused.recording r, reports := rest }
  exact ⟨b, by rw [Patch.delivered, Patch.unreported, h]⟩

theorem storeValue_eq (q : Seq) (a n : Nat) : Terms.storeValue q a n = leNat (cellRead q.store a n) := by
  induction n generalizing a with
  | zero => rfl
  | succ n ih => simp [Terms.storeValue, cellRead, leNat, ih]

/-- Bytes read back as they were written. -/
theorem cellRead_cellWrite_same {l : List Host.Cell} (h : cellsWf l = true) (a : Nat) (bs : List Byte) :
    cellRead (cellWrite l a bs) a bs.length = bs := by
  apply List.ext_getElem?
  intro i
  rcases Nat.lt_or_ge i bs.length with hi | hi
  · rw [cellRead_getElem? _ _ _ _ hi, cellGet_cellWrite _ _ _ _ h, if_pos (by omega)]
    simp [List.getElem?_eq_getElem hi]
  · rw [List.getElem?_eq_none (by rw [cellRead_length]; exact hi), List.getElem?_eq_none hi]

/-- Bytes written outside a range leave it. -/
theorem cellRead_cellWrite_off {l : List Host.Cell} (h : cellsWf l = true) {a b n : Nat} {bs : List Byte}
    (hab : b + n ≤ a ∨ a + bs.length ≤ b) :
    cellRead (cellWrite l a bs) b n = cellRead l b n := by
  apply List.ext_getElem?
  intro i
  rcases Nat.lt_or_ge i n with hi | hi
  · rw [cellRead_getElem? _ _ _ _ hi, cellRead_getElem? _ _ _ _ hi, cellGet_cellWrite _ _ _ _ h, if_neg (by omega)]
  · rw [List.getElem?_eq_none (by rw [cellRead_length]; exact hi), List.getElem?_eq_none (by rw [cellRead_length]; exact hi)]

/-- The number that `n` bytes spell is the one written, cut to their range. -/
theorem leNat_leBytes (n v : Nat) : leNat (leBytes n v) = v % 256 ^ n := by
  induction n generalizing v with
  | zero => simp [leBytes, leNat, Nat.mod_one]
  | succ n ih =>
    have hb : (BitVec.ofNat 8 v).toNat = v % 256 := BitVec.toNat_ofNat ..
    rw [leBytes, leNat, ih, hb, Nat.pow_succ', Nat.mod_mul]

theorem leNat_cellRead_written {l : List Host.Cell} (h : cellsWf l = true) (a n v : Nat) :
    leNat (cellRead (cellWrite l a (leBytes n v)) a n) = v % 256 ^ n := by
  have hr := cellRead_cellWrite_same h a (leBytes n v)
  rw [leBytes_length] at hr
  rw [hr, leNat_leBytes]

/-- Half words laid one after the other stand at twice their places. -/
theorem cellRead_halves {l : List Host.Cell} (h : cellsWf l = true) (ws : List Nat) (a : Nat) {j : Nat} (hj : j < ws.length) :
    leNat (cellRead (cellWrite l a (ws.flatMap (leBytes 2))) (a + 2 * j) 2) = ws.getD j 0 % 65536 := by
  induction ws generalizing l a j with
  | nil => simp at hj
  | cons w ws ih =>
    have hc : cellWrite l a ((w :: ws).flatMap (leBytes 2)) = cellWrite (cellWrite l a (leBytes 2 w)) (a + 2) (ws.flatMap (leBytes 2)) := rfl
    have hw := cellsWf_cellWrite l a (leBytes 2 w) h
    rw [hc]
    cases j with
    | zero =>
      rw [cellRead_cellWrite_off hw (by omega)]
      exact leNat_cellRead_written h a 2 w
    | succ j =>
      rw [show a + 2 * (j + 1) = a + 2 + 2 * j by ring, ih hw _ (Nat.lt_of_succ_lt_succ hj)]
      rfl

/-- What the record of a DEADLOCK spells (R400): the count of the cycle's members, the time, the members, and nothing besides. -/
theorem deadlockStore_reads {l : List Host.Cell} (h : cellsWf l = true) (r : Report) :
    let n := min 64 r.ring.length
    leNat (cellRead (deadlockStore l r) 0xFF00 4) = n ∧ leNat (cellRead (deadlockStore l r) 0xFF08 8) = r.tsc.toNat ∧
    (∀ j < n, leNat (cellRead (deadlockStore l r) (0xFF10 + 2 * j) 2) = r.ring.getD j 0 % 65536) ∧
    ∀ a, a < 0xFF00 ∨ (0xFF04 ≤ a ∧ a < 0xFF08) ∨ 0xFF10 + 2 * n ≤ a → cellGet (deadlockStore l r) a = cellGet l a := by
  intro n
  have h1 := cellsWf_cellWrite l 0xFF00 (leBytes 4 n) h
  have h2 := cellsWf_cellWrite _ 0xFF08 (leBytes 8 r.tsc.toNat) h1
  have hlen : ((r.ring.take 64).flatMap (leBytes 2)).length = 2 * n := by
    simp [List.length_flatMap, leBytes_length, n, Nat.mul_comm]
  have heq : deadlockStore l r = cellWrite (cellWrite (cellWrite l 0xFF00 (leBytes 4 n)) 0xFF08 (leBytes 8 r.tsc.toNat)) 0xFF10
      ((r.ring.take 64).flatMap (leBytes 2)) := rfl
  rw [heq]
  refine ⟨?_, ?_, fun j hj => ?_, fun a ha => ?_⟩
  · rw [cellRead_cellWrite_off h2 (by omega), cellRead_cellWrite_off h1 (by omega), leNat_cellRead_written h]
    omega
  · rw [cellRead_cellWrite_off h2 (by omega), leNat_cellRead_written h1]
    exact Nat.mod_eq_of_lt r.tsc.isLt
  · rw [cellRead_halves h2 _ _ (by simpa [n] using hj)]
    simp [List.getD_eq_getElem?_getD, show j < 64 by omega]
  · rw [cellGet_cellWrite _ _ _ _ h2, cellGet_cellWrite _ _ _ _ h1, cellGet_cellWrite _ _ _ _ h, hlen]
    simp only [leBytes_length]
    rw [if_neg (by omega), if_neg (by omega), if_neg (by omega)]

theorem append_halves (v : DWord) : ((v >>> 32).setWidth 32 : Word) ++ (v.setWidth 32 : Word) = v := by
  apply BitVec.eq_of_toNat_eq
  rw [append_eq_ofNat]
  have := v.isLt
  simp only [BitVec.toNat_ofNat, BitVec.toNat_setWidth, BitVec.toNat_ushiftRight, Nat.shiftRight_eq_div_pow]
  omega

/-! ### The machine once a report is delivered -/

section
variable (s : State) (p : Nat) (r : Report) (rest : List Report)

/-- The machine whose patch has delivered its oldest report. -/
def State.delivered : State := { s.setPatch p ((s.patch p).delivered r rest) with loads := s.counting p r }

@[simp] theorem patch_delivered_same : (s.delivered p r rest).patch p = (s.patch p).delivered r rest := patch_setPatch_same ..

theorem patch_delivered_ne {n : Nat} (h : n ≠ p) : (s.delivered p r rest).patch n = s.patch n := patch_setPatch_ne _ _ h

theorem seq_delivered_same : ∃ b, (s.delivered p r rest).seq p =
    takeTrap { (s.seq p).roused.recording r with latch := b } (((s.seq p).roused.recording r).pc.setWidth 16) r.cause r.info r.val := by
  obtain ⟨b, h⟩ := seq_delivered (s.patch p) r rest
  exact ⟨b, by rw [State.seq, patch_delivered_same, h]; rfl⟩

theorem reports_delivered : ∃ l, ((s.delivered p r rest).patch p).reports = rest ++ l := by
  obtain ⟨l, h⟩ := reports_promote { s.patch p with seq := (s.patch p).seq.roused.recording r, reports := rest }
  exact ⟨l, by rw [patch_delivered_same]; exact h⟩

variable {r}

/-- A fault is counted to the load of its patch (R385). -/
theorem counting_of_noRing (h : r.ring = []) : s.counting p r = s.loads.map (fun l =>
    if (s.patch p).load.map (fun x => x.1) = some l.q then
      { l with fcnt := l.fcnt + 1, fcause := if l.fcnt = 0 then r.cause else l.fcause, faddr := if l.fcnt = 0 then r.val else l.faddr }
    else l) := by
  cases hl : (s.patch p).load with
  | none => simp [State.counting, hl]
  | some x =>
    simp only [State.counting, hl, h, State.modLoad, List.isEmpty_nil, if_true, Option.map_some, Option.some.injEq, eq_comm]
    rfl

theorem counting_of_ring (h : r.ring ≠ []) : s.counting p r = s.loads := by
  cases hl : (s.patch p).load with
  | none => simp [State.counting, hl]
  | some x => simp [State.counting, hl, h]

end

theorem delivery_runs {s : State} {p : Nat} {r : Report} {rest : List Report} (hr : (s.patch p).reports = r :: rest)
    (hx : (s.seq p).xt = false) (hf : (s.patch p).frozen = false) (hq : (s.seq p).frozen = false) (hrun : (s.patch p).running = true)
    (hb : (s.seq p).begun = false ∨ (s.seq p).wf = true) (hpc : (s.seq p).roused.pc ≠ 0x10000) :
    let q := s.seq p
    let q' := q.roused
    ∃ t, exec (.elementFaultDelivery p) s = .next t ∧
      (t.seq p).pc = 0 ∧ (t.seq p).xt = true ∧ (t.seq p).xpc = q'.pc.setWidth 16 ∧ (t.seq p).xcause = r.cause ∧
      (t.seq p).xinfo = r.info ∧ (t.seq p).xvalh ++ (t.seq p).xval = r.val ∧ (t.patch p).named = r.inst ∧
      (t.seq p).g = q.g ∧ (t.seq p).lc = q'.lc ∧ (t.seq p).k = q.k ∧
      (∃ l, (t.patch p).reports = rest ++ l) ∧ t.mem = s.mem ∧ (∀ n, n ≠ p → t.patch n = s.patch n) ∧
      (r.ring = [] → (t.seq p).store = q.store ∧ t.loads = s.loads.map (fun l =>
        if (s.patch p).load.map (fun x => x.1) = some l.q then
          { l with fcnt := l.fcnt + 1, fcause := if l.fcnt = 0 then r.cause else l.fcause, faddr := if l.fcnt = 0 then r.val else l.faddr }
        else l)) ∧
      (r.ring ≠ [] → cellsWf q.store = true → t.loads = s.loads ∧
        let n := min 64 r.ring.length
        Terms.storeValue (t.seq p) 0xFF00 4 = n ∧ Terms.storeValue (t.seq p) 0xFF08 8 = r.tsc.toNat ∧
        (∀ j < n, Terms.storeValue (t.seq p) (0xFF10 + 2 * j) 2 = r.ring.getD j 0 % 65536) ∧
        ∀ a, a < 0xFF00 ∨ (0xFF04 ≤ a ∧ a < 0xFF08) ∨ 0xFF10 + 2 * n ≤ a → cellGet (t.seq p).store a = cellGet q.store a) := by
  intro q q'
  obtain ⟨b, hb'⟩ := seq_delivered_same s p r rest
  obtain ⟨hg, hk, hs⟩ := roused_keeps q
  have hcore : ∀ {α : Type} (f : Seq → α), (∀ st, f { q' with store := st } = f q') → f (q'.recording r) = f q' := fun f h => by
    unfold Seq.recording
    split
    · rfl
    · exact h _
  refine ⟨s.delivered p r rest, delivery_of_open hr hx hf hq hrun hb hpc, ?_, ?_, ?_, ?_, ?_, ?_, ?_, ?_, ?_, ?_, reports_delivered ..,
    rfl, fun n hn => patch_delivered_ne s p r rest hn, fun h => ⟨?_, counting_of_noRing s p h⟩, fun h hwf => ⟨counting_of_ring s p h, ?_⟩⟩
  case refine_7 => rw [patch_delivered_same]; rfl
  all_goals rw [hb']
  · rfl
  · rfl
  · exact congrArg (BitVec.setWidth 16) (hcore Seq.pc fun _ => rfl)
  · rfl
  · rfl
  · exact append_halves r.val
  · exact (hcore Seq.g fun _ => rfl).trans hg
  · exact hcore Seq.lc fun _ => rfl
  · exact (hcore Seq.k fun _ => rfl).trans hk
  · rw [recording_of_noRing h]
    exact hs
  · have hst : (takeTrap { (s.seq p).roused.recording r with latch := b } (((s.seq p).roused.recording r).pc.setWidth 16) r.cause r.info
        r.val).store = deadlockStore q.store r := by
      rw [recording_of_ring h]
      exact congrArg (deadlockStore · r) hs
    generalize takeTrap _ _ _ _ _ = u at hst
    simp only [storeValue_eq, hst]
    exact deadlockStore_reads hwf r

/-! ### The check of an instance's buffers as it fires (R158) -/

/-- What an instance's block writes to its buffers fits them. -/
def Elem.instFits (v : Elem) (i : Inst) : Prop :=
  ∀ b, smFind v.blocks i.blk = some b → ∀ c < 8, unevenTo i.r.s b.instrs (i.cbAt.getD c 0) (24 + c) = false

section
variable {s : State} {p e n : Nat} {i : Inst} (hi : (s.elem p e).inst n = some i)
include hi

theorem fireCheck_of_fits (h : (s.elem p e).instFits i) : s.fireCheck p e n = s := by
  rw [State.fireCheck, hi]
  cases hb : smFind (s.elem p e).blocks i.blk with
  | none => simp only [hb]
  | some b =>
    have hbad : (List.range 8).filter (fun c => unevenTo i.r.s b.instrs (i.cbAt.getD c 0) (24 + c)) = [] :=
      List.filter_eq_nil_iff.mpr fun c hc => Bool.not_eq_true _ ▸ h b hb c (List.mem_range.mp hc)
    simp only [hb, hbad, List.map_nil]

theorem fireCheck_of_not_fits (h : ¬ (s.elem p e).instFits i) :
    ∃ w v, s.fireCheck p e n = s.elemFault p e { i with pc := w } .illop 2 v := by
  simp only [Elem.instFits, not_forall] at h
  obtain ⟨b, hb, c, hc, hu⟩ := h
  rw [State.fireCheck, hi]
  simp only [hb]
  cases hbad : ((List.range 8).filter (fun c => unevenTo i.r.s b.instrs (i.cbAt.getD c 0) (24 + c))).map
      (fun c => b.instrs.findIdx (namesDest (24 + c))) with
  | nil =>
    have := List.filter_eq_nil_iff.mp (List.map_eq_nil_iff.mp hbad) c (List.mem_range.mpr hc)
    exact absurd (Bool.eq_false_of_not_eq_true this) hu
  | cons w ws => exact ⟨_, _, rfl⟩

end

/-! ### Disposal -/

theorem issueStores_only_ord (l : List Store) (s : State) (a : AgentId) : ∃ o, s.issueStores a l = { s with ord := o } := by
  induction l generalizing s with
  | nil => exact ⟨s.ord, rfl⟩
  | cons st l ih =>
    obtain ⟨o, ho⟩ := State.issueStore_only_ord s a st
    rw [State.issueStores, ho]
    exact ih { s with ord := o }

/-- An element whose instance's slots have left it: TAKEP of each buffer has moved (R32, R37, R158). -/
def Elem.without (v : Elem) (i : Inst) : Elem :=
  { v with q := v.q.map (fun l => l.filter (fun u => u.owner != some i.id)),
           r := { v.r with cb := i.cres.foldl (fun cb c => cb.set c.1 (cbMove (cb.getD c.1 0) c.2.2 0)) v.r.cb } }

/-- Of the machine it is the element alone that changes, and the stores that empty a buffer's words are on their way. -/
theorem removeSlots_eq (s : State) (p e : Nat) (i : Inst) :
    ∃ o, s.removeSlots p e i = { s.setElem p e ((s.elem p e).without i) with ord := o } := issueStores_only_ord _ _ _

/-- The element whose instance has been discarded (R37). -/
def Elem.discarded (v : Elem) (i : Inst) : Elem :=
  let w := ((v.without i).unreserve i.id).forget i.id
  { w with insts := w.insts.filter (fun x => x.id != i.id) }

theorem q_discarded (v : Elem) (i : Inst) :
    (v.discarded i).q = v.q.map (fun l => l.filterMap (fun u => if u.owner = some i.id then none else some u)) := by
  simp only [Elem.discarded, Elem.forget, Elem.unreserve, Elem.without, List.map_map]
  congr 1
  funext l
  simp only [Function.comp]
  induction l with
  | nil => rfl
  | cons u l ih => by_cases h : u.owner = some i.id <;> simp [h, ih]

theorem inst_discarded (v : Elem) (i : Inst) : (v.discarded i).inst i.id = none := by
  simp [Elem.discarded, Elem.inst]

/-- The machine whose handler has discarded the instance it names. -/
theorem ereplayDiscard_eq {s : State} {p e n : Nat} {i : Inst} (hn : (s.patch p).named = some (e, n)) (hi : (s.elem p e).inst n = some i) :
    ∃ o, s.ereplayDiscard p = ({ s.setElem p e ((s.elem p e).discarded i) with ord := o } : State).clearNamed p := by
  have hid := id_of_inst hi
  subst hid
  obtain ⟨o, ho⟩ := removeSlots_eq s p e i
  refine ⟨o, ?_⟩
  have hf : (s.elem p e).insts.find? (fun x => x.id == i.id) = some i := hi
  have he : ({ s.setElem p e ((s.elem p e).without i) with ord := o } : State).elem p e = (s.elem p e).without i := elem_setElem_same ..
  simp only [State.ereplayDiscard, hn, State.disposeDiscard, hf, ho, he]
  congr 1
  simp [State.setElem, State.setPatch, State.patch, Patch.setElem, Elem.discarded]

section
variable (s : State) (p e : Nat) (i : Inst)

@[simp] theorem elem_clearNamed (n m : Nat) : (s.clearNamed p).elem n m = s.elem n m := by
  by_cases hn : n = p
  · subst hn
    rw [State.clearNamed, State.elem, patch_setPatch_same]
    rfl
  · rw [State.clearNamed, State.elem, patch_setPatch_ne _ _ hn]
    rfl

@[simp] theorem named_clearNamed : ((s.clearNamed p).patch p).named = none := by rw [State.clearNamed, patch_setPatch_same]

@[simp] theorem reports_clearNamed : ((s.clearNamed p).patch p).reports = (s.patch p).reports := by rw [State.clearNamed, patch_setPatch_same]

@[simp] theorem seq_clearNamed : (s.clearNamed p).seq p = { s.seq p with xinfo := (s.seq p).xinfo &&& 0x7FFFFFFF } := by
  rw [State.clearNamed, State.seq, patch_setPatch_same]
  rfl

theorem elemFault_cur (c : Cause) (sub : Nat) (v : DWord) : (s.elemFault p e i c sub v).cur = s.cur := by
  by_cases hr : (({ s with free := s.free + 1 } : State).patch p).fpend < 64
  · simp only [State.elemFault, hr, if_true]; rfl
  · simp only [State.elemFault, hr, if_false]; rfl

/-- The element whose instance fires again (R37). -/
def Elem.retried (v : Elem) (n : Nat) : Elem :=
  { v.forget n with
    insts := (v.forget n).insts.map (fun x => if x.id = n then x.fire v.r else x),
    scb := v.scb.map (fun t => if t.owner = some n then { t with owner := none } else t) }

theorem inst_retried {v : Elem} {n : Nat} {i : Inst} (hi : v.inst n = some i) : (v.retried n).inst n = some (i.fire v.r) := by
  have hf : ((fun x : Inst => x.id == n) ∘ fun x : Inst => if x.id = n then x.fire v.r else x) = fun x : Inst => x.id == n := by
    funext x
    by_cases hx : x.id = n
    · simp [hx, Inst.fire, Inst.rearm]
    · simp [hx]
  have hl : (v.forget n).insts.find? (fun x => x.id == n) = some (i.letGo n) := by
    rw [show (v.forget n).insts.find? (fun x => x.id == n) = _ from inst_forget, hi]
    rfl
  rw [Elem.inst, Elem.retried, List.find?_map, hf, hl]
  simp [Inst.letGo, id_of_inst hi, Inst.fire, Inst.rearm]

variable {s p e i} {n : Nat} (hn : (s.patch p).named = some (e, n)) (hi : (s.elem p e).inst n = some i)
include hn

theorem ereplayRetry_eq : s.ereplayRetry p = ((s.setElem p e ((s.elem p e).retried n)).fireCheck p e n).clearNamed p := by
  simp only [State.ereplayRetry, hn]
  rfl

include hi

theorem ereplayRetry_of_fits (h : Terms.fits (s.elem p e) i.blk) :
    s.ereplayRetry p = (s.setElem p e ((s.elem p e).retried n)).clearNamed p := by
  have hi' : ((s.setElem p e ((s.elem p e).retried n)).elem p e).inst n = some (i.fire (s.elem p e).r) := by
    rw [elem_setElem_same]
    exact inst_retried hi
  rw [ereplayRetry_eq hn, fireCheck_of_fits hi' (by rw [elem_setElem_same]; exact h)]

theorem ereplayRetry_of_not_fits (h : ¬ Terms.fits (s.elem p e) i.blk) : ∃ w v, s.ereplayRetry p =
    ((s.setElem p e ((s.elem p e).retried n)).elemFault p e { i.fire (s.elem p e).r with pc := w } .illop 2 v).clearNamed p := by
  have hi' : ((s.setElem p e ((s.elem p e).retried n)).elem p e).inst n = some (i.fire (s.elem p e).r) := by
    rw [elem_setElem_same]
    exact inst_retried hi
  obtain ⟨w, v, hw⟩ := fireCheck_of_not_fits hi' (by rw [elem_setElem_same]; exact h)
  exact ⟨w, v, by rw [ereplayRetry_eq hn, hw]⟩

end

/-- V is the top bit of XINFO. -/
theorem named_iff (q : Seq) : q.named = true ↔ q.xinfo.toNat / 2 ^ 31 = 1 := by
  have := q.xinfo.isLt
  rw [Seq.named, ← BitVec.testBit_toNat, Nat.testBit_eq_decide_div_mod_eq, decide_eq_true_eq]
  omega

section
variable {s t : State} {a : BitVec 5}

/-- A write of 0 to EREPLAY discards, and completes. -/
theorem csrw_discards (hn : (Terms.here s).named = true) (ha : (Terms.here s).get a = 0) (ht : s.ereplayDiscard s.cur.patch = t)
    (hc : t.cur = s.cur) : exec (.csrw a 0x045) s = .next (Terms.completed t (t.seq s.cur.patch)) := by
  simp only [Terms.here] at hn ha
  simp only [exec, execCsrw, hn, ha, ht, and_self, if_true, runSeq, State.seqOut, Terms.completed, hc]

/-- A write of 1 retries, and completes. -/
theorem csrw_retries (hn : (Terms.here s).named = true) (ha : (Terms.here s).get a = 1) (ht : s.ereplayRetry s.cur.patch = t)
    (hc : t.cur = s.cur) : exec (.csrw a 0x045) s = .next (Terms.completed t (t.seq s.cur.patch)) := by
  simp only [Terms.here] at hn ha
  have h0 : ¬ ((1 : Word) = 0) := by decide
  simp only [exec, execCsrw, hn, ha, ht, h0, and_false, and_self, if_true, if_false, runSeq, State.seqOut, Terms.completed, hc]

theorem csrw_refused (h : ¬ (Terms.here s).named = true ∨ ((Terms.here s).get a ≠ 0 ∧ (Terms.here s).get a ≠ 1)) :
    exec (.csrw a 0x045) s =
      .next ({ s with free := s.free + 1 }.seqFault s.cur.patch s.seqAt .illop 2 (Config.freeDWord s.free)) := by
  simp only [Terms.here] at h
  have h0 : ¬ ((s.seq s.cur.patch).named = true ∧ (s.seq s.cur.patch).get a = 0) := by tauto
  have h1 : ¬ ((s.seq s.cur.patch).named = true ∧ (s.seq s.cur.patch).get a = 1) := by tauto
  simp only [exec, execCsrw, h0, h1, if_true, if_false, runSeq, State.seqOut]

end

section
variable {s : State} {a : BitVec 5} {e n : Nat} {i : Inst} (hv : (Terms.here s).named = true)
  (hn : (s.patch s.cur.patch).named = some (e, n)) (hi : (s.elem s.cur.patch e).inst n = some i)
include hv hn hi

theorem discard_disposes :
    let p := s.cur.patch
    let q := Terms.here s
    ∃ t, exec (.ereplayDiscard p) s = .next t ∧ (t.elem p e).inst n = none ∧ (t.patch p).named = none ∧
      t.seq p = { q with xinfo := q.xinfo &&& 0x7FFFFFFF } ∧ t.mem = s.mem ∧
      (t.elem p e).q = (s.elem p e).q.map (fun l => l.filterMap (fun u => if u.owner = some n then none else some u)) ∧
      (q.get a = 0 → exec (.csrw a 0x045) s = .next (Terms.completed t (t.seq p))) := by
  obtain ⟨o, ho⟩ := ereplayDiscard_eq hn hi
  have hid := id_of_inst hi
  have he : (s.ereplayDiscard s.cur.patch).elem s.cur.patch e = (s.elem s.cur.patch e).discarded i := by
    rw [ho, elem_clearNamed]
    exact elem_setElem_same ..
  refine ⟨s.ereplayDiscard s.cur.patch, rfl, by rw [he, ← hid]; exact inst_discarded _ i, by rw [ho, named_clearNamed], ?_,
    State.ereplayDiscard_mem .., by rw [he, ← hid]; exact q_discarded _ i, fun ha => csrw_discards hv ha rfl (by rw [ho]; rfl)⟩
  rw [ho, seq_clearNamed]
  exact congrArg (fun q : Seq => { q with xinfo := q.xinfo &&& 0x7FFFFFFF }) (seq_setElem s _ e s.cur.patch _)

theorem retry_disposes :
    let p := s.cur.patch
    let q := Terms.here s
    ∃ t, exec (.ereplayRetry p) s = .next t ∧ (t.patch p).named = none ∧
      (∃ j, (t.elem p e).inst n = some j ∧ j.tag = i.tag ∧ j.blk = i.blk ∧ j.qres = i.qres ∧ j.cres = i.cres ∧
        j.r = (s.elem p e).r ∧ j.effs = [] ∧ (Terms.fits (s.elem p e) i.blk → j.st = .fired ∧ j.pc = 0) ∧
        (¬ Terms.fits (s.elem p e) i.blk → j.st = .faulted)) ∧
      (Terms.fits (s.elem p e) i.blk → t.seq p = { q with xinfo := q.xinfo &&& 0x7FFFFFFF } ∧ (t.patch p).reports = (s.patch p).reports) ∧
      (¬ Terms.fits (s.elem p e) i.blk → (s.patch p).fpend < 64 →
        t.seq p = { q with xinfo := q.xinfo &&& 0x7FFFFFFF, latch := true } ∧
        ∃ r, (t.patch p).reports = (s.patch p).reports ++ [r] ∧ r.inst = some (e, n) ∧ r.cause = xcause 1 2 true) ∧
      t.mem = s.mem ∧ (t.elem p e).q = (s.elem p e).q ∧
      (q.get a = 1 → exec (.csrw a 0x045) s = .next (Terms.completed t (t.seq p))) := by
  have hid := id_of_inst hi
  have hq : ((s.setElem s.cur.patch e ((s.elem s.cur.patch e).retried n))).seq s.cur.patch = Terms.here s := seq_setElem ..
  by_cases hf : Terms.fits (s.elem s.cur.patch e) i.blk
  · have ht := ereplayRetry_of_fits hn hi hf
    refine ⟨s.ereplayRetry s.cur.patch, rfl, by rw [ht, named_clearNamed], ⟨i.fire (s.elem s.cur.patch e).r, ?_, rfl, rfl, rfl, rfl, rfl,
      rfl, fun _ => ⟨rfl, rfl⟩, absurd hf⟩, fun _ => ⟨?_, ?_⟩, absurd hf, State.ereplayRetry_mem .., ?_,
      fun ha => csrw_retries hv ha rfl (by rw [ht]; rfl)⟩
    · rw [ht, elem_clearNamed, elem_setElem_same]
      exact inst_retried hi
    · rw [ht, seq_clearNamed, hq]
    · rw [ht, reports_clearNamed, patch_setElem_same]
      rfl
    · rw [ht, elem_clearNamed, elem_setElem_same]
      rfl
  · obtain ⟨w, v, ht⟩ := ereplayRetry_of_not_fits hn hi hf
    obtain ⟨r, hr⟩ := elem_elemFault (s := s.setElem s.cur.patch e ((s.elem s.cur.patch e).retried n)) (p := s.cur.patch) (e := e)
      (i := { i.fire (s.elem s.cur.patch e).r with pc := w }) (c := .illop) (sub := 2) (val := v)
    rw [elem_setElem_same] at hr
    refine ⟨s.ereplayRetry s.cur.patch, rfl, by rw [ht, named_clearNamed],
      ⟨(({ i.fire (s.elem s.cur.patch e).r with pc := w } : Inst).faulted r).letGo i.id, ?_, rfl, rfl, rfl, rfl, rfl, rfl,
        (absurd · hf), fun _ => rfl⟩,
      (absurd · hf), fun _ hroom => ?_, State.ereplayRetry_mem .., ?_,
      fun ha => csrw_retries hv ha rfl (by rw [ht]; exact elemFault_cur ..)⟩
    · rw [ht, elem_clearNamed, hr, ← hid]
      exact inst_faulted r (inst_retried (hid ▸ hi))
    · have hp := patch_elemFault (s := s.setElem s.cur.patch e ((s.elem s.cur.patch e).retried n)) (p := s.cur.patch) (e := e)
        (i := { i.fire (s.elem s.cur.patch e).r with pc := w }) (c := .illop) (sub := 2) (val := v) (by rw [patch_setElem_same]; exact hroom)
      refine ⟨by rw [ht, seq_clearNamed, State.seq, hp, patch_setElem_same]; rfl,
        faultReport e { i.fire (s.elem s.cur.patch e).r with pc := w } .illop 2 v, ?_, by rw [← hid]; rfl, rfl⟩
      rw [ht, reports_clearNamed, hp, patch_setElem_same]
      rfl
    · rw [ht, elem_clearNamed, hr]
      rfl

end

/-- Settles O19: a delivery by what its handler finds (`delivery_runs`), the two disposals by what they leave of the element, and every
other write of EREPLAY by `csrw_refused`. -/
theorem faultDelivery : Obligations.FaultDelivery := by
  refine ⟨fun s p r rest hr => ⟨delivery_of_shut hr, delivery_runs hr⟩, fun s a e n i => ⟨fun hv hn hi => ?_, fun h => ?_⟩⟩
  · have hv' := (named_iff (Terms.here s)).mpr hv
    exact ⟨discard_disposes hv' hn hi, retry_disposes hv' hn hi⟩
  · exact csrw_refused (by rwa [named_iff])

end Sys2Proof.Machine
end

section
/-! PROOFS. What a trigger reserves, and the firing of a block's instance (R28 to R31, R35, R36). -/

namespace Sys2Proof.Machine

/-! ### What a trigger reserves (R29) -/

section
variable {id : Nat} {tag : Option (BitVec 12)}

theorem freeSlots_cons_free {u : QUnit} {l : List QUnit} (h : (u.owner.isNone && tagFits tag (uTag u.u)) = true) :
    Terms.freeSlots tag (u :: l) = u :: Terms.freeSlots tag l := List.filter_cons_of_pos h

theorem freeSlots_cons_held {u : QUnit} {l : List QUnit} (h : ¬ (u.owner.isNone && tagFits tag (uTag u.u)) = true) :
    Terms.freeSlots tag (u :: l) = Terms.freeSlots tag l := List.filter_cons_of_neg h

theorem reserveQ_of_few (n : Nat) (l : List QUnit) (h : (Terms.freeSlots tag l).length < n) : reserveQ id tag n l = none := by
  induction l generalizing n with
  | nil => obtain _ | n := n; exacts [absurd h (Nat.not_lt_zero _), rfl]
  | cons u l ih =>
    obtain _ | n := n
    · exact absurd h (Nat.not_lt_zero _)
    · by_cases hu : (u.owner.isNone && tagFits tag (uTag u.u)) = true
      · rw [freeSlots_cons_free hu, List.length_cons] at h
        simp [reserveQ, hu, ih n (by omega)]
      · rw [freeSlots_cons_held hu] at h
        simp [reserveQ, hu, ih (n + 1) h]

/-- A queue as a reservation may leave it: the units stand, and an owner is new only where there was none. -/
def ReservedFrom (id : Nat) (l l' : List QUnit) : Prop :=
  l'.map (fun u => (u.u, u.time)) = l.map (fun u => (u.u, u.time)) ∧
  ∀ j < l.length, ((l'.getD j default).owner = (l.getD j default).owner ∨
    ((l.getD j default).owner = none ∧ (l'.getD j default).owner = some id))

theorem reservedFrom_cons {u u' : QUnit} {l l' : List QUnit} (h : ReservedFrom id l l') (hu : u'.u = u.u ∧ u'.time = u.time)
    (ho : u'.owner = u.owner ∨ (u.owner = none ∧ u'.owner = some id)) : ReservedFrom id (u :: l) (u' :: l') := by
  obtain ⟨hm, hall⟩ := h
  refine ⟨by simp [hm, hu], fun j hj => ?_⟩
  cases j with
  | zero => exact ho
  | succ j => exact hall j (Nat.lt_of_succ_lt_succ hj)

theorem reserveQ_of_enough (n : Nat) (l : List QUnit) (h : n ≤ (Terms.freeSlots tag l).length) :
    ∃ l', reserveQ id tag n l = some (l', ((Terms.freeSlots tag l).take n).map (fun u => u.u)) ∧ ReservedFrom id l l' := by
  induction l generalizing n with
  | nil =>
    obtain rfl : n = 0 := Nat.le_zero.mp h
    exact ⟨[], rfl, rfl, fun j hj => absurd hj (Nat.not_lt_zero _)⟩
  | cons u l ih =>
    obtain _ | n := n
    · exact ⟨u :: l, by simp [reserveQ], rfl, fun j _ => .inl rfl⟩
    · by_cases hu : (u.owner.isNone && tagFits tag (uTag u.u)) = true
      · rw [freeSlots_cons_free hu] at h ⊢
        obtain ⟨l', hl, hr⟩ := ih n (Nat.le_of_succ_le_succ h)
        refine ⟨{ u with owner := some id } :: l', by simp [reserveQ, hu, hl], reservedFrom_cons hr ⟨rfl, rfl⟩ (.inr ⟨?_, rfl⟩)⟩
        simpa using (Bool.and_eq_true_iff.mp hu).1
      · rw [freeSlots_cons_held hu] at h ⊢
        obtain ⟨l', hl, hr⟩ := ih (n + 1) h
        exact ⟨u :: l', by simp [reserveQ, hu, hl], reservedFrom_cons hr ⟨rfl, rfl⟩ (.inl rfl)⟩

end

/-! ### The firing -/

/-- The number of a new entry is above every entry's. -/
theorem id_lt_newId {v : Elem} {i : Inst} (h : i ∈ v.insts) : i.id < v.newId := by
  have key : ∀ (l : List Nat) (a : Nat), a ≤ l.foldl Nat.max a ∧ ∀ x ∈ l, x ≤ l.foldl Nat.max a := fun l => by
    induction l with
    | nil => exact fun a => ⟨le_rfl, fun x hx => absurd hx List.not_mem_nil⟩
    | cons y l ih =>
      intro a
      obtain ⟨hle, hall⟩ := ih (Nat.max a y)
      refine ⟨(Nat.le_max_left a y).trans hle, fun x hx => ?_⟩
      rcases List.mem_cons.mp hx with rfl | hx
      · exact (Nat.le_max_right a x).trans hle
      · exact hall x hx
  exact (key _ 0).2 _ (List.mem_map_of_mem h)

/-- The check that a standing block with an empty trigger makes of its sources (R146, R388). -/
def State.sourceless (s : State) (p : Nat) (blk : Block) : Prop := blk.empty = true → s.sourcesStop p = false

theorem sourcesStop_prunePartly (s : State) (p e : Nat) : (s.prunePartly p e).sourcesStop p = s.sourcesStop p := by
  simp only [State.sourcesStop, State.prunePartly, patch_setElem_same]
  rfl

section
variable {s : State} {p e b : Nat} {tag : BitVec 12} {blk : Block} {m : Match} {i : Inst} (hm : s.mayFire p e = true)
  (hb : smFind ((s.prunePartly p e).elem p e).blocks b = some blk)
include hm hb

/-- A block that does not stand fires its oldest armed entry. -/
theorem blockFire_of_armed (hst : blk.st = false)
    (hi : ((s.prunePartly p e).elem p e).insts.find? (fun i => i.st == .armed && i.blk == b && i.tag == tag) = some i)
    (ht : (s.prunePartly p e).trigger p e blk i.id (if blk.tm then some tag else none) = some m) :
    exec (.blockFire p e b tag) s = .next ((s.prunePartly p e).fireEntry p e i.id m i.tag) := by
  simp only [exec, execBlockFire, hm, hb, hst, hi, ht, Bool.not_true, Bool.not_false, Bool.false_eq_true, if_true, if_false]

variable (hst : blk.st = true) (hs : s.sourceless p blk)
include hst hs

/-- A standing block fires the entry that it has matched in part. -/
theorem blockFire_of_partly (hi : Terms.partly ((s.prunePartly p e).elem p e) blk b tag = some i)
    (ht : (s.prunePartly p e).trigger p e blk i.id (if blk.tm then some tag else none) = some m) :
    exec (.blockFire p e b tag) s =
      .next ((s.prunePartly p e).fireEntry p e i.id m (if blk.empty then 0 else if blk.tm then tag else m.tag)) := by
  have hg : ¬ (blk.empty && (s.prunePartly p e).sourcesStop p) = true := by
    rw [sourcesStop_prunePartly]
    simpa [State.sourceless] using hs
  rw [Terms.partly] at hi
  simp only [exec, execBlockFire, hm, hb, hst, Bool.not_true, Bool.false_eq_true, if_false, hg, hi, Option.isNone_some, Bool.false_and, ht]

/-- With none it takes a new entry. -/
theorem blockFire_of_none (hi : Terms.partly ((s.prunePartly p e).elem p e) blk b tag = none)
    (hlen : ((s.prunePartly p e).elem p e).insts.length < 256)
    (ht : (s.prunePartly p e).trigger p e blk ((s.prunePartly p e).elem p e).newId (if blk.tm then some tag else none) = some m) :
    let v := (s.prunePartly p e).elem p e
    exec (.blockFire p e b tag) s =
      .next (((s.prunePartly p e).setElem p e { v with insts := v.insts ++ [Inst.new v.newId b tag .partly] }).fireEntry p e v.newId m
        (if blk.empty then 0 else if blk.tm then tag else m.tag)) := by
  have hg : ¬ (blk.empty && (s.prunePartly p e).sourcesStop p) = true := by
    rw [sourcesStop_prunePartly]
    simpa [State.sourceless] using hs
  have hl : ¬ 256 ≤ ((s.prunePartly p e).elem p e).insts.length := by omega
  rw [Terms.partly] at hi
  simp only [exec, execBlockFire, hm, hb, hst, Bool.not_true, Bool.false_eq_true, if_false, hg, hi, hl, Option.isNone_none, Bool.true_and,
    decide_false, ht]

end

/-- An instance as its trigger fires it: its slots are reserved to it (R30, R31). -/
def Inst.firedBy (i : Inst) (m : Match) (r : Regs) (t : BitVec 12) : Inst :=
  { { i with tag := t, qres := m.qres, cres := m.cres }.fire r with tag := t }

/-- The element once an entry of it has fired, before the check of its buffers. -/
def State.firing (s : State) (p e id : Nat) (m : Match) (t : BitVec 12) : State :=
  let v := s.elem p e
  (s.setElem p e { v with q := m.q, insts := v.insts.map (fun x => if x.id = id then x.firedBy m v.r t else x) }).moved p e

section
variable (s : State) (p e id : Nat) (m : Match) (t : BitVec 12)

theorem elem_firing_ne {n f : Nat} (h : (n, f) ≠ (p, e)) : (s.firing p e id m t).elem n f = s.elem n f := by
  have h : n ≠ p ∨ f ≠ e := by simpa [-not_and, Classical.not_and_iff_not_or_not] using h
  exact (elem_moved_ne h).trans (elem_setElem_ne _ _ h)

/-- A new entry fires as the last of its station. -/
theorem insts_firing_new (v : Elem) (i : Inst) (hid : i.id = v.newId) :
    (((s.setElem p e { v with insts := v.insts ++ [i] }).firing p e v.newId m t).elem p e).insts = v.insts ++ [i.firedBy m v.r t] := by
  have hold : v.insts.map (fun x => if x.id = v.newId then x.firedBy m v.r t else x) = v.insts := by
    conv_rhs => rw [← List.map_id v.insts]
    exact List.map_congr_left fun x hx => if_neg (id_lt_newId hx).ne
  simp [State.firing, hold, hid]

end

/-- Settles O44: what a reservation takes by induction along the queue, and a firing by the entry that it takes. -/
theorem blocksFire : Obligations.BlocksFire := by
  refine ⟨fun id n tag l => ⟨reserveQ_of_enough n l, reserveQ_of_few n l⟩, fun s p e b tag blk m hm => ?_⟩
  intro s₁ v want fired hb
  refine ⟨fun hst i hi ht => blockFire_of_armed hm hb hst hi ht, fun hst hs => ⟨fun i hi ht => blockFire_of_partly hm hb hst hs hi ht, ?_⟩⟩
  intro hi hlen ht
  refine ⟨(s₁.setElem p e { v with insts := v.insts ++ [Inst.new v.newId b tag .partly] }).firing p e v.newId m
    (if blk.empty then 0 else if blk.tm then tag else m.tag), blockFire_of_none hm hb hst hs hi hlen ht, ?_, ?_,
    insts_firing_new s₁ p e m _ v _ rfl, fun q f h => (elem_firing_ne _ p e _ m _ h).trans (elem_setElem_ne _ _ ?_), rfl⟩
  · simp [State.firing]
  · simp [State.firing]
  · simpa [-not_and, Classical.not_and_iff_not_or_not] using h

end Sys2Proof.Machine
end

section
/-! SUPPORT. What a commit leaves in the registers: lists of registers, the pointers of a buffer's handle, and its halves (R17, R32, R33,
R158, R167). -/

namespace Sys2Proof.Machine

/-! ### Registers -/

theorem length_takeRegs {α : Type} (old new : List α) (d : α) (ns : List Nat) : (takeRegs old new d ns).length = old.length := by
  induction ns generalizing old with
  | nil => rfl
  | cons n ns ih => exact (ih _).trans (List.length_set ..)

/-- A register that the instance wrote takes its value; another stands. -/
theorem getD_takeRegs {α : Type} (old new : List α) (d : α) (ns : List Nat) {n : Nat} (hn : n < old.length) :
    (takeRegs old new d ns).getD n d = if n ∈ ns then new.getD n d else old.getD n d := by
  induction ns generalizing old with
  | nil => rfl
  | cons m ns ih =>
    rw [show takeRegs old new d (m :: ns) = takeRegs (old.set m (new.getD m d)) new d ns from rfl, ih _ (by simpa using hn)]
    by_cases hm : n = m
    · subst hm
      simp [hn]
    · simp [hm, List.getD_eq_getElem?_getD, List.getElem?_set_ne (Ne.symm hm)]

/-- A result's halves go to the registers named for them, the upper one last. -/
theorem getD_setResult (s : List Word) (ds : List Nat) (r : DWord) {n : Nat} (hn : n < s.length) (h16 : n < 16) :
    (ds.getD 1 16 = n → (setResult s ds r).getD n 0 = BitVec.ofNat 32 (r.toNat / 2 ^ 32)) ∧
    (ds.getD 1 16 ≠ n → ds.getD 0 16 = n → (setResult s ds r).getD n 0 = BitVec.ofNat 32 (r.toNat % 2 ^ 32)) ∧
    (ds.getD 1 16 ≠ n → ds.getD 0 16 ≠ n → (setResult s ds r).getD n 0 = s.getD n 0) := by
  have hset : ∀ (l : List Word) (m : Nat) (x : Word), m ≠ n → (if m < 16 then l.set m x else l).getD n 0 = l.getD n 0 := fun l m x h => by
    split
    · simp [List.getD_eq_getElem?_getD, List.getElem?_set_ne h]
    · rfl
  have hlen : ∀ (l : List Word) (m : Nat) (x : Word), (if m < 16 then l.set m x else l).length = l.length := fun l m x => by
    split
    · exact List.length_set ..
    · rfl
  have hself : ∀ (l : List Word) (x : Word), n < l.length → (if n < 16 then l.set n x else l).getD n 0 = x := fun l x h => by
    simp [h16, h]
  refine ⟨fun h1 => ?_, fun h1 h0 => ?_, fun h1 h0 => ?_⟩
  · rw [setResult, h1, hself _ _ (by rw [hlen]; exact hn)]
    exact BitVec.eq_of_toNat_eq (by simp [Nat.shiftRight_eq_div_pow])
  · rw [setResult, hset _ _ _ h1, h0, hself _ _ hn]
    exact BitVec.eq_of_toNat_eq (by simp)
  · rw [setResult, hset _ _ _ h1, hset _ _ _ h0]

/-! ### TAKEP and FILLP of a handle -/

theorem cbMove_eq (h : DWord) (a b : Nat) : cbMove h a b = Terms.movedBuffer h a b := by
  simp [cbMove, Terms.movedBuffer, cbTake, cbFill, at64, Nat.shiftRight_eq_div_pow]

theorem toNat_movedBuffer (h : DWord) (a b : Nat) : (Terms.movedBuffer h a b).toNat =
    (h.toNat / 2 ^ 49 + a) % 2 ^ 15 * 2 ^ 49 + (h.toNat / 2 ^ 34 % 2 ^ 15 + b) % 2 ^ 15 * 2 ^ 34 + h.toNat % 2 ^ 34 := by
  rw [Terms.movedBuffer, BitVec.toNat_ofNat]
  exact Nat.mod_eq_of_lt (by omega)

theorem movedBuffer_zero (h : DWord) : Terms.movedBuffer h 0 0 = h := by
  have := h.isLt
  exact BitVec.eq_of_toNat_eq (by rw [toNat_movedBuffer]; omega)

theorem movedBuffer_movedBuffer (h : DWord) (a b c d : Nat) :
    Terms.movedBuffer (Terms.movedBuffer h a b) c d = Terms.movedBuffer h (a + c) (b + d) := by
  exact BitVec.eq_of_toNat_eq (by simp only [toNat_movedBuffer]; omega)

/-- Buffers that are moved one after the other: each by the sum of its own moves. -/
theorem getD_foldl_moved {α : Type} (idx take fill : α → Nat) (l : List α) (cb : List DWord) {c : Nat} (hc : c < cb.length) :
    (l.foldl (fun cb x => cb.set (idx x) (cbMove (cb.getD (idx x) 0) (take x) (fill x))) cb).getD c 0 =
      Terms.movedBuffer (cb.getD c 0) ((l.filter (fun x => idx x == c)).map take).sum ((l.filter (fun x => idx x == c)).map fill).sum := by
  induction l generalizing cb with
  | nil => simp [movedBuffer_zero]
  | cons x l ih =>
    rw [List.foldl_cons, ih _ (by simpa using hc)]
    by_cases hx : idx x = c
    · subst hx
      simp only [List.getD_eq_getElem?_getD, List.getElem?_set_self hc, Option.getD_some, cbMove_eq, movedBuffer_movedBuffer,
        List.filter_cons, beq_self_eq_true, if_true, List.map_cons, List.sum_cons]
    · simp only [List.getD_eq_getElem?_getD, List.getElem?_set_ne hx, List.filter_cons, beq_iff_eq, hx, if_false]

theorem length_foldl_set {α β : Type} (idx : α → Nat) (f : List β → α → β) (l : List α) (cb : List β) :
    (l.foldl (fun cb x => cb.set (idx x) (f cb x)) cb).length = cb.length := by
  induction l generalizing cb with
  | nil => rfl
  | cons x l ih => exact (ih _).trans (List.length_set ..)

/-- The handles, once an instance's slots have left and its claims and its units are counted (R158, R171). -/
def Plan.moves (x : Plan) (i : Inst) (cb : List DWord) : List DWord :=
  x.advance (claimAdvance (i.cres.foldl (fun cb c => cb.set c.1 (cbMove (cb.getD c.1 0) c.2.2 0)) cb) i)

theorem length_moves (x : Plan) (i : Inst) (cb : List DWord) : (x.moves i cb).length = cb.length := by
  simp only [Plan.moves, Plan.advance, claimAdvance, length_foldl_set]

theorem getD_moves (x : Plan) (i : Inst) (cb : List DWord) {c : Nat} (hc : c < cb.length) :
    (x.moves i cb).getD c 0 = Terms.movedBuffer (cb.getD c 0)
      (((i.cres.filter (fun x => x.1 == c)).map (fun x => x.2.2)).sum + ((i.clE.filter (fun x => x.1 == c)).map (fun x => x.2)).sum)
      (((i.clF.filter (fun x => x.1 == c)).map (fun x => x.2)).sum + ((x.fills.filter (fun x => x.1 == c)).map (fun x => x.2.slots)).sum) := by
  have hzero : ∀ {α : Type} (l : List α), (l.map (fun _ => 0)).sum = 0 := fun l => by simp
  simp only [Plan.moves, Plan.advance, claimAdvance]
  rw [getD_foldl_moved _ _ _ _ _ (by simpa only [length_foldl_set] using hc), getD_foldl_moved _ _ _ _ _ (by simpa only [length_foldl_set] using hc),
    getD_foldl_moved _ _ _ _ _ (by simpa only [length_foldl_set] using hc), getD_foldl_moved _ _ _ _ _ hc]
  simp only [movedBuffer_movedBuffer, hzero, Nat.zero_add, Nat.add_zero]

/-! ### The halves of a handle -/

theorem toNat_handleHalf (h new : DWord) : (handleHalf h true new).toNat = new.toNat / 2 ^ 32 * 2 ^ 32 + h.toNat % 2 ^ 32 ∧
    (handleHalf h false new).toNat = h.toNat / 2 ^ 32 * 2 ^ 32 + new.toNat % 2 ^ 32 := by
  have := new.isLt
  have := h.isLt
  constructor
  · rw [handleHalf, if_pos rfl, BitVec.toNat_ofNat, Nat.mod_eq_of_lt (by omega)]
  · rw [handleHalf, if_neg Bool.false_ne_true, BitVec.toNat_ofNat, Nat.mod_eq_of_lt (by omega)]

/-- The handles with the halves that SPWR wrote (R167). -/
def writeHalves (new : List DWord) (cb : List DWord) (xs : List Nat) : List DWord :=
  xs.foldl (fun cb x => cb.set (x / 2) (handleHalf (cb.getD (x / 2) 0) (x % 2 == 1) (new.getD (x / 2) 0))) cb

theorem getD_writeHalves (new cb : List DWord) (xs : List Nat) {c : Nat} (hc : c < cb.length) :
    ((writeHalves new cb xs).getD c 0).toNat % 2 ^ 32 =
      (if 2 * c ∈ xs then (new.getD c 0).toNat % 2 ^ 32 else (cb.getD c 0).toNat % 2 ^ 32) ∧
    ((writeHalves new cb xs).getD c 0).toNat / 2 ^ 32 =
      (if 2 * c + 1 ∈ xs then (new.getD c 0).toNat / 2 ^ 32 else (cb.getD c 0).toNat / 2 ^ 32) := by
  induction xs generalizing cb with
  | nil => exact ⟨rfl, rfl⟩
  | cons x xs ih =>
    obtain ⟨hlo, hhi⟩ := ih (cb.set (x / 2) (handleHalf (cb.getD (x / 2) 0) (x % 2 == 1) (new.getD (x / 2) 0))) (by simpa using hc)
    rw [show writeHalves new cb (x :: xs) = writeHalves new (cb.set (x / 2) _) xs from rfl, hlo, hhi]
    by_cases hx : x / 2 = c
    · subst hx
      have hself : ∀ y : DWord, (cb.set (x / 2) y).getD (x / 2) 0 = y := fun y => by simp [hc]
      obtain ⟨h1, h0⟩ := toNat_handleHalf (cb.getD (x / 2) 0) (new.getD (x / 2) 0)
      rw [hself]
      rcases Nat.mod_two_eq_zero_or_one x with hodd | hodd
      · have he : 2 * (x / 2) ∈ x :: xs := List.mem_cons.mpr (.inl (by omega))
        have ho : 2 * (x / 2) + 1 ∈ x :: xs ↔ 2 * (x / 2) + 1 ∈ xs := by simp [show 2 * (x / 2) + 1 ≠ x by omega]
        rw [hodd, show (0 == 1) = false from rfl, h0]
        simp only [he, ho, if_true]
        exact ⟨by split <;> omega, by split <;> omega⟩
      · have ho : 2 * (x / 2) + 1 ∈ x :: xs := List.mem_cons.mpr (.inl (by omega))
        have he : 2 * (x / 2) ∈ x :: xs ↔ 2 * (x / 2) ∈ xs := by simp [show 2 * (x / 2) ≠ x by omega]
        rw [hodd, show (1 == 1) = true from rfl, h1]
        simp only [he, ho, if_true]
        exact ⟨by split <;> omega, by split <;> omega⟩
    · have he : 2 * c ≠ x := by omega
      have ho : 2 * c + 1 ≠ x := by omega
      simp [he, ho, List.getD_eq_getElem?_getD, List.getElem?_set_ne hx]

end Sys2Proof.Machine
end

section
/-! PROOFS. The commit of an instance, the rotation, and the full/empty timeout (R16, R17, R32, R33, R158, R174, R193, R214, R240). -/

namespace Sys2Proof.Machine

/-! ### What the steps of a commit leave -/

/-- Of the registers of an element a step writes some s registers at most, and of other patches nothing. -/
def WritesOnly (p e : Nat) (ds : Nat → Prop) (s t : State) : Prop :=
  (∃ l, (t.elem p e).r = { (s.elem p e).r with s := l } ∧ ∀ n, ¬ ds n → l.getD n 0 = (s.elem p e).r.s.getD n 0) ∧
  ∀ q, q ≠ p → t.patch q = s.patch q

section
variable {p e : Nat} {ds : Nat → Prop} {s t u : State}

theorem writesOnly_of_regs (h : (t.elem p e).r = (s.elem p e).r) (hq : ∀ q, q ≠ p → t.patch q = s.patch q) : WritesOnly p e ds s t :=
  ⟨⟨_, h, fun _ _ => rfl⟩, hq⟩

theorem writesOnly_refl : WritesOnly p e ds s s := writesOnly_of_regs rfl fun _ _ => rfl

theorem writesOnly_trans (h : WritesOnly p e ds s t) (h' : WritesOnly p e ds t u) : WritesOnly p e ds s u := by
  obtain ⟨⟨l, hl, hd⟩, hq⟩ := h
  obtain ⟨⟨l', hl', hd'⟩, hq'⟩ := h'
  exact ⟨⟨l', by rw [hl', hl], fun n hn => by rw [hd' n hn, hl, hd n hn]⟩, fun q h => (hq' q h).trans (hq q h)⟩

theorem writesOnly_setElem {f : Nat} {v : Elem} (h : v.r = (s.elem p f).r) : WritesOnly p e ds s (s.setElem p f v) := by
  refine writesOnly_of_regs ?_ fun q hq => patch_setPatch_ne _ _ hq
  by_cases hf : e = f
  · subst hf
    rw [elem_setElem_same, h]
  · rw [elem_setElem_ne _ _ (.inr hf)]

theorem writesOnly_modElem {f : Elem → Elem} (h : ∀ v, (f v).r = v.r) : WritesOnly p e ds s (s.modElem p e f) := writesOnly_setElem (h _)

theorem writesOnly_setPort {k : Nat} {x : Port} : WritesOnly p e ds s (s.setPort p k x) := by
  refine writesOnly_of_regs ?_ fun q hq => patch_setPatch_ne _ _ hq
  rw [State.elem, State.setPort, patch_setPatch_same]
  rfl

theorem writesOnly_setS {d : Nat} (x : Word) (h : ds d) : WritesOnly p e ds s (s.modElem p e (fun v => v.setS d x)) := by
  refine ⟨?_, fun q hq => patch_setPatch_ne _ _ hq⟩
  rw [elem_modElem_same, Elem.setS]
  split
  · refine ⟨_, rfl, fun n hn => ?_⟩
    have hd : d ≠ n := fun hd => hn (hd ▸ h)
    simp [List.getD_eq_getElem?_getD, List.getElem?_set_ne hd]
  · exact ⟨_, rfl, fun _ _ => rfl⟩

theorem writesOnly_thawPort {k : Nat} : WritesOnly p e ds s (s.thawPort p k).2 := by
  unfold State.thawPort
  dsimp only
  split
  · exact writesOnly_setPort
  · exact writesOnly_refl

theorem writesOnly_portEmit {k : Nat} {d : Stream} {pt : Port} {x : Slot} : WritesOnly p e ds s (s.portEmit p k d pt x) :=
  writesOnly_trans (t := s.setElem p d.el ((s.elem p d.el).enqueue d.qp x pt.ht)) (writesOnly_setElem rfl) writesOnly_setPort

theorem writesOnly_bublPort {k m : Nat} : WritesOnly p e ds s (s.bublPort p k m).2 := by
  unfold State.bublPort
  dsimp only
  split
  · exact writesOnly_setPort
  · split
    · split
      · exact writesOnly_refl
      · split
        · exact writesOnly_setPort
        · split
          · exact writesOnly_portEmit
          · exact writesOnly_setPort
    · exact writesOnly_setPort
    · exact writesOnly_setPort

/-- The s register that a THAW or BUBL writes last (R234). -/
def Eff.answers (x : Eff) (n : Nat) : Prop := (∃ k, x = .thaw n k) ∨ ∃ k m, x = .bubl n k m

theorem writesOnly_commitEff (x : Eff) (h : ∀ n, x.answers n → ds n) : WritesOnly p e ds s (s.commitEff p e x) := by
  cases x with
  | arm o r =>
    simp only [State.commitEff]
    split
    · exact writesOnly_refl
    · exact writesOnly_modElem fun _ => rfl
  | thaw d k => exact writesOnly_trans writesOnly_thawPort (writesOnly_setS _ (h d (.inl ⟨k, rfl⟩)))
  | bubl d k m => exact writesOnly_trans writesOnly_bublPort (writesOnly_setS _ (h d (.inr ⟨k, m, rfl⟩)))
  | emitter | scaleIn | scaleOut | zskip | bconf => exact writesOnly_modElem fun _ => rfl
  | store | fill | accst | witness | zset | bset | capH | capD | capX => exact writesOnly_refl

theorem writesOnly_commitEffs (l : List Eff) (h : ∀ x ∈ l, ∀ n, x.answers n → ds n) :
    WritesOnly p e ds s (l.foldl (fun s x => s.commitEff p e x) s) := by
  induction l generalizing s with
  | nil => exact writesOnly_refl
  | cons x l ih =>
    obtain ⟨hx, hl⟩ := List.forall_mem_cons.mp h
    exact writesOnly_trans (writesOnly_commitEff x hx) (ih hl)

end

/-! ### The registers after a commit -/

theorem regs_counters (v : Elem) (l : List Eff) : (v.counters l).r = v.r := by
  induction l generalizing v with
  | nil => rfl
  | cons x l ih => cases x <;> exact ih _

theorem foldl_setHandleHalf (p e : Nat) (i : Inst) (xs : List Nat) (s : State) :
    let t := xs.foldl (fun s x => s.setHandleHalf p e i x) s
    (t.elem p e).r = { (s.elem p e).r with cb := writeHalves i.r.cb (s.elem p e).r.cb xs } ∧ ∀ q, q ≠ p → t.patch q = s.patch q := by
  induction xs generalizing s with
  | nil => exact ⟨rfl, fun _ _ => rfl⟩
  | cons x xs ih =>
    obtain ⟨hr, hq⟩ := ih (s.setHandleHalf p e i x)
    refine ⟨?_, fun q h => (hq q h).trans (patch_setPatch_ne _ _ h)⟩
    rw [List.foldl_cons, hr, State.setHandleHalf, elem_setElem_same]
    rfl

/-- The machine of a commit up to the effects of its words: its registers and handles are written. -/
def State.committed (s : State) (p e : Nat) (i : Inst) (irr : DWord) : State :=
  let v := s.elem p e
  let plan := i.plan p e v
  let v := { v with r := commitRegs v.r i irr, insts := v.insts.filter (fun x => x.id != i.id),
                    scb := v.scb.filter (fun x => x.owner != some i.id), wgen := plan.wgen }
  let s := (((s.setElem p e ((v.counters i.effects).forget i.id)).moved p e).removeSlots p e i).issueStores (.elem p e) plan.stores
  let s := s.modElem p e (fun v => { v with r := { v.r with cb := plan.advance (claimAdvance v.r.cb i) } })
  i.wC.foldl (fun s x => s.setHandleHalf p e i x) s

section
variable (s : State) (p e n m : Nat) (i : Inst)

@[simp] theorem patch_issueStores (a : AgentId) (l : List Store) : (s.issueStores a l).patch n = s.patch n := by
  obtain ⟨o, ho⟩ := issueStores_only_ord l s a
  rw [ho]
  rfl

@[simp] theorem elem_issueStores (a : AgentId) (l : List Store) : (s.issueStores a l).elem n m = s.elem n m := by
  rw [State.elem, patch_issueStores]
  rfl

@[simp] theorem elem_removeSlots_same : (s.removeSlots p e i).elem p e = (s.elem p e).without i := by
  obtain ⟨o, ho⟩ := removeSlots_eq s p e i
  rw [ho]
  exact elem_setElem_same ..

theorem patch_removeSlots_ne {q : Nat} (h : q ≠ p) : (s.removeSlots p e i).patch q = s.patch q := by
  obtain ⟨o, ho⟩ := removeSlots_eq s p e i
  rw [ho]
  exact patch_setPatch_ne _ _ h

theorem regs_committed (irr : DWord) : ((s.committed p e i irr).elem p e).r = { commitRegs (s.elem p e).r i irr with
    cb := writeHalves i.r.cb ((i.plan p e (s.elem p e)).moves i (s.elem p e).r.cb) i.wC } := by
  obtain ⟨hr, -⟩ := foldl_setHandleHalf p e i i.wC _
  rw [State.committed, hr, elem_modElem_same, elem_issueStores, elem_removeSlots_same, elem_moved_same, elem_setElem_same]
  simp only [Elem.without, Elem.forget, regs_counters]
  rfl

theorem patch_committed_ne (irr : DWord) {q : Nat} (h : q ≠ p) : (s.committed p e i irr).patch q = s.patch q := by
  obtain ⟨-, hq⟩ := foldl_setHandleHalf p e i i.wC _
  rw [State.committed, hq q h]
  exact (patch_setPatch_ne _ _ h).trans ((patch_issueStores ..).trans ((patch_removeSlots_ne _ _ _ _ h).trans
    ((patch_setPatch_ne _ _ h).trans (patch_setPatch_ne _ _ h))))

/-- The effects of the words, the branch and the halt come after the registers, and of these write only what THAW and BUBL answer. -/
theorem writesOnly_applyCommit (irr : DWord) (caps : List (List (DWord × Nat))) :
    WritesOnly p e (fun n => ∃ x ∈ i.effects, x.answers n) (s.committed p e i irr) (s.applyCommit p e i irr caps) := by
  rw [State.applyCommit]
  have heffs {f : Elem → Elem} (hf : ∀ v, (f v).r = v.r) : WritesOnly p e (fun n => ∃ x ∈ i.effects, x.answers n) (s.committed p e i irr)
      (i.effects.foldl (fun s x => s.commitEff p e x) ((s.committed p e i irr).modElem p e f)) :=
    writesOnly_trans (writesOnly_modElem hf) (writesOnly_commitEffs i.effects fun x hx n hn => ⟨x, hx, hn⟩)
  split
  · refine writesOnly_trans ?_ (writesOnly_modElem fun _ => rfl)
    split
    · refine writesOnly_trans ?_ (writesOnly_modElem fun _ => rfl)
      exact heffs fun _ => rfl
    · exact heffs fun _ => rfl
  · split
    · refine writesOnly_trans ?_ (writesOnly_modElem fun _ => rfl)
      exact heffs fun _ => rfl
    · exact heffs fun _ => rfl

/-- The registers of an element after a commit of its instance: all but some s registers are those of `regs_committed`. -/
theorem regs_applyCommit (irr : DWord) (caps : List (List (DWord × Nat))) :
    ∃ l, ((s.applyCommit p e i irr caps).elem p e).r = { commitRegs (s.elem p e).r i irr with
        cb := writeHalves i.r.cb ((i.plan p e (s.elem p e)).moves i (s.elem p e).r.cb) i.wC, s := l } ∧
      ∀ n, (¬ ∃ x ∈ i.effects, x.answers n) → l.getD n 0 = (commitRegs (s.elem p e).r i irr).s.getD n 0 := by
  obtain ⟨⟨l, hl, hd⟩, -⟩ := writesOnly_applyCommit s p e i irr caps
  rw [regs_committed] at hl hd
  exact ⟨l, hl, hd⟩

theorem patch_applyCommit_ne (irr : DWord) (caps : List (List (DWord × Nat))) {q : Nat} (h : q ≠ p) :
    (s.applyCommit p e i irr caps).patch q = s.patch q := by
  obtain ⟨-, hq⟩ := writesOnly_applyCommit s p e i irr caps
  exact (hq q h).trans (patch_committed_ne _ _ _ _ _ h)

theorem applyCommit_writes (r : DWord) (caps : List (List (DWord × Nat))) :
    let v := s.elem p e
    let u := (s.applyCommit p e i r caps).elem p e
    let ds := match i.irr with
      | .held x _ => x.dests
      | .done x _ => x.dests
      | .none => []
    let last := fun (n : Nat) => ∃ y ∈ i.effs, (∃ k, y.2 = .thaw n k) ∨ ∃ k m, y.2 = .bubl n k m
    let taken := fun (c : Nat) => ((i.cres.filter (fun x => x.1 == c)).map (fun x => x.2.2)).sum +
      ((i.clE.filter (fun x => x.1 == c)).map (fun x => x.2)).sum
    let filled := fun (c : Nat) => ((i.clF.filter (fun x => x.1 == c)).map (fun x => x.2)).sum +
      (((i.plan p e v).fills.filter (fun x => x.1 == c)).map (fun x => x.2.slots)).sum
    (∀ n < v.r.s.length, n < 16 → ¬ last n →
      (ds.getD 1 16 = n → u.r.s.getD n 0 = BitVec.ofNat 32 (r.toNat / 2 ^ 32)) ∧
      (ds.getD 1 16 ≠ n → ds.getD 0 16 = n → u.r.s.getD n 0 = BitVec.ofNat 32 (r.toNat % 2 ^ 32)) ∧
      (ds.getD 1 16 ≠ n → ds.getD 0 16 ≠ n → u.r.s.getD n 0 = if n ∈ i.wS then i.r.s.getD n 0 else v.r.s.getD n 0)) ∧
    (∀ c < v.r.cb.length, let h := v.r.cb.getD c 0
      let moved := Terms.movedBuffer h (taken c) (filled c)
      let new := (i.r.cb.getD c 0).toNat
      (u.r.cb.getD c 0).toNat % 2 ^ 32 = (if 2 * c ∈ i.wC then new % 2 ^ 32 else moved.toNat % 2 ^ 32) ∧
      (u.r.cb.getD c 0).toNat / 2 ^ 32 = (if 2 * c + 1 ∈ i.wC then new / 2 ^ 32 else moved.toNat / 2 ^ 32)) ∧
    (∀ n < v.r.w.length, u.r.w.getD n 0 = if n ∈ i.wW then i.r.w.getD n 0 else v.r.w.getD n 0) ∧
    (∀ n < v.r.m.length, u.r.m.getD n 0 = if n ∈ i.wM then i.r.m.getD n 0 else v.r.m.getD n 0) ∧
    (∀ n < v.r.acc.length, u.r.acc.getD n [] = if n ∈ i.wA then i.r.acc.getD n [] else v.r.acc.getD n []) ∧
    u.r.fuse = (if i.wFuse then i.r.fuse else v.r.fuse) ∧
    u.r.dz = ((v.r.dz && !i.dzClr) || i.dzSet) ∧
    (∀ q f, q ≠ p → (s.applyCommit p e i r caps).elem q f = s.elem q f) := by
  intro v u ds last taken filled
  obtain ⟨l, hl, hd⟩ := regs_applyCommit s p e i r caps
  rw [show u.r = _ from hl]
  refine ⟨fun n hn h16 hlast => ?_, fun c hc => ?_, fun n hn => getD_takeRegs _ _ _ _ hn, fun n hn => getD_takeRegs _ _ _ _ hn,
    fun n hn => getD_takeRegs _ _ _ _ hn, rfl, rfl, fun q f h => by rw [State.elem, patch_applyCommit_ne _ _ _ _ _ _ h]; rfl⟩
  · have hlast : ¬ ∃ x ∈ i.effects, x.answers n := by
      rintro ⟨x, hx, ha⟩
      obtain ⟨y, hy, rfl⟩ := List.mem_map.mp hx
      exact hlast ⟨y, hy, ha⟩
    have hlen : n < (takeRegs v.r.s i.r.s 0 i.wS).length := by rwa [length_takeRegs]
    rw [← getD_takeRegs v.r.s i.r.s 0 i.wS hn]
    have hset := getD_setResult (takeRegs v.r.s i.r.s 0 i.wS) ds r hlen h16
    rwa [show l.getD n 0 = (setResult (takeRegs v.r.s i.r.s 0 i.wS) ds r).getD n 0 from hd n hlast]
  · have hw := getD_writeHalves i.r.cb ((i.plan p e v).moves i v.r.cb) i.wC (c := c) (by rwa [length_moves])
    rwa [getD_moves _ _ _ hc] at hw

end

/-! ### The commit's own cases -/

section
variable {s : State} {p e n : Nat} {i : Inst} {caps : List (List (DWord × Nat))} (hi : (s.elem p e).inst n = some i)
  (hw : (s.elem p e).wordsDone i = true) (hst : s.still p e = false) (hrot : i.rot = none) (hsent : i.sent = false)
  (hready : s.commitReady p e i = true) (hcheck : s.commitCheck p e i = .ok caps)
include hi hw hst hrot hsent hready hcheck

/-- Its ACCST words must wait for theirs. -/
theorem instanceCommit_of_held (ha : i.acl = []) (hh : s.accstHeld p e (i.accstWords p e) = true) :
    exec (.instanceCommit p e n) s = .next (s.putInst p e { i with since := some (i.since.getD s.clock.ns) }) := by
  simp only [exec, execInstanceCommit, hi, hw, hst, hrot, hsent, hready, hcheck, ha, hh, State.commitWait, Bool.not_true, Bool.not_false,
    Option.isSome_none, List.isEmpty_nil, Bool.false_and, Bool.true_and, Bool.or_self, Bool.false_eq_true, if_true, if_false]

/-- They have their words: the irrevocable operation is performed. -/
theorem instanceCommit_of_free (ha : i.acl ≠ [] ∨ s.accstHeld p e (i.accstWords p e) = false) :
    let j := i.claim (i.accstWords p e)
    exec (.instanceCommit p e n) s =
      .next (s.onStep p e j (s.irrevocable p e j) (fun s r => (s.accsts p e j.effs).applyCommit p e j r caps)) := by
  have hc : (i.acl.isEmpty && s.accstHeld p e (i.accstWords p e)) = false := by
    rcases ha with ha | ha <;> simp [ha]
  simp only [exec, execInstanceCommit, hi, hw, hst, hrot, hsent, hready, hcheck, hc, Bool.not_true, Option.isSome_none, Bool.false_and,
    Bool.or_self, Bool.false_eq_true, if_false]

end

theorem effs_claim (i : Inst) (ws : List Nat) : (i.claim ws).effs = i.effs := by
  unfold Inst.claim
  split <;> rfl

/-- A rotation whose participants disagree faults each of them (R175). -/
theorem rrotRotate_of_disagree {s : State} {p : Nat} (ha : s.arrived p = true) (hr : (s.patch p).running = true)
    (hd : rotDisagree (s.participants p) = true) : exec (.rrotRotate p) s = .next ((s.participants p).foldl
      (fun s x => s.commitFault p x.1 x.2 ((s.elem p x.1).rotWord x.2) .illop 2 none) s) := by
  simp only [exec, execRrotRotate, ha, hr, hd, Bool.not_true, Bool.or_self, Bool.false_eq_true, if_true, if_false]

theorem rrotRotate_of_agree {s : State} {p : Nat} (ha : s.arrived p = true) (hr : (s.patch p).running = true)
    (hd : rotDisagree (s.participants p) = false) (hready : ∀ x ∈ s.participants p, (∀ y w, x.2.irr ≠ .held y w) ∧
      (x.2.passed = true ∨ s.commitReady p x.1 x.2 = true)) (hq : s.regionsQuiet p (s.participants p) = true)
    (hh : s.accstsHeld p (s.participants p) = false) (hc : ∀ x ∈ s.participants p, ∃ c, s.commitCheck p x.1 x.2 = .ok c) :
    exec (.rrotRotate p) s = .next ((s.participants p).foldl (fun s x => s.commitRot p x.1 x.2)
      ((s.accstsAll p (s.participants p)).rotateData p (s.participants p))) := by
  simp only [exec, execRrotRotate, ha, hr, hd, hq, hh, Bool.not_true, Bool.or_self, Bool.or_false, Bool.false_eq_true, if_false]
  rw [if_neg]
  · split
    · next t ht =>
      obtain ⟨x, hx, hxt⟩ := List.exists_of_findSome?_eq_some ht
      obtain ⟨c, hcx⟩ := hc x hx
      simp [hcx] at hxt
    · rfl
  · simp only [Bool.not_eq_true', Bool.not_eq_false, List.all_eq_true, Bool.and_eq_true, Bool.or_eq_true]
    intro x hx
    obtain ⟨hheld, hp⟩ := hready x hx
    refine ⟨?_, hp⟩
    split
    · next y w hy => exact absurd hy (hheld y w)
    · rfl

/-- The fault of a full/empty wait: XVAL is the pointer of its word, where it has one (R214). -/
def State.timesOut (s : State) (p e : Nat) (i : Inst) (w : Nat) : Option DWord → State
  | some x => s.commitFault p e i w .feTimeout 0 (some x)
  | none => { s with free := s.free + 1 }.commitFault p e i w .feTimeout 0 (some (Config.freeDWord s.free))

/-- A full/empty wait that has lasted the partition's timeout and would go on faults (R214). -/
theorem feTimeout_faults {s : State} {p e n t w : Nat} {i : Inst} {ptr : Option DWord} (hi : (s.elem p e).inst n = some i)
    (hs : i.since = some t) (hp : (s.elem p e).fePtr i (s.accstWaits p e i) = some (w, ptr)) (hf : i.st = .fired) (hst : s.still p e = false)
    (h0 : (s.part (s.partOf p)).feNs ≠ 0) (hl : (s.part (s.partOf p)).feNs ≤ s.clock.ns - t + i.waited) (hw : s.stillWaits p e i = true) :
    exec (.feTimeout p e n) s = .next (s.timesOut p e i w ptr) := by
  have hc : ¬ (i.st ≠ .fired ∨ s.still p e = true ∨ (s.part (s.partOf p)).feNs = 0 ∨
      s.clock.ns - t + i.waited < (s.part (s.partOf p)).feNs ∨ (!s.stillWaits p e i) = true) := by
    simp [hf, hst, h0, hw, Nat.not_lt.mpr hl]
  simp only [exec, execFeTimeout, hi, hs, hp]
  rw [if_neg hc]
  cases ptr <;> rfl

/-- Settles O45: a commit by its cases and by what it writes (`applyCommit_writes`), the rotation by its two ends, and the timeout. -/
theorem instancesCommit : Obligations.InstancesCommit := by
  refine ⟨fun s p e n i caps hi hw hst hrot hsent hready hcheck => ⟨instanceCommit_of_held hi hw hst hrot hsent hready hcheck, fun ha => ?_⟩,
    fun s p e i r caps => applyCommit_writes s p e i r caps,
    fun s p ha hr => ⟨rrotRotate_of_disagree ha hr, fun hd => rrotRotate_of_agree ha hr hd⟩,
    fun s p e n i t w ptr hi hs hp hf hst h0 hl hw => by
      rw [feTimeout_faults hi hs hp hf hst h0 hl hw]
      cases ptr <;> rfl⟩
  intro j
  have hgo := instanceCommit_of_free hi hw hst hrot hsent hready hcheck ha
  refine ⟨fun t ht => ?_, fun t ht => ?_, fun w c sub v ht => ?_, fun t r ht => ?_⟩
  · rw [hgo, ht]; rfl
  · rw [hgo, ht]; rfl
  · rw [hgo, ht]; rfl
  · rw [hgo, ht, effs_claim]
    rfl

end Sys2Proof.Machine
end

section
/-! SUPPORT. What draining the visibility buffers leaves of patches and buffers, and what clearing memory leaves of memory (R19, R307,
R308, R411, R442). -/

namespace Sys2Proof.Machine

/-! ### Drains -/

/-- No buffer gains an entry, and no patch's fence moves. -/
def Outside (s t : State) : Prop := t.ord.vis = s.ord.vis ∧ ∀ p, (t.patch p).fenced = (s.patch p).fenced

section
variable {s t u : State}

theorem outside_refl (s : State) : Outside s s := ⟨rfl, fun _ => rfl⟩

theorem outside_trans (h : Outside s t) (h' : Outside t u) : Outside s u := ⟨h'.1.trans h.1, fun p => (h'.2 p).trans (h.2 p)⟩

theorem outside_setPatch {p : Nat} {x : Patch} (h : x.fenced = (s.patch p).fenced) : Outside s (s.setPatch p x) := by
  refine ⟨rfl, fun q => ?_⟩
  by_cases hq : q = p
  · subst hq
    rw [patch_setPatch_same, h]
  · rw [patch_setPatch_ne _ _ hq]

theorem outside_report (p : Nat) (c : Word) (v : DWord) : Outside s (s.report p c v) := outside_setPatch rfl

theorem outside_reportAgent (ag : AgentId) (c : Word) (v : DWord) : Outside s (s.reportAgent ag c v) := by
  unfold State.reportAgent
  split
  · exact outside_report ..
  · exact outside_refl s

theorem fenced_smGet_map {f : Patch → Patch} (hf : ∀ x, (f x).fenced = x.fenced) (m : SMap Patch) (p : Nat) :
    (smGet Patch.reset (m.map (fun x => (x.1, f x.2))) p).fenced = (smGet Patch.reset m p).fenced := by
  induction m with
  | nil => rfl
  | cons x m ih =>
    obtain ⟨k, v⟩ := x
    by_cases hk : p = k
    · simp_all [smGet]
    · simp_all [smGet]

theorem outside_cmdDone (n : Nat) : Outside s (s.cmdDone n) := ⟨rfl, fun p => fenced_smGet_map (f := fun x => x.cmdDone n) (fun _ => rfl) _ p⟩

theorem outside_freezeEngine (x : Engine) (sub : Nat) (v : DWord) : Outside s (s.freezeEngine x sub v) := ⟨rfl, fun _ => rfl⟩

theorem outside_engineLate (x : Engine) (c : Cause) (sub : Nat) (v : DWord) : Outside s (s.engineLate x c sub v) := by
  unfold State.engineLate
  dsimp only
  split
  · exact outside_trans (outside_report ..) (outside_freezeEngine ..)
  · exact outside_trans (outside_report ..) (outside_cmdDone _)

theorem outside_engineStop (x : Engine) (c : Cause) (sub : Nat) (v : DWord) : Outside s (s.engineStop x c sub v) := by
  unfold State.engineStop
  split
  · exact outside_freezeEngine ..
  · exact outside_refl s

theorem outside_post {k : Packet} (h : s.post k = some t) : Outside s t := by
  obtain ⟨r, -, rfl⟩ := Option.map_eq_some_iff.mp h
  exact outside_refl s

theorem outside_request {a : Asked} {k : Packet} (h : s.request a k = some t) : Outside s t := by
  obtain ⟨u, hu, rfl⟩ := Option.map_eq_some_iff.mp h
  exact (outside_post hu : Outside s u)

theorem outside_postWr {n : Nat} {a : Asked} {k : Packet} (h : s.postWr n a k = some t) : Outside s t := by
  obtain ⟨u, hu, rfl⟩ := Option.map_eq_some_iff.mp h
  exact (outside_post hu : Outside s u)

theorem outside_sendWrites (x : VisEntry) (l : List (Nat × List Byte)) : ∀ s : State, Outside s (s.sendWrites x l) := by
  induction l with
  | nil => exact outside_refl
  | cons y l ih =>
    intro s
    unfold State.sendWrites
    refine outside_trans ?_ (ih _)
    split
    · split
      · next hp => exact outside_postWr hp
      · split
        · split
          · exact outside_engineLate ..
          · exact outside_engineStop ..
        · exact outside_refl s
    · split
      · next hp => exact outside_request hp
      · exact outside_reportAgent ..

end

/-- No buffer holds an entry. -/
def Drained (vis : List (VisId × List VisEntry)) : Prop := ∀ v ∈ vis, v.2 = []

theorem drained_meetInside (s : State) (w : Option VisId) (e : VisEntry) (vis : List (VisId × List VisEntry)) (h : Drained vis) :
    Drained (s.meetInside w e vis).1 := by
  induction vis generalizing e with
  | nil => exact h
  | cons v vis ih =>
    obtain ⟨v, l⟩ := v
    obtain ⟨hl, hvis⟩ := List.forall_mem_cons.mp h
    obtain rfl : l = [] := hl
    have hm : s.meetInside w e ((v, []) :: vis) = ((v, []) :: (s.meetInside w e vis).1, (s.meetInside w e vis).2) := by
      simp only [State.meetInside, meetAll, ite_self]
    rw [hm]
    exact List.forall_mem_cons.mpr ⟨rfl, ih _ hvis⟩

theorem drained_settleEntry {s : State} (h : Drained s.ord.vis) (e : VisEntry) : Drained (s.settleEntry e).ord.vis :=
  drained_meetInside s none e _ h

/-- One entry drains. -/
def State.drainOne (s : State) (e : VisEntry) : State :=
  (s.settleEntry e).sendWrites e (byteRuns (e.bytes.filter (fun c => (Place.mk c.1 .rc false false).module.isSome)))

theorem foldl_drain (es : List VisEntry) (s : State) (h : Drained s.ord.vis) :
    Drained (es.foldl State.drainOne s).ord.vis ∧ ∀ p, ((es.foldl State.drainOne s).patch p).fenced = (s.patch p).fenced := by
  induction es generalizing s with
  | nil => exact ⟨h, fun _ => rfl⟩
  | cons e es ih =>
    obtain ⟨hvis, hf⟩ : Outside (s.settleEntry e) (s.drainOne e) := outside_sendWrites ..
    obtain ⟨hd, hp⟩ := ih (s.drainOne e) (by rw [hvis]; exact drained_settleEntry h e)
    exact ⟨hd, fun p => (hp p).trans (hf p)⟩

/-- A full drain leaves every buffer empty and every fence where it was. -/
theorem settleWhere_all (s : State) : Drained (s.settleWhere (fun _ => true)).ord.vis ∧
    ∀ p, ((s.settleWhere (fun _ => true)).patch p).fenced = (s.patch p).fenced := by
  refine foldl_drain _ { s with ord := { s.ord with vis := s.ord.vis.map (fun v => (v.1, v.2.filter (fun _ => !true))) } } fun v hv => ?_
  obtain ⟨w, -, rfl⟩ := List.mem_map.mp hv
  exact List.filter_eq_nil_iff.mpr fun _ _ => Bool.false_ne_true

/-- With every buffer empty a drain does nothing to memory. -/
theorem settleWhere_mem_of_drained {s : State} (h : Drained s.ord.vis) (f : VisEntry → Bool) : (s.settleWhere f).mem = s.mem := by
  have hn : s.ord.vis.flatMap (fun v => v.2) = [] := List.flatMap_eq_nil_iff.mpr h
  simp only [State.settleWhere, hn, List.filter_nil, List.foldl_nil]

/-! ### Cleared memory -/

theorem cellGet_filter_out {f : Host.Cell → Bool} {a : Nat} (h : ∀ b, f (a, b) = false) (l : List Host.Cell) : cellGet (l.filter f) a = 0 := by
  induction l with
  | nil => rfl
  | cons c l ih =>
    obtain ⟨k, b⟩ := c
    by_cases hk : a = k
    · subst hk
      rw [List.filter_cons_of_neg (by simp [h]), ih]
    · by_cases hf : f (k, b)
      · rw [List.filter_cons_of_pos hf, cellGet, if_neg hk, ih]
      · rw [List.filter_cons_of_neg hf, ih]

theorem notShared_iff (a : Nat) : notShared a = true ↔ hostBase ≤ a ∧ a < vaultBase := by simp [notShared]

/-- Memory of this module is zero and empty once it is cleared (R19, R442). -/
theorem cleared_reads (m : Memory) {a : Nat} (h : a < hostBase ∨ vaultBase ≤ a) : m.cleared.get a = 0 ∧ m.cleared.isFull a = false := by
  have hout : ∀ b, (b = a ∨ b = 8 * (a / 8)) → ¬ notShared b = true := fun b hb => by
    rw [notShared_iff]
    simp only [hostBase, vaultBase] at h ⊢
    omega
  refine ⟨cellGet_filter_out (fun b => Bool.eq_false_iff.mpr (hout a (.inl rfl))) _, ?_⟩
  simp [Memory.isFull, Memory.cleared, hout (8 * (a / 8)) (.inr rfl)]

end Sys2Proof.Machine
end

section
/-! PROOFS. The device's states, calibration and throttling (R19, R441 to R450, R454). -/

namespace Sys2Proof.Machine

/-! ### Reset, SAFE and loss of power -/

/-- Everything that runs has stopped and is lost. -/
def Idle (t : State) : Prop := t.loads = [] ∧ t.queues = [] ∧ t.parts = [] ∧ t.patches = [] ∧ t.engines = [] ∧ t.ord = Ordering.reset

theorem idle_stopAll (s : State) (d : Device) : Idle (s.stopAll d) := ⟨rfl, rfl, rfl, rfl, rfl, rfl⟩

/-- Memory of this module is zero and empty. -/
def Blank (t : State) : Prop := ∀ a, (a < hostBase ∨ vaultBase ≤ a) → t.mem.get a = 0 ∧ t.mem.isFull a = false

theorem thermalShutdown_cool {s : State} {c : Nat} (h : c < 115) : exec (.thermalShutdown c) s = .next s := if_pos h

theorem thermalShutdown_hot {s : State} {c : Nat} (h : 115 ≤ c) : ∃ t, exec (.thermalShutdown c) s = .next t ∧ Idle t ∧ Blank t ∧
    t.device = { Device.reset with fusedSvn := s.device.fusedSvn } :=
  ⟨_, if_neg (Nat.not_lt.mpr h), ⟨rfl, rfl, rfl, rfl, rfl, rfl⟩, fun _ ha => cleared_reads _ ha, rfl⟩

/-! ### Bring-up -/

/-- The device as the boot ROM finds it: its measurement registers are zero when power comes. -/
def Device.poweredUp (d : Device) : Device := if d.powered then d else { d with powered := true, m := Device.reset.m }

theorem poweredUp_keeps (d : Device) : d.poweredUp.fusedSvn = d.fusedSvn ∧ d.poweredUp.fenced = d.fenced ∧
    d.poweredUp.m = if d.powered then d.m else List.replicate 4 (List.replicate 32 0) := by
  unfold Device.poweredUp
  split
  · exact ⟨rfl, rfl, rfl⟩
  · exact ⟨rfl, rfl, rfl⟩

section
variable {fw : Firmware} {fused : Byte} {i : Nat}

/-- The ROM accepts a signature of image `i`. -/
def Signed (fw : Firmware) (i : Nat) : Prop :=
  sha256 (4 :: fw.key) = Config.firmwareKeyDigest ∧ verifies fw.key (fwImage fw i).digest (fwImage fw i).signature = true

theorem not_signed_iff : ¬ Signed fw i ↔
    (sha256 (4 :: fw.key) ≠ Config.firmwareKeyDigest ∨ verifies fw.key (fwImage fw i).digest (fwImage fw i).signature = false) := by
  rw [Signed, not_and_or, Bool.not_eq_true]

theorem fwRefused_of_unsigned (h : ¬ Signed fw i) : fwRefused fw fused i = some 3 := if_pos (not_signed_iff.mp h)

theorem fwRefused_of_old (h : Signed fw i) (hs : ¬ fused.toNat ≤ (fwImage fw i).svn.toNat) : fwRefused fw fused i = some 4 := by
  rw [fwRefused, if_neg (mt not_signed_iff.mpr (not_not.mpr h)), if_pos (Nat.lt_of_not_le hs)]

theorem fwRefused_of_good (h : Signed fw i) (hs : fused.toNat ≤ (fwImage fw i).svn.toNat) : fwRefused fw fused i = none := by
  rw [fwRefused, if_neg (mt not_signed_iff.mpr (not_not.mpr h)), if_neg (Nat.not_lt.mpr hs)]

/-- The first image that the ROM refuses, with its code. -/
def firstRefused (fw : Firmware) (fused : Byte) : Option (Nat × Byte) :=
  (List.range 3).findSome? (fun i => (fwRefused fw fused i).map (fun c => (i, c)))

theorem firstRefused_eq {c : Byte} (hi : i < 3) (hgood : ∀ j < i, fwRefused fw fused j = none) (h : fwRefused fw fused i = some c) :
    firstRefused fw fused = some (i, c) := by
  have h0 : 0 < i → fwRefused fw fused 0 = none := hgood 0
  have h1 : 1 < i → fwRefused fw fused 1 = none := hgood 1
  have hr : List.range 3 = [0, 1, 2] := rfl
  rw [firstRefused, hr]
  obtain rfl | rfl | rfl : i = 0 ∨ i = 1 ∨ i = 2 := by omega
  · simp [h]
  · simp [h0, h]
  · simp [h0, h1, h]

theorem firstRefused_none (h : ∀ j < 3, fwRefused fw fused j = none) : firstRefused fw fused = none :=
  List.findSome?_eq_none_iff.mpr fun j hj => by rw [h j (List.mem_range.mp hj)]; rfl

/-- The fused SVN after the manager has asked, or not, that it rise to image `i`'s. -/
def fuseTo (fw : Firmware) (ask : Word) (x : Byte) (i : Nat) : Byte :=
  if ask.getLsbD i ∧ x.toNat < (fwImage fw i).svn.toNat then (fwImage fw i).svn else x

/-- The fused SVN never falls, and rises only to an image's. -/
def FusedFrom (fw : Firmware) (fused x : Byte) : Prop :=
  fused.toNat ≤ x.toNat ∧ (x = fused ∨ ∃ i < 3, x = (fwImage fw i).svn)

theorem fusedFrom_fuseTo {ask : Word} {x : Byte} (h : FusedFrom fw fused x) (hi : i < 3) : FusedFrom fw fused (fuseTo fw ask x i) := by
  unfold fuseTo
  split
  · next hc => exact ⟨h.1.trans hc.2.le, .inr ⟨i, hi, rfl⟩⟩
  · exact h

theorem fusedFrom_foldl {ask : Word} (l : List Nat) (hl : ∀ i ∈ l, i < 3) {x : Byte} (h : FusedFrom fw fused x) :
    FusedFrom fw fused (l.foldl (fuseTo fw ask) x) := by
  induction l generalizing x with
  | nil => exact h
  | cons i l ih =>
    obtain ⟨hi, hl⟩ := List.forall_mem_cons.mp hl
    exact ih hl (fusedFrom_fuseTo h hi)

theorem fusedFrom_fwFuse (fw : Firmware) (fused : Byte) (ask : Word) : FusedFrom fw fused (fwFuse fw fused ask) :=
  fusedFrom_foldl _ (fun _ hi => List.mem_range.mp hi) ⟨le_rfl, .inl rfl⟩

end

section
variable {s : State} {fw : Firmware} (hd : s.device.dstate = .reset)
include hd

theorem powerGood_of_refused {i : Nat} {c : Byte} (h : firstRefused fw s.device.fusedSvn = some (i, c)) :
    exec (.powerGood fw) s = .next (s.enterSafe { s.device.poweredUp with fenced := firstFailure s.device.fenced 7 c i }) := by
  rw [firstRefused] at h
  cases hp : s.device.powered with
  | true => simp only [exec, execPowerGood, Device.poweredUp, hd, hp, h, ne_eq, not_true_eq_false, if_false, if_true]
  | false => simp only [exec, execPowerGood, Device.poweredUp, hd, hp, h, ne_eq, not_true_eq_false, if_false, Bool.false_eq_true]

theorem powerGood_of_good (h : firstRefused fw s.device.fusedSvn = none) : exec (.powerGood fw) s = .next { s with
      device := { (((s.device.poweredUp.extend 0 (fwImage fw 0).digest).extend 1 (fwImage fw 1).digest).extend 1 (fwImage fw 2).digest) with
        dstate := .selftest, fusedSvn := fwFuse fw s.device.fusedSvn (Config.freeWord s.free) },
      free := s.free + 1 } := by
  rw [firstRefused] at h
  cases hp : s.device.powered with
  | true =>
    simp only [exec, execPowerGood, Device.poweredUp, hd, hp, h, ne_eq, not_true_eq_false, if_false, if_true]
    rfl
  | false =>
    simp only [exec, execPowerGood, Device.poweredUp, hd, hp, h, ne_eq, not_true_eq_false, if_false, Bool.false_eq_true]
    rfl

end

/-! ### Self-test -/

/-- The units of a self-test result are in their ranges. -/
def InRanges (r : SelfTest) : Prop :=
  (∀ p ∈ r.patches, p < 640) ∧ (∀ h ∈ r.hbm, h < 12) ∧ (∀ n ∈ r.ports ++ r.lanes, n < 16) ∧ ∀ n ∈ r.io, n < 5

/-- Nothing has failed. -/
def NoneFailed (r : SelfTest) : Prop :=
  r.fclass = 0 ∧ r.fcode = 0 ∧ r.findex = 0 ∧ r.patches = [] ∧ r.hbm = [] ∧ r.ports = [] ∧ r.lanes = [] ∧ r.io = []

/-- The first failure is one of those named. -/
def FirstNamed (r : SelfTest) : Prop :=
  r.fcode.toNat < 2 ∧ r.findex.toNat ∈ [[], r.patches, r.patches, r.hbm, r.ports, r.lanes, r.io].getD r.fclass.toNat []

/-- The device cannot give service with what has failed. -/
def Fatal (r : SelfTest) : Prop := r.io ≠ [] ∨ (∀ p < 640, p ∈ r.patches) ∨ (∀ h < 12, h ∈ r.hbm)

theorem testFailed_eq (r : SelfTest) (c : Nat) :
    testFailed r c = [[], r.patches, r.patches, r.hbm, r.ports, r.lanes, r.io].getD c [] := by
  rcases c with _ | _ | _ | _ | _ | _ | _ | c <;> rfl

theorem testConsistent_iff (r : SelfTest) : testConsistent r = true ↔ InRanges r ∧ (NoneFailed r ∨ FirstNamed r) := by
  have hranges : (r.patches.all (fun p => decide (p < 640)) && r.hbm.all (fun h => decide (h < 12)) && r.ports.all (fun n => decide (n < 16)) &&
      r.lanes.all (fun n => decide (n < 16)) && r.io.all (fun n => decide (n < 5))) = true ↔ InRanges r := by
    simp only [InRanges, Bool.and_eq_true, List.all_eq_true, decide_eq_true_eq, List.forall_mem_append]
    tauto
  rw [testConsistent, Bool.and_eq_true, hranges]
  refine and_congr_right fun _ => ?_
  by_cases hc : r.fclass = 0
  · have hnot : ¬ FirstNamed r := fun ⟨_, h⟩ => by simp [hc] at h
    simp only [hc, if_true, NoneFailed, hnot, or_false, Bool.and_eq_true, beq_iff_eq, List.isEmpty_iff, true_and, and_assoc]
  · simp only [hc, if_false, NoneFailed, FirstNamed, false_and, false_or, Bool.and_eq_true, decide_eq_true_eq, testFailed_eq,
      List.contains_eq_mem]

theorem allFailed_iff (n : Nat) (l : List Nat) : allFailed n l = true ↔ ∀ i < n, i ∈ l := by
  simp [allFailed]

theorem fatal_iff (r : SelfTest) : (!r.io.isEmpty || allFailed 640 r.patches || allFailed 12 r.hbm) = true ↔ Fatal r := by
  simp only [Fatal, Bool.or_eq_true, allFailed_iff, Bool.not_eq_true', List.isEmpty_eq_false_iff, ne_eq, or_assoc]

theorem fenced_fencePatches (l : List Nat) (s : State) (p : Nat) :
    ((s.fencePatches l).patch p).fenced = ((s.patch p).fenced || l.contains p) := by
  induction l generalizing s with
  | nil => simp [State.fencePatches]
  | cons q l ih =>
    rw [show s.fencePatches (q :: l) = (s.setPatch q { s.patch q with fenced := true }).fencePatches l from rfl, ih]
    by_cases h : p = q
    · subst h
      simp
    · simp [patch_setPatch_ne _ _ h, h]

theorem device_fencePatches (l : List Nat) (s : State) : (s.fencePatches l).device = s.device := by
  induction l generalizing s with
  | nil => rfl
  | cons q l ih => exact ih _

section
variable {s : State} {r : SelfTest}

theorem selftestDone_refused (h : ¬ (InRanges r ∧ (NoneFailed r ∨ FirstNamed r))) : exec (.selftestDone r) s = .next s :=
  if_pos (.inr (Bool.eq_false_iff.mpr (mt (testConsistent_iff r).mp h)))

/-- The machine whose memory self-test has cleared. -/
def State.swept (s : State) : State :=
  { s.settleWhere (fun _ => true) with mem := (s.settleWhere (fun _ => true)).mem.cleared }

theorem blank_swept (s : State) : Blank s.swept := fun _ ha => cleared_reads _ ha

variable (hd : s.device.dstate = .selftest) (h : InRanges r ∧ (NoneFailed r ∨ FirstNamed r))
include hd h

theorem selftestDone_fatal (hf : Fatal r) : ∃ t, exec (.selftestDone r) s = .next t ∧ Idle t ∧ Blank t ∧
    t.device = { s.device with fenced := r, dstate := .safe } := by
  have hc : ¬ (s.device.dstate ≠ .selftest ∨ testConsistent r = false) := by simp [hd, (testConsistent_iff r).mpr h]
  refine ⟨s.swept.enterSafe { s.device with fenced := r }, ?_, idle_stopAll .., ?_, rfl⟩
  · rw [show exec (.selftestDone r) s = execSelftestDone r s from rfl, execSelftestDone, if_neg hc]
    exact if_pos ((fatal_iff r).mpr hf)
  · have hm : (s.swept.enterSafe { s.device with fenced := r }).mem = s.swept.mem :=
      settleWhere_mem_of_drained (s := s.swept) (settleWhere_all s).1 _
    rw [Blank, hm]
    exact blank_swept s

theorem selftestDone_serves (hf : ¬ Fatal r) : ∃ t, exec (.selftestDone r) s = .next t ∧ Blank t ∧
    t.device = { s.device with fenced := r, dstate := .reduced } ∧
    ∀ p < 640, (t.patch p).fenced = ((s.patch p).fenced || r.patches.contains p) := by
  have hc : ¬ (s.device.dstate ≠ .selftest ∨ testConsistent r = false) := by simp [hd, (testConsistent_iff r).mpr h]
  refine ⟨({ s.swept with device := { s.device with fenced := r, dstate := .reduced } }.fencePatches r.patches).reroute, ?_, ?_, ?_,
    fun p _ => ?_⟩
  · rw [show exec (.selftestDone r) s = execSelftestDone r s from rfl, execSelftestDone, if_neg hc]
    exact if_neg (mt (fatal_iff r).mp hf)
  · rw [Blank, State.reroute_mem, State.fencePatches_mem]
    exact blank_swept s
  · exact device_fencePatches ..
  · exact (fenced_fencePatches ..).trans (by rw [← (settleWhere_all s).2 p]; rfl)

end

/-! ### Calibration -/

theorem toFull_keeps (s : State) : s.toFull.patches = s.patches ∧ s.toFull.device.fenced = s.device.fenced ∧ s.toFull.device.m = s.device.m ∧
    s.toFull.device.calibrated = s.device.calibrated := by
  unfold State.toFull
  split <;> exact ⟨rfl, rfl, rfl, rfl⟩

theorem dstate_toFull {s : State} (h : s.device.dstate = .reduced) : s.toFull.device.dstate = if s.allJoined then .full else .reduced := by
  unfold State.toFull
  by_cases hj : s.allJoined = true
  · rw [if_pos ⟨h, hj⟩, if_pos hj]
  · rw [if_neg (fun hc => hj hc.2), if_neg hj, h]

section
variable {s : State} (hd : s.device.dstate = .reduced)
include hd

section
variable {u : CalUnit} (hu : s.calibratedOrFenced u = false)
include hu

theorem calibrationDone_of_ok (hall : u ≠ .all) :
    exec (.calibrationDone u true) s = .next { s with device := { s.device with calibrated := s.device.calibrated ++ [u] } } := by
  simp only [exec, execCalibrationDone, hd, hu, hall, ne_eq, not_true_eq_false, Bool.false_eq_true, or_self, if_false, if_true]

theorem calibrationDone_of_bad (hall : u ≠ .all) : exec (.calibrationDone u false) s = .next (s.calFailed u) := by
  simp only [exec, execCalibrationDone, hd, hu, hall, ne_eq, not_true_eq_false, Bool.false_eq_true, or_self, if_false]

end

theorem calibrationDone_all (hu : s.calibratedOrFenced .all = false) (h : s.unitsDone = true) :
    ∃ t, exec (.calibrationDone .all true) s = .next t ∧ .all ∈ t.device.calibrated ∧
      t.device.m = s.device.m.set 2 (sha256 (s.device.m.getD 2 [] ++ Config.fuseDigest)) := by
  obtain ⟨-, -, hm, hc⟩ := toFull_keeps { s with device := { s.device.extend 2 Config.fuseDigest with
    calibrated := s.device.calibrated ++ [CalUnit.all] } }
  refine ⟨_, ?_, by rw [hc]; exact List.mem_append_right _ (List.mem_singleton.mpr rfl), by rw [hm]; rfl⟩
  simp only [exec, execCalibrationDone, hd, hu, h, ne_eq, not_true_eq_false, Bool.false_eq_true, or_self, if_false, Bool.and_self, if_true]

theorem patchJoinFull_joins {p : Nat} (hp : p < 640) (hl : (s.patch p).load = none) (hc : s.calibrated p = true) :
    ∃ t, exec (.patchJoinFull p) s = .next t ∧ t.patch p = { s.patch p with fullRate := true } ∧
      t.device.dstate = (if (s.setPatch p { s.patch p with fullRate := true }).allJoined then .full else .reduced) := by
  obtain ⟨hpat, -⟩ := toFull_keeps (s.setPatch p { s.patch p with fullRate := true })
  refine ⟨(s.setPatch p { s.patch p with fullRate := true }).toFull, ?_, ?_, dstate_toFull hd⟩
  · simp only [exec, execPatchJoinFull, State.joinFull, hd, hl, hp, hc, Option.isNone_none, and_self, if_true]
  · rw [State.patch, hpat]
    exact patch_setPatch_same ..

end

/-- A patch is noted as one that has failed its calibration. -/
def State.noteBad (s : State) (p : Nat) : State := s.setPatch p { s.patch p with calBad := true }

/-- The machine once that patch is fenced (R443). -/
def State.fencedOff (s : State) (p : Nat) : State :=
  { s.noteBad p with device := { s.device with
    fenced := { firstFailure s.device.fenced 1 2 p with patches := s.device.fenced.patches ++ [p] } } }.fencePatches [p]

section
variable {s : State} {p : Nat} (hp : p < 640)
include hp

theorem calFailed_eq : s.calFailed (.patch p) = ((s.noteBad p).fenceBad p).toFull := by
  rw [State.calFailed, if_neg (Nat.not_le.mpr hp)]
  rfl

/-- A patch that holds a load keeps it, and is noted as failed (R443, R445). -/
theorem calFailed_of_loaded (hl : (s.patch p).load ≠ none) : (s.calFailed (.patch p)).device.fenced = s.device.fenced ∧
    (s.calFailed (.patch p)).patch p = { s.patch p with calBad := true } := by
  have hb : (s.noteBad p).fenceBad p = s.noteBad p := if_pos (by simp [State.noteBad, Option.isSome_iff_ne_none.mpr hl])
  obtain ⟨hpat, hf, -⟩ := toFull_keeps (s.noteBad p)
  rw [calFailed_eq hp, hb]
  exact ⟨hf, by rw [State.patch, hpat]; exact patch_setPatch_same ..⟩

/-- A free one is fenced, where another patch is left (R443). -/
theorem calFailed_of_free (hd : s.device.dstate = .reduced) (hl : (s.patch p).load = none) (hf : (s.patch p).fenced = false)
    (hq : ∃ q < 640, q ≠ p ∧ q ∉ s.device.fenced.patches) :
    (s.calFailed (.patch p)).device.fenced.patches = s.device.fenced.patches ++ [p] ∧ ((s.calFailed (.patch p)).patch p).fenced = true ∧
    ((s.calFailed (.patch p)).device.dstate = .reduced ∨ (s.calFailed (.patch p)).device.dstate = .full) := by
  have hall : ¬ allFailed 640 (s.device.fenced.patches ++ [p]) = true := by
    obtain ⟨q, hq, hne, hn⟩ := hq
    rw [allFailed_iff]
    exact fun h => by simpa [hne, hn] using h q hq
  have hb : (s.noteBad p).fenceBad p = s.fencedOff p := by
    rw [State.fenceBad, if_neg (by simp [State.noteBad, hl, hf])]
    exact if_neg hall
  obtain ⟨hpat, hfen, -⟩ := toFull_keeps (s.fencedOff p)
  rw [calFailed_eq hp, hb]
  refine ⟨by rw [hfen]; rfl, by rw [State.patch, hpat]; exact (fenced_fencePatches ..).trans (by simp), ?_⟩
  rw [dstate_toFull (s := s.fencedOff p) hd]
  split
  · exact .inr rfl
  · exact .inl rfl

end

/-! ### Throttling -/

theorem throttleRise_rises (s : State) {die : Nat} (c w : Nat) (h : die < 8) :
    ∃ t, exec (.throttleRise die c w) s = .next t ∧
      smGet 0 t.device.throttle die = max (smGet 0 s.device.throttle die) (throttleStep c w) ∧
      (∀ e, e ≠ die → smGet 0 t.device.throttle e = smGet 0 s.device.throttle e) ∧ { t with device := s.device } = s := by
  refine ⟨_, if_neg (Nat.not_le.mpr h), smGet_smSet_same .., fun e he => smGet_smSet_ne _ _ _ he, rfl⟩

section
variable {s : State} {die since : Nat} (h : smFind s.device.coolSince die = some since)
include h

theorem throttleFall_falls (ht : since + 10000000 ≤ s.clock.ns) : ∃ t, exec (.throttleFall die) s = .next t ∧
    smGet 0 t.device.throttle die = smGet 0 s.device.throttle die - 1 ∧ { t with device := s.device } = s := by
  have hx : exec (.throttleFall die) s = execThrottleFall die s := rfl
  rw [hx, execThrottleFall]
  simp only [h]
  rw [if_pos ht]
  exact ⟨_, rfl, smGet_smSet_same .., rfl⟩

theorem throttleFall_waits (ht : s.clock.ns < since + 10000000) : exec (.throttleFall die) s = .next s := by
  simp only [exec, execThrottleFall, h, if_neg (Nat.not_le.mpr ht)]

end

/-- Settles O59: each event by its own cases; what a drain and a clearing leave of memory is `settleWhere_all` and `cleared_reads`. -/
theorem deviceEvents : Obligations.DeviceEvents := by
  unfold Obligations.DeviceEvents
  intro nothing empty s _ d
  refine ⟨⟨_, rfl, ⟨rfl, rfl, rfl, rfl, rfl, rfl⟩, rfl, rfl, rfl, rfl, rfl, rfl⟩, fun c hc => thermalShutdown_hot hc,
    fun c hc => thermalShutdown_cool hc, fun fw hd => ?_, fun r hd => ?_, fun u ok hd hu => ⟨fun p hup hp hf => ?_, fun n hn hun hok => ?_, ?_⟩,
    fun p hp hd hl hc => patchJoinFull_joins hd hp hl hc, fun die c w h => throttleRise_rises s c w h,
    fun die since h => ⟨throttleFall_falls h, throttleFall_waits h⟩⟩
  · intro img signed good refused
    have hrefused : ∀ i c, firstRefused fw d.fusedSvn = some (i, c) → refused i c := fun i c h =>
      ⟨_, powerGood_of_refused hd h, idle_stopAll .., rfl, fun h0 => if_pos h0⟩
    have hgood : ∀ i, good i → fwRefused fw d.fusedSvn i = none := fun i ⟨hs, hv⟩ => fwRefused_of_good hs hv
    refine ⟨fun i hi hall => ⟨fun hs => ?_, fun hs hg => ?_⟩, fun hall => ?_⟩
    · exact hrefused i 3 (firstRefused_eq hi (fun j hj => hgood j (hall j hj)) (fwRefused_of_unsigned hs))
    · exact hrefused i 4 (firstRefused_eq hi (fun j hj => hgood j (hall j hj)) (fwRefused_of_old hs fun h => hg ⟨hs, h⟩))
    · obtain ⟨hle, hfrom⟩ := fusedFrom_fwFuse fw d.fusedSvn (Config.freeWord s.free)
      refine ⟨_, powerGood_of_good hd (firstRefused_none fun j hj => hgood j (hall j hj)), rfl, rfl, hle, hfrom, fun m hm hlen => ?_⟩
      obtain ⟨-, -, hm'⟩ := poweredUp_keeps d
      obtain ⟨a, b, c, e, rfl⟩ : ∃ a b c e, m = [a, b, c, e] := by
        match m, hlen with
        | [a, b, c, e], _ => exact ⟨a, b, c, e, rfl⟩
      simp only [Device.extend, show s.device.poweredUp.m = [a, b, c, e] from hm'.trans hm.symm]
      rfl
  · intro ranges none_ some_ bad
    exact ⟨selftestDone_refused, fun hr hn => ⟨selftestDone_fatal hd ⟨hr, hn⟩, selftestDone_serves hd ⟨hr, hn⟩⟩⟩
  · subst hup
    refine ⟨fun hok => ?_, fun hok hl hq => ?_, fun hok hl => ?_⟩
    · subst hok
      exact calibrationDone_of_ok hd hu nofun
    · subst hok
      exact ⟨_, calibrationDone_of_bad hd hu nofun, calFailed_of_free hp hd hl hf hq⟩
    · subst hok
      exact ⟨_, calibrationDone_of_bad hd hu nofun, calFailed_of_loaded hp hl⟩
  · subst hun hok
    rw [calibrationDone_of_bad hd hu nofun, State.calFailed, if_neg (Nat.not_le.mpr hn)]
  · rintro rfl rfl h
    exact calibrationDone_all hd hu h

end Sys2Proof.Machine
end

section
/-! PROOFS of the family of the number formats: the integer operations (R49 to R51). -/

namespace Sys2Proof.Machine

variable {n : Nat}

theorem bitVec_eq_ofInt {x : BitVec n} {v : Int} (h : x.toInt = v.bmod (2 ^ n)) : x = BitVec.ofInt n v :=
  BitVec.eq_of_toInt_eq (by rw [h, BitVec.toInt_ofInt])

theorem allOnes_eq_ofInt : BitVec.allOnes n = BitVec.ofInt n (-1) := by rw [← BitVec.neg_one_eq_allOnes, BitVec.ofInt_neg]; rfl

theorem sdiv_eq_ofInt (x y : BitVec n) : x.sdiv y = BitVec.ofInt n (x.toInt.tdiv y.toInt) := bitVec_eq_ofInt (BitVec.toInt_sdiv x y)

theorem srem_eq_ofInt (x y : BitVec n) : x.srem y = BitVec.ofInt n (x.toInt.tmod y.toInt) := by
  rw [← BitVec.toInt_srem, BitVec.ofInt_toInt]

/-- Dividend = quotient × divisor + remainder, also where the quotient wraps (R51). -/
theorem sdiv_mul_add_srem (x y : BitVec n) : x.sdiv y * y + x.srem y = x := by
  calc x.sdiv y * y + x.srem y
      = BitVec.ofInt n (x.toInt.tdiv y.toInt * y.toInt + x.toInt.tmod y.toInt) := by
        rw [sdiv_eq_ofInt, srem_eq_ofInt, BitVec.ofInt_add, BitVec.ofInt_mul, BitVec.ofInt_toInt]
    _ = x := by rw [Int.tdiv_mul_add_tmod, BitVec.ofInt_toInt]

theorem shiftLeft_eq_ofNat (x : BitVec n) (k : Nat) : x <<< k = BitVec.ofNat n (x.toNat * 2 ^ k) :=
  BitVec.eq_of_toNat_eq (by simp [Nat.shiftLeft_eq])

theorem ushiftRight_eq_ofNat (x : BitVec n) (k : Nat) : x >>> k = BitVec.ofNat n (x.toNat / 2 ^ k) :=
  BitVec.eq_of_toNat_eq (by
    rw [BitVec.toNat_ushiftRight, Nat.shiftRight_eq_div_pow, BitVec.toNat_ofNat,
      Nat.mod_eq_of_lt ((Nat.div_le_self ..).trans_lt x.isLt)])

theorem sshiftRight_eq_ofInt (x : BitVec n) (k : Nat) : x.sshiftRight k = BitVec.ofInt n (x.toInt / 2 ^ k) := by
  rw [← BitVec.ofInt_toInt (x := x.sshiftRight k), BitVec.toInt_sshiftRight, Int.shiftRight_eq_div_pow]
  simp

theorem udiv_eq_ofNat (x y : BitVec n) : x / y = BitVec.ofNat n (x.toNat / y.toNat) := by
  rw [← BitVec.toNat_udiv, BitVec.ofNat_toNat, BitVec.setWidth_eq]

theorem umod_eq_ofNat (x y : BitVec n) : x % y = BitVec.ofNat n (x.toNat % y.toNat) := by
  rw [← BitVec.toNat_umod, BitVec.ofNat_toNat, BitVec.setWidth_eq]

/-- Clamping is taking the nearest value of the signed range (R50). -/
theorem clampS_eq_max_min (n : Nat) (v : Int) : clampS n v = BitVec.ofInt n (max (-(2 ^ (n - 1))) (min (2 ^ (n - 1) - 1) v)) := by
  have hp : (0 : Int) < 2 ^ (n - 1) := by positivity
  unfold clampS
  split
  next h => rw [min_eq_right (by omega), max_eq_left (by omega)]
  next h =>
    split
    · rw [min_eq_left (by omega), max_eq_right (by omega)]
    · rw [min_eq_right (by omega), max_eq_right (by omega)]

/-- Of two values that order by a key without ties, choosing by `<` or by `≤` is the same. -/
theorem ite_lt_eq_ite_le {α β : Type} [LinearOrder β] {key : α → β} (hkey : ∀ {x y : α}, key x = key y → x = y) (x y : α) :
    (if key x < key y then x else y) = (if key x ≤ key y then x else y) ∧
    (if key x < key y then y else x) = (if key x ≤ key y then y else x) := by
  obtain h | h | h := lt_trichotomy (key x) (key y)
  · simp [h, h.le]
  · simp [hkey h]
  · simp [h.not_gt, h.not_ge]

theorem ite_slt {α : Type} (x y : BitVec n) (a b : α) : (if x.slt y then a else b) = if x.toInt < y.toInt then a else b := by
  simp only [BitVec.slt_iff_toInt_lt]

theorem intOp_eq_intValue (op : IntOp) (x y : BitVec n) : intOp op x y = Terms.intValue op x y := by
  have signed := ite_lt_eq_ite_le BitVec.eq_of_toInt_eq x y
  have unsigned := ite_lt_eq_ite_le BitVec.eq_of_toNat_eq x y
  cases op with
  | add => exact (by rw [BitVec.ofInt_add, BitVec.ofInt_toInt, BitVec.ofInt_toInt] : x + y = BitVec.ofInt n (x.toInt + y.toInt))
  | sub => exact bitVec_eq_ofInt BitVec.toInt_sub
  | mul => exact (by rw [BitVec.ofInt_mul, BitVec.ofInt_toInt, BitVec.ofInt_toInt] : x * y = BitVec.ofInt n (x.toInt * y.toInt))
  | and | or | xor | sltu | mulh | mulhu => rfl
  | sll => exact shiftLeft_eq_ofNat ..
  | srl => exact ushiftRight_eq_ofNat ..
  | sra => exact sshiftRight_eq_ofInt ..
  | slt => exact ite_slt ..
  | div => exact congrArg₂ (ite (y = 0)) allOnes_eq_ofInt (sdiv_eq_ofInt x y)
  | divu => exact congrArg (ite (y = 0) _) (udiv_eq_ofNat x y)
  | rem => exact congrArg (ite (y = 0) _) (srem_eq_ofInt x y)
  | remu => exact congrArg (ite (y = 0) _) (umod_eq_ofNat x y)
  | min => exact (ite_slt ..).trans signed.1
  | max => exact (ite_slt ..).trans signed.2
  | minu => exact unsigned.1
  | maxu => exact unsigned.2
  | adds | subs => exact clampS_eq_max_min ..

theorem intDz_eq_dividesByZero (op : IntOp) (y : BitVec n) : intDz op y = Terms.dividesByZero op y := by
  cases op <;> rfl

/-- Settles O7, operation by operation; the equations hold at every width. -/
theorem integerOperations : Obligations.IntegerOperations := by
  unfold Obligations.IntegerOperations
  intro n _ op x y
  refine ⟨intOp_eq_intValue op x y, intDz_eq_dividesByZero op y, fun hy => ?_⟩
  have hdiv : intOp .div x y = x.sdiv y := if_neg hy
  have hrem : intOp .rem x y = x.srem y := if_neg hy
  rw [hdiv, hrem, sdiv_mul_add_srem]

end Sys2Proof.Machine
end

section
/-! SUPPORT. Exact magnitudes, and rounding one to a multiple of a power of two (R47, R53, R54). -/

namespace Sys2Proof.Machine

/-! ### Exact magnitudes as rational numbers -/

/-- The magnitude m · 2^e. -/
def magnitude (m : Nat) (e : Int) : ℚ := m * 2 ^ e

section
variable {a b m n r : Nat} {e g h p q : Int}

theorem cast_scaled (he : h ≤ e) : ((m * 2 ^ (e - h).toNat : Nat) : ℚ) = magnitude m e / 2 ^ h := by
  have hp : (2 : ℚ) ^ (e - h).toNat = 2 ^ e / 2 ^ h := by
    rw [← zpow_natCast, Int.toNat_of_nonneg (by omega), zpow_sub₀ two_ne_zero]
  rw [Nat.cast_mul, Nat.cast_pow, Nat.cast_ofNat, hp, magnitude, mul_div_assoc]

/-- Over a common scale, magnitudes compare as their mantissas do. -/
theorem scaled_lt_iff (hg : h ≤ g) (hp : h ≤ p) : b * 2 ^ (g - h).toNat < a * 2 ^ (p - h).toNat ↔ magnitude b g < magnitude a p := by
  rw [← Nat.cast_lt (α := ℚ), cast_scaled hg, cast_scaled hp, div_lt_div_iff_of_pos_right (by positivity)]

theorem scaled_eq_iff (hg : h ≤ g) (hp : h ≤ p) : a * 2 ^ (p - h).toNat = b * 2 ^ (g - h).toNat ↔ magnitude a p = magnitude b g := by
  rw [← Nat.cast_inj (R := ℚ), cast_scaled hg, cast_scaled hp, div_left_inj' (by positivity)]

theorem greater_iff : Terms.greater a p b g ↔ magnitude b g < magnitude a p :=
  scaled_lt_iff (min_le_right ..) (min_le_left ..)

theorem isValue_fin_iff {s t : Bool} : Terms.isValue (.fin s m e) t n g ↔ s = t ∧ magnitude m e = magnitude n g := by
  rw [← scaled_eq_iff (min_le_right e g) (min_le_left e g)]
  constructor
  · rintro ⟨_, _, h, hv⟩
    cases h
    exact ⟨rfl, hv⟩
  · rintro ⟨rfl, hv⟩
    exact ⟨m, e, rfl, hv⟩

theorem exceeds_iff : exceeds r q b g = true ↔ magnitude b g < magnitude r q := by
  unfold exceeds
  split
  next h => simpa using scaled_lt_iff (a := r) (b := b) (le_refl g) h
  next h => simpa using scaled_lt_iff (a := r) (b := b) (le_of_not_ge h) (le_refl q)

theorem magnitude_two_pow (n : Nat) (q : Int) : magnitude (2 ^ n) q = 2 ^ (n + q) := by
  rw [magnitude, zpow_add₀ two_ne_zero, zpow_natCast, Nat.cast_pow, Nat.cast_ofNat]

theorem magnitude_mono (h : m ≤ n) : magnitude m q ≤ magnitude n q :=
  mul_le_mul_of_nonneg_right (Nat.cast_le.mpr h) (by positivity)

theorem magnitude_strictMono (h : m < n) : magnitude m q < magnitude n q :=
  mul_lt_mul_of_pos_right (Nat.cast_lt.mpr h) (by positivity)

end

/-! ### Rounding to a multiple of a power of two (R54) -/

@[simp] theorem roundUp_of_exact (rm : Rm) (s odd : Bool) : roundUp rm s odd 0 0 false = false := by
  cases rm <;> simp [roundUp]

/-- What is a multiple already stays. -/
theorem roundAt_of_le {e q : Int} (rm : Rm) (s : Bool) (m : Nat) (h : q ≤ e) : roundAt rm s m e q false = m * 2 ^ (e - q).toNat := by
  simp [roundAt, Int.not_lt.mpr h]

/-- When a mode rounds a magnitude up: `rem` of 2^n has been cut from it, and more where `t`. -/
def RoundsUp (rm : Rm) (s odd : Bool) (rem n : Nat) (t : Bool) : Prop :=
  match rm with
  | .rne | .satf => 2 ^ n < 2 * rem ∨ (2 * rem = 2 ^ n ∧ (t = true ∨ odd = true))
  | .rtz => False
  | .rup => (rem ≠ 0 ∨ t = true) ∧ s = false
  | .rdn => (rem ≠ 0 ∨ t = true) ∧ s = true

theorem roundUp_iff (rm : Rm) (s odd : Bool) (rem : Nat) {n : Nat} (hn : n ≠ 0) (t : Bool) :
    roundUp rm s odd rem n t = true ↔ RoundsUp rm s odd rem n t := by
  cases rm with
  | rtz | rup | rdn => simp [roundUp, RoundsUp]
  | rne | satf => cases t <;> simp [roundUp, RoundsUp, hn]

/-- Rounding chooses between the two neighbours as the mode says. -/
theorem rounds_of_parts (rm : Rm) (s : Bool) (hi rem : Nat) {n : Nat} (hn : n ≠ 0) (hrem : rem < 2 ^ n) :
    Terms.rounds rm s (hi + (roundUp rm s (hi % 2 == 1) rem n false).toNat) (hi * 2 ^ n + rem) (2 ^ n) := by
  have hup := roundUp_iff rm s (hi % 2 == 1) rem hn false
  cases hb : roundUp rm s (hi % 2 == 1) rem n false with
  | false =>
    have hdown : ¬ RoundsUp rm s (hi % 2 == 1) rem n false := by simpa [hb] using hup
    rw [Bool.toNat_false, Nat.add_zero]
    refine ⟨by omega, by omega, ?_⟩
    cases rm with
    | rne | satf => simp [RoundsUp] at hdown ⊢; omega
    | rtz => exact Nat.le_add_right ..
    | rup | rdn =>
      cases s <;> simp [RoundsUp] at hdown ⊢
      omega
  | true =>
    have hup : RoundsUp rm s (hi % 2 == 1) rem n false := hup.mp hb
    have hmul : (hi + 1) * 2 ^ n = hi * 2 ^ n + 2 ^ n := by rw [Nat.add_mul, Nat.one_mul]
    have hpos : rem ≠ 0 := by
      rintro rfl
      have := Nat.two_pow_pos n
      cases rm with
      | rne | satf =>
        simp only [RoundsUp] at hup
        omega
      | rtz => exact hup
      | rup | rdn => simp [RoundsUp] at hup
    rw [Bool.toNat_true]
    refine ⟨by omega, by omega, ?_⟩
    rw [hmul]
    cases rm with
    | rne | satf => simp [RoundsUp] at hup ⊢; omega
    | rtz => exact hup.elim
    | rup | rdn => obtain ⟨-, rfl⟩ := hup; simp; omega

/-- The multiple that a magnitude rounds to is one of its two neighbours, by the mode's rule. -/
theorem roundAt_rounds (rm : Rm) (s : Bool) (m : Nat) (e q : Int) :
    Terms.rounds rm s (roundAt rm s m e q false) (m * 2 ^ (e - min e q).toNat) (2 ^ (q - min e q).toNat) := by
  by_cases h : e < q
  · have hparts := rounds_of_parts rm s (m / 2 ^ (q - e).toNat) (m % 2 ^ (q - e).toNat) (n := (q - e).toNat) (by omega)
      (Nat.mod_lt _ (Nat.two_pow_pos _))
    rw [Nat.div_add_mod'] at hparts
    simpa [roundAt, h, min_eq_left h.le] using hparts
  · have hle : q ≤ e := Int.not_lt.mp h
    rw [roundAt_of_le rm s m hle, min_eq_right hle, Int.sub_self, Int.toNat_zero, pow_zero]
    unfold Terms.rounds
    cases rm <;> simp

/-- Bits that lie below the last kept one by at least two places round as one more bit does (R47, R54). -/
theorem roundAt_sticky (rm : Rm) (s : Bool) (m : Nat) {e q : Int} (h : e < q) :
    roundAt rm s m e q true = roundAt rm s (2 * m + 1) (e - 1) q false := by
  have hn : (q - (e - 1)).toNat = (q - e).toNat + 1 := by omega
  have hn0 : (q - e).toNat ≠ 0 := by omega
  have hmod : (2 * m + 1) % 2 ^ ((q - e).toNat + 1) = 2 * (m % 2 ^ (q - e).toNat) + 1 := by
    rw [pow_succ', Nat.mod_mul, show (2 * m + 1) / 2 = m by omega]
    omega
  have hup : ∀ odd : Bool, roundUp rm s odd (m % 2 ^ (q - e).toNat) (q - e).toNat true =
      roundUp rm s odd ((2 * m + 1) % 2 ^ ((q - e).toNat + 1)) ((q - e).toNat + 1) false := by
    intro odd
    rw [Bool.eq_iff_iff, roundUp_iff _ _ _ _ hn0, roundUp_iff _ _ _ _ (Nat.succ_ne_zero _), hmod]
    obtain ⟨j, hj⟩ := Nat.exists_eq_succ_of_ne_zero hn0
    cases rm with
    | rtz => rfl
    | rup | rdn => simp [RoundsUp]
    | rne | satf => simp only [RoundsUp, hj, pow_succ]; grind
  have hdiv : (2 * m + 1) / 2 ^ ((q - e).toNat + 1) = m / 2 ^ (q - e).toNat := by
    rw [pow_succ', ← Nat.div_div_eq_div_mul]
    congr 1
    omega
  simp only [roundAt, h, if_true, show e - 1 < q by omega, hn, hdiv, hup]

/-! ### The place of the last bit that a format keeps (R53) -/

/-- The exponent of the last bit of a format's subnormals. -/
def FFmt.lowest (f : FFmt) : Int := 1 - (f.bias : Int) - f.fb

/-- The exponent of the last kept bit of m · 2^e. -/
def FFmt.lastPlace (f : FFmt) (m : Nat) (e : Int) : Int :=
  if f.flush then (Nat.log2 m : Int) + e - f.fb else max ((Nat.log2 m : Int) + e - f.fb) f.lowest

section
variable {f : FFmt} {m : Nat} {e : Int}

theorem le_lastPlace : (Nat.log2 m : Int) + e - f.fb ≤ f.lastPlace m e := by
  unfold FFmt.lastPlace
  split
  · exact le_rfl
  · exact le_max_left ..

/-- A rounded mantissa has no more bits than the format keeps, but that it may be the next power of two. -/
theorem roundAt_le {q : Int} (rm : Rm) (s : Bool) (h : (Nat.log2 m : Int) + e - f.fb ≤ q) :
    roundAt rm s m e q false ≤ 2 ^ (f.fb + 1) := by
  have hm : m < 2 ^ (Nat.log2 m + 1) := Nat.lt_log2_self
  by_cases hq : e < q
  · have hlt : m / 2 ^ (q - e).toNat < 2 ^ (f.fb + 1) := by
      rw [Nat.div_lt_iff_lt_mul (Nat.two_pow_pos _), ← pow_add]
      exact hm.trans_le (Nat.pow_le_pow_right (by omega) (by omega))
    have hup := Bool.toNat_le (roundUp rm s (m / 2 ^ (q - e).toNat % 2 == 1) (m % 2 ^ (q - e).toNat) (q - e).toNat false)
    simp only [roundAt, hq, if_true]
    omega
  · rw [roundAt_of_le rm s m (Int.not_lt.mp hq)]
    calc m * 2 ^ (e - q).toNat ≤ 2 ^ (Nat.log2 m + 1) * 2 ^ (e - q).toNat := Nat.mul_le_mul_right _ hm.le
      _ = 2 ^ (Nat.log2 m + 1 + (e - q).toNat) := (pow_add ..).symm
      _ ≤ 2 ^ (f.fb + 1) := Nat.pow_le_pow_right (by omega) (by omega)

/-- At the place of its own leading bits, a rounded mantissa has as many bits as the format keeps. -/
theorem le_roundAt {q : Int} (rm : Rm) (s : Bool) (hm0 : m ≠ 0) (h : q = (Nat.log2 m : Int) + e - f.fb) :
    2 ^ f.fb ≤ roundAt rm s m e q false := by
  have hm : 2 ^ Nat.log2 m ≤ m := Nat.log2_self_le hm0
  by_cases hq : e < q
  · have hle : 2 ^ f.fb ≤ m / 2 ^ (q - e).toNat := by
      rw [Nat.le_div_iff_mul_le (Nat.two_pow_pos _), ← pow_add, show f.fb + (q - e).toNat = Nat.log2 m by omega]
      exact hm
    simp only [roundAt, hq, if_true]
    omega
  · rw [roundAt_of_le rm s m (Int.not_lt.mp hq)]
    calc 2 ^ f.fb = 2 ^ (Nat.log2 m + (e - q).toNat) := by congr 1; omega
      _ = 2 ^ Nat.log2 m * 2 ^ (e - q).toNat := pow_add ..
      _ ≤ m * 2 ^ (e - q).toNat := Nat.mul_le_mul_right _ hm

end

end Sys2Proof.Machine
end

section
/-! SUPPORT. The layouts of the floating-point formats: their patterns, what rounding into one gives, and that patterns round to themselves (R43 to
R46, R53 to R57). -/

namespace Sys2Proof.Machine

/-! ### Layouts and their patterns (R43 to R46) -/

/-- What the layouts have in common: a sign bit, an exponent of at least two bits, a fraction, and, where subnormals are flushed, the
bias of BF16. -/
structure FFmt.Regular (f : FFmt) : Prop where
  width : f.width = f.eb + f.fb + 1
  eb : 2 ≤ f.eb
  fb : 1 ≤ f.fb
  bias : f.flush = true → f.bias = 127

/-- A pattern from its fields. -/
def FFmt.pattern (f : FFmt) (s : Bool) (ex fr : Nat) : Nat := f.signBit s + (ex * 2 ^ f.fb + fr)

/-- The exponent field holds a finite value. -/
def FFmt.finiteAt (f : FFmt) (ex fr : Nat) : Prop :=
  if f.noInf then ¬ (ex = 2 ^ f.eb - 1 ∧ fr = 2 ^ f.fb - 1) else ex ≠ 2 ^ f.eb - 1

section
variable {f : FFmt} {s : Bool} {ex fr : Nat}

theorem signBit_eq (f : FFmt) (s : Bool) : f.signBit s = s.toNat * 2 ^ (f.width - 1) := by cases s <;> simp [FFmt.signBit]

theorem two_pow_sign (hf : f.Regular) : 2 ^ (f.width - 1) = 2 ^ f.fb * 2 ^ f.eb := by
  rw [hf.width, Nat.add_sub_cancel, Nat.add_comm, pow_add]

theorem pattern_eq (hf : f.Regular) : f.pattern s ex fr = (s.toNat * 2 ^ f.eb + ex) * 2 ^ f.fb + fr := by
  rw [FFmt.pattern, signBit_eq, two_pow_sign hf]
  ring

/-- The fields of a pattern. -/
theorem pattern_fields (hf : f.Regular) (hex : ex < 2 ^ f.eb) (hfr : fr < 2 ^ f.fb) :
    f.pattern s ex fr / 2 ^ (f.width - 1) = s.toNat ∧ f.pattern s ex fr / 2 ^ f.fb % 2 ^ f.eb = ex ∧ f.pattern s ex fr % 2 ^ f.fb = fr := by
  have hdiv : f.pattern s ex fr / 2 ^ f.fb = s.toNat * 2 ^ f.eb + ex := by
    rw [pattern_eq hf, Nat.add_comm, Nat.add_mul_div_right _ _ (Nat.two_pow_pos _), Nat.div_eq_of_lt hfr, Nat.zero_add]
  refine ⟨?_, ?_, ?_⟩
  · rw [two_pow_sign hf, ← Nat.div_div_eq_div_mul, hdiv, Nat.add_comm, Nat.add_mul_div_right _ _ (Nat.two_pow_pos _), Nat.div_eq_of_lt hex,
      Nat.zero_add]
  · rw [hdiv, Nat.add_comm, Nat.add_mul_mod_self_right, Nat.mod_eq_of_lt hex]
  · rw [pattern_eq hf, Nat.add_comm, Nat.add_mul_mod_self_right, Nat.mod_eq_of_lt hfr]

/-- Every pattern of the format's width is one of fields. -/
theorem exists_pattern (hf : f.Regular) {a : Nat} (ha : a < 2 ^ f.width) :
    ∃ s ex fr, ex < 2 ^ f.eb ∧ fr < 2 ^ f.fb ∧ a = f.pattern s ex fr := by
  have hlt : a / 2 ^ f.fb / 2 ^ f.eb < 2 := by
    rw [Nat.div_div_eq_div_mul, ← two_pow_sign hf, Nat.div_lt_iff_lt_mul (Nat.two_pow_pos _), ← pow_succ', hf.width]
    exact hf.width ▸ ha
  have hsign : (a / 2 ^ f.fb / 2 ^ f.eb == 1).toNat = a / 2 ^ f.fb / 2 ^ f.eb := by
    interval_cases a / 2 ^ f.fb / 2 ^ f.eb <;> rfl
  refine ⟨a / 2 ^ f.fb / 2 ^ f.eb == 1, a / 2 ^ f.fb % 2 ^ f.eb, a % 2 ^ f.fb, Nat.mod_lt _ (Nat.two_pow_pos _),
    Nat.mod_lt _ (Nat.two_pow_pos _), ?_⟩
  rw [pattern_eq hf, hsign, Nat.div_add_mod', Nat.div_add_mod']

/-- A pattern below the reserved ones is the finite value of its fields. -/
theorem decode_pattern (hf : f.Regular) (hex : ex < 2 ^ f.eb) (hfr : fr < 2 ^ f.fb) (hfin : f.finiteAt ex fr) :
    f.decode (f.pattern s ex fr) = if ex = 0 then .fin s (if f.flush then 0 else fr) (1 - (f.bias : Int) - f.fb)
      else .fin s (2 ^ f.fb + fr) ((ex : Int) - f.bias - f.fb) := by
  obtain ⟨hs, he, hfrac⟩ := pattern_fields (s := s) hf hex hfr
  have hsign : (s.toNat % 2 == 1) = s := by cases s <;> rfl
  simp only [FFmt.decode, hs, hsign, he, hfrac]
  unfold FFmt.finiteAt at hfin
  cases hn : f.noInf <;> simp_all

end

/-! ### From a rounded mantissa to its pattern (R53 to R57) -/

/-- The pattern of r · 2^q for a mantissa that the format can hold, or what takes its place. -/
def FFmt.pack (f : FFmt) (rm : Rm) (s : Bool) (r : Nat) (q : Int) : Nat :=
  if exceeds r q f.maxMant f.maxExp then f.overflow rm s
  else if r < 2 ^ f.fb then f.signBit s + r
  else if q < f.lowest then f.signBit s
  else f.signBit s + (q - f.lowest + 1).toNat * 2 ^ f.fb + (r - 2 ^ f.fb)

/-- A mantissa that has been rounded up to the next power of two loses a bit. -/
def FFmt.carry (f : FFmt) (r : Nat) (q : Int) : Nat × Int := if r = 2 ^ (f.fb + 1) then (2 ^ f.fb, q + 1) else (r, q)

theorem round_eq_pack {f : FFmt} {rm : Rm} {s : Bool} {m : Nat} {e : Int} {t : Bool} (hm : m ≠ 0) {r : Nat} {q : Int}
    (hc : f.carry (roundAt rm s m e (f.lastPlace m e) t) (f.lastPlace m e) = (r, q)) : f.round rm s m e t = f.pack rm s r q := by
  have h : f.round rm s m e t = (let c := f.carry (roundAt rm s m e (f.lastPlace m e) t) (f.lastPlace m e); f.pack rm s c.1 c.2) := if_neg hm
  rw [h, hc]

@[simp] theorem round_zero (f : FFmt) (rm : Rm) (s : Bool) (e : Int) (t : Bool) : f.round rm s 0 e t = f.signBit s := if_pos rfl

/-- r · 2^q as the format keeps it before it looks at its range: a full mantissa, or, but for BF16, one at the lowest place. -/
def FFmt.Kept (f : FFmt) (r : Nat) (q : Int) : Prop :=
  r < 2 ^ (f.fb + 1) ∧ if f.flush then 2 ^ f.fb ≤ r else f.lowest ≤ q ∧ (r < 2 ^ f.fb → q = f.lowest)

theorem magnitude_carry (f : FFmt) (r : Nat) (q : Int) : magnitude (f.carry r q).1 (f.carry r q).2 = magnitude r q := by
  unfold FFmt.carry
  split
  next h =>
    subst h
    rw [magnitude_two_pow, magnitude_two_pow]
    congr 1
    push_cast
    ring
  next => rfl

theorem kept_carry {f : FFmt} (rm : Rm) (s : Bool) {m : Nat} (e : Int) (hm : m ≠ 0) :
    let c := f.carry (roundAt rm s m e (f.lastPlace m e) false) (f.lastPlace m e)
    f.Kept c.1 c.2 := by
  have hle := roundAt_le (f := f) (m := m) (e := e) rm s le_lastPlace
  have hge : f.lastPlace m e = (Nat.log2 m : Int) + e - f.fb → 2 ^ f.fb ≤ roundAt rm s m e (f.lastPlace m e) false :=
    le_roundAt rm s hm
  have hpow : 2 ^ (f.fb + 1) = 2 * 2 ^ f.fb := pow_succ' ..
  have hpos := Nat.two_pow_pos f.fb
  have hplace : f.flush = false → f.lowest ≤ f.lastPlace m e ∧
      (f.lastPlace m e ≠ f.lowest → f.lastPlace m e = (Nat.log2 m : Int) + e - f.fb) := by
    intro hf
    simp only [FFmt.lastPlace, hf, Bool.false_eq_true, if_false]
    omega
  have hflush : f.flush = true → f.lastPlace m e = (Nat.log2 m : Int) + e - f.fb := fun hf => by simp [FFmt.lastPlace, hf]
  generalize roundAt rm s m e (f.lastPlace m e) false = r at hle hge ⊢
  generalize f.lastPlace m e = q at hge hplace hflush ⊢
  unfold FFmt.carry FFmt.Kept
  cases hf : f.flush with
  | true =>
    have := hge (hflush hf)
    split <;> simp <;> omega
  | false =>
    obtain ⟨hlo, hq⟩ := hplace hf
    have hfull : r < 2 ^ f.fb → q = f.lowest := fun hr => by
      by_contra hne
      exact absurd (hge (hq hne)) (Nat.not_le.mpr hr)
    split
    · exact ⟨by dsimp only; omega, by dsimp only; omega, fun h => absurd h (lt_irrefl _)⟩
    · exact ⟨by dsimp only; omega, hlo, hfull⟩

section
variable {f : FFmt} (hf : f.Regular) {r : Nat} {q : Int}
include hf

/-- Up to the largest finite value, a full mantissa has a finite pattern. -/
theorem finiteAt_of_fits (hr : 2 ^ f.fb ≤ r) (hr' : r < 2 ^ (f.fb + 1)) (hlo : f.lowest ≤ q)
    (hfit : ¬ magnitude f.maxMant f.maxExp < magnitude r q) :
    (q - f.lowest + 1).toNat < 2 ^ f.eb ∧ f.finiteAt (q - f.lowest + 1).toNat (r - 2 ^ f.fb) := by
  have hmant : f.maxMant < 2 ^ (f.fb + 1) := by
    have := Nat.two_pow_pos (f.fb + 1)
    unfold FFmt.maxMant
    split <;> omega
  have hq : q ≤ f.maxExp := by
    by_contra hq
    refine hfit ?_
    calc magnitude f.maxMant f.maxExp < magnitude (2 ^ (f.fb + 1)) f.maxExp := magnitude_strictMono hmant
      _ = 2 ^ (((f.fb + 1 : Nat) : Int) + f.maxExp) := magnitude_two_pow ..
      _ ≤ 2 ^ ((f.fb : Int) + q) := zpow_le_zpow_right₀ one_le_two (by push_cast; omega)
      _ = magnitude (2 ^ f.fb) q := (magnitude_two_pow ..).symm
      _ ≤ magnitude r q := magnitude_mono hr
  have hcast : ((2 ^ f.eb : Nat) : Int) = 2 ^ f.eb := by push_cast; rfl
  have htwice : r < 2 * 2 ^ f.fb := pow_succ' 2 f.fb ▸ hr'
  have heb : 2 ^ 2 ≤ 2 ^ f.eb := Nat.pow_le_pow_right (by omega) hf.eb
  unfold FFmt.finiteAt
  unfold FFmt.lowest at *
  cases hn : f.noInf with
  | false =>
    simp only [FFmt.maxExp, hn, Bool.false_eq_true, if_false] at hq ⊢
    omega
  | true =>
    have hlast : q = f.maxExp → r ≤ f.maxMant := by
      rintro rfl
      by_contra h
      exact hfit (magnitude_strictMono (Nat.not_le.mp h))
    simp only [FFmt.maxExp, FFmt.maxMant, hn, if_true, pow_succ'] at hq hlast ⊢
    omega

/-- A kept mantissa within the range decodes to itself. -/
theorem decode_pack (rm : Rm) (s : Bool) (hk : f.Kept r q) (hfit : ¬ magnitude f.maxMant f.maxExp < magnitude r q) (hlo : f.lowest ≤ q) :
    f.decode (f.pack rm s r q) = .fin s r q := by
  have ⟨hr', hplace⟩ := hk
  have heb : 2 ^ 2 ≤ 2 ^ f.eb := Nat.pow_le_pow_right (by omega) hf.eb
  rw [FFmt.pack, if_neg (mt exceeds_iff.mp hfit)]
  by_cases hr : r < 2 ^ f.fb
  · obtain ⟨hfl, rfl⟩ : f.flush = false ∧ q = f.lowest := by
      cases hfl : f.flush with
      | true => exact absurd ((if_pos hfl).mp hplace) (Nat.not_le.mpr hr)
      | false => exact ⟨rfl, ((if_neg (by simp [hfl])).mp hplace).2 hr⟩
    have hfin : f.finiteAt 0 r := by
      unfold FFmt.finiteAt
      split <;> omega
    have hpat : f.signBit s + r = f.pattern s 0 r := by simp [FFmt.pattern]
    rw [if_pos hr, hpat, decode_pattern hf (by omega) hr hfin, if_pos rfl, hfl]
    rfl
  · have hpow : 2 ^ (f.fb + 1) = 2 * 2 ^ f.fb := pow_succ' ..
    obtain ⟨hex, hfin⟩ := finiteAt_of_fits hf (Nat.not_lt.mp hr) hr' hlo hfit
    rw [if_neg hr, if_neg (Int.not_lt.mpr hlo), Nat.add_assoc]
    refine (decode_pattern hf hex (by omega) hfin).trans ?_
    rw [if_neg (by omega)]
    congr 1
    · omega
    · unfold FFmt.lowest at *
      omega

/-- BF16: what lies below the normal range, and only that, is below the lowest place. -/
theorem lt_lowest_iff (hfl : f.flush = true) (hk : f.Kept r q) : q < f.lowest ↔ magnitude r q < magnitude 1 (-126) := by
  obtain ⟨hr', hr⟩ := hk
  rw [if_pos hfl] at hr
  have hone : magnitude 1 (-126) = 2 ^ ((f.fb : Int) + f.lowest) := by
    rw [FFmt.lowest, hf.bias hfl]
    simp [magnitude]
  rw [hone]
  constructor
  · intro hq
    calc magnitude r q < magnitude (2 ^ (f.fb + 1)) q := magnitude_strictMono hr'
      _ = 2 ^ (((f.fb + 1 : Nat) : Int) + q) := magnitude_two_pow ..
      _ ≤ 2 ^ ((f.fb : Int) + f.lowest) := zpow_le_zpow_right₀ one_le_two (by push_cast; omega)
  · intro h
    by_contra hq
    refine absurd h (not_lt.mpr ?_)
    calc (2 : ℚ) ^ ((f.fb : Int) + f.lowest) ≤ 2 ^ ((f.fb : Int) + q) := zpow_le_zpow_right₀ one_le_two (by omega)
      _ = magnitude (2 ^ f.fb) q := (magnitude_two_pow ..).symm
      _ ≤ magnitude r q := magnitude_mono hr

end

section
variable {f : FFmt} (hf : f.Regular)
include hf

/-- What rounding gives: past the largest finite value an overflow, below BF16's normal range a zero, and else the rounded value. -/
theorem round_spec (rm : Rm) (s : Bool) {m : Nat} (e : Int) (hm : m ≠ 0) :
    let q := f.lastPlace m e
    let k := roundAt rm s m e q false
    let big := Terms.greater k q f.maxMant f.maxExp
    (big → f.round rm s m e false = f.overflow rm s) ∧
    (¬ big → f.flush = true → Terms.greater 1 (-126) k q → f.round rm s m e false = f.signBit s) ∧
    (¬ big → ¬ (f.flush = true ∧ Terms.greater 1 (-126) k q) → Terms.isValue (f.decode (f.round rm s m e false)) s k q) := by
  intro q k big
  have hmag : magnitude _ _ = magnitude k q := magnitude_carry f k q
  have hk : f.Kept _ _ := kept_carry rm s e hm
  have hround : f.round rm s m e false = f.pack rm s (f.carry k q).1 (f.carry k q).2 := round_eq_pack hm rfl
  rw [hround]
  simp only [big, greater_iff, ← hmag]
  generalize (f.carry k q).1 = r at hmag hk ⊢
  generalize (f.carry k q).2 = p at hmag hk ⊢
  refine ⟨fun hbig => if_pos (exceeds_iff.mpr hbig), fun hfit hfl hsmall => ?_, fun hfit hkeep => ?_⟩
  · have hr : ¬ r < 2 ^ f.fb := Nat.not_lt.mpr ((if_pos hfl).mp hk.2)
    rw [FFmt.pack, if_neg (mt exceeds_iff.mp hfit), if_neg hr, if_pos ((lt_lowest_iff hf hfl hk).mpr hsmall)]
  · have hlo : f.lowest ≤ p := by
      by_cases hfl : f.flush = true
      · exact Int.not_lt.mp fun h => hkeep ⟨hfl, (lt_lowest_iff hf hfl hk).mp h⟩
      · exact ((if_neg hfl).mp hk.2).1
    rw [decode_pack hf rm s hk hfit hlo, isValue_fin_iff]
    exact ⟨rfl, hmag⟩

omit hf in
/-- A magnitude whose bits go on rounds as one with a further bit does. -/
theorem round_sticky (f : FFmt) (rm : Rm) (s : Bool) {m : Nat} (e : Int) (h : f.fb + 1 ≤ Nat.log2 m) :
    f.round rm s m e true = f.round rm s (2 * m + 1) (e - 1) false := by
  have hm : m ≠ 0 := by
    rintro rfl
    simp at h
  have hlog : Nat.log2 (2 * m + 1) = Nat.log2 m + 1 := by
    have hle : 2 ^ Nat.log2 m ≤ m := Nat.log2_self_le hm
    have hlt : m < 2 ^ (Nat.log2 m + 1) := Nat.lt_log2_self
    rw [Nat.log2_eq_iff (Nat.succ_ne_zero _)]
    constructor
    · rw [pow_succ]
      omega
    · rw [pow_succ]
      omega
  have hplace : f.lastPlace (2 * m + 1) (e - 1) = f.lastPlace m e := by
    have hsum : ((Nat.log2 m + 1 : Nat) : Int) + (e - 1) = Nat.log2 m + e := by push_cast; ring
    rw [FFmt.lastPlace, hlog, hsum]
    rfl
  have hlt : e < f.lastPlace m e := by
    have := le_lastPlace (f := f) (m := m) (e := e)
    omega
  rw [round_eq_pack hm rfl, round_eq_pack (Nat.succ_ne_zero _) rfl, hplace, roundAt_sticky rm s m hlt]

/-! ### Patterns round to themselves (R44, R46, R53) -/

theorem two_pow_le_maxMant : 2 ^ f.fb ≤ f.maxMant := by
  have hfb : 2 ^ 1 ≤ 2 ^ f.fb := Nat.pow_le_pow_right (by omega) hf.fb
  have hpow : 2 ^ (f.fb + 1) = 2 * 2 ^ f.fb := pow_succ' ..
  unfold FFmt.maxMant
  split <;> omega

/-- A full mantissa at a place below that of the largest finite value, or one no greater at its place, is in the range. -/
theorem fits_of_le {m : Nat} {e : Int} (hm : m < 2 ^ (f.fb + 1)) (he : e ≤ f.maxExp) (hlast : e = f.maxExp → m ≤ f.maxMant) :
    ¬ magnitude f.maxMant f.maxExp < magnitude m e := by
  refine not_lt.mpr ?_
  obtain rfl | hlt := he.eq_or_lt
  · exact magnitude_mono (hlast rfl)
  · calc magnitude m e ≤ magnitude (2 ^ (f.fb + 1)) e := magnitude_mono hm.le
      _ = 2 ^ (((f.fb + 1 : Nat) : Int) + e) := magnitude_two_pow ..
      _ ≤ 2 ^ ((f.fb : Int) + f.maxExp) := zpow_le_zpow_right₀ one_le_two (by push_cast; omega)
      _ = magnitude (2 ^ f.fb) f.maxExp := (magnitude_two_pow ..).symm
      _ ≤ magnitude f.maxMant f.maxExp := magnitude_mono (two_pow_le_maxMant hf)

omit hf in
/-- What the format keeps as it is needs no rounding. -/
theorem round_of_kept (rm : Rm) (s : Bool) {m : Nat} {e : Int} (hm : m ≠ 0) (hk : f.Kept m e) : f.round rm s m e false = f.pack rm s m e := by
  obtain ⟨hlt, hk⟩ := hk
  have hlog : 2 ^ f.fb ≤ m → Nat.log2 m = f.fb := fun h => (Nat.log2_eq_iff hm).mpr ⟨h, hlt⟩
  have hlow : m < 2 ^ f.fb → Nat.log2 m < f.fb := (Nat.log2_lt hm).mpr
  have hplace : f.lastPlace m e = e := by
    by_cases hfl : f.flush = true
    · rw [if_pos hfl] at hk
      simp only [FFmt.lastPlace, hfl, if_true, hlog hk]
      omega
    · rw [if_neg hfl] at hk
      obtain ⟨hlo, hsub⟩ := hk
      simp only [FFmt.lastPlace, hfl, Bool.false_eq_true, if_false]
      by_cases hr : m < 2 ^ f.fb
      · have := hsub hr
        have := hlow hr
        omega
      · have := hlog (Nat.not_lt.mp hr)
        omega
  refine round_eq_pack hm ?_
  rw [hplace, roundAt_of_le rm s m le_rfl, Int.sub_self, Int.toNat_zero, pow_zero, Nat.mul_one, FFmt.carry, if_neg hlt.ne]

/-- The value of a pattern with an exponent field above 0 rounds to that pattern. -/
theorem round_normal (rm : Rm) (s : Bool) {ex fr : Nat} (hex : ex < 2 ^ f.eb) (h0 : ex ≠ 0) (hfr : fr < 2 ^ f.fb) (hfin : f.finiteAt ex fr) :
    f.round rm s (2 ^ f.fb + fr) ((ex : Int) - f.bias - f.fb) false = f.pattern s ex fr := by
  have hpow : 2 ^ (f.fb + 1) = 2 * 2 ^ f.fb := pow_succ' ..
  have hpos := Nat.two_pow_pos f.fb
  have hcast : ((2 ^ f.eb : Nat) : Int) = 2 ^ f.eb := by push_cast; rfl
  have hk : f.Kept (2 ^ f.fb + fr) ((ex : Int) - f.bias - f.fb) := by
    refine ⟨by omega, ?_⟩
    unfold FFmt.lowest
    split <;> omega
  have hfit : ¬ magnitude f.maxMant f.maxExp < magnitude (2 ^ f.fb + fr) ((ex : Int) - f.bias - f.fb) := by
    unfold FFmt.finiteAt at hfin
    cases hn : f.noInf with
    | false =>
      simp only [hn, Bool.false_eq_true, if_false] at hfin
      refine fits_of_le hf (by omega) ?_ ?_ <;> simp only [FFmt.maxExp, FFmt.maxMant, hn, Bool.false_eq_true, if_false] <;> omega
    | true =>
      simp only [hn, if_true] at hfin
      refine fits_of_le hf (by omega) ?_ ?_ <;> simp only [FFmt.maxExp, FFmt.maxMant, hn, if_true] <;> omega
  rw [round_of_kept rm s (by omega) hk, FFmt.pack, if_neg (mt exceeds_iff.mp hfit), if_neg (by omega),
    if_neg (by unfold FFmt.lowest; omega), FFmt.pattern, Nat.add_assoc]
  congr 3
  · unfold FFmt.lowest
    omega
  · omega

/-- The value of a subnormal pattern rounds to that pattern, where the format has subnormals. -/
theorem round_subnormal (rm : Rm) (s : Bool) {fr : Nat} (hfl : f.flush = false) (hfr : fr < 2 ^ f.fb) :
    f.round rm s fr (1 - (f.bias : Int) - f.fb) false = f.pattern s 0 fr := by
  change f.round rm s fr f.lowest false = _
  have hpat : f.pattern s 0 fr = f.signBit s + fr := by simp [FFmt.pattern]
  rw [hpat]
  by_cases h0 : fr = 0
  · rw [h0, round_zero, Nat.add_zero]
  · have hpow : 2 ^ (f.fb + 1) = 2 * 2 ^ f.fb := pow_succ' ..
    have heb : 2 ^ 2 ≤ 2 ^ f.eb := Nat.pow_le_pow_right (by omega) hf.eb
    have hcast : ((2 ^ f.eb : Nat) : Int) = 2 ^ f.eb := by push_cast; rfl
    have hlow : f.lowest < f.maxExp := by
      unfold FFmt.lowest FFmt.maxExp
      split <;> omega
    have hfit := fits_of_le hf (m := fr) (by omega) hlow.le fun h => absurd h hlow.ne
    rw [round_of_kept rm s h0 ⟨by omega, by simp [hfl]⟩, FFmt.pack, if_neg (mt exceeds_iff.mp hfit), if_pos hfr]

omit hf in
/-- A reserved pattern is an infinity or a NaN (R45). -/
theorem decode_reserved (hf : f.Regular) {s : Bool} {ex fr : Nat} (hex : ex < 2 ^ f.eb) (hfr : fr < 2 ^ f.fb) (hres : ¬ f.finiteAt ex fr) :
    ex = 2 ^ f.eb - 1 ∧ f.decode (f.pattern s ex fr) = if f.noInf = false ∧ fr = 0 then .inf s else .nan := by
  obtain ⟨hs, he, hfrac⟩ := pattern_fields (s := s) hf hex hfr
  have hsign : (s.toNat % 2 == 1) = s := by cases s <;> rfl
  simp only [FFmt.decode, hs, hsign, he, hfrac]
  unfold FFmt.finiteAt at hres
  cases hn : f.noInf with
  | false =>
    have hlast : ex = 2 ^ f.eb - 1 := by simpa [hn] using hres
    simp [hlast]
  | true =>
    have hlast : ex = 2 ^ f.eb - 1 ∧ fr = 2 ^ f.fb - 1 := by simpa [hn] using hres
    simp [hlast]

/-- A pattern that is no NaN encodes to itself, a subnormal of BF16 to its zero. -/
theorem encode_decode {rm : Rm} (hrm : rm ≠ .satf) {a : Nat} (ha : a < 2 ^ f.width) (hnan : f.decode a ≠ .nan) :
    f.encode rm (f.decode a) =
      if f.flush = true ∧ a / 2 ^ f.fb % 2 ^ f.eb = 0 then a / 2 ^ (f.width - 1) * 2 ^ (f.width - 1) else a := by
  obtain ⟨s, ex, fr, hex, hfr, rfl⟩ := exists_pattern hf ha
  obtain ⟨hs, he, -⟩ := pattern_fields (s := s) hf hex hfr
  have heb : 2 ^ 2 ≤ 2 ^ f.eb := Nat.pow_le_pow_right (by omega) hf.eb
  rw [he, hs, ← signBit_eq]
  by_cases hfin : f.finiteAt ex fr
  · rw [decode_pattern hf hex hfr hfin]
    by_cases h0 : ex = 0
    · subst h0
      cases hfl : f.flush with
      | false => simpa [FFmt.encode] using round_subnormal hf rm s hfl hfr
      | true => exact round_zero ..
    · simpa [FFmt.encode, h0] using round_normal hf rm s hex h0 hfr hfin
  · obtain ⟨rfl, hdec⟩ := decode_reserved hf (s := s) hex hfr hfin
    have h0 : 2 ^ f.eb - 1 ≠ 0 := by omega
    rw [hdec] at hnan ⊢
    split at hnan
    next hinf =>
      obtain ⟨hn, rfl⟩ := hinf
      rw [if_pos ⟨hn, rfl⟩, if_neg (by simp [h0])]
      simp [FFmt.encode, hrm, FFmt.infPat, FFmt.pattern, hn]
    next => exact absurd rfl hnan

end

end Sys2Proof.Machine
end

section
/-! PROOFS of the family of the number formats: the floating-point operations (R55 to R58, R161, R162). -/

namespace Sys2Proof.Machine

/-! ### Overflow and signs (R55 to R57) -/

/-- A magnitude's pattern with a sign. -/
def FFmt.signed (f : FFmt) (s : Bool) (x : Nat) : Nat := if s then 2 ^ (f.width - 1) + x else x

theorem signBit_add (f : FFmt) (s : Bool) (x : Nat) : f.signBit s + x = f.signed s x := by cases s <;> simp [FFmt.signBit, FFmt.signed]

theorem signBit_eq_signed (f : FFmt) (s : Bool) : f.signBit s = f.signed s 0 := signBit_add f s 0

theorem infPat_eq_signed (f : FFmt) (s : Bool) : f.infPat s = f.signed s (f.infPat false) := by
  rw [← signBit_add]
  simp [FFmt.infPat, FFmt.signBit]

theorem overflow_eq (f : FFmt) (rm : Rm) (s : Bool) : f.overflow rm s = match rm with
    | .rne => f.signed s (f.infPat false)
    | .rtz | .satf => f.signed s f.maxPat
    | .rup => if s then f.signed s f.maxPat else f.infPat false
    | .rdn => if s then f.signed s (f.infPat false) else f.maxPat := by
  have h : f.overflow rm s = if (match rm with
    | .rne => true
    | .rtz => false
    | .rup => !s
    | .rdn => s
    | .satf => false) = true then f.infPat s else f.signBit s + f.maxPat := rfl
  rw [h, infPat_eq_signed, signBit_add]
  cases rm with
  | rne | rtz | satf => rfl
  | rup | rdn => cases s <;> rfl

/-! ### Sums, products and FMAC (R58, R162) -/

section
variable (f : FFmt) (rm : Rm)

theorem encode_inf {rm : Rm} (h : rm ≠ .satf) (s : Bool) : f.encode rm (.inf s) = f.signed s (f.infPat false) := by
  rw [FFmt.encode, if_neg h, infPat_eq_signed]

theorem FV.add_of_nan {x y : FV} (h : x = .nan ∨ y = .nan) : x.add rm y = .nan := by
  obtain rfl | rfl := h
  · rfl
  · cases x <;> rfl

theorem FV.mul_of_nan {x y : FV} (h : x = .nan ∨ y = .nan) : x.mul y = .nan := by
  obtain rfl | rfl := h
  · rfl
  · cases x <;> rfl

theorem FV.neg_of_nan {x y : FV} (h : x = .nan ∨ y = .nan) : x = .nan ∨ y.neg = .nan := h.imp id fun h => by rw [h]; rfl

theorem div_of_nan {x y : FV} (h : x = .nan ∨ y = .nan) : f.div rm x y = f.nan := by
  obtain rfl | rfl := h
  · rfl
  · cases x <;> rfl

/-- The exact sum of two finite values, in units of the lower of their places. -/
def exactSum (s : Bool) (m : Nat) (e : Int) (t : Bool) (n : Nat) (g : Int) : Int :=
  (FV.fin s m e).scaled (min e g) + (FV.fin t n g).scaled (min e g)

theorem encode_add (s t : Bool) (m n : Nat) (e g : Int) :
    f.encode rm ((FV.fin s m e).add rm (.fin t n g)) = Terms.summed f rm s m e t n g := by
  have hadd : (FV.fin s m e).add rm (.fin t n g) = if exactSum s m e t n g = 0 then
      .fin (zeroSign rm (if m = 0 ∧ n = 0 ∧ s = t then some s else none)) 0 (min e g)
    else .fin (decide (exactSum s m e t n g < 0)) (exactSum s m e t n g).natAbs (min e g) := rfl
  have hsum : Terms.summed f rm s m e t n g = if exactSum s m e t n g = 0 then
      f.signBit (if m = 0 ∧ n = 0 ∧ s = t then s else rm == .rdn)
    else f.round rm (decide (exactSum s m e t n g < 0)) (exactSum s m e t n g).natAbs (min e g) false := rfl
  rw [hadd, hsum, apply_ite (f.encode rm)]
  refine ite_congr rfl (fun _ => (round_zero ..).trans ?_) fun _ => rfl
  split <;> rfl

end

/-! ### Quotients (R47, R67) -/

/-- A quotient rounds from enough of its bits, with a further bit for what is left. -/
theorem div_of_ne_zero (f : FFmt) (rm : Rm) (s t : Bool) {m n : Nat} (e g : Int) (hn : n ≠ 0) (hm : m ≠ 0) :
    ∃ k : Nat, f.fb + 1 ≤ Nat.log2 (m * 2 ^ k / n) ∧ f.div rm (.fin s m e) (.fin t n g) =
      f.round rm (s != t) (m * 2 ^ k / n) (e - g - k) (decide (m * 2 ^ k % n ≠ 0)) := by
  refine ⟨f.fb + 4 + Nat.log2 n, ?_, ?_⟩
  · have hn' : n < 2 ^ (Nat.log2 n + 1) := Nat.lt_log2_self
    have hle : 2 ^ (f.fb + 1) ≤ m * 2 ^ (f.fb + 4 + Nat.log2 n) / n := by
      rw [Nat.le_div_iff_mul_le (Nat.pos_of_ne_zero hn)]
      calc 2 ^ (f.fb + 1) * n ≤ 2 ^ (f.fb + 1) * 2 ^ (Nat.log2 n + 1) := Nat.mul_le_mul_left _ hn'.le
        _ = 2 ^ (f.fb + 1 + (Nat.log2 n + 1)) := (pow_add ..).symm
        _ ≤ 2 ^ (f.fb + 4 + Nat.log2 n) := Nat.pow_le_pow_right (by omega) (by omega)
        _ ≤ m * 2 ^ (f.fb + 4 + Nat.log2 n) := Nat.le_mul_of_pos_left _ (Nat.pos_of_ne_zero hm)
    exact (Nat.le_log2 (by have := Nat.two_pow_pos (f.fb + 1); omega)).mpr hle
  · have hrem : ∀ x : Nat, (x != 0) = decide (x ≠ 0) := fun x => by rw [Bool.eq_iff_iff]; simp
    simp only [FFmt.div, hn, hm, if_false, hrem]

/-! ### Roots (R162) -/

theorem isqrt_spec (x : Nat) : ∀ n r, r * r ≤ x → x < (r + 2 ^ (n + 1)) * (r + 2 ^ (n + 1)) →
    isqrt x n r * isqrt x n r ≤ x ∧ x < (isqrt x n r + 1) * (isqrt x n r + 1) := by
  intro n
  induction n with
  | zero =>
    intro r hlo hhi
    unfold isqrt
    split
    next h => exact ⟨h, hhi⟩
    next h => exact ⟨hlo, Nat.not_le.mp h⟩
  | succ n ih =>
    intro r hlo hhi
    unfold isqrt
    split
    next h =>
      refine ih _ h ?_
      rwa [Nat.add_assoc, ← Nat.two_mul, ← pow_succ']
    next h => exact ih _ hlo (Nat.not_le.mp h)

/-- The integer root of a number, from above its highest bit down. -/
theorem isqrt_log2_spec {x r : Nat} (h : isqrt x (Nat.log2 x / 2 + 1) 0 = r) : r * r ≤ x ∧ x < (r + 1) * (r + 1) := by
  subst h
  refine isqrt_spec x _ 0 (Nat.zero_le _) ?_
  calc x < 2 ^ (Nat.log2 x + 1) := Nat.lt_log2_self
    _ ≤ 2 ^ ((Nat.log2 x / 2 + 1 + 1) + (Nat.log2 x / 2 + 1 + 1)) := Nat.pow_le_pow_right (by omega) (by omega)
    _ = (0 + 2 ^ (Nat.log2 x / 2 + 1 + 1)) * (0 + 2 ^ (Nat.log2 x / 2 + 1 + 1)) := by rw [pow_add, Nat.zero_add]

/-- The root of a number with twice the bits of a mantissa has more bits than one. -/
theorem le_log2_of_root {b x r : Nat} (hx : 2 ^ (b + 1) * 2 ^ (b + 1) ≤ x) (hr : x < (r + 1) * (r + 1)) : b + 1 ≤ Nat.log2 r := by
  have hlt : 2 ^ (b + 1) < r + 1 := Nat.mul_self_lt_mul_self_iff.mp (hx.trans_lt hr)
  have hpos := Nat.two_pow_pos (b + 1)
  exact (Nat.le_log2 (by omega)).mpr (Nat.lt_succ_iff.mp hlt)

theorem sqrt_spec (f : FFmt) (rm : Rm) {m : Nat} (e : Int) (hm : m ≠ 0) :
    ∃ (r j : Nat) (k : Int), r * r ≤ m * 2 ^ j ∧ m * 2 ^ j < (r + 1) * (r + 1) ∧ e - j = 2 * k ∧ f.fb + 1 ≤ Nat.log2 r ∧
      f.sqrt rm (.fin false m e) = f.round rm false r k (decide (r * r ≠ m * 2 ^ j)) := by
  have hbne : ∀ x y : Nat, (x != y) = decide (x ≠ y) := fun x y => by rw [Bool.eq_iff_iff]; simp
  have hroot : ∀ n, n ≠ 0 → ∃ r, isqrt (n * 2 ^ (2 * (f.fb + 4))) (Nat.log2 (n * 2 ^ (2 * (f.fb + 4))) / 2 + 1) 0 = r ∧
      r * r ≤ n * 2 ^ (2 * (f.fb + 4)) ∧ n * 2 ^ (2 * (f.fb + 4)) < (r + 1) * (r + 1) ∧ f.fb + 1 ≤ Nat.log2 r := by
    intro n hn
    obtain ⟨hlo, hhi⟩ := isqrt_log2_spec (x := n * 2 ^ (2 * (f.fb + 4))) rfl
    refine ⟨_, rfl, hlo, hhi, le_log2_of_root ?_ hhi⟩
    calc 2 ^ (f.fb + 1) * 2 ^ (f.fb + 1) = 2 ^ (f.fb + 1 + (f.fb + 1)) := (pow_add ..).symm
      _ ≤ 2 ^ (2 * (f.fb + 4)) := Nat.pow_le_pow_right (by omega) (by omega)
      _ ≤ n * 2 ^ (2 * (f.fb + 4)) := Nat.le_mul_of_pos_left _ (Nat.pos_of_ne_zero hn)
  by_cases he : e % 2 = 0
  · obtain ⟨r, hr, hlo, hhi, hlog⟩ := hroot m hm
    refine ⟨r, 2 * (f.fb + 4), e / 2 - (f.fb + 4 : Nat), hlo, hhi, by push_cast; omega, hlog, ?_⟩
    simp only [FFmt.sqrt, hm, he, if_true, if_false, Bool.false_eq_true, hr, hbne]
  · obtain ⟨r, hr, hlo, hhi, hlog⟩ := hroot (2 * m) (by omega)
    have hx : m * 2 ^ (2 * (f.fb + 4) + 1) = 2 * m * 2 ^ (2 * (f.fb + 4)) := by ring
    refine ⟨r, 2 * (f.fb + 4) + 1, (e - 1) / 2 - (f.fb + 4 : Nat), hx ▸ hlo, hx ▸ hhi, by push_cast; omega, hlog, ?_⟩
    simp only [FFmt.sqrt, hm, he, if_false, Bool.false_eq_true, hr, hbne, hx]

/-! ### Comparisons, FMIN and FMAX (R162) -/

/-- A natural number with a sign. -/
def signedInt (s : Bool) (a : Nat) : Int := (if s then -1 else 1) * (a : Int)

theorem signedInt_lt_iff {s t : Bool} {a b : Nat} :
    signedInt s a < signedInt t b ↔ if s = t then (if s then b < a else a < b) else s = true ∧ ¬ (a = 0 ∧ b = 0) := by
  cases s <;> cases t <;> grind [signedInt]

theorem signedInt_eq_iff {s t : Bool} {a b : Nat} : signedInt s a = signedInt t b ↔ (s = t ∧ a = b) ∨ (a = 0 ∧ b = 0) := by
  cases s <;> cases t <;> grind [signedInt]

/-- One finite value is less than another, of which not both are zeros. -/
def Less (s : Bool) (m : Nat) (e : Int) (t : Bool) (n : Nat) (g : Int) : Prop :=
  if s = t then (if s then Terms.greater m e n g else Terms.greater n g m e) else s = true

section
variable {s t : Bool} {m n : Nat} {e g : Int}

theorem lt_zeros (s t : Bool) (e g : Int) : (FV.fin s 0 e).lt (.fin t 0 g) = (s && !t) := by
  simp [FV.lt, FV.scaled]

theorem eq_zeros (s t : Bool) (e g : Int) : (FV.fin s 0 e).eq (.fin t 0 g) = true := by
  simp [FV.eq, FV.scaled]

variable (h : ¬ (m = 0 ∧ n = 0))
include h

/-- The order of the model is that of the values. -/
theorem lt_iff_less : (FV.fin s m e).lt (.fin t n g) = true ↔ Less s m e t n g := by
  have hlt : (FV.fin s m e).lt (.fin t n g) = (decide (signedInt s (m * 2 ^ (e - min e g).toNat) < signedInt t (n * 2 ^ (g - min e g).toNat)) ||
      (signedInt s (m * 2 ^ (e - min e g).toNat) == signedInt t (n * 2 ^ (g - min e g).toNat) && s && !t)) := rfl
  have hzero : ¬ (m * 2 ^ (e - min e g).toNat = 0 ∧ n * 2 ^ (g - min e g).toNat = 0) := by simpa using h
  have hne : ¬ (signedInt s (m * 2 ^ (e - min e g).toNat) = signedInt t (n * 2 ^ (g - min e g).toNat) ∧ s = true ∧ t = false) := by
    rintro ⟨heq, rfl, rfl⟩
    exact hzero ((signedInt_eq_iff.mp heq).resolve_left (by simp))
  rw [hlt, Less, Terms.greater, Terms.greater, min_comm g e]
  simp only [Bool.or_eq_true, Bool.and_eq_true, beq_iff_eq, Bool.not_eq_true', and_assoc, hne, or_false, decide_eq_true_eq, signedInt_lt_iff,
    hzero, not_false_eq_true, and_true]

/-- Its equality is that of the values. -/
theorem eq_iff_isValue : (FV.fin s m e).eq (.fin t n g) = true ↔ Terms.isValue (.fin s m e) t n g := by
  have heq : (FV.fin s m e).eq (.fin t n g) =
      (signedInt s (m * 2 ^ (e - min e g).toNat) == signedInt t (n * 2 ^ (g - min e g).toNat)) := rfl
  have hzero : ¬ (m * 2 ^ (e - min e g).toNat = 0 ∧ n * 2 ^ (g - min e g).toNat = 0) := by simpa using h
  rw [heq, beq_iff_eq, signedInt_eq_iff, or_iff_left hzero, isValue_fin_iff, scaled_eq_iff (min_le_right e g) (min_le_left e g)]

omit h in
theorem not_isValue_of_less (hl : Less s m e t n g) : ¬ Terms.isValue (.fin s m e) t n g := by
  rw [isValue_fin_iff]
  rintro ⟨rfl, hv⟩
  simp [Less, greater_iff, hv] at hl

end

/-! ### The operations on patterns (R161, R162) -/

section
variable {f : FFmt} {rm : Rm} {a b : Nat} (c : Nat)

theorem op_of_nan (h : f.decode a = .nan ∨ f.decode b = .nan) :
    (∀ o ∈ [FpOp.add, .sub, .mul, .div, .mac], f.op o rm a b c = f.nan) ∧ ∀ o ∈ [FpOp.eq, .lt, .le], f.op o rm a b c = 0 := by
  have hcmp : (f.decode a).less (f.decode b) = false ∧ (f.decode a).eq (f.decode b) = false := by
    obtain h | h := h
    · rw [h]
      exact ⟨rfl, rfl⟩
    · rw [h]
      cases f.decode a <;> exact ⟨rfl, rfl⟩
  simp only [List.forall_mem_cons, FFmt.op, FV.add_of_nan rm h, FV.add_of_nan rm (FV.neg_of_nan h), FV.mul_of_nan h, div_of_nan f rm h,
    FV.add_of_nan rm (.inr rfl), hcmp]
  exact ⟨⟨rfl, rfl, rfl, trivial, rfl, fun _ h => nomatch h⟩, rfl, rfl, rfl, fun _ h => nomatch h⟩

theorem mac_of_nan (h : f.decode c = .nan) : f.op .mac rm a b c = f.nan := by
  simp only [FFmt.op, FV.add_of_nan rm (.inl h), FFmt.encode]

theorem op_of_nan_left (h : f.decode a = .nan) : f.op .sqrt rm a b c = f.nan ∧ f.op .min rm a b c = f.encode rm (f.decode b) ∧
    f.op .max rm a b c = f.encode rm (f.decode b) := by
  simp [FFmt.op, h, FFmt.sqrt, FV.isNan]

theorem op_of_nan_right (h : f.decode a ≠ .nan) (h' : f.decode b = .nan) :
    f.op .min rm a b c = f.encode rm (f.decode a) ∧ f.op .max rm a b c = f.encode rm (f.decode a) := by
  have hn : (f.decode a).isNan = false := by
    cases hd : f.decode a <;> simp_all [FV.isNan]
  simp only [FFmt.op, hn, h', Bool.false_eq_true, if_false]
  exact ⟨rfl, rfl⟩

section
variable {s t : Bool} {m n : Nat} {e g : Int} (hx : f.decode a = .fin s m e) (hy : f.decode b = .fin t n g)
include hx

theorem op_sqrt_of_zero (hm : m = 0) : f.op .sqrt rm a b c = f.signed s 0 := by
  simp [FFmt.op, hx, FFmt.sqrt, hm, signBit_eq_signed]

theorem op_sqrt_of_neg (hm : m ≠ 0) (hs : s = true) : f.op .sqrt rm a b c = f.nan := by
  simp [FFmt.op, hx, FFmt.sqrt, hm, hs]

theorem op_sqrt_of_pos (hm : m ≠ 0) (hs : s = false) : ∃ (r j : Nat) (k : Int), r * r ≤ m * 2 ^ j ∧ m * 2 ^ j < (r + 1) * (r + 1) ∧
    e - j = 2 * k ∧ f.fb + 1 ≤ Nat.log2 r ∧ f.op .sqrt rm a b c = f.round rm false r k (decide (r * r ≠ m * 2 ^ j)) := by
  subst hs
  simpa only [FFmt.op, hx] using sqrt_spec f rm e hm

include hy

theorem op_sums : f.op .add rm a b c = Terms.summed f rm s m e t n g ∧ f.op .sub rm a b c = Terms.summed f rm s m e (!t) n g ∧
    f.op .mul rm a b c = f.round rm (s != t) (m * n) (e + g) false ∧
    ∀ u o p, f.decode c = .fin u o p → f.op .mac rm a b c = Terms.summed f rm u o p (s != t) (m * n) (e + g) := by
  simp only [FFmt.op, hx, hy]
  refine ⟨encode_add .., encode_add .., rfl, fun u o p hz => ?_⟩
  rw [hz]
  exact encode_add ..

theorem op_div_of_zero (hn : n = 0) : f.op .div rm a b c = if m = 0 then f.nan else f.signed (s != t) (f.infPat false) := by
  simp only [FFmt.op, hx, hy, FFmt.div, hn, if_true, infPat_eq_signed f (s != t)]

theorem op_div_zero (hn : n ≠ 0) (hm : m = 0) : f.op .div rm a b c = f.signed (s != t) 0 := by
  simp only [FFmt.op, hx, hy, FFmt.div, hn, hm, if_true, if_false, signBit_eq_signed]

theorem op_div (hn : n ≠ 0) (hm : m ≠ 0) : ∃ k : Nat, f.fb + 1 ≤ Nat.log2 (m * 2 ^ k / n) ∧
    f.op .div rm a b c = f.round rm (s != t) (m * 2 ^ k / n) (e - g - k) (decide (m * 2 ^ k % n ≠ 0)) := by
  simpa only [FFmt.op, hx, hy] using div_of_ne_zero f rm s t e g hn hm

theorem op_compare_zeros (hm : m = 0) (hn : n = 0) : f.op .eq rm a b c = 1 ∧ f.op .lt rm a b c = 0 ∧ f.op .le rm a b c = 1 ∧
    f.op .min rm a b c = f.signed (s || t) 0 ∧ f.op .max rm a b c = f.signed (s && t) 0 := by
  subst hm hn
  have henc : ∀ u p, f.encode rm (.fin u 0 p) = f.signed u 0 := fun u p => (round_zero ..).trans (signBit_eq_signed f u)
  simp only [FFmt.op, hx, hy, FV.isNan, FV.less, lt_zeros, eq_zeros, henc]
  cases s <;> cases t <;> simp

variable (h : ¬ (m = 0 ∧ n = 0))
include h

theorem op_of_less (hl : Less s m e t n g) : f.op .lt rm a b c = 1 ∧ f.op .le rm a b c = 1 ∧
    f.op .min rm a b c = f.encode rm (f.decode a) ∧ f.op .max rm a b c = f.encode rm (f.decode b) := by
  have hlt := (lt_iff_less h).mpr hl
  have heq := Bool.eq_false_iff.mpr (mt (eq_iff_isValue h).mp (not_isValue_of_less hl))
  simp [FFmt.op, hx, hy, FV.isNan, FV.less, hlt, heq]

theorem op_lt_of_not_less (hl : ¬ Less s m e t n g) : f.op .lt rm a b c = 0 := by
  have hlt := Bool.eq_false_iff.mpr (mt (lt_iff_less h).mp hl)
  simp [FFmt.op, hx, hy, FV.less, hlt]

theorem op_of_greater (hl : ¬ Less s m e t n g) (hv : ¬ Terms.isValue (f.decode a) t n g) : f.op .le rm a b c = 0 ∧ f.op .eq rm a b c = 0 ∧
    f.op .min rm a b c = f.encode rm (f.decode b) ∧ f.op .max rm a b c = f.encode rm (f.decode a) := by
  rw [hx] at hv
  have hlt := Bool.eq_false_iff.mpr (mt (lt_iff_less h).mp hl)
  have heq := Bool.eq_false_iff.mpr (mt (eq_iff_isValue h).mp hv)
  simp [FFmt.op, hx, hy, FV.isNan, FV.less, hlt, heq]

end

section
variable {s : Bool} (hx : f.decode a = .inf s) (hrm : rm ≠ .satf)
include hx hrm

theorem op_inf_fin {t : Bool} {n : Nat} {g : Int} (hy : f.decode b = .fin t n g) : f.op .add rm a b c = f.signed s (f.infPat false) ∧
    f.op .mul rm a b c = if n = 0 then f.nan else f.signed (s != t) (f.infPat false) := by
  simp only [FFmt.op, hx, hy, FV.add, FV.mul, encode_inf f hrm, apply_ite (f.encode rm), true_and]
  rfl

theorem op_inf_inf {t : Bool} (hy : f.decode b = .inf t) :
    f.op .add rm a b c = (if s = t then f.signed s (f.infPat false) else f.nan) ∧ f.op .div rm a b c = f.nan := by
  simp only [FFmt.op, hx, hy, FV.add, FFmt.div, encode_inf f hrm, apply_ite (f.encode rm), and_true]
  rfl

omit hrm in
theorem op_sqrt_inf : f.op .sqrt rm a b c = if s then f.nan else f.infPat false := by
  simp only [FFmt.op, hx, FFmt.sqrt]

end

end

/-! ### The six layouts -/

/-- A layout with its canonical NaN, its largest finite magnitude and its infinity. -/
def IsLayout (f : FFmt) (nan largest inf : Nat) : Prop :=
  f.Regular ∧ f.nan = nan ∧ f.maxPat = largest ∧ f.infPat false = inf ∧ f.decode f.maxPat = .fin false f.maxMant f.maxExp

theorem isLayout_of_mem : ∀ row ∈ Terms.formats, IsLayout row.1 row.2.1 row.2.2.1 row.2.2.2 := by
  have hregular : ∀ row ∈ Terms.formats, row.1.width = row.1.eb + row.1.fb + 1 ∧ 2 ≤ row.1.eb ∧ 1 ≤ row.1.fb ∧
      (row.1.flush = true → row.1.bias = 127) := by decide
  have hpatterns : ∀ row ∈ Terms.formats, row.1.nan = row.2.1 ∧ row.1.maxPat = row.2.2.1 ∧ row.1.infPat false = row.2.2.2 ∧
      row.1.decode row.1.maxPat = .fin false row.1.maxMant row.1.maxExp := by decide
  intro row hrow
  obtain ⟨hwidth, heb, hfb, hbias⟩ := hregular row hrow
  exact ⟨⟨hwidth, heb, hfb, hbias⟩, hpatterns row hrow⟩

/-- Settles O60: a rounding by `round_spec` and `roundAt_rounds`, a pattern by `encode_decode`, and each operation by its own cases. -/
theorem floatRounding : Obligations.FloatRounding := by
  unfold Obligations.FloatRounding
  rintro ⟨f, nan, largest, inf⟩ hrow
  obtain ⟨hf, rfl, rfl, rfl, hlargest⟩ : IsLayout f nan largest inf := isLayout_of_mem _ hrow
  refine ⟨fun rm s m e hm => ?_, fun rm s m e hlog => ?_, ⟨rfl, ?_⟩, fun rm a b c => ⟨op_of_nan c, mac_of_nan c, op_of_nan_left c,
    op_of_nan_right c, fun hrm hx ha => encode_decode hf hrm ha hx, rfl, fun s => signBit_add ..,
    fun s t m n e g hx hy => ?_,
    fun s hx hrm => ⟨fun t n g hy => op_inf_fin c hx hrm hy, fun t hy => op_inf_inf c hx hrm hy, op_sqrt_inf c hx⟩⟩⟩
  · obtain ⟨hbig, hzero, hvalue⟩ := round_spec hf rm s e hm
    exact ⟨_, roundAt_rounds rm s m e (f.lastPlace m e), fun h => (hbig h).trans (overflow_eq ..),
      fun h hfl hs => (hzero h hfl hs).trans (signBit_eq_signed ..), hvalue⟩
  · exact round_sticky f rm s e hlog
  · rw [hlargest, isValue_fin_iff]
    exact ⟨rfl, rfl⟩
  · obtain ⟨hadd, hsub, hmul, hmac⟩ := op_sums (rm := rm) c hx hy
    exact ⟨hadd, hsub, hmul, hmac, op_div_of_zero c hx hy, op_div_zero c hx hy, op_div c hx hy, op_sqrt_of_zero c hx, op_sqrt_of_neg c hx,
      op_sqrt_of_pos c hx, op_compare_zeros c hx hy, fun h => ⟨op_of_less c hx hy h, op_lt_of_not_less c hx hy h, op_of_greater c hx hy h⟩⟩

end Sys2Proof.Machine
end

section
/-! SUPPORT. The checks that a matrix or conversion word makes before it runs: the patch's service (R444) and the matrix unit (R183). -/

namespace Sys2Proof.Machine

theorem fullOnly_of_admits {k : Wk} {b : Bool} (h : Terms.admits k b) : W.fullOnly b k = .ok ((), k) := by
  rw [W.fullOnly, W.bind_of_ok (W.get_apply k)]
  cases b with
  | false => rfl
  | true => rw [h rfl]; rfl

theorem unit_of_free {s : State} {i : Inst} (h : Terms.unitFree s i) : W.unit ⟨s, i⟩ = .ok ((), ⟨s, i⟩) := by
  have hn : (s.elem s.cur.patch s.cur.el).insts.any (fun j => j.id != i.id && j.mx) = false := by
    simpa [List.any_eq_false, Terms.unitFree] using h
  rw [W.unit, W.bind_of_ok (W.get_apply _), W.bind_of_ok (W.elem_apply _)]
  simp only [hn]
  rfl

theorem unit_of_taken {s : State} {i : Inst} (h : ¬ Terms.unitFree s i) : W.unit ⟨s, i⟩ = .error .hold := by
  have hn : (s.elem s.cur.patch s.cur.el).insts.any (fun j => j.id != i.id && j.mx) = true := by
    simpa [Terms.unitFree] using h
  rw [W.unit, W.bind_of_ok (W.get_apply _), W.bind_of_ok (W.elem_apply _)]
  simp only [hn]
  rfl

/-- A word that waits for an operand ends a wait of another kind, and changes nothing else. -/
theorem runWord_of_held {f : W Unit} {s : State} {i : Inst} (ht : Terms.OnTurn s i) (h : f ⟨s, i⟩ = .error .hold) :
    runWord f s = .next (if i.since.isSome || i.pullAt.isSome then s.clearWait s.cur.patch s.cur.el i.id else s) := by
  obtain ⟨hi, hf, hs⟩ := ht
  simp only [runWord, hi, hf, hs, h]
  rfl

/-- Any word that first asks for the matrix unit waits while that is taken. -/
theorem runWord_of_taken {g : Unit → W Unit} {s : State} {i : Inst} (ht : Terms.OnTurn s i) (h : ¬ Terms.unitFree s i) :
    runWord (W.unit >>= g) s = .next (if i.since.isSome || i.pullAt.isSome then s.clearWait s.cur.patch s.cur.el i.id else s) :=
  runWord_of_held ht (W.bind_of_error (unit_of_taken h))

end Sys2Proof.Machine
end

section
/-! PROOFS of the family of the number formats: CVT, and the scale words SCLD and SCEM (R198 to R204). -/

namespace Sys2Proof.Machine

theorem header_apply (flags : Nat) (k : Wk) : W.header flags k = .ok (header 0 k.i.tag flags, k) := rfl

/-- A list none of whose units is of kind 1 holds no CHANGE unit, for which CVT faults (R201). -/
theorem any_kind_eq_false {us : List Slot} (h : ∀ x ∈ us, uKind x ≠ 1) : us.any (fun x => uKind x == 1) = false := by
  simpa [List.any_eq_false] using h

/-! ### CVT -/

/-- The units of CVT's result: LAST is kept where the last DATA unit taken carries it (R200). -/
def cvtUnits (us : List Slot) (out : List Slot) : List Slot :=
  match (us.filter (fun x => uKind x == 0)).getLast? with
  | some u => if (uFlags u).getLsbD 0 then markLast out else out
  | none => out

/-- The scale tokens of CVT's exponents, counted on from those of the instance's words before (R202). -/
def cvtTokens (i : Inst) (es : List Nat) : List Word :=
  (List.range es.length).map (fun j => scaleTok (i.tag.toNat * 256 + i.cvtN + j) (es.getD j 0))

/-- What CVT leaves for its exponents: the instance counts their blocks, and its commit sends their tokens (R202, R204). -/
def Wk.scaled (k : Wk) (es : List Nat) : Wk :=
  let k' : Wk := { k with i := { k.i with cvtN := k.i.cvtN + es.length } }
  if es = [] then k' else Terms.withEff k' (.scaleOut (cvtTokens k.i es))

/-- The parts of CVT's result: each run converted, and the units between the runs as they are (R200). -/
def cvtParts (f sf : Nat) (rm : Rm) (h : Word) (us : List Slot) : W (List (List Slot × List Nat)) :=
  (dataRuns us).mapM (fun x => match x with
    | .inr u => pure ([u], [])
    | .inl run => do convertRun f rm h (← runValues sf run))

theorem cvt_completes {s : State} {i : Inst} {a b : BitVec 5} {f sf : BitVec 4} {rm : BitVec 3} (ht : Terms.OnTurn s i)
    (hadm : Terms.admits ⟨s, i⟩ (f == 0 || sf == 0)) {us : List Slot} {k₁ k₂ k : Wk} {parts : List (List Slot × List Nat)}
    {es : List Nat} (hus : Terms.gives (rdRest a.toNat) ⟨s, i⟩ us k₁) (hkind : ∀ x ∈ us, uKind x ≠ 1)
    (hparts : Terms.gives (cvtParts f.toNat sf.toNat (rmOf rm)
      (header 0 k₁.i.tag (if us.any (fun x => (uFlags x).getLsbD 1) then 2 else 0)) us) k₁ parts k₂)
    (hes : parts.flatMap (fun p => p.2) = es) (hn : k₂.i.cvtN + es.length ≤ 256)
    (hout : Terms.gives (streamOut b.toNat (cvtUnits us (parts.flatMap (fun p => p.1)))) (k₂.scaled es) () k) :
    Terms.completes (.cvt a b f sf rm) s k := by
  refine completes_of_ok rfl ht ?_
  rw [W.bind_of_ok (fullOnly_of_admits hadm), W.bind_of_ok hus, any_kind_eq_false hkind]
  simp only [Bool.false_eq_true, if_false]
  rw [W.bind_of_ok (header_apply ..)]
  refine (W.bind_of_ok hparts).trans ?_
  rw [hes, W.bind_of_ok (W.get_apply k₂)]
  simp only [Nat.not_lt.mpr hn, if_false]
  rw [W.bind_of_ok (W.get_apply k₂), W.bind_of_ok (W.upd_apply ..)]
  cases es with
  | nil => exact hout
  | cons e es => exact (W.bind_of_ok (W.eff_apply ..)).trans hout

/-! ### SCLD and SCEM (R204) -/

theorem tokens_eq_scaleTok (t tg : Nat) (bs : List Byte) :
    Terms.tokens t tg bs = (List.range 128).map (fun n => scaleTok (tg * 256 + 128 * t + n) (bs.getD n 0).toNat) := by
  unfold Terms.tokens
  refine List.map_congr_left fun n _ => ?_
  rw [scaleTok, Nat.mod_eq_of_lt (bs.getD n 0).isLt]

/-- An exponent array inside the vault, under a tag of 12 bits, gives its tokens. -/
theorem scaleArray_of_read {k k₁ : Wk} {t a b : Nat} {va tg : Word} {bs : List Byte} (ha : Terms.gives (rdS a) k va k)
    (hb : Terms.gives (rdS b) k tg k) (hva : va.toNat + 128 ≤ 0x80000) (htg : tg.toNat < 2 ^ 12)
    (hbs : Terms.gives (readVault va.toNat 128) k bs k₁) : scaleArray t a b k = .ok (Terms.tokens t tg.toNat bs, k₁) := by
  have hin : ¬ (0x80000 < va.toNat + 128 ∨ 2 ^ 12 ≤ tg.toNat) := by omega
  rw [scaleArray, W.bind_of_ok ha, W.bind_of_ok hb]
  simp only [hin, if_false]
  rw [W.bind_of_ok hbs, tokens_eq_scaleTok]
  rfl

/-- A word that leaves some tokens for its commit. -/
theorem completes_of_scaleArray {s : State} {i : Inst} {ins : Instr} {t a b : Nat} {l : List Word} {k : Wk} {eff : List Word → Eff}
    (he : exec ins s = runWord (do W.eff (eff (← scaleArray t a b))) s) (ht : Terms.OnTurn s i)
    (h : scaleArray t a b ⟨s, i⟩ = .ok (l, k)) : Terms.completes ins s (Terms.withEff k (eff l)) := by
  refine completes_of_ok he ht ?_
  rw [W.bind_of_ok h]
  exact W.eff_apply ..

/-- Settles O41: CVT part by part, and the scale words by the tokens of their array. -/
theorem convertAndScaleWords : Obligations.ConvertAndScaleWords := by
  unfold Obligations.ConvertAndScaleWords
  intro s i t a b f sf rm ht
  refine ⟨fun hadm us k₁ parts k₂ hus hkind hparts hn k hout => ?_, fun va tg bs k₁ ha hb hva htg hbs => ?_⟩
  · exact cvt_completes ht hadm hus hkind hparts rfl hn hout
  · have harr := scaleArray_of_read (t := t.toNat) ha hb hva htg hbs
    exact ⟨completes_of_scaleArray rfl ht harr, completes_of_scaleArray rfl ht harr⟩

end Sys2Proof.Machine
end

section
/-! PROOFS of the family of the number formats: the multiplies MMA and MMAG (R183 to R192). -/

namespace Sys2Proof.Machine

/-! ### Operands in order (R184, R187, R192) -/

/-- The claim of a multiply with DF, and what follows. -/
theorem dataflow_then {β : Type} {k k' : Wk} {df : BitVec 1} {l : List (Nat × Nat)} (g : Unit → W β)
    (h : if df = 1 then Terms.gives (dataflow l) k () k' else k' = k) :
    (if df = 1 then dataflow l >>= g else g ()) k = g () k' := by
  split at h
  next hd => rw [if_pos hd, W.bind_of_ok h]
  next hd => rw [if_neg hd, h]

section
variable {s : State} {i : Inst} {t : BitVec 2} {a b : BitVec 5} {f : BitVec 4} {df clr : BitVec 1} {rm : BitVec 3}
  (ht : Terms.OnTurn s i) (hu : Terms.unitFree s i) (hadm : Terms.admits ⟨s, i⟩ (decide (f.toNat ≤ 1)))
  {ta tb : List Byte} {k k₁ k₂ k₃ : Wk} {ma mb : Nat → Nat}
include ht hu hadm

theorem mma_completes (ha : Terms.gives (rdTile a.toNat (tileBytes f.toNat) 256) ⟨s, i⟩ (ta, ma) k₁)
    (hb : Terms.gives (rdTile b.toNat (tileBytes f.toNat) 256) k₁ (tb, mb) k₂)
    (hdf : if df = 1 then Terms.gives (dataflow [(a.toNat, tileBytes f.toNat), (b.toNat, tileBytes f.toNat)]) k₂ () k₃ else k₃ = k₂)
    (hm : Terms.gives (matrixWord t.toNat f.toNat (clr == 1) (rmOf rm) ta tb) k₃ () k) :
    Terms.completes (.mma t a b f df clr rm) s k := by
  refine completes_of_ok rfl ht ?_
  rw [W.bind_of_ok (unit_of_free hu), W.bind_of_ok (fullOnly_of_admits hadm), W.bind_of_ok ha]
  dsimp only
  rw [W.bind_of_ok hb]
  exact (dataflow_then _ hdf).trans hm

theorem mmag_completes {rc : List Byte} {k₄ : Wk} (ha : Terms.gives (rdTile a.toNat 160 32) ⟨s, i⟩ (rc, ma) k₁)
    (hb : Terms.gives (rdTile b.toNat (tileBytes f.toNat) 256) k₁ (tb, mb) k₂)
    (hdf : if df = 1 then Terms.gives (dataflow [(b.toNat, tileBytes f.toNat)]) k₂ () k₃ else k₃ = k₂)
    (hg : Terms.gives (gatherTile f.toNat rc) k₃ ta k₄) (hm : Terms.gives (matrixWord t.toNat f.toNat (clr == 1) (rmOf rm) ta tb) k₄ () k) :
    Terms.completes (.mmag t a b f df clr rm) s k := by
  refine completes_of_ok rfl ht ?_
  rw [W.bind_of_ok (unit_of_free hu), W.bind_of_ok (fullOnly_of_admits hadm), W.bind_of_ok ha]
  dsimp only
  rw [W.bind_of_ok hb]
  exact (dataflow_then _ hdf).trans ((W.bind_of_ok hg).trans hm)

end

/-! ### What a multiply writes (R187, R189) -/

/-- The accumulator that a multiply starts from: with CLR, what it clears is gone. -/
def clearedAcc (k : Wk) (t f : Nat) (clr : Bool) : SMap Word :=
  if clr then (if f = 0 then (k.i.r.acc.getD t []).filter (fun x => decide (2048 ≤ x.1)) else []) else k.i.r.acc.getD t []

/-- An accumulator is written, and the skipped products count at the commit. -/
def Wk.multiplied (k : Wk) (t : Nat) (acc : SMap Word) (n : Nat) : Wk :=
  Terms.withEff { k with i := { k.i with r := { k.i.r with acc := k.i.r.acc.set t acc }, wA := noted k.i.wA t } } (.zskip (BitVec.ofNat 32 n))

section
variable {k k₁ k₂ k₃ : Wk} (t : Nat) {f : Nat} (clr : Bool) (rm : Rm) {a b : List Byte}

theorem matrixWord_of_plain (hf : f ≤ 7) : matrixWord t f clr rm a b k =
    .ok ((), k.multiplied t (multiply f rm (clearedAcc k t f clr) a b).1 (multiply f rm (clearedAcc k t f clr) a b).2) := by
  have hb : isBfp f = false := by simpa [isBfp] using hf.trans_lt (by decide)
  rw [matrixWord, W.bind_of_ok (W.get_apply k)]
  simp only [hb, Bool.false_eq_true, if_false]
  rw [W.bind_of_ok (W.pure_apply ..)]
  exact (W.bind_of_ok (W.upd_apply ..)).trans (W.eff_apply ..)

theorem matrixWord_of_blocks {es : List Nat} {ma mb : List (List Int)} (hf : 9 ≤ f)
    (hes : Terms.gives (scaleExps (List.range 256)) k es k₁) (ha : Terms.gives (tileBlocks f a) k₁ ma k₂)
    (hb : Terms.gives (tileBlocks f b) k₂ mb k₃) : matrixWord t f clr rm a b k =
    .ok ((), k₃.multiplied t (multiplyBfp f rm (clearedAcc k t f clr) ma mb es).1 (multiplyBfp f rm (clearedAcc k t f clr) ma mb es).2) := by
  have hbfp : isBfp f = true := by simpa [isBfp] using hf
  rw [matrixWord, W.bind_of_ok (W.get_apply k)]
  simp only [hbfp, if_true]
  rw [W.bind_of_ok hes, W.bind_of_ok ha, W.bind_of_ok hb, W.bind_of_ok (W.pure_apply ..)]
  exact (W.bind_of_ok (W.upd_apply ..)).trans (W.eff_apply ..)

end

/-! ### Accumulators as lists of words -/

theorem smGet_accList (ws : List Word) : ∀ n j, smGet 0 (accList n ws) j = if n ≤ j then ws.getD (j - n) 0 else 0 := by
  induction ws with
  | nil => simp [accList, smGet]
  | cons w ws ih =>
    intro n j
    have htail : j ≠ n → (if n + 1 ≤ j then ws.getD (j - (n + 1)) 0 else 0) = if n ≤ j then (w :: ws).getD (j - n) 0 else (0 : Word) := by
      intro hj
      by_cases hn : n ≤ j
      · rw [if_pos (by omega), if_pos hn, show j - n = (j - (n + 1)) + 1 by omega, List.getD_cons_succ]
      · rw [if_neg (by omega), if_neg hn]
    by_cases hw : w = 0
    · rw [accList, if_pos hw, ih]
      by_cases hj : j = n
      · subst hj; simp [hw]
      · exact htail hj
    · rw [accList, if_neg hw, smGet]
      by_cases hj : j = n
      · subst hj; simp
      · rw [if_neg (by simpa [eq_comm] using hj), ih]
        exact htail hj

/-- Row by row, the entry at a row and a column of a table of `m` columns. -/
theorem getD_flatMap_range {α : Type} (g : Nat → Nat → α) (d : α) {n m i j : Nat} (hi : i < n) (hj : j < m) :
    ((List.range n).flatMap (fun i => (List.range m).map (g i))).getD (m * i + j) d = g i j := by
  induction n with
  | zero => omega
  | succ n ih =>
    have hlen : ((List.range n).flatMap (fun i => (List.range m).map (g i))).length = m * n := by
      simp [List.length_flatMap, Nat.mul_comm]
    rw [List.range_succ, List.flatMap_append]
    obtain hlt | rfl := Nat.lt_succ_iff_lt_or_eq.mp hi
    · have hin : m * i + j < m * n := by
        calc m * i + j < m * (i + 1) := by rw [Nat.mul_succ]; omega
          _ ≤ m * n := Nat.mul_le_mul_left _ hlt
      rw [List.getD_append _ _ _ _ (hlen ▸ hin), ih hlt]
    · rw [List.getD_append_right _ _ _ _ (by omega), hlen]
      simp [List.getD_eq_getElem?_getD, hj]

/-! ### The byte formats (R62, R187) -/

/-- The members of a list, each with its index. -/
def indexed {α : Type} (l : List α) : List (Nat × α) := (List.range l.length).zip l

theorem indexed_map_range {α : Type} (g : Nat → α) (n : Nat) : indexed ((List.range n).map g) = (List.range n).map (fun i => (i, g i)) := by
  rw [indexed, List.length_map, List.length_range]
  conv_lhs => rw [← List.map_id (List.range n)]
  rw [List.map_id, ← List.zip_map']
  simp

theorem tileRows_bytes {f : Nat} (hf : f = 6 ∨ f = 7) (bs : List Byte) :
    tileRows f bs = (List.range 64).map (fun r => (List.range 64).map (fun c => Terms.tileElem 1 64 bs r c)) := by
  obtain rfl | rfl := hf <;> rfl

theorem columns_bytes {f : Nat} (hf : f = 6 ∨ f = 7) (bs : List Byte) :
    columns (tileRows f bs) = (List.range 64).map (fun c => (List.range 64).map (fun r => Terms.tileElem 1 64 bs r c)) := by
  rw [tileRows_bytes hf, columns, List.length_map, List.length_range]
  refine List.map_congr_left fun c hc => ?_
  rw [List.map_map]
  refine List.map_congr_left fun r _ => ?_
  simp [List.getD_eq_getElem?_getD, List.mem_range.mp hc]

/-- Of a row and a column, the sum of the products. -/
theorem foldl_zip_eq_byteDot (val : Nat → Int) (a b : List Byte) (i j : Nat) :
    ((((List.range 64).map (fun c => Terms.tileElem 1 64 a i c)).zip ((List.range 64).map (fun r => Terms.tileElem 1 64 b r j))).map
      (fun x => val x.1 * val x.2)).foldl (· + ·) 0 = Terms.byteDot val a b i j := by
  rw [List.zip_map', List.map_map, ← List.sum_eq_foldl]
  rfl

/-- A multiply of bytes, row by row and column by column. -/
theorem multiply_rows {f : Nat} (hf : f = 6 ∨ f = 7) (rm : Rm) (acc : SMap Word) (a b : List Byte) : (multiply f rm acc a b).1 =
    accList 0 ((indexed (tileRows f a)).flatMap (fun x => (indexed (columns (tileRows f b))).map (fun y =>
      BitVec.ofInt 32 ((acc32 acc x.1 y.1 : Int) +
        ((x.2.zip y.2).map (fun z => Terms.byteValue f z.1 * Terms.byteValue f z.2)).foldl (· + ·) 0)))) := by
  have h0 : f ≠ 0 := by omega
  have h1 : f ≠ 1 := by omega
  have h5 : ¬ f ≤ 5 := by omega
  unfold multiply
  dsimp only
  rw [if_neg h0, if_neg h1, if_neg h5]
  rfl

/-- A multiply of bytes adds to each element of the accumulator the exact sum of its products, modulo 2^32. -/
theorem multiply_bytes {f : Nat} (hf : f = 6 ∨ f = 7) (rm : Rm) (acc : SMap Word) (a b : List Byte) : (multiply f rm acc a b).1 =
    accList 0 ((List.range 64).flatMap (fun i => (List.range 64).map (fun j =>
      BitVec.ofInt 32 ((acc32 acc i j : Int) + Terms.byteDot (Terms.byteValue f) a b i j)))) := by
  rw [multiply_rows hf, columns_bytes hf, tileRows_bytes hf, indexed_map_range, indexed_map_range, List.flatMap_map]
  simp only [List.map_map, ← foldl_zip_eq_byteDot]
  rfl

theorem multiplied_bytes {f : Nat} (hf : f = 6 ∨ f = 7) (rm : Rm) (acc : SMap Word) (a b : List Byte) {i j : Nat} (hi : i < 64) (hj : j < 64) :
    smGet 0 (multiply f rm acc a b).1 (64 * i + j) =
      BitVec.ofInt 32 ((smGet 0 acc (64 * i + j)).toNat + Terms.byteDot (Terms.byteValue f) a b i j) := by
  rw [multiply_bytes hf, smGet_accList, if_pos (Nat.zero_le _), Nat.sub_zero, getD_flatMap_range _ _ hi hj]
  rfl

theorem exec_of_taken {s : State} {i : Inst} (t : BitVec 2) (a b : BitVec 5) (f : BitVec 4) (df clr : BitVec 1) (rm : BitVec 3)
    (ht : Terms.OnTurn s i) (h : ¬ Terms.unitFree s i) : ∀ w ∈ [Instr.mma t a b f df clr rm, Instr.mmag t a b f df clr rm],
      exec w s = .next (if i.since.isSome || i.pullAt.isSome then s.clearWait s.cur.patch s.cur.el i.id else s) := by
  simp only [List.forall_mem_cons]
  exact ⟨runWord_of_taken ht h, runWord_of_taken ht h, fun _ h => nomatch h⟩

/-- Settles O39: the operands in order by `mma_completes` and `mmag_completes`, and what is written by `matrixWord_of_plain`,
`matrixWord_of_blocks` and `multiplied_bytes`. -/
theorem matrixWords : Obligations.MatrixWords := by
  unfold Obligations.MatrixWords
  refine ⟨fun s i t a b f df clr rm ht => ⟨exec_of_taken t a b f df clr rm ht, fun hu hadm =>
      ⟨fun ta ma k₁ tb mb k₂ k₃ k ha hb hdf hm => mma_completes ht hu hadm ha hb hdf hm,
        fun rc mr k₁ tb mb k₂ k₃ ta k₄ k ha hb hdf hg hm => mmag_completes ht hu hadm ha hb hdf hg hm⟩⟩,
    fun k t f clr rm a b => ⟨fun hf => ?_, fun hf => matrixWord_of_plain t clr rm hf,
      fun hf es k₁ ma k₂ mb k₃ hes ha hb => matrixWord_of_blocks t clr rm hf hes ha hb⟩⟩
  refine ⟨_, _, matrixWord_of_plain t clr rm (by omega), fun i hi j hj => ?_⟩
  exact congrArg BitVec.toNat (multiplied_bytes hf rm _ a b hi hj)

end Sys2Proof.Machine
end

section
/-! PROOFS of the family of the number formats: the switch words, and units and scale tokens on their way (R98, R99, R176, R197, R203, R204,
R336, R455, R456). -/

namespace Sys2Proof.Machine

/-! ### The switch words (R98, R99) -/

section
variable {α : Type} [DecidableEq α] {x y : α} {l : List α}

theorem mem_putNew : y ∈ putNew x l ↔ y ∈ l ∨ y = x := by
  unfold putNew
  split
  next h =>
    have hx : x ∈ l := by simpa using h
    exact ⟨.inl, fun h => h.elim id fun e => e ▸ hx⟩
  next => simp

theorem nodup_putNew (h : l.Nodup) : (putNew x l).Nodup := by
  unfold putNew
  split
  · exact h
  · next hx => simpa [List.nodup_append, h] using fun a ha e => hx (by simpa [← e] using ha)

end

/-! ### A unit leaves a router (R455, R456) -/

theorem unscheduled_iff (r : Router) (i c : Nat) : r.unscheduled i c = true ↔ r.binds.filter (fun b => b.i == i && b.v == c) = [] := by
  simp [Router.unscheduled, List.filter_eq_nil_iff]

theorem boundTo_eq (r : Router) (slot i c : Nat) : r.boundTo slot i c = (((r.binds.filter (fun b => b.i == i && b.v == c)).filter
    (fun b => decide (b.lo ≤ slot) && decide (slot ≤ b.hi))).map (fun b => b.o)).dedup := by
  rw [Router.boundTo, List.filter_filter]
  congr 3
  funext b
  rw [Bool.and_comm (decide (b.lo ≤ slot) && decide (slot ≤ b.hi)), Bool.and_assoc, Bool.and_assoc]

theorem robin_setWaiting (v : Elem) (i c : Nat) (us : List QUnit) : (v.setWaiting i c us).robin = v.robin := by
  unfold Elem.setWaiting
  split <;> rfl

/-- Nothing of the patch or of a stream holds a unit back. -/
theorem forward_not_held {s : State} {p e i c : Nat} (hrun : (s.patch p).running = true) (hfr : (s.patch p).frozen = false)
    (hcap : i = 4 → (s.patch p).captured e c = false) :
    ¬ ((s.patch p).frozen || !(s.patch p).running || (i == 4 && (s.patch p).captured e c)) = true := by
  by_cases h4 : i = 4
  · simp [hfr, hrun, hcap h4]
  · simp [hfr, hrun, h4]

section
variable {s : State} {p e i c : Nat} {u : QUnit} {rest : List QUnit} (hw : (s.elem p e).waiting i c = u :: rest)
include hw

/-- The slots of a port that a stream has captured stay for the stream (R138). -/
theorem routerForward_of_captured (h4 : i = 4) (hc : (s.patch p).captured e c = true) : exec (.routerForward p e i c) s = .next s := by
  change execRouterForward p e i c s = _
  simp only [execRouterForward, hw]
  rw [if_pos (by simp [h4, hc])]

variable (hrun : (s.patch p).running = true) (hfr : (s.patch p).frozen = false) (hcap : i = 4 → (s.patch p).captured e c = false)
include hrun hfr hcap

/-- A unit of a bound channel leaves by every output that binds it in the slot. -/
theorem routerForward_of_bound {outs : List Nat} (hb : (s.elem p e).router.unscheduled i c = false)
    (ho : (s.elem p e).router.boundTo (s.clock.slot % 256) i c = outs) (hne : outs ≠ []) (hall : ∀ o ∈ outs, s.canLeave p e o c = true) :
    exec (.routerForward p e i c) s =
      .next (outs.foldl (fun s o => s.leave p e o c u) (s.setElem p e ((s.elem p e).setWaiting i c rest))) := by
  have hx : exec (.routerForward p e i c) s = execRouterForward p e i c s := rfl
  have hgo : ¬ (outs.isEmpty || !outs.all (fun o => s.canLeave p e o c)) = true := by simpa [hne] using hall
  have hset : ({ (s.elem p e).setWaiting i c rest with robin := (s.elem p e).robin } : Elem) = (s.elem p e).setWaiting i c rest := by
    rw [← robin_setWaiting]
  rw [hx]
  simp only [execRouterForward, hw, hb, Bool.false_eq_true, if_false, ho]
  rw [if_neg (forward_not_held hrun hfr hcap), if_neg hgo, State.modElem, hset]

/-- A unit of an unbound channel leaves by the input's default output, where the slot is nobody's and it is the input's turn. -/
theorem routerForward_of_free {o : Nat} (hb : (s.elem p e).router.unscheduled i c = true) (ho : (s.elem p e).router.bestOf i = some o)
    (hcl : (s.elem p e).claimed ((s.patch p).captured e) (s.clock.slot % 256) o = false) (hn : s.nextIn p e o i = true)
    (hl : s.canLeave p e o c = true) :
    exec (.routerForward p e i c) s = .next ((s.setElem p e
      { (s.elem p e).setWaiting i c rest with robin := smSet (s.elem p e).robin o i }).leave p e o c u) := by
  change execRouterForward p e i c s = _
  simp only [execRouterForward, hw, hb, if_true, ho, Option.filter_some, hcl, hn, Bool.not_false, Bool.and_self, Option.toList_some]
  rw [if_neg (forward_not_held hrun hfr hcap), if_neg (by simp [hl])]
  rfl

end

/-! ### Generators and emitters (R176, R197) -/

section
variable {s : State} {p e o : Nat} (ho : o < 4) (hs : s.still p e = false)
  (hroom : ((s.elem p e).o.getD o OutPort.reset).buf.length < 4)
include ho hs hroom

theorem generatorEmit_eq : exec (.generatorEmit p e o) s = .next (s.setElem p e ((s.elem p e).modPort o OutPort.generate)) := by
  change execGeneratorEmit p e o s = _
  exact if_neg (by simp only [hs, Nat.not_le.mpr ho, Nat.not_le.mpr hroom, decide_false, Bool.or_self, Bool.false_eq_true, not_false_eq_true])

theorem emitterSend_eq {u : Slot} {us : List Slot} (hr : ((s.elem p e).o.getD o OutPort.reset).runs = [])
    (he : ((s.elem p e).o.getD o OutPort.reset).emitter = u :: us) :
    exec (.emitterSend p e o) s = .next (s.setElem p e ((s.elem p e).modPort o (fun x => { x.emit u with emitter := us }))) := by
  change execEmitterSend p e o s = _
  simp only [execEmitterSend, he]
  rw [if_neg (by simp only [hs, Nat.not_le.mpr ho, Nat.not_le.mpr hroom, hr, decide_false, List.isEmpty_nil, Bool.not_true, Bool.or_self,
    Bool.false_eq_true, not_false_eq_true])]
  rfl

end

/-- The first run of a port gives its next slot. -/
theorem generate_of_next {x : OutPort} {r : Run} {rs : List Run} {u : Slot} {left : Option Run} (hr : x.runs = r :: rs)
    (hn : r.next = some (u, left)) : x.generate = { x.emit u with runs := left.toList ++ rs } := by
  simp only [OutPort.generate, hr, hn]

theorem toList_ite_append {α : Type} (c : Prop) [Decidable c] (x : α) (l : List α) :
    (if c then none else some x).toList ++ l = if c then l else x :: l := by
  split <;> rfl

/-! ### Scale tokens (R203) -/

/-- The token at an element's port enters its buffer, or waits. -/
theorem scaleTake_eq {v : Elem} {t : Word} {rest : List Word} (h : v.scIn = t :: rest) : v.scaleTake =
    if v.scb.length < 512 ∧ (∀ x ∈ v.scb, (x.tok.toNat / 256) % 2 ^ 20 ≠ t.toNat / 256 % 2 ^ 20) then
      { v with scIn := rest, scb := v.scb ++ [⟨t, none⟩] }
    else v := by
  have htag : ∀ w : Word, (w >>> 8).toNat % 2 ^ 20 = w.toNat / 256 % 2 ^ 20 := fun w => by
    rw [BitVec.toNat_ushiftRight, Nat.shiftRight_eq_div_pow]
  have hheld : (512 ≤ v.scb.length || v.scb.any (fun x => x.btag == tokBtag t)) = true ↔
      ¬ (v.scb.length < 512 ∧ ∀ x ∈ v.scb, (x.tok.toNat / 256) % 2 ^ 20 ≠ t.toNat / 256 % 2 ^ 20) := by
    simp only [ScbEntry.btag, tokBtag, htag, Bool.or_eq_true, decide_eq_true_eq, List.any_eq_true, beq_iff_eq, not_and_or, Nat.not_lt, not_forall,
      ne_eq, not_not, exists_prop]
  simp only [Elem.scaleTake, h, hheld, scbNew, ite_not]

theorem scaleTokenArrive_eq {s : State} {p e : Nat} (hs : s.still p e = false) (hne : (s.elem p e).scIn ≠ []) :
    exec (.scaleTokenArrive p e) s = .next (s.setElem p e (s.elem p e).scaleTake) := by
  change execScaleTokenArrive p e s = _
  simp only [execScaleTokenArrive, hs, Bool.false_eq_true, if_false, List.isEmpty_iff, hne, State.modElem]

/-! ### Replay (R336) -/

/-- The element whose replayed access is presented in this cycle. -/
def Elem.presents (v : Elem) (r : Replayed) (n : Nat) : Elem :=
  { v with replay := v.replay.map (fun (x : Replayed) => if x = r then { x with at_ := n } else x) }

/-- The element without a replayed access. -/
def Elem.unreplayed (v : Elem) (r : Replayed) : Elem := { v with replay := v.replay.filter (fun x => x != r) }

section
variable {s : State} {p e : Nat} {r : Replayed} (hr : (s.elem p e).replay.find? (fun r => decide (r.at_ < s.clock.n)) = some r)
include hr

theorem bankReplay_of_access {x : Access} (hx : s.access r.agent r.id = some x) : exec (.bankReplay p e) s =
    let t := s.setElem p e ((s.elem p e).presents r s.clock.n)
    match x.op with
    | .store st => .next (t.tryPlace x st)
    | .load ad size dst => .next (t.tryRead x ad size dst)
    | .owner _ _ => exec (.ownerStep r.agent r.id) t := by
  change execBankReplay p e s = _
  cases hop : x.op <;> simp only [execBankReplay, hr, hx, hop] <;> rfl

variable (hx : s.access r.agent r.id = none)
include hx

theorem bankReplay_of_word (ha : ∀ n, r.agent ≠ .engine n) : exec (.bankReplay p e) s =
    .next (if (s.elem p e).ownAlive r.id = true then s else s.setElem p e ((s.elem p e).unreplayed r)) := by
  change execBankReplay p e s = _
  simp only [execBankReplay, hr, hx]
  cases hag : r.agent with
  | engine n => exact absurd hag (ha n)
  | _ => split <;> rfl

variable {n : Nat} (ha : r.agent = .engine n)
include ha

theorem bankReplay_of_idle_engine (hm : (s.engine n).any (fun x => s.moves x) = false) :
    exec (.bankReplay p e) s = .next (s.setElem p e ((s.elem p e).unreplayed r)) := by
  change execBankReplay p e s = _
  simp only [execBankReplay, hr, ha, ha ▸ hx, hm]
  rfl

theorem bankReplay_of_moving_engine (hm : (s.engine n).any (fun x => s.moves x) = true) (hid : r.id < 2 ^ 40) :
    exec (.bankReplay p e) s = exec (.readStep (.engine n) r.id) (s.setElem p e ((s.elem p e).presents r s.clock.n)) := by
  change execBankReplay p e s = _
  simp only [execBankReplay, hr, ha, ha ▸ hx, hm, if_true, execEngineReplay]
  rw [if_pos hid]
  rfl

end

/-- Settles O43: each switch word adds by `putNew`; each event by the lemma of its case. -/
theorem switchWordsAndRouters : Obligations.SwitchWordsAndRouters := by
  unfold Obligations.SwitchWordsAndRouters
  refine ⟨fun s i o c first run w => ⟨⟨_, ⟨_, rfl, rfl⟩, fun _ => mem_putNew⟩, ⟨_, ⟨_, rfl, rfl⟩, fun _ => mem_putNew⟩,
      ⟨_, ⟨_, rfl, rfl⟩, fun _ => mem_putNew⟩, ⟨_, ⟨_, rfl, rfl⟩, fun _ => mem_putNew⟩, ⟨_, ⟨_, rfl, rfl⟩, fun _ => mem_putNew⟩,
      rfl, rfl, fun _ => nodup_putNew⟩,
    fun s p e => ⟨fun i c u rest hw hrun hfr => ⟨fun hne hcap hout hall => ?_, fun hnil o ho hcl hn hcap hl => ?_, routerForward_of_captured hw⟩,
      fun o ho hs hroom => ⟨fun j n w tag by_ rs hr hj => ?_, fun u us rs hr => ?_, fun u us hr he => emitterSend_eq ho hs hroom hr he⟩,
      fun hs t rest ht => ?_,
      fun r hr => ⟨fun x hx => bankReplay_of_access hr hx, fun hx ha => bankReplay_of_word hr hx ha,
        fun n hx ha => ⟨bankReplay_of_idle_engine hr hx ha, bankReplay_of_moving_engine hr hx ha⟩⟩⟩⟩
  · have hb : (s.elem p e).router.unscheduled i c = false := by
      rw [Bool.eq_false_iff, ne_eq, unscheduled_iff]
      exact hne
    exact routerForward_of_bound hw hrun hfr hcap hb (boundTo_eq ..) hout hall
  · exact routerForward_of_free hw hrun hfr hcap ((unscheduled_iff ..).mpr hnil) ho hcl hn hl
  · have hnext : (Run.gen j n w tag by_).next = some (genSlot j n w tag by_, if j + 1 = n then none else some (.gen (j + 1) n w tag by_)) :=
      if_pos hj
    rw [generatorEmit_eq ho hs hroom, Elem.modPort, generate_of_next hr hnext, toList_ite_append, genSlot, ← BitVec.ofNat_toNat]
  · have hnext : (Run.units (u :: us)).next = some (u, if us.isEmpty then none else some (.units us)) := rfl
    rw [generatorEmit_eq ho hs hroom, Elem.modPort, generate_of_next hr hnext]
    cases us <;> rfl
  · rw [scaleTokenArrive_eq hs (by simp [ht]), scaleTake_eq ht]

end Sys2Proof.Machine
end

section
/-! PROOFS of the family of the encodings: decode and encode agree, the words of the tables decode, and every step goes on (R73, R74, R86,
R98, R99, R101 to R103). -/

namespace Sys2Proof.Machine

/-- Each constructor by the round trip of its word; an operation or event has no word. -/
theorem roundTrip (i : Instr) : Laws.RoundTrip.Statement i := by
  cases i with
  | slot => exact Laws.RoundTrip.slot _ _ _ _ _
  | seqAdd => exact Laws.RoundTrip.seqAdd _ _ _
  | seqSub => exact Laws.RoundTrip.seqSub _ _ _
  | seqAnd => exact Laws.RoundTrip.seqAnd _ _ _
  | seqOr => exact Laws.RoundTrip.seqOr _ _ _
  | seqXor => exact Laws.RoundTrip.seqXor _ _ _
  | seqSll => exact Laws.RoundTrip.seqSll _ _ _
  | seqSrl => exact Laws.RoundTrip.seqSrl _ _ _
  | seqSra => exact Laws.RoundTrip.seqSra _ _ _
  | seqSlt => exact Laws.RoundTrip.seqSlt _ _ _
  | seqSltu => exact Laws.RoundTrip.seqSltu _ _ _
  | seqMul => exact Laws.RoundTrip.seqMul _ _ _
  | seqMulh => exact Laws.RoundTrip.seqMulh _ _ _
  | seqMulhu => exact Laws.RoundTrip.seqMulhu _ _ _
  | seqDiv => exact Laws.RoundTrip.seqDiv _ _ _
  | seqDivu => exact Laws.RoundTrip.seqDivu _ _ _
  | seqRem => exact Laws.RoundTrip.seqRem _ _ _
  | seqRemu => exact Laws.RoundTrip.seqRemu _ _ _
  | seqMin => exact Laws.RoundTrip.seqMin _ _ _
  | seqMax => exact Laws.RoundTrip.seqMax _ _ _
  | minu => exact Laws.RoundTrip.minu _ _ _
  | maxu => exact Laws.RoundTrip.maxu _ _ _
  | seqAdds => exact Laws.RoundTrip.seqAdds _ _ _
  | seqSubs => exact Laws.RoundTrip.seqSubs _ _ _
  | kcmp => exact Laws.RoundTrip.kcmp _ _ _ _
  | xret => exact Laws.RoundTrip.xret
  | wfe => exact Laws.RoundTrip.wfe
  | seqFence => exact Laws.RoundTrip.seqFence _
  | freeze => exact Laws.RoundTrip.freeze
  | tscr => exact Laws.RoundTrip.tscr _
  | rdtag => exact Laws.RoundTrip.rdtag _
  | launch => exact Laws.RoundTrip.launch _ _ _
  | signal => exact Laws.RoundTrip.signal _ _ _
  | seqAddi => exact Laws.RoundTrip.seqAddi _ _ _
  | seqAndi => exact Laws.RoundTrip.seqAndi _ _ _
  | seqOri => exact Laws.RoundTrip.seqOri _ _ _
  | seqXori => exact Laws.RoundTrip.seqXori _ _ _
  | seqSlti => exact Laws.RoundTrip.seqSlti _ _ _
  | sltiu => exact Laws.RoundTrip.sltiu _ _ _
  | seqSlli => exact Laws.RoundTrip.seqSlli _ _ _
  | seqSrli => exact Laws.RoundTrip.seqSrli _ _ _
  | seqSrai => exact Laws.RoundTrip.seqSrai _ _ _
  | lui => exact Laws.RoundTrip.lui _ _
  | jalr => exact Laws.RoundTrip.jalr _ _ _
  | trap => exact Laws.RoundTrip.trap _ _ _
  | csrr => exact Laws.RoundTrip.csrr _ _
  | csrw => exact Laws.RoundTrip.csrw _ _
  | lb => exact Laws.RoundTrip.lb _ _ _
  | lbu => exact Laws.RoundTrip.lbu _ _ _
  | lh => exact Laws.RoundTrip.lh _ _ _
  | lhu => exact Laws.RoundTrip.lhu _ _ _
  | lw => exact Laws.RoundTrip.lw _ _ _
  | sb => exact Laws.RoundTrip.sb _ _ _
  | sh => exact Laws.RoundTrip.sh _ _ _
  | sw => exact Laws.RoundTrip.sw _ _ _
  | beq => exact Laws.RoundTrip.beq _ _ _
  | bne => exact Laws.RoundTrip.bne _ _ _
  | blt => exact Laws.RoundTrip.blt _ _ _
  | bge => exact Laws.RoundTrip.bge _ _ _
  | bltu => exact Laws.RoundTrip.bltu _ _ _
  | bgeu => exact Laws.RoundTrip.bgeu _ _ _
  | bkt => exact Laws.RoundTrip.bkt _ _
  | bkf => exact Laws.RoundTrip.bkf _ _
  | j => exact Laws.RoundTrip.j _
  | jal => exact Laws.RoundTrip.jal _
  | loop => exact Laws.RoundTrip.loop _ _ _
  | loopr => exact Laws.RoundTrip.loopr _ _ _
  | lbrk => exact Laws.RoundTrip.lbrk _
  | ldm => exact Laws.RoundTrip.ldm _ _ _ _ _ _
  | stm => exact Laws.RoundTrip.stm _ _ _ _ _
  | seqAadd => exact Laws.RoundTrip.seqAadd _ _ _ _ _
  | seqAmin => exact Laws.RoundTrip.seqAmin _ _ _ _ _
  | seqAmax => exact Laws.RoundTrip.seqAmax _ _ _ _ _
  | seqAand => exact Laws.RoundTrip.seqAand _ _ _ _ _
  | seqAor => exact Laws.RoundTrip.seqAor _ _ _ _ _
  | seqAxor => exact Laws.RoundTrip.seqAxor _ _ _ _ _
  | seqAswp => exact Laws.RoundTrip.seqAswp _ _ _ _ _
  | seqAcas => exact Laws.RoundTrip.seqAcas _ _ _ _ _
  | sbind => exact Laws.RoundTrip.sbind _ _
  | sgo => exact Laws.RoundTrip.sgo _
  | swaitp => exact Laws.RoundTrip.swaitp _
  | sbar => exact Laws.RoundTrip.sbar
  | cfgld => exact Laws.RoundTrip.cfgld _ _
  | cfgpat => exact Laws.RoundTrip.cfgpat _ _
  | cfgrect => exact Laws.RoundTrip.cfgrect _ _
  | cfgcmt => exact Laws.RoundTrip.cfgcmt _
  | cfgabt => exact Laws.RoundTrip.cfgabt
  | add => exact Laws.RoundTrip.add _ _ _ _ _ _
  | sub => exact Laws.RoundTrip.sub _ _ _ _ _ _
  | mul => exact Laws.RoundTrip.mul _ _ _ _ _ _
  | mulh => exact Laws.RoundTrip.mulh _ _ _ _ _ _
  | mulhu => exact Laws.RoundTrip.mulhu _ _ _ _ _ _
  | div => exact Laws.RoundTrip.div _ _ _ _ _ _
  | divu => exact Laws.RoundTrip.divu _ _ _ _ _ _
  | rem => exact Laws.RoundTrip.rem _ _ _ _ _ _
  | remu => exact Laws.RoundTrip.remu _ _ _ _ _ _
  | and => exact Laws.RoundTrip.and _ _ _ _ _ _
  | or => exact Laws.RoundTrip.or _ _ _ _ _ _
  | xor => exact Laws.RoundTrip.xor _ _ _ _ _ _
  | sll => exact Laws.RoundTrip.sll _ _ _ _ _ _
  | srl => exact Laws.RoundTrip.srl _ _ _ _ _ _
  | sra => exact Laws.RoundTrip.sra _ _ _ _ _ _
  | slt => exact Laws.RoundTrip.slt _ _ _ _ _ _
  | sltu => exact Laws.RoundTrip.sltu _ _ _ _ _ _
  | min => exact Laws.RoundTrip.min _ _ _ _ _ _
  | max => exact Laws.RoundTrip.max _ _ _ _ _ _
  | adds => exact Laws.RoundTrip.adds _ _ _ _ _ _
  | subs => exact Laws.RoundTrip.subs _ _ _ _ _ _
  | fadd => exact Laws.RoundTrip.fadd _ _ _ _ _ _ _ _
  | fsub => exact Laws.RoundTrip.fsub _ _ _ _ _ _ _ _
  | fmul => exact Laws.RoundTrip.fmul _ _ _ _ _ _ _ _
  | fdiv => exact Laws.RoundTrip.fdiv _ _ _ _ _ _ _ _
  | fmac => exact Laws.RoundTrip.fmac _ _ _ _ _ _ _ _
  | fmin => exact Laws.RoundTrip.fmin _ _ _ _ _ _ _
  | fmax => exact Laws.RoundTrip.fmax _ _ _ _ _ _ _
  | fsqrt => exact Laws.RoundTrip.fsqrt _ _ _ _ _ _ _
  | feq => exact Laws.RoundTrip.feq _ _ _ _ _ _ _
  | flt => exact Laws.RoundTrip.flt _ _ _ _ _ _ _
  | fle => exact Laws.RoundTrip.fle _ _ _ _ _ _ _
  | mov => exact Laws.RoundTrip.mov _ _ _ _ _
  | sel => exact Laws.RoundTrip.sel _ _ _ _ _ _ _
  | lbc => exact Laws.RoundTrip.lbc _ _ _
  | lext => exact Laws.RoundTrip.lext _ _ _ _
  | lins => exact Laws.RoundTrip.lins _ _ _
  | pack => exact Laws.RoundTrip.pack _ _ _ _ _ _ _
  | unpk => exact Laws.RoundTrip.unpk _ _ _ _ _ _ _
  | mlane => exact Laws.RoundTrip.mlane _ _ _ _ _ _
  | mset => exact Laws.RoundTrip.mset _ _
  | mget => exact Laws.RoundTrip.mget _ _
  | sprd => exact Laws.RoundTrip.sprd _ _
  | spwr => exact Laws.RoundTrip.spwr _ _
  | take => exact Laws.RoundTrip.take _ _ _
  | peek => exact Laws.RoundTrip.peek _ _ _
  | adv => exact Laws.RoundTrip.adv _ _
  | emit => exact Laws.RoundTrip.emit _ _
  | waitf => exact Laws.RoundTrip.waitf _ _ _
  | waite => exact Laws.RoundTrip.waite _ _ _
  | rrot => exact Laws.RoundTrip.rrot _ _ _ _
  | lgen => exact Laws.RoundTrip.lgen _ _ _ _
  | tcmp => exact Laws.RoundTrip.tcmp _ _ _
  | tjoin => exact Laws.RoundTrip.tjoin _ _ _
  | tmeet => exact Laws.RoundTrip.tmeet _ _ _
  | tadv => exact Laws.RoundTrip.tadv _ _ _
  | frd => exact Laws.RoundTrip.frd _ _
  | frdCnt => exact Laws.RoundTrip.frdCnt _ _
  | fwait => exact Laws.RoundTrip.fwait _ _
  | caph => exact Laws.RoundTrip.caph _ _
  | capd => exact Laws.RoundTrip.capd _ _
  | capx => exact Laws.RoundTrip.capx _ _ _
  | ains => exact Laws.RoundTrip.ains _ _ _ _
  | amrg => exact Laws.RoundTrip.amrg _ _ _
  | aprb => exact Laws.RoundTrip.aprb _ _ _ _
  | acmp => exact Laws.RoundTrip.acmp _ _ _
  | acon => exact Laws.RoundTrip.acon _ _ _
  | join => exact Laws.RoundTrip.join _ _ _ _ _ _
  | red => exact Laws.RoundTrip.red _ _ _ _ _
  | wrel => exact Laws.RoundTrip.wrel _ _ _
  | aadd => exact Laws.RoundTrip.aadd _ _ _ _ _ _
  | amin => exact Laws.RoundTrip.amin _ _ _ _ _ _
  | amax => exact Laws.RoundTrip.amax _ _ _ _ _ _
  | aand => exact Laws.RoundTrip.aand _ _ _ _ _ _
  | aor => exact Laws.RoundTrip.aor _ _ _ _ _ _
  | axor => exact Laws.RoundTrip.axor _ _ _ _ _ _
  | aswp => exact Laws.RoundTrip.aswp _ _ _ _ _ _
  | acas => exact Laws.RoundTrip.acas _ _ _ _ _ _
  | pwait => exact Laws.RoundTrip.pwait _ _ _ _
  | pgive => exact Laws.RoundTrip.pgive _ _ _ _
  | pswap => exact Laws.RoundTrip.pswap _ _ _ _
  | paban => exact Laws.RoundTrip.paban _ _ _ _
  | prel => exact Laws.RoundTrip.prel _ _ _ _
  | cpy => exact Laws.RoundTrip.cpy _ _ _
  | gath => exact Laws.RoundTrip.gath _ _ _
  | scat => exact Laws.RoundTrip.scat _ _ _
  | trig => exact Laws.RoundTrip.trig _ _ _
  | coll => exact Laws.RoundTrip.coll _ _ _
  | flagst => exact Laws.RoundTrip.flagst _ _ _
  | thaw => exact Laws.RoundTrip.thaw _ _
  | bubl => exact Laws.RoundTrip.bubl _ _ _
  | addi => exact Laws.RoundTrip.addi _ _ _
  | andi => exact Laws.RoundTrip.andi _ _ _
  | ori => exact Laws.RoundTrip.ori _ _ _
  | xori => exact Laws.RoundTrip.xori _ _ _
  | slti => exact Laws.RoundTrip.slti _ _ _
  | slli => exact Laws.RoundTrip.slli _ _ _
  | srli => exact Laws.RoundTrip.srli _ _ _
  | srai => exact Laws.RoundTrip.srai _ _ _
  | movhi => exact Laws.RoundTrip.movhi _ _
  | drain => exact Laws.RoundTrip.drain _
  | ldI8 => exact Laws.RoundTrip.ldI8 _ _ _ _
  | ldB8 => exact Laws.RoundTrip.ldB8 _ _ _ _
  | ldI16 => exact Laws.RoundTrip.ldI16 _ _ _ _
  | ldB16 => exact Laws.RoundTrip.ldB16 _ _ _ _
  | ldB32 => exact Laws.RoundTrip.ldB32 _ _ _ _
  | ldB64 => exact Laws.RoundTrip.ldB64 _ _ _ _
  | ldW => exact Laws.RoundTrip.ldW _ _ _ _
  | stB8 => exact Laws.RoundTrip.stB8 _ _ _ _
  | stB16 => exact Laws.RoundTrip.stB16 _ _ _ _
  | stB32 => exact Laws.RoundTrip.stB32 _ _ _ _
  | stB64 => exact Laws.RoundTrip.stB64 _ _ _ _
  | stW => exact Laws.RoundTrip.stW _ _ _ _
  | ldAcqB32 => exact Laws.RoundTrip.ldAcqB32 _ _ _ _
  | ldAcqB64 => exact Laws.RoundTrip.ldAcqB64 _ _ _ _
  | stRelB32 => exact Laws.RoundTrip.stRelB32 _ _ _ _
  | stRelB64 => exact Laws.RoundTrip.stRelB64 _ _ _ _
  | ldf => exact Laws.RoundTrip.ldf _ _ _ _
  | ldfe => exact Laws.RoundTrip.ldfe _ _ _ _
  | ste => exact Laws.RoundTrip.ste _ _ _ _
  | stf => exact Laws.RoundTrip.stf _ _ _ _
  | feclr => exact Laws.RoundTrip.feclr _ _ _ _
  | place => exact Laws.RoundTrip.place _ _ _
  | fence => exact Laws.RoundTrip.fence _
  | mma => exact Laws.RoundTrip.mma _ _ _ _ _ _ _
  | mmag => exact Laws.RoundTrip.mmag _ _ _ _ _ _ _
  | ldt => exact Laws.RoundTrip.ldt _ _ _
  | sortn => exact Laws.RoundTrip.sortn _ _ _ _ _
  | cvt => exact Laws.RoundTrip.cvt _ _ _ _ _
  | scld => exact Laws.RoundTrip.scld _ _ _ _
  | scem => exact Laws.RoundTrip.scem _ _ _ _
  | accld => exact Laws.RoundTrip.accld _ _ _
  | accst => exact Laws.RoundTrip.accst _ _ _ _
  | rmax => exact Laws.RoundTrip.rmax _ _ _ _ _
  | rmin => exact Laws.RoundTrip.rmin _ _ _ _ _
  | rclmp => exact Laws.RoundTrip.rclmp _ _ _ _ _
  | rmed => exact Laws.RoundTrip.rmed _ _ _ _ _
  | rsats => exact Laws.RoundTrip.rsats _ _ _ _ _
  | adjb => exact Laws.RoundTrip.adjb _ _ _ _
  | commit => exact Laws.RoundTrip.commit
  | br => exact Laws.RoundTrip.br _ _ _ _ _
  | halt => exact Laws.RoundTrip.halt
  | nop => exact Laws.RoundTrip.nop
  | circ => exact Laws.RoundTrip.circ _ _ _
  | best => exact Laws.RoundTrip.best _ _
  | width => exact Laws.RoundTrip.width _ _
  | scale => exact Laws.RoundTrip.scale _ _
  | endList => exact Laws.RoundTrip.endList
  | _ => exact Laws.RoundTrip.event_ok rfl

/-- Settles O4: constructor by constructor, `roundTrip`. -/
theorem decodeAndEncodeAgree : Obligations.DecodeAndEncodeAgree := roundTrip

/-- Settles O5: what each instruction and each step comes to is a next state (`exec_goes`, `step_goes`). -/
theorem everyStepGoesOn : Obligations.EveryStepGoesOn :=
  ⟨fun i s => (exec_goes i s).next_exists, fun s => (step_goes s).next_exists⟩

/-- Settles O1: the decoder is run on each word of the three lists, and on the words of zeros and of ones. -/
theorem decodingIsRight : Obligations.DecodingIsRight := by
  unfold Obligations.DecodingIsRight
  exact ⟨by decide, by decide, by decide, by decide, by decide⟩

end Sys2Proof.Machine
end

section
/-! SUPPORT. How a word goes on after a choice between two of its parts. -/

namespace Sys2Proof.Machine

section
variable {α β γ : Type} {k k' : Wk} {x : α} {y : γ}

theorem W.gives_map {f : W α} (φ : α → γ) (h : Terms.gives f k x k') : Terms.gives (do pure (φ (← f)) : W γ) k (φ x) k' := W.bind_of_ok h

/-- A part whose result a function takes on, followed by the rest. -/
theorem W.bind_map_of_ok {f : W α} {φ : α → γ} {g : γ → W β} (h : (do pure (φ (← f)) : W γ) k = .ok (y, k')) :
    (f >>= fun u => pure (φ u) >>= g) k = g y k' := by
  obtain ⟨u, k₁, hf, hu⟩ := W.ok_of_bind h
  cases hu
  exact W.bind_of_ok hf

/-- A choice between two parts, each followed by the same rest. -/
theorem W.ite_then {c : Prop} [Decidable c] {f f' : W α} {p p' : W β} {r : Except Stop (β × Wk)}
    (h : (if c then f else f') k = .ok (x, k')) (hp : f k = .ok (x, k') → p k = r) (hp' : f' k = .ok (x, k') → p' k = r) :
    (if c then p else p') k = r := by
  by_cases hc : c
  · rw [if_pos hc] at h ⊢
    exact hp h
  · rw [if_neg hc] at h ⊢
    exact hp' h

end

end Sys2Proof.Machine
end

section
/-! PROOFS of the family of the encodings: an atomic in the step of its word's owner (R82, R131, R217, R304). -/

namespace Sys2Proof.Machine

/-! ### Bytes of memory by their addresses -/

/-- Bytes put at listed addresses read back, and no other byte changes. -/
theorem Memory.get_puts_map (f : Nat → Byte) (x : Nat) (l : List Nat) : ∀ {m : Memory}, m.wf = true →
    (m.puts (l.map (fun a => (a, f a)))).get x = if x ∈ l then f x else m.get x := by
  induction l with
  | nil => exact fun _ => (if_neg List.not_mem_nil).symm
  | cons a l ih =>
    intro m h
    obtain ⟨hc, hf⟩ := (Memory.wf_iff m).1 h
    have hw : (Memory.mk (cellPut m.cells a (f a)) m.full).wf = true := (Memory.wf_iff _).2 ⟨cellsWf_cellPut m.cells a (f a) hc, hf⟩
    have hput : (Memory.mk (cellPut m.cells a (f a)) m.full).get x = if x = a then f a else m.get x := cellGet_cellPut m.cells a x (f a) hc
    refine (ih hw).trans ?_
    rw [hput]
    by_cases hl : x ∈ l
    · simp [hl]
    · by_cases hx : x = a
      · simp [hx]
      · simp [hl, hx]

theorem Memory.read_eq_map (m : Memory) (a n : Nat) : m.read a n = (List.range n).map (fun i => m.get (a + i)) := by
  refine List.ext_getElem? fun i => ?_
  by_cases hi : i < n
  · simp [Memory.read, Memory.get, cellRead_getElem? _ _ _ _ hi, hi]
  · simp [Memory.read, cellRead_length, hi]

/-! ### What the owner's step leaves -/

section
variable {s : State} (h : s.mem.wf = true) (a n : Nat)
include h

/-- The bytes that an Owner step brings on to memory have their youngest values there; the others stay. -/
theorem State.get_ownFlush (b : Nat) : (s.ownFlush a n).mem.get b = if a ≤ b ∧ b < a + n then s.newest b else s.mem.get b := by
  have hm : b ∈ (List.range n).map (a + ·) ↔ a ≤ b ∧ b < a + n := by
    simp only [List.mem_map, List.mem_range]
    exact ⟨by omega, fun hb => ⟨b - a, by omega, by omega⟩⟩
  have hputs := Memory.get_puts_map s.newest b ((List.range n).map (a + ·)) h
  simp only [hm] at hputs
  exact (Memory.get_marks _ _ _).trans hputs

theorem State.read_ownFlush : (s.ownFlush a n).mem.read a n = (List.range n).map (fun i => s.newest (a + i)) := by
  rw [Memory.read_eq_map]
  refine List.map_congr_left fun i hi => ?_
  rw [State.get_ownFlush h, if_pos (by have := List.mem_range.1 hi; omega)]

/-- Once an Owner step has written a number over the bytes that it brought on to memory, they spell it, and the others stay. -/
theorem State.get_ownFlush_ownWrite (v b : Nat) : ((s.ownFlush a n).ownWrite a (leBytes n v)).mem.get b =
    if a ≤ b ∧ b < a + n then BitVec.ofNat 8 (v / 256 ^ (b - a)) else s.mem.get b := by
  refine (Memory.get_write _ _ _ _ (State.ownFlush_wf h a n)).trans ?_
  rw [leBytes_length]
  by_cases hb : a ≤ b ∧ b < a + n
  · rw [if_pos hb, if_pos hb, leBytes_getD _ (by omega)]
  · rw [if_neg hb, if_neg hb, State.get_ownFlush h, if_neg hb]

end

/-- No buffer holds a byte that an Owner step has brought on to memory (R308). -/
theorem State.vis_ownFlush (s : State) (a n : Nat) :
    ∀ v ∈ (s.ownFlush a n).ord.vis, ∀ e ∈ v.2, ∀ c ∈ e.bytes, c.1 < a ∨ a + n ≤ c.1 := by
  intro v hv e he c hc
  obtain ⟨w, -, rfl⟩ := List.mem_map.1 hv
  obtain ⟨x, -, rfl⟩ := List.mem_map.1 (List.mem_of_mem_filter he)
  have hk := List.of_mem_filter hc
  simp only [Bool.not_eq_true', Bool.and_eq_false_iff, decide_eq_false_iff_not] at hk
  omega

/-! ### Atomics -/

theorem atomResult_eq_atomicValue {n : Nat} (k : AtomKind) (old x y : BitVec n) : atomResult k old x y = Terms.atomicValue k old x y := by
  cases k with
  | add =>
    apply BitVec.eq_of_toNat_eq
    simp [atomResult, Terms.atomicValue]
  | min | max =>
    simp only [atomResult, Terms.atomicValue, BitVec.slt, decide_eq_true_eq]
    rcases lt_trichotomy old.toInt x.toInt with hlt | heq | hgt
    · simp [hlt, hlt.le]
    · simp [BitVec.eq_of_toInt_eq heq]
    · simp [not_lt.2 hgt.le, not_le.2 hgt]
  | and | or | xor | swap | cas => rfl

/-- What an atomic leaves in its word: its kind's result at the word's width (R131, R217). -/
def atomicNew (k : AtomKind) (wide : Bool) (old : Nat) (x y : DWord) : Nat :=
  if wide then (Terms.atomicValue k (BitVec.ofNat 64 old) x y).toNat
  else (Terms.atomicValue k (BitVec.ofNat 32 old) (BitVec.ofNat 32 x.toNat) (BitVec.ofNat 32 y.toNat)).toNat

/-- An atomic answers the youngest value of its word, and its owner's step writes the result over it. -/
theorem State.atomic_eq {s : State} (h : s.mem.wf = true) (k : AtomKind) (wide : Bool) (a : Nat) (x y : DWord) :
    let n := if wide then 8 else 4
    let old := leNat ((List.range n).map (fun i => s.newest (a + i)))
    s.atomic k wide a x y = (BitVec.ofNat 64 old, (s.ownFlush a n).ownWrite a (leBytes n (atomicNew k wide old x y))) := by
  intro n old
  have hold : leNat ((s.ownFlush a n).mem.read a n) = old := congrArg leNat (State.read_ownFlush h a n)
  unfold State.atomic
  dsimp only
  rw [hold]
  cases wide with
  | true => rw [if_pos rfl, atomResult_eq_atomicValue]; rfl
  | false => rw [if_neg Bool.false_ne_true, atomResult_eq_atomicValue, ← BitVec.ofNat_toNat, ← BitVec.ofNat_toNat]; rfl

/-- Settles O21: by `State.atomic_eq`, an atomic is a bringing on of its word's bytes and a write over them. -/
theorem atomicEffect : Obligations.AtomicEffect := by
  unfold Obligations.AtomicEffect
  intro s k wide a x y h n t old new
  have heq := State.atomic_eq h k wide a x y
  have ht : t = (s.ownFlush a n).ownWrite a (leBytes n new) := congrArg Prod.snd heq
  refine ⟨congrArg Prod.fst heq, State.atomic_wf h k wide a x y, fun b => ?_, ?_, ?_, ?_⟩ <;> rw [ht]
  · exact State.get_ownFlush_ownWrite h a n new b
  · exact s.vis_ownFlush a n
  · rfl
  · rfl

end Sys2Proof.Machine
end

section
/-! PROOFS of the family of the encodings: the floating-point words of an element (R92, R161, R162, R444). -/

namespace Sys2Proof.Machine

theorem ftFuse_eq (f : BitVec 2) : ftFuse f = [2, 1, 1, 3].getD f.toNat 0 := by
  revert f
  decide

theorem exec_of_elementFloat {row} (h : row ∈ Terms.elementFloat) (d a b : BitVec 5) (f : BitVec 2) (r : BitVec 3) (w z : BitVec 1)
    (n : BitVec 3) (s : State) : exec (row.1 d a b f r w z n) s = runWord (fpWord row.2.1 d a b f (row.2.2 r) w z n) s := by
  revert row
  simp only [Terms.elementFloat, List.forall_mem_cons]
  exact ⟨rfl, rfl, rfl, rfl, rfl, rfl, rfl, rfl, rfl, rfl, fun _ h => nomatch h⟩

theorem ne_sqrt_of_elementFloat {row} (h : row ∈ Terms.elementFloat) : row.2.1 ≠ .sqrt := by
  revert row
  simp only [Terms.elementFloat, List.forall_mem_cons]
  exact ⟨nofun, nofun, nofun, nofun, nofun, nofun, nofun, nofun, nofun, nofun, fun _ h => nomatch h⟩

/-- The lanes of a floating-point result (R161). -/
def floatLanes (g : FFmt) (op : FpOp) (rm : Rm) (l : Nat) (x y c : Slot) : List Nat :=
  (List.range (256 / l)).map (fun j => g.op op rm (Terms.laneAt l x j) (Terms.laneAt l y j) (Terms.laneAt l c j))

/-- A source that a floating-point operation has or has not, as its lanes: without one, every lane is 0. -/
def lanesOrNone (l : Nat) (u : Option Slot) : List Nat := (u.map (lanesOf l)).getD []

theorem lanesOrNone_getD {l j : Nat} (u : Option Slot) (h : j < 256 / l) : (lanesOrNone l u).getD j 0 = Terms.laneAt l (u.getD 0) j := by
  cases u with
  | none => simp [lanesOrNone, Terms.laneAt]
  | some u => exact lanesOf_getD u h

theorem floatLanes_eq (g : FFmt) (op : FpOp) (rm : Rm) (l : Nat) (x : Slot) (y c : Option Slot) :
    (List.range (lanesOf l x).length).map (fun j =>
      g.op op rm ((lanesOf l x).getD j 0) ((lanesOrNone l y).getD j 0) ((lanesOrNone l c).getD j 0)) =
    floatLanes g op rm l x (y.getD 0) (c.getD 0) := by
  have hn : (lanesOf l x).length = 256 / l := by simp [lanesOf]
  rw [hn]
  refine List.map_congr_left fun j hj => ?_
  have hj := List.mem_range.1 hj
  rw [lanesOf_getD x hj, lanesOrNone_getD y hj, lanesOrNone_getD c hj]

section
variable {op : FpOp} {d a b : BitVec 5} (f : BitVec 2) (rm : Rm) (z : BitVec 1) (n : BitVec 3) {k₀ k₁ k₂ k₃ k : Wk}

/-- A scalar operation, once it has each source that its kind takes. -/
theorem fpWord_scalar {x y c : Word} (hx : Terms.gives (rdScalar a.toNat) k₀ x k₁)
    (hy : Terms.gives (if op = .sqrt then pure 0 else rdScalar b.toNat) k₁ y k₂)
    (hc : Terms.gives (if op = .mac then rdS d.toNat else pure 0) k₂ c k₃)
    (hw : Terms.gives (wrScalar d.toNat (BitVec.ofNat 32 (fp32.op op rm x.toNat y.toNat c.toNat))) k₃ () k) :
    fpWord op d a b f rm 0 z n k₀ = .ok ((), k) := by
  rw [fpWord, if_pos rfl, W.bind_of_ok hx]
  exact (W.ite_then hy W.bind_of_ok W.bind_of_ok).trans ((W.ite_then hc W.bind_of_ok W.bind_of_ok).trans hw)

/-- What a wide word checks first: the patch's service (R444) and FUSE (R92). -/
theorem fpWord_of_fuse (hadm : Terms.admits k₀ (f == 0 || f == 3)) (hf : k₀.i.fuseAt ≠ ftFuse f) :
    fpWord op d a b f rm 1 z n k₀ = .error (.fault .illop 2 (Terms.wordAt k₀)) := by
  rw [fpWord, if_neg (by decide), W.bind_of_ok (fullOnly_of_admits hadm), W.bind_of_ok (W.get_apply k₀), if_pos hf]
  exact W.bind_of_error (W.illop_apply ..)

/-- A wide operation, once it has each source that its kind takes. -/
theorem fpWord_wide {x : Slot} {y c : Option Slot} (hadm : Terms.admits k₀ (f == 0 || f == 3)) (hf : k₀.i.fuseAt = ftFuse f)
    (hx : Terms.gives (rdWide a.toNat) k₀ x k₁)
    (hy : Terms.gives (if op = .sqrt then pure [] else do pure (lanesOf (Terms.laneBits k₀) (← rdWide b.toNat))) k₁
      (lanesOrNone (Terms.laneBits k₀) y) k₂)
    (hc : Terms.gives (if op = .mac then do pure (lanesOf (Terms.laneBits k₀) (← rdW d.toNat)) else pure []) k₂
      (lanesOrNone (Terms.laneBits k₀) c) k₃)
    (hw : Terms.gives (wrWide d.toNat (Terms.laneBits k₀) (k₃.i.r.m.getD n.toNat 0) (z == 1)
      (floatLanes (ftOf f) op rm (Terms.laneBits k₀) x (y.getD 0) (c.getD 0))) k₃ () k) :
    fpWord op d a b f rm 1 z n k₀ = .ok ((), k) := by
  have hl : W.lane k₀ = .ok (Terms.laneBits k₀, k₀) := rfl
  have hm : rdM n.toNat k₃ = .ok (k₃.i.r.m.getD n.toNat 0, k₃) := rfl
  rw [← floatLanes_eq] at hw
  rw [fpWord, if_neg (by decide), W.bind_of_ok (fullOnly_of_admits hadm), W.bind_of_ok (W.get_apply k₀), if_neg (not_not.2 hf)]
  refine (W.bind_of_ok hl).trans ((W.bind_of_ok hx).trans ?_)
  refine (W.ite_then hy W.bind_of_ok W.bind_map_of_ok).trans ((W.ite_then hc W.bind_map_of_ok W.bind_of_ok).trans ?_)
  exact (W.bind_of_ok hm).trans hw

end

/-- A patch at the full rate, where the type is one that needs it (R444). -/
theorem admits_of_fullRate {s : State} {i : Inst} {f : BitVec 2}
    (h : (f = 0 ∨ f = 3) → (s.patch s.cur.patch).fullRate = true) : Terms.admits ⟨s, i⟩ (f == 0 || f == 3) :=
  fun hf => h (by simpa using hf)

/-- Settles O28: each word is `fpWord` of its operation, with the sources that this takes. -/
theorem elementFloatWords : Obligations.ElementFloatWords := by
  unfold Obligations.ElementFloatWords
  intro s i d a b f r z n ht sum fits
  refine ⟨fun row hrow hmac => ⟨fun x y k₁ k₂ k hx hy hw => ?_, fun ⟨hf, hadm⟩ x y k₁ k₂ k hx hy hw => ?_⟩,
    fun x y c k₁ k₂ k₃ k hx hy hc hw => ?_, fun ⟨hf, hadm⟩ x y c k₁ k₂ k₃ k hx hy hc hw => ?_, fun x k₁ k hx hw => ?_,
    fun ⟨hf, hadm⟩ x k₁ k hx hw => ?_, fun hf hadm row hrow => ?_⟩
  · have hsqrt := ne_sqrt_of_elementFloat hrow
    refine completes_of_ok (exec_of_elementFloat hrow ..) ht (fpWord_scalar (k₂ := k₂) (c := 0) f _ z n hx ?_ ?_ hw)
    · rwa [if_neg hsqrt]
    · rw [if_neg hmac]; rfl
  · have hsqrt := ne_sqrt_of_elementFloat hrow
    refine completes_of_ok (exec_of_elementFloat hrow ..) ht
      (fpWord_wide (k₂ := k₂) (y := some y) (c := none) f _ z n (admits_of_fullRate hadm) (hf.trans (ftFuse_eq f).symm) hx ?_ ?_ hw)
    · rw [if_neg hsqrt]; exact W.gives_map _ hy
    · rw [if_neg hmac]; rfl
  · exact completes_of_ok (f := fpWord .mac d a b f (rmOf r) 0 z n) rfl ht (fpWord_scalar f _ z n hx hy hc hw)
  · exact completes_of_ok (f := fpWord .mac d a b f (rmOf r) 1 z n) rfl ht
      (fpWord_wide (y := some y) (c := some c) f _ z n (admits_of_fullRate hadm) (hf.trans (ftFuse_eq f).symm) hx (W.gives_map _ hy)
        (W.gives_map _ hc) hw)
  · exact completes_of_ok (f := fpWord .sqrt d a 0 f (rmOf r) 0 z n) rfl ht (fpWord_scalar (y := 0) (c := 0) f _ z n hx rfl rfl hw)
  · exact completes_of_ok (f := fpWord .sqrt d a 0 f (rmOf r) 1 z n) rfl ht
      (fpWord_wide (y := none) (c := none) f _ z n (admits_of_fullRate hadm) (hf.trans (ftFuse_eq f).symm) hx rfl rfl hw)
  · refine faults_of_error (exec_of_elementFloat hrow ..) ht (fpWord_of_fuse f _ z n (admits_of_fullRate hadm) ?_)
    rwa [ftFuse_eq f]

end Sys2Proof.Machine
end

section
/-! PROOFS of the family of the encodings: COMMIT, HALT, BR, LGEN and RROT (R96, R174 to R179). -/

namespace Sys2Proof.Machine

/-! ### What reading scalars leaves alone -/

/-- What a word's reads leave alone: whose turn it is, and the tag of its instance. -/
def SameTurn (k k' : Wk) : Prop := k'.s.cur = k.s.cur ∧ k'.i.tag = k.i.tag

theorem SameTurn.refl (k : Wk) : SameTurn k k := ⟨rfl, rfl⟩

theorem SameTurn.trans {k k₁ k₂ : Wk} (h : SameTurn k k₁) (h' : SameTurn k₁ k₂) : SameTurn k k₂ :=
  ⟨h'.1.trans h.1, h'.2.trans h.2⟩

theorem State.readOperand_cur {s t : State} {p e : Nat} {i : Inst} {pl : Place} {n : Nat} {bs : List Byte}
    (h : s.readOperand p e i pl n = some (bs, t)) : t.cur = s.cur := by
  unfold State.readOperand State.readWith at h
  dsimp only at h
  generalize s.reading (.elem p e) .patch pl n (some (i.id, i.pc)) = x at h
  split_ifs at h
  generalize s.readOver x.agent (s.readId x) x.scope i.got pl.addr n = r at h
  obtain ⟨b, ok, gs⟩ := r
  cases ok with
  | false => cases h
  | true =>
    obtain ⟨l, hl⟩ := State.noteReads_eq gs s x.agent
    obtain ⟨-, rfl⟩ := Prod.mk.inj (Option.some.inj h)
    rw [hl]
    cases x.reader <;> rfl

/-- A part of a word that leaves alone whose turn it is, and the tag of its instance. -/
structure W.KeepsTurn {α : Type} (f : W α) : Prop where
  after : ∀ k x k', Terms.gives f k x k' → SameTurn k k'

theorem W.KeepsTurn.bind {α β : Type} {f : W α} {g : α → W β} (hf : f.KeepsTurn) (hg : ∀ x, (g x).KeepsTurn) : (f >>= g).KeepsTurn := by
  refine ⟨fun k y k' h => ?_⟩
  obtain ⟨x, k₁, h₁, h₂⟩ := W.ok_of_bind h
  exact (hf.after k x k₁ h₁).trans ((hg x).after k₁ y k' h₂)

theorem W.KeepsTurn.ite {α : Type} {c : Prop} [Decidable c] {f g : W α} (hf : f.KeepsTurn) (hg : g.KeepsTurn) :
    (if c then f else g).KeepsTurn := by
  split
  · exact hf
  · exact hg

theorem W.KeepsTurn.pure {α : Type} (x : α) : (Pure.pure x : W α).KeepsTurn := by
  refine ⟨fun k y k' h => ?_⟩
  cases h
  exact .refl k

theorem W.KeepsTurn.get : (MonadState.get : W Wk).KeepsTurn := by
  refine ⟨fun k y k' h => ?_⟩
  cases h
  exact .refl k

theorem W.KeepsTurn.of_stop {α : Type} {f : W α} (h : ∀ k, ∃ e, f k = .error e) : f.KeepsTurn := by
  refine ⟨fun k y k' hk => ?_⟩
  obtain ⟨e, he⟩ := h k
  cases he.symm.trans hk

theorem W.KeepsTurn.illop {α : Type} (sub : Nat) : (W.illop sub : W α).KeepsTurn := .of_stop fun k => ⟨_, W.illop_apply sub k⟩

theorem rdS_keepsTurn (n : Nat) : (rdS n).KeepsTurn :=
  .bind .get fun _ => .ite (.of_stop fun _ => ⟨_, rfl⟩) (.pure _)

theorem useBuffer_keepsTurn (r : Nat) : (useBuffer r).KeepsTurn :=
  .ite (.bind (.bind .get fun _ => .pure _) fun _ => .ite (.illop 1) (.pure _)) (.pure _)

theorem checkHeader_keepsTurn (u : Slot) : (checkHeader u).KeepsTurn := .ite (.of_stop fun _ => ⟨_, rfl⟩) (.pure _)

theorem readHere_keepsTurn (pl : Place) (n : Nat) : (readHere pl n).KeepsTurn := by
  refine ⟨fun k x k' h => ?_⟩
  cases hr : k.s.readOperand k.s.cur.patch k.s.cur.el k.i pl n with
  | none => cases (readHere_of_none hr).symm.trans h
  | some r =>
    cases (readHere_of_some hr).symm.trans h
    exact ⟨State.readOperand_cur hr, rfl⟩

theorem unitAt_keepsTurn (r n : Nat) : (unitAt r n).KeepsTurn := by
  refine .bind (useBuffer_keepsTurn r) fun _ => .bind .get fun k => .ite ?_ (.bind (.bind .get fun _ => .pure _) fun v => ?_)
  · split
    · exact .illop 2
    · exact .bind (checkHeader_keepsTurn _) fun _ => .pure _
  · split
    · exact .illop 2
    · refine .bind (.bind (.bind .get fun _ => .pure _) fun _ => readHere_keepsTurn ..) fun _ => ?_
      exact .bind (checkHeader_keepsTurn _) fun _ => .pure _

theorem rdScalar_keepsTurn (r : Nat) : (rdScalar r).KeepsTurn := by
  refine .ite (rdS_keepsTurn r) (.bind (.bind .get fun _ => .pure _) fun n => .bind (unitAt_keepsTurn ..) fun _ => .bind ?_ fun _ => .pure _)
  refine ⟨fun k x k' h => ?_⟩
  cases h
  exact .refl k

/-- The two scalar sources of a word leave alone whose turn it is, and the tag of its instance. -/
theorem sameTurn_of_scalars {a b : Nat} {x y : Word} {k k₁ k₂ : Wk} (hx : Terms.gives (rdScalar a) k x k₁)
    (hy : Terms.gives (rdScalar b) k₁ y k₂) : SameTurn k k₂ :=
  ((rdScalar_keepsTurn a).after k x k₁ hx).trans ((rdScalar_keepsTurn b).after k₁ y k₂ hy)

/-! ### BR (R96, R178) -/

/-- The tag that a branch gives (R96). -/
def branchTagOf (i : Inst) (m : BitVec 2) (g : BitVec 14) : BitVec 12 :=
  if m = 0 then i.tag else if m = 1 then i.tag + 1
  else if m = 2 then BitVec.ofNat 12 (i.r.s.getD (g.toNat % 16) 0).toNat else BitVec.ofNat 12 g.toNat

theorem branchTag_apply {k : Wk} {m : BitVec 2} {g : BitVec 14} (hg : m = 2 → Terms.readable k.i (g.toNat % 16)) :
    branchTag m g k = .ok (branchTagOf k.i m g, k) := by
  have hm : ∀ m : BitVec 2, m = 0 ∨ m = 1 ∨ m = 2 ∨ m = 3 := by decide
  rw [branchTag, W.bind_of_ok (W.get_apply k)]
  rcases hm m with rfl | rfl | rfl | rfl
  · rfl
  · rfl
  · refine (W.bind_of_ok (rdS_of_readable (hg rfl))).trans ?_
    rw [← BitVec.ofNat_toNat]
    rfl
  · show Except.ok (g.setWidth 12, k) = _
    rw [← BitVec.ofNat_toNat]
    rfl

section
variable {s : State} {i : Inst} (ht : Terms.OnTurn s i) {blk r : BitVec 4} {c : BitVec 1} {m : BitVec 2} {g : BitVec 14}
include ht

/-- A branch to a block that may be branched to (R96): what it notes, where it is taken. -/
theorem br_completes {b : Block} (hb : smFind (s.elem s.cur.patch s.cur.el).blocks blk.toNat = some b) (hst : b.st = false)
    (hr : c = 1 → Terms.readable i r.toNat) (hg : m = 2 → Terms.readable i (g.toNat % 16)) :
    Terms.completes (.br blk c r m g) s
      (if c = 0 ∨ i.r.s.getD r.toNat 0 ≠ 0 then ⟨s, { i with branch := some (blk.toNat, branchTagOf i m g) }⟩ else ⟨s, i⟩) := by
  refine completes_of_ok rfl ht ?_
  rw [W.bind_of_ok (W.elem_apply _)]
  simp only [hb, hst, Bool.false_eq_true, if_false]
  have htaken : ((if c = 1 then do pure ((← rdS r.toNat) != 0) else pure true) : W Bool) ⟨s, i⟩ =
      .ok (decide (c = 0 ∨ i.r.s.getD r.toNat 0 ≠ 0), ⟨s, i⟩) := by
    by_cases hc : c = 1
    · rw [if_pos hc, W.bind_of_ok (rdS_of_readable (hr hc))]
      subst hc
      simp [bne, Bool.beq_eq_decide_eq]
    · have h0 : ∀ c : BitVec 1, c ≠ 1 → c = 0 := by decide
      rw [if_neg hc, h0 c hc]
      simp
  refine (W.ite_then htaken W.bind_map_of_ok W.bind_of_ok).trans ?_
  rw [W.bind_of_ok (branchTag_apply hg)]
  simp only [decide_eq_true_eq]
  split <;> rfl

theorem br_faults (h : ∀ b, smFind (s.elem s.cur.patch s.cur.el).blocks blk.toNat = some b → b.st = true) :
    Terms.faults (.br blk c r m g) s i .illop 0 (Terms.wordAt ⟨s, i⟩) := by
  refine faults_of_error rfl ht ?_
  rw [W.bind_of_ok (W.elem_apply _)]
  cases hb : smFind (s.elem s.cur.patch s.cur.el).blocks blk.toNat with
  | none => exact W.bind_of_error (W.illop_apply ..)
  | some b =>
    simp only [h b hb, if_true]
    exact W.bind_of_error (W.illop_apply ..)

end

/-! ### LGEN and RROT (R174 to R176) -/

/-- An address or a length that R175 refuses. -/
def badRotation (ad len : Nat) : Prop :=
  ad % 256 ≠ 0 ∨ len % 256 ≠ 0 ∨ len < 256 ∨ 65536 < len ∨ 0x80000 < ad + len

section
variable {s : State} {i : Inst} (ht : Terms.OnTurn s i) {d a b : BitVec 5} {x y : Word} {k₁ k₂ : Wk}
  (hx : Terms.gives (rdScalar a.toNat) ⟨s, i⟩ x k₁) (hy : Terms.gives (rdScalar b.toNat) k₁ y k₂)
include ht hx hy

theorem lgen_completes (t : BitVec 2) :
    Terms.completes (.lgen d a b t) s (Terms.withEff k₂ (.arm (d.toNat - 20) (.gen 0 x y i.tag (t == 1)))) := by
  obtain ⟨-, htag⟩ := sameTurn_of_scalars hx hy
  refine completes_of_ok rfl ht ?_
  rw [W.bind_of_ok hx, W.bind_of_ok hy, W.bind_of_ok (W.get_apply k₂), htag]
  exact W.eff_apply ..

theorem rrot_completes {bk : BitVec 1} (hgood : ¬ badRotation x.toNat y.toNat) {k : Wk}
    (hw : Terms.gives (wrScalar d.toNat (BitVec.ofNat 32 (ringIndex (ringSource s.cur.el (bk == 1)))))
      { k₂ with i := { k₂.i with rot := some ⟨x.toNat, y.toNat, bk == 1, ringSource s.cur.el (bk == 1)⟩ } } () k) :
    Terms.completes (.rrot d a b bk) s k := by
  obtain ⟨hcur, -⟩ := sameTurn_of_scalars hx hy
  simp only at hcur
  rw [← hcur] at hw
  refine completes_of_ok rfl ht ?_
  rw [W.bind_of_ok hx, W.bind_of_ok hy]
  refine (congrFun (if_neg hgood) k₂).trans ?_
  exact (W.bind_of_ok (W.cur_apply k₂)).trans ((W.bind_of_ok (W.upd_apply ..)).trans hw)

theorem rrot_faults {bk : BitVec 1} (hbad : badRotation x.toNat y.toNat) :
    Terms.faults (.rrot d a b bk) s i .illop 2 (Terms.wordAt k₂) := by
  refine faults_of_error rfl ht ?_
  rw [W.bind_of_ok hx, W.bind_of_ok hy]
  refine (congrFun (if_pos hbad) k₂).trans ?_
  exact W.bind_of_error (W.illop_apply ..)

end

/-! ### The ring of elements (R173) -/

/-- Each element's predecessor in the ring has the index before its own, and its successor the one after (R173, R174). -/
theorem ringSource_spec : ∀ e < 64, ringSource e false < 64 ∧ ringSource e true < 64 ∧
    (ringIndex (ringSource e false) + 1) % 64 = ringIndex e ∧ ringIndex (ringSource e true) = (ringIndex e + 1) % 64 := by
  decide

/-- Settles O32: each word by what it completes with, or by its fault. -/
theorem blockControlWords : Obligations.BlockControlWords := by
  unfold Obligations.BlockControlWords
  intro s i blk r c bk m t g d a b ht
  refine ⟨completes_of_ok rfl ht (W.pure_apply ..), completes_of_ok (f := W.upd fun i => { i with halt := true }) rfl ht (W.upd_apply ..),
    fun b hb hst hr hg => ?_, br_faults ht,
    fun x y k₁ k₂ hx hy => lgen_completes ht hx hy t,
    fun x y k₁ k₂ hx hy => ⟨fun hgood k hw => rrot_completes ht hx hy hgood hw, rrot_faults ht hx hy⟩, ringSource_spec _⟩
  have hbr := br_completes ht hb hst hr hg
  exact ⟨fun htaken => by rwa [if_pos htaken] at hbr, fun hnot => by rwa [if_neg hnot] at hbr⟩

end Sys2Proof.Machine
end

section
/-! PROOFS of the family of the encodings: the loads and stores of an element (R94, R207, R210, R211, R305). -/

namespace Sys2Proof.Machine

theorem leBytes_eq_map (n v : Nat) : leBytes n v = (List.range n).map (fun i => BitVec.ofNat 8 (v / 256 ^ i)) := by
  refine List.ext_getElem (by simp [leBytes_length]) fun j hj _ => ?_
  rw [leBytes_length] at hj
  have h := leBytes_getD v hj
  simpa [List.getD_eq_getElem?_getD, leBytes_length, hj] using h

theorem bytesAt_eq_spelled (a n v : Nat) : bytesAt a n v = Terms.spelled a n v := by
  rw [bytesAt, leBytes_eq_map, Terms.spelled, List.zip_map']

theorem loadParts_eq (d size : Nat) :
    (if (size == 32) = true then (List.range 4).map (fun (q : Nat) => (4 * d + q, 8 * q, 8)) else [(d, 0, size)]) =
      Terms.loadParts size d := by
  unfold Terms.loadParts
  simp only [beq_iff_eq]
  rfl

theorem foldl_disown_loads (l : List Nat) (i : Inst) : (l.foldl (fun i r => i.disown r) i).loads = i.loads := by
  induction l generalizing i with
  | nil => rfl
  | cons r l ih => exact ih (i.disown r)

/-- Accesses that enter one after another stand at the end of the issue queue, under numbers in a row (R304, R305). -/
theorem foldl_issueIn {α : Type} (x₀ : α) (ag : AgentId) (sc : Scope) (acq rel : Bool) (grp : Nat) (made : Option (Nat × Nat))
    (pl : α → Place) (op : α → AccOp) (fa : α → DWord) (l : List α) (s : State) :
    l.foldl (fun (s : State) x => s.issueIn grp ag sc (pl x) (op x) acq rel (fa x) made) s =
      { s with ord := { s.ord with
          accs := s.ord.accs ++ (List.range l.length).map (fun q => (⟨s.ord.nextId + q, ag, sc, pl (l.getD q x₀), op (l.getD q x₀), acq, rel,
            false, fa (l.getD q x₀), s.clock.ns, grp, made⟩ : Access)),
          nextId := s.ord.nextId + l.length } } := by
  induction l generalizing s with
  | nil => simp
  | cons x l ih =>
    have hq : ∀ q, s.ord.nextId + 1 + q = s.ord.nextId + (q + 1) := fun q => by omega
    rw [List.foldl_cons, ih]
    simp [State.issueIn, List.range_succ_eq_map, hq, Function.comp_def]

theorem exec_of_elementLoads {row} (h : row ∈ Terms.elementLoads) (d a : BitVec 5) (o : BitVec 12) (sc : BitVec 3) (s : State) :
    exec (row.1 d a o sc) s = runWord (loadWord d a o sc row.2.1 row.2.2.1 row.2.2.2) s := by
  revert row
  simp only [Terms.elementLoads, List.forall_mem_cons]
  exact ⟨rfl, rfl, rfl, rfl, rfl, rfl, rfl, rfl, rfl, fun _ h => nomatch h⟩

theorem exec_of_elementStores {row} (h : row ∈ Terms.elementStores) (d a : BitVec 5) (o : BitVec 12) (sc : BitVec 3) (s : State) :
    exec (row.1 d a o sc) s = runWord (storeWord d a o sc row.2.1 row.2.2) s := by
  revert row
  simp only [Terms.elementStores, List.forall_mem_cons]
  exact ⟨rfl, rfl, rfl, rfl, rfl, rfl, rfl, fun _ h => nomatch h⟩

/-- The access that part `x` of a load makes: the place and the register that it names, and the effective pointer that far on. -/
def loadAccess (k : Wk) (sc : Scope) (pl : Place) (eff : DWord) (wide sg acq : Bool) (x : Nat × Nat × Nat) (q : Nat) : Access :=
  ⟨k.s.ord.nextId + q, .elem k.s.cur.patch k.s.cur.el, sc, { pl with addr := pl.addr + x.2.1 },
    .load (pl.addr + x.2.1) x.2.2 (.inst k.s.cur.patch k.s.cur.el k.i.id x.1 x.2.2 sg wide), acq, false, false,
    eff + BitVec.ofNat 64 x.2.1, k.s.clock.ns, k.s.ord.nextId, some (k.i.id, k.i.pc)⟩

/-- What a load leaves: its accesses stand in the element's issue queue, and its registers belong to it until it has read. -/
def loadIssued (k : Wk) (sc : Scope) (pl : Place) (eff : DWord) (sg acq : Bool) (size d : Nat) : Wk :=
  let parts := Terms.loadParts size d
  let regs := Terms.filled size d
  let m := k.s.ord.nextId
  ⟨{ k.s with ord := { k.s.ord with
      accs := k.s.ord.accs ++ (List.range parts.length).map (fun q => loadAccess k sc pl eff (size == 32) sg acq (parts.getD q (0, 0, 0)) q),
      nextId := m + parts.length } },
    { regs.foldl (fun i r => i.disown r) k.i with loads := k.i.loads ++ (List.range parts.length).map (fun q => (m + q, regs)) }⟩

theorem loadWord_issues {k : Wk} {d a : BitVec 5} {o : BitVec 12} (sc : BitVec 3) {size : Nat} (sg acq : Bool) {pl : Place} {eff : DWord}
    (hp : Terms.points k a.toNat (o.toInt * size) size size .plain pl eff) (hf : ∀ r ∈ Terms.filled size d.toNat, k.i.pending r = false) :
    loadWord d a o sc size sg acq k = .ok ((), loadIssued k (scopeOf sc) pl eff sg acq size d.toNat) := by
  obtain ⟨v, hv, hpl⟩ := hp
  have hany : (loadRegs d.toNat size).any (fun r => k.i.pending r) = false := List.any_eq_false.2 fun r hr => by simp [hf r hr]
  rw [loadWord, W.bind_of_ok hv, W.bind_of_ok hpl]
  dsimp only
  rw [W.bind_of_ok (W.get_apply k), hany]
  simp only [Bool.false_eq_true, if_false]
  rw [W.bind_of_ok (W.cur_apply k), loadParts_eq, foldl_disown_loads]
  exact congrArg (fun t => Except.ok ((), (⟨t, (loadIssued k (scopeOf sc) pl eff sg acq size d.toNat).i⟩ : Wk)))
    (foldl_issueIn (0, 0, 0) _ _ acq false _ _ (fun x => { pl with addr := pl.addr + x.2.1 })
      (fun x => .load (pl.addr + x.2.1) x.2.2 (.inst k.s.cur.patch k.s.cur.el k.i.id x.1 x.2.2 sg (size == 32)))
      (fun x => eff + BitVec.ofNat 64 x.2.1) (Terms.loadParts size d.toNat) k.s)

theorem storeWord_notes {k : Wk} {d a : BitVec 5} {o : BitVec 12} (sc : BitVec 3) {size : Nat} (rel : Bool) {pl : Place} {eff : DWord}
    (hp : Terms.points k a.toNat (o.toInt * size) size size .plain pl eff) {x : Nat}
    (hx : if size = 32 then ∃ u, Terms.gives (rdW d.toNat) k u k ∧ x = u.toNat
      else if size = 8 then ∃ u, Terms.gives (rdPair d.toNat) k u k ∧ x = u.toNat
      else ∃ u, Terms.gives (rdS d.toNat) k u k ∧ x = u.toNat) :
    storeWord d a o sc size rel k =
      .ok ((), Terms.withEff k (.store ⟨pl, Terms.spelled pl.addr size x, [], scopeOf sc, rel, eff, false⟩)) := by
  obtain ⟨v, hv, hpl⟩ := hp
  have hread : ((if size = 32 then do pure (← rdW d.toNat).toNat
    else if size = 8 then do pure (← rdPair d.toNat).toNat
    else do pure (← rdS d.toNat).toNat) : W Nat) k = .ok (x, k) := by
    split_ifs at hx ⊢ <;> obtain ⟨u, hu, rfl⟩ := hx <;> exact W.bind_of_ok hu
  rw [storeWord, W.bind_of_ok hv]
  refine (W.ite_then hread W.bind_map_of_ok fun h => W.ite_then h W.bind_map_of_ok W.bind_map_of_ok).trans ?_
  refine (W.bind_of_ok hpl).trans ?_
  rw [← bytesAt_eq_spelled]
  exact W.eff_apply ..

/-- Settles O34: each load by what it issues, each store by what it notes for the commit. -/
theorem loadAndStoreWords : Obligations.LoadAndStoreWords := by
  unfold Obligations.LoadAndStoreWords
  intro s i d a o sc pl eff ht k
  exact ⟨fun row hrow hp hf => completes_of_ok (exec_of_elementLoads hrow d a o sc s) ht (loadWord_issues sc _ _ hp hf),
    fun row hrow hp x hx => completes_of_ok (exec_of_elementStores hrow d a o sc s) ht (storeWord_notes sc _ hp hx)⟩

end Sys2Proof.Machine
end

section
/-! SUPPORT. What the outcome of a control word makes of the machine (R108, R111, R122, R125 to R129). A proof about a control word that
touches its sequencer alone cites these. -/

namespace Sys2Proof.Machine

variable {f : Half → Seq → SeqOut} {s : State} {q : Seq} {t : Word}

theorem runSeq_of_done (h : f s.seqAt (Terms.here s) = .done q) : runSeq f s = Terms.completed s q :=
  congrArg (s.seqOut s.cur.patch s.seqAt) h

theorem runSeq_of_moved (h : f s.seqAt (Terms.here s) = .moved q) : runSeq f s = s.setSeq s.cur.patch q :=
  congrArg (s.seqOut s.cur.patch s.seqAt) h

theorem runSeq_of_fault {c : Cause} {sub : Nat} {v : DWord} (h : f s.seqAt (Terms.here s) = .fault c sub v) :
    runSeq f s = s.seqFault s.cur.patch s.seqAt c sub v :=
  congrArg (s.seqOut s.cur.patch s.seqAt) h

theorem runSeq_of_faultOpen {c : Cause} {sub : Nat} (h : f s.seqAt (Terms.here s) = .faultOpen c sub) :
    runSeq f s = { s with free := s.free + 1 }.seqFault s.cur.patch s.seqAt c sub (Config.freeDWord s.free) :=
  congrArg (s.seqOut s.cur.patch s.seqAt) h

/-- A taken branch or jump to an aligned address in the store. -/
theorem runSeq_of_jump (h : f s.seqAt (Terms.here s) = .jump q t) (hin : t.toNat < 65536) (hal : t.toNat % 4 = 0) :
    runSeq f s = s.setSeq s.cur.patch (q.branchTo s.seqAt (t.setWidth 16)) := by
  refine (congrArg (s.seqOut s.cur.patch s.seqAt) h).trans ?_
  rw [State.seqOut, if_neg (by omega), if_neg (by omega)]

/-- One to any other address faults; that the address lies outside the store is checked first. -/
theorem runSeq_of_bad_jump (h : f s.seqAt (Terms.here s) = .jump q t) (hbad : 65536 ≤ t.toNat ∨ t.toNat % 4 ≠ 0) :
    runSeq f s = if 65536 ≤ t.toNat then s.seqFault s.cur.patch s.seqAt .perm 2 (BitVec.ofNat 64 t.toNat)
      else s.seqFault s.cur.patch s.seqAt .align 0 (BitVec.ofNat 64 t.toNat) := by
  refine (congrArg (s.seqOut s.cur.patch s.seqAt) h).trans ?_
  rw [State.seqOut, BitVec.ofNat_toNat]
  by_cases hout : 65536 ≤ t.toNat
  · rw [if_pos hout, if_pos hout]
  · rw [if_neg hout, if_neg hout, if_pos (hbad.resolve_left hout)]

end Sys2Proof.Machine
end

section
/-! PROOFS of the family of the sequencer's instructions: the ALU words, the immediate words, LUI and KCMP (R75, R79, R117 to R119). -/

namespace Sys2Proof.Machine

theorem aluSeq_eq (op : IntOp) (d : BitVec 5) (x y : Word) (a : Half) (q : Seq) : aluSeq op d x y a q =
    .done { q.put d (Terms.intValue op x y) with dz := q.dz || Terms.dividesByZero op y } := by
  rw [aluSeq, intOp_eq_intValue, intDz_eq_dividesByZero]

theorem aluWord_completes (op : IntOp) (d a b : BitVec 5) (s : State) :
    aluWord op d a b s = .next (Terms.completed s
      { (Terms.here s).put d (Terms.intValue op ((Terms.here s).get a) ((Terms.here s).get b)) with
        dz := (Terms.here s).dz || Terms.dividesByZero op ((Terms.here s).get b) }) :=
  congrArg _ (runSeq_of_done (aluSeq_eq ..))

theorem put_with_dz (q : Seq) (r : BitVec 5) (v : Word) : { q.put r v with dz := q.dz } = q.put r v := by unfold Seq.put; split <;> rfl

/-- An operation that is no division leaves SQST.DZ as it is. -/
theorem immWord_completes {op : IntOp} (h : ∀ y : Word, Terms.dividesByZero op y = false) (d a : BitVec 5) (i : Word) (s : State) :
    immWord op d a i s = .next (Terms.completed s ((Terms.here s).put d (Terms.intValue op ((Terms.here s).get a) i))) := by
  refine congrArg _ (runSeq_of_done ((aluSeq_eq ..).trans ?_))
  rw [h, Bool.or_false, put_with_dz]
  rfl

theorem lui_completes (d : BitVec 5) (i : BitVec 16) (s : State) :
    exec (.lui d i) s = .next (Terms.completed s ((Terms.here s).put d (BitVec.ofNat 32 (i.toNat * 65536)))) := by
  have hv : i ++ (0 : BitVec 16) = BitVec.ofNat 32 (i.toNat * 65536) :=
    BitVec.eq_of_toNat_eq (by
      rw [BitVec.toNat_append, BitVec.toNat_ofNat, show (0 : BitVec 16).toNat = 0 from rfl, Nat.or_zero, Nat.shiftLeft_eq]
      omega)
  refine congrArg _ (runSeq_of_done ?_)
  rw [hv]

theorem condHolds_iff (c : Cond) (x y : Word) : condHolds c x y = true ↔ Terms.holds c x y := by
  cases c <;> simp [condHolds, Terms.holds, BitVec.slt]

/-- Setting or clearing one predicate leaves the others. -/
theorem getLsbD_predicate (ks : BitVec 4) (k : BitVec 2) (b : Bool) {n : Nat} (hn : n < 4) :
    (if b then ks ||| ((1 <<< k.toNat : Nat) : BitVec 4) else ks &&& ~~~((1 <<< k.toNat : Nat) : BitVec 4)).getLsbD n =
      if n = k.toNat then b else ks.getLsbD n := by
  have hbit : ((1 <<< k.toNat : Nat) : BitVec 4).getLsbD n = decide (n = k.toNat) := by
    revert k
    interval_cases n <;> decide
  cases b with
  | false =>
    rw [if_neg (by decide), BitVec.getLsbD_and, BitVec.getLsbD_not, hbit]
    by_cases h : n = k.toNat <;> simp [h, hn]
  | true =>
    rw [if_pos rfl, BitVec.getLsbD_or, hbit]
    by_cases h : n = k.toNat <;> simp [h]

theorem kcmp_completes {c : BitVec 3} {cond : Cond} (hc : kcmpCond c = cond) (k : BitVec 2) (a b : BitVec 5) (s : State) :
    let q := Terms.here s
    ∃ ks : BitVec 4, exec (.kcmp k a b c) s = .next (Terms.completed s { q with k := ks }) ∧
      (ks.getLsbD k.toNat = true ↔ Terms.holds cond (q.get a) (q.get b)) ∧
      ∀ n < 4, n ≠ k.toNat → ks.getLsbD n = q.k.getLsbD n := by
  subst hc
  refine ⟨_, congrArg Host.Outcome.next (runSeq_of_done rfl), ?_, fun n hn hne => ?_⟩
  · rw [getLsbD_predicate _ _ _ k.isLt, if_pos rfl, condHolds_iff]
  · rw [getLsbD_predicate _ _ _ hn, if_neg hne]

/-- Settles O9: each word by the outcome of its kind; the operations by what they give at 32 bits. -/
theorem sequencerArithmeticWords : Obligations.SequencerArithmeticWords := by
  unfold Obligations.SequencerArithmeticWords
  refine ⟨fun row hrow d a b s => ?_, ⟨fun row hrow d a i s => ?_, fun row hrow d a i s => ?_, lui_completes⟩, fun row hrow k a b s => ?_⟩
  · fin_cases hrow <;> exact aluWord_completes ..
  · rw [BitVec.ofNat_toNat]
    fin_cases hrow <;> exact immWord_completes (fun _ => rfl) ..
  · rw [BitVec.ofNat_toNat]
    fin_cases hrow <;> exact immWord_completes (fun _ => rfl) ..
  · fin_cases hrow <;> exact kcmp_completes (by decide) k a b s

end Sys2Proof.Machine
end

section
/-! PROOFS of the family of the sequencer's instructions: the loop-end check, the loop words, the branches and the jumps (R120 to R122, R125
to R129). -/

namespace Sys2Proof.Machine

/-! ### The loop-end check (R127) -/

/-- Level `n` is active and ends at `b`. -/
def Seq.endsAt (q : Seq) (b : Half) (n : Nat) : Bool := q.lc.getD n 0 != 0 && q.le.getD n 0 == b

/-- Of some levels, the first that the check for `b` takes pc back for: it is not at its last iteration. -/
def Seq.goesBack (q : Seq) (b : Half) (ls : List Nat) : Option Nat := ls.find? (fun n => q.endsAt b n && q.lc.getD n 0 != 1)

/-- Level `n` counts down in the check for `b` over some levels: it ends there, and no level inside it takes pc back. -/
def Seq.counts (q : Seq) (b : Half) (ls : List Nat) (n : Nat) : Prop :=
  n ∈ ls ∧ q.endsAt b n = true ∧ ∀ m, q.goesBack b ls = some m → m ≤ n

/-- Level `n` is over. -/
def Seq.over (q : Seq) (n : Nat) : Seq := { q with lc := q.lc.set n 0 }

section
variable {q : Seq} {b : Half} {n : Nat} {ns : List Nat}

theorem endsAt_iff : q.endsAt b n = true ↔ q.lc.getD n 0 ≠ 0 ∧ q.le.getD n 0 = b := by simp [Seq.endsAt]

/-- An active level is one that the sequencer has. -/
theorem lt_length_of_endsAt (h : q.endsAt b n = true) : n < q.lc.length := by
  by_contra hn
  exact (endsAt_iff.mp h).1 (List.getD_eq_default _ _ (not_lt.mp hn))

theorem loopCheck_of_not_ends (h : q.endsAt b n = false) :
    loopCheck b (n :: ns) q = loopCheck b ns q ∧ q.goesBack b (n :: ns) = q.goesBack b ns := by
  refine ⟨?_, List.find?_cons_of_neg (by simp [h])⟩
  rw [loopCheck, if_neg fun hc => by simp [endsAt_iff.mpr hc] at h]

theorem loopCheck_of_goes_on (h : q.endsAt b n = true) (h1 : q.lc.getD n 0 ≠ 1) :
    loopCheck b (n :: ns) q = ({ q with lc := q.lc.set n (q.lc.getD n 0 - 1), pc := (q.lb.getD n 0).setWidth 17 }, true) ∧
      q.goesBack b (n :: ns) = some n := by
  refine ⟨?_, List.find?_cons_of_pos (by rw [h, Bool.true_and, bne_iff_ne]; exact h1)⟩
  rw [loopCheck, if_pos (endsAt_iff.mp h), if_pos (sub_ne_zero.mpr h1)]

theorem loopCheck_of_last (h : q.endsAt b n = true) (h1 : q.lc.getD n 0 = 1) :
    loopCheck b (n :: ns) q = loopCheck b ns (q.over n) ∧ q.goesBack b (n :: ns) = q.goesBack b ns := by
  refine ⟨?_, List.find?_cons_of_neg (by rw [h1]; simp)⟩
  rw [loopCheck, if_pos (endsAt_iff.mp h), h1]
  rfl

end

theorem getD_set_other {α : Type} (l : List α) {n m : Nat} (h : m ≠ n) (v d : α) : (l.set n v).getD m d = l.getD m d := by
  rw [List.getD_eq_getElem?_getD, List.getD_eq_getElem?_getD, List.getElem?_set_ne h.symm]

theorem endsAt_over (q : Seq) (b : Half) {n m : Nat} (h : m ≠ n) : (q.over n).endsAt b m = q.endsAt b m := by
  simp only [Seq.endsAt, Seq.over, getD_set_other _ h]

theorem goesBack_over (q : Seq) (b : Half) {n : Nat} {ns : List Nat} (h : n ∉ ns) : (q.over n).goesBack b ns = q.goesBack b ns := by
  refine List.find?_congr fun m hm => ?_
  have hne : m ≠ n := ne_of_mem_of_not_mem hm h
  rw [endsAt_over q b hne, Seq.over, getD_set_other _ hne]

theorem mem_of_goesBack {q : Seq} {b : Half} {ls : List Nat} {m : Nat} (h : q.goesBack b ls = some m) : m ∈ ls := List.mem_of_find?_eq_some h

/-- What the check for `b` over levels, innermost first, comes to. -/
theorem loopCheck_spec (b : Half) (ls : List Nat) : ∀ q : Seq, ls.Pairwise (· > ·) →
    (loopCheck b ls q).2 = (q.goesBack b ls).isSome ∧
    (loopCheck b ls q).1.pc = ((q.goesBack b ls).map (fun n => (q.lb.getD n 0).setWidth 17)).getD q.pc ∧
    (loopCheck b ls q).1.lc.length = q.lc.length ∧
    ∀ n, (q.counts b ls n → (loopCheck b ls q).1.lc.getD n 0 = q.lc.getD n 0 - 1) ∧
      (¬ q.counts b ls n → (loopCheck b ls q).1.lc.getD n 0 = q.lc.getD n 0) := by
  induction ls with
  | nil => exact fun q _ => ⟨rfl, rfl, rfl, fun n => ⟨fun h => (List.not_mem_nil h.1).elim, fun _ => rfl⟩⟩
  | cons l ls ih =>
    intro q hp
    obtain ⟨hgt, hp'⟩ := List.pairwise_cons.mp hp
    have hl : l ∉ ls := fun h => lt_irrefl _ (hgt l h)
    cases he : q.endsAt b l with
    | false =>
      obtain ⟨hc, hb⟩ := loopCheck_of_not_ends (ns := ls) he
      obtain ⟨h2, hpc, hlen, hlc⟩ := ih q hp'
      have hcount : ∀ n, q.counts b (l :: ls) n ↔ q.counts b ls n := by
        intro n
        by_cases hn : n = l
        · subst hn; simp [Seq.counts, he]
        · simp [Seq.counts, hb, hn]
      simp only [hc, hb, hcount]
      exact ⟨h2, hpc, hlen, hlc⟩
    | true =>
      have hself : (q.lc.set l (q.lc.getD l 0 - 1)).getD l 0 = q.lc.getD l 0 - 1 := by
        simp [List.getD_eq_getElem?_getD, lt_length_of_endsAt he]
      by_cases h1 : q.lc.getD l 0 = 1
      · obtain ⟨hc, hb⟩ := loopCheck_of_last (ns := ls) he h1
        have hz : (q.over l).lc.getD l 0 = q.lc.getD l 0 - 1 := by rw [← hself, h1]; rfl
        obtain ⟨h2, hpc, hlen, hlc⟩ := ih (q.over l) hp'
        rw [goesBack_over q b hl] at h2 hpc
        have hcount : ∀ n, n ≠ l → (q.counts b (l :: ls) n ↔ (q.over l).counts b ls n) := fun n hn => by
          simp [Seq.counts, hb, hn, goesBack_over q b hl, endsAt_over q b hn]
        rw [hc, hb]
        refine ⟨h2, hpc, hlen.trans (by simp [Seq.over]), fun n => ?_⟩
        by_cases hn : n = l
        · subst hn
          have hno : ¬ (q.over n).counts b ls n := fun h => hl h.1
          exact ⟨fun _ => ((hlc n).2 hno).trans hz, fun h => (h ⟨List.mem_cons_self, he, fun m hm =>
            (hgt m (mem_of_goesBack (hb ▸ hm))).le⟩).elim⟩
        · rw [hcount n hn, show q.lc.getD n 0 = (q.over l).lc.getD n 0 from (getD_set_other _ hn ..).symm]
          exact hlc n
      · obtain ⟨hc, hb⟩ := loopCheck_of_goes_on (ns := ls) he h1
        rw [hc, hb]
        refine ⟨rfl, rfl, by simp, fun n => ⟨fun h => ?_, fun h => ?_⟩⟩
        · obtain ⟨hm, _, hle⟩ := h
          have : n = l := by
            rcases List.mem_cons.mp hm with rfl | hm
            · rfl
            · exact absurd (hle l hb) (not_le.mpr (hgt n hm))
          exact this ▸ hself
        · have hn : n ≠ l := fun hn => h ⟨hn ▸ List.mem_cons_self, hn ▸ he, fun m hm => by rw [hb] at hm; cases hm; exact hn.ge⟩
          exact getD_set_other _ hn ..

/-- What a word at `a` leaves whose check is for `b`. -/
theorem finishAt_eq (q : Seq) (a b : Half) (ls : List Nat) : ∃ h, q.finishAt a b ls = { q with
    pc := if (loopCheck b ls q).2 then (loopCheck b ls q).1.pc else after b, lc := (loopCheck b ls q).1.lc, held := h, last := a, begun := false } := by
  obtain ⟨x, y, h⟩ := loopCheck_only b ls q
  refine ⟨(if (loopCheck b ls q).2 then (loopCheck b ls q).1 else { (loopCheck b ls q).1 with pc := after b }).prune.held, ?_⟩
  simp only [Seq.finishAt, Seq.prune]
  cases (loopCheck b ls q).2 <;> simp [h]

theorem after_eq (b : Half) : after b = BitVec.ofNat 17 (b.toNat + 4) := by
  apply BitVec.eq_of_toNat_eq
  simp [after]

theorem finishAt_spec {q : Seq} (hq : Terms.Shaped q) (a b : Half) {ls : List Nat} (hls : ls.Pairwise (· > ·)) :
    let t := q.finishAt a b ls
    t.pc = ((q.goesBack b ls).map (fun n => (q.lb.getD n 0).setWidth 17)).getD (BitVec.ofNat 17 (b.toNat + 4)) ∧
    (∀ n, (q.counts b ls n → t.lc.getD n 0 = q.lc.getD n 0 - 1) ∧ (¬ q.counts b ls n → t.lc.getD n 0 = q.lc.getD n 0)) ∧
    Terms.Shaped t ∧ t.last = a ∧ t.begun = false ∧ { t with pc := q.pc, lc := q.lc, held := q.held, last := q.last, begun := q.begun } = q := by
  obtain ⟨hg, hlc, hlb, hle⟩ := hq
  obtain ⟨h2, hpc, hlen, hcount⟩ := loopCheck_spec b ls q hls
  obtain ⟨h, he⟩ := finishAt_eq q a b ls
  intro t
  have ht : t = _ := he
  rw [ht]
  refine ⟨?_, hcount, ⟨hg, hlen.trans hlc, hlb, hle⟩, rfl, rfl, rfl⟩
  show (if (loopCheck b ls q).2 then (loopCheck b ls q).1.pc else after b) = _
  rw [h2, hpc, after_eq]
  cases q.goesBack b ls <;> rfl

/-! ### LOOP, LOOPR and LBRK (R125, R126, R129) -/

/-- Opening level `lv` on a body that ends at `e` is a misuse of levels. -/
def Seq.misuses (q : Seq) (lv e : Nat) : Prop :=
  (∃ j < 3, lv ≤ j ∧ q.lc.getD j 0 ≠ 0) ∨ (∃ j < lv, q.lc.getD j 0 ≠ 0 ∧ (q.le.getD j 0).toNat < e) ∨ 65536 ≤ e

section
variable (l : BitVec 2) (c : Word) (n : BitVec 8) (a : Half) (q : Seq)

theorem loopWord_of_misuse (h : q.misuses l.toNat (a.toNat + 4 * (n.toNat + 1))) : loopWord l c n a q = .faultOpen .illop 2 := by
  rw [loopWord]
  refine if_pos ?_
  simpa [Seq.misuses, Seq.active, or_assoc] using h

theorem loopWord_of_use (h : ¬ q.misuses l.toNat (a.toNat + 4 * (n.toNat + 1))) : loopWord l c n a q =
    let e := BitVec.ofNat 16 (a.toNat + 4 * (n.toNat + 1))
    let o := Terms.opened q l.toNat (BitVec.ofNat 16 (a.toNat + 4)) e c
    if c = 0 then .moved (o.finishAt a e [2, 1, 0]) else .done o := by
  rw [loopWord]
  refine if_neg ?_
  simpa [Seq.misuses, Seq.active, or_assoc] using h

end

/-- The outcome of a loop word, whose count is `c`. -/
theorem loop_runs {s : State} {i : Instr} {l : BitVec 2} {c : Word} {n : BitVec 8}
    (hi : exec i s = .next (runSeq (fun a q => loopWord l c n a q) s)) :
    let q := Terms.here s
    let a := s.seqAt
    let e := a.toNat + 4 * (n.toNat + 1)
    let o := Terms.opened q l.toNat (BitVec.ofNat 16 (a.toNat + 4)) (BitVec.ofNat 16 e) c
    (q.misuses l.toNat e → exec i s = .next ({ s with free := s.free + 1 }.seqFault s.cur.patch a .illop 2 (Config.freeDWord s.free))) ∧
    (¬ q.misuses l.toNat e → c ≠ 0 → exec i s = .next (Terms.completed s o)) ∧
    (¬ q.misuses l.toNat e → c = 0 → exec i s = .next (s.setSeq s.cur.patch (o.finishAt a (BitVec.ofNat 16 e) [2, 1, 0]))) := by
  intro q a e o
  rw [hi]
  refine ⟨fun h => congrArg _ (runSeq_of_faultOpen (loopWord_of_misuse l c n a q h)), fun h hc => ?_, fun h hc => ?_⟩
  · exact congrArg _ (runSeq_of_done ((loopWord_of_use l c n a q h).trans (if_neg hc)))
  · exact congrArg _ (runSeq_of_moved ((loopWord_of_use l c n a q h).trans (if_pos hc)))

/-- The counts once a level and every higher one has ended. -/
theorem ended_levels {lc : List Word} (h : lc.length = 3) {lv : Nat} (hlv : lv < 3) :
    (List.range 3).map (fun j => if lv ≤ j then 0 else lc.getD j 0) = lc.take lv ++ List.replicate (3 - lv) 0 := by
  obtain ⟨x, y, z, rfl⟩ := List.length_eq_three.mp h
  interval_cases lv <;> rfl

theorem lower_levels {lv : Nat} (hlv : lv < 3) : (List.range lv).reverse = [2, 1, 0].filter (fun j => decide (j < lv)) := by
  interval_cases lv <;> rfl

theorem lbrk_runs {s : State} {l : BitVec 2} (hl : l.toNat < 3) (hq : Terms.Shaped (Terms.here s)) :
    let q := Terms.here s
    let a := s.seqAt
    (q.lc.getD l.toNat 0 = 0 →
      exec (.lbrk l) s = .next ({ s with free := s.free + 1 }.seqFault s.cur.patch a .illop 2 (Config.freeDWord s.free))) ∧
    (q.lc.getD l.toNat 0 ≠ 0 → exec (.lbrk l) s = .next (s.setSeq s.cur.patch
      ({ q with lc := (q.lc.take l.toNat) ++ List.replicate (3 - l.toNat) 0 }.finishAt a (q.le.getD l.toNat 0)
        ([2, 1, 0].filter (fun j => decide (j < l.toNat)))))) := by
  intro q a
  obtain ⟨_, hlc, _, _⟩ := hq
  rw [← lower_levels hl, ← ended_levels hlc hl]
  refine ⟨fun h => congrArg _ (runSeq_of_faultOpen (if_pos ?_)), fun h => congrArg _ (runSeq_of_moved (if_neg ?_))⟩
  · rw [Seq.active, show (Terms.here s).lc.getD l.toNat 0 = 0 from h]; rfl
  · simpa [Seq.active] using h

/-- Settles O11: the check by induction over its levels (`loopCheck_spec`), the loop words by their outcomes. -/
theorem loopEndCheck : Obligations.LoopEndCheck := by
  unfold Obligations.LoopEndCheck
  refine ⟨fun q a b hq => ⟨rfl, fun ls hls => ?_⟩, fun s l c g n hl hq => ?_⟩
  · have hlv : ls.Pairwise (· > ·) := by
      revert ls
      simp only [List.forall_mem_cons]
      decide
    obtain ⟨hpc, hlc, hrest⟩ := finishAt_spec hq a b hlv
    refine ⟨hpc.trans ?_, fun n _ => ?_, hrest⟩
    · show _ = (match q.goesBack b ls with | some n => (q.lb.getD n 0).setWidth 17 | none => BitVec.ofNat 17 (b.toNat + 4))
      cases q.goesBack b ls <;> rfl
    · split
      · next h => exact (hlc n).1 h
      · next h => exact (hlc n).2 h
  · obtain ⟨hoff, hon⟩ := lbrk_runs hl hq
    refine ⟨?_, fun h => hoff (not_not.mp h), hon⟩
    simp only [List.forall_mem_cons]
    refine ⟨?_, loop_runs rfl, fun _ h => nomatch h⟩
    rw [BitVec.ofNat_toNat]
    exact loop_runs rfl

/-! ### Branches and jumps (R120 to R122, R128) -/

theorem target_eq {n : Nat} (a : Half) (o : BitVec n) : a.setWidth 32 + o.signExtend 32 * 4 = Terms.target a o.toInt := by
  have ha : (a.setWidth 32 : Word) = BitVec.ofInt 32 a.toNat := by rw [BitVec.ofInt_natCast, BitVec.ofNat_toNat]
  rw [Terms.target, BitVec.ofInt_add, BitVec.ofInt_mul, ha, BitVec.mul_comm]
  rfl

theorem link_eq (a : Half) : (a.setWidth 32 + 4 : Word) = BitVec.ofNat 32 (a.toNat + 4) := by
  apply BitVec.eq_of_toNat_eq
  simp

theorem branchTo_jumpedTo (q : Seq) (a : Half) {t : Word} (h : t.toNat < 65536) : Terms.JumpedTo q a t (q.branchTo a (t.setWidth 16)) := by
  refine ⟨?_, rfl, fun n hn => ?_, rfl, rfl, rfl⟩
  · apply BitVec.eq_of_toNat_eq
    simp only [Seq.branchTo, Seq.prune, BitVec.toNat_setWidth]
    omega
  · interval_cases n <;> rfl

/-- A branch of the table is taken exactly where its condition holds. -/
theorem exec_of_branches {row} (h : row ∈ Terms.branches) (a b : BitVec 5) (o : BitVec 16) (s : State) :
    ∃ p : Seq → Bool, exec (row.1 (Terms.here s) a b o) s = branchWord o p s ∧ (p (Terms.here s) = true ↔ row.2 (Terms.here s) a b) := by
  have hk : (a.setWidth 2).toNat = a.toNat % 4 := BitVec.toNat_setWidth ..
  revert row
  simp only [Terms.branches, List.forall_mem_cons]
  exact ⟨⟨_, rfl, condHolds_iff ..⟩, ⟨_, rfl, condHolds_iff ..⟩, ⟨_, rfl, condHolds_iff ..⟩, ⟨_, rfl, condHolds_iff ..⟩,
    ⟨_, rfl, condHolds_iff ..⟩, ⟨_, rfl, condHolds_iff ..⟩, ⟨_, rfl, by rw [hk]⟩, ⟨_, rfl, by rw [hk, Bool.not_eq_true']⟩,
    fun _ h => nomatch h⟩

/-- The outcome of a branch. -/
theorem branchWord_outcome {p : Seq → Bool} {q : Seq} (o : BitVec 16) (a : Half) :
    (p q = false → (if p q then SeqOut.jump q (a.setWidth 32 + o.signExtend 32 * 4) else .done q) = .done q) ∧
    (p q = true → (if p q then SeqOut.jump q (a.setWidth 32 + o.signExtend 32 * 4) else .done q) = .jump q (Terms.target a o.toInt)) := by
  rw [target_eq]
  exact ⟨fun h => by rw [h]; rfl, fun h => by rw [h]; rfl⟩

theorem branch_runs {row} (h : row ∈ Terms.branches) (a b : BitVec 5) (o : BitVec 16) (s : State) :
    let q := Terms.here s
    let t := Terms.target s.seqAt o.toInt
    (¬ row.2 q a b → exec (row.1 q a b o) s = .next (Terms.completed s q)) ∧
    (row.2 q a b → ∃ f, exec (row.1 q a b o) s = .next (runSeq f s) ∧ f s.seqAt q = .jump q t) := by
  obtain ⟨p, he, hp⟩ := exec_of_branches h a b o s
  intro q t
  rw [he, ← hp]
  exact ⟨fun h => congrArg _ (runSeq_of_done ((branchWord_outcome o s.seqAt).1 (Bool.not_eq_true _ ▸ h))),
    fun h => ⟨_, rfl, (branchWord_outcome o s.seqAt).2 h⟩⟩

section
variable (s : State) (o : BitVec 26) (d a : BitVec 5) (i : BitVec 16)

theorem j_runs : ∃ f, exec (.j o) s = .next (runSeq f s) ∧
    f s.seqAt (Terms.here s) = .jump (Terms.here s) (Terms.target s.seqAt o.toInt) :=
  ⟨_, rfl, congrArg _ (target_eq s.seqAt o)⟩

theorem jal_runs : ∃ f, exec (.jal o) s = .next (runSeq f s) ∧ f s.seqAt (Terms.here s) =
    .jump ((Terms.here s).put 31 (BitVec.ofNat 32 (s.seqAt.toNat + 4))) (Terms.target s.seqAt o.toInt) :=
  ⟨_, rfl, congrArg₂ SeqOut.jump (congrArg _ (link_eq s.seqAt)) (target_eq s.seqAt o)⟩

theorem jalr_runs : ∃ f, exec (.jalr d a i) s = .next (runSeq f s) ∧ f s.seqAt (Terms.here s) =
    .jump ((Terms.here s).put d (BitVec.ofNat 32 (s.seqAt.toNat + 4))) ((Terms.here s).get a + BitVec.ofInt 32 i.toInt) :=
  ⟨_, rfl, congrArg₂ SeqOut.jump (congrArg _ (link_eq s.seqAt)) rfl⟩

end

section
variable {s : State} {i : Instr} {q : Seq} {t : Word} (h : ∃ f, exec i s = .next (runSeq f s) ∧ f s.seqAt (Terms.here s) = .jump q t)
include h

/-- A jump to an aligned address in the store. -/
theorem jump_goes (hin : t.toNat < 65536) (hal : t.toNat % 4 = 0) :
    ∃ q', exec i s = .next (s.setSeq s.cur.patch q') ∧ Terms.JumpedTo q s.seqAt t q' := by
  obtain ⟨f, he, hf⟩ := h
  exact ⟨_, he.trans (congrArg _ (runSeq_of_jump hf hin hal)), branchTo_jumpedTo q s.seqAt hin⟩

/-- One to another address. -/
theorem jump_faults (hbad : 65536 ≤ t.toNat ∨ t.toNat % 4 ≠ 0) : exec i s = .next (
    if 65536 ≤ t.toNat then s.seqFault s.cur.patch s.seqAt .perm 2 (BitVec.ofNat 64 t.toNat)
    else s.seqFault s.cur.patch s.seqAt .align 0 (BitVec.ofNat 64 t.toNat)) := by
  obtain ⟨f, he, hf⟩ := h
  exact he.trans (congrArg _ (runSeq_of_bad_jump hf hbad))

end

/-- Execution that has run off the store traps before anything else (R122). -/
theorem seqTurn_off_end {s : State} {p : Nat} (hr : (s.patch p).running = true) (hf : (s.patch p).frozen = false) (hq : (s.seq p).frozen = false)
    (hpc : (s.seq p).pc = 0x10000) : s.seqTurn p = .next (s.seqFault p (s.seq p).last .perm 2 0x10000) := by
  have hi : s.issues p = true := by simp [State.issues, hr, hf, hq]
  rw [State.seqTurn, if_neg (by simp [hi]), if_pos hpc]
  rfl

/-- Settles O12: every branch that is taken and every jump has the outcome `jump`, which goes to its target or faults. -/
theorem branchAndJumpWords : Obligations.BranchAndJumpWords := by
  unfold Obligations.BranchAndJumpWords
  refine ⟨fun row hrow a b o s => ?_, fun s o d a i => ⟨fun hin hal => ⟨jump_goes (j_runs s o) hin hal, jump_goes (jal_runs s o) hin hal⟩,
      jump_goes (jalr_runs s d a i)⟩,
    fun s o off i d a b => ⟨fun row hrow hc => jump_faults ((branch_runs hrow a b off s).2 hc),
      fun hbad => ⟨jump_faults (j_runs s o) hbad, jump_faults (jal_runs s o) hbad⟩, jump_faults (jalr_runs s d a i)⟩,
    fun s p => seqTurn_off_end⟩
  obtain ⟨hno, hyes⟩ := branch_runs hrow a b o s
  exact ⟨hno, fun hc => jump_goes (hyes hc)⟩

end Sys2Proof.Machine
end

section
/-! SUPPORT. What freezing a load leaves of its patches (R38, R152, R390, R397). -/

namespace Sys2Proof.Machine

/-- Of a patch that has been stopped, once or more often: it is frozen, its event latch is set, and the rest of its sequencer, its load and
its partition are as before. -/
def Stopped (x y : Patch) : Prop := y.frozen = true ∧ y.seq = { x.seq with latch := true } ∧ y.load = x.load ∧ y.part = x.part

theorem stopped_freeze (x : Patch) (now : Nat) : Stopped x (x.freeze now) := ⟨rfl, rfl, rfl, rfl⟩

theorem stopped_trans {x y z : Patch} (h : Stopped x y) (h' : Stopped y z) : Stopped x z := by
  obtain ⟨_, hq, hl, hp⟩ := h
  obtain ⟨hf, hq', hl', hp'⟩ := h'
  exact ⟨hf, by rw [hq', hq], hl'.trans hl, hp'.trans hp⟩

/-- Stopping some patches one after another stops those alone. -/
theorem patch_foldl_freeze (ps : List Nat) (n : Nat) : ∀ s : State,
    let t := ps.foldl (fun (s : State) p => s.setPatch p ((s.patch p).freeze s.clock.ns)) s
    (n ∈ ps → Stopped (s.patch n) (t.patch n)) ∧ (n ∉ ps → t.patch n = s.patch n) := by
  induction ps with
  | nil => exact fun s => ⟨fun h => (List.not_mem_nil h).elim, fun _ => rfl⟩
  | cons p ps ih =>
    intro s
    obtain ⟨hin, hout⟩ := ih (s.setPatch p ((s.patch p).freeze s.clock.ns))
    rw [List.foldl_cons]
    by_cases hn : n = p
    · subst hn
      rw [patch_setPatch_same] at hin hout
      refine ⟨fun _ => ?_, fun h => (h List.mem_cons_self).elim⟩
      by_cases hm : n ∈ ps
      · exact stopped_trans (stopped_freeze _ _) (hin hm)
      · rw [hout hm]
        exact stopped_freeze _ _
    · rw [patch_setPatch_ne _ _ hn] at hin hout
      exact ⟨fun h => hin ((List.mem_cons.mp h).resolve_left hn), fun h => hout fun hm => h (List.mem_cons_of_mem _ hm)⟩

theorem patch_freezePatches (s : State) (l : Load) (n : Nat) :
    (n ∈ l.patches → Stopped (s.patch n) ((s.freezePatches l).patch n)) ∧ (n ∉ l.patches → (s.freezePatches l).patch n = s.patch n) :=
  patch_foldl_freeze l.patches n s

theorem foldl_setPatch_only {α : Type} (f : State → α → Nat) (g : State → α → Patch) (ps : List α) (s : State) :
    ∃ m, ps.foldl (fun (s : State) p => s.setPatch (f s p) (g s p)) s = { s with patches := m } := by
  induction ps generalizing s with
  | nil => exact ⟨s.patches, rfl⟩
  | cons p ps ih =>
    obtain ⟨m, h⟩ := ih (s.setPatch (f s p) (g s p))
    exact ⟨m, h⟩

/-- Freezing touches patches, the accesses of instances that are gone, and probes. -/
theorem freezePatches_only (s : State) (l : Load) : ∃ m o r, s.freezePatches l = { s with patches := m, ord := o, probes := r } := by
  obtain ⟨m, h⟩ := foldl_setPatch_only (fun _ p => p) (fun s p => (s.patch p).freeze s.clock.ns) l.patches s
  refine ⟨m, (s.freezePatches l).ord, (s.freezePatches l).probes, ?_⟩
  rw [State.freezePatches, h]
  rfl

theorem lpOf_of_load {s t : State} {p : Nat} (h : (t.patch p).load = (s.patch p).load) : t.lpOf p = s.lpOf p := by
  rw [State.lpOf, State.lpOf, h]

section
variable {s : State} {p : Nat} {l : Load} (hl : s.loadOf p = some l)
include hl

/-- FREEZE and a nested fault stop the patches of a load, and send its freeze record. -/
theorem freezeLoad_spec (sub : Nat) (info cau : Word) (val : DWord) :
    let t := s.freezeLoad p sub info cau val
    (∀ n ∈ l.patches, Stopped (s.patch n) (t.patch n)) ∧ (∀ n, n ∉ l.patches → t.patch n = s.patch n) ∧ t.mem = s.mem ∧
    t.freezes = s.freezes ++ [freezeRec 0 (s.lpOf p) l.q l.part 1 sub 0 l.lid.toNat info cau val s.clock.tsc 0] := by
  have hin : ∀ n ∈ l.patches, Stopped (s.patch n) ((s.freezePatches l).patch n) := fun n => (patch_freezePatches s l n).1
  have hout : ∀ n, n ∉ l.patches → (s.freezePatches l).patch n = s.patch n := fun n => (patch_freezePatches s l n).2
  have hload : ((s.freezePatches l).patch p).load = (s.patch p).load := by
    by_cases hp : p ∈ l.patches
    · exact (hin p hp).2.2.1
    · rw [hout p hp]
  obtain ⟨m, o, r, ho⟩ := freezePatches_only s l
  rw [State.freezeLoad, hl]
  refine ⟨hin, hout, State.freezePatches_mem s l, ?_⟩
  show (s.freezePatches l).freezes ++ [freezeRec 0 ((s.freezePatches l).lpOf p) _ _ _ _ _ _ _ _ _ (s.freezePatches l).clock.tsc _] = _
  rw [lpOf_of_load hload, ho]

end

end Sys2Proof.Machine
end

section
/-! PROOFS of the family of the sequencer's instructions: the entry of the handler, nested faults, FREEZE, TRAP and XRET (R14, R37, R111 to
R114, R127, R149, R152, R153, R397, R400). -/

namespace Sys2Proof.Machine

/-! ### The handler is entered (R111, R14) -/

theorem xcause_eq {code sub : Nat} (hc : code < 256) (hs : sub < 256) : xcause code sub false = BitVec.ofNat 32 (code + 256 * sub) := by
  rw [xcause, Nat.mod_eq_of_lt hc, Nat.mod_eq_of_lt hs, if_neg Bool.false_ne_true, Nat.add_zero, Nat.mul_comm]

theorem causeCode_of_mem : ∀ row ∈ Terms.causeTable, causeCode row.1 = row.2 ∧ row.2 < 256 := by
  simp only [Terms.causeTable, List.forall_mem_cons]
  decide

theorem setWidth_eq_low_half (v : DWord) : (v.setWidth 32 : Word) = BitVec.ofNat 32 (v.toNat % 2 ^ 32) := BitVec.eq_of_toNat_eq (by simp)

theorem setWidth_eq_high_half (v : DWord) : ((v >>> 32).setWidth 32 : Word) = BitVec.ofNat 32 (v.toNat / 2 ^ 32) :=
  BitVec.eq_of_toNat_eq (by simp [Nat.shiftRight_eq_div_pow])

theorem takeTrap_eq (q : Seq) (a : Half) {code sub : Nat} (hc : code < 256) (hs : sub < 256) (v : DWord) :
    takeTrap q a (xcause code sub false) 0 v = Terms.trapped q a code sub v := by
  rw [takeTrap, xcause_eq hc hs, setWidth_eq_low_half, setWidth_eq_high_half]
  rfl

theorem seqFault_enters {s : State} {p : Nat} (hx : (s.seq p).xt = false) (a : Half) (c : Cause) (sub : Nat) (v : DWord) :
    s.seqFault p a c sub v =
      s.setPatch p { s.patch p with seq := takeTrap (s.seq p) a (xcause (causeCode c) sub false) 0 v, named := none } := by
  rw [State.seqFault]
  exact if_neg (by simp [hx])

/-! ### A fault or TRAP while the handler runs (R112, R397) -/

theorem frozen_setSeq (s : State) (p n : Nat) (q : Seq) : ((s.setSeq p q).patch n).frozen = (s.patch n).frozen := by
  by_cases h : n = p
  · rw [h, patch_setSeq_same]
  · rw [patch_setSeq_ne _ _ h]

/-- What a nested fault leaves: the load is frozen, with a record of the nested cause; the saved pc is the word's address. -/
def State.nested (s : State) (p : Nat) (a : Half) (cause : Word) (v : DWord) : State :=
  let t := s.freezeLoad p 2 (s.seq p).xinfo cause v
  t.setSeq p { t.seq p with pc := a.setWidth 17 }

theorem seqFault_nests {s : State} {p : Nat} (hx : (s.seq p).xt = true) (a : Half) (c : Cause) (sub : Nat) (v : DWord) :
    s.seqFault p a c sub v = s.nested p a (xcause (causeCode c) sub false) v := by
  rw [State.seqFault]
  exact if_pos hx

theorem nested_spec {s : State} {p : Nat} {l : Load} (hx : (s.seq p).xt = true) (hl : s.loadOf p = some l) (hp : p ∈ l.patches)
    (a : Half) (cause : Word) (v : DWord) :
    let t := s.nested p a cause v
    (∀ n ∈ l.patches, (t.patch n).frozen = true) ∧
    (t.seq p).pc = a.setWidth 17 ∧ (t.seq p).xpc = (s.seq p).xpc ∧ (t.seq p).xcause = (s.seq p).xcause ∧
    (t.seq p).xval = (s.seq p).xval ∧ (t.seq p).xvalh = (s.seq p).xvalh ∧ (t.seq p).xinfo = (s.seq p).xinfo ∧
    (t.seq p).xt = true ∧ (t.seq p).g = (s.seq p).g ∧ t.mem = s.mem ∧
    t.freezes = s.freezes ++ [freezeRec 0 (s.lpOf p) l.q l.part 1 2 0 l.lid.toNat (s.seq p).xinfo cause v s.clock.tsc 0] := by
  obtain ⟨hin, _, hmem, hfr⟩ := freezeLoad_spec hl 2 (s.seq p).xinfo cause v
  intro t
  have hseq : t.seq p = { s.seq p with latch := true, pc := a.setWidth 17 } := by
    obtain ⟨_, hq, _⟩ := hin p hp
    refine (seq_setSeq_same ..).trans ?_
    rw [State.seq, hq]
    rfl
  refine ⟨fun n hn => (frozen_setSeq ..).trans (hin n hn).1, by rw [hseq], by rw [hseq], by rw [hseq], by rw [hseq], by rw [hseq], by rw [hseq], by rw [hseq]; exact hx,
    by rw [hseq], hmem, hfr⟩

theorem trap_nests {s : State} (hx : (Terms.here s).xt = true) (a : BitVec 5) (sub c : BitVec 8) : exec (.trap a sub c) s =
    .next (s.nested s.cur.patch s.seqAt (BitVec.ofNat 32 (c.toNat + 256 * sub.toNat)) (BitVec.ofNat 64 ((Terms.here s).get a).toNat)) := by
  rw [← xcause_eq c.isLt sub.isLt, BitVec.ofNat_toNat]
  exact if_pos hx

/-- Settles O13: a fault takes the trap, or freezes the load as `nested_spec` says. -/
theorem trapEntry : Obligations.TrapEntry := by
  unfold Obligations.TrapEntry
  refine ⟨fun row hrow s p a sub v hs hx => ?_, fun s p l hx hl hp => ⟨fun row hrow a sub v hs => ?_, fun hc a sub c => ?_⟩⟩
  · obtain ⟨hcode, hlt⟩ := causeCode_of_mem row hrow
    rw [seqFault_enters hx, hcode, takeTrap_eq _ _ hlt hs]
  · obtain ⟨hcode, hlt⟩ := causeCode_of_mem row hrow
    rw [seqFault_nests hx, hcode, xcause_eq hlt hs]
    exact nested_spec hx hl hp a _ v
  · subst hc
    exact ⟨_, trap_nests hx a sub c, nested_spec hx hl hp _ _ _⟩

/-! ### FREEZE (R152, R397, R400) -/

/-- What completing leaves beside pc, the loops' counts and the fetch's own records. -/
theorem finish_only (q : Seq) (a : Half) : ∃ x y h, q.finish a = { q with pc := x, lc := y, held := h, last := a, begun := false } := by
  obtain ⟨h, he⟩ := finishAt_eq q a a [2, 1, 0]
  exact ⟨_, _, h, he⟩

theorem freezeSub_eq (q : Seq) : q.freezeSub = if q.xt = true ∧ q.xcause.toNat % 256 = 0x08 then 4 else 1 := rfl

theorem loadOf_setSeq (s : State) (p : Nat) (q : Seq) : (s.setSeq p q).loadOf p = s.loadOf p := by
  rw [State.loadOf, patch_setSeq_same]
  rfl

theorem lpOf_setSeq (s : State) (p : Nat) (q : Seq) : (s.setSeq p q).lpOf p = s.lpOf p := lpOf_of_load (by rw [patch_setSeq_same])

/-- Settles O18: the word completes, and then its load is frozen. -/
theorem freezeWord : Obligations.FreezeWord := by
  unfold Obligations.FreezeWord
  intro s l hl hp p q
  obtain ⟨hin, hout, hmem, hfr⟩ := freezeLoad_spec (s := s.setSeq p (q.finish s.seqAt)) (p := p) (l := l) ((loadOf_setSeq s p _).trans hl)
    q.freezeSub q.xinfo q.xcause (q.xvalh ++ q.xval)
  refine ⟨(s.setSeq p (q.finish s.seqAt)).freezeLoad p q.freezeSub q.xinfo q.xcause (q.xvalh ++ q.xval), rfl, fun n hn => (hin n hn).1,
    fun n hn => ?_, ?_⟩
  · rw [hout n hn, patch_setSeq_ne _ _ (show n ≠ s.cur.patch from fun h => hn (h ▸ hp))]
  · have hseq : ((s.setSeq p (q.finish s.seqAt)).freezeLoad p q.freezeSub q.xinfo q.xcause (q.xvalh ++ q.xval)).seq p =
        { q.finish s.seqAt with latch := true } := by
      obtain ⟨_, h, _⟩ := hin p hp
      rw [State.seq, h, patch_setSeq_same]
    rw [lpOf_setSeq, freezeSub_eq] at hfr
    obtain ⟨x, y, h, he⟩ := finish_only q s.seqAt
    refine ⟨by rw [hseq], ?_, ?_, ?_, ?_, ?_, ?_, ?_, hmem, hfr⟩ <;> rw [hseq, he]

/-! ### TRAP and XRET (R37, R127, R149, R153) -/

theorem trap_raises {s : State} (hx : (Terms.here s).xt = false) (a : BitVec 5) (sub c : BitVec 8) :
    let q := Terms.here s
    let p := s.cur.patch
    if c.toNat = 0 ∨ (0x15 ≤ c.toNat ∧ c.toNat ≤ 0x7F) then ∃ v, exec (.trap a sub c) s = .next (s.seqFault p s.seqAt .illop 0 v)
    else exec (.trap a sub c) s = .next (s.setPatch p { s.patch p with
      seq := { Terms.trapped q (s.seqAt + 4) c.toNat sub.toNat (BitVec.ofNat 64 (q.get a).toNat) with last := s.seqAt }, named := none }) := by
  have hz : c = 0 ↔ c.toNat = 0 := ⟨fun h => by rw [h]; rfl, fun h => BitVec.eq_of_toNat_eq h⟩
  intro q p
  have he : exec (.trap a sub c) s = execTrap a sub c s := rfl
  have hoff : ¬ (s.seq s.cur.patch).xt = true := by rw [show (s.seq s.cur.patch).xt = false from hx]; exact Bool.false_ne_true
  by_cases hc : c.toNat = 0 ∨ (0x15 ≤ c.toNat ∧ c.toNat ≤ 0x7F)
  · rw [if_pos hc, he, execTrap, if_neg hoff, if_pos (hc.imp_left hz.mpr)]
    exact ⟨_, rfl⟩
  · rw [if_neg hc, he, execTrap, if_neg hoff, if_neg (mt (Or.imp_left hz.mp) hc), takeTrap_eq _ _ c.isLt sub.isLt, BitVec.ofNat_toNat]
    rfl

/-- The check is made of the loops' counts and ends alone. -/
theorem loopCheck_lc_congr (a : Half) (ls : List Nat) : ∀ {q q' : Seq}, q'.lc = q.lc → q'.le = q.le →
    (loopCheck a ls q').1.lc = (loopCheck a ls q).1.lc := by
  induction ls with
  | nil => exact fun h _ => h
  | cons n ls ih =>
    intro q q' hlc hle
    simp only [loopCheck, hlc, hle]
    split
    · split
      · rfl
      · exact ih rfl rfl
    · exact ih hlc hle

/-- A word's completion leaves the loops as the check at its address leaves them. -/
theorem finish_lc (q : Seq) (a : Half) : (q.finish a).lc = (loopCheck a [2, 1, 0] q).1.lc := by
  obtain ⟨h, he⟩ := finishAt_eq q a a [2, 1, 0]
  have hlc := congrArg Seq.lc he
  exact hlc

theorem finish_lc_congr {q q' : Seq} (hlc : q'.lc = q.lc) (hle : q'.le = q.le) (a : Half) : (q'.finish a).lc = (q.finish a).lc := by
  rw [finish_lc, finish_lc, loopCheck_lc_congr a _ hlc hle]

theorem goesBack_congr {q q' : Seq} (hlc : q'.lc = q.lc) (hle : q'.le = q.le) (a : Half) (ls : List Nat) : q'.goesBack a ls = q.goesBack a ls := by
  simp only [Seq.goesBack, Seq.endsAt, hlc, hle]

/-- XRET's own effect: XPC, or the lb of a level that goes on, and the counts that any word at its address leaves. -/
theorem ret_eq (q : Seq) (a : Half) : ∃ h, q.ret a = { q with
    pc := ((q.goesBack a [2, 1, 0]).map (fun n => (q.lb.getD n 0).setWidth 17)).getD (q.xpc.setWidth 17), xt := false,
    lc := (q.finish a).lc, held := h, last := a, begun := false } := by
  obtain ⟨x, y, he⟩ := loopCheck_only a [2, 1, 0] (leaveTrap q)
  obtain ⟨_, hpc, _, _⟩ := loopCheck_spec a [2, 1, 0] (leaveTrap q) (by decide)
  have hlc := loopCheck_lc_congr a [2, 1, 0] (q := q) (q' := leaveTrap q) rfl rfl
  rw [goesBack_congr (q := q) (q' := leaveTrap q) rfl rfl] at hpc
  rw [finish_lc, ← hlc]
  rw [he] at hpc ⊢
  refine ⟨(q.ret a).held, ?_⟩
  simp only [Seq.ret, Seq.prune, he]
  rw [show x = ((q.goesBack a [2, 1, 0]).map fun n => (q.lb.getD n 0).setWidth 17).getD (q.xpc.setWidth 17) from hpc]
  rfl

section
variable (s : State) (p e n : Nat)

/-- A retried instance either fits its buffers or faults. -/
theorem fireCheck_cases : s.fireCheck p e n = s ∨ ∃ i v, s.fireCheck p e n = s.elemFault p e i .illop 2 v := by
  cases hi : (s.elem p e).inst n with
  | none => exact .inl (by rw [State.fireCheck, hi])
  | some i =>
    by_cases h : (s.elem p e).instFits i
    · exact .inl (fireCheck_of_fits hi h)
    · obtain ⟨w, v, hw⟩ := fireCheck_of_not_fits hi h
      exact .inr ⟨_, v, hw⟩

theorem seq_elemFault (i : Inst) (c : Cause) (sub : Nat) (v : DWord) : ∃ b, (s.elemFault p e i c sub v).seq p = { s.seq p with latch := b } := by
  by_cases hr : (s.patch p).fpend < 64
  · exact ⟨true, by rw [State.seq, patch_elemFault hr]; rfl⟩
  · obtain ⟨r, h⟩ := patch_elemFault_full (e := e) (i := i) (c := c) (sub := sub) (val := v) hr
    exact ⟨(s.seq p).latch, by rw [State.seq, h]; rfl⟩

/-- Of other patches a retry touches nothing, and of its own sequencer the event latch at most. -/
theorem disposeRetry_frame : (∃ b, (s.disposeRetry p e n).seq p = { s.seq p with latch := b }) ∧ (s.disposeRetry p e n).cur = s.cur ∧
    ∀ m, m ≠ p → (s.disposeRetry p e n).patch m = s.patch m := by
  have hd : s.disposeRetry p e n = (s.setElem p e ((s.elem p e).retried n)).fireCheck p e n := rfl
  have hq : (s.setElem p e ((s.elem p e).retried n)).seq p = s.seq p := seq_setElem ..
  have hm : ∀ m, m ≠ p → (s.setElem p e ((s.elem p e).retried n)).patch m = s.patch m := fun m h => patch_setPatch_ne _ _ h
  obtain h | ⟨i, v, h⟩ := fireCheck_cases (s.setElem p e ((s.elem p e).retried n)) p e n
  · rw [hd, h]
    exact ⟨⟨(s.seq p).latch, hq⟩, rfl, hm⟩
  · rw [hd, h]
    obtain ⟨b, hb⟩ := seq_elemFault (s.setElem p e ((s.elem p e).retried n)) p e i .illop 2 v
    exact ⟨⟨b, by rw [hb, hq]⟩, elemFault_cur .., fun m hm' => (patch_elemFault_ne hm').trans (hm m hm')⟩

variable {s p e n}

theorem inst_retried_of_none {v : Elem} (h : v.inst n = none) : (v.retried n).inst n = none := by
  have hf : ((fun x : Inst => x.id == n) ∘ fun x : Inst => if x.id = n then x.fire v.r else x) = fun x : Inst => x.id == n := by
    funext x
    by_cases hx : x.id = n
    · simp [hx, Inst.fire, Inst.rearm]
    · simp [hx]
  have hl : (v.forget n).insts.find? (fun x => x.id == n) = none := by
    rw [show (v.forget n).insts.find? (fun x => x.id == n) = _ from inst_forget, h]
    rfl
  rw [Elem.inst, Elem.retried, List.find?_map, hf, hl]
  rfl

/-- A retry of an instance that fits its buffers, or of none, raises no fault. -/
theorem disposeRetry_of_fits (h : ∀ i, (s.elem p e).inst n = some i → Terms.fits (s.elem p e) i.blk) :
    s.disposeRetry p e n = s.setElem p e ((s.elem p e).retried n) := by
  have hd : s.disposeRetry p e n = (s.setElem p e ((s.elem p e).retried n)).fireCheck p e n := rfl
  rw [hd]
  cases hi : (s.elem p e).inst n with
  | some i =>
    refine fireCheck_of_fits (i := i.fire (s.elem p e).r) ?_ ?_ <;> rw [elem_setElem_same]
    · exact inst_retried hi
    · exact h i hi
  | none =>
    rw [State.fireCheck, elem_setElem_same, inst_retried_of_none hi]

end

/-- The machine whose handler is about to return: an instance that is still named has been retried, and XINFO.V is clear. -/
def State.disposed (s : State) (p : Nat) : State := (s.ereplayRetry p).clearNamed p

section
variable (s : State) (p : Nat)

theorem disposed_of_none (h : (s.patch p).named = none) : s.disposed p = s.clearNamed p := by
  rw [State.disposed, State.ereplayRetry, h]

theorem disposed_of_named {e n : Nat} (h : (s.patch p).named = some (e, n)) :
    s.disposed p = ((s.disposeRetry p e n).clearNamed p).clearNamed p := by
  rw [State.disposed, State.ereplayRetry, h]

theorem patch_clearNamed_ne {m : Nat} (h : m ≠ p) : (s.clearNamed p).patch m = s.patch m := patch_setPatch_ne _ _ h

/-- Clearing V again changes nothing. -/
theorem seq_clearNamed_twice : ((s.clearNamed p).clearNamed p).seq p = (s.clearNamed p).seq p := by
  rw [seq_clearNamed, seq_clearNamed, BitVec.and_assoc, BitVec.and_self]

theorem disposed_frame : (∃ b, (s.disposed p).seq p = { s.seq p with xinfo := (s.seq p).xinfo &&& 0x7FFFFFFF, latch := b }) ∧
    (s.disposed p).cur = s.cur ∧ (∀ m, m ≠ p → (s.disposed p).patch m = s.patch m) ∧ ((s.disposed p).patch p).named = none := by
  cases hn : (s.patch p).named with
  | none =>
    rw [disposed_of_none s p hn]
    exact ⟨⟨(s.seq p).latch, seq_clearNamed ..⟩, rfl, fun m => patch_clearNamed_ne s p, named_clearNamed ..⟩
  | some x =>
    obtain ⟨e, n⟩ := x
    obtain ⟨⟨b, hb⟩, hc, hm⟩ := disposeRetry_frame s p e n
    rw [disposed_of_named s p hn]
    refine ⟨⟨b, ?_⟩, hc, fun m h => ?_, named_clearNamed ..⟩
    · rw [seq_clearNamed_twice, seq_clearNamed, hb]
    · rw [patch_clearNamed_ne _ p h, patch_clearNamed_ne _ p h, hm m h]

theorem elem_disposed : ((s.patch p).named = none → ∀ e, (s.disposed p).elem p e = s.elem p e) ∧
    ∀ e n, (s.patch p).named = some (e, n) → ∀ e', (s.disposed p).elem p e' = (s.disposeRetry p e n).elem p e' :=
  ⟨fun h e => by rw [disposed_of_none s p h, elem_clearNamed], fun e n h e' => by rw [disposed_of_named s p h, elem_clearNamed, elem_clearNamed]⟩

/-- Where the instance fits its buffers, no fault is raised. -/
theorem disposed_of_fits (h : ∀ e n i, (s.patch p).named = some (e, n) → (s.elem p e).inst n = some i → Terms.fits (s.elem p e) i.blk) :
    ((s.disposed p).seq p).latch = (s.seq p).latch ∧ ((s.disposed p).patch p).reports = (s.patch p).reports := by
  cases hn : (s.patch p).named with
  | none =>
    rw [disposed_of_none s p hn, seq_clearNamed, reports_clearNamed]
    exact ⟨rfl, rfl⟩
  | some x =>
    obtain ⟨e, n⟩ := x
    rw [disposed_of_named s p hn, disposeRetry_of_fits fun i => h e n i hn, seq_clearNamed_twice, seq_clearNamed, seq_setElem,
      reports_clearNamed, reports_clearNamed, patch_setElem_same]
    exact ⟨rfl, rfl⟩

end

theorem xret_returns {s : State} (hx : (Terms.here s).xt = true) : exec .xret s = .next
    ((s.disposed s.cur.patch).setSeq s.cur.patch (((s.disposed s.cur.patch).seq s.cur.patch).ret s.seqAt)) := by
  obtain ⟨⟨b, hb⟩, hc, _⟩ := disposed_frame s s.cur.patch
  have he : exec .xret s = .next (runSeq (fun a q => .moved (q.ret a)) (s.disposed s.cur.patch)) := if_pos hx
  have hat : (s.disposed s.cur.patch).seqAt = s.seqAt := by
    rw [State.seqAt, hc, hb]
    rfl
  rw [he, runSeq_of_moved rfl, hat, Terms.here, hc]

/-- Settles O14: TRAP by its cause; XRET by what the disposal of a named instance and its own effect leave. -/
theorem trapAndXret : Obligations.TrapAndXret := by
  unfold Obligations.TrapAndXret
  refine ⟨fun a sub c s hx => trap_raises hx a sub c, fun s => ⟨fun hx => ?_, fun hx => ?_⟩⟩
  · obtain ⟨⟨b, hb⟩, _, hother, hnamed⟩ := disposed_frame s s.cur.patch
    obtain ⟨hnone, hsome⟩ := elem_disposed s s.cur.patch
    obtain ⟨h, hret⟩ := ret_eq ((s.disposed s.cur.patch).seq s.cur.patch) s.seqAt
    have hfin : (((s.disposed s.cur.patch).seq s.cur.patch).finish s.seqAt).lc = ((Terms.here s).finish s.seqAt).lc := by
      rw [hb]
      refine finish_lc_congr ?_ ?_ _ <;> rfl
    have hback : ((s.disposed s.cur.patch).seq s.cur.patch).goesBack s.seqAt [2, 1, 0] = Terms.takesBack (Terms.here s) s.seqAt := by
      rw [hb]
      exact goesBack_congr rfl rfl ..
    rw [hback, hfin] at hret
    refine ⟨_, xret_returns hx, ?_⟩
    rw [seq_setSeq_same, patch_setSeq_same, hret]
    refine ⟨rfl, ?_, rfl, by rw [hb]; rfl, hnamed, by rw [setSeq_mem, State.disposed]; simp, by rw [hb]; rfl, fun hfits => disposed_of_fits s _ hfits,
      fun n hn => (patch_setSeq_ne _ _ hn).trans (hother n hn), fun hn e => (elem_setSeq ..).trans (hnone hn e),
      fun e n hn e' => (elem_setSeq ..).trans (hsome e n hn e')⟩
    rw [hb]
    cases Terms.takesBack (Terms.here s) s.seqAt <;> rfl
  · exact (if_neg (by simpa [Terms.here] using hx)).trans (congrArg _ (runSeq_of_faultOpen rfl))

end Sys2Proof.Machine
end

section
/-! PROOFS of the family of the sequencer's instructions: the sequencer store, the CSRs, TSCR, RDTAG and WFE (R115, R116, R123, R124, R149,
R150, R154, R444). -/

namespace Sys2Proof.Machine

/-! ### The sequencer store (R123) -/

section
variable (d a : BitVec 5) (i : BitVec 16) (size : Nat) (sg : Bool) (s : State)

/-- The address of a load or store of the sequencer store. -/
def storeAddr : Word := (Terms.here s).get a + BitVec.ofInt 32 i.toInt

theorem storeAddr_eq : (Terms.here s).get a + i.signExtend 32 = storeAddr a i s := rfl

theorem storeCheck_out {ea : Word} {size : Nat} (h : 65536 ≤ ea.toNat) : storeCheck ea size = some (.perm, 2) := if_pos h

theorem storeCheck_misaligned {ea : Word} {size : Nat} (h : ea.toNat < 65536) (hm : ea.toNat % size ≠ 0) : storeCheck ea size = some (.align, 0) := by
  rw [storeCheck, if_neg (by omega), if_pos hm]

theorem storeCheck_ok {ea : Word} {size : Nat} (h : ea.toNat < 65536) (hm : ea.toNat % size = 0) : storeCheck ea size = none := by
  rw [storeCheck, if_neg (by omega), if_neg (by omega)]

variable {d a i size sg s}

theorem storeLoad_faults {c : Cause} {sub : Nat} (h : storeCheck (storeAddr a i s) size = some (c, sub)) : storeLoad d a i size sg s =
    .next (s.seqFault s.cur.patch s.seqAt c sub (BitVec.ofNat 64 (storeAddr a i s).toNat)) := by
  refine congrArg _ ((runSeq_of_fault (c := c) (sub := sub) (v := (storeAddr a i s).setWidth 64) ?_).trans ?_)
  · simp only [storeAddr_eq, h]
  · rw [BitVec.ofNat_toNat]

theorem storeStore_faults {c : Cause} {sub : Nat} (h : storeCheck (storeAddr a i s) size = some (c, sub)) : storeStore d a i size s =
    .next (s.seqFault s.cur.patch s.seqAt c sub (BitVec.ofNat 64 (storeAddr a i s).toNat)) := by
  refine congrArg _ ((runSeq_of_fault (c := c) (sub := sub) (v := (storeAddr a i s).setWidth 64) ?_).trans ?_)
  · simp only [storeAddr_eq, h]
  · rw [BitVec.ofNat_toNat]

theorem storeLoad_loads (hin : (storeAddr a i s).toNat < 65536) (hal : (storeAddr a i s).toNat % size = 0) :
    storeLoad d a i size sg s = .next (Terms.completed s ((Terms.here s).put d
      (if sg then BitVec.ofInt 32 (BitVec.ofNat (8 * size) (Terms.storeValue (Terms.here s) (storeAddr a i s).toNat size)).toInt
        else BitVec.ofNat 32 (Terms.storeValue (Terms.here s) (storeAddr a i s).toNat size)))) := by
  rw [storeValue_eq]
  refine congrArg _ (runSeq_of_done ?_)
  simp only [storeAddr_eq, storeCheck_ok hin hal]
  rfl

theorem storeStore_stores (hin : (storeAddr a i s).toNat < 65536) (hal : (storeAddr a i s).toNat % size = 0) :
    storeStore d a i size s = .next (Terms.completed s { Terms.here s with
      store := cellWrite (Terms.here s).store (storeAddr a i s).toNat (leBytes size ((Terms.here s).get d).toNat) }) := by
  refine congrArg _ (runSeq_of_done ?_)
  simp only [storeAddr_eq, storeCheck_ok hin hal]

end

/-- What a load or store does at an address that fails its check. -/
def StoreFaults (i : Instr) (s : State) (ea size : Nat) : Prop :=
  (65536 ≤ ea → exec i s = .next (s.seqFault s.cur.patch s.seqAt .perm 2 (BitVec.ofNat 64 ea))) ∧
  (ea < 65536 → ea % size ≠ 0 → exec i s = .next (s.seqFault s.cur.patch s.seqAt .align 0 (BitVec.ofNat 64 ea)))

section
variable {w : Instr} {d a : BitVec 5} {i : BitVec 16} {size : Nat} {s : State}

theorem storeFaults_of_load {sg : Bool} (h : exec w s = storeLoad d a i size sg s) : StoreFaults w s (storeAddr a i s).toNat size :=
  ⟨fun ho => h.trans (storeLoad_faults (storeCheck_out ho)), fun hi hm => h.trans (storeLoad_faults (storeCheck_misaligned hi hm))⟩

theorem storeFaults_of_store (h : exec w s = storeStore d a i size s) : StoreFaults w s (storeAddr a i s).toNat size :=
  ⟨fun ho => h.trans (storeStore_faults (storeCheck_out ho)), fun hi hm => h.trans (storeStore_faults (storeCheck_misaligned hi hm))⟩

/-- The bytes of a store take the value; every other byte of the store stands. -/
theorem store_of_store (h : exec w s = storeStore d a i size s) (hwf : cellsWf (Terms.here s).store = true)
    (hin : (storeAddr a i s).toNat < 65536) (hal : (storeAddr a i s).toNat % size = 0) :
    ∃ st, exec w s = .next (Terms.completed s { Terms.here s with store := st }) ∧ cellsWf st = true ∧
      ∀ x, cellGet st x = if (storeAddr a i s).toNat ≤ x ∧ x < (storeAddr a i s).toNat + size
        then BitVec.ofNat 8 (((Terms.here s).get d).toNat / 256 ^ (x - (storeAddr a i s).toNat)) else cellGet (Terms.here s).store x := by
  refine ⟨_, h.trans (storeStore_stores hin hal), cellsWf_cellWrite _ _ _ hwf, fun x => ?_⟩
  rw [cellGet_cellWrite _ _ _ _ hwf, leBytes_length]
  by_cases hx : (storeAddr a i s).toNat ≤ x ∧ x < (storeAddr a i s).toNat + size
  · rw [if_pos hx, if_pos hx, leBytes_getD _ (by omega)]
  · rw [if_neg hx, if_neg hx]

end

/-- Settles O15: each word by its size, through the check of its address. -/
theorem sequencerStoreWords : Obligations.SequencerStoreWords := by
  unfold Obligations.SequencerStoreWords
  refine ⟨fun d a i s => ⟨?_, ?_⟩, ?_⟩ <;> simp only [List.forall_mem_cons]
  · exact ⟨fun h h' => storeLoad_loads (sg := true) h h', fun h h' => storeLoad_loads (sg := false) h h',
      fun h h' => storeLoad_loads (sg := true) h h', fun h h' => storeLoad_loads (sg := false) h h',
      fun h h' => storeLoad_loads (sg := false) h h', fun _ h => nomatch h⟩
  · exact ⟨storeFaults_of_load (w := .lb d a i) rfl, storeFaults_of_load (w := .lbu d a i) rfl, storeFaults_of_load (w := .lh d a i) rfl,
      storeFaults_of_load (w := .lhu d a i) rfl, storeFaults_of_load (w := .lw d a i) rfl, storeFaults_of_store (w := .sb d a i) rfl,
      storeFaults_of_store (w := .sh d a i) rfl, storeFaults_of_store (w := .sw d a i) rfl, fun _ h => nomatch h⟩
  · exact ⟨fun d a i s h hi ha => store_of_store (w := .sb d a i) rfl h hi ha, fun d a i s h hi ha => store_of_store (w := .sh d a i) rfl h hi ha,
      fun d a i s h hi ha => store_of_store (w := .sw d a i) rfl h hi ha, fun _ h => nomatch h⟩

/-! ### The CSRs, TSCR and RDTAG (R42, R115, R116, R149, R154) -/

theorem ite_eq_mul_toNat (b : Bool) (k : Nat) : (if b then k else 0) = b.toNat * k := by cases b <;> simp

theorem sqst_eq_fields (x : Patch) : x.sqst = Terms.sqst x := by
  simp only [Patch.sqst, Terms.sqst, ite_eq_mul_toNat]
  rfl

/-- Every row of the readable CSRs reads as the table says. -/
theorem csr_of_read : ∀ row ∈ Terms.csrReads, ∀ (s : State) (p : Nat), s.csr p row.1 = some (row.2 s p) := by
  simp only [Terms.csrReads, List.forall_mem_cons, ← sqst_eq_fields, BitVec.ofNat_toNat, ← setWidth_eq_low_half]
  refine ⟨?_, ?_, ?_, ?_, ?_, ?_, ?_, ?_, ?_, ?_, ?_, ?_, ?_, ?_, ?_, ?_, ?_, ?_, ?_, ?_, ?_, fun _ h => nomatch h⟩ <;> intro s p <;>
    simp [State.csr, State.seq]

/-- Every other number is read by none. -/
theorem csr_of_no_read {s : State} {p c : Nat} (h : ∀ row ∈ Terms.csrReads, c ≠ row.1) : s.csr p c = none := by
  simp only [Terms.csrReads, List.forall_mem_cons] at h
  obtain ⟨_, _, _, _, _, _, _, _, _, _, _, _, _, _, _, _, _, _, _, _, _, _⟩ := h
  rw [State.csr] <;> assumption

theorem csr_sets_half {o : Option Seq} {x : Seq} {v : Word} (h : o = if decide (v.toNat < 2 ^ 16) && v.toNat % 4 == 0 then some x else none) :
    (v.toNat < 65536 ∧ v.toNat % 4 = 0 → o = some x) ∧ (¬ (v.toNat < 65536 ∧ v.toNat % 4 = 0) → o = none) := by
  subst h
  simp

theorem csr_sets {o : Option Seq} {x : Seq} {c : Prop} [Decidable c] (h : o = if c then some x else none) :
    (c → o = some x) ∧ (¬ c → o = none) := by
  subst h
  exact ⟨fun hc => if_pos hc, fun hc => if_neg hc⟩

theorem csr_sets_any {o : Option Seq} {x : Seq} (h : o = some x) : (True → o = some x) ∧ (¬ True → o = none) :=
  ⟨fun _ => h, fun hn => (hn trivial).elim⟩

theorem eq_and_of_and_not {n : Nat} {v m : BitVec n} (h : v &&& ~~~m = 0) : v = v &&& m := by
  apply BitVec.eq_of_getLsbD_eq
  intro i hi
  have hb := congrArg (fun x : BitVec n => x.getLsbD i) h
  simp [hi] at hb ⊢
  exact hb

/-- No bit but that of DZ, bit 2, is set. -/
theorem dz_only_iff (v : Word) : v &&& ~~~4 = 0 ↔ v.toNat = 0 ∨ v.toNat = 4 := by
  constructor
  · intro h
    have hv := eq_and_of_and_not h
    rw [show (4 : Word) = BitVec.twoPow 32 2 from rfl, BitVec.and_twoPow] at hv
    split at hv
    · exact .inr (by rw [hv]; rfl)
    · exact .inl (by rw [hv]; rfl)
  · rintro (h | h)
    · rw [show v = 0 from BitVec.eq_of_toNat_eq h]
      rfl
    · rw [show v = 4 from BitVec.eq_of_toNat_eq h]
      rfl

theorem toNat_eq_zero_iff (v : Word) : v.toNat = 0 ↔ v = 0 := ⟨fun h => BitVec.eq_of_toNat_eq h, fun h => by rw [h]; rfl⟩

theorem csrSet_of_write : ∀ row ∈ Terms.csrWrites, ∀ (q : Seq) (v : Word),
    (row.2.1 v → q.csrSet row.1 v = some (row.2.2 q v)) ∧ (¬ row.2.1 v → q.csrSet row.1 v = none) := by
  simp only [Terms.csrWrites, List.forall_mem_cons]
  refine ⟨fun _ _ => csr_sets_any rfl, fun _ _ => csr_sets_any rfl, fun _ _ => csr_sets_any rfl, fun _ _ => csr_sets_half rfl,
    fun _ _ => csr_sets_half rfl, fun _ _ => csr_sets_half rfl, fun _ _ => csr_sets_half rfl, fun _ _ => csr_sets_half rfl,
    fun _ _ => csr_sets_half rfl, fun _ _ => csr_sets rfl, fun _ _ => csr_sets_half rfl, fun q v => ?_, fun _ _ => csr_sets rfl,
    fun _ h => nomatch h⟩
  rw [← dz_only_iff]
  simp only [toNat_eq_zero_iff]
  exact csr_sets rfl

theorem csrSet_of_no_write {q : Seq} {c : Nat} {v : Word} (h : ∀ row ∈ Terms.csrWrites, c ≠ row.1) : q.csrSet c v = none := by
  simp only [Terms.csrWrites, List.forall_mem_cons] at h
  obtain ⟨_, _, _, _, _, _, _, _, _, _, _, _, _, _⟩ := h
  rw [Seq.csrSet] <;> assumption

section
variable {s : State} {d a : BitVec 5} {c : BitVec 12}

theorem csrr_reads {v : Word} (h : s.csr s.cur.patch c.toNat = some v) : exec (.csrr d c) s = .next (Terms.completed s
    ((if c.toNat = 0x0C0 then { Terms.here s with tsch := BitVec.ofNat 32 (s.clock.tsc.toNat / 2 ^ 32) } else Terms.here s).put d v)) := by
  have hc : c = 0x0C0 ↔ c.toNat = 0x0C0 := ⟨fun h => by rw [h]; rfl, fun h => BitVec.eq_of_toNat_eq h⟩
  refine congrArg _ (runSeq_of_done ?_)
  simp only [h, hc, setWidth_eq_high_half]

theorem csrr_refuses (h : s.csr s.cur.patch c.toNat = none) : exec (.csrr d c) s =
    .next ({ s with free := s.free + 1 }.seqFault s.cur.patch s.seqAt .illop 2 (Config.freeDWord s.free)) := by
  refine congrArg _ (runSeq_of_faultOpen ?_)
  simp only [h]

theorem csrw_sets (hc : c.toNat ≠ 0x045) {q : Seq} (h : (Terms.here s).csrSet c.toNat ((Terms.here s).get a) = some q) :
    exec (.csrw a c) s = .next (Terms.completed s q) := by
  have he : ¬ c = 0x045 := fun h => hc (by rw [h]; rfl)
  refine (if_neg he).trans (congrArg _ (runSeq_of_done ?_))
  exact congrArg (fun o : Option Seq => (match o with | none => SeqOut.faultOpen .illop 2 | some q => .done q)) h

theorem csrw_refuses (hc : c.toNat ≠ 0x045) (h : (Terms.here s).csrSet c.toNat ((Terms.here s).get a) = none) : exec (.csrw a c) s =
    .next ({ s with free := s.free + 1 }.seqFault s.cur.patch s.seqAt .illop 2 (Config.freeDWord s.free)) := by
  have he : ¬ c = 0x045 := fun h => hc (by rw [h]; rfl)
  refine (if_neg he).trans (congrArg _ (runSeq_of_faultOpen ?_))
  exact congrArg (fun o : Option Seq => (match o with | none => SeqOut.faultOpen .illop 2 | some q => .done q)) h

end

theorem csrWrites_ne_ereplay : ∀ row ∈ Terms.csrWrites, row.1 ≠ 0x045 := by
  simp only [Terms.csrWrites, List.forall_mem_cons]
  decide

/-- Bits [21:10] of XINFO. -/
theorem tagField_eq (x : Word) : (x >>> 10) &&& 0xFFF = BitVec.ofNat 32 (x.toNat / 2 ^ 10 % 2 ^ 12) := by
  have hm := Nat.and_two_pow_sub_one_eq_mod (x.toNat / 2 ^ 10) 12
  have hx := x.isLt
  apply BitVec.eq_of_toNat_eq
  simp [Nat.shiftRight_eq_div_pow] at hm ⊢
  omega

theorem rdtag_reads (d : BitVec 5) (s : State) : exec (.rdtag d) s = .next (Terms.completed s ((Terms.here s).put d
    (if (Terms.here s).xinfo.toNat / 2 ^ 31 = 1 then BitVec.ofNat 32 ((Terms.here s).xinfo.toNat / 2 ^ 10 % 2 ^ 12) else 0xFFFFFFFF))) := by
  refine congrArg _ (runSeq_of_done ?_)
  simp only [tagField_eq, named_iff]

/-- Settles O16: each CSR by the row that names it. -/
theorem csrWords : Obligations.CsrWords := by
  unfold Obligations.CsrWords
  intro s d a c
  refine ⟨fun row hrow hc => csrr_reads (by rw [hc, csr_of_read row hrow]), fun h => csrr_refuses (csr_of_no_read h), fun row hrow hc => ?_,
    fun hc h => csrw_refuses hc (csrSet_of_no_write h), congrArg Host.Outcome.next (runSeq_of_done rfl), rdtag_reads d s⟩
  obtain ⟨hset, href⟩ := csrSet_of_write row hrow (Terms.here s) ((Terms.here s).get a)
  have hne : c.toNat ≠ 0x045 := hc ▸ csrWrites_ne_ereplay row hrow
  exact ⟨fun h => csrw_sets hne (by rw [hc, hset h]), fun h => csrw_refuses hne (by rw [hc, href h])⟩

/-! ### WFE (R150, R444) -/

/-- Settles O17: the wait ends at the latch, or after the patch's cycles. -/
theorem waitForEvent : Obligations.WaitForEvent := by
  unfold Obligations.WaitForEvent
  intro s p woken free wait
  have hwait : wait = s.cyclesOf p 65536 := by simp only [wait, State.cyclesOf]
  refine ⟨fun h => if_pos h, fun h hw => ?_, fun ⟨hf, hq⟩ hw hl => if_pos ?_, fun ⟨hf, hq⟩ hw ht => if_pos ?_, fun _ ht => if_neg ?_,
    fun hl => if_neg ?_⟩
  · refine (if_neg (by rw [show (s.seq s.cur.patch).latch = false from h]; exact Bool.false_ne_true)).trans ?_
    rw [show (s.seq s.cur.patch).wf = false from hw]
    rfl
  · simp [hw, hl, hf, hq]
  · simp [hw, hf, hq, hwait ▸ ht]
  · have hn : ¬ (s.seq p).wfeAt + s.cyclesOf p 65536 ≤ s.clock.n := hwait ▸ Nat.not_le.mpr ht
    simp [hn]
  · simp [hl]

end Sys2Proof.Machine
end

section
/-! PROOFS of the family of the sequencer's instructions: LDM, STM, the atomics and SIGNAL (R108, R131, R133, R135, R306, R357, R396). -/

namespace Sys2Proof.Machine

/-! ### A flat access: its address, and what stops it (R133) -/

section
variable {s : State} {fa : DWord} {size : Nat} {who : Asker} {f : Place → Option State}

theorem flatWord_misaligned (h : fa.toNat % size ≠ 0) : flatWord fa size who f s = s.seqFault s.cur.patch s.seqAt .align 0 fa := by
  rw [flatWord, if_pos h]
  rfl

theorem flatWord_untranslated (h : fa.toNat % size = 0) {u : Nat} (ht : s.seqTranslate s.cur.patch fa who = .fault .xlate u) :
    flatWord fa size who f s = s.seqFault s.cur.patch s.seqAt .xlate u fa := by
  simp only [flatWord, h, ht]
  rfl

/-- The code of an access that breaks its partition's boundary, whatever its sub-cause. -/
theorem xcause_perm (u : Nat) : xcause (causeCode .perm) u false = BitVec.ofNat 32 (0x04 + 256 * (u % 256)) := by
  rw [xcause, if_neg Bool.false_ne_true, Nat.add_zero, Nat.mul_comm 256]
  rfl

theorem flatWord_offends (h : fa.toNat % size = 0) {u : Nat} (ht : s.seqTranslate s.cur.patch fa who = .fault .perm u) :
    flatWord fa size who f s = Terms.offended s u fa := by
  simp only [flatWord, h, ht, Terms.offended, ← xcause_perm]
  rfl

theorem flatWord_waits (h : fa.toNat % size = 0) (ht : s.seqTranslate s.cur.patch fa who = .wait) : flatWord fa size who f s =
    s.setSeq s.cur.patch { Terms.here s with pullAt := some ((Terms.here s).pullAt.getD s.clock.ns) } := by
  simp only [flatWord, h, ht]
  rfl

theorem flatWord_goes (h : fa.toNat % size = 0) {pl : Place} (ht : s.seqTranslate s.cur.patch fa who = .ok pl) :
    flatWord fa size who f s = (f pl).getD s := by
  simp only [flatWord, h, ht]
  rfl

end

/-- What a flat-memory word does at an address that is misaligned, does not translate, is not its partition's, or waits. -/
def FlatFaults (s : State) (fa : DWord) (i : Instr × Nat × Asker) : Prop :=
  (fa.toNat % i.2.1 ≠ 0 → exec i.1 s = .next (s.seqFault s.cur.patch s.seqAt .align 0 fa)) ∧
  (fa.toNat % i.2.1 = 0 → ∀ u, s.seqTranslate s.cur.patch fa i.2.2 = .fault .xlate u → exec i.1 s = .next (s.seqFault s.cur.patch s.seqAt .xlate u fa)) ∧
  (fa.toNat % i.2.1 = 0 → ∀ u, s.seqTranslate s.cur.patch fa i.2.2 = .fault .perm u → exec i.1 s = .next (Terms.offended s u fa)) ∧
  (fa.toNat % i.2.1 = 0 → s.seqTranslate s.cur.patch fa i.2.2 = .wait → exec i.1 s =
    .next (s.setSeq s.cur.patch { Terms.here s with pullAt := some ((Terms.here s).pullAt.getD s.clock.ns) }))

theorem flatFaults_of_flatWord {s : State} {fa : DWord} {w : Instr} {size : Nat} {who : Asker} {f : Place → Option State}
    (h : exec w s = .next (flatWord fa size who f s)) : FlatFaults s fa (w, size, who) := by
  refine ⟨fun ha => ?_, fun ha u ht => ?_, fun ha u ht => ?_, fun ha ht => ?_⟩ <;> rw [h]
  · rw [flatWord_misaligned ha]
  · rw [flatWord_untranslated ha ht]
  · rw [flatWord_offends ha ht]
  · rw [flatWord_waits ha ht]

/-- An atomic that the handler's own word makes faults as any flat access. -/
theorem flatFaults_of_amomWord {s : State} {w : Instr} {k : AtomKind} {d a : BitVec 5} {wd : BitVec 1} {o : BitVec 2} {c : BitVec 3}
    (h : exec w s = amomWord k d a wd o c s) : FlatFaults s ((Terms.here s).pair a) (w, if wd = 1 then 8 else 4, .owner) := by
  have hw : (if (wd == 1) = true then 8 else 4) = if wd = 1 then 8 else 4 := by simp only [beq_iff_eq]
  rw [← hw]
  exact flatFaults_of_flatWord h

/-! ### What an access on this module gives -/

theorem module_of_local {pl : Place} (h : Terms.local_ pl) : pl.module = none :=
  if_neg fun hr => h.elim (fun hlt => absurd hr.1 (Nat.not_le.mpr hlt)) fun hge => absurd hr.2 (Nat.not_lt.mpr hge)

theorem complete_eq (s : State) (g : Seq → Seq) : s.complete g = Terms.flatDone s (g (Terms.here s)) := rfl

/-- A read by an agent that is no element leaves the machine but for what the agent has seen. -/
theorem readWith_only {s t : State} {x : Access} {got : List (Nat × List Byte)} {a n : Nat} {bs : List Byte} (hx : x.reader = none)
    (h : s.readWith x got a n = some (bs, t)) : ∃ l, t = { s with ord := { s.ord with seen := l } } := by
  simp only [State.readWith, hx] at h
  split at h
  · split at h
    · obtain ⟨_, rfl⟩ := Prod.mk.injEq .. ▸ Option.some.inj h
      exact State.noteReads_eq ..
    · exact nomatch h
  · exact nomatch h

theorem readNow_only {s t : State} {p : Nat} {sc : Scope} {pl : Place} {n : Nat} {bs : List Byte}
    (h : s.readNow (.seq p) sc pl n = some (bs, t)) : ∃ l, t = { s with ord := { s.ord with seen := l } } :=
  readWith_only rfl h

theorem readVia_of_local {s t : State} {ag : AgentId} {sc : Scope} {pl : Place} {n : Nat} {bs : List Byte} (hl : Terms.local_ pl)
    (h : s.readNow ag sc pl n = some (bs, t)) (fa : DWord) : s.readVia ag sc pl n fa = .got bs t := by
  simp only [State.readVia, module_of_local hl, h]

theorem atomVia_of_local {pl : Place} (hl : Terms.local_ pl) (s : State) (ag : AgentId) (acc : Option Nat) (k : AtomKind) (wide : Bool)
    (x y : DWord) (sc : Scope) (acq rel : Bool) (fa : DWord) : s.atomVia ag acc k wide pl x y sc acq rel fa =
    .got (leBytes 8 (s.atomic k wide pl.addr x y).1.toNat) (s.atomic k wide pl.addr x y).2 := by
  simp only [State.atomVia, module_of_local hl]

/-- An answer of 8 bytes is the number that they spell. -/
theorem answer_leBytes (v : DWord) : answer (leBytes 8 v.toNat) = v := by
  rw [answer, leNat_leBytes, Nat.mod_eq_of_lt (by exact v.isLt), BitVec.ofNat_toNat, BitVec.setWidth_eq]

/-- An atomic touches memory and its order alone. -/
theorem here_atomic (s : State) (k : AtomKind) (wide : Bool) (a : Nat) (x y : DWord) : Terms.here (s.atomic k wide a x y).2 = Terms.here s := by
  cases wide <;> rfl

/-! ### The words (R108, R131, R135) -/

section
variable {s : State} {d a : BitVec 5} {o z : BitVec 2} {c : BitVec 3} {pl : Place} (hl : Terms.local_ pl)
include hl

theorem ldm_completes (sg : BitVec 1) (ha : ((Terms.here s).pair a).toNat % 2 ^ z.toNat = 0)
    (ht : s.seqTranslate s.cur.patch ((Terms.here s).pair a) .plain = .ok pl) {bs : List Byte} {t : State}
    (hr : s.readNow (.seq s.cur.patch) (scopeOf c) pl (2 ^ z.toNat) = some (bs, t)) :
    exec (.ldm d a o z sg c) s = .next (Terms.flatDone t
      (if z = 3 then (Terms.here s).putPair d (BitVec.ofNat 64 (leNat bs))
       else (Terms.here s).put d (if sg = 1 then BitVec.ofInt 32 (BitVec.ofNat (8 * 2 ^ z.toNat) (leNat bs)).toInt else BitVec.ofNat 32 (leNat bs)))) := by
  refine congrArg Host.Outcome.next ((flatWord_goes ha ht).trans ?_)
  obtain ⟨l, rfl⟩ := readNow_only hr
  rw [readVia_of_local hl hr]
  rfl

omit hl in
theorem stm_completes (ha : ((Terms.here s).pair a).toNat % 2 ^ z.toNat = 0)
    (ht : s.seqTranslate s.cur.patch ((Terms.here s).pair a) .plain = .ok pl) :
    exec (.stm d a o z c) s = .next (Terms.flatDone (Terms.entered s
      ⟨0, .seq s.cur.patch, scopeOf c, pl, .store ⟨pl, Terms.spelled pl.addr (2 ^ z.toNat)
        (if z = 3 then ((Terms.here s).pair d).toNat else ((Terms.here s).get d).toNat), [], scopeOf c, o == 1, (Terms.here s).pair a, false⟩,
        false, o == 1, false, (Terms.here s).pair a, s.clock.ns, 0, none⟩) (Terms.here s)) := by
  rw [← bytesAt_eq_spelled]
  exact congrArg Host.Outcome.next (flatWord_goes ha ht)

omit hl in
theorem signal_completes (b : BitVec 5) (ha : ((Terms.here s).pair a).toNat % 4 = 0)
    (ht : s.seqTranslate s.cur.patch ((Terms.here s).pair a) .owner = .ok pl) :
    exec (.signal a b c) s = .next (Terms.flatDone (Terms.entered s ⟨0, .seq s.cur.patch, scopeOf c, pl,
      .owner (.signal ((Terms.here s).get b)) .none, false, true, false, (Terms.here s).pair a, s.clock.ns, 0, none⟩) (Terms.here s)) :=
  congrArg Host.Outcome.next (flatWord_goes ha ht)

theorem amomWord_completes (k : AtomKind) (w : BitVec 1) :
    let wide := w == 1
    let x : DWord := if wide then (Terms.here s).pair d else BitVec.ofNat 64 ((Terms.here s).get d).toNat
    let y : DWord := if wide then (Terms.here s).pair (d + 2) else BitVec.ofNat 64 ((Terms.here s).get (d + 1)).toNat
    ((Terms.here s).pair a).toNat % (if wide then 8 else 4) = 0 → s.seqTranslate s.cur.patch ((Terms.here s).pair a) .owner = .ok pl →
    s.ownerReady ⟨s.ord.nextId, .seq s.cur.patch, scopeOf c, pl, .owner (.atomic k wide x y) .none, o.getLsbD 0, o.getLsbD 1, false,
      (Terms.here s).pair a, 0, s.ord.nextId, none⟩ [pl.addr / 8] = true →
    amomWord k d a w o c s = .next (Terms.flatDone (s.atomic k wide pl.addr x y).2
      (if wide then (Terms.here s).putPair d (s.atomic k wide pl.addr x y).1
       else (Terms.here s).put d (BitVec.ofNat 32 (s.atomic k wide pl.addr x y).1.toNat))) := by
  simp only [BitVec.ofNat_toNat]
  intro ha ht hr
  refine congrArg Host.Outcome.next ((flatWord_goes ha ht).trans ?_)
  refine (congrArg (fun o => Option.getD o s) (if_pos hr)).trans ?_
  rw [atomVia_of_local hl]
  simp only [State.onVia, Option.getD_some, complete_eq, answer_leBytes, here_atomic]
  rfl

end

/-- Settles O20: what stops a word by `FlatFaults`; what one gives by the read, the entry or the atomic that it makes on this module. -/
theorem sequencerMemoryWords : Obligations.SequencerMemoryWords := by
  unfold Obligations.SequencerMemoryWords
  intro s d a b o z sg w c pl hl
  refine ⟨fun ha ht bs t hr => ldm_completes hl sg ha ht hr, stm_completes, signal_completes b, ?_, ?_⟩
  · simp only [List.forall_mem_cons]
    exact ⟨amomWord_completes hl .add w, amomWord_completes hl .min w, amomWord_completes hl .max w, amomWord_completes hl .and w,
      amomWord_completes hl .or w, amomWord_completes hl .xor w, amomWord_completes hl .swap w, amomWord_completes hl .cas w, fun _ h => nomatch h⟩
  · simp only [List.forall_mem_cons]
    exact ⟨flatFaults_of_flatWord (w := .ldm d a o z sg c) rfl, flatFaults_of_flatWord (w := .stm d a o z c) rfl,
      flatFaults_of_flatWord (w := .signal a b c) rfl, flatFaults_of_amomWord (w := .seqAadd d a w o c) rfl,
      flatFaults_of_amomWord (w := .seqAmin d a w o c) rfl, flatFaults_of_amomWord (w := .seqAmax d a w o c) rfl,
      flatFaults_of_amomWord (w := .seqAand d a w o c) rfl, flatFaults_of_amomWord (w := .seqAor d a w o c) rfl,
      flatFaults_of_amomWord (w := .seqAxor d a w o c) rfl, flatFaults_of_amomWord (w := .seqAswp d a w o c) rfl,
      flatFaults_of_amomWord (w := .seqAcas d a w o c) rfl, fun _ h => nomatch h⟩

end Sys2Proof.Machine
end

section
/-! SUPPORT. Stores that enter an issue queue word by word (R208, R304, R305). -/

namespace Sys2Proof.Machine

/-- An agent's accesses at one scope have entered its issue queue, and nothing else has changed: they store `bs`, in order. -/
def Enters (s t : State) (ag : AgentId) (sc : Scope) (bs : List (Nat × Byte)) : Prop :=
  ∃ l n, t = { s with ord := { s.ord with accs := s.ord.accs ++ l, nextId := n } } ∧
    (∀ x ∈ l, x.agent = ag ∧ x.scope = sc ∧ x.buffered = false) ∧ Terms.stored l = bs

section
variable {s t u : State} {ag : AgentId} {sc : Scope} {bs cs : List (Nat × Byte)}

theorem enters_refl : Enters s s ag sc [] := ⟨[], s.ord.nextId, by rw [List.append_nil], fun _ h => (List.not_mem_nil h).elim, rfl⟩

theorem enters_trans (h : Enters s t ag sc bs) (h' : Enters t u ag sc cs) : Enters s u ag sc (bs ++ cs) := by
  obtain ⟨l, n, rfl, hl, rfl⟩ := h
  obtain ⟨l', n', rfl, hl', rfl⟩ := h'
  refine ⟨l ++ l', n', by rw [← List.append_assoc], fun x hx => ?_, List.flatMap_append⟩
  exact (List.mem_append.mp hx).elim (hl x) (hl' x)

theorem enters_issueWords (grp : Nat) (l : List Store) (hl : ∀ st ∈ l, st.scope = sc) (s : State) :
    Enters s (s.issueWords grp ag l) ag sc (l.flatMap fun st => st.bytes) := by
  induction l generalizing s with
  | nil => exact enters_refl
  | cons st l ih =>
    have hs : st.scope = sc := hl st List.mem_cons_self
    refine enters_trans ?_ (ih (fun x hx => hl x (List.mem_cons_of_mem _ hx)) _)
    refine ⟨[_], _, rfl, fun x hx => ?_, List.flatMap_singleton ..⟩
    rw [List.mem_singleton.mp hx]
    exact ⟨rfl, hs, rfl⟩

/-- The groups of bytes by their words are the bytes, in order. -/
theorem flatMap_wordGroups (l : List (Nat × Byte)) : (wordGroups l).flatMap (fun g => g.2) = l := by
  induction l with
  | nil => rfl
  | cons b l ih =>
    rw [wordGroups]
    cases hw : wordGroups l with
    | nil =>
      rw [hw] at ih
      rw [← ih]
      rfl
    | cons g r =>
      obtain ⟨w, gs⟩ := g
      rw [hw, List.flatMap_cons] at ih
      rw [← ih]
      dsimp only
      split <;> rfl

/-- The words of a store without marks carry its bytes, at its scope. -/
theorem words_bytes {st : Store} (hm : st.marks = []) :
    (st.words.flatMap fun w => w.bytes) = st.bytes ∧ ∀ w ∈ st.words, w.scope = st.scope := by
  have hb := flatMap_wordGroups st.bytes
  rw [Store.words]
  by_cases he : (st.bytes.isEmpty && st.marks.isEmpty) = true
  · rw [if_pos he]
    exact ⟨List.flatMap_singleton .., fun w hw => by rw [List.mem_singleton.mp hw]⟩
  · rw [if_neg he, hm]
    simp only [List.filter_nil, List.map_nil, List.append_nil, List.flatMap_map, List.mem_map]
    exact ⟨hb, fun w ⟨g, _, hw⟩ => by rw [← hw]⟩

theorem enters_issueStore (s : State) (ag : AgentId) {st : Store} (hm : st.marks = []) :
    Enters s (s.issueStore ag st) ag st.scope st.bytes := by
  obtain ⟨hb, hsc⟩ := words_bytes hm
  have h := enters_issueWords (ag := ag) s.ord.nextId st.words hsc s
  rwa [hb] at h

theorem enters_issueStores (ag : AgentId) (l : List Store) (hl : ∀ st ∈ l, st.marks = [] ∧ st.scope = sc) (s : State) :
    Enters s (s.issueStores ag l) ag sc (l.flatMap fun st => st.bytes) := by
  induction l generalizing s with
  | nil => exact enters_refl
  | cons st l ih =>
    obtain ⟨hm, hs⟩ := hl st List.mem_cons_self
    exact enters_trans (hs ▸ enters_issueStore s ag hm) (ih (fun x hx => hl x (List.mem_cons_of_mem _ hx)) _)

end

end Sys2Proof.Machine
end

section
/-! PROOFS of the family of the sequencer's instructions: FENCE, LAUNCH, SBIND, SGO, SWAITP and SBAR (R39, R110, R134, R139, R141, R151, R313,
R427). -/

namespace Sys2Proof.Machine

/-! ### FENCE (R151, R313) -/

theorem rank_scopeOf_narrow {c : BitVec 3} (h : c.toNat < 2) : Scope.rank (scopeOf c) < 2 := by
  revert c
  decide

theorem fence_completes {s : State} {c : BitVec 3} (hc : c.toNat < 2) (h : s.allPerformed (.seq s.cur.patch) s.ord.nextId (scopeOf c) = true) :
    exec (.seqFence c) s = .next (Terms.flatDone s { Terms.here s with token := none }) := by
  refine if_pos ?_
  simp [h, rank_scopeOf_narrow hc]

theorem fence_waits {s : State} {c : BitVec 3} (h : s.allPerformed (.seq s.cur.patch) s.ord.nextId (scopeOf c) = false) :
    ∃ k, exec (.seqFence c) s = .next (s.setSeq s.cur.patch { Terms.here s with token := some k }) :=
  ⟨_, if_neg (by simp [h])⟩

/-! ### LAUNCH (R110, R134, R427) -/

section
variable {s : State} {d a b : BitVec 5} {pl : Place} (ha : ((Terms.here s).pair a).toNat % 64 = 0)
  (ht : s.seqTranslate s.cur.patch ((Terms.here s).pair a) .plain = .ok pl) (hp : s.allPerformed (.seq s.cur.patch) s.ord.nextId .dev = true)
include ha ht hp

omit ha ht in
theorem launch_ready : ¬ (!s.allPerformed (.seq s.cur.patch) s.ord.nextId .dev) = true := by simp [hp]

omit ha ht hp in
/-- The queue that a LAUNCH names, where the number is in range and the manager has given it. -/
theorem launch_finds {n : Nat} (h : 4096 ≤ n ∨ smFind s.queues n = none ∨ ∃ k, smFind s.queues n = some k ∧ k.part ≠ s.partOf s.cur.patch) :
    (if n < 4096 then smFind s.queues n else none) = none ∨
      ∃ k, (if n < 4096 then smFind s.queues n else none) = some k ∧ k.part ≠ s.partOf s.cur.patch := by
  by_cases hn : n < 4096
  · rw [if_pos hn]
    exact h.resolve_left (Nat.not_le.mpr hn)
  · exact .inl (if_neg hn)

theorem launch_refused (h : 4096 ≤ ((Terms.here s).get b).toNat ∨ smFind s.queues ((Terms.here s).get b).toNat = none ∨
      ∃ k, smFind s.queues ((Terms.here s).get b).toNat = some k ∧ k.part ≠ s.partOf s.cur.patch) :
    exec (.launch d a b) s = .next (Terms.flatDone s ((Terms.here s).put d (BitVec.ofNat 32 (0x04 + 256 * 3)))) := by
  refine congrArg Host.Outcome.next ((flatWord_goes ha ht).trans ?_)
  obtain hq | ⟨k, hq, hk⟩ := launch_finds h
  · refine (congrArg (fun o => Option.getD o s) (if_neg (launch_ready hp))).trans ?_
    simp only [show (s.seq s.cur.patch) = Terms.here s from rfl, hq]
    rfl
  · refine (congrArg (fun o => Option.getD o s) (if_neg (launch_ready hp))).trans ?_
    simp only [show (s.seq s.cur.patch) = Terms.here s from rfl, hq, if_pos hk]
    rfl

section
variable {k : Queue} (hn : ((Terms.here s).get b).toNat < 4096) (hk : smFind s.queues ((Terms.here s).get b).toNat = some k)
  (hpart : k.part = s.partOf s.cur.patch)
include hn hk hpart

theorem launch_full (hfull : (k.tail - k.headCnt).toNat = 2 ^ k.ringLog) :
    exec (.launch d a b) s = .next (Terms.flatDone s ((Terms.here s).put d 0x14)) := by
  refine congrArg Host.Outcome.next ((flatWord_goes ha ht).trans ?_)
  have hf : k.full = true := beq_iff_eq.mpr hfull
  refine (congrArg (fun o => Option.getD o s) (if_neg (launch_ready hp))).trans ?_
  simp only [show (s.seq s.cur.patch) = Terms.here s from rfl, if_pos hn, hk, if_neg (not_not_intro hpart), if_pos hf]
  rfl

/-- The packet has entered the ring, and the queue's tail has moved on. -/
def State.launched (t : State) (n : Nat) (k : Queue) (bs : List Byte) (ring : Place) : State :=
  let s := t.issueStore (.cmdProc k.part) ⟨ring, ((List.range 64).map (ring.addr + ·)).zip bs, [], .dev, false, k.entry k.tail.toNat, false⟩
  s.setQueue n { k.appended (k.tail + 1) with launchers := k.launchers ++ (s.launcherOf t.cur.patch).map (fun x => (k.tail.toNat, x)) }

theorem launch_goes (hl : Terms.local_ pl) (hfull : (k.tail - k.headCnt).toNat ≠ 2 ^ k.ringLog) {bs : List Byte} {t : State} {ring : Place}
    (hr : s.readNow (.seq s.cur.patch) .dev pl 64 = some (bs, t)) (hring : s.ringPlace k k.tail.toNat = .ok ring) :
    exec (.launch d a b) s = .next ((t.launched ((Terms.here s).get b).toNat k bs ring).complete fun q => q.put d 0) := by
  refine congrArg Host.Outcome.next ((flatWord_goes ha ht).trans ?_)
  have hf : ¬ k.full = true := mt beq_iff_eq.mp hfull
  refine (congrArg (fun o => Option.getD o s) (if_neg (launch_ready hp))).trans ?_
  simp only [show (s.seq s.cur.patch) = Terms.here s from rfl, if_pos hn, hk, if_neg (not_not_intro hpart), if_neg hf, hring,
    readVia_of_local hl hr, State.onVia]
  obtain ⟨l, rfl⟩ := readNow_only hr
  rfl

end

end

/-- The sequencer of a word that completes where no patch has changed. -/
theorem seq_complete_of_patches {t : State} (hp : t.patches = s.patches) (hc : t.cur = s.cur) (g : Seq → Seq) :
    (t.complete g).seq s.cur.patch = { g (Terms.here s) with pullAt := none }.finish s.seqAt := by
  have hq : Terms.here t = Terms.here s := by rw [Terms.here, Terms.here, State.seq, State.seq, State.patch, State.patch, hp, hc]
  have ha : t.seqAt = s.seqAt := congrArg (fun q => q.pc.setWidth 16) hq
  rw [complete_eq, hq, Terms.flatDone, Terms.completed, hc, seq_setSeq_same, ha]

/-- What `State.launched` leaves. -/
theorem launched_spec (t : State) (n : Nat) (k : Queue) (bs : List Byte) (ring : Place) :
    let u := t.launched n k bs ring
    (u.queue n).tail = k.tail + 1 ∧ (k.st = .idle → (u.queue n).st = .wait ∨ k.tail + 1 = k.headCnt) ∧ u.patches = t.patches ∧
      u.cur = t.cur ∧ u.mem = t.mem ∧ ∃ l, u.ord.accs = t.ord.accs ++ l ∧ (∀ x ∈ l, x.agent = .cmdProc k.part ∧ x.scope = .dev) ∧
        Terms.stored l = ((List.range 64).map (fun i => ring.addr + i)).zip bs := by
  obtain ⟨l, m, ho, hl, hb⟩ := enters_issueStore t (.cmdProc k.part)
    (st := ⟨ring, ((List.range 64).map (ring.addr + ·)).zip bs, [], .dev, false, k.entry k.tail.toNat, false⟩) rfl
  intro u
  have hu : u = (t.launched n k bs ring) := rfl
  rw [State.launched, ho] at hu
  rw [hu]
  refine ⟨by rw [queue_setQueue_same]; rfl, fun hk => ?_, rfl, rfl, rfl, l, rfl, fun x hx => ⟨(hl x hx).1, (hl x hx).2.1⟩, hb⟩
  rw [queue_setQueue_same]
  by_cases hh : k.tail + 1 = k.headCnt
  · exact .inr hh
  · exact .inl (if_pos ⟨hk, hh⟩)

/-! ### The scoreboard (R39, R139 to R141) -/

/-- A command that takes effect changes its port, and the event latch. -/
theorem advance1_only (x : Patch) (k : Nat) : ∃ m b, x.advance1 k = { x with ports := m, seq := { x.seq with latch := b } } := by
  unfold Patch.advance1
  dsimp only
  split
  · split
    · exact ⟨_, _, rfl⟩
    · exact ⟨x.ports, x.seq.latch, rfl⟩
  · split
    · exact ⟨_, x.seq.latch, rfl⟩
    · split
      · exact ⟨_, x.seq.latch, rfl⟩
      · exact ⟨x.ports, x.seq.latch, rfl⟩
  · exact ⟨x.ports, x.seq.latch, rfl⟩

/-- A port whose stream runs takes no command. -/
theorem port_advance1_of_running {x : Patch} {n m : Nat} (h : (x.port n).running = some m) (k : Nat) : (x.advance1 k).port n = x.port n := by
  by_cases hk : n = k
  · subst hk
    rw [Patch.advance1]
    simp only [h]
  · have hne : ∀ v, smGet Port.reset (smSet x.ports k v) n = x.port n := fun v => smGet_smSet_ne _ _ _ hk
    unfold Patch.advance1
    dsimp only
    split
    · split
      · exact hne _
      · rfl
    · split
      · exact hne _
      · split
        · exact hne _
        · rfl
    · rfl

/-- Taking effect on some ports, one after another. -/
theorem foldl_advance1_only (ks : List Nat) (x : Patch) :
    ∃ m b, ks.foldl (fun x k => x.advance1 k) x = { x with ports := m, seq := { x.seq with latch := b } } := by
  induction ks generalizing x with
  | nil => exact ⟨x.ports, x.seq.latch, rfl⟩
  | cons k ks ih =>
    obtain ⟨m, b, h⟩ := advance1_only x k
    obtain ⟨m', b', h'⟩ := ih (x.advance1 k)
    exact ⟨m', b', by rw [List.foldl_cons, h', h]⟩

theorem port_foldl_advance1_of_running {n m : Nat} (ks : List Nat) {x : Patch} (h : (x.port n).running = some m) :
    (ks.foldl (fun x k => x.advance1 k) x).port n = x.port n := by
  induction ks generalizing x with
  | nil => rfl
  | cons k ks ih =>
    have hk := port_advance1_of_running h k
    rw [List.foldl_cons, ih (by rw [hk]; exact h), hk]

theorem advance_only (x : Patch) : ∃ m b r, x.advance = { x with ports := m, bars := r, seq := { x.seq with latch := b } } := by
  obtain ⟨m, b, h⟩ := foldl_advance1_only (x.portOrder.flatMap fun k => [k, k]) x
  exact ⟨m, b, _, by rw [Patch.advance, h]⟩

@[simp] theorem cmdNo_advance (x : Patch) : x.advance.cmdNo = x.cmdNo := by
  obtain ⟨_, _, _, h⟩ := advance_only x
  rw [h]

@[simp] theorem elems_advance (x : Patch) : x.advance.elems = x.elems := by
  obtain ⟨_, _, _, h⟩ := advance_only x
  rw [h]

theorem port_advance_of_running {x : Patch} {n m : Nat} (h : (x.port n).running = some m) : x.advance.port n = x.port n :=
  port_foldl_advance1_of_running _ h

/-- A command waits behind the stream that its port runs. -/
theorem addCmd_of_running {x : Patch} {n m : Nat} (h : (x.port n).running = some m) (c : PortCmd) :
    ((x.addCmd n c).port n).cmds = (x.port n).cmds ++ [(x.cmdNo, c)] ∧ (x.addCmd n c).cmdNo = x.cmdNo + 1 := by
  have hp : ({ x with ports := smSet x.ports n { x.port n with cmds := (x.port n).cmds ++ [(x.cmdNo, c)] }, cmdNo := x.cmdNo + 1 } : Patch).port n =
      { x.port n with cmds := (x.port n).cmds ++ [(x.cmdNo, c)] } := smGet_smSet_same ..
  refine ⟨?_, cmdNo_advance _⟩
  rw [Patch.addCmd, port_advance_of_running (by rw [hp]; exact h), hp]

/-! ### SBIND, SGO, SWAITP and SBAR (R139, R141) -/

section
variable {s : State} {a : BitVec 5}

theorem sbind_misaligned (k : BitVec 4) (h : ((Terms.here s).pair a).toNat % 64 ≠ 0) :
    exec (.sbind a k) s = .next (s.seqFault s.cur.patch s.seqAt .illop 1 ((Terms.here s).pair a)) := if_pos h

/-- The 8 words of a stream descriptor. -/
def descriptor (bs : List Byte) : List DWord := (List.range 8).map (fun i => (BitVec.ofNat 64 (leNat ((bs.drop (8 * i)).take 8)) : DWord))

theorem sbind_reads {pl : Place} (hl : Terms.local_ pl) (k : BitVec 4) (ha : ((Terms.here s).pair a).toNat % 64 = 0)
    (ht : s.seqTranslate s.cur.patch ((Terms.here s).pair a) .plain = .ok pl) {bs : List Byte} {t : State}
    (hr : s.readNow (.seq s.cur.patch) .dev pl 64 = some (bs, t)) :
    let p := s.cur.patch
    (Stream.bad (descriptor bs) = true → exec (.sbind a k) s = .next (t.seqFault p s.seqAt .illop 1 ((Terms.here s).pair a))) ∧
    (Stream.bad (descriptor bs) = false → exec (.sbind a k) s =
      .next (Terms.flatDone (t.setPatch p ((t.patch p).addCmd k.toNat (.bind (Stream.parse (descriptor bs)))))
        ((t.setPatch p ((t.patch p).addCmd k.toNat (.bind (Stream.parse (descriptor bs))))).seq p))) := by
  have he : exec (.sbind a k) s = .next (if Stream.bad (descriptor bs) then t.seqFault s.cur.patch t.seqAt .illop 1 ((Terms.here s).pair a)
      else (t.setPatch s.cur.patch ((t.patch s.cur.patch).addCmd k.toNat (.bind (Stream.parse (descriptor bs))))).complete id) := by
    refine (if_neg (not_not_intro ha)).trans (congrArg Host.Outcome.next ((flatWord_goes ha ht).trans ?_))
    rw [readVia_of_local hl hr]
    rfl
  obtain ⟨l, rfl⟩ := readNow_only hr
  exact ⟨fun hb => he.trans (congrArg _ (if_pos hb)), fun hb => he.trans (congrArg _ (if_neg (by rw [hb]; exact Bool.false_ne_true)))⟩

theorem sgo_starts (k : BitVec 4) (h : (s.port s.cur.patch k.toNat).bound.isSome = true) :
    exec (.sgo k) s = .next (Terms.flatDone (s.setPatch s.cur.patch ((s.patch s.cur.patch).addCmd k.toNat .go))
      ((s.setPatch s.cur.patch ((s.patch s.cur.patch).addCmd k.toNat .go)).seq s.cur.patch)) :=
  if_pos (by simp [h])

theorem sgo_refused (k : BitVec 4) (hb : (s.port s.cur.patch k.toNat).bound = none) (hc : (s.port s.cur.patch k.toNat).cmds = []) :
    exec (.sgo k) s = .next ({ s with free := s.free + 1 }.seqFault s.cur.patch s.seqAt .illop 2 (Config.freeDWord s.free)) :=
  if_neg (by simp [hb, hc])

theorem sbar_completes (s : State) : ∃ x, exec .sbar s = .next (Terms.flatDone (s.setPatch s.cur.patch x) x.seq) ∧
    x.cmdNo = (s.patch s.cur.patch).cmdNo ∧ x.elems = (s.patch s.cur.patch).elems := by
  refine ⟨{ s.patch s.cur.patch with bars := (s.patch s.cur.patch).bars ++ [(s.patch s.cur.patch).cmdNo] }.advance, ?_, cmdNo_advance _,
    elems_advance _⟩
  refine congrArg Host.Outcome.next ((complete_eq ..).trans ?_)
  rw [Terms.here, State.seq, setPatch_cur, patch_setPatch_same]
  rfl

theorem barsPassed_iff (x : Patch) (n : Nat) : x.barsPassed n = true ↔ ∀ b ∈ x.bars, n < b ∨ ∀ m ∈ x.openCmds, b ≤ m := by
  simp [Patch.barsPassed, List.all_eq_true]

/-- SWAITP completes exactly once nothing holds it back. -/
theorem swaitp_runs (s : State) (k : BitVec 4) :
    let x := s.patch s.cur.patch
    let done := (s.port s.cur.patch k.toNat).running = none ∧ (s.port s.cur.patch k.toNat).cmds = [] ∧
      ∀ b ∈ x.bars, x.cmdNo < b ∨ ∀ m ∈ x.openCmds, b ≤ m
    (done → exec (.swaitp k) s = .next (Terms.flatDone s { Terms.here s with latch := true })) ∧ (¬ done → exec (.swaitp k) s = .next s) := by
  intro x done
  have hd : ((s.port s.cur.patch k.toNat).running.isNone && (s.port s.cur.patch k.toNat).cmds.isEmpty && x.barsPassed x.cmdNo) = true ↔ done := by
    rw [Bool.and_eq_true, Bool.and_eq_true, barsPassed_iff, Option.isNone_iff_eq_none, List.isEmpty_iff, and_assoc]
  exact ⟨fun h => if_pos (hd.mpr h), fun h => if_neg (mt hd.mp h)⟩

end

/-- Settles O22: FENCE and SWAITP by what they wait for, LAUNCH by the ring that it fills, the stream words by the scoreboard. -/
theorem fenceLaunchAndStreamWords : Obligations.FenceLaunchAndStreamWords := by
  unfold Obligations.FenceLaunchAndStreamWords
  refine ⟨fun s c d a b pl hl => ⟨fence_completes, fence_waits, fun ha ht hp => ⟨launch_refused ha ht hp, fun k hn hk hpart =>
    ⟨launch_full ha ht hp hn hk hpart, fun hfull bs t ring hr hring => ?_⟩⟩⟩, fun s a k pl hl => ⟨sbind_misaligned k,
    fun ha ht bs t hr => sbind_reads hl k ha ht hr, sgo_starts k, sgo_refused k, swaitp_runs s k, sbar_completes s,
    fun x n m c h _ => addCmd_of_running h c⟩⟩
  obtain ⟨htail, hst, hpatches, hcur, hmem, haccs⟩ := launched_spec t ((Terms.here s).get b).toNat k bs ring
  refine ⟨_, launch_goes ha ht hp hn hk hpart hl hfull hr hring, ?_, htail, hst, ?_, ?_⟩ <;> obtain ⟨l, rfl⟩ := readNow_only hr
  · exact seq_complete_of_patches hpatches hcur _
  · exact haccs
  · exact (State.complete_mem ..).trans hmem

end Sys2Proof.Machine
end

section
/-! PROOFS of the family of the sequencer's instructions: the configuration words and the swap (R110, R142 to R148). -/

namespace Sys2Proof.Machine

/-- A phase that is neither broken nor poisoned. -/
def Phase.sound (f : Phase) : Prop := f.broken = false ∧ f.poison = none

theorem refuses_of_sound {f : Phase} (h : f.sound) : f.refuses = none := by
  obtain ⟨hb, hp⟩ := h
  rw [Phase.refuses, hb, hp]
  rfl

theorem refuses_of_unsound {f : Phase} {st : Word} (h : (f.broken = true ∧ st = 5) ∨ (f.broken = false ∧ f.poison = some st)) :
    f.refuses = some st := by
  obtain ⟨hb, rfl⟩ | ⟨hb, hp⟩ := h
  · rw [Phase.refuses, hb]
    rfl
  · rw [Phase.refuses, hb, hp]
    rfl

theorem seq_setPhase (s : State) (p : Nat) (f : Phase) : (s.setPhase p f).seq p = s.seq p := by
  rw [State.seq, State.setPhase, patch_setPatch_same]
  rfl

/-- A configuration word of a patch completes with its status. -/
theorem cfgDone_eq {s : State} {p : Nat} (h : s.cur.patch = p) (d : BitVec 5) (st : Word) :
    s.cfgDone d st = Terms.flatDone s ((s.seq p).put d st) := by
  subst h
  rfl

section
variable {s : State} {d a : BitVec 5}

/-! ### A phase that refuses (R145, R148) -/

theorem cfg_refused {st : Word} (h : (s.patch s.cur.patch).phase.refuses = some st) :
    ∀ i ∈ [Instr.cfgld d a, Instr.cfgpat d a, Instr.cfgrect d a], exec i s = .next (s.cfgDone d st) := by
  have hld : execCfgld d a s = .next (s.cfgDone d st) := by simp only [execCfgld, h]
  have hpat : execCfgpat d a s = .next (s.cfgDone d st) := by simp only [execCfgpat, h]
  have hrect : execCfgrect d a s = .next (s.cfgDone d st) := by simp only [execCfgrect, h]
  simp only [List.forall_mem_cons]
  exact ⟨hld, hpat, hrect, fun _ h => nomatch h⟩

theorem cfgcmt_refused {st : Word} (hd : (s.patch s.cur.patch).phase.done = false) (h : (s.patch s.cur.patch).phase.refuses = some st) :
    exec (.cfgcmt d) s = .next ((s.setPhase s.cur.patch Phase.reset).cfgDone d st) := by
  refine (if_neg (by rw [hd]; exact Bool.false_ne_true)).trans ?_
  simp only [h]

section
variable (h : (s.patch s.cur.patch).phase.sound)
include h

/-! ### Records are read, checked and written to the shadow store (R144) -/

theorem cfg_misaligned (ha : ((Terms.here s).pair a).toNat % 8 ≠ 0) :
    ∀ i ∈ [Instr.cfgld d a, Instr.cfgpat d a], exec i s = .next (s.seqFault s.cur.patch s.seqAt .align 0 ((Terms.here s).pair a)) := by
  have hr := refuses_of_sound h
  have hld : execCfgld d a s = .next (s.seqFault s.cur.patch s.seqAt .align 0 ((Terms.here s).pair a)) := by
    simp only [execCfgld, hr]
    exact if_pos ha
  have hpat : execCfgpat d a s = .next (s.seqFault s.cur.patch s.seqAt .align 0 ((Terms.here s).pair a)) := by
    simp only [execCfgpat, hr]
    exact if_pos ha
  simp only [List.forall_mem_cons]
  exact ⟨hld, hpat, fun _ h => nomatch h⟩

omit h in
/-- One record that is read, parsed and covers its elements. -/
theorem cfgRecords_one {t : State} {p : Nat} {fa : DWord} {bs : List Byte} {x : RawPattern} {m : SMap ElemConf} {f : Phase}
    (hr : s.readRecord (.seq p) (s.partOf p) fa = .ok bs t) (hx : RawPattern.parse bs = .ok x)
    (hm : coverAll x (t.layout p).1 (t.layout p).2 (t.lpOf p) f.shadow = .ok m) :
    s.cfgRecords p fa 1 f = .ok { f with opened := true, shadow := m, lastPat := some x } bs.length t := by
  simp only [State.cfgRecords, hr, Phase.write, hx, hm]
  rfl

theorem cfgpat_writes (ha : ((Terms.here s).pair a).toNat % 8 = 0) {t : State} {bs : List Byte} {x : RawPattern} {m : SMap ElemConf}
    (hr : s.readRecord (.seq s.cur.patch) (s.partOf s.cur.patch) ((Terms.here s).pair a) = .ok bs t) (hx : RawPattern.parse bs = .ok x)
    (hm : coverAll x (t.layout s.cur.patch).1 (t.layout s.cur.patch).2 (t.lpOf s.cur.patch) (s.patch s.cur.patch).phase.shadow = .ok m) :
    exec (.cfgpat d a) s =
      .next ((t.setPhase s.cur.patch { (s.patch s.cur.patch).phase with opened := true, shadow := m, lastPat := some x }).cfgDone d 0) := by
  have he : exec (.cfgpat d a) s = execCfgpat d a s := rfl
  rw [he, execCfgpat]
  simp only [refuses_of_sound h]
  refine (if_neg (not_not_intro ha)).trans (congrArg Host.Outcome.next ?_)
  rw [show (s.seq s.cur.patch).pair a = (Terms.here s).pair a from rfl, cfgRecords_one hr hx hm]
  rfl

theorem cfgld_writes (ha : ((Terms.here s).pair a).toNat % 8 = 0) {t u : State} {hd : List Byte} {n : Nat} {g : Phase}
    (hr : s.readFlat (.seq s.cur.patch) (s.partOf s.cur.patch) ((Terms.here s).pair a) 16 = .ok hd t) (hv : numAt hd 0 4 / 65536 = 1)
    (ht : t.cur = s.cur) (hg : t.cfgRecords s.cur.patch ((Terms.here s).pair a + 16) (numAt hd 4 4)
      { (t.patch s.cur.patch).phase with opened := true } = .ok g n u) (hn : numAt hd 8 8 = 16 + n) :
    exec (.cfgld d a) s = .next ((u.setPhase s.cur.patch g).cfgDone d 0) := by
  have he : exec (.cfgld d a) s = execCfgld d a s := rfl
  rw [he, execCfgld]
  simp only [refuses_of_sound h]
  refine (if_neg (not_not_intro ha)).trans ?_
  rw [show (s.seq s.cur.patch).pair a = (Terms.here s).pair a from rfl, hr]
  refine (if_neg (not_not_intro hv)).trans (congrArg Host.Outcome.next ?_)
  rw [hg]
  refine (if_pos (beq_iff_eq.mpr hn)).trans ?_
  rw [ht]

theorem cfgrect_without (hl : (s.patch s.cur.patch).phase.lastPat = none) : exec (.cfgrect d a) s =
    .next ((s.setPhase s.cur.patch { (s.patch s.cur.patch).phase with opened := true, poison := some 0x10, shadow := [], lastPat := none }).cfgDone d 0x10) := by
  have he : exec (.cfgrect d a) s = execCfgrect d a s := rfl
  rw [he, execCfgrect]
  simp only [refuses_of_sound h, hl]
  rfl

theorem cfgrect_writes {x : RawPattern} {m : SMap ElemConf} (hl : (s.patch s.cur.patch).phase.lastPat = some x)
    (hm : coverRect x (s.layout s.cur.patch).1 (s.layout s.cur.patch).2 (s.lpOf s.cur.patch) ((Terms.here s).pair a)
      (s.patch s.cur.patch).phase.shadow = .ok m) :
    exec (.cfgrect d a) s = .next ((s.setPhase s.cur.patch { (s.patch s.cur.patch).phase with opened := true, shadow := m }).cfgDone d 0) := by
  have he : exec (.cfgrect d a) s = execCfgrect d a s := rfl
  have hm' : coverRect x (s.layout s.cur.patch).1 (s.layout s.cur.patch).2 (s.lpOf s.cur.patch) ((s.seq s.cur.patch).pair a)
      (s.patch s.cur.patch).phase.shadow = .ok m := hm
  rw [he, execCfgrect]
  simp only [refuses_of_sound h, hl, hm']

/-! ### CFGCMT (R145, R146) -/

/-- The checks of the patch whose turn it is, with the shadow store in the place of what its elements run. -/
def State.cfgcmtCheck (s : State) : Option CfgFailAt :=
  let p := s.cur.patch
  let f := (s.patch p).phase
  let w := Nat.max 1 (s.layout p).1
  checkCommit f.shadow (s.runningWith p f.shadow) (8 * (s.layout p).1) (8 * (s.layout p).2) (s.lpOf p % w) (s.lpOf p / w)

section
variable (hd : (s.patch s.cur.patch).phase.done = false)
include hd

theorem cfgcmt_unopened (ho : (s.patch s.cur.patch).phase.opened = false) : exec (.cfgcmt d) s = .next (s.cfgDone d 0x10) := by
  refine (if_neg (by rw [hd]; exact Bool.false_ne_true)).trans ?_
  simp only [refuses_of_sound h]
  exact if_pos (by rw [ho]; rfl)

section
variable (ho : (s.patch s.cur.patch).phase.opened = true) (hdr : (s.patch s.cur.patch).phase.drain = false)
include ho hdr

theorem cfgcmt_goes : exec (.cfgcmt d) s = .next ((s.cfgcmtCheck.map fun e => (s.setPhase s.cur.patch Phase.reset).cfgDone d e.status).getD
    (s.setPhase s.cur.patch { (s.patch s.cur.patch).phase with drain := true })) := by
  refine (if_neg (by rw [hd]; exact Bool.false_ne_true)).trans ?_
  simp only [refuses_of_sound h]
  refine (if_neg (by rw [ho]; decide)).trans ((if_neg (by rw [hdr]; exact Bool.false_ne_true)).trans ?_)
  cases hx : s.cfgcmtCheck <;> rw [State.cfgcmtCheck] at hx <;> rw [hx] <;> rfl

end

end

end

theorem cfgcmt_swapped (hd : (s.patch s.cur.patch).phase.done = true) :
    exec (.cfgcmt d) s = .next ((s.setPhase s.cur.patch Phase.reset).cfgDone d 0) := if_pos hd

theorem cfgabt_ends (s : State) : exec .cfgabt s = .next (Terms.flatDone (s.setPhase s.cur.patch Phase.reset) (Terms.here s)) := by
  refine congrArg Host.Outcome.next ((complete_eq ..).trans ?_)
  rw [Terms.here, show (s.setPhase s.cur.patch Phase.reset).cur = s.cur from rfl, seq_setPhase]
  rfl

end

/-! ### The swap (R146) -/

theorem configSwap_swaps {s : State} {n : Nat} (hf : (s.patch n).frozen = false) (hr : (s.patch n).running = true)
    (hd : (s.patch n).phase.drain = true) (hq : (s.patch n).quiet = true) :
    ∃ t, exec (.configSwap n) s = .next t ∧ (t.patch n).phase.done = true ∧ (t.patch n).phase.drain = false ∧
      (t.patch n).elems = ((s.configure n (s.patch n).phase.shadow).patch n).elems := by
  refine ⟨_, if_neg (by simp [hf, hr, hd, hq]), ?_⟩
  rw [patch_setPatch_same]
  exact ⟨rfl, rfl, rfl⟩

theorem configSwap_waits {s : State} {n : Nat} (hq : (s.patch n).quiet = false) : exec (.configSwap n) s = .next s :=
  if_pos (by simp [hq])

/-- Settles O23: each word by the state of its phase; the swap by its patch's quiescence. -/
theorem configurationWords : Obligations.ConfigurationWords := by
  unfold Obligations.ConfigurationWords
  intro s d a p q f fa done sound
  refine ⟨fun st hst => ⟨cfg_refused (refuses_of_unsound hst), fun hd => cfgcmt_refused hd (refuses_of_unsound hst)⟩,
    fun h ha => cfg_misaligned h ha, fun h ha bs t x m hr hx hm ht => ?_, fun h ha hd t u n g hr hv ht hg hn hu => ?_,
    fun h hl => cfgrect_without h hl, fun h x m hl hm => cfgrect_writes h hl hm, cfgabt_ends s, cfgcmt_swapped,
    fun h hd ho => cfgcmt_unopened h hd ho, fun h hd ho hdr x hx => ⟨fun hn => ?_, fun e he => ?_⟩,
    fun n hf hr hd hq => configSwap_swaps hf hr hd hq, fun n hq => configSwap_waits hq⟩
  · exact (cfgpat_writes h ha hr hx hm).trans (congrArg _ (cfgDone_eq (s := t.setPhase p _) (congrArg Cur.patch ht) d 0))
  · exact (cfgld_writes h ha hr hv ht hg hn).trans (congrArg _ (cfgDone_eq (s := u.setPhase p g) (congrArg Cur.patch hu) d 0))
  · rw [cfgcmt_goes h hd ho hdr, show s.cfgcmtCheck = none from hx.trans hn]
    rfl
  · rw [cfgcmt_goes h hd ho hdr, show s.cfgcmtCheck = some e from hx.trans he]
    rfl

end Sys2Proof.Machine
end

section
/-! PROOFS of the family of the sequencer's instructions: the events of a stream port (R138, R141, R238, R319, R350 to R354, R385, R396,
R428). -/

namespace Sys2Proof.Machine

/-! ### A step that misses (R319, R350 to R352, R396) -/

section
variable {s : State} {p k n : Nat} {d : Stream} {pt : Port} {c : Cause} {sub : Nat} {fa : DWord} {u : Option Slot} {buf : Bool}

/-- A step that a port holds until a resume. -/
def missedStep (s : State) (n : Nat) (pt : Port) (sub : Nat) (fa : DWord) (u : Option Slot) : Missed :=
  ⟨n, fa, sub, pt.tok + 1, pt.ht, u, s.clock.ns, false, false⟩

theorem portMiss_perm : s.portMiss p k n d pt .perm sub fa u buf = s.freezePort p k sub fa := if_pos rfl

theorem portMiss_ends (hx : c ≠ .xlate) (hp : c ≠ .perm) : s.portMiss p k n d pt c sub fa u buf = s.endStream p k n c sub fa :=
  (if_neg hp).trans (if_pos hx)

theorem portMiss_bubbles (hb : pt.bubble = true) (hd : d.toMem = false) (hl : pt.bubbles.length < 64) :
    s.portMiss p k n d pt .xlate sub fa u buf = s.portEmit p k d { pt with
      tok := pt.tok + 1, recs := pt.recs ++ [faultRec (s.lpOf p) k true .xlate sub fa s.clock.tsc n (pt.tok + 1)],
      bubbles := pt.bubbles ++ [missedStep s n pt sub fa none], step := n + 1, got := [], pullAt := none } (bubbleSlot n fa pt.ht) :=
  (if_neg nofun).trans ((if_neg (not_not_intro rfl)).trans (if_pos (by simp [hb, hd, hl])))

theorem portMiss_parks (h : ¬ (pt.bubble = true ∧ d.toMem = false ∧ pt.bubbles.length < 64)) :
    s.portMiss p k n d pt .xlate sub fa u buf = (if buf then s.takeSlot p d else s).setPort p k { pt with
      tok := pt.tok + 1, recs := pt.recs ++ [faultRec (s.lpOf p) k false .xlate sub fa s.clock.tsc n (pt.tok + 1)],
      step := n + 1, got := [], pullAt := none, parked := some (missedStep s n pt sub fa u) } := by
  refine (if_neg nofun).trans ((if_neg (not_not_intro rfl)).trans (if_neg ?_))
  rwa [Bool.and_eq_true, Bool.and_eq_true, Bool.not_eq_true', decide_eq_true_eq, and_assoc]

/-- A stream that ends leaves its port without a stream; its record is queued. -/
theorem endStream_spec : let t := s.endStream p k n c sub fa
    t.port p k = { s.port p k with
      running := none, parked := none, bubbles := [], got := [], tok := (s.port p k).tok + 1,
      recs := (s.port p k).recs ++ [faultRec (s.lpOf p) k false c sub fa s.clock.tsc n ((s.port p k).tok + 1)] } ∧
    (t.seq p).latch = true ∧ t.mem = s.mem := by
  refine ⟨?_, ?_, rfl⟩
  · rw [State.port, State.endStream, patch_setPatch_same]
    exact smGet_smSet_same ..
  · rw [State.seq, State.endStream, patch_setPatch_same]

/-! ### A step that is made (R138) -/

variable {l : List (Place × Nat)}

theorem portAccess_faults : s.portAccess p k n d pt (.fault c sub, fa) u buf = some (s.portMiss p k n d pt c sub fa u buf) := rfl

theorem portAccess_reads {bs : List Byte} {s' : State} (h : s.readAll (.port p k) .patch fa l = .got bs s') :
    s.portAccess p k n d pt (.ok l, fa) none buf =
      some (s'.portEmit p k d { pt with step := n + 1, parked := none, got := [], pullAt := none } (d.slot n bs)) := by
  simp only [State.portAccess, h]

end

/-! ### The bytes that a step writes (R138, R302) -/

/-- The bytes of a slot that a step moves. -/
def Stream.slotBytes (d : Stream) (u : Slot) : List Byte := (List.range d.size).map (fun i => BitVec.ofNat 8 (u.toNat / 256 ^ i))

theorem size_le (d : Stream) : d.size ≤ 32 := by
  rw [Stream.size]
  split <;> decide

theorem setWidth_shift_eq (u : Slot) (i : Nat) : ((u >>> (8 * i)).setWidth 8 : Byte) = BitVec.ofNat 8 (u.toNat / 256 ^ i) := by
  apply BitVec.eq_of_toNat_eq
  simp [Nat.shiftRight_eq_div_pow, Nat.pow_mul]

theorem slotBytes_eq (d : Stream) (u : Slot) : ((List.range 32).map (fun i => ((u >>> (8 * i)).setWidth 8 : Byte))).take d.size = d.slotBytes u := by
  simp only [setWidth_shift_eq]
  rw [← List.map_take, List.take_range, Nat.min_eq_left (size_le d)]
  rfl

theorem zip_append_left {α β : Type} (as bs : List α) (cs : List β) :
    (as ++ bs).zip cs = as.zip (cs.take as.length) ++ bs.zip (cs.drop as.length) := by
  induction as generalizing cs with
  | nil => simp
  | cons a as ih =>
    cases cs with
    | nil => simp
    | cons c cs => simp [ih]

/-- The stores of a step carry its bytes, piece by piece, at `.part`. -/
theorem stepStores_spec (l : List (Place × Nat)) (fa : DWord) (bs : List Byte) :
    (∀ st ∈ stepStores fa l bs, st.marks = [] ∧ st.scope = .part) ∧
    ((stepStores fa l bs).flatMap fun st => st.bytes) = (l.flatMap (fun y => (List.range y.2).map (y.1.addr + ·))).zip bs := by
  induction l generalizing fa bs with
  | nil => exact ⟨fun _ h => (List.not_mem_nil h).elim, rfl⟩
  | cons y l ih =>
    obtain ⟨pl, n⟩ := y
    obtain ⟨hst, hb⟩ := ih (fa + BitVec.ofNat 64 n) (bs.drop n)
    refine ⟨fun st h => ?_, ?_⟩
    · rcases List.mem_cons.mp h with rfl | h
      · exact ⟨rfl, rfl⟩
      · exact hst st h
    · rw [stepStores, List.flatMap_cons, hb, List.flatMap_cons, zip_append_left, List.length_map, List.length_range]

section
variable {s : State} {p k : Nat} {d : Stream}

theorem elem_setPort (n m : Nat) (v : Port) : (s.setPort p k v).elem n m = s.elem n m := by
  by_cases h : n = p
  · subst h
    rw [State.elem, State.setPort, patch_setPatch_same]
    rfl
  · rw [State.elem, State.setPort, patch_setPatch_ne _ _ h]
    rfl

/-- A slot that is taken from an output buffer is its first. -/
theorem takeSlot_eq {u : QUnit} {rest : List QUnit} (h : ((s.elem p d.el).o.getD d.qp OutPort.reset).buf = u :: rest) :
    s.takeSlot p d = s.setElem p d.el { s.elem p d.el with
      o := (s.elem p d.el).o.set d.qp { (s.elem p d.el).o.getD d.qp OutPort.reset with buf := rest } } := by
  simp only [State.takeSlot, h, List.drop_one, List.tail_cons]

/-- A step to memory: its stores enter, its slot leaves the buffer, and the port goes on. -/
theorem portAccess_writes (n : Nat) (pt : Port) (l : List (Place × Nat)) (fa : DWord) (u : Slot) :
    ∃ t xs, s.portAccess p k n d pt (.ok l, fa) (some u) true = some t ∧
      t.port p k = { pt with step := n + 1, parked := none, pullAt := none } ∧ t.ord.accs = s.ord.accs ++ xs ∧
      (∀ a ∈ xs, a.agent = .port p k ∧ a.scope = .part ∧ a.buffered = false) ∧
      Terms.stored xs = (l.flatMap (fun y => (List.range y.2).map (y.1.addr + ·))).zip (d.slotBytes u) ∧
      (∀ e, t.elem p e = (s.takeSlot p d).elem p e) ∧ t.mem = s.mem := by
  obtain ⟨hst, hb⟩ := stepStores_spec l (if d.tensor then fa else BitVec.ofInt 64 (d.addr n)) (d.slotBytes u)
  obtain ⟨xs, m, ho, hx, hs⟩ := enters_issueStores (.port p k) _ hst s
  rw [hb] at hs
  rw [← slotBytes_eq] at ho
  have hacc : s.portAccess p k n d pt (.ok l, fa) (some u) true =
      some (({ s with ord := { s.ord with accs := s.ord.accs ++ xs, nextId := m } } : State).takeSlot p d |>.setPort p k
        { pt with step := n + 1, parked := none, pullAt := none }) := by
    simp only [State.portAccess, ho, if_true]
  exact ⟨_, xs, hacc, port_setPort_same .., rfl, hx, hs, fun e => elem_setPort .., rfl⟩

end

/-! ### A port's turn (R138, R141, R350 to R353) -/

/-- REPAIR is bit 1 of the flags of a header. -/
theorem repaired_eq (u : Slot) : repaired u = u ||| BitVec.ofNat 256 (2 ^ 241) := congrArg (u ||| ·) (by decide)

theorem port_of_patch (s : State) (p k : Nat) : (s.patch p).port k = s.port p k := rfl

section
variable {s : State} {p k : Nat} {d : Stream} (hr : Terms.portRuns s p k) (hb : (s.port p k).bound = some d)
include hr

/-- A port of a running patch may make a step. -/
theorem not_held_of_portRuns : ((s.patch p).frozen || (s.port p k).frozen || !(s.patch p).running) = false := by
  obtain ⟨hrun, hf, hpf⟩ := hr
  rw [hrun, hf, hpf]
  rfl

include hb

theorem streamStep_done {r : Nat} (hrun : (s.port p k).running = some r) (hd : s.portDone p k d (s.port p k) = true) :
    exec (.streamStep p k) s = .next (s.setPatch p { s.patch p with
      ports := smSet (s.patch p).ports k { s.port p k with running := none }, seq := { (s.patch p).seq with latch := true } }.advance) := by
  have he : exec (.streamStep p k) s = execStreamStep p k s := rfl
  rw [he, execStreamStep]
  simp only [port_of_patch, not_held_of_portRuns hr, hrun, hb, hd, if_true, Bool.false_eq_true, if_false]

section
variable {r : Nat} (hrun : (s.port p k).running = some r) (hd : s.portDone p k d (s.port p k) = false) (hpk : (s.port p k).parked = none)
  (hn : (s.port p k).step < d.steps) {t : Tr (List (Place × Nat)) × DWord} (ht : s.stepPlace p k d (s.port p k).step = t)
include hrun hd hpk hn ht

theorem streamStep_in (hdir : d.toMem = false) (hq : ((s.elem p d.el).q.getD d.qp []).length < 16) :
    exec (.streamStep p k) s = .next ((s.portAccess p k (s.port p k).step d (s.port p k) t none false).getD s) := by
  have he : exec (.streamStep p k) s = execStreamStep p k s := rfl
  have hroom : s.queueRoom p d = true := decide_eq_true hq
  rw [he, execStreamStep]
  simp only [port_of_patch, not_held_of_portRuns hr, hrun, hb, hd, hpk, hdir, hroom, ht, if_neg (Nat.not_le.mpr hn), if_true, Bool.false_eq_true, if_false]

theorem streamStep_out (hdir : d.toMem = true) {u : QUnit} {rest : List QUnit}
    (hu : ((s.elem p d.el).o.getD d.qp OutPort.reset).buf = u :: rest) :
    exec (.streamStep p k) s = .next ((s.portAccess p k (s.port p k).step d (s.port p k) t (some u.u) true).getD s) := by
  have he : exec (.streamStep p k) s = execStreamStep p k s := rfl
  rw [he, execStreamStep]
  simp only [port_of_patch, not_held_of_portRuns hr, hrun, hb, hd, hpk, hdir, hu, ht, if_neg (Nat.not_le.mpr hn), if_true, Bool.false_eq_true, if_false]

end

theorem releaseStep_goes {m : Missed} (hm : (s.port p k).parked = some m) (hres : m.resume = true)
    (hroom : d.toMem = true ∨ s.queueRoom p d = true) {t : State}
    (ht : s.portAccess p k m.step d { s.port p k with parked := none } (s.stepPlace p k d m.step) m.unit false = some t) :
    exec (.releaseStep p k) s = .next t := by
  have he : exec (.releaseStep p k) s = execReleaseStep p k s := rfl
  have hheld : (!d.toMem && !s.queueRoom p d) = false := by
    rcases hroom with h | h <;> simp [h]
  simp only [hb] at ht
  rw [he, execReleaseStep]
  simp only [port_of_patch, hm, hb, not_held_of_portRuns hr, hres, hheld, ht]
  rfl

theorem repairStep_repairs {m : Missed} (hm : (s.port p k).bubbles.find? (fun m => m.resume) = some m) (hroom : s.queueRoom p d = true)
    {l : List (Place × Nat)} {fa : DWord} {bs : List Byte} {s' : State} (hp : s.stepPlace p k d m.step = (.ok l, fa))
    (ha : s.readAll (.port p k) .patch fa l = .got bs s') : exec (.repairStep p k) s = .next (s'.portEmit p k d
      { s.port p k with bubbles := (s.port p k).bubbles.filter (fun b => b.step != m.step) } (repaired (d.slot m.step bs))) := by
  have he : exec (.repairStep p k) s = execRepairStep p k s := rfl
  rw [he, execRepairStep]
  simp only [port_of_patch, hm, hb, not_held_of_portRuns hr, hroom, hp, ha]
  rfl

end

/-! ### Where a flat step lies (R138, R314) -/

/-- The address of a step, summand by summand. -/
theorem addr_eq (d : Stream) (n : Nat) :
    let c := fun i => if i ≤ d.nd then max 1 (d.cnt.getD i 1) else 1
    d.addr n = d.base + (n % c 0 : Nat) * d.str.getD 0 0 + (n / c 0 % c 1 : Nat) * d.str.getD 1 0 +
      (n / (c 0 * c 1) % c 2 : Nat) * d.str.getD 2 0 + (n / (c 0 * c 1 * c 2) % c 3 : Nat) * d.str.getD 3 0 := by
  intro c
  have hr : List.range 4 = [0, 1, 2, 3] := rfl
  simp only [Stream.addr, Stream.index, hr, List.map_cons, List.map_nil, List.foldl_cons, List.foldl_nil, List.getD_cons_zero,
    List.getD_cons_succ, zero_add, add_assoc]
  rfl

section
variable {s : State} {p k : Nat} {d : Stream} (ht : d.tensor = false) {n : Nat} (h0 : 0 ≤ d.addr n) (h1 : d.addr n + d.size ≤ 2 ^ 56)
include ht h0 h1

theorem stepPlace_whole (hs : d.size ≤ 65536 - (d.addr n % 65536).toNat) : s.stepPlace p k d n =
    ((s.translateAt (.port p k) (s.partOf p) (BitVec.ofInt 64 (d.addr n)) .plain).bind (fun x => .ok [(x, d.size)]), BitVec.ofInt 64 (d.addr n)) := by
  have hin : ¬ (d.addr n < 0 ∨ d.addr n + d.size > 2 ^ 56) := by omega
  simp only [State.stepPlace, ht, Bool.false_eq_true, if_false, if_neg hin, if_pos hs]

theorem stepPlace_split (hs : 65536 - (d.addr n % 65536).toNat < d.size) {x y : Place}
    (hx : s.translateAt (.port p k) (s.partOf p) (BitVec.ofInt 64 (d.addr n)) .plain = .ok x)
    (hy : s.translateAt (.port p k) (s.partOf p) (BitVec.ofInt 64 (d.addr n + (65536 - (d.addr n % 65536).toNat : Nat))) .plain = .ok y) :
    (s.stepPlace p k d n).1 = .ok [(x, 65536 - (d.addr n % 65536).toNat), (y, d.size - (65536 - (d.addr n % 65536).toNat))] := by
  have hin : ¬ (d.addr n < 0 ∨ d.addr n + d.size > 2 ^ 56) := by omega
  simp only [State.stepPlace, ht, Bool.false_eq_true, if_false, if_neg hin, if_neg (Nat.not_le.mpr hs), hx, hy]
  rfl

end

/-! ### The fault queue (R350, R385, R404, R428) -/

section
variable {s : State} {p k : Nat}

theorem faultRecordWrite_waits (hr : (s.port p k).recs ≠ []) (hf : (s.patch p).frozen = true) : exec (.faultRecordWrite p k) s = .next s := by
  have he : exec (.faultRecordWrite p k) s = execFaultRecordWrite p k s := rfl
  obtain ⟨r, rest, h⟩ := List.exists_cons_of_ne_nil hr
  rw [he, execFaultRecordWrite]
  simp only [h, hf, if_true]

/-- A fault record enters the ring of its partition. -/
def recordStore (pa : Part) (r : FaultRec) : Store :=
  let at_ := pa.fqBase + 32 * (pa.fqTail.toNat % 2 ^ pa.fqLog)
  ⟨⟨at_, .rc, false, false⟩, ((List.range 32).map (at_ + ·)).zip (r.flatMap (fun w => leBytes 8 w.toNat)), [], .dev, false, 0, false⟩

/-- The oldest record of a port has left it for the fault queue, whose tail moves on; vector 4 is raised. -/
def State.recordWritten (s : State) (p k : Nat) (r : FaultRec) (rest : List FaultRec) : State :=
  let n := s.partOf p
  let pa := s.part n
  let t := ((s.setPort p k { s.port p k with recs := rest }).issueStore (.port p k) (recordStore pa r)).setPart n { pa with fqTail := pa.fqTail + 1 }
  { t with msix := t.msix ++ (t.vfs.filter (fun (v : Nat × Vf) => v.2.part == some n)).map (fun (v : Nat × Vf) => (v.1, 4)) }

theorem faultRecordWrite_writes {r : FaultRec} {rest : List FaultRec} (hr : (s.port p k).recs = r :: rest) (hf : (s.patch p).frozen = false)
    (hroom : ((s.part (s.partOf p)).fqTail - (s.part (s.partOf p)).fqHead).toNat < 2 ^ (s.part (s.partOf p)).fqLog) :
    ∃ ls, exec (.faultRecordWrite p k) s = .next { s.recordWritten p k r rest with loads := ls } := by
  have he : exec (.faultRecordWrite p k) s = execFaultRecordWrite p k s := rfl
  rw [he, execFaultRecordWrite]
  simp only [hr, hf, ge_iff_le, if_neg (Nat.not_le.mpr hroom), Bool.false_eq_true, if_false]
  split
  · exact ⟨_, rfl⟩
  · exact ⟨(s.recordWritten p k r rest).loads, rfl⟩

theorem recordWritten_spec (r : FaultRec) (rest : List FaultRec) :
    let t := s.recordWritten p k r rest
    let pa := s.part (s.partOf p)
    (t.port p k).recs = rest ∧ (t.part (s.partOf p)).fqTail = pa.fqTail + 1 ∧
    (∃ l, t.ord.accs = s.ord.accs ++ l ∧ (∀ a ∈ l, a.agent = .port p k ∧ a.scope = .dev) ∧
      Terms.stored l = ((List.range 32).map (pa.fqBase + 32 * (pa.fqTail.toNat % 2 ^ pa.fqLog) + ·)).zip (r.flatMap (fun w => leBytes 8 w.toNat))) ∧
    (∀ vf, (vf, 4) ∈ t.msix ↔ (vf, 4) ∈ s.msix ∨ ∃ y, (vf, y) ∈ s.vfs ∧ y.part = some (s.partOf p)) ∧ t.mem = s.mem := by
  obtain ⟨l, n, ho, hl, hs⟩ := enters_issueStore (s.setPort p k { s.port p k with recs := rest }) (.port p k)
    (st := recordStore (s.part (s.partOf p)) r) rfl
  simp only [State.recordWritten, ho]
  refine ⟨?_, ?_, ⟨l, rfl, fun a ha => ⟨(hl a ha).1, (hl a ha).2.1⟩, hs⟩, fun vf => ?_, rfl⟩
  · exact congrArg Port.recs (port_setPort_same ..)
  · exact congrArg Part.fqTail (part_setPart_same ..)
  · simp only [List.mem_append, List.mem_map, List.mem_filter]
    refine or_congr_right ⟨?_, ?_⟩
    · rintro ⟨⟨v, y⟩, ⟨hv, hy⟩, he⟩
      obtain ⟨rfl, _⟩ := Prod.mk.injEq .. ▸ he
      exact ⟨y, hv, beq_iff_eq.mp hy⟩
    · rintro ⟨y, hv, hy⟩
      exact ⟨(vf, y), ⟨hv, beq_iff_eq.mpr hy⟩, rfl⟩

end

/-! ### Resumes (R351, R428) -/

/-- The word of a resume: LP, port and token. -/
def resumeWord (lp port : Nat) (tok : Word) : DWord := BitVec.ofNat 64 (lp * 2 ^ 38 + port * 2 ^ 34 + tok.toNat)

theorem resumeWord_fields {lp port : Nat} (hlp : lp < 640) (hport : port < 16) (tok : Word) : let v := resumeWord lp port tok
    bits v 63 48 = 0 ∧ bits v 33 32 = 0 ∧ bits v 47 38 = lp ∧ bits v 37 34 = port ∧ v.setWidth 32 = tok := by
  have ht := tok.isLt
  have hv : (resumeWord lp port tok).toNat = lp * 2 ^ 38 + port * 2 ^ 34 + tok.toNat := by
    rw [resumeWord, BitVec.toNat_ofNat, Nat.mod_eq_of_lt (by omega)]
  simp only [bits, hv]
  refine ⟨by omega, by omega, by omega, by omega, BitVec.eq_of_toNat_eq ?_⟩
  rw [BitVec.toNat_setWidth, hv]
  omega

section
variable {s : State}

theorem resume_goes {vf lp port : Nat} {tok : Word} (hlp : lp < 640) (hport : port < 16) (hon : s.vfOn vf = true) :
    exec (.resume vf (resumeWord lp port tok)) s = .next ((s.loads.filter (fun l => match (s.queue l.q).vf with
      | some f => f.1 == vf
      | none => false)).foldl (fun s l => s.resumeLoad l lp port tok) s) := by
  obtain ⟨hhi, hlo, h1, h2, h3⟩ := resumeWord_fields hlp hport tok
  have he : exec (.resume vf (resumeWord lp port tok)) s = execResume vf (resumeWord lp port tok) s := rfl
  rw [he, execResume]
  refine (if_neg (by simp [hon, hhi, hlo])).trans ?_
  rw [h1, h2, h3] <;> rfl

theorem answers_iff (pt : Port) (tok : Word) : pt.answers tok = true ↔ (pt.parked.isSome = true ∨ pt.bubbles ≠ []) ∧ pt.tok = tok := by
  simp [Port.answers]

theorem resumeLoad_on {l : Load} {lp q : Nat} (h : l.patches[lp]? = some q) (port : Nat) (tok : Word) :
    s.resumeLoad l lp port tok = if ((s.port q port).parked.isSome ∨ (s.port q port).bubbles ≠ []) ∧ (s.port q port).tok = tok then
        (s.setPort q port (s.port q port).resume).modLoad l.q (fun x => { x with resumed := x.resumed || l.awaits == some (lp, port) })
      else s := by
  simp only [State.resumeLoad, h, answers_iff]

end

/-! ### Escalation (R354, R357) -/

section
variable {s : State} {p k : Nat} {l : Load} (hl : s.loadOf p = some l) (hst : l.st = .running) (hlim : (s.part (s.partOf p)).escNs ≠ 0)
include hl hst hlim

omit hl hst hlim in
theorem waiterOf_of_port (h : k < 16) : waiterOf k = .port k := if_pos h

omit hl hst hlim in
theorem waiterOf_of_other (h : ¬ k < 16) (n : Nat) : waiterOf k ≠ .port n := by
  rw [waiterOf, if_neg h]
  split_ifs <;> exact nofun

omit hl hst hlim in
theorem waitsSince_of_parked {m : Missed} (hm : (s.port p k).parked = some m) :
    s.waitsSince p (.port k) = if m.resume then (s.port p k).pullAt else some m.since := by
  simp only [State.waitsSince, hm]

/-- An access that has waited for the escalation time has its load held. -/
theorem escalation_holds {since : Nat} (hw : s.waitsSince p (waiterOf k) = some since) (ht : since + (s.part (s.partOf p)).escNs ≤ s.clock.ns) :
    exec (.escalation p k) s = .next ((s.holdLoad l).modLoad l.q (fun x => { x with
      resumed := false, awaits := if k < 16 ∧ (s.port p k).parked.isSome then some (s.lpOf p, k) else none })) := by
  have he : exec (.escalation p k) s = execEscalation p k s := rfl
  rw [he, execEscalation]
  simp only [hw, hl]
  refine (if_pos ⟨hst, hlim, ht⟩).trans ?_
  by_cases hk : k < 16
  · simp only [waiterOf_of_port hk, hk, true_and]
  · simp only [hk, false_and, if_false]
    split
    · exact absurd ‹_› (waiterOf_of_other hk _)
    · rfl

end

/-- Settles O46: a step by where it lies, the other events by their guards. -/
theorem streamEvents : Obligations.StreamEvents := by
  unfold Obligations.StreamEvents
  intro s p k d x pt place bytes record
  refine ⟨fun hr hb => ⟨?_, ?_, ?_, ?_⟩, ?_, faultRecordWrite_waits, ?_, ?_, ?_⟩
  · intro r hrun hd hpk hn n
    refine ⟨fun hdir hq => ?_, fun hdir u rest hu => ?_⟩
    · refine ⟨fun l fa bs s' hp ha => ?_, fun sub fa hp hbub => ?_, fun sub fa hp hbub hlen => ⟨_, ?_, rfl⟩, fun sub fa hp => ?_,
        fun c sub fa hx hne hp => ⟨_, ?_, endStream_spec ..⟩⟩ <;>
        rw [streamStep_in hr hb hrun hd hpk hn hp hdir hq]
      · rw [portAccess_reads ha]
        rfl
      · rw [portAccess_faults, portMiss_parks fun h => hbub ⟨h.1, h.2.2⟩]
        rfl
      · rw [portAccess_faults, portMiss_bubbles hbub hdir hlen]
        rfl
      · rw [portAccess_faults, portMiss_perm]
        rfl
      · rw [portAccess_faults, portMiss_ends hx hne]
        rfl
    · have htake := takeSlot_eq hu
      refine ⟨fun ps fa hp => ?_, fun sub fa hp => ?_, fun sub fa hp => ?_⟩ <;>
        rw [streamStep_out hr hb hrun hd hpk hn hp hdir hu]
      · obtain ⟨t, xs, hacc, hrest⟩ := portAccess_writes (s := s) (p := p) (k := k) (d := d) pt.step pt ps fa u.u
        rw [htake] at hrest
        exact ⟨t, xs, by rw [hacc]; rfl, hrest⟩
      · rw [portAccess_faults, portMiss_parks fun h => by simp [hdir] at h, if_pos rfl, htake]
        rfl
      · rw [portAccess_faults, portMiss_perm]
        rfl
  · exact fun r hrun hd => streamStep_done hr hb hrun hd
  · exact fun m hm hres hroom t ht => releaseStep_goes hr hb hm hres hroom ht
  · intro m hm hroom l fa bs s' hp ha
    rw [← repaired_eq]
    exact repairStep_repairs hr hb hm hroom hp ha
  · intro ht n _ c a at_ room h0 h1
    have ha : d.addr n = a := addr_eq d n
    rw [← ha] at h0 h1
    have hwhole := stepPlace_whole (s := s) (p := p) (k := k) ht h0 h1
    have hsplit := fun h x y => stepPlace_split (s := s) (p := p) (k := k) ht h0 h1 h (x := x) (y := y)
    rw [ha] at hwhole hsplit
    exact ⟨hwhole, hsplit⟩
  · intro r rest hrec hf pa hroom
    obtain ⟨ls, hwrite⟩ := faultRecordWrite_writes hrec hf hroom
    exact ⟨_, hwrite, recordWritten_spec r rest⟩
  · intro vf lp port tok hlp hport hon mine v
    exact ⟨resume_goes hlp hport hon, fun l _ q hq => resumeLoad_on hq port tok⟩
  · intro l hl hst lim hlim
    refine ⟨fun m hk hm hres ht => ?_, fun m since hk hm hres hpull ht => ?_, fun since hw hnone ht => ?_⟩
    · have hw : s.waitsSince p (waiterOf k) = some m.since := by
        rw [waiterOf_of_port hk, waitsSince_of_parked hm, hres]
        rfl
      rw [escalation_holds hl hst hlim hw ht, if_pos ⟨hk, by rw [show (s.port p k).parked = some m from hm]; rfl⟩]
    · have hw : s.waitsSince p (waiterOf k) = some since := by
        rw [waiterOf_of_port hk, waitsSince_of_parked hm, hres]
        exact hpull
      rw [escalation_holds hl hst hlim hw ht, if_pos ⟨hk, by rw [show (s.port p k).parked = some m from hm]; rfl⟩]
    · rw [escalation_holds hl hst hlim hw ht, if_neg fun h => by simp [show (s.port p k).parked = none from hnone h.1] at h]

end Sys2Proof.Machine
end

section
/-! SUPPORT. What the parts of an element word that read and write lanes, masks and special registers come to, and what reading a
scalar leaves of the instance (R31, R156, R165). -/

namespace Sys2Proof.Machine

@[simp] theorem W.lane_apply (k : Wk) : W.lane k = .ok (Terms.laneBits k, k) := rfl
@[simp] theorem W.divided_apply (b : Bool) (k : Wk) : W.divided b k = .ok ((), Terms.withDz k b) := rfl
@[simp] theorem rdM_apply (n : Nat) (k : Wk) : rdM n k = .ok (k.i.r.m.getD n 0, k) := rfl
@[simp] theorem wrM_apply (n : Nat) (v : Word) (k : Wk) : wrM n v k = .ok ((), Terms.wroteM k n v) := rfl

/-! ### What reading a scalar leaves -/

theorem eq_of_useBuffer {r : Nat} {k k' : Wk} (h : Terms.gives (useBuffer r) k () k') : k' = k := by
  by_cases hr : 24 ≤ r
  · cases hv : cbValid (k.i.r.cb.getD (r - 24) 0) with
    | true =>
      cases (useBuffer_of_valid hv).symm.trans h
      rfl
    | false => cases (useBuffer_of_invalid hr hv).symm.trans h
  · cases (useBuffer_of_queue (Nat.lt_of_not_le hr) k).symm.trans h
    rfl

theorem eq_of_checkHeader {u : Slot} {k k' : Wk} (h : Terms.gives (checkHeader u) k () k') : k' = k := by
  cases hb : badHeader (lane u 7) with
  | true => cases (checkHeader_of_bad hb k).symm.trans h
  | false =>
    cases (checkHeader_of_good hb k).symm.trans h
    rfl

theorem readHere_inst {pl : Place} {n : Nat} {bs : List Byte} {k k' : Wk} (h : Terms.gives (readHere pl n) k bs k') : k'.i = k.i := by
  cases hr : k.s.readOperand k.s.cur.patch k.s.cur.el k.i pl n with
  | none => cases (readHere_of_none hr).symm.trans h
  | some r =>
    cases (readHere_of_some hr).symm.trans h
    rfl

/-- Reading a unit leaves the instance as it is. -/
theorem unitAt_inst {r n : Nat} {u : Slot} {k k' : Wk} (h : Terms.gives (unitAt r n) k u k') : k'.i = k.i := by
  obtain ⟨_, k, hb, hat⟩ := W.ok_of_bind h
  obtain rfl := eq_of_useBuffer hb
  rw [W.bind_of_ok (W.get_apply _)] at hat
  by_cases hr : r < 20
  · rw [if_pos hr] at hat
    cases hq : (k.i.qres.getD (r - 16) [])[n]? with rw [hq] at hat
    | none => cases (W.illop_apply ..).symm.trans hat
    | some v =>
      obtain ⟨_, _, hc, hu⟩ := W.ok_of_bind hat
      cases hu
      rw [eq_of_checkHeader hc]
  · rw [if_neg hr, W.bind_of_ok (W.elem_apply _)] at hat
    cases hq : (k.i.cbUnits (k.s.elem k.s.cur.patch k.s.cur.el) (r - 24))[n]? with rw [hq] at hat
    | none => cases (W.illop_apply ..).symm.trans hat
    | some va =>
      obtain ⟨_, _, hv, hrest⟩ := W.ok_of_bind hat
      obtain ⟨_, _, hc, hu⟩ := W.ok_of_bind hrest
      cases hu
      rw [readVault, W.bind_of_ok (W.cur_apply _)] at hv
      rw [eq_of_checkHeader hc, readHere_inst hv]

/-- Reading a scalar moves at most the read positions of the instance. -/
theorem rdScalar_inst {r : Nat} {x : Word} {k k' : Wk} (h : Terms.gives (rdScalar r) k x k') : ∃ pos, k'.i = { k.i with pos := pos } := by
  by_cases hr : r < 16
  · rw [Terms.gives, rdScalar, if_pos hr] at h
    by_cases hn : Terms.readable k.i r
    · cases (rdS_of_readable hn).symm.trans h
      exact ⟨_, rfl⟩
    · cases (rdS_of_not_readable hn).symm.trans h
  · rw [Terms.gives, rdScalar, if_neg hr, W.bind_of_ok (readPos_apply ..)] at h
    obtain ⟨_, _, hu, hset⟩ := W.ok_of_bind h
    cases hset
    exact ⟨_, congrArg (fun i : Inst => { i with pos := i.pos.set (qIdx r) (k.i.pos.getD (qIdx r) 0 + 1) }) (unitAt_inst hu)⟩

theorem laneBits_of_rdScalar {r : Nat} {x : Word} {k k' : Wk} (h : Terms.gives (rdScalar r) k x k') :
    Terms.laneBits k' = Terms.laneBits k := by
  obtain ⟨pos, hi⟩ := rdScalar_inst h
  rw [Terms.laneBits, hi, Terms.laneBits]

/-! ### Lanes -/

theorem getD_map_range {α : Type} {n j : Nat} (f : Nat → α) (d : α) (h : j < n) : ((List.range n).map f).getD j d = f j := by
  simp [List.getD_eq_getElem?_getD, h]

theorem lanesOf_eq (l : Nat) (u : Slot) : lanesOf l u = (List.range (256 / l)).map (Terms.laneAt l u) := rfl

@[simp] theorem lanesOf_length (l : Nat) (u : Slot) : (lanesOf l u).length = 256 / l := by simp [lanesOf]

end Sys2Proof.Machine
end

section
/-! PROOFS of the family of the element's instructions: the integer and the immediate words (R52, R97, R156, R159, R160). -/

namespace Sys2Proof.Machine

theorem exec_of_elementInteger {row} (h : row ∈ Terms.elementInteger) (d a b : BitVec 5) (w z : BitVec 1) (n : BitVec 3) (s : State) :
    exec (row.1 d a b w z n) s = runWord (intWord row.2 d a b w z n) s := by
  fin_cases h <;> rfl

theorem zip_lanesOf (l : Nat) (x y : Slot) :
    (lanesOf l x).zip (lanesOf l y) = (List.range (256 / l)).map (fun j => (Terms.laneAt l x j, Terms.laneAt l y j)) :=
  List.zip_map' ..

/-- The lanes of an integer result (R159). -/
def intLanes (op : IntOp) (l : Nat) (x y : Slot) : List Nat :=
  (List.range (256 / l)).map (fun j =>
    (Terms.intValue op (BitVec.ofNat l (Terms.laneAt l x j)) (BitVec.ofNat l (Terms.laneAt l y j))).toNat)

theorem intLanes_eq (op : IntOp) (l : Nat) (x y : Slot) :
    ((lanesOf l x).zip (lanesOf l y)).map (fun (u, v) => (intOp op (BitVec.ofNat l u) (BitVec.ofNat l v)).toNat) = intLanes op l x y := by
  rw [intLanes, zip_lanesOf, List.map_map]
  exact List.map_congr_left fun j _ => by simp only [Function.comp, intOp_eq_intValue]

/-- A lane of a divisor is zero. -/
def anyZero (op : IntOp) (l : Nat) (y : Slot) : Bool := (lanesOf l y).any (fun v => intDz op (BitVec.ofNat l v))

/-- A lane of a divisor that the mask enables is zero. -/
def enabledZero (op : IntOp) (l : Nat) (m : Word) (y : Slot) : Bool :=
  (List.range (lanesOf l y).length).any fun j => m.getLsbD j && intDz op (BitVec.ofNat l ((lanesOf l y).getD j 0))

theorem anyZero_iff (op : IntOp) (l : Nat) (y : Slot) : anyZero op l y = true ↔
    ∃ j < 256 / l, Terms.dividesByZero op (BitVec.ofNat l (Terms.laneAt l y j)) = true := by
  simp [anyZero, lanesOf_eq, intDz_eq_dividesByZero]

theorem enabledZero_iff (op : IntOp) (l : Nat) (m : Word) (y : Slot) : enabledZero op l m y = true ↔
    ∃ j < 256 / l, m.getLsbD j = true ∧ Terms.dividesByZero op (BitVec.ofNat l (Terms.laneAt l y j)) = true := by
  simp only [enabledZero, List.any_eq_true, List.mem_range, lanesOf_length, Bool.and_eq_true, intDz_eq_dividesByZero]
  exact exists_congr fun j => and_congr_right fun hj => by rw [lanesOf_getD y hj]

section
variable (op : IntOp) {d a b : BitVec 5} (z : BitVec 1) (n : BitVec 3) {k₀ k₁ k₂ k : Wk}

theorem intWord_scalar {x y : Word} (hx : Terms.gives (rdScalar a.toNat) k₀ x k₁) (hy : Terms.gives (rdScalar b.toNat) k₁ y k₂)
    (hw : Terms.gives (wrScalar d.toNat (Terms.intValue op x y)) (Terms.withDz k₂ (Terms.dividesByZero op y)) () k) :
    intWord op d a b 0 z n k₀ = .ok ((), k) := by
  rw [intWord, if_pos rfl, W.bind_of_ok hx, W.bind_of_ok hy, W.bind_of_ok (W.divided_apply ..), intDz_eq_dividesByZero, intOp_eq_intValue]
  exact hw

/-- What a wide operation comes to once its sources are there: what it remembers of zero divisors, then its write. -/
theorem intWord_wide {x y : Slot} (hx : Terms.gives (rdWide a.toNat) k₀ x k₁) (hy : Terms.gives (rdWide b.toNat) k₁ y k₂) :
    let l := Terms.laneBits k₀
    let m := k₂.i.r.m.getD n.toNat 0
    let write := wrWide d.toNat l m (z == 1) (intLanes op l x y)
    intWord op d a b 1 z n k₀ =
      (if anyZero op l y then W.freeBool >>= fun f => W.divided f >>= fun _ => write else write)
        (Terms.withDz k₂ (enabledZero op l m y)) := by
  intro l m write
  have hw : write = wrWide d.toNat l m (z == 1)
      (((lanesOf l x).zip (lanesOf l y)).map fun (u, v) => (intOp op (BitVec.ofNat l u) (BitVec.ofNat l v)).toNat) :=
    congrArg (wrWide d.toNat l m (z == 1)) (intLanes_eq ..).symm
  rw [hw, intWord, if_neg (by decide), W.bind_of_ok (W.lane_apply _), W.bind_of_ok hx, W.bind_of_ok hy, W.bind_of_ok (rdM_apply ..),
    W.bind_of_ok (W.divided_apply ..)]
  rfl

/-- A zero divisor of an enabled lane is remembered; of a disabled lane, by a free choice; and without one nothing is (R52, log 40). -/
theorem intWord_wide_divisors {x y : Slot} (hx : Terms.gives (rdWide a.toNat) k₀ x k₁) (hy : Terms.gives (rdWide b.toNat) k₁ y k₂) :
    let l := Terms.laneBits k₀
    let m := k₂.i.r.m.getD n.toNat 0
    let zero : Nat → Prop := fun j => Terms.dividesByZero op (BitVec.ofNat l (Terms.laneAt l y j)) = true
    ∃ dz fr, ((∃ j < 256 / l, m.getLsbD j = true ∧ zero j) → dz = true) ∧
      ((∀ j < 256 / l, ¬ zero j) → dz = k₂.i.dzSet ∧ fr = k₂.s.free) ∧
      intWord op d a b 1 z n k₀ =
        wrWide d.toNat l m (z == 1) (intLanes op l x y) ⟨{ k₂.s with free := fr }, { k₂.i with dzSet := dz }⟩ := by
  intro l m zero
  have hany := anyZero_iff op l y
  have hen := enabledZero_iff op l m y
  rw [intWord_wide op z n hx hy]
  by_cases hz : anyZero op l y = true
  · refine ⟨k₂.i.dzSet || enabledZero op l m y || Config.freeBool k₂.s.free, k₂.s.free + 1, fun h => ?_, fun h => ?_, ?_⟩
    · rw [hen.mpr h, Bool.or_true, Bool.true_or]
    · obtain ⟨j, hj, hzj⟩ := hany.mp hz
      exact absurd hzj (h j hj)
    · rw [if_pos hz]
      rfl
  · refine ⟨k₂.i.dzSet || enabledZero op l m y, k₂.s.free, fun h => ?_, fun h => ⟨?_, rfl⟩, ?_⟩
    · rw [hen.mpr h, Bool.or_true]
    · have hoff : enabledZero op l m y = false := by
        rw [← Bool.not_eq_true, hen]
        exact fun ⟨j, hj, _, hzj⟩ => h j hj hzj
      rw [hoff, Bool.or_false]
    · rw [if_neg hz]
      rfl

theorem intImm_of_source {x v : Word} (hx : Terms.gives (rdScalar a.toNat) k₀ x k₁)
    (hw : Terms.gives (wrScalar d.toNat (Terms.intValue op x v)) k₁ () k) : intImm op d a v k₀ = .ok ((), k) := by
  rw [intImm, W.bind_of_ok hx, intOp_eq_intValue]
  exact hw

end

theorem append_zeros_eq_ofNat (i : BitVec 15) : i ++ (0 : BitVec 17) = BitVec.ofNat 32 (i.toNat * 2 ^ 17) := by
  apply BitVec.eq_of_toNat_eq
  rw [BitVec.toNat_append, BitVec.toNat_ofNat, show (0 : BitVec 17).toNat = 0 from rfl, Nat.or_zero, Nat.shiftLeft_eq]
  omega

/-- An immediate at 32 bits, sign- or zero-extended (R97). -/
theorem immediate_eq (signed : Bool) (imm : BitVec 15) :
    (if signed then BitVec.ofInt 32 imm.toInt else BitVec.ofNat 32 imm.toNat) = if signed then imm.signExtend 32 else imm.setWidth 32 := by
  cases signed with
  | true => rfl
  | false => exact BitVec.ofNat_toNat ..

/-- Settles O27: a register word is `intWord` of its operation, an immediate word `intImm`. -/
theorem elementIntegerWords : Obligations.ElementIntegerWords := by
  unfold Obligations.ElementIntegerWords
  refine ⟨fun row hrow s i d a b z n ht => ⟨fun x y k₁ k₂ k hx hy hw => ?_, fun x y k₁ k₂ hx hy => ?_⟩,
    fun s i d a sh imm ht => ⟨fun row hrow x k₁ k hx hw => ?_, fun row hrow x k₁ k hx hw => ?_, fun k hw => ?_⟩⟩
  · exact completes_of_ok (exec_of_elementInteger hrow ..) ht (intWord_scalar row.2 z n hx hy hw)
  · obtain ⟨dz, fr, hon, hoff, hrun⟩ := intWord_wide_divisors row.2 (d := d) z n hx hy
    exact ⟨dz, fr, hon, hoff, fun k hw => completes_of_ok (exec_of_elementInteger hrow ..) ht (hrun.trans hw)⟩
  · rw [immediate_eq] at hw
    fin_cases hrow <;> exact completes_of_ok rfl ht (intImm_of_source _ hx hw)
  · rw [BitVec.ofNat_toNat] at hw
    fin_cases hrow <;> exact completes_of_ok rfl ht (intImm_of_source _ hx hw)
  · rw [← append_zeros_eq_ofNat] at hw
    exact completes_of_ok rfl ht hw

end Sys2Proof.Machine
end

section
/-! SUPPORT. Packings: lanes and bytes of wide values, sub-elements of a lane, and bytes saturated to them (R24, R168). -/

namespace Sys2Proof.Machine

/-- Byte `q` of a wide value is byte `q % 4` of its 32-bit lane `q / 4`. -/
theorem byte_of_laneAt (u : Slot) (q : Nat) : Terms.laneAt 32 u (q / 4) / 256 ^ (q % 4) % 256 = Terms.laneAt 8 u q := by
  have hsplit : ∀ a s : Nat, s ≤ 24 → a % 2 ^ 32 / 2 ^ s % 2 ^ 8 = a / 2 ^ s % 2 ^ 8 := fun a s hs => by
    rw [show 32 = s + (32 - s) by omega, pow_add, Nat.mod_mul_right_div_self, Nat.mod_mod_of_dvd _ (Nat.pow_dvd_pow 2 (by omega))]
  have hpow : 256 ^ (q % 4) = 2 ^ (8 * (q % 4)) := (pow_mul 2 8 _).symm
  calc u.toNat / 2 ^ (32 * (q / 4)) % 2 ^ 32 / 256 ^ (q % 4) % 2 ^ 8
      = u.toNat / 2 ^ (32 * (q / 4) + 8 * (q % 4)) % 2 ^ 8 := by
        rw [hpow, hsplit _ _ (by omega), Nat.div_div_eq_div_mul, ← pow_add]
    _ = u.toNat / 2 ^ (8 * q) % 2 ^ 8 := by rw [show 32 * (q / 4) + 8 * (q % 4) = 8 * q by omega]

/-- Seven lanes hold at most 64 sub-elements, a sub-element has at most 8 bits, and those of a lane fit into it. -/
theorem subWidth_bounds {w : BitVec 2} (hw : w ≠ 0) :
    7 * Terms.subsPerLane w ≤ 64 ∧ Terms.subWidth w ≤ 8 ∧ Terms.subWidth w * Terms.subsPerLane w ≤ 32 := by
  revert w
  decide

theorem packByte_eq_saturated (sg : Bool) (b v : Nat) : packByte sg b v = Terms.saturated sg b v := by
  cases sg with
  | true => exact congrArg BitVec.toNat (clampS_eq_max_min ..)
  | false => rfl

theorem saturated_lt (sg : Bool) (b v : Nat) : Terms.saturated sg b v < 2 ^ b := by
  cases sg with
  | true => exact BitVec.isLt _
  | false => exact (min_le_right ..).trans_lt (Nat.sub_lt (Nat.two_pow_pos b) Nat.one_pos)

theorem getD_bytes (x y : Slot) {n : Nat} (hn : n < 64) : (lanesOf 8 x ++ lanesOf 8 y).getD n 0 = Terms.byteOf x y n := by
  have hx : (lanesOf 8 x).length = 32 := lanesOf_length 8 x
  rw [Terms.byteOf]
  by_cases h : n < 32
  · rw [if_pos h, List.getD_append _ _ _ _ (hx ▸ h), lanesOf_getD x (by omega)]
  · rw [if_neg h, List.getD_append_right _ _ _ _ (by omega), hx, lanesOf_getD y (by omega)]

/-- Lane `i` of a PACK: the sub-elements that the bytes of two wide values saturate to (R168). -/
def packLane (sg : Bool) (w : BitVec 2) (x y : Slot) (i : Nat) : Nat :=
  joinNat (subBits w) ((List.range (subCount w)).map fun j =>
    packByte sg (subBits w) ((lanesOf 8 x ++ lanesOf 8 y).getD (i * subCount w + j) 0))

theorem packLane_lt (sg : Bool) (w : BitVec 2) (x y : Slot) (i : Nat) :
    packLane sg w x y i < 2 ^ (Terms.subsPerLane w * Terms.subWidth w) := by
  refine (joinNat_lt ..).trans_eq ?_
  rw [List.length_map, List.length_range]
  exact congrArg _ (Nat.mul_comm ..)

theorem packLane_lt_word {w : BitVec 2} (hw : w ≠ 0) (sg : Bool) (x y : Slot) (i : Nat) : packLane sg w x y i < 2 ^ 32 := by
  obtain ⟨-, -, hfit⟩ := subWidth_bounds hw
  rw [Nat.mul_comm] at hfit
  exact (packLane_lt sg w x y i).trans_le (Nat.pow_le_pow_right (by decide) hfit)

theorem packLane_sub {w : BitVec 2} (hw : w ≠ 0) (sg : Bool) (x y : Slot) {i q : Nat} (hi : i < 7) (hq : q < Terms.subsPerLane w) :
    packLane sg w x y i / 2 ^ (Terms.subWidth w * q) % 2 ^ Terms.subWidth w =
      Terms.saturated sg (Terms.subWidth w) (Terms.byteOf x y (i * Terms.subsPerLane w + q)) := by
  obtain ⟨h64, -, -⟩ := subWidth_bounds hw
  have hn : i * Terms.subsPerLane w + q < 64 := by
    have := Nat.mul_le_mul_right (Terms.subsPerLane w) (Nat.le_of_lt_succ hi)
    omega
  have hget : ((List.range (subCount w)).map fun j =>
      packByte sg (subBits w) ((lanesOf 8 x ++ lanesOf 8 y).getD (i * subCount w + j) 0)).getD q 0 =
      Terms.saturated sg (Terms.subWidth w) (Terms.byteOf x y (i * Terms.subsPerLane w + q)) := by
    rw [← packByte_eq_saturated, ← getD_bytes x y hn]
    exact getD_map_range _ _ hq
  refine (joinNat_digit ..).trans ?_
  rw [hget]
  exact Nat.mod_eq_of_lt (saturated_lt ..)

/-- Byte `n` of an UNPK: sub-element `32 h + n` of lanes 0 to 6, sign- or zero-extended (R168). -/
def unpackByte (h sg : BitVec 1) (w : BitVec 2) (x : Slot) (n : Nat) : Nat :=
  let i := 32 * h.toNat + n
  if 7 * subCount w ≤ i then 0
  else
    let v := (lanesOf 32 x).getD (i / subCount w) 0 / 2 ^ (subBits w * (i % subCount w)) % 2 ^ subBits w
    if sg = 1 then ((BitVec.ofNat (subBits w) v).signExtend 8).toNat else v

theorem unpackByte_eq (h sg : BitVec 1) (w : BitVec 2) (x : Slot) (n : Nat) :
    let i := 32 * h.toNat + n
    let p := Terms.subsPerLane w
    let sb := Terms.subWidth w
    unpackByte h sg w x n = if 7 * p ≤ i then 0
      else
        let v := Terms.laneAt 32 x (i / p) / 2 ^ (sb * (i % p)) % 2 ^ sb
        if sg = 1 then (BitVec.ofInt 8 (BitVec.ofNat sb v).toInt).toNat else v := by
  intro i p sb
  refine ite_congr rfl (fun _ => rfl) fun hi => ?_
  have hlane : i / p < 256 / 32 := by
    have := Nat.div_lt_of_lt_mul (Nat.lt_of_not_le hi |>.trans_eq (Nat.mul_comm ..))
    omega
  rw [← lanesOf_getD x hlane]
  rfl

theorem unpackByte_lt {w : BitVec 2} (hw : w ≠ 0) (h sg : BitVec 1) (x : Slot) (n : Nat) : unpackByte h sg w x n < 2 ^ 8 := by
  obtain ⟨-, h8, -⟩ := subWidth_bounds hw
  simp only [unpackByte_eq]
  split_ifs
  · decide
  · exact BitVec.isLt _
  · exact (Nat.mod_lt _ (Nat.two_pow_pos _)).trans_le (Nat.pow_le_pow_right (by decide) h8)

end Sys2Proof.Machine
end

section
/-! PROOFS of the family of the element's instructions: MOV, SEL, LBC, LEXT, LINS, PACK and UNPK (R163, R164, R168). -/

namespace Sys2Proof.Machine

/-! ### The lanes of the results -/

/-- The lanes that a wide SEL chooses (R163). -/
theorem selLanes_eq (l : Nat) (x y t : Slot) :
    (List.range (lanesOf l x).length).map (fun j => if (lanesOf l t).getD j 0 ≠ 0 then (lanesOf l x).getD j 0 else (lanesOf l y).getD j 0) =
      (List.range (256 / l)).map (fun j => if Terms.laneAt l t j ≠ 0 then Terms.laneAt l x j else Terms.laneAt l y j) := by
  rw [lanesOf_length]
  refine List.map_congr_left fun j hj => ?_
  have hj := List.mem_range.1 hj
  rw [lanesOf_getD t hj, lanesOf_getD x hj, lanesOf_getD y hj]

theorem laneAt_replicate {l j : Nat} (v : Nat) (hj : j < 256 / l) :
    Terms.laneAt l (joinLanes l (List.replicate (256 / l) (v % 2 ^ l))) j = v % 2 ^ l := by
  rw [laneAt_joinLanes (by rw [List.length_replicate]; exact Nat.mul_div_le ..), List.getD_replicate _ hj, Nat.mod_mod]

theorem laneAt_set {e j n : Nat} (u : Slot) (v : Nat) (hj : j < 256 / e) :
    Terms.laneAt e (joinLanes e ((lanesOf e u).set n (v % 2 ^ e))) j = if j = n then v % 2 ^ e else Terms.laneAt e u j := by
  have hl : (lanesOf e u).length = 256 / e := lanesOf_length e u
  rw [laneAt_joinLanes (by rw [List.length_set, hl]; exact Nat.mul_div_le ..)]
  by_cases h : j = n
  · subst h
    rw [if_pos rfl, List.getD_eq_getElem?_getD, List.getElem?_set_self (hl ▸ hj), Option.getD_some, Nat.mod_mod]
  · rw [if_neg h, List.getD_eq_getElem?_getD, List.getElem?_set_ne (Ne.symm h), ← List.getD_eq_getElem?_getD, lanesOf_getD u hj, laneAt_mod]

/-- The lanes of a PACK over an old value, whose lane 7 stays. -/
def packed (m : Word) (z : Bool) (old : Slot) (new : List Nat) : Slot :=
  joinLanes 32 (maskLanes m z (lanesOf 32 old) new ++ [(lanesOf 32 old).getD 7 0])

theorem laneAt_packed (m : Word) (z : Bool) (old : Slot) {new : List Nat} (hn : new.length = 7) :
    Terms.laneAt 32 (packed m z old new) 7 = Terms.laneAt 32 old 7 ∧ ∀ j < 7, Terms.laneAt 32 (packed m z old new) j =
      if m.getLsbD j then new.getD j 0 % 2 ^ 32 else if z then 0 else Terms.laneAt 32 old j := by
  have hl : (maskLanes m z (lanesOf 32 old) new).length = 7 := (maskLanes_length ..).trans hn
  have hat : ∀ j, Terms.laneAt 32 (packed m z old new) j =
      (maskLanes m z (lanesOf 32 old) new ++ [(lanesOf 32 old).getD 7 0]).getD j 0 % 2 ^ 32 :=
    laneAt_joinLanes (by simp [hl])
  refine ⟨?_, fun j hj => ?_⟩
  · rw [hat, List.getD_append_right _ _ _ _ hl.le, hl]
    exact laneAt_mod 32 old 7
  · rw [hat, List.getD_append _ _ _ _ (hl ▸ hj), maskLanes_getD m z _ (hn ▸ hj), maskLane, lanesOf_getD old (by omega)]
    split
    · rfl
    · split
      · rfl
      · exact laneAt_mod 32 old j

section
variable {s : State} {i : Inst} (ht : Terms.OnTurn s i) {d a b c : BitVec 5} (z sg : BitVec 1) (n : BitVec 3) {wc : BitVec 4}
  {k₁ k₂ k₃ k : Wk}
include ht

/-! ### MOV and SEL (R163) -/

theorem mov_scalar {x : Word} (hx : Terms.gives (rdScalar a.toNat) ⟨s, i⟩ x k₁) (hw : Terms.gives (wrScalar d.toNat x) k₁ () k) :
    Terms.completes (.mov d a 0 z n) s k := by
  refine completes_of_ok rfl ht ?_
  rw [if_pos rfl, W.bind_of_ok hx]
  exact hw

theorem mov_wide {x : Slot} (hx : Terms.gives (rdWide a.toNat) ⟨s, i⟩ x k₁)
    (hw : Terms.gives (wrWide d.toNat (Terms.laneBits ⟨s, i⟩) (k₁.i.r.m.getD n.toNat 0) (z == 1)
      (lanesOf (Terms.laneBits ⟨s, i⟩) x)) k₁ () k) :
    Terms.completes (.mov d a 1 z n) s k := by
  refine completes_of_ok rfl ht ?_
  rw [if_neg (by decide), W.bind_of_ok (W.lane_apply _), W.bind_of_ok hx, W.bind_of_ok (rdM_apply ..)]
  exact hw

theorem sel_scalar {x y t : Word} (hx : Terms.gives (rdScalar a.toNat) ⟨s, i⟩ x k₁) (hy : Terms.gives (rdScalar b.toNat) k₁ y k₂)
    (hc : Terms.gives (rdScalar c.toNat) k₂ t k₃) (hw : Terms.gives (wrScalar d.toNat (if t ≠ 0 then x else y)) k₃ () k) :
    Terms.completes (.sel d a b c 0 z n) s k := by
  refine completes_of_ok rfl ht ?_
  rw [if_pos rfl, W.bind_of_ok hx, W.bind_of_ok hy, W.bind_of_ok hc]
  exact hw

theorem sel_wide {x y t : Slot} (hx : Terms.gives (rdWide a.toNat) ⟨s, i⟩ x k₁) (hy : Terms.gives (rdWide b.toNat) k₁ y k₂)
    (hc : Terms.gives (rdWide c.toNat) k₂ t k₃) (hw : Terms.gives (wrWide d.toNat (Terms.laneBits ⟨s, i⟩) (k₃.i.r.m.getD n.toNat 0) (z == 1)
      ((List.range (256 / Terms.laneBits ⟨s, i⟩)).map (fun j => if Terms.laneAt (Terms.laneBits ⟨s, i⟩) t j ≠ 0
        then Terms.laneAt (Terms.laneBits ⟨s, i⟩) x j else Terms.laneAt (Terms.laneBits ⟨s, i⟩) y j))) k₃ () k) :
    Terms.completes (.sel d a b c 1 z n) s k := by
  refine completes_of_ok rfl ht ?_
  rw [if_neg (by decide), W.bind_of_ok (W.lane_apply _), W.bind_of_ok hx, W.bind_of_ok hy, W.bind_of_ok hc, W.bind_of_ok (rdM_apply ..),
    selLanes_eq]
  exact hw

/-! ### LBC, LEXT and LINS (R164) -/

/-- Every lane of w takes the scalar, sign- or zero-extended. -/
theorem lbc_completes {x : Word} (hx : Terms.gives (rdScalar a.toNat) ⟨s, i⟩ x k₁) (hp : k₁.i.pending (16 + wc.toNat) = false) :
    let l := Terms.laneBits ⟨s, i⟩
    Terms.completes (.lbc a sg wc) s (Terms.wroteW k₁ wc.toNat (joinLanes l (List.replicate (256 / l)
      ((if sg = 1 then (x.signExtend 64).toNat else x.toNat) % 2 ^ l)))) := by
  refine completes_of_ok rfl ht ?_
  rw [W.bind_of_ok hx, W.bind_of_ok (W.lane_apply _), laneBits_of_rdScalar hx]
  exact wrW_of_free hp _

theorem lext_completes {x : Word} (hx : Terms.gives (rdScalar a.toNat) ⟨s, i⟩ x k₁) (hp : k₁.i.pending (16 + wc.toNat) = false) :
    let e := min (Terms.laneBits ⟨s, i⟩) 32
    x.toNat < 256 / e →
      Terms.gives (wrScalar d.toNat (Terms.extended e (Terms.laneAt e (k₁.i.r.w.getD wc.toNat 0) x.toNat) (sg == 1))) k₁ () k →
      Terms.completes (.lext d a sg wc) s k := by
  intro e hn hw
  refine completes_of_ok rfl ht ?_
  rw [W.bind_of_ok hx, W.bind_of_ok (W.lane_apply _), laneBits_of_rdScalar hx, W.bind_of_ok (rdW_of_free hp)]
  exact (congrFun (if_neg (Nat.not_le.mpr hn)) k₁).trans hw

theorem lins_completes {x y : Word} (hx : Terms.gives (rdScalar a.toNat) ⟨s, i⟩ x k₁) (hy : Terms.gives (rdScalar b.toNat) k₁ y k₂)
    (hp : k₂.i.pending (16 + wc.toNat) = false) :
    let e := min (Terms.laneBits ⟨s, i⟩) 32
    x.toNat < 256 / e → Terms.completes (.lins a b wc) s (Terms.wroteW k₂ wc.toNat
      (joinLanes e ((lanesOf e (k₂.i.r.w.getD wc.toNat 0)).set x.toNat (y.toNat % 2 ^ e)))) := by
  intro e hn
  refine completes_of_ok rfl ht ?_
  rw [W.bind_of_ok hx, W.bind_of_ok hy, W.bind_of_ok (W.lane_apply _), laneBits_of_rdScalar hy, laneBits_of_rdScalar hx,
    W.bind_of_ok (rdW_of_free hp)]
  exact (congrFun (if_neg (Nat.not_le.mpr hn)) k₂).trans (wrW_of_free hp _)

/-! ### PACK and UNPK (R168) -/

theorem pack_completes {x y : Slot} {wd : BitVec 2} (hd : d.toNat < 16) (hx : Terms.gives (rdWide a.toNat) ⟨s, i⟩ x k₁)
    (hy : Terms.gives (rdWide b.toNat) k₁ y k₂) (hp : k₂.i.pending (16 + d.toNat) = false) :
    Terms.completes (.pack d a b sg wd z n) s (Terms.wroteW k₂ d.toNat (packed (k₂.i.r.m.getD n.toNat 0) (z == 1) (k₂.i.r.w.getD d.toNat 0)
      ((List.range 7).map (packLane (sg == 1) wd x y)))) := by
  have hold : ((if d.toNat < 16 then do pure (lanesOf 32 (← rdW d.toNat)) else pure []) : W (List Nat)) k₂ =
      .ok (lanesOf 32 (k₂.i.r.w.getD d.toNat 0), k₂) := by
    rw [if_pos hd, W.bind_of_ok (rdW_of_free hp)]
    rfl
  refine completes_of_ok rfl ht ?_
  rw [W.bind_of_ok hx, W.bind_of_ok hy, W.bind_of_ok (rdM_apply ..)]
  refine (W.ite_then hold W.bind_map_of_ok W.bind_of_ok).trans ?_
  simp only [if_pos hd]
  exact wrW_of_free hp _

theorem unpk_completes {x : Slot} {wd : BitVec 2} (h : BitVec 1) (hx : Terms.gives (rdWide a.toNat) ⟨s, i⟩ x k₁)
    (hgood : wd = 2 → ∀ j < 7, Terms.laneAt 32 x j < 2 ^ 30)
    (hw : Terms.gives (wrWide d.toNat 32 (k₁.i.r.m.getD n.toNat 0) (z == 1)
      (lanesOf 32 (joinLanes 8 ((List.range 32).map (unpackByte h sg wd x))))) k₁ () k) :
    Terms.completes (.unpk d a h sg wd z n) s k := by
  have hok : ¬ (wd = 2 ∧ ((lanesOf 32 x).take 7).any (fun v => decide (2 ^ 30 ≤ v)) = true) := by
    rintro ⟨h2, hany⟩
    have htake : (lanesOf 32 x).take 7 = (List.range 7).map (Terms.laneAt 32 x) := rfl
    simp only [htake, List.any_map, List.any_eq_true, List.mem_range, Function.comp, decide_eq_true_eq] at hany
    obtain ⟨j, hj, hbad⟩ := hany
    exact absurd (hgood h2 j hj) (Nat.not_lt.mpr hbad)
  refine completes_of_ok rfl ht ?_
  rw [W.bind_of_ok hx, W.bind_of_ok (rdM_apply ..)]
  refine (congrFun (if_neg hok) k₁).trans ?_
  exact hw

end

/-- Settles O29: each word by what it completes with, and the lanes and bytes of its result. -/
theorem moveAndLaneWords : Obligations.MoveAndLaneWords := by
  unfold Obligations.MoveAndLaneWords
  intro s i d a b c z sg h wd n wc ht l e
  refine ⟨fun x k₁ k hx hw => mov_scalar ht z n hx hw, fun x k₁ k hx hw => mov_wide ht z n hx hw,
    fun x y t k₁ k₂ k₃ k hx hy hc hw => sel_scalar ht z n hx hy hc hw,
    fun x y t k₁ k₂ k₃ k hx hy hc hw => sel_wide ht z n hx hy hc hw,
    fun x k₁ hx hp => ⟨_, lbc_completes ht sg hx hp, fun j hj => laneAt_replicate _ hj⟩,
    fun x k₁ k hx hp hn hw => lext_completes ht sg hx hp hn hw,
    fun x y k₁ k₂ hx hy hp hn => ⟨_, lins_completes ht hx hy hp hn, fun j hj => laneAt_set _ _ hj⟩,
    fun x y k₁ k₂ hwd hd hx hy hp => ?_, fun x k₁ hwd hx hgood => ?_⟩
  · obtain ⟨hlast, hlanes⟩ := laneAt_packed (k₂.i.r.m.getD n.toNat 0) (z == 1) (k₂.i.r.w.getD d.toNat 0)
      (new := (List.range 7).map (packLane (sg == 1) wd x y)) (by rw [List.length_map, List.length_range])
    refine ⟨_, pack_completes ht z sg n hd hx hy hp, hlast, fun j hj => ?_⟩
    rw [hlanes j hj, getD_map_range _ _ hj, Nat.mod_eq_of_lt (packLane_lt_word hwd ..)]
    split
    · exact ⟨packLane_lt .., fun q hq => packLane_sub hwd _ x y hj hq⟩
    · simp only [beq_iff_eq]
  · refine ⟨lanesOf 32 (joinLanes 8 ((List.range 32).map (unpackByte h sg wd x))), lanesOf_length .., fun q hq => ?_,
      fun k hw => unpk_completes ht z sg n h hx hgood hw⟩
    rw [lanesOf_getD _ (by omega), byte_of_laneAt, laneAt_joinLanes (by simp), getD_map_range _ _ hq,
      Nat.mod_eq_of_lt (unpackByte_lt hwd ..), unpackByte_eq]

end Sys2Proof.Machine
end

section
/-! PROOFS of the family of the element's instructions: MLANE, MSET, MGET, SPRD and SPWR (R165 to R167). -/

namespace Sys2Proof.Machine

/-! ### Masks (R165) -/

/-- Bit `j` of a mask made from its bits. -/
theorem getLsbD_ofBits {bs : List Bool} {j : Nat} (hj : j < 32) : (ofBits bs).getLsbD j = bs.getD j false := by
  have hbit : joinNat 1 (bs.map Bool.toNat) / 2 ^ j % 2 = (bs.getD j false).toNat := by
    have hd := joinNat_digit 1 (bs.map Bool.toNat) j
    rw [Nat.one_mul, pow_one, show (0 : Nat) = false.toNat from rfl, List.getD_map] at hd
    exact hd.trans (Nat.mod_eq_of_lt (Bool.toNat_lt _))
  rw [ofBits, BitVec.getLsbD_ofNat, Nat.testBit_eq_decide_div_mod_eq, hbit]
  cases bs.getD j false <;> simp [hj]

/-- The condition of MLANE on a lane; where it is that of one source, the other is any value (R165). -/
theorem laneCond_eq (c : BitVec 2) {l x y y' : Nat} (hx : x < 2 ^ l) (hy : y < 2 ^ l) (hy' : c ≠ 0 → y' = y) :
    laneCond c l x y' =
      (let u := BitVec.ofNat l x
       let v := BitVec.ofNat l y
       if c = 0 then decide (u ≠ 0) else if c = 1 then decide (u = v)
       else if c = 2 then decide (u.toInt < v.toInt) else decide (u.toNat < v.toNat)) := by
  have hu : (BitVec.ofNat l x).toNat = x := by rw [BitVec.toNat_ofNat, Nat.mod_eq_of_lt hx]
  have hv : (BitVec.ofNat l y).toNat = y := by rw [BitVec.toNat_ofNat, Nat.mod_eq_of_lt hy]
  have hc : ∀ c : BitVec 2, c = 0 ∨ c = 1 ∨ c = 2 ∨ c = 3 := by decide
  rcases hc c with rfl | rfl | rfl | rfl
  · have h0 : BitVec.ofNat l x = 0#l ↔ x = 0 := by rw [← BitVec.toNat_inj, hu]; simp
    simp [laneCond, h0, bne, Bool.beq_eq_decide_eq]
  · obtain rfl := hy' (by decide)
    have h1 : BitVec.ofNat l x = BitVec.ofNat l y' ↔ x = y' := by rw [← BitVec.toNat_inj, hu, hv]
    simp [laneCond, h1, Bool.beq_eq_decide_eq]
  · obtain rfl := hy' (by decide)
    rfl
  · obtain rfl := hy' (by decide)
    simp [laneCond, hu, hv]

/-- The bits of an MLANE result below the lane count. -/
def mlaneBits (c : BitVec 2) (l : Nat) (m old : Word) (z : BitVec 1) (x y : List Nat) : List Bool :=
  (List.range (256 / l)).map fun j => if m.getLsbD j then laneCond c l (x.getD j 0) (y.getD j 0) else z != 1 && old.getLsbD j

/-- Bit `j` of an MLANE result: its lane's condition, zero, or the old bit, and 0 from the lane count on (R165). -/
theorem getLsbD_mlane (c : BitVec 2) (l : Nat) (m old : Word) (z : BitVec 1) (x y : Slot) {j : Nat} (hj : j < 32) :
    (ofBits (mlaneBits c l m old z (lanesOf l x) (if c = 0 then [] else lanesOf l y))).getLsbD j =
      if 256 / l ≤ j then false
      else if m.getLsbD j then
        (let u := BitVec.ofNat l (Terms.laneAt l x j)
         let v := BitVec.ofNat l (Terms.laneAt l y j)
         if c = 0 then decide (u ≠ 0) else if c = 1 then decide (u = v)
         else if c = 2 then decide (u.toInt < v.toInt) else decide (u.toNat < v.toNat))
      else if z = 1 then false else old.getLsbD j := by
  have hlt : ∀ u : Slot, Terms.laneAt l u j < 2 ^ l := fun _ => Nat.mod_lt _ (Nat.two_pow_pos l)
  rw [getLsbD_ofBits hj, mlaneBits]
  by_cases hn : 256 / l ≤ j
  · rw [if_pos hn, List.getD_eq_getElem?_getD, List.getElem?_eq_none (by simpa using hn), Option.getD_none]
  · have hjl := Nat.lt_of_not_le hn
    have hy : c ≠ 0 → (if c = 0 then [] else lanesOf l y).getD j 0 = Terms.laneAt l y j := fun hc => by
      rw [if_neg hc, lanesOf_getD y hjl]
    rw [if_neg hn, getD_map_range _ _ hjl, lanesOf_getD x hjl, laneCond_eq c (hlt x) (hlt y) hy]
    refine ite_congr rfl (fun _ => rfl) fun _ => ?_
    by_cases hz : z = 1
    · simp [hz]
    · rw [if_neg hz, bne_iff_ne.mpr hz, Bool.true_and]

/-! ### Special registers (R166, R167) -/

/-- What SPRD reads as special register `n`. -/
def specialValue (k : Wk) (n : Nat) : Word :=
  let v := k.s.elem k.s.cur.patch k.s.cur.el
  if n = 0 then k.i.r.fuse.setWidth 32
  else if n = 1 then v.zskip
  else if n = 2 then v.bconf
  else if n = 3 then BitVec.ofNat 32 v.replay.length
  else if n = 4 then (if k.i.r.dz then 1 else 0)
  else if n = 5 then k.i.tag.setWidth 32
  else if n % 2 = 0 then (k.i.r.cb.getD ((n - 16) / 2) 0).setWidth 32
  else ((k.i.r.cb.getD ((n - 16) / 2) 0) >>> 32).setWidth 32

theorem specialValue_of_even (k : Wk) (c : Nat) : specialValue k (16 + 2 * c) = (k.i.r.cb.getD c 0).setWidth 32 := by
  have hc : (16 + 2 * c - 16) / 2 = c := by omega
  have h2 : (16 + 2 * c) % 2 = 0 := by omega
  unfold specialValue
  simp only [hc, h2, if_true]
  iterate 6 rw [if_neg (by omega)]

theorem specialValue_of_odd (k : Wk) (c : Nat) : specialValue k (17 + 2 * c) = (k.i.r.cb.getD c 0 >>> 32).setWidth 32 := by
  have hc : (17 + 2 * c - 16) / 2 = c := by omega
  have h2 : (17 + 2 * c) % 2 = 1 := by omega
  unfold specialValue
  simp only [hc, h2]
  iterate 7 rw [if_neg (by omega)]

/-- Each register that SPRD reads, by its number (R166). -/
theorem specialValue_of_reads {row : Nat × (Wk → Word)} (h : row ∈ Terms.specialReads) (k : Wk) : specialValue k row.1 = row.2 k := by
  rcases List.mem_append.1 h with h | h
  · fin_cases h
    · exact (BitVec.ofNat_toNat 32 k.i.r.fuse).symm
    · rfl
    · rfl
    · rfl
    · rfl
    · exact (BitVec.ofNat_toNat 32 k.i.tag).symm
  · obtain ⟨c, -, hc⟩ := List.mem_flatMap.1 h
    rcases List.mem_pair.1 hc with rfl | rfl
    · rw [specialValue_of_even]
      apply BitVec.eq_of_toNat_eq
      simp
    · rw [specialValue_of_odd]
      apply BitVec.eq_of_toNat_eq
      simp [Nat.shiftRight_eq_div_pow]

/-- SPWR writes one half of a handle (R167). -/
theorem setHalf_eq (h : DWord) (n : Nat) (v : Word) : setHalf h (n % 2 == 1) v =
    if n % 2 = 0 then BitVec.ofNat 64 (h.toNat / 2 ^ 32 * 2 ^ 32 + v.toNat) else BitVec.ofNat 64 (v.toNat * 2 ^ 32 + h.toNat % 2 ^ 32) := by
  rcases Nat.mod_two_eq_zero_or_one n with hn | hn
  · have hhi : ((h >>> 32).setWidth 32 : Word).toNat = h.toNat / 2 ^ 32 := by
      rw [BitVec.toNat_setWidth, BitVec.toNat_ushiftRight, Nat.shiftRight_eq_div_pow, Nat.mod_eq_of_lt (by have := h.isLt; omega)]
    rw [hn, if_pos rfl, ← hhi]
    exact append_eq_ofNat _ _
  · have hlo : (h.setWidth 32 : Word).toNat = h.toNat % 2 ^ 32 := BitVec.toNat_setWidth ..
    rw [hn, if_neg (by decide), ← hlo]
    exact append_eq_ofNat _ _

/-! ### The words -/

section
variable {s : State} {i : Inst} (ht : Terms.OnTurn s i) {d a b sp : BitVec 5} {n k' : BitVec 3} {k₁ k₂ k : Wk}
include ht

theorem mlane_completes (c : BitVec 2) (z : BitVec 1) {x y : Slot} (hx : Terms.gives (rdWide a.toNat) ⟨s, i⟩ x k₁)
    (hy : if c = 0 then k₂ = k₁ else Terms.gives (rdWide b.toNat) k₁ y k₂) :
    let l := Terms.laneBits ⟨s, i⟩
    Terms.completes (.mlane a b c n z k') s (Terms.wroteM k₂ n.toNat (ofBits (mlaneBits c l (k₂.i.r.m.getD k'.toNat 0)
      (k₂.i.r.m.getD n.toNat 0) z (lanesOf l x) (if c = 0 then [] else lanesOf l y)))) := by
  intro l
  have hsrc : ((if c = 0 then pure [] else do pure (lanesOf l (← rdWide b.toNat))) : W (List Nat)) k₁ =
      .ok (if c = 0 then [] else lanesOf l y, k₂) := by
    by_cases hc : c = 0
    · rw [if_pos hc] at hy ⊢
      rw [if_pos hc, hy]
      rfl
    · rw [if_neg hc] at hy ⊢
      rw [if_neg hc]
      exact W.gives_map _ hy
  refine completes_of_ok rfl ht ?_
  rw [W.bind_of_ok (W.lane_apply _), W.bind_of_ok hx]
  refine (W.ite_then hsrc W.bind_of_ok W.bind_map_of_ok).trans ?_
  exact (W.bind_of_ok (rdM_apply ..)).trans ((W.bind_of_ok (rdM_apply ..)).trans (wrM_apply ..))

theorem mset_completes {x : Word} (hx : Terms.gives (rdScalar a.toNat) ⟨s, i⟩ x k₁) :
    Terms.completes (.mset a n) s (Terms.wroteM k₁ n.toNat x) := by
  refine completes_of_ok rfl ht ?_
  rw [W.bind_of_ok hx]
  exact wrM_apply ..

theorem mget_completes (hw : Terms.gives (wrScalar d.toNat (i.r.m.getD n.toNat 0)) ⟨s, i⟩ () k) : Terms.completes (.mget d n) s k := by
  refine completes_of_ok rfl ht ?_
  rw [W.bind_of_ok (rdM_apply ..)]
  exact hw

theorem sprd_completes (hw : Terms.gives (wrScalar d.toNat (specialValue ⟨s, i⟩ sp.toNat)) ⟨s, i⟩ () k) :
    Terms.completes (.sprd d sp) s k := by
  refine completes_of_ok rfl ht ?_
  rw [W.bind_of_ok (W.get_apply _), W.bind_of_ok (W.elem_apply _)]
  exact hw

section
variable {x : Word} (hx : Terms.gives (rdScalar a.toNat) ⟨s, i⟩ x k₁)
include hx

theorem spwr_fuse : if x.toNat < 4 then
      Terms.completes (.spwr a 0) s { k₁ with i := { k₁.i with r := { k₁.i.r with fuse := BitVec.ofNat 2 x.toNat }, wFuse := true } }
    else Terms.faults (.spwr a 0) s i .illop 2 (Terms.wordAt k₁) := by
  rw [BitVec.ofNat_toNat]
  split
  next hlt =>
    refine completes_of_ok rfl ht ?_
    rw [W.bind_of_ok hx, if_pos (by decide)]
    exact congrFun (if_neg (Nat.not_le.mpr hlt)) k₁
  next hge =>
    refine faults_of_error rfl ht ?_
    rw [W.bind_of_ok hx, if_pos (by decide)]
    exact (congrFun (if_pos (Nat.not_lt.mp hge)) k₁).trans (W.bind_of_error (W.illop_apply ..))

theorem spwr_counter : Terms.completes (.spwr a 1) s (Terms.withEff k₁ (.zset x)) ∧
    Terms.completes (.spwr a 2) s (Terms.withEff k₁ (.bset x)) :=
  ⟨completes_of_ok rfl ht ((W.bind_of_ok hx).trans (W.eff_apply ..)),
    completes_of_ok rfl ht ((W.bind_of_ok hx).trans (W.eff_apply ..))⟩

theorem spwr_est_completes (h : x.toNat < 2) : Terms.completes (.spwr a 4) s
    (if x = 1 then { k₁ with i := { k₁.i with r := { k₁.i.r with dz := false }, dzClr := true } } else k₁) := by
  refine completes_of_ok rfl ht ?_
  rw [W.bind_of_ok hx, if_neg (by decide), if_neg (by decide), if_neg (by decide), if_pos (by decide)]
  refine (congrFun (if_neg (Nat.not_le.mpr h)) k₁).trans ?_
  split <;> rfl

theorem spwr_est_faults (h : 2 ≤ x.toNat) : Terms.faults (.spwr a 4) s i .illop 2 (Terms.wordAt k₁) := by
  refine faults_of_error rfl ht ?_
  rw [W.bind_of_ok hx, if_neg (by decide), if_neg (by decide), if_neg (by decide), if_pos (by decide)]
  exact (congrFun (if_pos h) k₁).trans (W.bind_of_error (W.illop_apply ..))

theorem spwr_est : if x = 0 then Terms.completes (.spwr a 4) s k₁
    else if x = 1 then Terms.completes (.spwr a 4) s { k₁ with i := { k₁.i with r := { k₁.i.r with dz := false }, dzClr := true } }
    else Terms.faults (.spwr a 4) s i .illop 2 (Terms.wordAt k₁) := by
  split
  next h0 =>
    have h := spwr_est_completes ht hx (by rw [h0]; decide)
    rwa [h0, if_neg (by decide)] at h
  next h0 =>
    split
    next h1 =>
      have h := spwr_est_completes ht hx (by rw [h1]; decide)
      rwa [if_pos h1] at h
    next h1 => exact spwr_est_faults ht hx (by bv_omega)

theorem spwr_handle (h16 : 16 ≤ sp.toNat) :
    let j := (sp.toNat - 16) / 2
    Terms.completes (.spwr a sp) s { k₁ with i := { k₁.i with wC := noted k₁.i.wC (sp.toNat - 16), r := { k₁.i.r with
      cb := k₁.i.r.cb.set j (setHalf (k₁.i.r.cb.getD j 0) (sp.toNat % 2 == 1) x) } } } := by
  intro j
  refine completes_of_ok rfl ht ((W.bind_of_ok hx).trans ?_)
  refine (congrFun (if_neg (by omega)) k₁).trans ((congrFun (if_neg (by omega)) k₁).trans ((congrFun (if_neg (by omega)) k₁).trans ?_))
  exact (congrFun (if_neg (by omega)) k₁).trans (W.upd_apply ..)

end

end

/-- Settles O30: each word by what it completes with, or by its fault. -/
theorem maskAndSpecialWords : Obligations.MaskAndSpecialWords := by
  unfold Obligations.MaskAndSpecialWords
  intro s i d a b sp c n k' z ht l
  refine ⟨fun x y k₁ k₂ hx hy => ⟨_, mlane_completes ht c z hx hy, fun j hj => ?_⟩, fun x k₁ hx => mset_completes ht hx,
    fun k hw => mget_completes ht hw, fun row hrow hsp k hw => sprd_completes ht ?_, fun x k₁ hx => ?_⟩
  · exact getLsbD_mlane _ _ _ _ _ _ _ hj
  · rwa [hsp, specialValue_of_reads hrow]
  · obtain ⟨hzset, hbset⟩ := spwr_counter ht hx
    refine ⟨?_, ?_, ?_, ?_, fun h16 => ?_⟩
    · exact fun h => h ▸ spwr_fuse ht hx
    · exact fun h => h ▸ hzset
    · exact fun h => h ▸ hbset
    · exact fun h => h ▸ spwr_est ht hx
    · have h := spwr_handle ht hx h16
      simp only [setHalf_eq] at h
      exact h

end Sys2Proof.Machine
end

section
/-! SUPPORT. Stable sorts, numbers and tiles in lists of bytes, and accumulators as tables (R7, R16, R181, R194 to R196). -/

namespace Sys2Proof.Machine

theorem beq_eight_eq (f : BitVec 4) : (f == 8) = (f.toNat == 8) := by
  simp [Bool.beq_eq_decide_eq, ← BitVec.toNat_inj]

@[simp] theorem W.set_apply (k' k : Wk) : (set k' : W PUnit) k = .ok ((), k') := rfl

@[simp] theorem wrAcc_apply (t : Nat) (v : SMap Word) (k : Wk) : wrAcc t v k =
    .ok ((), { k with i := { k.i with r := { k.i.r with acc := k.i.r.acc.set t v }, wA := noted k.i.wA t } }) := rfl

/-! ### Stable sorts -/

theorem insertBy_perm {α : Type} (lt : α → α → Bool) (x : α) (l : List α) : (insertBy lt x l).Perm (x :: l) := by
  induction l with
  | nil => exact .refl _
  | cons y ys ih =>
    rw [insertBy]
    split
    · exact .refl _
    · exact (ih.cons y).trans (.swap x y ys)

theorem foldl_insertBy_perm {α : Type} (lt : α → α → Bool) (l : List α) : ∀ r, (l.foldl (fun r x => insertBy lt x r) r).Perm (r ++ l) := by
  induction l with
  | nil => simp
  | cons x l ih =>
    intro r
    calc (l.foldl (fun r x => insertBy lt x r) (insertBy lt x r)).Perm (insertBy lt x r ++ l) := ih _
      _ |>.Perm (x :: r ++ l) := (insertBy_perm lt x r).append_right l
      _ |>.Perm (r ++ x :: l) := List.perm_middle.symm

theorem sortBy_perm {α : Type} (lt : α → α → Bool) (l : List α) : (sortBy lt l).Perm l := foldl_insertBy_perm lt l []

/-- One numbered member stands before another: by its rank, or by its number where the ranks are equal. -/
def RankedBefore {α : Type} (rank : α → Int) (x y : α × Nat) : Prop := rank x.1 < rank y.1 ∨ (rank x.1 = rank y.1 ∧ x.2 < y.2)

section
variable {α : Type} {rank : α → Int} {lt : α × Nat → α × Nat → Bool} (hlt : ∀ x y, lt x y = decide (rank x.1 < rank y.1))
include hlt

theorem insertBy_ranked {x : α × Nat} {l : List (α × Nat)} (hl : l.Pairwise (RankedBefore rank)) (hx : ∀ y ∈ l, y.2 < x.2) :
    (insertBy lt x l).Pairwise (RankedBefore rank) := by
  induction l with
  | nil => exact List.pairwise_singleton _ _
  | cons y ys ih =>
    obtain ⟨hy, hys⟩ := List.pairwise_cons.mp hl
    rw [insertBy, hlt]
    split
    next h =>
      have hxy : rank x.1 < rank y.1 := of_decide_eq_true h
      refine List.pairwise_cons.mpr ⟨List.forall_mem_cons.mpr ⟨.inl hxy, fun z hz => .inl ?_⟩, hl⟩
      obtain h | ⟨h, _⟩ := hy z hz <;> omega
    next h =>
      have hxy : ¬ rank x.1 < rank y.1 := fun h' => h (decide_eq_true h')
      have hyx : RankedBefore rank y x := by
        have := hx y List.mem_cons_self
        unfold RankedBefore
        omega
      refine List.pairwise_cons.mpr ⟨fun z hz => ?_, ih hys fun z hz => hx z (List.mem_cons_of_mem _ hz)⟩
      obtain rfl | hz := List.mem_cons.mp ((insertBy_perm lt x ys).mem_iff.mp hz)
      · exact hyx
      · exact hy z hz

theorem foldl_insertBy_ranked (l : List (α × Nat)) : ∀ r : List (α × Nat), r.Pairwise (RankedBefore rank) →
    (∀ x ∈ r, ∀ y ∈ l, x.2 < y.2) → l.Pairwise (fun x y => x.2 < y.2) →
    (l.foldl (fun r x => insertBy lt x r) r).Pairwise (RankedBefore rank) := by
  induction l with
  | nil => exact fun r hr _ _ => hr
  | cons x l ih =>
    intro r hr hrl hl
    obtain ⟨hx, hl⟩ := List.pairwise_cons.mp hl
    refine ih _ (insertBy_ranked hlt hr fun y hy => hrl y hy x List.mem_cons_self) (fun y hy z hz => ?_) hl
    obtain rfl | hy := List.mem_cons.mp ((insertBy_perm lt x r).mem_iff.mp hy)
    · exact hx z hz
    · exact hrl y hy z (List.mem_cons_of_mem _ hz)

/-- A sort of members numbered in rising order puts them in order of rank, and keeps the order of those of one rank. -/
theorem sortBy_ranked {l : List (α × Nat)} (hl : l.Pairwise (fun x y => x.2 < y.2)) : (sortBy lt l).Pairwise (RankedBefore rank) :=
  foldl_insertBy_ranked hlt l [] .nil (fun _ h => nomatch h) hl

end

theorem pairwise_zip_range {α : Type} (l : List α) : (l.zip (List.range l.length)).Pairwise (fun x y => x.2 < y.2) := by
  rw [← List.pairwise_map (f := Prod.snd) (R := (· < ·)), List.map_snd_zip (by simp)]
  exact List.pairwise_lt_range

/-! ### Numbers in lists of bytes -/

theorem numAt_lt (bs : List Byte) (a n : Nat) : numAt bs a n < 256 ^ n :=
  (leNat_lt _).trans_le (Nat.pow_le_pow_right (by decide) (List.length_take_le ..))

theorem numAt_drop (bs : List Byte) (m a n : Nat) : numAt (bs.drop m) a n = numAt bs (m + a) n := by
  rw [numAt, List.drop_drop, numAt]

/-- Where values are spelled one after another, the number at each one's place is the value. -/
theorem numAt_flatMap_leBytes (z : Nat) (l : List Nat) : ∀ {i : Nat}, i < l.length →
    numAt (l.flatMap (leBytes z)) (i * z) z = l.getD i 0 % 256 ^ z := by
  induction l with
  | nil => exact fun h => absurd h (Nat.not_lt_zero _)
  | cons v l ih =>
    intro i hi
    have hz : (leBytes z v).length = z := leBytes_length z v
    cases i with
    | zero =>
      rw [numAt, List.flatMap_cons, Nat.zero_mul, List.drop_zero, List.take_left' hz, leNat_leBytes]
      rfl
    | succ i =>
      rw [List.flatMap_cons, show (i + 1) * z = (leBytes z v).length + i * z by rw [hz]; ring, ← numAt_drop, List.drop_left,
        ih (Nat.lt_of_succ_lt_succ hi), List.getD_cons_succ]

/-! ### Accumulators (R16) -/

theorem smGet_filter {α : Type} (d : α) (p : Nat → Bool) (m : SMap α) (j : Nat) :
    smGet d (m.filter (fun x => p x.1)) j = if p j then smGet d m j else d := by
  induction m with
  | nil => simp [smGet]
  | cons x m ih =>
    by_cases hj : j = x.1
    · subst hj
      by_cases hp : p x.1 <;> simp [smGet, hp, ih]
    · by_cases hp : p x.1 <;> simp [smGet, hp, ih, hj]

theorem smGet_append_of_default {α : Type} {d : α} (m : SMap α) {m' : SMap α} {j : Nat} (h : smGet d m' j = d) :
    smGet d (m ++ m') j = smGet d m j := by
  induction m with
  | nil => simpa [smGet] using h
  | cons x m ih => simp only [List.cons_append, smGet, ih]

theorem smGet_append_of_not_listed {α : Type} (d : α) {m : SMap α} (m' : SMap α) {j : Nat} (h : ∀ x ∈ m, j ≠ x.1) :
    smGet d (m ++ m') j = smGet d m' j := by
  induction m with
  | nil => rfl
  | cons x m ih =>
    obtain ⟨hx, hm⟩ := List.forall_mem_cons.mp h
    rw [List.cons_append, smGet, if_neg hx, ih hm]

theorem lt_of_mem_accList {ws : List Word} : ∀ {n : Nat} {x : Nat × Word}, x ∈ accList n ws → x.1 < n + ws.length := by
  induction ws with
  | nil => exact fun h => nomatch h
  | cons w ws ih =>
    intro n x h
    have hrest : x ∈ accList (n + 1) ws → x.1 < n + (ws.length + 1) := fun h => by have := ih h; omega
    rw [accList] at h
    split at h
    · exact hrest h
    · obtain rfl | h := List.mem_cons.mp h
      · exact Nat.lt_add_of_pos_right (Nat.succ_pos _)
      · exact hrest h

theorem smGet_accTop_low (a : SMap Word) (ws : List Word) {j : Nat} (hj : j < 2048) : smGet 0 (accTop a ws) j = ws.getD j 0 := by
  have hrest : smGet 0 (a.filter (fun x => decide (2048 ≤ x.1))) j = 0 := by
    rw [smGet_filter 0 (fun n => decide (2048 ≤ n)), if_neg (by simpa using hj)]
  rw [accTop, smGet_append_of_default _ hrest, smGet_accList, if_pos (Nat.zero_le j), Nat.sub_zero]

theorem smGet_accTop_high (a : SMap Word) {ws : List Word} (h : ws.length ≤ 2048) {j : Nat} (hj : 2048 ≤ j) :
    smGet 0 (accTop a ws) j = smGet 0 a j := by
  have hlisted : ∀ x ∈ accList 0 ws, j ≠ x.1 := fun x hx => by have := lt_of_mem_accList hx; omega
  rw [accTop, smGet_append_of_not_listed 0 _ hlisted, smGet_filter 0 (fun n => decide (2048 ≤ n)), if_pos (by simpa using hj)]

theorem length_wordsOf (bs : List Byte) : (wordsOf bs).length = bs.length / 4 := by simp [wordsOf]

theorem wordsOf_getD {bs : List Byte} {j : Nat} (h : j < bs.length / 4) : (wordsOf bs).getD j 0 = BitVec.ofNat 32 (numAt bs (4 * j) 4) :=
  getD_map_range _ 0 h

/-- The bytes of an accumulator, word by word, the lowest byte of each first (R7, R193). -/
theorem accBytes_eq (a : SMap Word) (n : Nat) : accBytes a n =
    (List.range n).flatMap (fun j => (List.range 4).map (fun q => BitVec.ofNat 8 ((smGet 0 a j).toNat / 256 ^ q))) := by
  simp only [accBytes, leBytes_eq_map]

/-! ### Tiles as tables (R181, R194) -/

theorem tileRows_eq (f : Nat) (bs : List Byte) : tileRows f bs =
    (List.range (tileN f)).map (fun r => (List.range (tileN f)).map (fun c => Terms.tileElem (fmtBytes f) (tileN f) bs r c)) := rfl

theorem columns_tileRows (f : Nat) (bs : List Byte) : columns (tileRows f bs) =
    (List.range (tileN f)).map (fun c => (List.range (tileN f)).map (fun r => Terms.tileElem (fmtBytes f) (tileN f) bs r c)) := by
  rw [tileRows_eq, columns, List.length_map, List.length_range]
  refine List.map_congr_left fun c hc => ?_
  rw [List.map_map]
  exact List.map_congr_left fun r _ => getD_map_range _ 0 (List.mem_range.mp hc)

/-- The bytes of the transposed tile (R194). -/
def transposed (f : Nat) (bs : List Byte) : List Byte := (columns (tileRows f bs)).flatMap (fun r => r.flatMap (leBytes (fmtBytes f)))

theorem transposed_eq (f : Nat) (bs : List Byte) : transposed f bs = ((List.range (tileN f)).flatMap (fun c =>
    (List.range (tileN f)).map (fun r => Terms.tileElem (fmtBytes f) (tileN f) bs r c))).flatMap (leBytes (fmtBytes f)) := by
  rw [transposed, columns_tileRows, List.flatMap_map, List.flatMap_assoc]

theorem length_flatMap_leBytes (z : Nat) (l : List Nat) : (l.flatMap (leBytes z)).length = l.length * z := by
  simp [List.length_flatMap, leBytes_length]

theorem length_table {α : Type} (n m : Nat) (g : Nat → Nat → α) :
    ((List.range n).flatMap (fun i => (List.range m).map (g i))).length = n * m := by
  simp [List.length_flatMap]

theorem length_transposed (f : Nat) (bs : List Byte) : (transposed f bs).length = tileN f * tileN f * fmtBytes f := by
  rw [transposed_eq, length_flatMap_leBytes, length_table]

theorem tileElem_transposed (f : Nat) (bs : List Byte) {r q : Nat} (hr : r < tileN f) (hq : q < tileN f) :
    Terms.tileElem (fmtBytes f) (tileN f) (transposed f bs) r q = Terms.tileElem (fmtBytes f) (tileN f) bs q r := by
  have hin : tileN f * r + q < tileN f * tileN f := by
    calc tileN f * r + q < tileN f * (r + 1) := by rw [Nat.mul_succ]; omega
      _ ≤ tileN f * tileN f := Nat.mul_le_mul_left _ hr
  rw [Terms.tileElem, transposed_eq, numAt_flatMap_leBytes _ _ (by rwa [length_table]), getD_flatMap_range _ 0 hr hq]
  exact Nat.mod_eq_of_lt (numAt_lt ..)

end Sys2Proof.Machine
end

section
/-! PROOFS of the family of the matrix instructions: ACCLD, ACCST, LDT and SORTN (R181 to R183, R193 to R197, R337, R444). -/

namespace Sys2Proof.Machine

section
variable {s : State} {i : Inst} {t : BitVec 2} {a b : BitVec 5} {f : BitVec 4} (ht : Terms.OnTurn s i) (hu : Terms.unitFree s i)
include ht hu

/-! ### ACCLD and ACCST (R193) -/

/-- An accumulator after a load of some bytes: FP64 elements leave rows 32 to 63 as they are (R16). -/
def loadedAcc (f : BitVec 4) (old : SMap Word) (bs : List Byte) : SMap Word :=
  if f = 0 then accTop old (wordsOf bs) else accList 0 (wordsOf bs)

theorem accld_completes (hadm : Terms.admits ⟨s, i⟩ (f == 0)) {bs : List Byte} {m : Nat → Nat} {k₁ : Wk}
    (hbs : Terms.gives (rdTile a.toNat (4 * accWords f.toNat) 256) ⟨s, i⟩ (bs, m) k₁) :
    Terms.completes (.accld t a f) s { k₁ with i := { k₁.i with
      r := { k₁.i.r with acc := k₁.i.r.acc.set t.toNat (loadedAcc f (k₁.i.r.acc.getD t.toNat []) bs) }, wA := noted k₁.i.wA t.toNat } } := by
  refine completes_of_ok rfl ht ?_
  rw [W.bind_of_ok (unit_of_free hu), W.bind_of_ok (fullOnly_of_admits hadm), W.bind_of_ok hbs]
  dsimp only
  rw [W.bind_of_ok (W.get_apply k₁)]
  exact wrAcc_apply ..

variable (hadm : Terms.admits ⟨s, i⟩ (f == 0))
include hadm

theorem accst_stores (ha : a.toNat < 16) {va : Nat} {k₁ : Wk} (hva : Terms.gives (tileAddr a.toNat (4 * accWords f.toNat) 256) ⟨s, i⟩ va k₁) :
    let bs := accBytes (i.r.acc.getD t.toNat []) (accWords f.toNat)
    Terms.completes (.accst t a b f) s
      (Terms.withEff k₁ (if b = 1 then .accst va bs else .store (tileStore k₁.s.cur.patch k₁.s.cur.el va bs))) := by
  intro bs
  refine completes_of_ok rfl ht ?_
  rw [W.bind_of_ok (unit_of_free hu), W.bind_of_ok (fullOnly_of_admits hadm), W.bind_of_ok (W.get_apply _)]
  dsimp only
  rw [if_pos ha, W.bind_of_ok hva, W.bind_of_ok (W.cur_apply k₁)]
  split
  · exact W.eff_apply ..
  · exact W.eff_apply ..

theorem accst_fills (ha : 16 ≤ a.toNat) {k : Wk}
    (hk : Terms.gives (rawToBuffer a.toNat (accBytes (i.r.acc.getD t.toNat []) (accWords f.toNat))) ⟨s, i⟩ () k) :
    Terms.completes (.accst t a b f) s k := by
  refine completes_of_ok rfl ht ?_
  rw [W.bind_of_ok (unit_of_free hu), W.bind_of_ok (fullOnly_of_admits hadm), W.bind_of_ok (W.get_apply _)]
  dsimp only
  rw [if_neg (Nat.not_lt.mpr ha)]
  exact hk

end

theorem accWords_eq (f : BitVec 4) : accWords f.toNat = if f = 0 then 2048 else 4096 := by
  simp [accWords, ← BitVec.toNat_inj]

/-- Each word of the format is loaded, and a format of half the words leaves the others (R193). -/
theorem smGet_loadedAcc (f : BitVec 4) (old : SMap Word) {bs : List Byte} (hl : bs.length = 4 * accWords f.toNat) :
    (∀ j < accWords f.toNat, smGet 0 (loadedAcc f old bs) j = BitVec.ofNat 32 (numAt bs (4 * j) 4)) ∧
    (f = 0 → ∀ j, 2048 ≤ j → smGet 0 (loadedAcc f old bs) j = smGet 0 old j) := by
  have hwords : (wordsOf bs).length = accWords f.toNat := by rw [length_wordsOf]; omega
  have hword : ∀ j < accWords f.toNat, (wordsOf bs).getD j 0 = BitVec.ofNat 32 (numAt bs (4 * j) 4) := fun j hj =>
    wordsOf_getD (by omega)
  rw [accWords_eq] at hwords hword ⊢
  by_cases hf : f = 0
  · simp only [hf, if_true, loadedAcc] at hwords hword ⊢
    exact ⟨fun j hj => (smGet_accTop_low old _ hj).trans (hword j hj), fun _ j hj => smGet_accTop_high old hwords.le hj⟩
  · simp only [hf, if_false, loadedAcc, false_imp_iff, and_true] at hword ⊢
    intro j hj
    rw [smGet_accList, if_pos (Nat.zero_le j), Nat.sub_zero, hword j hj]

/-! ### LDT (R194, R337) -/

section
variable {s : State} {i : Inst} {a b : BitVec 5} {f : BitVec 4} (ht : Terms.OnTurn s i) (hu : Terms.unitFree s i)
  (hadm : Terms.admits ⟨s, i⟩ (decide (f.toNat ≤ 1) || f.toNat == 8))
include ht hu hadm

theorem ldt_holds (hq : (s.elem s.cur.patch s.cur.el).rplq ≠ 0) : exec (.ldt a b f) s =
    .next (if i.since.isSome || i.pullAt.isSome then s.clearWait s.cur.patch s.cur.el i.id else s) := by
  refine runWord_of_held ht ?_
  rw [W.bind_of_ok (unit_of_free hu), W.bind_of_ok (fullOnly_of_admits hadm), W.bind_of_ok (W.elem_apply _), if_pos hq]
  rfl

theorem ldt_completes (hq : (s.elem s.cur.patch s.cur.el).rplq = 0) {bs : List Byte} {m : Nat → Nat} {k₁ k₂ : Wk} {va : Nat}
    (hbs : Terms.gives (rdTile a.toNat (tileBytes f.toNat) 256) ⟨s, i⟩ (bs, m) k₁)
    (hva : Terms.gives (tileAddr b.toNat (tileBytes f.toNat) 256) k₁ va k₂) : ∃ c,
    let p := k₂.s.cur.patch
    let e := k₂.s.cur.el
    let v := k₂.s.elem p e
    Terms.completes (.ldt a b f) s (Terms.withEff { k₂ with s := k₂.s.setElem p e { v with bconf := v.bconf + BitVec.ofNat 32 c } }
      (.store { tileStore p e va (transposed f.toNat bs) with banked := true })) := by
  refine ⟨ldtConflicts (k₂.s.seq k₂.s.cur.patch).vhash f.toNat m (fun o => va + o), completes_of_ok rfl ht ?_⟩
  rw [W.bind_of_ok (unit_of_free hu), W.bind_of_ok (fullOnly_of_admits hadm), W.bind_of_ok (W.elem_apply _), if_neg (not_not.mpr hq)]
  refine (W.bind_of_ok hbs).trans ((W.bind_of_ok hva).trans ?_)
  rw [W.bind_of_ok (W.cur_apply k₂), W.bind_of_ok (W.get_apply k₂), W.bind_of_ok (W.elem_apply k₂),
    W.bind_of_ok (W.set_apply ..)]
  exact W.eff_apply ..

end

/-! ### SORTN (R195, R196) -/

/-- The number by which SORTN orders a key that is not of FP32: signed or unsigned, rising or falling (R196). -/
def keyRank (u dn : BitVec 1) (x : Word) : Int :=
  let v := if u = 1 then (x.toNat : Int) else x.toInt
  if dn = 1 then -v else v

/-- The order in which SORTN puts keys with their indices (R195, R196). -/
def pairLt (f : BitVec 4) (u dn : BitVec 1) (x y : Word × Nat) : Bool :=
  if dn = 1 then keyLt f.toNat (u == 1) y.1 x.1 else keyLt f.toNat (u == 1) x.1 y.1

theorem pairLt_eq_rank {f : BitVec 4} (hf : f ≠ 1) (u dn : BitVec 1) (x y : Word × Nat) :
    pairLt f u dn x y = decide (keyRank u dn x.1 < keyRank u dn y.1) := by
  have hf1 : f.toNat ≠ 1 := fun h => hf (BitVec.eq_of_toNat_eq h)
  have bit : ∀ c : BitVec 1, c = 0 ∨ c = 1 := by decide
  obtain rfl | rfl := bit dn
  · obtain rfl | rfl := bit u
    · simp [pairLt, keyRank, keyLt, hf1, BitVec.slt]
    · simp [pairLt, keyRank, keyLt, hf1]
  · obtain rfl | rfl := bit u
    · simp [pairLt, keyRank, keyLt, hf1, BitVec.slt]
    · simp [pairLt, keyRank, keyLt, hf1]

/-- Keys, each with its index in the list (R195). -/
def indexedKeys (keys : List Word) : List (Word × Nat) := keys.zip (List.range keys.length)

/-- Sorted pairs are in the order of their keys, and pairs of equal keys in that of their indices (R195, R196). -/
theorem sorted_pairs_stable {f : BitVec 4} (hf : f ≠ 1) (u dn : BitVec 1) (keys : List Word) :
    (sortBy (pairLt f u dn) (indexedKeys keys)).Pairwise
      (fun x y => pairLt f u dn y x = false ∧ (pairLt f u dn x y = true ∨ x.2 < y.2)) := by
  refine (sortBy_ranked (pairLt_eq_rank hf u dn) (pairwise_zip_range keys)).imp fun {x y} h => ?_
  simp only [pairLt_eq_rank hf, decide_eq_false_iff_not, decide_eq_true_eq, Int.not_lt]
  obtain h | ⟨h, hn⟩ := h
  · exact ⟨h.le, .inl h⟩
  · exact ⟨h.le, .inr hn⟩

/-- The keys that SORTN takes from the DATA units of a list (R195). -/
def sortKeys (us : List Slot) : List Word := (us.filter (fun x => uKind x == 0)).flatMap (fun x => (List.range 7).map (lane x))

theorem sortn_completes {s : State} {i : Inst} {a b : BitVec 5} {f : BitVec 4} {u dn : BitVec 1} (ht : Terms.OnTurn s i)
    (hu : Terms.unitFree s i) {us : List Slot} {k₁ k : Wk} (hus : Terms.gives (rdRest a.toNat) ⟨s, i⟩ us k₁) (hkind : ∀ x ∈ us, uKind x ≠ 1)
    (hn : (sortKeys us).length ≤ 1536) (hout : Terms.gives (streamOut b.toNat (us.filter (fun x => uKind x != 0) ++
      pairUnits (sortBy (pairLt f u dn) (indexedKeys (sortKeys us))) (header 0 k₁.i.tag 0) (header 0 k₁.i.tag 1))) k₁ () k) :
    Terms.completes (.sortn a b f u dn) s k := by
  refine completes_of_ok rfl ht ?_
  rw [W.bind_of_ok (unit_of_free hu), W.bind_of_ok hus, any_kind_eq_false hkind]
  simp only [Bool.false_eq_true, if_false]
  refine (congrFun (if_neg (Nat.not_lt.mpr hn)) k₁).trans ?_
  rw [W.bind_of_ok (header_apply ..), W.bind_of_ok (header_apply ..)]
  exact hout

/-- Settles O40: each word by what it completes with, the tile that LDT stores by `tileElem_transposed`, the order of SORTN's pairs by
`sorted_pairs_stable`. -/
theorem tileWords : Obligations.TileWords := by
  unfold Obligations.TileWords
  intro s i t a b f u dn ht hu words n
  have hwords : words = accWords f.toNat := (accWords_eq f).symm
  rw [hwords, beq_eight_eq]
  refine ⟨fun hadm bs m k₁ hbs hl => ?_, fun hadm => ?_, fun hadm hq => ldt_holds ht hu hadm hq, fun hadm hf hq bs m k₁ va k₂ hbs hva => ?_,
    fun us k₁ hus hkind => ?_⟩
  · obtain ⟨hloaded, hkept⟩ := smGet_loadedAcc f (k₁.i.r.acc.getD t.toNat []) hl
    exact ⟨_, accld_completes ht hu hadm hbs, hloaded, fun hf j hj _ => hkept hf j hj⟩
  · rw [← accBytes_eq]
    exact ⟨fun ha va k₁ hva => accst_stores ht hu hadm ha hva, fun ha k hk => accst_fills ht hu hadm ha hk⟩
  · obtain ⟨c, hc⟩ := ldt_completes ht hu hadm hq hbs hva
    exact ⟨_, c, length_transposed .., fun r hr q hq => tileElem_transposed _ bs hr hq, hc⟩
  · intro keys hn lt ps
    exact ⟨sortBy_perm .., fun hf => sorted_pairs_stable hf u dn _, fun k hout => sortn_completes ht hu hus hkind hn hout⟩

end Sys2Proof.Machine
end

section
/-! PROOFS of the family of the matrix instructions: the reductions with witnesses, ADJB and WREL (R183, R264 to R270). -/

namespace Sys2Proof.Machine

/-! ### The reductions with witnesses (R264 to R267) -/

theorem exec_of_witnessWords {row} (h : row ∈ Terms.witnessWords) (t : BitVec 2) (a b : BitVec 5) (f : BitVec 4) (w : BitVec 1) (s : State) :
    exec (row.1 t a b f w) s = runWord (wredWord row.2 t.toNat a.toNat b.toNat f.toNat (w == 1)) s := by
  revert row
  simp only [Terms.witnessWords, List.forall_mem_cons]
  exact ⟨rfl, rfl, rfl, rfl, rfl, fun _ h => nomatch h⟩

/-- The value of one of RCLMP's bounds (R266). -/
def boundValue (f : Nat) (v : Word) : FV := if f ≤ 5 then fp32.decode v.toNat else fmtValue 8 v.toNat

/-- Such a bound as a pattern of the tile's format (R266). -/
def boundPattern (f : Nat) (v : Word) : Nat :=
  if f ≤ 5 then convertTo f .rne (fp32.decode v.toNat) else convertTo f .rne (fmtValue 8 v.toNat)

theorem boundPattern_eq (f : Nat) (v : Word) : boundPattern f v = convertTo f .rne (boundValue f v) := (apply_ite (convertTo f .rne) ..).symm

/-- RCLMP takes its bounds from s registers, and the other reductions have none (R266). -/
def Bounds (kd : WredKind) (a f tid lh lw : Nat) (k : Wk) (lo hi : Nat) : Prop :=
  if kd = .clamp then
    tid = 0 ∧ lh = 0 ∧ lw = 0 ∧ ∃ x y, Terms.gives (rdS (a + 2)) k x k ∧ Terms.gives (rdS (a + 3)) k y k ∧
      (boundValue f x).isNan = false ∧ (boundValue f y).isNan = false ∧ (boundValue f y).lt (boundValue f x) = false ∧
      lo = convertTo f .rne (boundValue f x) ∧ hi = convertTo f .rne (boundValue f y)
  else lo = 0 ∧ hi = 0

/-- The results of a reduction, window by window, each with its witness entry (R265, R266). -/
def wredResults (kd : WredKind) (f lo hi lh lw : Nat) (bs : List Byte) : List (Nat × Nat) :=
  (List.range (tileN f / 2 ^ lh)).flatMap (fun r => (List.range (tileN f / 2 ^ lw)).map (fun c =>
    reduceWindow kd f lo hi (Terms.window (tileRows f bs) lh lw r c)))

/-- The bytes of the result of a reduction (R265). -/
def reducedBytes (f : Nat) (res : List (Nat × Nat)) : List Byte := res.flatMap (fun x => leBytes (fmtBytes f) x.1)

/-- A witness tile: its header and its entries (R267). -/
def witnessBytes (kd : WredKind) (f live tid lh lw : Nat) (res : List (Nat × Nat)) : List Byte :=
  leBytes 8 (live * 2 ^ 16 + kd.enc) ++ leBytes 8 tid ++
    leBytes 8 (f * 2 ^ 20 + lw * 2 ^ 17 + lh * 2 ^ 14 + tileN f / 2 ^ lw * 2 ^ 7 + tileN f / 2 ^ lh) ++ leBytes 8 0 ++
    entryBytes kd.enc (res.map (fun x => x.2))

section
variable {β : Type} {k k' : Wk}

/-- A reduction goes on with its bounds. -/
theorem bounds_then {kd : WredKind} {a f tid lh lw lo hi : Nat} (g : Nat × Nat → W β) (h : Bounds kd a f tid lh lw k lo hi) :
    (if kd = .clamp then rdS (a + 2) >>= fun l => rdS (a + 3) >>= fun u =>
        if tid ≠ 0 ∨ lh ≠ 0 ∨ lw ≠ 0 ∨ (boundValue f l).isNan = true ∨ (boundValue f u).isNan = true ∨
            (boundValue f u).lt (boundValue f l) = true then
          (W.illop 2 : W Unit) >>= fun _ => pure (boundPattern f l, boundPattern f u) >>= g
        else pure (boundPattern f l, boundPattern f u) >>= g
      else pure (0, 0) >>= g) k = g (lo, hi) k := by
  unfold Bounds at h
  split at h
  next hc =>
    obtain ⟨htid, hlh, hlw, x, y, hx, hy, hxn, hyn, hle, rfl, rfl⟩ := h
    rw [if_pos hc, W.bind_of_ok hx, W.bind_of_ok hy, if_neg (by simp [htid, hlh, hlw, hxn, hyn, hle]), W.bind_of_ok (W.pure_apply ..),
      boundPattern_eq, boundPattern_eq]
  next hc =>
    obtain ⟨rfl, rfl⟩ := h
    rw [if_neg hc, W.bind_of_ok (W.pure_apply ..)]

/-- A result of bytes is stored at the commit, or put into a buffer, and the word goes on (R265). -/
theorem result_then {p e b : Nat} {out : List Byte} (g : Unit → W β)
    (h : if b < 16 then ∃ va k₁, Terms.gives (tileAddr b out.length 256) k va k₁ ∧ k' = Terms.withEff k₁ (.store (tileStore p e va out))
      else Terms.gives (rawToBuffer b out) k () k') :
    (if b < 16 then tileAddr b out.length 256 >>= fun va => W.eff (.store (tileStore p e va out)) >>= g
      else rawToBuffer b out >>= g) k = g () k' := by
  split at h
  next hb =>
    obtain ⟨va, k₁, hva, rfl⟩ := h
    rw [if_pos hb, W.bind_of_ok hva, W.bind_of_ok (W.eff_apply ..)]
  next hb => rw [if_neg hb, W.bind_of_ok h]

/-- A word with W = 1 leaves its witness tile for the commit, where that fits the buffer (R267). -/
theorem witness_left {w : Bool} {t : Nat} {data : List Byte}
    (h : if w = true then cbValid (k.i.r.cb.getD (4 + t) 0) = true ∧
        (data.length + cbSlotBytes (k.i.cbAt.getD (4 + t) 0) - 1) / cbSlotBytes (k.i.cbAt.getD (4 + t) 0) ≤ cbNslot (k.i.cbAt.getD (4 + t) 0) ∧
        k' = Terms.withEff k (.witness (4 + t) data)
      else k' = k) :
    (if w = true then useBuffer (28 + t) >>= fun _ => (get : W Wk) >>= fun x =>
        if cbNslot (x.i.cbAt.getD (4 + t) 0) <
            (data.length + cbSlotBytes (x.i.cbAt.getD (4 + t) 0) - 1) / cbSlotBytes (x.i.cbAt.getD (4 + t) 0) then
          (W.illop 2 : W Unit) >>= fun _ => W.eff (.witness (4 + t) data)
        else W.eff (.witness (4 + t) data)
      else pure ()) k = .ok ((), k') := by
  split at h
  next hw =>
    obtain ⟨hv, hfit, rfl⟩ := h
    have hslot : 28 + t - 24 = 4 + t := by omega
    rw [if_pos hw, W.bind_of_ok (useBuffer_of_valid (by rwa [hslot])), W.bind_of_ok (W.get_apply k), if_neg (Nat.not_lt.mpr hfit)]
    exact W.eff_apply ..
  next hw =>
    rw [if_neg hw, h]
    rfl

end

/-- A reduction whose geometry is admitted leaves its result, and with W = 1 its witness (R264 to R267). -/
theorem wredWord_gives {kd : WredKind} {t a b f lo hi : Nat} {w : Bool} {s : State} {i : Inst} {geo : Word} {bs : List Byte} {m : Nat → Nat}
    {k₁ k₂ k : Wk} (hu : Terms.unitFree s i) (hadm : Terms.admits ⟨s, i⟩ (decide (f ≤ 1) || f == 8))
    (hgeo : Terms.gives (rdS (a + 1)) ⟨s, i⟩ geo ⟨s, i⟩) :
    let lg := if f = 0 then 5 else 6
    let tid := geo.toNat / 2 ^ 12
    let live := geo.toNat / 2 ^ 6 % 64
    let lw := geo.toNat / 8 % 8
    let lh := geo.toNat % 8
    lh ≤ lg → lw ≤ lg → (w = true → live ≠ 0) → Bounds kd a f tid lh lw ⟨s, i⟩ lo hi →
    Terms.gives (rdTile a (tileBytes f) 256) ⟨s, i⟩ (bs, m) k₁ →
    let res := wredResults kd f lo hi lh lw bs
    let out := reducedBytes f res
    (if b < 16 then ∃ va k', Terms.gives (tileAddr b out.length 256) k₁ va k' ∧
        k₂ = Terms.withEff k' (.store (tileStore k₁.s.cur.patch k₁.s.cur.el va out))
      else Terms.gives (rawToBuffer b out) k₁ () k₂) →
    (if w = true then
      let h := k₂.i.cbAt.getD (4 + t) 0
      let data := witnessBytes kd f live tid lh lw res
      cbValid (k₂.i.r.cb.getD (4 + t) 0) = true ∧ (data.length + cbSlotBytes h - 1) / cbSlotBytes h ≤ cbNslot h ∧
        k = Terms.withEff k₂ (.witness (4 + t) data)
      else k = k₂) →
    wredWord kd t a b f w ⟨s, i⟩ = .ok ((), k) := by
  intro lg tid live lw lh hlh hlw hlive hbounds hbs res out hout hwit
  have hgeom : ¬ (lg < lh ∨ lg < lw ∨ w = true ∧ live = 0) := by
    rintro (h | h | ⟨hw, h⟩)
    · omega
    · omega
    · exact hlive hw h
  rw [wredWord, W.bind_of_ok (unit_of_free hu), W.bind_of_ok (fullOnly_of_admits hadm), W.bind_of_ok hgeo]
  refine (congrFun (if_neg hgeom) _).trans ?_
  refine (bounds_then _ hbounds).trans ?_
  refine (W.bind_of_ok hbs).trans ((W.bind_of_ok (W.cur_apply k₁)).trans ?_)
  exact (result_then _ hout).trans (witness_left hwit)

/-! ### ADJB and WREL (R268 to R270) -/

/-- The entry of a result, in the bytes of the whole witness tile (R267). -/
def tileEntry (x : Witness) (es : List Byte) (q : Nat) : Nat :=
  if x.enc = 0 then numAt es (32 + 2 * q) 2 else ((es.drop 32).getD (q / 4) 0).toNat / 4 ^ (q % 4) % 4

theorem entry_drop (x : Witness) (es : List Byte) (q : Nat) : x.entry (es.drop 32) q = tileEntry x es q := by
  rw [Witness.entry, tileEntry, numAt_drop]

/-- The additions of ADJB: each gradient to the elements that its result's entry routes it to (R268). -/
def gradients (f : Nat) (x : Witness) (gs es : List Byte) : List (Nat × FV) :=
  (List.range (x.r * x.c)).flatMap (fun q => (x.routes q (tileEntry x es q)).map (fun c =>
    (c, fmtValue f (numAt gs (fmtBytes f * q) (fmtBytes f)))))

section
variable {s : State} {i : Inst} (ht : Terms.OnTurn s i) {v : DWord} {gen : Word} {pl : Place} {x : Witness} {k₁ : Wk}
  (hw : Terms.gives (witnessTest v gen) ⟨s, i⟩ (pl, x) k₁)
include ht hw

theorem adjb_completes {t : BitVec 2} {a b : BitVec 5} {f : BitVec 4} {gs es : List Byte} {m : Nat → Nat} {k₂ k₃ : Wk}
    (hu : Terms.unitFree s i) (hadm : Terms.admits ⟨s, i⟩ (f == 0)) (hv : Terms.gives (rdPair b.toNat) ⟨s, i⟩ v ⟨s, i⟩)
    (hgen : Terms.gives (rdS (b.toNat + 2)) ⟨s, i⟩ gen ⟨s, i⟩)
    (hgs : Terms.gives (rdTile a.toNat (x.r * x.c * fmtBytes f.toNat) 256) k₁ (gs, m) k₂) (hfmt : x.fmt ≠ 0)
    (hes : Terms.gives (readPtr v 0 x.bytes) k₂ es k₃)
    (hin : x.enc = 0 → ∀ q < x.r * x.c, tileEntry x es q < 2 ^ (x.lh + x.lw)) :
    let acc := accAdd (k₃.i.r.acc.getD t.toNat []) (gradients f.toNat x gs es)
    Terms.completes (.adjb t a b f) s (Terms.withIrr
      { k₃ with i := { k₃.i with r := { k₃.i.r with acc := k₃.i.r.acc.set t.toNat acc }, wA := noted k₃.i.wA t.toNat } }
      (.owner pl .elem false false (.witness gen false) [] v)) := by
  intro acc
  have hentries : ¬ (x.enc = 0 ∧ (List.range (x.r * x.c)).any (fun q => decide (2 ^ (x.lh + x.lw) ≤ x.entry (es.drop 32) q)) = true) := by
    simpa [entry_drop] using hin
  refine completes_of_ok rfl ht ?_
  rw [W.bind_of_ok (unit_of_free hu), W.bind_of_ok (fullOnly_of_admits hadm), W.bind_of_ok hv, W.bind_of_ok hgen]
  refine (W.bind_of_ok hw).trans ((W.bind_of_ok hgs).trans ?_)
  refine (congrFun (if_neg hfmt) k₂).trans ((W.bind_of_ok hes).trans ((congrFun (if_neg hentries) k₃).trans ?_))
  simp only [entry_drop]
  rw [W.bind_of_ok (W.get_apply k₃), W.bind_of_ok (wrAcc_apply ..)]
  exact W.irrevocable_apply ..

theorem wrel_completes {d a b : BitVec 5} (hv : Terms.gives (rdPair a.toNat) ⟨s, i⟩ v ⟨s, i⟩)
    (hgen : Terms.gives (rdS b.toNat) ⟨s, i⟩ gen ⟨s, i⟩) :
    Terms.completes (.wrel d a b) s (Terms.withIrr k₁ (.owner pl .elem false false (.witness gen true) [d.toNat] v)) := by
  refine completes_of_ok rfl ht ?_
  rw [W.bind_of_ok hv, W.bind_of_ok hgen]
  exact W.bind_of_ok hw

end

/-- Settles O42: the reductions by `wredWord_gives`, ADJB and WREL by what they leave to their irrevocable operation. -/
theorem witnessWords : Obligations.WitnessWords := by
  unfold Obligations.WitnessWords
  intro s i t a b d f w ht
  refine ⟨fun row hrow hu hadm geo lo hi bs m k₁ k₂ k hgeo => ?_, fun hu hadm v gen pl x k₁ gs m k₂ es k₃ hv hgen hw => ?_,
    fun v gen pl x k₁ hv hgen hw => wrel_completes ht hw hv hgen⟩
  · intro n lg tid live lw lh hlh hlw hlive hbounds hbs res out hout hwit
    rw [beq_eight_eq] at hadm
    refine completes_of_ok (exec_of_witnessWords hrow t a b f w s) ht
      (wredWord_gives hu hadm hgeo hlh hlw (fun h => hlive (beq_iff_eq.mp h)) hbounds hbs hout ?_)
    simp only [beq_iff_eq]
    exact hwit
  · intro z hgs hfmt hes entry hin acc
    exact adjb_completes ht hw hu hadm hv hgen hgs hfmt hes hin

end Sys2Proof.Machine
end

section
/-! SUPPORT. The operations on times and their meets over antichains, field by field (R236), and frontier registers (R246). -/

namespace Sys2Proof.Machine

/-! ### Times from their fields -/

theorem tOuter_toNat (t : DWord) : (tOuter t).toNat = Terms.outer t := by
  have := t.isLt
  simp only [tOuter, Terms.outer, BitVec.toNat_setWidth, BitVec.toNat_ushiftRight, Nat.shiftRight_eq_div_pow]
  omega

theorem tIter_toNat (t : DWord) : (tIter t).toNat = Terms.iter t := by
  simp only [tIter, Terms.iter, BitVec.toNat_setWidth, BitVec.toNat_ushiftRight, Nat.shiftRight_eq_div_pow]

theorem tInner_toNat (t : DWord) : (tInner t).toNat = Terms.inner t := BitVec.toNat_setWidth ..

theorem toNat_mkTime (o : Word) (i n : Half) : (mkTime o i n).toNat = o.toNat * 2 ^ 32 + i.toNat * 2 ^ 16 + n.toNat := by
  rw [mkTime, BitVec.toNat_append, BitVec.toNat_append, ← Nat.shiftLeft_add_eq_or_of_lt i.isLt, ← Nat.shiftLeft_add_eq_or_of_lt n.isLt,
    Nat.shiftLeft_eq, Nat.shiftLeft_eq]
  ring

theorem mkTime_eq (o : Word) (i n : Half) : mkTime o i n = Terms.timeOf o.toNat i.toNat n.toNat := by
  rw [Terms.timeOf, ← toNat_mkTime, BitVec.ofNat_toNat, BitVec.setWidth_eq]

section
variable (o : Word) (i n : Half)

theorem outer_mkTime : Terms.outer (mkTime o i n) = o.toNat := by
  have := i.isLt
  have := n.isLt
  rw [Terms.outer, toNat_mkTime]
  omega

theorem iter_mkTime : Terms.iter (mkTime o i n) = i.toNat := by
  have := i.isLt
  have := n.isLt
  rw [Terms.iter, toNat_mkTime]
  omega

theorem inner_mkTime : Terms.inner (mkTime o i n) = n.toNat := by
  have := n.isLt
  rw [Terms.inner, toNat_mkTime]
  omega

end

/-- A time is what its fields say. -/
theorem timeOf_fields (t : DWord) : Terms.timeOf (Terms.outer t) (Terms.iter t) (Terms.inner t) = t := by
  refine BitVec.eq_of_toNat_eq ?_
  have := t.isLt
  simp only [Terms.timeOf, Terms.outer, Terms.iter, Terms.inner, BitVec.toNat_ofNat]
  omega

/-! ### Order, joins and meets -/

theorem maxBv_toNat {n : Nat} (a b : BitVec n) : (maxBv a b).toNat = max a.toNat b.toNat := by
  unfold maxBv
  split <;> omega

theorem minBv_toNat {n : Nat} (a b : BitVec n) : (minBv a b).toNat = min a.toNat b.toNat := by
  unfold minBv
  split <;> omega

theorem tLe_iff (t u : DWord) : tLe t u = true ↔ Terms.before t u := by
  simp only [tLe, Terms.before, Bool.and_eq_true, decide_eq_true_eq, tOuter_toNat, tIter_toNat, tInner_toNat, and_assoc]

theorem inAdvance_iff (t : DWord) (f : List DWord) : inAdvance t f = true ↔ ∃ u ∈ f, Terms.before u t := by
  simp only [inAdvance, List.any_eq_true, tLe_iff]

theorem tJoin_eq (t u : DWord) : tJoin t u = Terms.timeOf (max (Terms.outer t) (Terms.outer u)) (max (Terms.iter t) (Terms.iter u))
    (max (Terms.inner t) (Terms.inner u)) := by
  simp only [tJoin, mkTime_eq, maxBv_toNat, tOuter_toNat, tIter_toNat, tInner_toNat]

section
variable (t u : DWord)

theorem outer_tJoin : Terms.outer (tJoin t u) = max (Terms.outer t) (Terms.outer u) := by
  rw [tJoin, outer_mkTime, maxBv_toNat, tOuter_toNat, tOuter_toNat]

theorem iter_tJoin : Terms.iter (tJoin t u) = max (Terms.iter t) (Terms.iter u) := by
  rw [tJoin, iter_mkTime, maxBv_toNat, tIter_toNat, tIter_toNat]

theorem inner_tJoin : Terms.inner (tJoin t u) = max (Terms.inner t) (Terms.inner u) := by
  rw [tJoin, inner_mkTime, maxBv_toNat, tInner_toNat, tInner_toNat]

theorem outer_tMeet : Terms.outer (tMeet t u) = min (Terms.outer t) (Terms.outer u) := by
  rw [tMeet, outer_mkTime, minBv_toNat, tOuter_toNat, tOuter_toNat]

theorem iter_tMeet : Terms.iter (tMeet t u) = min (Terms.iter t) (Terms.iter u) := by
  rw [tMeet, iter_mkTime, minBv_toNat, tIter_toNat, tIter_toNat]

theorem inner_tMeet : Terms.inner (tMeet t u) = min (Terms.inner t) (Terms.inner u) := by
  rw [tMeet, inner_mkTime, minBv_toNat, tInner_toNat, tInner_toNat]

end

/-- Meeting a time with the joins over a list works field by field. -/
theorem foldl_tMeet_eq (t : DWord) (f : List DWord) : ∀ r : DWord, f.foldl (fun r x => tMeet r (tJoin t x)) r =
    Terms.timeOf ((f.map (fun x => max (Terms.outer t) (Terms.outer x))).foldl min (Terms.outer r))
      ((f.map (fun x => max (Terms.iter t) (Terms.iter x))).foldl min (Terms.iter r))
      ((f.map (fun x => max (Terms.inner t) (Terms.inner x))).foldl min (Terms.inner r)) := by
  induction f with
  | nil => exact fun r => (timeOf_fields r).symm
  | cons x f ih =>
    intro r
    simp only [List.foldl_cons, List.map_cons, ih, outer_tMeet, iter_tMeet, inner_tMeet, outer_tJoin, iter_tJoin, inner_tJoin]

theorem advance_eq_advanced (f : List DWord) (t : DWord) : advance f t = Terms.advanced f t := foldl_tMeet_eq t f _

/-! ### Frontier registers -/

theorem rdFrontier_latched (n : Nat) (k : Wk) : rdFrontier n k = .ok (Terms.latched k n) := by
  rw [rdFrontier, W.bind_of_ok (W.get_apply k), Terms.latched]
  cases k.i.ftl.getD n none <;> rfl

end Sys2Proof.Machine
end

section
/-! PROOFS of the family of the matrix instructions: ACON, AINS, AMRG, ACMP, APRB, JOIN and RED (R183, R252, R255 to R263). -/

namespace Sys2Proof.Machine

/-! ### Parts of the words of arrangements -/

theorem arrStatus_eq (ovf : Bool) (n : Nat) : arrStatus ovf n = Terms.statusOf ovf n := by
  rw [arrStatus, Terms.statusOf, Nat.mul_comm]

/-- The records of the CHANGE units of a list (R249). -/
def changes (us : List Slot) : List ARec := (us.filter (fun u => uKind u == 1)).map recOf

section
variable {β : Type} {k k' : Wk}

/-- A check that finds nothing wrong is passed. -/
theorem W.past_check {c : Prop} [Decidable c] {f g : W β} (h : ¬ c) : (if c then f else g) k = g k := congrFun (if_neg h) k

/-- A part that a word runs where a list has members, and the rest. -/
theorem unless_nil_then {α : Type} {l : List α} [Decidable (l = [])] {f : W Unit} (g : Unit → W β)
    (h : if l = [] then k' = k else Terms.gives f k () k') : (if (!l.isEmpty) = true then f >>= g else g ()) k = g () k' := by
  cases l with
  | nil => exact congrArg (g ()) ((if_pos rfl).mp h).symm
  | cons x l => exact W.bind_of_ok ((if_neg (List.cons_ne_nil x l)).mp h)

/-- Units with good headers pass their check. -/
theorem checkHeaders_then {us : List Slot} (g : PUnit → W β) (h : ∀ u ∈ us, badHeader (lane u 7) = false) :
    ((forIn us PUnit.unit (fun u _ => checkHeader u >>= fun _ => pure (ForInStep.yield PUnit.unit)) : W PUnit) >>= g) k = g PUnit.unit k := by
  refine W.bind_of_ok ?_
  induction us with
  | nil => rfl
  | cons u us ih =>
    obtain ⟨hu, hus⟩ := List.forall_mem_cons.mp h
    have hstep : (checkHeader u >>= fun _ => pure (ForInStep.yield PUnit.unit) : W (ForInStep PUnit)) k = .ok (.yield PUnit.unit, k) :=
      W.bind_of_ok (checkHeader_of_good hu k)
    rw [List.forIn_cons, W.bind_of_ok hstep]
    exact ih hus

end

/-- An arrangement with a batch as a new run, where the batch holds records (R256). -/
def Arr.appended (x : Arr) (rs : List ARec) : Arr := if rs.isEmpty = true then x else { x with runs := x.runs ++ [rs] }

/-- What AINS does once it has checked its batch: a new run is written, and d takes the number of runs (R256). -/
theorem appendRun_gives {d at_ : Nat} {v : DWord} {x : Arr} {rs : List ARec} {k₃ k₄ k₅ k : Wk}
    (hwr : if rs = [] then k₅ = k₃
      else ({ x with runs := x.runs ++ [rs] } : Arr).fit = true ∧ Terms.gives (writerOf at_) k₃ () k₄ ∧
        Terms.gives (writeArr v { x with runs := x.runs ++ [rs] } x.runs.length) k₄ () k₅)
    (hd : Terms.gives (wrS d (Terms.statusOf false (x.runs.length + if rs = [] then 0 else 1))) k₅ () k) :
    (if (!rs.isEmpty) = true then
        if (!(x.appended rs).fit) = true then (W.illop 2 : W Unit) >>= fun _ => writerOf at_ >>= fun _ =>
          writeArr v (x.appended rs) x.runs.length >>= fun _ => wrS d (arrStatus false (x.appended rs).runs.length)
        else writerOf at_ >>= fun _ => writeArr v (x.appended rs) x.runs.length >>= fun _ =>
          wrS d (arrStatus false (x.appended rs).runs.length)
      else wrS d (arrStatus false (x.appended rs).runs.length)) k₃ = .ok ((), k) := by
  rw [← arrStatus_eq] at hd
  cases rs with
  | nil =>
    obtain rfl := (if_pos rfl).mp hwr
    exact hd
  | cons r rs =>
    obtain ⟨hfit, hwriter, hput⟩ := (if_neg (List.cons_ne_nil r rs)).mp hwr
    have hlen : (x.appended (r :: rs)).runs.length = x.runs.length + 1 := List.length_append
    have hok : ¬ (!(x.appended (r :: rs)).fit) = true := by simp [show (x.appended (r :: rs)).fit = true from hfit]
    rw [if_neg (List.cons_ne_nil r rs)] at hd
    refine (W.past_check hok).trans ((W.bind_of_ok hwriter).trans ((W.bind_of_ok hput).trans ?_))
    rw [hlen]
    exact hd

section
variable {s : State} {i : Inst} (ht : Terms.OnTurn s i) {d a b c : BitVec 5} {v w : DWord} {at_ : Nat} {x : Arr}
  {us : List Slot} {k k₁ k₂ k₃ k₄ k₅ : Wk} (hv : Terms.gives (rdPair a.toNat) ⟨s, i⟩ v ⟨s, i⟩)

/-! ### ACON and AINS (R255, R256) -/

/-- What ACON leaves of a region: its changes consolidated, then its other units (R255). -/
def aconUnits (us : List Slot) : List Slot := (consolidate (changes us)).1.map (fun x => x.unit 0 0) ++ us.filter (fun u => uKind u != 1)

include ht hv

theorem acon_completes {n : Word} (hn : Terms.gives (rdS b.toNat) ⟨s, i⟩ n ⟨s, i⟩) (hmax : n.toNat ≤ 16384)
    (hat : Terms.gives (arrPlace v 32) ⟨s, i⟩ at_ ⟨s, i⟩) (hclaim : Terms.gives (claimArr [at_]) ⟨s, i⟩ () k₁)
    (hus : Terms.gives (readUnits v n.toNat) k₁ us k₂) (hch : ∀ u ∈ us, isChange u = true ∧ badHeader (lane u 7) = false)
    (hwr : if aconUnits us = [] then k₃ = k₂ else Terms.gives (writerOf at_) k₂ () k₃)
    (hput : Terms.gives (writePtr v 0 ((aconUnits us).flatMap (fun u => leBytes 32 u.toNat))) k₃ () k₄)
    (hd : Terms.gives (wrS d.toNat (Terms.statusOf (consolidate (changes us)).2 (aconUnits us).length)) k₄ () k) :
    Terms.completes (.acon d a b) s k := by
  have hall : ¬ us.any (fun u => !isChange u) = true := by simpa using fun u hu => (hch u hu).1
  rw [← arrStatus_eq] at hd
  refine completes_of_ok rfl ht ?_
  rw [W.bind_of_ok hv, W.bind_of_ok hn]
  refine (W.past_check (Nat.not_lt.mpr hmax)).trans ((W.bind_of_ok hat).trans ((W.bind_of_ok hclaim).trans ((W.bind_of_ok hus).trans ?_)))
  refine (W.past_check hall).trans ((checkHeaders_then _ fun u hu => (hch u hu).2).trans ?_)
  refine (unless_nil_then _ hwr).trans ?_
  exact (W.bind_of_ok hput).trans hd

theorem ains_completes {n : Word} {bt : Nat} (hw : Terms.gives (rdPair b.toNat) ⟨s, i⟩ w ⟨s, i⟩)
    (hn : Terms.gives (rdS c.toNat) ⟨s, i⟩ n ⟨s, i⟩) (hmax : n.toNat ≤ 16384) (hat : Terms.gives (arrPlace v 64) ⟨s, i⟩ at_ ⟨s, i⟩)
    (hbt : Terms.gives (arrPlace w 32) ⟨s, i⟩ bt ⟨s, i⟩) (hclaim : Terms.gives (claimArr [at_]) ⟨s, i⟩ () k₁)
    (hx : Terms.gives (readArr v) k₁ x k₂) (hroom : x.runs.length ≠ 16) (hus : Terms.gives (readUnits w n.toNat) k₂ us k₃)
    (hch : ∀ u ∈ us, uKind u ≠ 0 ∧ badHeader (lane u 7) = false) (hcons : consolidated (changes us) = true)
    (hwr : if changes us = [] then k₅ = k₃
      else ({ x with runs := x.runs ++ [changes us] } : Arr).fit = true ∧ Terms.gives (writerOf at_) k₃ () k₄ ∧
        Terms.gives (writeArr v { x with runs := x.runs ++ [changes us] } x.runs.length) k₄ () k₅)
    (hd : Terms.gives (wrS d.toNat (Terms.statusOf false (x.runs.length + if changes us = [] then 0 else 1))) k₅ () k) :
    Terms.completes (.ains d a b c) s k := by
  have hdata : ¬ us.any (fun u => uKind u == 0) = true := by simpa using fun u hu => (hch u hu).1
  have hbad : ¬ (!consolidated (changes us)) = true := by simp [hcons]
  refine completes_of_ok rfl ht ?_
  rw [W.bind_of_ok hv, W.bind_of_ok hw, W.bind_of_ok hn]
  refine (W.past_check (Nat.not_lt.mpr hmax)).trans ((W.bind_of_ok hat).trans ((W.bind_of_ok hbt).trans ((W.bind_of_ok hclaim).trans ?_)))
  refine (W.bind_of_ok hx).trans ((W.past_check hroom).trans ((W.bind_of_ok hus).trans ?_))
  refine (checkHeaders_then _ fun u hu => (hch u hu).2).trans ((W.past_check hdata).trans ?_)
  exact (W.past_check hbad).trans (appendRun_gives hwr hd)

/-! ### AMRG and ACMP (R257, R258) -/

theorem amrg_completes {n : Word} (hu : Terms.unitFree s i) (hn : Terms.gives (rdS b.toNat) ⟨s, i⟩ n ⟨s, i⟩)
    (hat : Terms.gives (arrPlace v 64) ⟨s, i⟩ at_ ⟨s, i⟩) (hclaim : Terms.gives (claimArr [at_]) ⟨s, i⟩ () k₁)
    (hx : Terms.gives (readArr v) k₁ x k₂) (h2 : 2 ≤ n.toNat) (h16 : n.toNat ≤ 16) (hruns : n.toNat ≤ x.runs.length) :
    let keep := x.runs.take (x.runs.length - n.toNat)
    let old := (x.runs.drop (x.runs.length - n.toNat)).flatten
    let r := consolidate old
    let y : Arr := { x with runs := keep ++ groups (2 ^ 24 - 1) n.toNat r.1 }
    recCount x.runs + old.length ≤ x.caprec → keyCount y.runs ≤ x.kcap → Terms.gives (writerOf at_) k₂ () k₃ →
    Terms.gives (writeArr v y keep.length) k₃ () k₄ → Terms.gives (wrS d.toNat (Terms.statusOf r.2 r.1.length)) k₄ () k →
    Terms.completes (.amrg d a b) s k := by
  intro keep old r y hrec hkey hwriter hput hd
  have hcount : ¬ (n.toNat < 2 ∨ 16 < n.toNat ∨ x.runs.length < n.toNat) := by omega
  rw [← arrStatus_eq] at hd
  refine completes_of_ok rfl ht ?_
  rw [W.bind_of_ok (unit_of_free hu), W.bind_of_ok hv, W.bind_of_ok hn, W.bind_of_ok hat, W.bind_of_ok hclaim, W.bind_of_ok hx]
  refine (W.past_check hcount).trans ((W.past_check (Nat.not_lt.mpr hrec)).trans ((W.past_check (Nat.not_lt.mpr hkey)).trans ?_))
  exact (W.bind_of_ok hwriter).trans ((W.bind_of_ok hput).trans hd)

theorem acmp_completes (hu : Terms.unitFree s i) :
    let f := Terms.latched ⟨s, i⟩ b.toNat
    Terms.gives (arrPlace v 64) f.2 at_ f.2 → Terms.gives (claimArr [at_]) f.2 () k₁ → Terms.gives (readArr v) k₁ x k₂ →
    let ts := f.1.times.take 4
    (∀ t ∈ ts, ∃ u ∈ x.since, Terms.before u t) →
    let rs := x.runs.map (fun r => consolidate (r.map (fun y => { y with time := Terms.advanced ts y.time })))
    let y : Arr := { x with runs := (rs.map (fun r => r.1)).filter (fun r => !r.isEmpty), since := ts }
    Terms.gives (writerOf at_) k₂ () k₃ → Terms.gives (writeArr v y 0) k₃ () k₄ → Terms.gives (writeSince v y) k₄ () k₅ →
    Terms.gives (wrS d.toNat (Terms.statusOf (rs.any (fun r => r.2)) y.runs.length)) k₅ () k → Terms.completes (.acmp d a b) s k := by
  intro f hat hclaim hx ts hadv rs y hwriter hput hsince hd
  have hok : ¬ ts.any (fun t => !inAdvance t x.since) = true := by
    simpa only [List.any_eq_true, Bool.not_eq_true', not_exists, not_and, Bool.not_eq_false, inAdvance_iff] using hadv
  rw [← arrStatus_eq] at hd
  refine completes_of_ok rfl ht ?_
  rw [W.bind_of_ok (unit_of_free hu), W.bind_of_ok hv, W.bind_of_ok (rdFrontier_latched ..)]
  simp only [advance_eq_advanced]
  refine (W.bind_of_ok hat).trans ((W.bind_of_ok hclaim).trans ((W.bind_of_ok hx).trans ((W.past_check hok).trans ?_)))
  exact (W.bind_of_ok hwriter).trans ((W.bind_of_ok hput).trans ((W.bind_of_ok hsince).trans hd))

/-! ### APRB and JOIN (R260, R261) -/

variable {port : BitVec 2}

theorem aprb_completes {key : DWord} (hkey : Terms.gives (rdPair b.toNat) ⟨s, i⟩ key ⟨s, i⟩)
    (hat : Terms.gives (arrPlace v 64) ⟨s, i⟩ at_ ⟨s, i⟩) (hclaim : Terms.gives (claimArr [at_]) ⟨s, i⟩ () k₁)
    (hx : Terms.gives (readArr v) k₁ x k₂) :
    let rs := x.runs.flatten.filter (fun r => r.key == key)
    let us := Terms.lastMarked (fun (r : ARec) f => r.slot (header 0 k₂.i.tag f)) (if rs = [] then [⟨key, 0, 0, 0⟩] else rs)
    Terms.gives (wrS d.toNat (BitVec.ofNat 32 rs.length)) (Terms.withEff k₂ (.arm port.toNat (.units us))) () k →
    Terms.completes (.aprb d a b port) s k := by
  intro rs us hd
  refine completes_of_ok rfl ht ?_
  rw [W.bind_of_ok hv, W.bind_of_ok hkey, W.bind_of_ok hat, W.bind_of_ok hclaim, W.bind_of_ok hx]
  simp only [List.isEmpty_iff]
  rw [W.bind_of_ok (W.get_apply k₂)]
  exact (W.bind_of_ok (W.eff_apply ..)).trans hd

/-- The rows of JOIN: each stored record with each probe of its key, in the order of the records (R261). -/
def joinRows (x : Arr) (probes : List ARec) (vs : BitVec 1) (ks : BitVec 2) : List ARec :=
  x.runs.flatten.flatMap (fun r => (probes.filter (fun q => q.key == r.key)).map (fun q =>
    ⟨if ks = 0 then q.key else if ks = 1 then q.val else r.val, if vs = 1 then r.val else q.val, tJoin q.time r.time, q.diff * r.diff⟩))

theorem join_completes {vs : BitVec 1} {ks : BitVec 2} (hat : Terms.gives (arrPlace v 64) ⟨s, i⟩ at_ ⟨s, i⟩)
    (hclaim : Terms.gives (claimArr [at_]) ⟨s, i⟩ () k₁) (hx : Terms.gives (readArr v) k₁ x k₂)
    (hus : Terms.gives (rdRest b.toNat) k₂ us k₃) (hkind : ∀ u ∈ us, uKind u ≠ 0) :
    let ps := us.filter (fun u => uKind u == 1)
    ps.length ≤ 1024 →
    let rows := joinRows x (ps.map recOf) vs ks
    (∀ r ∈ rows, -2 ^ 31 ≤ r.diff ∧ r.diff < 2 ^ 31) →
    let rep := if ∃ u ∈ ps, (uFlags u).getLsbD 1 = true then 2 else 0
    let out := us.filter (fun u => uKind u != 1) ++ Terms.lastMarked (fun r f => r.unit k₃.i.tag (rep + f)) rows
    Terms.gives (wrS d.toNat (BitVec.ofNat 32 rows.length)) (Terms.withEff k₃ (.arm port.toNat (.units out))) () k →
    Terms.completes (.join d a b vs ks port) s k := by
  intro ps hps rows hfit rep out hd
  have hok : ¬ (us.any (fun u => uKind u == 0) = true ∨ 1024 < ps.length) := by
    simpa [not_or] using And.intro hkind hps
  have hnone : rows.find? (fun r => !fits32 r.diff) = none := by
    simpa [List.find?_eq_none, fits32] using hfit
  refine completes_of_ok rfl ht ?_
  rw [W.bind_of_ok hv, W.bind_of_ok hat, W.bind_of_ok hclaim, W.bind_of_ok hx, W.bind_of_ok hus]
  refine (W.past_check hok).trans ?_
  change (match rows.find? (fun r => !fits32 r.diff) with | some _ => _ | none => _ : W Unit) k₃ = _
  rw [hnone]
  simp only [List.any_eq_true]
  rw [W.bind_of_ok (W.get_apply k₃)]
  exact (W.bind_of_ok (W.eff_apply ..)).trans hd

end

/-! ### RED (R262, R263) -/

/-- The corrections of a batch, key by key in rising order of the keys (R262; log 46). -/
def redCorrections (rk : Nat) (batch : List ARec) (x y : Arr) : W (List ARec) :=
  (sortBy (fun (x y : DWord) => decide (x.toNat < y.toNat)) (batch.map (fun r => r.key)).dedup).foldlM (fun l q => do
    pure (l ++ (← redKey rk q batch (x.runs.flatten.filter (fun r => r.key == q)) (y.runs.flatten.filter (fun r => r.key == q))))) []

/-- An arrangement with corrections, consolidated, as a new run (R262). -/
def Arr.corrected (y : Arr) (cs : List ARec) : Arr := { y with runs := y.runs ++ [(consolidate cs).1] }

/-- What RED does with its corrections: they are sent and written as a run, and d takes their number (R262). -/
theorem correct_gives {d port pb : Nat} {vb : DWord} {y : Arr} {cs : List ARec} {k₄ k₅ k₆ k : Wk}
    (hwr : if cs = [] then k₆ = k₄
      else (y.corrected cs).fit = true ∧ Terms.gives (writerOf pb) k₄ () k₅ ∧ Terms.gives (writeArr vb (y.corrected cs) y.runs.length)
        (Terms.withEff k₅ (.arm port (.units (Terms.lastMarked (fun r f => r.unit k₅.i.tag f) cs)))) () k₆)
    (hd : Terms.gives (wrS d (BitVec.ofNat 32 cs.length)) k₆ () k) :
    (if (!cs.isEmpty) = true then
        if (!(y.corrected cs).fit) = true then (W.illop 2 : W Unit) >>= fun _ => writerOf pb >>= fun _ => (get : W Wk) >>= fun k =>
          W.eff (.arm port (.units (Terms.lastMarked (fun r f => r.unit k.i.tag f) cs))) >>= fun _ =>
          writeArr vb (y.corrected cs) y.runs.length >>= fun _ => wrS d (BitVec.ofNat 32 cs.length)
        else writerOf pb >>= fun _ => (get : W Wk) >>= fun k =>
          W.eff (.arm port (.units (Terms.lastMarked (fun r f => r.unit k.i.tag f) cs))) >>= fun _ =>
          writeArr vb (y.corrected cs) y.runs.length >>= fun _ => wrS d (BitVec.ofNat 32 cs.length)
      else wrS d (BitVec.ofNat 32 cs.length)) k₄ = .ok ((), k) := by
  cases cs with
  | nil =>
    obtain rfl := (if_pos rfl).mp hwr
    exact hd
  | cons r cs =>
    obtain ⟨hfit, hwriter, hput⟩ := (if_neg (List.cons_ne_nil r cs)).mp hwr
    have hok : ¬ (!(y.corrected (r :: cs)).fit) = true := by simp [hfit]
    refine (W.past_check hok).trans ((W.bind_of_ok hwriter).trans ((W.bind_of_ok (W.get_apply k₅)).trans ?_))
    exact (W.bind_of_ok (W.eff_apply ..)).trans ((W.bind_of_ok hput).trans hd)

theorem red_completes {s : State} {i : Inst} (ht : Terms.OnTurn s i) {d a b : BitVec 5} {rk : BitVec 3} {port : BitVec 2} {va vb : DWord}
    {pa pb : Nat} {x y : Arr} {cs : List ARec} {k k₁ k₂ k₃ k₄ k₅ k₆ : Wk} (ha : Terms.gives (rdPair a.toNat) ⟨s, i⟩ va ⟨s, i⟩)
    (hb : Terms.gives (rdPair b.toNat) ⟨s, i⟩ vb ⟨s, i⟩) (hpa : Terms.gives (arrPlace va 64) ⟨s, i⟩ pa ⟨s, i⟩)
    (hpb : Terms.gives (arrPlace vb 64) ⟨s, i⟩ pb ⟨s, i⟩) (hclaim : Terms.gives (claimArr [pa, pb]) ⟨s, i⟩ () k₁)
    (hx : Terms.gives (readArr va) k₁ x k₂) (hy : Terms.gives (readArr vb) k₂ y k₃)
    (hcs : Terms.gives (redCorrections rk.toNat (x.runs.getLast?.getD []) x y) k₃ cs k₄)
    (hwr : if cs = [] then k₆ = k₄
      else (y.corrected cs).fit = true ∧ Terms.gives (writerOf pb) k₄ () k₅ ∧ Terms.gives (writeArr vb (y.corrected cs) y.runs.length)
        (Terms.withEff k₅ (.arm port.toNat (.units (Terms.lastMarked (fun r f => r.unit k₅.i.tag f) cs)))) () k₆)
    (hd : Terms.gives (wrS d.toNat (BitVec.ofNat 32 cs.length)) k₆ () k) : Terms.completes (.red d a b rk port) s k := by
  refine completes_of_ok rfl ht ?_
  rw [W.bind_of_ok ha, W.bind_of_ok hb, W.bind_of_ok hpa, W.bind_of_ok hpb, W.bind_of_ok hclaim, W.bind_of_ok hx, W.bind_of_ok hy]
  exact (W.bind_of_ok hcs).trans (correct_gives hwr hd)

/-- Settles O37: each word by the lemma of what it completes with; the order and the joins of times by `inAdvance_iff`, `tJoin_eq` and
`advance_eq_advanced`. -/
theorem arrangementWords : Obligations.ArrangementWords := by
  unfold Obligations.ArrangementWords
  intro s i d a b c vs ks port rk ht
  refine ⟨fun v n at_ k₁ us k₂ k₃ k₄ k hv hn hmax hat hclaim hus hch => acon_completes ht hv hn hmax hat hclaim hus hch,
    fun v w n at_ bt k₁ x k₂ us k₃ k₄ k₅ k hv hw hn hmax hat hbt hclaim hx hroom hus hch =>
      ains_completes ht hv hw hn hmax hat hbt hclaim hx hroom hus hch,
    fun hu v n at_ k₁ x k₂ k₃ k₄ k hv hn hat hclaim hx h2 h16 hruns => amrg_completes ht hv hu hn hat hclaim hx h2 h16 hruns,
    fun hu v at_ k₁ x k₂ k₃ k₄ k₅ k hv => acmp_completes ht hv hu,
    fun v key at_ k₁ x k₂ k hv hkey hat hclaim hx => aprb_completes ht hv hkey hat hclaim hx,
    fun v at_ k₁ x k₂ us k₃ k hv hat hclaim hx hus hkind => ?_,
    fun va vb pa pb k₁ x k₂ y k₃ cs k₄ k₅ k₆ k ha hb hpa hpb hclaim hx hy hcs hwr hd =>
      red_completes ht ha hb hpa hpb hclaim hx hy hcs hwr hd⟩
  intro ps hps rows hfit rep out hd
  have hrows : rows = joinRows x (ps.map recOf) vs ks := by simp only [rows, joinRows, tJoin_eq]
  rw [hrows] at hfit
  refine join_completes ht hv hat hclaim hx hus hkind hps hfit ?_
  rw [← hrows]
  exact hd

end Sys2Proof.Machine
end

section
/-! PROOFS of the family of the memory instructions: the full/empty forms LDF, LDFE, STE, STF and FECLR (R213, R215, R233, R316). -/

namespace Sys2Proof.Machine

/-! ### The place of a full/empty form (R215) -/

section
variable {k : Wk} {a : BitVec 5} {o : BitVec 12} {n : Nat} {who : Asker} {v : DWord} {pl : Place} {eff : DWord}

theorem fePointer_of_fe (hv : Terms.gives (rdPair a.toNat) k v k) (hp : Terms.gives (wPointer v (o.toInt * 8) 8 n who) k (pl, eff) k)
    (hf : pl.fe = true) : fePointer a o n who k = .ok ((pl, eff), k) := by
  rw [fePointer, W.bind_of_ok hv, W.bind_of_ok hp, hf]
  rfl

theorem fePointer_of_not_fe (hv : Terms.gives (rdPair a.toNat) k v k) (hp : Terms.gives (wPointer v (o.toInt * 8) 8 n who) k (pl, eff) k)
    (hf : pl.fe = false) : fePointer a o n who k = .error (.fault .illop 2 (Terms.wordAt k)) := by
  rw [fePointer, W.bind_of_ok hv, W.bind_of_ok hp, hf]
  exact W.bind_of_error (W.illop_apply ..)

end

/-! ### What the owner step of a word of an instance leaves (R313, R316) -/

/-- An owner step that is enabled notes the instances that wait in a FENCE, and nothing else. -/
theorem eq_of_ownTest {s u : State} {p e : Nat} {i : Inst} {sc : Scope} {pl : Place} {ws : List Nat} (h : s.ownTest p e i sc pl ws = some u) :
    u = s.setElem p e ((s.elem p e).noteFence i.id) := by
  simp only [State.ownTest] at h
  split at h
  · exact (Option.some.inj h).symm
  · exact nomatch h

section
variable {s u : State} {p e : Nat} {i : Inst} {sc : Scope} {pl : Place} {ws : List Nat} (h : s.ownTest p e i sc pl ws = some u)
include h

theorem ownTest_cur : u.cur = s.cur := by rw [eq_of_ownTest h]; rfl

theorem ownTest_free : u.free = s.free := by rw [eq_of_ownTest h]; rfl

theorem ownTest_allMarked (l : List Nat) (b : Bool) : u.allMarked l b = s.allMarked l b := by rw [eq_of_ownTest h]; rfl

theorem ownTest_replay : (u.elem p e).replay = (s.elem p e).replay := by rw [eq_of_ownTest h, elem_setElem_same]; rfl

end

/-! ### LDF (R213, R316, R336) -/

section
variable {s : State} {i : Inst} (ht : Terms.OnTurn s i) {d a : BitVec 5} {o : BitVec 12} {sc : BitVec 3} {pl : Place} {eff : DWord}
include ht

theorem holdsMore_of_error {ins : Instr} {f : W Unit} {t : State} (he : exec ins s = runWord f s) (h : f ⟨s, i⟩ = .error (.keep t)) :
    Terms.holdsMore ins s t i := by
  obtain ⟨hi, hf, hs⟩ := ht
  exact he.trans (runWord_of_keep hi hf hs h)

variable (hp : fePointer a o 8 .owner ⟨s, i⟩ = .ok ((pl, eff), ⟨s, i⟩))
include hp

theorem ldf_waits_of_closed (hu : s.ownTest s.cur.patch s.cur.el i (scopeOf sc) pl [pl.addr / 8] = none) :
    Terms.waits (.ldf d a o sc) s i none := by
  refine waits_of_error rfl ht ?_
  rw [W.bind_of_ok hp]
  exact W.bind_of_error (ownTest_of_none (k := ⟨s, i⟩) hu)

variable {u : State} (hu : s.ownTest s.cur.patch s.cur.el i (scopeOf sc) pl [pl.addr / 8] = some u)
include hu

section
variable (hl : Terms.local_ pl)
include hl

/-- The word is full: LDF reads it in the cycle in which its bank serves it, and stays queued where it does not. -/
theorem ldf_full (hm : s.allMarked [pl.addr / 8] true = true) :
    let served := u.present (.elem s.cur.patch s.cur.el) (ownId i.id i.pc (pl.addr / 8)) [false] [pl.addr / 8]
    let t := served.1.flushWords [pl.addr / 8]
    (served.2 = true → ∀ k', Terms.gives (wrPair d.toNat (t.ownWord pl.addr)) ⟨t, i⟩ () k' → Terms.completes (.ldf d a o sc) s k') ∧
    (served.2 = false → Terms.holdsMore (.ldf d a o sc) s served.1 i) := by
  refine ⟨fun hs k' hw => completes_of_ok rfl ht ?_, fun hs => holdsMore_of_error ht rfl ?_⟩ <;>
    rw [W.bind_of_ok hp] <;> dsimp only <;> rw [W.bind_of_ok (ownTest_of_some (k := ⟨s, i⟩) hu), W.bind_of_ok (W.get_apply _)] <;>
    simp only [module_of_local hl, Option.isSome_none, Bool.false_eq_true, if_false] <;>
    rw [W.bind_of_ok (W.agent_apply _)] <;>
    simp only [ownTest_cur hu, ownTest_allMarked hu, hm, hs, Bool.not_true, Bool.not_false, Bool.false_eq_true, if_true, if_false]
  · exact (W.bind_of_ok (W.set_apply ..)).trans hw
  · rfl

/-- The word is empty: LDF waits, and leaves the replay queue where it stands there. -/
theorem ldf_empty (hm : ¬ s.allMarked [pl.addr / 8] true = true) :
    let ag : AgentId := .elem s.cur.patch s.cur.el
    let n := ownId i.id i.pc (pl.addr / 8)
    let queued := ∃ r ∈ (s.elem s.cur.patch s.cur.el).replay, r.agent = ag ∧ r.id = n
    (queued → Terms.holdsMore (.ldf d a o sc) s (u.unpresent ag n (pl.addr / 8)) i) ∧
    (¬ queued → Terms.waits (.ldf d a o sc) s i none) := by
  intro ag n queued
  have hq : ((s.elem s.cur.patch s.cur.el).replay.any fun r => r.agent == ag && r.id == n) = true ↔ queued := by
    simp only [List.any_eq_true, Bool.and_eq_true, beq_iff_eq, queued]
  have hm' : (!s.allMarked [pl.addr / 8] true) = true := by simpa using hm
  refine ⟨fun h => holdsMore_of_error ht rfl ?_, fun h => waits_of_error rfl ht ?_⟩ <;>
    rw [W.bind_of_ok hp] <;> dsimp only <;> rw [W.bind_of_ok (ownTest_of_some (k := ⟨s, i⟩) hu), W.bind_of_ok (W.get_apply _)] <;>
    simp only [module_of_local hl, Option.isSome_none, Bool.false_eq_true, if_false] <;>
    rw [W.bind_of_ok (W.agent_apply _)] <;>
    simp only [ownTest_allMarked hu, hm', if_true] <;>
    rw [W.bind_of_ok (W.elem_apply _)] <;>
    simp only [ownTest_cur hu, ownTest_replay hu]
  · exact congrFun (if_pos (hq.mpr h)) _
  · exact congrFun (if_neg (mt hq.mp h)) _

end

/-- A word of another module: whether it is full, and what it holds, are free values (log 45). -/
theorem ldf_remote (hl : ¬ Terms.local_ pl) {k' : Wk}
    (hw : Terms.gives (wrPair d.toNat (Config.freeDWord (s.free + 1))) ⟨{ u with free := s.free + 2 }, i⟩ () k') :
    if Config.freeBool s.free then Terms.waits (.ldf d a o sc) s i none else Terms.completes (.ldf d a o sc) s k' := by
  have hmod : pl.module.isSome = true := by
    have : remoteBase ≤ pl.addr ∧ pl.addr < vaultBase := by simpa [Terms.local_] using hl
    rw [Place.module, if_pos this]
    rfl
  have hdraw : W.freeBool ⟨u, i⟩ = .ok (Config.freeBool s.free, ⟨{ u with free := s.free + 1 }, i⟩) := by
    rw [← ownTest_free hu]
    rfl
  split
  case isTrue hf =>
    refine waits_of_error rfl ht ?_
    rw [W.bind_of_ok hp]
    dsimp only
    rw [W.bind_of_ok (ownTest_of_some (k := ⟨s, i⟩) hu), W.bind_of_ok (W.get_apply _)]
    simp only [hmod, if_true]
    rw [W.bind_of_ok hdraw, hf]
    rfl
  case isFalse hf =>
    refine completes_of_ok rfl ht ?_
    rw [W.bind_of_ok hp]
    dsimp only
    rw [W.bind_of_ok (ownTest_of_some (k := ⟨s, i⟩) hu), W.bind_of_ok (W.get_apply _)]
    simp only [hmod, if_true]
    rw [W.bind_of_ok hdraw, Bool.eq_false_iff.mpr hf]
    exact hw

end

/-! ### LDFE, STE, STF and FECLR (R213, R233) -/

section
variable {s : State} {i : Inst} (ht : Terms.OnTurn s i) {d a : BitVec 5} {o : BitVec 12} {sc : BitVec 3} {pl : Place} {eff : DWord}
include ht

section
variable (hp : fePointer a o 8 .owner ⟨s, i⟩ = .ok ((pl, eff), ⟨s, i⟩))
include hp

theorem ldfe_completes : Terms.completes (.ldfe d a o sc) s
    (Terms.withIrr ⟨s, i⟩ (.owner pl (scopeOf sc) false false .ldfe [d.toNat, d.toNat + 1] eff)) :=
  completes_of_ok rfl ht (W.bind_of_ok hp)

theorem ste_completes {x : DWord} (hx : Terms.gives (rdPair d.toNat) ⟨s, i⟩ x ⟨s, i⟩) : Terms.completes (.ste d a o sc) s
    (Terms.withIrr ⟨s, i⟩ (.owner pl (scopeOf sc) false false (.ste x) [] eff)) :=
  completes_of_ok rfl ht ((W.bind_of_ok hx).trans (W.bind_of_ok hp))

end

theorem stf_completes {x : DWord} (hx : Terms.gives (rdPair d.toNat) ⟨s, i⟩ x ⟨s, i⟩)
    (hp : fePointer a o 8 .plain ⟨s, i⟩ = .ok ((pl, eff), ⟨s, i⟩)) : Terms.completes (.stf d a o sc) s
    (Terms.withEff ⟨s, i⟩ (.store ⟨pl, Terms.spelled pl.addr 8 x.toNat, [(pl.addr / 8, true)], scopeOf sc, false, eff, false⟩)) := by
  refine completes_of_ok rfl ht ((W.bind_of_ok hx).trans ((W.bind_of_ok hp).trans ?_))
  rw [← bytesAt_eq_spelled]
  exact W.eff_apply ..

theorem feclr_faults {x : Word} (hx : Terms.gives (rdS d.toNat) ⟨s, i⟩ x ⟨s, i⟩) (hn : 65536 < x.toNat) :
    Terms.faults (.feclr d a o sc) s i .illop 2 (Terms.wordAt ⟨s, i⟩) := by
  refine faults_of_error rfl ht ?_
  rw [W.bind_of_ok hx]
  exact (congrFun (if_pos hn) _).trans (W.bind_of_error (W.illop_apply ..))

end

/-- The store of FECLR for one piece of its span: no bytes, and each word of the piece marked empty (R213). -/
def clearing (sc : Scope) (x : (Place × DWord) × Nat × Nat) : Eff :=
  .store ⟨x.1.1, [], (List.range (x.2.2 / 8)).map (fun j => (x.1.1.addr / 8 + j, false)), sc, false, x.1.2, false⟩

theorem forIn_eff_apply (l : List Eff) (k : Wk) :
    (forIn l PUnit.unit (fun x _ => W.eff x >>= fun _ => pure (ForInStep.yield PUnit.unit)) : W PUnit) k = .ok ((), Terms.withEffs k l) := by
  induction l generalizing k with
  | nil => rfl
  | cons x l ih =>
    have hstep : (W.eff x >>= fun _ => pure (ForInStep.yield PUnit.unit) : W (ForInStep PUnit)) k = .ok (.yield PUnit.unit, Terms.withEff k x) :=
      W.bind_of_ok (W.eff_apply x k)
    rw [List.forIn_cons, W.bind_of_ok hstep]
    exact ih _

theorem mapM_of_gives {α β : Type} {f : α → W β} {k : Wk} {l : List α} {ys : List β} (hlen : ys.length = l.length)
    (h : ∀ j (hj : j < l.length), f l[j] k = .ok (ys[j], k)) : l.mapM f k = .ok (ys, k) := by
  induction l generalizing ys with
  | nil =>
    obtain rfl := List.length_eq_zero_iff.mp hlen
    rfl
  | cons x l ih =>
    obtain ⟨y, ys, rfl⟩ := List.exists_cons_of_length_eq_add_one hlen
    have htail := ih (ys := ys) (by simpa using hlen) fun j hj => h (j + 1) (by simpa using hj)
    rw [List.mapM_cons]
    exact (W.bind_of_ok (h 0 (Nat.zero_lt_succ _))).trans (W.bind_of_ok htail)

/-- FECLR, where its span and every piece of it lie in memory with full/empty bits: one store for each piece. -/
theorem feclr_completes {s : State} {i : Inst} (ht : Terms.OnTurn s i) {d a : BitVec 5} {o : BitVec 12} {sc : BitVec 3} {pl : Place} {eff : DWord}
    {x : Word} {v : DWord} (hx : Terms.gives (rdS d.toNat) ⟨s, i⟩ x ⟨s, i⟩) (hv : Terms.gives (rdPair a.toNat) ⟨s, i⟩ v ⟨s, i⟩)
    (hn : x.toNat ≤ 65536) (hp : Terms.gives (wPointer v (o.toInt * 8) 8 (8 * x.toNat) .plain) ⟨s, i⟩ (pl, eff) ⟨s, i⟩) (hf : pl.fe = true)
    {parts : List (Nat × Nat)} (hparts : parts = pieces (v + BitVec.ofInt 64 (o.toInt * 8)).toNat (8 * x.toNat) 10)
    {ps : List (Place × DWord)} (hlen : ps.length = parts.length)
    (hps : ∀ j < parts.length, (ps.getD j (pl, 0)).1.fe = true ∧
      Terms.gives (wPointer v (o.toInt * 8 + (parts.getD j (0, 0)).1) 8 (parts.getD j (0, 0)).2 .plain) ⟨s, i⟩ (ps.getD j (pl, 0)) ⟨s, i⟩) :
    Terms.completes (.feclr d a o sc) s (Terms.withEffs ⟨s, i⟩ ((ps.zip parts).map (clearing (scopeOf sc)))) := by
  refine completes_of_ok rfl ht ?_
  rw [W.bind_of_ok hx]
  dsimp only
  rw [W.past_check (Nat.not_lt.mpr hn), W.bind_of_ok hv, W.bind_of_ok (fePointer_of_fe hv hp hf), ← hparts]
  refine (W.bind_of_ok (mapM_of_gives (ys := (ps.zip parts).map (clearing (scopeOf sc))) (by simp [hlen]) fun j hj => ?_)).trans
    (W.bind_of_ok (forIn_eff_apply _ _))
  obtain ⟨hfe, hw⟩ := hps j hj
  have hj' : j < ps.length := hlen ▸ hj
  rw [List.getD_eq_getElem _ _ hj'] at hfe hw
  rw [List.getD_eq_getElem _ _ hj] at hw
  rw [W.bind_of_ok hw]
  rw [W.past_check (by simp [hfe])]
  simp [clearing]

/-- Settles O35: the place by `fePointer_of_fe`, then each word by what it comes to there. -/
theorem fullEmptyWords : Obligations.FullEmptyWords := by
  unfold Obligations.FullEmptyWords
  intro s i d a o sc pl eff ht k ag bad
  refine ⟨?_, fun x hx ⟨v, hv, hp⟩ => ⟨fun hf => ?_, fun hf => stf_completes ht hx (fePointer_of_fe hv hp hf)⟩,
    fun x v hx hv => ⟨feclr_faults ht hx, fun hn hp hf ps hlen hps => feclr_completes ht hx hv hn hp hf rfl hlen hps⟩⟩
  · intro ⟨v, hv, hp⟩ w full n queued
    refine ⟨fun hf => ?_, fun hf => ?_⟩
    · have hno := fePointer_of_not_fe hv hp hf
      exact ⟨faults_of_error rfl ht (W.bind_of_error hno), faults_of_error rfl ht (W.bind_of_error hno)⟩
    · have hpl := fePointer_of_fe hv hp hf
      refine ⟨ldf_waits_of_closed ht hpl, fun u hu => ?_, ldfe_completes ht hpl, fun x hx => ste_completes ht hpl hx⟩
      exact ⟨fun hl hm => (ldf_full ht hpl hu hl hm).1, fun hl hm => (ldf_full (d := d) ht hpl hu hl hm).2,
        fun hl hm => (ldf_empty ht hpl hu hl hm).1, fun hl hm => (ldf_empty ht hpl hu hl hm).2, fun hl k' hw => ldf_remote ht hpl hu hl hw⟩
  · exact faults_of_error rfl ht ((W.bind_of_ok hx).trans (W.bind_of_error (fePointer_of_not_fe hv hp hf)))

end Sys2Proof.Machine
end

section
/-! PROOFS of the family of the memory instructions: the steps of the ordering machine (R302, R306, R307, R310), and why the statement
about them fails. -/

namespace Sys2Proof.Machine

/-! ### A load that fills an instance without having been made for it

The statement takes every load whose data go to an instance for one that the instance has made, and lets it see all that its element has
entered; it does not say that the access was made for that instance. A load that was not sees the stores before it in its agent's program
order alone (R302, R306). The model's own loads are all made for the instance that they fill (`loadAccess`): the clause fails for want of
that premise. -/

/-- A byte of this module's memory. -/
def strayPlace : Place := ⟨0x10010, .rc, false, false⟩

/-- A load of it to s0 of instance 0 of element 0, under number 0, made for no instance. -/
def strayLoad : Access :=
  ⟨0, .elem 0 0, .elem, strayPlace, .load 0x10010 1 (.inst 0 0 0 0 1 false false), false, false, false, 0, 0, 0, none⟩

/-- A store of 7 to it by the same element, under number 1. -/
def laterStore : Access :=
  ⟨1, .elem 0 0, .elem, strayPlace, .store ⟨strayPlace, [(0x10010, 7)], [], .elem, false, 0, false⟩, false, false, false, 0, 0, 1, none⟩

/-- An instance whose s registers are zero. -/
def strayInst : Inst := (default : Inst).fire Regs.reset

/-- The machine after reset, with the instance, the load and the store. -/
def strayState : State :=
  { State.reset with
    patches := [(0, { Patch.reset with elems := [(0, { Elem.reset with insts := [strayInst] })] })]
    ord := { Ordering.reset with accs := [strayLoad, laterStore], nextId := 2 } }

/-- s0 of instance 0 of element 0, in the state that an outcome goes on with. -/
def filledWord (r : Res) : Option Word :=
  match r with
  | .next t => ((t.elem 0 0).inst 0).map (fun i => i.r.s.getD 0 0)
  | _ => none

/-- The load reads 0 from memory: the store is numbered after it. -/
theorem filledWord_strayState : filledWord (exec (.readStep (.elem 0 0) 0) strayState) = some 0 := by decide +kernel

/-- Refutes O47: its clause for a load that fills an instance asks that the bytes be those that the element reads under its next number,
and not that the access be one of the instance's own; `strayLoad`, which is none, reads 0 where the clause has it read 7. -/
theorem not_orderingSteps : ¬ Obligations.OrderingSteps := by
  unfold Obligations.OrderingSteps
  intro h
  obtain ⟨_, _, hfill, _⟩ := h strayState (.elem 0 0) 0 strayLoad rfl
  have hexec := hfill 0x10010 1 (.inst 0 0 0 0 1 false false) [7] [] strayState 0 0 0 0 1 false false strayInst rfl rfl rfl
    (.inl (by decide)) (by decide +kernel) (by decide +kernel) (by decide +kernel) (by decide +kernel) (by decide +kernel) (by decide +kernel)
  have hread := filledWord_strayState
  rw [hexec] at hread
  exact absurd hread (by decide +kernel)

end Sys2Proof.Machine
end

section
/-! PROOFS of the family of the memory instructions: the engines' commands, from their triggers to their completion (R225, R227, R228, R230,
R232, R233, R339, R360, R369). -/

namespace Sys2Proof.Machine

/-! ### Triggers (R225, R230, R369) -/

/-- A predicate holds where some group that has a counter has none below its threshold, or no counter is in use (R230). -/
theorem predicate_iff (l : List (Nat × Nat × Nat)) :
    predicate l = true ↔ l = [] ∨ ∃ g < 4, (∃ c ∈ l, c.1 = g) ∧ ∀ c ∈ l, c.1 = g → c.2.1 ≤ c.2.2 := by
  have hgroup : ∀ g, (!(l.filter fun c => c.1 == g).isEmpty) = true ↔ ∃ c ∈ l, c.1 = g := fun g => by
    simp only [Bool.not_eq_true', ← Bool.not_eq_true, List.isEmpty_iff, List.filter_eq_nil_iff, beq_iff_eq, not_forall, not_not, exists_prop]
  simp only [predicate, Bool.or_eq_true, List.isEmpty_iff, List.any_eq_true, List.mem_range, Bool.and_eq_true, hgroup, List.all_eq_true,
    List.mem_filter, beq_iff_eq, decide_eq_true_eq, and_imp]

section
variable {s : State} {p j : Nat} {tr : Trigger} {k : EngKind} (htr : (s.patch p).triggers[j]? = some tr)
  (hk : engKind (bits (tr.cmd.getD 0 0) 59 56) = some k)
include htr hk

theorem exec_triggerEvaluate : exec (.triggerEvaluate p j) s = .next
    (if (tr.hit || s.triggerTrue tr) && !s.travels (s.partOf p) ((s.patch p).load.map (fun l => l.1)) then
      (s.setPatch p { s.patch p with triggers := (s.patch p).triggers.eraseIdx j }).startEngine p tr.el k tr.scope tr.cmd (tr.ptr + 64)
    else s) := by
  show execTriggerEvaluate p j s = _
  simp only [execTriggerEvaluate, htr, hk]
  split <;> rfl

end

/-- The trigger units look at every counter: each trigger remembers that its predicate has been true (R369). -/
theorem mem_watch {s : State} {p : Nat} {tr : Trigger} (h : (p, tr) ∈ s.patches.flatMap (fun x => x.2.triggers.map (fun t => (x.1, t)))) :
    (p, { tr with hit := tr.hit || s.triggerTrue tr }) ∈ s.watch.patches.flatMap (fun x => x.2.triggers.map (fun t => (x.1, t))) := by
  obtain ⟨x, hx, hin⟩ := List.mem_flatMap.mp h
  obtain ⟨t, ht, he⟩ := List.mem_map.mp hin
  obtain ⟨rfl, rfl⟩ := Prod.mk.inj he
  refine List.mem_flatMap.mpr ⟨(x.1, x.2.watch s.counter), List.mem_map_of_mem hx, ?_⟩
  have hlook : { t with hit := t.hit || s.triggerTrue t } ∈ (x.2.watch s.counter).triggers :=
    List.mem_map_of_mem (f := fun t : Trigger => { t with hit := t.hit || s.triggerTrue t }) ht
  exact List.mem_map_of_mem (f := fun t => (x.1, t)) hlook

/-! ### Moving data (R227, R339) -/

section
variable {s : State} {n : Nat} {x : Engine} (hx : s.engine n = some x)
include hx

section
variable (hm : s.moves x = true)
include hm

theorem exec_readStep_engine (k : Nat) : exec (.readStep (.engine n) k) s =
    .next (if gathers x.kind then s.indexStep x k else s.copyStep x k) := by
  show execReadStep (.engine n) k s = _
  simp only [execReadStep, hx, hm, if_true]

theorem exec_gatherBurst (hk : gathers x.kind = true) (k : Nat) : exec (.gatherBurst n k) s = .next (s.burstStep x k) := by
  show execGatherBurst n k s = _
  simp only [execGatherBurst, hx, hm, hk, Bool.and_self, if_true]

end

end

section
variable {s : State} {x : Engine} {k : Nat}

theorem copyStep_writes (hlt : k < x.steps) (hw : k ∉ x.wrote) {bs : List Byte} (hgot : smFind x.got k = some bs)
    (hall : x.apart = true ∨ x.allRead = true) {l : List (Place × Nat)}
    (hl : s.spans x.p x.e (blkDst x.block) (x.off k) 1 bs.length = .ok l) :
    s.copyStep x k = (s.issueStores (.engine x.n) (spanStores x.scope false (blkDst x.block + BitVec.ofNat 64 (x.off k)) l bs)).setEngine
      { x with got := smDel x.got k, wrote := k :: x.wrote, done := x.done + bs.length } := by
  have hopen : ¬ (x.steps ≤ k ∨ x.wrote.contains k = true) := by simp [hlt, hw]
  have hor : (x.apart || x.allRead) = true := by simpa using hall
  simp only [State.copyStep, if_neg hopen, hgot, hor, if_true, State.engineWrite, State.onSpan, hl]

theorem copyStep_reads (hlt : k < x.steps) (hw : k ∉ x.wrote) (hgot : smFind x.got k = none) (hlen : blkLen x.block ≠ 0)
    {l : List (Place × Nat)} (hl : s.spans x.p x.e (blkSrc x.block) (x.off k) 1 (x.count k) = .ok l)
    {bs bs' : List Byte} {s' t t' : State} {v' v'' : DWord}
    (hread : s.engineRead x.n (blkSrc x.block + BitVec.ofNat 64 (x.off k)) l = (.got bs s', v'))
    (hserved : s.present (.engine x.n) k [false] (l.flatMap (fun y => wordsAt y.1.addr y.2)) = (t, true))
    (hread' : t.engineRead x.n (blkSrc x.block + BitVec.ofNat 64 (x.off k)) l = (.got bs' t', v'')) :
    s.copyStep x k = (t'.setEngine { x with got := smSet x.got k bs' }).dropAnswers (.engine x.n) := by
  have hopen : ¬ (x.steps ≤ k ∨ x.wrote.contains k = true) := by simp [hlt, hw]
  simp only [State.copyStep, if_neg hopen, hgot, if_neg hlen, State.onSpan, hl, State.copyRead, State.onRead, hread, hserved, hread', if_true]

theorem indexStep_reads {c : Nat} (hc : 2 * c < blkLen x.block) (hgot : smFind x.got (2 ^ 32 + c) = none) {l : List (Place × Nat)}
    (hl : s.spans x.p x.e (blkIdx x.block) (8 * c) 1 (4 * min 2 (blkLen x.block - 2 * c)) = .ok l)
    {bs bs' : List Byte} {s' t t' : State} {v' v'' : DWord}
    (hread : s.engineRead x.n (blkIdx x.block + BitVec.ofNat 64 (8 * c)) l = (.got bs s', v'))
    (hserved : s.presentWords (.engine x.n) (pieceId c) [false] (l.flatMap (fun y => wordsAt y.1.addr y.2)) = (t, true))
    (hread' : t.engineRead x.n (blkIdx x.block + BitVec.ofNat 64 (8 * c)) l = (.got bs' t', v'')) :
    s.indexStep x c = (t'.setEngine { x with got := smSet x.got (2 ^ 32 + c) bs' }).dropAnswers (.engine x.n) := by
  have hopen : ¬ (Nat.min 2 (blkLen x.block - 2 * c) = 0 ∨ (smFind x.got (idxKey c)).isSome = true) := by
    simp only [idxKey, hgot, Option.isSome_none, Bool.false_eq_true, or_false]
    exact Nat.ne_of_gt (Nat.lt_min.mpr ⟨Nat.zero_lt_two, Nat.sub_pos_of_lt hc⟩)
  have hl' : s.spans x.p x.e (blkIdx x.block) (8 * c) 1 (4 * Nat.min 2 (blkLen x.block - 2 * c)) = .ok l := hl
  rw [State.indexStep]
  dsimp only
  rw [if_neg hopen]
  simp only [State.onSpan, hl', State.onRead, hread, hserved, hread', if_true, idxKey]

/-- A burst that has not been collected: it is the next of its list, and at most 64 of its gather engine are in flight (R339). -/
theorem burstStep_collects (hlt : k < x.steps) (hw : k ∉ x.wrote) (hlen : blkLen x.block ≠ 0) (hgot : smFind x.got k = none) {d g : Nat}
    {l : List (Place × Nat)} (hd : x.index k = some d)
    (hl : s.spans x.p x.e x.indexed (d * blkEsz x.block) (blkEsz x.block) (blkEsz x.block) = .ok l) (hg : s.gathererOf x k = some g) :
    s.burstStep x k = if s.nextInStack x g k = true ∧ s.inFlight g < 64 then
      (if x.kind = .gath then s.collect x (s.burstOf x g k) else s.fetch x (s.burstOf x g k)) else s := by
  have hopen : ¬ (x.steps ≤ k ∨ x.wrote.contains k = true) := by simp [hlt, hw]
  have hheld : (!s.nextInStack x g k || decide (64 ≤ s.inFlight g)) = true ↔ ¬ (s.nextInStack x g k = true ∧ s.inFlight g < 64) := by
    simp [imp_iff_not_or]
  simp only [State.burstStep, if_neg hopen, if_neg hlen, hd, State.onSpan, hl, hg, hgot, Option.isSome_none, Bool.false_eq_true, if_false,
    hheld, ite_not]

end

/-! ### Completion (R228, R232, R360) -/

section
variable {s : State} {n : Nat} {x : Engine} (hx : s.engine n = some x) (hf : x.frozen = false)
include hx hf

theorem exec_engineComplete_moving (hst : x.st = .moving) (hall : x.wrote.length = x.steps) (hset : s.engineSettled x = true) :
    exec (.engineComplete n) s = .next (s.engineRecord x) := by
  show execEngineComplete n s = _
  simp [execEngineComplete, hx, hf, hst, hall, hset]

theorem exec_engineComplete_finishing (hst : x.st = .finishing) (hset : s.engineSettled x = true) :
    exec (.engineComplete n) s = .next (s.engineRecord x) := by
  show execEngineComplete n s = _
  simp [execEngineComplete, hx, hf, hst, hset]

theorem exec_engineComplete_recorded (hst : x.st = .recorded) : exec (.engineComplete n) s = .next (s.engineFlag x) := by
  show execEngineComplete n s = _
  simp [execEngineComplete, hx, hf, hst]

theorem exec_migrateAbort (hst : x.st = .moving) (hb : s.hasBegun x = true) (hmig : (s.part x.part).migrate.isSome = true)
    (ht : (s.part x.part).migrateAt + 2000000 ≤ s.clock.ns) : exec (.migrateAbort n) s =
      .next (s.setEngine { x with st := .finishing, status := causeCode .migrateAbort, sub := 0, faddr := 0 }) := by
  show execMigrateAbort n s = _
  simp [execMigrateAbort, hx, hf, hst, hb, hmig, ht]

end

section
variable {s : State} {x : Engine}

theorem engineRecord_of_no_record (h : blkCr x.block = 0) :
    (x.status = 0 → s.engineRecord x = s.setEngine { x with st := .recorded }) ∧
    (x.status ≠ 0 → s.engineRecord x = (s.report x.p (xcause x.status x.sub true) x.faddr).cmdDone x.n) :=
  ⟨fun h0 => by simp [State.engineRecord, h, h0], fun h0 => by simp [State.engineRecord, h, h0]⟩

/-- The record's words: DONE above the sub-cause and the status, the failing pointer, the time, and 0 (R228). -/
theorem record_eq_spelled (hd : x.done < 2 ^ 32) (hsub : x.sub < 256) (hst : x.status < 256) (tsc : DWord) :
    x.record tsc = (Terms.spelled 0 8 (x.done * 2 ^ 32 + x.sub * 256 + x.status) ++ Terms.spelled 0 8 x.faddr.toNat ++
      Terms.spelled 0 8 tsc.toNat ++ Terms.spelled 0 8 0).map (fun c => c.2) := by
  have hspell : ∀ v, (Terms.spelled 0 8 v).map (fun c => c.2) = leBytes 8 v := fun v => by
    rw [leBytes_eq_map, Terms.spelled, List.map_map]
    rfl
  simp only [Engine.record, at64, Nat.mod_eq_of_lt hd, Nat.mod_eq_of_lt hsub, Nat.mod_eq_of_lt hst, List.map_append, hspell]

theorem engineRecord_of_record (h : blkCr x.block ≠ 0) {l : List (Place × Nat)} (hl : s.spans x.p x.e (blkCr x.block) 0 32 32 = .ok l) :
    s.engineRecord x = (s.issueStores (.engine x.n) (spanStores x.scope true (blkCr x.block) l (x.record s.clock.tsc))).setEngine
      { x with st := .recorded } := by
  simp only [State.engineRecord, if_neg h, hl]

theorem engineFlag_of_none (hset : s.engineSettled x = true) (h : blkFlag x.block = 0 ∨ x.status ≠ 0) : s.engineFlag x = s.engineLeft x := by
  simp only [State.engineFlag, hset, Bool.not_true, Bool.false_eq_true, if_false, if_pos h]

theorem engineFlag_of_local (hset : s.engineSettled x = true) (hfl : blkFlag x.block ≠ 0) (hst : x.status = 0) {pl : Place} {s' : State}
    {r : DWord} (hp : (s.pointer x.p x.e (blkFlag x.block) 0 4 4 .owner).res = .ok pl) (hl : Terms.local_ pl)
    (ho : s.tryOwner (.engine x.n) x.part pl x.scope false true (.signal (blkInc x.block))
      (s.pointer x.p x.e (blkFlag x.block) 0 4 4 .owner).eff = .ok s' r) : s.engineFlag x = s'.engineLeft x := by
  have hgo : ¬ (blkFlag x.block = 0 ∨ x.status ≠ 0) := not_or.mpr ⟨hfl, not_not_intro hst⟩
  simp only [State.engineFlag, hset, Bool.not_true, Bool.false_eq_true, if_false, if_neg hgo, hp, module_of_local hl, ho]

/-- A command that is complete is in the machine no longer, and the others are. -/
theorem engineLeft_engine (j : Nat) : (s.engineLeft x).engine j = if j = x.n then none else s.engine j := by
  have heng : (s.engineLeft x).engines = s.engines.filter (fun y => y.n != x.n) := by
    simp only [State.engineLeft]
    split <;> rfl
  rw [State.engine, heng, List.find?_filter]
  by_cases hj : j = x.n
  · rw [if_pos hj, List.find?_eq_none]
    simp [hj]
  · rw [if_neg hj, State.engine]
    refine congrArg (fun f => s.engines.find? f) (funext fun y => ?_)
    by_cases hy : y.n = j <;> simp [hy, hj]

end

/-- Settles O50: the triggers by what they evaluate to, each step of a command by the lemma of its case. -/
theorem engineCommands : Obligations.EngineCommands := by
  unfold Obligations.EngineCommands
  intro s
  refine ⟨predicate_iff, fun p j tr k htr hk => ?_, fun p tr h => mem_watch h, fun n x hx hf => ?_⟩
  · rw [exec_triggerEvaluate htr hk]
    refine ⟨fun hnow hgoes => ?_, fun hno => ?_⟩
    · have hdue : (tr.hit || s.triggerTrue tr) = true := (Bool.or_eq_true ..).mpr hnow
      rw [hdue, hgoes]
      rfl
    · refine congrArg _ (if_neg ?_)
      rw [Bool.and_eq_true, Bool.or_eq_true, Bool.not_eq_true']
      rintro ⟨hdue, hgoes⟩
      obtain ⟨hhit, hnow⟩ | htravels := hno
      · exact hdue.elim (fun h => absurd (hhit.symm.trans h) Bool.false_ne_true) fun h => absurd (hnow.symm.trans h) Bool.false_ne_true
      · exact htravels hgoes
  · have hcopy : x.kind = .cpy ∨ x.kind = .flagst → gathers x.kind = false := by rintro (h | h) <;> rw [h] <;> rfl
    have hgath : x.kind = .gath ∨ x.kind = .scat → gathers x.kind = true := by rintro (h | h) <;> rw [h] <;> rfl
    have hread : s.moves x = true → (x.kind = .cpy ∨ x.kind = .flagst) → ∀ k, exec (.readStep (.engine n) k) s = .next (s.copyStep x k) :=
      fun hm hk k => by rw [exec_readStep_engine hx hm, hcopy hk]; rfl
    refine ⟨fun hm k hlt hw => ⟨fun hk bs hgot hall l hl => ?_, fun hk hgot hlen l bs bs' s' t t' v' v'' hl h₁ h₂ h₃ => ?_,
        fun hk => exec_gatherBurst hx hm (hgath hk) k, fun hk hlen hgot d l g hd hl hg => ?_⟩,
      fun hm hk c hc hgot l bs bs' s' t t' v' v'' hl h₁ h₂ h₃ => ?_, exec_engineComplete_moving hx hf, exec_engineComplete_finishing hx hf,
      engineRecord_of_no_record, fun hcr l hl hd hsub hst => ?_, fun hst hset => ⟨fun h => ?_, fun hfl h0 pl s' r hp hl ho => ?_⟩,
      engineLeft_engine, exec_migrateAbort hx hf⟩
    · rw [hread hm hk, copyStep_writes hlt hw hgot hall hl]
    · rw [hread hm hk, copyStep_reads hlt hw hgot hlen hl h₁ h₂ h₃]
    · rw [exec_gatherBurst hx hm (hgath hk), burstStep_collects hlt hw hlen hgot hd hl hg]
    · rw [exec_readStep_engine hx hm, hgath hk, if_pos rfl, indexStep_reads hc hgot hl h₁ h₂ h₃]
    · rw [engineRecord_of_record hcr hl, record_eq_spelled hd hsub hst]
    · rw [exec_engineComplete_recorded hx hf hst, engineFlag_of_none hset h]
    · rw [exec_engineComplete_recorded hx hf hst, engineFlag_of_local hset hfl h0 hp hl ho]

end Sys2Proof.Machine
end

section
/-! SUPPORT. What reading flat memory leaves of the device's own registers, and what taking and giving patches leaves of partitions (R306, R383,
R411, R429). -/

namespace Sys2Proof.Machine

/-! ### Reads leave the device's registers alone -/

/-- What an access has come to leaves these registers of the device. -/
def Via.OnDevice (d : Device) : Via → Prop
  | .wait t _ | .got _ t | .fault _ _ t => t.device = d

/-- A read of many bytes leaves these registers of the device. -/
def Bulk.OnDevice (d : Device) : Bulk → Prop
  | .ok _ t | .wait t | .fault _ _ _ t => t.device = d

theorem readNow_device {s t : State} {ag : AgentId} {sc : Scope} {pl : Place} {n : Nat} {bs : List Byte}
    (h : s.readNow ag sc pl n = some (bs, t)) : t.device = s.device := by
  obtain ⟨l, rfl⟩ := readWith_only (by cases ag <;> rfl) h
  rfl

theorem request_device {s t : State} {a : Asked} {k : Packet} (h : s.request a k = some t) : t.device = s.device := by
  obtain ⟨u, hu, rfl⟩ := Option.map_eq_some_iff.mp h
  obtain ⟨r, -, rfl⟩ := Option.map_eq_some_iff.mp hu
  rfl

theorem via_onDevice (s : State) (ag : AgentId) (acc : Option Nat) (pl : Place) (len : Nat) (write : Bool) (fa : DWord) (k : Packet) :
    (s.via ag acc pl len write fa k).OnDevice s.device := by
  unfold State.via
  split
  · dsimp only
    split
    · rfl
    · split
      · rfl
      · next h => exact request_device h
  · split
    · rfl
    · cases ag <;> rfl
    · rfl

theorem readVia_onDevice (s : State) (ag : AgentId) (sc : Scope) (pl : Place) (n : Nat) (fa : DWord) :
    (s.readVia ag sc pl n fa).OnDevice s.device := by
  have hhere : ∀ u : State, u.device = s.device → (match u.readNow ag sc pl n with
      | some (bs, t) => Via.got bs t
      | none => Via.wait u false).OnDevice s.device := fun u hu => by
    split
    · next h => exact (readNow_device h).trans hu
    · exact hu
  unfold State.readVia
  dsimp only
  split
  · exact hhere s rfl
  · next m _ =>
    have hv := via_onDevice s ag none pl n false fa (packet 0 sc m (s.identOf (s.agentPart ag)) n 0 0 pl.pa [])
    split
    · next h =>
      rw [h] at hv
      exact hhere _ hv
    · exact hv

theorem readCut_onDevice (ag : AgentId) (l : List (Place × DWord × Nat)) : ∀ s : State, (s.readCut ag l).OnDevice s.device := by
  induction l with
  | nil => exact fun _ => rfl
  | cons x l ih =>
    intro s
    obtain ⟨pl, fa, n⟩ := x
    have hv := readVia_onDevice s ag .dev pl n fa
    unfold State.readCut
    split <;> rename_i h <;> rw [h] at hv
    · exact hv
    · exact hv
    · next t =>
      have hr := ih t
      rw [show t.device = s.device from hv] at hr
      split
      · next h => rw [h] at hr; exact hr
      · next h => rw [h] at hr; exact hr
      · exact hr

theorem pulling_device (s : State) (ag : AgentId) : (s.pulling ag).device = s.device := by
  cases ag <;> rfl

theorem readPieces_onDevice (ag : AgentId) (part : Nat) (fa : DWord) (l : List (Nat × Nat)) :
    ∀ s : State, (s.readPieces ag part fa l).OnDevice s.device := by
  induction l with
  | nil => exact fun _ => rfl
  | cons x l ih =>
    intro s
    obtain ⟨o, n⟩ := x
    unfold State.readPieces
    dsimp only
    split
    · exact pulling_device ..
    · rfl
    · next pl _ =>
      have hc := readCut_onDevice ag (readCuts pl (fa + BitVec.ofNat 64 o) n) s
      split
      · next t h =>
        rw [h] at hc
        have hr := ih t
        rw [show t.device = s.device from hc] at hr
        split
        · next h => rw [h] at hr; exact hr
        · next h => rw [h] at hr; exact hr
        · exact hr
      · exact hc

theorem readFlat_onDevice (s : State) (ag : AgentId) (part : Nat) (fa : DWord) (n : Nat) : (s.readFlat ag part fa n).OnDevice s.device :=
  readPieces_onDevice ..

/-! ### Patches that come and go leave the partitions alone -/

theorem engineLate_parts (s : State) (x : Engine) (c : Cause) (sub : Nat) (v : DWord) : (s.engineLate x c sub v).parts = s.parts := by
  unfold State.engineLate
  dsimp only
  split <;> rfl

theorem engineStop_parts (s : State) (x : Engine) (c : Cause) (sub : Nat) (v : DWord) : (s.engineStop x c sub v).parts = s.parts := by
  unfold State.engineStop
  split <;> rfl

theorem reportAgent_parts (s : State) (ag : AgentId) (c : Word) (v : DWord) : (s.reportAgent ag c v).parts = s.parts := by
  unfold State.reportAgent
  split <;> rfl

theorem request_parts {s t : State} {a : Asked} {k : Packet} (h : s.request a k = some t) : t.parts = s.parts := by
  obtain ⟨u, hu, rfl⟩ := Option.map_eq_some_iff.mp h
  obtain ⟨r, -, rfl⟩ := Option.map_eq_some_iff.mp hu
  rfl

theorem postWr_parts {s t : State} {n : Nat} {a : Asked} {k : Packet} (h : s.postWr n a k = some t) : t.parts = s.parts := by
  obtain ⟨u, hu, rfl⟩ := Option.map_eq_some_iff.mp h
  obtain ⟨r, -, rfl⟩ := Option.map_eq_some_iff.mp hu
  rfl

theorem sendWrites_parts (x : VisEntry) (l : List (Nat × List Byte)) : ∀ s : State, (s.sendWrites x l).parts = s.parts := by
  induction l with
  | nil => exact fun _ => rfl
  | cons y l ih =>
    intro s
    unfold State.sendWrites
    refine (ih _).trans ?_
    split
    · split
      · next hp => exact postWr_parts hp
      · split
        · split
          · exact engineLate_parts ..
          · exact engineStop_parts ..
        · rfl
    · split
      · next hp => exact request_parts hp
      · exact reportAgent_parts ..

theorem foldl_parts {β : Type} {f : State → β → State} (h : ∀ s x, (f s x).parts = s.parts) (l : List β) :
    ∀ s : State, (l.foldl f s).parts = s.parts := by
  induction l with
  | nil => exact fun _ => rfl
  | cons x r ih => exact fun s => (ih _).trans (h s x)

theorem settleWhere_parts (s : State) (f : VisEntry → Bool) : (s.settleWhere f).parts = s.parts :=
  foldl_parts (fun t e => sendWrites_parts e _ (t.settleEntry e)) _ _

theorem resetPatch_parts (s : State) (p : Nat) : (s.resetPatch p).parts = s.parts := settleWhere_parts (s.dropAgents p) _

theorem takePatch_parts (s : State) (p : Nat) : (s.takePatch p).parts = s.parts :=
  (resetPatch_parts (s.settlePatch p) p).trans (settleWhere_parts s _)

theorem givePatch_parts (s : State) (n p : Nat) : (s.givePatch n p).parts = s.parts := by
  unfold State.givePatch
  dsimp only
  split
  · rfl
  · exact (resetPatch_parts (s.settlePatch p) p).trans (settleWhere_parts s _)

/-! ### Entries that leave a table -/

theorem smGet_smDel_ne {α : Type} (d : α) (m : SMap α) {a b : Nat} (h : b ≠ a) : smGet d (smDel m a) b = smGet d m b := by
  induction m with
  | nil => rfl
  | cons x m ih =>
    obtain ⟨k, v⟩ := x
    by_cases hk : a = k
    · rw [smDel, if_pos hk, smGet, if_neg (hk ▸ h)]
    · rw [smDel, if_neg hk, smGet, smGet, ih]

theorem smFind_of_not_listed {α : Type} {m : SMap α} {a : Nat} (h : a ∉ m.map (fun x => x.1)) : smFind m a = none := by
  induction m with
  | nil => rfl
  | cons x m ih =>
    obtain ⟨hx, hm⟩ := not_or.mp (List.mem_cons.not.mp h)
    rw [smFind, if_neg hx, ih hm]

theorem smFind_smDel_same {α : Type} {m : SMap α} (h : (m.map (fun x => x.1)).Nodup) (a : Nat) : smFind (smDel m a) a = none := by
  induction m with
  | nil => rfl
  | cons x m ih =>
    obtain ⟨k, v⟩ := x
    obtain ⟨hk, hm⟩ := List.nodup_cons.mp h
    by_cases ha : a = k
    · rw [smDel, if_pos ha, ha]
      exact smFind_of_not_listed hk
    · rw [smDel, if_neg ha, smFind, if_neg ha, ih hm]

end Sys2Proof.Machine
end

section
/-! PROOFS of the family of the memory instructions: the commands of the partition manager (R214, R349, R354, R355, R372, R384, R393, R396,
R403, R409, R415, R431, R441, R443, R450). -/

namespace Sys2Proof.Machine

/-! ### The mailbox's answer (R431, R441) -/

/-- The machine with a status alone as the mailbox's reply. -/
def State.told (s : State) (status : Nat) : State := { s with reply := BitVec.ofNat 64 status :: List.replicate 7 0 }

@[simp] theorem told_part (s : State) (k n : Nat) : (s.told k).part n = s.part n := rfl

/-- The device serves commands: it is in reduced or full service (R441). -/
def State.inService (s : State) : Prop := s.device.dstate = .reduced ∨ s.device.dstate = .full

section
variable {ins : Instr} {s u t : State} {bad refuse : Bool} (he : exec ins s = .next (u.command bad refuse t)) (hu : u.inService) (hb : bad = false)
include he hu hb

theorem exec_of_accepted (hr : refuse = false) : exec ins s = .next (t.told 0) := by
  subst hb hr
  rw [he]
  rcases hu with h | h <;> rw [State.command, h] <;> rfl

theorem exec_of_refused (hr : refuse = true) : exec ins s = .next (u.told 1) := by
  subst hb hr
  rw [he]
  rcases hu with h | h <;> rw [State.command, h] <;> rfl

end

/-- A number below a bound is within its range. -/
theorem decide_le_eq_false {a b : Nat} (h : a < b) : decide (b ≤ a) = false := decide_eq_false (Nat.not_le.mpr h)

/-- A number that a bound does not exceed is within its range. -/
theorem decide_lt_eq_false {a b : Nat} (h : b ≤ a) : decide (a < b) = false := decide_eq_false (Nat.not_lt.mpr h)

/-! ### PCREATE (R431, R450, R452) -/

theorem foldl_extend_getD (n : Nat) (keys : List (List Byte)) (d : Device) (h : n < d.m.length) :
    (keys.foldl (fun d k => d.extend n (sha256 k)) d).m.getD n [] = keys.foldl (fun x k => sha256 (x ++ sha256 k)) (d.m.getD n []) := by
  induction keys generalizing d with
  | nil => rfl
  | cons k keys ih =>
    have hlen : n < (d.extend n (sha256 k)).m.length := by
      rw [Device.extend, List.length_set]
      exact h
    have hget : (d.extend n (sha256 k)).m.getD n [] = sha256 (d.m.getD n [] ++ sha256 k) := by
      rw [List.getD_eq_getElem _ _ hlen]
      exact List.getElem_set_self _
    rw [List.foldl_cons, List.foldl_cons, ih _ hlen, hget]

/-- What an accepted PCREATE leaves: the partition as it comes to be, every other one and memory as they were, and M3 extended with each
key. -/
theorem newPart_spec (u : State) (n : Nat) (keys : List (List Byte)) (sg : Bool) :
    let t := (u.newPart n keys sg).told 0
    t.reply = BitVec.ofNat 64 0 :: List.replicate 7 0 ∧
    t.part n = { Part.reset with exists_ := true, ident := n, keys := keys, needSig := sg } ∧ (∀ m, m ≠ n → t.part m = u.part m) ∧
    t.mem = u.mem ∧ (4 ≤ u.device.m.length →
      t.device.m.getD 3 [] = keys.foldl (fun d x => sha256 (d ++ sha256 x)) (u.device.m.getD 3 [])) :=
  ⟨rfl, part_setPart_same .., fun _ hm => part_setPart_ne _ _ hm, rfl, fun h => foldl_extend_getD 3 keys u.device h⟩

section
variable {s : State} (hs : s.inService) {n kp a k : Nat} {sg : Bool} (hn : n < 20) (hkp : kp < 20) (hk : k ≤ 4) (hsg : sg = true → k ≠ 0)
include hn hkp hk hsg

theorem pcreate_in_range : (decide (20 ≤ n) || decide (20 ≤ kp) || decide (4 < k) || (sg && k == 0)) = false := by
  rw [decide_le_eq_false hn, decide_le_eq_false hkp, decide_lt_eq_false hk]
  cases sg
  · rfl
  · simpa using hsg rfl

theorem exec_pcreate_unread (h : k = 0 ∨ (s.part n).exists_ = true) :
    exec (.pcreate n ⟨kp, a⟩ k sg) s = .next (s.command false (s.part n).exists_ (s.newPart n [] sg)) := by
  show execPcreate n ⟨kp, a⟩ k sg s = _
  rw [execPcreate]
  dsimp only
  rw [pcreate_in_range hn hkp hk hsg, if_pos (by simpa using h)]

/-- The key list is read; the registers that say whether the mailbox serves commands are none that a read touches. -/
theorem exec_pcreate_read (h : (s.part n).exists_ = false) (hk0 : k ≠ 0) : exec (.pcreate n ⟨kp, a⟩ k sg) s =
    match s.readFlat (.cmdProc kp) kp (BitVec.ofNat 64 a) (64 * k) with
    | .wait u => .next u
    | .fault _ _ _ u => .next (u.command false true u)
    | .ok bs u => .next (u.command false false (u.newPart n ((List.range k).map (fun i => (bs.drop (64 * i)).take 64)) sg)) := by
  show execPcreate n ⟨kp, a⟩ k sg s = _
  rw [execPcreate]
  dsimp only
  rw [pcreate_in_range hn hkp hk hsg]
  exact if_neg (by simp [h, hk0])

include hs

theorem pcreate_refused (h : (s.part n).exists_ = true) : exec (.pcreate n ⟨kp, a⟩ k sg) s = .next (s.told 1) :=
  exec_of_refused (exec_pcreate_unread hn hkp hk hsg (.inr h)) hs rfl h

theorem pcreate_without_keys (h : (s.part n).exists_ = false) (hk0 : k = 0) :
    exec (.pcreate n ⟨kp, a⟩ k sg) s = .next ((s.newPart n [] sg).told 0) :=
  exec_of_accepted (exec_pcreate_unread hn hkp hk hsg (.inl hk0)) hs rfl h

variable (h : (s.part n).exists_ = false) (hk0 : k ≠ 0) {u : State}
include h hk0

theorem pcreate_with_keys {bs : List Byte} (hr : s.readFlat (.cmdProc kp) kp (BitVec.ofNat 64 a) (64 * k) = .ok bs u) :
    exec (.pcreate n ⟨kp, a⟩ k sg) s =
      .next ((u.newPart n ((List.range k).map (fun i => (bs.drop (64 * i)).take 64)) sg).told 0) := by
  have hd : u.device = s.device := by
    have := readFlat_onDevice s (.cmdProc kp) kp (BitVec.ofNat 64 a) (64 * k)
    rwa [hr] at this
  have he := exec_pcreate_read (a := a) hn hkp hk hsg h hk0
  rw [hr] at he
  exact exec_of_accepted he (by rwa [State.inService, hd]) rfl rfl

theorem pcreate_unreadable {c : Cause} {sub : Nat} {v : DWord}
    (hr : s.readFlat (.cmdProc kp) kp (BitVec.ofNat 64 a) (64 * k) = .fault c sub v u) :
    exec (.pcreate n ⟨kp, a⟩ k sg) s = .next (u.told 1) := by
  have hd : u.device = s.device := by
    have := readFlat_onDevice s (.cmdProc kp) kp (BitVec.ofNat 64 a) (64 * k)
    rwa [hr] at this
  have he := exec_pcreate_read (a := a) hn hkp hk hsg h hk0
  rw [hr] at he
  exact exec_of_refused he (by rwa [State.inService, hd]) rfl rfl

end

/-! ### PDESTROY and GRANT (R383, R429 to R431) -/

section
variable {s : State} (hs : s.inService) {n : Nat} (hn : n < 20)
include hs hn

theorem pdestroy_refused (h : (s.part n).exists_ = false ∨ ∃ l ∈ s.loads, l.part = n) : exec (.pdestroy n) s = .next (s.told 1) :=
  exec_of_refused rfl hs (decide_le_eq_false hn) (by simpa using h)

theorem pdestroy_accepted (h : (s.part n).exists_ = true) (hl : ∀ l ∈ s.loads, l.part ≠ n) : ∃ t, exec (.pdestroy n) s = .next t ∧
    t.reply = BitVec.ofNat 64 0 :: List.replicate 7 0 ∧ ((s.parts.map (fun x => x.1)).Nodup → smFind t.parts n = none) ∧
    (∀ c ∈ t.cache, c.part ≠ n) ∧ (∀ m, m ≠ n → t.part m = s.part m) := by
  have hparts : ((s.part n).patches.foldl (fun s p => s.takePatch p) s).parts = s.parts := foldl_parts (fun t p => takePatch_parts t p) _ s
  refine ⟨_, exec_of_accepted rfl hs (decide_le_eq_false hn) (by simpa [h] using hl), rfl, fun hd => ?_, fun c hc => ?_, fun m hm => ?_⟩
  · show smFind (smDel ((s.part n).patches.foldl (fun s p => s.takePatch p) s).parts n) n = none
    rw [hparts]
    exact smFind_smDel_same hd n
  · simpa using (List.mem_filter.mp hc).2
  · show smGet Part.reset (smDel ((s.part n).patches.foldl (fun s p => s.takePatch p) s).parts n) m = _
    rw [hparts]
    exact smGet_smDel_ne _ _ hm

end

theorem mem_append_new {α : Type} [BEq α] [LawfulBEq α] {a : α} {l m : List α} :
    a ∈ l ++ m.filter (fun x => !l.contains x) ↔ a ∈ l ∨ a ∈ m := by
  by_cases h : a ∈ l <;> simp [h]

section
variable {s : State} (hs : s.inService) {g : GrantArgs} (hn : g.part < 20) (hp : ∀ p ∈ g.patches ++ g.take, p < 640) (hlo : 4 ≤ g.fqLog)
  (hhi : g.fqLog ≤ 12) (hi : ∀ i, g.ident = some i → i < 20)
include hn hp hlo hhi hi

theorem grant_in_range : (decide (20 ≤ g.part) || decide (20 ≤ g.ident.getD 0) || (g.patches ++ g.take).any (fun p => decide (640 ≤ p)) ||
    decide (g.fqLog < 4) || decide (12 < g.fqLog)) = false := by
  have hident : g.ident.getD 0 < 20 := by
    cases h : g.ident with
    | none => decide
    | some i => exact hi i h
  have hpatches : ((g.patches ++ g.take).any fun p => decide (640 ≤ p)) = false :=
    List.any_eq_false.mpr fun p h => by simpa using hp p h
  rw [decide_le_eq_false hn, decide_le_eq_false hident, hpatches, decide_lt_eq_false hlo, decide_lt_eq_false hhi]
  rfl

include hs

theorem grant_refused (h : (s.part g.part).exists_ = false) : exec (.grant g) s = .next (s.told 1) :=
  exec_of_refused rfl hs (grant_in_range hn hp hlo hhi hi) (by simp [h])

theorem grant_accepted (h : (s.part g.part).exists_ = true)
    (hgive : ∀ p ∈ g.patches, (s.patch p).fenced = false ∧ ∀ x ∈ s.parts, x.1 ≠ g.part → p ∉ x.2.patches)
    (htake : ∀ p ∈ g.take, p ∈ (s.part g.part).patches ∧ (s.patch p).load = none)
    (hframes : ∀ f ∈ g.frames, ∀ x ∈ s.parts, x.1 ≠ g.part → f ∉ x.2.frames)
    (hident : ∀ x ∈ s.parts, x.1 ≠ g.part → g.ident ≠ some x.2.ident) :
    ∃ t, exec (.grant g) s = .next t ∧ t.reply = BitVec.ofNat 64 0 :: List.replicate 7 0 ∧
      (∀ p, p ∈ (t.part g.part).patches ↔ (p ∈ (s.part g.part).patches ∨ p ∈ g.patches) ∧ p ∉ g.take) ∧
      (∀ f, f ∈ (t.part g.part).frames ↔ f ∈ (s.part g.part).frames ∨ f ∈ g.frames) ∧
      (t.part g.part).ident = g.ident.getD (s.part g.part).ident ∧ (t.part g.part).fqBase = g.fqBase ∧ (t.part g.part).fqLog = g.fqLog ∧
      (∀ m, m ≠ g.part → t.part m = s.part m) := by
  refine ⟨_, exec_of_accepted rfl hs (grant_in_range hn hp hlo hhi hi) ?_, rfl, fun p => ?_, fun f => ?_, ?_, ?_, ?_, fun m hm => ?_⟩
  · simp only [Bool.or_eq_false_iff, List.any_eq_false, List.mem_filter, bne_iff_ne, beq_iff_eq, Bool.not_eq_true, and_imp, h, Bool.not_true,
      Bool.not_eq_false', List.contains_eq_mem, decide_eq_true_eq, Option.isSome_eq_false_iff, Option.isNone_iff_eq_none, true_and]
    exact ⟨⟨⟨hgive, htake⟩, hframes⟩, hident⟩
  · rw [told_part, part_setPart_same]
    rw [List.mem_filter, mem_append_new]
    simp
  · rw [told_part, part_setPart_same]
    exact mem_append_new
  · rw [told_part, part_setPart_same]
  · rw [told_part, part_setPart_same]
  · rw [told_part, part_setPart_same]
  · rw [told_part, part_setPart_ne _ _ hm, State.part, foldl_parts takePatch_parts, foldl_parts fun t p => givePatch_parts t g.part p]
    rfl

end

/-! ### Queues and virtual functions (R372, R403, R425, R431) -/

theorem rest_eq (q : Queue) :
    q.rest = if q.head.isSome = true ∨ q.staged.isSome = true ∨ q.tail ≠ q.headCnt then .wait else .idle := by
  simp only [Queue.rest, Queue.more, Bool.or_eq_true, bne_iff_ne, or_assoc]

theorem ite_engaged (s : State) (n : Nat) (x : QState) : (if s.engaged n = true then .run else x) =
    if ∃ l ∈ s.loads, l.q = n then .run else if ∃ c ∈ s.colls, c.q = some n then .run else x := by
  have hiff : s.engaged n = true ↔ (∃ l ∈ s.loads, l.q = n) ∨ ∃ c ∈ s.colls, c.q = some n := by
    simp only [State.engaged, Bool.or_eq_true, List.any_eq_true, beq_iff_eq]
  by_cases hl : ∃ l ∈ s.loads, l.q = n
  · rw [if_pos (hiff.mpr (.inl hl)), if_pos hl]
  · by_cases hc : ∃ c ∈ s.colls, c.q = some n
    · rw [if_pos (hiff.mpr (.inr hc)), if_neg hl, if_pos hc]
    · rw [if_neg (hiff.not.mpr (not_or.mpr ⟨hl, hc⟩)), if_neg hl, if_neg hc]

theorem exec_lpreempt {s : State} {n : Nat} {l : Load} (hl : s.loadAt n = some l) : exec (.lpreempt n) s =
    .next (s.command (decide (4096 ≤ n)) (l.st != .running && l.st != .placed) (s.cpFreeze l)) := by
  show execLpreempt n s = _
  rw [execLpreempt, hl]

section
variable {s : State} (hs : s.inService)
include hs

theorem qset_accepted {g : QSetArgs} (hq : g.queue < 4096) (hp : g.part < 20) (hpri : g.pri ≤ 7) (hw : g.weight ≠ 0) (hw' : g.weight ≤ 255)
    (hr : 6 ≤ g.ringLog) (hr' : g.ringLog ≤ 16) (hv : g.vf < 1024) (hn : g.n ≤ 3)
    (hfree : ∀ x ∈ s.queues, x.1 ≠ g.queue → x.2.vf ≠ some (g.vf, g.n)) :
    exec (.qset g) s = .next ((s.setQueue g.queue { s.queue g.queue with
      part := g.part, pri := g.pri, weight := g.weight, ringBase := g.ringBase, ringLog := g.ringLog, ringHost := g.ringHost,
      vf := some (g.vf, g.n), msix := g.msix }).told 0) := by
  refine exec_of_accepted rfl hs ?_ (List.any_eq_false.mpr fun x hx => by simpa using hfree x hx)
  rw [decide_le_eq_false hq, decide_le_eq_false hp, decide_lt_eq_false hpri, beq_eq_false_iff_ne.mpr hw, decide_lt_eq_false hw',
    decide_lt_eq_false hr, decide_lt_eq_false hr', decide_le_eq_false hv, decide_lt_eq_false hn]
  rfl

theorem vfbind_accepted {vf n : Nat} (hv : vf < 1024) (hn : n < 20) (h : (s.part n).exists_ = true) :
    exec (.vfbind vf n) s = .next ((s.setVf vf { s.vf vf with part := some n }).told 0) :=
  exec_of_accepted rfl hs (by rw [decide_le_eq_false hv, decide_le_eq_false hn]; rfl) (by rw [h]; rfl)

variable {n : Nat} (hn : n < 4096)
include hn

theorem qenable_refused (h : (s.queue n).st ≠ .stopped) : exec (.qenable n) s = .next (s.told 1) :=
  exec_of_refused rfl hs (decide_le_eq_false hn) (bne_iff_ne.mpr h)

theorem qenable_accepted (h : (s.queue n).st = .stopped) : exec (.qenable n) s =
    .next ((s.setQueue n { s.queue n with st := if s.engaged n then .run else (s.queue n).rest }).told 0) :=
  exec_of_accepted rfl hs (decide_le_eq_false hn) (by rw [h]; rfl)

theorem qdisable_accepted : exec (.qdisable n) s = .next ((s.setQueue n { s.queue n with st := .stopped }).told 0) :=
  exec_of_accepted rfl hs (decide_le_eq_false hn) rfl

theorem wdack_refused (h : (s.queue n).st ≠ .wdhold) : exec (.wdack n) s = .next (s.told 1) :=
  exec_of_refused rfl hs (decide_le_eq_false hn) (bne_iff_ne.mpr h)

theorem wdack_accepted (h : (s.queue n).st = .wdhold) :
    exec (.wdack n) s = .next ((s.setQueue n { s.queue n with st := (s.queue n).rest }).told 0) :=
  exec_of_accepted rfl hs (decide_le_eq_false hn) (by rw [h]; rfl)

/-! ### Loads (R384, R393, R396) -/

section
variable {l : Load} (hl : s.loadAt n = some l)
include hl

theorem lend_accepted (h : l.st.alive = true) : exec (.lend n) s = .next ((s.endLoad l 0 1).told 0) := by
  refine exec_of_accepted (refuse := !l.st.alive) (?_ : execLend n s = _) hs (decide_le_eq_false hn) ?_
  · rw [execLend, hl]
  · rw [h]; rfl

theorem ldiscard_accepted {k : Nat} (h : s.frozenSub l = some k) :
    exec (.ldiscard n) s = .next ((s.endLoad l (causeCode .frozen) k).told 0) := by
  refine exec_of_accepted (?_ : execLdiscard n s = _) hs (decide_le_eq_false hn) rfl
  rw [execLdiscard, hl, Option.bind_some, h]
  rfl

theorem ldiscard_refused (h : s.frozenSub l = none) : exec (.ldiscard n) s = .next (s.told 1) := by
  refine exec_of_refused (t := s) (?_ : execLdiscard n s = _) hs (decide_le_eq_false hn) rfl
  rw [execLdiscard, hl, Option.bind_some, h]
  rfl

theorem lpreempt_running (h : l.st = .running) : exec (.lpreempt n) s = .next ((s.holdLoad l).told 0) := by
  have he := exec_of_accepted (exec_lpreempt hl) hs (decide_le_eq_false hn) (by rw [h]; rfl)
  rwa [State.cpFreeze, h] at he

theorem lpreempt_placed (h : l.st = .placed) : exec (.lpreempt n) s = .next ((s.unplace l).told 0) := by
  have he := exec_of_accepted (exec_lpreempt hl) hs (decide_le_eq_false hn) (by rw [h]; rfl)
  rwa [State.cpFreeze, h] at he

theorem lpreempt_refused (h : l.st ≠ .running) (h' : l.st ≠ .placed) : exec (.lpreempt n) s = .next (s.told 1) :=
  exec_of_refused (exec_lpreempt hl) hs (decide_le_eq_false hn) (by simp [h, h'])

end

end

section
variable {s : State} (hs : s.inService) {t : ThawName} (hq : t.queue < 4096) (hlp : t.lp < 640) (hel : t.el < 64) (hag : t.agent ≤ 5)
  (hport : t.port < 16)
include hq hlp hel hag hport

theorem thaw_in_range :
    (decide (4096 ≤ t.queue) || decide (640 ≤ t.lp) || decide (64 ≤ t.el) || decide (5 < t.agent) || decide (16 ≤ t.port)) = false := by
  rw [decide_le_eq_false hq, decide_le_eq_false hlp, decide_le_eq_false hel, decide_lt_eq_false hag, decide_le_eq_false hport]
  rfl

include hs

theorem thawCommand_function (h4 : t.agent = 4) {a : HostAccess} (ha : (s.vf t.queue).frozen = some a) : exec (.thawCommand t) s =
    .next (((s.setVf t.queue { s.vf t.queue with frozen := none }).hostAccess t.queue a).told 0) := by
  refine exec_of_accepted (?_ : execThawCommand t s = _) hs (thaw_in_range hq hlp hel hag hport) rfl
  rw [execThawCommand, if_pos h4, ha]

variable (h4 : t.agent ≠ 4) {l : Load} (hl : s.loadAt t.queue = some l)
include h4 hl

theorem thawCommand_accepted {u : State} (hu : s.thawAgent l t = some u) : exec (.thawCommand t) s = .next ((u.redoLoad t.queue).told 0) := by
  refine exec_of_accepted (?_ : execThawCommand t s = _) hs (thaw_in_range hq hlp hel hag hport) rfl
  rw [execThawCommand, if_neg h4, hl, Option.bind_some, hu]

theorem thawCommand_refused (hu : s.thawAgent l t = none) : exec (.thawCommand t) s = .next (s.told 1) := by
  refine exec_of_refused (t := s) (?_ : execThawCommand t s = _) hs (thaw_in_range hq hlp hel hag hport) rfl
  rw [execThawCommand, if_neg h4, hl, Option.bind_some, hu]

end

/-! ### Translations, timeouts, routes and slots (R349, R354, R409, R415, R443) -/

/-- The translations that INVAL leaves: those of other partitions, and those of flat addresses outside the region (R349; log 4). -/
def keptByInval (n : Nat) (lo hi : DWord) (l : List CacheEntry) : List CacheEntry :=
  (uncover n none lo.toNat hi.toNat l).filter (fun c => !(c.part == n && c.tens.isSome))

theorem mem_keptByInval {n : Nat} {lo hi : DWord} {l : List CacheEntry} {x : CacheEntry} :
    x ∈ keptByInval n lo hi l ↔ x ∈ l ∧ (x.part = n → x.tens = none ∧ (hi.toNat < x.lo ∨ x.hi < lo.toNat)) := by
  by_cases hp : x.part = n
  · cases ht : x.tens <;> simp [keptByInval, uncover, hp, ht]
  · simp [keptByInval, uncover, hp]

/-- The route table with some entries set one after another (R409, R443). -/
def State.routed (s : State) (es : List (Nat × Half)) (m : SMap Half) : SMap Half :=
  es.foldl (fun m x => smSet m x.1 (s.routeEntry x.2)) m

theorem smFind_routed_of_unnamed (s : State) {es : List (Nat × Half)} {k : Nat} (h : ∀ x ∈ es, x.1 ≠ k) (m : SMap Half) :
    smFind (s.routed es m) k = smFind m k := by
  induction es generalizing m with
  | nil => rfl
  | cons x es ih =>
    obtain ⟨hx, hes⟩ := List.forall_mem_cons.mp h
    exact (ih hes _).trans (smFind_smSet_ne _ _ hx.symm)

/-- The last entry for a module stands. -/
theorem smFind_routed_of_last (s : State) (pre : List (Nat × Half)) (x : Nat × Half) {rest : List (Nat × Half)} (h : ∀ y ∈ rest, y.1 ≠ x.1)
    (m : SMap Half) : smFind (s.routed (pre ++ x :: rest) m) x.1 = some (s.routeEntry x.2) := by
  rw [State.routed, List.foldl_append, List.foldl_cons]
  exact (smFind_routed_of_unnamed s h _).trans (smFind_smSet_same ..)

/-- Without bit 8 an entry of 9 bits is its ports alone. -/
theorem toNat_and_0xFEFF {x : Half} (hx : x.toNat < 512) : (x &&& 0xFEFF).toNat = x.toNat % 256 := by
  refine Nat.eq_of_testBit_eq fun j => ?_
  rw [BitVec.toNat_and, Nat.testBit_and, show 256 = 2 ^ 8 from rfl, Nat.testBit_mod_two_pow]
  have hmask : ∀ j < 9, Nat.testBit 0xFEFF j = decide (j < 8) := by decide
  by_cases hj : j < 9
  · exact (congrArg (x.toNat.testBit j && ·) (hmask j hj)).trans (Bool.and_comm ..)
  · have hhigh : x.toNat.testBit j = false :=
      Nat.testBit_lt_two_pow (hx.trans_le (Nat.pow_le_pow_right Nat.two_pos (Nat.not_lt.mp hj) : 2 ^ 9 ≤ 2 ^ j))
    simp [hhigh]

/-- A route entry stands as it is given, but that it is not valid where both its ports are fenced. -/
theorem routeEntry_spec (s : State) {x : Half} (hx : x.toNat < 512) :
    let dead := s.portFenced (x.toNat % 16) = true ∧ s.portFenced (x.toNat / 16 % 16) = true
    (s.routeEntry x).toNat % 256 = x.toNat % 256 ∧ (¬ dead → s.routeEntry x = x) ∧ (dead → (s.routeEntry x).toNat / 256 = 0) := by
  intro dead
  by_cases hd : dead
  · have he : s.routeEntry x = x &&& 0xFEFF := if_pos (by simpa [dead] using hd)
    rw [he, toNat_and_0xFEFF hx]
    exact ⟨Nat.mod_mod _ _, fun h => absurd hd h, fun _ => Nat.div_eq_of_lt (Nat.mod_lt _ (by decide))⟩
  · have he : s.routeEntry x = x := if_neg (by simpa [dead] using hd)
    rw [he]
    exact ⟨rfl, fun _ => rfl, fun h => absurd h hd⟩

/-- The slot table with some entries of a port set one after another (R415). -/
def slotted (port : Nat) (es : List (Nat × Nat × Half)) (l : List ((Nat × Nat × Nat) × Half)) : List ((Nat × Nat × Nat) × Half) :=
  es.foldl (fun m x => m.filter (fun y => y.1 != (port, x.1, x.2.1)) ++ [((port, x.1, x.2.1), x.2.2)]) l

theorem mem_of_slotted {port : Nat} {es : List (Nat × Nat × Half)} {l : List ((Nat × Nat × Nat) × Half)} {y : (Nat × Nat × Nat) × Half}
    (h : y ∈ slotted port es l) : y ∈ l ∨ ∃ x ∈ es, y = ((port, x.1, x.2.1), x.2.2) := by
  induction es generalizing l with
  | nil => exact .inl h
  | cons x es ih =>
    obtain h | ⟨z, hz, rfl⟩ := ih h
    · obtain h | h := List.mem_append.mp h
      · exact .inl (List.mem_filter.mp h).1
      · exact .inr ⟨x, List.mem_cons_self, List.mem_singleton.mp h⟩
    · exact .inr ⟨z, List.mem_cons_of_mem x hz, rfl⟩

/-- An entry stays while no later one has its key. -/
theorem mem_slotted_of_unnamed {port : Nat} {es : List (Nat × Nat × Half)} {l : List ((Nat × Nat × Nat) × Half)}
    {y : (Nat × Nat × Nat) × Half} (hy : y ∈ l) (h : ∀ x ∈ es, y.1 ≠ (port, x.1, x.2.1)) : y ∈ slotted port es l := by
  induction es generalizing l with
  | nil => exact hy
  | cons x es ih =>
    obtain ⟨hx, hes⟩ := List.forall_mem_cons.mp h
    exact ih (List.mem_append_left _ (List.mem_filter.mpr ⟨hy, bne_iff_ne.mpr hx⟩)) hes

section
variable {s : State} (hs : s.inService)
include hs

theorem inval_accepted {n : Nat} (hn : n < 20) (lo hi : DWord) :
    exec (.inval n lo hi) s = .next ((({ s with cache := keptByInval n lo hi s.cache } : State).pullsOver n).told 0) :=
  exec_of_accepted rfl hs (decide_le_eq_false hn) rfl

theorem timeouts_accepted {t : TimeoutArgs} (hp : t.part < 20) (hf : okLimit t.feNs = true) (he : okLimit t.escalationNs = true)
    (hlo : 100000 ≤ t.custodyNs) (hhi : t.custodyNs ≤ 100000000) :
    ∃ u, exec (.timeouts t) s = .next u ∧ (u.part t.part).feNs = t.feNs ∧ (u.part t.part).escNs = t.escalationNs ∧
      (u.part t.part).remoteWalk = t.remoteWalk ∧ u.fabric.custodyNs = t.custodyNs ∧ u.mem = s.mem ∧
      u.reply = BitVec.ofNat 64 0 :: List.replicate 7 0 := by
  let x : Part := { s.part t.part with feNs := t.feNs, escNs := t.escalationNs, remoteWalk := t.remoteWalk }
  have hpart : (s.setPart t.part x).part t.part = x := part_setPart_same ..
  refine ⟨_, exec_of_accepted rfl hs ?_ rfl, congrArg Part.feNs hpart, congrArg Part.escNs hpart, congrArg Part.remoteWalk hpart, rfl, rfl, rfl⟩
  rw [decide_le_eq_false hp, hf, he, decide_lt_eq_false hlo, decide_lt_eq_false hhi]
  rfl

theorem route_accepted {es : List (Nat × Half)} (h : ∀ x ∈ es, x.1 < 512 ∧ x.2.toNat < 512) : exec (.route es) s =
    .next (({ s with fabric := { s.fabric with routes := s.routed es s.fabric.routes } } : State).told 0) :=
  exec_of_accepted rfl hs (List.any_eq_false.mpr fun x hx => by simpa using h x hx) rfl

theorem slotld_accepted {port : Nat} (hp : port < 16) {es : List (Nat × Nat × Half)}
    (h : ∀ x ∈ es, x.1 < 256 ∧ x.2.1 < 16 ∧ x.2.2.toNat < 2 ^ 13 ∧ x.2.2.toNat / 32 % 8 = 0 ∧ x.2.2.toNat % 32 ≤ 16) :
    exec (.slotld port es) s = .next (({ s with fabric := { s.fabric with slots := slotted port es s.fabric.slots } } : State).told 0) := by
  refine exec_of_accepted rfl hs ?_ rfl
  rw [decide_le_eq_false hp]
  refine List.any_eq_false.mpr fun x hx => ?_
  obtain ⟨h₁, h₂, h₃, h₄, h₅⟩ := h x hx
  rw [decide_le_eq_false h₁, decide_le_eq_false h₂, decide_le_eq_false h₃, h₄, decide_lt_eq_false h₅]
  decide

/-- A code that R431 does not list answers status 3; one that it lists stands for a command with a reserved bit set (log 4). -/
theorem unknownCommand_answers (c : Byte) :
    exec (.unknownCommand c) s = .next (s.told (if 1 ≤ c.toNat ∧ c.toNat ≤ 0x12 then 2 else 3)) := by
  show execUnknownCommand c s = _
  rcases hs with h | h <;> rw [execUnknownCommand, h] <;> rfl

end

/-! ### MIGRATE (R355, R356) -/

/-- How far the migration of a partition has come, and whether a phase to a module comes next (R355). -/
def Part.phaseAt (x : Part) : Nat := (x.migrate.map (fun m => m.1)).getD 0
def Part.nextIs (x : Part) (phase target : Nat) : Bool :=
  x.phaseAt + 1 == phase && (phase == 1 || x.migrate == some (x.phaseAt, target))

theorem nextIs_of_migrate {x : Part} {k t : Nat} (h : x.migrate = some (k, t)) : x.nextIs (k + 1) t = true := by
  simp [Part.nextIs, Part.phaseAt, h]

section
variable {s : State} {n t : Nat}

theorem setPart_setPart (x y : Part) : (s.setPart n x).setPart n y = s.setPart n y :=
  congrArg (fun m => ({ s with parts := m } : State)) (smSet_smSet_same ..)

theorem exec_migrate_arrived (hhere : t = s.fabric.mod) : exec (.migrate n 4 t) s =
    .next (s.command (decide (20 ≤ n) || decide (5 < 4) || decide (512 ≤ t)) (!(s.part n).exists_ || (s.part n).migrate != some (3, t))
      ((s.setPart n { s.part n with taken := Part.reset.taken }).setMigrate n none)) := by
  show execMigrate n 4 t s = _
  exact if_pos (by simpa using hhere)

section
variable (hs : s.inService) (hn : n < 20) (ht : t < 512)
include hn ht

theorem migrate_in_range {phase : Nat} (hp : phase ≤ 5) : (decide (20 ≤ n) || decide (5 < phase) || decide (512 ≤ t)) = false := by
  rw [decide_le_eq_false hn, decide_lt_eq_false hp, decide_le_eq_false ht]
  rfl

include hs

theorem migrate_abandoned {m : Nat × Nat} (hm : (s.part n).migrate = some m) (h₁ : 1 ≤ m.1) (h₃ : m.1 ≤ 3) : exec (.migrate n 0 t) s =
    .next (((if (s.part n).migrate = some (3, s.fabric.mod) then s.dropTaken n else s).setMigrate n none).told 0) :=
  exec_of_accepted rfl hs (migrate_in_range hn ht (Nat.zero_le 5)) (by simp [hm, h₁, h₃])

theorem migrate_settled (hm : (s.part n).nextIs 2 t = true) (hset : s.partSettled n = true) :
    exec (.migrate n 2 t) s = .next ((s.setMigrate n (some (2, t))).told 0) :=
  exec_of_accepted (refuse := !(s.part n).nextIs 2 t || !s.partSettled n) rfl hs (migrate_in_range hn ht (by decide)) (by rw [hm, hset]; rfl)

theorem migrate_unsettled (hset : s.partSettled n = false) : exec (.migrate n 2 t) s = .next (s.told 1) :=
  exec_of_refused (refuse := !(s.part n).nextIs 2 t || !s.partSettled n) rfl hs (migrate_in_range hn ht (by decide)) (by simp [hset])

section
variable (hout : t ≠ s.fabric.mod)
include hout

theorem migrate_begun (hx : (s.part n).exists_ = true) (hm : (s.part n).migrate = none) : exec (.migrate n 1 t) s =
    .next (((s.holdPart n).setPart n { (s.holdPart n).part n with migrate := some (1, t), migrateAt := s.clock.ns }).told 0) :=
  exec_of_accepted rfl hs (migrate_in_range hn ht (by decide)) (by simp [hx, hm, hout])

/-- A phase that its source takes after the second (R355). -/
theorem migrate_next {phase : Nat} {r : Res} {u : State} (he : exec (.migrate n phase t) s = if (t == s.fabric.mod) = true then r else
      .next (s.command (decide (20 ≤ n) || decide (5 < phase) || decide (512 ≤ t)) (!(s.part n).nextIs phase t) u))
    (hp : phase ≤ 5) (hm : (s.part n).nextIs phase t = true) : exec (.migrate n phase t) s = .next (u.told 0) :=
  exec_of_accepted (he.trans (if_neg (by simpa using hout))) hs (migrate_in_range hn ht hp) (by rw [hm]; rfl)

theorem migrate_saved (hm : (s.part n).nextIs 3 t = true) :
    exec (.migrate n 3 t) s = .next (((s.savePart n).setMigrate n (some (3, t))).told 0) :=
  migrate_next hs hn ht hout rfl (by decide) hm

theorem migrate_left (hm : (s.part n).nextIs 4 t = true) :
    exec (.migrate n 4 t) s = .next (((s.leavePart n t).setMigrate n (some (4, t))).told 0) :=
  migrate_next hs hn ht hout rfl (by decide) hm

theorem migrate_ended (hm : (s.part n).nextIs 5 t = true) : exec (.migrate n 5 t) s = .next ((s.setMigrate n (some (5, t))).told 0) :=
  migrate_next hs hn ht hout rfl le_rfl hm

end

theorem migrate_not_arrived (hhere : t = s.fabric.mod) (hm : (s.part n).migrate ≠ some (3, t)) : exec (.migrate n 4 t) s = .next (s.told 1) :=
  exec_of_refused (exec_migrate_arrived hhere) hs (migrate_in_range hn ht (by decide)) (by simp [hm])

section
variable (hx : (s.part n).exists_ = true) (hhere : t = s.fabric.mod)
include hx hhere

theorem migrate_taken (hm : (s.part n).migrate = none) :
    exec (.migrate n 3 t) s = .next (((s.takePart n).setMigrate n (some (3, t))).told 0) := by
  refine exec_of_accepted (refuse := !(s.part n).exists_ || (s.part n).phaseAt != 0) (?_ : execMigrate n 3 t s = _) hs
    (migrate_in_range hn ht (phase := 3) (by decide)) (by simp [hx, hm, Part.phaseAt])
  exact if_pos (by simpa using hhere)

theorem migrate_arrived (hm : (s.part n).migrate = some (3, t)) : exec (.migrate n 4 t) s =
    .next ((s.setPart n { s.part n with taken := Part.reset.taken, migrate := none }).told 0) := by
  have he := exec_of_accepted (exec_migrate_arrived hhere) hs (migrate_in_range hn ht (by decide)) (by simp [hx, hm])
  rwa [State.setMigrate, part_setPart_same, setPart_setPart] at he

end

end

end

/-- Settles O52: each command by the lemma of its answer. -/
theorem managerCommands : Obligations.ManagerCommands := by
  unfold Obligations.ManagerCommands
  intro s hs replies
  have hs : s.inService := hs
  refine ⟨fun n kp a k sg hn hkp hk hsg => ?_, fun n hn => ⟨pdestroy_refused hs hn, pdestroy_accepted hs hn⟩,
    fun g hn hp hlo hhi hi => ⟨grant_refused hs hn hp hlo hhi hi, grant_accepted hs hn hp hlo hhi hi⟩,
    fun g hq hp hpri hw hw' hr hr' hv hn hfree => ⟨_, qset_accepted hs hq hp hpri hw hw' hr hr' hv hn hfree, rfl⟩, fun n hn => ?_,
    fun vf n hv hn h => vfbind_accepted hs hv hn h,
    fun t hq hlp hel hag hport => ⟨fun h4 a ha => thawCommand_function hs hq hlp hel hag hport h4 ha,
      fun h4 l u hl hu => thawCommand_accepted hs hq hlp hel hag hport h4 hl hu,
      fun h4 l hl hu => thawCommand_refused hs hq hlp hel hag hport h4 hl hu⟩,
    fun n lo hi hn => ⟨_, inval_accepted hs hn lo hi, fun x hx => mem_keptByInval.mp hx,
      fun x hx hp => mem_keptByInval.mpr ⟨hx, fun h => absurd h hp⟩⟩,
    fun t hp hf he hlo hhi => timeouts_accepted hs hp hf he hlo hhi, fun es hes => ⟨_, route_accepted hs hes,
      fun m hm => smFind_routed_of_unnamed s hm _, ?_⟩,
    fun port es hp hes => ⟨_, slotld_accepted hs hp hes, fun y hy => mem_of_slotted hy, ?_⟩,
    fun n t hn ht hx => ⟨fun hout => ?_, fun hhere => ?_⟩,
    unknownCommand_answers hs⟩
  case refine_1 =>
    intro made
    have hmade : ∀ u keys, exec (.pcreate n ⟨kp, a⟩ k sg) s = .next ((u.newPart n keys sg).told 0) → made u keys :=
      fun u keys he => ⟨_, he, newPart_spec u n keys sg⟩
    exact ⟨pcreate_refused hs hn hkp hk hsg, fun h hk0 => hmade s [] (pcreate_without_keys hs hn hkp hk hsg h hk0),
      fun h hk0 => ⟨fun bs u hr => hmade u _ (pcreate_with_keys hs hn hkp hk hsg h hk0 hr),
        fun c sub v u hr => pcreate_unreadable hs hn hkp hk hsg h hk0 hr⟩⟩
  case refine_2 =>
    intro q rest
    have hrest : q.rest = rest := rest_eq q
    refine ⟨qenable_refused hs hn, fun h => ?_, qdisable_accepted hs hn, wdack_refused hs hn, fun h => ?_,
      fun l hl => ⟨lend_accepted hs hn hl, fun k hk => ldiscard_accepted hs hn hl hk, ldiscard_refused hs hn hl, lpreempt_running hs hn hl,
        lpreempt_placed hs hn hl, lpreempt_refused hs hn hl⟩⟩
    · rw [qenable_accepted hs hn h, ite_engaged, hrest]
      rfl
    · rw [wdack_accepted hs hn h, hrest]
      rfl
  case refine_3 =>
    rintro pre x rest rfl hlast
    obtain ⟨-, hx⟩ := hes x (List.mem_append_right _ List.mem_cons_self)
    exact ⟨_, smFind_routed_of_last s pre x hlast _, routeEntry_spec s hx⟩
  case refine_4 =>
    rintro x rest rfl hlast
    exact mem_slotted_of_unnamed (es := rest) (List.mem_append_right _ (List.mem_singleton.mpr rfl)) fun y hy he =>
      hlast y hy (Prod.mk.inj he).2.symm
  case refine_5 =>
    refine ⟨fun ⟨m, hm, h₁, h₃, hne⟩ => ?_, fun hm => ?_, fun hm => ⟨_, migrate_begun hs hn ht hout hx hm, rfl⟩,
      fun hm hset => migrate_settled hs hn ht (nextIs_of_migrate hm) hset, fun hm hset => migrate_unsettled hs hn ht hset,
      fun hm => migrate_saved hs hn ht hout (nextIs_of_migrate hm), fun hm => migrate_left hs hn ht hout (nextIs_of_migrate hm),
      fun hm => migrate_ended hs hn ht hout (nextIs_of_migrate hm)⟩
    · rw [migrate_abandoned hs hn ht hm h₁ h₃, if_neg (by rw [hm]; exact fun h => hne (Option.some.inj h))]
      rfl
    · rw [migrate_abandoned hs hn ht hm (Nat.le_add_left 1 2) le_rfl, if_pos hm]
      rfl
  case refine_6 =>
    exact ⟨migrate_taken hs hn ht hx hhere, migrate_arrived hs hn ht hx hhere, migrate_not_arrived hs hn ht hhere⟩

end Sys2Proof.Machine
end

section
/-! PROOFS of the family of the change instructions: the words of times, of frontier registers and of capabilities (R236, R237, R245 to R248). -/

namespace Sys2Proof.Machine

/-! ### Reading pairs and comparing times -/

/-- Reading an s register changes nothing. -/
theorem eq_of_rdS {n : Nat} {x : Word} {k k₁ : Wk} (h : Terms.gives (rdS n) k x k₁) : k₁ = k := by
  rw [Terms.gives, rdS, W.bind_of_ok (W.get_apply k)] at h
  split at h <;> cases h
  rfl

/-- Reading an even pair changes nothing. -/
theorem eq_of_rdPair {n : Nat} {x : DWord} {k k₁ : Wk} (h : Terms.gives (rdPair n) k x k₁) : k₁ = k := by
  obtain ⟨lo, k₂, hlo, h⟩ := W.ok_of_bind h
  obtain ⟨hi, k₃, hhi, h⟩ := W.ok_of_bind h
  cases h
  exact (eq_of_rdS hhi).trans (eq_of_rdS hlo)

/-- TCMP's answer, by the order of the two times (R237). -/
theorem tCompare_eq {x y : DWord} {w : Word} (hlt : Terms.before x y ∧ x ≠ y → w = 0) (heq : x = y → w = 1)
    (hgt : Terms.before y x ∧ x ≠ y → w = 2) (hnone : ¬ Terms.before x y → ¬ Terms.before y x → w = 3) : tCompare x y = w := by
  unfold tCompare
  split
  next h => exact (heq h).symm
  next hne =>
    split
    next h => exact (hlt ⟨(tLe_iff x y).mp h, hne⟩).symm
    next h =>
      split
      next h' => exact (hgt ⟨(tLe_iff y x).mp h', hne⟩).symm
      next h' => exact (hnone (mt (tLe_iff x y).mpr h) (mt (tLe_iff y x).mpr h')).symm

theorem tMeet_eq (t u : DWord) : tMeet t u = Terms.timeOf (min (Terms.outer t) (Terms.outer u)) (min (Terms.iter t) (Terms.iter u))
    (min (Terms.inner t) (Terms.inner u)) := by
  simp only [tMeet, mkTime_eq, minBv_toNat, tOuter_toNat, tIter_toNat, tInner_toNat]

theorem passes_iff (f : List DWord) (t : DWord) : passes f t = true ↔ ∀ u ∈ f, ¬ Terms.before u t := by
  simp only [passes, Bool.not_eq_true', Bool.eq_false_iff, ne_eq, inAdvance_iff, not_exists, not_and]

/-- The times of a frontier, as FRD lays them out in a wide value (R247). -/
def frontierLanes (f : List DWord) : Slot := joinLanes 64 ((f.take 4).map (fun t => t.toNat))

/-- Lane `j` of FRD's value is time `j`, and 0 where the frontier has no such time (R247). -/
theorem laneAt_frontierLanes (f : List DWord) {j : Nat} (hj : j < 4) : Terms.laneAt 64 (frontierLanes f) j = (f.getD j 0).toNat := by
  have hfit : 64 * ((f.take 4).map (fun t => t.toNat)).length ≤ 256 := by
    rw [List.length_map, List.length_take]
    omega
  have hlane : ((f.take 4).map (fun t => t.toNat)).getD j 0 = (f.getD j 0).toNat := by
    rw [List.getD_eq_getElem?_getD, List.getElem?_map, List.getElem?_take_of_lt hj, List.getD_eq_getElem?_getD]
    cases f[j]? <;> rfl
  rw [frontierLanes, laneAt_joinLanes hfit, hlane, Nat.mod_eq_of_lt (BitVec.isLt _)]

/-! ### The words -/

section
variable {s : State} {i : Inst} (ht : Terms.OnTurn s i) {d a b : BitVec 5} {x y : DWord} {k k₁ k₂ : Wk}
include ht

section
variable (hx : Terms.gives (rdPair a.toNat) ⟨s, i⟩ x k₁) (hy : Terms.gives (rdPair b.toNat) k₁ y k₂)
include hx hy

theorem tcmp_completes (hd : Terms.gives (wrS d.toNat (tCompare x y)) k₂ () k) : Terms.completes (.tcmp d a b) s k :=
  completes_of_ok rfl ht ((W.bind_of_ok hx).trans ((W.bind_of_ok hy).trans hd))

theorem tjoin_completes (hd : Terms.gives (wrPair d.toNat (tJoin x y)) k₂ () k) : Terms.completes (.tjoin d a b) s k :=
  completes_of_ok rfl ht ((W.bind_of_ok hx).trans ((W.bind_of_ok hy).trans hd))

theorem tmeet_completes (hd : Terms.gives (wrPair d.toNat (tMeet x y)) k₂ () k) : Terms.completes (.tmeet d a b) s k :=
  completes_of_ok rfl ht ((W.bind_of_ok hx).trans ((W.bind_of_ok hy).trans hd))

theorem capx_completes (h : Terms.before x y) : Terms.completes (.capx d a b) s (Terms.withEff k₂ (.capX (d.toNat - 20) x y)) := by
  have hok : ¬ (!tLe x y) = true := by simpa using (tLe_iff x y).mpr h
  exact completes_of_ok rfl ht ((W.bind_of_ok hx).trans ((W.bind_of_ok hy).trans ((W.past_check hok).trans (W.eff_apply ..))))

theorem capx_faults (h : ¬ Terms.before x y) : Terms.faults (.capx d a b) s i .illop 2 y := by
  have hbad : (!tLe x y) = true := by simpa [← tLe_iff] using h
  refine faults_of_error rfl ht ((W.bind_of_ok hx).trans ((W.bind_of_ok hy).trans ?_))
  rw [if_pos hbad]
  exact W.bind_of_error (W.fault_apply ..)

end

section
variable (hx : Terms.gives (rdPair a.toNat) ⟨s, i⟩ x k₁)
include hx

theorem tadv_completes (hd : Terms.gives (wrPair d.toNat (Terms.advanced (Terms.latched k₁ b.toNat).1.times x)) (Terms.latched k₁ b.toNat).2 () k) :
    Terms.completes (.tadv d a b) s k := by
  rw [← advance_eq_advanced] at hd
  exact completes_of_ok rfl ht ((W.bind_of_ok hx).trans ((W.bind_of_ok (rdFrontier_latched ..)).trans hd))

theorem caph_completes : Terms.completes (.caph d a) s (Terms.withEff k₁ (.capH (d.toNat - 20) x)) :=
  completes_of_ok rfl ht ((W.bind_of_ok hx).trans (W.eff_apply ..))

theorem capd_completes : Terms.completes (.capd d a) s (Terms.withEff k₁ (.capD (d.toNat - 20) x)) :=
  completes_of_ok rfl ht ((W.bind_of_ok hx).trans (W.eff_apply ..))

end

theorem frd_completes (hp : (Terms.latched ⟨s, i⟩ a.toNat).2.i.pending (16 + d.toNat) = false) :
    Terms.completes (.frd d a) s (Terms.wroteW (Terms.latched ⟨s, i⟩ a.toNat).2 d.toNat (frontierLanes (Terms.latched ⟨s, i⟩ a.toNat).1.times)) :=
  completes_of_ok rfl ht ((W.bind_of_ok (rdFrontier_latched ..)).trans (wrW_of_free hp _))

theorem frdCnt_completes (hd : Terms.gives (wrS d.toNat (BitVec.ofNat 32 ((if (Terms.latched ⟨s, i⟩ a.toNat).1.apx then 8 else 0) +
      min (Terms.latched ⟨s, i⟩ a.toNat).1.times.length 4))) (Terms.latched ⟨s, i⟩ a.toNat).2 () k) : Terms.completes (.frdCnt d a) s k := by
  have hapx : ∀ b : Bool, b.toNat * 8 = if b then 8 else 0 := by decide
  rw [← hapx] at hd
  exact completes_of_ok rfl ht ((W.bind_of_ok (rdFrontier_latched ..)).trans hd)

section
variable (hx : Terms.gives (rdPair d.toNat) ⟨s, i⟩ x k₁)
include hx

theorem fwait_completes (h : ∀ t ∈ ((s.elem s.cur.patch s.cur.el).ft.getD a.toNat ⟨false, [0]⟩).times, ¬ Terms.before t x) :
    Terms.completes (.fwait d a) s
      { k₁ with i := { k₁.i with ftl := k₁.i.ftl.set a.toNat (some ((s.elem s.cur.patch s.cur.el).ft.getD a.toNat ⟨false, [0]⟩)) } } := by
  have hpass := (passes_iff ..).mpr h
  obtain rfl := eq_of_rdPair hx
  refine completes_of_ok rfl ht ((W.bind_of_ok hx).trans ((W.bind_of_ok (W.elem_apply _)).trans ?_))
  exact (W.past_check (by simpa using hpass)).trans (W.upd_apply ..)

theorem fwait_waits (h : ∃ t ∈ ((s.elem s.cur.patch s.cur.el).ft.getD a.toNat ⟨false, [0]⟩).times, Terms.before t x) :
    Terms.waits (.fwait d a) s i none := by
  have hbehind := (inAdvance_iff ..).mpr h
  obtain rfl := eq_of_rdPair hx
  refine waits_of_error rfl ht ((W.bind_of_ok hx).trans ((W.bind_of_ok (W.elem_apply _)).trans ?_))
  rw [if_pos (by simpa [passes] using hbehind)]
  exact W.bind_of_error (W.throw_apply ..)

end
end

/-- Settles O33: each word by the lemma of what it completes, faults or waits with; the order, the joins and the meets of times by
`tCompare_eq`, `tJoin_eq` and `tMeet_eq`. -/
theorem timeWords : Obligations.TimeWords := by
  unfold Obligations.TimeWords
  intro s i d a b ht
  refine ⟨fun x y k₁ k₂ hx hy => ⟨?_, ?_, ?_, capx_completes ht hx hy, capx_faults ht hx hy⟩,
    fun x k₁ hx => ⟨fun k => tadv_completes ht hx, caph_completes ht hx, capd_completes ht hx⟩,
    ⟨fun hp => ⟨_, frd_completes ht hp, fun j => laneAt_frontierLanes _⟩, fun k => frdCnt_completes ht⟩,
    fun u k₁ hu => ⟨fwait_completes ht hu, fwait_waits ht hu⟩⟩
  · intro k w ⟨hlt, heq, hgt, hnone⟩ hd
    rw [← tCompare_eq hlt heq hgt hnone] at hd
    exact tcmp_completes ht hx hy hd
  · intro k hd
    rw [← tJoin_eq] at hd
    exact tjoin_completes ht hx hy hd
  · intro k hd
    rw [← tMeet_eq] at hd
    exact tmeet_completes ht hx hy hd

end Sys2Proof.Machine
end

section
/-! PROOFS of the family of the change instructions: what consolidating a list of records does (R252). -/

namespace Sys2Proof.Machine

/-! ### The order of records -/

/-- The place of a record in the order by key, then val, then time, as one number (R252). -/
def ARec.rank (x : ARec) : Nat := (x.key.toNat * 2 ^ 64 + x.val.toNat) * 2 ^ 64 + x.time.toNat

theorem ARec.before_eq (x y : ARec) : x.before y = decide (x.rank < y.rank) := by
  have := x.val.isLt
  have := y.val.isLt
  have := x.time.isLt
  have := y.time.isLt
  simp only [ARec.before, ARec.rank, ne_eq, ← BitVec.toNat_inj]
  split
  · exact decide_eq_decide.mpr (by omega)
  · split <;> exact decide_eq_decide.mpr (by omega)

theorem ARec.same_iff (x y : ARec) : x.same y = true ↔ x.key = y.key ∧ x.val = y.val ∧ x.time = y.time := by
  simp only [ARec.same, Bool.and_eq_true, beq_iff_eq, and_assoc]

theorem ARec.rank_eq_of_same {x y : ARec} (h : x.same y = true) : x.rank = y.rank := by
  obtain ⟨hk, hv, ht⟩ := (ARec.same_iff x y).mp h
  rw [ARec.rank, ARec.rank, hk, hv, ht]

theorem ARec.same_of_rank_eq {x y : ARec} (h : x.rank = y.rank) : x.same y = true := by
  have := x.val.isLt
  have := y.val.isLt
  have := x.time.isLt
  have := y.time.isLt
  simp only [ARec.rank] at h
  simp only [ARec.same_iff, ← BitVec.toNat_inj]
  omega

theorem fits32_iff (d : Int) : fits32 d = true ↔ -2 ^ 31 ≤ d ∧ d < 2 ^ 31 := by simp [fits32]

section
variable {α : Type} {rank : α → Nat} {lt : α → α → Bool} (hlt : ∀ x y, lt x y = decide (rank x < rank y))
include hlt

theorem insertBy_sorted (x : α) {l : List α} (hl : l.Pairwise (fun x y => rank x ≤ rank y)) :
    (insertBy lt x l).Pairwise (fun x y => rank x ≤ rank y) := by
  induction l with
  | nil => exact List.pairwise_singleton _ _
  | cons y ys ih =>
    obtain ⟨hy, hys⟩ := List.pairwise_cons.mp hl
    rw [insertBy, hlt]
    split
    next h =>
      have hxy : rank x ≤ rank y := (of_decide_eq_true h).le
      exact List.pairwise_cons.mpr ⟨List.forall_mem_cons.mpr ⟨hxy, fun z hz => hxy.trans (hy z hz)⟩, hl⟩
    next h =>
      have hyx : rank y ≤ rank x := Nat.not_lt.mp fun h' => h (decide_eq_true h')
      refine List.pairwise_cons.mpr ⟨fun z hz => ?_, ih hys⟩
      obtain rfl | hz := List.mem_cons.mp ((insertBy_perm lt x ys).mem_iff.mp hz)
      · exact hyx
      · exact hy z hz

/-- A sort by a rank puts a list in order of rank. -/
theorem sortBy_sorted (l : List α) : (sortBy lt l).Pairwise (fun x y => rank x ≤ rank y) := by
  have hfold : ∀ r : List α, r.Pairwise (fun x y => rank x ≤ rank y) →
      (l.foldl (fun r x => insertBy lt x r) r).Pairwise (fun x y => rank x ≤ rank y) := by
    induction l with
    | nil => exact fun r hr => hr
    | cons x l ih => exact fun r hr => ih _ (insertBy_sorted hlt x hr)
  exact hfold [] .nil

end

/-! ### Sums of diffs -/

/-- The sum of the diffs of the records of one key, val and time. -/
def diffSum (k v t : DWord) (l : List ARec) : Int :=
  ((l.filter (fun x => x.key == k && x.val == v && x.time == t)).map (fun x => x.diff)).sum

section
variable (k v t : DWord)

theorem diffSum_cons (x : ARec) (l : List ARec) :
    diffSum k v t (x :: l) = (if (x.key == k && x.val == v && x.time == t) = true then x.diff else 0) + diffSum k v t l := by
  unfold diffSum
  rw [List.filter_cons]
  split
  · rw [List.map_cons, List.sum_cons]
  · rw [Int.zero_add]

theorem diffSum_perm {l m : List ARec} (h : l.Perm m) : diffSum k v t l = diffSum k v t m :=
  ((h.filter _).map _).sum_eq

/-- Two records of one key, val and time count as one with the sum of their diffs. -/
theorem diffSum_merge {x y : ARec} (h : x.same y = true) (l : List ARec) :
    diffSum k v t (x :: y :: l) = diffSum k v t ({ x with diff := x.diff + y.diff } :: l) := by
  obtain ⟨hk, hv, ht⟩ := (ARec.same_iff x y).mp h
  simp only [diffSum_cons, ← hk, ← hv, ← ht]
  split <;> omega

end

/-! ### Folding a sorted list -/

/-- What stands for a sum that is closed: its record, and none where the sum is 0 (R252). -/
def closedSum (x : ARec) : List ARec := if x.diff = 0 then [] else [x]

theorem mem_closedSum {x y : ARec} : y ∈ closedSum x ↔ y = x ∧ x.diff ≠ 0 := by
  unfold closedSum
  split <;> simp_all

theorem pairwise_closedSum {R : ARec → ARec → Prop} (x : ARec) : (closedSum x).Pairwise R := by
  unfold closedSum
  split
  · exact .nil
  · exact List.pairwise_singleton _ _

theorem diffSum_closedSum (k v t : DWord) (x : ARec) (l : List ARec) : diffSum k v t (closedSum x ++ l) = diffSum k v t (x :: l) := by
  unfold closedSum
  split
  next h => simp [diffSum_cons, h]
  next => rfl

section
variable {cur x : ARec} {r : List ARec}

theorem foldGroups_nil (cur : ARec) : foldGroups cur [] = (closedSum cur, false) := rfl

/-- A record of the open sum's key, val and time is added to it, where the new sum is in range. -/
theorem foldGroups_of_added (hs : cur.same x = true) (hf : fits32 (cur.diff + x.diff) = true) :
    foldGroups cur (x :: r) = foldGroups { cur with diff := cur.diff + x.diff } r := by
  rw [foldGroups, hs, hf]
  rfl

/-- Any other record closes the open sum and opens its own; that one closed a sum for its range where the records are of one key, val
and time. -/
theorem foldGroups_of_closed (h : ¬ (cur.same x = true ∧ fits32 (cur.diff + x.diff) = true)) :
    foldGroups cur (x :: r) = (closedSum cur ++ (foldGroups x r).1, (foldGroups x r).2 || cur.same x) := by
  rw [foldGroups, if_neg (by simpa using h), closedSum]
  change (if cur.diff = 0 then (foldGroups x r).1 else cur :: (foldGroups x r).1, _) = _
  split <;> rfl

end

/-- Folding keeps every sum. -/
theorem diffSum_foldGroups (k v t : DWord) (l : List ARec) : ∀ cur, diffSum k v t (foldGroups cur l).1 = diffSum k v t (cur :: l) := by
  induction l with
  | nil => exact fun cur => by rw [foldGroups_nil, ← diffSum_closedSum, List.append_nil]
  | cons x r ih =>
    intro cur
    by_cases h : cur.same x = true ∧ fits32 (cur.diff + x.diff) = true
    · rw [foldGroups_of_added h.1 h.2, ih, diffSum_merge k v t h.1]
    · rw [foldGroups_of_closed h, diffSum_closedSum, diffSum_cons, ih, ← diffSum_cons]

/-- What folding leaves has diffs that are not 0 and in range, where the records' diffs are in range. -/
theorem foldGroups_diffs (l : List ARec) : ∀ cur, (∀ x ∈ cur :: l, fits32 x.diff = true) →
    ∀ x ∈ (foldGroups cur l).1, x.diff ≠ 0 ∧ fits32 x.diff = true := by
  induction l with
  | nil =>
    intro cur hfit x hx
    obtain ⟨rfl, hne⟩ := mem_closedSum.mp hx
    exact ⟨hne, hfit x List.mem_cons_self⟩
  | cons y r ih =>
    intro cur hfit x hx
    obtain ⟨hcur, hrest⟩ := List.forall_mem_cons.mp hfit
    by_cases h : cur.same y = true ∧ fits32 (cur.diff + y.diff) = true
    · rw [foldGroups_of_added h.1 h.2] at hx
      exact ih _ (List.forall_mem_cons.mpr ⟨h.2, (List.forall_mem_cons.mp hrest).2⟩) x hx
    · rw [foldGroups_of_closed h] at hx
      obtain hx | hx := List.mem_append.mp hx
      · obtain ⟨rfl, hne⟩ := mem_closedSum.mp hx
        exact ⟨hne, hcur⟩
      · exact ih y hrest x hx

/-- Folding makes no record of a new key, val and time. -/
theorem rank_of_mem_foldGroups (l : List ARec) : ∀ cur, ∀ x ∈ (foldGroups cur l).1, ∃ y ∈ cur :: l, x.rank = y.rank := by
  induction l with
  | nil => exact fun cur x hx => ⟨cur, List.mem_cons_self, congrArg ARec.rank (mem_closedSum.mp hx).1⟩
  | cons y r ih =>
    intro cur x hx
    by_cases h : cur.same y = true ∧ fits32 (cur.diff + y.diff) = true
    · rw [foldGroups_of_added h.1 h.2] at hx
      obtain ⟨z, hz, hrank⟩ := ih _ x hx
      obtain rfl | hz := List.mem_cons.mp hz
      · exact ⟨cur, List.mem_cons_self, hrank⟩
      · exact ⟨z, List.mem_cons_of_mem _ (List.mem_cons_of_mem _ hz), hrank⟩
    · rw [foldGroups_of_closed h] at hx
      obtain hx | hx := List.mem_append.mp hx
      · exact ⟨cur, List.mem_cons_self, congrArg ARec.rank (mem_closedSum.mp hx).1⟩
      · obtain ⟨z, hz, hrank⟩ := ih y x hx
        exact ⟨z, List.mem_cons_of_mem _ hz, hrank⟩

/-- Where no sum had to be closed for its range, folding a sorted list leaves one that strictly rises. -/
theorem foldGroups_rises (l : List ARec) : ∀ cur, (cur :: l).Pairwise (fun x y => x.rank ≤ y.rank) → (foldGroups cur l).2 = false →
    (foldGroups cur l).1.Pairwise (fun x y => x.rank < y.rank) := by
  induction l with
  | nil => exact fun cur _ _ => pairwise_closedSum cur
  | cons y r ih =>
    intro cur hsorted hopen
    obtain ⟨hcur, hrest⟩ := List.pairwise_cons.mp hsorted
    obtain ⟨hy, hr⟩ := List.pairwise_cons.mp hrest
    by_cases h : cur.same y = true ∧ fits32 (cur.diff + y.diff) = true
    · rw [foldGroups_of_added h.1 h.2] at hopen ⊢
      exact ih _ (List.pairwise_cons.mpr ⟨fun z hz => hcur z (List.mem_cons_of_mem _ hz), hr⟩) hopen
    · rw [foldGroups_of_closed h] at hopen ⊢
      obtain ⟨hopen, hdiffer⟩ := Bool.or_eq_false_iff.mp hopen
      have hlt : cur.rank < y.rank :=
        lt_of_le_of_ne (hcur y List.mem_cons_self) fun he => Bool.false_ne_true (hdiffer.symm.trans (ARec.same_of_rank_eq he))
      refine List.pairwise_append.mpr ⟨pairwise_closedSum cur, ih y hrest hopen, fun x hx z hz => ?_⟩
      obtain ⟨rfl, -⟩ := mem_closedSum.mp hx
      obtain ⟨w, hw, hrank⟩ := rank_of_mem_foldGroups r y z hz
      obtain rfl | hw := List.mem_cons.mp hw
      · exact hlt.trans_eq hrank.symm
      · exact (hlt.trans_le (hy w hw)).trans_eq hrank.symm

/-- A list that strictly rises and has no diff of 0 is in consolidated form. -/
theorem consolidated_of_rises : ∀ {l : List ARec}, l.Pairwise (fun x y => x.rank < y.rank) → (∀ x ∈ l, x.diff ≠ 0) → consolidated l = true
  | [], _, _ => rfl
  | [x], _, hne => by simpa [consolidated] using hne
  | x :: y :: r, hl, hne => by
    obtain ⟨hx, hr⟩ := List.pairwise_cons.mp hl
    obtain ⟨hnx, hnr⟩ := List.forall_mem_cons.mp hne
    have hbefore : x.before y = true := by simpa [ARec.before_eq] using hx y List.mem_cons_self
    simp [consolidated, hnx, hbefore, consolidated_of_rises hr hnr]

/-! ### Consolidating -/

/-- Consolidating is nothing for no records, and folding the sorted list else. -/
theorem consolidate_cases (l : List ARec) : (l = [] ∧ consolidate l = ([], false)) ∨
    ∃ x r, (x :: r).Perm l ∧ (x :: r).Pairwise (fun x y => x.rank ≤ y.rank) ∧ consolidate l = foldGroups x r := by
  have hperm := sortBy_perm ARec.before l
  have hsorted := sortBy_sorted ARec.before_eq l
  unfold consolidate
  generalize sortBy ARec.before l = m at hperm hsorted
  cases m with
  | nil => exact .inl ⟨hperm.symm.eq_nil, rfl⟩
  | cons x r => exact .inr ⟨x, r, hperm, hsorted, rfl⟩

/-- Settles O38: the sums by `diffSum_foldGroups`, the diffs by `foldGroups_diffs`, and the form by `foldGroups_rises`, of the list sorted by
key, val and time. -/
theorem consolidationKeepsSums : Obligations.ConsolidationKeepsSums := by
  unfold Obligations.ConsolidationKeepsSums
  intro l hl
  obtain ⟨rfl, hr⟩ | ⟨x, r, hperm, hsorted, hr⟩ := consolidate_cases l
  · simp [hr, consolidated]
  · rw [hr]
    have hdiffs := foldGroups_diffs r x fun y hy => (fits32_iff _).mpr (hl y (hperm.mem_iff.mp hy))
    refine ⟨fun k v t => (diffSum_foldGroups k v t r x).trans (diffSum_perm k v t hperm),
      fun y hy => ⟨(hdiffs y hy).1, (fits32_iff _).mp (hdiffs y hy).2⟩, fun hopen => ?_⟩
    have hrises := foldGroups_rises r x hsorted hopen
    refine ⟨consolidated_of_rises hrises fun y hy => (hdiffs y hy).1, hrises.imp fun {y z} hlt hsame => ?_⟩
    exact hlt.ne (ARec.rank_eq_of_same ((ARec.same_iff y z).mpr hsame))

end Sys2Proof.Machine
end

section
/-! PROOFS of the family of the change instructions: walks and the caches that they fill, the walks that give up, frontier installs, and
deadlock probes (R238, R243, R318, R343 to R348, R398 to R400). -/

namespace Sys2Proof.Machine

/-! ### A cache that takes an entry (R348) -/

theorem CacheSite.room_pos (a : CacheSite) : 0 < a.room := by
  cases a <;> simp [CacheSite.room]

/-- The entries that a cache holds. -/
def heldAt (a : CacheSite) (l : List CacheEntry) : List CacheEntry := l.filter (fun x => x.site == a)

section
variable (x : DWord) (c : CacheEntry) (l : List CacheEntry)

/-- An entry of a cache that is full gives way, one that the new entry's cache holds, and none of a cache that has room (R348; log 41). -/
theorem fillCache_cases : (c.site.room ≤ (heldAt c.site l).length ∧ ∃ out ∈ heldAt c.site l, fillCache x c l = l.filter (fun d => d != out) ++ [c]) ∨
    ((heldAt c.site l).length < c.site.room ∧ fillCache x c l = l ++ [c]) := by
  by_cases h : c.site.room ≤ (heldAt c.site l).length
  · have hpos : 0 < (heldAt c.site l).length := c.site.room_pos.trans_le h
    have hidx : x.toNat / 2 ^ 32 % (heldAt c.site l).length < (heldAt c.site l).length := Nat.mod_lt _ hpos
    refine .inl ⟨h, (heldAt c.site l).getD (x.toNat / 2 ^ 32 % (heldAt c.site l).length) c, ?_, congrArg (· ++ [c]) (if_pos h)⟩
    rw [List.getD_eq_getElem _ _ hidx]
    exact List.getElem_mem hidx
  · exact .inr ⟨Nat.not_le.mp h, congrArg (· ++ [c]) (if_neg h)⟩

variable {x c l} {a : CacheSite}

theorem mem_fillCache_self : c ∈ fillCache x c l := List.mem_append_right _ List.mem_cons_self

theorem mem_of_mem_fillCache {d : CacheEntry} (h : d ∈ fillCache x c l) (hne : d ≠ c) : d ∈ l := by
  obtain ⟨-, out, -, he⟩ | ⟨-, he⟩ := fillCache_cases x c l <;> rw [he] at h
  · obtain h | h := List.mem_append.mp h
    · exact List.mem_of_mem_filter h
    · exact absurd (List.mem_singleton.mp h) hne
  · obtain h | h := List.mem_append.mp h
    · exact h
    · exact absurd (List.mem_singleton.mp h) hne

/-- The entries of other caches stay. -/
theorem mem_fillCache_of_elsewhere (hc : c.site = a) {d : CacheEntry} (h : d ∈ l) (hs : d.site ≠ a) : d ∈ fillCache x c l := by
  subst hc
  obtain ⟨-, out, hout, he⟩ | ⟨-, he⟩ := fillCache_cases x c l <;> rw [he] <;> refine List.mem_append_left _ ?_
  · have hne : d ≠ out := fun e => hs (e ▸ beq_iff_eq.mp (List.mem_filter.mp hout).2)
    exact List.mem_filter.mpr ⟨h, bne_iff_ne.mpr hne⟩
  · exact h

/-- A cache that has room keeps all its entries. -/
theorem mem_fillCache_of_room (hc : c.site = a) {d : CacheEntry} (h : d ∈ l) (hroom : (heldAt a l).length < a.room) : d ∈ fillCache x c l := by
  subst hc
  obtain ⟨hfull, -⟩ | ⟨-, he⟩ := fillCache_cases x c l
  · exact absurd hfull (Nat.not_le.mpr hroom)
  · exact he ▸ List.mem_append_left _ h

/-- A cache that holds no more entries than it may does so afterwards. -/
theorem heldAt_fillCache_le (hc : c.site = a) (h : (heldAt a l).length ≤ a.room) : (heldAt a (fillCache x c l)).length ≤ a.room := by
  subst hc
  have happ : ∀ m, (heldAt c.site (m ++ [c])).length = (heldAt c.site m).length + 1 := fun m => by simp [heldAt]
  obtain ⟨-, out, hout, he⟩ | ⟨hroom, he⟩ := fillCache_cases x c l <;> rw [he, happ]
  · have hcomm : heldAt c.site (l.filter (fun d => d != out)) = (heldAt c.site l).filter (fun d => d != out) := by
      simp only [heldAt, List.filter_filter, Bool.and_comm]
    have hless : ((heldAt c.site l).filter (fun d => d != out)).length < (heldAt c.site l).length :=
      List.length_filter_lt_length_iff_exists.mpr ⟨out, hout, by simp⟩
    rw [hcomm]
    omega
  · exact hroom

end

/-! ### Walks (R343 to R348) -/

/-- The walk is one of a die for a page or tile. -/
def Walk.isFor (w : Walk) (die part : Nat) (page : Option Nat × Nat) : Bool :=
  w.die == die && w.part == part && w.tens == page.1 && w.page == page.2

theorem Walk.isFor_iff (w : Walk) (die part : Nat) (page : Option Nat × Nat) :
    w.isFor die part page = true ↔ w.die = die ∧ w.part = part ∧ w.tens = page.1 ∧ w.page = page.2 := by
  simp only [Walk.isFor, Bool.and_eq_true, beq_iff_eq, and_assoc]

theorem walkResult_site {s : State} {a : CacheSite} {part : Nat} {tensor : Bool} {fa : DWord} {c : CacheEntry}
    (h : s.walkResult a part tensor fa = .ok c) : c.site = a := by
  have hbind : ∀ {α : Type} {t : Tr α} {f : α → CacheEntry}, t.bind (fun x => .ok (f x)) = .ok c → (∀ x, (f x).site = a) → c.site = a := by
    intro α t f h hf
    cases t with
    | ok x =>
      cases h
      exact hf x
    | fault => cases h
    | wait => cases h
  unfold State.walkResult at h
  split at h
  · dsimp only at h
    split at h
    · cases h
    · exact hbind h fun _ => rfl
  · exact hbind h fun _ => rfl

/-- The entries of a table that a walk leaves in its cache: those of other caches, and of its own those that cover no address of the region
that it found (R343, R347). -/
def CacheEntry.apart (c d : CacheEntry) (a : CacheSite) (part : Nat) : Bool := d.site != a || !(uncover part c.tens c.lo c.hi [d]).isEmpty

theorem CacheEntry.apart_iff (c d : CacheEntry) (a : CacheSite) (part : Nat) :
    c.apart d a part = true ↔ (d.site = a → d.part = part → d.tens = c.tens → d.hi < c.lo ∨ c.hi < d.lo) := by
  have hcover : (uncover part c.tens c.lo c.hi [d]).isEmpty =
      (d.part == part && d.tens == c.tens && decide (d.lo ≤ c.hi) && decide (c.lo ≤ d.hi)) := by
    rw [uncover, List.filter_cons, List.filter_nil]
    generalize (d.part == part && d.tens == c.tens && decide (d.lo ≤ c.hi) && decide (c.lo ≤ d.hi)) = b
    cases b <;> rfl
  rw [CacheEntry.apart, hcover]
  simp only [Bool.or_eq_true, bne_iff_ne, Bool.not_eq_true', Bool.and_eq_false_iff, beq_eq_false_iff_ne, decide_eq_false_iff_not, not_le]
  tauto

/-- The machine once a walk has asked for a node's entry: an answer that is there already is left to the walk's own read (R345). -/
def Via.asked (s : State) : Via → State
  | .wait t _ | .fault _ _ t => t
  | .got _ _ => s

theorem request_onlyFabric {s t : State} {a : Asked} {k : Packet} (h : s.request a k = some t) : ∃ f, t = { s with fabric := f } := by
  obtain ⟨u, hu, rfl⟩ := Option.map_eq_some_iff.mp h
  obtain ⟨r, -, rfl⟩ := Option.map_eq_some_iff.mp hu
  exact ⟨_, rfl⟩

/-- A request to another module changes no more than the fabric's own records. -/
theorem via_onlyFabric (s : State) (ag : AgentId) (acc : Option Nat) (pl : Place) (len : Nat) (write : Bool) (fa : DWord) (k : Packet) :
    ∃ f, (s.via ag acc pl len write fa k).asked s = { s with fabric := f } := by
  unfold State.via
  split
  · dsimp only
    split
    · exact ⟨_, rfl⟩
    · split
      · exact ⟨_, rfl⟩
      · next h => exact request_onlyFabric h
  · split
    · exact ⟨_, rfl⟩
    · exact ⟨_, rfl⟩
    · exact ⟨_, rfl⟩

section
variable {s : State} {part : Nat} {tensor : Bool} {a : DWord}

/-- The machine once a walk has drawn which cache it fills (R348; log 41). -/
def State.walkDrawn (s : State) : State := { s with free := s.free + 1 }

/-- The cache that a walk draws. -/
def State.walkSite (s : State) : CacheSite := siteOf (Config.freeDWord s.free)

/-- The walks in flight but those that are for the same page or tile on the die of the cache that is drawn. -/
def State.otherWalks (s : State) (part : Nat) (page : Option Nat × Nat) : List Walk :=
  s.walks.filter (fun w => !w.isFor s.walkSite.onDie part page)

theorem exec_walk_full (hroom : s.walkRoom s.walkSite.onDie part (walkPage tensor a).1 (walkPage tensor a).2 = false) :
    exec (.walk part tensor a) s = .next s.walkDrawn := by
  have hstop : ((!tensor && bits a 63 56 != 0) || !s.walkDrawn.walkRoom s.walkSite.onDie part (walkPage tensor a).1 (walkPage tensor a).2) = true := by
    rw [show s.walkDrawn.walkRoom s.walkSite.onDie part _ _ = false from hroom, Bool.not_false, Bool.or_true]
  exact if_pos hstop

section
variable (hlow : tensor = false → a.toNat < 2 ^ 56)
  (hroom : s.walkRoom s.walkSite.onDie part (walkPage tensor a).1 (walkPage tensor a).2 = true)
include hlow hroom

/-- A walk of an address that has its region, for which its die has room, is made. -/
theorem walk_is_made :
    ¬ ((!tensor && bits a 63 56 != 0) || !s.walkDrawn.walkRoom s.walkSite.onDie part (walkPage tensor a).1 (walkPage tensor a).2) = true := by
  have hbits : tensor = false → bits a 63 56 = 0 := fun h => by
    have := hlow h
    simp only [bits]
    omega
  rw [show s.walkDrawn.walkRoom s.walkSite.onDie part _ _ = true from hroom]
  cases tensor with
  | false => simp [hbits rfl]
  | true => simp

theorem exec_walk_found {c : CacheEntry} (h : s.walkDrawn.walkResult s.walkSite part tensor a = .ok c) : exec (.walk part tensor a) s =
    .next { s.walkDrawn.walkEnds part (s.otherWalks part (walkPage tensor a)) with
      cache := fillCache (Config.freeDWord s.free) c (s.cache.filter (fun d => c.apart d s.walkSite part)) } := by
  refine (if_neg (walk_is_made hlow hroom)).trans ?_
  change (match s.walkDrawn.walkResult s.walkSite part tensor a with | .ok _ => _ | .fault _ _ => _ | .wait => _ : Res) = _
  rw [h]
  rfl

theorem exec_walk_fault {u : Cause} {sub : Nat} (h : s.walkDrawn.walkResult s.walkSite part tensor a = .fault u sub) :
    exec (.walk part tensor a) s = .next (s.walkDrawn.walkEnds part (s.otherWalks part (walkPage tensor a))) := by
  refine (if_neg (walk_is_made hlow hroom)).trans ?_
  change (match s.walkDrawn.walkResult s.walkSite part tensor a with | .ok _ => _ | .fault _ _ => _ | .wait => _ : Res) = _
  rw [h]
  rfl

omit hlow hroom

/-- The machine with a new walk for a page or tile in flight, which waits for a node under pull or for one of another module (R345). -/
def State.walkBegun (s : State) (part : Nat) (page : Option Nat × Nat) (pull : Bool) : State :=
  { s.walkDrawn with walks := s.otherWalks part page ++ [⟨s.walkSite.onDie, pull, part, page.1, page.2, s.clock.ns, none⟩] }

/-- The machine with such a walk in flight: one that is already stays as it is (R348). -/
def State.walkNoted (s : State) (part : Nat) (page : Option Nat × Nat) (pull : Bool) : State :=
  if s.walks.any (fun w => w.isFor s.walkSite.onDie part page && w.gaveUp.isNone && w.pull == pull) = true then s.walkDrawn
  else s.walkBegun part page pull

theorem walkNoted_of_new {page : Option Nat × Nat} {pull : Bool}
    (h : ∀ w ∈ s.walks, w.isFor s.walkSite.onDie part page = true → w.gaveUp ≠ none ∨ w.pull ≠ pull) :
    s.walkNoted part page pull = s.walkBegun part page pull := by
  refine if_neg ?_
  simp only [List.any_eq_true, Bool.and_eq_true, beq_iff_eq, Option.isNone_iff_eq_none]
  rintro ⟨w, hw, ⟨hsame, hlive⟩, hpull⟩
  exact (h w hw hsame).elim (fun h => h hlive) (fun h => h hpull)

/-- A walk that stands at a node of another module asks for its entry by RD (R345, R411). -/
def State.walkAsks (s : State) (part : Nat) (a : DWord) : Option Nat → State
  | none => s
  | some b =>
    let pl : Place := ⟨b, .rc, false, false⟩
    (s.via (.cmdProc part) none pl 8 false a (packet 0 .dev ((pl.module).getD 0) (s.identOf part) 8 0 0 pl.pa [])).asked s

theorem walkAsks_onlyFabric (s : State) (part : Nat) (a : DWord) (far : Option Nat) : ∃ f, s.walkAsks part a far = { s with fabric := f } := by
  cases far with
  | none => exact ⟨_, rfl⟩
  | some b => exact via_onlyFabric ..

include hlow hroom

theorem exec_walk_wait (h : s.walkDrawn.walkResult s.walkSite part tensor a = .wait) : exec (.walk part tensor a) s =
    .next ((s.walkNoted part (walkPage tensor a) (s.walkDrawn.walkFar s.walkSite part tensor a).isNone).walkAsks part a
      (s.walkDrawn.walkFar s.walkSite part tensor a)) := by
  refine (if_neg (walk_is_made hlow hroom)).trans ?_
  change (match s.walkDrawn.walkResult s.walkSite part tensor a with | .ok _ => _ | .fault _ _ => _ | .wait => _ : Res) = _
  rw [h]
  dsimp only
  split
  next hfar =>
    have hfar : s.walkDrawn.walkFar s.walkSite part tensor a = none := hfar
    exact congrArg (fun far => Host.Outcome.next (State.walkAsks _ part a far)) hfar.symm
  next b hfar =>
    have hfar : s.walkDrawn.walkFar s.walkSite part tensor a = some b := hfar
    refine Eq.trans ?_ (congrArg (fun far => Host.Outcome.next (State.walkAsks _ part a far)) hfar.symm)
    split <;> next hv => exact congrArg (fun v => Host.Outcome.next (Via.asked _ v)) hv.symm

/-- A walk that finds its page fills the cache that was drawn: with what it found, with what stood there and covers no address of that,
and, in a cache that is full, with one entry less (R343, R347, R348; log 41). -/
theorem walk_fills {c : CacheEntry} (h : s.walkDrawn.walkResult s.walkSite part tensor a = .ok c) :
    ∃ t, exec (.walk part tensor a) s = .next t ∧ c.site = s.walkSite ∧ c ∈ t.cache ∧ t.walks = s.otherWalks part (walkPage tensor a) ∧
      (∀ x, x ∈ t.cache → x ≠ c → x ∈ s.cache ∧ (x.site = s.walkSite → x.part = part → x.tens = c.tens → x.hi < c.lo ∨ c.hi < x.lo)) ∧
      (∀ x ∈ s.cache, x.site ≠ s.walkSite → x ∈ t.cache) ∧
      ((heldAt s.walkSite s.cache).length < s.walkSite.room → ∀ x ∈ s.cache,
        (x.part ≠ part ∨ x.tens ≠ c.tens ∨ x.hi < c.lo ∨ c.hi < x.lo) → x ∈ t.cache) ∧
      ((heldAt s.walkSite s.cache).length ≤ s.walkSite.room → (heldAt s.walkSite t.cache).length ≤ s.walkSite.room) ∧ t.mem = s.mem := by
  have hsite := walkResult_site h
  let kept := s.cache.filter (fun d => c.apart d s.walkSite part)
  have hkept : ∀ d, d ∈ kept ↔ d ∈ s.cache ∧ (d.site = s.walkSite → d.part = part → d.tens = c.tens → d.hi < c.lo ∨ c.hi < d.lo) :=
    fun d => by rw [List.mem_filter, CacheEntry.apart_iff]
  have hfewer : (heldAt s.walkSite kept).length ≤ (heldAt s.walkSite s.cache).length := (List.filter_sublist.filter _).length_le
  refine ⟨_, exec_walk_found hlow hroom h, hsite, mem_fillCache_self, rfl, fun x hx hne => (hkept x).mp (mem_of_mem_fillCache hx hne),
    fun x hx hs => mem_fillCache_of_elsewhere hsite ((hkept x).mpr ⟨hx, fun e => absurd e hs⟩) hs, fun hspace x hx hx' => ?_,
    fun hle => heldAt_fillCache_le hsite (hfewer.trans hle), rfl⟩
  refine mem_fillCache_of_room hsite ((hkept x).mpr ⟨hx, fun _ hp ht => ?_⟩) (hfewer.trans_lt hspace)
  exact (hx'.resolve_left (not_not_intro hp)).resolve_left (not_not_intro ht)

/-- A walk that meets a node under pull or one of another module is in flight from then on, and asks for the other module's node (R345). -/
theorem walk_waits (h : s.walkDrawn.walkResult s.walkSite part tensor a = .wait)
    (hnew : ∀ w ∈ s.walks, w.isFor s.walkSite.onDie part (walkPage tensor a) = true →
      w.gaveUp ≠ none ∨ w.pull ≠ (s.walkDrawn.walkFar s.walkSite part tensor a).isNone) :
    ∃ t, exec (.walk part tensor a) s = .next t ∧
      t.walks = s.otherWalks part (walkPage tensor a) ++ [⟨s.walkSite.onDie, (s.walkDrawn.walkFar s.walkSite part tensor a).isNone, part,
        (walkPage tensor a).1, (walkPage tensor a).2, s.clock.ns, none⟩] ∧
      t.cache = s.cache ∧ t.mem = s.mem ∧ (s.walkDrawn.walkFar s.walkSite part tensor a = none → t.fabric = s.fabric) := by
  have hstep := exec_walk_wait hlow hroom h
  rw [walkNoted_of_new hnew] at hstep
  refine ⟨_, hstep, ?_⟩
  generalize s.walkDrawn.walkFar s.walkSite part tensor a = far
  obtain ⟨f, hf⟩ := walkAsks_onlyFabric (s.walkBegun part (walkPage tensor a) far.isNone) part a far
  refine ⟨congrArg State.walks hf, (congrArg State.cache hf :), (congrArg State.mem hf :), fun hnone => ?_⟩
  rw [hnone]
  rfl

end
end

/-! ### Walks that give up (R345) -/

/-- TABLE_MIGRATE turns each walk for the address that has waited 200 µs for a node under pull into one that has given up. -/
theorem tableMigrate_walks (s : State) (part : Nat) (a : DWord) : ∃ t, exec (.tableMigrate part a) s = .next t ∧
    t = { s with walks := t.walks } ∧ t.walks.length = s.walks.length ∧ ∀ j < s.walks.length, let w := s.walks.getD j default
      t.walks.getD j default = if w.pull = true ∧ w.part = part ∧ (w.tens, w.page) = walkPage w.tens.isSome a ∧ w.since + 200000 ≤ s.clock.ns ∧
        w.gaveUp = none then { w with gaveUp := some s.clock.ns } else w := by
  refine ⟨_, rfl, rfl, List.length_map .., fun j hj => ?_⟩
  simp only [List.getD_eq_getElem?_getD, List.getElem?_map, List.getElem?_eq_getElem hj, Option.map_some, Option.getD_some]

/-! ### Frontier installs (R238, R243, R318) -/

section
variable {s : State} {p : Nat} (h : s.loadStored p = true)
include h

theorem exec_installStep (e q : Nat) : exec (.installStep p e q) s =
    .next (s.setElem p e ((s.elem p e).install q (frontierOf ((s.stamps p).at_ (p, e, q))))) := if_pos h

/-- The patch with each element's frontier registers moved on. -/
def State.exchanged (s : State) (p : Nat) : Patch :=
  { s.patch p with elems := (s.patch p).elems.map (fun v =>
      (v.1, (List.range 4).foldl (fun (w : Elem) q => w.install q (frontierOf ((s.stamps p).at_ (p, v.1, q)))) v.2)) }

theorem exec_frontCountExchange : exec (.frontCountExchange p) s = .next (s.setPatch p (s.exchanged p)) := if_pos h

/-- FRONT_COUNT_EXCHANGE moves the registers of each element of the patch on, and of no other patch. -/
theorem frontCountExchange_elems (e : Nat) : ∃ t, exec (.frontCountExchange p) s = .next t ∧
    (∀ v, (e, v) ∈ (s.patch p).elems →
      (e, (List.range 4).foldl (fun (w : Elem) q => w.install q (frontierOf ((s.stamps p).at_ (p, e, q)))) v) ∈ (t.patch p).elems) ∧
    ∀ q, q ≠ p → t.patch q = s.patch q := by
  refine ⟨_, exec_frontCountExchange h, fun v hv => ?_, fun q hq => patch_setPatch_ne _ _ hq⟩
  rw [patch_setPatch_same]
  exact List.mem_map.mpr ⟨(e, v), hv, rfl⟩

end

section
variable {v : Elem} {q : Nat} {f : Frontier}

/-- A frontier moves on where each of its times is in advance of the one that stands. -/
theorem movesOn_iff : f.times.all (fun t => inAdvance t (v.ft.getD q ⟨false, [0]⟩).times) = true ↔
    ∀ t ∈ f.times, ∃ u ∈ (v.ft.getD q ⟨false, [0]⟩).times, Terms.before u t := by
  simp only [List.all_eq_true, inAdvance_iff]

theorem install_of_movesOn (h : ∀ t ∈ f.times, ∃ u ∈ (v.ft.getD q ⟨false, [0]⟩).times, Terms.before u t) :
    v.install q f = { v with ft := v.ft.set q f } := if_pos (movesOn_iff.mpr h)

theorem install_of_not_movesOn (h : ¬ ∀ t ∈ f.times, ∃ u ∈ (v.ft.getD q ⟨false, [0]⟩).times, Terms.before u t) : v.install q f = v :=
  if_neg fun h' => h (movesOn_iff.mp h')

end

/-! ### Deadlock probes (R398 to R400) -/

/-- When an element that was found blocked at a time sends its next probe (R399, R444). -/
def State.probeDue (s : State) (p t : Nat) : Option Nat → Nat
  | none => t + s.cyclesOf p 16384
  | some k => k + s.cyclesOf p (2 ^ 20)

theorem exec_deadlockProbe_due {s : State} {p e t : Nat} (hs : s.still p e = false) (hb : (s.elem p e).blocked = some t)
    (hblocked : s.isBlocked p e = true) (hdue : s.probeDue p t (s.elem p e).probed ≤ s.clock.n) :
    exec (.deadlockProbe p e) s = .next ((s.setElem p e { s.elem p e with probed := some s.clock.n }).sendProbes p e (s.context p e)
      s.clock.n [s.context p e]) := by
  change execDeadlockProbe p e s = _
  simp only [execDeadlockProbe, hs, hblocked, hb]
  exact if_neg (Nat.not_lt.mpr hdue)

/-- A probe that has stood for 4 cycles at an element of its load that is blocked proves a cycle, is dropped, or goes on (R399, R400). -/
theorem exec_probeForward {s : State} {q n : Nat} {x : Probe} {l : Load} (hx : s.probes.find? (fun y => y.n == n && y.q == q) = some x)
    (hl : s.loads.find? (fun l => l.q == q) = some l) :
    let r := l.patches.getD (x.at_ / 64) 0
    let f := x.at_ % 64
    let t : State := { s with probes := s.probes.filter (fun y => !(y.n == n && y.q == q)) }
    exec (.probeForward q n) s = .next (
      if s.clock.n < x.since + s.cyclesOf r 4 then s
      else if l.patches.length ≤ x.at_ / 64 then t
      else if s.still r f = true ∨ s.isBlocked r f = false then t
      else if x.at_ = x.origin then t.deadlock r x.path
      else if x.at_ < x.origin ∨ (x.origin, x.round) ∈ (s.elem r f).fwd then t
      else (t.setElem r f { s.elem r f with fwd := (x.origin, x.round) :: (s.elem r f).fwd }).sendProbes r f x.origin x.round
        (x.path ++ [x.at_])) := by
  intro r f t
  change execProbeForward q n s = _
  simp only [execProbeForward, hx, hl, Bool.or_eq_true, decide_eq_true_eq, Bool.not_eq_true', List.contains_iff_mem]
  simp only [apply_ite Host.Outcome.next]
  by_cases hpast : l.patches.length ≤ x.at_ / 64
  · simp only [hpast, true_or, if_true]
    rfl
  · simp only [hpast, false_or, if_false]
    rfl

/-- Settles O49: walks by `walk_fills` and `walk_waits`, installs by `install_of_movesOn`, probes by `exec_deadlockProbe_due` and
`exec_probeForward`. -/
theorem walksAndFrontiers : Obligations.WalksAndFrontiers := by
  unfold Obligations.WalksAndFrontiers
  intro s p e
  refine ⟨fun part tensor a hlow => ?_, fun h => ⟨exec_installStep h e, frontCountExchange_elems h e⟩,
    fun v q f _ => ⟨install_of_movesOn, install_of_not_movesOn⟩,
    fun hs t hb hblocked hdue => exec_deadlockProbe_due hs hb hblocked ?_, fun _ => rfl, fun q n x l => exec_probeForward⟩
  · intro page site s₀ same others
    have hothers : others = s.otherWalks part (walkPage tensor a) := by
      refine List.filter_congr fun w _ => ?_
      rw [Bool.eq_iff_iff, Bool.not_eq_true', Bool.not_eq_true', decide_eq_false_iff_not, Bool.eq_false_iff, ne_eq, Walk.isFor_iff]
      exact Iff.rfl
    rw [hothers]
    refine ⟨fun hroom => ⟨fun c => walk_fills hlow hroom, fun u sub h => ⟨_, exec_walk_fault hlow hroom h, rfl, rfl, rfl⟩, fun h hnew =>
      walk_waits hlow hroom h fun w hw hsame => hnew w hw ((Walk.isFor_iff ..).mp hsame)⟩, exec_walk_full, tableMigrate_walks s part a⟩
  · revert hdue
    unfold State.probeDue
    cases (s.elem p e).probed <;> exact id

end Sys2Proof.Machine
end
